-- ==== Sys2Proof/Word.lean ====
section
/-! DEFINITION. The words of the Skolith and their plainest arithmetic (spec/00_scope.md R6, R7; spec/02_clauses_and_encoding.md R59, R78). -/

namespace Sys2Proof

/-- One byte of memory (R6). -/
abbrev Byte := BitVec 8

/-- A 32-bit register or instruction word (R59, R78). -/
abbrev W32 := BitVec 32

/-- A 64-bit value: a register pair, an address, a program counter (R78, R87). -/
abbrev W64 := BitVec 64

/-- A mask of the lanes of one team, at most 1,024; lanes the team lacks are 0 (R129). -/
abbrev Mask := BitVec 1024

/-- The sticky flags, laid out as ASTICKY[6:0]: RFAULT IDZ NV DZ OF UF NX (R158). -/
abbrev Flags := BitVec 7

end Sys2Proof
end

