-- ==== Sys2Proof/Config.lean ====
section
/-! DEFINITION. What an implementation fixes and what the spec leaves open. A constant without a body is a free value: nothing can be proved about it but that it is one value. -/

namespace Sys2Proof.Config

/-- The result an implementation gives for one of the words of R221 whose result is bounded and not fixed: arguments
are the word's FN, its T code and the operand's bits. The model takes it only where it lies within the bound of R221
(log entry 8). -/
opaque approx : Nat → Nat → Nat → Nat

/-- The cycles that a step takes on a die beyond one; the argument is 8 times the steps since the die's reset, plus the die (log entry 4). -/
opaque extraCycles : Nat → Nat

/-- The order in which the elements of one die's open choices fall where the spec gives no order; the argument numbers
the choices (log entry 3). -/
opaque choice : Nat → Nat

/-- The scale code that MTRQ gives a run with a NaN element, for which R381 states none; the argument numbers the
uses of free values. -/
opaque requantScale : Nat → BitVec 8

/-- The element that MTRQ gives for a NaN into a format without a NaN, which R381 does not state. -/
opaque requantNan : Nat → BitVec 8

/-- The sign of a zero that rounding an exact zero gives in the ray tests, which R407 and R409 do not state: true for
minus. The arguments are the value (0 t, 1 u, 2 v) and the exact operands of the test, so that R412 holds. -/
opaque rayZeroSign : Nat → List Int → Bool

/-- The code in an entry of the RAS log for each kind of event, which R485 does not give: 0 correction, 1 to 4 retirement of a
core, channel, lane or way, 5 confined error, 6 error that no unit confines, 7 log overflow, 8 reset of a virtual function. -/
opaque rasKind : Nat → BitVec 8

/-- What the STATE field of a ray holds that has ended and whose final result waits, which R435 does not give: one of the codes that it gives to
no state, counted from 4 (log entry 90). -/
opaque endedState : Nat

/-- The bytes of the four context-save tables that the firmware loads at boot, which the spec does not give (R196). -/
opaque saveTable : Nat → Nat → BitVec 8

/-- The device numbers that a device of the system holds, which is the system's (R476). -/
opaque deviceHeld : Nat → Bool

end Sys2Proof.Config
end

