-- ==== Sys2Proof/Machine/Flags.lean ====
section
/-! DEFINITION. The sticky flags and SCC: their bits, what sets them among the scalar words, the conditions that read them
(spec/03_number_and_stream_formats.md R111; spec/04_team_sequencer.md R136, R139, R140, R158). The flags of a rounding are computed
with its result, in Machine/Float.lean. -/

namespace Sys2Proof.Machine

/-! ### The sticky flags (R111, R158) -/

/-- Sticky flag bits (R158, register 0x006). -/
def flagNX : Flags := 1
/-- UF. -/
def flagUF : Flags := 2
/-- OF. -/
def flagOF : Flags := 4
/-- DZ. -/
def flagDZ : Flags := 8
/-- NV. -/
def flagNV : Flags := 16
/-- IDZ. -/
def flagIDZ : Flags := 32
/-- RFAULT. -/
def flagRF : Flags := 64

/-- The quotient rounded towards zero, with the flags of R139. -/
def sdivide (signed : Bool) (x y : W32) : W32 × Flags :=
  if y = 0 then (0xFFFFFFFF, flagIDZ)
  else if signed then
    if x = 0x80000000 && y = 0xFFFFFFFF then (0x80000000, flagOF) else (x.sdiv y, 0)
  else (x.udiv y, 0)

/-! ### SCC (R136, R140, R158) -/

/-- sA below sB, signed for .i32 and unsigned for .n32. -/
def sLess (signed : Bool) (x y : W32) : Bool := if signed then x.slt y else x.ult y

/-- SCC after SCMP: EQ, signed LT, LTU of its operands, whatever its T (R140). -/
def sccOf (x y : W32) : BitVec 3 := BitVec.ofBool (x.ult y) ++ BitVec.ofBool (x.slt y) ++ BitVec.ofBool (x == y)

/-- The conditions of SCMP, by SUB (R140). -/
def scmpHolds (k : BitVec 3) (lt eq : Bool) : Bool :=
  match k.toNat with
  | 0 => eq
  | 1 => !eq
  | 2 => lt
  | 3 => !lt
  | 4 => !lt && !eq
  | _ => lt || eq

/-- SCC: EQ, LT and LTU (R158). -/
def sccEq (c : BitVec 3) : Bool := c.getLsbD 0
/-- SCC.LT. -/
def sccLt (c : BitVec 3) : Bool := c.getLsbD 1
/-- SCC.LTU. -/
def sccLtu (c : BitVec 3) : Bool := c.getLsbD 2

/-- The conditions of BRS (R136). -/
def brsHolds (k : BitVec 4) (c : BitVec 3) : Bool :=
  match k.toNat with
  | 0 => sccEq c
  | 1 => !sccEq c
  | 2 => sccLt c
  | 3 => !sccLt c
  | 4 => !sccLt c && !sccEq c
  | 5 => sccLt c || sccEq c
  | 6 => sccLtu c
  | 7 => !sccLtu c
  | 8 => !sccLtu c && !sccEq c
  | _ => sccLtu c || sccEq c

end Sys2Proof.Machine
end

