-- ==== Sys2Proof/Machine/Float.lean ====
section
/-! DEFINITION. Number formats, rounding and the sticky flags they raise (spec/03_number_and_stream_formats.md R100 to
R112). A finite value is an exact dyadic number `m * 2 ^ e`; a result is computed exactly and rounded once. -/

namespace Sys2Proof.Machine

/-- The floating-point formats (R100); `e4m3s` is E4M3 in its saturating form (R109). -/
inductive Fmt
  | f64 | f32 | f16 | bf16 | e4m3 | e4m3s | e5m2 | e3m2 | e2m3 | e2m1
  deriving DecidableEq, Repr

/-- Width of a code (R100). -/
def Fmt.bits : Fmt → Nat
  | .f64 => 64 | .f32 => 32 | .f16 => 16 | .bf16 => 16 | .e4m3 => 8 | .e4m3s => 8 | .e5m2 => 8
  | .e3m2 => 6 | .e2m3 => 6 | .e2m1 => 4

/-- Bits of the M field (R100). -/
def Fmt.mbits : Fmt → Nat
  | .f64 => 52 | .f32 => 23 | .f16 => 10 | .bf16 => 7 | .e4m3 => 3 | .e4m3s => 3 | .e5m2 => 2
  | .e3m2 => 2 | .e2m3 => 3 | .e2m1 => 1

/-- The exponent bias (R100). -/
def Fmt.bias : Fmt → Nat
  | .f64 => 1023 | .f32 => 127 | .f16 => 15 | .bf16 => 127 | .e4m3 => 7 | .e4m3s => 7 | .e5m2 => 15
  | .e3m2 => 3 | .e2m3 => 1 | .e2m1 => 1

/-- The code of the largest finite magnitude (R100). -/
def Fmt.maxCode : Fmt → Nat
  | .f64 => 0x7FEFFFFFFFFFFFFF | .f32 => 0x7F7FFFFF | .f16 => 0x7BFF | .bf16 => 0x7F7F | .e4m3 => 0x7E
  | .e4m3s => 0x7E | .e5m2 => 0x7B | .e3m2 => 0x1F | .e2m3 => 0x1F | .e2m1 => 0x7

/-- The format has infinities (R100, R109). -/
def Fmt.hasInf : Fmt → Bool
  | .f64 | .f32 | .f16 | .bf16 | .e5m2 => true
  | .e4m3 | .e4m3s | .e3m2 | .e2m3 | .e2m1 => false

/-- The format has a NaN (R100, R102). -/
def Fmt.hasNan : Fmt → Bool
  | .e3m2 | .e2m3 | .e2m1 => false
  | _ => true

/-- The code of +infinity, where there is one. -/
def Fmt.infCode (f : Fmt) : Nat := f.maxCode + 1

/-- The canonical NaN (R103). -/
def Fmt.nanCode : Fmt → Nat
  | .f64 => 0x7FF8000000000000 | .f32 => 0x7FC00000 | .f16 => 0x7E00 | .bf16 => 0x7FC0 | .e5m2 => 0x7E
  | .e4m3 => 0x7F | .e4m3s => 0x7F | .e3m2 => 0 | .e2m3 => 0 | .e2m1 => 0

/-- The sign bit of a code. -/
def Fmt.signCode (f : Fmt) (neg : Bool) : Nat := if neg then 2 ^ (f.bits - 1) else 0

/-- Rounding modes (R108). -/
inductive Rm
  | rne | rtz | rdn | rup | sr
  deriving DecidableEq, Repr

/-- The mode an RM field names (R108). -/
def Rm.ofField : Nat → Option Rm
  | 0 => some .rne | 1 => some .rtz | 2 => some .rdn | 3 => some .rup | 4 => some .sr | _ => none

/-- A flag when a condition holds. -/
def flagIf (b : Bool) (f : Flags) : Flags := if b then f else 0

/-- What a code stands for (R101, R103): a NaN, an infinity, or the finite value `m * 2 ^ e` with a sign. -/
inductive FVal
  | nan (signalling : Bool)
  | inf (neg : Bool)
  | fin (neg : Bool) (m : Nat) (e : Int)
  deriving DecidableEq, Repr

/-- The value of a code (R100 to R103). -/
def unpackF (f : Fmt) (c : Nat) : FVal :=
  let mb := f.mbits
  let neg := (c >>> (f.bits - 1)) % 2 == 1
  let mag := c % 2 ^ (f.bits - 1)
  let m := mag % 2 ^ mb
  let ex := mag >>> mb
  if f.maxCode < mag then
    if f.hasInf && m == 0 then .inf neg
    else .nan (f.hasInf && m < 2 ^ (mb - 1))
  else if ex == 0 then .fin neg m (1 - (f.bias : Int) - mb)
  else .fin neg (2 ^ mb + m) ((ex : Int) - f.bias - mb)

/-- Whether the magnitude of a truncated value is raised by one unit in the last place (R108, R110): `rem` out of
`2 ^ sh` was cut off, and `sticky` says that something non-zero lies below that. -/
def roundUp (rm : Rm) (rnd : Nat) (neg : Bool) (kept rem sh : Nat) (sticky : Bool) : Bool :=
  match rm with
  | .rne => decide (2 * rem > 2 ^ sh) || (decide (2 * rem = 2 ^ sh) && (sticky || kept % 2 == 1))
  | .rtz => false
  | .rdn => neg && (rem != 0 || sticky)
  | .rup => !neg && (rem != 0 || sticky)
  | .sr => decide ((rem <<< 16) >>> sh + rnd ≥ 2 ^ 16)

/-- The result of an overflow (R109). -/
def overflowCode (f : Fmt) (rm : Rm) (neg : Bool) : Nat :=
  let big := f.signCode neg + f.maxCode
  let inf := if f.hasInf then f.signCode neg + f.infCode else if f = .e4m3 then f.nanCode else big
  match rm with
  | .rne => inf
  | .rtz => big
  | .rdn => if neg then inf else big
  | .rup => if neg then big else inf
  | .sr => inf

/-- Round the magnitude `(m + d) * 2 ^ e`, where `0 < d < 1` when `sticky` and `d = 0` otherwise, to a code of `f`
with its flags (R109 to R111). `rnd` serves the stochastic mode. -/
def roundMag (f : Fmt) (rm : Rm) (rnd : Nat) (neg : Bool) (m : Nat) (e : Int) (sticky : Bool) : Nat × Flags :=
  if m = 0 && !sticky then (f.signCode neg, 0)
  else
    let emin : Int := 1 - (f.bias : Int)
    let top : Int := e + Nat.log2 m
    let q : Int := (if top < emin then emin else top) - f.mbits
    let sh : Int := q - e
    let kept := if sh ≤ 0 then m <<< (-sh).toNat else m >>> sh.toNat
    let rem := if sh ≤ 0 then 0 else m % 2 ^ sh.toNat
    let inexact := rem != 0 || sticky
    let up := roundUp rm rnd neg kept rem sh.toNat sticky
    let code := (q - (emin - f.mbits)).toNat * 2 ^ f.mbits + kept + (if up then 1 else 0)
    if f.maxCode < code then (overflowCode f rm neg, flagOF ||| flagNX)
    else
      let tiny : Bool := if f.hasNan then decide (top < emin) else decide (top < emin - f.mbits)
      (f.signCode neg + code, flagIf inexact flagNX ||| flagIf (inexact && tiny) flagUF)

/-- The canonical NaN with NV raised when `nv` (R103, R111). -/
def nanResult (f : Fmt) (nv : Bool) : Nat × Flags := (f.nanCode, flagIf nv flagNV)

/-- Round a signed dyadic; an exact zero takes the sign given. -/
def roundInt (f : Fmt) (rm : Rm) (rnd : Nat) (zneg : Bool) (m : Int) (e : Int) : Nat × Flags :=
  if m = 0 then (f.signCode zneg, 0) else roundMag f rm rnd (decide (m < 0)) m.natAbs e false

/-- A finite value as a signed dyadic. -/
def sgn (neg : Bool) (m : Nat) : Int := if neg then -(m : Int) else m

/-- The exact sum of two dyadics, over the lower of their exponents. -/
def dyAdd (m1 : Int) (e1 : Int) (m2 : Int) (e2 : Int) : Int × Int :=
  if e1 ≤ e2 then (m1 + m2 * 2 ^ (e2 - e1).toNat, e1) else (m1 * 2 ^ (e1 - e2).toNat + m2, e2)

/-- A value is a signalling NaN. -/
def FVal.snan : FVal → Bool
  | .nan s => s
  | _ => false

/-- A value is a NaN. -/
def FVal.isNan : FVal → Bool
  | .nan _ => true
  | _ => false

/-- The value with its sign turned. -/
def FVal.flip : FVal → FVal
  | .nan s => .nan s
  | .inf n => .inf (!n)
  | .fin n m e => .fin (!n) m e

/-- The sum of two values rounded to `f` (R109, R111, R217); an exact zero of unlike signs is +0 but under RDN. -/
def fAddV (f : Fmt) (rm : Rm) (a b : FVal) : Nat × Flags :=
  match a, b with
  | .nan s, y => nanResult f (s || y.snan)
  | .inf _, .nan s => nanResult f s
  | .fin _ _ _, .nan s => nanResult f s
  | .inf n, .inf n' => if n = n' then (f.signCode n + f.infCode, 0) else nanResult f true
  | .inf n, .fin _ _ _ => (f.signCode n + f.infCode, 0)
  | .fin _ _ _, .inf n => (f.signCode n + f.infCode, 0)
  | .fin n1 m1 e1, .fin n2 m2 e2 =>
    let zneg := if m1 = 0 && m2 = 0 && n1 == n2 then n1 else rm = .rdn
    let r := dyAdd (sgn n1 m1) e1 (sgn n2 m2) e2
    roundInt f rm 0 zneg r.1 r.2

/-- The exact product of two values: a NaN, an infinity or a finite value; `none` is 0 times infinity. -/
def fMulExact (a b : FVal) : Option FVal :=
  match a, b with
  | .nan s, y => some (.nan (s || y.snan))
  | .inf _, .nan s => some (.nan s)
  | .fin _ _ _, .nan s => some (.nan s)
  | .inf n, .inf n' => some (.inf (n != n'))
  | .inf n, .fin n' m _ => if m = 0 then none else some (.inf (n != n'))
  | .fin n' m _, .inf n => if m = 0 then none else some (.inf (n != n'))
  | .fin n1 m1 e1, .fin n2 m2 e2 => some (.fin (n1 != n2) (m1 * m2) (e1 + e2))

/-- The product rounded to `f`. -/
def fMulV (f : Fmt) (rm : Rm) (a b : FVal) : Nat × Flags :=
  match fMulExact a b with
  | none => nanResult f true
  | some (.nan s) => nanResult f s
  | some (.inf n) => (f.signCode n + f.infCode, 0)
  | some (.fin n m e) => roundMag f rm 0 n m e false

/-- `a * b + c` with one rounding; the product of 0 and infinity is invalid whatever `c` is. -/
def fFmaV (f : Fmt) (rm : Rm) (a b c : FVal) : Nat × Flags :=
  match fMulExact a b with
  | none => nanResult f true
  | some p =>
    match p with
    | .nan s => nanResult f (s || c.snan)
    | _ => fAddV f rm p c

/-- The quotient rounded to `f`; DZ for a finite non-zero value over zero (R111). -/
def fDivV (f : Fmt) (rm : Rm) (a b : FVal) : Nat × Flags :=
  match a, b with
  | .nan s, y => nanResult f (s || y.snan)
  | .inf _, .nan s => nanResult f s
  | .fin _ _ _, .nan s => nanResult f s
  | .inf _, .inf _ => nanResult f true
  | .inf n, .fin n' _ _ => (f.signCode (n != n') + f.infCode, 0)
  | .fin n _ _, .inf n' => (f.signCode (n != n'), 0)
  | .fin n1 m1 e1, .fin n2 m2 e2 =>
    if m2 = 0 then
      if m1 = 0 then nanResult f true else (f.signCode (n1 != n2) + f.infCode, flagDZ)
    else
      let k := 64 + Nat.log2 m2
      let n := m1 <<< k
      roundMag f rm 0 (n1 != n2) (n / m2) (e1 - e2 - k) (n % m2 != 0)

/-- One bit of an integer square root after another, from bit `n - 1` down: the largest `r` with `r * r ≤ x`. -/
def isqrtFrom (x : Nat) : Nat → Nat → Nat
  | 0, r => r
  | n + 1, r => if (r + 2 ^ n) * (r + 2 ^ n) ≤ x then isqrtFrom x n (r + 2 ^ n) else isqrtFrom x n r

/-- The integer square root, rounded down. -/
def isqrt (x : Nat) : Nat := isqrtFrom x (Nat.log2 x / 2 + 1) 0

/-- The square root rounded to `f`; NV for a negative non-zero operand. -/
def fSqrtV (f : Fmt) (rm : Rm) (a : FVal) : Nat × Flags :=
  match a with
  | .nan s => nanResult f s
  | .inf n => if n then nanResult f true else (f.infCode, 0)
  | .fin n m e =>
    if m = 0 then (f.signCode n, 0)
    else if n then nanResult f true
    else
      let odd := e % 2 != 0
      let m' := if odd then m * 2 else m
      let e' := if odd then e - 1 else e
      let x := m' <<< 128
      let r := isqrt x
      roundMag f rm 0 false r (e' / 2 - 64) (r * r != x)

/-- Compare two finite values or infinities: the sign of `a - b`; a NaN gives none. -/
def fCmpV (a b : FVal) : Option Ordering :=
  match a, b with
  | .nan _, _ => none
  | _, .nan _ => none
  | .inf n, .inf n' => some (if n = n' then .eq else if n then .lt else .gt)
  | .inf n, .fin _ _ _ => some (if n then .lt else .gt)
  | .fin _ _ _, .inf n => some (if n then .gt else .lt)
  | .fin n1 m1 e1, .fin n2 m2 e2 =>
    some (compare (dyAdd (sgn n1 m1) e1 (-(sgn n2 m2)) e2).1 0)

/-- A value converted to format `f` (R109, R225): a NaN becomes the canonical NaN, NV for a signalling one; in a format
without a NaN the caller says what a NaN gives. -/
def fCvtV (f : Fmt) (rm : Rm) (rnd : Nat) (a : FVal) : Nat × Flags :=
  match a with
  | .nan s => nanResult f s
  | .inf n => if f.hasInf then (f.signCode n + f.infCode, 0) else (overflowCode f rm n, flagOF ||| flagNX)
  | .fin n m e => roundMag f rm rnd n m e false

/-- A value rounded to an integer by a mode, with whether it was inexact; the fraction's first 16 bits serve SR. -/
def roundToInt (rm : Rm) (rnd : Nat) (neg : Bool) (m : Nat) (e : Int) : Int × Bool :=
  if 0 ≤ e then (sgn neg (m <<< e.toNat), false)
  else
    let sh := (-e).toNat
    let kept := m >>> sh
    let rem := m % 2 ^ sh
    (sgn neg (kept + if roundUp rm rnd neg kept rem sh false then 1 else 0), rem != 0)

/-- A float converted to an integer of `w` bits (R112): NaN gives 0, values out of range saturate, each with NV. -/
def fToInt (signed : Bool) (w : Nat) (rm : Rm) (a : FVal) : Int × Flags :=
  let hi : Int := if signed then 2 ^ (w - 1) - 1 else 2 ^ w - 1
  let lo : Int := if signed then -(2 ^ (w - 1)) else 0
  match a with
  | .nan _ => (0, flagNV)
  | .inf n => (if n then lo else hi, flagNV)
  | .fin n m e =>
    let r := roundToInt rm 0 n m e
    if hi < r.1 then (hi, flagNV) else if r.1 < lo then (lo, flagNV) else (r.1, flagIf r.2 flagNX)

/-- The 16-bit value of the stochastic mode (R110). -/
def srRnd (seed counter : W64) (i : Nat) : Nat :=
  let z0 : W64 := seed ^^^ (counter <<< 20) ^^^ BitVec.ofNat 64 i
  let z1 : W64 := (z0 ^^^ (z0 >>> 30)) * 0xBF58476D1CE4E5B9#64
  let z2 : W64 := (z1 ^^^ (z1 >>> 27)) * 0x94D049BB133111EB#64
  (z2 ^^^ (z2 >>> 31)).toNat % 65536

/-- A float added to a word of the fixed-point reduction format with scale exponent `ex` (R106). -/
def fixedAdd (ex : Int) (n : W64) (v : FVal) : W64 × Flags :=
  let top : W64 := 0x7FFFFFFFFFFFFFFF#64
  let bot : W64 := 0x8000000000000000#64
  match v with
  | .nan _ => (n, flagNV)
  | .inf neg => (if neg then bot else top, flagOF)
  | .fin neg m e =>
    let r := roundToInt .rne 0 neg m (e + ex)
    let nx := flagIf r.2 flagNX
    let s := n.toInt + r.1
    if 2 ^ 63 - 1 < s then (top, nx ||| flagOF)
    else if s < -(2 ^ 63) then (bot, nx ||| flagOF)
    else (BitVec.ofInt 64 s, nx)

end Sys2Proof.Machine
end

