-- ==== Sys2Proof/Machine/Rans.lean ====
section
/-! DEFINITION. The rANS codec and the coded tile (spec/03_number_and_stream_formats.md R118 to R128). Bytes of a tile or
a table are given by a function of their offset. -/

namespace Sys2Proof.Machine

/-- Where the decoding of one substream stands (R125): symbols decoded, offset within the substream, state, and the last
restart marker passed (symbols, offset, state), or the substream's start. -/
structure SubPos where
  cnt : Nat := 0
  pos : Nat := 0
  x : Nat := 0
  mcnt : Nat := 0
  mpos : Nat := 0
  mx : Nat := 0
  deriving DecidableEq, Repr

/-- A stream fault: STREAM.LEN or else STREAM.SYN, its substream (none for one of the header, the offset table, the scale
extent or the table), the tile offset at which it was found, and that of the last restart marker passed in its substream
or of the substream's start. -/
structure RansFault where
  len : Bool
  sub : Option Nat := none
  off : Nat := 0
  mark : Nat := 0
  deriving DecidableEq, Repr

/-- A little-endian value of `n` bytes from an offset on. -/
def leAt (get : Nat → Byte) (off n : Nat) : Nat := leNat ((List.range n).map fun k => get (off + k))

/-! ### Probability tables (R118) -/

/-- The frequency of a symbol: 12 bits of the table as a bit string. -/
def freqOf (get : Nat → Byte) (sym : Nat) : Nat := leAt get (12 * sym / 8) 2 / 2 ^ (12 * sym % 8) % 4096

/-- The 256 frequencies of a table. -/
def freqsOf (get : Nat → Byte) : List Nat := (List.range 256).map (freqOf get)

/-- The frequencies sum to 4,096. -/
def freqsOk (f : List Nat) : Bool := f.foldl (· + ·) 0 == 4096

/-- The symbol of a slot `v` with its frequency and cumulative frequency, from symbol `sym` with cumulative `cum` on. -/
def findSym : List Nat → Nat → Nat → Nat → Nat × Nat × Nat
  | [], _, sym, cum => (sym, 0, cum)
  | f :: r, v, sym, cum => if v < cum + f then (sym, f, cum) else findSym r v (sym + 1) (cum + f)

/-! ### The tile (R120 to R123, R128) -/

/-- A tile header (R121). -/
structure TileHeader where
  rsv : Bool
  sc : Bool
  cbook : Nat
  kind : Nat
  table : Nat
  count : Nat
  deriving DecidableEq, Repr

/-- The fields of a header. -/
def tileHeader (get : Nat → Byte) : TileHeader :=
  let h := leAt get 0 8
  {
    rsv := h / 2 ^ 36 ≠ 0, sc := h / 2 ^ 35 % 2 = 1, cbook := h / 2 ^ 32 % 8, kind := h / 2 ^ 28 % 16,
    table := h / 2 ^ 24 % 16, count := h % 2 ^ 24 }

/-- Elements per symbol of a KIND (R122). -/
def kindElems (k : Nat) : Nat := if k = 0 then 4 else if k = 4 then 2 else 1

/-- Elements that a tile expands to (R128). -/
def TileHeader.elems (h : TileHeader) : Nat := h.count * kindElems h.kind

/-- Bytes of the scale array (R128). -/
def TileHeader.scales (h : TileHeader) : Nat := if h.sc then 4 * ((((h.elems + 31) / 32) + 3) / 4) else 0

/-- OFF of a substream (R120). -/
def subOff (get : Nat → Byte) (k : Nat) : Nat := leAt get (8 + 4 * k) 4 % 2 ^ 24

/-- Length of a substream in a tile of `len` bytes. -/
def subLen (get : Nat → Byte) (len k : Nat) : Nat := (if k = 31 then len else subOff get (k + 1)) - subOff get k

/-- Symbols of a substream (R120). -/
def subCount (count k : Nat) : Nat := (count + 31 - k) / 32

/-- The checks of the header, by an engine that takes the kinds `kinds` and holds the tables `held` (R123, R124). -/
def headerFault (h : TileHeader) (kinds held : Nat → Bool) : Option RansFault :=
  if h.rsv || !kinds h.kind || h.count = 0 || !held h.table then some { len := false } else none

/-- The checks of the offset table and of the scale array's extent (R123, R124). Of an offset table that is malformed and whose last offset also lies
beyond the coded length, the malformation is reported: R124 puts both in one step and orders them not (DESIGN CHOICE, log entry 109). -/
def tableFault (get : Nat → Byte) (len : Nat) (h : TileHeader) : Option RansFault :=
  if (List.range 32).any fun k => leAt get (8 + 4 * k) 4 / 2 ^ 24 ≠ 0 then some { len := false }
  else if (List.range 31).any fun k => subOff get (k + 1) < subOff get k then some { len := false }
  else if len < subOff get 31 then some { len := true }
  else if subOff get 0 < 136 + h.scales then some { len := false }
  else none

/-- Renormalise: take bytes while the state is below 2^23 (R119); none at the substream's end. -/
def renorm (get : Nat → Byte) (off len : Nat) : Nat → Nat → Nat → Option (Nat × Nat)
  | 0, x, pos => if 2 ^ 23 ≤ x then some (x, pos) else none
  | fuel + 1, x, pos =>
    if 2 ^ 23 ≤ x then some (x, pos)
    else if len ≤ pos then none
    else renorm get off len fuel (x * 256 + (get (off + pos)).toNat) (pos + 1)

/-- The start of a substream: its first four bytes are the state (R119). -/
def subStart (get : Nat → Byte) (off len : Nat) : Option SubPos :=
  if len < 4 then none
  else let x := leAt get off 4; some { cnt := 0, pos := 4, x := x, mcnt := 0, mpos := 0, mx := x }

/-- Decode the next symbol of substream `k`, whose symbols are `total`, with its renormalisation and the restart marker
after it (R119). -/
def decodeSym (fr : List Nat) (get : Nat → Byte) (off len total k : Nat) (p : SubPos) : Except RansFault (Nat × SubPos) :=
  let start := if p.cnt = 0 then subStart get off len else some p
  match start with
  | none => .error { len := true, sub := some k, off := off + len, mark := off }
  | some p =>
    let v := p.x % 4096
    let e := findSym fr v 0 0
    let x := e.2.1 * (p.x / 4096) + v - e.2.2
    match renorm get off len (len + 1) x p.pos with
    | none => .error { len := true, sub := some k, off := off + len, mark := off + p.mpos }
    | some (x, pos) =>
      let cnt := p.cnt + 1
      if cnt % 1024 = 0 && cnt < total then
        if len < pos + 4 then .error { len := true, sub := some k, off := off + pos, mark := off + p.mpos }
        else if leAt get (off + pos) 4 ≠ x then .error { len := false, sub := some k, off := off + pos, mark := off + p.mpos }
        else .ok (e.1, { cnt := cnt, pos := pos + 4, x := x, mcnt := cnt, mpos := pos, mx := x })
      else .ok (e.1, { p with cnt := cnt, pos := pos, x := x })

/-- A substream resumed from its last marker (R125). -/
def SubPos.resume (p : SubPos) : SubPos :=
  { p with cnt := p.mcnt, x := p.mx, pos := p.mpos + 4 }

/-- Decode symbols `n` to `n + m - 1` of a tile in order, each in its substream (R120); `bad` refuses a symbol of the KIND
(R123); a symbol before its substream's position is not decoded again (R125). The symbols come latest first. A fault comes with the
substreams' positions before its symbol. -/
def decodeRun (fr : List Nat) (get : Nat → Byte) (len count : Nat) (bad : Nat → Bool) :
    Nat → Nat → List SubPos → List Nat → Except (RansFault × List SubPos) (List SubPos × List Nat)
  | 0, _, subs, acc => .ok (subs, acc)
  | m + 1, n, subs, acc =>
    let k := n % 32
    if n / 32 < (subs.getD k {}).cnt then decodeRun fr get len count bad m (n + 1) subs acc
    else match decodeSym fr get (subOff get k) (subLen get len k) (subCount count k) k (subs.getD k {}) with
    | .error f => .error (f, subs)
    | .ok (y, p) =>
      if bad y then .error ({ len := false, sub := some k, off := subOff get k + p.pos, mark := subOff get k + p.mpos }, subs)
      else decodeRun fr get len count bad m (n + 1) (subs.set k p) (y :: acc)

/-- The checks at the end of a substream: its length before its state (R119, R124). -/
def subEnd (get : Nat → Byte) (len count k : Nat) (p : SubPos) : Option RansFault :=
  let l := subLen get len k
  if subCount count k = 0 then (if l = 0 then none else some { len := true, sub := some k, off := subOff get k, mark := subOff get k })
  else if p.pos ≠ l then some { len := true, sub := some k, off := subOff get k + p.pos, mark := subOff get k + p.mpos }
  else if p.x ≠ 2 ^ 23 then some { len := false, sub := some k, off := subOff get k + p.pos, mark := subOff get k + p.mpos }
  else none

/-- The substreams in the order of the ranks of their end faults (R124): those without symbols, then by last symbol. -/
def endOrder (count : Nat) : List Nat :=
  ((List.range 32).filter fun k => count ≤ k) ++ (List.range 32).foldr (fun j l =>
    let n := count + j - 32
    if count < 32 && j < 32 - count then l else (n % 32) :: l) []

/-- The first fault at the end of a tile (R124). -/
def endFault (get : Nat → Byte) (len count : Nat) (subs : List SubPos) : Option RansFault :=
  (endOrder count).findSome? fun k => subEnd get len count k (subs.getD k {})

/-- Decode a whole tile: the checks in the order of R124, then its symbols in order. -/
def decodeTile (fr : List Nat) (get : Nat → Byte) (len : Nat) (h : TileHeader) (bad : Nat → Bool) :
    Except RansFault (List Nat) :=
  match tableFault get len h with
  | some f => .error f
  | none =>
    match decodeRun fr get len h.count bad h.count 0 (List.replicate 32 {}) [] with
    | .error f => .error f.1
    | .ok (subs, syms) =>
      match endFault get len h.count subs with
      | some f => .error f
      | none => .ok syms.reverse

/-! ### The encoder (R119) -/

/-- One step of the encoder, which runs from the last symbol to the first: bytes leave a state too large for the symbol,
then the symbol joins it. `fuel` bounds the bytes. -/
def encodeSym (f cum : Nat) : Nat → Nat → List Byte → Nat × List Byte
  | 0, x, out => (x / f * 4096 + x % f + cum, out)
  | fuel + 1, x, out =>
    if f * 2 ^ 19 ≤ x then encodeSym f cum fuel (x / 256) (BitVec.ofNat 8 x :: out)
    else (x / f * 4096 + x % f + cum, out)

/-- The cumulative frequency of a symbol. -/
def cumOf (fr : List Nat) (sym : Nat) : Nat := (fr.take sym).foldl (· + ·) 0

/-- The symbols of a substream, last first, joined to a state: before the symbol that a marker follows is joined, the
marker's four bytes are put out. `i` counts the symbols still to come. -/
def encodeBack (fr : List Nat) (total : Nat) : List Nat → Nat → Nat → List Byte → Nat × List Byte
  | [], _, x, out => (x, out)
  | y :: r, i, x, out =>
    let out := if i % 1024 = 0 && i < total then leBytes x 4 ++ out else out
    let e := encodeSym (fr.getD y 0) (cumOf fr y) 4 x out
    encodeBack fr total r (i - 1) e.1 e.2

/-- The bytes of a substream that decodes to the given symbols (R119). -/
def encodeSub (fr : List Nat) (syms : List Nat) : List Byte :=
  if syms = [] then []
  else
    let e := encodeBack fr syms.length syms.reverse syms.length (2 ^ 23) []
    leBytes e.1 4 ++ e.2

/-- The symbols of substream `k` among those of a tile. -/
def subSyms (syms : List Nat) (k : Nat) : List Nat :=
  ((List.range syms.length).zip syms).filterMap fun e => if e.1 % 32 = k then some e.2 else none

/-- The bytes of a coded tile without a scale array: header, offset table, substreams (R120, R121). -/
def encodeTile (fr : List Nat) (kind table : Nat) (syms : List Nat) : List Byte :=
  let subs := (List.range 32).map fun k => encodeSub fr (subSyms syms k)
  let offs := (List.range 32).map fun k => 136 + (subs.take k).foldl (fun m b => m + b.length) 0
  leBytes (syms.length + table * 2 ^ 24 + kind * 2 ^ 28) 8 ++ offs.flatMap (fun o => leBytes o 4) ++ subs.flatten

end Sys2Proof.Machine
end

