-- ==== Sys2Proof/Syntax.lean ====
section
/-! DEFINITION. The instructions of the Skolith: one constructor per row of the table of operations and events. A word's
constructor holds the fields of its encoding under the letters of the table. A step of an engine, of system software,
of the host or of an error holds what comes with it from outside; the unit it happens at is named by the state's site
(Machine/State.lean), so a step that brings nothing has no field. Constructors with fields come first. The chain bit C belongs to the clause and not to the instruction
(spec/02_clauses_and_encoding.md R59, R63). -/

namespace Sys2Proof

/-- A 128-byte line of a fabric address as the fabric returns it: its bytes, or why the read failed, in the DETAIL
codes of RREAD (R253). -/
structure RemoteLine where
  line : W64
  data : List Byte
  fail : Option Nat
  deriving DecidableEq, Repr

/-- What a PCIe completer answers to an AtomicOp (R311). -/
inductive HostReply
  | value
  | unsupported
  | aborted
  | poisoned
  deriving DecidableEq, Repr

/-- An element on the wire (R473): DATA in [127:64], OFFSET in [63:19], KIND in [13:12], W in [11], OPN in [10:7], zero elsewhere. -/
abbrev Element := BitVec 128

/-- The fields of an element: OFFSET, DATA, KIND 0 RSTW 1 RRED 2 RAMO, W, OPN (R473). -/
structure ElemFields where
  off : BitVec 45
  data : W64
  kind : BitVec 2
  w : Bool
  opn : BitVec 4
  deriving DecidableEq, Repr

/-- The fields as the 128-bit value that travels (R473). -/
def ElemFields.pack (f : ElemFields) : Element :=
  f.data ++ f.off ++ 0#5 ++ f.kind ++ BitVec.ofBool f.w ++ f.opn ++ 0#7

/-- The fields of an element that has arrived (R473). -/
def elemFields (e : Element) : ElemFields :=
  {
    off := e.extractLsb' 19 45, data := e.extractLsb' 64 64, kind := e.extractLsb' 12 2, w := e.getLsbD 11,
    opn := e.extractLsb' 7 4 }

/-- An aggregated-store packet (R472, R473). -/
structure StorePacket where
  srcDev : Nat
  srcDie : Nat
  dstDev : Nat
  job : Nat
  seq : Nat
  elems : List Element
  deriving DecidableEq, Repr

/-- What an acknowledgement carries for one element: applied or a REASON, the old value of a RAMO (R474). -/
structure ElemAck where
  reason : Nat
  old : W64
  deriving DecidableEq, Repr

/-- A store or record acknowledgement, back to die `die` of the initiator on the stream of the packet: the device that sends it, the job,
whether the packet held records, its sequence (R472, R474). -/
structure StoreAck where
  dev : Nat
  die : Nat
  src : Nat
  job : Nat
  recs : Bool
  seq : Nat
  acks : List ElemAck
  flags : Flags
  deriving DecidableEq, Repr

/-- A record packet: each record is 64 bytes with the epoch of its reservation (R468, R472). -/
structure RecordPacket where
  srcDev : Nat
  srcDie : Nat
  dstDev : Nat
  job : Nat
  seq : Nat
  queue : Nat
  recs : List (Nat × List W32)
  deriving DecidableEq, Repr

/-- A reservation request, or the cancel of one, which names the request's sequence beside its own (R466, R468, R473). -/
structure ResvRequest where
  srcDev : Nat
  srcDie : Nat
  dstDev : Nat
  job : Nat
  seq : Nat
  queue : Nat
  count : Nat
  request : Nat := 0
  deriving DecidableEq, Repr

/-- The reply to a reservation request: the initiator, the device that sends it, the job, the request's sequence (R466, R468). -/
structure ResvGrant where
  dev : Nat
  die : Nat
  src : Nat
  job : Nat
  seq : Nat
  grant : Nat
  status : Nat
  epoch : Nat
  deriving DecidableEq, Repr

/-- Returned reservations, on the record stream of their flow with its next sequence (R467, R472, R473). -/
structure ResvReturn where
  srcDev : Nat
  srcDie : Nat
  dstDev : Nat
  job : Nat
  seq : Nat
  queue : Nat
  count : Nat
  epoch : Nat
  deriving DecidableEq, Repr

/-- One unit of a chunk: the payload of R499 as bytes, and whether it is poisoned (R502). -/
structure ChunkUnit where
  bytes : List Byte
  poison : Bool
  deriving DecidableEq, Repr

/-- A collective chunk (R499, R500). The digest is held as the seven fields it is a digest of. -/
structure Chunk where
  job : Nat
  planId : W32
  run : Nat
  step : Nat
  src : Nat
  dst : Nat
  index : Nat
  digest : List Nat
  flags : Flags
  units : List (Nat × ChunkUnit)
  deriving DecidableEq, Repr

/-- A cache that holds a copy of a line (R45): the write buffer or the L1 of a core, named by its key, or the L2 of a die. -/
inductive CachePlace
  | writeBuffer (core : Nat)
  | l1 (core : Nat)
  | l2 (die : Nat)
  deriving DecidableEq, Repr

/-- Where an error that ECC cannot correct, or a corrected one, arises (R45): an error in the home's line is one of the LLC or of HBM; one in a
cache's copy of a line spoils that copy alone. -/
inductive ErrorSite
  | corrected (die unit : Nat)
  | vreg (crew team reg lane : Nat)
  | scratch (crew off : Nat)
  | homeLine (pa : Nat)
  | cacheLine (place : CachePlace) (pa : Nat)
  | bufferElement (die buf index : Nat)
  | crewState (crew : Nat)
  | rayEntry (crew : Nat)
  | unconfined (die unit : Nat)
  deriving DecidableEq, Repr

/-- What a firmware image holds beside its version (R481): its code, the root public key, the HSS signature. -/
structure SignedCode where
  code : List Byte := []
  key : List Byte := []
  sig : List Byte := []
  deriving DecidableEq, Repr

/-- A firmware image (R481): its version, and what else it holds. -/
structure Firmware extends SignedCode where
  version : W32 := 0
  deriving DecidableEq, Repr

/-- Which cache gives up which line (R244, R258, R270, R420). -/
inductive Replace
  | writeBuffer (core : Nat)
  | l1 (core line : Nat)
  | l2 (die line : Nat)
  | remote (line : W64)
  | node (core : Nat) (line : W64)
  deriving DecidableEq, Repr

/-- One constructor per row of the table of operations and events. -/
inductive Instr
  /-- IMX (R73). Prefix that supplies IMM24 to extend the next word's immediate or offset. -/
  | imx (i : BitVec 24)
  /-- GRD (R75). Prefix that guards the next word lane by lane with pN or NOT pN. -/
  | grd (n : BitVec 1) (p : BitVec 3)
  /-- BRA (R135). Unconditional branch to the clause at PC plus OFF × 16. -/
  | bra (o : BitVec 20)
  /-- BRS (R135). Branch when the condition COND holds on SCC. -/
  | brs (k : BitVec 4) (o : BitVec 20)
  /-- BRV (R135). Vector branch on pN: branches when all active lanes select, falls through when none do, and diverges otherwise. -/
  | brv (n : BitVec 1) (p : BitVec 3) (o : BitVec 20)
  /-- CALL (R135). Writes the return address to s62:s63 and branches. -/
  | call (o : BitVec 20)
  /-- RET (R135). Branches to the 64-bit address in the even pair sA, raising ILL.PC when that address is bad. -/
  | ret (a : BitVec 6)
  /-- MARK (R137). Pushes a join-stack entry with the rejoin address and the current mask. -/
  | mark (o : BitVec 20)
  /-- SADD (R138). Scalar 32-bit add. -/
  | sadd (t : BitVec 3) (d : BitVec 6) (a : BitVec 6) (b : BitVec 6)
  /-- SSUB (R138). Scalar 32-bit subtract. -/
  | ssub (t : BitVec 3) (d : BitVec 6) (a : BitVec 6) (b : BitVec 6)
  /-- SMUL (R138). Scalar multiply, low 32 bits. -/
  | smul (t : BitVec 3) (d : BitVec 6) (a : BitVec 6) (b : BitVec 6)
  /-- SMULH (R138). Scalar multiply, high 32 bits. -/
  | smulh (t : BitVec 3) (d : BitVec 6) (a : BitVec 6) (b : BitVec 6)
  /-- SDIV (R139). Scalar divide rounded towards zero, with the IDZ and OF cases. -/
  | sdiv (t : BitVec 3) (d : BitVec 6) (a : BitVec 6) (b : BitVec 6)
  /-- SMIN (R138). Scalar minimum. -/
  | smin (t : BitVec 3) (d : BitVec 6) (a : BitVec 6) (b : BitVec 6)
  /-- SMAX (R138). Scalar maximum. -/
  | smax (t : BitVec 3) (d : BitVec 6) (a : BitVec 6) (b : BitVec 6)
  /-- SAND (R138). Scalar AND. -/
  | sand (d : BitVec 6) (a : BitVec 6) (b : BitVec 6)
  /-- SOR (R138). Scalar OR. -/
  | sor (d : BitVec 6) (a : BitVec 6) (b : BitVec 6)
  /-- SXOR (R138). Scalar XOR. -/
  | sxor (d : BitVec 6) (a : BitVec 6) (b : BitVec 6)
  /-- SSHL (R138). Scalar shift left by a register. -/
  | sshl (d : BitVec 6) (a : BitVec 6) (b : BitVec 6)
  /-- SSHR (R138). Scalar logical shift right by a register. -/
  | sshr (d : BitVec 6) (a : BitVec 6) (b : BitVec 6)
  /-- SSRA (R138). Scalar arithmetic shift right by a register. -/
  | ssra (d : BitVec 6) (a : BitVec 6) (b : BitVec 6)
  /-- SSEL (R138). Scalar select of sA or sB on sD. -/
  | ssel (d : BitVec 6) (a : BitVec 6) (b : BitVec 6)
  /-- SMOV (R138). Scalar move. -/
  | smov (d : BitVec 6) (a : BitVec 6)
  /-- SCMP (R140). Scalar compare that writes sD and SCC. -/
  | scmp (t : BitVec 3) (d : BitVec 6) (a : BitVec 6) (b : BitVec 6) (k : BitVec 3)
  /-- SADD64 (R141). 64-bit add of even pairs. -/
  | sadd64 (d : BitVec 6) (a : BitVec 6) (b : BitVec 6)
  /-- SLI (R141). Loads a scalar immediate. -/
  | sli (d : BitVec 6) (i : BitVec 12)
  /-- SADD_IMMEDIATE (R141). Scalar add of an immediate. -/
  | saddImmediate (d : BitVec 6) (a : BitVec 6) (i : BitVec 12)
  /-- SSHL_IMMEDIATE (R141). Scalar shift left by an immediate amount. -/
  | sshlImmediate (d : BitVec 6) (a : BitVec 6) (n : BitVec 5)
  /-- SSHR_IMMEDIATE (R141). Scalar logical shift right by an immediate amount. -/
  | sshrImmediate (d : BitVec 6) (a : BitVec 6) (n : BitVec 5)
  /-- SSRA_IMMEDIATE (R141). Scalar arithmetic shift right by an immediate amount. -/
  | ssraImmediate (d : BitVec 6) (a : BitVec 6) (n : BitVec 5)
  /-- SLANE (R142). Reads vA of lane sB into sD. -/
  | slane (d : BitVec 6) (b : BitVec 6) (a : BitVec 7)
  /-- SBCAST (R142). Broadcasts sA to vD in every active lane. -/
  | sbcast (a : BitVec 6) (d : BitVec 7)
  /-- VOTE_ANY (R142). sD := 1 when pN holds in any active lane. -/
  | voteAny (d : BitVec 6) (p : BitVec 3)
  /-- VOTE_ALL (R142). sD := 1 when pN holds in every active lane. -/
  | voteAll (d : BitVec 6) (p : BitVec 3)
  /-- VOTE_BALLOT (R142). sD := word sA of M AND pN. -/
  | voteBallot (d : BitVec 6) (a : BitVec 6) (p : BitVec 3)
  /-- POPM (R142). Counts the lanes of M AND pN. -/
  | popm (d : BitVec 6) (p : BitVec 3)
  /-- BAR (R147). Releases at CREW scope, arrives at the barrier, blocks until the phase completes, then acquires. -/
  | bar (b : BitVec 4)
  /-- ARRIVE (R147). Releases, records PHASE in sD, and arrives without blocking. -/
  | arrive (d : BitVec 6) (b : BitVec 4)
  /-- AWAIT (R147). Blocks until the barrier phase passes sA, then acquires. -/
  | await (a : BitVec 6) (b : BitVec 4)
  /-- PRIO (R153). Sets the team's class to the smaller of c and its ceiling. -/
  | prio (k : BitVec 2)
  /-- SYSR (R158). Reads system register n into sD. -/
  | sysr (d : BitVec 6) (n : BitVec 10)
  /-- SYSW (R158). Writes sA to system register n. -/
  | sysw (a : BitVec 6) (n : BitVec 10)
  /-- TRAP (R157). Enters the handler with cause TRAP and the 8-bit code. -/
  | trap (k : BitVec 8)
  /-- REFORM (R149). Waits for every team of the crew, then regroups the live lanes by key with their registers. -/
  | reform (k : BitVec 7)
  /-- QBIND (R143). Binds a queue register to an engine port, or unbinds it. -/
  | qbind (q : BitVec 4) (a : BitVec 6)
  /-- QPUSH (R143). Pushes one record per active lane through a queue register, stalling for credit. -/
  | qpush (q : BitVec 4) (v : BitVec 7) (n : BitVec 5)
  /-- QPUSH_TEAM (R143). Pushes one record built from the lowest active lane. -/
  | qpushTeam (q : BitVec 4) (v : BitVec 7) (n : BitVec 5)
  /-- QPOP (R144). Blocking pop of results to the active lanes. -/
  | qpop (q : BitVec 4) (v : BitVec 7) (n : BitVec 5) (p : BitVec 3)
  /-- QPOP_TEAM (R144). Blocking pop of one result to every active lane. -/
  | qpopTeam (q : BitVec 4) (v : BitVec 7) (n : BitVec 5) (p : BitVec 3)
  /-- QTRY (R144). Non-blocking pop to the active lanes. -/
  | qtry (q : BitVec 4) (v : BitVec 7) (n : BitVec 5) (p : BitVec 3)
  /-- QTRY_TEAM (R144). Non-blocking pop of one result to the team. -/
  | qtryTeam (q : BitVec 4) (v : BitVec 7) (n : BitVec 5) (p : BitVec 3)
  /-- FADD (R217). Vector float add. -/
  | fadd (t : BitVec 3) (d : BitVec 7) (a : BitVec 7) (b : BitVec 7)
  /-- FSUB (R217). Vector float subtract. -/
  | fsub (t : BitVec 3) (d : BitVec 7) (a : BitVec 7) (b : BitVec 7)
  /-- FMUL (R217). Vector float multiply. -/
  | fmul (t : BitVec 3) (d : BitVec 7) (a : BitVec 7) (b : BitVec 7)
  /-- FFMA (R217). Vector fused multiply-add. -/
  | ffma (t : BitVec 3) (d : BitVec 7) (a : BitVec 7) (b : BitVec 7)
  /-- FMIN (R218). Vector float minimum. -/
  | fmin (t : BitVec 3) (d : BitVec 7) (a : BitVec 7) (b : BitVec 7)
  /-- FMAX (R218). Vector float maximum. -/
  | fmax (t : BitVec 3) (d : BitVec 7) (a : BitVec 7) (b : BitVec 7)
  /-- FDIV (R217). Vector float divide. -/
  | fdiv (t : BitVec 3) (d : BitVec 7) (a : BitVec 7) (b : BitVec 7)
  /-- FDOT2 (R220). Two-element 16-bit dot product accumulated into binary32. -/
  | fdot2 (t : BitVec 3) (d : BitVec 7) (a : BitVec 7) (b : BitVec 7)
  /-- FSGN (R219). Copies vA with the sign of vB. -/
  | fsgn (t : BitVec 3) (d : BitVec 7) (a : BitVec 7) (b : BitVec 7)
  /-- FSGN_NEG (R219). Copies vA with the inverted sign of vB. -/
  | fsgnNeg (t : BitVec 3) (d : BitVec 7) (a : BitVec 7) (b : BitVec 7)
  /-- FSGN_XOR (R219). Copies vA with its sign XORed with that of vB. -/
  | fsgnXor (t : BitVec 3) (d : BitVec 7) (a : BitVec 7) (b : BitVec 7)
  /-- FCMP (R230). Float compare writing a predicate. -/
  | fcmp (t : BitVec 3) (k : BitVec 4) (p : BitVec 3) (a : BitVec 7) (b : BitVec 7)
  /-- FRCP (R221). Vector reciprocal. -/
  | frcp (d : BitVec 7) (a : BitVec 7) (t : BitVec 3)
  /-- FRSQ (R221). Vector reciprocal square root. -/
  | frsq (d : BitVec 7) (a : BitVec 7) (t : BitVec 3)
  /-- FSQRT (R221). Vector square root. -/
  | fsqrt (d : BitVec 7) (a : BitVec 7) (t : BitVec 3)
  /-- FEX2 (R221). Vector 2^x. -/
  | fex2 (d : BitVec 7) (a : BitVec 7) (t : BitVec 3)
  /-- FLG2 (R221). Vector log2 x. -/
  | flg2 (d : BitVec 7) (a : BitVec 7) (t : BitVec 3)
  /-- FSIN (R221). Vector sin(π x). -/
  | fsin (d : BitVec 7) (a : BitVec 7) (t : BitVec 3)
  /-- FCOS (R221). Vector cos(π x). -/
  | fcos (d : BitVec 7) (a : BitVec 7) (t : BitVec 3)
  /-- FCLASS (R223). Writes the one-hot class mask of vA. -/
  | fclass (d : BitVec 7) (a : BitVec 7) (t : BitVec 3)
  /-- FRND (R224). Rounds to an integral value in the same format. -/
  | frnd (d : BitVec 7) (a : BitVec 7) (t : BitVec 3) (m : BitVec 3)
  /-- FCVT (R225). Float-to-float conversion with a rounding mode, including SR. -/
  | fcvt (d : BitVec 7) (a : BitVec 7) (t : BitVec 3) (x : BitVec 4) (m : BitVec 3)
  /-- ICVT (R227). Conversion between integer and float. -/
  | icvt (d : BitVec 7) (a : BitVec 7) (r : BitVec 1) (f : BitVec 3) (i : BitVec 3) (m : BitVec 3)
  /-- IADD (R228). Vector integer add. -/
  | iadd (t : BitVec 3) (d : BitVec 7) (a : BitVec 7) (b : BitVec 7)
  /-- ISUB (R228). Vector integer subtract. -/
  | isub (t : BitVec 3) (d : BitVec 7) (a : BitVec 7) (b : BitVec 7)
  /-- IMUL (R228). Vector integer multiply, low bits. -/
  | imul (t : BitVec 3) (d : BitVec 7) (a : BitVec 7) (b : BitVec 7)
  /-- IMULH (R228). Vector integer multiply, high bits. -/
  | imulh (t : BitVec 3) (d : BitVec 7) (a : BitVec 7) (b : BitVec 7)
  /-- IMAD (R228). Vector integer multiply-add. -/
  | imad (t : BitVec 3) (d : BitVec 7) (a : BitVec 7) (b : BitVec 7)
  /-- IMIN (R228). Vector integer minimum. -/
  | imin (t : BitVec 3) (d : BitVec 7) (a : BitVec 7) (b : BitVec 7)
  /-- IMAX (R228). Vector integer maximum. -/
  | imax (t : BitVec 3) (d : BitVec 7) (a : BitVec 7) (b : BitVec 7)
  /-- ISHL (R228). Vector shift left. -/
  | ishl (t : BitVec 3) (d : BitVec 7) (a : BitVec 7) (b : BitVec 7)
  /-- ISHR (R228). Vector logical shift right. -/
  | ishr (t : BitVec 3) (d : BitVec 7) (a : BitVec 7) (b : BitVec 7)
  /-- ISRA (R228). Vector arithmetic shift right. -/
  | isra (t : BitVec 3) (d : BitVec 7) (a : BitVec 7) (b : BitVec 7)
  /-- IAND (R228). Vector AND. -/
  | iand (t : BitVec 3) (d : BitVec 7) (a : BitVec 7) (b : BitVec 7)
  /-- IOR (R228). Vector OR. -/
  | ior (t : BitVec 3) (d : BitVec 7) (a : BitVec 7) (b : BitVec 7)
  /-- IXOR (R228). Vector XOR. -/
  | ixor (t : BitVec 3) (d : BitVec 7) (a : BitVec 7) (b : BitVec 7)
  /-- ICMP (R230). Integer compare writing a predicate. -/
  | icmp (t : BitVec 3) (k : BitVec 4) (p : BitVec 3) (a : BitVec 7) (b : BitVec 7)
  /-- IABS (R229). Vector integer absolute value. -/
  | iabs (d : BitVec 7) (a : BitVec 7) (t : BitVec 3)
  /-- INOT (R229). Vector bitwise NOT. -/
  | inot (d : BitVec 7) (a : BitVec 7) (t : BitVec 3)
  /-- IPOP (R229). Vector population count. -/
  | ipop (d : BitVec 7) (a : BitVec 7) (t : BitVec 3)
  /-- ICLZ (R229). Vector count of leading zeros. -/
  | iclz (d : BitVec 7) (a : BitVec 7) (t : BitVec 3)
  /-- VSEL (R231). Selects vA or vB lane by lane on pN. -/
  | vsel (p : BitVec 3) (d : BitVec 7) (a : BitVec 7) (b : BitVec 7)
  /-- VMOV (R231). Vector move. -/
  | vmov (t : BitVec 3) (d : BitVec 7) (a : BitVec 7)
  /-- VLI (R231). Writes an immediate to every active lane. -/
  | vli (d : BitVec 7) (i : BitVec 10)
  /-- LPERM (R232). Gathers vA from the lanes named by vB. -/
  | lperm (t : BitVec 3) (d : BitVec 7) (a : BitVec 7) (b : BitVec 7)
  /-- LRED (R234). Fixed-tree reduction across the active lanes. -/
  | lred (d : BitVec 7) (a : BitVec 7) (k : BitVec 1) (t : BitVec 3) (o : BitVec 3)
  /-- LSCAN (R234). Sequential prefix scan in lane order. -/
  | lscan (d : BitVec 7) (a : BitVec 7) (k : BitVec 1) (t : BitVec 3) (o : BitVec 3) (n : BitVec 1)
  /-- SGNQ (R235). Sign-quantises vA with the error memory vB into sign words and a block scale. -/
  | sgnq (d : BitVec 7) (a : BitVec 7) (b : BitVec 7)
  /-- SGNX (R236). Expands sign bits with scales. -/
  | sgnx (d : BitVec 7) (a : BitVec 7) (b : BitVec 7)
  /-- PACK (R237). Packs narrow fields from a register group, optionally saturating. -/
  | pack (d : BitVec 7) (a : BitVec 7) (z : BitVec 2) (s : BitVec 1) (g : BitVec 1)
  /-- UNPK (R238). Unpacks fields into a register group. -/
  | unpk (d : BitVec 7) (a : BitVec 7) (z : BitVec 2) (g : BitVec 1)
  /-- LD (R255). Per-lane load from local memory. -/
  | ld (z : BitVec 3) (d : BitVec 7) (o : BitVec 7) (s : BitVec 5) (g : BitVec 1) (l : BitVec 1)
  /-- ST (R256). Per-lane store to local memory. -/
  | st (z : BitVec 3) (d : BitVec 7) (o : BitVec 7) (s : BitVec 5) (l : BitVec 1)
  /-- LDS (R247). Per-lane scratchpad load with range check. -/
  | lds (z : BitVec 3) (d : BitVec 7) (o : BitVec 7) (s : BitVec 5) (g : BitVec 1)
  /-- STS (R247). Per-lane scratchpad store with range check. -/
  | sts (z : BitVec 3) (d : BitVec 7) (o : BitVec 7) (s : BitVec 5)
  /-- LDK (R257). One team-wide load into scalar registers. -/
  | ldk (z : BitVec 3) (d : BitVec 6) (s : BitVec 5) (g : BitVec 1) (l : BitVec 1)
  /-- LDB (R258). Load that reads fabric addresses through the remote-read cache. -/
  | ldb (z : BitVec 3) (d : BitVec 7) (o : BitVec 7) (s : BitVec 5) (g : BitVec 1) (n : BitVec 1)
  /-- PREF (R260). Prefetch hint to a cache level. -/
  | pref (o : BitVec 7) (s : BitVec 5) (l : BitVec 2)
  /-- FENCE_ACQ (R261). Acquire fence at a scope. -/
  | fenceAcq (s : BitVec 3)
  /-- FENCE_REL (R261). Release fence at a scope, including buffer flushes at POD and SYS. -/
  | fenceRel (s : BitVec 3)
  /-- FENCE_AR (R261). Combined acquire and release fence. -/
  | fenceAr (s : BitVec 3)
  /-- CINV (R263). Writes back and invalidates a local range below a scope's point. -/
  | cinv (s : BitVec 3) (a : BitVec 6) (b : BitVec 6)
  /-- CWB (R263). Writes back the dirty bytes of a local range to a scope's point. -/
  | cwb (s : BitVec 3) (a : BitVec 6) (b : BitVec 6)
  /-- RRINV (R259). Invalidates remote-read-cache lines of a fabric range. -/
  | rrinv (a : BitVec 6) (b : BitVec 6)
  /-- SPCHK (R264). Reads and clears the scratchpad fault register. -/
  | spchk (d : BitVec 6)
  /-- MWAIT (R265). Blocks until a memory word differs from sB, then acquires. -/
  | mwait (t : BitVec 3) (d : BitVec 6) (a : BitVec 6) (b : BitVec 6) (s : BitVec 3)
  /-- PMAP (R283). Resolves the page faults recorded in FADDR, taking pool frames for lazy pages. -/
  | pmap (d : BitVec 7)
  /-- PMAP_RD (R283). Writes each active lane's FADDR to a pair. -/
  | pmapRd (d : BitVec 7)
  /-- LOAD_RETURN (R255). Load data returns mask word by mask word, writing destinations, possibly with poison, and clearing pending bits. -/
  | loadReturn (remote : List RemoteLine)
  /-- AMO (R299). Returning read-modify-write atomic. -/
  | amo (o : BitVec 4) (w : BitVec 1) (d : BitVec 7) (v : BitVec 7) (s : BitVec 5)
  /-- ACAS (R300). Compare-and-swap of 4 or 8 bytes. -/
  | acas (w : BitVec 1) (d : BitVec 7) (v : BitVec 7) (s : BitVec 5)
  /-- ACAS2 (R300). 16-byte compare-and-swap. -/
  | acas2 (d : BitVec 7) (v : BitVec 7) (s : BitVec 5)
  /-- RED (R299). Non-returning atomic reduction. -/
  | red (o : BitVec 4) (w : BitVec 1) (d : BitVec 7) (v : BitVec 7) (s : BitVec 5)
  /-- REDX (R302). Adds a float into a fixed-point reduction page word. -/
  | redx (w : BitVec 1) (d : BitVec 7) (v : BitVec 7) (s : BitVec 5)
  /-- ALD (R301). Atomic load in the package's atomic order. -/
  | ald (w : BitVec 1) (d : BitVec 7) (v : BitVec 7) (s : BitVec 5)
  /-- AST (R301). Atomic store in the package's atomic order. -/
  | ast (w : BitVec 1) (d : BitVec 7) (v : BitVec 7) (s : BitVec 5)
  /-- APIN (R303). Sets the contention-predictor mode of a line at its home slice. -/
  | apin (o : BitVec 4) (v : BitVec 7) (s : BitVec 5)
  /-- HOST_ATOMIC_COMPLETION (R311). A PCIe AtomicOp completion returns an old value, or a failure marker for UR, CA or poison. -/
  | hostAtomicCompletion (reply : HostReply) (old : BitVec 128)
  /-- HOST_ATOMIC_TIMEOUT (R311). A host AtomicOp's completion timeout expires and the lane receives a failure marker with DETAIL 0x03. -/
  | hostAtomicTimeout (applied : Bool) (old : BitVec 128)
  /-- RBIND (R322). Binds a region-table entry to a tile descriptor, optionally prefilling or zeroing the window. -/
  | rbind (e : BitVec 5) (a : BitVec 6) (m : BitVec 2) (q : BitVec 1) (s : BitVec 3)
  /-- RDRAIN (R329). Writes a window back to its tile, optionally accumulating into BF16 or FP8. -/
  | rdrain (e : BitVec 5) (a : BitVec 1) (t : BitVec 2) (r : BitVec 1) (f : BitVec 1) (q : BitVec 1) (l : BitVec 1) (s : BitVec 3)
  /-- RWAIT (R327). Starts the fill of an ABSENT entry and blocks until it is not FILLING or DRAINING. -/
  | rwait (e : BitVec 5)
  /-- RFREE (R330). Frees a region-table entry, waiting for a drain. -/
  | rfree (e : BitVec 5)
  /-- RSTAT (R330). Reads an entry's state, GEN and POISON. -/
  | rstat (e : BitVec 5) (d : BitVec 6)
  /-- CYIELD (R326). Arms the team's touch continuation. -/
  | cyield (o : BitVec 20)
  /-- RSEED (R332). Sets the drain SR seed and counter. -/
  | rseed (a : BitVec 6) (b : BitVec 6)
  /-- MCLAIM (R343). Claims a range of logical slots, banks or codebooks. -/
  | mclaim (k : BitVec 2) (d : BitVec 6) (a : BitVec 6)
  /-- MRELEASE (R344). Releases a claimed range after its users complete. -/
  | mrelease (k : BitVec 2) (a : BitVec 6)
  /-- MGANG (R354). Writes the team's gang register. -/
  | mgang (a : BitVec 6)
  /-- MSTAT (R382). Reads matrix status or the stream fault record. -/
  | mstat (d : BitVec 6) (a : BitVec 6)
  /-- MLOAD (R373). Copies lines from memory into an operand slot run. -/
  | mload (a : BitVec 6) (b : BitVec 6) (q : BitVec 1) (s : BitVec 3)
  /-- MLOADC (R374). Loads a coded tile found through the index table into a slot run. -/
  | mloadc (a : BitVec 6) (b : BitVec 6) (q : BitVec 1) (s : BitVec 3)
  /-- MTABLE (R375). Loads and checks a probability table. -/
  | mtable (a : BitVec 6) (i : BitVec 3) (q : BitVec 1) (s : BitVec 3)
  /-- MCBOOK (R376). Loads a VQ codebook. -/
  | mcbook (a : BitVec 6) (i : BitVec 3) (t : BitVec 2) (q : BitVec 1) (s : BitVec 3)
  /-- MMA (R361). Gang matrix multiply-accumulate of plain operands into a bank. -/
  | mma (k : BitVec 2) (a : BitVec 6) (x : BitVec 4) (y : BitVec 4)
  /-- MMAC (R361). Gang matrix multiply-accumulate with a coded B decoded at the operand port. -/
  | mmac (k : BitVec 2) (a : BitVec 6) (x : BitVec 4)
  /-- MZERO (R378). Zeroes a bank. -/
  | mzero (k : BitVec 2)
  /-- MRD (R379). Reads bank rows into vector registers. -/
  | mrd (k : BitVec 2) (v : BitVec 2) (d : BitVec 7) (a : BitVec 6)
  /-- MWR (R379). Writes vector registers into bank rows. -/
  | mwr (k : BitVec 2) (v : BitVec 2) (d : BitVec 7) (a : BitVec 6)
  /-- MST (R380). Stores a whole bank to memory with conversion. -/
  | mst (a : BitVec 6) (b : BitVec 6) (k : BitVec 2) (t : BitVec 3) (m : BitVec 3) (l : BitVec 1) (s : BitVec 3)
  /-- MTRQ (R381). Transposes and requantises an operand on Skew. -/
  | mtrq (a : BitVec 6) (m : BitVec 3)
  /-- HBIND (R393). Reads and binds a traversal context to a ray queue register. -/
  | hbind (q : BitVec 4) (a : BitVec 6) (k : BitVec 1) (s : BitVec 3)
  /-- HLOG (R426). Sets a register's traversal log area. -/
  | hlog (q : BitVec 4) (a : BitVec 6)
  /-- HREPLAY (R429). Creates one replayed ray per active lane from log slots. -/
  | hreplay (q : BitVec 4) (v : BitVec 7) (k : BitVec 1) (s : BitVec 3)
  /-- HSTAT (R432). Reads ray-engine status for a register. -/
  | hstat (d : BitVec 6) (q : BitVec 4) (s : BitVec 4)
  /-- HINV (R422). Invalidates node-cache lines of a range. -/
  | hinv (a : BitVec 6) (b : BitVec 6)
  /-- RAY_FETCH_RETURN (R402). A line read by a ray returns and traversal continues with tests, a CALL, a held translation fault, POISON or the end of the ray. -/
  | rayFetchReturn (remote : List RemoteLine)
  /-- LAUNCH (R181). Submits a 64-byte launch record to the die's launch engine and returns its status and handle. -/
  | launch (d : BitVec 6) (a : BitVec 6) (q : BitVec 1) (l : BitVec 1) (s : BitVec 3)
  /-- EVSIG (R182). Releases and adds 1 to an event. -/
  | evsig (a : BitVec 6) (s : BitVec 3)
  /-- EVADD (R182). Releases and adds a signed amount to an event, clamping. -/
  | evadd (a : BitVec 6) (b : BitVec 6) (s : BitVec 3)
  /-- EVWAIT (R182). Blocks until an event count reaches sB, then acquires. -/
  | evwait (a : BitVec 6) (b : BitVec 6) (s : BitVec 3)
  /-- IDEM_RD (R183). Reads the crew's idempotence. -/
  | idemRd (d : BitVec 6)
  /-- RQBIND_ATTACH (R184). Attaches the team as a producer of a record queue. -/
  | rqbindAttach (a : BitVec 6)
  /-- RQBIND_DETACH (R184). Detaches a producer, sealing the queue when none remain. -/
  | rqbindDetach (a : BitVec 6)
  /-- RQBIND_STAT (R184). Reads a record queue's state, producers and occupancy. -/
  | rqbindStat (d : BitVec 6) (a : BitVec 6)
  /-- LATE_RETURN (R30). A return carrying the generation of a saved context is written into the image and clears its saved pending bit, or is discarded if the generation is retired. -/
  | lateReturn (remote : List RemoteLine)
  /-- TLB_INVALIDATE (R281). Writing GO = 1 starts invalidation of a page, a large page or all entries of a context on the die. -/
  | tlbInvalidate (value : W64)
  /-- MISSING_DECREMENT (R288). A write to the miss-resolution register decrements MISSING of the named saved crew. -/
  | missingDecrement (value : W64)
  /-- RRCSTEPS_WRITE (R246). Writing RRCSTEPS resizes and invalidates the whole remote-read cache. -/
  | rrcstepsWrite (value : W32)
  /-- REGISTER_WRITE (R9). A write by system software to a control register with no behaviour of its own, by access type. -/
  | registerWrite (off : BitVec 32) (value : W64)
  /-- RSTW (R454). Remote store of each effective lane, inserted into Spindle buffers. -/
  | rstw (w : BitVec 1) (a : BitVec 7) (d : BitVec 7) (p : BitVec 3)
  /-- RRED (R454). Remote reduction of each effective lane. -/
  | rred (w : BitVec 1) (a : BitVec 7) (d : BitVec 7) (o : BitVec 4) (p : BitVec 3)
  /-- RAMO (R454). Remote returning atomic of each effective lane. -/
  | ramo (w : BitVec 1) (a : BitVec 7) (d : BitVec 7) (o : BitVec 4) (p : BitVec 3)
  /-- AFLUSH (R457). Departs the team's buffers for a destination and waits for its earlier elements to complete, returning UNREP. -/
  | aflush (d : BitVec 6) (a : BitVec 6)
  /-- AFLUSH_ALL (R457). As AFLUSH for every destination. -/
  | aflushAll (d : BitVec 6)
  /-- AFSTAT_FAIL (R458). Reads and clears UNREP. -/
  | afstatFail (d : BitVec 6)
  /-- AFSTAT_PEND (R458). Reads the count of the team's uncompleted elements and records. -/
  | afstatPend (d : BitVec 6)
  /-- RSVS (R466). Requests receive slots at a remote record queue. -/
  | rsvs (d : BitVec 6) (q : BitVec 4) (a : BitVec 6)
  /-- RSVS_RET (R467). Returns a register's reservations. -/
  | rsvsRet (q : BitVec 4)
  /-- RRPUSH (R469). Sends one 64-byte record per effective lane to the reserved remote queue. -/
  | rrpush (q : BitVec 4) (v : BitVec 7) (p : BitVec 3)
  /-- AGGREGATED_STORE (R455). An aggregated-store packet at the target is applied element by element at home slices, then acknowledged. -/
  | aggregatedStore (p : StorePacket)
  /-- STORE_ACKNOWLEDGEMENT (R459). An acknowledgement completes its elements: old values are written, failures recorded and flags set. -/
  | storeAcknowledgement (a : StoreAck)
  /-- RECORD_PACKET (R470). A record packet at the target appends each record into a reserved slot, or fails it with QUEUE. -/
  | recordPacket (p : RecordPacket)
  /-- RESERVATION_REQUEST (R466). The target grants min(c, POOL) slots, or refuses. -/
  | reservationRequest (p : ResvRequest)
  /-- RESERVATION_GRANT (R466). The grant reply reaches the initiator, writing sD and updating DEST and RESV. -/
  | reservationGrant (p : ResvGrant)
  /-- RESERVATION_CANCEL (R468). The target returns to POOL the slots it granted to a cancelled request. -/
  | reservationCancel (p : ResvRequest)
  /-- RESERVATION_RETURN (R467). Returned reservations are added back to the target queue's POOL. -/
  | reservationReturn (p : ResvReturn)
  /-- INB_WRITE (R468). Writing INB of a queue recomputes POOL and advances the reservation epoch. -/
  | inbWrite (value : W32)
  /-- DEVICE_UNREACHABLE (R476). The transport reports a device unreachable, failing its in-flight elements and records with UNREACH. -/
  | deviceUnreachable (dev : BitVec 17)
  /-- CPLAN (R490). Reads, checks and registers a collective plan. -/
  | cplan (d : BitVec 6) (a : BitVec 6)
  /-- CPLAN_FREE (R507). Frees a plan slot. -/
  | cplanFree (a : BitVec 6)
  /-- CSTART (R501). Starts a run of a plan. -/
  | cstart (a : BitVec 6)
  /-- CWAIT (R507). Blocks while the run is RUNNING, then returns the status and ORs in FLAGS. -/
  | cwait (d : BitVec 6) (a : BitVec 6)
  /-- CSTAT (R507). Reads plan status, RUN, rank and position, or units written. -/
  | cstat (d : BitVec 6) (a : BitVec 6) (x : BitVec 3)
  /-- CCANCEL (R507). Cancels a running run. -/
  | ccancel (a : BitVec 6)
  /-- TENC (R508). Codes a raw image tile into a coded slot. -/
  | tenc (d : BitVec 6) (a : BitVec 6) (b : BitVec 6) (t : BitVec 3)
  /-- TDEC (R508). Decodes a coded slot into a raw image tile. -/
  | tdec (d : BitVec 6) (a : BitVec 6) (b : BitVec 6)
  /-- CHUNK_ARRIVAL (R500). A collective chunk at the target is refused, discarded as duplicate, fails the run with MISMATCH, or is combined and acknowledged. -/
  | chunkArrival (k : Chunk)
  /-- TVALID_WRITE (R491). Writing 1 to a TVALID bit checks the table's frequencies before marking it loaded. -/
  | tvalidWrite (value : W32)
  /-- FREQ_WRITE (R491). Writing a coding table's FREQ clears its TVALID bit. -/
  | freqWrite (off : BitVec 9) (value : W64)
  /-- HOST_SUBMIT (R479). Writing SQTAIL makes the launch engine read, check and accept the submitted launch records. -/
  | hostSubmit (tail : W32)
  /-- CQHEAD_WRITE (R480). Advancing CQHEAD lets a stalled launch engine resume reading submissions. -/
  | cqheadWrite (head : W32)
  /-- ATTESTATION_REQUEST (R482). Signs the host nonce and firmware digest with the HSS identity key, or refuses when exhausted. -/
  | attestationRequest (nonce : W64)
  /-- SOFT_ERROR (R45). A soft error or hard fault arises in SRAM or HBM; ECC corrects it and logs it, or it is confined as poison, MCE.LANE or MCE.CREW, or reported as fatal. -/
  | softError (e : ErrorSite)
  /-- LINE_REPLACEMENT (R258). A cache (L1, L2, remote-read cache or node cache) replaces a line or writes back its dirty bytes, dropping node-cache poison marks, so every store is eventually performed at SYS scope. -/
  | lineReplacement (r : Replace)
  /-- CLOCK_CHANGE (R47). System software lowers or restores a die's arithmetic clock, changing the length of a cycle while the counters keep counting cycles. -/
  | clockChange (lowered : Bool)
  /-- FLASH_UPDATE (R481). In recovery, the physical function accepts a flash update of the firmware image. -/
  | flashUpdate (version : W32) (signed : SignedCode)
  /-- CLAUSE_START (R151). Each cycle the sequencer starts one clause of the ready team chosen under R152, evaluating WAIT once and checking the header and clause-level conditions. -/
  | clauseStart
  /-- NOP (R61). No operation. -/
  | nop
  /-- JOIN (R137). At the rejoin address, runs the other lanes of the top entry, or restores the saved mask and pops the entry. -/
  | join
  /-- ELSE (R137). Ends one path, switching to the top entry's other lanes or jumping to the rejoin address. -/
  | elseW
  /-- EXIT (R137). Removes the active lanes from LIVE and continues with any remaining stacked lanes, or ends the team. -/
  | exit
  /-- YIELD (R153). Yields as YLD = 1 does. -/
  | yield
  /-- TFENCE (R157). Waits for every earlier flag-setting word, then raises ARITH when ASTICKY AND AENABLE is not zero. -/
  | tfence
  /-- TRET (R155). Restores the saved mask, returns to user state and continues at XPC. -/
  | tret
  /-- MWAIT_WAKE (R265). A write performed at the scope's point to the waited line makes a blocked MWAIT re-read the word. -/
  | mwaitWake
  /-- PMISS (R287). Posts miss records for unresolved pages and saves the crew with MISSING set. -/
  | pmiss
  /-- PRET (R289). Waits for the team's PMAPs, then returns as TRET does. -/
  | pret
  /-- PAGE_WALK_COMPLETE (R279). A page-table walk for a TLB miss completes, setting A and D by CAS or yielding a translation fault. -/
  | pageWalkComplete
  /-- STORE_COMPLETE (R256). A store's lanes are performed at TEAM scope and its flag clears. -/
  | storeComplete
  /-- FRAME_ZEROED (R284). The memory controller finishes zeroing a zero-pending frame taken by PMAP. -/
  | frameZeroed
  /-- DQ_COMMIT (R274). When every live team of a DQ crew is at a quantum end, the buffered stores and deferred atomics are performed in team, program and lane order. -/
  | dqCommit
  /-- ATOMIC_RETURN (R306). An atomic's lanes are performed and their old values return, completing the word. -/
  | atomicReturn
  /-- CYIELD_OFF (R326). Disarms the touch continuation. -/
  | cyieldOff
  /-- FILL_BEAT (R317). A fill beat arrives and is written to the window, or discarded when its generation is stale. -/
  | fillBeat
  /-- FILL_COMPLETE (R324). The last byte of a fill is written, the entry becomes FULL, leave is returned and waiting teams proceed. -/
  | fillComplete
  /-- DRAIN_COMPLETE (R329). A drain finishes writing or accumulating, releases if REL is set, and the entry becomes FULL or FREE. -/
  | drainComplete
  /-- MFENCE (R383). Waits until the team's matrix words and gang operations complete or are held. -/
  | mfence
  /-- ARRAY_SCHEDULE (R357). When the array is free, the highest-class ready operation is chosen and requests its current leave. -/
  | arraySchedule
  /-- MATRIX_STEP (R361). One accumulation step adds one K-step of products into every element of the bank. -/
  | matrixStep
  /-- MMAC_BLOCK_DECODE (R364). The decoder finishes decoding and checking one block of the coded tile. -/
  | mmacBlockDecode
  /-- MMAC_VERIFY (R369). The decode reaches the tile's end: the MMAC issues in every member, or a STREAM fault holds it. -/
  | mmacVerify
  /-- MATRIX_COMPLETE (R362). The last step is written: flags are set in members, flags clear, the bank frees and leave is returned. -/
  | matrixComplete
  /-- HINV_ALL (R422). Invalidates the whole node cache. -/
  | hinvAll
  /-- TRACE (R402). A TRACE record accepted at port 0x001 creates a ray and starts its stackless traversal. -/
  | trace
  /-- RESUME (R414). A RESUME record continues a ray suspended in CALL, optionally accepting a user-surface candidate. -/
  | resume
  /-- ABORT (R415). An ABORT record ends a ray suspended in CALL with no result. -/
  | abort
  /-- LAUNCH_PORT_RECORD (R186). A launch record pushed through port 0x004 is checked and accepted, producing a 16-byte result. -/
  | launchPortRecord
  /-- IDEM_CLR (R183). Clears the crew's idempotence. -/
  | idemClr
  /-- FED_CREW_TIMEOUT (R205). For FEED = 1, a crew is formed when records are present and none has been added for 4,096 cycles. -/
  | fedCrewTimeout
  /-- SLOT_BIND (R164). Writing VALID = 1 binds a slot, refusing under R165, or enters STARTING or RESTORING. -/
  | slotBind
  /-- CREW_START (R166). A fresh crew's initial state is set, the start acquire is performed and the slot enters RUN. -/
  | crewStart
  /-- CREW_RESTORE (R197). The saved image is decoded and loaded with a new generation and the slot enters RUN, or the crew is terminated with MCE.CREW. -/
  | crewRestore
  /-- SLOT_SAVE (R192). Slot command Save stops issue, captures and compresses the crew's state into its save area. -/
  | slotSave
  /-- SAVE_COMPLETE (R192). The save image is written and the slot becomes EMPTY. -/
  | saveComplete
  /-- SLOT_DROP (R198). Slot command Drop retires the generation, discards the crew and returns it to its launch. -/
  | slotDrop
  /-- CREW_END (R174). When the last team ends, the core releases at CSCOPE and frees the slot. -/
  | crewEnd
  /-- WAIT_LIMIT_EXPIRY (R200). A team waiting for WAITLIM cycles makes its crew a waiter, promoting saved crews of its context. -/
  | waitLimitExpiry
  /-- LEAVE_GRANT (R36). The die's current arbiter grants a pending leave request that fits the pool and ramp limit. -/
  | leaveGrant
  /-- TLB_INVALIDATE_DONE (R281). Every core and walker has dropped the entries and performed accesses translated through them; GO clears. -/
  | tlbInvalidateDone
  /-- SPINDLE_AGE_DEPART (R442). A buffer whose oldest element reaches AGELIM cycles departs. -/
  | spindleAgeDepart
  /-- PACKET_HANDOFF (R442). A DEPARTING buffer's packet is handed to the transport and the buffer becomes EMPTY. -/
  | packetHandoff
  /-- PACKET_TIMEOUT (R462). RTIMEOUT passes without acknowledgement and every element of the packet fails with TIMEOUT. -/
  | packetTimeout
  /-- RSVS_TIMEOUT (R468). An RSVS reply does not arrive within RTIMEOUT; it ends with STATUS 8 and a cancel is sent. -/
  | rsvsTimeout
  /-- COMPOSITING_PORT_RECORD (R509). A START, CANCEL or STAT record pushed through port 0x002 is performed. -/
  | compositingPortRecord
  /-- REDUCTION_BURST (R502). Once its 40 A leave is granted, the engine combines one chunk. -/
  | reductionBurst
  /-- CHUNK_ACKNOWLEDGEMENT (R503). An acknowledgement of a sent chunk arrives, possibly completing the run as DONE. -/
  | chunkAcknowledgement
  /-- RUN_TIMEOUT (R503). CTIMEOUT passes without progress and the run ends FAILED with TIMEOUT. -/
  | runTimeout
  /-- INBOUND_ATOMICOP (R477). An AtomicOp received from PCIe is completed with Unsupported Request. -/
  | inboundAtomicop
  /-- POWER_ON_RESET (R484). Power-on resets every die and boots the firmware. -/
  | powerOnReset
  /-- HOT_RESET (R484). A PCIe hot reset or link down resets every die and boots. -/
  | hotReset
  /-- FLR_PHYSICAL_FUNCTION (R484). FLR of the physical function acts as a hot reset. -/
  | flrPhysicalFunction
  /-- FLR_VIRTUAL_FUNCTION (R484). FLR of a virtual function terminates its launches, discards undeparted elements, and frees its reservations and queues. -/
  | flrVirtualFunction
  /-- D3HOT_ENTRY (R483). Entry to D3hot after every launch completes. -/
  | d3hotEntry
  /-- D3COLD_ENTRY (R483). Power removal loses all state but the module flash. -/
  | d3coldEntry
  /-- CORE_RETIRE (R41). A retired core's crews are saved, the core map is remapped to a spare and the crews are made restorable. -/
  | coreRetire
  /-- CHANNEL_RETIRE (R42). A retired HBM channel is copied to the spare channel and redirected. -/
  | channelRetire
  /-- LANE_RETIRE (R43). A retired fabric lane makes the port retrain with the spare lane. -/
  | laneRetire
  /-- WAY_RETIRE (R44). A retired LLC way is replaced by its set's spare way. -/
  | wayRetire
  /-- CHANNEL_COPY_COMPLETE (R42). The copy of a retired HBM channel to its spare channel finishes, and the channel's addresses are redirected to the spare. -/
  | channelCopyComplete
  /-- FABRIC_PORT_FAILURE (R476). A fabric port fails and is left out of the spray, and its packets in flight are retransmitted over the other ports. -/
  | fabricPortFailure
  /-- FABRIC_PORT_RETURN (R43). A retrained or failed fabric port returns to service and rejoins the spray. -/
  | fabricPortReturn
  /-- MLOAD_COMPLETE (R373). An issued MLOAD, MLOADC or MCBOOK finishes copying into operand memory or a codebook, clearing its flag and its hazards. -/
  | mloadComplete
  /-- MST_COMPLETE (R380). An issued MST finishes writing the bank to memory, performs its release if REL is set, sets its flags and clears its flag. -/
  | mstComplete
  /-- MTRQ_COMPLETE (R381). A Skew transpose with requantisation finishes writing its destination run, sets its flags and clears its flag. -/
  | mtrqComplete
  /-- TILE_CODING_COMPLETE (R508). An issued TENC or TDEC finishes coding or decoding, writes its memory and its result register, and completes. -/
  | tileCodingComplete
  /-- D3HOT_EXIT (R483). The host returns the device from D3hot to D0, its operating state. -/
  | d3hotExit
  /-- CONTEXT_TEARDOWN (R486). System software tears down a context, freeing its plans and cancelling any run of them. -/
  | contextTeardown
  /-- SYSTEM_SOFTWARE_SEAL (R206). System software seals a record queue, letting its fed launch complete once the queue is empty and refusing further pushes. -/
  | systemSoftwareSeal
  deriving DecidableEq, Repr

end Sys2Proof
end

