-- ==== Sys2Proof/Decode.lean ====
section
/-! DEFINITION. Decoding, total on any word, and after it the encoder (spec/02_clauses_and_encoding.md R59, R67, R68,
R81, R82 and the encoding tables of the engines' chapters). A word decodes when its major opcode and sub-code are
assigned and every unused field is zero. The type codes a word accepts, the register rules and the privilege state are
checked when the word reaches issue (R85; Machine/Operands.lean). -/

namespace Sys2Proof

/-- Why a word is no instruction (R84): no opcode or sub-code is assigned (ILL.OP), or an unused field is not zero
(ILL.RSV) in what would otherwise be the instruction named. -/
inductive DecodeError
  | unassigned
  | reserved (i : Instr)
  deriving DecidableEq, Repr

/-- The word of major opcode 0x00. -/
def decodeOp00 (_ : BitVec 24) : Option Instr :=
  some (.nop)

/-- The word of major opcode 0x01. -/
def decodeOp01 (b : BitVec 24) : Option Instr :=
  some (.imx (b.extractLsb' 0 24))

/-- The word of major opcode 0x02. -/
def decodeOp02 (b : BitVec 24) : Option Instr :=
  some (.grd (b.extractLsb' 3 1) (b.extractLsb' 0 3))

/-- The word of major opcode 0x03. -/
def decodeOp03 (b : BitVec 24) : Option Instr :=
  some (.bra (b.extractLsb' 0 20))

/-- The word of major opcode 0x04. -/
def decodeOp04 (b : BitVec 24) : Option Instr :=
  some (.brs (b.extractLsb' 20 4) (b.extractLsb' 0 20))

/-- The word of major opcode 0x05. -/
def decodeOp05 (b : BitVec 24) : Option Instr :=
  some (.brv (b.extractLsb' 23 1) (b.extractLsb' 20 3) (b.extractLsb' 0 20))

/-- The word of major opcode 0x06. -/
def decodeOp06 (b : BitVec 24) : Option Instr :=
  some (.call (b.extractLsb' 0 20))

/-- The word of major opcode 0x07. -/
def decodeOp07 (b : BitVec 24) : Option Instr :=
  some (.ret (b.extractLsb' 9 6))

/-- The word of major opcode 0x08. -/
def decodeOp08 (b : BitVec 24) : Option Instr :=
  some (.mark (b.extractLsb' 0 20))

/-- The words of major opcode 0x09, by sub-code. -/
def decodeOp09 (b : BitVec 24) : Option Instr :=
  if b.extractLsb' 0 3 = 0#3 then some (.join) else
  if b.extractLsb' 0 3 = 1#3 then some (.elseW) else
  if b.extractLsb' 0 3 = 2#3 then some (.exit) else
  none

/-- The words of major opcode 0x0A, by sub-code. -/
def decodeOp0A (b : BitVec 24) : Option Instr :=
  if b.extractLsb' 0 3 = 0#3 then some (.sadd (b.extractLsb' 21 3) (b.extractLsb' 15 6) (b.extractLsb' 9 6) (b.extractLsb' 3 6)) else
  if b.extractLsb' 0 3 = 1#3 then some (.ssub (b.extractLsb' 21 3) (b.extractLsb' 15 6) (b.extractLsb' 9 6) (b.extractLsb' 3 6)) else
  if b.extractLsb' 0 3 = 2#3 then some (.smul (b.extractLsb' 21 3) (b.extractLsb' 15 6) (b.extractLsb' 9 6) (b.extractLsb' 3 6)) else
  if b.extractLsb' 0 3 = 3#3 then some (.smulh (b.extractLsb' 21 3) (b.extractLsb' 15 6) (b.extractLsb' 9 6) (b.extractLsb' 3 6)) else
  if b.extractLsb' 0 3 = 4#3 then some (.sdiv (b.extractLsb' 21 3) (b.extractLsb' 15 6) (b.extractLsb' 9 6) (b.extractLsb' 3 6)) else
  if b.extractLsb' 0 3 = 5#3 then some (.smin (b.extractLsb' 21 3) (b.extractLsb' 15 6) (b.extractLsb' 9 6) (b.extractLsb' 3 6)) else
  if b.extractLsb' 0 3 = 6#3 then some (.smax (b.extractLsb' 21 3) (b.extractLsb' 15 6) (b.extractLsb' 9 6) (b.extractLsb' 3 6)) else
  none

/-- The words of major opcode 0x0B, by sub-code. -/
def decodeOp0B (b : BitVec 24) : Option Instr :=
  if b.extractLsb' 0 3 = 0#3 then some (.sand (b.extractLsb' 15 6) (b.extractLsb' 9 6) (b.extractLsb' 3 6)) else
  if b.extractLsb' 0 3 = 1#3 then some (.sor (b.extractLsb' 15 6) (b.extractLsb' 9 6) (b.extractLsb' 3 6)) else
  if b.extractLsb' 0 3 = 2#3 then some (.sxor (b.extractLsb' 15 6) (b.extractLsb' 9 6) (b.extractLsb' 3 6)) else
  if b.extractLsb' 0 3 = 3#3 then some (.sshl (b.extractLsb' 15 6) (b.extractLsb' 9 6) (b.extractLsb' 3 6)) else
  if b.extractLsb' 0 3 = 4#3 then some (.sshr (b.extractLsb' 15 6) (b.extractLsb' 9 6) (b.extractLsb' 3 6)) else
  if b.extractLsb' 0 3 = 5#3 then some (.ssra (b.extractLsb' 15 6) (b.extractLsb' 9 6) (b.extractLsb' 3 6)) else
  if b.extractLsb' 0 3 = 6#3 then some (.ssel (b.extractLsb' 15 6) (b.extractLsb' 9 6) (b.extractLsb' 3 6)) else
  if b.extractLsb' 0 3 = 7#3 then some (.smov (b.extractLsb' 15 6) (b.extractLsb' 9 6)) else
  none

/-- The word of major opcode 0x0C. -/
def decodeOp0C (b : BitVec 24) : Option Instr :=
  some (.scmp (b.extractLsb' 21 3) (b.extractLsb' 15 6) (b.extractLsb' 9 6) (b.extractLsb' 3 6) (b.extractLsb' 0 3))

/-- The words of major opcode 0x0D, by sub-code. -/
def decodeOp0D (b : BitVec 24) : Option Instr :=
  if b.extractLsb' 0 3 = 0#3 then some (.sadd64 (b.extractLsb' 15 6) (b.extractLsb' 9 6) (b.extractLsb' 3 6)) else
  none

/-- The word of major opcode 0x0E. -/
def decodeOp0E (b : BitVec 24) : Option Instr :=
  some (.sli (b.extractLsb' 18 6) (b.extractLsb' 0 12))

/-- The word of major opcode 0x0F. -/
def decodeOp0F (b : BitVec 24) : Option Instr :=
  some (.saddImmediate (b.extractLsb' 18 6) (b.extractLsb' 12 6) (b.extractLsb' 0 12))

/-- The words of major opcode 0x10, by sub-code. -/
def decodeOp10 (b : BitVec 24) : Option Instr :=
  if b.extractLsb' 10 2 = 0#2 then some (.sshlImmediate (b.extractLsb' 18 6) (b.extractLsb' 12 6) (b.extractLsb' 0 5)) else
  if b.extractLsb' 10 2 = 1#2 then some (.sshrImmediate (b.extractLsb' 18 6) (b.extractLsb' 12 6) (b.extractLsb' 0 5)) else
  if b.extractLsb' 10 2 = 2#2 then some (.ssraImmediate (b.extractLsb' 18 6) (b.extractLsb' 12 6) (b.extractLsb' 0 5)) else
  none

/-- The words of major opcode 0x11, by sub-code. -/
def decodeOp11 (b : BitVec 24) : Option Instr :=
  if b.extractLsb' 9 3 = 0#3 then some (.slane (b.extractLsb' 18 6) (b.extractLsb' 12 6) (b.extractLsb' 0 7)) else
  if b.extractLsb' 9 3 = 1#3 then some (.sbcast (b.extractLsb' 12 6) (b.extractLsb' 0 7)) else
  if b.extractLsb' 9 3 = 2#3 then some (.voteAny (b.extractLsb' 18 6) (b.extractLsb' 0 3)) else
  if b.extractLsb' 9 3 = 3#3 then some (.voteAll (b.extractLsb' 18 6) (b.extractLsb' 0 3)) else
  if b.extractLsb' 9 3 = 4#3 then some (.voteBallot (b.extractLsb' 18 6) (b.extractLsb' 12 6) (b.extractLsb' 0 3)) else
  if b.extractLsb' 9 3 = 5#3 then some (.popm (b.extractLsb' 18 6) (b.extractLsb' 0 3)) else
  none

/-- The words of major opcode 0x12, by sub-code. -/
def decodeOp12 (b : BitVec 24) : Option Instr :=
  if b.extractLsb' 10 2 = 0#2 then some (.bar (b.extractLsb' 0 4)) else
  if b.extractLsb' 10 2 = 1#2 then some (.arrive (b.extractLsb' 18 6) (b.extractLsb' 0 4)) else
  if b.extractLsb' 10 2 = 2#2 then some (.await (b.extractLsb' 12 6) (b.extractLsb' 0 4)) else
  none

/-- The words of major opcode 0x13, by sub-code. -/
def decodeOp13 (b : BitVec 24) : Option Instr :=
  if b.extractLsb' 10 2 = 0#2 then some (.prio (b.extractLsb' 0 2)) else
  if b.extractLsb' 10 2 = 1#2 then some (.yield) else
  none

/-- The words of major opcode 0x14, by sub-code. -/
def decodeOp14 (b : BitVec 24) : Option Instr :=
  if b.extractLsb' 10 2 = 0#2 then some (.sysr (b.extractLsb' 18 6) (b.extractLsb' 0 10)) else
  if b.extractLsb' 10 2 = 1#2 then some (.sysw (b.extractLsb' 12 6) (b.extractLsb' 0 10)) else
  none

/-- The words of major opcode 0x15, by sub-code. -/
def decodeOp15 (b : BitVec 24) : Option Instr :=
  if b.extractLsb' 10 2 = 0#2 then some (.trap (b.extractLsb' 0 8)) else
  if b.extractLsb' 10 2 = 1#2 then some (.tfence) else
  if b.extractLsb' 10 2 = 2#2 then some (.tret) else
  none

/-- The word of major opcode 0x16. -/
def decodeOp16 (b : BitVec 24) : Option Instr :=
  some (.reform (b.extractLsb' 0 7))

/-- The word of major opcode 0x1C. -/
def decodeOp1C (b : BitVec 24) : Option Instr :=
  some (.qbind (b.extractLsb' 20 4) (b.extractLsb' 13 6))

/-- The words of major opcode 0x1D, by sub-code. -/
def decodeOp1D (b : BitVec 24) : Option Instr :=
  if b.extractLsb' 0 1 = 0#1 then some (.qpush (b.extractLsb' 20 4) (b.extractLsb' 13 7) (b.extractLsb' 8 5)) else
  if b.extractLsb' 0 1 = 1#1 then some (.qpushTeam (b.extractLsb' 20 4) (b.extractLsb' 13 7) (b.extractLsb' 8 5)) else
  none

/-- The words of major opcode 0x1E, by sub-code. -/
def decodeOp1E (b : BitVec 24) : Option Instr :=
  if b.extractLsb' 0 1 = 0#1 then some (.qpop (b.extractLsb' 20 4) (b.extractLsb' 13 7) (b.extractLsb' 8 5) (b.extractLsb' 1 3)) else
  if b.extractLsb' 0 1 = 1#1 then some (.qpopTeam (b.extractLsb' 20 4) (b.extractLsb' 13 7) (b.extractLsb' 8 5) (b.extractLsb' 1 3)) else
  none

/-- The words of major opcode 0x1F, by sub-code. -/
def decodeOp1F (b : BitVec 24) : Option Instr :=
  if b.extractLsb' 0 1 = 0#1 then some (.qtry (b.extractLsb' 20 4) (b.extractLsb' 13 7) (b.extractLsb' 8 5) (b.extractLsb' 1 3)) else
  if b.extractLsb' 0 1 = 1#1 then some (.qtryTeam (b.extractLsb' 20 4) (b.extractLsb' 13 7) (b.extractLsb' 8 5) (b.extractLsb' 1 3)) else
  none

/-- The word of major opcode 0x20. -/
def decodeOp20 (b : BitVec 24) : Option Instr :=
  some (.fadd (b.extractLsb' 21 3) (b.extractLsb' 14 7) (b.extractLsb' 7 7) (b.extractLsb' 0 7))

/-- The word of major opcode 0x21. -/
def decodeOp21 (b : BitVec 24) : Option Instr :=
  some (.fsub (b.extractLsb' 21 3) (b.extractLsb' 14 7) (b.extractLsb' 7 7) (b.extractLsb' 0 7))

/-- The word of major opcode 0x22. -/
def decodeOp22 (b : BitVec 24) : Option Instr :=
  some (.fmul (b.extractLsb' 21 3) (b.extractLsb' 14 7) (b.extractLsb' 7 7) (b.extractLsb' 0 7))

/-- The word of major opcode 0x23. -/
def decodeOp23 (b : BitVec 24) : Option Instr :=
  some (.ffma (b.extractLsb' 21 3) (b.extractLsb' 14 7) (b.extractLsb' 7 7) (b.extractLsb' 0 7))

/-- The word of major opcode 0x24. -/
def decodeOp24 (b : BitVec 24) : Option Instr :=
  some (.fmin (b.extractLsb' 21 3) (b.extractLsb' 14 7) (b.extractLsb' 7 7) (b.extractLsb' 0 7))

/-- The word of major opcode 0x25. -/
def decodeOp25 (b : BitVec 24) : Option Instr :=
  some (.fmax (b.extractLsb' 21 3) (b.extractLsb' 14 7) (b.extractLsb' 7 7) (b.extractLsb' 0 7))

/-- The word of major opcode 0x26. -/
def decodeOp26 (b : BitVec 24) : Option Instr :=
  some (.fdiv (b.extractLsb' 21 3) (b.extractLsb' 14 7) (b.extractLsb' 7 7) (b.extractLsb' 0 7))

/-- The word of major opcode 0x27. -/
def decodeOp27 (b : BitVec 24) : Option Instr :=
  some (.fdot2 (b.extractLsb' 21 3) (b.extractLsb' 14 7) (b.extractLsb' 7 7) (b.extractLsb' 0 7))

/-- The word of major opcode 0x28. -/
def decodeOp28 (b : BitVec 24) : Option Instr :=
  some (.fsgn (b.extractLsb' 21 3) (b.extractLsb' 14 7) (b.extractLsb' 7 7) (b.extractLsb' 0 7))

/-- The word of major opcode 0x29. -/
def decodeOp29 (b : BitVec 24) : Option Instr :=
  some (.fsgnNeg (b.extractLsb' 21 3) (b.extractLsb' 14 7) (b.extractLsb' 7 7) (b.extractLsb' 0 7))

/-- The word of major opcode 0x2A. -/
def decodeOp2A (b : BitVec 24) : Option Instr :=
  some (.fsgnXor (b.extractLsb' 21 3) (b.extractLsb' 14 7) (b.extractLsb' 7 7) (b.extractLsb' 0 7))

/-- The word of major opcode 0x2B. -/
def decodeOp2B (b : BitVec 24) : Option Instr :=
  some (.fcmp (b.extractLsb' 21 3) (b.extractLsb' 17 4) (b.extractLsb' 14 3) (b.extractLsb' 7 7) (b.extractLsb' 0 7))

/-- The words of major opcode 0x2C, by sub-code. -/
def decodeOp2C (b : BitVec 24) : Option Instr :=
  if b.extractLsb' 3 4 = 0#4 then some (.frcp (b.extractLsb' 17 7) (b.extractLsb' 10 7) (b.extractLsb' 7 3)) else
  if b.extractLsb' 3 4 = 1#4 then some (.frsq (b.extractLsb' 17 7) (b.extractLsb' 10 7) (b.extractLsb' 7 3)) else
  if b.extractLsb' 3 4 = 2#4 then some (.fsqrt (b.extractLsb' 17 7) (b.extractLsb' 10 7) (b.extractLsb' 7 3)) else
  if b.extractLsb' 3 4 = 3#4 then some (.fex2 (b.extractLsb' 17 7) (b.extractLsb' 10 7) (b.extractLsb' 7 3)) else
  if b.extractLsb' 3 4 = 4#4 then some (.flg2 (b.extractLsb' 17 7) (b.extractLsb' 10 7) (b.extractLsb' 7 3)) else
  if b.extractLsb' 3 4 = 5#4 then some (.fsin (b.extractLsb' 17 7) (b.extractLsb' 10 7) (b.extractLsb' 7 3)) else
  if b.extractLsb' 3 4 = 6#4 then some (.fcos (b.extractLsb' 17 7) (b.extractLsb' 10 7) (b.extractLsb' 7 3)) else
  if b.extractLsb' 3 4 = 7#4 then some (.fclass (b.extractLsb' 17 7) (b.extractLsb' 10 7) (b.extractLsb' 7 3)) else
  none

/-- The word of major opcode 0x2D. -/
def decodeOp2D (b : BitVec 24) : Option Instr :=
  some (.frnd (b.extractLsb' 17 7) (b.extractLsb' 10 7) (b.extractLsb' 7 3) (b.extractLsb' 4 3))

/-- The word of major opcode 0x2E. -/
def decodeOp2E (b : BitVec 24) : Option Instr :=
  some (.fcvt (b.extractLsb' 17 7) (b.extractLsb' 10 7) (b.extractLsb' 7 3) (b.extractLsb' 3 4) (b.extractLsb' 0 3))

/-- The word of major opcode 0x2F. -/
def decodeOp2F (b : BitVec 24) : Option Instr :=
  some (.icvt (b.extractLsb' 17 7) (b.extractLsb' 10 7) (b.extractLsb' 9 1) (b.extractLsb' 6 3) (b.extractLsb' 3 3) (b.extractLsb' 0 3))

/-- The word of major opcode 0x30. -/
def decodeOp30 (b : BitVec 24) : Option Instr :=
  some (.iadd (b.extractLsb' 21 3) (b.extractLsb' 14 7) (b.extractLsb' 7 7) (b.extractLsb' 0 7))

/-- The word of major opcode 0x31. -/
def decodeOp31 (b : BitVec 24) : Option Instr :=
  some (.isub (b.extractLsb' 21 3) (b.extractLsb' 14 7) (b.extractLsb' 7 7) (b.extractLsb' 0 7))

/-- The word of major opcode 0x32. -/
def decodeOp32 (b : BitVec 24) : Option Instr :=
  some (.imul (b.extractLsb' 21 3) (b.extractLsb' 14 7) (b.extractLsb' 7 7) (b.extractLsb' 0 7))

/-- The word of major opcode 0x33. -/
def decodeOp33 (b : BitVec 24) : Option Instr :=
  some (.imulh (b.extractLsb' 21 3) (b.extractLsb' 14 7) (b.extractLsb' 7 7) (b.extractLsb' 0 7))

/-- The word of major opcode 0x34. -/
def decodeOp34 (b : BitVec 24) : Option Instr :=
  some (.imad (b.extractLsb' 21 3) (b.extractLsb' 14 7) (b.extractLsb' 7 7) (b.extractLsb' 0 7))

/-- The word of major opcode 0x35. -/
def decodeOp35 (b : BitVec 24) : Option Instr :=
  some (.imin (b.extractLsb' 21 3) (b.extractLsb' 14 7) (b.extractLsb' 7 7) (b.extractLsb' 0 7))

/-- The word of major opcode 0x36. -/
def decodeOp36 (b : BitVec 24) : Option Instr :=
  some (.imax (b.extractLsb' 21 3) (b.extractLsb' 14 7) (b.extractLsb' 7 7) (b.extractLsb' 0 7))

/-- The word of major opcode 0x37. -/
def decodeOp37 (b : BitVec 24) : Option Instr :=
  some (.ishl (b.extractLsb' 21 3) (b.extractLsb' 14 7) (b.extractLsb' 7 7) (b.extractLsb' 0 7))

/-- The word of major opcode 0x38. -/
def decodeOp38 (b : BitVec 24) : Option Instr :=
  some (.ishr (b.extractLsb' 21 3) (b.extractLsb' 14 7) (b.extractLsb' 7 7) (b.extractLsb' 0 7))

/-- The word of major opcode 0x39. -/
def decodeOp39 (b : BitVec 24) : Option Instr :=
  some (.isra (b.extractLsb' 21 3) (b.extractLsb' 14 7) (b.extractLsb' 7 7) (b.extractLsb' 0 7))

/-- The word of major opcode 0x3A. -/
def decodeOp3A (b : BitVec 24) : Option Instr :=
  some (.iand (b.extractLsb' 21 3) (b.extractLsb' 14 7) (b.extractLsb' 7 7) (b.extractLsb' 0 7))

/-- The word of major opcode 0x3B. -/
def decodeOp3B (b : BitVec 24) : Option Instr :=
  some (.ior (b.extractLsb' 21 3) (b.extractLsb' 14 7) (b.extractLsb' 7 7) (b.extractLsb' 0 7))

/-- The word of major opcode 0x3C. -/
def decodeOp3C (b : BitVec 24) : Option Instr :=
  some (.ixor (b.extractLsb' 21 3) (b.extractLsb' 14 7) (b.extractLsb' 7 7) (b.extractLsb' 0 7))

/-- The word of major opcode 0x3D. -/
def decodeOp3D (b : BitVec 24) : Option Instr :=
  some (.icmp (b.extractLsb' 21 3) (b.extractLsb' 17 4) (b.extractLsb' 14 3) (b.extractLsb' 7 7) (b.extractLsb' 0 7))

/-- The words of major opcode 0x3E, by sub-code. -/
def decodeOp3E (b : BitVec 24) : Option Instr :=
  if b.extractLsb' 4 3 = 0#3 then some (.iabs (b.extractLsb' 17 7) (b.extractLsb' 10 7) (b.extractLsb' 7 3)) else
  if b.extractLsb' 4 3 = 1#3 then some (.inot (b.extractLsb' 17 7) (b.extractLsb' 10 7) (b.extractLsb' 7 3)) else
  if b.extractLsb' 4 3 = 2#3 then some (.ipop (b.extractLsb' 17 7) (b.extractLsb' 10 7) (b.extractLsb' 7 3)) else
  if b.extractLsb' 4 3 = 3#3 then some (.iclz (b.extractLsb' 17 7) (b.extractLsb' 10 7) (b.extractLsb' 7 3)) else
  none

/-- The word of major opcode 0x3F. -/
def decodeOp3F (b : BitVec 24) : Option Instr :=
  some (.vsel (b.extractLsb' 21 3) (b.extractLsb' 14 7) (b.extractLsb' 7 7) (b.extractLsb' 0 7))

/-- The word of major opcode 0x40. -/
def decodeOp40 (b : BitVec 24) : Option Instr :=
  some (.vmov (b.extractLsb' 21 3) (b.extractLsb' 14 7) (b.extractLsb' 7 7))

/-- The word of major opcode 0x41. -/
def decodeOp41 (b : BitVec 24) : Option Instr :=
  some (.vli (b.extractLsb' 17 7) (b.extractLsb' 0 10))

/-- The word of major opcode 0x42. -/
def decodeOp42 (b : BitVec 24) : Option Instr :=
  some (.lperm (b.extractLsb' 21 3) (b.extractLsb' 14 7) (b.extractLsb' 7 7) (b.extractLsb' 0 7))

/-- The word of major opcode 0x43. -/
def decodeOp43 (b : BitVec 24) : Option Instr :=
  some (.lred (b.extractLsb' 17 7) (b.extractLsb' 10 7) (b.extractLsb' 9 1) (b.extractLsb' 6 3) (b.extractLsb' 3 3))

/-- The word of major opcode 0x44. -/
def decodeOp44 (b : BitVec 24) : Option Instr :=
  some (.lscan (b.extractLsb' 17 7) (b.extractLsb' 10 7) (b.extractLsb' 9 1) (b.extractLsb' 6 3) (b.extractLsb' 3 3) (b.extractLsb' 2 1))

/-- The word of major opcode 0x45. -/
def decodeOp45 (b : BitVec 24) : Option Instr :=
  some (.sgnq (b.extractLsb' 14 7) (b.extractLsb' 7 7) (b.extractLsb' 0 7))

/-- The word of major opcode 0x46. -/
def decodeOp46 (b : BitVec 24) : Option Instr :=
  some (.sgnx (b.extractLsb' 14 7) (b.extractLsb' 7 7) (b.extractLsb' 0 7))

/-- The word of major opcode 0x47. -/
def decodeOp47 (b : BitVec 24) : Option Instr :=
  some (.pack (b.extractLsb' 17 7) (b.extractLsb' 10 7) (b.extractLsb' 8 2) (b.extractLsb' 7 1) (b.extractLsb' 6 1))

/-- The word of major opcode 0x48. -/
def decodeOp48 (b : BitVec 24) : Option Instr :=
  some (.unpk (b.extractLsb' 17 7) (b.extractLsb' 10 7) (b.extractLsb' 8 2) (b.extractLsb' 6 1))

/-- The word of major opcode 0x50. -/
def decodeOp50 (b : BitVec 24) : Option Instr :=
  some (.ld (b.extractLsb' 21 3) (b.extractLsb' 14 7) (b.extractLsb' 7 7) (b.extractLsb' 2 5) (b.extractLsb' 1 1) (b.extractLsb' 0 1))

/-- The word of major opcode 0x51. -/
def decodeOp51 (b : BitVec 24) : Option Instr :=
  some (.st (b.extractLsb' 21 3) (b.extractLsb' 14 7) (b.extractLsb' 7 7) (b.extractLsb' 2 5) (b.extractLsb' 0 1))

/-- The word of major opcode 0x52. -/
def decodeOp52 (b : BitVec 24) : Option Instr :=
  some (.lds (b.extractLsb' 21 3) (b.extractLsb' 14 7) (b.extractLsb' 7 7) (b.extractLsb' 2 5) (b.extractLsb' 1 1))

/-- The word of major opcode 0x53. -/
def decodeOp53 (b : BitVec 24) : Option Instr :=
  some (.sts (b.extractLsb' 21 3) (b.extractLsb' 14 7) (b.extractLsb' 7 7) (b.extractLsb' 2 5))

/-- The word of major opcode 0x54. -/
def decodeOp54 (b : BitVec 24) : Option Instr :=
  some (.ldk (b.extractLsb' 21 3) (b.extractLsb' 14 6) (b.extractLsb' 2 5) (b.extractLsb' 1 1) (b.extractLsb' 0 1))

/-- The word of major opcode 0x55. -/
def decodeOp55 (b : BitVec 24) : Option Instr :=
  some (.ldb (b.extractLsb' 21 3) (b.extractLsb' 14 7) (b.extractLsb' 7 7) (b.extractLsb' 2 5) (b.extractLsb' 1 1) (b.extractLsb' 0 1))

/-- The word of major opcode 0x56. -/
def decodeOp56 (b : BitVec 24) : Option Instr :=
  some (.pref (b.extractLsb' 7 7) (b.extractLsb' 2 5) (b.extractLsb' 0 2))

/-- The words of major opcode 0x57, by sub-code. -/
def decodeOp57 (b : BitVec 24) : Option Instr :=
  if b.extractLsb' 10 2 = 1#2 then some (.fenceAcq (b.extractLsb' 0 3)) else
  if b.extractLsb' 10 2 = 2#2 then some (.fenceRel (b.extractLsb' 0 3)) else
  if b.extractLsb' 10 2 = 3#2 then some (.fenceAr (b.extractLsb' 0 3)) else
  none

/-- The words of major opcode 0x58, by sub-code. -/
def decodeOp58 (b : BitVec 24) : Option Instr :=
  if b.extractLsb' 0 3 = 0#3 then some (.cinv (b.extractLsb' 21 3) (b.extractLsb' 9 6) (b.extractLsb' 3 6)) else
  if b.extractLsb' 0 3 = 1#3 then some (.cwb (b.extractLsb' 21 3) (b.extractLsb' 9 6) (b.extractLsb' 3 6)) else
  none

/-- The word of major opcode 0x59. -/
def decodeOp59 (b : BitVec 24) : Option Instr :=
  some (.rrinv (b.extractLsb' 9 6) (b.extractLsb' 3 6))

/-- The word of major opcode 0x5A. -/
def decodeOp5A (b : BitVec 24) : Option Instr :=
  some (.spchk (b.extractLsb' 18 6))

/-- The word of major opcode 0x5B. -/
def decodeOp5B (b : BitVec 24) : Option Instr :=
  some (.mwait (b.extractLsb' 21 3) (b.extractLsb' 15 6) (b.extractLsb' 9 6) (b.extractLsb' 3 6) (b.extractLsb' 0 3))

/-- The words of major opcode 0x5C, by sub-code. -/
def decodeOp5C (b : BitVec 24) : Option Instr :=
  if b.extractLsb' 21 3 = 0#3 then some (.pmap (b.extractLsb' 14 7)) else
  if b.extractLsb' 21 3 = 1#3 then some (.pmapRd (b.extractLsb' 14 7)) else
  none

/-- The word of major opcode 0x5D. -/
def decodeOp5D (_ : BitVec 24) : Option Instr :=
  some (.pmiss)

/-- The word of major opcode 0x5E. -/
def decodeOp5E (_ : BitVec 24) : Option Instr :=
  some (.pret)

/-- The word of major opcode 0x60. -/
def decodeOp60 (b : BitVec 24) : Option Instr :=
  some (.amo (b.extractLsb' 20 4) (b.extractLsb' 19 1) (b.extractLsb' 12 7) (b.extractLsb' 5 7) (b.extractLsb' 0 5))

/-- The word of major opcode 0x61. -/
def decodeOp61 (b : BitVec 24) : Option Instr :=
  some (.acas (b.extractLsb' 19 1) (b.extractLsb' 12 7) (b.extractLsb' 5 7) (b.extractLsb' 0 5))

/-- The word of major opcode 0x62. -/
def decodeOp62 (b : BitVec 24) : Option Instr :=
  some (.acas2 (b.extractLsb' 12 7) (b.extractLsb' 5 7) (b.extractLsb' 0 5))

/-- The word of major opcode 0x63. -/
def decodeOp63 (b : BitVec 24) : Option Instr :=
  some (.red (b.extractLsb' 20 4) (b.extractLsb' 19 1) (b.extractLsb' 12 7) (b.extractLsb' 5 7) (b.extractLsb' 0 5))

/-- The word of major opcode 0x64. -/
def decodeOp64 (b : BitVec 24) : Option Instr :=
  some (.redx (b.extractLsb' 19 1) (b.extractLsb' 12 7) (b.extractLsb' 5 7) (b.extractLsb' 0 5))

/-- The word of major opcode 0x65. -/
def decodeOp65 (b : BitVec 24) : Option Instr :=
  some (.ald (b.extractLsb' 19 1) (b.extractLsb' 12 7) (b.extractLsb' 5 7) (b.extractLsb' 0 5))

/-- The word of major opcode 0x66. -/
def decodeOp66 (b : BitVec 24) : Option Instr :=
  some (.ast (b.extractLsb' 19 1) (b.extractLsb' 12 7) (b.extractLsb' 5 7) (b.extractLsb' 0 5))

/-- The word of major opcode 0x67. -/
def decodeOp67 (b : BitVec 24) : Option Instr :=
  some (.apin (b.extractLsb' 20 4) (b.extractLsb' 5 7) (b.extractLsb' 0 5))

/-- The word of major opcode 0x68. -/
def decodeOp68 (b : BitVec 24) : Option Instr :=
  some (.rbind (b.extractLsb' 19 5) (b.extractLsb' 13 6) (b.extractLsb' 11 2) (b.extractLsb' 10 1) (b.extractLsb' 6 3))

/-- The word of major opcode 0x69. -/
def decodeOp69 (b : BitVec 24) : Option Instr :=
  some (.rdrain (b.extractLsb' 19 5) (b.extractLsb' 18 1) (b.extractLsb' 16 2) (b.extractLsb' 15 1) (b.extractLsb' 14 1) (b.extractLsb' 13 1) (b.extractLsb' 12 1) (b.extractLsb' 9 3))

/-- The words of major opcode 0x6A, by sub-code. -/
def decodeOp6A (b : BitVec 24) : Option Instr :=
  if b.extractLsb' 22 2 = 0#2 then some (.rwait (b.extractLsb' 17 5)) else
  if b.extractLsb' 22 2 = 1#2 then some (.rfree (b.extractLsb' 17 5)) else
  if b.extractLsb' 22 2 = 2#2 then some (.rstat (b.extractLsb' 17 5) (b.extractLsb' 11 6)) else
  none

/-- The words of major opcode 0x6B, by sub-code. -/
def decodeOp6B (b : BitVec 24) : Option Instr :=
  if b.extractLsb' 22 2 = 0#2 then some (.cyield (b.extractLsb' 0 20)) else
  if b.extractLsb' 22 2 = 1#2 then some (.cyieldOff) else
  if b.extractLsb' 22 2 = 2#2 then some (.rseed (b.extractLsb' 16 6) (b.extractLsb' 10 6)) else
  none

/-- The words of major opcode 0x6C, by sub-code. -/
def decodeOp6C (b : BitVec 24) : Option Instr :=
  if b.extractLsb' 22 2 = 0#2 then some (.mclaim (b.extractLsb' 20 2) (b.extractLsb' 14 6) (b.extractLsb' 8 6)) else
  if b.extractLsb' 22 2 = 1#2 then some (.mrelease (b.extractLsb' 20 2) (b.extractLsb' 8 6)) else
  none

/-- The words of major opcode 0x6D, by sub-code. -/
def decodeOp6D (b : BitVec 24) : Option Instr :=
  if b.extractLsb' 22 2 = 0#2 then some (.mgang (b.extractLsb' 10 6)) else
  if b.extractLsb' 22 2 = 1#2 then some (.mstat (b.extractLsb' 16 6) (b.extractLsb' 10 6)) else
  none

/-- The words of major opcode 0x6E, by sub-code. -/
def decodeOp6E (b : BitVec 24) : Option Instr :=
  if b.extractLsb' 23 1 = 0#1 then some (.mload (b.extractLsb' 17 6) (b.extractLsb' 11 6) (b.extractLsb' 10 1) (b.extractLsb' 6 3)) else
  if b.extractLsb' 23 1 = 1#1 then some (.mloadc (b.extractLsb' 17 6) (b.extractLsb' 11 6) (b.extractLsb' 10 1) (b.extractLsb' 6 3)) else
  none

/-- The words of major opcode 0x6F, by sub-code. -/
def decodeOp6F (b : BitVec 24) : Option Instr :=
  if b.extractLsb' 23 1 = 0#1 then some (.mtable (b.extractLsb' 17 6) (b.extractLsb' 14 3) (b.extractLsb' 11 1) (b.extractLsb' 7 3)) else
  if b.extractLsb' 23 1 = 1#1 then some (.mcbook (b.extractLsb' 17 6) (b.extractLsb' 14 3) (b.extractLsb' 12 2) (b.extractLsb' 11 1) (b.extractLsb' 7 3)) else
  none

/-- The words of major opcode 0x70, by sub-code. -/
def decodeOp70 (b : BitVec 24) : Option Instr :=
  if b.extractLsb' 23 1 = 0#1 then some (.mma (b.extractLsb' 21 2) (b.extractLsb' 15 6) (b.extractLsb' 11 4) (b.extractLsb' 7 4)) else
  if b.extractLsb' 23 1 = 1#1 then some (.mmac (b.extractLsb' 21 2) (b.extractLsb' 15 6) (b.extractLsb' 11 4)) else
  none

/-- The words of major opcode 0x71, by sub-code. -/
def decodeOp71 (b : BitVec 24) : Option Instr :=
  if b.extractLsb' 22 2 = 0#2 then some (.mzero (b.extractLsb' 20 2)) else
  if b.extractLsb' 22 2 = 1#2 then some (.mrd (b.extractLsb' 20 2) (b.extractLsb' 18 2) (b.extractLsb' 11 7) (b.extractLsb' 5 6)) else
  if b.extractLsb' 22 2 = 2#2 then some (.mwr (b.extractLsb' 20 2) (b.extractLsb' 18 2) (b.extractLsb' 11 7) (b.extractLsb' 5 6)) else
  none

/-- The word of major opcode 0x72. -/
def decodeOp72 (b : BitVec 24) : Option Instr :=
  some (.mst (b.extractLsb' 18 6) (b.extractLsb' 12 6) (b.extractLsb' 10 2) (b.extractLsb' 7 3) (b.extractLsb' 4 3) (b.extractLsb' 3 1) (b.extractLsb' 0 3))

/-- The words of major opcode 0x73, by sub-code. -/
def decodeOp73 (b : BitVec 24) : Option Instr :=
  if b.extractLsb' 23 1 = 0#1 then some (.mtrq (b.extractLsb' 17 6) (b.extractLsb' 14 3)) else
  if b.extractLsb' 23 1 = 1#1 then some (.mfence) else
  none

/-- The word of major opcode 0x74. -/
def decodeOp74 (b : BitVec 24) : Option Instr :=
  some (.hbind (b.extractLsb' 20 4) (b.extractLsb' 14 6) (b.extractLsb' 13 1) (b.extractLsb' 9 3))

/-- The word of major opcode 0x75. -/
def decodeOp75 (b : BitVec 24) : Option Instr :=
  some (.hlog (b.extractLsb' 20 4) (b.extractLsb' 14 6))

/-- The word of major opcode 0x76. -/
def decodeOp76 (b : BitVec 24) : Option Instr :=
  some (.hreplay (b.extractLsb' 20 4) (b.extractLsb' 13 7) (b.extractLsb' 12 1) (b.extractLsb' 8 3))

/-- The words of major opcode 0x77, by sub-code. -/
def decodeOp77 (b : BitVec 24) : Option Instr :=
  if b.extractLsb' 22 2 = 0#2 then some (.hstat (b.extractLsb' 16 6) (b.extractLsb' 12 4) (b.extractLsb' 8 4)) else
  if b.extractLsb' 22 2 = 1#2 then some (.hinv (b.extractLsb' 16 6) (b.extractLsb' 10 6)) else
  if b.extractLsb' 22 2 = 2#2 then some (.hinvAll) else
  none

/-- The word of major opcode 0x78. -/
def decodeOp78 (b : BitVec 24) : Option Instr :=
  some (.launch (b.extractLsb' 18 6) (b.extractLsb' 12 6) (b.extractLsb' 6 1) (b.extractLsb' 5 1) (b.extractLsb' 2 3))

/-- The words of major opcode 0x79, by sub-code. -/
def decodeOp79 (b : BitVec 24) : Option Instr :=
  if b.extractLsb' 22 2 = 0#2 then some (.evsig (b.extractLsb' 16 6) (b.extractLsb' 1 3)) else
  if b.extractLsb' 22 2 = 1#2 then some (.evadd (b.extractLsb' 16 6) (b.extractLsb' 10 6) (b.extractLsb' 1 3)) else
  if b.extractLsb' 22 2 = 2#2 then some (.evwait (b.extractLsb' 16 6) (b.extractLsb' 10 6) (b.extractLsb' 1 3)) else
  none

/-- The words of major opcode 0x7A, by sub-code. -/
def decodeOp7A (b : BitVec 24) : Option Instr :=
  if b.extractLsb' 22 2 = 0#2 then some (.idemClr) else
  if b.extractLsb' 22 2 = 1#2 then some (.idemRd (b.extractLsb' 16 6)) else
  none

/-- The words of major opcode 0x7B, by sub-code. -/
def decodeOp7B (b : BitVec 24) : Option Instr :=
  if b.extractLsb' 22 2 = 0#2 then some (.rqbindAttach (b.extractLsb' 10 6)) else
  if b.extractLsb' 22 2 = 1#2 then some (.rqbindDetach (b.extractLsb' 10 6)) else
  if b.extractLsb' 22 2 = 2#2 then some (.rqbindStat (b.extractLsb' 16 6) (b.extractLsb' 10 6)) else
  none

/-- The words of major opcode 0x7C, by sub-code. -/
def decodeOp7C (b : BitVec 24) : Option Instr :=
  if b.extractLsb' 22 2 = 0#2 then some (.rstw (b.extractLsb' 21 1) (b.extractLsb' 14 7) (b.extractLsb' 7 7) (b.extractLsb' 0 3)) else
  if b.extractLsb' 22 2 = 1#2 then some (.rred (b.extractLsb' 21 1) (b.extractLsb' 14 7) (b.extractLsb' 7 7) (b.extractLsb' 3 4) (b.extractLsb' 0 3)) else
  if b.extractLsb' 22 2 = 2#2 then some (.ramo (b.extractLsb' 21 1) (b.extractLsb' 14 7) (b.extractLsb' 7 7) (b.extractLsb' 3 4) (b.extractLsb' 0 3)) else
  none

/-- The words of major opcode 0x7D, by sub-code. -/
def decodeOp7D (b : BitVec 24) : Option Instr :=
  if b.extractLsb' 21 3 = 0#3 then some (.aflush (b.extractLsb' 15 6) (b.extractLsb' 9 6)) else
  if b.extractLsb' 21 3 = 1#3 then some (.aflushAll (b.extractLsb' 15 6)) else
  if b.extractLsb' 13 2 = 0#2 ∧ b.extractLsb' 21 3 = 2#3 then some (.afstatFail (b.extractLsb' 15 6)) else
  if b.extractLsb' 13 2 = 1#2 ∧ b.extractLsb' 21 3 = 2#3 then some (.afstatPend (b.extractLsb' 15 6)) else
  if b.extractLsb' 21 3 = 3#3 then some (.rsvs (b.extractLsb' 15 6) (b.extractLsb' 11 4) (b.extractLsb' 5 6)) else
  if b.extractLsb' 21 3 = 4#3 then some (.rsvsRet (b.extractLsb' 17 4)) else
  if b.extractLsb' 21 3 = 5#3 then some (.rrpush (b.extractLsb' 17 4) (b.extractLsb' 10 7) (b.extractLsb' 7 3)) else
  none

/-- The words of major opcode 0x7E, by sub-code. -/
def decodeOp7E (b : BitVec 24) : Option Instr :=
  if b.extractLsb' 0 3 = 0#3 ∧ b.extractLsb' 21 3 = 0#3 then some (.cplan (b.extractLsb' 15 6) (b.extractLsb' 9 6)) else
  if b.extractLsb' 0 3 = 1#3 ∧ b.extractLsb' 21 3 = 0#3 then some (.cplanFree (b.extractLsb' 9 6)) else
  if b.extractLsb' 21 3 = 1#3 then some (.cstart (b.extractLsb' 9 6)) else
  if b.extractLsb' 21 3 = 2#3 then some (.cwait (b.extractLsb' 15 6) (b.extractLsb' 9 6)) else
  if b.extractLsb' 21 3 = 3#3 then some (.cstat (b.extractLsb' 15 6) (b.extractLsb' 9 6) (b.extractLsb' 0 3)) else
  if b.extractLsb' 21 3 = 4#3 then some (.ccancel (b.extractLsb' 9 6)) else
  if b.extractLsb' 21 3 = 5#3 then some (.tenc (b.extractLsb' 15 6) (b.extractLsb' 9 6) (b.extractLsb' 3 6) (b.extractLsb' 0 3)) else
  if b.extractLsb' 21 3 = 6#3 then some (.tdec (b.extractLsb' 15 6) (b.extractLsb' 9 6) (b.extractLsb' 3 6)) else
  none

/-- The instruction that a major opcode (bits [30:24]) and the sub-code in bits [23:0] assign (R82, R85), its unused
fields not looked at. -/
def decodeParts (op : BitVec 7) (b : BitVec 24) : Option Instr :=
  match op.toNat with
  | 0 => decodeOp00 b
  | 1 => decodeOp01 b
  | 2 => decodeOp02 b
  | 3 => decodeOp03 b
  | 4 => decodeOp04 b
  | 5 => decodeOp05 b
  | 6 => decodeOp06 b
  | 7 => decodeOp07 b
  | 8 => decodeOp08 b
  | 9 => decodeOp09 b
  | 10 => decodeOp0A b
  | 11 => decodeOp0B b
  | 12 => decodeOp0C b
  | 13 => decodeOp0D b
  | 14 => decodeOp0E b
  | 15 => decodeOp0F b
  | 16 => decodeOp10 b
  | 17 => decodeOp11 b
  | 18 => decodeOp12 b
  | 19 => decodeOp13 b
  | 20 => decodeOp14 b
  | 21 => decodeOp15 b
  | 22 => decodeOp16 b
  | 28 => decodeOp1C b
  | 29 => decodeOp1D b
  | 30 => decodeOp1E b
  | 31 => decodeOp1F b
  | 32 => decodeOp20 b
  | 33 => decodeOp21 b
  | 34 => decodeOp22 b
  | 35 => decodeOp23 b
  | 36 => decodeOp24 b
  | 37 => decodeOp25 b
  | 38 => decodeOp26 b
  | 39 => decodeOp27 b
  | 40 => decodeOp28 b
  | 41 => decodeOp29 b
  | 42 => decodeOp2A b
  | 43 => decodeOp2B b
  | 44 => decodeOp2C b
  | 45 => decodeOp2D b
  | 46 => decodeOp2E b
  | 47 => decodeOp2F b
  | 48 => decodeOp30 b
  | 49 => decodeOp31 b
  | 50 => decodeOp32 b
  | 51 => decodeOp33 b
  | 52 => decodeOp34 b
  | 53 => decodeOp35 b
  | 54 => decodeOp36 b
  | 55 => decodeOp37 b
  | 56 => decodeOp38 b
  | 57 => decodeOp39 b
  | 58 => decodeOp3A b
  | 59 => decodeOp3B b
  | 60 => decodeOp3C b
  | 61 => decodeOp3D b
  | 62 => decodeOp3E b
  | 63 => decodeOp3F b
  | 64 => decodeOp40 b
  | 65 => decodeOp41 b
  | 66 => decodeOp42 b
  | 67 => decodeOp43 b
  | 68 => decodeOp44 b
  | 69 => decodeOp45 b
  | 70 => decodeOp46 b
  | 71 => decodeOp47 b
  | 72 => decodeOp48 b
  | 80 => decodeOp50 b
  | 81 => decodeOp51 b
  | 82 => decodeOp52 b
  | 83 => decodeOp53 b
  | 84 => decodeOp54 b
  | 85 => decodeOp55 b
  | 86 => decodeOp56 b
  | 87 => decodeOp57 b
  | 88 => decodeOp58 b
  | 89 => decodeOp59 b
  | 90 => decodeOp5A b
  | 91 => decodeOp5B b
  | 92 => decodeOp5C b
  | 93 => decodeOp5D b
  | 94 => decodeOp5E b
  | 96 => decodeOp60 b
  | 97 => decodeOp61 b
  | 98 => decodeOp62 b
  | 99 => decodeOp63 b
  | 100 => decodeOp64 b
  | 101 => decodeOp65 b
  | 102 => decodeOp66 b
  | 103 => decodeOp67 b
  | 104 => decodeOp68 b
  | 105 => decodeOp69 b
  | 106 => decodeOp6A b
  | 107 => decodeOp6B b
  | 108 => decodeOp6C b
  | 109 => decodeOp6D b
  | 110 => decodeOp6E b
  | 111 => decodeOp6F b
  | 112 => decodeOp70 b
  | 113 => decodeOp71 b
  | 114 => decodeOp72 b
  | 115 => decodeOp73 b
  | 116 => decodeOp74 b
  | 117 => decodeOp75 b
  | 118 => decodeOp76 b
  | 119 => decodeOp77 b
  | 120 => decodeOp78 b
  | 121 => decodeOp79 b
  | 122 => decodeOp7A b
  | 123 => decodeOp7B b
  | 124 => decodeOp7C b
  | 125 => decodeOp7D b
  | 126 => decodeOp7E b
  | _ => none

/-- A field of a word whose lowest bit is bit `lo`. -/
def fieldAt {n : Nat} (lo : Nat) (x : BitVec n) : BitVec 24 := x.setWidth 24 <<< lo

/-- The major opcode and bits [23:0] of an instruction's word; a step that is no word has none. Written from the
encoding tables of the chapters: the fields from bit 23 down. -/
def encodeParts : Instr → Option (BitVec 7 × BitVec 24)
  | .nop => some (0#7, 0#24)
  | .imx i => some (1#7, fieldAt 0 i)
  | .grd n p => some (2#7, fieldAt 3 n ||| fieldAt 0 p)
  | .bra o => some (3#7, fieldAt 0 o)
  | .brs k o => some (4#7, fieldAt 20 k ||| fieldAt 0 o)
  | .brv n p o => some (5#7, fieldAt 23 n ||| fieldAt 20 p ||| fieldAt 0 o)
  | .call o => some (6#7, fieldAt 0 o)
  | .ret a => some (7#7, fieldAt 9 a)
  | .mark o => some (8#7, fieldAt 0 o)
  | .join => some (9#7, 0#24)
  | .elseW => some (9#7, fieldAt 0 1#3)
  | .exit => some (9#7, fieldAt 0 2#3)
  | .sadd t d a b => some (10#7, fieldAt 21 t ||| fieldAt 15 d ||| fieldAt 9 a ||| fieldAt 3 b)
  | .ssub t d a b => some (10#7, fieldAt 21 t ||| fieldAt 15 d ||| fieldAt 9 a ||| fieldAt 3 b ||| fieldAt 0 1#3)
  | .smul t d a b => some (10#7, fieldAt 21 t ||| fieldAt 15 d ||| fieldAt 9 a ||| fieldAt 3 b ||| fieldAt 0 2#3)
  | .smulh t d a b => some (10#7, fieldAt 21 t ||| fieldAt 15 d ||| fieldAt 9 a ||| fieldAt 3 b ||| fieldAt 0 3#3)
  | .sdiv t d a b => some (10#7, fieldAt 21 t ||| fieldAt 15 d ||| fieldAt 9 a ||| fieldAt 3 b ||| fieldAt 0 4#3)
  | .smin t d a b => some (10#7, fieldAt 21 t ||| fieldAt 15 d ||| fieldAt 9 a ||| fieldAt 3 b ||| fieldAt 0 5#3)
  | .smax t d a b => some (10#7, fieldAt 21 t ||| fieldAt 15 d ||| fieldAt 9 a ||| fieldAt 3 b ||| fieldAt 0 6#3)
  | .sand d a b => some (11#7, fieldAt 15 d ||| fieldAt 9 a ||| fieldAt 3 b)
  | .sor d a b => some (11#7, fieldAt 15 d ||| fieldAt 9 a ||| fieldAt 3 b ||| fieldAt 0 1#3)
  | .sxor d a b => some (11#7, fieldAt 15 d ||| fieldAt 9 a ||| fieldAt 3 b ||| fieldAt 0 2#3)
  | .sshl d a b => some (11#7, fieldAt 15 d ||| fieldAt 9 a ||| fieldAt 3 b ||| fieldAt 0 3#3)
  | .sshr d a b => some (11#7, fieldAt 15 d ||| fieldAt 9 a ||| fieldAt 3 b ||| fieldAt 0 4#3)
  | .ssra d a b => some (11#7, fieldAt 15 d ||| fieldAt 9 a ||| fieldAt 3 b ||| fieldAt 0 5#3)
  | .ssel d a b => some (11#7, fieldAt 15 d ||| fieldAt 9 a ||| fieldAt 3 b ||| fieldAt 0 6#3)
  | .smov d a => some (11#7, fieldAt 15 d ||| fieldAt 9 a ||| fieldAt 0 7#3)
  | .scmp t d a b k => some (12#7, fieldAt 21 t ||| fieldAt 15 d ||| fieldAt 9 a ||| fieldAt 3 b ||| fieldAt 0 k)
  | .sadd64 d a b => some (13#7, fieldAt 15 d ||| fieldAt 9 a ||| fieldAt 3 b)
  | .sli d i => some (14#7, fieldAt 18 d ||| fieldAt 0 i)
  | .saddImmediate d a i => some (15#7, fieldAt 18 d ||| fieldAt 12 a ||| fieldAt 0 i)
  | .sshlImmediate d a n => some (16#7, fieldAt 18 d ||| fieldAt 12 a ||| fieldAt 0 n)
  | .sshrImmediate d a n => some (16#7, fieldAt 18 d ||| fieldAt 12 a ||| fieldAt 10 1#2 ||| fieldAt 0 n)
  | .ssraImmediate d a n => some (16#7, fieldAt 18 d ||| fieldAt 12 a ||| fieldAt 10 2#2 ||| fieldAt 0 n)
  | .slane d b a => some (17#7, fieldAt 18 d ||| fieldAt 12 b ||| fieldAt 0 a)
  | .sbcast a d => some (17#7, fieldAt 12 a ||| fieldAt 9 1#3 ||| fieldAt 0 d)
  | .voteAny d p => some (17#7, fieldAt 18 d ||| fieldAt 9 2#3 ||| fieldAt 0 p)
  | .voteAll d p => some (17#7, fieldAt 18 d ||| fieldAt 9 3#3 ||| fieldAt 0 p)
  | .voteBallot d a p => some (17#7, fieldAt 18 d ||| fieldAt 12 a ||| fieldAt 9 4#3 ||| fieldAt 0 p)
  | .popm d p => some (17#7, fieldAt 18 d ||| fieldAt 9 5#3 ||| fieldAt 0 p)
  | .bar b => some (18#7, fieldAt 0 b)
  | .arrive d b => some (18#7, fieldAt 18 d ||| fieldAt 10 1#2 ||| fieldAt 0 b)
  | .await a b => some (18#7, fieldAt 12 a ||| fieldAt 10 2#2 ||| fieldAt 0 b)
  | .prio k => some (19#7, fieldAt 0 k)
  | .yield => some (19#7, fieldAt 10 1#2)
  | .sysr d n => some (20#7, fieldAt 18 d ||| fieldAt 0 n)
  | .sysw a n => some (20#7, fieldAt 12 a ||| fieldAt 10 1#2 ||| fieldAt 0 n)
  | .trap k => some (21#7, fieldAt 0 k)
  | .tfence => some (21#7, fieldAt 10 1#2)
  | .tret => some (21#7, fieldAt 10 2#2)
  | .reform k => some (22#7, fieldAt 0 k)
  | .qbind q a => some (28#7, fieldAt 20 q ||| fieldAt 13 a)
  | .qpush q v n => some (29#7, fieldAt 20 q ||| fieldAt 13 v ||| fieldAt 8 n)
  | .qpushTeam q v n => some (29#7, fieldAt 20 q ||| fieldAt 13 v ||| fieldAt 8 n ||| fieldAt 0 1#1)
  | .qpop q v n p => some (30#7, fieldAt 20 q ||| fieldAt 13 v ||| fieldAt 8 n ||| fieldAt 1 p)
  | .qpopTeam q v n p => some (30#7, fieldAt 20 q ||| fieldAt 13 v ||| fieldAt 8 n ||| fieldAt 1 p ||| fieldAt 0 1#1)
  | .qtry q v n p => some (31#7, fieldAt 20 q ||| fieldAt 13 v ||| fieldAt 8 n ||| fieldAt 1 p)
  | .qtryTeam q v n p => some (31#7, fieldAt 20 q ||| fieldAt 13 v ||| fieldAt 8 n ||| fieldAt 1 p ||| fieldAt 0 1#1)
  | .fadd t d a b => some (32#7, fieldAt 21 t ||| fieldAt 14 d ||| fieldAt 7 a ||| fieldAt 0 b)
  | .fsub t d a b => some (33#7, fieldAt 21 t ||| fieldAt 14 d ||| fieldAt 7 a ||| fieldAt 0 b)
  | .fmul t d a b => some (34#7, fieldAt 21 t ||| fieldAt 14 d ||| fieldAt 7 a ||| fieldAt 0 b)
  | .ffma t d a b => some (35#7, fieldAt 21 t ||| fieldAt 14 d ||| fieldAt 7 a ||| fieldAt 0 b)
  | .fmin t d a b => some (36#7, fieldAt 21 t ||| fieldAt 14 d ||| fieldAt 7 a ||| fieldAt 0 b)
  | .fmax t d a b => some (37#7, fieldAt 21 t ||| fieldAt 14 d ||| fieldAt 7 a ||| fieldAt 0 b)
  | .fdiv t d a b => some (38#7, fieldAt 21 t ||| fieldAt 14 d ||| fieldAt 7 a ||| fieldAt 0 b)
  | .fdot2 t d a b => some (39#7, fieldAt 21 t ||| fieldAt 14 d ||| fieldAt 7 a ||| fieldAt 0 b)
  | .fsgn t d a b => some (40#7, fieldAt 21 t ||| fieldAt 14 d ||| fieldAt 7 a ||| fieldAt 0 b)
  | .fsgnNeg t d a b => some (41#7, fieldAt 21 t ||| fieldAt 14 d ||| fieldAt 7 a ||| fieldAt 0 b)
  | .fsgnXor t d a b => some (42#7, fieldAt 21 t ||| fieldAt 14 d ||| fieldAt 7 a ||| fieldAt 0 b)
  | .fcmp t k p a b => some (43#7, fieldAt 21 t ||| fieldAt 17 k ||| fieldAt 14 p ||| fieldAt 7 a ||| fieldAt 0 b)
  | .frcp d a t => some (44#7, fieldAt 17 d ||| fieldAt 10 a ||| fieldAt 7 t)
  | .frsq d a t => some (44#7, fieldAt 17 d ||| fieldAt 10 a ||| fieldAt 7 t ||| fieldAt 3 1#4)
  | .fsqrt d a t => some (44#7, fieldAt 17 d ||| fieldAt 10 a ||| fieldAt 7 t ||| fieldAt 3 2#4)
  | .fex2 d a t => some (44#7, fieldAt 17 d ||| fieldAt 10 a ||| fieldAt 7 t ||| fieldAt 3 3#4)
  | .flg2 d a t => some (44#7, fieldAt 17 d ||| fieldAt 10 a ||| fieldAt 7 t ||| fieldAt 3 4#4)
  | .fsin d a t => some (44#7, fieldAt 17 d ||| fieldAt 10 a ||| fieldAt 7 t ||| fieldAt 3 5#4)
  | .fcos d a t => some (44#7, fieldAt 17 d ||| fieldAt 10 a ||| fieldAt 7 t ||| fieldAt 3 6#4)
  | .fclass d a t => some (44#7, fieldAt 17 d ||| fieldAt 10 a ||| fieldAt 7 t ||| fieldAt 3 7#4)
  | .frnd d a t m => some (45#7, fieldAt 17 d ||| fieldAt 10 a ||| fieldAt 7 t ||| fieldAt 4 m)
  | .fcvt d a t x m => some (46#7, fieldAt 17 d ||| fieldAt 10 a ||| fieldAt 7 t ||| fieldAt 3 x ||| fieldAt 0 m)
  | .icvt d a r f i m => some (47#7, fieldAt 17 d ||| fieldAt 10 a ||| fieldAt 9 r ||| fieldAt 6 f ||| fieldAt 3 i ||| fieldAt 0 m)
  | .iadd t d a b => some (48#7, fieldAt 21 t ||| fieldAt 14 d ||| fieldAt 7 a ||| fieldAt 0 b)
  | .isub t d a b => some (49#7, fieldAt 21 t ||| fieldAt 14 d ||| fieldAt 7 a ||| fieldAt 0 b)
  | .imul t d a b => some (50#7, fieldAt 21 t ||| fieldAt 14 d ||| fieldAt 7 a ||| fieldAt 0 b)
  | .imulh t d a b => some (51#7, fieldAt 21 t ||| fieldAt 14 d ||| fieldAt 7 a ||| fieldAt 0 b)
  | .imad t d a b => some (52#7, fieldAt 21 t ||| fieldAt 14 d ||| fieldAt 7 a ||| fieldAt 0 b)
  | .imin t d a b => some (53#7, fieldAt 21 t ||| fieldAt 14 d ||| fieldAt 7 a ||| fieldAt 0 b)
  | .imax t d a b => some (54#7, fieldAt 21 t ||| fieldAt 14 d ||| fieldAt 7 a ||| fieldAt 0 b)
  | .ishl t d a b => some (55#7, fieldAt 21 t ||| fieldAt 14 d ||| fieldAt 7 a ||| fieldAt 0 b)
  | .ishr t d a b => some (56#7, fieldAt 21 t ||| fieldAt 14 d ||| fieldAt 7 a ||| fieldAt 0 b)
  | .isra t d a b => some (57#7, fieldAt 21 t ||| fieldAt 14 d ||| fieldAt 7 a ||| fieldAt 0 b)
  | .iand t d a b => some (58#7, fieldAt 21 t ||| fieldAt 14 d ||| fieldAt 7 a ||| fieldAt 0 b)
  | .ior t d a b => some (59#7, fieldAt 21 t ||| fieldAt 14 d ||| fieldAt 7 a ||| fieldAt 0 b)
  | .ixor t d a b => some (60#7, fieldAt 21 t ||| fieldAt 14 d ||| fieldAt 7 a ||| fieldAt 0 b)
  | .icmp t k p a b => some (61#7, fieldAt 21 t ||| fieldAt 17 k ||| fieldAt 14 p ||| fieldAt 7 a ||| fieldAt 0 b)
  | .iabs d a t => some (62#7, fieldAt 17 d ||| fieldAt 10 a ||| fieldAt 7 t)
  | .inot d a t => some (62#7, fieldAt 17 d ||| fieldAt 10 a ||| fieldAt 7 t ||| fieldAt 4 1#3)
  | .ipop d a t => some (62#7, fieldAt 17 d ||| fieldAt 10 a ||| fieldAt 7 t ||| fieldAt 4 2#3)
  | .iclz d a t => some (62#7, fieldAt 17 d ||| fieldAt 10 a ||| fieldAt 7 t ||| fieldAt 4 3#3)
  | .vsel p d a b => some (63#7, fieldAt 21 p ||| fieldAt 14 d ||| fieldAt 7 a ||| fieldAt 0 b)
  | .vmov t d a => some (64#7, fieldAt 21 t ||| fieldAt 14 d ||| fieldAt 7 a)
  | .vli d i => some (65#7, fieldAt 17 d ||| fieldAt 0 i)
  | .lperm t d a b => some (66#7, fieldAt 21 t ||| fieldAt 14 d ||| fieldAt 7 a ||| fieldAt 0 b)
  | .lred d a k t o => some (67#7, fieldAt 17 d ||| fieldAt 10 a ||| fieldAt 9 k ||| fieldAt 6 t ||| fieldAt 3 o)
  | .lscan d a k t o n => some (68#7, fieldAt 17 d ||| fieldAt 10 a ||| fieldAt 9 k ||| fieldAt 6 t ||| fieldAt 3 o ||| fieldAt 2 n)
  | .sgnq d a b => some (69#7, fieldAt 14 d ||| fieldAt 7 a ||| fieldAt 0 b)
  | .sgnx d a b => some (70#7, fieldAt 14 d ||| fieldAt 7 a ||| fieldAt 0 b)
  | .pack d a z s g => some (71#7, fieldAt 17 d ||| fieldAt 10 a ||| fieldAt 8 z ||| fieldAt 7 s ||| fieldAt 6 g)
  | .unpk d a z g => some (72#7, fieldAt 17 d ||| fieldAt 10 a ||| fieldAt 8 z ||| fieldAt 6 g)
  | .ld z d o s g l => some (80#7, fieldAt 21 z ||| fieldAt 14 d ||| fieldAt 7 o ||| fieldAt 2 s ||| fieldAt 1 g ||| fieldAt 0 l)
  | .st z d o s l => some (81#7, fieldAt 21 z ||| fieldAt 14 d ||| fieldAt 7 o ||| fieldAt 2 s ||| fieldAt 0 l)
  | .lds z d o s g => some (82#7, fieldAt 21 z ||| fieldAt 14 d ||| fieldAt 7 o ||| fieldAt 2 s ||| fieldAt 1 g)
  | .sts z d o s => some (83#7, fieldAt 21 z ||| fieldAt 14 d ||| fieldAt 7 o ||| fieldAt 2 s)
  | .ldk z d s g l => some (84#7, fieldAt 21 z ||| fieldAt 14 d ||| fieldAt 2 s ||| fieldAt 1 g ||| fieldAt 0 l)
  | .ldb z d o s g n => some (85#7, fieldAt 21 z ||| fieldAt 14 d ||| fieldAt 7 o ||| fieldAt 2 s ||| fieldAt 1 g ||| fieldAt 0 n)
  | .pref o s l => some (86#7, fieldAt 7 o ||| fieldAt 2 s ||| fieldAt 0 l)
  | .fenceAcq s => some (87#7, fieldAt 10 1#2 ||| fieldAt 0 s)
  | .fenceRel s => some (87#7, fieldAt 10 2#2 ||| fieldAt 0 s)
  | .fenceAr s => some (87#7, fieldAt 10 3#2 ||| fieldAt 0 s)
  | .cinv s a b => some (88#7, fieldAt 21 s ||| fieldAt 9 a ||| fieldAt 3 b)
  | .cwb s a b => some (88#7, fieldAt 21 s ||| fieldAt 9 a ||| fieldAt 3 b ||| fieldAt 0 1#3)
  | .rrinv a b => some (89#7, fieldAt 9 a ||| fieldAt 3 b)
  | .spchk d => some (90#7, fieldAt 18 d)
  | .mwait t d a b s => some (91#7, fieldAt 21 t ||| fieldAt 15 d ||| fieldAt 9 a ||| fieldAt 3 b ||| fieldAt 0 s)
  | .pmap d => some (92#7, fieldAt 14 d)
  | .pmapRd d => some (92#7, fieldAt 21 1#3 ||| fieldAt 14 d)
  | .pmiss => some (93#7, 0#24)
  | .pret => some (94#7, 0#24)
  | .amo o w d v s => some (96#7, fieldAt 20 o ||| fieldAt 19 w ||| fieldAt 12 d ||| fieldAt 5 v ||| fieldAt 0 s)
  | .acas w d v s => some (97#7, fieldAt 19 w ||| fieldAt 12 d ||| fieldAt 5 v ||| fieldAt 0 s)
  | .acas2 d v s => some (98#7, fieldAt 12 d ||| fieldAt 5 v ||| fieldAt 0 s)
  | .red o w d v s => some (99#7, fieldAt 20 o ||| fieldAt 19 w ||| fieldAt 12 d ||| fieldAt 5 v ||| fieldAt 0 s)
  | .redx w d v s => some (100#7, fieldAt 19 w ||| fieldAt 12 d ||| fieldAt 5 v ||| fieldAt 0 s)
  | .ald w d v s => some (101#7, fieldAt 19 w ||| fieldAt 12 d ||| fieldAt 5 v ||| fieldAt 0 s)
  | .ast w d v s => some (102#7, fieldAt 19 w ||| fieldAt 12 d ||| fieldAt 5 v ||| fieldAt 0 s)
  | .apin o v s => some (103#7, fieldAt 20 o ||| fieldAt 5 v ||| fieldAt 0 s)
  | .rbind e a m q s => some (104#7, fieldAt 19 e ||| fieldAt 13 a ||| fieldAt 11 m ||| fieldAt 10 q ||| fieldAt 6 s)
  | .rdrain e a t r f q l s => some (105#7, fieldAt 19 e ||| fieldAt 18 a ||| fieldAt 16 t ||| fieldAt 15 r ||| fieldAt 14 f ||| fieldAt 13 q ||| fieldAt 12 l ||| fieldAt 9 s)
  | .rwait e => some (106#7, fieldAt 17 e)
  | .rfree e => some (106#7, fieldAt 22 1#2 ||| fieldAt 17 e)
  | .rstat e d => some (106#7, fieldAt 22 2#2 ||| fieldAt 17 e ||| fieldAt 11 d)
  | .cyield o => some (107#7, fieldAt 0 o)
  | .cyieldOff => some (107#7, fieldAt 22 1#2)
  | .rseed a b => some (107#7, fieldAt 22 2#2 ||| fieldAt 16 a ||| fieldAt 10 b)
  | .mclaim k d a => some (108#7, fieldAt 20 k ||| fieldAt 14 d ||| fieldAt 8 a)
  | .mrelease k a => some (108#7, fieldAt 22 1#2 ||| fieldAt 20 k ||| fieldAt 8 a)
  | .mgang a => some (109#7, fieldAt 10 a)
  | .mstat d a => some (109#7, fieldAt 22 1#2 ||| fieldAt 16 d ||| fieldAt 10 a)
  | .mload a b q s => some (110#7, fieldAt 17 a ||| fieldAt 11 b ||| fieldAt 10 q ||| fieldAt 6 s)
  | .mloadc a b q s => some (110#7, fieldAt 23 1#1 ||| fieldAt 17 a ||| fieldAt 11 b ||| fieldAt 10 q ||| fieldAt 6 s)
  | .mtable a i q s => some (111#7, fieldAt 17 a ||| fieldAt 14 i ||| fieldAt 11 q ||| fieldAt 7 s)
  | .mcbook a i t q s => some (111#7, fieldAt 23 1#1 ||| fieldAt 17 a ||| fieldAt 14 i ||| fieldAt 12 t ||| fieldAt 11 q ||| fieldAt 7 s)
  | .mma k a x y => some (112#7, fieldAt 21 k ||| fieldAt 15 a ||| fieldAt 11 x ||| fieldAt 7 y)
  | .mmac k a x => some (112#7, fieldAt 23 1#1 ||| fieldAt 21 k ||| fieldAt 15 a ||| fieldAt 11 x)
  | .mzero k => some (113#7, fieldAt 20 k)
  | .mrd k v d a => some (113#7, fieldAt 22 1#2 ||| fieldAt 20 k ||| fieldAt 18 v ||| fieldAt 11 d ||| fieldAt 5 a)
  | .mwr k v d a => some (113#7, fieldAt 22 2#2 ||| fieldAt 20 k ||| fieldAt 18 v ||| fieldAt 11 d ||| fieldAt 5 a)
  | .mst a b k t m l s => some (114#7, fieldAt 18 a ||| fieldAt 12 b ||| fieldAt 10 k ||| fieldAt 7 t ||| fieldAt 4 m ||| fieldAt 3 l ||| fieldAt 0 s)
  | .mtrq a m => some (115#7, fieldAt 17 a ||| fieldAt 14 m)
  | .mfence => some (115#7, fieldAt 23 1#1)
  | .hbind q a k s => some (116#7, fieldAt 20 q ||| fieldAt 14 a ||| fieldAt 13 k ||| fieldAt 9 s)
  | .hlog q a => some (117#7, fieldAt 20 q ||| fieldAt 14 a)
  | .hreplay q v k s => some (118#7, fieldAt 20 q ||| fieldAt 13 v ||| fieldAt 12 k ||| fieldAt 8 s)
  | .hstat d q s => some (119#7, fieldAt 16 d ||| fieldAt 12 q ||| fieldAt 8 s)
  | .hinv a b => some (119#7, fieldAt 22 1#2 ||| fieldAt 16 a ||| fieldAt 10 b)
  | .hinvAll => some (119#7, fieldAt 22 2#2)
  | .launch d a q l s => some (120#7, fieldAt 18 d ||| fieldAt 12 a ||| fieldAt 6 q ||| fieldAt 5 l ||| fieldAt 2 s)
  | .evsig a s => some (121#7, fieldAt 16 a ||| fieldAt 1 s)
  | .evadd a b s => some (121#7, fieldAt 22 1#2 ||| fieldAt 16 a ||| fieldAt 10 b ||| fieldAt 1 s)
  | .evwait a b s => some (121#7, fieldAt 22 2#2 ||| fieldAt 16 a ||| fieldAt 10 b ||| fieldAt 1 s)
  | .idemClr => some (122#7, 0#24)
  | .idemRd d => some (122#7, fieldAt 22 1#2 ||| fieldAt 16 d)
  | .rqbindAttach a => some (123#7, fieldAt 10 a)
  | .rqbindDetach a => some (123#7, fieldAt 22 1#2 ||| fieldAt 10 a)
  | .rqbindStat d a => some (123#7, fieldAt 22 2#2 ||| fieldAt 16 d ||| fieldAt 10 a)
  | .rstw w a d p => some (124#7, fieldAt 21 w ||| fieldAt 14 a ||| fieldAt 7 d ||| fieldAt 0 p)
  | .rred w a d o p => some (124#7, fieldAt 22 1#2 ||| fieldAt 21 w ||| fieldAt 14 a ||| fieldAt 7 d ||| fieldAt 3 o ||| fieldAt 0 p)
  | .ramo w a d o p => some (124#7, fieldAt 22 2#2 ||| fieldAt 21 w ||| fieldAt 14 a ||| fieldAt 7 d ||| fieldAt 3 o ||| fieldAt 0 p)
  | .aflush d a => some (125#7, fieldAt 15 d ||| fieldAt 9 a)
  | .aflushAll d => some (125#7, fieldAt 21 1#3 ||| fieldAt 15 d)
  | .afstatFail d => some (125#7, fieldAt 21 2#3 ||| fieldAt 15 d)
  | .afstatPend d => some (125#7, fieldAt 21 2#3 ||| fieldAt 15 d ||| fieldAt 13 1#2)
  | .rsvs d q a => some (125#7, fieldAt 21 3#3 ||| fieldAt 15 d ||| fieldAt 11 q ||| fieldAt 5 a)
  | .rsvsRet q => some (125#7, fieldAt 21 4#3 ||| fieldAt 17 q)
  | .rrpush q v p => some (125#7, fieldAt 21 5#3 ||| fieldAt 17 q ||| fieldAt 10 v ||| fieldAt 7 p)
  | .cplan d a => some (126#7, fieldAt 15 d ||| fieldAt 9 a)
  | .cplanFree a => some (126#7, fieldAt 9 a ||| fieldAt 0 1#3)
  | .cstart a => some (126#7, fieldAt 21 1#3 ||| fieldAt 9 a)
  | .cwait d a => some (126#7, fieldAt 21 2#3 ||| fieldAt 15 d ||| fieldAt 9 a)
  | .cstat d a x => some (126#7, fieldAt 21 3#3 ||| fieldAt 15 d ||| fieldAt 9 a ||| fieldAt 0 x)
  | .ccancel a => some (126#7, fieldAt 21 4#3 ||| fieldAt 9 a)
  | .tenc d a b t => some (126#7, fieldAt 21 5#3 ||| fieldAt 15 d ||| fieldAt 9 a ||| fieldAt 3 b ||| fieldAt 0 t)
  | .tdec d a b => some (126#7, fieldAt 21 6#3 ||| fieldAt 15 d ||| fieldAt 9 a ||| fieldAt 3 b)
  | .clauseStart => none
  | .mwaitWake => none
  | .pageWalkComplete => none
  | .loadReturn _ => none
  | .storeComplete => none
  | .frameZeroed => none
  | .dqCommit => none
  | .atomicReturn => none
  | .hostAtomicCompletion _ _ => none
  | .hostAtomicTimeout _ _ => none
  | .fillBeat => none
  | .fillComplete => none
  | .drainComplete => none
  | .arraySchedule => none
  | .matrixStep => none
  | .mmacBlockDecode => none
  | .mmacVerify => none
  | .matrixComplete => none
  | .trace => none
  | .resume => none
  | .abort => none
  | .rayFetchReturn _ => none
  | .launchPortRecord => none
  | .fedCrewTimeout => none
  | .slotBind => none
  | .crewStart => none
  | .crewRestore => none
  | .slotSave => none
  | .saveComplete => none
  | .lateReturn _ => none
  | .slotDrop => none
  | .crewEnd => none
  | .waitLimitExpiry => none
  | .leaveGrant => none
  | .tlbInvalidate _ => none
  | .tlbInvalidateDone => none
  | .missingDecrement _ => none
  | .rrcstepsWrite _ => none
  | .registerWrite _ _ => none
  | .spindleAgeDepart => none
  | .packetHandoff => none
  | .aggregatedStore _ => none
  | .storeAcknowledgement _ => none
  | .packetTimeout => none
  | .recordPacket _ => none
  | .reservationRequest _ => none
  | .reservationGrant _ => none
  | .rsvsTimeout => none
  | .reservationCancel _ => none
  | .reservationReturn _ => none
  | .inbWrite _ => none
  | .deviceUnreachable _ => none
  | .compositingPortRecord => none
  | .chunkArrival _ => none
  | .reductionBurst => none
  | .chunkAcknowledgement => none
  | .runTimeout => none
  | .tvalidWrite _ => none
  | .freqWrite _ _ => none
  | .hostSubmit _ => none
  | .cqheadWrite _ => none
  | .inboundAtomicop => none
  | .attestationRequest _ => none
  | .powerOnReset => none
  | .hotReset => none
  | .flrPhysicalFunction => none
  | .flrVirtualFunction => none
  | .d3hotEntry => none
  | .d3coldEntry => none
  | .coreRetire => none
  | .channelRetire => none
  | .laneRetire => none
  | .wayRetire => none
  | .softError _ => none
  | .channelCopyComplete => none
  | .fabricPortFailure => none
  | .fabricPortReturn => none
  | .lineReplacement _ => none
  | .mloadComplete => none
  | .mstComplete => none
  | .mtrqComplete => none
  | .tileCodingComplete => none
  | .d3hotExit => none
  | .clockChange _ => none
  | .flashUpdate _ _ => none
  | .contextTeardown => none
  | .systemSoftwareSeal => none

/-- An instruction's whole word with chain bit `c` (R59). -/
def encodeWord (c : BitVec 1) (i : Instr) : Option W32 := (encodeParts i).map fun p => c ++ p.1 ++ p.2

/-- Decode a major opcode and bits [23:0], rejecting by name (R68, R82). -/
def decodeFields (op : BitVec 7) (b : BitVec 24) : Except DecodeError Instr :=
  match decodeParts op b with
  | none => .error .unassigned
  | some i => if encodeParts i = some (op, b) then .ok i else .error (.reserved i)

/-- Decode one word, rejecting by name; its chain bit says nothing of the instruction (R59). -/
def decode (w : W32) : Except DecodeError Instr := decodeFields (w.extractLsb' 24 7) (w.extractLsb' 0 24)

/-- The chain bit of a word (R59). -/
def chainBit (w : W32) : Bool := w.getLsbD 31

/-- The 32-bit word at the head of a byte string, least significant byte first (R6). -/
def wordOfBytes : List Byte → Option (W32 × List Byte)
  | b0 :: b1 :: b2 :: b3 :: r => some (b3 ++ b2 ++ b1 ++ b0, r)
  | _ => none

/-- The bytes of a word as memory holds them (R6). -/
def bytesOfWord (w : W32) : List Byte :=
  [w.extractLsb' 0 8, w.extractLsb' 8 8, w.extractLsb' 16 8, w.extractLsb' 24 8]

/-- The instruction at the head of a byte string, with the rest. -/
def decodeBytes (l : List Byte) : Option (Instr × List Byte) :=
  match wordOfBytes l with
  | none => none
  | some (w, r) =>
    match decode w with
    | .ok i => some (i, r)
    | .error _ => none

/-- The instruction whose bits are `w`, numbered as the table numbers them: one 32-bit word, stored little-endian. -/
def decodeTableWord (nbits w : Nat) : Option Instr :=
  (decodeBytes (bytesOfWord (BitVec.ofNat 32 (w % 2 ^ nbits)))).map Prod.fst

end Sys2Proof
end

