-- ==== Sys2Proof/Machine/SMap.lean ====
section
/-! DEFINITION. Sparse data by key in one canonical form: keys strictly rising, and no entry equal to the value an
unlisted key reads as. Memory, scratchpads, registers and tables are all held so. -/

namespace Sys2Proof.Machine

/-- Sparse data: (key, value) pairs, keys strictly rising. -/
abbrev SMap (β : Type) := List (Nat × β)

/-- The value at key `k`; `d` is what an unlisted key reads as. -/
def smGet {β : Type} (d : β) : SMap β → Nat → β
  | [], _ => d
  | (k', v) :: r, k => if k = k' then v else smGet d r k

/-- Take every entry of a key away. -/
def smDel {β : Type} : SMap β → Nat → SMap β
  | [], _ => []
  | e :: r, k => if e.1 = k then smDel r k else e :: smDel r k

/-- Put an entry before the first one with a higher key. -/
def smPut {β : Type} : SMap β → Nat → β → SMap β
  | [], k, v => [(k, v)]
  | e :: r, k, v => if k < e.1 then (k, v) :: e :: r else e :: smPut r k v

/-- Write `v` at key `k`, keeping the canonical form: the old entry goes, and one comes unless `v` is what an unlisted key reads as. -/
def smSet {β : Type} [DecidableEq β] (d : β) (m : SMap β) (k : Nat) (v : β) : SMap β :=
  if v = d then smDel m k else smPut (smDel m k) k v

/-- Every key of `m` is above `lo`, keys rise strictly, and no value is the default. -/
def smWfFrom {β : Type} [DecidableEq β] (d : β) : Nat → SMap β → Bool
  | _, [] => true
  | lo, (k, v) :: r => decide (lo ≤ k) && decide (v ≠ d) && smWfFrom d (k + 1) r

/-- The canonical form. -/
def smWf {β : Type} [DecidableEq β] (d : β) (m : SMap β) : Bool := smWfFrom d 0 m

/-- Remove every entry whose key satisfies `p`. -/
def smDrop {β : Type} (p : Nat → Bool) (m : SMap β) : SMap β := m.filter (fun e => !(p e.1))

/-- Apply `smSet` for each pair in order. -/
def smSetAll {β : Type} [DecidableEq β] (d : β) (m : SMap β) (l : List (Nat × β)) : SMap β :=
  l.foldl (fun m e => smSet d m e.1 e.2) m

end Sys2Proof.Machine
end

