-- ==== Sys2Proof/Machine/TeamTypes.lean ====
section
/-! DEFINITION. What the machine keeps for a team: registers and markers, masks and join stack, trap and debug
registers, queue registers, what it waits for (spec/04_team_sequencer.md; INVENTORY.md names the rule of each field). -/

namespace Sys2Proof.Machine

/-- Where a step that is no word happens: the die, the core of the die (0 to 39, or 40 + k for control core k), the
crew slot, the crew, the team of the crew, the queue register or record queue, the operation, and a number the step's
meaning explains. -/
structure Site where
  die : Nat := 0
  core : Nat := 0
  slot : Nat := 0
  crew : Nat := 0
  team : Nat := 0
  q : Nat := 0
  op : Nat := 0
  n : Nat := 0
  deriving DecidableEq, Repr

/-- What a register lane or a scalar register holds in place of data (R254, R311, R456, R45). -/
inductive Mark
  | data (a : W64)
  | remoteRead (detail : Nat) (a : W64)
  | hostAtomic (detail : Nat) (a : W64)
  | remoteOld (reason : Nat) (a : W64)
  | lane
  deriving DecidableEq, Repr

/-- An entry of a join stack (R137). -/
structure JoinEntry where
  rj : W64
  save : Mask
  other : Mask
  opc : W64
  deriving DecidableEq, Repr

/-- A fetched clause: its address and its four words (R50). -/
structure Clause where
  addr : W64
  header : W32
  w1 : W32
  w2 : W32
  w3 : W32
  deriving DecidableEq, Repr

/-- The prefixes in force for the next word (R72 to R77): IMX's immediate, GRD's NEG and PN, the program counter of the
first of them, and whether a reserved bit of a GRD is set. -/
structure Pfx where
  imm : Option (BitVec 24) := none
  grd : Option (Bool × Nat) := none
  pc : Option W64 := none
  rsv : Bool := false
  deriving DecidableEq, Repr

/-- Where a word leaves control: the next slot, an address, the handler after its group (cause code and XVAL), nowhere
because its team ended. -/
inductive Ctl
  | next
  | go (pc : W64)
  | after (code : Nat) (val : W64)
  | ended
  deriving DecidableEq, Repr

/-- How a word left its group. -/
inductive Note
  | done
  | trapped
  | blocked
  deriving DecidableEq, Repr

/-- Where an operation stands with its current leave (R35, R37): it needs none, has asked, or holds it. -/
inductive Leave
  | free | asked | held
  deriving DecidableEq, Repr

/-- What a blocked word waits for; a barrier word's barrier, and the phase that AWAIT names (R147); EVWAIT's event and count (R182). -/
inductive Wait
  | pending
  | flag
  | credit
  | result
  | barrier (b : Nat)
  | arrive (b : Nat)
  | phase (b : Nat) (v : W32)
  | reform
  | fence
  | walk
  | slots
  | quantum
  | touch
  | event (e n : Nat)
  | engine
  | memory
  | missRing
  | queue (n : Nat)
  | run
  | leave
  deriving DecidableEq, Repr

/-- What a result is to a ray (R389, R416): none of a ray's, its final one, a CALL, a translation-class fault. -/
inductive ResKind
  | plain | final | call | trans
  deriving DecidableEq, Repr

/-- A result that waits in a queue register: its words, what it is to the ray with the handle. -/
structure QRes where
  words : List W32
  kind : ResKind := .plain
  handle : W32 := 0
  deriving DecidableEq, Repr

/-- A record pushed and not yet taken by its engine: its words, its lane, the number of the next operation when it was
pushed (R33), its ray batch (R423). -/
structure Pushed where
  words : List W32
  lane : Nat
  stamp : Nat
  batch : Option Nat := none
  deriving DecidableEq, Repr

/-- A queue register (R22 to R25): its port; results not yet popped; records of a push that wait for credit (R23); records pushed
and not yet taken by the engine; how many records the engine has accepted whose results it has not all produced. For a ray port: the traversal context (R393), the log area
(R426), SEQ and DROPPED (R390, R432). For a record queue of another device: DEST, RESV and the epoch (R466, R468). -/
structure QReg where
  port : Nat := 0
  results : List QRes := []
  staged : List Pushed := []
  pushed : List Pushed := []
  accepted : Nat := 0
  ctx : Option (List W64) := none
  logBase : W64 := 0
  slotLog : Nat := 0
  nslots : Nat := 0
  seq : Nat := 0
  dropped : Nat := 0
  dest : Option (Nat × Nat) := none
  resv : Nat := 0
  epoch : Nat := 0
  deriving DecidableEq, Repr

/-- A store, with the virtual and the physical address of its bytes, a deferred atomic of a quantum, or a load that waits for one, in program
order (R272, R274, R309; log entry 89). -/
inductive DqItem
  | store (va : W64) (pa : Nat) (scratch : Bool) (bytes : List Byte)
  | atomic (op : Nat)
  | load (op : Nat)
  deriving DecidableEq, Repr

/-- Who a team is: its crew, number, place, context, and what its launch declared (R78, R129, R158, R163, R165). -/
structure TeamId where
  alive : Bool := false
  crew : Nat := 0
  tno : Nat := 0
  die : Nat := 0
  core : Nat := 0
  slot : Nat := 0
  ctx : Nat := 0
  width : Nat := 32
  nregs : Nat := 8
  ceil : BitVec 2 := 0
  crewno : Nat := 0
  crewTeams : Nat := 1
  quantum : Option Nat := none
  deriving DecidableEq, Repr

/-- The registers of R78 with their pending bits (R29), held as the operation that will write them plus 1, and their
markers (R254). Vector keys are register * 1024 + lane, pending keys register * 32 + mask word. -/
structure Regs where
  s : SMap W32 := []
  v : SMap W32 := []
  p : SMap Mask := []
  spend : SMap Nat := []
  vpend : SMap Nat := []
  ppend : SMap Nat := []
  vmarks : SMap (Option Mark) := []
  smarks : SMap (Option Mark) := []
  deriving DecidableEq, Repr

/-- The chained group a word issues in, while the words of a group run (R63 to R66): the program counter a fault names, the
registers with their pending bits and markers, the completion flags, M, the privilege state and the number of the next operation as
they were before the group, and the control transfer asked for. -/
structure Group where
  first : W64
  r : Regs
  busy : BitVec 12
  m : Mask
  sup : Bool
  stamp : Nat
  ctl : Ctl
  deriving DecidableEq, Repr

/-- The trap registers and the saved mask (R155, R159). -/
structure TrapRegs where
  xvec : W64 := 0
  xpc : W64 := 0
  xval : W64 := 0
  detail : BitVec 8 := 0
  code : BitVec 8 := 0
  xmask : Mask := 0
  saved : Mask := 0
  deriving DecidableEq, Repr

/-- System register 0x009 (R158, R247). -/
structure SpFault where
  valid : Bool := false
  wr : Bool := false
  off : BitVec 18 := 0
  deriving DecidableEq, Repr

/-- The remote-fault registers and UNREP (R158, R457, R461). -/
structure RfRegs where
  count : W32 := 0
  base : W64 := 0
  slots : BitVec 16 := 0
  unrep : Nat := 0
  deriving DecidableEq, Repr

/-- DEBUGCTL and the undo log's registers (R159, R160). -/
structure Debug where
  uflt : Bool := false
  undo : Bool := false
  step : Bool := false
  base : W64 := 0
  len : W32 := 4096
  head : W32 := 0
  deriving DecidableEq, Repr

/-- What the engines hold per team: the gang register (R354), the stream fault record (R382), the drain SEED and
COUNTER (R332), the CYIELD continuation and the windows that a team it descheduled waits for (R326), the leave of a word that has not
issued (R329), FADDR of each lane (R282), a RED
error that the next TFENCE raises (R313), and the operation whose end the team waits for before it acquires at a scope (R307,
R447). -/
structure TeamEng where
  gang : BitVec 20 := 0
  stream0 : W64 := 0
  stream1 : W64 := 0
  seed : W64 := 0
  counter : W64 := 0
  cyield : Option W64 := none
  parked : List Nat := []
  leave : Leave := .free
  faddr : SMap W64 := []
  redErr : Option W64 := none
  acq : Option (Nat × Nat) := none
  deriving DecidableEq, Repr

/-- The quantum's buffer, its count of words, whether the team waits at a quantum end,
has passed one at its word, and stops after its word because a store filled the buffer on its own (R272, R273, R275). -/
structure Quantum where
  items : List DqItem := []
  count : Nat := 0
  atEnd : Bool := false
  passed : Bool := false
  full : Bool := false
  deriving DecidableEq, Repr

/-- What the sequencer keeps to choose a team (R151 to R153, R200): what it waits for, the progress count at which it
was found blocked, how far a word that waits has come (key 0 a barrier word's phase or REFORM, 1 PMISS's pages, 2 the items that a
remote word has inserted, 3 PMISS's records, 4 the drain whose end RFREE waits for,
5 that the event of an EVWAIT has reached its count), the times it has waited, and whether a YIELD of the open clause has run (R153). -/
structure Sched where
  wait : Option Wait := none
  blockedAt : Nat := 0
  arrived : SMap (Option Nat) := []
  since : Nat := 0
  passed : Nat := 0
  blockedFrom : Nat := 0
  yields : Bool := false
  deriving DecidableEq, Repr

/-- One team (R129 to R161): its registers, completion flags and queue registers, masks and join stack, program
counter with the clause, prefixes and group in force, class, privilege state, sticky flags and the rest above. -/
structure Team where
  id : TeamId := {}
  r : Regs := {}
  busy : BitVec 12 := 0
  q : SMap QReg := []
  live : Mask := 0
  m : Mask := 0
  join : List JoinEntry := []
  pc : W64 := 0
  clause : Option Clause := none
  pfx : Pfx := {}
  group : Option Group := none
  note : Note := .done
  scc : BitVec 3 := 0
  cls : BitVec 2 := 0
  sup : Bool := false
  x : TrapRegs := {}
  asticky : Flags := 0
  aenable : Flags := 0
  sp : SpFault := {}
  rf : RfRegs := {}
  dbg : Debug := {}
  eng : TeamEng := {}
  dq : Quantum := {}
  sched : Sched := {}
  deriving DecidableEq, Repr

end Sys2Proof.Machine
end

