-- ==== Sys2Proof/Machine/EngineTypes.lean ====
section
/-! DEFINITION. What the machine keeps for the engines that act on their own: current leave, the tile copy engine,
the matrix engine (spec/01_engines_and_ties.md R35 to R40; spec/09_tile_copy_engine.md; spec/10_matrix_engine.md; INVENTORY.md names the rule of each field). -/

namespace Sys2Proof.Machine

/-! ### Current leave (R35 to R40) -/

/-- Who asks for leave: a word that has not issued yet, a fill by its operation, a matrix operation or a
ray batch of a crew, a reduction burst of a plan slot of the die. -/
inductive LeaveWho
  | word (team : Nat)
  | op (id : Nat)
  | array (crew id : Nat)
  | rays (crew id : Nat)
  | burst (slot : Nat)
  deriving DecidableEq, Repr

/-- A request for leave: the current in A, the requester's class, and how many grants have passed it over (R36). -/
structure LeaveReq where
  who : LeaveWho
  amps : Nat
  cls : Nat
  passed : Nat := 0
  deriving DecidableEq, Repr

/-- The arbiter of a die (R36, R40): POOL, RAMP, the leave granted, the requests waiting in order of arrival, and the
leave newly granted with the cycle of each grant. -/
structure Arbiter where
  pool : Nat := 825
  ramp : Nat := 64
  inuse : Nat := 0
  waiting : List LeaveReq := []
  recent : List (Nat × Nat) := []
  deriving DecidableEq, Repr

/-! ### Tile copy engine (R315 to R340) -/

/-- The states of a handle (R316), in the order of the codes of R330. -/
inductive RegionState
  | free | absent | filling | full | draining
  deriving DecidableEq, Repr

/-- An entry of a crew's region table with its handle (R315): the descriptor, ACQ and SCOPE of RBIND, the state, GEN
and POISON, and whether RFREE or the end of a drain is to free it. -/
structure Region where
  desc : List W64 := []
  acq : Bool := false
  scope : BitVec 3 := 0
  state : RegionState := .free
  gen : BitVec 8 := 0
  poison : Bool := false
  deriving DecidableEq, Repr

/-- A fill in flight (R324): its entry and GEN, the pages of its tile with their physical addresses, the window bytes
written, and its leave. -/
structure Fill where
  entry : Nat
  gen : BitVec 8
  pages : List (Nat × Nat)
  done : Nat
  leave : Leave
  deriving DecidableEq, Repr

/-- A drain in flight (R329): its entry, the element type of an accumulating drain with its SR, SEED and COUNTER, FREE, ACQ,
REL and SCOPE, the pages of its tile, and its leave. -/
structure Drain where
  entry : Nat
  acc : Option (BitVec 2)
  sr : Bool
  seed : W64
  counter : W64
  free : Bool
  acq : Bool
  rel : Bool
  scope : BitVec 3
  pages : List (Nat × Nat)
  leave : Leave
  deriving DecidableEq, Repr

/-! ### Matrix engine (R341 to R387) -/

/-- A matrix word that waits for hazards (R351, R352): its team, its place in start order, what it reads and writes, as
masks over 48 slots, 4 banks, 8 codebooks and 4 tables. -/
structure MStart where
  team : Nat
  stamp : Nat
  reads : BitVec 64
  writes : BitVec 64
  deriving DecidableEq, Repr

/-- Where a member's word stands at the latch (R355, R356): it waits for the others, its operation has started, its
operation has issued, or a fault is to be taken at it. -/
inductive ArrStatus
  | waiting
  | started (op : Nat)
  | issued (op : Nat)
  | fault (code detail : Nat) (val : W64)
  deriving DecidableEq, Repr

/-- A member's arrival at the latch: its team, gang register, word bits and descriptor (R355). -/
structure Arrival where
  team : Nat
  gang : BitVec 20
  word : BitVec 24
  desc : W32
  status : ArrStatus
  deriving DecidableEq, Repr

/-- The coded record of a slot: the index entry and TILE (R374). -/
structure Coded where
  entry : BitVec 128
  tile : Nat
  deriving DecidableEq, Repr

/-- Where a gang operation is (R356 to R358, R371, R386). -/
inductive MatState
  | started | suspended | held | restored
  deriving DecidableEq, Repr

/-- The decoder at work for one MMAC (R364, R367): the next symbol, each substream's position, and the block whose
symbols are at the array, with them. -/
structure OpdWork where
  next : Nat
  subs : List SubPos
  blk : Nat
  syms : List Nat
  deriving DecidableEq, Repr

/-- A gang operation (R356 to R372): its number, which gives its place in start order; word bits, descriptor, gang register
and coded record; whether it has issued; its state, steps done, sticky flags so far, choices that passed it over; its leave;
the resume points and the decoder's work; whether the decode is verified; the flags it made busy. -/
structure MatOp where
  id : Nat
  word : BitVec 24
  desc : W32
  gang : BitVec 20
  code : Option Coded
  issued : Bool := false
  state : MatState := .started
  steps : Nat := 0
  flags : Flags := 0
  passed : Nat := 0
  leave : Leave := .free
  marks : List SubPos := []
  work : Option OpdWork := none
  verified : Bool := false
  busy : List (Nat × Nat) := []
  deriving DecidableEq, Repr

/-- A crew's matrix state (R341 to R344): claims; slot bytes (slot * 16,384 + byte) with poison and coded records; bank
elements (bank * 1,024 + row * 32 + column); codebook bytes (codebook * 2,048 + byte), poison, types when loaded; table
bytes (table * 384 + byte), poison, tables loaded; the latch, the words waiting for hazards, the operations. -/
structure Matrix where
  slots : BitVec 48 := 0
  banks : BitVec 4 := 0
  cbs : BitVec 8 := 0
  data : SMap Byte := []
  poison : SMap Bool := []
  coded : SMap (Option Coded) := []
  acc : SMap W64 := []
  cb : SMap Byte := []
  cbPoison : SMap Bool := []
  cbType : SMap (Option (BitVec 2)) := []
  tab : SMap Byte := []
  tabPoison : SMap Bool := []
  tabs : BitVec 4 := 0
  latch : List Arrival := []
  starts : List MStart := []
  ops : List MatOp := []
  deriving DecidableEq, Repr

/-- A copy into operand memory or a codebook in flight (R373 to R376): the destination (slot, or codebook with its type),
bytes, source address and pages, the coded record, ACQ and SCOPE. -/
structure MatLoad where
  slot : Nat
  cbType : Option (BitVec 2)
  len : Nat
  va : Nat
  pages : List (Nat × Nat)
  code : Option Coded
  acq : Bool
  scope : BitVec 3
  deriving DecidableEq, Repr

/-- A store of a bank in flight (R380): bank, base and stride, T, RM, REL, SCOPE, the seed and counter read at issue,
and the pages. -/
structure MatStore where
  bank : Nat
  base : W64
  stride : Int
  t : BitVec 3
  rm : BitVec 3
  rel : Bool
  scope : BitVec 3
  seed : W64
  counter : W64
  pages : List (Nat × Nat)
  deriving DecidableEq, Repr

/-- A transposition in flight (R381): its descriptor, RM, the seed and counter. -/
structure MatTrq where
  desc : W32
  rm : BitVec 3
  seed : W64
  counter : W64
  deriving DecidableEq, Repr

/-! ### Ray engine (R388 to R437) -/

/-- Where a ray is (R435): it runs, it is suspended in CALL, it is held by a translation fault, or it has ended and its final
result has not been popped. -/
inductive RayState
  | run | call | held | ended
  deriving DecidableEq, Repr

/-- A ray's geometry (R435): origin, direction, TMIN, the current and the initial TMAX, HU, HV, the held hit as HKIND and
index, HUSER. -/
structure RayGeom where
  org : List W64 := []
  dir : List W64 := []
  tmin : W64 := 0
  tmax : W64 := 0
  tmax0 : W64 := 0
  hu : W64 := 0
  hv : W64 := 0
  hit : Option (Nat × Nat) := none
  huser : W64 := 0
  deriving DecidableEq, Repr

/-- A ray's place in its traversal (R402, R435): NODE, FROM, SLOT, PHASE, PRIMOFF, LOGN. PHASE goes beyond R435's codes
for a replay: 4 at the header, 5 at the check of its entries, which FROM counts (R430), 6 before an entry, 7 in a leaf's entry, 8 in a user
surface's. -/
structure RayPos where
  node : Nat := 0
  frm : Nat := 0xFFFFFFFF
  slot : Nat := 0
  phase : Nat := 0
  primoff : Nat := 0
  logn : Nat := 0
  deriving DecidableEq, Repr

/-- A ray (R389, R390, R402, R435): its register, HANDLE, TAG and state; the user index of its CALL; the flags of its
record with LOST; the fault it is held by as code, DETAIL and address, and REPORTED; whether a result of it is unpopped; its
batch; the operation number its reads wait for (R421); and the lines read for the test at hand, by virtual line number. -/
structure Ray where
  team : Nat
  q : Nat
  handle : W32
  tag : W32
  state : RayState := .run
  geo : RayGeom := {}
  pos : RayPos := {}
  user : Nat := 0
  first : Bool := false
  log : Bool := false
  replay : Bool := false
  lost : Bool := false
  rel : Bool := false
  scope : BitVec 3 := 0
  fault : Option (Nat × Nat × W64) := none
  reported : Bool := false
  unpopped : Bool := false
  batch : Option Nat := none
  stamp : Nat := 0
  lines : List (Nat × BitVec 1024) := []
  deriving DecidableEq, Repr

/-- A batch of more than 32 rays (R423): its number, the team that pushed it, its leave. -/
structure RayBatch where
  id : Nat
  team : Nat
  leave : Leave
  deriving DecidableEq, Repr

end Sys2Proof.Machine
end

