-- ==== Sys2Proof/Machine/CrewTypes.lean ====
section
/-! DEFINITION. What the machine keeps for crews, caches, translation and launches (spec/05_launch_engine.md,
spec/07_load_store_and_translation.md; INVENTORY.md names the rule of each field). -/

namespace Sys2Proof.Machine

/-- A barrier of a crew (R146): completed phases and the teams that have arrived in the current one. -/
structure Barrier where
  phase : W32 := 0
  arrived : List Nat := []
  deriving DecidableEq, Repr

/-- Where a crew is (R163, R164, R192). -/
inductive CrewState
  | none | starting | run | saving | dropping | restoring | saved | ended
  deriving DecidableEq, Repr

/-- A crew (R18, R163, R166): its launch and number, context and generation, class ceiling, slot, the slots its teams take when the
crew level is bound beyond a core, as core and slot in order of team (R170), its launch's record, the records that feed it (R205),
what it holds of its own (barriers, REFORM arrivals with each team's key register, scratchpad and its poison, region table, matrix
state, rays), what a save keeps beside the teams, whether a commit has begun (R274, R276), the step in which its launch started (R89), and the class that it is
a waiter with (R200). -/
structure Crew where
  state : CrewState := .none
  handle : Nat := 0
  crewno : Nat := 0
  ctx : Nat := 0
  gen : Nat := 0
  idem : Bool := false
  qos : BitVec 2 := 0
  ceil : BitVec 2 := 0
  die : Nat := 0
  core : Nat := 0
  slot : Nat := 0
  spots : List (Nat × Nat) := []
  words : List W64 := []
  fed : List (List W32) := []
  barriers : SMap Barrier := []
  reform : List (Nat × Nat) := []
  splen : Nat := 0
  scratch : SMap Byte := []
  spoison : SMap Bool := []
  regions : SMap Region := []
  mat : Matrix := {}
  rays : List Ray := []
  batches : List RayBatch := []
  area : Nat := 0
  missing : Nat := 0
  promoted : Option (BitVec 2) := none
  cause : Option Nat := none
  commit : Bool := false
  since : Nat := 0
  waiter : Option Nat := none
  deriving DecidableEq, Repr

/-- A line's bytes, byte k in bits [8k + 7:8k], with the bytes that are present, the bytes that are dirty (R244), and the bytes that an
uncorrectable error has spoiled in this copy (R45). -/
structure LineCopy where
  data : BitVec 1024 := 0
  valid : BitVec 128 := 0
  dirty : BitVec 128 := 0
  bad : BitVec 128 := 0
  deriving DecidableEq, Repr

/-- A line of a ray engine's node cache (R418, R420): its bytes and a poison mark. The key of a local line is its physical
line number, that of a fabric line its virtual line number. -/
structure NodeLine where
  data : BitVec 1024
  poison : Bool
  deriving DecidableEq, Repr

/-- A TLB entry (R279): context, VA[47:16], the leaf entry, whether it maps a large page. -/
structure TlbEntry where
  ctx : Nat
  vpn : Nat
  leaf : W64
  large : Bool
  deriving DecidableEq, Repr

/-- Where a request for a walk stands (R279): it waits for a walker, a walker runs for it, or it shares the walk of another request. -/
inductive WalkState
  | waiting | running | shared
  deriving DecidableEq, Repr

/-- A page-table walk asked for (R279): context, page, the access (0 read, 1 write, 2 fetch) and its
privilege, the team that waits, where it stands, and, once walked, the
fault it found as code and DETAIL. -/
structure Walk where
  ctx : Nat
  vpn : Nat
  acc : Nat
  sup : Bool
  team : Nat
  stands : WalkState := .waiting
  fault : Option (Nat × Nat) := none
  deriving DecidableEq, Repr

/-- A clause whose bytes at the home a step changed: its physical address over 16, the step, the 16 bytes before it (R89). -/
structure CodeRec where
  clause : Nat
  tick : Nat
  old : List Byte
  deriving DecidableEq, Repr

/-- A row of a slot table (R163). `idem` is what software wrote or a crew left; while the slot is not EMPTY the bit is the
crew's own. `cmd` is a command that waits until RUN (R164). -/
structure SlotRow where
  valid : Bool := false
  state : BitVec 3 := 0
  ceil : BitVec 2 := 0
  qos : BitVec 2 := 0
  idem : Bool := false
  err : Bool := false
  lhandle : W32 := 0
  crewno : W32 := 0
  rfbase : Nat := 0
  rflen : Nat := 0
  spbase : Nat := 0
  splen : Nat := 0
  area : W64 := 0
  cmd : BitVec 2 := 0
  crew : Nat := 0
  deriving DecidableEq, Repr

/-- Where a launch is (R171). -/
inductive LaunchState
  | free | held | pending | running
  deriving DecidableEq, Repr

/-- An entry of a launch table (R171, R172, R174, R175, R201, R205): the record's eight words, its issuer, the first crew number never
bound, the crews dropped and not bound again with the records that feed them, the sizes of the groups of records formed and not
yet started and the count of crews that took records, the count of crews ended, whether OUTQ is attached, the terminations, the
class that the unbound crews are promoted to, the step in which it started (R89). `ring` names the function whose host ring submitted it. -/
structure LaunchEntry where
  state : LaunchState := .free
  gen : Nat := 0
  words : List W64 := []
  ctx : Nat := 0
  next : Nat := 0
  dropped : List (Nat × List (List W32)) := []
  formed : List Nat := []
  started : Nat := 0
  ended : Nat := 0
  attached : Bool := false
  terminated : Nat := 0
  cause : Nat := 0
  promoted : Option (BitVec 2) := none
  ring : Option Nat := none
  start : Nat := 0
  deriving DecidableEq, Repr

/-- An event (R177): its count, and the context it is allocated to. The spec says that system software allocates an event and sets its COUNT and gives
no register for it: no step does either, and an event that a run is to use is data of its first state (PRESUMED, log entry 110). -/
structure Event where
  count : W32 := 0
  ctx : Option Nat := none
  deriving DecidableEq, Repr

/-- State of a record queue (R202). -/
inductive RqState
  | free | opened | closed
  deriving DecidableEq, Repr

/-- A record queue (R202, R205, R465, R468): its attributes, its records from the head, the time of the last added,
and what the fabric engine keeps for it: INB, JOB, the slots reserved and not used, the epoch, and the slots granted to each request, by initiator
(device * 8 + die), job and sequence. The spec says that system software creates a queue and not how: no step creates one, and a queue
that a run is to use is data of its first state (PRESUMED, log entry 86). The records are kept here and not in memory: a read of memory at the ring's
address gives the bytes of the address's home (DESIGN CHOICE, log entry 111). -/
structure RecordQueue where
  base : W64 := 0
  logcap : Nat := 6
  state : RqState := .free
  qos : BitVec 2 := 0
  producers : W32 := 0
  fed : Nat := 0
  ctx : Nat := 0
  recs : List (List W32) := []
  added : Nat := 0
  inb : Bool := false
  job : Nat := 0
  held : Nat := 0
  epoch : Nat := 0
  grants : List (Nat × Nat × Nat × Nat) := []
  deriving DecidableEq, Repr

/-- POOL: CAP less the slots reserved and not used, less the records present; 0 for a queue that is FREE (R465). -/
def RecordQueue.pool (q : RecordQueue) : Nat := if q.state = .free then 0 else 2 ^ q.logcap - q.held - q.recs.length

end Sys2Proof.Machine
end

