-- ==== Sys2Proof/Machine/FabricTypes.lean ====
section
/-! DEFINITION. What the machine keeps for atomics in flight, the fabric engines and the host link
(spec/08_atomic_engine.md; spec/12_fabric_engine.md; INVENTORY.md names the rule of each field). -/

namespace Sys2Proof.Machine

/-! ### Atomics in flight (R291 to R314) -/

/-- What an atomic word does (R294, R299 to R302). -/
inductive AtWhat
  | amo (opn : Nat)
  | acas
  | acas2
  | red (opn : Nat)
  | redx
  | ald
  | ast
  deriving DecidableEq, Repr

/-- A lane of an atomic still to be performed: lane, virtual and physical address, operand, the compare value of ACAS and
ACAS2, REDE of its page. -/
structure AtLane where
  lane : Nat
  va : W64
  pa : Nat
  x : Nat
  cmp : Nat
  rede : Int
  deriving DecidableEq, Repr

/-- An atomic in flight: what it does at which width, its destination, whether in the scratchpad, its lanes still to be
performed, flags raised so far, and REL's scope while it is deferred to a commit (R309). -/
structure AtomicOp where
  what : AtWhat
  wide : Bool
  d : Nat
  spad : Bool
  lanes : List AtLane
  flags : Flags := 0
  deferred : Bool := false
  rel : Option Nat := none
  deriving DecidableEq, Repr

/-! ### Spindle buffers (R440 to R444) -/

/-- What is in a packet: an element, or a remote record. -/
inductive SpBody
  | el (va : W64) (data : W64) (kind : BitVec 2) (w : Bool) (opn : BitVec 4) (op : Option Nat)
  | rc (queue epoch : Nat) (words : List W32)
  deriving DecidableEq, Repr

/-- An element or record of a team: its lane, the program counter of its word, whether it has become uncorrectable in its
buffer (R45, R460). -/
structure SpItem where
  team : Nat
  lane : Nat
  pc : W64
  body : SpBody
  bad : Bool := false
  deriving DecidableEq, Repr

/-- A buffer that is OPEN or DEPARTING: its flow's destination and job, `recs` for a record packet, its items in order of
insertion, the cycles of its first and last insertion. -/
structure SpBuf where
  dest : Nat
  job : Nat
  recs : Bool
  items : List SpItem
  first : Nat
  last : Nat
  departing : Bool := false
  deriving DecidableEq, Repr

/-- A packet handed to the transport and not yet acknowledged: its flow, whether it travels in the record stream, its sequence there, its items,
the cycle it left in; a reservation request names its operation, queue and count (R466, R472, R473). -/
structure Flight where
  seq : Nat
  dest : Nat
  job : Nat
  recs : Bool := false
  items : List SpItem
  resv : Option (Nat × Nat × Nat) := none
  sent : Nat
  deriving DecidableEq, Repr

/-- A fabric engine (R440, R442, R444, R473): buffers, packets not yet acknowledged, the waiting insertions that have had an OPEN
buffer evicted, as team and destination, the next sequence of each stream (flowKey). -/
structure Spindle where
  bufs : List SpBuf := []
  flight : List Flight := []
  evicted : List (Nat × Nat) := []
  seqs : SMap Nat := []
  deriving DecidableEq, Repr

/-- The fabric registers of a die (R439). -/
structure FabRegs where
  agelim : W32 := 4096
  rtimeout : W32 := 0x01000000
  devno : W32 := 0
  jobs : SMap W64 := []
  deriving DecidableEq, Repr

/-- The registers of a ring: the inbound fault log, the RAS log (R463); and whether the entry lost last began an overflow that
has been reported. -/
structure RingRegs where
  base : W64 := 0
  log : W32 := 6
  head : W32 := 0
  tail : W32 := 0
  spilt : Bool := false
  deriving DecidableEq, Repr

/-- A RAMO in flight: its destination, width, lanes whose old values are to come, whether the word has issued, and the
results (lane, reason, old value) that came before it did (R441, R456). -/
structure RamoOp where
  d : Nat
  wide : Bool
  lanes : List Nat
  issued : Bool := false
  got : List (Nat × Nat × W64) := []
  deriving DecidableEq, Repr

/-- An RSVS in flight: SD, the queue register, destination device and queue, count, job, the packet's sequence and
when it was sent (R466, R468). -/
structure RsvsOp where
  d : Nat
  q : Nat
  dev : Nat
  queue : Nat
  count : Nat
  job : Nat
  seq : Nat
  sent : Nat
  deriving DecidableEq, Repr

/-! ### The compositing engine (R486 to R511) -/

/-- A unit of a run at this rank: its values (the elements, binary64 before the root of a SUM; or an image tile's six planes one
after the other), the flags raised for it, whether it is poisoned, how many partials it has been combined with, whether it is
final and written (R492 to R494, R502). -/
structure PlanUnit where
  vals : List W64 := []
  flags : Flags := 0
  poison : Bool := false
  lvl : Nat := 0
  fin : Bool := false
  deriving DecidableEq, Repr

/-- A chunk that has arrived and waits for its burst (R502): step, source position, units with their values, poison and flags. -/
structure RunChunk where
  step : Nat
  src : Nat
  units : List (Nat × List W64 × Bool × Flags)
  deriving DecidableEq, Repr

/-- A run (R501 to R503): this rank's number and the rank table as DEV, DIE, ORDER; the starting team with its die, core and
privilege; REL's scope; the register and TAG of a port's START; the units touched so far; the arrival bitmap as (step, source, chunk);
chunks that wait for a burst; chunks sent and those not acknowledged as (step, destination, chunk); the leave of the next burst;
the cycle of the last progress; the STATE and REASON that the run ends with, while its release is not done. -/
structure Run where
  rank : Nat := 0
  table : List (Nat × Nat × Nat) := []
  team : Nat := 0
  die : Nat := 0
  core : Nat := 0
  sup : Bool := false
  rel : Option Nat := none
  port : Option (Nat × W32) := none
  units : SMap PlanUnit := []
  seen : List (Nat × Nat × Nat) := []
  waiting : List RunChunk := []
  sent : List (Nat × Nat × Nat) := []
  unacked : List (Nat × Nat × Nat) := []
  leave : Leave := .free
  last : Nat := 0
  ending : Option (Nat × Nat) := none
  deriving DecidableEq, Repr

/-- A plan slot (R486, R490, R503): its generation, the context, the object's eight words, RUN, STATE (0 IDLE, 1 RUNNING, 2 DONE,
3 FAILED, 4 CANCELLED), REASON, POISONED, FLAGS, whether its context has been torn down while its run ends, the run. -/
structure Plan where
  used : Bool := false
  gen : Nat := 0
  ctx : Nat := 0
  words : List W64 := []
  count : Nat := 0
  state : Nat := 0
  reason : Nat := 0
  poisoned : Bool := false
  flags : Flags := 0
  torn : Bool := false
  run : Run := {}
  deriving DecidableEq, Repr

/-- A compositing engine (R486, R491): its plan slots, the bytes of its coding tables (table * 384 + byte), TVALID. -/
structure Composer where
  plans : SMap Plan := []
  freq : SMap Byte := []
  tvalid : BitVec 4 := 0
  deriving DecidableEq, Repr

/-- A TENC or TDEC in flight (R508): the coding table of a TENC, none for a TDEC; the scalar destination; the source and the
destination with their pages; ACQ, REL, SCOPE. -/
structure TileOp where
  table : Option Nat
  d : Nat
  src : W64
  dst : W64
  srcPages : List (Nat × Nat)
  dstPages : List (Nat × Nat)
  acq : Bool
  rel : Bool
  scope : Nat
  deriving DecidableEq, Repr

/-! ### The host link and what leaves the device (R477 to R485) -/

/-- The registers of a PCIe function (R478, R479, R512), with whether it may issue AtomicOps, and the completions of launches that
wait for room in the completion ring (R480). -/
structure HostFunc where
  sqbase : W64 := 0
  sqctl : W32 := 0x40
  sqtail : W32 := 0
  sqhead : W32 := 0
  cqbase : W64 := 0
  cqhead : W32 := 0
  cqtail : W32 := 0
  allow : W32 := 1
  atomics : Bool := false
  pend : List (List Byte) := []
  deriving DecidableEq, Repr

/-- The private key of one LMS tree (R482): its identifier and the seed that its secrets are derived from (log entry 27). -/
structure LmsKey where
  ident : BitVec 128 := 0
  seed : BitVec 256 := 0
  deriving DecidableEq, Repr

/-- The part as a whole (R481 to R483): its power state (0 D0, 1 D3hot, 2 D3cold), whether it is in recovery, the image in the
module flash, the image that runs, the fused rollback counter and the fused digest of the root public key, and the private state of the
identity key in the flash: the key of its upper tree and the next leaf (log entries 27 and 97). -/
structure Board where
  power : Nat := 0
  recovery : Bool := false
  flash : Firmware := {}
  running : Firmware := {}
  rollback : W32 := 0
  fused : BitVec 256 := 0
  identity : LmsKey := {}
  leaf : Nat := 0
  deriving DecidableEq, Repr

/-- What has been retired (R42 to R44, R476): memory channels as stack and channel with whether the copy is done, data lanes by fabric
port, the ports out of the spray, ways by LLC set. -/
structure Sparing where
  channels : List (Nat × Nat × Bool) := []
  lanes : SMap Nat := []
  ports : List Nat := []
  ways : SMap Nat := []
  deriving DecidableEq, Repr

/-- A message on its way: a packet, an acknowledgement or a reply of the fabric, a collective chunk to a die of a device, or its
acknowledgement back to one with the job, PLANID, RUN, step, source position and index; another device's read of a line of this device's window
for a job, and the line that answers it; an interrupt of the management core for a slot that has become EMPTY; an interrupt or error report to the
host; an attestation reply. -/
inductive NetMsg
  | store (p : StorePacket)
  | ack (a : StoreAck)
  | record (p : RecordPacket)
  | resv (p : ResvRequest)
  | cancel (p : ResvRequest)
  | grant (g : ResvGrant)
  | ret (r : ResvReturn)
  | chunk (dev die : Nat) (k : Chunk)
  | chunkAck (dev die job : Nat) (planId : W32) (run step src index : Nat)
  | read (dev job : Nat) (line : Nat)
  | line (dev : Nat) (r : RemoteLine)
  | slotEmpty (die core slot : Nat)
  | msix (func vector : Nat)
  | aer (kind : Nat)
  | attest (nonce : W64) (digest : List Byte) (leaf : Nat) (sig : List Byte)
  | refuseAttest
  | unsupported (func : Nat)
  deriving DecidableEq, Repr

end Sys2Proof.Machine
end

