-- ==== Sys2Proof/Machine/State.lean ====
section
/-! DEFINITION. The state of one Skolith as plain data: everything the spec gives the machine (INVENTORY.md lists each
field with its rule and its reset value), the reasons a step can stop, and the state right after reset. -/

namespace Sys2Proof.Machine

/-- Why the machine stops. -/
inductive Fault
  /-- Raised where system software gave the hardware a physical address outside the physical map of R242 (a
  translation record, a ring, a save area): the spec gives that address no target. Safe: nothing is claimed of it. -/
  | physHole (pa : Nat)
  deriving DecidableEq, Repr

/-- Why an instruction is refused. -/
inductive Refusal
  /-- Raised by an arm of exec whose instruction has no meaning yet. Safe: the machine stops. -/
  | notModelled (mnemonic : String)
  deriving DecidableEq, Repr

/-- One lane's access of a memory word: lane, virtual address, physical address (R251, R252). -/
structure LaneAcc where
  lane : Nat
  va : W64
  pa : Nat
  deriving DecidableEq, Repr

/-- Which storage an access goes to: memory through the caches, memory at the home, the scratchpad, the remote-read
cache (R247, R256, R258). -/
inductive Space
  | plain | home | scratch | remote
  deriving DecidableEq, Repr

/-- A word whose result an engine gives later: LAUNCH with its destination, the record's address, the scope of its acquire and its
privilege (R181); EVSIG or EVADD with the event, the amount and the scope of its release (R182); RQBIND.stat with its destination and queue
(R184); PMAP with its destination, the mask words still to return, each lane's status, and the leaves that it collapsed, as first page, number of
pages and the first frames of the copies given up (R283, R286); CPLAN as LAUNCH, with its plan object's address (R490). -/
inductive EngWord
  | launch (d : Nat) (va : W64) (acq : Option Nat) (sup : Bool)
  | event (e : Nat) (amount : Int) (scope : Nat)
  | stat (d q : Nat)
  | pmap (d : Nat) (left : List Nat) (sts : List (Nat × Nat)) (gone : List (Nat × Nat × List Nat))
  | plan (d : Nat) (va : W64) (acq : Option Nat) (sup : Bool)
  deriving DecidableEq, Repr

/-- What an operation in flight does. -/
inductive OpKind
  /-- A load (R255, R257, R258): size code, sign extension, whether to scalar registers, destination, mask words still
  to return, the lanes' accesses, the bytes that the team's quantum buffer held when the load issued (R272), and whether
  a line of a fabric address is allocated. -/
  | load (sp : Space) (z : BitVec 3) (signed : Bool) (scalar : Bool) (d : Nat) (left : List Nat) (accs : List LaneAcc)
      (held : List (Nat × Byte)) (alloc : Bool)
  /-- A store (R256): the lanes' accesses with their bytes. -/
  | store (sp : Space) (accs : List (LaneAcc × List Byte))
  /-- A fill of a copy window (R324). -/
  | fill (f : Fill)
  /-- A drain of a copy window (R329). -/
  | drain (d : Drain)
  /-- MLOAD, MLOADC or MCBOOK (R373, R374, R376). -/
  | mload (l : MatLoad)
  /-- MST (R380). -/
  | mst (m : MatStore)
  /-- MTRQ (R381). -/
  | mtrq (q : MatTrq)
  /-- An atomic word (R306). -/
  | atomic (a : AtomicOp)
  /-- RAMO (R456). -/
  | ramo (r : RamoOp)
  /-- RSVS (R466). -/
  | rsvs (r : RsvsOp)
  /-- TENC or TDEC (R508). -/
  | tile (t : TileOp)
  /-- A word of the launch engine or PMAP. -/
  | word (w : EngWord)
  deriving DecidableEq, Repr

/-- An engine's operation in flight: its number, the team's key, the crew and its generation, the completion flag it
made busy, and what it does (R26, R28, R30). -/
structure Op where
  id : Nat
  team : Nat
  crew : Nat
  gen : Nat
  flag : Option Nat
  kind : OpKind
  deriving DecidableEq, Repr

/-- One core (R16): its slot table and the command register of it (R163), write buffer as lines with their bytes in order of arrival, L1, node cache, TLB and walks, the array's operation and the one that asks
for leave to take its place (R357, R358), as crew and number. -/
structure Core where
  slots : SMap SlotRow := []
  slotCmd : W32 := 0
  wb : List (Nat × LineCopy) := []
  l1 : SMap LineCopy := []
  node : SMap (Option NodeLine) := []
  tlb : List TlbEntry := []
  walks : List Walk := []
  array : Option (Nat × Nat) := none
  rival : Option (Nat × Nat) := none
  deriving DecidableEq, Repr

/-- The registers of a die's control block that stand alone (R199, R246, R281, R288), the ways and bandwidth of each QoS class that
differ from 4 and 16 (R207), the fabric registers (R439), the inbound fault log and the RAS log (R463). -/
structure DieRegs where
  waitlim : W32 := 0x00100000
  inval : W64 := 0
  missReg : W64 := 0
  rrcsteps : W32 := 0
  ways : SMap W32 := []
  bw : SMap W32 := []
  fab : FabRegs := {}
  ifl : RingRegs := {}
  ras : RingRegs := {}
  deriving DecidableEq, Repr

/-- One compute die (R14, R15, R41, R47): the steps since its reset, which its cycle counter is read
from (State.now), and whether its clock is lowered; the clusters whose L1s are fused (R245), and the core whose walk started last (R279); the core positions retired and the
logical cores whose position is not their own number, as number and position (none for a core that is gone); the bytes of the tables that the
context-save codec holds (R196); the rest by unit. -/
structure Die where
  clock : Nat := 0
  slow : Bool := false
  fused : List Nat := []
  walkTurn : Nat := 0
  retired : List Nat := []
  coreMap : List (Nat × Option Nat) := []
  saveTabs : List (List Byte) := []
  arb : Arbiter := {}
  regs : DieRegs := {}
  l2 : SMap LineCopy := []
  launches : SMap LaunchEntry := []
  spindle : Spindle := {}
  comp : Composer := {}
  deriving DecidableEq, Repr

/-- A context as system software has made it known to the device (R168, R277, R439, R512): the physical address of its
translation record and the function that owns it; the lowest-numbered context of a function is the one that its submission ring
is read in. -/
structure Context where
  root : Nat := 0
  func : Nat := 0
  deriving DecidableEq, Repr

/-- The whole machine: the team that issues and the others, crews, cores and dies; memory with its poison, the frames to be zeroed, the clauses
changed since the running launches started; contexts, the lines that the LLC's slices hold with the one touched last in front, the remote-read cache, events, record queues, devices that no path reaches, pins, functions,
the part as a whole, what has been retired; messages on their way, operations in flight with the next number, the count of free values used; what is to
come from outside; and what the model keeps to choose what happens next (log entry 3). -/
structure State where
  team : Team := {}
  others : SMap Team := []
  crews : SMap Crew := []
  cores : SMap Core := []
  dies : SMap Die := []
  mem : List Host.Cell := []
  poison : SMap Bool := []
  zeroed : List Nat := []
  code : List CodeRec := []
  contexts : SMap Context := []
  llc : List Nat := []
  rrc : SMap LineCopy := []
  events : SMap Event := []
  queues : SMap RecordQueue := []
  unreach : List Nat := []
  pins : List (Nat × Nat) := []
  funcs : SMap HostFunc := []
  board : Board := {}
  sparing : Sparing := {}
  net : List NetMsg := []
  out : List NetMsg := []
  ops : List Op := []
  nextOp : Nat := 0
  fresh : Nat := 0
  agenda : List (Site × Instr) := []
  site : Site := {}
  progress : Nat := 0
  turn : Bool := false
  tick : Nat := 0
  lastCore : Nat := 0
  eventNo : Nat := 0
  deriving DecidableEq, Repr

/-- The machine right after reset (R484): no launch, no crew bound, every register of the control blocks at the reset
value its table gives, memory with nothing listed. -/
def State.reset : State := {}

/-- What a byte of memory that nothing has written reads as (log entry 1). -/
def memDefault : Byte := 0

/-- The canonical form of memory: addresses strictly rising and no entry equal to what an unlisted address reads as. -/
abbrev Memory.wf (m : List Host.Cell) : Prop := smWf memDefault m = true

end Sys2Proof.Machine
end

