-- ==== Sys2Proof/Machine/Operands.lean ====
section
/-! DEFINITION. What each word uses and which encodings of it are legal: its pipe, whether it is long-latency and
guardable, how it takes IMX, the type and other codes it accepts, the registers it reads and writes (the chapters'
encoding tables; spec/02_clauses_and_encoding.md R60 to R79, R84, R85). -/

namespace Sys2Proof.Machine

/-- The pipes of R60; a prefix and a step that is no word belong to none. -/
inductive Pipe
  | s | v | m | x | none
  deriving DecidableEq, Repr

/-- How a word takes IMX (R73): not at all, as its immediate field (with the field's bits above bit 7), as a byte
offset, or as ordering fields (with the check its chapter gives them). -/
inductive ImxUse
  | no
  | field (high : Nat)
  | offset
  | order (bad : BitVec 24 → Bool)

/-- A group of registers: first register, count, and the multiple the first must be (R68, R79). -/
abbrev Span := Nat × Nat × Nat

/-- What one word uses. `op` says that its codes are accepted (ILL.OP otherwise), `rsv` that a reserved value is
present (ILL.RSV), `regBad` that a rule of its own on registers is broken (ILL.REG). `vall` is read in every lane,
`vchk` only checked for legality. -/
structure Usage where
  pipe : Pipe
  longLat : Bool := false
  guardable : Bool := false
  imx : ImxUse := .no
  priv : Bool := false
  engine : Bool := false
  op : Bool := true
  rsv : Bool := false
  regBad : Bool := false
  vr : List Span := []
  vw : List Span := []
  vall : List Span := []
  vchk : List Span := []
  sr : List Span := []
  sw : List Span := []
  pr : List Nat := []
  pw : List Nat := []
  scc : Bool := false
  cross : Bool := false
  counted : Bool := false
  ends : Bool := false
  copy : Bool := false

/-- A single register. -/
def one {n : Nat} (r : BitVec n) : Span := (r.toNat, 1, 1)

/-- A group of `k` registers starting at a multiple of `k`. -/
def grp {n : Nat} (k : Nat) (r : BitVec n) : Span := (r.toNat, k, k)

/-- Registers per operand of a floating-point T code (R69, R213). -/
def fWide (t : BitVec 3) : Nat := if t = 1 then 2 else 1

/-- Registers per operand of an integer T code (R69, R228). -/
def iWide (t : BitVec 3) : Nat := if t = 2 ∨ t = 3 then 2 else 1

/-- Registers per lane of a SZ code (R70). -/
def szRegs (z : BitVec 3) : Nat := if z = 3 then 2 else if z = 4 then 4 else 1

/-- Bytes per lane of a SZ code (R70). -/
def szBytes (z : BitVec 3) : Nat := 2 ^ z.toNat

/-- A T code of .f32 .f64 .f16 .bf16. -/
def fT4 (t : BitVec 3) : Bool := t.toNat < 4

/-- A T code of .f32 .f16 .bf16. -/
def fT3 (t : BitVec 3) : Bool := t.toNat < 4 && t ≠ 1

/-- A T code of .f32 .f64 .f16 .bf16 .e4m3 .e5m2. -/
def fT6 (t : BitVec 3) : Bool := t.toNat < 6

/-- A T code of .i32 .n32 .i64 .n64. -/
def iT4 (t : BitVec 3) : Bool := t.toNat < 4

/-- A scalar word of S3 format: `sD := sA op sB`. -/
def uS3 (op : Bool) (d a b : BitVec 6) : Usage :=
  { pipe := .s, op := op, sr := [one a, one b], sw := [one d] }

/-- A scalar word with one source. -/
def uS2 (d a : BitVec 6) : Usage := { pipe := .s, sr := [one a], sw := [one d] }

/-- A branch with OFF20. -/
def uBr (o : BitVec 20) : Usage := { pipe := .s, imx := .field (o.toNat / 256) }

/-- A vector word `vD := vA op vB` whose operands take `w` registers. -/
def uV3 (op : Bool) (w : Nat) (d a b : BitVec 7) : Usage :=
  { pipe := .v, guardable := true, op := op, vr := [grp w a, grp w b], vw := [grp w d] }

/-- A vector word that also reads vD. -/
def uV3d (op : Bool) (w : Nat) (d a b : BitVec 7) : Usage :=
  { uV3 op w d a b with vr := [grp w a, grp w b, grp w d] }

/-- A vector word with one source. -/
def uV2 (op : Bool) (wd wa : Nat) (d a : BitVec 7) : Usage :=
  { pipe := .v, guardable := true, op := op, vr := [grp wa a], vw := [grp wd d] }

/-- A per-lane memory word of MEM format (R249, R250): the base pair and the offset register are read. -/
def uMem (z : BitVec 3) (o : BitVec 7) (s : BitVec 5) : Usage :=
  { pipe := .m, longLat := true, guardable := true, imx := .offset, op := z.toNat < 5, counted := true, vr := [one o], sr := [(2 * s.toNat, 2, 2)] }

/-- A load with destination VD; a sign extension asks for a size of 1 or 2 bytes (R250). -/
def uLoad (z : BitVec 3) (d o : BitVec 7) (s : BitVec 5) (g : BitVec 1) : Usage :=
  { uMem z o s with rsv := g = 1 && !(z.toNat < 2), vw := [grp (szRegs z) d] }

/-- A store of VD. -/
def uStore (z : BitVec 3) (d o : BitVec 7) (s : BitVec 5) : Usage :=
  { uMem z o s with vr := [one o, grp (szRegs z) d] }

/-- SCOPE in IMM24 of an atomic word (R296). -/
def atScope (i : BitVec 24) : BitVec 3 := i.extractLsb' 19 3

/-- The illegal orderings of R296: a reserved scope, a scope without ACQ or REL, ACQ or SPAD where the word has none. -/
def atBad (noAcq noSpad : Bool) (i : BitVec 24) : Bool :=
  atScope i = 7 || (atScope i ≠ 0 && !i.getLsbD 23 && !i.getLsbD 22) || (noAcq && i.getLsbD 23) || (noSpad && i.getLsbD 18)

/-- An atomic word (R294, R295). -/
def uAt (op noAcq noSpad : Bool) (o : BitVec 7) (s : BitVec 5) : Usage :=
  { pipe := .m, longLat := true, guardable := true, imx := .order (atBad noAcq noSpad), op := op, counted := true, vr := [one o], sr := [(2 * s.toNat, 2, 2)] }

/-- Registers of an atomic operand. -/
def atRegs (w : BitVec 1) : Nat := if w = 1 then 2 else 1

/-- A pop or a try (R143): `n + 1` registers are written, with a predicate. -/
def uPop (v : BitVec 7) (n : BitVec 5) (p : BitVec 3) : Usage :=
  { pipe := .m, ends := true, vw := [(v.toNat, n.toNat + 1, 1)], pw := [p.toNat] }

/-- The user system registers (R158). -/
def sysUser (n : Nat) : Bool :=
  n < 0x00B || n == 0x00C || n == 0x00E || n == 0x010 || n == 0x012 || (0x020 ≤ n && n ≤ 0x060)

/-- The supervisor system registers (R159). -/
def sysSup (n : Nat) : Bool :=
  n == 0x100 || n == 0x102 || n == 0x104 || n == 0x106 || (0x120 ≤ n && n ≤ 0x13F) || n == 0x140 || n == 0x142 ||
  n == 0x144 || n == 0x145

/-- The 64-bit system registers, read and written through a pair (R158, R159). -/
def sysWide (n : Nat) : Bool :=
  n == 0x00C || n == 0x010 || n == 0x100 || n == 0x102 || n == 0x104 || n == 0x142

/-- The illegal orderings of R451. -/
def fabBad (noAcq : Bool) (i : BitVec 24) : Bool :=
  i.extractLsb' 0 19 ≠ 0 || atScope i = 7 || (atScope i ≠ 0 && !i.getLsbD 23 && !i.getLsbD 22) || (noAcq && i.getLsbD 23)

/-- A remote word (R449, R450): the lanes of its registers that count are those of its own predicate, so they are checked
for their names here, and for hazards in the word. -/
def uFab (op noAcq : Bool) (a d : BitVec 7) (w : BitVec 1) (p : BitVec 3) : Usage :=
  { pipe := .x, ends := true, imx := .order (fabBad noAcq), op := op, vchk := [grp 2 a, grp (atRegs w) d], pr := [p.toNat] }

/-- The illegal orderings of R506. -/
def compBad (noRel : Bool) (i : BitVec 24) : Bool := fabBad false i || (noRel && i.getLsbD 22)

/-- A word of the launch or compositing engine: X pipe, on control cores too (R180, R505). -/
def uDie : Usage := { pipe := .x, ends := true }

/-- A type code of an accepted FCVT destination (R225). -/
def cvtWide (x : BitVec 4) : Nat := if x = 1 then 2 else 1

/-- The fields of a PACK group: SZ 0, 1, 2 give 2, 4, 8 (R237). -/
def packN (z : BitVec 2) : Nat := 2 ^ (z.toNat + 1)

/-- SCOPE without ACQ or REL, or the reserved scope (R32, R321, R349). -/
def scopeBad (acq rel : BitVec 1) (s : BitVec 3) : Bool := s = 7 || (acq = 0 && rel = 0 && s ≠ 0)

/-- The scalar pairs that a stochastic rounding reads (R226). -/
def srPairs (m : BitVec 3) : List Span := if m = 4 then [(56, 2, 2), (58, 2, 2)] else []

/-- A matrix word (R348): X pipe, not on a control core, ending a quantum (R273). -/
def uX : Usage := { pipe := .x, engine := true, ends := true }

/-- The step depth of a matrix type code (R350). -/
def matK (t : Nat) : Nat := if t < 3 then 32 else if t < 5 then 16 else if t < 7 then 8 else if t = 7 then 1 else if t < 10 then 16 else 32

/-- Two matrix type codes pair (R350). -/
def matPair (x y : Nat) : Bool :=
  x < 12 && y < 12 && decide (8 ≤ x) == decide (8 ≤ y) && matK x == matK y && decide (x = 7) == decide (y = 7)

/-- The word decodes, but its sub-code is one that its chapter's table calls unassigned: SCMP's conditions 6 and 7 (R85, R132). An operation,
selector or condition code that a chapter says raises ILL.OP without calling it a sub-code counts as a code that an assigned
word does not accept (DEDUCED, log entry 77). -/
def subUnassigned : Instr → Bool
  | .scmp _ _ _ _ k => 6 ≤ k.toNat
  | .amo o _ _ _ _ => 12 ≤ o.toNat
  | .red o _ _ _ _ => 12 ≤ o.toNat || o = 5
  | _ => false

/-- What a word uses, from the encoding tables of the chapters; a step that is no word uses nothing. -/
def usage : Instr → Usage
  -- prefixes and sequencer words (R61, R72, R132)
  | .nop => { pipe := .s }
  | .imx _ => { pipe := .none }
  | .grd _ p => { pipe := .none, pr := [p.toNat] }
  | .bra o => uBr o
  | .brs k o => { uBr o with op := k.toNat < 10 }
  | .brv _ p o => { uBr o with pr := [p.toNat] }
  | .call o => { uBr o with sw := [(62, 2, 2)] }
  | .ret a => { pipe := .s, sr := [grp 2 a] }
  | .mark o => uBr o
  | .join => { pipe := .s }
  | .elseW => { pipe := .s }
  | .exit => { pipe := .s }
  | .sadd t d a b => uS3 (t.toNat < 2) d a b
  | .ssub t d a b => uS3 (t.toNat < 2) d a b
  | .smul t d a b => uS3 (t.toNat < 2) d a b
  | .smulh t d a b => uS3 (t.toNat < 2) d a b
  | .sdiv t d a b => uS3 (t.toNat < 2) d a b
  | .smin t d a b => uS3 (t.toNat < 2) d a b
  | .smax t d a b => uS3 (t.toNat < 2) d a b
  | .sand d a b => uS3 true d a b
  | .sor d a b => uS3 true d a b
  | .sxor d a b => uS3 true d a b
  | .sshl d a b => uS3 true d a b
  | .sshr d a b => uS3 true d a b
  | .ssra d a b => uS3 true d a b
  | .ssel d a b => { uS3 true d a b with sr := [one a, one b, one d] }
  | .smov d a => uS2 d a
  | .scmp t d a b k => { uS3 (t.toNat < 2 && k.toNat < 6) d a b with scc := true }
  | .sadd64 d a b => { pipe := .s, sr := [grp 2 a, grp 2 b], sw := [grp 2 d] }
  | .sli d i => { pipe := .s, imx := .field (i.toNat / 256), sw := [one d] }
  | .saddImmediate d a i => { uS2 d a with imx := .field (i.toNat / 256) }
  | .sshlImmediate d a _ => uS2 d a
  | .sshrImmediate d a _ => uS2 d a
  | .ssraImmediate d a _ => uS2 d a
  | .slane d b a => { uS2 d b with vchk := [one a] }
  | .sbcast a d => { pipe := .s, sr := [one a], vw := [one d] }
  | .voteAny d p => { pipe := .s, sw := [one d], pr := [p.toNat] }
  | .voteAll d p => { pipe := .s, sw := [one d], pr := [p.toNat] }
  | .voteBallot d a p => { uS2 d a with pr := [p.toNat] }
  | .popm d p => { pipe := .s, sw := [one d], pr := [p.toNat] }
  | .bar _ => { pipe := .s, ends := true }
  | .arrive d _ => { pipe := .s, ends := true, sw := [one d] }
  | .await a _ => { pipe := .s, ends := true, sr := [one a] }
  | .prio _ => { pipe := .s }
  | .yield => { pipe := .s }
  | .sysr d n => { pipe := .s, op := sysUser n.toNat || sysSup n.toNat, priv := 0x100 ≤ n.toNat, sw := [if sysWide n.toNat then grp 2 d else one d] }
  | .sysw a n => { pipe := .s, op := sysUser n.toNat || sysSup n.toNat, priv := 0x100 ≤ n.toNat, sr := [if sysWide n.toNat then grp 2 a else one a], scc := n = 0x008 }
  | .trap _ => { pipe := .s }
  | .tfence => { pipe := .s }
  | .tret => { pipe := .s, priv := true }
  | .reform k => { pipe := .s, ends := true, vr := [one k] }
  -- queue words (R143)
  | .qbind _ a => { pipe := .m, ends := true, sr := [one a] }
  | .qpush _ v n => { pipe := .m, guardable := true, ends := true, vr := [(v.toNat, n.toNat + 1, 1)] }
  | .qpushTeam _ v n => { pipe := .m, ends := true, vchk := [(v.toNat, n.toNat + 1, 1)] }
  | .qpop _ v n p => uPop v n p
  | .qpopTeam _ v n p => uPop v n p
  | .qtry _ v n p => uPop v n p
  | .qtryTeam _ v n p => uPop v n p
  -- vector words (R215)
  | .fadd t d a b => uV3 (fT4 t) (fWide t) d a b
  | .fsub t d a b => uV3 (fT4 t) (fWide t) d a b
  | .fmul t d a b => uV3 (fT4 t) (fWide t) d a b
  | .ffma t d a b => uV3d (fT4 t) (fWide t) d a b
  | .fmin t d a b => uV3 (fT4 t) (fWide t) d a b
  | .fmax t d a b => uV3 (fT4 t) (fWide t) d a b
  | .fdiv t d a b => uV3 (fT4 t) (fWide t) d a b
  | .fdot2 t d a b => uV3d (t = 2 || t = 3) 1 d a b
  | .fsgn t d a b => uV3 (fT6 t) (fWide t) d a b
  | .fsgnNeg t d a b => uV3 (fT6 t) (fWide t) d a b
  | .fsgnXor t d a b => uV3 (fT6 t) (fWide t) d a b
  | .fcmp t k p a b => { pipe := .v, guardable := true, op := fT4 t && k.toNat < 8, vr := [grp (fWide t) a, grp (fWide t) b], pw := [p.toNat] }
  | .frcp d a t => uV2 (fT4 t) (fWide t) (fWide t) d a
  | .frsq d a t => uV2 (fT4 t) (fWide t) (fWide t) d a
  | .fsqrt d a t => uV2 (fT4 t) (fWide t) (fWide t) d a
  | .fex2 d a t => uV2 (fT3 t) 1 1 d a
  | .flg2 d a t => uV2 (fT3 t) 1 1 d a
  | .fsin d a t => uV2 (fT3 t) 1 1 d a
  | .fcos d a t => uV2 (fT3 t) 1 1 d a
  | .fclass d a t => uV2 (fT6 t) 1 (fWide t) d a
  | .frnd d a t m => { uV2 (fT4 t && m ≠ 4) (fWide t) (fWide t) d a with rsv := 5 ≤ m.toNat }
  | .fcvt d a t x m => { uV2 (fT6 t && x.toNat < 10) (cvtWide x) (fWide t) d a with rsv := 5 ≤ m.toNat, sr := srPairs m }
  | .icvt d a r f i m => { uV2 (f.toNat < 4 && m ≠ 4) (if r = 0 then fWide f else iWide i) (if r = 0 then iWide i else fWide f) d a with rsv := 5 ≤ m.toNat }
  | .iadd t d a b => uV3 (iT4 t) (iWide t) d a b
  | .isub t d a b => uV3 (iT4 t) (iWide t) d a b
  | .imul t d a b => uV3 (iT4 t) (iWide t) d a b
  | .imulh t d a b => uV3 (iT4 t) (iWide t) d a b
  | .imad t d a b => uV3d (iT4 t) (iWide t) d a b
  | .imin t d a b => uV3 (iT4 t) (iWide t) d a b
  | .imax t d a b => uV3 (iT4 t) (iWide t) d a b
  | .ishl t d a b => { uV3 (iT4 t) (iWide t) d a b with vr := [grp (iWide t) a, one b] }
  | .ishr t d a b => { uV3 (iT4 t) (iWide t) d a b with vr := [grp (iWide t) a, one b] }
  | .isra t d a b => { uV3 (iT4 t) (iWide t) d a b with vr := [grp (iWide t) a, one b] }
  | .iand t d a b => uV3 (iT4 t) (iWide t) d a b
  | .ior t d a b => uV3 (iT4 t) (iWide t) d a b
  | .ixor t d a b => uV3 (iT4 t) (iWide t) d a b
  | .icmp t k p a b => { pipe := .v, guardable := true, op := iT4 t && k.toNat < 6, vr := [grp (iWide t) a, grp (iWide t) b], pw := [p.toNat] }
  | .iabs d a t => uV2 (t = 0 || t = 2) (iWide t) (iWide t) d a
  | .inot d a t => uV2 (iT4 t) (iWide t) (iWide t) d a
  | .ipop d a t => uV2 (iT4 t) 1 (iWide t) d a
  | .iclz d a t => uV2 (iT4 t) 1 (iWide t) d a
  | .vsel p d a b => { uV3 true 1 d a b with pr := [p.toNat] }
  | .vmov t d a => uV2 (t = 1 || t = 3) (iWide t) (iWide t) d a
  | .vli d i => { pipe := .v, guardable := true, imx := .field (i.toNat / 256), vw := [one d] }
  | .lperm t d a b => { uV3 (t = 1 || t = 3) (iWide t) d a b with vr := [one b], vall := [grp (iWide t) a], cross := true }
  | .lred d a k t o => { uV2 (t.toNat < 4 && (if k = 1 then o.toNat < 3 else o.toNat < 6)) (if k = 1 then fWide t else iWide t) (if k = 1 then fWide t else iWide t) d a with cross := true }
  | .lscan d a k t o _ => { uV2 (t.toNat < 4 && (if k = 1 then o.toNat < 3 else o.toNat < 6)) (if k = 1 then fWide t else iWide t) (if k = 1 then fWide t else iWide t) d a with cross := true }
  | .sgnq d a b => { uV3 true 1 d a b with vw := [one d, one a, one b], cross := true, regBad := d = a || d = b || a = b }
  | .sgnx d a b => uV3 true 1 d a b
  | .pack d a z s g => { uV2 (z ≠ 3) 1 (packN z) d a with rsv := g = 1 && s = 0 }
  | .unpk d a z _ => uV2 (z ≠ 3) (packN z) 1 d a
  -- load-store words (R249, R250)
  | .ld z d o s g _ => uLoad z d o s g
  | .st z d o s _ => uStore z d o s
  | .lds z d o s g => uLoad z d o s g
  | .sts z d o s => uStore z d o s
  | .ldk z d s g _ => { pipe := .m, longLat := true, imx := .offset, op := z.toNat < 5, counted := true, rsv := g = 1 && !(z.toNat < 2), sr := [(2 * s.toNat, 2, 2)], sw := [grp (szRegs z) d] }
  | .ldb z d o s g _ => uLoad z d o s g
  | .pref o s l => { pipe := .m, guardable := true, imx := .offset, rsv := l = 3, vr := [one o], sr := [(2 * s.toNat, 2, 2)] }
  | .fenceAcq s => { pipe := .m, rsv := s = 7, ends := true }
  | .fenceRel s => { pipe := .m, rsv := s = 7, ends := true }
  | .fenceAr s => { pipe := .m, rsv := s = 7, ends := true }
  | .cinv s a b => { pipe := .m, longLat := true, rsv := s = 7, ends := true, sr := [grp 2 a, one b] }
  | .cwb s a b => { pipe := .m, longLat := true, rsv := s = 7, ends := true, sr := [grp 2 a, one b] }
  | .rrinv a b => { pipe := .m, longLat := true, ends := true, sr := [grp 2 a, one b] }
  | .spchk d => { pipe := .m, sw := [one d] }
  | .mwait t d a b s => { pipe := .m, op := t = 1 || t = 3, rsv := s = 7, ends := true, sr := [grp 2 a, grp (iWide t) b], sw := [grp (iWide t) d] }
  | .pmap d => { pipe := .m, longLat := true, priv := true, vw := [one d] }
  | .pmapRd d => { pipe := .m, longLat := true, priv := true, vw := [grp 2 d] }
  | .pmiss => { pipe := .m, priv := true, ends := true }
  | .pret => { pipe := .m, priv := true }
  -- atomic words (R294, R295)
  | .amo o w d v s => { uAt (o.toNat < 12) false false v s with vr := [one v, grp (atRegs w) d], vw := [grp (atRegs w) d] }
  | .acas w d v s => { uAt true false false v s with vr := [one v, grp (2 * atRegs w) d], vw := [grp (atRegs w) d] }
  | .acas2 d v s => { uAt true false false v s with vr := [one v, grp 8 d], vw := [grp 4 d] }
  | .red o w d v s => { uAt (o.toNat < 12 && o ≠ 5) true false v s with vr := [one v, grp (atRegs w) d] }
  | .redx w d v s => { uAt true true true v s with vr := [one v, grp (atRegs w) d] }
  | .ald w d v s => { uAt true false false v s with vw := [grp (atRegs w) d] }
  | .ast w d v s => { uAt true true false v s with vr := [one v, grp (atRegs w) d] }
  | .apin o v s => { pipe := .m, guardable := true, op := o.toNat < 3, imx := .order fun i => i.extractLsb' 18 6 ≠ 0, vr := [one v], sr := [(2 * s.toNat, 2, 2)] }
  -- copy words (R320, R321)
  | .rbind _ a _ q s => { pipe := .m, ends := true, copy := true, rsv := scopeBad q 0 s, sr := [grp 2 a] }
  | .rdrain _ a t r _ q l s => { pipe := .m, longLat := true, ends := true, copy := true, rsv := scopeBad q l s || (a = 0 && (t ≠ 0 || r ≠ 0)) }
  | .rwait _ => { pipe := .m, ends := true, copy := true }
  | .rfree _ => { pipe := .m, ends := true, copy := true }
  | .rstat _ d => { pipe := .m, ends := true, copy := true, sw := [one d] }
  | .cyield o => { pipe := .m, imx := .field (o.toNat / 256), ends := true, copy := true }
  | .cyieldOff => { pipe := .m, ends := true, copy := true }
  | .rseed a b => { pipe := .m, ends := true, copy := true, sr := [grp 2 a, grp 2 b] }
  -- matrix words (R348 to R350)
  | .mclaim k d a => { uX with op := k ≠ 3, sr := [one a], sw := [one d] }
  | .mrelease k a => { uX with op := k ≠ 3, sr := [one a] }
  | .mgang a => { uX with sr := [one a] }
  | .mstat d a => { uX with sr := [one a], sw := [grp 2 d] }
  | .mload a b q s => { uX with longLat := true, rsv := scopeBad q 0 s, sr := [grp 2 a, one b] }
  | .mloadc a b q s => { uX with longLat := true, rsv := scopeBad q 0 s, sr := [(a.toNat, 4, 4), one b] }
  | .mtable a i q s => { uX with op := i.toNat < 4, rsv := scopeBad q 0 s, sr := [grp 2 a] }
  | .mcbook a _ _ q s => { uX with longLat := true, rsv := scopeBad q 0 s, sr := [grp 2 a] }
  | .mma _ a x y => { uX with longLat := true, op := matPair x.toNat y.toNat, sr := [one a] }
  | .mmac _ a x => { uX with longLat := true, op := x.toNat < 12, sr := [one a] }
  | .mzero _ => uX
  | .mrd _ v d a => { uX with op := v ≠ 3, vw := [if v = 0 then grp 2 d else one d], sr := [one a] }
  | .mwr _ v d a => { uX with op := v ≠ 3, vr := [if v = 0 then grp 2 d else one d], sr := [one a] }
  | .mst a b _ t m l s => { uX with longLat := true, op := t ≠ 7 && !((t = 0 || t = 6) && 1 ≤ m.toNat && m.toNat ≤ 4), rsv := 5 ≤ m.toNat || scopeBad 0 l s, sr := [grp 2 a, one b] ++ srPairs m }
  | .mtrq a m => { uX with longLat := true, op := !(1 ≤ m.toNat && m.toNat ≤ 3), rsv := 5 ≤ m.toNat, sr := [one a] ++ srPairs m }
  | .mfence => uX
  -- ray words (R391, R392)
  | .hbind _ a k s => { uX with rsv := scopeBad k 0 s, sr := [grp 2 a] }
  | .hlog _ a => { uX with sr := [(a.toNat, 4, 4)] }
  | .hreplay _ v k s => { uX with rsv := scopeBad k 0 s, vr := [one v] }
  | .hstat d _ s => { uX with op := s.toNat < 4, sw := [one d] }
  | .hinv a b => { uX with longLat := true, sr := [grp 2 a, one b] }
  | .hinvAll => { uX with longLat := true }
  -- fabric words (R449 to R452)
  | .rstw w a d p => uFab true true a d w p
  | .rred w a d o p => uFab (o.toNat < 13 && o ≠ 5) true a d w p
  | .ramo w a d o p => uFab (o.toNat < 12) false a d w p
  | .aflush d a => { pipe := .x, ends := true, sr := [one a], sw := [one d] }
  | .aflushAll d => { pipe := .x, ends := true, sw := [one d] }
  | .afstatFail d => { pipe := .x, ends := true, sw := [one d] }
  | .afstatPend d => { pipe := .x, ends := true, sw := [one d] }
  | .rsvs d _ a => { pipe := .x, ends := true, sr := [grp 2 a], sw := [one d] }
  | .rsvsRet _ => { pipe := .x, ends := true }
  | .rrpush _ _ p => { pipe := .x, ends := true, imx := .order (fabBad true), pr := [p.toNat] }
  -- launch words (R180 to R184)
  | .launch d a _ _ s => { uDie with longLat := true, rsv := s = 7, sr := [grp 2 a], sw := [grp 2 d] }
  | .evsig a s => { uDie with longLat := true, rsv := s = 7, sr := [one a] }
  | .evadd a b s => { uDie with longLat := true, rsv := s = 7, sr := [one a, one b] }
  | .evwait a b s => { uDie with rsv := s = 7, sr := [one a, one b] }
  | .idemClr => uDie
  | .idemRd d => { uDie with sw := [one d] }
  | .rqbindAttach a => { uDie with longLat := true, sr := [one a] }
  | .rqbindDetach a => { uDie with longLat := true, sr := [one a] }
  | .rqbindStat d a => { uDie with longLat := true, sr := [one a], sw := [one d] }
  -- compositing words (R505, R506)
  | .cplan d a => { uDie with longLat := true, imx := .order (compBad true), sr := [grp 2 a], sw := [grp 2 d] }
  | .cplanFree a => { uDie with sr := [one a] }
  | .cstart a => { uDie with imx := .order (compBad false), sr := [one a] }
  | .cwait d a => { uDie with imx := .order (compBad true), sr := [one a], sw := [one d] }
  | .cstat d a x => { uDie with op := x.toNat < 4, sr := [one a], sw := [one d] }
  | .ccancel a => { uDie with sr := [one a] }
  | .tenc d a b t => { uDie with longLat := true, imx := .order (compBad false), op := t.toNat < 4, sr := [grp 2 a, grp 2 b], sw := [one d] }
  | .tdec d a b => { uDie with longLat := true, imx := .order (compBad false), sr := [grp 2 a, grp 2 b], sw := [one d] }
  -- prefixes, and steps that are no word
  | _ => { pipe := .none }

end Sys2Proof.Machine
end

