-- ==== Sys2Proof/Machine/Memory.lean ====
section
/-! DEFINITION. Bytes of memory at the home, and the levels between a core and the home: write buffer, L1, L2
(spec/07_load_store_and_translation.md R241 to R248, R262, R263). -/

namespace Sys2Proof.Machine

/-- A physical address of device memory: 192 GiB behind each of four base dies (R242). -/
def isHbm (pa : Nat) : Bool := pa / 2 ^ 38 < 4 && pa % 2 ^ 38 < 0x3000000000

/-- A physical address of host memory (R242). -/
def isHost (pa : Nat) : Bool := 2 ^ 51 ≤ pa && pa < 2 ^ 52

/-- A physical address that the map gives a target (R242). -/
def isMapped (pa : Nat) : Bool := isHbm pa || isHost pa

/-- One byte at its home. -/
def homeByte (s : State) (pa : Nat) : Byte := smGet memDefault s.mem pa

/-- A line of HBM that an access of its home touches is in its home LLC slice from then on (R2, R244); what it holds is the home's bytes, since
the LLC is memory-side (log entry 10). -/
def llcTouch (llc : List Nat) (line : Nat) : List Nat :=
  if llc.head? = some line || !isHbm (line * 128) then llc else line :: llc.filter (· ≠ line)

/-- Write one byte at its home; a write overwrites poison (R45). -/
def setHomeByte (s : State) (pa : Nat) (b : Byte) : State :=
  { s with mem := smSet memDefault s.mem pa b, poison := smSet false s.poison pa false, llc := llcTouch s.llc (pa / 128) }

/-- `n` bytes at the home. -/
def homeBytes (s : State) (pa n : Nat) : List Byte := (List.range n).map fun k => homeByte s (pa + k)

/-- Write bytes at the home, from the lowest address up. -/
def setHomeBytes (s : State) (pa : Nat) : List Byte → State
  | [] => s
  | b :: r => setHomeBytes (setHomeByte s pa b) (pa + 1) r

/-- A 64-bit word at the home. -/
def home64 (s : State) (pa : Nat) : W64 := BitVec.ofNat 64 (leNat (homeBytes s pa 8))

/-- Write a 64-bit word at the home. -/
def setHome64 (s : State) (pa : Nat) (v : W64) : State := setHomeBytes s pa (leBytes v.toNat 8)

/-- A 32-bit word at the home. -/
def home32 (s : State) (pa : Nat) : W32 := BitVec.ofNat 32 (leNat (homeBytes s pa 4))

/-- Write a 32-bit word at the home. -/
def setHome32 (s : State) (pa : Nat) (v : W32) : State := setHomeBytes s pa (leBytes v.toNat 4)

/-- A byte reads as poison at the home: its line is uncorrectable there, which lasts until every byte of the line has been overwritten (R45,
R254, R329; log entry 9). -/
def isPoison (s : State) (pa : Nat) : Bool := (List.range 128).any fun k => smGet false s.poison (pa / 128 * 128 + k)

/-- Some of `n` bytes are poisoned. -/
def anyPoison (s : State) (pa n : Nat) : Bool := (List.range n).any fun k => isPoison s (pa + k)

/-- The die, and a core of it. -/
def State.die (s : State) (d : Nat) : Die := smGet {} s.dies d

/-- Replace a die. -/
def State.setDie (s : State) (d : Nat) (v : Die) : State := { s with dies := smSet {} s.dies d v }

/-- The cycles that the first steps after a die's reset took beyond one each (log entry 4). -/
def extraUpTo (d : Nat) : Nat → Nat
  | 0 => 0
  | n + 1 => extraUpTo d n + Config.extraCycles (8 * n + d)

/-- A die's cycle counter (R47). -/
def State.now (s : State) (d : Nat) : Nat := (s.die d).clock + extraUpTo d (s.die d).clock

/-- Key of a core of a die (cores 0 to 39, control cores 40 to 47). -/
def coreKey (d k : Nat) : Nat := d * 48 + k

/-- A core. -/
def State.core (s : State) (k : Nat) : Core := smGet {} s.cores k

/-- Replace a core. -/
def State.setCore (s : State) (k : Nat) (v : Core) : State := { s with cores := smSet {} s.cores k v }

/-- A crew. -/
def State.crew (s : State) (c : Nat) : Crew := smGet {} s.crews c

/-- Replace a crew. -/
def State.setCrew (s : State) (c : Nat) (v : Crew) : State := { s with crews := smSet {} s.crews c v }

/-- Byte `k` of a line. -/
def LineCopy.byte (l : LineCopy) (k : Nat) : Byte := (l.data >>> (8 * k)).setWidth 8

/-- Put a byte into a line, spoiled or good. -/
def LineCopy.put (l : LineCopy) (k : Nat) (b : Byte) (dirty : Bool) (bad : Bool := false) : LineCopy :=
  {
    data := (l.data &&& ~~~((0xFF#1024) <<< (8 * k))) ||| (b.setWidth 1024 <<< (8 * k)),
    valid := l.valid ||| (1#128 <<< k),
    dirty := if dirty then l.dirty ||| (1#128 <<< k) else l.dirty,
    bad := if bad then l.bad ||| (1#128 <<< k) else l.bad &&& ~~~(1#128 <<< k) }

/-- The spoiled bytes of a line as read through a copy over what lies below it. -/
def LineCopy.marksOver (l : LineCopy) (below : BitVec 128) : BitVec 128 := (l.bad &&& l.valid) ||| (below &&& ~~~l.valid)

/-- The spoiled bytes of a line at its home. -/
def homeMarks (s : State) (line : Nat) : BitVec 128 :=
  (s.poison.filter fun e => e.1 / 128 = line && e.2).foldl (fun m e => m ||| (1#128 <<< (e.1 % 128))) 0

/-- The clusters of the cores that a crew takes, as die and number; control cores lie in none (R16, R163, R170). -/
def Crew.clusters (c : Crew) : List (Nat × Nat) :=
  ((coreKey c.die c.core :: c.spots.map Prod.fst).filter fun k => k % 48 < 40).map fun k => (k / 48, k % 48 / 8)

/-- A crew is bound to a core of a cluster (R163, R170). -/
def Crew.boundTo (c : Crew) (cluster : Nat × Nat) : Bool :=
  (c.state == .run || c.state == .starting || c.state == .restoring || c.state == .saving || c.state == .dropping) &&
  c.clusters.contains cluster

/-- The L1s of the cluster of core `k` of die `d` are fused (R245). -/
def fusedCluster (s : State) (d k : Nat) : Bool := decide (k < 40) && (s.die d).fused.contains (k / 8)

/-- The core whose L1 serves a line for core `k` of die `d`: its own, or the slice that the line's address selects when
the cluster is fused (R244, R245). -/
def l1Home (s : State) (d k line : Nat) : Nat :=
  if fusedCluster s d k then coreKey d (k / 8 * 8 + line % 8) else coreKey d k

/-- The line `line` of the home as a full copy. -/
def homeLineCopy (s : State) (line : Nat) : LineCopy :=
  {
    data := BitVec.ofNat 1024 (leNat (homeBytes s (line * 128) 128)), valid := BitVec.allOnes 128, dirty := 0, bad := homeMarks s line }

/-- The valid bytes of `a` over those of `b`. -/
def LineCopy.over (a b : LineCopy) : LineCopy :=
  {
    data := (List.range 128).foldl (fun d k => if a.valid.getLsbD k then (({ data := d } : LineCopy).put k (a.byte k) false).data else d) b.data,
    valid := a.valid ||| b.valid, dirty := b.dirty, bad := a.marksOver b.bad }

/-- Bring a line into a die's L2. -/
def fillL2 (s : State) (d line : Nat) : State :=
  let v := s.die d
  let c := smGet {} v.l2 line
  if c.valid = BitVec.allOnes 128 then s
  else { s.setDie d { v with l2 := smSet {} v.l2 line { (c.over (homeLineCopy s line)) with dirty := c.dirty } } with llc := llcTouch s.llc line }

/-- Bytes of a line that are dirty, written to `f`'s place one by one, each with whether it is spoiled. -/
def eachDirty (l : LineCopy) (line : Nat) (f : State → Nat → Byte → Bool → State) (s : State) : State :=
  (List.range 128).foldl (fun s k => if l.dirty.getLsbD k then f s (line * 128 + k) (l.byte k) (l.bad.getLsbD k) else s) s

/-- One dirty byte moves from a write buffer into L2. -/
def l2Byte (d : Nat) (s : State) (pa : Nat) (b : Byte) (bad : Bool) : State :=
  let v := s.die d
  s.setDie d { v with l2 := smSet {} v.l2 (pa / 128) ((smGet {} v.l2 (pa / 128)).put (pa % 128) b true bad) }

/-- Drain the line that arrived first of a core's write buffer into L2 (R244). -/
def drainHead (s : State) (d k : Nat) : State :=
  let ck := coreKey d k
  let c := s.core ck
  match c.wb with
  | [] => s
  | e :: r => eachDirty e.2 e.1 (l2Byte d) (s.setCore ck { c with wb := r })

/-- Drain the first `n` lines of a core's write buffer. -/
def drainFirst (d k : Nat) : Nat → State → State
  | 0, s => s
  | n + 1, s => drainFirst d k n (drainHead s d k)

/-- Drain a core's write buffer (R262). -/
def drainWb (s : State) (d k : Nat) : State := drainFirst d k (s.core (coreKey d k)).wb.length s

/-- How many lines of a write buffer arrived up to the last copy of a line. -/
def wbUpTo (line : Nat) : List (Nat × LineCopy) → Nat
  | [] => 0
  | e :: r => if wbUpTo line r = 0 then (if e.1 = line then 1 else 0) else wbUpTo line r + 1

/-- Drain one line of a core's write buffer into L2, after those that arrived before it. -/
def drainLine (s : State) (d k line : Nat) : State := drainFirst d k (wbUpTo line (s.core (coreKey d k)).wb) s

/-- The cores whose accesses the L1 of core `k` of die `d` serves (R244, R245). -/
def l1Sharers (s : State) (d k : Nat) : List Nat :=
  if fusedCluster s d k then (List.range 8).map fun j => k / 8 * 8 + j else [k]

/-- Bring a line into the L1 that serves it, by way of L2; what the write buffers of the cores that share that L1 hold
of the line reaches L2 first, so that the copy has their stores (R244, R266). -/
def fillL1 (s : State) (d k line : Nat) : State :=
  let h := l1Home s d k line
  if (smGet {} (s.core h).l1 line).valid = BitVec.allOnes 128 then s
  else
    let s := (l1Sharers s d k).foldl (fun s j => drainLine s d j line) s
    let s := fillL2 s d line
    let c := s.core h
    s.setCore h { c with l1 := smSet {} c.l1 line { (smGet {} (s.die d).l2 line) with dirty := 0 } }

/-- A byte of a line in a write buffer: that of the store that arrived last (R244). -/
def wbByte (wb : List (Nat × LineCopy)) (line j : Nat) : Option Byte :=
  wb.foldl (fun x e => if e.1 = line && e.2.valid.getLsbD j then some (e.2.byte j) else x) none

/-- A byte arrives in a write buffer: with the last line there when it is the same, else as a line of its own (R244). -/
def wbPut (line j : Nat) (b : Byte) : List (Nat × LineCopy) → List (Nat × LineCopy)
  | [] => [(line, ({} : LineCopy).put j b true)]
  | [e] => if e.1 = line then [(line, e.2.put j b true)] else [e, (line, ({} : LineCopy).put j b true)]
  | e :: r => e :: wbPut line j b r

/-- A byte as a plain load of core `k` of die `d` reads it: from the core's write buffer, its L1, the die's L2, the
home, whichever holds it first (R244, R266). -/
def plainByte (s : State) (d k pa : Nat) : Byte :=
  let line := pa / 128
  let j := pa % 128
  match wbByte (s.core (coreKey d k)).wb line j with
  | some b => b
  | none =>
    let c := smGet {} (s.core (l1Home s d k line)).l1 line
    if c.valid.getLsbD j then c.byte j
    else
      let l := smGet {} (s.die d).l2 line
      if l.valid.getLsbD j then l.byte j else homeByte s pa

/-- The spoiled bytes of a line as die `d` reads it below its L1s: through L2 over the home (R45, R244). -/
def dieMarks (s : State) (d line : Nat) : BitVec 128 := (smGet {} (s.die d).l2 line).marksOver (homeMarks s line)

/-- The spoiled bytes of a line as a plain load of core `k` of die `d` reads it: each byte from the level that serves it (R45, R244). -/
def plainMarks (s : State) (d k line : Nat) : BitVec 128 :=
  ((s.core (coreKey d k)).wb.filter fun e => e.1 = line).foldl (fun m e => e.2.marksOver m)
    ((smGet {} (s.core (l1Home s d k line)).l1 line).marksOver (dieMarks s d line))

/-- One of the lines that `n` bytes from `pa` on lie in has spoiled bytes. -/
def linesBad (marks : Nat → BitVec 128) (pa n : Nat) : Bool :=
  decide (n ≠ 0) && (List.range ((pa % 128 + n + 127) / 128)).any fun i => marks (pa / 128 + i) ≠ 0

/-- A plain load of core `k` of die `d` of `n` bytes returns poison: a line that it reads is uncorrectable where the load reads it (R45, R254;
log entry 9). -/
def plainPoison (s : State) (d k pa n : Nat) : Bool := linesBad (plainMarks s d k) pa n

/-- The same of a read of die `d` below its L1s. -/
def diePoison (s : State) (d pa n : Nat) : Bool := linesBad (dieMarks s d) pa n

/-- Bytes as a plain load reads them. -/
def plainBytes (s : State) (d k pa n : Nat) : List Byte := (List.range n).map fun j => plainByte s d k (pa + j)

/-- What other cores that share core `k`'s L1 hold of a line in their write buffers reaches L2, so that the L1 and L2 take the stores of a byte in
one order (R245, R266). -/
def drainOthers (s : State) (d k line : Nat) : State :=
  (l1Sharers s d k).foldl (fun s j => if j = k then s else drainLine s d j line) s

/-- A byte goes into a core's write buffer, and into the L1 that serves it where that holds the line; the line leaves the core's node cache (R244,
R420). The byte is good from then on where the store is seen (R45). -/
def storeOwn (s : State) (d k pa : Nat) (b : Byte) : State :=
  let line := pa / 128
  let j := pa % 128
  let ck := coreKey d k
  let c := s.core ck
  let s := s.setCore ck { c with wb := wbPut line j b c.wb, node := smSet none c.node line none }
  let h := l1Home s d k line
  let c := s.core h
  let old := smGet {} c.l1 line
  if old.valid = 0 then s else s.setCore h { c with l1 := smSet {} c.l1 line (old.put j b false) }

/-- A plain store of one byte. -/
def storeByte (s : State) (d k pa : Nat) (b : Byte) : State := storeOwn (drainOthers s d k (pa / 128)) d k pa b

/-- A plain store of bytes. -/
def storeBytes (s : State) (d k pa : Nat) : List Byte → State
  | [] => s
  | b :: r => storeBytes (storeByte s d k pa b) d k (pa + 1) r

/-- One byte moves back to its home, spoiled or good (R45). -/
def backByte (s : State) (pa : Nat) (b : Byte) (bad : Bool) : State :=
  { s with mem := smSet memDefault s.mem pa b, poison := smSet false s.poison pa bad, llc := llcTouch s.llc (pa / 128) }

/-- Write the dirty bytes of one L2 line to its home. -/
def writeBackLine (s : State) (d line : Nat) : State :=
  let v := s.die d
  let l := smGet {} v.l2 line
  eachDirty l line backByte (s.setDie d { v with l2 := smSet {} v.l2 line { l with dirty := 0 } })

/-- Write back every L2 line of a die (R262). -/
def writeBackL2 (s : State) (d : Nat) : State :=
  (s.die d).l2.foldl (fun s e => writeBackLine s d e.1) s

/-- Drop every line of an L1. -/
def dropL1 (s : State) (ck : Nat) : State := s.setCore ck { (s.core ck) with l1 := [] }

/-- Invalidate the L1 of a core, or its cluster's when fused (R262). -/
def invalL1 (s : State) (d k : Nat) : State :=
  if fusedCluster s d k then (List.range 8).foldl (fun s j => dropL1 s (coreKey d (k / 8 * 8 + j))) s
  else dropL1 s (coreKey d k)

/-- The fusion of a cluster becomes `on`; a change invalidates its eight L1s (R245). -/
def setFusion (s : State) (d cluster : Nat) (on : Bool) : State :=
  let v := s.die d
  if v.fused.contains cluster = on then s
  else
    let s := (List.range 8).foldl (fun s j => dropL1 s (coreKey d (cluster * 8 + j))) s
    s.setDie d { v with fused := if on then cluster :: v.fused else v.fused.filter (· ≠ cluster) }

/-- Before a crew is bound to its cores, and after it has left them, the fusion of each of its clusters that no other crew is bound to becomes
what `on` says: fusion changes only while no crew is bound (R245). -/
def settleFusion (s : State) (c : Crew) (on : Bool) : State :=
  c.clusters.foldl (fun s k => if s.crews.any fun e => e.2.boundTo k then s else setFusion s k.1 k.2 on) s

/-- FUSE of a crew's launch (R172). -/
def Crew.fuse (c : Crew) : Bool := (c.words.getD 4 0).getLsbD 42

/-- Write back and invalidate every L2 line of a die (R262). -/
def invalL2 (s : State) (d : Nat) : State :=
  let s := writeBackL2 s d
  s.setDie d { (s.die d) with l2 := [] }

/-- The write buffers of a core and of the cores that share its L1 drain: what the L1 shows them has to be at L2 (R262, R268). -/
def drainShared (s : State) (d k : Nat) : State := (l1Sharers s d k).foldl (fun s j => drainWb s d j) s

/-- The release actions of a scope for core `k` of die `d`, its Spindle buffers apart (R262). -/
def releaseAt (s : State) (d k : Nat) (scope : Nat) : State :=
  if scope < 2 then s
  else
    let s := drainShared s d k
    if scope < 4 then s else writeBackL2 s d

/-- Drop every line of a core's node cache (R420). -/
def dropNode (s : State) (ck : Nat) : State := s.setCore ck { (s.core ck) with node := [] }

/-- The copies of a line that core `k` of die `d` reads ahead of L2 go, after an engine stored the line in L2: a later
load of the core reads what the engine stored (R28, R266). -/
def dropCopies (d k : Nat) (s : State) (line : Nat) : State :=
  let h := l1Home s d k line
  let s := s.setCore h { (s.core h) with l1 := smSet {} (s.core h).l1 line {} }
  let ck := coreKey d k
  s.setCore ck { (s.core ck) with node := smSet none (s.core ck).node line none }

/-- The acquire actions of a scope (R262); the node cache goes with the L1 (R420). -/
def acquireAt (s : State) (d k : Nat) (scope : Nat) : State :=
  if scope < 2 then s
  else
    let s := dropNode s (coreKey d k)
    if scope = 2 then (if fusedCluster s d k then s else dropL1 s (coreKey d k))
    else
      let s := invalL1 s d k
      if scope < 4 then s else invalL2 s d

/-- The bytes of an access that are dirty in the core's write buffer or the die's L2 go to the home (R256, R293). -/
def settleLine (s : State) (d k line : Nat) : State := writeBackLine (drainLine s d k line) d line

/-- After an access at the home, the line leaves the core's L1 and node cache and the die's L2 (R256, R293, R420). -/
def forgetLine (s : State) (d k line : Nat) : State :=
  let ck := coreKey d k
  let s := s.setCore ck { s.core ck with node := smSet none (s.core ck).node line none }
  let h := l1Home s d k line
  let c := s.core h
  let s := s.setCore h { c with l1 := smSet {} c.l1 line {} }
  let v := s.die d
  s.setDie d { v with l2 := smSet {} v.l2 line {} }

/-- Bytes written at the home by core `k` of die `d`, and the caches made to agree (R256, R293). -/
def storeHome (s : State) (d k pa : Nat) (bs : List Byte) : State :=
  forgetLine (setHomeBytes (settleLine s d k (pa / 128)) pa bs) d k (pa / 128)

/-- The line of `pa` as an uncorrectable error leaves it in the copy that a cache holds of it: every byte the cache holds is spoiled (R45). -/
def LineCopy.spoil (l : LineCopy) : LineCopy := { l with bad := l.valid }

/-- An uncorrectable error in a cache's copy of a line (R45). -/
def spoilCopy (s : State) (place : CachePlace) (line : Nat) : State :=
  match place with
  | .writeBuffer ck => s.setCore ck { s.core ck with wb := (s.core ck).wb.map fun e => if e.1 = line then (e.1, e.2.spoil) else e }
  | .l1 ck => s.setCore ck { s.core ck with l1 := smSet {} (s.core ck).l1 line (smGet {} (s.core ck).l1 line).spoil }
  | .l2 d => s.setDie d { s.die d with l2 := smSet {} (s.die d).l2 line (smGet {} (s.die d).l2 line).spoil }

/-- Mark the bytes of the line that holds `pa` as poisoned at the home (R45; log entry 9). -/
def poisonLine (s : State) (pa : Nat) : State :=
  { s with poison := (List.range 128).foldl (fun m k => smSet false m (pa / 128 * 128 + k) true) s.poison }

/-- The line that holds `pa` is poisoned by a store of core `k` of die `d`: where the core reads it and at the home (R329; log entry 9). -/
def poisonStore (s : State) (d k pa : Nat) : State :=
  let line := pa / 128
  let s := spoilCopy (spoilCopy s (.writeBuffer (coreKey d k)) line) (.l1 (l1Home s d k line)) line
  poisonLine (spoilCopy s (.l2 d) line) pa

end Sys2Proof.Machine
end

