-- ==== Sys2Proof/Machine/Translate.lean ====
section
/-! DEFINITION. Address classes, translation records, page-table walks and TLBs
(spec/07_load_store_and_translation.md R241, R242, R277 to R281, R285). -/

namespace Sys2Proof.Machine

/-- The classes of a virtual address (R241). -/
inductive VaClass
  | localVa | fabric | invalid
  deriving DecidableEq, Repr

/-- The class of a virtual address (R241). -/
def vaClass (va : W64) : VaClass :=
  if va.toNat < 2 ^ 48 then .localVa else if va.extractLsb' 62 2 = 2 then .fabric else .invalid

/-- The device number of a fabric address (R4). -/
def fabDev (va : W64) : Nat := (va.extractLsb' 45 17).toNat

/-- The offset of a fabric address in its device's window (R4). -/
def fabOff (va : W64) : Nat := va.toNat % 2 ^ 45

/-- What an access is for. -/
inductive Access
  | read | write | fetch
  deriving DecidableEq, Repr

/-- A context. -/
def State.context (s : State) (c : Nat) : Context := smGet {} s.contexts c

/-- A 64-bit word of a context's translation record, read at the home (R277). -/
def recWord (s : State) (ctx off : Nat) : W64 := home64 s ((s.context ctx).root + off)

/-- EXPBASE of a context (R277). -/
def expBase (s : State) (ctx : Nat) : W64 := recWord s ctx 0x28

/-- EXPLEN of a context (R277). -/
def expLen (s : State) (ctx : Nat) : Nat := (recWord s ctx 0x30).toNat % 2 ^ 45

/-- U of a leaf (R278). -/
def leafU (e : W64) : Bool := e.getLsbD 3
/-- R of a leaf. -/
def leafR (e : W64) : Bool := e.getLsbD 4
/-- W of a leaf. -/
def leafW (e : W64) : Bool := e.getLsbD 5
/-- X of a leaf. -/
def leafX (e : W64) : Bool := e.getLsbD 6
/-- D of a leaf. -/
def leafD (e : W64) : Bool := e.getLsbD 8
/-- ATTR of an entry. -/
def leafAttr (e : W64) : Nat := (e.extractLsb' 60 3).toNat

/-- FRAME of an entry (R278). -/
def leafFrame (e : W64) : Nat := (e.extractLsb' 16 36).toNat

/-- REDE, the signed scale exponent of a reduction page (R278). -/
def leafRede (e : W64) : Int := (e.extractLsb' 52 8).toInt

/-- V of an entry (R278). -/
def entV (e : W64) : Bool := e.getLsbD 0
/-- LAZY of an entry. -/
def entLazy (e : W64) : Bool := e.getLsbD 1
/-- LEAF of an entry. -/
def entLeaf (e : W64) : Bool := e.getLsbD 2

/-- The malformations of an entry at a level (R278). -/
def entBad (lvl : Nat) (e : W64) : Bool :=
  e.getLsbD 63 || e.extractLsb' 9 7 ≠ 0 || 2 < leafAttr e || (leafAttr e ≠ 1 && e.extractLsb' 52 8 ≠ 0) ||
  (lvl == 0 && entLeaf e) || (lvl == 2 && !entLeaf e) || (lvl < 2 && entLazy e) ||
  (lvl == 1 && entLeaf e && leafFrame e % 2 ^ 13 ≠ 0) || (entV e && !isMapped (leafFrame e * 65536))

/-- Index of a virtual address at a level (R278). -/
def walkIndex (va : Nat) : Nat → Nat
  | 0 => va / 2 ^ 42 % 64
  | 1 => va / 2 ^ 29 % 8192
  | _ => va / 2 ^ 16 % 8192

/-- Where a walk ends: a valid leaf with the address of its entry and whether it maps 512 MiB, a lazy leaf with its
address, an absent page, or a bad entry with the level and whether its read was uncorrectable. -/
inductive WalkEnd
  | leaf (e : W64) (pa : Nat) (large : Bool)
  | lazyLeaf (e : W64) (pa : Nat)
  | absent
  | bad (lvl : Nat) (mce : Bool)
  deriving DecidableEq, Repr

/-- The levels of a walk still to go, from the table at `tbl` (R278). -/
def walkFrom (s : State) (va : Nat) : List Nat → Nat → WalkEnd
  | [], _ => .absent
  | lvl :: r, tbl =>
    let pa := tbl + 8 * walkIndex va lvl
    if anyPoison s pa 8 then .bad lvl true
    else
      let e := home64 s pa
      if !entV e && !entLazy e then .absent
      else if entBad lvl e then .bad lvl false
      else if !entV e then .lazyLeaf e pa
      else if entLeaf e then .leaf e pa (lvl == 1)
      else walkFrom s va r (leafFrame e * 65536)

/-- The walk of a local address in a context (R277, R278). -/
def walk (s : State) (ctx va : Nat) : WalkEnd :=
  walkFrom s va [0, 1, 2] (((recWord s ctx 0).extractLsb' 9 43).toNat * 512)

/-- The PROT DETAIL of an access that a leaf forbids (R253, R285). -/
def permFault (e : W64) (a : Access) (sup : Bool) : Option Nat :=
  if !sup && !leafU e then some 3
  else if a = .write && leafAttr e == 2 then some 4
  else
    match a with
    | .read => if leafR e then none else some 0
    | .write => if leafW e then none else some 1
    | .fetch => if leafX e then none else some 2

/-- DETAIL of PAGE (R253). -/
def pageDetail (a : Access) (absent : Bool) : Nat :=
  (if a = .write then 16 else 0) + (if a = .fetch then 32 else 0) + (if absent then 1 else 0)

/-- A translation found: the leaf, and whether it maps 512 MiB. -/
structure Leaf where
  e : W64
  large : Bool
  deriving DecidableEq, Repr

/-- A translation fault: the code of R253 and its DETAIL. -/
structure XFault where
  code : Nat
  detail : Nat
  deriving DecidableEq, Repr

/-- The codes of R253. -/
def codeAddr : Nat := 0x20
/-- ALIGN. -/
def codeAlign : Nat := 0x21
/-- PAGE. -/
def codePage : Nat := 0x22
/-- PROT. -/
def codeProt : Nat := 0x23
/-- WALK. -/
def codeWalk : Nat := 0x24
/-- RREAD. -/
def codeRread : Nat := 0x25

/-- The physical address of a virtual one under a leaf; a read-duplicated page gives the copy of the reader's base die
(R278, R285). -/
def leafPa (d : Nat) (l : Leaf) (va : Nat) : Nat :=
  let f := leafFrame l.e + if leafAttr l.e = 2 then d / 2 * 2 ^ 22 else 0
  f * 65536 + if l.large then va % 2 ^ 29 else va % 2 ^ 16

/-- A leaf with A set, and D for a write (R280). -/
def leafMarked (e : W64) (wr : Bool) : W64 := e ||| 0x80#64 ||| (if wr then 0x100#64 else 0)

/-- Set A, and D for a write, in the leaf at `pa` (R280). -/
def markLeaf (s : State) (e : W64) (pa : Nat) (wr : Bool) : State :=
  if leafMarked e wr = e then s else setHome64 s pa (leafMarked e wr)

/-- What a walker does for an access (R278 to R280): it finds the leaf, checks the permissions, and sets A, and D for a
write; a fault changes nothing. -/
def walkAccess (s : State) (ctx va : Nat) (a : Access) (sup : Bool) : State × Except XFault Leaf :=
  match walk s ctx va with
  | .bad lvl mce => (s, .error { code := codeWalk, detail := lvl + if mce then 8 else 0 })
  | .absent => (s, .error { code := codePage, detail := pageDetail a true })
  | .lazyLeaf _ _ => (s, .error { code := codePage, detail := pageDetail a false })
  | .leaf e pa large =>
    match permFault e a sup with
    | some d => (s, .error { code := codeProt, detail := d })
    | none => (markLeaf s e pa (a = .write), .ok { e := leafMarked e (a = .write), large := large })

/-- A translation made by an engine of die `d`, walked in the same step (log entry 12). -/
def transNow (s : State) (d ctx : Nat) (va : W64) (a : Access) (sup : Bool) : State × Except XFault Nat :=
  match walkAccess s ctx va.toNat a sup with
  | (s, .error f) => (s, .error f)
  | (s, .ok l) => (s, .ok (leafPa d l va.toNat))

/-- A TLB entry covers a page of a context. -/
def tlbHits (ctx vpn : Nat) (t : TlbEntry) : Bool :=
  t.ctx == ctx && (if t.large then t.vpn / 2 ^ 13 == vpn / 2 ^ 13 else t.vpn == vpn)

/-- What a lookup gives a word: a leaf, a fault, or a miss that waits for a walk. -/
inductive Look
  | hit (l : Leaf)
  | fault (f : XFault)
  | miss
  deriving DecidableEq, Repr

/-- Look up the page of `va` for a word of team `key` in the TLB of core `ck` (R279, R280): a walk that found a fault
for this team's word gives it; a write that hits an entry without D misses. -/
def lookup (s : State) (ck key ctx : Nat) (va : W64) (a : Access) (sup : Bool) : Look :=
  let c := s.core ck
  let vpn := va.toNat / 65536
  match c.walks.find? (fun w => w.team == key && w.ctx == ctx && w.vpn == vpn && w.fault.isSome) with
  | some w => .fault { code := (w.fault.getD (0, 0)).1, detail := (w.fault.getD (0, 0)).2 }
  | none =>
    match c.tlb.find? (tlbHits ctx vpn) with
    | none => .miss
    | some t =>
      match permFault t.leaf a sup with
      | some d => .fault { code := codeProt, detail := d }
      | none => if a = .write && !leafD t.leaf then .miss else .hit { e := t.leaf, large := t.large }

/-- Two requests are for one page of one context. -/
def Walk.samePage (x y : Walk) : Bool := x.ctx == y.ctx && x.vpn == y.vpn

/-- The walks that run for a core. -/
def coreWalks (s : State) (ck : Nat) : List Walk := (s.core ck).walks.filter fun w => w.stands == .running && w.fault.isNone

/-- The walks that run on a die. -/
def dieWalks (s : State) (d : Nat) : List Walk := (List.range 48).flatMap fun k => coreWalks s (coreKey d k)

/-- The core whose first waiting walk starts next: round-robin from the one after the last (R279). -/
def nextWalker (s : State) (d : Nat) : Option Nat :=
  ((List.range 48).map fun j => ((s.die d).walkTurn + 1 + j) % 48).find? fun k =>
    decide ((coreWalks s (coreKey d k)).length < 16) && (s.core (coreKey d k)).walks.any fun w => w.stands == .waiting && w.fault.isNone

/-- One waiting walk of a die starts when a walker is free; requests for its page share it (R3, R279). -/
def startWalk (s : State) (d : Nat) : State :=
  if 64 ≤ (dieWalks s d).length then s
  else
    match nextWalker s d with
    | none => s
    | some k =>
      let c := s.core (coreKey d k)
      match c.walks.find? fun w => w.stands == .waiting && w.fault.isNone with
      | none => s
      | some w =>
        let share : List Walk → List Walk := fun l => l.map fun x =>
          if x.stands == .waiting && x.fault.isNone && x.samePage w then { x with stands := if x = w then .running else .shared } else x
        let s := { s with cores := s.cores.map fun (e : Nat × Core) => if e.1 / 48 = d then (e.1, { e.2 with walks := share e.2.walks }) else e }
        s.setDie d { s.die d with walkTurn := k }

/-- Ask for a walk of a die; misses for the same page and context share one (R279). -/
def askWalk (s : State) (ck : Nat) (w : Walk) : State :=
  let c := s.core ck
  if c.walks.any fun x => { x with stands := w.stands } == w then s
  else
    let w := { w with stands := if (dieWalks s (ck / 48)).any w.samePage then .shared else .waiting }
    startWalk (s.setCore ck { c with walks := c.walks ++ [w] }) (ck / 48)

/-- What a walk names in place of a team that waits for it no longer. -/
def noTeam : Nat := 2 ^ 40

/-- Forget the requests of a team for walks; a walk that runs goes on for those that share it. -/
def dropWalks (s : State) (ck key : Nat) : State :=
  let c := s.core ck
  s.setCore ck { c with
    walks := (c.walks.filter fun w => w.team ≠ key || (w.stands == .running && w.fault.isNone)).map fun w =>
    if w.team = key then { w with team := noTeam } else w }

/-- What a walk gives one request for it: the leaf, or its fault (R279, R285). -/
def walkGives (found : WalkEnd) (a : Access) (sup : Bool) : Except XFault Leaf :=
  match found with
  | .bad lvl mce => .error { code := codeWalk, detail := lvl + if mce then 8 else 0 }
  | .absent => .error { code := codePage, detail := pageDetail a true }
  | .lazyLeaf _ _ => .error { code := codePage, detail := pageDetail a false }
  | .leaf e _ large =>
    match permFault e a sup with
    | some d => .error { code := codeProt, detail := d }
    | none => .ok { e := e, large := large }

/-- The access that a request for a walk is for. -/
def Walk.access (w : Walk) : Access := if w.acc = 1 then .write else if w.acc = 2 then .fetch else .read

/-- The requests of a die that a walk answers (R279): those for its page that no walk has answered. -/
def walkRequests (s : State) (d : Nat) (w : Walk) : List (Nat × Walk) :=
  (s.cores.filter fun e => e.1 / 48 = d).flatMap fun e => (e.2.walks.filter fun x => x.fault.isNone && x.samePage w).map fun x => (e.1, x)

/-- A core's TLB and requests after a walk for a page has ended: a request that is granted gives the TLB its entry and goes, the others keep
the fault (R279). `e` is the leaf as the walker left it. -/
def Core.walked (c : Core) (w : Walk) (found : WalkEnd) (e : W64) : Core :=
  let mine := c.walks.filter fun x => x.fault.isNone && x.samePage w
  let hit := mine.findSome? fun x => (walkGives found x.access x.sup).toOption
  { c with
    tlb := (match hit with
      | some l => { ctx := w.ctx, vpn := w.vpn, leaf := e, large := l.large } :: c.tlb.filter (fun t => !tlbHits w.ctx w.vpn t)
      | none => c.tlb),
    walks := c.walks.filterMap fun x =>
      if x.fault.isNone && x.samePage w then
        match walkGives found x.access x.sup with
        | .ok _ => none
        | .error f => if x.team = noTeam then none else some { x with stands := .shared, fault := some (f.code, f.detail) }
      else some x }

/-- A walk of a die ends: A is set when a request is granted, and D when it is a write (R280), every request for the page is answered, and
the next waiting walk starts (R279). -/
def endWalk (s : State) (d : Nat) (w : Walk) : State :=
  let found := walk s w.ctx (w.vpn * 65536)
  let granted := (walkRequests s d w).filter fun x => (walkGives found x.2.access x.2.sup).toOption.isSome
  let wr := granted.any fun x => x.2.access == .write
  let r : State × W64 := match found with
    | .leaf e pa _ => if granted = [] then (s, e) else (markLeaf s e pa wr, leafMarked e wr)
    | _ => (s, 0)
  let s := { r.1 with
    cores := r.1.cores.map fun (c : Nat × Core) => if c.1 / 48 = d then (c.1, c.2.walked w found r.2) else c, progress := r.1.progress + 1 }
  startWalk s d

end Sys2Proof.Machine
end

