-- ==== Sys2Proof/Machine/Ops.lean ====
section
/-! DEFINITION. The shared operations of the words: registers and masks of a team, taking an exception and returning
from one, what every word goes through before and after its own effect (spec/02_clauses_and_encoding.md R57 to R66, R85
to R87; spec/04_team_sequencer.md R129, R151, R155 to R160; spec/01_engines_and_ties.md R26 to R29). -/

namespace Sys2Proof.Machine

/-! ### Teams -/

/-- Key of team `t` of crew `c`. -/
def teamKey (c t : Nat) : Nat := c * 16 + t

/-- A team's key. -/
def Team.key (t : Team) : Nat := teamKey t.id.crew t.id.tno

/-- The team with a key: the one that issues, or one of the others (log entry 6). -/
def State.teamAt (s : State) (k : Nat) : Team := if k = s.team.key then s.team else smGet {} s.others k

/-- Replace the team with a key. -/
def State.setTeamAt (s : State) (k : Nat) (t : Team) : State :=
  if k = s.team.key then { s with team := t } else { s with others := smSet {} s.others k t }

/-- Change the team with a key. -/
def State.updTeam (s : State) (k : Nat) (f : Team → Team) : State := s.setTeamAt k (f (s.teamAt k))

/-- Change the team that issues. -/
def State.mapTeam (s : State) (f : Team → Team) : State := { s with team := f s.team }

/-- The keys of every live team. -/
def State.aliveKeys (s : State) : List Nat :=
  (if s.team.id.alive then [s.team.key] else []) ++ ((s.others.filter fun e => e.2.id.alive && e.1 ≠ s.team.key).map Prod.fst)

/-- Make the team with key `k` the one that issues. -/
def State.checkOut (s : State) (k : Nat) : State :=
  if k = s.team.key then s
  else
    let t := smGet {} s.others k
    { s with team := t, others := smSet {} (smSet {} s.others k {}) s.team.key s.team }

/-- The numbers of the teams of crew `c` that have not ended (R146). -/
def State.liveTeams (s : State) (c : Nat) : List Nat :=
  (s.aliveKeys.filter fun k => k / 16 = c).map fun k => k % 16

/-- The core key of a team's core. -/
def Team.coreK (t : Team) : Nat := coreKey t.id.die t.id.core

/-- The team runs on a control core (R16). -/
def Team.onControl (t : Team) : Bool := 40 ≤ t.id.core

/-! ### Registers (R78) -/

/-- The registers with their pending bits and markers as the words of the group see them (R65). -/
def Team.rSrc (t : Team) : Regs := match t.group with | some g => g.r | none => t.r

/-- Scalar registers as the words of the group read them (R65). -/
def Team.sSrc (t : Team) : SMap W32 := t.rSrc.s

/-- Vector registers as the words of the group read them (R65). -/
def Team.vSrc (t : Team) : SMap W32 := t.rSrc.v

/-- Predicates as the words of the group read them (R65). -/
def Team.pSrc (t : Team) : SMap Mask := t.rSrc.p

/-- M as the words of the group read it (R137). -/
def Team.mSrc (t : Team) : Mask := match t.group with | some g => g.m | none => t.m

/-- The privilege state as the words of the group see it (R155). -/
def Team.supSrc (t : Team) : Bool := match t.group with | some g => g.sup | none => t.sup

/-- How far a waiting word has come (0 barriers and REFORM, 1 and 3 PMISS, 2 remote words, 4 RFREE). -/
def Team.arr (t : Team) (k : Nat) : Option Nat := smGet none t.sched.arrived k

/-- Set how far a waiting word has come. -/
def Team.setArr (t : Team) (k : Nat) (v : Option Nat) : Team :=
  { t with sched := { t.sched with arrived := smSet none t.sched.arrived k v } }

/-- Read a scalar register. -/
def Team.getS (t : Team) (i : Nat) : W32 := smGet 0 t.sSrc i

/-- Read an even pair, low half first (R78). -/
def Team.getS64 (t : Team) (i : Nat) : W64 := t.getS (i + 1) ++ t.getS i

/-- Write a scalar register; a write clears its marker (R254). -/
def Team.setS (t : Team) (i : Nat) (v : W32) : Team :=
  { t with r := { t.r with s := smSet 0 t.r.s i v, smarks := smSet none t.r.smarks i none } }

/-- Write an even pair. -/
def Team.setS64 (t : Team) (i : Nat) (v : W64) : Team :=
  (t.setS i (v.extractLsb' 0 32)).setS (i + 1) (v.extractLsb' 32 32)

/-- Key of a vector register's lane. -/
def vKey (r l : Nat) : Nat := r * 1024 + l

/-- Read a lane of a vector register. -/
def Team.getV (t : Team) (r l : Nat) : W32 := smGet 0 t.vSrc (vKey r l)

/-- Read a lane of a pair of vector registers. -/
def Team.getV64 (t : Team) (r l : Nat) : W64 := t.getV (r + 1) l ++ t.getV r l

/-- Read `n` consecutive registers of a lane as one number, lowest register first. -/
def Team.getVn (t : Team) (r l : Nat) : Nat → Nat
  | 0 => 0
  | n + 1 => (t.getV r l).toNat + 2 ^ 32 * t.getVn (r + 1) l n

/-- Write a lane of a vector register; a write clears its marker (R254). -/
def Team.setV (t : Team) (r l : Nat) (v : W32) : Team :=
  { t with r := { t.r with v := smSet 0 t.r.v (vKey r l) v, vmarks := smSet none t.r.vmarks (vKey r l) none } }

/-- Write `n` consecutive registers of a lane from a number. -/
def Team.setVn (t : Team) (r l v : Nat) : Nat → Team
  | 0 => t
  | n + 1 => (t.setV r l (BitVec.ofNat 32 v)).setVn (r + 1) l (v / 2 ^ 32) n

/-- Read a predicate; p0 reads as true in every lane (R78). -/
def Team.getP (t : Team) (p : Nat) : Mask := if p = 0 then BitVec.allOnes 1024 else smGet 0 t.pSrc p

/-- Write a predicate in the lanes of `m`; a write of p0 is discarded (R78). -/
def Team.setP (t : Team) (p : Nat) (m v : Mask) : Team :=
  if p = 0 then t
  else { t with r := { t.r with p := smSet 0 t.r.p p ((smGet 0 t.r.p p &&& ~~~m) ||| (v &&& m)) } }

/-- The mask of every lane of a team of width `w` (R129). -/
def fullMask (w : Nat) : Mask := BitVec.ofNat 1024 (2 ^ w - 1)

/-- The lanes of a mask below `w`, ascending. -/
def lanesOf (w : Nat) (m : Mask) : List Nat := (List.range w).filter fun l => m.getLsbD l

/-- The mask of a list of lanes. -/
def maskOf (l : List Nat) : Mask := l.foldl (fun m k => m ||| (1#1024 <<< k)) 0

/-- Word `k` of a mask (R129). -/
def maskWord (m : Mask) (k : Nat) : W32 := (m >>> (32 * k)).setWidth 32

/-- The non-zero mask words of a mask, ascending (R129, R130). -/
def maskWords (w : Nat) (m : Mask) : List Nat := (List.range ((w + 31) / 32)).filter fun k => maskWord m k ≠ 0

/-- The effective mask: M, or under a guard M AND pN, or M AND NOT pN (R75). -/
def Team.eff (t : Team) : Mask :=
  match t.pfx.grd with
  | none => t.mSrc
  | some (neg, p) => if neg then t.mSrc &&& ~~~(t.getP p) else t.mSrc &&& t.getP p

/-- The lanes a word acts on. -/
def Team.lanes (t : Team) : List Nat := lanesOf t.id.width t.eff

/-- Raise sticky flags (R111, R214). -/
def Team.raise (t : Team) (f : Flags) : Team := { t with asticky := t.asticky ||| f }

/-! ### Program counter (R87) -/

/-- The slot a program counter names. -/
def pcSlot (pc : W64) : Nat := (pc.extractLsb' 2 2).toNat

/-- The address of a program counter's clause. -/
def pcClause (pc : W64) : W64 := pc &&& ~~~(0xF#64)

/-- The next slot, or the next clause with slot 0 after slot 3 (R58). -/
def pcNext (pc : W64) : W64 := if pcSlot pc = 3 then pcClause pc + 16 else pc + 4

/-- A clause address that may be fetched (R87). -/
def pcOk (pc : W64) : Bool := pc.toNat < 2 ^ 48

/-- A word of a clause, by slot. -/
def Clause.word (c : Clause) (k : Nat) : W32 :=
  if k = 0 then c.header else if k = 1 then c.w1 else if k = 2 then c.w2 else c.w3

/-- The word at the program counter: the open clause's, or the instruction's own when no clause is open. -/
def Team.curWord (t : Team) (i : Instr) : W32 :=
  match t.clause with
  | some c => c.word (pcSlot t.pc)
  | none => (encodeWord 0 i).getD 0

/-- The program counter that a fault of the word names: its group's first word, or the first prefix of that (R86). -/
def Team.faultPc (t : Team) : W64 :=
  match t.group with
  | some g => g.first
  | none => t.pfx.pc.getD t.pc

/-! ### Taking an exception (R155) -/

/-- What an exception reports: code, DETAIL, XVAL, and the faulting lanes of a lane-masked cause. -/
structure TrapInfo where
  code : Nat
  detail : Nat := 0
  val : W64 := 0
  mask : Option Mask := none

/-- Termination causes (R156). -/
def causeMce : Nat := 0xB2
/-- TRAP.NEST. -/
def causeNest : Nat := 0xB3

/-- A crew is terminated: its teams end where they stand, and the first cause is kept for its launch (R175). -/
def State.killCrew (s : State) (c cause : Nat) : State :=
  let cr := s.crew c
  let s := s.setCrew c { cr with cause := some (cr.cause.getD cause) }
  let stop : Team → Team := fun t =>
    if t.id.crew = c then { t with id := { t.id with alive := false }, clause := none, pfx := {}, group := none } else t
  { s with team := stop s.team, others := s.others.map fun e => (e.1, stop e.2) }

/-- A team gives up its place: its waiting time starts again from zero (R56, R152). -/
def Team.giveUp (t : Team) (tick : Nat) : Team := { t with sched := { t.sched with since := tick, passed := 0, yields := false } }

/-- Enter the handler: XPC, XCAUSE, XVAL and XMASK are written, M is saved, the team enters supervisor state with the
faulting lanes at XVEC; in supervisor state the crew is terminated with TRAP.NEST (R155). An XVEC that no clause can be
fetched from is a fault of the handler entry, so TRAP.NEST too (R87). -/
def State.enterHandler (s : State) (pc : W64) (i : TrapInfo) : State :=
  let t := s.team
  let t' := { t with
    x := { t.x with
      xpc := pc, xval := i.val, detail := BitVec.ofNat 8 i.detail, code := BitVec.ofNat 8 i.code,
                    xmask := i.mask.getD t.m, saved := t.m },
    sup := true, m := i.mask.getD t.m, pc := t.x.xvec, clause := none, pfx := {}, group := none, note := .trapped,
    sched := { (if t.sched.yields then (t.giveUp s.tick).sched else t.sched) with wait := none } }
  if t.sup || !pcOk t.x.xvec then
    ({ s with team := { t with note := .trapped } }).killCrew t.id.crew causeNest
  else { s with team := t' }

/-! ### Results of a word -/

/-- What a word did: it ran, leaving control to the next slot, to an address, to the handler after its group, or to
nothing because the team ended; or it faulted; or it waits; or it is not executed and its team goes on at an address
later (R326); or the machine stops. The fields are in State's Ctl. -/
inductive Res
  | done (s : State) (c : Ctl)
  | trap (s : State) (i : TrapInfo)
  | block (s : State) (w : Wait)
  | park (s : State) (pc : W64)
  | stop (f : Fault)

/-- A word that ran and goes on at the next slot. -/
def ok (s : State) : Res := .done s .next

/-- Cause codes of R156. -/
def codeHdr : Nat := 0x01
/-- ILL.CLAUSE. -/
def codeClause : Nat := 0x02
/-- ILL.OP. -/
def codeOp : Nat := 0x03
/-- ILL.ENG. -/
def codeEng : Nat := 0x04
/-- PRIV. -/
def codePriv : Nat := 0x05
/-- ILL.RSV. -/
def codeRsv : Nat := 0x06
/-- ILL.REG. -/
def codeReg : Nat := 0x07
/-- ILL.CHAIN. -/
def codeChain : Nat := 0x08
/-- ILL.PC. -/
def codePc : Nat := 0x09
/-- JOIN.OVF, JOIN.UNF, JOIN.DIV. -/
def codeJoinOvf : Nat := 0x0A
/-- JOIN.UNF. -/
def codeJoinUnf : Nat := 0x0B
/-- JOIN.DIV. -/
def codeJoinDiv : Nat := 0x0C
/-- QPORT. -/
def codeQport : Nat := 0x0D
/-- QSIZE. -/
def codeQsize : Nat := 0x0E
/-- QBUSY. -/
def codeQbusy : Nat := 0x0F
/-- TRAP. -/
def codeTrap : Nat := 0x10
/-- ARITH. -/
def codeArith : Nat := 0x11
/-- STEP. -/
def codeStep : Nat := 0x12
/-- MCE.LANE. -/
def codeMceLane : Nat := 0xB0
/-- MCE.DATA. -/
def codeMceData : Nat := 0xB1

/-- An operation that FENCE waits for: a load, a store or an atomic; an engine's command is none (R261). -/
def OpKind.isMem : OpKind → Bool
  | .load _ _ _ _ _ _ _ _ _ => true
  | .store _ _ => true
  | .atomic _ => true
  | .fill _ | .drain _ | .mload _ | .mst _ | .mtrq _ | .ramo _ | .rsvs _ | .tile _ | .word _ => false

/-- An operation that gives a load's value: a load or an atomic that returns one (R261). -/
def OpKind.isLoad : OpKind → Bool
  | .load _ _ _ _ _ _ _ _ _ => true
  | .atomic a => match a.what with | .red _ | .redx | .ast => false | _ => true
  | .store _ _ | .fill _ | .drain _ | .mload _ | .mst _ | .mtrq _ | .ramo _ | .rsvs _ | .tile _ | .word _ => false

/-- An operation whose completion can set a sticky flag (R157). -/
def OpKind.setsFlags : OpKind → Bool
  | .drain d => d.acc.isSome
  | .mst _ | .mtrq _ | .atomic _ => true
  | .word (.event _ _ _) => true
  | .word _ | .load _ _ _ _ _ _ _ _ _ | .store _ _ | .fill _ | .mload _ | .ramo _ | .rsvs _ | .tile _ => false

/-- An atomic deferred to the quantum's commit (R309). -/
def OpKind.isDeferred : OpKind → Bool
  | .atomic a => a.deferred
  | _ => false

/-- An operation waits for its quantum's commit: a deferred atomic, or a load behind one (R309; log entry 89). -/
def waitsCommit (s : State) (o : Op) : Bool := o.kind.isDeferred || (s.teamAt o.team).dq.items.contains (.load o.id)

/-- An operation of a team that waits for its quantum's commit holds one of some completion flags. -/
def deferredOn (s : State) (t : Team) (p : Nat → Bool) : Bool :=
  s.ops.any fun o => o.team = t.key && waitsCommit s o && (match o.flag with | some f => p f | none => false)

/-- Team `n` has joined a gang operation of its crew that has not completed and is not held (R157, R383). -/
def gangBusy (s : State) (c n : Nat) : Bool :=
  (s.crew c).mat.ops.any fun o => o.gang.getLsbD n && (o.state == .started || o.state == .suspended)

/-! ### Before a word (R85, R29, R27, R254, R273) -/

/-- A span of registers is legal below `n` (R79). -/
def spanOk (n : Nat) (x : Span) : Bool := x.1 % x.2.2 == 0 && x.1 + x.2.1 ≤ n

/-- The high immediate bits and ordering fields that IMX may not leave set (R73, R296). -/
def imxRsv (u : Usage) (imm : Option (BitVec 24)) : Bool :=
  match imm with
  | none => false
  | some i =>
    match u.imx with
    | .no => false
    | .field high => high ≠ 0
    | .offset => false
    | .order bad => bad i

/-- A word may take IMX (R73). -/
def takesImx (u : Usage) : Bool :=
  match u.imx with
  | .no => false
  | _ => true

/-- The encoding fault of a word, in the order ILL.OP, ILL.ENG, PRIV, ILL.RSV, ILL.REG (R85). `rsv` says that an unused
field of the word is not zero. -/
def illegal (u : Usage) (t : Team) (rsv : Bool) : Option Nat :=
  if !u.op || (t.pfx.imm.isSome && !takesImx u) || (t.pfx.grd.isSome && !u.guardable) then some codeOp
  else if u.engine && t.onControl then some codeEng
  else if u.priv && !t.supSrc then some codePriv
  else if rsv || u.rsv || t.pfx.rsv || imxRsv u t.pfx.imm then some codeRsv
  else if u.regBad || !((u.vr ++ u.vw ++ u.vall ++ u.vchk).all (spanOk t.id.nregs)) || !((u.sr ++ u.sw).all (spanOk 64)) then
    some codeReg
  else none

/-- The registers of a span. -/
def spanRegs (x : Span) : List Nat := (List.range x.2.1).map (x.1 + ·)

/-- A vector register is pending in one of some mask words (R29). -/
def vPending (t : Team) (words : List Nat) (r : Nat) : Bool := words.any fun k => smGet 0 t.rSrc.vpend (r * 32 + k) ≠ 0

/-- The word stalls on a pending register (R29): those it reads or writes in the active mask words, a scalar register,
a predicate, the guard. A word whose guarded mask is empty waits for its guard alone (R77). -/
def stalled (u : Usage) (t : Team) : Bool :=
  let words := maskWords t.id.width t.eff
  let all := List.range ((t.id.width + 31) / 32)
  let guardPend := match t.pfx.grd with
    | none => false
    | some (_, p) => (maskWords t.id.width t.mSrc).any fun k => smGet 0 t.rSrc.ppend (p * 32 + k) ≠ 0
  guardPend ||
  (t.eff ≠ 0 &&
    ((u.vr ++ u.vw).any (fun x => (spanRegs x).any (vPending t words)) ||
     u.vall.any (fun x => (spanRegs x).any (vPending t all)) ||
     (u.sr ++ u.sw).any (fun x => (spanRegs x).any fun r => smGet 0 t.rSrc.spend r ≠ 0) ||
     (u.pr ++ u.pw).any (fun p => words.any fun k => smGet 0 t.rSrc.ppend (p * 32 + k) ≠ 0)))

/-- The exception that a marker raises when it is read (R254, R311, R456, R239). -/
def markTrap (r : Nat) : Mark → TrapInfo
  | .data a => { code := codeMceData, val := a }
  | .remoteRead d a => { code := codeRread, detail := d, val := a }
  | .hostAtomic d a => { code := 0x40, detail := d, val := a }
  | .remoteOld d a => { code := 0x90, detail := d, val := a }
  | .lane => { code := codeMceLane, val := BitVec.ofNat 64 r }

/-- A lane holds a marker of one cause in one of some registers. -/
def laneBad (t : Team) (regs : List Nat) (code l : Nat) : Bool :=
  regs.any fun r => ((smGet none t.rSrc.vmarks (vKey r l)).map (markTrap r)).any fun j => j.code == code

/-- The marker of a lane among some registers, with the register: the first in the order of the word's operands, vA, vB, vD (DESIGN CHOICE: the
spec orders no kinds of marker, log entry 100). -/
def laneMark (t : Team) (regs : List Nat) (l : Nat) : Option TrapInfo :=
  regs.findSome? fun r => (smGet none t.rSrc.vmarks (vKey r l)).map (markTrap r)

/-- The exception of a word that reads a marked register: the lowest marked lane gives the kind, and XMASK holds the
lanes that read that kind, or every active lane for a word that crosses lanes (R239, R254). -/
def poisoned (u : Usage) (t : Team) : Option TrapInfo :=
  let regs := u.vr.flatMap spanRegs
  match if t.rSrc.vmarks.isEmpty || t.eff = 0 then none else t.lanes.findSome? (laneMark t regs) with
  | some i =>
    some { i with mask := some (if u.cross then t.eff else maskOf (t.lanes.filter (laneBad t regs i.code))) }
  | none =>
    ((if t.eff = 0 then [] else u.sr.flatMap spanRegs).findSome? fun r => (smGet none t.rSrc.smarks r).map (markTrap r)).map
      fun i => { i with mask := some t.m }

/-- The word in a slot of a clause is long-latency (R53): one that decodes to an assigned instruction; a sub-code that no instruction has leaves
it none (R85; DEDUCED of the OPN of AMO and RED, log entry 77). -/
def Clause.longLat (c : Clause) (k : Nat) : Bool :=
  match decodeParts ((c.word k).extractLsb' 24 7) ((c.word k).extractLsb' 0 24) with
  | some i => (usage i).longLat && !subUnassigned i
  | none => false

/-- How many words of a clause before slot `k` are long-latency (R53, R85). -/
def Clause.llBefore (c : Clause) (k : Nat) : Nat := ((List.range k).filter fun j => 1 ≤ j && c.longLat j).length

/-- The completion flag that the word at the program counter takes: none for one that is not long-latency (R53). -/
def Team.llFlag (t : Team) : Option Nat :=
  match t.clause with
  | none => none
  | some c =>
    let k := pcSlot t.pc
    let n := c.llBefore k
    let f := if n = 0 then (c.header.extractLsb' 16 4).toNat else if n = 1 then (c.header.extractLsb' 12 4).toNat else 15
    if c.longLat k && decide (f < 12) then some f else none

/-- A flag is busy. -/
def Team.flagBusy (t : Team) (f : Option Nat) : Bool :=
  match f with
  | none => false
  | some k => (match t.group with | some g => g.busy | none => t.busy).getLsbD k

/-- The pending values that stand for the atomics deferred to the quantum's commit, and for the loads behind them (R309). -/
def Team.deferredIds (t : Team) : List Nat :=
  t.dq.items.filterMap fun x => match x with | .atomic n => some (n + 1) | .load n => some (n + 1) | .store _ _ _ _ => none

/-- A register that the word touches is pending for the quantum's commit (R273, R309). -/
def pendingDeferred (u : Usage) (t : Team) : Bool :=
  let ids := t.deferredIds
  let words := maskWords t.id.width t.eff
  let waits : List Nat → Span → Bool := fun words x =>
    (spanRegs x).any fun r => words.any fun k => ids.contains (smGet 0 t.rSrc.vpend (r * 32 + k))
  !ids.isEmpty &&
    ((u.vr ++ u.vw).any (waits words) || u.vall.any (waits (List.range ((t.id.width + 31) / 32))) ||
     (t.eff ≠ 0 && (u.sr ++ u.sw).any fun x => (spanRegs x).any fun r => ids.contains (smGet 0 t.rSrc.spend r)))

/-- The team stops at a quantum end (R273). -/
def Team.endQuantum (t : Team) : Team := { t with dq := { t.dq with atEnd := true } }

/-- The group from slot `k` of a clause on, its prefixes with it, holds a copy word. -/
def Clause.copies (c : Clause) : Nat → Nat → Bool
  | 0, _ => false
  | n + 1, k =>
    let w := c.word k
    let copy := match decodeParts (w.extractLsb' 24 7) (w.extractLsb' 0 24) with | some i => (usage i).copy | none => false
    let pref := w.extractLsb' 24 7 = 1 || w.extractLsb' 24 7 = 2
    copy || ((chainBit w || pref) && k < 3 && c.copies n (k + 1))

/-- A team that has passed a quantum end at its next group may have a copy word there: not where its open clause shows another group, or
where it waits as only another word does (R334). -/
def Team.copyNext (t : Team) : Bool :=
  t.dq.passed && (t.sup ||
    match t.clause with
    | some c => c.copies 4 (pcSlot t.pc)
    | none =>
      match t.sched.wait with
      | some (.barrier _) | some (.arrive _) | some (.phase _ _) | some .reform | some .memory | some (.event _ _) | some .run | some (.queue _)
      | some .credit | some .result => false
      | _ => true)

/-- A copy word after a commit waits for those of the crew's lower-numbered teams that follow the same commit (R334). -/
def copyTurn (u : Usage) (s : State) : Bool :=
  let t := s.team
  u.copy && t.dq.passed && !t.supSrc && (s.liveTeams t.id.crew).any fun n =>
    n < t.id.tno && (s.teamAt (teamKey t.id.crew n)).copyNext

/-- What stands between a legal word and its effect: a quantum end, a pending register, a marker, a busy flag. -/
def hazard (u : Usage) (s : State) : Option Res :=
  let t := s.team
  if t.id.quantum.isSome && !t.supSrc && u.ends && !t.dq.passed then
    some (.block (s.mapTeam Team.endQuantum) .quantum)
  else if copyTurn u s then some (.block s .engine)
  else if stalled u t then
    some (if t.id.quantum.isSome && pendingDeferred u t then .block (s.mapTeam Team.endQuantum) .quantum
          else .block s .pending)
  else
    match poisoned u t with
    | some i => some (.trap s i)
    | none =>
      if u.longLat && t.flagBusy t.llFlag then
        some (if deferredOn s t (fun f => t.llFlag = some f) then .block (s.mapTeam Team.endQuantum) .quantum else .block s .flag)
      else none

/-- Everything before a word's own effect: its encoding checks, then its hazards; none when it may go on. -/
def issueCheck (i : Instr) (s : State) : Option Res :=
  let u := usage i
  match illegal u s.team false with
  | some c => some (.trap s { code := c, val := (s.team.curWord i).setWidth 64 })
  | none => hazard u s

/-! ### After a word -/

/-- A word waits: it has not issued, and its group is tried again when something has changed (R66, R252). -/
def State.blockOn (s : State) (w : Wait) : State :=
  let t := s.team
  { s with team := { t with
      pc := t.faultPc, pfx := {}, group := none, note := .blocked,
      sched := { t.sched with
        wait := some w, blockedAt := s.progress,
                              blockedFrom := if t.sched.wait = some w then t.sched.blockedFrom else s.now t.id.die } } }

/-- A word's team is descheduled before it and goes on at `pc` when it becomes ready (R326); a quantum end that it has passed was the word's
(R273, R334). -/
def State.parkAt (s : State) (pc : W64) : State :=
  s.mapTeam fun t => { t with
    pc := pc, clause := none, pfx := {}, group := none, note := .blocked, dq := { t.dq with passed := false },
    sched := { t.sched with wait := some .touch, blockedAt := s.progress } }

/-- The scalar registers a word writes, ascending, SCC as 64 (R160). -/
def undoRegs (u : Usage) : List Nat := u.sw.flatMap spanRegs ++ (if u.scc then [64] else [])

/-- One record of the undo log: OLD, REG, PC (R160). -/
def undoRecord (old : W32) (reg : Nat) (pc : W64) : List Byte :=
  leBytes pc.toNat 8 ++ [BitVec.ofNat 8 reg, 0, 0, 0] ++ leBytes old.toNat 4

/-- Write one record at UNDOBASE + UNDOHEAD at TEAM scope and advance the head; a fault clears UNDO and sets UFLT
(R160). -/
def writeUndo (pc : W64) (s : State) (e : Nat × W32) : State :=
  let t := s.team
  if !t.dbg.undo then s
  else
    let head := t.dbg.head.toNat % t.dbg.len.toNat
    let va := t.dbg.base + BitVec.ofNat 64 head
    let fail := s.mapTeam fun t => { t with dbg := { t.dbg with undo := false, uflt := true } }
    if vaClass va ≠ .localVa then fail
    else
      match transNow s t.id.die t.id.ctx va .write false with
      | (_, .error _) => fail
      | (s, .ok pa) =>
        (storeBytes s t.id.die t.id.core pa (undoRecord e.2 e.1 pc)).mapTeam fun t =>
          { t with dbg := { t.dbg with head := BitVec.ofNat 32 ((head + 16) % t.dbg.len.toNat) } }

/-- The records of a committed group: one for each scalar register and for SCC that it writes, one with REG 0xFF when
it writes none (R160). `t0` is the team before the group. -/
def undoLog (s : State) (t0 : Team) (regs : List Nat) (pc : W64) : State :=
  let old : Nat → W32 := fun r => if r = 64 then t0.scc.setWidth 32 else smGet 0 t0.r.s r
  ((if regs = [] then [(0xFF, 0)] else regs.map fun r => (r, old r))).foldl (writeUndo pc) s

/-- A team leaves its clause; with YLD, or after a YIELD, it gives up its place (R56, R152, R153). -/
def Team.leaveClause (t : Team) (tick : Nat) : Team :=
  match t.clause with
  | none => t
  | some c => { (if c.header.getLsbD 11 || t.sched.yields then t.giveUp tick else t) with clause := none }

/-- A group commits: the undo log is written, the program counter moves, a team at its Q-th counted word reaches its
quantum end, a handler's group leaves the quantum as it is, STEP enters the handler after a user-state group (R65, R87, R155, R160, R273); after a group that transferred control the STEP
trap's XPC is the target (DEDUCED, log entry 79). `t0` is the team before the
group, `regs` what the group writes, `first` and `after` the program counters of the group and of the slot after it. -/
def State.commit (s : State) (t0 : Team) (regs : List Nat) (counted : Nat) (first after : W64) (c : Ctl) : State :=
  let s := if t0.dbg.undo && !t0.sup then undoLog s t0 regs first else s
  let n := s.team.dq.count + if t0.sup then 0 else counted
  let full := s.team.dq.full ||
    match t0.id.quantum with | some q => decide (q ≤ n) && !t0.sup && decide (0 < counted) | none => false
  let s := s.mapTeam fun t => { t with
    pfx := {}, group := none, note := .done,
    dq := { t.dq with count := n, passed := t.dq.passed && t0.sup, atEnd := t.dq.atEnd || full, full := false },
    sched := { t.sched with wait := if full then some .quantum else none, blockedAt := s.progress } }
  let s := { s with progress := s.progress + 1 }
  match c with
  | .ended => s
  | .after code val =>
    (s.mapTeam fun t => { (t.leaveClause s.tick) with pc := after }).enterHandler after { code := code, val := val }
  | .go pc =>
    let s := s.mapTeam fun t => { (t.leaveClause s.tick) with pc := pc }
    if t0.dbg.step && !t0.sup then s.enterHandler pc { code := codeStep } else s
  | .next =>
    let s := s.mapTeam fun t => { (if pcSlot after = 0 then t.leaveClause s.tick else t) with pc := after }
    if pcSlot after = 0 && !pcOk after then s.enterHandler first { code := codePc, val := after }
    else if t0.dbg.step && !t0.sup then s.enterHandler after { code := codeStep } else s

/-- A word that ran from state `s0` ends: alone it commits at once; inside a chained group it leaves its control
transfer with the group (R65); of two transfers of one group the one that runs last stands (DESIGN CHOICE: the spec gives no order, log entry
101). A transfer to an address that cannot be fetched is ILL.PC and the group has no effect (R87). -/
def endWord (i : Instr) (s0 s : State) (c : Ctl) : State :=
  match (match c with | .go pc => if pcOk pc then none else some pc | _ => none : Option W64) with
  | some pc => s0.enterHandler s0.team.faultPc { code := codePc, val := pc }
  | none =>
    match s0.team.group with
    | some g =>
      s.mapTeam fun t =>
        { t with pfx := {}, note := .done, group := some { g with ctl := if c = .next then g.ctl else c } }
    | none =>
      let u := usage i
      s.commit s0.team (undoRegs u) (if u.counted then 1 else 0) s0.team.faultPc (pcNext s0.team.pc) c

/-- Finish a word from what it did; a continuation that cannot be fetched from is ILL.PC at the word's group, as any address that a group makes
the program counter (R87, R326). -/
def finishWord (i : Instr) (s0 : State) : Res → Host.Outcome State Fault Refusal
  | .trap s t => .next (s.enterHandler s0.team.faultPc t)
  | .block s w => .next (s.blockOn w)
  | .park s pc => .next (if pcOk pc then s.parkAt pc else s0.enterHandler s0.team.faultPc { code := codePc, val := pc })
  | .stop f => .fault f
  | .done s c => .next (endWord i s0 s c)

/-- Run a word: the checks every word goes through, then its own effect. -/
def runWord (i : Instr) (s : State) (f : State → Res) : Host.Outcome State Fault Refusal :=
  finishWord i s ((issueCheck i s).getD (f s))

end Sys2Proof.Machine
end

