-- ==== Sys2Proof/Machine/Spindle.lean ====
section
/-! DEFINITION. Jobs and flows, the Spindle buffers' insertion and departure, and the releases and acquires of a team, which
wait for them (spec/12_fabric_engine.md R438 to R447; spec/07_load_store_and_translation.md R261, R262). -/

namespace Sys2Proof.Machine

/-! ### Jobs and exported windows (R438, R439, R243) -/

/-- A die's fabric registers. -/
def State.fab (s : State) (d : Nat) : FabRegs := (s.die d).regs.fab

/-- This device's number, as a die holds it. -/
def State.devno (s : State) (d : Nat) : Nat := (s.fab d).devno.toNat % 2 ^ 17

/-- The job of a context: its first valid entry in a die's job table (R439). -/
def jobOf (s : State) (d ctx : Nat) : Option Nat :=
  ((s.fab d).jobs.find? fun e => e.2.getLsbD 63 && (e.2.extractLsb' 32 16).toNat = ctx).map fun e => (e.2.extractLsb' 0 16).toNat

/-- The context that serves a job's fabric addresses on this device (R438). -/
def ctxOfJob (s : State) (job : Nat) : Option Nat :=
  ((s.fab 0).jobs.find? fun e => e.2.getLsbD 63 && (e.2.extractLsb' 0 16).toNat = job).map fun e => (e.2.extractLsb' 32 16).toNat

/-- The line of an exported window, read at its home for a device of a job: refused (0) beyond EXPLEN or the address class, without a
context of the job, without a readable page, and for a host page (DESIGN CHOICE, log entry 81); uncorrectable (2). The walk sets A (R243,
R253, R280). -/
def exportLine (s : State) (job line : Nat) : State × RemoteLine :=
  let va : W64 := BitVec.ofNat 64 (line * 128)
  let off := fabOff va
  let no : Nat → RemoteLine := fun d => { line := va, data := [], fail := some d }
  match ctxOfJob s job with
  | none => (s, no 0)
  | some c =>
    let a := (expBase s c).toNat + off
    if expLen s c ≤ off || 2 ^ 48 < a + 128 then (s, no 0)
    else
      match walkAccess s c a .read false with
      | (s, .error _) => (s, no 0)
      | (s, .ok l) =>
        let pa := leafPa 0 l a
        (s, if isHost pa then no 0
            else if isPoison s pa then no 2
            else { line := va, data := homeBytes s pa 128, fail := none })

/-! ### Waiting and scopes of a team (R261, R262) -/

/-- An operation that a word of the same chained group has started (R65, R66). -/
def inGroup (t : Team) (id : Nat) : Bool := match t.group with | some g => g.stamp ≤ id | none => false

/-- The team has memory accesses that have not completed; one deferred to a commit is not waited for (R261, R309). -/
def memBusy (s : State) (key : Nat) : Bool :=
  s.ops.any fun o => o.team = key && o.kind.isMem && !waitsCommit s o && !(inGroup (s.teamAt key) o.id)

/-- An earlier load of a team has not its value; a word of the same chained group has no earlier one (R65, R261). -/
def loadsBusy (s : State) (key : Nat) : Bool :=
  s.ops.any fun o => o.team = key && o.kind.isLoad && !waitsCommit s o && !(inGroup (s.teamAt key) o.id)

/-- The scope of a crew level's domain: CREW, or that of the domain it is bound to (R18, R19, R147). -/
def Crew.scope (c : Crew) : Nat :=
  let dom := ((c.words.getD 5 2).extractLsb' 0 3).toNat
  if dom < 2 then 1 else dom - 1

/-- The scope that a team's word or command means by a scope code: CREW is the scope of the domain its crew level is bound to (R19, R20). -/
def Crew.means (c : Crew) (scope : Nat) : Nat := if scope = 1 then c.scope else scope

/-- What a scope code means for a team with a key (R19, R20). -/
def State.meant (s : State) (key scope : Nat) : Nat := (s.crew (s.teamAt key).id.crew).means scope

/-- The acquire actions of a scope in the caches of a team's own core, by a word of the team or by an engine for it (R17, R262). -/
def State.acquireFor (s : State) (key scope : Nat) : State :=
  let t := s.teamAt key
  acquireAt s t.id.die t.id.core (s.meant key scope)

/-- The release actions of a scope in the caches of a team's own core, by a word of the team or by an engine for it (R17, R262). -/
def State.releaseFor (s : State) (key scope : Nat) : State :=
  let t := s.teamAt key
  releaseAt s t.id.die t.id.core (s.meant key scope)

/-- The acquire actions of a scope, for the team that issues. -/
def State.acquireTeam (s : State) (scope : Nat) : State := s.acquireFor s.team.key scope

/-- The release actions of a scope, for the team that issues. -/
def State.releaseTeam (s : State) (scope : Nat) : State := s.releaseFor s.team.key scope

/-! ### Buffers (R440 to R444) -/

/-- A die's fabric engine. -/
def State.spin (s : State) (d : Nat) : Spindle := (s.die d).spindle

/-- Replace a die's fabric engine. -/
def State.setSpin (s : State) (d : Nat) (x : Spindle) : State := s.setDie d { s.die d with spindle := x }

/-- The buffers that satisfy a test depart (R442). -/
def departBufs (s : State) (d : Nat) (p : SpBuf → Bool) : State :=
  let x := s.spin d
  s.setSpin d { x with bufs := x.bufs.map fun b => if p b then { b with departing := true } else b }

/-- A buffer holds an item of a team. -/
def SpBuf.of (b : SpBuf) (key : Nat) : Bool := b.items.any fun i => i.team = key

/-- The buffers that hold a team's items for some destinations depart: AFLUSH, a release at POD or SYS (R442). -/
def flushTeam (s : State) (d key : Nat) (dest : Nat → Bool) : State := departBufs s d fun b => b.of key && dest b.dest

/-- The items of a team inserted and not completed, for some destinations (R448, R458). -/
def spindleCount (s : State) (d key : Nat) (dest : Nat → Bool) : Nat :=
  let x := s.spin d
  let mine : List SpItem → Nat := fun l => (l.filter fun i => i.team = key).length
  (x.bufs.map fun b => if dest b.dest then mine b.items else 0).foldl (· + ·) 0 +
  (x.flight.map fun f => if dest f.dest then mine f.items else 0).foldl (· + ·) 0

/-- A flow's OPEN buffer, or record packet. -/
def SpBuf.isOpen (b : SpBuf) (dest job : Nat) (recs : Bool) : Bool :=
  !b.departing && b.dest == dest && b.job == job && b.recs == recs

/-- Items that a buffer or a record packet holds at most (R440, R469). -/
def spRoom (recs : Bool) : Nat := if recs then 63 else 252

/-- Put an item into a buffer; the last that fits makes it depart (R442). -/
def SpBuf.put (b : SpBuf) (now : Nat) (i : SpItem) : SpBuf :=
  { b with items := b.items ++ [i], last := now, departing := decide (spRoom b.recs ≤ b.items.length + 1) }

/-- Of some buffers, the one whose last insertion is oldest. -/
def oldestBuf (l : List SpBuf) : Option SpBuf :=
  l.foldl (fun m b => match m with | none => some b | some o => if b.last < o.last then some b else m) none

/-- An insertion of a team finds no EMPTY buffer: the OPEN buffer whose last insertion is oldest departs, once for each insertion that waits
(R442). -/
def evictBuf (s : State) (d key dest : Nat) : State :=
  let x := s.spin d
  if x.evicted.contains (key, dest) && x.bufs.any fun b => b.departing then s
  else
    match oldestBuf (x.bufs.filter fun b => !b.departing) with
    | none => s
    | some o => departBufs (s.setSpin d { x with evicted := (key, dest) :: x.evicted }) d fun b => b == o

/-- A team's remote word starts to insert: nothing has been evicted for it yet (R442). -/
def clearEvicted (s : State) (d key : Nat) : State :=
  let x := s.spin d
  if x.evicted.any fun e => e.1 = key then s.setSpin d { x with evicted := x.evicted.filter fun e => e.1 ≠ key } else s

/-- The queue that a record goes to (R472). -/
def SpBody.queue : SpBody → Option Nat
  | .rc q _ _ => some q
  | .el _ _ _ _ _ _ => none

/-- A flow's OPEN record packet for another queue departs: a packet's header names one queue (R473). -/
def departOther (s : State) (d dest job : Nat) (q : Option Nat) : State :=
  departBufs s d fun b => b.isOpen dest job true && q.isSome && (b.items.head?.map fun i => i.body.queue) != some q

/-- Insert one item into its flow's buffer, opening an EMPTY one when there is none; false when it has to wait: while 1,024 packets are
not acknowledged, or while no buffer is EMPTY (R441, R444). Record packets are held in the 512 buffers too (DEDUCED, log entry 80). -/
def spInsert (s : State) (d dest job : Nat) (i : SpItem) : State × Bool :=
  let s := departOther s d dest job i.body.queue
  let x := s.spin d
  let recs := match i.body with | .rc _ _ _ => true | .el _ _ _ _ _ _ => false
  let now := s.now d
  if x.bufs.any fun b => b.isOpen dest job recs then
    (s.setSpin d { x with bufs := x.bufs.map fun b => if b.isOpen dest job recs then b.put now i else b }, true)
  else if 512 ≤ x.bufs.length then (evictBuf s d i.team dest, false)
  else if 1024 ≤ x.flight.length then (s, false)
  else
    let b : SpBuf := { dest := dest, job := job, recs := recs, items := [], first := now, last := now }
    (s.setSpin d { x with bufs := x.bufs ++ [b.put now i], evicted := x.evicted.filter (· ≠ (i.team, dest)) }, true)

/-- Insert items in order from the `k`-th on; the first that has to wait is named (R441). -/
def spInsertAll (d job : Nat) : Nat → List (Nat × SpItem) → State → State × Option Nat
  | _, [], s => (s, none)
  | k, (dest, i) :: r, s =>
    match spInsert s d dest job i with
    | (s, true) => spInsertAll d job (k + 1) r s
    | (s, false) => (s, some k)

/-- A release that an engine makes for a team at POD or SYS departs the team's buffers and waits for their elements: whether
it may go on (R34, R262). -/
def relReady (s : State) (key scope : Nat) : State × Bool :=
  let d := (s.teamAt key).id.die
  if s.meant key scope < 5 then (s, true)
  else
    let s := flushTeam s d key fun _ => true
    (s, spindleCount s d key (fun _ => true) == 0)

/-- A message leaves: to this device itself, or off the device (R438). -/
def State.send (s : State) (dev : Nat) (m : NetMsg) : State :=
  if dev = s.devno 0 then { s with net := s.net ++ [m] } else { s with out := s.out ++ [m] }

/-- A device that no path of the fabric reaches: every path to it has failed, or no device of the system holds its number (R476). -/
def State.lost (s : State) (dev : Nat) : Bool := s.unreach.contains dev || (dev ≠ s.devno 0 && !Config.deviceHeld dev)

/-- The key of a stream of a die: destination device, job, elements or records (R445, R472). -/
def flowKey (dest job : Nat) (recs : Bool) : Nat := (dest * 2 ^ 16 + job) * 2 + if recs then 1 else 0

/-- The next sequence of a stream (R473). -/
def Spindle.next (x : Spindle) (dest job : Nat) (recs : Bool) : Nat := smGet 0 x.seqs (flowKey dest job recs)

/-- A stream's next sequence is taken. -/
def Spindle.number (x : Spindle) (dest job : Nat) (recs : Bool) : Spindle :=
  { x with seqs := smSet 0 x.seqs (flowKey dest job recs) ((x.next dest job recs + 1) % 2 ^ 32) }

/-- A packet leaves in its stream with the next sequence. -/
def Spindle.depart (x : Spindle) (f : Flight) : Spindle :=
  { x.number f.dest f.job f.recs with flight := x.flight ++ [{ f with seq := x.next f.dest f.job f.recs }] }

/-- A message without items leaves on a flow's record stream, with the stream's next sequence in its header (R472, R473). -/
def State.sendOn (s : State) (d dest job : Nat) (m : Nat → NetMsg) : State :=
  (s.setSpin d ((s.spin d).number dest job true)).send dest (m ((s.spin d).next dest job true))

/-- A queue register's reservations go back to its target (R467). -/
def returnResv (s : State) (key q : Nat) : State :=
  let t := s.teamAt key
  let r := smGet {} t.q q
  match r.dest, jobOf s t.id.die t.id.ctx with
  | some (dev, queue), some job =>
    if r.resv = 0 then s
    else
      (s.sendOn t.id.die dev job fun seq =>
        .ret {
          srcDev := s.devno t.id.die, srcDie := t.id.die, dstDev := dev, job := job, seq := seq, queue := queue, count := r.resv,
          epoch := r.epoch }).updTeam key fun t => { t with q := smSet {} t.q q { r with resv := 0 } }
  | _, _ => s.updTeam key fun t => { t with q := smSet {} t.q q { r with resv := 0 } }

/-- Every reservation of a team goes back (R467). -/
def returnAll (s : State) (key : Nat) : State :=
  ((s.teamAt key).q.filter fun e => e.2.port = 3).foldl (fun s e => returnResv s key e.1) s

/-- A release by the team that issues: it waits for its loads, stores and atomics, at POD and SYS departs its buffers and
waits for its elements, and takes the release actions of the scope (R261, R262, R447). -/
def withRelease (s : State) (scope : Nat) (k : State → Res) : Res :=
  let t := s.team
  if memBusy s t.key then .block s .fence
  else if 5 ≤ s.meant t.key scope then
    let s := flushTeam s t.id.die t.key fun _ => true
    if spindleCount s t.id.die t.key (fun _ => true) ≠ 0 then .block s .fence else k (s.releaseTeam scope)
  else k (s.releaseTeam scope)

/-- The acquire of a word at a scope (R147, R261, R262, R267): every earlier load of the team has its value, then the acquire actions. -/
def withAcquire (s : State) (scope : Nat) (k : State → Res) : Res :=
  if loadsBusy s s.team.key then .block s .fence else k (s.acquireTeam scope)

/-- FENCE.ACQ (R261). -/
def execFenceAcq (sc : BitVec 3) (s : State) : Host.Outcome State Fault Refusal :=
  runWord (.fenceAcq sc) s fun s => withAcquire s sc.toNat ok

/-- FENCE.REL (R261). -/
def execFenceRel (sc : BitVec 3) (s : State) : Host.Outcome State Fault Refusal :=
  runWord (.fenceRel sc) s fun s => withRelease s sc.toNat ok

/-- FENCE.AR (R261). -/
def execFenceAr (sc : BitVec 3) (s : State) : Host.Outcome State Fault Refusal :=
  runWord (.fenceAr sc) s fun s => withRelease s sc.toNat fun s => withAcquire s sc.toNat ok

end Sys2Proof.Machine
end

