-- ==== Sys2Proof/Machine/Image.lean ====
section
/-! DEFINITION. Rows of the slot tables and the header of a save image (spec/05_launch_engine.md R163, R194, R201;
spec/01_engines_and_ties.md R30; spec/12_fabric_engine.md R471). -/

namespace Sys2Proof.Machine

/-! ### Slot rows (R163) -/

/-- A row of a core's slot table. -/
def State.row (s : State) (ck slot : Nat) : SlotRow := smGet {} (s.core ck).slots slot

/-- Replace a row. -/
def State.setRow (s : State) (ck slot : Nat) (r : SlotRow) : State :=
  let c := s.core ck
  { s.setCore ck { c with slots := smSet {} c.slots slot r } with progress := s.progress + 1 }

/-- The slots that a crew holds, as core and slot (R163, R170). -/
def Crew.slotsOf (c : Crew) : List (Nat × Nat) := if c.spots = [] then [(coreKey c.die c.core, c.slot)] else c.spots

/-- Change every row that a crew holds. -/
def mapRows (s : State) (c : Nat) (f : SlotRow → SlotRow) : State :=
  (s.crew c).slotsOf.foldl (fun s p => if (s.row p.1 p.2).crew = c then s.setRow p.1 p.2 (f (s.row p.1 p.2)) else s) s

/-- Save begins: issue stops in every team and the crew's slots are SAVING (R164, R192). -/
def beginSave (s : State) (c : Nat) : State :=
  mapRows (s.setCrew c { s.crew c with state := .saving }) c fun r => { r with state := 3 }

/-! ### The header of a save image (R194) -/

/-- The keys of a crew's teams, ended ones too. -/
def teamKeys (s : State) (c : Nat) : List Nat :=
  ((List.range 16).map (teamKey c)).filter fun k => (s.teamAt k).id.crew = c

/-- A team's pending bits: those of its registers that no uncommitted quantum will write, and one for each element that has
not completed (R30, R276, R471). -/
def pendingBits (s : State) (key : Nat) : Nat :=
  let t := s.teamAt key
  let own := t.deferredIds
  let count : SMap Nat → Nat := fun m => (m.filter fun e => !own.contains e.2).length
  count t.r.vpend + count t.r.spend + count t.r.ppend + spindleCount s t.id.die key fun _ => true

/-- PENDING of a crew. -/
def pendingOf (s : State) (c : Nat) : Nat := ((teamKeys s c).map (pendingBits s)).foldl (· + ·) 0

/-- The class byte of a header: IDEM, QOS, the saved class, the promoted class, whether promoted (R194). -/
def Crew.classByte (c : Crew) : Byte :=
  BitVec.ofBool c.idem ++ c.qos ++ c.ceil ++ c.promoted.getD 0 ++ BitVec.ofBool c.promoted.isSome

/-- The 64 bytes of a header with a number of sections. -/
def imageHeader (s : State) (c sections : Nat) : List Byte :=
  let cr := s.crew c
  leBytes 0x53564B4C 4 ++ leBytes 1 2 ++ leBytes sections 2 ++ leBytes cr.handle 4 ++ leBytes cr.crewno 4 ++ leBytes cr.gen 4 ++
  leBytes (pendingOf s c) 4 ++ leBytes cr.missing 4 ++ [cr.classByte] ++ List.replicate 35 0

/-- The image of a saved crew follows what arrives after its capture: PENDING, MISSING and the class byte (R30, R201, R288, R471). -/
def syncImage (s : State) (c : Nat) : State :=
  let cr := s.crew c
  if cr.state ≠ .saved then s
  else setHomeBytes s (cr.area + 20) (leBytes (pendingOf s c) 4 ++ leBytes cr.missing 4 ++ [cr.classByte])

end Sys2Proof.Machine
end

