-- ==== Sys2Proof/Machine/Leave.lean ====
section
/-! DEFINITION. Current leave and effective classes (spec/01_engines_and_ties.md R35 to R40; spec/04_team_sequencer.md
R153). -/

namespace Sys2Proof.Machine

/-- Team `t` lends its class to team `u` of its crew: it is blocked in BAR, AWAIT or REFORM, or stands at a quantum end, and `u` has not arrived
there; the loan ends when the phase that `t` waits for completes (R153, R274). -/
def lends (cr : Crew) (t u : Team) : Bool :=
  let arrived : Nat → Nat → Bool := fun b n => (smGet {} cr.barriers b).arrived.contains n
  t.id.alive && t.id.tno ≠ u.id.tno &&
  (match t.sched.wait with
   | some (.barrier b) => arrived b t.id.tno && !arrived b u.id.tno
   | some (.phase b v) => decide (((smGet {} cr.barriers b).phase - v - 1).toInt < 0) && !arrived b u.id.tno
   | some .reform => (cr.reform.any fun e => e.1 = t.id.tno) && !(cr.reform.any fun e => e.1 = u.id.tno)
   | some .quantum => t.dq.atEnd && !u.dq.atEnd
   | _ => false)

/-- One round of lending over the classes of a crew's teams. -/
def lendRound (s : State) (c : Nat) (cl : List (Nat × Nat)) : List (Nat × Nat) :=
  let cr := s.crew c
  cl.map fun e =>
    (e.1, cl.foldl (fun m f => if lends cr (s.teamAt (teamKey c f.1)) (s.teamAt (teamKey c e.1)) && m < f.2 then f.2 else m) e.2)

/-- The effective classes of a crew's live teams (R153): a loan passes on what was lent to the lender. -/
def effClasses (s : State) (c : Nat) : List (Nat × Nat) :=
  (List.range 16).foldl (fun cl _ => lendRound s c cl)
    ((s.liveTeams c).map fun n => (n, (s.teamAt (teamKey c n)).cls.toNat))

/-- The effective class of a team (R153). -/
def effClass (s : State) (c n : Nat) : Nat :=
  (((effClasses s c).find? fun e => e.1 = n).map Prod.snd).getD ((s.teamAt (teamKey c n)).cls.toNat)

/-- A die's arbiter. -/
def State.arb (s : State) (d : Nat) : Arbiter := (s.die d).arb

/-- Replace a die's arbiter. -/
def State.setArb (s : State) (d : Nat) (a : Arbiter) : State := s.setDie d { s.die d with arb := a }

/-- A request joins the arbiter's queue (R36). -/
def askLeave (s : State) (d : Nat) (r : LeaveReq) : State :=
  s.setArb d { s.arb d with waiting := (s.arb d).waiting ++ [r] }

/-- A request that has not been granted is withdrawn (R38). -/
def withdrawLeave (s : State) (d : Nat) (who : LeaveWho) : State :=
  s.setArb d { s.arb d with waiting := (s.arb d).waiting.filter fun r => r.who ≠ who }

/-- A grant is returned (R37). -/
def returnLeave (s : State) (d amps : Nat) : State :=
  { s.setArb d { s.arb d with inuse := (s.arb d).inuse - amps } with progress := s.progress + 1 }

/-- What an operation does with its leave when it ends or is abandoned (R37, R38). -/
def dropLeave (s : State) (d amps : Nat) (who : LeaveWho) : Leave → State
  | .free => s
  | .asked => withdrawLeave s d who
  | .held => returnLeave s d amps

/-- A request fits the pool and the ramp limit at a cycle count (R36). -/
def leaveFits (a : Arbiter) (now : Nat) (r : LeaveReq) : Bool :=
  let fresh := (a.recent.filter fun g => now < g.1 + 32).foldl (fun m g => m + g.2) 0
  a.inuse + r.amps ≤ a.pool && (fresh + r.amps ≤ a.ramp || (a.ramp < r.amps && fresh = 0))

/-- The request of the highest class, the earliest within it. -/
def bestReq : List LeaveReq → Option LeaveReq
  | [] => none
  | r :: l =>
    match bestReq l with
    | none => some r
    | some b => if r.cls < b.cls then some b else some r

/-- The request granted next (R36): one passed over for 64 consecutive grants before any other; otherwise by class and
arrival among those that fit. While such a request does not fit, no other is granted, and of several such requests the earliest goes first whatever
its class: R36 says of it only that it is granted next, provided it fits (DESIGN CHOICE, log entry 17). -/
def nextGrant (a : Arbiter) (now : Nat) : Option LeaveReq :=
  match a.waiting.find? fun r => 64 ≤ r.passed with
  | some r => if leaveFits a now r then some r else none
  | none => bestReq (a.waiting.filter (leaveFits a now))

/-- The arbiter after granting a request: every request that still waits has been passed over once more (R36). -/
def grantReq (a : Arbiter) (now : Nat) (r : LeaveReq) : Arbiter :=
  { a with
    inuse := a.inuse + r.amps,
    recent := (now, r.amps) :: a.recent.filter fun g => now < g.1 + 32,
    waiting := (a.waiting.filter fun x => x.who ≠ r.who).map fun x => { x with passed := x.passed + 1 } }

end Sys2Proof.Machine
end

