-- ==== Sys2Proof/Machine/Elementary.lean ====
section
/-! DEFINITION. The single-source float words whose result the spec bounds and does not fix (spec/06_vector_engine.md
R221, R222): reciprocals, powers of two, logarithms, sine and cosine. An exact value is enclosed to far more places than
any format has; the implementation's own result is the free value Config.approx where it lies within the bound of R221,
and the correctly rounded result otherwise (log entry 8). -/

namespace Sys2Proof.Machine

/-- A positive real `(m + d) * 2 ^ e` with `0 ≤ d < 1`, `d = 0` unless `more`. -/
structure Enclosed where
  m : Nat
  e : Int
  more : Bool
  deriving DecidableEq, Repr

/-- `2 ^ 400 * pi`, rounded down. -/
def piFix : Nat :=
  0x3243f6a8885a308d313198a2e03707344a4093822299f31d0082efa98ec4e6c89452821e638d01377be5466cf34e90c6cc0ac

/-- `2 ^ 200 * ln 2`, rounded down. -/
def ln2Fix : Nat := 0xb17217f7d1cf79abc9e3b39803f2f6af40f343267298b62d8a

/-- Sum of the terms `t, t z / k, t z z / (k (k + 1)), …` of an exponential series in fixed point with `p` fraction
bits: `n` terms from number `k` on. -/
def expTerms (p z : Nat) : Nat → Nat → Nat → Nat
  | 0, _, _ => 0
  | n + 1, k, t => t + expTerms p z n (k + 1) ((t * z) >>> p / k)

/-- `2 ^ (f / 2 ^ 200)` for `f < 2 ^ 200`, in fixed point with 200 fraction bits. -/
def exp2Fix (f : Nat) : Nat := expTerms 200 ((f * ln2Fix) >>> 200) 60 1 (2 ^ 200)

/-- Terms of the sine or cosine series of `z` (fixed point, `p` fraction bits): signs alternate, each term is the last
times `z2 = z * z` over `k (k + 1)`. -/
def trigTerms (p : Nat) (z2 : Int) : Nat → Nat → Int → Int
  | 0, _, _ => 0
  | n + 1, k, t => t + trigTerms p z2 n (k + 2) (-((t * z2) / 2 ^ p / (k * (k + 1) : Nat)))

/-- `sin (pi * r)` for `0 ≤ r ≤ 1/2` given as `rn / 2 ^ 400`, in fixed point with 400 fraction bits. -/
def sinFix (rn : Nat) : Nat :=
  let z := (rn * piFix) >>> 400
  (trigTerms 400 ((z * z) >>> 400) 60 2 z).toNat

/-- Bits of `log2 y` for `1 ≤ y < 2`, `y` in fixed point with 200 fraction bits: `n` bits, appended to `acc`. -/
def log2Bits : Nat → Nat → Nat → Nat
  | 0, _, acc => acc
  | n + 1, y, acc =>
    let q := (y * y) >>> 200
    if 2 ^ 201 ≤ q then log2Bits n (q / 2) (2 * acc + 1) else log2Bits n q (2 * acc)

/-- A bound on the error: so many units in the last place of the exact result, or an absolute `2 ^ -22` (R221). -/
structure Bound where
  ulps : Nat
  abs22 : Bool
  useUlps : Bool := true

/-- The exponent of the last place of a positive exact value in a format. -/
def lastPlace (f : Fmt) (m : Nat) (e : Int) : Int :=
  let emin : Int := 1 - (f.bias : Int)
  let top : Int := e + Nat.log2 m
  (if top < emin then emin else top) - f.mbits

/-- A finite candidate lies within the bound of the exact value `± (m + d) * 2 ^ e`. -/
def withinBound (f : Fmt) (b : Bound) (neg : Bool) (x : Enclosed) (c : FVal) : Bool :=
  match c with
  | .nan _ => false
  | .inf _ => false
  | .fin n m e =>
    let diff := dyAdd (sgn n m) e (-(sgn neg x.m)) x.e
    let size (k : Int) : Nat × Int := (diff.1.natAbs, diff.2 - k)
    let le (w : Nat × Int) (n : Nat) : Bool := if 0 ≤ w.2 then w.1 <<< w.2.toNat < n else w.1 < n <<< (-w.2).toNat
    let leq (w : Nat × Int) (n : Nat) : Bool := if 0 ≤ w.2 then w.1 <<< w.2.toNat ≤ n else w.1 ≤ n <<< (-w.2).toNat
    let ok (k : Int) (n : Nat) : Bool := if x.more then le (size k) n else leq (size k) n
    (b.useUlps && ok (lastPlace f x.m x.e) b.ulps) || (b.abs22 && ok (-22) 1)

/-- The result of a bounded word: the implementation's where it is within the bound and the rounded exact result does
not overflow, else the rounded exact result, also where no code of the format lies within the bound (log entry 8). NX says that the result is not exact, UF that besides the exact result is
below the smallest normal (R111, R221). -/
def approxResult (f : Fmt) (fn t bits : Nat) (b : Bound) (neg : Bool) (x : Enclosed) : Nat × Flags :=
  let r := roundMag f .rne 0 neg x.m x.e x.more
  let c := Config.approx fn t bits % 2 ^ f.bits
  if r.2 &&& flagOF ≠ 0 then r
  else if b.ulps = 0 && !b.abs22 then r
  else if withinBound f b neg x (unpackF f c) then
    let same : Bool := !x.more && (match unpackF f c with
      | .fin n m e => (dyAdd (sgn n m) e (-(sgn neg x.m)) x.e).1 == 0
      | _ => false)
    let tiny : Bool := decide (x.e + (Nat.log2 x.m : Int) < 1 - (f.bias : Int))
    (c, flagIf (!same) flagNX ||| flagIf (!same && tiny) flagUF)
  else r

/-- 1 over a finite non-zero magnitude. -/
def recipEnc (m : Nat) (e : Int) : Enclosed :=
  let k := 200 + Nat.log2 m
  { m := 2 ^ k / m, e := -e - k, more := 2 ^ k % m != 0 }

/-- 1 over the square root of a positive magnitude. -/
def rsqrtEnc (m : Nat) (e : Int) : Enclosed :=
  let m' := if e % 2 = 0 then m else 2 * m
  let e' := if e % 2 = 0 then e else e - 1
  let k := 2 * (200 + Nat.log2 m')
  let q := 2 ^ k / m'
  let r := isqrt q
  { m := r, e := -(e' / 2) - ((k / 2 : Nat) : Int), more := !(r * r == q && 2 ^ k % m' == 0) }

/-- FRCP (R221, R222). -/
def fRcp (f : Fmt) (t bits : Nat) : Nat × Flags :=
  match unpackF f bits with
  | .nan s => nanResult f s
  | .inf n => (f.signCode n, 0)
  | .fin n m e =>
    if m = 0 then (f.signCode n + f.infCode, flagDZ)
    else approxResult f 0 t bits { ulps := if f = .f32 || f = .f64 then 1 else 0, abs22 := false } n (recipEnc m e)

/-- FRSQ (R221, R222). -/
def fRsq (f : Fmt) (t bits : Nat) : Nat × Flags :=
  match unpackF f bits with
  | .nan s => nanResult f s
  | .inf n => if n then nanResult f true else (0, 0)
  | .fin n m e =>
    if m = 0 then (f.signCode n + f.infCode, flagDZ)
    else if n then nanResult f true
    else approxResult f 1 t bits { ulps := if f = .f32 || f = .f64 then 1 else 0, abs22 := false } false (rsqrtEnc m e)

/-- The integer part, rounded down, and the fraction with 200 places of a dyadic, with whether places were cut. -/
def splitFix (n : Bool) (m : Nat) (e : Int) : Int × Nat × Bool :=
  let v := sgn n m
  if 0 ≤ e then (v * 2 ^ e.toNat, 0, false)
  else
    let k := (-e).toNat
    let i := v / 2 ^ k
    let fr := (v - i * 2 ^ k).toNat
    if k ≤ 200 then (i, fr <<< (200 - k), false) else (i, fr >>> (k - 200), true)

/-- FEX2 (R221, R222). -/
def fEx2 (f : Fmt) (t bits : Nat) : Nat × Flags :=
  match unpackF f bits with
  | .nan s => nanResult f s
  | .inf n => if n then (0, 0) else (f.infCode, 0)
  | .fin n m e =>
    let s := splitFix n m e
    let k : Int := if s.1 < -5000 then -5000 else if 5000 < s.1 then 5000 else s.1
    let exact : Bool := s.2.1 == 0 && !s.2.2
    let b : Bound := { ulps := if f = .f32 then 2 else 1, abs22 := false }
    approxResult f 3 t bits b false { m := if exact then 2 ^ 200 else exp2Fix s.2.1, e := k - 200, more := !exact }

/-- FLG2 (R221, R222). Inside [0.5, 2] most operands of .f16 and .bf16 have no code of the format within 2^-22 of their logarithm, so that R221's bound
cannot be met: the result there is the correctly rounded one (DESIGN CHOICE, log entry 8). -/
def fLg2 (f : Fmt) (t bits : Nat) : Nat × Flags :=
  match unpackF f bits with
  | .nan s => nanResult f s
  | .inf n => if n then nanResult f true else (f.infCode, 0)
  | .fin n m e =>
    if m = 0 then (f.signCode true + f.infCode, flagDZ)
    else if n then nanResult f true
    else
      let k := Nat.log2 m
      let x : Int := e + k
      let y := m <<< (200 - k)
      let exact : Bool := m == 2 ^ k
      let v : Int := x * 2 ^ 150 + log2Bits 150 y 0
      let near : Bool := (x == 0 || x == -1 || (x == 1 && exact))
      if v = 0 then (if exact then (0, 0) else approxResult f 4 t bits { ulps := 2, abs22 := true, useUlps := false } false { m := 1, e := -150, more := true })
      else
        -- a negative inexact value's magnitude lies below the one found, within its last place
        let mag := if v < 0 && !exact then v.natAbs - 1 else v.natAbs
        let b : Bound := { ulps := 2, abs22 := near, useUlps := !near }
        approxResult f 4 t bits b (decide (v < 0)) { m := mag, e := -150, more := !exact }

/-- An argument in half-turns reduced exactly: quarter-turn number 0 to 3 and the rest, below 1/2, over `2 ^ 400`. -/
def halfTurns (m : Nat) (e : Int) : Nat × Nat :=
  if 0 ≤ e then ((m <<< e.toNat) % 2 * 2, 0)
  else
    let k := (-e).toNat
    let r := m % (2 * 2 ^ k)
    let q := 2 * r / 2 ^ k
    let rest := r - q * 2 ^ k / 2
    (q, if k ≤ 400 then rest <<< (400 - k) else rest >>> (k - 400))

/-- `sin` or `cos` of `pi` times a finite value (R221, R222); `quarter` is 0 for the sine and 1 for the cosine. -/
def fTrig (f : Fmt) (fn t bits quarter : Nat) : Nat × Flags :=
  match unpackF f bits with
  | .nan s => nanResult f s
  | .inf _ => nanResult f true
  | .fin n m e =>
    let h := halfTurns m e
    let q := (h.1 + quarter) % 4
    -- the sine is odd, the cosine even
    let flip := quarter = 0 && n
    let b : Bound := { ulps := 2, abs22 := true }
    if h.2 = 0 && (m = 0 || 0 ≤ e || (m % 2 ^ ((-e).toNat - 1) = 0)) then
      if q % 2 = 0 then (if quarter = 0 then f.signCode n else 0, 0)
      else
        let neg := (q = 3) != flip
        if quarter = 1 then roundMag f .rne 0 neg 1 0 false
        else approxResult f fn t bits b neg { m := 1, e := 0, more := false }
    else
      let rn := if q % 2 = 0 then h.2 else 2 ^ 399 - h.2
      approxResult f fn t bits b ((2 ≤ q) != flip) { m := sinFix rn, e := -400, more := true }

end Sys2Proof.Machine
end

