-- ==== Sys2Proof/Machine/Vector.lean ====
section
/-! DEFINITION. The vector words (spec/06_vector_engine.md R210 to R239). Each is one definition over the shared lane
operations below; a word writes only the lanes of its effective mask (R210), and every source is read before any lane
is written. -/

namespace Sys2Proof.Machine

/-- Write `n` registers from `d` on in each active lane, with the flags each lane raises (R210, R214). -/
def Team.vWrite (t : Team) (d n : Nat) (g : Nat → Nat × Flags) : Team :=
  t.lanes.foldl (fun a l => (a.setVn d l (g l).1 n).raise (g l).2) t

/-- A vector word with a lane-local result. -/
def vecWord (i : Instr) (s : State) (d n : Nat) (g : Team → Nat → Nat × Flags) :
    Host.Outcome State Fault Refusal :=
  runWord i s fun s => ok (s.mapTeam fun t => t.vWrite d n (g t))

/-- The format of a floating-point T code (R69). -/
def fFmt (t : BitVec 3) : Fmt :=
  if t = 0 then .f32 else if t = 1 then .f64 else if t = 2 then .f16 else if t = 3 then .bf16
  else if t = 4 then .e4m3 else .e5m2

/-- The bits of a lane's float operand: the low bits of its register or pair (R213). -/
def fBits (tm : Team) (t : BitVec 3) (r l : Nat) : Nat := tm.getVn r l (fWide t) % 2 ^ (fFmt t).bits

/-- A lane's float operand. -/
def fVal (tm : Team) (t : BitVec 3) (r l : Nat) : FVal := unpackF (fFmt t) (fBits tm t r l)

/-- A word `vD := RNE (vA op vB)` (R217). -/
def fWord2 (i : Instr) (t : BitVec 3) (d a b : BitVec 7) (op : Fmt → FVal → FVal → Nat × Flags) (s : State) :
    Host.Outcome State Fault Refusal :=
  vecWord i s d.toNat (fWide t) fun tm l => op (fFmt t) (fVal tm t a.toNat l) (fVal tm t b.toNat l)

/-- FADD (R217). -/
def execFadd (t : BitVec 3) (d a b : BitVec 7) (s : State) : Host.Outcome State Fault Refusal :=
  fWord2 (.fadd t d a b) t d a b (fun f x y => fAddV f .rne x y) s

/-- FSUB (R217). -/
def execFsub (t : BitVec 3) (d a b : BitVec 7) (s : State) : Host.Outcome State Fault Refusal :=
  fWord2 (.fsub t d a b) t d a b (fun f x y => fAddV f .rne x y.flip) s

/-- FMUL (R217). -/
def execFmul (t : BitVec 3) (d a b : BitVec 7) (s : State) : Host.Outcome State Fault Refusal :=
  fWord2 (.fmul t d a b) t d a b (fun f x y => fMulV f .rne x y) s

/-- FDIV (R217). -/
def execFdiv (t : BitVec 3) (d a b : BitVec 7) (s : State) : Host.Outcome State Fault Refusal :=
  fWord2 (.fdiv t d a b) t d a b (fun f x y => fDivV f .rne x y) s

/-- FFMA: the exact product and sum, one rounding; vD is the addend (R217). -/
def execFfma (t : BitVec 3) (d a b : BitVec 7) (s : State) : Host.Outcome State Fault Refusal :=
  vecWord (.ffma t d a b) s d.toNat (fWide t) fun tm l =>
    fFmaV (fFmt t) .rne (fVal tm t a.toNat l) (fVal tm t b.toNat l) (fVal tm t d.toNat l)

/-- The smaller (or larger) of two operands, by their bits (R218): the other operand of a NaN, -0 below +0. -/
def fMinMax (f : Fmt) (large : Bool) (x y : Nat) : Nat × Flags :=
  let a := unpackF f x
  let b := unpackF f y
  let nv := flagIf (a.snan || b.snan) flagNV
  if a.isNan && b.isNan then (f.nanCode, nv)
  else if a.isNan then (y, nv)
  else if b.isNan then (x, nv)
  else
    match fCmpV a b with
    | some .lt => (if large then y else x, nv)
    | some .gt => (if large then x else y, nv)
    | _ => (if (2 ^ (f.bits - 1) ≤ x) = large then y else x, nv)

/-- FMIN (R218). -/
def execFmin (t : BitVec 3) (d a b : BitVec 7) (s : State) : Host.Outcome State Fault Refusal :=
  vecWord (.fmin t d a b) s d.toNat (fWide t) fun tm l =>
    fMinMax (fFmt t) false (fBits tm t a.toNat l) (fBits tm t b.toNat l)

/-- FMAX (R218). -/
def execFmax (t : BitVec 3) (d a b : BitVec 7) (s : State) : Host.Outcome State Fault Refusal :=
  vecWord (.fmax t d a b) s d.toNat (fWide t) fun tm l =>
    fMinMax (fFmt t) true (fBits tm t a.toNat l) (fBits tm t b.toNat l)

/-- The exact sum of three finite or infinite values with the special rules of R115 for one step of products `p` and
`q` and accumulator `c`, rounded to binary32 (R220). -/
def dotStep (c : FVal) (p q : Option FVal) : Nat × Flags :=
  match p, q with
  | some p, some q =>
    if p.isNan || q.isNan then nanResult .f32 true
    else
      match p, q with
      | .inf n, .inf n' => if n = n' then fAddV .f32 .rne c p else nanResult .f32 true
      | .inf _, _ => fAddV .f32 .rne c p
      | _, .inf _ => fAddV .f32 .rne c q
      | .fin n1 m1 e1, .fin n2 m2 e2 =>
        let r := dyAdd (sgn n1 m1) e1 (sgn n2 m2) e2
        match c with
        | .fin n m e =>
          let x := dyAdd (sgn n m) e r.1 r.2
          roundInt .f32 .rne 0 (m = 0 && m1 = 0 && m2 = 0 && n && n1 && n2) x.1 x.2
        | _ => fAddV .f32 .rne c (.fin (decide (r.1 < 0)) r.1.natAbs r.2)
      | _, _ => nanResult .f32 true
  | _, _ => nanResult .f32 true

/-- FDOT2 (R220). -/
def execFdot2 (t : BitVec 3) (d a b : BitVec 7) (s : State) : Host.Outcome State Fault Refusal :=
  vecWord (.fdot2 t d a b) s d.toNat 1 fun tm l =>
    let f := fFmt t
    let x := (tm.getV a.toNat l).toNat
    let y := (tm.getV b.toNat l).toNat
    dotStep (unpackF .f32 (tm.getV d.toNat l).toNat)
      (fMulExact (unpackF f (x % 65536)) (unpackF f (y % 65536)))
      (fMulExact (unpackF f (x / 65536)) (unpackF f (y / 65536)))

/-- vA with a sign bit computed from the two signs (R219). -/
def signWord (i : Instr) (t : BitVec 3) (d a b : BitVec 7) (g : Bool → Bool → Bool) (s : State) :
    Host.Outcome State Fault Refusal :=
  vecWord i s d.toNat (fWide t) fun tm l =>
    let k := 2 ^ ((fFmt t).bits - 1)
    let x := fBits tm t a.toNat l
    let y := fBits tm t b.toNat l
    (x % k + (if g (k ≤ x) (k ≤ y) then k else 0), 0)

/-- FSGN (R219). -/
def execFsgn (t : BitVec 3) (d a b : BitVec 7) (s : State) : Host.Outcome State Fault Refusal :=
  signWord (.fsgn t d a b) t d a b (fun _ y => y) s

/-- FSGN.NEG (R219). -/
def execFsgnNeg (t : BitVec 3) (d a b : BitVec 7) (s : State) : Host.Outcome State Fault Refusal :=
  signWord (.fsgnNeg t d a b) t d a b (fun _ y => !y) s

/-- FSGN.XOR (R219). -/
def execFsgnXor (t : BitVec 3) (d a b : BitVec 7) (s : State) : Host.Outcome State Fault Refusal :=
  signWord (.fsgnXor t d a b) t d a b (fun x y => x != y) s

/-- A comparison's outcome by COND, given the order of the operands, none when unordered (R230). -/
def condHolds (k : Nat) (o : Option Ordering) : Bool :=
  match k with
  | 0 => o == some .eq
  | 1 => o != some .eq
  | 2 => o == some .lt
  | 3 => o == some .lt || o == some .eq
  | 4 => o == some .gt
  | 5 => o == some .gt || o == some .eq
  | 6 => o.isSome
  | _ => o.isNone

/-- A comparison: pD in the active lanes, with flags (R230). -/
def cmpWord (i : Instr) (p : BitVec 3) (g : Team → Nat → Bool × Flags) (s : State) :
    Host.Outcome State Fault Refusal :=
  runWord i s fun s => ok (s.mapTeam fun t =>
    let t' := t.setP p.toNat t.eff (maskOf (t.lanes.filter fun l => (g t l).1))
    t.lanes.foldl (fun a l => a.raise (g t l).2) t')

/-- FCMP (R230). -/
def execFcmp (t : BitVec 3) (k : BitVec 4) (p : BitVec 3) (a b : BitVec 7) (s : State) :
    Host.Outcome State Fault Refusal :=
  cmpWord (.fcmp t k p a b) p (fun tm l =>
    let x := fVal tm t a.toNat l
    let y := fVal tm t b.toNat l
    let ordered : Bool := 2 ≤ k.toNat && k.toNat ≤ 5
    (condHolds k.toNat (fCmpV x y), flagIf (x.snan || y.snan || (ordered && (x.isNan || y.isNan))) flagNV)) s

/-- A single-source float word of R221. -/
def fWord1 (i : Instr) (t : BitVec 3) (d a : BitVec 7) (g : Fmt → Nat → Nat × Flags) (s : State) :
    Host.Outcome State Fault Refusal :=
  vecWord i s d.toNat (fWide t) fun tm l => g (fFmt t) (fBits tm t a.toNat l)

/-- FRCP (R221, R222). -/
def execFrcp (d a : BitVec 7) (t : BitVec 3) (s : State) : Host.Outcome State Fault Refusal :=
  fWord1 (.frcp d a t) t d a (fun f x => fRcp f t.toNat x) s

/-- FRSQ (R221, R222). -/
def execFrsq (d a : BitVec 7) (t : BitVec 3) (s : State) : Host.Outcome State Fault Refusal :=
  fWord1 (.frsq d a t) t d a (fun f x => fRsq f t.toNat x) s

/-- FSQRT (R221, R222). -/
def execFsqrt (d a : BitVec 7) (t : BitVec 3) (s : State) : Host.Outcome State Fault Refusal :=
  fWord1 (.fsqrt d a t) t d a (fun f x => fSqrtV f .rne (unpackF f x)) s

/-- FEX2 (R221, R222). -/
def execFex2 (d a : BitVec 7) (t : BitVec 3) (s : State) : Host.Outcome State Fault Refusal :=
  fWord1 (.fex2 d a t) t d a (fun f x => fEx2 f t.toNat x) s

/-- FLG2 (R221, R222). -/
def execFlg2 (d a : BitVec 7) (t : BitVec 3) (s : State) : Host.Outcome State Fault Refusal :=
  fWord1 (.flg2 d a t) t d a (fun f x => fLg2 f t.toNat x) s

/-- FSIN (R221, R222). -/
def execFsin (d a : BitVec 7) (t : BitVec 3) (s : State) : Host.Outcome State Fault Refusal :=
  fWord1 (.fsin d a t) t d a (fun f x => fTrig f 5 t.toNat x 0) s

/-- FCOS (R221, R222). -/
def execFcos (d a : BitVec 7) (t : BitVec 3) (s : State) : Host.Outcome State Fault Refusal :=
  fWord1 (.fcos d a t) t d a (fun f x => fTrig f 6 t.toNat x 1) s

/-- The class of a code as a bit number (R223). -/
def classBit (f : Fmt) (x : Nat) : Nat :=
  match unpackF f x with
  | .nan s => if s then 8 else 9
  | .inf n => if n then 0 else 7
  | .fin n m _ =>
    if m = 0 then (if n then 3 else 4)
    else if m < 2 ^ f.mbits then (if n then 2 else 5)
    else (if n then 1 else 6)

/-- FCLASS (R223). -/
def execFclass (d a : BitVec 7) (t : BitVec 3) (s : State) : Host.Outcome State Fault Refusal :=
  vecWord (.fclass d a t) s d.toNat 1 fun tm l => (2 ^ classBit (fFmt t) (fBits tm t a.toNat l), 0)

/-- A value rounded to an integral value of its format; the sign stays; the flags are R224's, NX and NV, and no UF for a subnormal (R224;
DEDUCED, log entry 87). -/
def roundIntegral (f : Fmt) (rm : Rm) (x : Nat) : Nat × Flags :=
  match unpackF f x with
  | .nan s => nanResult f s
  | .inf _ => (x, 0)
  | .fin n m e =>
    let r := roundToInt rm 0 n m e
    ((roundMag f .rne 0 n r.1.natAbs 0 false).1, flagIf r.2 flagNX)

/-- FRND (R224). -/
def execFrnd (d a : BitVec 7) (t m : BitVec 3) (s : State) : Host.Outcome State Fault Refusal :=
  fWord1 (.frnd d a t m) t d a (fun f x => roundIntegral f ((Rm.ofField m.toNat).getD .rne) x) s

/-- The format of an FCVT destination (R225). -/
def cvtFmt (x : BitVec 4) : Fmt :=
  match x.toNat with
  | 0 => .f32 | 1 => .f64 | 2 => .f16 | 3 => .bf16 | 4 => .e4m3 | 5 => .e5m2 | 6 => .e4m3s | 7 => .e3m2 | 8 => .e2m3
  | _ => .e2m1

/-- A conversion between float formats (R225): a NaN into a format of R102 or into .e4m3s gives +0 and NV; the same
format copies, but for a signalling NaN. -/
def convert (src dst : Fmt) (rm : Rm) (rnd x : Nat) : Nat × Flags :=
  let v := unpackF src x
  if src = dst && !v.snan then (x, 0)
  else if v.isNan && (!dst.hasNan || dst = .e4m3s) then (0, flagNV)
  else fCvtV dst rm rnd v

/-- FCVT; SR takes its seed from s56, its counter from s58 and the lane's number as index (R225, R226). -/
def execFcvt (d a : BitVec 7) (t : BitVec 3) (x : BitVec 4) (m : BitVec 3) (s : State) :
    Host.Outcome State Fault Refusal :=
  vecWord (.fcvt d a t x m) s d.toNat (cvtWide x) fun tm l =>
    let rm := (Rm.ofField m.toNat).getD .rne
    let rnd := if rm = .sr then srRnd (tm.getS64 56) (tm.getS64 58) l else 0
    convert (fFmt t) (cvtFmt x) rm rnd (fBits tm t a.toNat l)

/-- Width and signedness of an integer T code (R69). -/
def iBits (i : BitVec 3) : Nat :=
  if i.toNat < 2 then 32 else if i.toNat < 4 then 64 else if i.toNat < 6 then 16 else 8

/-- A signed integer T code. -/
def iSigned (i : BitVec 3) : Bool := !i.getLsbD 0

/-- A number of `w` bits in the interpretation of a T code. -/
def asInt (i : BitVec 3) (v : Nat) : Int :=
  let w := iBits i
  let u := v % 2 ^ w
  if iSigned i && 2 ^ (w - 1) ≤ u then (u : Int) - 2 ^ w else u

/-- An integer in `n` registers, sign- or zero-extended. -/
def intRegs (v : Int) (n : Nat) : Nat := (v % 2 ^ (32 * n)).toNat

/-- ICVT (R227, R112). -/
def execIcvt (d a : BitVec 7) (r : BitVec 1) (f i m : BitVec 3) (s : State) : Host.Outcome State Fault Refusal :=
  let rm := (Rm.ofField m.toNat).getD .rne
  if r = 0 then
    vecWord (.icvt d a r f i m) s d.toNat (fWide f) fun tm l =>
      roundInt (fFmt f) rm 0 false (asInt i (tm.getVn a.toNat l (iWide i))) 0
  else
    vecWord (.icvt d a r f i m) s d.toNat (iWide i) fun tm l =>
      let x := fToInt (iSigned i) (iBits i) rm (fVal tm f a.toNat l)
      (intRegs x.1 (iWide i), x.2)

/-- An integer word `vD := vA op vB` on 32- or 64-bit operands (R228). -/
def iWord (i : Instr) (t : BitVec 3) (d a b : BitVec 7) (g : Nat → Nat → Nat) (s : State) :
    Host.Outcome State Fault Refusal :=
  vecWord i s d.toNat (iWide t) fun tm l =>
    (g (tm.getVn a.toNat l (iWide t)) (tm.getVn b.toNat l (iWide t)) % 2 ^ iBits t, 0)

/-- IADD (R228). -/
def execIadd (t : BitVec 3) (d a b : BitVec 7) (s : State) : Host.Outcome State Fault Refusal :=
  iWord (.iadd t d a b) t d a b (fun x y => x + y) s

/-- ISUB (R228). -/
def execIsub (t : BitVec 3) (d a b : BitVec 7) (s : State) : Host.Outcome State Fault Refusal :=
  iWord (.isub t d a b) t d a b (fun x y => x + (2 ^ iBits t - y)) s

/-- IMUL (R228). -/
def execImul (t : BitVec 3) (d a b : BitVec 7) (s : State) : Host.Outcome State Fault Refusal :=
  iWord (.imul t d a b) t d a b (fun x y => x * y) s

/-- The high half of the exact product (R228). -/
def mulHigh (t : BitVec 3) (x y : Nat) : Nat := (asInt t x * asInt t y / 2 ^ iBits t % 2 ^ iBits t).toNat

/-- IMULH (R228). -/
def execImulh (t : BitVec 3) (d a b : BitVec 7) (s : State) : Host.Outcome State Fault Refusal :=
  iWord (.imulh t d a b) t d a b (mulHigh t) s

/-- IMAD: vD is also read (R228). -/
def execImad (t : BitVec 3) (d a b : BitVec 7) (s : State) : Host.Outcome State Fault Refusal :=
  vecWord (.imad t d a b) s d.toNat (iWide t) fun tm l =>
    ((tm.getVn a.toNat l (iWide t) * tm.getVn b.toNat l (iWide t) + tm.getVn d.toNat l (iWide t)) % 2 ^ iBits t, 0)

/-- IMIN (R228). -/
def execImin (t : BitVec 3) (d a b : BitVec 7) (s : State) : Host.Outcome State Fault Refusal :=
  iWord (.imin t d a b) t d a b (fun x y => if asInt t x ≤ asInt t y then x else y) s

/-- IMAX (R228). -/
def execImax (t : BitVec 3) (d a b : BitVec 7) (s : State) : Host.Outcome State Fault Refusal :=
  iWord (.imax t d a b) t d a b (fun x y => if asInt t x ≤ asInt t y then y else x) s

/-- A shift by the 32-bit register vB (R228). -/
def shiftWord (i : Instr) (t : BitVec 3) (d a b : BitVec 7) (g : Nat → Nat → Nat) (s : State) :
    Host.Outcome State Fault Refusal :=
  vecWord i s d.toNat (iWide t) fun tm l =>
    (g (tm.getVn a.toNat l (iWide t)) (tm.getV b.toNat l).toNat % 2 ^ iBits t, 0)

/-- ISHL (R228). -/
def execIshl (t : BitVec 3) (d a b : BitVec 7) (s : State) : Host.Outcome State Fault Refusal :=
  shiftWord (.ishl t d a b) t d a b (fun x y => if y < iBits t then x <<< y else 0) s

/-- ISHR (R228). -/
def execIshr (t : BitVec 3) (d a b : BitVec 7) (s : State) : Host.Outcome State Fault Refusal :=
  shiftWord (.ishr t d a b) t d a b (fun x y => if y < iBits t then x >>> y else 0) s

/-- A number of `w` bits shifted right with its sign filled in; by `w` or more, every bit is the sign (R228). -/
def shiftSign (w x y : Nat) : Nat :=
  let v : Int := if 2 ^ (w - 1) ≤ x then (x : Int) - 2 ^ w else x
  (v / 2 ^ (if y < w then y else w) % 2 ^ w).toNat

/-- ISRA (R228): the sign fills whatever the signedness of T. -/
def execIsra (t : BitVec 3) (d a b : BitVec 7) (s : State) : Host.Outcome State Fault Refusal :=
  shiftWord (.isra t d a b) t d a b (fun x y => shiftSign (iBits t) x y) s

/-- IAND (R228). -/
def execIand (t : BitVec 3) (d a b : BitVec 7) (s : State) : Host.Outcome State Fault Refusal :=
  iWord (.iand t d a b) t d a b (fun x y => x &&& y) s

/-- IOR (R228). -/
def execIor (t : BitVec 3) (d a b : BitVec 7) (s : State) : Host.Outcome State Fault Refusal :=
  iWord (.ior t d a b) t d a b (fun x y => x ||| y) s

/-- IXOR (R228). -/
def execIxor (t : BitVec 3) (d a b : BitVec 7) (s : State) : Host.Outcome State Fault Refusal :=
  iWord (.ixor t d a b) t d a b (fun x y => x ^^^ y) s

/-- ICMP (R230). -/
def execIcmp (t : BitVec 3) (k : BitVec 4) (p : BitVec 3) (a b : BitVec 7) (s : State) :
    Host.Outcome State Fault Refusal :=
  cmpWord (.icmp t k p a b) p (fun tm l =>
    (condHolds k.toNat (some (compare (asInt t (tm.getVn a.toNat l (iWide t))) (asInt t (tm.getVn b.toNat l (iWide t))))), 0)) s

/-- A single-source integer word writing `n` registers (R229). -/
def iWord1 (i : Instr) (t : BitVec 3) (d a : BitVec 7) (n : Nat) (g : Nat → Nat × Flags) (s : State) :
    Host.Outcome State Fault Refusal :=
  vecWord i s d.toNat n fun tm l => g (tm.getVn a.toNat l (iWide t))

/-- IABS: the most negative value returns itself and sets OF (R229). -/
def execIabs (d a : BitVec 7) (t : BitVec 3) (s : State) : Host.Outcome State Fault Refusal :=
  iWord1 (.iabs d a t) t d a (iWide t)
    (fun x => (if 2 ^ (iBits t - 1) ≤ x then 2 ^ iBits t - x else x, flagIf (x == 2 ^ (iBits t - 1)) flagOF)) s

/-- INOT (R229). -/
def execInot (d a : BitVec 7) (t : BitVec 3) (s : State) : Host.Outcome State Fault Refusal :=
  iWord1 (.inot d a t) t d a (iWide t) (fun x => (2 ^ iBits t - 1 - x, 0)) s

/-- The 1 bits of the low `n` bits of a number. -/
def popCount (x : Nat) : Nat → Nat
  | 0 => 0
  | n + 1 => popCount x n + (if x.testBit n then 1 else 0)

/-- IPOP (R229). -/
def execIpop (d a : BitVec 7) (t : BitVec 3) (s : State) : Host.Outcome State Fault Refusal :=
  iWord1 (.ipop d a t) t d a 1 (fun x => (popCount x (iBits t), 0)) s

/-- ICLZ (R229). -/
def execIclz (d a : BitVec 7) (t : BitVec 3) (s : State) : Host.Outcome State Fault Refusal :=
  iWord1 (.iclz d a t) t d a 1 (fun x => (if x = 0 then iBits t else iBits t - 1 - Nat.log2 x, 0)) s

/-- VSEL (R231). -/
def execVsel (p : BitVec 3) (d a b : BitVec 7) (s : State) : Host.Outcome State Fault Refusal :=
  vecWord (.vsel p d a b) s d.toNat 1 fun tm l =>
    ((if (tm.getP p.toNat).getLsbD l then tm.getV a.toNat l else tm.getV b.toNat l).toNat, 0)

/-- VMOV (R231). -/
def execVmov (t : BitVec 3) (d a : BitVec 7) (s : State) : Host.Outcome State Fault Refusal :=
  vecWord (.vmov t d a) s d.toNat (iWide t) fun tm l => (tm.getVn a.toNat l (iWide t), 0)

/-- The immediate of a word: its field sign-extended, or with IMX the 32-bit value of R73. -/
def Team.imm32 {n : Nat} (t : Team) (f : BitVec n) : W32 :=
  match t.pfx.imm with
  | none => f.signExtend 32
  | some i => i ++ f.setWidth 8

/-- VLI (R231). -/
def execVli (d : BitVec 7) (i : BitVec 10) (s : State) : Host.Outcome State Fault Refusal :=
  vecWord (.vli d i) s d.toNat 1 fun tm _ => ((tm.imm32 i).toNat, 0)

/-- LPERM: vA of lane vB[l], whatever M and LIVE hold, or 0; a marked element that is read faults every active lane
(R232, R239). A marker of an index in vB is reported before one of an element of vA (DESIGN CHOICE, log entry 100). -/
def execLperm (t : BitVec 3) (d a b : BitVec 7) (s : State) : Host.Outcome State Fault Refusal :=
  runWord (.lperm t d a b) s fun s =>
    let tm := s.team
    let src : List Nat := (tm.lanes.map fun l => (tm.getV b.toNat l).toNat).filter fun k => k < tm.id.width
    match src.findSome? (laneMark tm (spanRegs (grp (iWide t) a))) with
    | some i => .trap s { i with mask := some tm.eff }
    | none => ok (s.mapTeam fun tm => tm.vWrite d.toNat (iWide t) fun l =>
        let k := (tm.getV b.toNat l).toNat
        (if k < tm.id.width then tm.getVn a.toNat k (iWide t) else 0, 0))

/-- One combination of LRED and LSCAN (R233): integer or float class, operation 0 to 5. -/
def redOp (k : BitVec 1) (t o : BitVec 3) (x y : Nat) : Nat × Flags :=
  if k = 1 then
    let f := fFmt t
    if o = 0 then fAddV f .rne (unpackF f x) (unpackF f y) else fMinMax f (o = 2) x y
  else
    let w := iBits t
    (match o.toNat with
     | 0 => (x + y) % 2 ^ w
     | 1 => if asInt t x ≤ asInt t y then x else y
     | 2 => if asInt t x ≤ asInt t y then y else x
     | 3 => x &&& y
     | 4 => x ||| y
     | _ => x ^^^ y, 0)

/-- Registers per operand of LRED and LSCAN. -/
def redWide (k : BitVec 1) (t : BitVec 3) : Nat := if k = 1 then fWide t else iWide t

/-- A lane's operand of LRED and LSCAN. -/
def redVal (tm : Team) (k : BitVec 1) (t : BitVec 3) (r l : Nat) : Nat :=
  if k = 1 then fBits tm t r l else tm.getVn r l (iWide t)

/-- One level of the tree of R234: neighbours combine when both are present. -/
def treeLevel (op : Nat → Nat → Nat × Flags) : List (Option Nat) → List (Option Nat) × Flags
  | some x :: some y :: r =>
    let v := op x y
    let n := treeLevel op r
    (some v.1 :: n.1, v.2 ||| n.2)
  | some x :: none :: r => let n := treeLevel op r; (some x :: n.1, n.2)
  | none :: y :: r => let n := treeLevel op r; (y :: n.1, n.2)
  | [x] => ([x], 0)
  | [] => ([], 0)

/-- The tree over the leaves, `fuel` levels. -/
def treeRoot (op : Nat → Nat → Nat × Flags) : Nat → List (Option Nat) → Option Nat × Flags
  | 0, l => (l.head?.join, 0)
  | fuel + 1, l =>
    let n := treeLevel op l
    let r := treeRoot op fuel n.1
    (r.1, n.2 ||| r.2)

/-- LRED (R233, R234). -/
def execLred (d a : BitVec 7) (k : BitVec 1) (t o : BitVec 3) (s : State) : Host.Outcome State Fault Refusal :=
  runWord (.lred d a k t o) s fun s => ok (s.mapTeam fun tm =>
    let leaves := (List.range tm.id.width).map fun l => if tm.eff.getLsbD l then some (redVal tm k t a.toNat l) else none
    let r := treeRoot (redOp k t o) 10 leaves
    (tm.vWrite d.toNat (redWide k t) fun _ => (r.1.getD 0, 0)).raise r.2)

/-- The identity of a scan (R234). -/
def scanId (k : BitVec 1) (t o : BitVec 3) : Nat :=
  if k = 1 then
    let f := fFmt t
    if o = 0 then f.signCode true else f.signCode (o = 2) + f.infCode
  else
    let w := iBits t
    match o.toNat with
    | 1 => if iSigned t then 2 ^ (w - 1) - 1 else 2 ^ w - 1
    | 2 => if iSigned t then 2 ^ (w - 1) else 0
    | 3 => 2 ^ w - 1
    | _ => 0

/-- The scan over the active lanes in ascending order: each lane with the value it receives, and the flags (R234). -/
def scanLanes (op : Nat → Nat → Nat × Flags) (id : Nat) (inc : Bool) : Option Nat → List (Nat × Nat) →
    List (Nat × Nat) × Flags
  | _, [] => ([], 0)
  | acc, (l, x) :: r =>
    let e := match acc with | none => (x, 0) | some v => op v x
    let n := scanLanes op id inc (some e.1) r
    ((l, if inc then e.1 else acc.getD id) :: n.1, e.2 ||| n.2)

/-- LSCAN (R233, R234). -/
def execLscan (d a : BitVec 7) (k : BitVec 1) (t o : BitVec 3) (n : BitVec 1) (s : State) :
    Host.Outcome State Fault Refusal :=
  runWord (.lscan d a k t o n) s fun s => ok (s.mapTeam fun tm =>
    let r := scanLanes (redOp k t o) (scanId k t o) (n = 1) none (tm.lanes.map fun l => (l, redVal tm k t a.toNat l))
    (r.1.foldl (fun u e => u.setVn d.toNat e.1 e.2 (redWide k t)) tm).raise r.2)

/-- The scale of a block of SGNQ: RNE of the exact mean magnitude; a NaN or an infinity decides it (R235). -/
def sgnScale (ts : List Nat) : Nat × Flags :=
  let vs := ts.map (unpackF .f32)
  if vs.any FVal.isNan then nanResult .f32 true
  else if vs.any (fun v => match v with | .inf _ => true | _ => false) then (Fmt.infCode .f32, 0)
  else
    let sum := vs.foldl (fun (a : Int × Int) v => match v with | .fin _ m e => dyAdd a.1 a.2 m e | _ => a) (0, 0)
    let k := 80
    let q := sum.1.natAbs <<< k
    roundMag .f32 .rne 0 false (q / ts.length) (sum.2 - k) (q % ts.length != 0)

/-- SGNQ (R235). -/
def execSgnq (d a b : BitVec 7) (s : State) : Host.Outcome State Fault Refusal :=
  runWord (.sgnq d a b) s fun s => ok (s.mapTeam fun tm =>
    let sum := fun l => fAddV .f32 .rne (unpackF .f32 (tm.getV a.toNat l).toNat) (unpackF .f32 (tm.getV b.toNat l).toNat)
    let block := fun l => if tm.id.width < 256 then 0 else l / 256
    let scale := fun l => sgnScale ((tm.lanes.filter fun j => block j = block l).map fun j => (sum j).1)
    let neg := fun l => 2 ^ 31 ≤ (sum l).1
    tm.lanes.foldl (fun u l =>
      let sc := scale l
      let q := sc.1 % 2 ^ 31 + if neg l then 2 ^ 31 else 0
      let err := fAddV .f32 .rne (unpackF .f32 (sum l).1) (unpackF .f32 q).flip
      let word := maskWord (maskOf (tm.lanes.filter neg)) (l / 32)
      ((((u.setV b.toNat l (BitVec.ofNat 32 err.1)).setV a.toNat l (BitVec.ofNat 32 sc.1)).setV d.toNat l word).raise
        ((sum l).2 ||| sc.2 ||| err.2))) tm)

/-- SGNX (R236). -/
def execSgnx (d a b : BitVec 7) (s : State) : Host.Outcome State Fault Refusal :=
  vecWord (.sgnx d a b) s d.toNat 1 fun tm l =>
    ((tm.getV b.toNat l ^^^ (if (tm.getV a.toNat l).getLsbD (l % 32) then 0x80000000#32 else 0)).toNat, 0)

/-- One field of PACK: the low bits, or the value clamped, with whether it was (R237). -/
def packField (fw : Nat) (sat sg : Bool) (x : W32) : Nat × Bool :=
  if !sat then (x.toNat % 2 ^ fw, false)
  else if sg then
    let hi : Int := 2 ^ (fw - 1) - 1
    let lo : Int := -(2 ^ (fw - 1))
    let c := if hi < x.toInt then hi else if x.toInt < lo then lo else x.toInt
    ((c % 2 ^ fw).toNat, c != x.toInt)
  else
    let hi := 2 ^ fw - 1
    (if hi < x.toNat then hi else x.toNat, decide (hi < x.toNat))

/-- PACK (R237). -/
def execPack (d a : BitVec 7) (z : BitVec 2) (sa g : BitVec 1) (s : State) : Host.Outcome State Fault Refusal :=
  vecWord (.pack d a z sa g) s d.toNat 1 fun tm l =>
    let n := packN z
    let fw := 32 / n
    (List.range n).foldl (fun (acc : Nat × Flags) k =>
      let f := packField fw (sa = 1) (g = 1) (tm.getV (a.toNat + k) l)
      (acc.1 + f.1 * 2 ^ (fw * k), acc.2 ||| flagIf f.2 flagOF)) (0, 0)

/-- UNPK (R238): field k of vA to register vD + k, extended. -/
def execUnpk (d a : BitVec 7) (z : BitVec 2) (g : BitVec 1) (s : State) : Host.Outcome State Fault Refusal :=
  vecWord (.unpk d a z g) s d.toNat (packN z) fun tm l =>
    let n := packN z
    let fw := 32 / n
    let x := (tm.getV a.toNat l).toNat
    ((List.range n).foldl (fun acc k =>
      let f := x / 2 ^ (fw * k) % 2 ^ fw
      let v := if g = 1 && 2 ^ (fw - 1) ≤ f then f + (2 ^ 32 - 2 ^ fw) else f
      acc + v * 2 ^ (32 * k)) 0, 0)

end Sys2Proof.Machine
end

