-- ==== Sys2Proof/Machine/Sequencer.lean ====
section
/-! DEFINITION. The sequencer's words but for the queue words: branches and divergence, scalar arithmetic, words that
cross lanes, barriers and REFORM, class, system registers and traps (spec/04_team_sequencer.md R129 to R159). -/

namespace Sys2Proof.Machine

/-! ### Barriers and the end of a team -/

/-- A barrier of a crew. -/
def Crew.barrier (c : Crew) (b : Nat) : Barrier := smGet {} c.barriers b

/-- Every barrier in whose phase all live teams have arrived completes it (R146). -/
def completeBarriers (s : State) (c : Nat) : State :=
  let cr := s.crew c
  let live := s.liveTeams c
  let step : SMap Barrier → Nat × Barrier → SMap Barrier := fun m e =>
    if e.2.arrived ≠ [] && live.all (e.2.arrived.contains ·) then
      smSet {} m e.1 { phase := e.2.phase + 1, arrived := [] }
    else m
  { s.setCrew c { cr with barriers := cr.barriers.foldl step cr.barriers } with progress := s.progress + 1 }

/-- A team arrives at a barrier (R146). -/
def arriveAt (s : State) (c b tno : Nat) : State :=
  let cr := s.crew c
  let x := cr.barrier b
  completeBarriers (s.setCrew c { cr with barriers := smSet {} cr.barriers b { x with arrived := x.arrived ++ [tno] } }) c

/-- BAR (R147). -/
def execBar (b : BitVec 4) (s : State) : Host.Outcome State Fault Refusal :=
  runWord (.bar b) s fun s =>
    let t := s.team
    let x := (s.crew t.id.crew).barrier b.toNat
    let pass : State → Nat → Res := fun s ph =>
      if ((s.crew t.id.crew).barrier b.toNat).phase.toNat = ph then .block s (.barrier b.toNat)
      else ok ((s.mapTeam fun t => t.setArr 0 none).acquireTeam (s.crew t.id.crew).scope)
    match t.arr 0 with
    | some ph => pass s ph
    | none =>
      if x.arrived.contains t.id.tno then .block s (.barrier b.toNat)
      else
        withRelease s (s.crew t.id.crew).scope fun s =>
          let s := s.mapTeam fun t => t.setArr 0 (some x.phase.toNat)
          pass (arriveAt s t.id.crew b.toNat t.id.tno) x.phase.toNat

/-- ARRIVE (R147): a second arrival in one phase waits for the next. -/
def execArrive (d : BitVec 6) (b : BitVec 4) (s : State) : Host.Outcome State Fault Refusal :=
  runWord (.arrive d b) s fun s =>
    let t := s.team
    let x := (s.crew t.id.crew).barrier b.toNat
    if x.arrived.contains t.id.tno then .block s (.arrive b.toNat)
    else
      withRelease s (s.crew t.id.crew).scope fun s =>
        ok (arriveAt (s.mapTeam fun t => t.setS d.toNat x.phase) t.id.crew b.toNat t.id.tno)

/-- AWAIT (R147). -/
def execAwait (a : BitVec 6) (b : BitVec 4) (s : State) : Host.Outcome State Fault Refusal :=
  runWord (.await a b) s fun s =>
    let t := s.team
    let x := (s.crew t.id.crew).barrier b.toNat
    if (x.phase - t.getS a.toNat - 1).toInt < 0 then .block s (.phase b.toNat (t.getS a.toNat))
    else withAcquire s (s.crew t.id.crew).scope ok

/-- A ray port of a team ends with it: its records and results are discarded and its reservation goes (R388, R436). -/
def QReg.endRays (q : QReg) : QReg := if q.port = 1 then { q with port := 0, results := [], staged := [], pushed := [] } else q

/-- A batch holds its leave or asks for it, of its team's die, while a ray of it runs, and gives it back when none does (R37, R423). -/
def settleBatches (s : State) (c : Nat) : State :=
  let cr := s.crew c
  let live : RayBatch → Bool := fun b =>
    (cr.rays.any fun r => r.batch = some b.id && r.state = .run) ||
    (s.teamAt (teamKey c b.team)).q.any fun e => (e.2.staged ++ e.2.pushed).any fun p => p.batch = some b.id
  let gone := cr.batches.filter fun b => !live b
  let s := gone.foldl (fun s b => dropLeave s (s.teamAt (teamKey c b.team)).id.die 3 (.rays c b.id) b.leave) s
  if gone = [] then s
  else
    s.setCrew c { s.crew c with
      batches := cr.batches.filter live,
      rays := cr.rays.map fun r => if gone.any fun b => r.batch = some b.id then { r with batch := none } else r }

/-- The rays of a team that ends stop and are discarded (R436). -/
def dropRays (s : State) (c tno : Nat) : State :=
  let cr := s.crew c
  settleBatches (s.setCrew c { cr with rays := cr.rays.filter fun r => r.team ≠ tno }) c

/-- A team ends: its reservations go back (R467), barrier phases that its end completes complete, its rays and the results of its ray queue registers are
discarded, and in deterministic quantum mode it stands at a quantum end (R131, R146, R273, R436). -/
def State.endTeam (s : State) : State :=
  let s := returnAll s s.team.key
  let t := s.team
  let s := s.mapTeam fun t => { t with
    id := { t.id with alive := false }, clause := none, pfx := {}, live := 0, m := 0,
    q := t.q.map fun e => (e.1, e.2.endRays), dq := { t.dq with atEnd := t.id.quantum.isSome } }
  completeBarriers (dropRays s t.id.crew t.id.tno) t.id.crew

/-! ### Branches, calls and divergence (R135 to R137) -/

/-- A branch target (R71): the word's clause plus the offset times 16. -/
def Team.target (t : Team) (o : BitVec 20) : W64 :=
  let off : W64 := match t.pfx.imm with
    | none => o.signExtend 64
    | some i => ((i ++ o.setWidth 8 : W32)).signExtend 64
  pcClause t.pc + off * 16

/-- BRA (R135). -/
def execBra (o : BitVec 20) (s : State) : Host.Outcome State Fault Refusal :=
  runWord (.bra o) s fun s => .done s (.go (s.team.target o))

/-- BRS (R135, R136). -/
def execBrs (k : BitVec 4) (o : BitVec 20) (s : State) : Host.Outcome State Fault Refusal :=
  runWord (.brs k o) s fun s => .done s (if brsHolds k s.team.scc then .go (s.team.target o) else .next)

/-- The XVAL of a fault that names its word. -/
def Team.wordVal (t : Team) (i : Instr) : W64 := (t.curWord i).setWidth 64

/-- BRV (R135, R137). -/
def execBrv (n : BitVec 1) (p : BitVec 3) (o : BitVec 20) (s : State) : Host.Outcome State Fault Refusal :=
  runWord (.brv n p o) s fun s =>
    let t := s.team
    let pm := t.getP p.toNat
    let sel := t.mSrc &&& (if n = 1 then ~~~pm else pm)
    if sel = t.mSrc then .done s (.go (t.target o))
    else if sel = 0 then ok s
    else
      match t.join with
      | [] => .trap s { code := codeJoinDiv, val := t.wordVal (.brv n p o) }
      | e :: r =>
        if e.other ≠ 0 then .trap s { code := codeJoinDiv, val := t.wordVal (.brv n p o) }
        else
          .done (s.mapTeam fun t =>
            { t with m := sel, join := { e with other := t.m &&& ~~~sel, opc := pcNext t.pc } :: r }) (.go (t.target o))

/-- CALL: the next clause's address to s62 (R135). -/
def execCall (o : BitVec 20) (s : State) : Host.Outcome State Fault Refusal :=
  runWord (.call o) s fun s =>
    .done (s.mapTeam fun t => t.setS64 62 (pcClause t.pc + 16)) (.go (s.team.target o))

/-- RET (R135). -/
def execRet (a : BitVec 6) (s : State) : Host.Outcome State Fault Refusal :=
  runWord (.ret a) s fun s =>
    let pc := s.team.getS64 a.toNat
    if pc.extractLsb' 0 4 ≠ 0 then .trap s { code := codePc, val := pc } else .done s (.go pc)

/-- MARK (R137). -/
def execMark (o : BitVec 20) (s : State) : Host.Outcome State Fault Refusal :=
  runWord (.mark o) s fun s =>
    let t := s.team
    if 32 ≤ t.join.length then .trap s { code := codeJoinOvf, val := t.wordVal (.mark o) }
    else ok (s.mapTeam fun t => { t with join := { rj := t.target o, save := t.m, other := 0, opc := 0 } :: t.join })

/-- ELSE (R137). -/
def execElseW (s : State) : Host.Outcome State Fault Refusal :=
  runWord .elseW s fun s =>
    let t := s.team
    match t.join with
    | [] => .trap s { code := codeJoinUnf, val := t.wordVal .elseW }
    | e :: r =>
      if e.other &&& t.live ≠ 0 then
        .done (s.mapTeam fun t => { t with m := e.other &&& t.live, join := { e with other := 0 } :: r }) (.go e.opc)
      else .done s (.go e.rj)

/-- JOIN (R137). -/
def execJoin (s : State) : Host.Outcome State Fault Refusal :=
  runWord .join s fun s =>
    let t := s.team
    match t.join with
    | [] => .trap s { code := codeJoinUnf, val := t.wordVal .join }
    | e :: r =>
      if e.other &&& t.live ≠ 0 then
        .done (s.mapTeam fun t => { t with m := e.other &&& t.live, join := { e with other := 0 } :: r }) (.go e.opc)
      else ok (s.mapTeam fun t => { t with m := e.save &&& t.live, join := r })

/-- The loop of EXIT: the mask, the stack and the address to go to, none for the next slot (R137). -/
def exitLoop (live : Mask) : List JoinEntry → Mask × List JoinEntry × Option W64
  | [] => (live, [], none)
  | e :: r =>
    if e.other &&& live ≠ 0 then (e.other &&& live, { e with other := 0 } :: r, some e.opc)
    else if e.save &&& live ≠ 0 then (e.save &&& live, e :: r, some e.rj)
    else exitLoop live r

/-- EXIT (R137, R131). -/
def execExit (s : State) : Host.Outcome State Fault Refusal :=
  runWord .exit s fun s =>
    let t := s.team
    let live := t.live &&& ~~~t.mSrc
    if live = 0 then .done s.endTeam .ended
    else
      let x := exitLoop live t.join
      .done (s.mapTeam fun t => { t with live := live, m := x.1, join := x.2.1 })
        (match x.2.2 with | none => .next | some pc => .go pc)

/-! ### Scalar words (R138 to R141) -/

/-- A scalar word `sD := f sA sB`. -/
def sWord (i : Instr) (d a b : BitVec 6) (f : W32 → W32 → W32) (s : State) : Host.Outcome State Fault Refusal :=
  runWord i s fun s => ok (s.mapTeam fun t => t.setS d.toNat (f (t.getS a.toNat) (t.getS b.toNat)))

/-- NOP (R61). -/
def execNop (s : State) : Host.Outcome State Fault Refusal := runWord .nop s ok

/-- SADD (R138). -/
def execSadd (t : BitVec 3) (d a b : BitVec 6) (s : State) : Host.Outcome State Fault Refusal :=
  sWord (.sadd t d a b) d a b (· + ·) s

/-- SSUB (R138). -/
def execSsub (t : BitVec 3) (d a b : BitVec 6) (s : State) : Host.Outcome State Fault Refusal :=
  sWord (.ssub t d a b) d a b (· - ·) s

/-- SMUL (R138). -/
def execSmul (t : BitVec 3) (d a b : BitVec 6) (s : State) : Host.Outcome State Fault Refusal :=
  sWord (.smul t d a b) d a b (· * ·) s

/-- The high half of the exact product (R138). -/
def smulHigh (signed : Bool) (x y : W32) : W32 :=
  if signed then BitVec.ofInt 32 (x.toInt * y.toInt / 2 ^ 32) else BitVec.ofNat 32 (x.toNat * y.toNat / 2 ^ 32)

/-- SMULH (R138). -/
def execSmulh (t : BitVec 3) (d a b : BitVec 6) (s : State) : Host.Outcome State Fault Refusal :=
  sWord (.smulh t d a b) d a b (smulHigh (t = 0)) s

/-- SDIV (R138, R139). -/
def execSdiv (t : BitVec 3) (d a b : BitVec 6) (s : State) : Host.Outcome State Fault Refusal :=
  runWord (.sdiv t d a b) s fun s => ok (s.mapTeam fun tm =>
    let r := sdivide (t = 0) (tm.getS a.toNat) (tm.getS b.toNat)
    (tm.setS d.toNat r.1).raise r.2)

/-- SMIN (R138). -/
def execSmin (t : BitVec 3) (d a b : BitVec 6) (s : State) : Host.Outcome State Fault Refusal :=
  sWord (.smin t d a b) d a b (fun x y => if sLess (t = 0) y x then y else x) s

/-- SMAX (R138). -/
def execSmax (t : BitVec 3) (d a b : BitVec 6) (s : State) : Host.Outcome State Fault Refusal :=
  sWord (.smax t d a b) d a b (fun x y => if sLess (t = 0) x y then y else x) s

/-- SAND (R138). -/
def execSand (d a b : BitVec 6) (s : State) : Host.Outcome State Fault Refusal :=
  sWord (.sand d a b) d a b (· &&& ·) s

/-- SOR (R138). -/
def execSor (d a b : BitVec 6) (s : State) : Host.Outcome State Fault Refusal :=
  sWord (.sor d a b) d a b (· ||| ·) s

/-- SXOR (R138). -/
def execSxor (d a b : BitVec 6) (s : State) : Host.Outcome State Fault Refusal :=
  sWord (.sxor d a b) d a b (· ^^^ ·) s

/-- A shift left; 32 or more gives 0 (R138). -/
def sShl (x y : W32) : W32 := if y.toNat < 32 then x <<< y.toNat else 0

/-- A shift right with zero fill (R138). -/
def sShr (x y : W32) : W32 := if y.toNat < 32 then x >>> y.toNat else 0

/-- A shift right with sign fill; by 32 or more every bit is the sign (R138). -/
def sSra (x y : W32) : W32 := x.sshiftRight (if y.toNat < 32 then y.toNat else 32)

/-- SSHL (R138). -/
def execSshl (d a b : BitVec 6) (s : State) : Host.Outcome State Fault Refusal := sWord (.sshl d a b) d a b sShl s

/-- SSHR (R138). -/
def execSshr (d a b : BitVec 6) (s : State) : Host.Outcome State Fault Refusal := sWord (.sshr d a b) d a b sShr s

/-- SSRA (R138). -/
def execSsra (d a b : BitVec 6) (s : State) : Host.Outcome State Fault Refusal := sWord (.ssra d a b) d a b sSra s

/-- SSEL: sD is also read (R138). -/
def execSsel (d a b : BitVec 6) (s : State) : Host.Outcome State Fault Refusal :=
  runWord (.ssel d a b) s fun s => ok (s.mapTeam fun t =>
    t.setS d.toNat (if t.getS d.toNat ≠ 0 then t.getS a.toNat else t.getS b.toNat))

/-- SMOV (R138). -/
def execSmov (d a : BitVec 6) (s : State) : Host.Outcome State Fault Refusal :=
  runWord (.smov d a) s fun s => ok (s.mapTeam fun t => t.setS d.toNat (t.getS a.toNat))

/-- SCMP writes sD and SCC (R140). -/
def execScmp (t : BitVec 3) (d a b : BitVec 6) (k : BitVec 3) (s : State) : Host.Outcome State Fault Refusal :=
  runWord (.scmp t d a b k) s fun s => ok (s.mapTeam fun tm =>
    let x := tm.getS a.toNat
    let y := tm.getS b.toNat
    { tm.setS d.toNat (if scmpHolds k (sLess (t = 0) x y) (x == y) then 1 else 0) with scc := sccOf x y })

/-- SADD64 (R141). -/
def execSadd64 (d a b : BitVec 6) (s : State) : Host.Outcome State Fault Refusal :=
  runWord (.sadd64 d a b) s fun s => ok (s.mapTeam fun t =>
    t.setS64 d.toNat (t.getS64 a.toNat + t.getS64 b.toNat))

/-- SLI (R141). -/
def execSli (d : BitVec 6) (i : BitVec 12) (s : State) : Host.Outcome State Fault Refusal :=
  runWord (.sli d i) s fun s => ok (s.mapTeam fun t => t.setS d.toNat (t.imm32 i))

/-- SADD, immediate form (R141). -/
def execSaddImmediate (d a : BitVec 6) (i : BitVec 12) (s : State) : Host.Outcome State Fault Refusal :=
  runWord (.saddImmediate d a i) s fun s => ok (s.mapTeam fun t => t.setS d.toNat (t.getS a.toNat + t.imm32 i))

/-- SSHL, immediate form (R141). -/
def execSshlImmediate (d a : BitVec 6) (n : BitVec 5) (s : State) : Host.Outcome State Fault Refusal :=
  runWord (.sshlImmediate d a n) s fun s => ok (s.mapTeam fun t => t.setS d.toNat (sShl (t.getS a.toNat) (n.setWidth 32)))

/-- SSHR, immediate form (R141). -/
def execSshrImmediate (d a : BitVec 6) (n : BitVec 5) (s : State) : Host.Outcome State Fault Refusal :=
  runWord (.sshrImmediate d a n) s fun s => ok (s.mapTeam fun t => t.setS d.toNat (sShr (t.getS a.toNat) (n.setWidth 32)))

/-- SSRA, immediate form (R141). -/
def execSsraImmediate (d a : BitVec 6) (n : BitVec 5) (s : State) : Host.Outcome State Fault Refusal :=
  runWord (.ssraImmediate d a n) s fun s => ok (s.mapTeam fun t => t.setS d.toNat (sSra (t.getS a.toNat) (n.setWidth 32)))

/-! ### Words that cross lanes (R142) -/

/-- SLANE stalls only on the named lane's mask word, and reads that lane's marker (R142, R254). -/
def execSlane (d b : BitVec 6) (a : BitVec 7) (s : State) : Host.Outcome State Fault Refusal :=
  runWord (.slane d b a) s fun s =>
    let t := s.team
    let l := (t.getS b.toNat).toNat
    if t.id.width ≤ l then ok (s.mapTeam fun t => t.setS d.toNat 0)
    else if vPending t [l / 32] a.toNat then
      if t.id.quantum.isSome && t.deferredIds.contains (smGet 0 t.rSrc.vpend (a.toNat * 32 + l / 32)) then
        .block (s.mapTeam Team.endQuantum) .quantum
      else .block s .pending
    else
      match laneMark t [a.toNat] l with
      | some i => .trap s { i with mask := some t.m }
      | none => ok (s.mapTeam fun t => t.setS d.toNat (t.getV a.toNat l))

/-- SBCAST (R142). -/
def execSbcast (a : BitVec 6) (d : BitVec 7) (s : State) : Host.Outcome State Fault Refusal :=
  runWord (.sbcast a d) s fun s => ok (s.mapTeam fun t => t.vWrite d.toNat 1 fun _ => ((t.getS a.toNat).toNat, 0))

/-- VOTE.ANY (R142). -/
def execVoteAny (d : BitVec 6) (p : BitVec 3) (s : State) : Host.Outcome State Fault Refusal :=
  runWord (.voteAny d p) s fun s => ok (s.mapTeam fun t =>
    t.setS d.toNat (if t.mSrc &&& t.getP p.toNat ≠ 0 then 1 else 0))

/-- VOTE.ALL (R142). -/
def execVoteAll (d : BitVec 6) (p : BitVec 3) (s : State) : Host.Outcome State Fault Refusal :=
  runWord (.voteAll d p) s fun s => ok (s.mapTeam fun t =>
    t.setS d.toNat (if t.mSrc &&& ~~~(t.getP p.toNat) = 0 then 1 else 0))

/-- VOTE.BALLOT (R142). -/
def execVoteBallot (d a : BitVec 6) (p : BitVec 3) (s : State) : Host.Outcome State Fault Refusal :=
  runWord (.voteBallot d a p) s fun s => ok (s.mapTeam fun t =>
    let k := (t.getS a.toNat).toNat
    t.setS d.toNat (if (t.id.width + 31) / 32 ≤ k then 0 else maskWord (t.mSrc &&& t.getP p.toNat) k))

/-- POPM (R142). -/
def execPopm (d : BitVec 6) (p : BitVec 3) (s : State) : Host.Outcome State Fault Refusal :=
  runWord (.popm d p) s fun s => ok (s.mapTeam fun t =>
    t.setS d.toNat (BitVec.ofNat 32 (lanesOf t.id.width (t.mSrc &&& t.getP p.toNat)).length))

/-! ### REFORM (R149, R150) -/

/-- Insert a number into an ascending list. -/
def insertAsc (x : Nat) : List Nat → List Nat
  | [] => [x]
  | y :: r => if x ≤ y then x :: y :: r else y :: insertAsc x r

/-- Sort ascending. -/
def sortAsc (l : List Nat) : List Nat := l.foldr insertAsc []

/-- The positions of the live lanes of a crew, in team and lane order, as team * 1024 + lane (R149). -/
def livePositions (s : State) (c : Nat) : List Nat :=
  (sortAsc (s.liveTeams c)).flatMap fun n =>
    let t := s.teamAt (teamKey c n)
    (lanesOf t.id.width t.live).map fun l => n * 1024 + l

/-- The key register that a team's REFORM named. -/
def keyReg (l : List (Nat × Nat)) (n : Nat) : Nat := ((l.find? fun e => e.1 = n).map Prod.snd).getD 0

/-- The live lanes sorted by (key, team, lane); each team's word names its key register (R149). -/
def sortedLanes (s : State) (c : Nat) (kr : List (Nat × Nat)) : List Nat :=
  (sortAsc ((livePositions s c).map fun p =>
    ((s.teamAt (teamKey c (p / 1024))).getV (keyReg kr (p / 1024)) (p % 1024)).toNat * 16384 + p)).map fun x => x % 16384

/-- Lane `l` of team `t` receives what lane `l0` of `t0` carries: its declared vector registers and p1 to p7, with
their markers (R149). -/
def moveLane (t : Team) (l : Nat) (t0 : Team) (l0 : Nat) : Team :=
  let v := (List.range t.id.nregs).foldl (fun (u : Team) r =>
    { u with r := { u.r with
      v := smSet 0 u.r.v (vKey r l) (smGet 0 t0.r.v (vKey r l0)),
                             vmarks := smSet none u.r.vmarks (vKey r l) (smGet none t0.r.vmarks (vKey r l0)) } }) t
  [1, 2, 3, 4, 5, 6, 7].foldl (fun (u : Team) p =>
    u.setP p (1#1024 <<< l) (if (smGet 0 t0.r.p p).getLsbD l0 then 1#1024 <<< l else 0)) v

/-- The move of REFORM: the sorted lanes are dealt out to the live positions in order (R149). -/
def reformMove (s : State) (c : Nat) (kr : List (Nat × Nat)) : State :=
  ((livePositions s c).zip (sortedLanes s c kr)).foldl (fun u e =>
    u.updTeam (teamKey c (e.1 / 1024)) fun t =>
      moveLane t (e.1 % 1024) (s.teamAt (teamKey c (e.2 / 1024))) (e.2 % 1024)) s

/-- REFORM (R149, R150): it arrives as at a barrier; when every live team has, and no register is pending, the lanes
move and every team goes on. -/
def execReform (k : BitVec 7) (s : State) : Host.Outcome State Fault Refusal :=
  runWord (.reform k) s fun s =>
    let t := s.team
    let c := t.id.crew
    let scope := (s.crew c).scope
    let pass : State → Res := fun s =>
      ok ((s.mapTeam fun t => t.setArr 0 none).acquireTeam scope)
    let try' : State → Res := fun s =>
      let live := s.liveTeams c
      let cr := s.crew c
      if live.all (fun n => cr.reform.any fun e => e.1 = n) && live.all (fun n => (s.teamAt (teamKey c n)).r.vpend = [] &&
          (s.teamAt (teamKey c n)).r.ppend = []) then
        let s := reformMove s c cr.reform
        let s := s.setCrew c { cr with reform := [] }
        pass (live.foldl (fun u n => u.updTeam (teamKey c n) fun t => t.setArr 0 (some 1)) { s with progress := s.progress + 1 })
      else .block s .reform
    if t.join ≠ [] then .trap s { code := codeJoinDiv, val := t.wordVal (.reform k) }
    else
      match t.arr 0 with
      | some 1 => pass s
      | some _ => try' s
      | none =>
        withRelease s scope fun s =>
          let cr := s.crew c
          let s := s.setCrew c { cr with reform := cr.reform ++ [(t.id.tno, k.toNat)] }
          try' (s.mapTeam fun t => t.setArr 0 (some 0))

/-! ### Class, system registers, traps (R153, R155, R157 to R159) -/

/-- PRIO: the smaller of the class asked for and the ceiling (R153). -/
def execPrio (k : BitVec 2) (s : State) : Host.Outcome State Fault Refusal :=
  runWord (.prio k) s fun s => ok (s.mapTeam fun t => { t with cls := if k ≤ t.id.ceil then k else t.id.ceil })

/-- YIELD: the team gives up its place after its clause, as with YLD (R153, R56). -/
def execYield (s : State) : Host.Outcome State Fault Refusal :=
  runWord .yield s fun s => ok (s.mapTeam fun t => { t with sched := { t.sched with yields := true } })

/-- Package core number, or die * 8 + k of a control core, with CTL in bit 31 (R158). -/
def coreId (t : Team) : W32 :=
  if t.onControl then 0x80000000#32 ||| BitVec.ofNat 32 (t.id.die * 8 + (t.id.core - 40))
  else BitVec.ofNat 32 (t.id.die * 40 + t.id.core)

/-- The value of a system register (R158, R159). -/
def sysRead (s : State) (n : Nat) : W64 :=
  let t := s.team
  let z : W32 → W64 := fun v => v.setWidth 64
  if 0x020 ≤ n && n < 0x040 then z (if n - 0x020 < (t.id.width + 31) / 32 then maskWord t.mSrc (n - 0x020) else 0)
  else if 0x040 ≤ n && n < 0x060 then z (if n - 0x040 < (t.id.width + 31) / 32 then maskWord t.live (n - 0x040) else 0)
  else if 0x120 ≤ n && n < 0x140 then z (maskWord t.x.xmask (n - 0x120))
  else
    match n with
    | 0x000 => BitVec.ofNat 64 t.id.tno
    | 0x001 => BitVec.ofNat 64 t.id.crewno
    | 0x002 => z (BitVec.ofNat 32 ((t.id.crewno * t.id.crewTeams + t.id.tno) * t.id.width))
    | 0x003 => BitVec.ofNat 64 t.id.width
    | 0x004 => z (coreId t)
    | 0x005 => (t.id.ceil ++ t.cls).setWidth 64
    | 0x006 => t.asticky.setWidth 64
    | 0x007 => t.aenable.setWidth 64
    | 0x008 => t.scc.setWidth 64
    | 0x009 => (BitVec.ofBool t.sp.valid ++ BitVec.ofBool t.sp.wr ++ 0#12 ++ t.sp.off).setWidth 64
    | 0x00A => z t.rf.count
    | 0x00C => BitVec.ofNat 64 (s.now t.id.die)
    | 0x00E => BitVec.ofNat 64 t.join.length
    | 0x010 => t.rf.base
    | 0x012 => t.rf.slots.setWidth 64
    | 0x060 => maskWords t.id.width t.mSrc |>.foldl (fun m k => m ||| (1#64 <<< k)) 0
    | 0x100 => t.x.xvec
    | 0x102 => t.x.xpc
    | 0x104 => t.x.xval
    | 0x106 => (t.x.detail ++ t.x.code).setWidth 64
    | 0x140 => (BitVec.ofBool t.dbg.uflt ++ BitVec.ofBool t.dbg.undo ++ BitVec.ofBool t.dbg.step).setWidth 64
    | 0x142 => t.dbg.base
    | 0x144 => z t.dbg.len
    | 0x145 => z t.dbg.head
    | _ => 0

/-- SYSR (R158). -/
def execSysr (d : BitVec 6) (n : BitVec 10) (s : State) : Host.Outcome State Fault Refusal :=
  runWord (.sysr d n) s fun s => ok (s.mapTeam fun t =>
    let v := sysRead s n.toNat
    if sysWide n.toNat then t.setS64 d.toNat v else t.setS d.toNat (v.setWidth 32))

/-- A legal undo log size: a power of two from 4,096 to 2^31 (R159). -/
def undoLenOk (v : W32) : Bool := (List.range 20).any fun k => v.toNat == 2 ^ (k + 12)

/-- A write of a system register; a write of a read-only field is ignored (R158, R159, R9). -/
def sysWrite (t : Team) (n : Nat) (v : W64) : Team :=
  match n with
  | 0x006 => { t with asticky := t.asticky &&& ~~~(v.setWidth 7) }
  | 0x007 => { t with aenable := v.setWidth 7 }
  | 0x008 => { t with scc := v.setWidth 3 }
  | 0x00A => { t with rf := { t.rf with count := v.setWidth 32 } }
  | 0x010 => { t with rf := { t.rf with base := v &&& ~~~(0x1F#64) } }
  | 0x012 => { t with rf := { t.rf with slots := v.setWidth 16 } }
  | 0x100 => { t with x := { t.x with xvec := v &&& ~~~(0xF#64) } }
  | 0x102 => { t with x := { t.x with xpc := v } }
  | 0x140 => { t with dbg := { t.dbg with uflt := t.dbg.uflt && !v.getLsbD 2, undo := v.getLsbD 1, step := v.getLsbD 0 } }
  | 0x142 => { t with dbg := { t.dbg with base := v &&& ~~~(0xFFF#64) } }
  | 0x144 => { t with dbg := { t.dbg with len := if undoLenOk (v.setWidth 32) then v.setWidth 32 else 4096 } }
  | 0x145 => { t with dbg := { t.dbg with head := v.setWidth 32 &&& ~~~(0xF#32) } }
  | _ => t

/-- SYSW (R158). -/
def execSysw (a : BitVec 6) (n : BitVec 10) (s : State) : Host.Outcome State Fault Refusal :=
  runWord (.sysw a n) s fun s => ok (s.mapTeam fun t =>
    sysWrite t n.toNat (if sysWide n.toNat then t.getS64 a.toNat else (t.getS a.toNat).setWidth 64))

/-- TRAP: the handler is entered after the word's group (R155, R157). -/
def execTrap (k : BitVec 8) (s : State) : Host.Outcome State Fault Refusal :=
  runWord (.trap k) s fun s => .done s (.after codeTrap (k.setWidth 64))

/-- TFENCE: every earlier word that can set a sticky flag has completed; then a pending RED error, or enabled sticky
flags, raise their exception at this word (R157, R313). -/
def execTfence (s : State) : Host.Outcome State Fault Refusal :=
  runWord .tfence s fun s =>
    let t := s.team
    if s.ops.any fun o => o.team = t.key && o.kind.isDeferred then .block (s.mapTeam Team.endQuantum) .quantum
    else if (s.ops.any fun o => o.team = t.key && o.kind.setsFlags) || gangBusy s t.id.crew t.id.tno then .block s .fence
    else
      match t.eng.redErr with
      | some a => .trap (s.mapTeam fun t => { t with eng := { t.eng with redErr := none } }) { code := codeMceData, val := a }
      | none =>
        if t.asticky &&& t.aenable ≠ 0 then .trap s { code := codeArith, val := (t.asticky &&& t.aenable).setWidth 64 }
        else ok s

/-- M after a return from an exception: the saved mask's live lanes; when the handler has ended all of those, every live lane, as EXIT leaves M
where no entry of the stack says more (R129, R137; DESIGN CHOICE, log entry 99). -/
def Team.returnMask (t : Team) : Mask := if t.x.saved &&& t.live = 0 then t.live else t.x.saved &&& t.live

/-- The return from an exception: M from the saved mask, user state, on at XPC; an XPC that is no program counter is
ILL.PC, which in supervisor state ends in TRAP.NEST (R129, R155). -/
def State.trapReturn (s : State) : Res :=
  let t := s.team
  if t.x.xpc.extractLsb' 0 2 ≠ 0 || !pcOk t.x.xpc then .trap s { code := codePc, val := t.x.xpc }
  else .done (s.mapTeam fun t => { t with m := t.returnMask, sup := false }) (.go t.x.xpc)

/-- TRET (R155). -/
def execTret (s : State) : Host.Outcome State Fault Refusal := runWord .tret s State.trapReturn

end Sys2Proof.Machine
end

