-- ==== Sys2Proof/Machine/LoadStore.lean ====
section
/-! DEFINITION. Loads, stores, prefetch, cache words, MWAIT and the handler's words over memory, with the events that
complete them (spec/07_load_store_and_translation.md R247 to R260, R263 to R266, R272, R279 to R289). -/

namespace Sys2Proof.Machine

/-! ### Addresses and translation of a word -/

/-- A lane's address (R251): base pair, sign-extended offset register, byte offset. -/
def laneAddr (t : Team) (sp : BitVec 5) (vo : BitVec 7) (off : W64) (l : Nat) : W64 :=
  t.getS64 (2 * sp.toNat) + (t.getV vo.toNat l).signExtend 64 + off

/-- The byte offset that IMX gives a MEM word (R73). -/
def Team.memOff (t : Team) : W64 :=
  match t.pfx.imm with
  | none => 0
  | some i => i.signExtend 64

/-- The lanes that satisfy a test, with the lowest one's address. -/
def failing (as : List (Nat × W64)) (p : W64 → Bool) : Option (Mask × W64) :=
  match as.filter fun a => p a.2 with
  | [] => none
  | a :: r => some (maskOf ((a :: r).map Prod.fst), a.2)

/-- DETAIL of ADDR for an address that must be local (R253). -/
def addrDetail (va : W64) : Nat := if vaClass va = .fabric then 1 else 0

/-- The address checks of a word over its lanes: ADDR for an address that is not local (or, with `fab`, neither local nor
fabric), then ALIGN (R252, R253). -/
def addrCheck (as : List (Nat × W64)) (size : Nat) (fab : Bool) : Option TrapInfo :=
  let bad := fun va => !(vaClass va == .localVa || (fab && vaClass va == .fabric))
  match failing as bad with
  | some (m, va) => some { code := codeAddr, detail := addrDetail va, val := va, mask := some m }
  | none =>
    match failing as (fun va => va.toNat % size ≠ 0) with
    | some (m, va) => some { code := codeAlign, detail := size, val := va, mask := some m }
    | none => none

/-- The first element of each run of equal values, keeping order. -/
def distinct : List Nat → List Nat
  | [] => []
  | x :: r => if r.contains x then distinct r else x :: distinct r

/-- What translating a word's lanes gives: the accesses, an exception, or a wait for walks. -/
inductive Xlat
  | ok (accs : List LaneAcc)
  | trap (s : State) (i : TrapInfo)
  | wait (s : State)

/-- Record the fault words of some lanes (R282). -/
def writeFaddr (t : Team) (l : List (Nat × W64 × XFault)) : Team :=
  { t with eng := { t.eng with
      faddr := l.foldl (fun m e => smSet 0 m e.1 ((e.2.1.extractLsb' 16 48 ++ BitVec.ofNat 8 e.2.2.code ++ BitVec.ofNat 8 e.2.2.detail))) t.eng.faddr } }

/-- Translate the lanes of a word, one lookup per page: every page that misses is walked; then faults are taken from
WALK, PAGE and PROT in that order, and the faulting lanes' FADDR is written (R252, R253, R279, R282). -/
def translateLanes (s : State) (as : List (Nat × W64)) (a : Access) : Xlat :=
  let t := s.team
  let look : W64 → Look := fun va => lookup s t.coreK t.key t.id.ctx va a t.supSrc
  let pages := distinct (as.map fun e => e.2.toNat / 65536)
  let misses := pages.filter fun p => look (BitVec.ofNat 64 (p * 65536)) == .miss
  if misses ≠ [] then
    .wait (misses.foldl (fun s p => askWalk s t.coreK
      { ctx := t.id.ctx, vpn := p, acc := if a = .write then 1 else if a = .fetch then 2 else 0, sup := t.supSrc, team := t.key }) s)
  else
    let faults : List (Nat × W64 × XFault) := as.filterMap fun e =>
      match look e.2 with | .fault f => some (e.1, e.2, f) | _ => none
    match [codeWalk, codePage, codeProt].find? fun c => faults.any fun f => f.2.2.code == c with
    | some c =>
      let bad := faults.filter fun f => f.2.2.code == c
      let s := (dropWalks s t.coreK t.key).mapTeam fun t => writeFaddr t bad
      .trap s { code := c, detail := (bad.head?.map fun f => f.2.2.detail).getD 0, val := (bad.head?.map fun f => f.2.1).getD 0, mask := some (maskOf (bad.map Prod.fst)) }
    | none =>
      .ok (as.filterMap fun e =>
        match look e.2 with | .hit l => some { lane := e.1, va := e.2, pa := leafPa t.id.die l e.2.toNat } | _ => none)

/-- Checks and translation of a per-lane memory word, then what it does with its accesses (R252). -/
def withAccess (s : State) (as : List (Nat × W64)) (size : Nat) (a : Access) (f : State → List LaneAcc → Res) : Res :=
  match addrCheck as size false with
  | some i => .trap s i
  | none =>
    match translateLanes s as a with
    | .trap s i => .trap s i
    | .wait s => .block s .walk
    | .ok accs => f s accs

/-! ### Operations in flight -/

/-- Start an operation of the team that issues; its flag becomes busy (R26, R28). -/
def startOp (s : State) (k : OpKind) : State :=
  let t := s.team
  let op : Op := { id := s.nextOp, team := t.key, crew := t.id.crew, gen := (s.crew t.id.crew).gen, flag := t.llFlag, kind := k }
  ({ s with ops := s.ops ++ [op], nextOp := s.nextOp + 1 }).mapTeam fun t =>
    match op.flag with
    | none => t
    | some f => { t with busy := t.busy ||| (1#12 <<< f) }

/-- The operation number that the next one started will have. -/
def State.opId (s : State) : Nat := s.nextOp

/-- Mark registers `d` to `d + n - 1` pending in some mask words, for operation `id` (R29). -/
def Team.vPend (t : Team) (d n : Nat) (words : List Nat) (id : Nat) : Team :=
  let keys := (List.range n).flatMap fun r => words.map fun k => (d + r) * 32 + k
  { t with r := { t.r with vpend := keys.foldl (fun m k => smSet 0 m k id) t.r.vpend } }

/-- Mark scalar registers pending, or clear them with 0. -/
def Team.sPend (t : Team) (d n : Nat) (id : Nat) : Team :=
  { t with r := { t.r with spend := (List.range n).foldl (fun m r => smSet 0 m (d + r) id) t.r.spend } }

/-- The operation with a number. -/
def State.op (s : State) (id : Nat) : Option Op := s.ops.find? fun o => o.id = id

/-- Change the operation with a number. -/
def State.updOp (s : State) (id : Nat) (f : Op → Op) : State :=
  { s with ops := s.ops.map fun o => if o.id = id then f o else o }

/-- An operation completes: it leaves, and its flag clears unless another operation of the team holds it (R28). -/
def finishOp (s : State) (o : Op) : State :=
  let rest := s.ops.filter fun x => x.id ≠ o.id
  let s := { s with ops := rest, progress := s.progress + 1 }
  match o.flag with
  | none => s
  | some f =>
    if rest.any fun x => x.team = o.team && x.flag = some f then s
    else s.updTeam o.team fun t => { t with busy := t.busy &&& ~~~(1#12 <<< f) }

/-- Bytes of one lane of an atomic (R298). -/
def AtomicOp.size (a : AtomicOp) : Nat :=
  match a.what with
  | .acas2 => 16
  | .redx => 8
  | _ => if a.wide then 8 else 4

/-- A range of bytes that an operation reads or writes, in memory or in the crew's scratchpad; whether the access is one of the
team's own words, whose accesses to a location are all in program order (R266). -/
structure Rng where
  scratch : Bool
  pa : Nat
  len : Nat
  wr : Bool
  own : Bool := false
  deriving DecidableEq, Repr

/-- The physical address of a virtual one under a list of pages. -/
def pagePa (pages : List (Nat × Nat)) (va : Nat) : Nat :=
  ((pages.find? fun p => p.1 = va / 65536).map Prod.snd).getD 0 + va % 65536

/-- A lane of LDB that reads a fabric address: it has no local physical address (R258). -/
def farLane (sp : Space) (a : LaneAcc) : Bool := sp == .remote && vaClass a.va == .fabric

/-- The ranges of an operation, for the order of a team's own accesses (R266, R33): a copy engine's operation counts
with the pages of its tile, a fabric address with its virtual address, which no physical one equals. -/
def OpKind.ranges : OpKind → List Rng
  | .load sp z _ _ _ _ accs _ _ =>
    accs.map fun a =>
      { scratch := sp == .scratch, pa := if farLane sp a then a.va.toNat else a.pa, len := szBytes z, wr := false, own := true }
  | .store sp accs => accs.map fun a => { scratch := sp == .scratch, pa := a.1.pa, len := a.2.length, wr := true }
  | .fill f => f.pages.map fun p => { scratch := false, pa := p.2, len := 65536, wr := false }
  | .drain d =>
    { scratch := true, pa := 0, len := 262144, wr := false } ::
      d.pages.map fun p => { scratch := false, pa := p.2, len := 65536, wr := true }
  | .mload l => l.pages.map fun p => { scratch := false, pa := p.2, len := 65536, wr := false }
  | .mst m => m.pages.map fun p => { scratch := false, pa := p.2, len := 65536, wr := true }
  | .mtrq _ => []
  | .atomic a => a.lanes.map fun l => { scratch := a.spad, pa := l.pa, len := a.size, wr := true }
  | .ramo _ => []
  | .rsvs _ => []
  | .tile t => (t.srcPages.map fun p => { scratch := false, pa := p.2, len := 65536, wr := false }) ++
      t.dstPages.map fun p => { scratch := false, pa := p.2, len := 65536, wr := true }
  | .word _ => []

/-- Two ranges of one storage overlap, and one of them is written or both are accesses of words. -/
def rangeMeets (x y : Rng) : Bool :=
  (x.scratch == y.scratch) && (x.wr || y.wr || (x.own && y.own)) && x.pa < y.pa + y.len && y.pa < x.pa + x.len

/-- An operation may be performed: no earlier operation of its team touches its bytes with either of them writing, or as
words do (R266, R33). -/
def mayPerform (s : State) (o : Op) : Bool :=
  !s.ops.any fun x => x.team = o.team && x.id < o.id && x.kind.ranges.any fun r => o.kind.ranges.any (rangeMeets r)

/-- An access of the operation's team that came before it is still to be performed: an engine's command waits for it (R33). -/
def earlierMem (s : State) (o : Op) : Bool :=
  s.ops.any fun x => x.team = o.team && x.id < o.id && x.kind.isMem && !waitsCommit s x

/-- An engine's command may be performed: after every access that its team issued before it, and after an earlier command on its bytes (R33). -/
def mayEngine (s : State) (o : Op) : Bool := mayPerform s o && !earlierMem s o

/-- The crew of an operation still holds it in place: the crew runs, or ended with its accesses to complete, and its
generation is the operation's (R31). -/
def opCurrent (s : State) (o : Op) : Bool := (s.crew o.crew).gen = o.gen && (s.crew o.crew).state ≠ .saved

/-! ### Loads and stores -/

/-- The bytes that a team's quantum buffer holds for some range, latest first (R272). -/
def heldBytes (t : Team) (scratch : Bool) (pa n : Nat) : List (Nat × Byte) :=
  t.dq.items.reverse.flatMap fun x =>
    match x with
    | .store _ p sc bs =>
      if sc = scratch then ((List.range bs.length).zip bs).filterMap fun e =>
        if pa ≤ p + e.1 && p + e.1 < pa + n then some (p + e.1, e.2) else none
      else []
    | .atomic _ | .load _ => []

/-- Bytes with those of a quantum buffer over them. -/
def overHeld (held : List (Nat × Byte)) (pa : Nat) (bs : List Byte) : List Byte :=
  ((List.range bs.length).zip bs).map fun e => ((held.find? fun h => h.1 = pa + e.1).map Prod.snd).getD e.2

/-! ### Request slots (R3, R252) -/

/-- The line numbers of some accesses of a load. -/
def accLines (sp : Space) (accs : List LaneAcc) : List Nat := accs.map fun a => (if farLane sp a then a.va.toNat else a.pa) / 128

/-- The lines that an operation of a word still has requests for, in ascending mask-word order: none for the scratchpad or for an atomic that
waits for a commit. -/
def OpKind.lines : OpKind → List Nat
  | .load sp _ _ scalar _ left accs _ _ => if sp == .scratch then [] else accLines sp (accs.filter fun a => scalar || left.contains (a.lane / 32))
  | .store sp accs => if sp == .scratch then [] else accs.map fun a => a.1.pa / 128
  | .atomic a => if a.spad || a.deferred then [] else a.lanes.map fun l => l.pa / 128
  | .fill _ | .drain _ | .mload _ | .mst _ | .mtrq _ | .ramo _ | .rsvs _ | .tile _ | .word _ => []

/-- The requests of an operation, one for each line, the last line first (R252). -/
def OpKind.requests (k : OpKind) : List Nat := distinct k.lines.reverse

/-- The request slots of a core. -/
def coreSlots : Nat := 768

/-- The requests that a core has outstanding: of an operation with more lines than there are slots, as many as there are slots (R3). -/
def requestsOut (s : State) (ck : Nat) : Nat :=
  ((s.ops.filter fun o => (s.teamAt o.team).coreK = ck).map fun o => min coreSlots o.kind.requests.length).foldl (· + ·) 0

/-- The requests of an operation that a word would start find slots: all of them beside those outstanding, or, when they outnumber the slots, the
first that do not (R252; log entry 83). -/
def mayEnter (s : State) (k : OpKind) : Bool :=
  k.requests.length = 0 || requestsOut s s.team.coreK + min coreSlots k.requests.length ≤ coreSlots

/-- A load's mask word waits for request slots: lines of it are not among the first 768 that the load still has requests for (R3, R252). -/
def OpKind.notEntered (k : OpKind) (w : Nat) : Bool :=
  decide (coreSlots < k.requests.length) &&
    match k with
    | .load sp _ _ _ _ _ accs _ _ => (accLines sp (accs.filter fun a => a.lane / 32 = w)).any fun l => !(k.requests.reverse.take coreSlots).contains l
    | _ => false

/-- An operation still has requests that wait for slots (R252). -/
def entering (s : State) (o : Op) : Bool := decide (coreSlots < o.kind.requests.length) && !waitsCommit s o

/-! ### Returns -/

/-- What one lane of a load receives: a value, or a marker (R254). -/
inductive Got
  | val (bs : List Byte)
  | bad (m : Mark)
  deriving DecidableEq, Repr

/-- A line of a fabric address: in the remote-read cache; from this device's own window when the address names it, for
die `d` and context `ctx`; or among the lines that came with the return (R243, R258). -/
def remoteLine (s : State) (d ctx : Nat) (remote : List RemoteLine) (line : Nat) : State × Option RemoteLine :=
  let c := smGet {} s.rrc line
  if c.valid = BitVec.allOnes 128 then
    (s, some { line := BitVec.ofNat 64 (line * 128), data := (List.range 128).map c.byte, fail := none })
  else if fabDev (BitVec.ofNat 64 (line * 128)) = s.devno d then
    match jobOf s d ctx with
    | some job => ((exportLine s job line).1, some (exportLine s job line).2)
    | none => (s, some { line := BitVec.ofNat 64 (line * 128), data := [], fail := some 0 })
  else (s, remote.find? fun r => r.line.toNat / 128 = line)

/-- Allocate a fetched line in the remote-read cache, while it has capacity (R246, R258). -/
def cacheRemote (s : State) (r : RemoteLine) (alloc : Bool) : State :=
  if !alloc || r.fail.isSome || (s.die 0).regs.rrcsteps = 0 then s
  else { s with rrc := smSet {} s.rrc (r.line.toNat / 128) { data := BitVec.ofNat 1024 (leNat r.data), valid := BitVec.allOnes 128 } }

/-- A lane's read of memory, with the caches filled by it (R244, R255, R256, R258). After a read at the home the copies that the core reads
go, so that no later load of the team returns an older value (R266). -/
def readLane (s : State) (d k ctx : Nat) (sp : Space) (n : Nat) (a : LaneAcc) (remote : List RemoteLine) (alloc : Bool) :
    State × Option Got :=
  if sp = .remote && vaClass a.va = .fabric then
    match remoteLine s d ctx remote (a.va.toNat / 128) with
    | (s, none) => (s, none)
    | (s, some r) =>
      (cacheRemote s r alloc,
       some (match r.fail with
        | some dt => .bad (.remoteRead dt (a.va &&& ~~~(0x7F#64)))
        | none => .val ((r.data.drop (a.va.toNat % 128)).take n)))
  else if if sp = .home then anyPoison (settleLine s d k (a.pa / 128)) a.pa n else plainPoison s d k a.pa n then
    (s, some (.bad (.data (a.va &&& ~~~(0x7F#64)))))
  else if sp = .home then
    let s := forgetLine (settleLine s d k (a.pa / 128)) d k (a.pa / 128)
    (s, some (.val (homeBytes s a.pa n)))
  else
    let s := fillL1 s d k (a.pa / 128)
    (s, some (.val (plainBytes s d k a.pa n)))

/-- The value that a size and a sign extension make of a lane's bytes (R255). -/
def loadValue (z : BitVec 3) (signed : Bool) (bs : List Byte) : Nat :=
  let v := leNat bs
  let w := 8 * szBytes z
  if signed && z.toNat < 2 && 2 ^ (w - 1) ≤ v then v + (2 ^ 32 - 2 ^ w) else v

/-- Put a marker into `n` registers of a lane. -/
def Team.markV (t : Team) (d l : Nat) (m : Mark) (n : Nat) : Team :=
  { t with r := { t.r with vmarks := (List.range n).foldl (fun a r => smSet none a (vKey (d + r) l) (some m)) t.r.vmarks } }

/-- Put a marker into `n` scalar registers. -/
def Team.markS (t : Team) (d : Nat) (m : Mark) (n : Nat) : Team :=
  { t with r := { t.r with smarks := (List.range n).foldl (fun a r => smSet none a (d + r) (some m)) t.r.smarks } }

/-- Write `n` scalar registers from a number. -/
def Team.setSn (t : Team) (d v : Nat) : Nat → Team
  | 0 => t
  | n + 1 => (t.setS d (BitVec.ofNat 32 v)).setSn (d + 1) (v / 2 ^ 32) n

/-- A lane of a load receives what was got (R254, R255). -/
def deliver (t : Team) (z : BitVec 3) (signed scalar : Bool) (d l : Nat) (g : Got) : Team :=
  match g with
  | .bad m => if scalar then t.markS d m (szRegs z) else t.markV d l m (szRegs z)
  | .val bs =>
    if scalar then t.setSn d (loadValue z signed bs) (szRegs z) else t.setVn d l (loadValue z signed bs) (szRegs z)

/-- The scratchpad bytes of a crew at an offset; beyond the window they read as zero (R247). -/
def scratchBytes (cr : Crew) (off n : Nat) : List Byte :=
  if off + n ≤ cr.splen * 128 then (List.range n).map fun k => smGet 0 cr.scratch (off + k) else List.replicate n 0

/-- A lane's read of the crew's scratchpad; poison travels with the value, and the marker holds its line's offset (R45, R247, R254). -/
def readScratch (s : State) (c n : Nat) (a : LaneAcc) : Got :=
  let cr := s.crew c
  if a.pa + n ≤ cr.splen * 128 && (List.range n).any (fun k => smGet false cr.spoison (a.pa + k)) then .bad (.data (a.va &&& ~~~(0x7F#64)))
  else .val (scratchBytes cr a.pa n)

/-- What a lane gets once the bytes of its team's quantum buffer are put over it: no marker where the buffer holds them all (R254, R272). -/
def heldOver (held : List (Nat × Byte)) (pa n : Nat) (g : Got) : Got :=
  match g with
  | .val bs => .val (overHeld held pa bs)
  | .bad m =>
    if (List.range n).all fun k => held.any fun h => h.1 = pa + k then .val (overHeld held pa (List.replicate n 0)) else .bad m

/-- The lanes of one mask word of a load receive their data, in ascending lane order (R252, R255); none when a line of a
fabric address has not come. -/
def loadWord (s : State) (o : Op) (sp : Space) (z : BitVec 3) (signed scalar : Bool) (d : Nat) (accs : List LaneAcc)
    (held : List (Nat × Byte)) (alloc : Bool) (remote : List RemoteLine) : Option State :=
  let t := s.teamAt o.team
  accs.foldl (fun (x : Option State) a =>
    match x with
    | none => none
    | some s =>
      let r := if sp = .scratch then (s, some (readScratch s o.crew (szBytes z) a))
               else readLane s t.id.die t.id.core t.id.ctx sp (szBytes z) a remote alloc
      match r.2 with
      | none => none
      | some g =>
        let g := if farLane sp a then g else heldOver held a.pa (szBytes z) g
        some (r.1.updTeam o.team fun t => deliver t z signed scalar d a.lane g)) (some s)

/-- One mask word of a load returns (R252, R254, R255): its lanes are written, its pending bits clear, and with the last
word the load completes. A return of a retired generation is discarded (R31). -/
def returnLoad (s : State) (o : Op) (k : Nat) (remote : List RemoteLine) : State :=
  match o.kind with
  | .load sp z signed scalar d left accs held alloc =>
    if !left.contains k || !mayPerform s o || o.kind.notEntered k then s
    else
      match loadWord s o sp z signed scalar d (if scalar then accs else accs.filter fun a => a.lane / 32 = k) held alloc remote with
      | none => s
      | some s =>
        let left := left.filter (· ≠ k)
        let s := s.updTeam o.team fun t => if scalar then t.sPend d (szRegs z) 0 else t.vPend d (szRegs z) [k] 0
        let o' := { o with kind := .load sp z signed scalar d left accs held alloc }
        if left = [] then finishOp s o' else { s.updOp o.id (fun _ => o') with progress := s.progress + 1 }
  | _ => s

/-- A lane's store is performed at its place (R248, R256); a scratchpad byte out of range is dropped (R247). -/
def storeLane (s : State) (o : Op) (sp : Space) (a : LaneAcc) (bs : List Byte) : State :=
  let t := s.teamAt o.team
  match sp with
  | .scratch =>
    let cr := s.crew o.crew
    if a.pa + bs.length ≤ cr.splen * 128 then
      s.setCrew o.crew { cr with
        scratch := smSetAll 0 cr.scratch (((List.range bs.length).zip bs).map fun e => (a.pa + e.1, e.2)),
        spoison := smSetAll false cr.spoison ((List.range bs.length).map fun k => (a.pa + k, false)) }
    else s
  | .home => storeHome s t.id.die t.id.core a.pa bs
  | _ => storeBytes s t.id.die t.id.core a.pa bs

/-! ### Issue -/

/-- A load of the team that issues stands behind an atomic of its own that its quantum defers, or behind a load that does: their bytes
meet. It is performed in its place of the commit, so that it returns the atomic's value (R266, R309; log entry 89). -/
def behindDeferred (s : State) (k : OpKind) : Bool :=
  s.team.id.quantum.isSome &&
    s.ops.any fun o => o.team = s.team.key && waitsCommit s o && o.kind.ranges.any fun r => k.ranges.any (rangeMeets r)

/-- A load may return: behind a deferred atomic, only when the commit has come to it (R274, R309; log entry 89). -/
def loadTurn (s : State) (o : Op) : Bool :=
  let t := s.teamAt o.team
  !t.dq.items.contains (.load o.id) ||
    ((s.crew o.crew).commit && t.dq.items.head? == some (.load o.id) &&
      (List.range t.id.tno).all fun n =>
        let u := s.teamAt (teamKey o.crew n)
        u.id.crew ≠ o.crew || u.dq.items == [])

/-- A load starts, behind a deferred atomic or not; what it takes over the buffer is left out of one that the commit performs. -/
def startLoadOp (s : State) (sp : Space) (z : BitVec 3) (signed scalar : Bool) (d : Nat) (words : List Nat) (accs : List LaneAcc)
    (held : List (Nat × Byte)) (alloc : Bool) : State :=
  if behindDeferred s (.load sp z signed scalar d words accs held alloc) then
    (startOp s (.load sp z signed scalar d words accs [] alloc)).mapTeam fun t =>
      { t with dq := { t.dq with items := t.dq.items ++ [.load s.opId] } }
  else startOp s (.load sp z signed scalar d words accs held alloc)

/-- A load issues once its requests have entered: its destination is pending in the mask words of its lanes (R252, R255). One with more lines than
there are slots is in flight from its first requests on, and its team goes on when its last has entered (log entry 83). A word with no active lane
completes at once (R77). -/
def issueLoad (s : State) (sp : Space) (z : BitVec 3) (signed : Bool) (d : BitVec 7) (accs : List LaneAcc) (alloc : Bool) :
    Res :=
  if accs = [] then ok s
  else
    let words := maskWords s.team.id.width (maskOf (accs.map fun a => a.lane))
    let held := (accs.filter fun a => !farLane sp a).flatMap fun a => heldBytes s.team (sp == .scratch) a.pa (szBytes z)
    let id := s.opId
    let k := OpKind.load sp z signed false d.toNat words accs held alloc
    if !mayEnter s k then .block s .slots
    else ok ((startLoadOp s sp z signed false d.toNat words accs held alloc).mapTeam fun t => t.vPend d.toNat (szRegs z) words (id + 1))

/-- The lanes of a MEM word with their addresses. -/
def memLanes (t : Team) (sp : BitVec 5) (o : BitVec 7) : List (Nat × W64) :=
  t.lanes.map fun l => (l, laneAddr t sp o t.memOff l)

/-- LD (R255). -/
def execLd (z : BitVec 3) (d o : BitVec 7) (sp : BitVec 5) (g l : BitVec 1) (s : State) :
    Host.Outcome State Fault Refusal :=
  runWord (.ld z d o sp g l) s fun s =>
    withAccess s (memLanes s.team sp o) (szBytes z) .read fun s accs =>
      issueLoad s (if l = 1 then .home else .plain) z (g = 1) d accs true

/-- The bytes a store writes for a lane. -/
def storeData (t : Team) (z : BitVec 3) (d : BitVec 7) (l : Nat) : List Byte :=
  leBytes (t.getVn d.toNat l (szRegs z)) (szBytes z)

/-- The lines that a quantum buffer holds. -/
def dqLines (items : List DqItem) : List Nat :=
  distinct (items.flatMap fun x =>
    match x with
    | .store _ p sc bs => (List.range bs.length).map fun k => ((p + k) / 128) * 2 + if sc then 1 else 0
    | .atomic _ | .load _ => [])

/-- A store issues. In deterministic quantum mode its bytes go to the team's buffer, the quantum ending before it when
its lines do not fit, and after it when they exceed the buffer on their own; a .llc store is a plain one there, and held as one (DEDUCED,
log entry 82; R272, R273, R275). -/
def issueStore (s : State) (sp : Space) (accs : List (LaneAcc × List Byte)) : Res :=
  if accs = [] then ok s
  else if s.team.id.quantum.isSome then
    let items := accs.map fun a => DqItem.store a.1.va a.1.pa (sp == .scratch) a.2
    let own := dqLines items
    if 256 < own.length then
      ok (s.mapTeam fun t => { t with dq := { t.dq with items := t.dq.items ++ items, full := true } })
    else if 256 < (dqLines (s.team.dq.items ++ items)).length then .block (s.mapTeam Team.endQuantum) .quantum
    else ok (s.mapTeam fun t => { t with dq := { t.dq with items := t.dq.items ++ items } })
  else if !mayEnter s (.store sp accs) then .block s .slots
  else ok (startOp s (.store sp accs))

/-- ST (R256). -/
def execSt (z : BitVec 3) (d o : BitVec 7) (sp : BitVec 5) (l : BitVec 1) (s : State) :
    Host.Outcome State Fault Refusal :=
  runWord (.st z d o sp l) s fun s =>
    withAccess s (memLanes s.team sp o) (szBytes z) .write fun s accs =>
      issueStore s (if l = 1 then .home else .plain) (accs.map fun a => (a, storeData s.team z d a.lane))

/-- LDK: one access for the team, to scalar registers (R257). -/
def execLdk (z : BitVec 3) (d : BitVec 6) (sp : BitVec 5) (g l : BitVec 1) (s : State) :
    Host.Outcome State Fault Refusal :=
  runWord (.ldk z d sp g l) s fun s =>
    let t := s.team
    let va := t.getS64 (2 * sp.toNat) + t.memOff
    let whole : Res → Res := fun r => match r with | .trap s i => .trap s { i with mask := some t.m } | r => r
    whole (withAccess s (t.lanes.map fun k => (k, va)) (szBytes z) .read fun s accs =>
      let accs := accs.take 1
      let held := accs.flatMap fun a => heldBytes s.team false a.pa (szBytes z)
      let id := s.opId
      let sp := if l = 1 then Space.home else .plain
      if accs = [] then ok s
      else if !mayEnter s (.load sp z (g = 1) true d.toNat [0] accs held true) then .block s .slots
      else ok ((startLoadOp s sp z (g = 1) true d.toNat [0] accs held true).mapTeam fun t => t.sPend d.toNat (szRegs z) (id + 1)))

/-- LDB: a plain load for a local address; a fabric address is read through the remote-read cache (R258). -/
def execLdb (z : BitVec 3) (d o : BitVec 7) (sp : BitVec 5) (g n : BitVec 1) (s : State) :
    Host.Outcome State Fault Refusal :=
  runWord (.ldb z d o sp g n) s fun s =>
    let as := memLanes s.team sp o
    match addrCheck as (szBytes z) true with
    | some i => .trap s i
    | none =>
      match translateLanes s (as.filter fun a => vaClass a.2 = .localVa) .read with
      | .trap s i => .trap s i
      | .wait s => .block s .walk
      | .ok accs =>
        let far := (as.filter fun a => vaClass a.2 = .fabric).map fun a => ({ lane := a.1, va := a.2, pa := 0 } : LaneAcc)
        issueLoad s (if far = [] then .plain else .remote) z (g = 1) d (accs ++ far) (n = 0)

/-- STORE_COMPLETE (R256): the lanes are performed in ascending order, so the highest-numbered lane's byte is the final
one; then the store completes. -/
def execStoreComplete (s : State) : Host.Outcome State Fault Refusal :=
  match s.op s.site.op with
  | none => .next s
  | some o =>
    match o.kind with
    | .store sp accs =>
      if mayPerform s o then
        let s := accs.foldl (fun s a => storeLane s o sp a.1 a.2) s
        .next (finishOp s o)
      else .next s
    | _ => .next s

/-! ### Walks, TLBs and system software's registers over them -/

/-- PAGE_WALK_COMPLETE (R278 to R280): the walk that has run longest for the site's core ends. -/
def execPageWalkComplete (s : State) : Host.Outcome State Fault Refusal :=
  match (coreWalks s (coreKey s.site.die s.site.core)).find? fun w => w.fault.isNone with
  | none => .next s
  | some w =>
    let root := ((recWord s w.ctx 0).extractLsb' 9 43).toNat * 512
    if !isMapped root then .fault (.physHole root) else .next (endWalk s s.site.die w)

/-- The TLB entries that a write of register 0x300 names (R281). -/
def invalNames (v : W64) (t : TlbEntry) : Bool :=
  let ctx := (v.extractLsb' 48 16).toNat
  let vpn := (v.extractLsb' 16 32).toNat
  t.ctx == ctx && (v.getLsbD 1 || (if v.getLsbD 2 then t.vpn / 2 ^ 13 == vpn / 2 ^ 13 else tlbHits ctx vpn t))

/-- TLB_INVALIDATE (R281): system software writes register 0x300 of the site's die. -/
def execTlbInvalidate (value : W64) (s : State) : Host.Outcome State Fault Refusal :=
  let d := s.die s.site.die
  .next { s.setDie s.site.die { d with regs := { d.regs with inval := value &&& ~~~(0xFFF8#64) } } with
    progress := s.progress + 1 }

/-- An operation accesses a page that a test names, by the page's number. -/
def OpKind.usesPage (k : OpKind) (p : Nat → Bool) : Bool :=
  let page : W64 → Bool := fun va => p (va.toNat / 65536)
  match k with
  | .load sp _ _ _ _ _ accs _ _ => accs.any fun a => !farLane sp a && sp != .scratch && page a.va
  | .store sp accs => sp != .scratch && accs.any fun a => page a.1.va
  | .fill f => f.pages.any fun e => p e.1
  | .drain d => d.pages.any fun e => p e.1
  | .mload l => l.pages.any fun e => p e.1
  | .mst m => m.pages.any fun e => p e.1
  | .atomic a => !a.spad && a.lanes.any fun l => page l.va
  | .tile t => t.srcPages.any (fun e => p e.1) || t.dstPages.any fun e => p e.1
  | .mtrq _ | .ramo _ | .rsvs _ | .word _ => false

/-- An operation of a die's core still uses a translation that an invalidation names (R281); one that waits for the commit of a saved crew is
translated again when the crew is restored (log entry 108). -/
def usesInval (s : State) (die : Nat) (v : W64) (o : Op) : Bool :=
  let t := s.teamAt o.team
  t.id.die == die && !((s.crew o.crew).state == .saved && waitsCommit s o) && o.kind.usesPage fun p => invalNames v { ctx := t.id.ctx, vpn := p, leaf := 0, large := false }

/-- A team of a die, of a crew that is not saved, holds a store in its quantum buffer whose translation an invalidation names (R272, R281). -/
def heldInval (s : State) (die : Nat) (v : W64) (t : Team) : Bool :=
  t.id.die == die && (s.crew t.id.crew).state != .saved && t.dq.items.any fun x =>
    match x with
    | .store va _ sc _ => !sc && invalNames v { ctx := t.id.ctx, vpn := va.toNat / 65536, leaf := 0, large := false }
    | .atomic _ | .load _ => false

/-- Drop the entries that an invalidation names from every TLB of a die. -/
def dropTlb (s : State) (die : Nat) (v : W64) : State :=
  (List.range 48).foldl (fun s k =>
    let c := s.core (coreKey die k)
    s.setCore (coreKey die k) { c with tlb := c.tlb.filter fun t => !invalNames v t }) s

/-- TLB_INVALIDATE_DONE (R281): once every access already translated through the entries is performed, one held in a quantum buffer too, the die has
dropped them and GO clears. -/
def execTlbInvalidateDone (s : State) : Host.Outcome State Fault Refusal :=
  let d := s.die s.site.die
  let v := d.regs.inval
  if !v.getLsbD 0 || s.ops.any (usesInval s s.site.die v) || heldInval s s.site.die v s.team ||
      s.others.any fun e => heldInval s s.site.die v e.2 then .next s
  else
    let s := dropTlb s s.site.die v
    let d := s.die s.site.die
    .next { s.setDie s.site.die { d with regs := { d.regs with inval := v &&& ~~~1#64 } } with progress := s.progress + 1 }

/-- RRCSTEPS_WRITE (R246): values above 8 read back as 8, and the whole remote-read cache is invalidated. -/
def execRrcstepsWrite (value : W32) (s : State) : Host.Outcome State Fault Refusal :=
  let d := s.die 0
  let v := value.toNat % 16
  .next { s.setDie 0 { d with regs := { d.regs with rrcsteps := BitVec.ofNat 32 (if 8 < v then 8 else v) } } with
    rrc := [], progress := s.progress + 1 }

/-! ### Prefetch, cache words, SPCHK, MWAIT -/

/-- PREF: a lane whose line can be read through a TLB entry is brought to the level asked for (R260). -/
def execPref (o : BitVec 7) (sp : BitVec 5) (l : BitVec 2) (s : State) : Host.Outcome State Fault Refusal :=
  runWord (.pref o sp l) s fun s =>
    let t := s.team
    ok ((memLanes t sp o).foldl (fun s a =>
      if vaClass a.2 ≠ .localVa then s
      else
        match lookup s t.coreK t.key t.id.ctx a.2 .read t.supSrc with
        | .hit lf =>
          let line := leafPa t.id.die lf a.2.toNat / 128
          if l = 0 then fillL1 s t.id.die t.id.core line else if l = 1 then fillL2 s t.id.die line else s
        | _ => s) s)

/-- The physical lines of a local range that translate (R263): those of `held` that lie in a page of the range. The pages are looked up in the
tables as they stand, not in a TLB, and none of them is marked as accessed (DESIGN CHOICE: R263 says only that a page that does not translate is
skipped, log entry 105). -/
def rangeLines (s : State) (ctx d : Nat) (va count : Nat) (held : List Nat) : List Nat :=
  let pages := distinct ((List.range (if count = 0 then 0 else (va + count - 1) / 65536 - va / 65536 + 1)).map fun k => va / 65536 + k)
  let map := pages.filterMap fun p =>
    match walk s ctx (p * 65536) with
    | .leaf e _ large => some (p, leafPa d { e := e, large := large } (p * 65536))
    | _ => none
  held.filter fun line =>
    map.any fun m => line * 128 / 65536 = m.2 / 65536 &&
      (let v := m.1 * 65536 + line * 128 % 65536; v < va + count && va < v + 128)

/-- CWB's work on a range: dirty bytes below the scope's point go to that point (R262, R263). -/
def cleanRange (s : State) (d k scope : Nat) (ctx va count : Nat) : State :=
  if scope < 2 then s
  else
    let s := (rangeLines s ctx d va count ((s.core (coreKey d k)).wb.map Prod.fst)).foldl (fun s l => drainLine s d k l) s
    if scope < 4 then s
    else (rangeLines s ctx d va count ((s.die d).l2.map Prod.fst)).foldl (fun s l => writeBackLine s d l) s

/-- The range's lines leave the L1 or fused L1 that serves the core, the node cache, and from PKG on the L2 (R263). -/
def dropRange (s : State) (d k scope : Nat) (ctx va count : Nat) : State :=
  if scope < 2 then s
  else
    let fused := fusedCluster s d k
    let s := if scope = 2 && fused then s
      else (if fused then (List.range 8).map fun j => coreKey d (k / 8 * 8 + j) else [coreKey d k]).foldl (fun s ck =>
        let c := s.core ck
        let gone := rangeLines s ctx d va count (c.l1.map Prod.fst)
        s.setCore ck { c with l1 := smDrop (gone.contains ·) c.l1 }) s
    let ck := coreKey d k
    let c := s.core ck
    let s := s.setCore ck { c with node := smDrop (fun l => decide (l < 2 ^ 45) && (rangeLines s ctx d va count [l]).contains l) c.node }
    if scope < 4 then s
    else
      let v := s.die d
      let gone := rangeLines s ctx d va count (v.l2.map Prod.fst)
      s.setDie d { v with l2 := smDrop (gone.contains ·) v.l2 }

/-- The check and range of CINV and CWB: a range that passes the local class raises ADDR with DETAIL 3 (R263). -/
def cacheWord (i : Instr) (sc : BitVec 3) (a b : BitVec 6) (inval : Bool) (s : State) :
    Host.Outcome State Fault Refusal :=
  runWord i s fun s =>
    let t := s.team
    let va := t.getS64 a.toNat
    let n := (t.getS b.toNat).toNat
    if vaClass va ≠ .localVa then .trap s { code := codeAddr, detail := addrDetail va, val := va, mask := some t.m }
    else if 2 ^ 48 < va.toNat + n then .trap s { code := codeAddr, detail := 3, val := va, mask := some t.m }
    else if n = 0 then ok s
    else
      let sc := s.meant t.key sc.toNat
      let s := cleanRange s t.id.die t.id.core sc t.id.ctx va.toNat n
      ok (if inval then dropRange s t.id.die t.id.core sc t.id.ctx va.toNat n else s)

/-- CINV (R263). -/
def execCinv (sc : BitVec 3) (a b : BitVec 6) (s : State) : Host.Outcome State Fault Refusal :=
  cacheWord (.cinv sc a b) sc a b true s

/-- CWB (R263). -/
def execCwb (sc : BitVec 3) (a b : BitVec 6) (s : State) : Host.Outcome State Fault Refusal :=
  cacheWord (.cwb sc a b) sc a b false s

/-- RRINV (R259). -/
def execRrinv (a b : BitVec 6) (s : State) : Host.Outcome State Fault Refusal :=
  runWord (.rrinv a b) s fun s =>
    let t := s.team
    let va := t.getS64 a.toNat
    let n := (t.getS b.toNat).toNat
    if vaClass va ≠ .fabric then .trap s { code := codeAddr, detail := 2, val := va, mask := some t.m }
    else if 2 ^ 45 < fabOff va + n then .trap s { code := codeAddr, detail := 3, val := va, mask := some t.m }
    else ok { s with rrc := smDrop (fun l => n ≠ 0 && l * 128 < va.toNat + n && va.toNat < l * 128 + 128) s.rrc }

/-- SPCHK (R264). -/
def execSpchk (d : BitVec 6) (s : State) : Host.Outcome State Fault Refusal :=
  runWord (.spchk d) s fun s => ok (s.mapTeam fun t =>
    { t.setS d.toNat ((sysRead s 0x009).setWidth 32) with sp := {} })

/-- Bytes as read at a scope's point (R262, R265). -/
def readAtScope (s : State) (d k scope pa n : Nat) : List Byte :=
  if scope < 2 || (scope = 2 && fusedCluster s d k) then plainBytes s d k pa n
  else if scope < 4 then
    (List.range n).map fun j =>
      let l := smGet {} (s.die d).l2 ((pa + j) / 128)
      if l.valid.getLsbD ((pa + j) % 128) then l.byte ((pa + j) % 128) else homeByte s (pa + j)
  else homeBytes s pa n

/-- What a core holds of a line below a scope's point goes to that point, so that a team's own store is read there (R262, R266). -/
def settleAt (s : State) (d k scope line : Nat) : State :=
  if scope < 2 || (scope = 2 && fusedCluster s d k) then s
  else if scope < 4 then drainLine s d k line
  else settleLine s d k line

/-- A word of the team reads `n` bytes: an earlier access of the team to them is still to be performed (R266). -/
def readBusy (s : State) (t : Team) (pa n : Nat) : Bool :=
  s.ops.any fun o => o.team = t.key && o.kind.ranges.any (rangeMeets { scratch := false, pa := pa, len := n, wr := false, own := true })

/-- MWAIT (R265): it checks its address, then waits until the word differs from sB; the acquire comes after the team's earlier loads. A poisoned line
raises nothing and marks nothing: the word compares and takes the bytes as they are stored (DESIGN CHOICE: R254 speaks of loads, log entry 104). -/
def execMwait (tc : BitVec 3) (d a b : BitVec 6) (sc : BitVec 3) (s : State) : Host.Outcome State Fault Refusal :=
  runWord (.mwait tc d a b sc) s fun s =>
    let t := s.team
    let va := t.getS64 a.toNat
    let n := 4 * iWide tc
    let whole : Res → Res := fun r => match r with | .trap s i => .trap s { i with mask := some t.m } | r => r
    whole (withAccess s (t.lanes.map fun k => (k, va)) n .read fun s accs =>
      match accs with
      | [] => ok s
      | x :: _ =>
        if isHost x.pa then .trap s { code := codeAddr, detail := 4, val := va }
        else if readBusy s t x.pa n then .block s .fence
        else
          let sc := s.meant t.key sc.toNat
          let s := settleAt s t.id.die t.id.core sc (x.pa / 128)
          let v := leNat (overHeld (heldBytes t false x.pa n) x.pa (readAtScope s t.id.die t.id.core sc x.pa n))
          let w := if tc = 3 then (t.getS64 b.toNat).toNat else (t.getS b.toNat).toNat
          if v = w then .block s .memory
          else withAcquire s sc fun s => ok (s.mapTeam fun t => t.setSn d.toNat v (iWide tc)))

/-- MWAIT_WAKE (R265, R270): a write to the word's line has been performed at the scope's point; a team that waits looks again, and one whose
word has not changed waits on (R200). -/
def execMwaitWake (s : State) : Host.Outcome State Fault Refusal := .next { s with progress := s.progress + 1 }

/-! ### The handler's words (R283 to R289) -/

/-- Remove from every cache the lines of `n` frames of 64 KiB from one on; a node cache holds no local line beyond 2^45 (R284, R286, R420). -/
def dropFrames (s : State) (frame n : Nat) : State :=
  let inFrame : Nat → Bool := fun l => frame ≤ l / 512 && l / 512 < frame + n
  { s with
    cores := s.cores.map fun e =>
      (e.1, { e.2 with wb := smDrop inFrame e.2.wb, l1 := smDrop inFrame e.2.l1, node := smDrop inFrame e.2.node }),
    dies := s.dies.map fun e => (e.1, { e.2 with l2 := smDrop inFrame e.2.l2 }) }

/-- A frame taken by PMAP reads as zero from here on (R284). -/
def zeroFrame (s : State) (frame : Nat) : State :=
  let out : Nat → Bool := fun a => a / 65536 = frame
  let s := dropFrames s frame 1
  { s with mem := smDrop out s.mem, poison := smDrop out s.poison, zeroed := frame :: s.zeroed }

/-- Write a miss record at MISSTAIL and advance it (R277, R287). -/
def postMiss (s : State) (ctx : Nat) (bs : List Byte) : State :=
  let w := recWord s ctx 0x18
  let log := (w.extractLsb' 59 5).toNat
  let base := (w.extractLsb' 5 47).toNat * 32
  let tail := (home32 s ((s.context ctx).root + 0x24)).toNat
  setHome32 (setHomeBytes s (base + tail % 2 ^ log * 32) bs) ((s.context ctx).root + 0x24) (BitVec.ofNat 32 (tail + 1))

/-- The miss ring has room for one more record (R287). -/
def missRoom (s : State) (ctx : Nat) : Bool :=
  let log := ((recWord s ctx 0x18).extractLsb' 59 5).toNat
  let head := home32 s ((s.context ctx).root + 0x20)
  let tail := home32 s ((s.context ctx).root + 0x24)
  decide ((tail - head).toNat < 2 ^ log)

/-- The 32 bytes of a miss record (R287). -/
def missRecord (va : W64) (handle crew kind : Nat) (wr x : Bool) (frames : Nat) : List Byte :=
  leBytes va.toNat 8 ++ leBytes handle 4 ++ leBytes crew 4 ++
  [BitVec.ofNat 8 kind, BitVec.ofNat 8 ((if wr then 1 else 0) + (if x then 2 else 0) + frames * 16)] ++ List.replicate 14 0

/-- The pages that a leaf maps, as the first and their number. -/
def leafPages (page : Nat) (large : Bool) : Nat × Nat := if large then (page / 8192 * 8192, 8192) else (page, 1)

/-- The frames of a read-duplicated leaf that a collapse for die `d` gives up: the copies on the other three base dies (R278, R286). -/
def otherFrames (d : Nat) (e : W64) : List Nat := ([0, 1, 2, 3].filter (· ≠ d / 2)).map fun k => leafFrame e + k * 2 ^ 22

/-- The leaf after a collapse for die `d`: ATTR 0, FRAME the copy on the base die of `d` (R286). -/
def collapsedLeaf (d : Nat) (e : W64) : W64 :=
  (e &&& ~~~(0x700FFFFFFFFF0000#64)) ||| (BitVec.ofNat 64 (leafFrame e + d / 2 * 2 ^ 22) <<< 16)

/-- A collapse of a read-duplicated page (R286): the leaf keeps the writer's copy, every core and walker drops the
translation, the lines of the other copies, 8,192 frames each of a large page, leave the caches, and one miss record gives them back. The record is
written at MISSTAIL though the ring is full, where R287 has PMISS alone wait (DESIGN CHOICE, log entry 103). -/
def collapse (s : State) (ctx d page : Nat) (e : W64) (pa : Nat) (large : Bool) : State :=
  let s := setHome64 s pa (collapsedLeaf d e)
  let s := { s with cores := s.cores.map fun c => (c.1, { c.2 with tlb := c.2.tlb.filter fun t => !tlbHits ctx page t }) }
  let s := (otherFrames d e).foldl (fun s f => dropFrames s f (leafPages page large).2) s
  postMiss s ctx (missRecord (BitVec.ofNat 64 ((otherFrames d e).headD 0)) (s.crew s.team.id.crew).handle 0 3 false false 3)

/-- PMAP's work on one page, with the status it gives and the leaf that it collapsed (R283). -/
def pmapPage (s : State) (ctx d page code detail : Nat) : State × Nat × Option (Nat × Nat × List Nat) :=
  if (code = codeProt && detail ≠ 4) || code = codeWalk then (s, 3, none)
  else
    let root := (s.context ctx).root
    match walk s ctx (page * 65536) with
    | .leaf e pa large =>
      if code = codeProt && leafAttr e = 2 then
        (collapse s ctx d page e pa large, 0, some ((leafPages page large).1, (leafPages page large).2, otherFrames d e))
      else (s, 0, none)
    | .lazyLeaf e pa =>
      let head := home32 s (root + 0x10)
      if head = home32 s (root + 0x14) then (s, 1, none)
      else
        let w := recWord s ctx 0x08
        let idx := head.toNat % 2 ^ (w.extractLsb' 59 5).toNat
        let f := (home64 s ((w.extractLsb' 3 49).toNat * 8 + idx * 8)).toNat % 2 ^ 36
        -- V 1, A 0, D 0, FRAME F, the other fields kept
        let e' : W64 := (e &&& ~~~(0x000FFFFFFFFF0180#64)) ||| (BitVec.ofNat 64 f <<< 16) ||| 1#64
        let s := setHome64 s pa e'
        (zeroFrame (setHome32 s (root + 0x10) (head + 1)) f, 0, none)
    | _ => (s, 2, none)

/-- FADDR of a lane. -/
def Team.faddr (t : Team) (l : Nat) : W64 := smGet 0 t.eng.faddr l

/-- The code and DETAIL of a fault word (R282). -/
def faddrCode (f : W64) : Nat := (f.extractLsb' 8 8).toNat
/-- DETAIL of a fault word. -/
def faddrDetail (f : W64) : Nat := (f.extractLsb' 0 8).toNat

/-- The distinct pages of FADDR of some lanes, ascending, each with its first fault word. -/
def faddrPages (t : Team) (lanes : List Nat) : List (Nat × W64) :=
  (sortAsc (distinct (lanes.map fun l => (t.faddr l).toNat / 65536))).map fun p =>
    (p, ((lanes.map t.faddr).find? fun f => f.toNat / 65536 = p).getD 0)

/-- PMAP's work on the pages of some fault words, with each page's number, status and the leaf that it collapsed (R283). -/
def pmapPages (ctx d : Nat) : List (Nat × W64) → State → State × List (Nat × Nat × Option (Nat × Nat × List Nat))
  | [], s => (s, [])
  | p :: r, s =>
    let y := pmapPage s ctx d p.1 (faddrCode p.2) (faddrDetail p.2)
    let z := pmapPages ctx d r y.1
    (z.1, (p.1, y.2) :: z.2)

/-- PMAP (R283): the pages are resolved, and the statuses are pending until they arrive. -/
def execPmap (d : BitVec 7) (s : State) : Host.Outcome State Fault Refusal :=
  runWord (.pmap d) s fun s =>
    let t := s.team
    let root := ((recWord s t.id.ctx 0).extractLsb' 9 43).toNat * 512
    if !isMapped root then .stop (.physHole root)
    else if t.lanes = [] then ok s
    else
      let r := pmapPages t.id.ctx t.id.die (faddrPages t t.lanes) s
      let st : Nat → Nat := fun l => ((r.2.find? fun e => e.1 = (t.faddr l).toNat / 65536).map fun e => e.2.1).getD 0
      let words := maskWords t.id.width t.eff
      let id := r.1.opId
      ok ((startOp r.1 (.word (.pmap d.toNat words (t.lanes.map fun l => (l, st l)) (r.2.filterMap fun e => e.2.2)))).mapTeam fun t =>
        t.vPend d.toNat 1 words (id + 1))

/-- An access translated through the old entry of a collapsed leaf is still to be performed: one that began before PMAP (R286). -/
def collapseBusy (s : State) (o : Op) (gone : List (Nat × Nat × List Nat)) : Bool :=
  s.ops.any fun x => x.id < o.id && (s.teamAt x.team).id.ctx = (s.teamAt o.team).id.ctx &&
    x.kind.usesPage fun p => gone.any fun g => g.1 ≤ p && p < g.1 + g.2.1

/-- The copies of lines of `n` frames of 64 KiB from one on that are as their home gave them leave every cache: the frames were read only (R286). -/
def dropClean (s : State) (frame n : Nat) : State :=
  let inFrame : Nat → Bool := fun l => frame ≤ l / 512 && l / 512 < frame + n
  { s with
    cores := s.cores.map fun e => (e.1, { e.2 with l1 := smDrop inFrame e.2.l1, node := smDrop inFrame e.2.node }),
    dies := s.dies.map fun e => (e.1, { e.2 with
      l2 := e.2.l2.filterMap fun x =>
        if !inFrame x.1 then some x
        else if x.2.dirty = 0 then none
        else some (x.1, { x.2 with valid := x.2.dirty, bad := x.2.bad &&& x.2.dirty }) }) }

/-- The statuses of one mask word of PMAP arrive, once every access through a collapsed leaf has been performed; what those read of the copies given
up leaves the caches with the first (R283, R286). -/
def returnPmap (s : State) (o : Op) (d : Nat) (left : List Nat) (sts : List (Nat × Nat)) (gone : List (Nat × Nat × List Nat)) (k : Nat) : State :=
  if !left.contains k || collapseBusy s o gone then s
  else
    let s := gone.foldl (fun s g => g.2.2.foldl (fun s f => dropClean s f g.2.1) s) s
    let s := s.updTeam o.team fun t =>
      ((sts.filter fun e => e.1 / 32 = k).foldl (fun t e => t.setV d e.1 (BitVec.ofNat 32 e.2)) t).vPend d 1 [k] 0
    let left := left.filter (· ≠ k)
    let o' := { o with kind := .word (.pmap d left sts []) }
    if left = [] then finishOp s o' else { s.updOp o.id (fun _ => o') with progress := s.progress + 1 }

/-- PMAP.RD (R283). -/
def execPmapRd (d : BitVec 7) (s : State) : Host.Outcome State Fault Refusal :=
  runWord (.pmapRd d) s fun s => ok (s.mapTeam fun t => t.vWrite d.toNat 2 fun l => ((t.faddr l).toNat, 0))

/-- FRAME_ZEROED (R284): the controller has zeroed the frame the site names. -/
def execFrameZeroed (s : State) : Host.Outcome State Fault Refusal :=
  .next { s with zeroed := s.zeroed.filter (· ≠ s.site.n), progress := s.progress + 1 }

/-- The kind of the miss record of a page whose leaf is still not valid (R287). -/
def missKind (s : State) (ctx page : Nat) : Option Nat :=
  match walk s ctx (page * 65536) with
  | .leaf _ _ _ => none
  | .lazyLeaf _ _ => some 1
  | _ => some 2

/-- The miss record of a page for the team that issues, from the fault words that name it (R287). -/
def pageRecord (s : State) (words : List W64) (page kind : Nat) : List Byte :=
  let cr := s.crew s.team.id.crew
  let mine := words.filter fun f => f.toNat / 65536 = page
  missRecord (BitVec.ofNat 64 (page * 65536)) cr.handle cr.crewno kind (mine.any fun f => f.getLsbD 4) (mine.any fun f => f.getLsbD 5) 0

/-- The records that a team's PMISS has posted so far. -/
def Team.posted (t : Team) : Nat := (t.arr 3).getD 0

/-- PMISS over the pages from one on: it waits for room in the ring before each record, and each advance of MISSTAIL is a release at SYS
(R287). -/
def pmissPages (words : List W64) (fin : State → Res) : Nat → List Nat → State → Res
  | _, [], s => fin s
  | k, p :: r, s =>
    let s := s.mapTeam fun t => t.setArr 1 (some k)
    match missKind s s.team.id.ctx p with
    | none => pmissPages words fin (k + 1) r s
    | some kind =>
      if !missRoom s s.team.id.ctx then .block s .missRing
      else
        withRelease s 6 fun s =>
          pmissPages words fin (k + 1) r
            ((postMiss s s.team.id.ctx (pageRecord s words p kind)).mapTeam fun t => t.setArr 3 (some (t.posted + 1)))

/-- The records posted by the PMISS of every team of a crew that has not ended its own (R287). -/
def crewPosted (s : State) (c : Nat) : Nat := ((s.liveTeams c).map fun n => (s.teamAt (teamKey c n)).posted).foldl (· + ·) 0

/-- PMISS ends: with no record posted it has no further effect; otherwise the crew is saved with MISSING the records posted, those of
another team that waits for room in its own PMISS too (R287; log entry 84). -/
def endPmiss (s : State) : Res :=
  let c := s.team.id.crew
  let n := if s.team.posted = 0 then 0 else crewPosted s c
  let s := s.mapTeam fun t => (t.setArr 1 none).setArr 3 none
  ok (if n = 0 then s else beginSave (s.setCrew c { s.crew c with missing := n }) c)

/-- PMISS (R287): miss records for the pages still not valid; with any, the crew is saved as for CMD = Save. -/
def execPmiss (s : State) : Host.Outcome State Fault Refusal :=
  runWord .pmiss s fun s =>
    let t := s.team
    let words := (lanesOf t.id.width t.mSrc).map t.faddr
    let pages := sortAsc (distinct (words.map fun f => f.toNat / 65536))
    let k := (t.arr 1).getD 0
    pmissPages words endPmiss k (pages.drop k) s

/-- A PMAP of a team has not completed. -/
def pmapBusy (s : State) (key : Nat) : Bool :=
  s.ops.any fun o => o.team = key && (match o.kind with | .word (.pmap _ _ _ _) => true | _ => false)

/-- PRET: the return from a translation fault, once every PMAP of the team has completed (R289). -/
def execPret (s : State) : Host.Outcome State Fault Refusal :=
  runWord .pret s fun s =>
    if pmapBusy s s.team.key then .block s .pending else s.trapReturn

/-- MISSING_DECREMENT (R288): system software writes register 0x308 of the site's die; the saved crew named loses one
missing page, and a write naming no such crew is ignored. -/
def execMissingDecrement (value : W64) (s : State) : Host.Outcome State Fault Refusal :=
  let d := s.die s.site.die
  let s := { s.setDie s.site.die { d with regs := { d.regs with missReg := value } } with progress := s.progress + 1 }
  let named := s.crews.find? fun e =>
    e.2.handle = (value.extractLsb' 32 32).toNat && e.2.crewno = (value.extractLsb' 0 32).toNat && e.2.missing ≠ 0 &&
    (e.2.state == .saved || e.2.state == .saving)
  match named with
  | none => .next s
  | some e => .next (syncImage (s.setCrew e.1 { e.2 with missing := e.2.missing - 1 }) e.1)

/-- LINE_REPLACEMENT (R244, R258, R270, R420): a cache gives up a line; a write buffer drains it and an L2 writes its
dirty bytes back first. -/
def execLineReplacement (r : Replace) (s : State) : Host.Outcome State Fault Refusal :=
  let s := { s with progress := s.progress + 1 }
  match r with
  | .writeBuffer ck =>
    .next (drainHead s (ck / 48) (ck % 48))
  | .l1 ck line => .next (s.setCore ck { s.core ck with l1 := smSet {} (s.core ck).l1 line {} })
  | .l2 d line =>
    let s := writeBackLine s d line
    .next (s.setDie d { s.die d with l2 := smSet {} (s.die d).l2 line {} })
  | .remote line => .next { s with rrc := smSet {} s.rrc (line.toNat / 128) {} }
  | .node ck line => .next (s.setCore ck { s.core ck with node := smSet none (s.core ck).node (line.toNat / 128) none })

end Sys2Proof.Machine
end

