-- ==== Sys2Proof/Machine/Copy.lean ====
section
/-! DEFINITION. The tile copy engine and the scratchpad's loads and stores, which touch its windows
(spec/09_tile_copy_engine.md; spec/07_load_store_and_translation.md R247, R248). -/

namespace Sys2Proof.Machine

/-! ### Descriptors and windows (R318, R319) -/

/-- A tile descriptor's fields (R318). -/
structure Tile where
  base : W64
  ny : Nat
  nz : Nat
  xb : Nat
  ystr : Int
  zstr : Int
  esz : Nat
  wlen : Nat
  woff : Nat
  rsv : Bool
  deriving DecidableEq, Repr

/-- Read the fields of a descriptor's eight words (R318). -/
def tileOf (w : List W64) : Tile :=
  let a := w.getD 1 0
  let b := w.getD 4 0
  {
    base := w.getD 0 0, ny := (a.extractLsb' 32 16).toNat + 1, nz := (a.extractLsb' 48 16).toNat + 1,
    xb := (a.extractLsb' 0 32).toNat, ystr := (w.getD 2 0).toInt, zstr := (w.getD 3 0).toInt,
    esz := (b.extractLsb' 32 3).toNat, wlen := (b.extractLsb' 16 12).toNat, woff := (b.extractLsb' 0 11).toNat,
    rsv := b.extractLsb' 35 29 ≠ 0 || b.extractLsb' 28 4 ≠ 0 || b.extractLsb' 11 5 ≠ 0 ||
      (w.drop 5).any fun x => x ≠ 0 }

/-- Element size in bytes (R318). -/
def Tile.e (t : Tile) : Nat := 2 ^ t.esz

/-- Bytes of the tile. -/
def Tile.size (t : Tile) : Nat := t.xb * t.ny * t.nz

/-- The address of byte `k` of the tile in window order (R318). -/
def Tile.va (t : Tile) (k : Nat) : Nat :=
  let z := k / (t.ny * t.xb)
  let y := k / t.xb % t.ny
  ((t.base.toNat : Int) + z * t.zstr + y * t.ystr + (k % t.xb : Nat)).toNat

/-- The lowest and the first address past the highest that the tile reaches. -/
def Tile.bounds (t : Tile) : Int × Int :=
  let zs := ((t.nz - 1 : Nat) : Int) * t.zstr
  let ys := ((t.ny - 1 : Nat) : Int) * t.ystr
  (t.base.toNat + min 0 zs + min 0 ys, t.base.toNat + max 0 zs + max 0 ys + t.xb)

/-- The pages of the tile's bytes, ascending. -/
def Tile.pages (t : Tile) : List Nat :=
  sortAsc ((List.range (t.ny * t.nz)).foldl (fun l r =>
    let a := t.va (r * t.xb)
    ((List.range ((a + t.xb - 1) / 65536 - a / 65536 + 1)).map (a / 65536 + ·)).foldl
      (fun l p => if l.contains p then l else p :: l) l) [])

/-- The window's first byte and length. -/
def Tile.window (t : Tile) : Nat × Nat := (t.woff * 128, t.wlen * 128)

/-- An entry of a crew's region table. -/
def Crew.region (c : Crew) (e : Nat) : Region := smGet {} c.regions e

/-- Replace an entry. -/
def Crew.setRegion (c : Crew) (e : Nat) (r : Region) : Crew := { c with regions := smSet {} c.regions e r }

/-- Two byte ranges meet. -/
def spansMeet (a b : Nat × Nat) : Bool := a.2 ≠ 0 && b.2 ≠ 0 && a.1 < b.1 + b.2 && b.1 < a.1 + a.2

/-- The first failing check of R319. -/
def tileFault (cr : Crew) (e : Nat) (t : Tile) : Option Nat :=
  let el := 2 ^ t.esz
  if t.rsv then some 1
  else if 4 ≤ t.esz then some 2
  else if t.base.toNat % el ≠ 0 || t.xb % el ≠ 0 || t.ystr % el ≠ 0 || t.zstr % el ≠ 0 then some 3
  else if t.wlen = 0 || cr.splen < t.woff + t.wlen then some 4
  else if t.xb = 0 || t.wlen * 128 < t.size then some 5
  else if (List.range 32).any fun k =>
      k ≠ e && (cr.region k).state ≠ .free && spansMeet (tileOf (cr.region k).desc).window t.window then some 6
  else if vaClass t.base ≠ .localVa then some 7
  else if t.bounds.1 < 0 || 2 ^ 48 < t.bounds.2 then some 8
  else none

/-- The code of a state (R330). -/
def RegionState.code : RegionState → Nat
  | .free => 0 | .absent => 1 | .filling => 2 | .full => 3 | .draining => 4

/-- CPSTATE, CPDESC, CPACC (R335). -/
def codeCpState : Nat := 0x50
/-- CPDESC. -/
def codeCpDesc : Nat := 0x51
/-- CPACC. -/
def codeCpAcc : Nat := 0x52

/-! ### Team-wide accesses -/

/-- One access for the team at a local address (R252, R253): its checks and its translation, with XMASK = M; then what it
does with its physical address. -/
def teamAccess (s : State) (va : W64) (size : Nat) (a : Access) (f : State → Nat → Res) : Res :=
  let t := s.team
  let r := withAccess s ((if t.mSrc = 0 then [0] else lanesOf t.id.width t.mSrc).map fun k => (k, va)) size a fun s accs =>
    f s ((accs.head?.map fun x => x.pa).getD 0)
  match r with
  | .trap s i => if i.code = codeAddr || i.code = codeAlign || i.code = codePage || i.code = codeProt || i.code = codeWalk
      then .trap s { i with mask := none } else .trap s i
  | r => r

/-- A translation fault that every lane of M takes: FADDR is written in each (R282, R325). -/
def wholeFault (s : State) (va : Nat) (f : XFault) : State × TrapInfo :=
  let page : W64 := BitVec.ofNat 64 (va / 65536 * 65536)
  let t := s.team
  (s.mapTeam fun t => writeFaddr t ((lanesOf t.id.width t.m).map fun l => (l, page, f)),
   { code := f.code, detail := f.detail, val := page, mask := some t.m })

/-- Walk pages for the team: the physical address of each, or its fault (R252). -/
def walkPages (s : State) (a : Access) : List Nat → State × List (Nat × Except XFault Nat)
  | [] => (s, [])
  | p :: r =>
    let x := transNow s s.team.id.die s.team.id.ctx (BitVec.ofNat 64 (p * 65536)) a s.team.supSrc
    let y := walkPages x.1 a r
    (y.1, (p, x.2) :: y.2)

/-- The fault of a page that has one. -/
def pageFault (e : Nat × Except XFault Nat) : Option (Nat × XFault) := match e.2 with | .error f => some (e.1 * 65536, f) | .ok _ => none

/-- Translate pages for the team: faults are taken from WALK, PAGE and PROT in that order, the lowest page first (R252). -/
def transPages (s : State) (a : Access) (pages : List Nat) : State × Except (Nat × XFault) (List (Nat × Nat)) :=
  let r := walkPages s a pages
  let bad := r.2.filterMap pageFault
  (r.1, match [codeWalk, codePage, codeProt].findSome? fun c => bad.find? fun f => f.2.code = c with
    | some f => .error f
    | none => .ok (r.2.filterMap fun e => e.2.toOption.map fun pa => (e.1, pa)))

/-- Bytes that an engine reads for the team as its loads do, through a page list. -/
def readPages (s : State) (d k : Nat) (pages : List (Nat × Nat)) (va n : Nat) : List Byte :=
  (List.range n).map fun j => plainByte s d k (pagePa pages (va + j))

/-- A line that they lie in is uncorrectable where the core reads it (R45). -/
def pagesPoison (s : State) (d k : Nat) (pages : List (Nat × Nat)) (va n : Nat) : Bool :=
  decide (n ≠ 0) && (List.range ((va % 128 + n + 127) / 128)).any fun j => plainPoison s d k (pagePa pages ((va / 128 + j) * 128)) 1

/-! ### Fills and touches (R323 to R328) -/

/-- A window has left FILLING and DRAINING: the descheduled teams no longer wait for it (R326). -/
def leftWindow (s : State) (c e : Nat) : State :=
  let f : Team → Team := fun t =>
    if t.id.crew = c && t.eng.parked ≠ [] then { t with eng := { t.eng with parked := t.eng.parked.filter (· ≠ e) } } else t
  { s with team := f s.team, others := s.others.map fun x => (x.1, f x.2), progress := s.progress + 1 }

/-- Start the fill of an entry for the team that issues (R324, R325). -/
def startFill (s : State) (e : Nat) : State × Option TrapInfo :=
  let t := s.team
  let cr := s.crew t.id.crew
  let r := cr.region e
  let tile := tileOf r.desc
  match transPages s .read tile.pages with
  | (s, .error (va, f)) => let x := wholeFault s va f; (x.1, some x.2)
  | (s, .ok pages) =>
    let big := 65536 < tile.size
    let op : Op := {
      id := s.nextOp, team := t.key, crew := t.id.crew, gen := cr.gen, flag := none,
      kind := .fill { entry := e, gen := r.gen, pages := pages, done := 0, leave := if big then .asked else .free } }
    let s := { s.setCrew t.id.crew (cr.setRegion e { r with state := .filling }) with
      ops := s.ops ++ [op], nextOp := s.nextOp + 1, progress := s.progress + 1 }
    (if big then askLeave s t.id.die { who := .op op.id, amps := 2, cls := effClass s t.id.crew t.id.tno } else s, none)

/-- Start the fills of some entries in turn. -/
def startFills (s : State) : List Nat → State × Option TrapInfo
  | [] => (s, none)
  | e :: r =>
    match startFill s e with
    | (s, some i) => (s, some i)
    | (s, none) => startFills s r

/-- What a touching word does before it issues (R323, R326, R328); `rs` are the byte ranges of its lanes in range. -/
def touched (s : State) (rs : List (Nat × Nat)) (go : State → Res) : Res :=
  let t := s.team
  let cr := s.crew t.id.crew
  let hit := (cr.regions.filter fun x =>
    (x.2.state == .absent || x.2.state == .filling || x.2.state == .draining) &&
    rs.any (spansMeet (tileOf x.2.desc).window)).map Prod.fst
  let absent := hit.filter fun e => (cr.region e).state == .absent
  if hit = [] then go s
  else if t.id.quantum.isSome && !t.supSrc && absent ≠ [] && !t.dq.passed then .block (s.mapTeam Team.endQuantum) .quantum
  else
    match startFills s absent with
    | (s, some i) => .trap s i
    | (s, none) =>
      match t.eng.cyield with
      | some pc => .park (s.mapTeam fun t => { t with eng := { t.eng with cyield := none, parked := hit } }) pc
      | none => .block s .touch

/-- The operation that the site names, when its crew's generation still holds; else it is discarded (R31, R317). -/
def siteOp (s : State) (f : State → Op → State) : Host.Outcome State Fault Refusal :=
  match s.op s.site.op with
  | none => .next s
  | some o =>
    if (s.crew o.crew).gen ≠ o.gen then .next { s with ops := s.ops.filter fun x => x.id ≠ o.id } else .next (f s o)

/-- Write window bytes, with their poison. -/
def setScratch (cr : Crew) (off : Nat) (bs : List (Byte × Bool)) : Crew :=
  let ks := (List.range bs.length).zip bs
  { cr with
    scratch := smSetAll 0 cr.scratch (ks.map fun e => (off + e.1, e.2.1)),
            spoison := smSetAll false cr.spoison (ks.map fun e => (off + e.1, e.2.2)) }

/-- FILL_BEAT (R317, R324): the next 128 bytes of the fill that the site names arrive in the window; a beat of another GEN
is discarded with its fill. The first beat follows the acquire. -/
def execFillBeat (s : State) : Host.Outcome State Fault Refusal :=
  siteOp s fun s o =>
    match o.kind with
    | .fill f =>
      let cr := s.crew o.crew
      let r := cr.region f.entry
      let tile := tileOf r.desc
      if f.gen ≠ r.gen || r.state ≠ .filling then { s with ops := s.ops.filter fun x => x.id ≠ o.id }
      else if f.leave = .asked || !mayEngine s o || tile.size ≤ f.done then s
      else
        let s := if f.done = 0 && r.acq then s.acquireFor o.team r.scope.toNat else s
        let t := s.teamAt o.team
        let n := min 128 (tile.size - f.done)
        let bs := (List.range n).map fun k =>
          let pa := pagePa f.pages (tile.va (f.done + k))
          (plainByte s t.id.die t.id.core pa, plainPoison s t.id.die t.id.core pa 1)
        let cr := setScratch (s.crew o.crew) (tile.window.1 + f.done) bs
        let cr := cr.setRegion f.entry { r with poison := r.poison || bs.any fun b => b.2 }
        (s.setCrew o.crew cr).updOp o.id fun o => { o with kind := .fill { f with done := f.done + n } }
    | _ => s

/-- FILL_COMPLETE (R324): the last byte is in the window; the entry becomes FULL and the leave is returned. -/
def execFillComplete (s : State) : Host.Outcome State Fault Refusal :=
  siteOp s fun s o =>
    match o.kind with
    | .fill f =>
      let cr := s.crew o.crew
      let r := cr.region f.entry
      if f.gen = r.gen && r.state = .filling && f.done = (tileOf r.desc).size then
        let s := dropLeave s (s.teamAt o.team).id.die 2 (.op o.id) f.leave
        leftWindow (finishOp (s.setCrew o.crew (cr.setRegion f.entry { r with state := .full })) o) o.crew f.entry
      else s
    | _ => s

/-! ### Binding, waiting, status (R322, R327, R330, R332) -/

/-- RBIND (R322). -/
def execRbind (e : BitVec 5) (a : BitVec 6) (m : BitVec 2) (q : BitVec 1) (sc : BitVec 3) (s : State) :
    Host.Outcome State Fault Refusal :=
  runWord (.rbind e a m q sc) s fun s =>
    let t := s.team
    let st := ((s.crew t.id.crew).region e.toNat).state
    if st ≠ .free then .trap s { code := codeCpState, detail := st.code, val := e.setWidth 64 }
    else if memBusy s t.key then .block s .fence
    else
      let va := t.getS64 a.toNat
      teamAccess s va 64 .read fun s pa =>
        let s := if q = 1 then s.acquireTeam sc.toNat else s
        if plainPoison s t.id.die t.id.core pa 64 then .trap s { code := codeMceData, val := va &&& ~~~(0x7F#64) }
        else
          let bs := plainBytes s t.id.die t.id.core pa 64
          let w := (List.range 8).map fun k => BitVec.ofNat 64 (leNat ((bs.drop (8 * k)).take 8))
          let cr := s.crew t.id.crew
          let tile := tileOf w
          match tileFault cr e.toNat tile with
          | some d => .trap s { code := codeCpDesc, detail := d, val := va }
          | none =>
            let r : Region := {
              desc := w, acq := q = 1, scope := sc, gen := (cr.region e.toNat).gen + 1, poison := false,
              state := if m.toNat < 2 then .absent else .full }
            let inW : Nat → Bool := fun k => tile.window.1 ≤ k && k < tile.window.1 + tile.window.2
            let cr := if m = 3 then { cr with scratch := smDrop inW cr.scratch, spoison := smDrop inW cr.spoison } else cr
            let s' := s.setCrew t.id.crew (cr.setRegion e.toNat r)
            if m = 1 then
              match startFill s' e.toNat with
              | (s2, some i) => .trap (s2.setCrew t.id.crew (s.crew t.id.crew)) i
              | (s2, none) => ok s2
            else ok s'

/-- RWAIT (R327, R325). -/
def execRwait (e : BitVec 5) (s : State) : Host.Outcome State Fault Refusal :=
  runWord (.rwait e) s fun s =>
    match ((s.crew s.team.id.crew).region e.toNat).state with
    | .free | .full => ok s
    | .filling | .draining => .block s .engine
    | .absent =>
      match startFill s e.toNat with
      | (s, some i) => .trap s i
      | (s, none) => .block s .engine

/-- Abandon the fill of an entry: its operation goes and its leave is returned or withdrawn (R336, R338). -/
def abandonFill (s : State) (c e : Nat) : State :=
  let mine : Op → Bool := fun o => o.crew = c && (match o.kind with | .fill f => f.entry = e | _ => false)
  let s := (s.ops.filter mine).foldl (fun s o =>
    match o.kind with | .fill f => dropLeave s (s.teamAt o.team).id.die 2 (.op o.id) f.leave | _ => s) s
  { s with ops := s.ops.filter fun o => !mine o }

/-- The drain of an entry is to free it at its end (R316). -/
def freeAtEnd (s : State) (c e : Nat) : State × Option Nat :=
  let mine : Op → Bool := fun o => o.crew = c && (match o.kind with | .drain d => d.entry = e | _ => false)
  ({ s with
    ops := s.ops.map fun o => if !mine o then o else
      match o.kind with | .drain d => { o with kind := .drain { d with free := true } } | _ => o },
   (s.ops.find? mine).map fun o => o.id)

/-- RFREE (R191, R316, R317, R330): at a DRAINING entry it has the drain free it, and completes with the drain. -/
def execRfree (e : BitVec 5) (s : State) : Host.Outcome State Fault Refusal :=
  runWord (.rfree e) s fun s =>
    let c := s.team.id.crew
    let r := (s.crew c).region e.toNat
    match s.team.arr 4 with
    | some id => if (s.op id).isSome then .block s .engine else ok (s.mapTeam fun t => t.setArr 4 none)
    | none =>
    if r.state = .draining then
      let x := freeAtEnd s c e.toNat
      .block (x.1.mapTeam fun t => t.setArr 4 x.2) .engine
    else
      let filling := r.state == .filling
      let s := if filling then abandonFill s c e.toNat else s
      let s := s.setCrew c ((s.crew c).setRegion e.toNat { r with state := .free, gen := if filling then r.gen + 1 else r.gen })
      ok (leftWindow s c e.toNat)

/-- RSTAT (R330). -/
def execRstat (e : BitVec 5) (d : BitVec 6) (s : State) : Host.Outcome State Fault Refusal :=
  runWord (.rstat e d) s fun s =>
    let r := (s.crew s.team.id.crew).region e.toNat
    ok (s.mapTeam fun t => t.setS d.toNat
      (BitVec.ofNat 32 (r.state.code + r.gen.toNat * 256 + if r.poison then 65536 else 0)))

/-- CYIELD (R326). -/
def execCyield (o : BitVec 20) (s : State) : Host.Outcome State Fault Refusal :=
  runWord (.cyield o) s fun s => ok (s.mapTeam fun t => { t with eng := { t.eng with cyield := some (t.target o) } })

/-- CYIELD.OFF (R326). -/
def execCyieldOff (s : State) : Host.Outcome State Fault Refusal :=
  runWord .cyieldOff s fun s => ok (s.mapTeam fun t => { t with eng := { t.eng with cyield := none } })

/-- RSEED (R332). -/
def execRseed (a b : BitVec 6) (s : State) : Host.Outcome State Fault Refusal :=
  runWord (.rseed a b) s fun s => ok (s.mapTeam fun t =>
    { t with eng := { t.eng with seed := t.getS64 a.toNat, counter := t.getS64 b.toNat } })

/-! ### Drains (R329, R331) -/

/-- The element format of an accumulating drain (R321). -/
def drainFmt (t : BitVec 2) : Fmt := if t = 0 then .bf16 else if t = 1 then .e4m3 else if t = 2 then .e5m2 else .e4m3s

/-- Elements of an accumulating drain (R331). -/
def Tile.count (t : Tile) : Nat := t.xb / t.e * t.ny * t.nz

/-- The leave of a word that has not issued is given back when the word faults (R37). -/
def giveBack (s : State) (amps : Nat) : State :=
  let t := s.team
  (dropLeave s t.id.die amps (.word t.key) t.eng.leave).mapTeam fun t => { t with eng := { t.eng with leave := .free } }

/-- RDRAIN (R329, R331, R332): its checks, its leave, then it issues. -/
def execRdrain (e : BitVec 5) (a : BitVec 1) (dt : BitVec 2) (r f q l : BitVec 1) (sc : BitVec 3) (s : State) :
    Host.Outcome State Fault Refusal :=
  runWord (.rdrain e a dt r f q l sc) s fun s =>
    let t := s.team
    let cr := s.crew t.id.crew
    let rg := cr.region e.toNat
    let tile := tileOf rg.desc
    match rg.state with
    | .free | .absent => .trap (giveBack s 2) { code := codeCpState, detail := rg.state.code, val := e.setWidth 64 }
    | .filling | .draining => .block s .engine
    | .full =>
      match transPages s .write tile.pages with
      | (s, .error (va, x)) => let y := wholeFault s va x; .trap (giveBack y.1 2) y.2
      | (s, .ok pages) =>
        let acc := a = 1
        let bad : Option Nat :=
          if !acc then none
          else if tile.e ≠ (if dt = 0 then 2 else 1) then some 1
          else if tile.wlen * 128 < 4 * tile.count then some 2
          else if pages.any fun p => isHost p.2 then some 0
          else none
        match bad with
        | some d => .trap (giveBack s 2) { code := codeCpAcc, detail := d, val := e.setWidth 64 }
        | none =>
          let big := 65536 < (if acc then 4 * tile.count else tile.size)
          if big && t.eng.leave = .asked then .block s .engine
          else if big && t.eng.leave = .free then
            .block ((askLeave s t.id.die { who := .word t.key, amps := 2, cls := effClass s t.id.crew t.id.tno }).mapTeam
              fun t => { t with eng := { t.eng with leave := .asked } }) .engine
          else
            let s := startOp s (.drain {
              entry := e.toNat, acc := if acc then some dt else none, sr := r = 1,
              seed := t.eng.seed, counter := t.eng.counter, free := f = 1, acq := q = 1, rel := l = 1, scope := sc,
              pages := pages, leave := t.eng.leave })
            let s := s.setCrew t.id.crew (cr.setRegion e.toNat { rg with state := .draining })
            ok (s.mapTeam fun t => { t with eng := { t.eng with
              leave := .free,
              counter := if acc && r = 1 then t.eng.counter + BitVec.ofNat 64 ((tile.count + 2 ^ 20 - 1) / 2 ^ 20)
                         else t.eng.counter } })

/-- A plain drain of a team: each window byte in ascending order goes to its memory byte; a poisoned one poisons its destination's
line (R329). -/
def drainPlain (s : State) (t : Team) (cr : Crew) (tile : Tile) (pages : List (Nat × Nat)) : State :=
  let off := tile.window.1
  let s := (List.range tile.size).foldl (fun s k =>
    storeByte s t.id.die t.id.core (pagePa pages (tile.va k)) (smGet 0 cr.scratch (off + k))) s
  (List.range tile.size).foldl (fun s k =>
    if smGet false cr.spoison (off + k) then poisonStore s t.id.die t.id.core (pagePa pages (tile.va k)) else s) s

/-- The exact sum of an element and its addend, rounded (R331): a NaN into the saturating form gives +0. -/
def drainSum (fm : Fmt) (rm : Rm) (rnd : Nat) (d w : FVal) : Nat × Flags :=
  match d, w with
  | .fin n1 m1 e1, .fin n2 m2 e2 =>
    let x := dyAdd (sgn n1 m1) e1 (sgn n2 m2) e2
    roundInt fm rm rnd (n1 && n2) x.1 x.2
  | _, _ =>
    let r := fAddV .f32 .rne d w
    match unpackF .f32 r.1 with
    | .nan _ => (if fm = .e4m3s then 0 else fm.nanCode, r.2)
    | v => let y := fCvtV fm rm rnd v; (y.1, r.2 ||| y.2)

/-- One element of an accumulating drain (R331): its read and write are one action at the home; a poisoned window element
poisons the destination's line, an uncorrectable destination leaves a pending error in the team. -/
def drainElem (key : Nat) (cr : Crew) (tile : Tile) (d : Drain) (fm : Fmt) (s : State × Flags) (i : Nat) : State × Flags :=
  let t := s.1.teamAt key
  let n := tile.e
  let va := tile.va (i * n)
  let pa := pagePa d.pages va
  let off := tile.window.1 + 4 * i
  let s1 := settleLine s.1 t.id.die t.id.core (pa / 128)
  if (List.range 4).any fun k => smGet false cr.spoison (off + k) then (forgetLine (poisonLine s1 pa) t.id.die t.id.core (pa / 128), s.2)
  else if isPoison s1 pa then
    (s1.updTeam key fun t => { t with eng := { t.eng with redErr := some (t.eng.redErr.getD (BitVec.ofNat 64 va)) } }, s.2)
  else
    let w := unpackF .f32 (leNat ((List.range 4).map fun k => smGet 0 cr.scratch (off + k)))
    let x := unpackF fm (leNat (homeBytes s1 pa n))
    let rnd := srRnd d.seed (d.counter + BitVec.ofNat 64 (i / 2 ^ 20)) (i % 2 ^ 20)
    let y := drainSum fm (if d.sr then .sr else .rne) rnd x w
    (forgetLine (setHomeBytes s1 pa (leBytes y.1 n)) t.id.die t.id.core (pa / 128), s.2 ||| y.2)

/-- DRAIN_COMPLETE (R329, R331, R334): the drain that the site names writes or accumulates, releases if REL is set, and
its entry becomes FULL or FREE. In deterministic quantum mode a crew's drains are performed in issue order. -/
def execDrainComplete (s : State) : Host.Outcome State Fault Refusal :=
  siteOp s fun s o =>
    match o.kind with
    | .drain d =>
      let dq := (s.teamAt o.team).id.quantum.isSome
      let isDrain : Op → Bool := fun x => match x.kind with | .drain _ => true | _ => false
      let y := if d.rel then relReady s o.team d.scope.toNat else (s, true)
      let s := y.1
      if !mayEngine s o || !y.2 || (dq && s.ops.any fun x => x.crew = o.crew && x.id < o.id && isDrain x) then s
      else
        let cr := s.crew o.crew
        let s := if d.acq then s.acquireFor o.team d.scope.toNat else s
        let rg := cr.region d.entry
        let tile := tileOf rg.desc
        let s := match d.acc with
          | none => drainPlain s (s.teamAt o.team) cr tile d.pages
          | some dt =>
            let r := (List.range tile.count).foldl (drainElem o.team cr tile d (drainFmt dt)) (s, 0)
            r.1.updTeam o.team fun t => t.raise r.2
        let s := if d.rel then s.releaseFor o.team d.scope.toNat else s
        let s := dropLeave s (s.teamAt o.team).id.die 2 (.op o.id) d.leave
        let cr := s.crew o.crew
        let s := s.setCrew o.crew (cr.setRegion d.entry { rg with state := if d.free then .free else .full })
        leftWindow (finishOp s o) o.crew d.entry
    | _ => s

/-! ### LDS and STS (R247) -/

/-- A scratchpad offset is in range (R247). -/
def spInRange (cr : Crew) (off : W64) (n : Nat) : Bool := off.toNat + n ≤ cr.splen * 128

/-- Record the lowest lane out of range in SPFAULT, when it holds none (R247). -/
def spRecord (t : Team) (wr : Bool) (bad : List (Nat × W64)) : Team :=
  match bad with
  | [] => t
  | a :: _ => if t.sp.valid then t else { t with sp := { valid := true, wr := wr, off := a.2.setWidth 18 } }

/-- The checks of a scratchpad word: ALIGN, then windows touched, then the range record; then what it does (R247,
R323). -/
def spAccess (s : State) (as : List (Nat × W64)) (size : Nat) (wr : Bool) (f : State → List LaneAcc → Res) : Res :=
  match failing as (fun va => va.toNat % size ≠ 0) with
  | some (m, va) => .trap s { code := codeAlign, detail := size, val := va, mask := some m }
  | none =>
    let cr := s.crew s.team.id.crew
    let good := as.filter fun a => spInRange cr a.2 size
    touched s (good.map fun a => (a.2.toNat, size)) fun s =>
      f (s.mapTeam fun t => spRecord t wr (as.filter fun a => !spInRange cr a.2 size))
        (as.map fun a => { lane := a.1, va := a.2, pa := a.2.toNat })

/-- LDS (R247, R255). -/
def execLds (z : BitVec 3) (d o : BitVec 7) (sp : BitVec 5) (g : BitVec 1) (s : State) :
    Host.Outcome State Fault Refusal :=
  runWord (.lds z d o sp g) s fun s =>
    spAccess s (memLanes s.team sp o) (szBytes z) false fun s accs => issueLoad s .scratch z (g = 1) d accs false

/-- STS (R247, R256): a write out of range is dropped. -/
def execSts (z : BitVec 3) (d o : BitVec 7) (sp : BitVec 5) (s : State) : Host.Outcome State Fault Refusal :=
  runWord (.sts z d o sp) s fun s =>
    spAccess s (memLanes s.team sp o) (szBytes z) true fun s accs =>
      let cr := s.crew s.team.id.crew
      issueStore s .scratch ((accs.filter fun a => spInRange cr a.va (szBytes z)).map fun a => (a, storeData s.team z d a.lane))

end Sys2Proof.Machine
end

