-- ==== Sys2Proof/Machine/Atomic.lean ====
section
/-! DEFINITION. Atomic words, atomics in flight, host atomics and the commit of deterministic quantum mode
(spec/08_atomic_engine.md; spec/07_load_store_and_translation.md R274, R275). -/

namespace Sys2Proof.Machine

/-! ### One lane's operation (R299 to R302) -/

/-- HATOM (R312). -/
def codeHatom : Nat := 0x40
/-- REDPG. -/
def codeRedpg : Nat := 0x41

/-- The format of a float operation. -/
def atFmt (wide : Bool) : Fmt := if wide then .f64 else .f32

/-- Bits of the location. -/
def atBits (wide : Bool) : Nat := if wide then 64 else 32

/-- A location's bits as a signed number. -/
def atSigned (wide : Bool) (v : Nat) : Int := if 2 ^ (atBits wide - 1) ≤ v then (v : Int) - 2 ^ atBits wide else v

/-- The operation OPN of AMO and RED (R299). -/
def rmwNew (opn : Nat) (wide : Bool) (old x : Nat) : Nat × Flags :=
  match opn with
  | 0 => ((old + x) % 2 ^ atBits wide, 0)
  | 1 => fAddV (atFmt wide) .rne (unpackF (atFmt wide) old) (unpackF (atFmt wide) x)
  | 2 => (old &&& x, 0)
  | 3 => (old ||| x, 0)
  | 4 => (old ^^^ x, 0)
  | 5 => (x, 0)
  | 6 => (if atSigned wide x < atSigned wide old then x else old, 0)
  | 7 => (if atSigned wide old < atSigned wide x then x else old, 0)
  | 8 => (if x < old then x else old, 0)
  | 9 => (if old < x then x else old, 0)
  | 10 => fMinMax (atFmt wide) false old x
  | _ => fMinMax (atFmt wide) true old x

/-- What a lane writes over the old value, with its flags; none for no write (R299 to R302). -/
def atNew (a : AtomicOp) (l : AtLane) (old : Nat) : Option Nat × Flags :=
  match a.what with
  | .amo opn => let r := rmwNew opn a.wide old l.x; (some r.1, r.2)
  | .red opn => let r := rmwNew opn a.wide old l.x; (some r.1, r.2)
  | .acas => (if old = l.cmp then some l.x else none, 0)
  | .acas2 => (if old = l.cmp then some l.x else none, 0)
  | .redx =>
    let r := fixedAdd l.rede (BitVec.ofNat 64 old) (unpackF (atFmt a.wide) l.x)
    (some r.1.toNat, r.2)
  | .ald => (none, 0)
  | .ast => (some l.x, 0)

/-- The registers that an atomic's result takes in each lane; 0 for none (R294, R295). -/
def AtomicOp.regs (a : AtomicOp) : Nat :=
  match a.what with
  | .amo _ => if a.wide then 2 else 1
  | .acas => if a.wide then 2 else 1
  | .ald => if a.wide then 2 else 1
  | .acas2 => 4
  | .red _ => 0
  | .redx => 0
  | .ast => 0

/-- The operation becomes one PCIe AtomicOp in each lane on a host page, which the link must be enabled for (R310, R311). -/
def AtWhat.hostOp : AtWhat → Bool
  | .amo opn => opn == 0 || opn == 5
  | .acas => true
  | .acas2 => true
  | .red _ => false
  | .redx => false
  | .ald => false
  | .ast => false

/-- The operation has no form on a host page (R310). -/
def AtWhat.noHost : AtWhat → Bool
  | .amo opn => opn != 0 && opn != 5
  | .red _ => true
  | .redx => true
  | .acas => false
  | .acas2 => false
  | .ald => false
  | .ast => false

/-! ### Performing (R291, R293, R304 to R306, R313) -/

/-- A lane receives its old value. -/
def giveOld (s : State) (o : Op) (a : AtomicOp) (l : AtLane) (old : Nat) : State :=
  s.updTeam o.team fun t => t.setVn a.d l.lane old a.regs

/-- A lane receives a failure marker (R254, R311). -/
def giveMark (s : State) (o : Op) (a : AtomicOp) (l : AtLane) (m : Mark) : State :=
  s.updTeam o.team fun t => t.markV a.d l.lane m a.regs

/-- A lane on an uncorrectable line: a returning atomic writes poison, RED and REDX leave a pending error (R313). -/
def atPoisoned (s : State) (o : Op) (a : AtomicOp) (l : AtLane) : State :=
  if a.regs = 0 then s.updTeam o.team fun t => { t with eng := { t.eng with redErr := some (t.eng.redErr.getD l.va) } }
  else giveMark s o a l (.data (l.va &&& ~~~(0x7F#64)))

/-- One lane is performed in the crew's scratchpad; out of range it reads 0 and its write is dropped (R247, R291). -/
def atScratch (s : State) (o : Op) (a : AtomicOp) (l : AtLane) : State × Flags :=
  let cr := s.crew o.crew
  let inR := l.pa + a.size ≤ cr.splen * 128
  if inR && a.what != .ast && (List.range a.size).any (fun k => smGet false cr.spoison (l.pa + k)) then (atPoisoned s o a l, 0)
  else
    let old := leNat (scratchBytes cr l.pa a.size)
    let r := atNew a l old
    let s := match r.1 with
      | some v => if inR then s.setCrew o.crew (setScratch cr l.pa ((leBytes v a.size).map fun b => (b, false))) else s
      | none => s
    (giveOld s o a l old, r.2)

/-- One lane is performed at the home slice: dirty bytes of its access go there first, and the line leaves the issuing
core's L1 and its die's L2 afterwards (R291, R293). -/
def atHome (s : State) (o : Op) (a : AtomicOp) (l : AtLane) : State × Flags :=
  let t := s.teamAt o.team
  let line := l.pa / 128
  let s := settleLine s t.id.die t.id.core line
  if a.what != .ast && anyPoison s l.pa a.size then (atPoisoned s o a l, 0)
  else
    let old := leNat (homeBytes s l.pa a.size)
    let r := atNew a l old
    let s := match r.1 with
      | some v => setHomeBytes s l.pa (leBytes v a.size)
      | none => s
    (giveOld (forgetLine s t.id.die t.id.core line) o a l old, r.2)

/-- A lane waits for the host's answer: to its AtomicOp, or to the Memory Read of an ALD (R310, R311). -/
def atAtHost (a : AtomicOp) (l : AtLane) : Bool := !a.spad && isHost l.pa && (a.what.hostOp || a.what == .ald)

/-- Lanes performed in ascending order, with their flags (R304). -/
def atAll (o : Op) (a : AtomicOp) : List AtLane → State → State × Flags
  | [], s => (s, 0)
  | l :: r, s =>
    let x := if a.spad then atScratch s o a l else atHome s o a l
    let y := atAll o a r x.1
    (y.1, x.2 ||| y.2)

/-- An atomic goes on with some lanes left: pending bits of the mask words without one clear; with the last lane the
word completes and its flags are set (R306). -/
def atSettle (s : State) (o : Op) (a : AtomicOp) (left : List AtLane) (fl : Flags) : State :=
  let words := distinct (a.lanes.map fun l => l.lane / 32)
  let done := words.filter fun k => !(left.any fun l => l.lane / 32 = k)
  let s := s.updTeam o.team fun t => t.vPend a.d a.regs done 0
  let a' := { a with lanes := left, flags := a.flags ||| fl, deferred := false }
  let o' := { o with kind := .atomic a' }
  if left = [] then finishOp (s.updTeam o.team fun t => t.raise a'.flags) o'
  else { s.updOp o.id (fun _ => o') with progress := s.progress + 1 }

/-- A lane of an atomic is performed now: it is before the first that waits for the host, or on the bytes of one that is, which no other agent's
access may come between (R274, R304). -/
def atNow (a : AtomicOp) (l : AtLane) : Bool :=
  !atAtHost a l && (a.lanes.takeWhile fun x => !atAtHost a x).any fun x => x.pa = l.pa

/-- Perform the lanes of an atomic that need no answer from the host, up to the first that does (R274, R304). -/
def atPerform (s : State) (o : Op) (a : AtomicOp) : State :=
  let left := a.lanes.filter fun l => !atNow a l
  let x := atAll o a (a.lanes.filter (atNow a)) s
  atSettle x.1 o a left x.2

/-- The lane of an atomic that is next waits for the host. -/
def atWaits (a : AtomicOp) : Bool := match a.lanes with | l :: _ => atAtHost a l | [] => false

/-! ### Issue (R296, R298, R307, R309) -/

/-- The ordering and offset of an atomic word (R296). -/
structure AtOrd where
  acq : Bool
  rel : Bool
  scope : Nat
  spad : Bool
  off : W64

/-- The ordering that IMX gives a word; all zero without it (R296). -/
def Team.atOrd (t : Team) : AtOrd :=
  let i := t.pfx.imm.getD 0
  {
    acq := i.getLsbD 23, rel := i.getLsbD 22, scope := (atScope i).toNat, spad := i.getLsbD 18,
    off := (i.extractLsb' 0 18).signExtend 64 }

/-- The crew's idempotence is cleared (R188). -/
def State.clearIdem (s : State) : State :=
  s.setCrew s.team.id.crew { s.crew s.team.id.crew with idem := false }

/-- A host page's lane may not be performed: no AtomicOp (0x10), or the function is no requester (0x11) (R311). -/
def hostFault (s : State) (what : AtWhat) (accs : List LaneAcc) : Option TrapInfo :=
  let host := accs.filter fun a => isHost a.pa
  let d : Option Nat :=
    if host = [] then none
    else if what.noHost then some 0x10
    else if what.hostOp && !(smGet {} s.funcs (s.context s.team.id.ctx).func).atomics then some 0x11
    else none
  d.map fun d => { code := codeHatom, detail := d, val := (accs.head?.map fun a => a.va).getD 0, mask := some (maskOf (host.map fun a => a.lane)) }

/-- The leaf of a lane that has translated. -/
def leafOf (s : State) (va : W64) (a : Access) : W64 :=
  let t := s.team
  match lookup s t.coreK t.key t.id.ctx va a t.supSrc with
  | .hit l => l.e
  | _ => 0

/-- REDX on a page that is no reduction page (R302). -/
def redPage (s : State) (what : AtWhat) (accs : List LaneAcc) : Option TrapInfo :=
  let bad := accs.filter fun a => leafAttr (leafOf s a.va .write) ≠ 1
  if what != .redx || bad = [] then none
  else some { code := codeRedpg, val := (bad.head?.map fun a => a.va).getD 0, mask := some (maskOf (bad.map fun a => a.lane)) }

/-- The checks of an atomic word in the order of R298, then what it does with its accesses. -/
def atAccess (s : State) (what : AtWhat) (size : Nat) (spad : Bool) (as : List (Nat × W64)) (f : State → List LaneAcc → Res) : Res :=
  let acc : Access := if what = .ald then .read else .write
  if spad then spAccess s as size (what != .ald) f
  else
    withAccess s as size acc fun s accs =>
      match hostFault s what accs with
      | some i => .trap s i
      | none =>
        match redPage s what accs with
        | some i => .trap s i
        | none => f s accs

/-- The lanes of an atomic with their operands, read at issue (R299 to R302). -/
def atLanes (s : State) (a : AtomicOp) (accs : List LaneAcc) : List AtLane :=
  let t := s.team
  let n := if a.what = .acas2 then 4 else if a.wide then 2 else 1
  let swap := a.what = .acas || a.what = .acas2
  accs.map fun x =>
    {
      lane := x.lane, va := x.va, pa := x.pa, x := t.getVn (if swap then a.d + n else a.d) x.lane n,
      cmp := if swap then t.getVn a.d x.lane n else 0,
      rede := if a.what = .redx then leafRede (leafOf s x.va .write) else 0 }

/-- An atomic issues: result registers are pending, AMO, ACAS and ACAS2 outside the scratchpad clear idempotence, ACQ
makes the team wait for the operation; in deterministic quantum mode it is deferred to the commit (R307, R309, R314). -/
def issueAtomic (s : State) (a : AtomicOp) (o : AtOrd) : State :=
  let id := s.opId
  let words := maskWords s.team.id.width (maskOf (a.lanes.map fun l => l.lane))
  let dq := s.team.id.quantum.isSome
  let clears := !a.spad && (match a.what with | .amo _ => true | .acas => true | .acas2 => true | _ => false)
  let s := if clears then s.clearIdem else s
  let s := startOp s (.atomic { a with deferred := dq, rel := if dq && o.rel then some o.scope else none })
  s.mapTeam fun t =>
    let t := t.vPend a.d a.regs words (id + 1)
    let t := if o.acq then { t with eng := { t.eng with acq := some (id, o.scope) } } else t
    if dq then { t with dq := { t.dq with items := t.dq.items ++ [.atomic id], full := t.dq.full || o.acq } } else t

/-- An atomic word: its checks, its release, its requests, then it issues; one with no lane only orders (R77, R298, R306, R307). -/
def atomicWord (i : Instr) (what : AtWhat) (w : BitVec 1) (d v : BitVec 7) (sp : BitVec 5) (s : State) :
    Host.Outcome State Fault Refusal :=
  runWord i s fun s =>
    let o := s.team.atOrd
    let a : AtomicOp := { what := what, wide := w = 1, d := d.toNat, spad := o.spad, lanes := [] }
    let as := s.team.lanes.map fun l => (l, laneAddr s.team sp v o.off l)
    if as = [] then
      let go : State → Res := fun s => if o.acq then withAcquire s o.scope ok else ok s
      if o.rel then withRelease s o.scope go else go s
    else
      atAccess s what a.size o.spad as fun s accs =>
        let a := { a with lanes := atLanes s a accs }
        let go : State → Res := fun s =>
          if mayEnter s (.atomic { a with deferred := s.team.id.quantum.isSome }) then ok (issueAtomic s a o) else .block s .slots
        if o.rel && !s.team.id.quantum.isSome then withRelease s o.scope go else go s

/-- AMO (R299). -/
def execAmo (o : BitVec 4) (w : BitVec 1) (d v : BitVec 7) (sp : BitVec 5) (s : State) : Host.Outcome State Fault Refusal :=
  atomicWord (.amo o w d v sp) (.amo o.toNat) w d v sp s

/-- ACAS (R300). -/
def execAcas (w : BitVec 1) (d v : BitVec 7) (sp : BitVec 5) (s : State) : Host.Outcome State Fault Refusal :=
  atomicWord (.acas w d v sp) .acas w d v sp s

/-- ACAS2 (R300). -/
def execAcas2 (d v : BitVec 7) (sp : BitVec 5) (s : State) : Host.Outcome State Fault Refusal :=
  atomicWord (.acas2 d v sp) .acas2 0 d v sp s

/-- RED (R299). -/
def execRed (o : BitVec 4) (w : BitVec 1) (d v : BitVec 7) (sp : BitVec 5) (s : State) : Host.Outcome State Fault Refusal :=
  atomicWord (.red o w d v sp) (.red o.toNat) w d v sp s

/-- REDX (R302). -/
def execRedx (w : BitVec 1) (d v : BitVec 7) (sp : BitVec 5) (s : State) : Host.Outcome State Fault Refusal :=
  atomicWord (.redx w d v sp) .redx w d v sp s

/-- ALD (R301). -/
def execAld (w : BitVec 1) (d v : BitVec 7) (sp : BitVec 5) (s : State) : Host.Outcome State Fault Refusal :=
  atomicWord (.ald w d v sp) .ald w d v sp s

/-- AST (R301). -/
def execAst (w : BitVec 1) (d v : BitVec 7) (sp : BitVec 5) (s : State) : Host.Outcome State Fault Refusal :=
  atomicWord (.ast w d v sp) .ast w d v sp s

/-- Set the pin of a line at its home slice; the least recently set of 1,024 goes when a new one needs room (R303). The slice
is that of the base die (log entry 46). -/
def setPin (pins : List (Nat × Nat)) (line mode : Nat) : List (Nat × Nat) :=
  let rest := pins.filter fun p => p.1 ≠ line
  if mode = 0 then rest
  else
    let slice := rest.filter fun p => p.1 / 2 ^ 31 = line / 2 ^ 31
    let rest := if slice.length < 1024 then rest
      else rest.filter fun p => slice.getLast? ≠ some p
    (line, mode) :: rest

/-- APIN: it never faults, and ignores a lane whose address is invalid, misaligned, untranslated or host; no permission is asked of the
page (R303). -/
def execApin (o : BitVec 4) (v : BitVec 7) (sp : BitVec 5) (s : State) : Host.Outcome State Fault Refusal :=
  runWord (.apin o v sp) s fun s =>
    let t := s.team
    ok (t.lanes.foldl (fun s l =>
      let va := laneAddr t sp v t.atOrd.off l
      if vaClass va ≠ .localVa || va.toNat % 4 ≠ 0 then s
      else
        match walk s t.id.ctx va.toNat with
        | .leaf e _ large =>
          let pa := leafPa t.id.die { e := e, large := large } va.toNat
          if isHost pa then s else { s with pins := setPin s.pins (pa / 128) o.toNat }
        | _ => s) s)

/-! ### Events of an atomic in flight (R306, R310, R311) -/

/-- ATOMIC_RETURN (R306): the site's atomic is performed, unless it is deferred to a commit. -/
def execAtomicReturn (s : State) : Host.Outcome State Fault Refusal :=
  siteOp s fun s o =>
    match o.kind with
    | .atomic a =>
      if a.deferred || !opCurrent s o || !mayPerform s o || atWaits a then s else atPerform s o a
    | _ => s

/-- The lane of an atomic whose AtomicOp is issued next: the lowest, where it waits for the host, once nothing earlier of its team is left on its
bytes (R304, R308, R310). -/
def hostLane (s : State) (o : Op) (a : AtomicOp) : Option AtLane :=
  if a.deferred || !mayPerform s o || !atWaits a then none else a.lanes.head?

/-- What the host's memory holds after an AtomicOp that was applied to `old` (R310), or a read that found it; no copy of the line that the issuing
core reads is older (R266, R308). -/
def hostApplied (s : State) (o : Op) (a : AtomicOp) (l : AtLane) (old : Nat) : State :=
  let t := s.teamAt o.team
  storeHome s t.id.die t.id.core l.pa (leBytes ((atNew a l old).1.getD old) a.size)

/-! ### The commit of a quantum (R274, R275, R309) -/

/-- A team counts as at a quantum end: it waits at one, or has passed one at its word and blocks in it (R273). -/
def atQuantumEnd (t : Team) : Bool :=
  t.dq.atEnd || (t.dq.passed && (match t.sched.wait with
    | some (.barrier _) | some (.arrive _) | some (.phase _ _) | some .reform | some .memory | some (.event _ _) => true | _ => false))

/-- The teams of a crew, ended ones too, ascending. -/
def crewTeams (s : State) (c : Nat) : List Nat :=
  (List.range 16).filter fun n => (s.teamAt (teamKey c n)).id.crew = c && (s.teamAt (teamKey c n)).id.tno = n

/-- A crew in deterministic quantum mode may commit: every team that has not ended is at a quantum end, and the loads of the quantum
have returned, so that none of them sees the commit (R272, R274). -/
def commitReady (s : State) (c : Nat) : Bool :=
  let cr := s.crew c
  let live := s.liveTeams c
  cr.state == .run &&
  (crewTeams s c).any (fun n => (s.teamAt (teamKey c n)).id.quantum.isSome && ((s.teamAt (teamKey c n)).dq.atEnd)) &&
  live.all (fun n => atQuantumEnd (s.teamAt (teamKey c n))) &&
  !(s.ops.any fun o => o.crew = c && !waitsCommit s o && (match o.kind with | .load _ _ _ _ _ _ _ _ _ => true | _ => false))

/-- A buffered store is performed (R256, R274): that of a crew whose teams run on several cores at the home, where the commit's order is that of
the bytes (R19). -/
def commitStore (s : State) (key pa : Nat) (scratch : Bool) (bs : List Byte) : State :=
  let t := s.teamAt key
  let cr := s.crew t.id.crew
  if scratch then s.setCrew t.id.crew (setScratch cr pa (bs.map fun b => (b, false)))
  else if cr.spots = [] then storeBytes s t.id.die t.id.core pa bs
  else storeHome s t.id.die t.id.core pa bs

/-- The release actions of a scope on every core that a crew holds (R262, R309). -/
def releaseCrew (s : State) (c scope : Nat) : State :=
  (distinct ((s.crew c).slotsOf.map Prod.fst)).foldl (fun s ck => releaseAt s (ck / 48) (ck % 48) ((s.crew c).means scope)) s

/-- The acquire actions of a scope on every core of a crew. -/
def acquireCrew (s : State) (cr : Crew) (scope : Nat) : State :=
  cr.slotsOf.foldl (fun s p => acquireAt s (p.1 / 48) (p.1 % 48) (cr.means scope)) s

/-- The release of a deferred atomic with REL, immediately before it is performed: over what the commit has performed, on every core of the
crew, and at POD and SYS once the team's elements have completed; none while they have not (R309). -/
def commitRelease (s : State) (key : Nat) (rel : Option Nat) : State × Bool :=
  let t := s.teamAt key
  match rel with
  | none => (s, true)
  | some sc =>
    if 5 ≤ s.meant key sc then
      let s := flushTeam s t.id.die key fun _ => true
      if spindleCount s t.id.die key (fun _ => true) ≠ 0 then (s, false) else (releaseCrew s t.id.crew sc, true)
    else (releaseCrew s t.id.crew sc, true)

/-- A deferred atomic's turn in the commit: its release, then it is performed; one that has begun waits for the host, and goes on with the lanes
after (R274, R309). -/
def commitAtomic (s : State) (key : Nat) (o : Op) (a : AtomicOp) : State :=
  if !a.deferred then (if atWaits a then s else atPerform s o a)
  else
    match commitRelease s key a.rel with
    | (s, false) => s
    | (s, true) => atPerform s o { a with deferred := false, rel := none }

/-- A load's turn in the commit: the mask words that are left return; a fabric line may still be on its way (log entry 89). -/
def commitLoad (s : State) (o : Op) : State :=
  (List.range 32).foldl (fun s k => match s.op o.id with | some o => returnLoad s o k [] | none => s) s

/-- Perform a team's items in order until one has to wait, for a release, the host or the fabric; what is left of them (R274). -/
def commitItems (key : Nat) : List DqItem → State → State × List DqItem
  | [], s => (s, [])
  | .store _ pa sc bs :: r, s => commitItems key r (commitStore s key pa sc bs)
  | .atomic id :: r, s =>
    let s := match s.op id with
      | some o => (match o.kind with | .atomic a => commitAtomic s key o a | _ => s)
      | none => s
    if (s.op id).isSome then (s, .atomic id :: r) else commitItems key r s
  | .load id :: r, s =>
    let s := match s.op id with | some o => commitLoad s o | none => s
    if (s.op id).isSome then (s, .load id :: r) else commitItems key r s

/-- Perform the items of teams in ascending number; whether all were performed. -/
def commitTeams (c : Nat) : List Nat → State → State × Bool
  | [], s => (s, true)
  | n :: r, s =>
    let k := teamKey c n
    let x := commitItems k (s.teamAt k).dq.items s
    let s := x.1.updTeam k fun t => { t with dq := { t.dq with items := x.2 } }
    if x.2 = [] then commitTeams c r s else (s, false)

/-- A team goes on after a commit: its count is zero, and at the word that ended its quantum it has passed the end. A word of R273's table that
directly follows the Q-th counted word is at that same end, and ends no second quantum (DESIGN CHOICE, log entry 106). -/
def Team.afterCommit (t : Team) : Team :=
  { t with dq := { t.dq with items := [], count := 0, atEnd := false, passed := t.dq.atEnd || t.dq.passed } }

/-- The commit's work may go on: it has begun or may begin. -/
def commitGoes (s : State) (c : Nat) : Bool := (s.crew c).commit || commitReady s c

/-- A release at CREW scope by every team of a crew: whether what it waits for has completed (R19, R262). -/
def crewReady (s : State) (c : Nat) : State × Bool :=
  (crewTeams s c).foldl (fun x n => let y := relReady x.1 (teamKey c n) 1; (y.1, x.2 && y.2)) (s, true)

/-- DQ_COMMIT (R274): the site's crew performs the buffered stores and deferred atomics in team, program and lane order;
when every one of them has completed, every count becomes 0 and each team resumes where it stopped. It is performed at CREW scope, with that
scope's release before it and its acquire after it on every core that the crew holds (R19, R262). -/
def execDqCommit (s : State) : Host.Outcome State Fault Refusal :=
  let c := s.site.crew
  if !commitGoes s c then .next s
  else
    match if (s.crew c).commit then (s, true) else crewReady s c with
    | (s, false) => .next s
    | (s, true) =>
    let s := if (s.crew c).commit then s else releaseCrew s c 1
    let s := s.setCrew c { s.crew c with commit := true }
    match commitTeams c (crewTeams s c) s with
    | (s, false) => .next s
    | (s, true) =>
        let s := acquireCrew s (s.crew c) 1
        let s := s.setCrew c { s.crew c with commit := false }
        .next ((crewTeams s c).foldl (fun s n => s.updTeam (teamKey c n) Team.afterCommit) { s with progress := s.progress + 1 })

end Sys2Proof.Machine
end

