-- ==== Sys2Proof/Machine/Report.lean ====
section
/-! DEFINITION. The rings by which a die reports to system software, and the signals to the host
(spec/12_fabric_engine.md R463, R485; spec/01_engines_and_ties.md R46). -/

namespace Sys2Proof.Machine

/-- Something leaves for the host. -/
def State.emit (s : State) (m : NetMsg) : State := { s with out := s.out ++ [m] }

/-- What became of an entry of a ring. -/
inductive RingEnd
  | off
  | full
  | put (s : State) (r : RingRegs)

/-- Write a 32-byte entry at a ring's tail; a ring without an address of R242 is off (R463). -/
def ringPut (s : State) (r : RingRegs) (bs : List Byte) : RingEnd :=
  let a := r.base.toNat + 32 * (r.tail.toNat % 2 ^ r.log.toNat)
  if r.base = 0 || !isMapped r.base.toNat || !isMapped a then .off
  else if 2 ^ r.log.toNat ≤ (r.tail - r.head).toNat then .full
  else .put (setHomeBytes s a bs) { r with tail := r.tail + 1, spilt := false }

/-- Replace a die's RAS log registers. -/
def State.setRas (s : State) (d : Nat) (r : RingRegs) : State :=
  let v := s.die d
  s.setDie d { v with regs := { v.regs with ras := r } }

/-- Replace a die's inbound fault log registers. -/
def State.setIfl (s : State) (d : Nat) (r : RingRegs) : State :=
  let v := s.die d
  s.setDie d { v with regs := { v.regs with ifl := r } }

/-- The 32 bytes of a RAS entry (R485). -/
def rasEntry (kind unit die addr func : Nat) : List Byte :=
  [Config.rasKind kind, BitVec.ofNat 8 unit, BitVec.ofNat 8 (die % 8 + func % 16 * 16), 0, 0, 0, 0, 0] ++ leBytes addr 8 ++
  List.replicate 16 0

/-- Write a RAS entry of a die; one that does not fit begins an overflow, an error that is not fatal (R46, R485). -/
def rasLog (s : State) (die kind unit addr func : Nat) : State :=
  let r := (s.die die).regs.ras
  match ringPut s r (rasEntry kind unit die addr func) with
  | .off => s
  | .put s r => s.setRas die r
  | .full => if r.spilt then s else (s.setRas die { r with spilt := true }).emit (.aer 1)

/-- A correction or a retirement: RAS log, AER correctable, MSI-X vector 1 of the physical function (R485). -/
def reportFixed (s : State) (die kind unit addr : Nat) : State :=
  ((rasLog s die kind unit addr 0).emit (.aer 0)).emit (.msix 0 1)

/-- A confined uncorrectable error: RAS log, MSI-X vector 1 of the owning function (R485). -/
def reportConfined (s : State) (die unit addr func : Nat) : State :=
  (rasLog s die 5 unit addr func).emit (.msix func 1)

/-- The 32 bytes of an inbound fault entry (R463). -/
def iflEntry (dev die reason kind job index : Nat) (off : Nat) (data : W64) : List Byte :=
  leBytes (dev % 2 ^ 17 + die % 8 * 2 ^ 17 + reason * 2 ^ 20 + kind * 2 ^ 24) 4 ++ leBytes (job % 65536 + index * 65536) 4 ++
  leBytes off 8 ++ leBytes data.toNat 8 ++ List.replicate 8 0

/-- A target failure: an entry of die 0's inbound fault log, MSI-X vector 2 of the physical function; a full ring
makes the RAS log record one overflow (R463, R485). -/
def inboundFault (s : State) (bs : List Byte) : State :=
  let r := (s.die 0).regs.ifl
  let s := match ringPut s r bs with
    | .off => s
    | .put s r => s.setIfl 0 r
    | .full => if r.spilt then s else (rasLog (s.setIfl 0 { r with spilt := true }) 0 7 0 0 0).emit (.aer 1)
  s.emit (.msix 0 2)

end Sys2Proof.Machine
end

