-- ==== Sys2Proof/Machine/Layouts.lean ====
section
/-! DEFINITION. The layouts that the model gives the sections of a save image to which the spec gives none: 0x01 to 0x06 and 0x0A (DESIGN CHOICE, log
entry 13; spec/02_clauses_and_encoding.md R80; spec/04_team_sequencer.md R148, R161; spec/05_launch_engine.md R190, R191, R195, R197;
spec/07_load_store_and_translation.md R276, R281, R290; spec/09_tile_copy_engine.md R338). -/

namespace Sys2Proof.Machine

/-! ### Writing and reading fields -/

/-- What a byte string gives from its front on. -/
abbrev Rd (α : Type) := StateM (List Byte) α

/-- A number of `n` bytes. -/
def rdNat (n : Nat) : Rd Nat := fun l => (leNat (l.take n), l.drop n)

/-- `n` times the same field. -/
def rdMany {α : Type} (f : Rd α) : Nat → Rd (List α)
  | 0 => pure []
  | n + 1 => do
    let x ← f
    let r ← rdMany f n
    return x :: r

/-- A count, then as many fields. -/
def wrList {α : Type} (f : α → List Byte) (l : List α) : List Byte := leBytes l.length 4 ++ l.flatMap f

/-- The list that a count and its fields hold; no more of them than there are bytes. -/
def rdList {α : Type} (f : Rd α) : Rd (List α) := do
  let n ← rdNat 4
  let left ← get
  rdMany f (min n left.length)

/-- A number of `n` bytes that may be absent. -/
def wrOpt (n : Nat) (x : Option Nat) : List Byte := leBytes x.isSome.toNat 1 ++ leBytes (x.getD 0) n

/-- The same read. -/
def rdOpt (n : Nat) : Rd (Option Nat) := do
  let t ← rdNat 1
  let v ← rdNat n
  return if t = 0 then none else some v

/-- A truth value in a byte. -/
def rdBool : Rd Bool := do return (← rdNat 1) % 2 = 1

/-- A 64-bit field. -/
def rd64 : Rd W64 := do return BitVec.ofNat 64 (← rdNat 8)

/-- A 32-bit field. -/
def rd32 : Rd W32 := do return BitVec.ofNat 32 (← rdNat 4)

/-- A mask over lanes. -/
def rdMask : Rd Mask := do return BitVec.ofNat 1024 (← rdNat 128)

/-- The numbers below `n` that satisfy a test, one bit for each. -/
def wrBits (n : Nat) (p : Nat → Bool) : List Byte :=
  (List.range ((n + 7) / 8)).map fun j =>
    (List.range 8).foldl (fun b i => if 8 * j + i < n && p (8 * j + i) then b ||| (1#8 <<< i) else b) 0

/-- The numbers below `n` whose bit is set, ascending. -/
def rdBits (n : Nat) : Rd (List Nat) := do
  let l ← rdMany (rdNat 1) ((n + 7) / 8)
  return ((List.range l.length).zip l).flatMap fun e => ((List.range 8).filter fun i => e.2.testBit i).map (8 * e.1 + ·)

/-- Sparse data with one value for each of the rising keys `k 0`, `k 1`, and so on. -/
def smOf {β : Type} [DecidableEq β] (d : β) (k : Nat → Nat) (l : List β) : SMap β :=
  (((List.range l.length).zip l).map fun e => (k e.1, e.2)).filter fun e => e.2 ≠ d

/-- Pending bits as read: the operation that a bit stands for is kept beside the image, and a bit that stands for none is 1. -/
def pendOf (old : SMap Nat) (set : List Nat) : SMap Nat := set.map fun k => (k, max 1 (smGet 0 old k))

/-! ### Markers (R254) -/

/-- A marker: its kind, detail and address. -/
def markerBytes : Mark → List Byte
  | .data a => leBytes 0 1 ++ leBytes 0 4 ++ leBytes a.toNat 8
  | .remoteRead d a => leBytes 1 1 ++ leBytes d 4 ++ leBytes a.toNat 8
  | .hostAtomic d a => leBytes 2 1 ++ leBytes d 4 ++ leBytes a.toNat 8
  | .remoteOld d a => leBytes 3 1 ++ leBytes d 4 ++ leBytes a.toNat 8
  | .lane => leBytes 4 1 ++ leBytes 0 4 ++ leBytes 0 8

/-- The same read. -/
def rdMark : Rd Mark := do
  let k ← rdNat 1
  let d ← rdNat 4
  let a ← rd64
  return match k with
    | 0 => .data a
    | 1 => .remoteRead d a
    | 2 => .hostAtomic d a
    | 3 => .remoteOld d a
    | _ => .lane

/-- The markers of registers. -/
def marksBytes (m : SMap (Option Mark)) : List Byte :=
  wrList (fun e : Nat × Mark => leBytes e.1 4 ++ markerBytes e.2) (m.filterMap fun e => e.2.map fun x => (e.1, x))

/-- The same read. -/
def rdMarks : Rd (SMap (Option Mark)) := do
  let l ← rdList (do
    let k ← rdNat 4
    let x ← rdMark
    return (k, x))
  return smSetAll none [] (l.map fun e => (e.1, some e.2))

/-! ### Section 0x01: the sequencer state of a team (R161, R191, R290) -/

/-- An entry of the join stack. -/
def JoinEntry.bytes (e : JoinEntry) : List Byte :=
  leBytes e.rj.toNat 8 ++ leBytes e.save.toNat 128 ++ leBytes e.other.toNat 128 ++ leBytes e.opc.toNat 8

/-- The same read. -/
def rdJoin : Rd JoinEntry := do return { rj := ← rd64, save := ← rdMask, other := ← rdMask, opc := ← rd64 }

/-- The trap registers and the saved mask. -/
def TrapRegs.bytes (x : TrapRegs) : List Byte :=
  leBytes x.xvec.toNat 8 ++ leBytes x.xpc.toNat 8 ++ leBytes x.xval.toNat 8 ++ leBytes x.detail.toNat 1 ++ leBytes x.code.toNat 1 ++
  leBytes x.xmask.toNat 128 ++ leBytes x.saved.toNat 128

/-- The same read. -/
def rdTrapRegs : Rd TrapRegs := do
  return {
    xvec := ← rd64, xpc := ← rd64, xval := ← rd64, detail := BitVec.ofNat 8 (← rdNat 1), code := BitVec.ofNat 8 (← rdNat 1),
    xmask := ← rdMask, saved := ← rdMask }

/-- DEBUGCTL and the undo registers. -/
def Debug.bytes (d : Debug) : List Byte :=
  leBytes d.uflt.toNat 1 ++ leBytes d.undo.toNat 1 ++ leBytes d.step.toNat 1 ++ leBytes d.base.toNat 8 ++ leBytes d.len.toNat 4 ++
  leBytes d.head.toNat 4

/-- The same read. -/
def rdDebug : Rd Debug := do
  return { uflt := ← rdBool, undo := ← rdBool, step := ← rdBool, base := ← rd64, len := ← rd32, head := ← rd32 }

/-- The remote-fault registers and UNREP. -/
def RfRegs.bytes (r : RfRegs) : List Byte :=
  leBytes r.count.toNat 4 ++ leBytes r.base.toNat 8 ++ leBytes r.slots.toNat 2 ++ leBytes r.unrep 8

/-- The same read. -/
def rdRf : Rd RfRegs := do
  return { count := ← rd32, base := ← rd64, slots := BitVec.ofNat 16 (← rdNat 2), unrep := ← rdNat 8 }

/-- SPFAULT. -/
def SpFault.bytes (x : SpFault) : List Byte := leBytes x.valid.toNat 1 ++ leBytes x.wr.toNat 1 ++ leBytes x.off.toNat 4

/-- The same read. -/
def rdSpFault : Rd SpFault := do return { valid := ← rdBool, wr := ← rdBool, off := BitVec.ofNat 18 (← rdNat 4) }

/-- Section 0x01 of a team: the program counter, LIVE, M, whether the team has not ended, the privilege state, SCC, the class, the join stack, the
trap registers, ASTICKY, AENABLE, SPFAULT, the remote-fault registers, the debug registers, FADDR, a RED error that TFENCE is to raise,
the atomic whose acquire is to come, and the phase that its BAR waits for. -/
def seqBytes (t : Team) : List Byte :=
  leBytes t.pc.toNat 8 ++ leBytes t.live.toNat 128 ++ leBytes t.m.toNat 128 ++ leBytes t.id.alive.toNat 1 ++ leBytes t.sup.toNat 1 ++
  leBytes t.scc.toNat 1 ++ leBytes t.cls.toNat 1 ++ wrList JoinEntry.bytes t.join ++ t.x.bytes ++ leBytes t.asticky.toNat 1 ++
  leBytes t.aenable.toNat 1 ++ t.sp.bytes ++ t.rf.bytes ++ t.dbg.bytes ++
  wrList (fun e : Nat × W64 => leBytes e.1 4 ++ leBytes e.2.toNat 8) t.eng.faddr ++ wrOpt 8 (t.eng.redErr.map BitVec.toNat) ++
  wrOpt 8 (t.eng.acq.map Prod.fst) ++ leBytes ((t.eng.acq.map Prod.snd).getD 0) 1 ++ wrOpt 4 (t.arr 0)

/-- A team with what its section 0x01 holds: it stands at a group's boundary, ages from zero, and waits for no window (R58, R161, R338). -/
def rdSeq (t : Team) : Rd Team := do
  let pc ← rd64
  let live ← rdMask
  let m ← rdMask
  let alive ← rdBool
  let sup ← rdBool
  let scc ← rdNat 1
  let cls ← rdNat 1
  let join ← rdList rdJoin
  let x ← rdTrapRegs
  let asticky ← rdNat 1
  let aenable ← rdNat 1
  let sp ← rdSpFault
  let rf ← rdRf
  let dbg ← rdDebug
  let faddr ← rdList (do
    let l ← rdNat 4
    let v ← rd64
    return (l, v))
  let redErr ← rdOpt 8
  let op ← rdOpt 8
  let scope ← rdNat 1
  let phase ← rdOpt 4
  return { t with
    id := { t.id with alive := alive }, pc := pc, live := live, m := m, sup := sup, scc := BitVec.ofNat 3 scc, cls := BitVec.ofNat 2 cls,
    join := join, x := x, asticky := BitVec.ofNat 7 asticky, aenable := BitVec.ofNat 7 aenable, sp := sp, rf := rf, dbg := dbg,
    clause := none, pfx := {}, group := none, sched := { arrived := smSet none [] 0 phase },
    eng := { t.eng with
      faddr := smSetAll 0 [] faddr, redErr := redErr.map (BitVec.ofNat 64), acq := op.map fun n => (n, scope), parked := [], leave := .free } }

/-! ### Sections 0x02 and 0x03: registers, predicates, pending bits, markers (R78, R80, R254) -/

/-- Section 0x02: the 64 scalar registers, their pending bits, their markers. -/
def scalarBytes (t : Team) : List Byte :=
  (List.range 64).flatMap (fun r => leBytes (smGet 0 t.r.s r).toNat 4) ++ wrBits 64 (fun r => smGet 0 t.r.spend r ≠ 0) ++ marksBytes t.r.smarks

/-- A team with what its section 0x02 holds. -/
def rdScalars (t : Team) : Rd Team := do
  let s ← rdMany rd32 64
  let pend ← rdBits 64
  let marks ← rdMarks
  return { t with r := { t.r with s := smOf 0 id s, spend := pendOf t.r.spend pend, smarks := marks } }

/-- The mask words of a team (R129). -/
def TeamId.maskLen (i : TeamId) : Nat := (i.width + 31) / 32

/-- Section 0x03: the declared vector registers lane by lane, their pending bits by mask word, predicates p0 to p7 as masks, their pending bits, the
markers. -/
def vectorBytes (t : Team) : List Byte :=
  let w := t.id.width
  let k := t.id.maskLen
  (List.range (t.id.nregs * w)).flatMap (fun j => leBytes (smGet 0 t.r.v (vKey (j / w) (j % w))).toNat 4) ++
  wrBits (t.id.nregs * k) (fun j => smGet 0 t.r.vpend (j / k * 32 + j % k) ≠ 0) ++
  (List.range 8).flatMap (fun p => leBytes (smGet 0 t.r.p p).toNat 128) ++
  wrBits (8 * k) (fun j => smGet 0 t.r.ppend (j / k * 32 + j % k) ≠ 0) ++ marksBytes t.r.vmarks

/-- A team with what its section 0x03 holds. -/
def rdVectors (t : Team) : Rd Team := do
  let w := t.id.width
  let k := t.id.maskLen
  let v ← rdMany rd32 (t.id.nregs * w)
  let vpend ← rdBits (t.id.nregs * k)
  let p ← rdMany rdMask 8
  let ppend ← rdBits (8 * k)
  let marks ← rdMarks
  let keys : List Nat → List Nat := fun l => l.map fun j => j / k * 32 + j % k
  return { t with r := { t.r with
    v := smOf 0 (fun j => vKey (j / w) (j % w)) v, vpend := pendOf t.r.vpend (keys vpend), p := smOf 0 id p,
    ppend := pendOf t.r.ppend (keys ppend), vmarks := marks } }

/-! ### Sections 0x04 and 0x05: the scratchpad window, the barriers (R148, R338) -/

/-- Section 0x04: the bytes of the window, then one poison bit for each. -/
def windowBytes (c : Crew) : List Byte :=
  (List.range (c.splen * 128)).map (smGet 0 c.scratch) ++ wrBits (c.splen * 128) (smGet false c.spoison)

/-- A crew with what section 0x04 holds. -/
def rdWindow (c : Crew) : Rd Crew := do
  let l ← rdMany (rdNat 1) (c.splen * 128)
  let bad ← rdBits (c.splen * 128)
  return { c with scratch := smOf 0 id (l.map (BitVec.ofNat 8)), spoison := bad.map fun k => (k, true) }

/-- Section 0x05: the completed phases of the 16 barriers with the teams that have arrived, then the arrivals in REFORM with their key registers. -/
def barrierBytes (c : Crew) : List Byte :=
  (List.range 16).flatMap (fun b =>
    let x := smGet {} c.barriers b
    leBytes x.phase.toNat 4 ++ wrBits 16 x.arrived.contains) ++
  wrList (fun e : Nat × Nat => leBytes e.1 1 ++ leBytes e.2 1) c.reform

/-- A crew with what section 0x05 holds. -/
def rdBarriers (c : Crew) : Rd Crew := do
  let l ← rdMany (do
    let phase ← rd32
    let arrived ← rdBits 16
    return ({ phase := phase, arrived := arrived } : Barrier)) 16
  let reform ← rdList (do
    let n ← rdNat 1
    let k ← rdNat 1
    return (n, k))
  return { c with barriers := smOf {} id l, reform := reform }

/-! ### Section 0x06: queue registers (R25, R471) -/

/-- What a result is to a ray, as a number. -/
def ResKind.code : ResKind → Nat
  | .plain => 0
  | .final => 1
  | .call => 2
  | .trans => 3

/-- The kind of a number. -/
def resKindOf (n : Nat) : ResKind :=
  match n with
  | 1 => .final
  | 2 => .call
  | 3 => .trans
  | _ => .plain

/-- The words of a record or result. -/
def wordsBytes (l : List W32) : List Byte := wrList (fun w : W32 => leBytes w.toNat 4) l

/-- A result that waits. -/
def QRes.bytes (x : QRes) : List Byte := leBytes x.kind.code 1 ++ leBytes x.handle.toNat 4 ++ wordsBytes x.words

/-- The same read. -/
def rdQRes : Rd QRes := do
  let k ← rdNat 1
  let h ← rd32
  let w ← rdList rd32
  return { words := w, kind := resKindOf k, handle := h }

/-- A record that its engine has not taken. -/
def Pushed.bytes (p : Pushed) : List Byte := leBytes p.lane 4 ++ leBytes p.stamp 8 ++ wrOpt 8 p.batch ++ wordsBytes p.words

/-- The same read. -/
def rdPushed : Rd Pushed := do
  let l ← rdNat 4
  let n ← rdNat 8
  let b ← rdOpt 8
  let w ← rdList rd32
  return { words := w, lane := l, stamp := n, batch := b }

/-- A queue register: its port, results, staged and waiting records, the records accepted, DEST, RESV and epoch. -/
def QReg.bytes (q : QReg) : List Byte :=
  leBytes q.port 4 ++ wrList QRes.bytes q.results ++ wrList Pushed.bytes q.staged ++ wrList Pushed.bytes q.pushed ++ leBytes q.accepted 8 ++
  wrOpt 4 (q.dest.map Prod.fst) ++ leBytes ((q.dest.map Prod.snd).getD 0) 4 ++ leBytes q.resv 8 ++ leBytes q.epoch 8

/-- A queue register with what its record holds; what section 0x09 holds of a ray port stays. -/
def rdQReg (q : QReg) : Rd QReg := do
  let port ← rdNat 4
  let results ← rdList rdQRes
  let staged ← rdList rdPushed
  let pushed ← rdList rdPushed
  let accepted ← rdNat 8
  let dev ← rdOpt 4
  let queue ← rdNat 4
  let resv ← rdNat 8
  let epoch ← rdNat 8
  return { q with
    port := port, results := results, staged := staged, pushed := pushed, accepted := accepted, dest := dev.map fun d => (d, queue), resv := resv,
    epoch := epoch }

/-- Section 0x06: the 16 queue registers. -/
def queueBytes (t : Team) : List Byte := (List.range 16).flatMap fun n => (smGet {} t.q n).bytes

/-- The last `n` of the 16 queue registers, over those that a team has. -/
def rdQRegs (t : Team) : Nat → Rd (List QReg)
  | 0 => pure []
  | n + 1 => do
    let x ← rdQReg (smGet {} t.q (15 - n))
    let r ← rdQRegs t n
    return x :: r

/-- A team with what its section 0x06 holds. -/
def rdQueues (t : Team) : Rd Team := do
  let l ← rdQRegs t 16
  return { t with q := smOf {} id l }

/-! ### Section 0x0A: the store buffer of a quantum with what its commit is to perform (R272, R276, R309) -/

/-- What an atomic does, as a number and its OPN. -/
def AtWhat.code : AtWhat → Nat × Nat
  | .amo n => (0, n)
  | .acas => (1, 0)
  | .acas2 => (2, 0)
  | .red n => (3, n)
  | .redx => (4, 0)
  | .ald => (5, 0)
  | .ast => (6, 0)

/-- What the numbers stand for. -/
def atWhatOf (k n : Nat) : AtWhat :=
  match k with
  | 0 => .amo n
  | 1 => .acas
  | 2 => .acas2
  | 3 => .red n
  | 4 => .redx
  | 5 => .ald
  | _ => .ast

/-- A lane of a deferred atomic; outside the scratchpad its physical address is not part of the image (R281). -/
def AtLane.bytes (spad : Bool) (l : AtLane) : List Byte :=
  leBytes l.lane 4 ++ leBytes l.va.toNat 8 ++ leBytes (if spad then l.pa else 0) 8 ++ leBytes l.x 16 ++ leBytes l.cmp 16

/-- The same read. -/
def rdAtLane : Rd AtLane := do
  let l ← rdNat 4
  let va ← rd64
  let pa ← rdNat 8
  let x ← rdNat 16
  let cmp ← rdNat 16
  return { lane := l, va := va, pa := pa, x := x, cmp := cmp, rede := 0 }

/-- A deferred atomic. -/
def AtomicOp.bytes (a : AtomicOp) : List Byte :=
  leBytes a.what.code.1 1 ++ leBytes a.what.code.2 1 ++ leBytes a.wide.toNat 1 ++ leBytes a.d 1 ++ leBytes a.spad.toNat 1 ++
  leBytes a.flags.toNat 1 ++ wrOpt 1 a.rel ++ wrList (AtLane.bytes a.spad) a.lanes

/-- The same read. -/
def rdAtomic : Rd AtomicOp := do
  let k ← rdNat 1
  let n ← rdNat 1
  let wide ← rdBool
  let d ← rdNat 1
  let spad ← rdBool
  let flags ← rdNat 1
  let rel ← rdOpt 1
  let lanes ← rdList rdAtLane
  return {
    what := atWhatOf k n, wide := wide, d := d, spad := spad, lanes := lanes, flags := BitVec.ofNat 7 flags, deferred := true, rel := rel }

/-- A storage as a number. -/
def Space.code : Space → Nat
  | .plain => 0
  | .home => 1
  | .scratch => 2
  | .remote => 3

/-- The storage of a number. -/
def spaceOf (n : Nat) : Space :=
  match n with
  | 1 => .home
  | 2 => .scratch
  | 3 => .remote
  | _ => .plain

/-- A load's access; outside the scratchpad its physical address is not part of the image. -/
def LaneAcc.bytes (sp : Space) (a : LaneAcc) : List Byte :=
  leBytes a.lane 4 ++ leBytes a.va.toNat 8 ++ leBytes (if sp = .scratch then a.pa else 0) 8

/-- The same read. -/
def rdLaneAcc : Rd LaneAcc := do
  let l ← rdNat 4
  let va ← rd64
  let pa ← rdNat 8
  return { lane := l, va := va, pa := pa }

/-- What a section keeps of an operation that the commit is to perform. -/
def heldKindBytes : OpKind → List Byte
  | .atomic a => a.bytes
  | .load sp z signed scalar d left accs _ alloc =>
    leBytes sp.code 1 ++ leBytes z.toNat 1 ++ leBytes signed.toNat 1 ++ leBytes scalar.toNat 1 ++ leBytes d 1 ++
    wrList (fun k : Nat => leBytes k 1) left ++ wrList (LaneAcc.bytes sp) accs ++ leBytes alloc.toNat 1
  | _ => []

/-- A load that waits for the commit; it takes nothing over the buffer (log entry 89). -/
def rdHeldLoad : Rd OpKind := do
  let sp ← rdNat 1
  let z ← rdNat 1
  let signed ← rdBool
  let scalar ← rdBool
  let d ← rdNat 1
  let left ← rdList (rdNat 1)
  let accs ← rdList rdLaneAcc
  let alloc ← rdBool
  return .load (spaceOf sp) (BitVec.ofNat 3 z) signed scalar d left accs [] alloc

/-- An operation that the commit is to perform: its number, its flag, what it does. -/
def heldOpBytes (s : State) (id : Nat) : List Byte :=
  let o := s.op id
  leBytes id 8 ++ wrOpt 1 (o.bind Op.flag) ++ ((o.map fun o => heldKindBytes o.kind).getD [])

/-- An entry of the buffer. -/
def itemBytes (s : State) : DqItem → List Byte
  | .store va pa sc bs => leBytes 0 1 ++ leBytes va.toNat 8 ++ leBytes sc.toNat 1 ++ leBytes (if sc then pa else 0) 8 ++ wrList (fun b : Byte => [b]) bs
  | .atomic id => leBytes 1 1 ++ heldOpBytes s id
  | .load id => leBytes 2 1 ++ heldOpBytes s id

/-- The same read, with the operation as number, flag and what it does. -/
def rdItem : Rd (DqItem × Option (Nat × Option Nat × OpKind)) := do
  let k ← rdNat 1
  if k = 0 then
    let va ← rd64
    let sc ← rdBool
    let pa ← rdNat 8
    let bs ← rdList (rdNat 1)
    return (.store va pa sc (bs.map (BitVec.ofNat 8)), none)
  else
    let id ← rdNat 8
    let flag ← rdOpt 1
    if k = 1 then
      let a ← rdAtomic
      return (.atomic id, some (id, flag, .atomic a))
    else
      let l ← rdHeldLoad
      return (.load id, some (id, flag, l))

/-- Section 0x0A: the count of the quantum's words, where the team stands in it, the buffer. -/
def bufferBytes (s : State) (t : Team) : List Byte :=
  leBytes t.dq.count 8 ++ leBytes t.dq.atEnd.toNat 1 ++ leBytes t.dq.passed.toNat 1 ++ leBytes t.dq.full.toNat 1 ++ wrList (itemBytes s) t.dq.items

/-- Put an operation that the commit of a team is to perform among those in flight. -/
def putHeld (s : State) (key : Nat) (x : Nat × Option Nat × OpKind) : State :=
  let c := key / 16
  match s.op x.1 with
  | some _ => s.updOp x.1 fun o => { o with flag := x.2.1, kind := x.2.2 }
  | none => { s with ops := s.ops ++ [{ id := x.1, team := key, crew := c, gen := (s.crew c).gen, flag := x.2.1, kind := x.2.2 }] }

/-- The machine with what section 0x0A of a team holds. -/
def rdBuffer (s : State) (key : Nat) : Rd State := do
  let count ← rdNat 8
  let atEnd ← rdBool
  let passed ← rdBool
  let full ← rdBool
  let l ← rdList rdItem
  let u := (l.filterMap Prod.snd).foldl (fun s x => putHeld s key x) s
  return u.updTeam key fun t => { t with
    dq := { items := l.map Prod.fst, count := count, atEnd := atEnd, passed := passed, full := full } }

/-! ### What a restored buffer accesses is translated again (R281) -/

/-- The physical address and the leaf entry of an access that a word made before the crew was saved, found anew in the page tables: its permission
for the word's privilege was checked when the word issued (DESIGN CHOICE, log entry 108). -/
def translateAgain (s : State) (d ctx : Nat) (a : Access) (va : W64) : State × Option (Nat × W64) :=
  match walkAccess s ctx va.toNat a true with
  | (s, .error _) => (s, none)
  | (s, .ok l) => (s, some (leafPa d l va.toNat, l.e))

/-- Translate each access of a list again; none when one of them does not translate. -/
def eachAgain {α : Type} (d ctx : Nat) (a : Access) (va : α → W64) (put : α → Nat → W64 → α) : List α → State → State × Option (List α)
  | [], s => (s, some [])
  | x :: r, s =>
    match translateAgain s d ctx a (va x) with
    | (s, none) => (s, none)
    | (s, some p) =>
      match eachAgain d ctx a va put r s with
      | (s, none) => (s, none)
      | (s, some l) => (s, some (put x p.1 p.2 :: l))

/-- What an operation that a commit is to perform accesses, translated again. -/
def opAgain (d ctx : Nat) (k : OpKind) (s : State) : State × Option OpKind :=
  match k with
  | .atomic a =>
    if a.spad then (s, some k)
    else
      let x := eachAgain d ctx (if a.what = .ald then .read else .write) AtLane.va
        (fun l pa e => { l with pa := pa, rede := if a.what = .redx then leafRede e else 0 }) a.lanes s
      (x.1, x.2.map fun l => .atomic { a with lanes := l })
  | .load sp z signed scalar d' left accs held alloc =>
    if sp = .scratch then (s, some k)
    else
      let x := eachAgain d ctx .read LaneAcc.va (fun a pa _ => { a with pa := pa }) accs s
      (x.1, x.2.map fun l => .load sp z signed scalar d' left l held alloc)
  | _ => (s, some k)

/-- The entries of a buffer translated again, for die `d`; none when an access does not translate. -/
def itemsAgain (d ctx : Nat) : List DqItem → State → State × Option (List DqItem)
  | [], s => (s, some [])
  | x :: r, s =>
    let y : State × Option DqItem :=
      match x with
      | .store va _ false bs =>
        let p := translateAgain s d ctx .write va
        (p.1, p.2.map fun p => .store va p.1 false bs)
      | .store _ _ true _ => (s, some x)
      | .atomic id | .load id =>
        match s.op id with
        | none => (s, some x)
        | some o =>
          let z := opAgain d ctx o.kind s
          match z.2 with
          | none => (z.1, none)
          | some k => (z.1.updOp id fun o => { o with kind := k }, some x)
    match y with
    | (s, none) => (s, none)
    | (s, some i) =>
      match itemsAgain d ctx r s with
      | (s, none) => (s, none)
      | (s, some l) => (s, some (i :: l))

end Sys2Proof.Machine
end

