-- ==== Sys2Proof/Machine/Matrix.lean ====
section
/-! DEFINITION. The matrix engine: claims, gangs, hazards, the array with its steps, the operand-port decoder, loads, bank
words, Skew, status (spec/10_matrix_engine.md; spec/03_number_and_stream_formats.md R113 to R117). -/

namespace Sys2Proof.Machine

/-! ### Resources (R341 to R344) -/

/-- MSLOT, MSHAPE, MGANGX, STREAM.LEN, STREAM.SYN (R384). -/
def codeMslot : Nat := 0x62
/-- MSHAPE. -/
def codeMshape : Nat := 0x63
/-- MGANGX. -/
def codeMgangx : Nat := 0x64
/-- STREAM.LEN. -/
def codeStreamLen : Nat := 0x60
/-- STREAM.SYN. -/
def codeStreamSyn : Nat := 0x61

/-- Change the matrix state of a crew. -/
def State.mapMat (s : State) (c : Nat) (f : Matrix → Matrix) : State :=
  s.setCrew c { s.crew c with mat := f (s.crew c).mat }

/-- The resource masks: slot k is bit k, bank k bit 48 + k, codebook k bit 52 + k, table k bit 60 + k. -/
def bankBit (b : Nat) : BitVec 64 := 1#64 <<< (48 + b)
/-- Bit of a codebook. -/
def cbBit (c : Nat) : BitVec 64 := 1#64 <<< (52 + c)
/-- Bit of a table. -/
def tabBit (t : Nat) : BitVec 64 := 1#64 <<< (60 + t)
/-- Bits of the slots of a run of `len` bytes from slot `first`. -/
def runBits (first len : Nat) : BitVec 64 :=
  (List.range ((len + 16383) / 16384)).foldl (fun m k => if first + k < 48 then m ||| (1#64 <<< (first + k)) else m) 0

/-- A slot is claimed. -/
def Matrix.hasSlot (m : Matrix) (k : Nat) : Bool := k < 48 && m.slots.getLsbD k

/-- Every slot of a run is claimed and below 48. -/
def Matrix.hasRun (m : Matrix) (first len : Nat) : Bool :=
  (List.range ((len + 16383) / 16384)).all fun k => m.hasSlot (first + k)

/-- The first slot of a run that is not claimed. -/
def Matrix.missing (m : Matrix) (first len : Nat) : Option Nat :=
  ((List.range ((len + 16383) / 16384)).find? fun k => !m.hasSlot (first + k)).map (first + ·)

/-- Resources of a kind (0 slots, 1 banks, 2 codebooks) that a crew claims, as a mask. -/
def Matrix.claims (m : Matrix) (kind : Nat) : BitVec 64 :=
  if kind = 0 then m.slots.setWidth 64 else if kind = 1 then m.banks.setWidth 64 else m.cbs.setWidth 64

/-- How many there are of a kind (R341). -/
def kindCount (kind : Nat) : Nat := if kind = 0 then 48 else if kind = 1 then 4 else 8

/-- Bits set in a mask. -/
def bitCount (m : BitVec 64) : Nat := ((List.range 64).filter m.getLsbD).length

/-- Physical resources of a kind in use on a core: those of the crews bound to it, one that is being restored apart (R342). -/
def physUsed (s : State) (die core kind : Nat) : Nat :=
  s.crews.foldl (fun n e =>
    if e.2.die = die && e.2.core = core && (e.2.state == .run || e.2.state == .saving || e.2.state == .dropping || e.2.state == .starting)
    then n + bitCount (e.2.mat.claims kind) else n) 0

/-- FIRST and COUNT of a range operand, when it is valid for the kind (R343). -/
def rangeOf (kind : Nat) (v : W32) : Option (Nat × Nat) :=
  let f := (v.extractLsb' 0 6).toNat
  let n := (v.extractLsb' 8 6).toNat
  if v &&& ~~~0x3F3F#32 ≠ 0 || n = 0 || kindCount kind < f + n then none else some (f, n)

/-- The mask of a range. -/
def rangeMask (r : Nat × Nat) : BitVec 64 := (List.range r.2).foldl (fun m k => m ||| (1#64 <<< (r.1 + k))) 0

/-- Set a claim mask. -/
def Matrix.setClaims (m : Matrix) (kind : Nat) (v : BitVec 64) : Matrix :=
  if kind = 0 then { m with slots := v.setWidth 48 } else if kind = 1 then { m with banks := v.setWidth 4 }
  else { m with cbs := v.setWidth 8 }

/-- Clear the contents of a range: a slot is zero and plain, a bank zero, a codebook zero and not loaded (R343). -/
def Matrix.clearRange (m : Matrix) (kind : Nat) (r : Nat × Nat) : Matrix :=
  let inR : Nat → Nat → Bool := fun sz k => r.1 * sz ≤ k && k < (r.1 + r.2) * sz
  if kind = 0 then { m with data := smDrop (inR 16384) m.data, poison := smDrop (inR 16384) m.poison, coded := smDrop (inR 1) m.coded }
  else if kind = 1 then { m with acc := smDrop (inR 1024) m.acc }
  else { m with cb := smDrop (inR 2048) m.cb, cbPoison := smDrop (inR 2048) m.cbPoison, cbType := smDrop (inR 1) m.cbType }

/-- MCLAIM (R343). -/
def execMclaim (k : BitVec 2) (d a : BitVec 6) (s : State) : Host.Outcome State Fault Refusal :=
  runWord (.mclaim k d a) s fun s =>
    let t := s.team
    let kind := k.toNat
    let mt := (s.crew t.id.crew).mat
    let put : State → W32 → Res := fun s v => ok (s.mapTeam fun t => t.setS d.toNat v)
    match rangeOf kind (t.getS a.toNat) with
    | none => put s 3
    | some r =>
      if mt.claims kind &&& rangeMask r ≠ 0 then put s 1
      else if kindCount kind < physUsed s t.id.die t.id.core kind + r.2 then put s 2
      else put (s.mapMat t.id.crew fun m => (m.clearRange kind r).setClaims kind (m.claims kind ||| rangeMask r)) 0

/-! ### Start order and hazards (R351, R352) -/

/-- What an operation in flight outside the array reads and writes (R351). -/
def OpKind.matRes : OpKind → BitVec 64 × BitVec 64
  | .mload l => (0, match l.cbType with | some _ => cbBit l.slot | none => runBits l.slot l.len)
  | .mst m => (bankBit m.bank, 0)
  | .mtrq q =>
    let nkb := (q.desc.extractLsb' 16 6).toNat + 1
    let len := fun (t : Nat) (sc : Bool) => let d := 1024 * nkb * (if t = 0 then 4 else 8) / 8; if sc then (d + 127) / 128 * 128 + 32 * nkb else d
    (runBits (q.desc.extractLsb' 0 6).toNat (len (q.desc.extractLsb' 22 3).toNat (q.desc.getLsbD 28)),
     runBits (q.desc.extractLsb' 8 6).toNat (len (q.desc.extractLsb' 25 3).toNat true))
  | .load _ _ _ _ _ _ _ _ _ => (0, 0)
  | .store _ _ => (0, 0)
  | .fill _ => (0, 0)
  | .drain _ => (0, 0)
  | .atomic _ => (0, 0)
  | .ramo _ => (0, 0)
  | .rsvs _ => (0, 0)
  | .tile _ => (0, 0)
  | .word _ => (0, 0)

/-- Bits of one element as stored, by type code (R346, R350). -/
def matBits (t : Nat) : Nat := if t = 0 then 4 else if t < 5 then 8 else if t < 7 then 16 else if t = 7 then 64 else if t < 10 then 8 else 4

/-- Bytes of a plain operand with its scales (R346, R347). -/
def operandLen (t nkb : Nat) (sc : Bool) : Nat :=
  let d := 1024 * nkb * matBits t / 8
  if sc then (d + 127) / 128 * 128 + 32 * nkb else d

/-- Fields of a gang operation: it is an MMAC, its bank, TA, TB of an MMA (R349). -/
def MatOp.isC (o : MatOp) : Bool := o.word.getLsbD 23
/-- BANK. -/
def MatOp.bank (o : MatOp) : Nat := (o.word.extractLsb' 21 2).toNat
/-- TA. -/
def MatOp.ta (o : MatOp) : Nat := (o.word.extractLsb' 11 4).toNat
/-- TB. -/
def MatOp.tb (o : MatOp) : Nat := (o.word.extractLsb' 7 4).toNat
/-- ASLOT (R359). -/
def MatOp.aslot (o : MatOp) : Nat := (o.desc.extractLsb' 0 6).toNat
/-- BSLOT. -/
def MatOp.bslot (o : MatOp) : Nat := (o.desc.extractLsb' 8 6).toNat
/-- NKB. -/
def MatOp.nkb (o : MatOp) : Nat := (o.desc.extractLsb' 16 6).toNat + 1
/-- SCA. -/
def MatOp.sca (o : MatOp) : Bool := o.desc.getLsbD 22
/-- SCB. -/
def MatOp.scb (o : MatOp) : Bool := o.desc.getLsbD 23
/-- Steps of the operation (R361). -/
def MatOp.total (o : MatOp) : Nat := 32 * o.nkb / matK o.ta

/-- Fields of an index entry (R126). -/
def Coded.kind (c : Coded) : Nat := (c.entry.extractLsb' 100 4).toNat
/-- CBOOK. -/
def Coded.cbook (c : Coded) : Nat := (c.entry.extractLsb' 104 3).toNat
/-- TABLE. -/
def Coded.table (c : Coded) : Nat := (c.entry.extractLsb' 96 4).toNat
/-- COUNT. -/
def Coded.count (c : Coded) : Nat := (c.entry.extractLsb' 72 24).toNat
/-- LEN. -/
def Coded.len (c : Coded) : Nat := (c.entry.extractLsb' 48 24).toNat
/-- SC. -/
def Coded.sc (c : Coded) : Bool := c.entry.getLsbD 107

/-- What a gang operation reads and writes (R351). -/
def MatOp.res (o : MatOp) : BitVec 64 × BitVec 64 :=
  let b := match o.code with
    | some c => runBits o.bslot c.len ||| tabBit (c.table % 4) ||| (if c.kind = 0 then cbBit c.cbook else 0)
    | none => runBits o.bslot (operandLen o.tb o.nkb o.scb)
  (runBits o.aslot (operandLen o.ta o.nkb o.sca) ||| b, bankBit o.bank)

/-- Two words conflict (R352). -/
def resMeet (x y : BitVec 64 × BitVec 64) : Bool := x.2 &&& (y.1 ||| y.2) ≠ 0 || y.2 &&& x.1 ≠ 0

/-- A gang operation counts as in progress for R352. -/
def MatOp.inProgress (o : MatOp) : Bool := o.state == .started || o.state == .suspended

/-- Something that started before `stamp` conflicts (R352). -/
def matBlocked (s : State) (c stamp : Nat) (r : BitVec 64 × BitVec 64) : Bool :=
  let mt := (s.crew c).mat
  (s.ops.any fun o => o.crew = c && o.id < stamp && resMeet r o.kind.matRes) ||
  (mt.ops.any fun o => o.id < stamp && o.inProgress && resMeet r o.res) ||
  (mt.starts.any fun w => w.stamp < stamp && resMeet r (w.reads, w.writes))

/-- A matrix word passes the start point and waits for hazards; then its effect, with its place in start order (R351, R352). -/
def matGateAt (s : State) (r : BitVec 64 × BitVec 64) (go : Nat → State → Res) : Res :=
  let t := s.team
  let c := t.id.crew
  let mine := (s.crew c).mat.starts.find? fun w => w.team = t.id.tno
  let stamp := (mine.map fun w => w.stamp).getD s.nextOp
  if matBlocked s c stamp r then
    match mine with
    | some _ => .block s .engine
    | none =>
      .block { s.mapMat c fun m => { m with starts := m.starts ++ [{ team := t.id.tno, stamp := stamp, reads := r.1, writes := r.2 }] } with
        nextOp := s.nextOp + 1 } .engine
  else go stamp (s.mapMat c fun m => { m with starts := m.starts.filter fun w => w.team ≠ t.id.tno })

/-- A matrix word that has no operation passes the start point (R351, R352). -/
def matGate (s : State) (r : BitVec 64 × BitVec 64) (go : State → Res) : Res := matGateAt s r fun _ s => go s

/-- Start a matrix word's operation at its place in start order (R351, R352). -/
def startMat (s : State) (stamp : Nat) (k : OpKind) : State :=
  let r := startOp { s with nextOp := stamp } k
  { r with nextOp := max s.nextOp r.nextOp }

/-- A fault at a word leaves the start point free of it. -/
def matTrap (s : State) (code detail : Nat) (val : W64) : Res :=
  .trap (s.mapMat s.team.id.crew fun m => { m with starts := m.starts.filter fun w => w.team ≠ s.team.id.tno })
    { code := code, detail := detail, val := val }

/-- The held operations and those restored before their verification leave a bank (R371, R372). -/
def Matrix.dropHeld (m : Matrix) (bank : Nat → Bool) : Matrix :=
  { m with ops := m.ops.filter fun o => !((o.state == .held || o.state == .restored) && bank o.bank) }

/-- MRELEASE: it blocks while any started word uses a resource of the range, an operation that was restored to await its members too; it names
no place in start order itself, so no word waits for it (R344, R351, R386). -/
def execMrelease (k : BitVec 2) (a : BitVec 6) (s : State) : Host.Outcome State Fault Refusal :=
  runWord (.mrelease k a) s fun s =>
    let t := s.team
    let kind := k.toNat
    let v := t.getS a.toNat
    let mt := (s.crew t.id.crew).mat
    match rangeOf kind v with
    | none => matTrap s codeMslot kind (v.extractLsb' 0 6 |>.setWidth 64)
    | some r =>
      match (List.range r.2).find? fun j => !(mt.claims kind).getLsbD (r.1 + j) with
      | some j => matTrap s codeMslot kind (BitVec.ofNat 64 (r.1 + j))
      | none =>
        let bits := if kind = 0 then rangeMask r else if kind = 1 then rangeMask r <<< 48 else rangeMask r <<< 52
        if matBlocked s t.id.crew s.nextOp (0, bits) || mt.ops.any fun o => o.state = .restored && resMeet (0, bits) o.res then .block s .engine
        else ok (s.mapMat t.id.crew fun m =>
          let m := if kind = 1 then m.dropHeld fun b => r.1 ≤ b && b < r.1 + r.2 else m
          (m.clearRange kind r).setClaims kind (m.claims kind &&& ~~~(rangeMask r)))

/-! ### Gangs (R354 to R356) -/

/-- The members of a gang register, ascending. -/
def gangTeams (g : BitVec 20) : List Nat := (List.range 16).filter fun k => g.getLsbD k

/-- BANKS of a gang register. -/
def gangBanks (g : BitVec 20) : BitVec 4 := g.extractLsb' 16 4

/-- MGANG (R354, R384): XVAL of its fault is the gang register, which stays. -/
def execMgang (a : BitVec 6) (s : State) : Host.Outcome State Fault Refusal :=
  runWord (.mgang a) s fun s =>
    let t := s.team
    let v := t.getS a.toNat
    let g := v.setWidth 20
    let ms := gangTeams g
    let good := v = 0 || (v.extractLsb' 20 12 = 0 && 2 ≤ ms.length && ms.length ≤ 6 && ms.contains t.id.tno &&
      ms.all (· < t.id.crewTeams) && gangBanks g ≠ 0)
    if good then ok (s.mapTeam fun t => { t with eng := { t.eng with gang := g } })
    else .trap s { code := codeMgangx, detail := 1, val := t.eng.gang.setWidth 64 }

/-- Element type codes of a coded tile's KIND; a codebook's type gives that of KIND 0 (R359). -/
def kindType (mt : Matrix) (c : Coded) : Nat :=
  match c.kind with
  | 0 => match smGet none mt.cbType c.cbook with
    | some t => if t = 0 then 5 else if t = 1 then 6 else if t = 2 then 3 else 4
    | none => 12
  | 1 => 3
  | 2 => 4
  | 3 => 8
  | 4 => 0
  | 5 => 1
  | _ => 2

/-- Type code of B (R359). -/
def MatOp.typeB (o : MatOp) (mt : Matrix) : Nat := match o.code with | some c => kindType mt c | none => o.tb

/-- An integer or .f64 type code takes no scales (R360). -/
def noScale (t : Nat) : Bool := 7 ≤ t

/-- The checks at the last arrival, in order (R360): code, DETAIL, XVAL. -/
def gangFault (mt : Matrix) (o : MatOp) : Option (Nat × Nat × W64) :=
  let slot := fun (k : Nat) => (codeMslot, 0, BitVec.ofNat 64 k)
  let shape := fun (d : Nat) => some (codeMshape, d, o.desc.setWidth 64)
  let rec' := smGet none mt.coded o.bslot
  if !mt.hasSlot o.aslot then some (slot o.aslot)
  else if !mt.hasSlot o.bslot then some (slot o.bslot)
  else if !mt.banks.getLsbD o.bank then some (codeMslot, 1, BitVec.ofNat 64 o.bank)
  else if o.isC && (match rec' with | some c => c.kind = 0 && !mt.cbs.getLsbD c.cbook | none => false) then
    some (codeMslot, 2, BitVec.ofNat 64 ((rec'.map Coded.cbook).getD 0))
  else if o.desc.extractLsb' 6 2 ≠ 0 || o.desc.extractLsb' 14 2 ≠ 0 || o.desc.extractLsb' 24 8 ≠ 0 || (o.isC && o.scb) then shape 7
  else if (smGet none mt.coded o.aslot).isSome || o.isC != rec'.isSome then shape 4
  else if (match o.code with | some c => c.kind = 0 && (smGet none mt.cbType c.cbook).isNone | none => false) then shape 5
  else if o.isC && !matPair o.ta (o.typeB mt) then shape 1
  else if (o.sca && noScale o.ta) || (!o.isC && o.scb && noScale o.tb) ||
      (match o.code with | some c => c.sc && noScale (kindType mt c) | none => false) then shape 3
  else if (match o.code with | some c => c.count * kindElems c.kind != 1024 * o.nkb | none => false) then shape 2
  else if !mt.hasRun o.aslot (operandLen o.ta o.nkb o.sca) ||
      !mt.hasRun o.bslot (match o.code with | some c => c.len | none => operandLen o.tb o.nkb o.scb) then shape 8
  else none

/-- The operation that an arrival asks for. -/
def arrivalOp (mt : Matrix) (a : Arrival) (id : Nat) : MatOp :=
  {
    id := id, word := a.word, desc := a.desc, gang := a.gang,
    code := if a.word.getLsbD 23 then smGet none mt.coded (a.desc.extractLsb' 8 6).toNat else none }

/-- A held or restored operation matches (R372). -/
def matMatches (h o : MatOp) : Bool :=
  (h.state == .held || h.state == .restored) && h.bank == o.bank && h.gang == o.gang && h.word == o.word && h.desc == o.desc &&
  h.code == o.code

/-- Change the operation with a number. -/
def Matrix.updOp (m : Matrix) (id : Nat) (f : MatOp → MatOp) : Matrix :=
  { m with ops := m.ops.map fun o => if o.id = id then f o else o }

/-- Set the arrivals of some teams to a status. -/
def Matrix.setArr (m : Matrix) (ts : List Nat) (st : ArrStatus) : Matrix :=
  { m with latch := m.latch.map fun a => if ts.contains a.team then { a with status := st } else a }

/-- An operation issues in every member (R356, R369). -/
def issueMembers (s : State) (c id : Nat) : State :=
  { s.mapMat c fun m => { m.updOp id fun o => { o with issued := true } with
      latch := m.latch.map fun a => if a.status = .started id then { a with status := .issued id } else a } with
    progress := s.progress + 1 }

/-- The member's own word goes on after the operation has issued: it takes its flag while the operation runs (R53, R356). -/
def memberIssues (s : State) (id : Nat) : Res :=
  let t := s.team
  let c := t.id.crew
  let running := (s.crew c).mat.ops.any fun o => o.id = id
  let s := s.mapMat c fun m =>
    { m with latch := m.latch.filter fun a => a.team ≠ t.id.tno }
  match t.llFlag with
  | some f =>
    if running then
      ok ((s.mapMat c fun m => m.updOp id fun o => { o with busy := (t.id.tno, f) :: o.busy }).mapTeam fun t =>
        { t with busy := t.busy ||| (1#12 <<< f) })
    else ok s
  | none => ok s

/-- A word of a started operation looks again: an MMA issues when its hazards have cleared (R352, R356). -/
def memberWaits (s : State) (id : Nat) : Res :=
  let c := s.team.id.crew
  match (s.crew c).mat.ops.find? fun o => o.id = id with
  | none => memberIssues s id
  | some o =>
    if o.issued || (!o.isC && !matBlocked s c o.id o.res) then memberIssues (issueMembers s c id) id
    else .block s .engine

/-- A member leaves the latch with a fault (R355, R356, R370). -/
def memberTraps (s : State) (code detail : Nat) (val : W64) : Res :=
  .trap (s.mapMat s.team.id.crew fun m => { m with latch := m.latch.filter fun a => a.team ≠ s.team.id.tno })
    { code := code, detail := detail, val := val }

/-- The last member has arrived: a restored operation that matches goes on in its own place; else the operation starts, is checked, or
resumes the one held on its bank (R356, R360, R372). -/
def gangStart (s : State) (a : Arrival) : Res :=
  let c := s.team.id.crew
  let mt := (s.crew c).mat
  let ts := gangTeams a.gang
  let o := arrivalOp mt a s.nextOp
  match mt.ops.find? fun h => h.state = .restored && matMatches h o with
  | some h =>
    memberWaits { s.mapMat c fun m => (m.updOp h.id fun h => { h with state := .suspended }).setArr ts (.started h.id) with
      progress := s.progress + 1 } h.id
  | none =>
    match gangFault mt o with
    | some (code, d, v) =>
      memberTraps { s.mapMat c fun m => m.setArr ts (.fault code d v) with progress := s.progress + 1 } code d v
    | none =>
      let o := match mt.ops.find? fun h => matMatches h o with
        | some h => { h with id := s.nextOp, state := .started, passed := 0 }
        | none => o
      let s := { s.mapMat c fun m =>
          let m := (m.dropHeld (· = o.bank)).setArr ts (.started o.id)
          { m with ops := m.ops ++ [o] } with
        nextOp := s.nextOp + 1, progress := s.progress + 1 }
      memberWaits s o.id

/-- The order of MGANGX's conditions at an arrival (R355). -/
def arrivalFault (s : State) (a : Arrival) : Option Nat :=
  let c := s.team.id.crew
  let mt := (s.crew c).mat
  let ts := gangTeams a.gang
  let live := s.liveTeams c
  if a.gang = 0 then some 2
  else if mt.latch.any fun b => ts.contains b.team && b.status = .waiting && (b.gang ≠ a.gang || b.word ≠ a.word || b.desc ≠ a.desc) then some 3
  else if ts.any fun k => !live.contains k then some 4
  else if live.any fun k => !ts.contains k && gangBanks (s.teamAt (teamKey c k)).eng.gang &&& gangBanks a.gang ≠ 0 then some 5
  else if !(gangBanks a.gang).getLsbD (a.word.extractLsb' 21 2).toNat then some 6
  else none

/-- A gang word: it arrives at the latch, waits there, and goes on when its operation issues (R355, R356). -/
def gangWord (i : Instr) (a : BitVec 6) (s : State) : Host.Outcome State Fault Refusal :=
  runWord i s fun s =>
    let t := s.team
    let c := t.id.crew
    let g : W64 := t.eng.gang.setWidth 64
    match (s.crew c).mat.latch.find? fun b => b.team = t.id.tno with
    | some b =>
      match b.status with
      | .fault code d v => memberTraps s code d v
      | .issued id => memberIssues s id
      | .started id => memberWaits s id
      | .waiting =>
        if (gangTeams b.gang).any fun k => !(s.liveTeams c).contains k then memberTraps s codeMgangx 4 g else .block s .engine
    | none =>
      let me : Arrival := {
        team := t.id.tno, gang := t.eng.gang, word := ((encodeParts i).map Prod.snd).getD 0,
        desc := t.getS a.toNat, status := .waiting }
      match arrivalFault s me with
      | some d => .trap s { code := codeMgangx, detail := d, val := g }
      | none =>
        let s := { s.mapMat c fun m => { m with latch := m.latch ++ [me] } with progress := s.progress + 1 }
        if (gangTeams me.gang).all fun k => (s.crew c).mat.latch.any fun b => b.team = k && b.status = .waiting then gangStart s me
        else .block s .engine

/-- MMA (R355, R356, R361). -/
def execMma (k : BitVec 2) (a : BitVec 6) (x y : BitVec 4) (s : State) : Host.Outcome State Fault Refusal :=
  gangWord (.mma k a x y) a s

/-- MMAC (R355, R356, R361). -/
def execMmac (k : BitVec 2) (a : BitVec 6) (x : BitVec 4) (s : State) : Host.Outcome State Fault Refusal :=
  gangWord (.mmac k a x) a s

/-! ### The array (R357, R358, R361, R362) -/

/-- Leave of a gang operation, by A's type (R35; the 4-bit integers as INT8: log entry 22). -/
def matAmps (t : Nat) : Nat := if t = 7 then 10 else if t = 5 ∨ t = 6 then 12 else 14

/-- The effective class of an operation: the largest of its members' (R357). -/
def matClass (s : State) (c : Nat) (o : MatOp) : Nat :=
  let cl := effClasses s c
  (gangTeams o.gang).foldl (fun m k => max m (((cl.find? fun e => e.1 = k).map Prod.snd).getD 0)) 0

/-- The core whose array a gang operation of a crew runs on: its lowest member's (R17; log entry 107). -/
def opSpot (s : State) (c : Nat) (o : MatOp) : Nat × Nat :=
  let t := s.teamAt (teamKey c ((gangTeams o.gang).headD 0))
  (t.id.die, t.id.core)

/-- The ready operations of a core with their crews, in start order (R357). -/
def readyOps (s : State) (die core : Nat) : List (Nat × MatOp) :=
  let all := s.crews.flatMap fun e =>
    if e.2.state == .run then
      (e.2.mat.ops.filter fun o =>
        o.inProgress && o.steps ≤ o.total && opSpot s e.1 o == (die, core) && !matBlocked s e.1 o.id o.res).map fun o => (e.1, o)
    else []
  let ids := sortAsc (all.map fun x => x.2.id)
  ids.filterMap fun k => all.find? fun x => x.2.id = k

/-- The operation chosen next (R357): one passed over at 64 choices, else the highest class, else the earliest started. -/
def chooseOp (s : State) (l : List (Nat × MatOp)) : Option (Nat × MatOp) :=
  match l.find? fun x => 64 ≤ x.2.passed with
  | some x => some x
  | none => l.foldl (fun b x =>
      match b with
      | none => some x
      | some y => if matClass s y.1 y.2 < matClass s x.1 x.2 then some x else some y) none

/-- Ask for the leave of an operation. -/
def askArray (s : State) (die : Nat) (x : Nat × MatOp) : State :=
  askLeave (s.mapMat x.1 fun m => m.updOp x.2.id fun o => { o with leave := .asked }) die
    { who := .array x.1 x.2.id, amps := matAmps x.2.ta, cls := matClass s x.1 x.2 }

/-- An operation is chosen while the request of a rival still waits (the one that it would have stopped has ended): the
rival's own request stands, another's is withdrawn (R357, R358). -/
def askChosen (s : State) (die ck : Nat) (x : Nat × MatOp) : State :=
  match (s.core ck).rival with
  | none => askArray s die x
  | some y =>
    let s := s.setCore ck { s.core ck with rival := none }
    if y = (x.1, x.2.id) then s
    else askArray ((withdrawLeave s die (.array y.1 y.2)).mapMat y.1 fun m => m.updOp y.2 fun o => { o with leave := .free }) die x

/-- ARRAY_SCHEDULE (R357, R358): with the array free, an operation is chosen, takes it and asks for leave; while one runs, a
ready one of strictly higher class asks for its own. -/
def execArraySchedule (s : State) : Host.Outcome State Fault Refusal :=
  let d := s.site.die
  let ck := coreKey d s.site.core
  let c := s.core ck
  let ready := readyOps s d s.site.core
  match c.array with
  | none =>
    match chooseOp s ready with
    | none => .next s
    | some x =>
      let s := ready.foldl (fun s y => if y.2.id = x.2.id then s
        else s.mapMat y.1 fun m => m.updOp y.2.id fun o => { o with passed := o.passed + 1 }) s
      let s := s.mapMat x.1 fun m => m.updOp x.2.id fun o => { o with passed := 0 }
      let s := if x.2.isC || x.2.issued then s else issueMembers s x.1 x.2.id
      let s := askChosen s d ck x
      .next { s.setCore ck { s.core ck with array := some (x.1, x.2.id) } with progress := s.progress + 1 }
  | some cur =>
    if c.rival.isSome then .next s
    else
      match (s.crew cur.1).mat.ops.find? fun o => o.id = cur.2 with
      | none => .next s
      | some o =>
        if o.leave ≠ .held then .next s
        else
          match chooseOp s (ready.filter fun x => x.2.id ≠ o.id && matClass s cur.1 o < matClass s x.1 x.2) with
          | none => .next s
          | some y =>
            let s := if y.2.isC || y.2.issued then s else issueMembers s y.1 y.2.id
            let s := askArray s d y
            .next { s.setCore ck { s.core ck with rival := some (y.1, y.2.id) } with progress := s.progress + 1 }

/-- The resume points of an operation that stops: those before the block of its next step (R368). -/
def MatOp.stop (o : MatOp) : MatOp :=
  let blk := o.steps * matK o.ta / 32
  { o with
    state := .suspended, leave := .free, work := none,
    marks := match o.work with | some w => if w.blk < blk then w.subs else o.marks | none => o.marks }

/-- The operation on a core's array stops at its step boundary and returns its leave, or withdraws its request (R37, R38,
R358). -/
def stopArray (s : State) (ck : Nat) : State :=
  match (s.core ck).array with
  | none => s
  | some (c, id) =>
    let s := s.setCore ck { s.core ck with array := none }
    match (s.crew c).mat.ops.find? fun o => o.id = id with
    | none => s
    | some o =>
      let s := dropLeave s (ck / 48) (matAmps o.ta) (.array c id) o.leave
      s.mapMat c fun m => m.updOp id MatOp.stop

/-- Leave granted to an operation (R358): another that runs on the array stops, and the operation takes it; it is suspended no longer. -/
def arrayGranted (s : State) (c id : Nat) : State :=
  let x := (((s.crew c).mat.ops.find? fun o => o.id = id).map (opSpot s c)).getD (0, 0)
  let ck := coreKey x.1 x.2
  let s := if (s.core ck).array = some (c, id) then s else stopArray s ck
  let s := s.setCore ck { s.core ck with array := some (c, id), rival := if (s.core ck).rival = some (c, id) then none else (s.core ck).rival }
  s.mapMat c fun m => m.updOp id fun o => { o with leave := .held, state := if o.state = .suspended then .started else o.state }

/-- The operation at work on the site's array, with leave. -/
def siteArray (s : State) : Option (Nat × MatOp) :=
  match (s.core (coreKey s.site.die s.site.core)).array with
  | none => none
  | some (c, id) =>
    match (s.crew c).mat.ops.find? fun o => o.id = id with
    | some o => if o.leave = .held then some (c, o) else none
    | none => none

/-- A byte of a slot run. -/
def Matrix.byte (m : Matrix) (slot off : Nat) : Byte := smGet 0 m.data (slot * 16384 + off)

/-- The code of element `q` of a plain operand (R346). -/
def elemCode (m : Matrix) (slot t q : Nat) : Nat :=
  let b := matBits t
  if b = 4 then (m.byte slot (q / 2)).toNat / 16 ^ (q % 2) % 16
  else leAt (m.byte slot) (q * (b / 8)) (b / 8)

/-- Element index of (r, k) (R346). -/
def elemIdx (r k : Nat) : Nat := k / 32 * 1024 + r * 32 + k % 32

/-- Scale of (r, kb) of a plain operand (R347). -/
def plainScale (m : Matrix) (slot t nkb r kb : Nat) : Nat :=
  (m.byte slot ((1024 * nkb * matBits t / 8 + 127) / 128 * 128 + kb * 32 + r)).toNat

/-- The format of a float type code (R350). -/
def matFmt (t : Nat) : Fmt :=
  match t with
  | 0 => .e2m1 | 1 => .e3m2 | 2 => .e2m3 | 3 => .e4m3 | 4 => .e5m2 | 5 => .bf16 | 6 => .f16 | _ => .f64

/-- The value of an element of a float type. -/
def matVal (t code : Nat) : FVal := unpackF (matFmt t) (code % 2 ^ (matFmt t).bits)

/-- The value of an element of an integer type (R105). -/
def matInt (t code : Nat) : Int :=
  match t with
  | 8 => (BitVec.ofNat 8 code).toInt
  | 10 => (BitVec.ofNat 4 code).toInt
  | _ => code

/-- The code of element `q` of a coded tile's expansion, from the symbols of its block (R117, R122, R364). -/
def codedElem (mt : Matrix) (c : Coded) (w : OpdWork) (q : Nat) : Nat :=
  let eps := kindElems c.kind
  let sym := w.syms.getD (q / eps - 1024 * w.blk / eps) 0
  if c.kind = 0 then
    let b := match smGet none mt.cbType c.cbook with | some t => if t.toNat < 2 then 2 else 1 | none => 1
    leAt (fun k => smGet 0 mt.cb (c.cbook * 2048 + k)) (4 * sym * b + q % 4 * b) b
  else if c.kind = 4 then sym / 16 ^ (q % 2) % 16
  else sym

/-- A product with its scales: none is NaN (R104, R113, R115). -/
def scaledProd (a b : FVal) (sa sb : Nat) : Option FVal :=
  if sa = 255 || sb = 255 then none
  else
    match fMulExact a b with
    | none => none
    | some (.nan _) => none
    | some (.inf n) => some (.inf n)
    | some (.fin n m e) => some (.fin n m (e + sa + sb - 254))

/-- A coded record with the fields of the tile header that stands in its slot run, which the decoder goes by (R121, R364). -/
def Coded.stored (c : Coded) (get : Nat → Byte) : Coded :=
  let h := tileHeader get
  { c with
    entry := BitVec.ofNat 128 (c.entry.toNat % 2 ^ 72 +
      (h.count + h.table * 2 ^ 24 + h.kind * 2 ^ 28 + h.cbook * 2 ^ 32 + if h.sc then 2 ^ 35 else 0) * 2 ^ 72) }

/-- The coded tile of an MMAC, as its slot run has it. -/
def MatOp.tile (o : MatOp) (mt : Matrix) : Option Coded := o.code.map fun c => c.stored (mt.byte o.bslot)

/-- The sum of a step's products (R113 to R115): none is NaN. What is cut off below the adder's window raises no NX; only the rounding into
the accumulator does (DEDUCED, log entry 88). -/
def stepSum (ps : List (Option FVal)) : Option FVal :=
  let infs := ps.filterMap fun p => match p with | some (.inf n) => some n | _ => none
  if ps.any Option.isNone || (infs.contains true && infs.contains false) then none
  else
    match infs with
    | n :: _ => some (.inf n)
    | [] =>
      let fins := ps.filterMap fun p => match p with | some (.fin n m e) => some (n, m, e) | _ => none
      let emax : Option Int := fins.foldl (fun b f =>
        if f.2.1 = 0 then b else
          let t : Int := f.2.2 + Nat.log2 f.2.1
          match b with | none => some t | some x => some (max x t)) none
      let low : Int := emax.getD 0 - 127
      let cut := fins.map fun f => if f.2.2 < low then (f.1, f.2.1 >>> (low - f.2.2).toNat, low) else f
      let sum := cut.foldl (fun a f => dyAdd a.1 a.2 (sgn f.1 f.2.1) f.2.2) ((0 : Int), (0 : Int))
      let neg := if sum.1 = 0 then cut.all fun f => f.1 && f.2.1 = 0 else sum.1 < 0
      some (.fin neg sum.1.natAbs sum.2)

/-- One element after a step of a float operation (R113, R115). -/
def accFloat (acc : W64) (ps : List (Option FVal)) : W64 × Flags :=
  match stepSum ps with
  | none => (BitVec.ofNat 64 Fmt.f64.nanCode, flagNV)
  | some v => let r := fAddV .f64 .rne (unpackF .f64 acc.toNat) v; (BitVec.ofNat 64 r.1, r.2)

/-- Step `s` of an operation over the whole bank (R361). -/
def matStep (mt : Matrix) (o : MatOp) : Matrix × Flags :=
  let k := matK o.ta
  let code := o.tile mt
  let tb := match code with | some c => kindType mt c | none => o.tb
  let k0 := o.steps * k
  let kb := k0 / 32
  let sa := fun (r : Nat) => if o.sca then plainScale mt o.aslot o.ta o.nkb r kb else 127
  let sb := fun (r : Nat) =>
    match code with
    | some c => if c.sc then (mt.byte o.bslot (136 + kb * 32 + r)).toNat else 127
    | none => if o.scb then plainScale mt o.bslot tb o.nkb r kb else 127
  let ca := fun (r j : Nat) => elemCode mt o.aslot o.ta (elemIdx r (k0 + j))
  let cb := fun (r j : Nat) =>
    match code, o.work with
    | some c, some w => codedElem mt c w (elemIdx r (k0 + j))
    | _, _ => elemCode mt o.bslot tb (elemIdx r (k0 + j))
  (List.range 1024).foldl (fun x e =>
    let i := e / 32
    let n := e % 32
    let key := o.bank * 1024 + e
    let acc := smGet 0 mt.acc key
    let r : W64 × Flags :=
      if 8 ≤ o.ta then
        (acc + BitVec.ofInt 64 ((List.range k).foldl (fun s j => s + matInt o.ta (ca i j) * matInt tb (cb n j)) 0), 0)
      else accFloat acc ((List.range k).map fun j => scaledProd (matVal o.ta (ca i j)) (matVal tb (cb n j)) (sa i) (sb n))
    ({ x.1 with acc := smSet 0 x.1.acc key r.1 }, x.2 ||| r.2)) (mt, 0)

/-- A byte that a test takes is poisoned in a slot run (R377); the test has the byte's offset in the run. -/
def Matrix.badByte (m : Matrix) (slot : Nat) (p : Nat → Bool) : Bool :=
  m.poison.any fun e => e.2 && slot * 16384 ≤ e.1 && p (e.1 - slot * 16384)

/-- A step of depth `k` from `k0` on reads the byte at an offset of a plain operand (R346, R347, R361). -/
def stepReads (t nkb : Nat) (sc : Bool) (k0 k off : Nat) : Bool :=
  let d := 1024 * nkb * matBits t / 8
  let q := off * 8 / matBits t
  let col := q / 1024 * 32 + q % 32
  let soff := (d + 127) / 128 * 128 + k0 / 32 * 32
  (off < d && k0 ≤ col && col < k0 + k) || (sc && soff ≤ off && off < soff + 32)

/-- A byte of operand memory or of a codebook that an operation's next step reads is poisoned (R377). -/
def stepPoison (mt : Matrix) (o : MatOp) : Bool :=
  let k := matK o.ta
  let k0 := o.steps * k
  mt.badByte o.aslot (stepReads o.ta o.nkb o.sca k0 k) ||
  (match o.tile mt with
   | none => mt.badByte o.bslot (stepReads o.tb o.nkb o.scb k0 k)
   | some c =>
     (c.sc && mt.badByte o.bslot fun off => 136 + k0 / 32 * 32 ≤ off && off < 168 + k0 / 32 * 32) ||
     (c.kind = 0 && mt.cbPoison.any fun e =>
       let b := match smGet none mt.cbType c.cbook with | some t => if t.toNat < 2 then 2 else 1 | none => 1
       e.2 && e.1 / 2048 = c.cbook && (List.range 32).any fun n => (List.range k).any fun j =>
         let q := elemIdx n (k0 + j)
         let sym := match o.work with | some w => w.syms.getD (q / 4 - 256 * w.blk) 0 | none => 0
         q % 4 = e.1 % 2048 / b % 4 && sym = e.1 % 2048 / (4 * b)))

/-- MATRIX_STEP (R361, R367): the operation on the site's array performs its next step; an MMAC's block must be decoded,
and its last block verified. -/
def execMatrixStep (s : State) : Host.Outcome State Fault Refusal :=
  match siteArray s with
  | none => .next s
  | some (c, o) =>
    let blk := o.steps * matK o.ta / 32
    let go := !o.isC || (match o.work with | some w => w.blk = blk && w.syms ≠ [] && (blk + 1 < o.nkb || o.verified) | none => false)
    if o.total ≤ o.steps || !go then .next s
    else if stepPoison (s.crew c).mat o then .next { (stopArray s (coreKey s.site.die s.site.core)).killCrew c causeMce with progress := s.progress + 1 }
    else
      let r := matStep (s.crew c).mat o
      .next { s.mapMat c fun _ => r.1.updOp o.id fun o => { o with steps := o.steps + 1, flags := o.flags ||| r.2 } with
        progress := s.progress + 1 }

/-- The members of an operation raise its flags; flags it made busy clear (R362). -/
def matEnds (s : State) (c : Nat) (o : MatOp) : State :=
  let s := (gangTeams o.gang).foldl (fun s k => s.updTeam (teamKey c k) fun t => t.raise o.flags) s
  o.busy.foldl (fun s b => s.updTeam (teamKey c b.1) fun t => { t with busy := t.busy &&& ~~~(1#12 <<< b.2) }) s

/-- MATRIX_COMPLETE (R362): the last step is written. -/
def execMatrixComplete (s : State) : Host.Outcome State Fault Refusal :=
  match siteArray s with
  | none => .next s
  | some (c, o) =>
    if o.steps < o.total || (o.isC && !o.verified) then .next s
    else
      let ck := coreKey s.site.die s.site.core
      let s := issueMembers (stopArray s ck) c o.id
      let s := matEnds s c o
      .next { s.mapMat c fun m => { m with ops := m.ops.filter fun x => x.id ≠ o.id } with progress := s.progress + 1 }

/-! ### The operand-port decoder (R364 to R371) -/

/-- A STREAM fault: the operation is held on its bank with its resume points, its leave is returned, and every member takes
the fault at its word with its stream fault record written (R370, R371, R382). -/
def holdOp (s : State) (ck c : Nat) (o : MatOp) (tile : Nat) (f : RansFault) : State :=
  let s := stopArray s ck
  let s := { matEnds s c { o with busy := [] } with progress := s.progress + 1 }
  let w0 : W64 := BitVec.ofNat 64 (tile + (f.sub.getD 0) * 2 ^ 32 + o.steps * 2 ^ 40)
  let w1 : W64 := if f.sub.isNone then 0 else BitVec.ofNat 64 (f.off + f.mark * 2 ^ 32)
  let s := (gangTeams o.gang).foldl (fun s k => s.updTeam (teamKey c k) fun t =>
    { t with eng := { t.eng with stream0 := w0, stream1 := w1 } }) s
  s.mapMat c fun m =>
    (m.updOp o.id fun _ => { o with state := .held, flags := 0, leave := .free, work := none }).setArr (gangTeams o.gang)
      (.fault (if f.len then codeStreamLen else codeStreamSyn) (f.sub.getD 255) (BitVec.ofNat 64 tile))

/-- A symbol that its KIND refuses (R123). -/
def badSym (kind sym : Nat) : Bool := (kind = 5 || kind = 6) && 64 ≤ sym

/-- The first symbol of block `kb` (R364). -/
def firstSym (kind kb : Nat) : Nat := 1024 * kb / kindElems kind

/-- Decode and check the block of the operation's next step (R364 to R368). -/
def decodeBlock (mt : Matrix) (o : MatOp) (c : Coded) : Except (RansFault × List SubPos) MatOp :=
  let get := mt.byte o.bslot
  let fr := freqsOf fun k => smGet 0 mt.tab (c.table * 384 + k)
  let blk := o.steps * matK o.ta / 32
  let h := tileHeader get
  let pre : Option RansFault :=
    if o.work.isSome then none
    else
      match headerFault h (fun k => decide (k < 7)) (fun t => decide (t < 4) && mt.tabs.getLsbD t && freqsOk fr) with
      | some f => some f
      | none => tableFault get c.len h
  match pre with
  | some f => .error (f, o.marks)
  | none =>
    let subs := match o.work with
      | some w => w.subs
      | none => if o.marks = [] then List.replicate 32 {} else o.marks.map SubPos.resume
    let n := match o.work with | some w => w.next | none => 0
    let first := firstSym c.kind blk
    let last := firstSym c.kind (blk + 1)
    match decodeRun fr get c.len c.count (badSym c.kind) (first - n) n subs [] with
    | .error f => .error (f.1, o.marks)
    | .ok (subs1, _) =>
      match decodeRun fr get c.len c.count (badSym c.kind) (last - first) first subs1 [] with
      | .error f => .error (f.1, subs1)
      | .ok (subs2, syms) =>
        .ok { o with marks := subs1, work := some { next := last, subs := subs2, blk := blk, syms := syms.reverse } }

/-- A byte that the decoder reads for the block of the operation's next step, or an entry of its table, is poisoned (R365, R377): the header
and the offset table when it begins, then of each substream the bytes between its positions before and after, a fault's bytes with them. -/
def decodePoison (mt : Matrix) (o : MatOp) (c : Coded) : Bool :=
  let get := mt.byte o.bslot
  let fr := freqsOf fun k => smGet 0 mt.tab (c.table * 384 + k)
  let blk := o.steps * matK o.ta / 32
  let subs := match o.work with
    | some w => w.subs
    | none => if o.marks = [] then List.replicate 32 {} else o.marks.map SubPos.resume
  let n := match o.work with | some w => w.next | none => 0
  let after : List SubPos × Option RansFault :=
    match decodeRun fr get c.len c.count (badSym c.kind) (firstSym c.kind (blk + 1) - n) n subs [] with
    | .error f => (f.2, some f.1)
    | .ok r => (r.1, none)
  let reads : Nat → Nat → Bool := fun k off =>
    let a := subs.getD k {}
    let b := after.1.getD k {}
    let upto := match after.2 with
      | some f => if f.sub = some k then min (f.off + 4) (subOff get k + subLen get c.len k) else subOff get k + b.pos
      | none => subOff get k + b.pos
    subOff get k + (if a.cnt = 0 then 0 else a.pos) ≤ off && off < upto
  (mt.tabPoison.any fun e => e.2 && e.1 / 384 = c.table) ||
  mt.badByte o.bslot fun off => (o.work.isNone && off < 136) || (List.range 32).any fun k => reads k off

/-- MMAC_BLOCK_DECODE (R364, R365): the decoder finishes and checks the block of the next step, or finds a fault in it. -/
def execMmacBlockDecode (s : State) : Host.Outcome State Fault Refusal :=
  match siteArray s with
  | none => .next s
  | some (c, o) =>
    match o.tile (s.crew c).mat with
    | none => .next s
    | some cd =>
      let ck := coreKey s.site.die s.site.core
      let blk := o.steps * matK o.ta / 32
      if o.total ≤ o.steps || (match o.work with | some w => decide (w.blk = blk && w.syms ≠ []) | none => false) then .next s
      else if decodePoison (s.crew c).mat o cd then .next { (stopArray s ck).killCrew c causeMce with progress := s.progress + 1 }
      else
        match decodeBlock (s.crew c).mat o cd with
        | .error (f, marks) => .next (holdOp s ck c { o with marks := marks } cd.tile f)
        | .ok o' => .next { s.mapMat c fun m => m.updOp o.id fun _ => o' with progress := s.progress + 1 }

/-- MMAC_VERIFY (R369, R370): the ends of the substreams are checked; the MMAC issues in every member, or is held. -/
def execMmacVerify (s : State) : Host.Outcome State Fault Refusal :=
  match siteArray s with
  | none => .next s
  | some (c, o) =>
    match o.tile (s.crew c).mat, o.work with
    | some cd, some w =>
      if o.verified || w.blk + 1 < o.nkb || w.syms = [] then .next s
      else
        match endFault ((s.crew c).mat.byte o.bslot) cd.len cd.count w.subs with
        | some f => .next (holdOp s (coreKey s.site.die s.site.core) c o cd.tile f)
        | none =>
          .next (issueMembers (s.mapMat c fun m => m.updOp o.id fun o => { o with verified := true }) c o.id)
    | _, _ => .next s

/-! ### Loads (R373 to R377) -/

/-- The pages of a range of bytes. -/
def rangePages (va n : Nat) : List Nat :=
  if n = 0 then [] else (List.range ((va + n - 1) / 65536 - va / 65536 + 1)).map (va / 65536 + ·)

/-- An engine's access to a range of local addresses for the team (R252): ADDR, ALIGN, then its pages. -/
def engineRange (s : State) (va : W64) (n align : Nat) (a : Access) (f : State → List (Nat × Nat) → Res) : Res :=
  if vaClass va ≠ .localVa then matTrap s codeAddr (addrDetail va) va
  else if 2 ^ 48 < va.toNat + n then matTrap s codeAddr 3 va
  else if va.toNat % align ≠ 0 then matTrap s codeAlign align va
  else
    match transPages s a (rangePages va.toNat n) with
    | (s, .error (p, x)) => let y := wholeFault s p x; matTrap y.1 y.2.code y.2.detail y.2.val
    | (s, .ok pages) => f s pages

/-- The slots of a run are plain, but for a first one that is coded (R373, R374). -/
def Matrix.runMarked (m : Matrix) (slot len : Nat) (code : Option Coded) : Matrix :=
  { m with
    coded := smSet none ((List.range ((len + 16383) / 16384)).foldl (fun c k => smSet none c (slot + k) none) m.coded) slot code }

/-- What a load makes of its slots or its codebook when it issues, which the checks of later words read (R360, R373, R374, R376). -/
def Matrix.marked (m : Matrix) (l : MatLoad) : Matrix :=
  match l.cbType with
  | some ct => { m with cbType := smSet none m.cbType l.slot (some ct) }
  | none => m.runMarked l.slot l.len l.code

/-- A load issues at its place in start order. -/
def startLoad (s : State) (stamp : Nat) (l : MatLoad) : State :=
  (startMat s stamp (.mload l)).mapMat s.team.id.crew fun m => m.marked l

/-- MLOAD (R373). -/
def execMload (a b : BitVec 6) (q : BitVec 1) (sc : BitVec 3) (s : State) : Host.Outcome State Fault Refusal :=
  runWord (.mload a b q sc) s fun s =>
    let t := s.team
    let v := t.getS b.toNat
    let slot := (v.extractLsb' 0 6).toNat
    let n := (v.extractLsb' 8 13).toNat
    let va := t.getS64 a.toNat
    if n = 0 || 6144 < n || v &&& ~~~0x1FFF3F#32 ≠ 0 then matTrap s codeMshape 8 (v.setWidth 64)
    else
      match (s.crew t.id.crew).mat.missing slot (n * 128) with
      | some k => matTrap s codeMslot 0 (BitVec.ofNat 64 k)
      | none =>
        engineRange s va (n * 128) 128 .read fun s pages =>
          matGateAt s (0, runBits slot (n * 128)) fun k s => ok (startLoad s k { slot := slot, cbType := none, len := n * 128, va := va.toNat, pages := pages, code := none, acq := q = 1, scope := sc })

/-- Bytes that a word of the team reads through pages, unless one is poisoned. -/
def readChecked (s : State) (pages : List (Nat × Nat)) (va n : Nat) : Option (List Byte) :=
  if pagesPoison s s.team.id.die s.team.id.core pages va n then none
  else some (readPages s s.team.id.die s.team.id.core pages va n)

/-- The line of an address, as XVAL of MCE.DATA. -/
def lineOf (va : W64) : W64 := va &&& ~~~(0x7F#64)

/-- MLOADC (R374, R127). -/
def execMloadc (a b : BitVec 6) (q : BitVec 1) (sc : BitVec 3) (s : State) : Host.Outcome State Fault Refusal :=
  runWord (.mloadc a b q sc) s fun s =>
    let t := s.team
    let v := t.getS b.toNat
    let slot := (v.extractLsb' 0 6).toNat
    let tile := v.toNat / 256
    let ea := t.getS64 a.toNat + BitVec.ofNat 64 (16 * tile)
    let syn : State → Res := fun s => matTrap s codeStreamSyn 255 (BitVec.ofNat 64 tile)
    if v.extractLsb' 6 2 ≠ 0 then matTrap s codeMshape 8 (v.setWidth 64)
    else if memBusy s t.key then .block s .fence
    else
      let s := if q = 1 then s.acquireTeam sc.toNat else s
      engineRange s ea 16 16 .read fun s pg =>
        match readChecked s pg ea.toNat 16 with
        | none => matTrap s codeMceData 0 (lineOf ea)
        | some eb =>
          let e : BitVec 128 := BitVec.ofNat 128 (leNat eb)
          let cd : Coded := { entry := e, tile := tile }
          let off := (e.extractLsb' 0 48).toNat
          if e.extractLsb' 108 20 ≠ 0 || off % 8 ≠ 0 || cd.len < 136 then syn s
          else
            let ha := t.getS64 (a.toNat + 2) + BitVec.ofNat 64 off
            engineRange s ha 8 8 .read fun s ph =>
              match readChecked s ph ha.toNat 8 with
              | none => matTrap s codeMceData 0 (lineOf ha)
              | some hb =>
                let h := tileHeader fun k => hb.getD k 0
                if (headerFault h (fun k => decide (k < 7)) (fun t => decide (t < 4))).isSome then syn s
                else if h.sc != cd.sc || h.cbook ≠ cd.cbook || h.kind ≠ cd.kind || h.table ≠ cd.table || h.count ≠ cd.count then syn s
                else
                  match (s.crew t.id.crew).mat.missing slot cd.len with
                  | some k => matTrap s codeMslot 0 (BitVec.ofNat 64 k)
                  | none =>
                    engineRange s ha cd.len 1 .read fun s pages =>
                      matGateAt s (0, runBits slot cd.len) fun k s => ok (startLoad s k { slot := slot, cbType := none, len := cd.len, va := ha.toNat, pages := pages, code := some cd, acq := q = 1, scope := sc })

/-- MTABLE (R375). -/
def execMtable (a : BitVec 6) (i : BitVec 3) (q : BitVec 1) (sc : BitVec 3) (s : State) :
    Host.Outcome State Fault Refusal :=
  runWord (.mtable a i q sc) s fun s =>
    let t := s.team
    let va := t.getS64 a.toNat
    if memBusy s t.key then .block s .fence
    else engineRange s va 384 128 .read fun s pages =>
      matGate s (0, tabBit i.toNat) fun s =>
        let s := if q = 1 then s.acquireTeam sc.toNat else s
        let bs := readPages s t.id.die t.id.core pages va.toNat 384
        if !freqsOk (freqsOf fun k => bs.getD k 0) then matTrap s codeStreamSyn 255 (i.setWidth 64)
        else
          let ks := List.range 384
          ok (s.mapMat t.id.crew fun m =>
            { m with
              tabs := m.tabs ||| (1#4 <<< i.toNat),
              tab := smSetAll 0 m.tab (ks.map fun k => (i.toNat * 384 + k, bs.getD k 0)),
              tabPoison := smSetAll false m.tabPoison (ks.map fun k => (i.toNat * 384 + k, plainPoison s t.id.die t.id.core (pagePa pages (va.toNat + k)) 1)) })

/-- MCBOOK (R376). -/
def execMcbook (a : BitVec 6) (i : BitVec 3) (ct : BitVec 2) (q : BitVec 1) (sc : BitVec 3) (s : State) :
    Host.Outcome State Fault Refusal :=
  runWord (.mcbook a i ct q sc) s fun s =>
    let t := s.team
    let va := t.getS64 a.toNat
    let n := if ct.toNat < 2 then 2048 else 1024
    if !(s.crew t.id.crew).mat.cbs.getLsbD i.toNat then matTrap s codeMslot 2 (i.setWidth 64)
    else engineRange s va n 128 .read fun s pages =>
      matGateAt s (0, cbBit i.toNat) fun k s =>
        ok (startLoad s k { slot := i.toNat, cbType := some ct, len := n, va := va.toNat, pages := pages, code := none, acq := q = 1, scope := sc })

/-- The bytes of a load come into a slot run or into a codebook, after a 1 KiB one of which zero bytes follow (R373, R374, R376, R377, R387). -/
def Matrix.loaded (m : Matrix) (l : MatLoad) (bs : List (Byte × Bool)) : Matrix :=
  let ks := (List.range bs.length).zip bs
  match l.cbType with
  | some _ =>
    { m with
      cb := smSetAll 0 (smDrop (fun k => decide (k / 2048 = l.slot)) m.cb) (ks.map fun e => (l.slot * 2048 + e.1, e.2.1)),
      cbPoison := smSetAll false (smDrop (fun k => decide (k / 2048 = l.slot)) m.cbPoison) (ks.map fun e => (l.slot * 2048 + e.1, e.2.2)) }
  | none =>
    { m with
      data := smSetAll 0 m.data (ks.map fun e => (l.slot * 16384 + e.1, e.2.1)),
      poison := smSetAll false m.poison (ks.map fun e => (l.slot * 16384 + e.1, e.2.2)) }

/-- MLOAD_COMPLETE (R373, R374, R376): the load that the site names acquires, copies and completes. -/
def execMloadComplete (s : State) : Host.Outcome State Fault Refusal :=
  siteOp s fun s o =>
    match o.kind with
    | .mload l =>
      if !mayEngine s o then s
      else
        let s := if l.acq then s.acquireFor o.team l.scope.toNat else s
        let t := s.teamAt o.team
        let bs := (List.range l.len).map fun j =>
          let pa := pagePa l.pages (l.va + j)
          (plainByte s t.id.die t.id.core pa, plainPoison s t.id.die t.id.core pa 1)
        finishOp (s.mapMat o.crew fun m => m.loaded l bs) o
    | _ => s

/-! ### Bank words (R378 to R380) -/

/-- The claim check of a word that names a bank (R342). -/
def withBank (s : State) (k : BitVec 2) (f : State → Res) : Res :=
  if (s.crew s.team.id.crew).mat.banks.getLsbD k.toNat then f s else matTrap s codeMslot 1 (k.setWidth 64)

/-- MZERO (R378, R371). -/
def execMzero (k : BitVec 2) (s : State) : Host.Outcome State Fault Refusal :=
  runWord (.mzero k) s fun s =>
    withBank s k fun s => matGate s (0, bankBit k.toNat) fun s => ok (s.mapMat s.team.id.crew fun m =>
      (m.dropHeld (· = k.toNat)).clearRange 1 (k.toNat, 1))

/-- An INT64 saturated to 32 bits, with OF (R379, R380). -/
def satI32 (v : W64) : Nat × Flags :=
  let x := v.toInt
  if 2 ^ 31 - 1 < x then (2 ^ 31 - 1, flagOF) else if x < -(2 ^ 31) then (2 ^ 31, flagOF) else (v.toNat % 2 ^ 32, 0)

/-- MRD (R379). -/
def execMrd (k v : BitVec 2) (d : BitVec 7) (a : BitVec 6) (s : State) : Host.Outcome State Fault Refusal :=
  runWord (.mrd k v d a) s fun s =>
    withBank s k fun s => matGate s (bankBit k.toNat, 0) fun s =>
      let mt := (s.crew s.team.id.crew).mat
      let row := (s.team.getS a.toNat).toNat
      ok (s.mapTeam fun t => t.vWrite d.toNat (if v = 0 then 2 else 1) fun l =>
        let i := row + l / 32
        if 31 < i then (0, 0)
        else
          let x := smGet 0 mt.acc (k.toNat * 1024 + i * 32 + l % 32)
          if v = 0 then (x.toNat, 0) else if v = 1 then fCvtV .f32 .rne 0 (unpackF .f64 x.toNat) else satI32 x)

/-- MWR (R111, R379, R371): a signalling NaN that it widens sets NV. -/
def execMwr (k v : BitVec 2) (d : BitVec 7) (a : BitVec 6) (s : State) : Host.Outcome State Fault Refusal :=
  runWord (.mwr k v d a) s fun s =>
    withBank s k fun s => matGate s (0, bankBit k.toNat) fun s =>
      let t := s.team
      let row := (t.getS a.toNat).toNat
      let put : SMap W64 × Flags → Nat → SMap W64 × Flags := fun acc l =>
        let i := row + l / 32
        if 31 < i then acc
        else
          let x : Nat × Flags := if v = 0 then ((t.getV64 d.toNat l).toNat, 0)
            else if v = 1 then fCvtV .f64 .rne 0 (unpackF .f32 (t.getV d.toNat l).toNat)
            else (((t.getV d.toNat l).signExtend 64).toNat, 0)
          (smSet 0 acc.1 (k.toNat * 1024 + i * 32 + l % 32) (BitVec.ofNat 64 x.1), acc.2 ||| x.2)
      let m := (s.crew t.id.crew).mat.dropHeld (· = k.toNat)
      let r := t.lanes.foldl put (m.acc, 0)
      ok ((s.mapMat t.id.crew fun _ => { m with acc := r.1 }).mapTeam fun t => t.raise r.2)

/-- Bytes of an element that MST stores (R380). -/
def mstSize (t : BitVec 3) : Nat := if t = 0 then 8 else if t = 1 || t = 6 then 4 else if t = 2 || t = 3 then 2 else 1

/-- The address of element `e` (row * 32 + column) of MST (R380). -/
def mstAddr (base : W64) (stride : Int) (z e : Nat) : W64 :=
  base + BitVec.ofInt 64 ((e / 32 : Nat) * stride) + BitVec.ofNat 64 (e % 32 * z)

/-- MST (R380). -/
def execMst (a b : BitVec 6) (k : BitVec 2) (tc m : BitVec 3) (l : BitVec 1) (sc : BitVec 3) (s : State) :
    Host.Outcome State Fault Refusal :=
  runWord (.mst a b k tc m l sc) s fun s =>
    let t := s.team
    let base := t.getS64 a.toNat
    let stride := (t.getS b.toNat).toInt
    let z := mstSize tc
    let addrs := (List.range 1024).map (mstAddr base stride z)
    withBank s k fun s =>
      if base.toNat % z ≠ 0 || stride % z ≠ 0 then matTrap s codeAlign z base
      else
        match addrs.find? fun x => vaClass x ≠ .localVa with
        | some x => matTrap s codeAddr (addrDetail x) x
        | none =>
          match transPages s .write (sortAsc (distinct (addrs.map fun x => x.toNat / 65536))) with
          | (s, .error (p, x)) => let y := wholeFault s p x; matTrap y.1 y.2.code y.2.detail y.2.val
          | (s, .ok pages) =>
            matGateAt s (bankBit k.toNat, 0) fun stamp s =>
              ok (startMat s stamp (.mst { bank := k.toNat, base := base, stride := stride, t := tc, rm := m, rel := l = 1, scope := sc, seed := t.getS64 56, counter := t.getS64 58, pages := pages }))

/-- The bytes of one element of MST, with its flags (R380). -/
def mstElem (m : MatStore) (e : Nat) (x : W64) : Nat × Flags :=
  if m.t = 0 then (x.toNat, 0)
  else if m.t = 6 then satI32 x
  else
    let f : Fmt := if m.t = 1 then .f32 else if m.t = 2 then .bf16 else if m.t = 3 then .f16 else if m.t = 4 then .e4m3 else .e5m2
    fCvtV f ((Rm.ofField m.rm.toNat).getD .rne) (srRnd m.seed m.counter e) (unpackF .f64 x.toNat)

/-- MST_COMPLETE (R380): the bank's elements are stored in order, the release follows, the flags are set. -/
def execMstComplete (s : State) : Host.Outcome State Fault Refusal :=
  siteOp s fun s o =>
    match o.kind with
    | .mst m =>
      let y := if m.rel then relReady s o.team m.scope.toNat else (s, true)
      let s := y.1
      if !mayEngine s o || !y.2 then s
      else
        let cr := s.crew o.crew
        let t := s.teamAt o.team
        let z := mstSize m.t
        let r := (List.range 1024).foldl (fun (x : State × Flags) e =>
          let v := mstElem m e (smGet 0 cr.mat.acc (m.bank * 1024 + e))
          (storeBytes x.1 t.id.die t.id.core (pagePa m.pages (mstAddr m.base m.stride z e).toNat) (leBytes v.1 z), x.2 ||| v.2)) (s, 0)
        let s := if m.rel then r.1.releaseFor o.team m.scope.toNat else r.1
        finishOp (s.updTeam o.team fun t => t.raise r.2) o
    | _ => s

/-! ### Skew (R381) -/

/-- A finite magnitude `m * 2 ^ e` is at most `M * 2 ^ x`. -/
def magLe (m : Nat) (e : Int) (mm : Nat) (x : Int) : Bool :=
  if e ≤ x then m ≤ mm * 2 ^ (x - e).toNat else m * 2 ^ (e - x).toNat ≤ mm

/-- The formats of MTRQ's type codes: E4M3 in its saturating form (R381). -/
def trqFmt (t : Nat) : Fmt := match t with | 0 => .e2m1 | 1 => .e3m2 | 2 => .e2m3 | 3 => .e4m3s | _ => .e5m2

/-- The largest finite value of a format as a dyadic (R100). -/
def fmtMax (f : Fmt) : Nat × Int := match unpackF f f.maxCode with | .fin _ m e => (m, e) | _ => (0, 0)

/-- The scale code of a run whose largest magnitude is given (R381). -/
def trqCode (f : Fmt) (m : Nat) (e : Int) : Nat :=
  if m = 0 then 127
  else ((List.range 255).find? fun (c : Nat) => magLe m e (fmtMax f).1 ((fmtMax f).2 + (c : Int) - 127)).getD 254

/-- The larger of two magnitudes; none is infinite. -/
def magMax (a : Option (Nat × Int)) (v : FVal) : Option (Nat × Int) :=
  match a, v with
  | none, _ => none
  | some x, .fin _ m e => if magLe m e x.1 x.2 then some x else some (m, e)
  | some _, .inf _ => none
  | some x, .nan _ => some x

/-- One run of 32 destination elements: its scale and codes with the flags (R381). A NaN among the sources leaves the scale,
and a NaN into a format without one its element, to free values (log entry 23). -/
def trqRun (f : Fmt) (rm : Rm) (seed counter : W64) (fresh : Nat) (vs : List (Nat × Option FVal)) : Nat × List Nat × Flags :=
  if vs.any fun v => v.2.isNone then (255, vs.map fun _ => 0, flagNV)
  else
    let vals := vs.filterMap fun v => v.2.map fun x => (v.1, x)
    let code := if vals.any fun v => v.2.isNan then (Config.requantScale fresh).toNat % 255
      else match vals.foldl (fun a v => magMax a v.2) (some (0, 0)) with | some (m, e) => trqCode f m e | none => 254
    let out := vals.map fun v =>
      let rnd := srRnd seed (counter + BitVec.ofNat 64 (v.1 / 2 ^ 20)) (v.1 % 2 ^ 20)
      match v.2 with
      | .nan sg => (if f.hasNan then f.nanCode else (Config.requantNan (fresh * 65536 + v.1)).toNat % 2 ^ f.bits, flagIf sg flagNV)
      | .inf n => fCvtV f rm rnd (.inf n)
      | .fin n m e => fCvtV f rm rnd (.fin n m (e + 127 - code))
    (code, out.map Prod.fst, out.foldl (fun a x => a ||| x.2) 0)

/-- A source element with its scale; none when the scale is NaN. -/
def trqSrc (mt : Matrix) (q : MatTrq) (r k : Nat) : Option FVal :=
  let st := (q.desc.extractLsb' 22 3).toNat
  let src := (q.desc.extractLsb' 0 6).toNat
  let nkb := (q.desc.extractLsb' 16 6).toNat + 1
  let v := matVal st (elemCode mt src st (elemIdx r k))
  if q.desc.getLsbD 28 then
    let sc := plainScale mt src st nkb r (k / 32)
    if sc = 255 then none else some (match v with | .fin n m e => .fin n m (e + sc - 127) | v => v)
  else some v

/-- Put the code of element `e` of a plain operand (R346). -/
def Matrix.putElem (m : Matrix) (slot t e code : Nat) : Matrix :=
  let base := slot * 16384
  if t = 0 then
    let k := base + e / 2
    let old := (smGet 0 m.data k).toNat
    let b := if e % 2 = 0 then old / 16 * 16 + code else old % 16 + code * 16
    { m with data := smSet 0 m.data k (BitVec.ofNat 8 b), poison := smSet false m.poison k false }
  else { m with data := smSet 0 m.data (base + e) (BitVec.ofNat 8 code), poison := smSet false m.poison (base + e) false }

/-- The whole transposition (R381). -/
def trqAll (mt : Matrix) (q : MatTrq) (fresh : Nat) : Matrix × Flags :=
  let nkb := (q.desc.extractLsb' 16 6).toNat + 1
  let dt := (q.desc.extractLsb' 25 3).toNat
  let dst := (q.desc.extractLsb' 8 6).toNat
  let rm : Rm := if q.rm = 4 then .sr else .rne
  let soff := (1024 * nkb * (if dt = 0 then 4 else 8) / 8 + 127) / 128 * 128
  (List.range (nkb * 32)).foldl (fun x n =>
    let kb := n / 32
    let r := n % 32
    let run := trqRun (trqFmt dt) rm q.seed q.counter (fresh + n)
      ((List.range 32).map fun j => (elemIdx r (32 * kb + j), trqSrc mt q j (32 * kb + r)))
    let m := ((List.range 32).zip run.2.1).foldl (fun m e => m.putElem dst dt (elemIdx r (32 * kb + e.1)) e.2) x.1
    let k := dst * 16384 + soff + kb * 32 + r
    ({ m with data := smSet 0 m.data k (BitVec.ofNat 8 run.1), poison := smSet false m.poison k false }, x.2 ||| run.2.2)) (mt, 0)

/-- MTRQ (R381). -/
def execMtrq (a : BitVec 6) (m : BitVec 3) (s : State) : Host.Outcome State Fault Refusal :=
  runWord (.mtrq a m) s fun s =>
    let t := s.team
    let v := t.getS a.toNat
    let mt := (s.crew t.id.crew).mat
    let src := (v.extractLsb' 0 6).toNat
    let dst := (v.extractLsb' 8 6).toNat
    let nkb := (v.extractLsb' 16 6).toNat + 1
    let st := (v.extractLsb' 22 3).toNat
    let dt := (v.extractLsb' 25 3).toNat
    let shape : Nat → Res := fun d => matTrap s codeMshape d (v.setWidth 64)
    let ls := operandLen st nkb (v.getLsbD 28)
    let ld := operandLen dt nkb true
    if 5 ≤ st || 5 ≤ dt || v.extractLsb' 6 2 ≠ 0 || v.extractLsb' 14 2 ≠ 0 || v.extractLsb' 29 3 ≠ 0 then shape 7
    else if !mt.hasSlot src then matTrap s codeMslot 0 (BitVec.ofNat 64 src)
    else if !mt.hasSlot dst then matTrap s codeMslot 0 (BitVec.ofNat 64 dst)
    else if !mt.hasRun src ls || !mt.hasRun dst ld then shape 8
    else if (smGet none mt.coded src).isSome then shape 4
    else if runBits src ls &&& runBits dst ld ≠ 0 then shape 6
    else
      let q : MatTrq := { desc := v, rm := m, seed := t.getS64 56, counter := t.getS64 58 }
      matGateAt s (OpKind.mtrq q).matRes fun k s =>
        ok ((startMat s k (.mtrq q)).mapMat t.id.crew fun m => m.runMarked dst ld none)

/-- MTRQ_COMPLETE (R381): the transposition that the site names writes its destination run; a poisoned source byte ends the
crew (R377). -/
def execMtrqComplete (s : State) : Host.Outcome State Fault Refusal :=
  siteOp s fun s o =>
    match o.kind with
    | .mtrq q =>
      let mt := (s.crew o.crew).mat
      let src := (q.desc.extractLsb' 0 6).toNat
      let nkb := (q.desc.extractLsb' 16 6).toNat + 1
      let d := 1024 * nkb * matBits (q.desc.extractLsb' 22 3).toNat / 8
      let soff := (d + 127) / 128 * 128
      if mt.badByte src fun off => off < d || (q.desc.getLsbD 28 && soff ≤ off && off < soff + 32 * nkb) then
        (finishOp s o).killCrew o.crew causeMce
      else
        let r := trqAll mt q s.fresh
        let s := { s.mapMat o.crew fun _ => r.1 with fresh := s.fresh + 2048 }
        finishOp (s.updTeam o.team fun t => t.raise r.2) o
    | _ => s

/-! ### Status and fence (R382, R383) -/

/-- A bit mask of the banks with an operation in some state. -/
def opBanks (mt : Matrix) (p : MatOp → Bool) : Nat :=
  (List.range 4).foldl (fun n b => if mt.ops.any fun o => p o && o.bank = b then n + 2 ^ b else n) 0

/-- MSTAT (R382). -/
def execMstat (d a : BitVec 6) (s : State) : Host.Outcome State Fault Refusal :=
  runWord (.mstat d a) s fun s =>
    let t := s.team
    let mt := (s.crew t.id.crew).mat
    let loaded := (List.range 8).foldl (fun n k => if (smGet none mt.cbType k).isSome then n + 2 ^ k else n) 0
    let v : W64 := match (t.getS a.toNat).toNat with
      | 0 => mt.slots.setWidth 64
      | 1 => BitVec.ofNat 64 (mt.banks.toNat + mt.cbs.toNat * 2 ^ 8 + mt.tabs.toNat * 2 ^ 16 + loaded * 2 ^ 24 + t.eng.gang.toNat * 2 ^ 32)
      | 2 => t.eng.stream0
      | 3 => t.eng.stream1
      | 4 => BitVec.ofNat 64 (opBanks mt (fun o => o.state == .held) + 256 * opBanks mt (fun o => o.state == .suspended || o.state == .restored))
      | _ => 0
    ok (s.mapTeam fun t => t.setS64 d.toNat v)

/-- MFENCE (R383). -/
def execMfence (s : State) : Host.Outcome State Fault Refusal :=
  runWord .mfence s fun s =>
    let t := s.team
    let mine : Op → Bool := fun o => o.team = t.key && (match o.kind with | .mload _ => true | .mst _ => true | .mtrq _ => true | _ => false)
    if s.ops.any mine || gangBusy s t.id.crew t.id.tno then .block s .fence else ok s

end Sys2Proof.Machine
end

