-- ==== Sys2Proof/Machine/RayMath.lean ====
section
/-! DEFINITION. The ray engine's intersection tests, exact where the spec has them exact (spec/11_ray_engine.md R404,
R406 to R410). -/

namespace Sys2Proof.Machine

/-! ### Exact dyadic numbers and their quotients -/

/-- The number `m * 2 ^ e` as the pair (m, e). -/
abbrev Dy := Int × Int

/-- Product. -/
def dyMul (a b : Dy) : Dy := (a.1 * b.1, a.2 + b.2)

/-- Sum. -/
def dyPlus (a b : Dy) : Dy := dyAdd a.1 a.2 b.1 b.2

/-- Negation. -/
def dyNeg (a : Dy) : Dy := (-a.1, a.2)

/-- Difference. -/
def dySub (a b : Dy) : Dy := dyPlus a (dyNeg b)

/-- `a` is at most `b`. -/
def dyLe (a b : Dy) : Bool := decide ((dySub a b).1 ≤ 0)

/-- A finite value exactly. -/
def FVal.dy : FVal → Option Dy
  | .fin n m e => some (sgn n m, e)
  | _ => none

/-- `a / b` rounded to a code of `f`, `b` not zero; an exact zero is +0. -/
def quotCode (f : Fmt) (rm : Rm) (a b : Dy) : Nat :=
  let m := a.1.natAbs
  let n := b.1.natAbs
  if m = 0 then 0
  else
    let k := 66 + Nat.log2 n
    (roundMag f rm 0 (decide (a.1 < 0) != decide (b.1 < 0)) ((m <<< k) / n) (a.2 - b.2 - k) ((m <<< k) % n != 0)).1

/-- RND of R407: a finite value rounded to nearest, or none when the result is not finite. -/
def rndDy (f : Fmt) (a : Dy) : Option Dy := (unpackF f (roundInt f .rne 0 false a.1 a.2).1).dy

/-- RND of a quotient. -/
def rndQuot (f : Fmt) (a b : Dy) : Option Dy := (unpackF f (quotCode f .rne a b)).dy

/-- A number of the box test: an infinity or a quotient of dyadics with positive denominator. -/
inductive RX
  | inf (neg : Bool)
  | fin (num den : Dy)
  deriving DecidableEq, Repr

/-- A quotient with its denominator made positive. -/
def rxQuot (a b : Dy) : RX := if b.1 < 0 then .fin (dyNeg a) (dyNeg b) else .fin a b

/-- A value that is no NaN. -/
def FVal.rx : FVal → Option RX
  | .nan _ => none
  | .inf n => some (.inf n)
  | .fin n m e => some (.fin (sgn n m, e) (1, 0))

/-- `a` is at most `b`. -/
def rxLe : RX → RX → Bool
  | .inf n, .inf n' => n || !n'
  | .inf n, .fin _ _ => n
  | .fin _ _, .inf n => !n
  | .fin a b, .fin c d => dyLe (dyMul a d) (dyMul c b)

/-- The smaller. -/
def rxMin (a b : RX) : RX := if rxLe a b then a else b

/-- The larger. -/
def rxMax (a b : RX) : RX := if rxLe a b then b else a

/-- Rounded down or up to binary32 (R406). -/
def rxRound (rm : Rm) : RX → RX
  | .inf n => .inf n
  | .fin a b => ((unpackF .f32 (quotCode .f32 rm a b)).rx).getD (.inf false)

/-! ### A ray's numbers -/

/-- What the tests read of a ray: origin, direction, TMIN and the current TMAX, as binary64 codes (R402). -/
structure RaySeg where
  org : List W64
  dir : List W64
  tmin : W64
  tmax : W64
  deriving DecidableEq, Repr

/-- A binary64 code's value. -/
def f64Val (c : W64) : FVal := unpackF .f64 c.toNat

/-- Component `a` of a list of binary64 codes, exactly. -/
def compDy (l : List W64) (a : Nat) : Dy := ((f64Val (l.getD a 0)).dy).getD (0, 0)

/-! ### The box test (R406) -/

/-- (bound − ORG) ÷ DIR. -/
def boxQuot (b : RX) (o d : Dy) : RX :=
  match b with
  | .inf n => .inf (if d.1 < 0 then !n else n)
  | .fin x _ => rxQuot (dySub x o) d

/-- One axis of the box test: the bounds of t so far, narrowed; none when the test fails. -/
def boxAxis (r : RaySeg) (lo hi : RX) (a : Nat) : Option (RX × RX) → Option (RX × RX)
  | none => none
  | some (l, h) =>
    let o := compDy r.org a
    let d := compDy r.dir a
    if d.1 = 0 then if rxLe lo (.fin o (1, 0)) && rxLe (.fin o (1, 0)) hi then some (l, h) else none
    else
      let e0 := boxQuot lo o d
      let e1 := boxQuot hi o d
      some (rxMax l (rxRound .rdn (rxMin e0 e1)), rxMin h (rxRound .rup (rxMax e0 e1)))

/-- The box test over six binary32 codes, with the final lo and hi (R396, R406). -/
def boxTest (r : RaySeg) (b : List Nat) : Option (RX × RX) :=
  match (b.map fun c => (unpackF .f32 c).rx) with
  | [some x0, some y0, some z0, some x1, some y1, some z1] =>
    if !(rxLe x0 x1 && rxLe y0 y1 && rxLe z0 z1) then none
    else
      match (f64Val r.tmin).rx, (f64Val r.tmax).rx with
      | some t0, some t1 =>
        match boxAxis r z0 z1 2 (boxAxis r y0 y1 1 (boxAxis r x0 x1 0 (some (rxRound .rdn t0, rxRound .rup t1)))) with
        | some (lo, hi) => if rxLe lo hi then some (lo, hi) else none
        | none => none
      | _, _ => none
  | _ => none

/-! ### Triangles (R407) -/

/-- A vertex sheared: its two coordinates in the plane and its depth. -/
def shear (f : Fmt) (o : List Dy) (kx ky kz : Nat) (sx sy sz : Dy) (v : List Dy) : Option (Dy × Dy × Dy) := do
  let wx ← rndDy f (dySub (v.getD kx (0, 0)) (o.getD kx (0, 0)))
  let wy ← rndDy f (dySub (v.getD ky (0, 0)) (o.getD ky (0, 0)))
  let wz ← rndDy f (dySub (v.getD kz (0, 0)) (o.getD kz (0, 0)))
  let x ← rndDy f (dySub wx (dyMul sx wz))
  let y ← rndDy f (dySub wy (dyMul sy wz))
  let z ← rndDy f (dyMul sz wz)
  some (x, y, z)

/-- The sign given to an edge P→Q of value `e`: ties go by the edge's direction. -/
def edgeSign (e : Dy) (p q : Dy × Dy × Dy) : Bool :=
  if e.1 ≠ 0 then 0 < e.1
  else
    let dy := dySub q.2.1 p.2.1
    0 < dy.1 || (dy.1 = 0 && 0 < (dySub q.1 p.1).1)

/-- RND(num ÷ den) as a binary64 code: none when not finite; an exact zero takes a sign that the spec leaves open. -/
def quotOut (f : Fmt) (which : Nat) (ops : List Int) (num den : Dy) : Option W64 :=
  let c := if num.1 = 0 then f.signCode (Config.rayZeroSign which ops) else quotCode f .rne num den
  match unpackF f c with
  | .fin n m e => some (BitVec.ofNat 64 (fCvtV .f64 .rne 0 (.fin n m e)).1)
  | _ => none

/-- The axis of the largest magnitude, the lowest on ties. -/
def mainAxis (d : List Dy) : Nat :=
  let ab : Nat → Dy := fun a => ((((d.getD a (0, 0)).1.natAbs : Nat) : Int), (d.getD a (0, 0)).2)
  let k := if dyLe (ab 1) (ab 0) then 0 else 1
  if dyLe (ab 2) (ab k) then k else 2

/-- The triangle test in format `f`: t, u, v as binary64 codes (R407). -/
def triTest (f : Fmt) (r : RaySeg) (v0 v1 v2 : List FVal) : Option (W64 × W64 × W64) := do
  let a0 ← v0.mapM FVal.dy
  let b0 ← v1.mapM FVal.dy
  let c0 ← v2.mapM FVal.dy
  let o ← [0, 1, 2].mapM fun k => rndDy f (compDy r.org k)
  let d ← [0, 1, 2].mapM fun k => rndDy f (compDy r.dir k)
  let kz := mainAxis d
  let dz := d.getD kz (0, 0)
  if dz.1 = 0 then none
  else
    let k1 := (kz + 1) % 3
    let k2 := (kz + 2) % 3
    let kx := if dz.1 < 0 then k2 else k1
    let ky := if dz.1 < 0 then k1 else k2
    let sx ← rndQuot f (d.getD kx (0, 0)) dz
    let sy ← rndQuot f (d.getD ky (0, 0)) dz
    let sz ← rndQuot f (1, 0) dz
    let a ← shear f o kx ky kz sx sy sz a0
    let b ← shear f o kx ky kz sx sy sz b0
    let c ← shear f o kx ky kz sx sy sz c0
    let e0 := dySub (dyMul c.1 b.2.1) (dyMul c.2.1 b.1)
    let e1 := dySub (dyMul a.1 c.2.1) (dyMul a.2.1 c.1)
    let e2 := dySub (dyMul b.1 a.2.1) (dyMul b.2.1 a.1)
    let g0 := edgeSign e0 b c
    let dd := dyPlus e0 (dyPlus e1 e2)
    if g0 != edgeSign e1 c a || g0 != edgeSign e2 a b || dd.1 = 0 then none
    else
      let ops := [a, b, c].flatMap fun p => [p.1.1, p.1.2, p.2.1.1, p.2.1.2, p.2.2.1, p.2.2.2]
      let t ← quotOut f 0 ops (dyPlus (dyMul e0 a.2.2) (dyPlus (dyMul e1 b.2.2) (dyMul e2 c.2.2))) dd
      let u ← quotOut f 1 ops e1 dd
      let v ← quotOut f 2 ops e2 dd
      some (t, u, v)

/-! ### Spheres (R409) -/

/-- The magnitude of a finite binary64 code read past the largest as if the exponents went on. -/
def f64Mag (c : Nat) : Dy :=
  let ex : Nat := c / 2 ^ 52
  if ex = 0 then ((c : Int), -1074) else (((2 ^ 52 + c % 2 ^ 52 : Nat) : Int), (ex : Int) - 1075)

/-- Bit by bit from `n - 1` down, the largest code at most the largest finite one that satisfies `p`. -/
def codeSearch (p : Nat → Bool) : Nat → Nat → Nat
  | 0, c => c
  | n + 1, c => codeSearch p n (if c + 2 ^ n ≤ 0x7FEFFFFFFFFFFFFF && p (c + 2 ^ n) then c + 2 ^ n else c)

/-- The code nearest to a positive number, given how a dyadic compares with it: `le x` says that x is at most the number,
`ge x` that it is at least the number (R109). -/
def nearestCode (le ge : Dy → Bool) : Nat :=
  let c := codeSearch (fun c => le (f64Mag c)) 63 0
  let mid : Dy := dyMul (dyPlus (f64Mag c) (f64Mag (c + 1))) (1, -1)
  if le mid && ge mid then (if c % 2 = 0 then c else c + 1) else if le mid then c + 1 else c

/-- `x` is at most (−b ± √disc) ÷ a, `a` positive and `disc` not negative. -/
def rootGe (a b disc : Dy) (plus : Bool) (x : Dy) : Bool :=
  let y := dyPlus (dyMul a x) b
  if plus then y.1 ≤ 0 || dyLe (dyMul y y) disc else y.1 ≤ 0 && dyLe disc (dyMul y y)

/-- `x` is at least (−b ± √disc) ÷ a. -/
def rootLe (a b disc : Dy) (plus : Bool) (x : Dy) : Bool :=
  let y := dyPlus (dyMul a x) b
  if plus then 0 ≤ y.1 && dyLe disc (dyMul y y) else 0 ≤ y.1 || dyLe (dyMul y y) disc

/-- RNE_f64 of the exact root (R409). -/
def rootCode (a b disc : Dy) (plus : Bool) : W64 :=
  let le := rootGe a b disc plus
  let ge := rootLe a b disc plus
  if le (0, 0) && ge (0, 0) then
    BitVec.ofNat 64 (Fmt.f64.signCode (Config.rayZeroSign 0 [a.1, a.2, b.1, b.2, disc.1, disc.2]))
  else if le (0, 0) then BitVec.ofNat 64 (nearestCode le ge)
  else BitVec.ofNat 64 (2 ^ 63 + nearestCode (fun x => ge (dyNeg x)) (fun x => le (dyNeg x)))

/-- A binary64 code is finite. -/
def f64Finite (c : W64) : Bool := ((f64Val c).dy).isSome

/-- `a ≤ b` for binary64 codes; false with a NaN. -/
def f64Le (a b : W64) : Bool :=
  match fCmpV (f64Val a) (f64Val b) with
  | some .gt => false
  | some _ => true
  | none => false

/-- Sum of the products of components. -/
def dot (a b : List Dy) : Dy := (a.zip b).foldl (fun s p => dyPlus s (dyMul p.1 p.2)) (0, 0)

/-- The sphere test: t as a binary64 code (R409); `rad` is finite and positive. -/
def sphereTest (r : RaySeg) (centre : List FVal) (rad : Dy) : Option W64 := do
  let c ← centre.mapM FVal.dy
  let f ← [0, 1, 2].mapM fun k => rndDy .f64 (dySub (compDy r.org k) (c.getD k (0, 0)))
  let d := [0, 1, 2].map (compDy r.dir)
  let a := dot d d
  let b := dot f d
  let q := dySub (dot f f) (dyMul rad rad)
  let disc := dySub (dyMul b b) (dyMul a q)
  if disc.1 < 0 then none
  else
    let t1 := rootCode a b disc false
    let t2 := rootCode a b disc true
    let t := if f64Finite t1 && f64Le r.tmin t1 && f64Le t1 r.tmax then t1 else t2
    if f64Finite t then some t else none

/-! ### The cylinder bound (R410) -/

/-- The quadratic `a t² + 2 b t + c` is at most 0 at a bound of t; an infinite bound is no t. -/
def quadAt (a b c : Dy) : RX → Bool
  | .inf _ => false
  | .fin n d =>
    -- a n² + 2 b n d + c d² ≤ 0
    decide ((dyPlus (dyMul a (dyMul n n)) (dyPlus (dyMul (2, 0) (dyMul b (dyMul n d))) (dyMul c (dyMul d d)))).1 ≤ 0)

/-- Some t in [lo, hi] lies within the cylinder along axis `k` (R410). -/
def cylTest (r : RaySeg) (k : Nat) (c0 c1 : FVal) (rad : Dy) (lo hi : RX) : Bool :=
  match c0.dy, c1.dy with
  | some c0, some c1 =>
    let b := if k = 0 then 1 else 0
    let c := if k = 2 then 1 else 2
    let pb := dySub (compDy r.org b) c0
    let pc := dySub (compDy r.org c) c1
    let db := compDy r.dir b
    let dc := compDy r.dir c
    let qa := dyPlus (dyMul db db) (dyMul dc dc)
    let qb := dyPlus (dyMul pb db) (dyMul pc dc)
    let qc := dySub (dyPlus (dyMul pb pb) (dyMul pc pc)) (dyMul rad rad)
    if qa.1 = 0 then qc.1 ≤ 0
    else
      let m := rxQuot (dyNeg qb) qa
      if !rxLe lo m then quadAt qa qb qc lo
      else if !rxLe m hi then quadAt qa qb qc hi
      else dyLe (dyMul qa qc) (dyMul qb qb)
  | _, _ => false

/-! ### The hit rule (R404) -/

/-- A candidate is accepted: t in range, and (t, k, i) below the held hit's. -/
def accepts (r : RaySeg) (hit : Option (Nat × Nat)) (t : W64) (k i : Nat) : Bool :=
  f64Le r.tmin t && f64Le t r.tmax &&
  (match hit with
   | none => true
   | some h => !f64Le r.tmax t || k < h.1 || (k = h.1 && i < h.2))

end Sys2Proof.Machine
end

