-- ==== Sys2Proof/Machine/Ray.lean ====
section
/-! DEFINITION. The ray engine: bindings, records, stackless traversal, user surfaces, faults, logs and replay
(spec/11_ray_engine.md R388 to R436). -/

namespace Sys2Proof.Machine

/-! ### Contexts and addresses (R394, R395, R403) -/

/-- HCTX, HFULL, HLOGX (R419). -/
def codeHctx : Nat := 0x70
/-- HFULL. -/
def codeHfull : Nat := 0x71
/-- HLOGX. -/
def codeHlogx : Nat := 0x72

/-- Bits of a number. -/
def bitsAt (v off n : Nat) : Nat := v / 2 ^ off % 2 ^ n

/-- Word `i` of a traversal context as a number (R394). -/
def ctxNat (c : List W64) (i : Nat) : Nat := (c.getD i 0).toNat

/-- NROUT. -/
def ctxNrout (c : List W64) : Nat := bitsAt (ctxNat c 5) 48 16
/-- VERTCOUNT. -/
def ctxVerts (c : List W64) : Nat := bitsAt (ctxNat c 5) 16 32
/-- PREC. -/
def ctxPrec (c : List W64) : Bool := ctxNat c 5 % 2 = 1
/-- NUSER. -/
def ctxUsers (c : List W64) : Nat := bitsAt (ctxNat c 6) 32 32
/-- NODECOUNT. -/
def ctxNodes (c : List W64) : Nat := bitsAt (ctxNat c 6) 0 32
/-- PRIMCOUNT. -/
def ctxPrims (c : List W64) : Nat := bitsAt (ctxNat c 7) 0 40

/-- The first failing check of R395 after the read. -/
def ctxFault (c : List W64) : Option Nat :=
  let bases := c.take 5
  if bitsAt (ctxNat c 5) 1 15 ≠ 0 || bitsAt (ctxNat c 7) 40 24 ≠ 0 then some 2
  else if bases.any fun b => b.toNat % 128 ≠ 0 then some 3
  else if bases.any fun b => vaClass b = .invalid then some 4
  else if ctxNodes c = 0 || 2 ^ 30 < ctxNodes c then some 5
  else none

/-- The address `off` past a base, while it stays in the base's address class (R403). -/
def rayVa (base : W64) (off : Nat) : Option Nat :=
  if base.toNat < 2 ^ 48 then (if base.toNat + off < 2 ^ 48 then some (base.toNat + off) else none)
  else if vaClass base = .fabric && fabOff base + off < 2 ^ 45 then some (base.toNat + off) else none

/-! ### One move of a traversal (R402 to R410, R427 to R430) -/

/-- What a ray does next: it needs the line of an address, or moves on with the log bytes it writes, or is suspended in
CALL with ROUTINE, PARAM and USERDATA, or ends under R405, under R403 with DETAIL and INFO, under R430 with DETAIL, or with a REASON of
R401 of DETAIL 0: no context is bound, or the numbers of a replayed header fail. -/
inductive RayAct
  | need (va : Nat)
  | go (log : List (Nat × List Byte)) (r : Ray)
  | call (log : List (Nat × List Byte)) (r : Ray) (routine : Nat) (param data : Nat)
  | stop
  | bvh (detail : Nat) (info : Nat)
  | logBad (detail : Nat)
  | recBad (reason : Nat)

/-- The bytes at a base and offset, as a number, once the ray has their line. -/
def withRead (r : Ray) (base : W64) (off n : Nat) (k : Nat → RayAct) : RayAct :=
  match rayVa base off with
  | none => .bvh 10 (base.toNat + off)
  | some va =>
    match r.lines.find? fun l => l.1 = va / 128 with
    | none => .need va
    | some l => k (bitsAt l.2.toNat (8 * (va % 128)) (8 * n))

/-- REF of a slot (R396). -/
def nodeRef (n s : Nat) : Nat := bitsAt n (8 * (0x60 + 4 * s)) 32

/-- The rule of R403 that a fetched node breaks, with its INFO. -/
def nodeBad (c : List W64) (r : Ray) (n : Nat) : Option (Nat × Nat) :=
  let refs := [0, 1, 2, 3].map (nodeRef n)
  let ins := (refs.filter fun x => x / 2 ^ 30 = 1).map fun x => x % 2 ^ 30
  match ins.find? fun i => i = 0 || ctxNodes c ≤ i with
  | some i => some (1, i)
  | none =>
    if bitsAt n (8 * 0x78) 32 ≠ r.pos.frm then some (2, r.pos.node)
    else if bitsAt n (8 * 0x70 + 40) 24 ≠ 0 || bitsAt n (8 * 0x7C) 32 ≠ 0 || (distinct ins).length ≠ ins.length ||
        (refs.any fun x => x / 2 ^ 30 = 0 && x ≠ 0) then some (3, r.pos.node)
    else none

/-- What the tests read of a ray. -/
def Ray.seg (r : Ray) : RaySeg := { org := r.geo.org, dir := r.geo.dir, tmin := r.geo.tmin, tmax := r.geo.tmax }

/-- The box test of a node's slot. -/
def slotBox (r : Ray) (n s : Nat) : Option (RX × RX) :=
  boxTest r.seg ([0, 1, 2, 3, 4, 5].map fun j => bitsAt n (8 * (0x18 * s + 4 * j)) 32)

/-- Apply the hit rule to a candidate (R404). -/
def Ray.offer (r : Ray) (t : W64) (k i : Nat) (u v hu : W64) : Ray :=
  if accepts r.seg r.geo.hit t k i then
    { r with geo := { r.geo with tmax := t, hu := u, hv := v, hit := some (k, i), huser := hu } }
  else r

/-- Forget the lines read but for the node's own. -/
def Ray.keepNode (c : List W64) (r : Ray) : Ray :=
  let mine := (rayVa (c.getD 0 0) (128 * r.pos.node)).map fun va => va / 128
  { r with lines := r.lines.filter fun l => !r.replay && some l.1 = mine }

/-- The ray goes on at its next slot. -/
def Ray.nextSlot (c : List W64) (r : Ray) : Ray :=
  let r := r.keepNode c
  { r with pos := { r.pos with slot := r.pos.slot + 1, phase := 0, primoff := 0 } }

/-- A replayed ray goes on at its next entry. -/
def Ray.nextEntry (r : Ray) : Ray :=
  { r with lines := [], pos := { r.pos with logn := r.pos.logn + 1, phase := 6, primoff := 0 } }

/-- One entry of the log (R427, R428), while the slot has room for it. -/
def logEntry (q : QReg) (r : Ray) (typ count first : Nat) : List (Nat × List Byte) × Ray :=
  let off := 96 + 16 * r.pos.logn
  if !r.log then ([], r)
  else if 2 ^ q.slotLog < off + 16 then ([], { r with lost := true })
  else
    ([(off, [BitVec.ofNat 8 typ, BitVec.ofNat 8 count] ++ List.replicate 6 0 ++ leBytes first 8)],
     { r with pos := { r.pos with logn := r.pos.logn + 1 } })

/-- A vertex's components (R397). -/
def vertexVals (prec : Bool) (v : Nat) : List FVal :=
  if prec then [0, 1, 2].map fun k => unpackF .f64 (bitsAt v (64 * k) 64)
  else [0, 1, 2].map fun k => unpackF .f32 (bitsAt v (32 * k) 32)

/-- Read a vertex. -/
def withVertex (c : List W64) (r : Ray) (i : Nat) (k : List FVal → RayAct) : RayAct :=
  let n := if ctxPrec c then 32 else 16
  withRead r (c.getD 2 0) (n * i) n fun v => k (vertexVals (ctxPrec c) v)

/-- A positive finite binary64 value (R409, R410). -/
def posDy (code : Nat) : Option Dy :=
  match (unpackF .f64 code).dy with
  | some d => if 0 < d.1 then some d else none
  | none => none

/-- Test one primitive (R397, R403, R407, R409). -/
def primTest (c : List W64) (r : Ray) (idx : Nat) (k : Ray → RayAct) : RayAct :=
  if ctxPrims c ≤ idx then .bvh 4 idx
  else
    withRead r (c.getD 1 0) (16 * idx) 16 fun p =>
      let w : Nat → Nat := fun j => bitsAt p (32 * j) 32
      let typ := w 0 / 2 ^ 30
      let i0 := w 0 % 2 ^ 30
      if 2 ≤ typ then .bvh 8 idx
      else if typ = 0 then
        if w 3 ≠ 0 || 2 ^ 30 ≤ w 1 || 2 ^ 30 ≤ w 2 then .bvh 3 idx
        else
          match [i0, w 1, w 2].find? fun i => ctxVerts c ≤ i with
          | some i => .bvh 5 i
          | none =>
            withVertex c r i0 fun v0 => withVertex c r (w 1) fun v1 => withVertex c r (w 2) fun v2 =>
              match triTest (if ctxPrec c then .f64 else .f32) r.seg v0 v1 v2 with
              | none => k r
              | some (t, u, v) => k (r.offer t 1 idx u v 0)
      else if w 1 ≠ 0 then .bvh 3 idx
      else if ctxVerts c ≤ i0 then .bvh 5 i0
      else
        match posDy (bitsAt p 64 64) with
        | none => .bvh 3 idx
        | some rad =>
          withVertex c r i0 fun v =>
            match sphereTest r.seg v rad with
            | none => k r
            | some t => k (r.offer t 2 idx 0 0 0)

/-- Meet a user surface: its record's checks, its bound test against `lim` (none for a replay), then CALL (R398, R403,
R410, R413). `pass` is where the ray goes when the bound test fails. -/
def userMeet (c : List W64) (q : QReg) (r : Ray) (idx : Nat) (lim : Option (RX × RX)) (pass : RayAct) : RayAct :=
  if ctxUsers c ≤ idx then .bvh 6 idx
  else
    withRead r (c.getD 3 0) (64 * idx) 64 fun u =>
      let routine := bitsAt u 16 16
      let bound := bitsAt u 0 2
      let geo := bitsAt u 128 192
      if bitsAt u 2 14 ≠ 0 || bitsAt u 32 32 ≠ 0 || bitsAt u (8 * 0x28) 192 ≠ 0 || (bound = 0 && geo ≠ 0) then .bvh 3 idx
      else if ctxNrout c ≤ routine then .bvh 7 routine
      else
        let rad := posDy (bitsAt u 256 64)
        if bound ≠ 0 && rad.isNone then .bvh 3 idx
        else
          let c0 := unpackF .f64 (bitsAt u 128 64)
          let c1 := unpackF .f64 (bitsAt u 192 64)
          let inside : Bool :=
            match lim, rad with
            | some (lo, hi), some rad => cylTest r.seg (bound - 1) c0 c1 rad lo hi
            | _, _ => true
          if bound ≠ 0 && !inside then pass
          else
            withRead r (c.getD 4 0) (8 * routine) 8 fun param =>
              let e := if lim.isSome then logEntry q r 2 0 idx else ([], r)
              .call e.1 { e.2 with state := .call, user := idx, lines := [] } routine param (bitsAt u 64 64)

/-- The checks of R401 on a ray's numbers: finite ORG and DIR, DIR not zero, no NaN bound, TMIN at most TMAX. -/
def geomOk (g : RayGeom) : Bool :=
  (g.org ++ g.dir).all f64Finite && (g.dir.any fun d => d.toNat % 2 ^ 63 ≠ 0) && f64Le g.tmin g.tmax

/-- The header of a log slot read for a replay (R428 to R430): the ray with the header's numbers, or why it ends. -/
def readHeader (q : QReg) (r : Ray) (h : Nat) : RayAct :=
  let w : Nat → Nat := fun o => bitsAt h (8 * o) 32
  let d : Nat → W64 := fun o => BitVec.ofNat 64 (bitsAt h (8 * o) 64)
  let ctl := w 0x0C
  if w 0 ≠ 96 + 16 * w 8 || 2 ^ q.slotLog < w 0 then .logBad 2
  else if bitsAt ctl 8 1 = 1 || w 4 ≠ r.tag.toNat then .logBad 3
  else if ctl / 2 ^ 11 ≠ 0 || bitsAt h (8 * 0x58 + 40) 24 ≠ 0 then .logBad 4
  else
    let g : RayGeom := {
      org := [d 0x10, d 0x18, d 0x20], dir := [d 0x28, d 0x30, d 0x38], tmin := d 0x40, tmax := d 0x48, tmax0 := d 0x48 }
    if geomOk g then
      .go [] { r with
        geo := g, first := bitsAt ctl 9 1 = 1, lines := [],
        pos := { node := w 8, frm := 0, slot := 0, phase := 5, primoff := 0, logn := 0 } }
    else .recBad 0x12

/-- Log slot `tag` lies in a register's log area, within the local addresses (R425; log entry 76). -/
def logFits (q : QReg) (tag : Nat) : Bool :=
  q.logBase ≠ 0 && tag < q.nslots && q.logBase.toNat + (tag + 1) * 2 ^ q.slotLog ≤ 2 ^ 48

/-- The base of a ray's log slot (R426). -/
def slotBase (q : QReg) (tag : W32) : Nat := q.logBase.toNat + tag.toNat * 2 ^ q.slotLog

/-- The ray's next move. -/
def rayStep (c : List W64) (q : QReg) (r : Ray) : RayAct :=
  let p := r.pos
  let node : (Nat → RayAct) → RayAct := withRead r (c.getD 0 0) (128 * p.node) 128
  let slotVa := BitVec.ofNat 64 (slotBase q r.tag)
  let entry : Nat → (Nat → RayAct) → RayAct := fun n => withRead r slotVa (96 + 16 * n) 16
  if r.first && r.geo.hit.isSome then .stop
  else
    match p.phase with
    | 0 =>
      if 4 ≤ p.slot then
        if p.node = 0 then .stop else .go [] { r with lines := [], pos := { p with phase := 1 } }
      else
        node fun n =>
          match if p.slot = 0 then nodeBad c r n else none with
          | some (d, i) => .bvh d i
          | none =>
            let ref := nodeRef n p.slot
            if ref / 2 ^ 30 = 0 then .go [] (r.nextSlot c)
            else
              match slotBox r n p.slot with
              | none => .go [] (r.nextSlot c)
              | some _ =>
                if ref / 2 ^ 30 = 1 then
                  .go [] { r with lines := [], pos := { p with node := ref % 2 ^ 30, frm := p.node, slot := 0 } }
                else if ref / 2 ^ 30 = 2 then
                  let e := logEntry q r 1 (bitsAt ref 26 4) (bitsAt n (8 * 0x70) 40 + ref % 2 ^ 26)
                  .go e.1 { e.2 with pos := { e.2.pos with phase := 2, primoff := 0 } }
                else .go [] { r with pos := { p with phase := 3 } }
    | 1 =>
      withRead r (c.getD 0 0) (128 * p.frm) 128 fun n =>
        match [0, 1, 2, 3].find? fun j => nodeRef n j = 2 ^ 30 + p.node with
        | none => .bvh 9 p.node
        | some j =>
          .go [] { r with pos := { p with node := p.frm, frm := bitsAt n (8 * 0x78) 32, slot := j + 1, phase := 0 } }
    | 2 =>
      node fun n =>
        let ref := nodeRef n p.slot
        primTest c r (bitsAt n (8 * 0x70) 40 + ref % 2 ^ 26 + p.primoff) fun r' =>
          if p.primoff < bitsAt ref 26 4 then
            let r' := r'.keepNode c
            .go [] { r' with pos := { r'.pos with primoff := p.primoff + 1 } }
          else .go [] (r'.nextSlot c)
    | 3 =>
      node fun n =>
        match slotBox r n p.slot with
        | none => .go [] (r.nextSlot c)
        | some lim => userMeet c q r (nodeRef n p.slot % 2 ^ 30) (some lim) (.go [] (r.nextSlot c))
    | 4 =>
      if q.ctx.isNone then .recBad 0x11
      else if !logFits q r.tag.toNat then .logBad 1
      else withRead r slotVa 0 96 (readHeader q r)
    | 5 =>
      if p.node ≤ p.frm then .go [] { r with lines := [], pos := { p with phase := 6, frm := 0 } }
      else
        entry p.frm fun e =>
          let t := e % 256
          if (t ≠ 1 && t ≠ 2) || bitsAt e 16 48 ≠ 0 || (if t = 1 then 15 else 0) < bitsAt e 8 8 then .logBad 4
          else .go [] { r with lines := [], pos := { p with frm := p.frm + 1 } }
    | 6 =>
      if p.node ≤ p.logn then .stop
      else entry p.logn fun e => .go [] { r with pos := { p with phase := if e % 256 = 1 then 7 else 8, primoff := 0 } }
    | 7 =>
      entry p.logn fun e =>
        primTest c r (bitsAt e 64 64 + p.primoff) fun r' =>
          if p.primoff < bitsAt e 8 8 then
            .go [] { r' with
              lines := r'.lines.filter (fun l => l.1 = (slotBase q r.tag + 96 + 16 * p.logn) / 128),
                             pos := { r'.pos with primoff := p.primoff + 1 } }
          else .go [] r'.nextEntry
    | _ => entry p.logn fun e => userMeet c q r (bitsAt e 64 64) none .stop

/-! ### Results (R400) -/

/-- The 24 words of a result, from fields as byte offset, length in words, value. -/
def rayWords (l : List (Nat × Nat × Nat)) : List W32 :=
  (List.range 24).map fun j =>
    l.foldl (fun (w : W32) f =>
      if f.1 ≤ 4 * j && 4 * j < f.1 + 4 * f.2.1 then BitVec.ofNat 32 (f.2.2 / 2 ^ (8 * (4 * j - f.1))) else w) 0

/-- A FAULT or POISON result. -/
def faultWords (kind reason detail : Nat) (tag handle : W32) (info : Nat) : List W32 :=
  rayWords [(0, 1, kind + reason * 2 ^ 8 + detail * 2 ^ 16), (4, 1, tag.toNat), (8, 1, handle.toNat), (16, 2, info)]

/-- A HIT or MISS result; a replay's LOGN is the NENT of its header, so that the result is the logged run's bit for bit (R428, R431). -/
def endWords (r : Ray) : List W32 :=
  let lost := if r.lost then 256 else 0
  let logn := if r.replay then r.pos.node else r.pos.logn
  match r.geo.hit with
  | none => rayWords [(0, 1, 2 + lost), (4, 1, r.tag.toNat), (8, 1, logn)]
  | some (k, i) =>
    rayWords [(0, 1, 1 + k * 16 + lost), (4, 1, r.tag.toNat), (8, 1, logn), (0x10, 2, r.geo.tmax.toNat),
      (0x18, 2, r.geo.hu.toNat), (0x20, 2, r.geo.hv.toNat), (0x28, 2, i), (0x30, 2, r.geo.huser.toNat)]

/-- A CALL result (R413). -/
def callWords (r : Ray) (routine param data : Nat) : List W32 :=
  rayWords ([(0, 1, 3 + routine * 2 ^ 16), (4, 1, r.tag.toNat), (8, 1, r.handle.toNat), (0xC, 1, r.user),
    (0x40, 2, r.geo.tmin.toNat), (0x48, 2, r.geo.tmax.toNat), (0x50, 2, param), (0x58, 2, data)] ++
    [0, 1, 2].flatMap fun k => [(0x10 + 8 * k, 2, (r.geo.org.getD k 0).toNat), (0x28 + 8 * k, 2, (r.geo.dir.getD k 0).toNat)])

/-! ### Rays of a crew -/

/-- The same ray: its register and handle. -/
def Ray.same (a b : Ray) : Bool := a.team == b.team && a.q == b.q && a.handle == b.handle

/-- Put a ray back. -/
def putRay (s : State) (c : Nat) (r : Ray) : State :=
  let cr := s.crew c
  s.setCrew c { cr with rays := cr.rays.map fun x => if x.same r then r else x }

/-- The rays alive of a queue register (R389). -/
def raysOf (s : State) (c tno q : Nat) : List Ray := (s.crew c).rays.filter fun r => r.team = tno && r.q = q

/-- Change a queue register of a team. -/
def State.updQ (s : State) (key q : Nat) (f : QReg → QReg) : State :=
  s.updTeam key fun t => { t with q := smSet {} t.q q (f (smGet {} t.q q)) }

/-- A queue register of a team. -/
def Team.qreg (t : Team) (q : Nat) : QReg := smGet {} t.q q

/-- A result joins a register; of a team that has ended, nothing pops it and it is gone (R25). -/
def giveResult (s : State) (key q : Nat) (x : QRes) : State :=
  if (s.teamAt key).id.alive then { s.updQ key q (fun r => { r with results := r.results ++ [x] }) with progress := s.progress + 1 }
  else { s with progress := s.progress + 1 }

/-- A ray stops running, and its batch settles (R423). -/
def restRay (s : State) (c : Nat) (r : Ray) : State := settleBatches (putRay s c { r with lines := [] }) c

/-- A translation fault holds the ray, with a result of the translation class (R416). -/
def holdRay (s : State) (c : Nat) (r : Ray) (va : Nat) (f : XFault) : State :=
  let s := restRay s c { r with
    state := .held, fault := some (f.code, f.detail, BitVec.ofNat 64 (va / 65536 * 65536)), reported := false,
    unpopped := true }
  giveResult s (teamKey c r.team) r.q {
    words := faultWords 4 f.code f.detail r.tag 0 va, kind := .trans, handle := r.handle }

/-- The log writes of a ray: stores of its team `t` made by the ray engine of the team's core, all of them or the first fault (R17, R427). -/
def writeLog (s : State) (t : Team) (base : Nat) : List (Nat × List Byte) → State × Option (Nat × XFault)
  | [] => (s, none)
  | (off, bs) :: r =>
    match transNow s t.id.die t.id.ctx (BitVec.ofNat 64 (base + off)) .write false with
    | (s, .error f) => (s, some (base + off, { f with detail := f.detail ||| 16 }))
    | (s, .ok pa) => writeLog (storeBytes s t.id.die t.id.core pa bs) t base r

/-- The header of a ray's log slot (R428). -/
def headerBytes (c : List W64) (r : Ray) (kind : Nat) : List Byte :=
  let g := r.geo
  let hk := match g.hit with | some h => if kind = 1 then h.1 else 0 | none => 0
  let ctl := kind + hk * 16 + (if r.lost then 256 else 0) + (if r.first then 512 else 0) + (if ctxPrec c then 1024 else 0)
  leBytes (96 + 16 * r.pos.logn) 4 ++ leBytes r.tag.toNat 4 ++ leBytes r.pos.logn 4 ++ leBytes ctl 4 ++
  (g.org ++ g.dir ++ [g.tmin, g.tmax0, g.tmax]).flatMap (fun w => leBytes w.toNat 8) ++
  leBytes ((g.hit.map Prod.snd).getD 0) 8

/-- A ray ends with a final result: a release asked for at POD or SYS first waits for the team's elements, then the log header is written, the
release made, and the result given (R262, R389, R405, R421, R425, R427). A fault on the header holds the ray. -/
def endRay (s : State) (c : Nat) (r : Ray) (kind : Nat) (words : List W32) : State :=
  let key := teamKey c r.team
  match if r.rel then relReady s key r.scope.toNat else (s, true) with
  | (s, false) => putRay s c r
  | (s, true) =>
    let q := (s.teamAt key).qreg r.q
    let ctx := q.ctx.getD []
    match if r.log then writeLog s (s.teamAt key) (slotBase q r.tag) [(0, headerBytes ctx r kind)] else (s, none) with
    | (s, some (va, f)) => holdRay s c r va f
    | (s, none) =>
      let s := if r.rel then s.releaseFor key r.scope.toNat else s
      let s := if r.lost then s.updQ key r.q fun q => { q with dropped := min (q.dropped + 1) 0xFFFFFFFF } else s
      giveResult (restRay s c { r with state := .ended, unpopped := true }) key r.q {
        words := words, kind := .final, handle := r.handle }

/-! ### Reads of the engine (R418, R420) -/

/-- What a read of a line gives: its bytes, a translation fault, POISON with a REASON, or nothing yet. -/
inductive RayRead
  | got (b : BitVec 1024)
  | hold (f : XFault)
  | poison (reason : Nat)
  | wait

/-- Put a line into a core's node cache. -/
def nodePut (s : State) (ck line : Nat) (l : NodeLine) : State :=
  s.setCore ck { s.core ck with node := smSet none (s.core ck).node line (some l) }

/-- What a node-cache line gives. -/
def nodeGives (l : NodeLine) : RayRead := if l.poison then .poison 0 else .got l.data

/-- The write buffer of a core over its die's L2: a line as the core's ray engine reads it (R418, R420). -/
def engineLine (s : State) (d k line : Nat) : LineCopy :=
  ((s.core (coreKey d k)).wb.filter fun e => e.1 = line).foldl (fun l e => e.2.over l) (smGet {} (s.die d).l2 line)

/-- The ray engine of a team's core reads the line of an address for a ray of the team: from the core's node cache, or into it from the write
buffer over L2, or for a fabric address from the remote-read cache or the lines that came (R17, R258, R418, R420). -/
def rayRead (s : State) (t : Team) (va : Nat) (remote : List RemoteLine) : State × RayRead :=
  let ck := t.coreK
  if va < 2 ^ 48 then
    match transNow s t.id.die t.id.ctx (BitVec.ofNat 64 (va / 128 * 128)) .read false with
    | (s, .error f) => (s, .hold f)
    | (s, .ok pa) =>
      let line := pa / 128
      match smGet none (s.core ck).node line with
      | some l => (s, nodeGives l)
      | none =>
        let s := fillL2 s t.id.die line
        let x := engineLine s t.id.die t.id.core line
        let l : NodeLine := { data := x.data, poison := x.bad != 0 }
        (nodePut s ck line l, nodeGives l)
  else
    let line := va / 128
    match smGet none (s.core ck).node line with
    | some l => (s, nodeGives l)
    | none =>
      match remoteLine s t.id.die t.id.ctx remote line with
      | (s, none) => (s, .wait)
      | (s, some x) =>
        if x.fail.isSome then (s, .poison 1)
        else
          let l : NodeLine := { data := BitVec.ofNat 1024 (leNat x.data), poison := false }
          (nodePut (cacheRemote s x true) ck line l, nodeGives l)

/-! ### Running a ray -/

/-- Moves of a ray until it needs another line, is suspended, held, or ends; at most one line is read. -/
def runRay : Nat → Bool → State → Nat → Ray → List RemoteLine → State
  | 0, _, s, c, r, _ => putRay s c r
  | n + 1, may, s, c, r, remote =>
    let key := teamKey c r.team
    let q := (s.teamAt key).qreg r.q
    let logs : List (Nat × List Byte) → (State → State) → State := fun l k =>
      match writeLog s (s.teamAt key) (slotBase q r.tag) l with
      | (s, some (va, f)) => holdRay s c r va f
      | (s, none) => k s
    match rayStep (q.ctx.getD []) q r with
    | .need va =>
      if !may then putRay s c r
      else
        match rayRead s (s.teamAt key) va remote with
        | (s, .wait) => putRay s c r
        | (s, .hold f) => holdRay s c r va f
        | (s, .poison reason) => endRay s c r 5 (faultWords 5 reason 0 r.tag 0 (va / 128 * 128))
        | (s, .got b) => runRay n false s c { r with lines := (va / 128, b) :: r.lines } remote
    | .go l r' => logs l fun s => runRay n may s c r' remote
    | .call l r' routine param data =>
      logs l fun s =>
        giveResult (restRay s c { r' with unpopped := true }) key r.q {
          words := callWords r' routine param data, kind := .call, handle := r.handle }
    | .stop => endRay s c r (if r.geo.hit.isSome then 1 else 2) (endWords r)
    | .bvh d info => endRay s c r 4 (faultWords 4 0x20 d r.tag 0 info)
    | .logBad d => endRay s c r 4 (faultWords 4 0x21 d r.tag 0 r.tag.toNat)
    | .recBad reason => endRay s c r 4 (faultWords 4 reason 0 r.tag 0 0)

/-- A ray may run: it is neither suspended nor held nor ended, its last result is popped, its register has a credit for a
result, its batch has its leave, and the accesses its record comes after are done (R23, R421, R423, R424). -/
def rayReady (s : State) (c : Nat) (r : Ray) : Bool :=
  r.state == .run && !r.unpopped && (s.teamAt (teamKey c r.team)).id.alive &&
  decide (((s.teamAt (teamKey c r.team)).qreg r.q).results.length < 256) &&
  !(((s.crew c).batches.find? fun b => r.batch = some b.id).any fun b => b.leave = .asked) &&
  !(s.ops.any fun o => o.team = teamKey c r.team && o.id < r.stamp && o.kind.isMem)

/-- RAY_FETCH_RETURN (R402): a line read by the ray that the site names (crew, team, queue register, entry) returns, and
its traversal goes on. -/
def execRayFetchReturn (remote : List RemoteLine) (s : State) : Host.Outcome State Fault Refusal :=
  let c := s.site.crew
  match (raysOf s c s.site.team s.site.q).find? fun r => r.handle.toNat % 256 = s.site.n with
  | none => .next s
  | some r =>
    if rayReady s c r && (s.crew c).state = .run then
      .next { runRay 64 true s c r remote with progress := s.progress + 1 }
    else .next s

/-! ### Records (R399, R401, R414, R415) -/

/-- Word `i` of a record. -/
def recW (w : List W32) (i : Nat) : Nat := (w.getD i 0).toNat

/-- A 64-bit word of a record at word `i`. -/
def recD (w : List W32) (i : Nat) : W64 := w.getD (i + 1) 0 ++ w.getD i 0

/-- The failing RECORD condition of R401, in its order. -/
def recordBad (w : List W32) : Option Nat :=
  let ctl := recW w 0
  let kind := ctl % 16
  let zero : List Nat → Bool := fun l => l.all fun i => recW w i = 0
  let rsv : Bool :=
    if kind = 1 then ctl / 2 ^ 13 ≠ 0 || bitsAt ctl 6 2 ≠ 0
    else if kind = 2 then
      ctl / 2 ^ 13 ≠ 0 || bitsAt ctl 5 3 ≠ 0 || bitsAt ctl 9 1 ≠ 0 || !zero [1, 3, 12, 13, 14, 15]
    else ctl / 2 ^ 4 ≠ 0 || !zero [1, 3, 4, 5, 6, 7, 8, 9, 10, 11, 12, 13, 14, 15]
  if kind = 0 || 3 < kind then some 2
  else if rsv then some 1
  else if bitsAt ctl 10 3 = 7 || (bitsAt ctl 10 3 ≠ 0 && bitsAt ctl 8 1 = 0) then some 3
  else none

/-- The free entries of a register's reservation (R390). -/
def freeEntries (s : State) (c tno q : Nat) : List Nat :=
  (List.range 256).filter fun e => !(raysOf s c tno q).any fun r => r.handle.toNat % 256 = e

/-- A ray is created in a free entry of its register, with the register's next SEQ (R390). -/
def newRay (s : State) (c : Nat) (r : Ray) : State × Ray :=
  let free := freeEntries s c r.team r.q
  let key := teamKey c r.team
  let seq := ((s.teamAt key).qreg r.q).seq
  let e := free.getD (Config.choice s.fresh % free.length) 0
  let r := { r with handle := BitVec.ofNat 32 (e + seq * 256) }
  let s := { s.updQ key r.q (fun q => { q with seq := (q.seq + 1) % 2 ^ 24 }) with fresh := s.fresh + 1 }
  let cr := s.crew c
  (s.setCrew c { cr with rays := cr.rays ++ [r] }, r)

/-- The acquire that a record of a team asks for, by the ray engine of the team's core (R17, R420, R421). -/
def recAcquire (s : State) (key : Nat) (w : List W32) : State :=
  if bitsAt (recW w 0) 8 1 = 1 then s.acquireFor key (bitsAt (recW w 0) 10 3) else s

/-- The numbers of a TRACE record (R399): ORG, DIR, and TMIN and TMAX as binary64. -/
def traceGeom (w : List W32) : RayGeom :=
  let wide : Nat → W64 := fun i => BitVec.ofNat 64 (fCvtV .f64 .rne 0 (unpackF .f32 (recW w i))).1
  {
    org := [recD w 2, recD w 4, recD w 6], dir := [recD w 8, recD w 10, recD w 12],
    tmin := wide 14, tmax := wide 15, tmax0 := wide 15 }

/-- Why a TRACE record's ray ends at once, as REASON and DETAIL (R401). -/
def traceBad (q : QReg) (w : List W32) : Option (Nat × Nat) :=
  match recordBad w with
  | some d => some (0x10, d)
  | none => if q.ctx.isNone then some (0x11, 0) else if geomOk (traceGeom w) then none else some (0x12, 0)

/-- A record at the head of the site's queue register, once the accesses it comes after are done and a result has a
place (R23, R33, R421). -/
def takeRecord (s : State) (mine : Nat → Bool) (f : State → QReg → Pushed → State) : Host.Outcome State Fault Refusal :=
  let key := teamKey s.site.crew s.site.team
  let q := (s.teamAt key).qreg s.site.q
  match q.pushed with
  | [] => .next s
  | p :: rest =>
    if q.port ≠ 1 || !mine (recW p.words 0 % 16) || 256 ≤ q.results.length || (s.crew s.site.crew).state ≠ .run ||
        s.ops.any fun o => o.team = key && o.id < p.stamp && o.kind.isMem then .next s
    else .next (f { s.updQ key s.site.q (fun q => { q with pushed := rest }) with progress := s.progress + 1 } q p)

/-- TRACE (R399, R401, R402): the record creates a ray, which starts or ends with a FAULT; a record of no KIND gives a
FAULT and no ray. -/
def execTrace (s : State) : Host.Outcome State Fault Refusal :=
  takeRecord s (fun k => k ≠ 2 && k ≠ 3) fun s q p =>
    let c := s.site.crew
    let w := p.words
    let ctl := recW w 0
    if ctl % 16 ≠ 1 then giveResult s (teamKey c s.site.team) s.site.q { words := faultWords 4 0x10 2 0 0 0 }
    else
      let log := bitsAt ctl 5 1 = 1
      let fits := logFits q (recW w 1)
      let r : Ray := {
        team := s.site.team, q := s.site.q, handle := 0, tag := w.getD 1 0, geo := traceGeom w,
        first := bitsAt ctl 4 1 = 1, log := log && fits, lost := log && !fits,
        rel := bitsAt ctl 9 1 = 1, scope := BitVec.ofNat 3 (bitsAt ctl 10 3), batch := p.batch, stamp := p.stamp }
      match traceBad q w with
      | some (reason, d) =>
        let x := newRay s c { r with log := false, lost := false, rel := false, batch := none }
        endRay x.1 c x.2 4 (faultWords 4 reason d r.tag 0 0)
      | none => recAcquire (newRay s c r).1 (teamKey c s.site.team) w

/-- The ray of the site's register that a handle names, suspended in CALL (R415). -/
def calledRay (s : State) (h : W32) : Option Ray :=
  (raysOf s s.site.crew s.site.team s.site.q).find? fun r => r.handle = h && r.state = .call

/-- The FAULT of a failing RESUME or ABORT; it is final for no ray (R401). -/
def recordFault (s : State) (p : Pushed) (reason d : Nat) : State :=
  settleBatches (giveResult s (teamKey s.site.crew s.site.team) s.site.q {
    words := faultWords 4 reason d 0 (p.words.getD 2 0) 0 }) s.site.crew

/-- RESUME (R414): the suspended ray goes on at its next slot, with the candidate of an accepted surface. -/
def execResume (s : State) : Host.Outcome State Fault Refusal :=
  takeRecord s (fun k => k = 2) fun s q p =>
    let c := s.site.crew
    let w := p.words
    match recordBad w with
    | some d => recordFault s p 0x10 d
    | none =>
      match calledRay s (w.getD 2 0) with
      | none => recordFault s p 0x13 0
      | some r =>
        let s := recAcquire s (teamKey c s.site.team) w
        let r := if bitsAt (recW w 0) 4 1 = 1 then r.offer (recD w 4) 3 r.user (recD w 6) (recD w 8) (recD w 10) else r
        let r := if r.replay then r.nextEntry else r.nextSlot (q.ctx.getD [])
        putRay s c { r with state := .run, batch := p.batch, stamp := p.stamp }

/-- ABORT (R415): the suspended ray ends with no result and its entry is free. -/
def execAbort (s : State) : Host.Outcome State Fault Refusal :=
  takeRecord s (fun k => k = 3) fun s _ p =>
    let c := s.site.crew
    match recordBad p.words with
    | some d => recordFault s p 0x10 d
    | none =>
      match calledRay s (p.words.getD 2 0) with
      | none => recordFault s p 0x13 0
      | some r =>
        let cr := s.crew c
        s.setCrew c { cr with rays := cr.rays.filter fun x => !x.same r }

/-! ### Batches (R423) -/

/-- A batch of more than 32 rays asks for 3 A; a smaller one needs none. -/
def newBatch (s : State) (n : Nat) : State × Option Nat :=
  if n ≤ 32 then (s, none)
  else
    let t := s.team
    let c := t.id.crew
    let id := s.nextOp
    let cr := s.crew c
    let s := { s.setCrew c { cr with batches := cr.batches ++ [{ id := id, team := t.id.tno, leave := .asked }] } with
      nextOp := s.nextOp + 1 }
    (askLeave s t.id.die { who := .rays c id, amps := 3, cls := effClass s c t.id.tno }, some id)

/-- The handles of suspended rays that the good RESUME records of a list name, where no earlier record has resumed or aborted the ray. -/
def resumed (live : W32 → Bool) : List W32 → List (List W32) → List W32
  | _, [] => []
  | gone, w :: r =>
    let h := w.getD 2 0
    if (recordBad w).isSome || recW w 0 % 16 = 1 || gone.contains h || !live h then resumed live gone r
    else if recW w 0 % 16 = 2 then h :: resumed live (h :: gone) r
    else resumed live (h :: gone) r

/-- The records of one push, which takes a number of its own, with their batches: its TRACE records that start a ray form one, its RESUME
records that do another (R423). -/
def pushBatches (s : State) (qn : Nat) (q : QReg) (recs : List (Nat × List W32)) : State × List Pushed :=
  let starts := (recs.filter fun r => recW r.2 0 % 16 = 1 && (traceBad q r.2).isNone).length
  let live : W32 → Bool := fun h => (raysOf s s.team.id.crew s.team.id.tno qn).any fun r => r.handle == h && r.state == .call
  let before := q.pushed.filterMap fun p => if recW p.words 0 % 16 = 1 then none else some (p.words.getD 2 0)
  let goes := (resumed live before (recs.map Prod.snd)).length
  let x := newBatch { s with nextOp := s.nextOp + 1 } starts
  let y := newBatch x.1 goes
  (y.1, recs.map fun r => {
    lane := r.1, words := r.2, stamp := s.nextOp,
    batch := if recW r.2 0 % 16 = 1 then x.2 else if recW r.2 0 % 16 = 2 then y.2 else none })

/-- A waiting TRACE record that belongs to no batch and starts a ray once its register's context is bound (R393, R423). -/
def Pushed.startsNow (q : QReg) (p : Pushed) : Bool :=
  p.batch.isNone && recW p.words 0 % 16 == 1 && (traceBad q p.words).isNone

/-- A context is bound while records of a register wait: the records of each push that start rays with it and started none without it form its
batch (R393, R423). -/
def bindBatches (s : State) (qn : Nat) : State :=
  let q := s.team.qreg qn
  (distinct ((q.staged ++ q.pushed).map Pushed.stamp)).foldl (fun s n =>
    let mine : Pushed → Bool := fun p => p.stamp = n && p.startsNow q
    let b := newBatch s ((q.staged ++ q.pushed).filter mine).length
    let put : List Pushed → List Pushed := fun l => l.map fun p => if mine p && b.2.isSome then { p with batch := b.2 } else p
    b.1.updQ s.team.key qn fun q => { q with staged := put q.staged, pushed := put q.pushed }) s

/-- The rays that a register holds or that its waiting TRACE records will create (R389). -/
def rayCount (s : State) (c tno q : Nat) : Nat :=
  (raysOf s c tno q).length +
  (((s.teamAt (teamKey c tno)).qreg q).pushed.filter fun p => recW p.words 0 % 16 = 1).length

/-! ### Words (R391 to R395, R422, R426, R429, R432) -/

/-- A ray word on a register that is not bound to the ray port (R392). -/
def qportTrap (q : QReg) : TrapInfo := { code := codeQport, val := BitVec.ofNat 64 q.port }

/-- A ray word whose register is bound to port 0x001. -/
def rayWord (i : Instr) (q : BitVec 4) (s : State) (f : State → QReg → Res) : Host.Outcome State Fault Refusal :=
  runWord i s fun s =>
    let x := s.team.qreg q.toNat
    if x.port ≠ 1 then .trap s (qportTrap x) else f s x

/-- QBUSY of a register, with the port it is bound to (R145, R156). -/
def qbusyTrap (q : QReg) : TrapInfo := { code := codeQbusy, val := BitVec.ofNat 64 q.port }

/-- HBIND (R393, R395). -/
def execHbind (q : BitVec 4) (a : BitVec 6) (k : BitVec 1) (sc : BitVec 3) (s : State) :
    Host.Outcome State Fault Refusal :=
  rayWord (.hbind q a k sc) q s fun s x =>
    let t := s.team
    if raysOf s t.id.crew t.id.tno q.toNat ≠ [] then .trap s (qbusyTrap x)
    else if memBusy s t.key then .block s .fence
    else
      let va := t.getS64 a.toNat
      teamAccess s va 64 .read fun s pa =>
        let s := if k = 1 then s.acquireTeam sc.toNat else s
        if plainPoison s t.id.die t.id.core pa 64 then .trap s { code := codeMceData, val := va &&& ~~~(0x7F#64) }
        else
          let bs := plainBytes s t.id.die t.id.core pa 64
          let w := (List.range 8).map fun j => BitVec.ofNat 64 (leNat ((bs.drop (8 * j)).take 8))
          match ctxFault w with
          | some d => .trap s { code := codeHctx, detail := d, val := va }
          | none => ok (bindBatches (s.updQ t.key q.toNat fun x => { x with ctx := some w }) q.toNat)

/-- HLOG (R426). -/
def execHlog (q : BitVec 4) (a : BitVec 6) (s : State) : Host.Outcome State Fault Refusal :=
  rayWord (.hlog q a) q s fun s x =>
    let t := s.team
    let base := t.getS64 a.toNat
    let lg := (t.getS (a.toNat + 2)).toNat
    let n := (t.getS (a.toNat + 3)).toNat
    let bad : Option Nat :=
      if base.toNat % 128 ≠ 0 then some 1
      else if lg < 7 || 20 < lg then some 2
      else if n = 0 || 2 ^ 24 < n then some 3
      else if vaClass base ≠ .localVa then some 4
      else none
    if raysOf s t.id.crew t.id.tno q.toNat ≠ [] then .trap s (qbusyTrap x)
    else if base = 0 then ok (s.updQ t.key q.toNat fun x => { x with logBase := 0, slotLog := 0, nslots := 0, dropped := 0 })
    else
      match bad with
      | some d => .trap s { code := codeHlogx, detail := d, val := base }
      | none => ok (s.updQ t.key q.toNat fun x => { x with logBase := base, slotLog := lg, nslots := n, dropped := 0 })

/-- One replayed ray; its slot is checked when it runs (R429, R430). -/
def replayRay (s : State) (qn : Nat) (p : Pushed) : State :=
  (newRay s s.team.id.crew {
    team := s.team.id.tno, q := qn, handle := 0, tag := p.words.getD 0 0, replay := true, pos := { phase := 4 }, batch := p.batch,
    stamp := p.stamp }).1

/-- The staged requests of a HREPLAY are accepted one mask word at a time, as far as there is credit (R23, R391). -/
def replayWords (qn : Nat) : Nat → State → Res
  | 0, s => ok s
  | n + 1, s =>
    let x := s.team.qreg qn
    match x.staged with
    | [] => ok s
    | p :: _ =>
      let l := x.staged.takeWhile fun y => y.lane / 32 = p.lane / 32
      if 256 < x.pushed.length + l.length then .block s .credit
      else
        let s := s.updQ s.team.key qn fun x => { x with staged := x.staged.drop l.length }
        replayWords qn n { l.foldl (fun s p => replayRay s qn p) s with progress := s.progress + 1 }

/-- HREPLAY (R389, R429): one ray for each active lane. -/
def execHreplay (q : BitVec 4) (v : BitVec 7) (k : BitVec 1) (sc : BitVec 3) (s : State) :
    Host.Outcome State Fault Refusal :=
  rayWord (.hreplay q v k sc) q s fun s x =>
    let t := s.team
    if x.staged ≠ [] then replayWords q.toNat 33 s
    else if 256 < rayCount s t.id.crew t.id.tno q.toNat + t.lanes.length then
      .trap s { code := codeHfull, detail := 1, val := q.setWidth 64 }
    else if k = 1 && memBusy s t.key then .block s .fence
    else
      let good : Nat → Bool := fun l => x.ctx.isSome && logFits x (t.getV v.toNat l).toNat
      let s := if k = 1 then s.acquireTeam sc.toNat else s
      let b := newBatch s (t.lanes.filter good).length
      let reqs : List Pushed := t.lanes.map fun l => {
        words := [t.getV v.toNat l], lane := l, stamp := s.nextOp, batch := if good l then b.2 else none }
      replayWords q.toNat 33 (b.1.updQ t.key q.toNat fun x => { x with staged := reqs })

/-- HSTAT (R432). -/
def execHstat (d : BitVec 6) (q : BitVec 4) (sel : BitVec 4) (s : State) : Host.Outcome State Fault Refusal :=
  rayWord (.hstat d q sel) q s fun s x =>
    let t := s.team
    let rays := raysOf s t.id.crew t.id.tno q.toNat
    let v := match sel.toNat with
      | 0 => x.results.length * 2 ^ 16 + rays.length
      | 1 => (rays.filter fun r => r.state = .call).length
      | 2 => (rays.filter fun r => r.state = .held).length
      | _ => x.dropped
    ok (s.mapTeam fun t => t.setS d.toNat (BitVec.ofNat 32 v))

/-- HINV (R422). -/
def execHinv (a b : BitVec 6) (s : State) : Host.Outcome State Fault Refusal :=
  runWord (.hinv a b) s fun s =>
    let t := s.team
    let va := t.getS64 a.toNat
    let n := (t.getS b.toNat).toNat
    let far := vaClass va == .fabric
    if vaClass va = .invalid then .trap s { code := codeAddr, detail := 0, val := va, mask := some t.m }
    else if (if far then 2 ^ 45 < fabOff va + n else 2 ^ 48 < va.toNat + n) then
      .trap s { code := codeAddr, detail := 3, val := va, mask := some t.m }
    else
      let c := s.core t.coreK
      let hit : Nat → Bool :=
        if far then fun l => n ≠ 0 && l * 128 < va.toNat + n && va.toNat < l * 128 + 128
        else fun l => (rangeLines s t.id.ctx t.id.die va.toNat n (c.node.map Prod.fst)).contains l
      ok (s.setCore t.coreK { c with node := smDrop hit c.node })

/-- HINV.ALL (R422). -/
def execHinvAll (s : State) : Host.Outcome State Fault Refusal :=
  runWord .hinvAll s fun s => ok (dropNode s s.team.coreK)

/-! ### Pops of a ray port (R416, R417) -/

/-- The reported translation results among the first `k` are removed and their rays go on at the read that faulted; this is
done until none is among them (R417). -/
def popReported (s : State) (qn k : Nat) : Nat → State
  | 0 => s
  | n + 1 =>
    let t := s.team
    let c := t.id.crew
    let held : QRes → Option Ray := fun x =>
      if x.kind = .trans then (raysOf s c t.id.tno qn).find? fun r => r.handle = x.handle && r.reported else none
    let q := t.qreg qn
    match (q.results.take k).findSome? held with
    | none => s
    | some r =>
      let s := s.updQ t.key qn fun q => { q with results := q.results.filter fun x => !(x.kind = .trans && x.handle = r.handle) }
      popReported { putRay s c { r with state := .run, fault := none, reported := false, unpopped := false } with
        progress := s.progress + 1 } qn k n

/-- The fault of a pop that would take translation results: of the first one's kind, in the lanes that would receive results
of that kind; those results become reported (R416). `lanes` are the lanes in order; a team pop gives all of them the one
result. -/
def popFault (s : State) (qn : Nat) (xs : List (QRes × List Nat)) : Option (State × TrapInfo) :=
  let t := s.team
  let c := t.id.crew
  let info : QRes → Option (Nat × Nat × W64) := fun x =>
    if x.kind = .trans then ((raysOf s c t.id.tno qn).find? fun r => r.handle = x.handle).bind fun r => r.fault else none
  match xs.findSome? fun x => info x.1 with
  | none => none
  | some f =>
    let bad := xs.filterMap fun x => (info x.1).bind fun g => if g.1 = f.1 then some (x.1.handle, x.2, g) else none
    let words := bad.flatMap fun b => b.2.1.map fun l => (l, b.2.2.2.2, ({ code := b.2.2.1, detail := b.2.2.2.1 } : XFault))
    let low := sortAsc (words.map Prod.fst)
    let first := words.find? fun w => some w.1 = low.head?
    let s := bad.foldl (fun s b =>
      match (raysOf s c t.id.tno qn).find? fun r => r.handle = b.1 with
      | some r => putRay s c { r with reported := true }
      | none => s) s
    some (s.mapTeam fun t => writeFaddr t words,
      {
        code := f.1, detail := (first.map fun w => w.2.2.detail).getD 0, val := (first.map fun w => w.2.1).getD 0,
        mask := some (maskOf (words.map Prod.fst)) })

/-- The rays whose results are popped: a final one is no longer alive, a CALL may run on when resumed (R389, R424). -/
def popRays (s : State) (qn : Nat) (xs : List QRes) : State :=
  let t := s.team
  let c := t.id.crew
  let cr := s.crew c
  let mine : Ray → QRes → Bool := fun r x => r.team = t.id.tno && r.q = qn && r.handle = x.handle
  s.setCrew c { cr with
    rays := (cr.rays.filter fun r => !(xs.any fun x => x.kind = .final && mine r x)).map fun r =>
      if xs.any fun x => x.kind = .call && mine r x then { r with unpopped := false } else r }

end Sys2Proof.Machine
end

