-- ==== Sys2Proof/Machine/Sections.lean ====
section
/-! DEFINITION. The sections of a save image: their layouts, the context-save codec, the image in memory and its decoding
(spec/05_launch_engine.md R192 to R197; spec/09_tile_copy_engine.md R339; spec/10_matrix_engine.md R387; spec/11_ray_engine.md R434, R435). -/

namespace Sys2Proof.Machine

/-! ### The copy engine's section (R339) -/

/-- The 80 bytes of an entry's record. -/
def Region.bytes (r : Region) : List Byte :=
  (List.range 8).flatMap (fun k => leBytes (r.desc.getD k 0).toNat 8) ++
  leBytes (r.state.code + r.gen.toNat * 2 ^ 8 + r.poison.toNat * 2 ^ 16 + r.acq.toNat * 2 ^ 17 + r.scope.toNat * 2 ^ 18) 8 ++ leBytes 0 8

/-- The state of a code of R330. -/
def regionState (n : Nat) : RegionState :=
  match n with | 1 => .absent | 2 => .filling | 3 => .full | 4 => .draining | _ => .free

/-- The entry that a record holds. -/
def regionOf (get : Nat → Byte) : Region :=
  let w : W64 := BitVec.ofNat 64 (leAt get 64 8)
  let d := (List.range 8).map fun k => BitVec.ofNat 64 (leAt get (8 * k) 8)
  {
    desc := if d.all (· = 0) then [] else d, acq := w.getLsbD 17, scope := w.extractLsb' 18 3, state := regionState (w.toNat % 8),
    gen := w.extractLsb' 8 8, poison := w.getLsbD 16 }

/-- The crew's part: the 32 records in entry order. -/
def copyBytes (c : Crew) : List Byte := (List.range 32).flatMap fun e => (c.region e).bytes

/-- A crew with the entries that the crew's part holds. -/
def loadCopy (c : Crew) (get : Nat → Byte) : Crew :=
  (List.range 32).foldl (fun c e => c.setRegion e (regionOf fun k => get (80 * e + k))) c

/-- A team's part: SEED, COUNTER, the continuation with bit 0 set when armed. -/
def teamCopyBytes (t : Team) : List Byte :=
  leBytes t.eng.seed.toNat 8 ++ leBytes t.eng.counter.toNat 8 ++
  leBytes (match t.eng.cyield with | some a => (a ||| 1#64).toNat | none => 0) 8 ++ leBytes 0 8

/-- A team with what its part holds. -/
def loadTeamCopy (t : Team) (get : Nat → Byte) : Team :=
  let a : W64 := BitVec.ofNat 64 (leAt get 16 8)
  { t with eng := { t.eng with
      seed := BitVec.ofNat 64 (leAt get 0 8), counter := BitVec.ofNat 64 (leAt get 8 8),
      cyield := if a.getLsbD 0 then some (a &&& ~~~1#64) else none } }

/-! ### The matrix engine's section (R387) -/

/-- A resume point of a substream: symbols, byte offset within the substream and state of its last marker, or of its start (R119, R125). -/
def markBytes (m : Matrix) (o : MatOp) (k : Nat) : List Byte :=
  let p := o.marks.getD k {}
  let x := if p.mcnt = 0 && o.isC then leAt (m.byte o.bslot) (subOff (m.byte o.bslot) k) 4 else p.mx
  leBytes p.mcnt 4 ++ leBytes p.mpos 4 ++ leBytes x 4

/-- STATE of an operation: suspended unissued, suspended issued, held. -/
def MatOp.saveState (o : MatOp) : Nat := if o.state = .held then 2 else if o.issued then 1 else 0

/-- The 448 bytes of an operation's record. -/
def opBytes (m : Matrix) (o : MatOp) : List Byte :=
  leBytes o.word.toNat 4 ++ leBytes o.desc.toNat 4 ++ leBytes o.gang.toNat 4 ++ leBytes o.saveState 1 ++ leBytes o.bank 1 ++ leBytes 0 2 ++
  leBytes o.steps 4 ++ leBytes ((o.code.map Coded.tile).getD 0) 4 ++ List.replicate 40 0 ++ (List.range 32).flatMap (markBytes m o)

/-- The 32 bytes of a slot's record. -/
def slotRecord (m : Matrix) (k : Nat) : List Byte :=
  let c := smGet none m.coded k
  leBytes ((c.map fun c => c.entry.toNat).getD 0) 16 ++ leBytes ((c.map Coded.tile).getD 0) 4 ++ leBytes c.isSome.toNat 4 ++ leBytes 0 8

/-- Numbers below `n` whose bit is set. -/
def bitsIn (n : Nat) (p : Nat → Bool) : List Nat := (List.range n).filter p

/-- The crew's part, in the order of R387. -/
def matBytes (m : Matrix) : List Byte :=
  let loaded := (bitsIn 8 fun c => (smGet none m.cbType c).isSome).foldl (fun n c => n + 2 ^ c) 0
  leBytes (m.slots.toNat + m.banks.toNat * 2 ^ 48 + m.cbs.toNat * 2 ^ 52) 8 ++ leBytes (m.tabs.toNat + loaded * 2 ^ 8) 8 ++
  (List.range 48).flatMap (slotRecord m) ++
  (List.range (4 * 384)).map (fun k => smGet 0 m.tab k) ++
  (List.range (8 * 2048)).map (fun k => smGet 0 m.cb k) ++
  ((List.range 8).map fun c => (((smGet none m.cbType c).map fun t => t.setWidth 8).getD 0 : Byte)) ++ leBytes 0 8 ++
  (bitsIn 48 m.slots.getLsbD).flatMap (fun k => (List.range 16384).map (m.byte k)) ++
  (bitsIn 4 m.banks.getLsbD).flatMap (fun b => (List.range 1024).flatMap fun e => leBytes (smGet 0 m.acc (b * 1024 + e)).toNat 8) ++
  leBytes m.ops.length 8 ++ m.ops.flatMap (opBytes m)

/-- The coded record that a slot's record holds. -/
def slotOf (get : Nat → Byte) : Option Coded :=
  if leAt get 20 4 = 0 then none else some { entry := BitVec.ofNat 128 (leAt get 0 16), tile := leAt get 16 4 }

/-- The operation that a record holds, over what is kept of it beside the image: an MMAC whose decode is not verified awaits its members
(R372, R386). -/
def opOf (old : MatOp) (coded : Nat → Option Coded) (get : Nat → Byte) : MatOp :=
  let o := { old with word := BitVec.ofNat 24 (leAt get 0 4), desc := BitVec.ofNat 32 (leAt get 4 4), gang := BitVec.ofNat 20 (leAt get 8 4) }
  let st := leAt get 12 1
  let marks := (List.range 32).map fun k =>
    let g : Nat → Nat := fun j => leAt get (64 + 12 * k + 4 * j) 4
    ({ cnt := g 0, pos := g 1 + 4, x := g 2, mcnt := g 0, mpos := g 1, mx := g 2 } : SubPos)
  { o with
    code := if o.isC then (coded o.bslot).map fun c => { c with tile := leAt get 20 4 } else none,
    state := if st = 2 then .held else if st = 0 && o.isC then .restored else .suspended, issued := st = 1, verified := st = 1 && o.isC,
    steps := leAt get 16 4, marks := if marks.all fun p => p.mcnt = 0 then [] else marks, work := none, leave := .free }

/-- Keys from `base` on with `n` bytes. -/
def keyed (base n : Nat) (get : Nat → Byte) : List (Nat × Byte) := (List.range n).map fun k => (base + k, get k)

/-- A matrix state with what the crew's part holds; operations of which nothing is kept beside it are numbered from `next` on. -/
def loadMat (m : Matrix) (next : Nat) (get : Nat → Byte) : Matrix :=
  let claims : W64 := BitVec.ofNat 64 (leAt get 0 8)
  let loads : W64 := BitVec.ofNat 64 (leAt get 8 8)
  let slots := claims.extractLsb' 0 48
  let banks := claims.extractLsb' 48 4
  let recs := 16
  let tabs := recs + 48 * 32
  let cbs := tabs + 4 * 384
  let types := cbs + 8 * 2048
  let data := types + 16
  let sl := bitsIn 48 slots.getLsbD
  let acc := data + sl.length * 16384
  let bk := bitsIn 4 banks.getLsbD
  let ops := acc + bk.length * 8192
  let coded : SMap (Option Coded) := smSetAll none [] ((List.range 48).map fun k => (k, slotOf fun j => get (recs + 32 * k + j)))
  { m with
    slots := slots, banks := banks, cbs := claims.extractLsb' 52 8, tabs := loads.extractLsb' 0 4, coded := coded,
    tab := smSetAll 0 [] (keyed 0 (4 * 384) fun k => get (tabs + k)),
    cb := smSetAll 0 [] (keyed 0 (8 * 2048) fun k => get (cbs + k)),
    cbType := smSetAll none [] ((List.range 8).map fun c => (c, if loads.getLsbD (8 + c) then some ((get (types + c)).setWidth 2) else none)),
    data := smSetAll 0 [] (((List.range sl.length).zip sl).flatMap fun e => keyed (e.2 * 16384) 16384 fun k => get (data + e.1 * 16384 + k)),
    acc := smSetAll 0 [] (((List.range bk.length).zip bk).flatMap fun e =>
      (List.range 1024).map fun k => (e.2 * 1024 + k, BitVec.ofNat 64 (leAt get (acc + e.1 * 8192 + 8 * k) 8))),
    ops := (List.range (leAt get ops 8)).map fun i =>
      opOf (m.ops.getD i { id := next + i, word := 0, desc := 0, gang := 0, code := none }) (smGet none coded)
        fun k => get (ops + 8 + 448 * i + k) }

/-- A team's part: the gang register and the stream fault record. -/
def teamMatBytes (t : Team) : List Byte :=
  leBytes t.eng.gang.toNat 4 ++ leBytes 0 4 ++ leBytes t.eng.stream0.toNat 8 ++ leBytes t.eng.stream1.toNat 8 ++ leBytes 0 8

/-- A team with what its part holds. -/
def loadTeamMat (t : Team) (get : Nat → Byte) : Team :=
  { t with eng := { t.eng with
      gang := BitVec.ofNat 20 (leAt get 0 4), stream0 := BitVec.ofNat 64 (leAt get 8 8), stream1 := BitVec.ofNat 64 (leAt get 16 8) } }

/-! ### The ray engine's section (R434, R435) -/

/-- STATE of a ray; of one that has ended and whose final result waits, R435 gives none: a free one of the other codes (log entry 90). -/
def Ray.stateCode (r : Ray) : Nat :=
  match r.state with | .run => 1 | .call => 2 | .held => 3 | .ended => 4 + Config.endedState % 12

/-- PHASE of a ray: a replay in a leaf's or a user surface's entry is in a leaf or a user surface, and one between entries visits (R429, R435). -/
def RayPos.phaseCode (p : RayPos) : Nat :=
  if p.phase < 4 then p.phase else if p.phase = 7 then 2 else if p.phase = 8 then 3 else 0

/-- The phase that a PHASE field stands for; a replay that has taken no entry yet is at its header or at the check of its entries. -/
def phaseOf (replay : Bool) (code node logn : Nat) : Nat :=
  if !replay then code
  else if code = 2 then 7
  else if code = 3 then 8
  else if logn ≠ 0 then 6
  else if node = 0 then 4
  else 5

/-- CTL of a ray's state. -/
def Ray.ctl (r : Ray) : Nat :=
  r.stateCode + r.first.toNat * 2 ^ 4 + r.log.toNat * 2 ^ 5 + r.replay.toNat * 2 ^ 6 + r.lost.toNat * 2 ^ 7 + r.pos.slot * 2 ^ 8 +
  r.reported.toNat * 2 ^ 11 + r.pos.phaseCode * 2 ^ 12 + r.pos.primoff % 16 * 2 ^ 16 + r.rel.toNat * 2 ^ 20 + r.scope.toNat * 2 ^ 21

/-- FADDR of a ray: the page, the code and the DETAIL it is held by (R282). -/
def Ray.faddr (r : Ray) : W64 :=
  match r.fault with
  | some (c, d, va) => va.extractLsb' 16 48 ++ BitVec.ofNat 8 c ++ BitVec.ofNat 8 d
  | none => 0

/-- The 128 bytes of a ray's state. -/
def Ray.bytes (r : Ray) : List Byte :=
  let w : W64 → List Byte := fun v => leBytes v.toNat 8
  (List.range 3).flatMap (fun k => w (r.geo.org.getD k 0)) ++ (List.range 3).flatMap (fun k => w (r.geo.dir.getD k 0)) ++
  w r.geo.tmin ++ w r.geo.tmax ++ w r.geo.hu ++ w r.geo.hv ++
  leBytes (match r.geo.hit with | some (k, i) => k * 2 ^ 60 + i | none => 0) 8 ++ w r.geo.huser ++
  leBytes r.tag.toNat 4 ++ leBytes r.handle.toNat 4 ++ leBytes r.ctl 4 ++ leBytes r.pos.logn 4 ++ leBytes r.pos.node 4 ++
  leBytes r.pos.frm 4 ++ w r.faddr

/-- The ray that a state holds, over what is kept of it beside the image. -/
def rayOf (old : Ray) (get : Nat → Byte) : Ray :=
  let w : Nat → W64 := fun o => BitVec.ofNat 64 (leAt get o 8)
  let n : Nat → Nat := fun o => leAt get o 4
  let ctl : W32 := BitVec.ofNat 32 (n 0x68)
  let f := w 0x78
  let prim := (w 0x50).toNat
  let phase := (ctl.extractLsb' 12 2).toNat
  { old with
    geo := { old.geo with
      org := [w 0, w 8, w 16], dir := [w 24, w 32, w 40], tmin := w 0x30, tmax := w 0x38, hu := w 0x40, hv := w 0x48,
      hit := if prim = 0 then none else some (prim / 2 ^ 60, prim % 2 ^ 40), huser := w 0x58 },
    tag := BitVec.ofNat 32 (n 0x60), handle := BitVec.ofNat 32 (n 0x64),
    state := match (ctl.extractLsb' 0 4).toNat with | 1 => .run | 2 => .call | 3 => .held | _ => .ended,
    first := ctl.getLsbD 4, log := ctl.getLsbD 5, replay := ctl.getLsbD 6, lost := ctl.getLsbD 7, reported := ctl.getLsbD 11,
    rel := ctl.getLsbD 20, scope := ctl.extractLsb' 21 3,
    pos := {
      node := n 0x70, frm := n 0x74, slot := (ctl.extractLsb' 8 3).toNat, primoff := (ctl.extractLsb' 16 4).toNat, logn := n 0x6C,
      phase := if old.replay = ctl.getLsbD 6 && old.pos.phaseCode = phase then old.pos.phase
        else phaseOf (ctl.getLsbD 6) phase (n 0x70) (n 0x6C) },
    fault := if f = 0 then none
      else some ((f.extractLsb' 8 8).toNat, (f.extractLsb' 0 8).toNat,
        match old.fault with
        | some (_, _, va) => if va.extractLsb' 16 48 = f.extractLsb' 16 48 then va else f &&& ~~~(0xFFFF#64)
        | none => f &&& ~~~(0xFFFF#64)),
    lines := [] }

/-- The registers of a team bound to the ray engine, ascending. -/
def rayRegs (t : Team) : List Nat := (List.range 16).filter fun q => (t.qreg q).port = 1

/-- The rays of a register by ascending entry. -/
def raysByEntry (s : State) (key q : Nat) : List Ray :=
  let l := raysOf s (key / 16) (key % 16) q
  (List.range 256).flatMap fun e => l.filter fun r => r.handle.toNat % 256 = e

/-- A register's block: its header and its rays' states. -/
def rayBlock (s : State) (key q : Nat) : List Byte :=
  let x := (s.teamAt key).qreg q
  let l := raysByEntry s key q
  leBytes q 4 ++ leBytes l.length 4 ++ leBytes x.logBase.toNat 8 ++ leBytes x.slotLog 4 ++ leBytes x.nslots 4 ++ leBytes x.dropped 4 ++
  leBytes x.seq 4 ++ List.replicate 32 0 ++ (List.range 8).flatMap (fun k => leBytes ((x.ctx.getD []).getD k 0).toNat 8) ++ l.flatMap Ray.bytes

/-- A team's part. -/
def rayBytes (s : State) (key : Nat) : List Byte := (rayRegs (s.teamAt key)).flatMap (rayBlock s key)

/-- A queue register with what its block's header holds. -/
def loadRayReg (x : QReg) (get : Nat → Byte) : QReg :=
  let ctx := (List.range 8).map fun k => BitVec.ofNat 64 (leAt get (0x40 + 8 * k) 8)
  { x with
    logBase := BitVec.ofNat 64 (leAt get 8 8), slotLog := leAt get 0x10 4, nslots := leAt get 0x14 4, dropped := leAt get 0x18 4,
    seq := leAt get 0x1C 4 % 2 ^ 24, ctx := if ctx.all (· = 0) then none else some ctx }

/-- One block of a team's part is loaded: its register and its rays. -/
def loadRayBlock (s : State) (key : Nat) (get : Nat → Byte) : State :=
  let q := leAt get 0 4 % 16
  let c := key / 16
  let s := s.updQ key q fun x => loadRayReg x get
  let mine : Ray → Bool := fun r => r.team = key % 16 && r.q = q
  let old : Nat → Ray := fun h => ((s.crew c).rays.find? fun r => mine r && r.handle.toNat = h).getD { team := key % 16, q := q, handle := 0, tag := 0 }
  let new := (List.range (leAt get 4 4)).map fun k =>
    let g : Nat → Byte := fun j => get (128 + 128 * k + j)
    rayOf (old (leAt g 0x64 4)) g
  s.setCrew c { s.crew c with rays := (s.crew c).rays.filter (fun r => !mine r) ++ new }

/-- The blocks of a team's part of `len` bytes are loaded. -/
def loadRays (key len : Nat) (get : Nat → Byte) : Nat → Nat → State → State
  | 0, _, s => s
  | n + 1, off, s =>
    if len < off + 128 then s
    else loadRays key len get n (off + 128 + 128 * leAt get (off + 4) 4) (loadRayBlock s key fun k => get (off + k))

/-! ### Sections (R195, R196) -/

/-- A section: its identifier and team, and the bytes of its state. -/
structure Section where
  sid : Nat
  team : Nat
  bytes : List Byte

/-- The sections of a crew's image in the directory's order, as ID and TEAM (R195). -/
def imageSections (s : State) (c : Nat) : List (Nat × Nat) :=
  ([0x07, 0x08, 0x04, 0x05].map fun i => (i, 0xFF)) ++
  (teamKeys s c).flatMap fun k => [0x07, 0x08, 0x09, 0x01, 0x02, 0x03, 0x06, 0x0A].map fun i => (i, k % 16)

/-- The bytes of a section's state: those of R339, R387 and R434; the spec gives the others no layout, and Layouts.lean has the model's own (DESIGN
CHOICE, log entry 13). -/
def sectionBytes (s : State) (c : Nat) (e : Nat × Nat) : List Byte :=
  let cr := s.crew c
  let t := s.teamAt (teamKey c e.2)
  if e.2 = 0xFF then
    match e.1 with
    | 0x07 => copyBytes cr
    | 0x08 => matBytes cr.mat
    | 0x04 => windowBytes cr
    | _ => barrierBytes cr
  else
    match e.1 with
    | 0x07 => teamCopyBytes t
    | 0x08 => teamMatBytes t
    | 0x09 => rayBytes s (teamKey c e.2)
    | 0x01 => seqBytes t
    | 0x02 => scalarBytes t
    | 0x03 => vectorBytes t
    | 0x06 => queueBytes t
    | _ => bufferBytes s t

/-- The sections of a crew's image. -/
def crewSections (s : State) (c : Nat) : List Section :=
  (imageSections s c).map fun e => { sid := e.1, team := e.2, bytes := sectionBytes s c e }

/-- The frequencies of a table that the context-save codec of a die holds (R196). -/
def saveFreqs (s : State) (d t : Nat) : Option (List Nat) :=
  match (s.die d).saveTabs[t]? with
  | none => none
  | some bs => if freqsOk (freqsOf fun k => bs.getD k 0) then some (freqsOf fun k => bs.getD k 0) else none

/-- The coded form of a section under a table, when every byte has a code and it is shorter (R118, R196). -/
def codedForm (fr : List Nat) (t : Nat) (raw : List Byte) : Option (List Byte) :=
  let syms := raw.map BitVec.toNat
  let tile := encodeTile fr 7 t syms
  if raw = [] || 2 ^ 24 ≤ raw.length || (syms.any fun y => fr.getD y 0 = 0) || raw.length ≤ tile.length then none else some tile

/-- How a section is stored: whether coded, the table, which is the hardware's choice, and the bytes (R196). -/
def storedForm (s : State) (d t : Nat) (raw : List Byte) : Bool × Nat × List Byte :=
  match (saveFreqs s d t).bind fun fr => codedForm fr t raw with
  | some bs => (true, t, bs)
  | none => (false, t, raw)

/-- A directory entry (R195). -/
def directoryEntry (x : Section) (f : Bool × Nat × List Byte) (off : Nat) : List Byte :=
  leBytes (x.sid * 2 ^ 96 + x.team * 2 ^ 88 + f.1.toNat * 2 ^ 84 + f.2.1 % 16 * 2 ^ 80 + x.bytes.length * 2 ^ 56 + f.2.2.length * 2 ^ 32 + off) 16

/-- Round up to the next multiple of 128. -/
def upTo128 (n : Nat) : Nat := (n + 127) / 128 * 128

/-- Sections are written, each from the next multiple of 128 on, as far as the save area reaches (R194). -/
def writeSections (d area n : Nat) : Nat → Nat → List Section → State → State
  | _, _, [], s => s
  | k, off, x :: r, s =>
    let x := { x with bytes := x.bytes.take (2 ^ 22 - off) }
    let f := storedForm s d (Config.choice (n + k) % 4) x.bytes
    let s := setHomeBytes s (area + 64 + 16 * k) (directoryEntry x f off)
    writeSections d area n (k + 1) (upTo128 (off + f.2.2.length)) r (setHomeBytes s (area + off) f.2.2)

/-- Write a crew's image: header, directory, sections (R192, R194 to R196). -/
def writeImage (s : State) (c : Nat) : State :=
  let cr := s.crew c
  let l := crewSections s c
  let s := setHomeBytes s cr.area (imageHeader s c l.length)
  let u := writeSections cr.die cr.area s.fresh 0 (upTo128 (64 + 16 * l.length)) l s
  { u with fresh := u.fresh + l.length + 1 }

/-! ### Decoding (R196, R197) -/

/-- The state's bytes of a section as stored: none for a decoding fault (R118, R123, R197). -/
def decodeSection (s : State) (d : Nat) (coded : Bool) (table raw len : Nat) (get : Nat → Byte) : Option (List Byte) :=
  if !coded then (if raw = len then some ((List.range len).map get) else none)
  else
    let h := tileHeader get
    match saveFreqs s d table with
    | none => none
    | some fr =>
      match headerFault h (· == 7) (· == table) with
      | some _ => none
      | none =>
        if h.count ≠ raw || h.sc then none
        else
          match decodeTile fr get len h fun _ => false with
          | .error _ => none
          | .ok syms => some (syms.map (BitVec.ofNat 8))

/-- The section that a directory entry of an image names, decoded by a die's codec: none for a fault or an uncorrectable byte. -/
def readSection (s : State) (d area k : Nat) : Option Section :=
  let e := leAt (homeByte s) (area + 64 + 16 * k) 16
  let len := bitsAt e 32 24
  let off := bitsAt e 0 32
  if 2 ^ 22 < off + len || anyPoison s (area + 64 + 16 * k) 16 || anyPoison s (area + off) len then none
  else
    (decodeSection s d (bitsAt e 84 1 = 1) (bitsAt e 80 4) (bitsAt e 56 24) len fun j => homeByte s (area + off + j)).map fun bs =>
      { sid := bitsAt e 96 8, team := bitsAt e 88 8, bytes := bs }

/-- Every section of an image, from the `k`-th on: none when one of them cannot be decoded. -/
def readSections (s : State) (d area : Nat) : Nat → Nat → Option (List Section)
  | 0, _ => some []
  | n + 1, k =>
    match readSection s d area k, readSections s d area n (k + 1) with
    | some x, some l => some (x :: l)
    | _, _ => none

/-- The sections of the image in a crew's save area. -/
def readImage (s : State) (c : Nat) : Option (List Section) :=
  let cr := s.crew c
  readSections s cr.die cr.area (leAt (homeByte s) (cr.area + 6) 2) 0

/-- A byte of a section. -/
def Section.byte (x : Section) (k : Nat) : Byte := x.bytes.getD k 0

/-- A section of the whole crew is loaded. -/
def loadCrewSection (c : Nat) (s : State) (x : Section) : State :=
  let cr := s.crew c
  match x.sid with
  | 0x07 => s.setCrew c (loadCopy cr x.byte)
  | 0x08 =>
    let u := s.setCrew c { cr with mat := loadMat cr.mat s.nextOp x.byte }
    { u with nextOp := u.nextOp + (u.crew c).mat.ops.length }
  | 0x04 => s.setCrew c (rdWindow cr x.bytes).1
  | 0x05 => s.setCrew c (rdBarriers cr x.bytes).1
  | _ => s

/-- A section of a team is loaded. -/
def loadTeamSection (key : Nat) (s : State) (x : Section) : State :=
  match x.sid with
  | 0x07 => s.updTeam key fun t => loadTeamCopy t x.byte
  | 0x08 => s.updTeam key fun t => loadTeamMat t x.byte
  | 0x09 => loadRays key x.bytes.length x.byte 17 0 s
  | 0x01 => s.updTeam key fun t => (rdSeq t x.bytes).1
  | 0x02 => s.updTeam key fun t => (rdScalars t x.bytes).1
  | 0x03 => s.updTeam key fun t => (rdVectors t x.bytes).1
  | 0x06 => s.updTeam key fun t => (rdQueues t x.bytes).1
  | 0x0A => (rdBuffer s key x.bytes).1
  | _ => s

/-- A section is loaded into the crew or a team of it; one that names no team of the crew loads nothing (log entry 13). -/
def loadSection (c : Nat) (s : State) (x : Section) : State :=
  if x.team = 0xFF then loadCrewSection c s x else if x.team < 16 then loadTeamSection (teamKey c x.team) s x else s

/-- Every section of an image is loaded. -/
def loadSections (c : Nat) (l : List Section) (s : State) : State := l.foldl (loadSection c) s

/-- The images of the saved crews follow what a step brought them after their capture: one whose teams or whose record it changed is written anew,
of any other PENDING, MISSING and the class byte (R30, R190, R201, R288, R471; log entry 13). -/
def followImages (old new : State) : State :=
  new.crews.foldl (fun s e =>
    if e.2.state != .saved then s
    else if old.crew e.1 = new.crew e.1 && (teamKeys new e.1).all fun k => old.teamAt k = new.teamAt k then syncImage s e.1
    else writeImage s e.1) new

end Sys2Proof.Machine
end

