-- ==== Sys2Proof/Machine/Fabric.lean ====
section
/-! DEFINITION. Remote stores, reductions and atomics, remote records and reservations, and what the transport does with
packets (spec/12_fabric_engine.md R438 to R476). -/

namespace Sys2Proof.Machine

/-- RSVX (R464). -/
def codeRsvx : Nat := 0x91

/-! ### Remote words (R450, R454) -/

/-- A team with M narrowed to the lanes in which a predicate holds. -/
def Team.narrow (t : Team) (p : Nat) : Team :=
  let pm := t.getP p
  { t with m := t.m &&& pm, group := t.group.map fun g => { g with m := g.m &&& pm } }

/-- What stands between a word and its effective lanes: a pending register, which ends the quantum, in supervisor state too, when a deferred atomic
is to write it, or a marker (R29, R254, R273, R309). -/
def laneHazard (s : State) (t : Team) (vr vw : List Span) : Option Res :=
  let u : Usage := { pipe := .x, vr := vr, vw := vw }
  if stalled u t then
    some (if t.id.quantum.isSome && pendingDeferred u t then .block (s.mapTeam Team.endQuantum) .quantum else .block s .pending)
  else (poisoned u t).map fun i => .trap s i

/-- Insert items in order, from where the word stopped before; then what the word does when it issues (R441). `first` comes with the first
insertion: a word that has inserted nothing has had no effect (R188, R441, R471). -/
def insertItems (s : State) (job : Nat) (items : List (Nat × SpItem)) (first : State → State) (go : State → Res) : Res :=
  let k := (s.team.arr 2).getD 0
  let s := if (s.team.arr 2).isNone then clearEvicted s s.team.id.die s.team.key else s
  match spInsertAll s.team.id.die job k (items.drop k) s with
  | (s, some j) => .block ((if k = 0 && j ≠ 0 then first s else s).mapTeam fun t => t.setArr 2 (some j)) .engine
  | (s, none) => go ((if k = 0 && items ≠ [] then first s else s).mapTeam fun t => t.setArr 2 none)

/-- The kinds of a remote word (R460, R473). -/
def kindStore : BitVec 2 := 0
/-- RRED. -/
def kindRed : BitVec 2 := 1
/-- RAMO. -/
def kindAmo : BitVec 2 := 2

/-- The bytes of a remote access (R450): 8 for .fxadd. -/
def remoteSize (kind : BitVec 2) (w : Bool) (opn : BitVec 4) : Nat := if w || (kind = kindRed && opn = 12) then 8 else 4

/-- The checks of a remote word over its effective lanes (R454). -/
def remoteCheck (as : List (Nat × W64)) (job : Option Nat) (size : Nat) : Option TrapInfo :=
  match failing as (fun va => job.isNone || !(vaClass va == .fabric)) with
  | some (m, va) => some { code := codeAddr, detail := 2, val := va, mask := some m }
  | none =>
    match failing as (fun va => fabOff va % size ≠ 0) with
    | some (m, va) => some { code := codeAlign, detail := size, val := va, mask := some m }
    | none => none

/-- The RAMO of a team that has not issued. -/
def openRamo (s : State) : Option Op :=
  s.ops.find? fun o => o.team = s.team.key && (match o.kind with | .ramo r => !r.issued | _ => false)

/-- A RAMO gets its operation before its first insertion, so that early replies find it (R441, R456). -/
def ensureRamo (s : State) (r : RamoOp) : State × Nat :=
  match openRamo s with
  | some o => (s, o.id)
  | none => (startOp s (.ramo r), s.nextOp)

/-- One lane of a RAMO receives its old value, or a marker with the reason (R456). -/
def ramoLane (s : State) (o : Op) (r : RamoOp) (l reason : Nat) (old : W64) (va : W64) : State :=
  let n := if r.wide then 2 else 1
  s.updTeam o.team fun t =>
    if reason = 0 then t.setVn r.d l old.toNat n else t.markV r.d l (.remoteOld reason va) n

/-- A lane of a RAMO that has issued is done: its mask word stops being pending with its last lane, the word completes with
all (R456). -/
def ramoDone (s : State) (o : Op) (r : RamoOp) (l : Nat) : State :=
  let left := r.lanes.filter (· ≠ l)
  let n := if r.wide then 2 else 1
  let s := if left.any fun x => x / 32 = l / 32 then s else s.updTeam o.team fun t => t.vPend r.d n [l / 32] 0
  let o' := { o with kind := .ramo { r with lanes := left } }
  if left = [] then finishOp s o' else { s.updOp o.id (fun _ => o') with progress := s.progress + 1 }

/-- The result of one lane reaches its RAMO; one that has not issued keeps it (R441, R456). -/
def ramoResult (s : State) (id l reason : Nat) (old va : W64) : State :=
  match s.op id with
  | none => s
  | some o =>
    match o.kind with
    | .ramo r =>
      if r.issued then ramoDone (ramoLane s o r l reason old va) o r l
      else s.updOp id fun o => { o with kind := .ramo { r with got := r.got ++ [(l, reason, if reason = 0 then old else va)] } }
    | _ => s

/-- A RAMO issues: its destination lanes become pending, and what came early is written (R454, R456). -/
def issueRamo (s : State) (id : Nat) : State :=
  match s.op id with
  | none => s
  | some o =>
    match o.kind with
    | .ramo r =>
      let words := maskWords s.team.id.width (maskOf r.lanes)
      let s := s.mapTeam fun t => t.vPend r.d (if r.wide then 2 else 1) words (id + 1)
      let s := s.updOp id fun o => { o with kind := .ramo { r with issued := true, got := [] } }
      r.got.foldl (fun s g => ramoResult s id g.1 g.2.1 g.2.2 g.2.2) s
    | _ => s

/-- A word of opcode 0x7C (R447, R454): RAMO takes an operation, and with ACQ its team waits for it. -/
def remoteWord (i : Instr) (kind : BitVec 2) (w : BitVec 1) (a d : BitVec 7) (opn : BitVec 4) (p : BitVec 3) (s : State) :
    Host.Outcome State Fault Refusal :=
  runWord i s fun s =>
    let o := s.team.atOrd
    let tn := s.team.narrow p.toNat
    let n := if w = 1 then 2 else 1
    let dst : Span := grp n d
    match laneHazard s tn [grp 2 a, dst] (if kind = kindAmo then [dst] else []) with
    | some r => r
    | none =>
      let t := s.team
      let lanes := lanesOf t.id.width tn.mSrc
      let as := lanes.map fun l => (l, t.getV64 a.toNat l)
      let job := jobOf s t.id.die t.id.ctx
      match remoteCheck as job (remoteSize kind (w = 1) opn) with
      | some x => .trap s x
      | none =>
        let go : State → Res := fun s =>
          let r := if kind = kindAmo && lanes ≠ [] then ensureRamo s { d := d.toNat, wide := w = 1, lanes := lanes } else (s, 0)
          let id := r.2
          let items := as.map fun e =>
            (fabDev e.2, ({
              team := t.key, lane := e.1, pc := t.pc,
              body := .el e.2 (BitVec.ofNat 64 (t.getVn d.toNat e.1 n)) kind (w = 1) opn (if kind = kindAmo then some id else none) } : SpItem))
          insertItems r.1 (job.getD 0) items State.clearIdem fun s =>
            if kind = kindAmo && lanes ≠ [] then
              let s := if o.acq then s.mapTeam fun t => { t with eng := { t.eng with acq := some (id, o.scope) } } else s
              ok (issueRamo s id)
            else if o.acq then withAcquire s o.scope ok
            else ok s
        if o.rel && (t.arr 2).isNone then withRelease s o.scope go else go s

/-- RSTW (R454). -/
def execRstw (w : BitVec 1) (a d : BitVec 7) (p : BitVec 3) (s : State) : Host.Outcome State Fault Refusal :=
  remoteWord (.rstw w a d p) kindStore w a d 0 p s

/-- RRED (R454). -/
def execRred (w : BitVec 1) (a d : BitVec 7) (o : BitVec 4) (p : BitVec 3) (s : State) : Host.Outcome State Fault Refusal :=
  remoteWord (.rred w a d o p) kindRed w a d o p s

/-- RAMO (R454, R456). -/
def execRamo (w : BitVec 1) (a d : BitVec 7) (o : BitVec 4) (p : BitVec 3) (s : State) : Host.Outcome State Fault Refusal :=
  remoteWord (.ramo w a d o p) kindAmo w a d o p s

/-! ### AFLUSH and AFSTAT (R457, R458) -/

/-- UNREP to sD, and UNREP becomes 0. -/
def takeUnrep (s : State) (d : BitVec 6) : State :=
  s.mapTeam fun t => { t.setS d.toNat (BitVec.ofNat 32 t.rf.unrep) with rf := { t.rf with unrep := 0 } }

/-- A flush of some destinations (R457). -/
def flushWord (i : Instr) (d : BitVec 6) (dest : Team → Nat → Bool) (s : State) : Host.Outcome State Fault Refusal :=
  runWord i s fun s =>
    let t := s.team
    let s := flushTeam s t.id.die t.key (dest t)
    if spindleCount s t.id.die t.key (dest t) ≠ 0 then .block s .fence else ok (takeUnrep s d)

/-- AFLUSH: the destination device is sA[16:0] (R457). -/
def execAflush (d a : BitVec 6) (s : State) : Host.Outcome State Fault Refusal :=
  flushWord (.aflush d a) d (fun t x => x == (t.getS a.toNat).toNat % 2 ^ 17) s

/-- AFLUSH.all (R457). -/
def execAflushAll (d : BitVec 6) (s : State) : Host.Outcome State Fault Refusal :=
  flushWord (.aflushAll d) d (fun _ _ => true) s

/-- AFSTAT.fail (R458). -/
def execAfstatFail (d : BitVec 6) (s : State) : Host.Outcome State Fault Refusal :=
  runWord (.afstatFail d) s fun s => ok (takeUnrep s d)

/-- AFSTAT.pend (R458). -/
def execAfstatPend (d : BitVec 6) (s : State) : Host.Outcome State Fault Refusal :=
  runWord (.afstatPend d) s fun s =>
    let n := spindleCount s s.team.id.die s.team.key fun _ => true
    ok (s.mapTeam fun t => t.setS d.toNat (BitVec.ofNat 32 (if n < 2 ^ 32 then n else 2 ^ 32 - 1)))

/-! ### Element failures at the initiator (R459, R460) -/

/-- KIND, W and OPN of an item in a fault record (R460). -/
def SpItem.code (i : SpItem) : Nat :=
  match i.body with
  | .el _ _ kind w opn _ => (kind.toNat + 1) + (if w then 8 else 0) + opn.toNat * 16
  | .rc _ _ _ => 4

/-- The address and the data of a fault record (R460). -/
def SpItem.what (i : SpItem) (dest : Nat) : W64 × W64 :=
  match i.body with
  | .el va data _ _ _ _ => (va, data)
  | .rc queue _ words => (BitVec.ofNat 64 (dest % 2 ^ 17 + queue * 2 ^ 24), (words.getD 1 0) ++ (words.getD 0 0))

/-- The 32 bytes of a fault record (R460). -/
def rfRecord (i : SpItem) (dest reason : Nat) : List Byte :=
  let w := i.what dest
  leBytes w.1.toNat 8 ++ leBytes w.2.toNat 8 ++ leBytes (i.code + reason * 256 + i.lane * 65536) 4 ++ List.replicate 4 0 ++
  leBytes i.pc.toNat 8

/-- The engine stores a fault record at TEAM scope; one that faults is dropped (R459). -/
def storeRf (s : State) (t : Team) (bs : List Byte) : State :=
  let va := t.rf.base + BitVec.ofNat 64 (32 * (t.rf.count.toNat % t.rf.slots.toNat))
  if t.rf.base = 0 || t.rf.slots = 0 || !(vaClass va == .localVa) then s
  else
    match transNow s t.id.die t.id.ctx va .write false with
    | (s, .error _) => s
    | (s, .ok pa) =>
      if (s.crew t.id.crew).state = .saved then setHomeBytes s pa bs else storeBytes s t.id.die t.id.core pa bs

/-- One item fails with a reason (R456, R459); of a crew that its function's FLR discarded nothing is reported (R484). -/
def failItem (s : State) (dest : Nat) (i : SpItem) (reason : Nat) : State :=
  let t := s.teamAt i.team
  if t.key ≠ i.team then { s with progress := s.progress + 1 }
  else
    let s := storeRf s t (rfRecord i dest reason)
    let s := s.updTeam i.team fun t =>
      let t := { t with rf := { t.rf with count := t.rf.count + 1 } }
      if t.id.alive then { t.raise flagRF with rf := { t.rf with unrep := if t.rf.unrep + 1 < 2 ^ 32 then t.rf.unrep + 1 else 2 ^ 32 - 1 } }
      else t
    let s := match i.body with
      | .el va _ _ _ _ (some id) => ramoResult s id i.lane reason 0 va
      | _ => s
    { s with progress := s.progress + 1 }

/-- Items fail in order. -/
def failItems (s : State) (dest reason : Nat) (l : List SpItem) : State := l.foldl (fun s i => failItem s dest i reason) s

/-! ### Departure (R442, R444, R462, R476) -/

/-- SPINDLE_AGE_DEPART (R442): the site's buffer has held its oldest item for AGELIM cycles. -/
def execSpindleAgeDepart (s : State) : Host.Outcome State Fault Refusal :=
  let d := s.site.die
  match (s.spin d).bufs[s.site.n]? with
  | none => .next s
  | some b =>
    if b.departing || s.now d < b.first + (s.fab d).agelim.toNat then .next s
    else .next { departBufs s d (fun x => x == b) with progress := s.progress + 1 }

/-- An item on the wire (R473). -/
def SpItem.element (i : SpItem) : Element :=
  match i.body with
  | .el va data kind w opn _ => ({ off := BitVec.ofNat 45 (fabOff va), data := data, kind := kind, w := w, opn := opn } : ElemFields).pack
  | .rc _ _ _ => 0

/-- A record on the wire: the epoch of its reservation and its words (R468). -/
def SpItem.record (i : SpItem) : Nat × List W32 :=
  match i.body with
  | .rc _ epoch words => (epoch, words)
  | .el _ _ _ _ _ _ => (0, [])

/-- The packet of some items of one buffer (R472). -/
def packetOf (s : State) (d : Nat) (b : SpBuf) (seq : Nat) (items : List SpItem) : NetMsg :=
  if b.recs then
    .record {
      srcDev := s.devno d, srcDie := d, dstDev := b.dest, job := b.job, seq := seq,
              queue := ((items.head?.bind fun i => i.body.queue).getD 0), recs := items.map SpItem.record }
  else .store { srcDev := s.devno d, srcDie := d, dstDev := b.dest, job := b.job, seq := seq, elems := items.map SpItem.element }

/-- A packet of items is on its way: its sequence in its stream, and the timer of R462. -/
def sendPacket (s : State) (d : Nat) (b : SpBuf) (items : List SpItem) : State :=
  let x := s.spin d
  let s := s.setSpin d (x.depart { seq := 0, dest := b.dest, job := b.job, recs := b.recs, items := items, sent := s.now d })
  s.send b.dest (packetOf s d b (x.next b.dest b.job b.recs) items)

/-- PACKET_HANDOFF (R442, R444, R476): the site's buffer, the first departing one of its flow, is handed to the transport
and becomes EMPTY; an uncorrectable element fails with LPOISON, and every item for an unreachable device with UNREACH. -/
def execPacketHandoff (s₀ : State) : Host.Outcome State Fault Refusal :=
  let s := s₀
  let d := s.site.die
  let x := s.spin d
  match x.bufs[s.site.n]? with
  | none => .next s
  | some b =>
    if !b.departing || 1024 ≤ x.flight.length ||
        (x.bufs.take s.site.n).any fun o => o.dest = b.dest && o.job = b.job && o.recs == b.recs then .next s
    else
      let s := { s.setSpin d { x with bufs := x.bufs.eraseIdx s.site.n } with progress := s.progress + 1 }
      let lost := s.lost b.dest
      let bad := b.items.filter fun i => i.bad || lost
      let good := b.items.filter fun i => !(i.bad || lost)
      let s := bad.foldl (fun s i => failItem s b.dest i (if i.bad then 7 else 9)) s
      .next (followImages s₀ (if good = [] then s else sendPacket s d b good))

/-- A packet leaves the list of those not acknowledged. -/
def dropFlight (s : State) (d : Nat) (f : Flight) : State :=
  let x := s.spin d
  { s.setSpin d { x with flight := x.flight.filter (· ≠ f) } with progress := s.progress + 1 }

/-- The cancel of the request with sequence `n` leaves on its flow's record stream (R468, R473). -/
def sendCancel (s : State) (d dev job n queue count : Nat) : State :=
  s.sendOn d dev job fun seq =>
    .cancel { srcDev := s.devno d, srcDie := d, dstDev := dev, job := job, seq := seq, queue := queue, count := count, request := n }

/-- PACKET_TIMEOUT (R462): the packet at the site's place among those not acknowledged has been away for RTIMEOUT cycles; a reservation request
whose team has been discarded is cancelled (R468, R484). -/
def execPacketTimeout (s : State) : Host.Outcome State Fault Refusal :=
  let d := s.site.die
  match (s.spin d).flight[s.site.n]? with
  | none => .next s
  | some f =>
    if s.now d < f.sent + (s.fab d).rtimeout.toNat then .next s
    else
      match f.resv with
      | none => .next (followImages s (failItems (dropFlight s d f) f.dest 8 f.items))
      | some (id, queue, count) =>
        if (s.op id).isSome then .next s
        else
          .next (sendCancel (dropFlight s d f) d f.dest f.job f.seq queue count)

/-! ### Messages of this device to itself (R438) -/

/-- The stream a message travels in: kind, source die, destination device, job (R445, R472); an acknowledgement and a grant come back on
that of their packet. -/
def NetMsg.stream : NetMsg → Nat × Nat × Nat × Nat
  | .store p => (0, p.srcDie, p.dstDev, p.job)
  | .ack a => (if a.recs then 3 else 1, a.die, a.src, a.job)
  | .record p => (2, p.srcDie, p.dstDev, p.job)
  | .resv p => (2, p.srcDie, p.dstDev, p.job)
  | .cancel p => (2, p.srcDie, p.dstDev, p.job)
  | .grant g => (3, g.die, g.src, g.job)
  | .ret r => (2, r.srcDie, r.dstDev, r.job)
  | .chunk _ die k => (5, die, k.src * 4096 + k.step, k.index)
  | .chunkAck _ die _ _ _ st src index => (6, die, src * 4096 + st, index)
  | .read _ _ _ => (7, 0, 0, 0)
  | .line _ _ => (7, 0, 0, 0)
  | .slotEmpty _ _ _ => (7, 0, 0, 0)
  | .msix _ _ => (7, 0, 0, 0)
  | .aer _ => (7, 0, 0, 0)
  | .attest _ _ _ _ => (7, 0, 0, 0)
  | .refuseAttest => (7, 0, 0, 0)
  | .unsupported _ => (7, 0, 0, 0)

/-- Chunks and their acknowledgements are delivered in no order (R472, R499). -/
def NetMsg.unordered : NetMsg → Bool
  | .chunk _ _ _ | .chunkAck _ _ _ _ _ _ _ _ => true
  | .store _ | .ack _ | .record _ | .resv _ | .cancel _ | .grant _ | .ret _ | .read _ _ _ | .line _ _ | .slotEmpty _ _ _ | .msix _ _ | .aer _
  | .attest _ _ _ _ | .refuseAttest | .unsupported _ => false

/-- A message arrives: one that comes from this device must be on its way, and the first of its stream where that is ordered; one from
another device comes from outside. -/
def arrive (s : State) (own : Bool) (m : NetMsg) : Option State :=
  if !own then some s
  else if m.unordered then (if s.net.contains m then some { s with net := s.net.erase m, progress := s.progress + 1 } else none)
  else if s.net.find? (fun x => x.stream = m.stream) = some m then some { s with net := s.net.erase m, progress := s.progress + 1 }
  else none

/-! ### The target (R455, R470) -/

/-- What the target answers for an element: done with the old value and flags, or a reason. -/
inductive Applied
  | done (old : W64) (f : Flags)
  | fail (reason : Nat)

/-- The reason of a translation fault at the target (R455, R459). -/
def xReason (f : XFault) : Nat := if f.code = codeWalk then 11 else if f.code = codePage then 3 else 4

/-- One element at the home slice of `pa` under leaf `e` (R446, R455). -/
def applyAt (s : State) (x : ElemFields) (pa : Nat) (e : W64) : State × Applied :=
  let n := remoteSize x.kind x.w x.opn
  let fx := x.kind = kindRed && x.opn = 12
  if x.kind = kindStore then (setHomeBytes s pa (leBytes x.data.toNat n), .done 0 0)
  else if fx && leafAttr e ≠ 1 then (s, .fail 5)
  else if anyPoison s pa n then (s, .fail 6)
  else
    let old := leNat (homeBytes s pa n)
    let v := x.data.toNat % 2 ^ (if x.w then 64 else 32)
    let r : Nat × Flags :=
      if fx then let y := fixedAdd (leafRede e) (BitVec.ofNat 64 old) (unpackF (atFmt x.w) v); (y.1.toNat, y.2)
      else rmwNew x.opn.toNat x.w old v
    (setHomeBytes s pa (leBytes r.1 n), .done (BitVec.ofNat 64 old) r.2)

/-- One element of a packet of a job (R455). -/
def applyElem (s : State) (job : Nat) (x : ElemFields) : State × Applied :=
  match ctxOfJob s job with
  | none => (s, .fail 2)
  | some c =>
    let n := remoteSize x.kind x.w x.opn
    let va := (expBase s c).toNat + x.off.toNat
    if expLen s c < x.off.toNat + n || 2 ^ 48 < va + n then (s, .fail 1)
    else
      match walkAccess s c va .write false with
      | (s, .error f) => (s, .fail (xReason f))
      | (s, .ok l) =>
        let pa := leafPa 0 l va
        if isHost pa then (s, .fail 4) else applyAt s x pa l.e

/-- The elements of a packet in order, each failure in the inbound fault log (R455, R463). -/
def applyElems (p : StorePacket) : Nat → List Element → State → State × List ElemAck × Flags
  | _, [], s => (s, [], 0)
  | k, e :: r, s =>
    let x := elemFields e
    match applyElem s p.job x with
    | (s, .done old f) =>
      let y := applyElems p (k + 1) r s
      (y.1, { reason := 0, old := if x.kind = kindAmo then old else 0 } :: y.2.1, f ||| y.2.2)
    | (s, .fail reason) =>
      let s := inboundFault s (iflEntry p.srcDev p.srcDie reason (x.kind.toNat + 1) p.job k x.off.toNat x.data)
      let y := applyElems p (k + 1) r s
      (y.1, { reason := reason, old := 0 } :: y.2.1, y.2.2)

/-- AGGREGATED_STORE (R455, R474): the packet's elements are applied in order, and acknowledged. -/
def execAggregatedStore (p : StorePacket) (s : State) : Host.Outcome State Fault Refusal :=
  if p.dstDev ≠ s.devno 0 then .next s
  else
    match arrive s (p.srcDev == s.devno 0) (.store p) with
    | none => .next s
    | some s =>
      let y := applyElems p 0 p.elems s
      .next ({ y.1 with progress := y.1.progress + 1 }.send p.srcDev
        (.ack {
          dev := p.srcDev, die := p.srcDie, src := p.dstDev, job := p.job, recs := false, seq := p.seq, acks := y.2.1, flags := y.2.2 }))

/-- A record queue. -/
def State.rq (s : State) (n : Nat) : RecordQueue := smGet {} s.queues n

/-- Replace a record queue. -/
def State.setRq (s : State) (n : Nat) (q : RecordQueue) : State := { s with queues := smSet {} s.queues n q, progress := s.progress + 1 }

/-- Append a record at the tail (R203). -/
def rqAppend (s : State) (n : Nat) (words : List W32) : State :=
  let q := s.rq n
  s.setRq n { q with recs := q.recs ++ [words], added := s.now (n % 8) }

/-- One record of a packet: into its reserved slot, or it fails with QUEUE and a slot that it held goes back to POOL (R468,
R470). -/
def applyRecord (s : State) (p : RecordPacket) (r : Nat × List W32) : State × Bool :=
  let q := s.rq p.queue
  if !q.inb || q.job ≠ p.job || r.1 ≠ q.epoch then (s, false)
  else
    let s := s.setRq p.queue { q with held := q.held - 1 }
    if q.state ≠ .opened then (s, false) else (rqAppend s p.queue r.2, true)

/-- The records of a packet in order (R470, R463). -/
def applyRecords (p : RecordPacket) : Nat → List (Nat × List W32) → State → State × List ElemAck
  | _, [], s => (s, [])
  | k, r :: l, s =>
    match applyRecord s p r with
    | (s, true) => let y := applyRecords p (k + 1) l s; (y.1, { reason := 0, old := 0 } :: y.2)
    | (s, false) =>
      let s := inboundFault s (iflEntry p.srcDev p.srcDie 10 4 p.job k p.queue ((r.2.getD 1 0) ++ (r.2.getD 0 0)))
      let y := applyRecords p (k + 1) l s
      (y.1, { reason := 10, old := 0 } :: y.2)

/-! ### Acknowledgements (R448, R455, R459) -/

/-- Items complete as acknowledged, in order. -/
def settleItems (s : State) (dest : Nat) : List (SpItem × ElemAck) → State
  | [] => s
  | (i, a) :: r =>
    let s :=
      if a.reason ≠ 0 then failItem s dest i a.reason
      else
        match i.body with
        | .el va _ _ _ _ (some id) => ramoResult s id i.lane 0 a.old va
        | _ => s
    settleItems s dest r

/-- STORE_ACKNOWLEDGEMENT (R459, R474): the packet's items complete; the flags go to every team with an applied element
(DEDUCED: the acknowledgement carries one OR for the packet; log entry 52). A late or repeated one is discarded. -/
def execStoreAcknowledgement (a : StoreAck) (s₀ : State) : Host.Outcome State Fault Refusal :=
  let s := s₀
  if a.dev ≠ s.devno 0 then .next s
  else
    match (s.spin a.die).flight.find? fun f =>
        f.seq = a.seq && f.dest = a.src && f.job = a.job && f.recs = a.recs && f.resv.isNone with
    | none => .next { s with net := s.net.filter fun m => m ≠ .ack a, progress := s.progress + 1 }
    | some f =>
      match arrive s (f.dest == s.devno 0) (.ack a) with
      | none => .next s
      | some s =>
        if a.acks.length ≠ f.items.length then .next s
        else
          let s := settleItems (dropFlight s a.die f) f.dest (f.items.zip a.acks)
          let teams := distinct (((f.items.zip a.acks).filter fun e => e.2.reason = 0).map fun e => e.1.team)
          .next (followImages s₀ (teams.foldl (fun s k => s.updTeam k fun t => if t.id.alive then t.raise a.flags else t) s))

/-! ### Reservations (R465 to R468) -/

/-- The value of sD when a reservation ends (R466). -/
def resvWord (grant status : Nat) : W32 := BitVec.ofNat 32 (grant % 2 ^ 13 + status % 16 * 2 ^ 28)

/-- The packet of a reservation request leaves the list of those not acknowledged. -/
def dropRequest (s : State) (d id : Nat) : State :=
  let x := s.spin d
  s.setSpin d { x with flight := x.flight.filter fun f => f.resv.map Prod.fst ≠ some id }

/-- An RSVS ends, whatever the STATUS: the register's DEST is the destination, sD is written and stops being pending (R466). -/
def endRsvs (s : State) (o : Op) (r : RsvsOp) (v : W32) : State :=
  let s := (dropRequest s (s.teamAt o.team).id.die o.id).updTeam o.team fun t => (t.setS r.d v).sPend r.d 1 0
  finishOp (s.updQ o.team r.q fun x => { x with dest := some (r.dev, r.queue) }) o

/-- RSVS (R466): its checks, then a request to the target. -/
def execRsvs (d : BitVec 6) (q : BitVec 4) (a : BitVec 6) (s : State) : Host.Outcome State Fault Refusal :=
  runWord (.rsvs d q a) s fun s =>
    let t := s.team
    let x := t.qreg q.toNat
    let c := (t.getS a.toNat).toNat
    let w := t.getS (a.toNat + 1)
    let dest := ((w.extractLsb' 0 17).toNat, (w.extractLsb' 24 8).toNat)
    let rsvx : Nat → Res := fun n => .trap s { code := codeRsvx, detail := n, val := q.setWidth 64 }
    if x.port ≠ 3 then .trap s (qportTrap x)
    else if c = 0 || 4096 < c || w.extractLsb' 17 7 ≠ 0 then rsvx 3
    else if x.resv ≠ 0 && x.dest ≠ some dest then rsvx 2
    else if 65535 < x.resv + c then rsvx 4
    else
      match jobOf s t.id.die t.id.ctx with
      | none => .trap s { code := codeAddr, detail := 2 }
      | some job =>
        let y := s.spin t.id.die
        if s.lost dest.1 then
          ok ((s.clearIdem.mapTeam fun t => t.setS d.toNat (resvWord 0 9)).updQ t.key q.toNat fun x => { x with dest := some dest })
        else if 1024 ≤ y.flight.length then .block s .engine
        else
          let id := s.opId
          let r : RsvsOp := {
            d := d.toNat, q := q.toNat, dev := dest.1, queue := dest.2, count := c, job := job, seq := y.next dest.1 job true,
            sent := s.now t.id.die }
          let s := (startOp s.clearIdem (.rsvs r)).mapTeam fun t => t.sPend d.toNat 1 (id + 1)
          let s := s.setSpin t.id.die (y.depart {
            seq := 0, dest := dest.1, job := job, recs := true, items := [], resv := some (id, dest.2, c), sent := r.sent })
          ok (s.send dest.1 (.resv { srcDev := s.devno t.id.die, srcDie := t.id.die, dstDev := dest.1, job := job, seq := r.seq, queue := dest.2, count := c }))

/-- RSVS.ret (R467). -/
def execRsvsRet (q : BitVec 4) (s : State) : Host.Outcome State Fault Refusal :=
  runWord (.rsvsRet q) s fun s => ok (returnResv s s.team.key q.toNat)

/-- RESERVATION_REQUEST (R466): the target grants what its queue's POOL has, or refuses; a refusal is a target failure
(R463). -/
def execReservationRequest (p : ResvRequest) (s : State) : Host.Outcome State Fault Refusal :=
  if p.dstDev ≠ s.devno 0 then .next s
  else
    match arrive s (p.srcDev == s.devno 0) (.resv p) with
    | none => .next s
    | some s =>
      let q := s.rq p.queue
      let bad := !q.inb || q.job ≠ p.job || q.state ≠ .opened
      let g := if bad then 0 else if p.count < q.pool then p.count else q.pool
      let s := if bad then inboundFault s (iflEntry p.srcDev p.srcDie 10 4 p.job 0 p.queue 0)
        else s.setRq p.queue { q with held := q.held + g, grants := (p.srcDev * 8 + p.srcDie, p.job, p.seq, g) :: q.grants }
      .next ({ s with progress := s.progress + 1 }.send p.srcDev
        (.grant { dev := p.srcDev, die := p.srcDie, src := p.dstDev, job := p.job, seq := p.seq, grant := g, status := if bad then 1 else 0, epoch := q.epoch }))

/-- The RSVS of a reply. -/
def rsvsOf (s : State) (g : ResvGrant) : Option (Op × RsvsOp) :=
  s.ops.findSome? fun o =>
    match o.kind with
    | .rsvs r =>
      if (s.teamAt o.team).id.die = g.die && r.dev = g.src && r.job = g.job && r.seq = g.seq then some (o, r) else none
    | _ => none

/-- A grant enters the register: DEST, RESV and the epoch; a newer epoch of the destination replaces RESV (R466, R468). A register that is
bound no longer, or whose team has ended, returns it (R467). -/
def takeGrant (s : State) (o : Op) (r : RsvsOp) (g : ResvGrant) : State :=
  let t := s.teamAt o.team
  let port := (t.qreg r.q).port
  let to' := some (r.dev, r.queue)
  let s := s.updQ o.team r.q fun x =>
    if g.status ≠ 0 then { x with dest := to' }
    else { x with
      dest := to', resv := if x.dest = to' && x.epoch < g.epoch then g.grant else x.resv + g.grant, epoch := g.epoch }
  if (t.id.alive || (s.crew t.id.crew).state == .saved) && port = 3 then s else returnResv s o.team r.q

/-- A grant for a request whose team was discarded with its crew goes back to its queue (R467, R484; log entry 70). -/
def strayGrant (s : State) (g : ResvGrant) : State :=
  let mine : Flight → Bool := fun f => f.resv.isSome && f.dest = g.src && f.job = g.job && f.seq = g.seq
  match (s.spin g.die).flight.find? mine with
  | some f =>
    match f.resv with
    | some (_, queue, _) =>
      let s := dropFlight s g.die f
      if g.grant = 0 then s
      else
        s.sendOn g.die g.src g.job fun seq =>
          .ret { srcDev := g.dev, srcDie := g.die, dstDev := g.src, job := g.job, seq := seq, queue := queue, count := g.grant, epoch := g.epoch }
    | none => s
  | none => s

/-- RESERVATION_GRANT (R466): the reply reaches its RSVS; one that comes after the timeout is discarded (R468). -/
def execReservationGrant (g : ResvGrant) (s : State) : Host.Outcome State Fault Refusal :=
  if g.dev ≠ s.devno 0 then .next s
  else
    match rsvsOf s g with
    | none => .next (strayGrant { s with net := s.net.filter fun m => m ≠ .grant g, progress := s.progress + 1 } g)
    | some (o, r) =>
      match arrive s (r.dev == s.devno 0) (.grant g) with
      | none => .next s
      | some u => .next (followImages s (endRsvs (takeGrant u o r g) o r (resvWord g.grant g.status)))

/-- RSVS_TIMEOUT (R468): the site's RSVS ends with STATUS 8, and a cancel follows its request. -/
def execRsvsTimeout (s : State) : Host.Outcome State Fault Refusal :=
  match s.op s.site.op with
  | none => .next s
  | some o =>
    match o.kind with
    | .rsvs r =>
      let d := (s.teamAt o.team).id.die
      if s.now d < r.sent + (s.fab d).rtimeout.toNat then .next s
      else
        .next (sendCancel (followImages s (endRsvs s o r (resvWord 0 8))) d r.dev r.job r.seq r.queue r.count)
    | _ => .next s

/-- RESERVATION_CANCEL (R468): the slots granted to the request go back to POOL. -/
def execReservationCancel (p : ResvRequest) (s : State) : Host.Outcome State Fault Refusal :=
  if p.dstDev ≠ s.devno 0 then .next s
  else
    match arrive s (p.srcDev == s.devno 0) (.cancel p) with
    | none => .next s
    | some s =>
      let q := s.rq p.queue
      let mine : Nat × Nat × Nat × Nat → Bool := fun g => g.1 = p.srcDev * 8 + p.srcDie && g.2.1 = p.job && g.2.2.1 = p.request
      .next (s.setRq p.queue { q with
        held := q.held - ((q.grants.filter mine).map fun g => g.2.2.2).foldl (· + ·) 0, grants := q.grants.filter fun g => !mine g })

/-- RESERVATION_RETURN (R467, R472): slots of the current epoch go back to POOL, in the order of the flow's record stream. -/
def execReservationReturn (p : ResvReturn) (s : State) : Host.Outcome State Fault Refusal :=
  if p.dstDev ≠ s.devno 0 then .next s
  else
    match arrive s (p.srcDev == s.devno 0) (.ret p) with
    | none => .next s
    | some s =>
      let q := s.rq p.queue
      .next (if q.inb && q.job = p.job && q.epoch = p.epoch then s.setRq p.queue { q with held := q.held - p.count } else s)

/-- The attached producers of a queue: an inbound queue counts one more (R206, R465). -/
def RecordQueue.attached (q : RecordQueue) : Nat := q.producers.toNat + if q.inb then 1 else 0

/-! ### Remote records (R469) -/

/-- One record per lane to the register's destination: with the first of them idempotence is cleared and RESV falls by the number of lanes (R188,
R469). -/
def pushRemote (s : State) (q v : Nat) (lanes : List Nat) : Res :=
  let t := s.team
  let x := t.qreg q
  match x.dest, jobOf s t.id.die t.id.ctx with
  | some (dev, queue), some job =>
    let items := lanes.map fun l =>
      (dev, ({
        team := t.key, lane := l, pc := t.pc,
               body := .rc queue x.epoch ((List.range 16).map fun k => t.getV (v + k) l) } : SpItem))
    insertItems s job items (fun s => s.clearIdem.updQ t.key q fun x => { x with resv := x.resv - lanes.length }) ok
  | _, _ => if lanes = [] then ok s else .trap s { code := codeAddr, detail := 2 }

/-- RSVX of a push with more lanes than reserved slots (R469). -/
def overResv (s : State) (q : BitVec 4) (lanes : List Nat) : Option TrapInfo :=
  if (s.team.arr 2).isNone && (s.team.qreg q.toNat).resv < lanes.length then some { code := codeRsvx, detail := 1, val := q.setWidth 64 } else none

/-- RRPUSH: its checks in their order, then the records (R469). -/
def execRrpush (q : BitVec 4) (v : BitVec 7) (p : BitVec 3) (s : State) : Host.Outcome State Fault Refusal :=
  runWord (.rrpush q v p) s fun s =>
    let t := s.team
    let tn := t.narrow p.toNat
    let lanes := lanesOf t.id.width tn.mSrc
    let x := t.qreg q.toNat
    if x.port ≠ 3 then .trap s (qportTrap x)
    else if t.id.nregs ≤ v.toNat + 15 then .trap s { code := codeReg, val := t.wordVal (.rrpush q v p) }
    else
      match laneHazard s tn [(v.toNat, 16, 1)] [] with
      | some r => r
      | none =>
        match overResv s q lanes with
        | some i => .trap s i
        | none =>
          let go : State → Res := fun s => pushRemote s q.toNat v.toNat lanes
          if t.atOrd.rel && (t.arr 2).isNone then withRelease s t.atOrd.scope go else go s

/-! ### Unreachable devices (R476) -/

/-- Everything on its way from one die to a device fails: items with UNREACH, a reservation with STATUS 9. -/
def failDie (s : State) (dev d : Nat) : State :=
  ((s.spin d).flight.filter fun f => f.dest = dev).foldl (fun s f =>
    match f.resv with
    | none => failItems (dropFlight s d f) dev 9 f.items
    | some (id, _, _) =>
      match s.op id with
      | some o => (match o.kind with | .rsvs r => endRsvs s o r (resvWord 0 9) | _ => s)
      | none => dropFlight s d f) s

/-- A device has become unreachable for the fabric engines (R476). -/
def loseDevice (s : State) (dev : Nat) : State :=
  let s := { s with unreach := if s.unreach.contains dev then s.unreach else dev :: s.unreach, progress := s.progress + 1 }
  [0, 1, 2, 3, 4, 5, 6, 7].foldl (fun s d => failDie s dev d) s

end Sys2Proof.Machine
end

