-- ==== Sys2Proof/Machine/Launch.lean ====
section
/-! DEFINITION. The launch engine: launch records and their checks, the launch table, events, record queues, what completes a
launch, and the words of opcodes 0x78 to 0x7B (spec/05_launch_engine.md R162 to R188, R202 to R206; spec/12_fabric_engine.md R480). -/

namespace Sys2Proof.Machine

/-! ### The launch record (R167) -/

/-- A field of a launch record: word, first bit, width. -/
def lField (w : List W64) (i off n : Nat) : Nat := bitsAt (w.getD i 0).toNat off n

/-- UNITS. -/
def lUnits (w : List W64) : Nat := lField w 2 0 32
/-- AFTCOUNT. -/
def lAftCount (w : List W64) : Nat := lField w 2 32 32
/-- AFTER, when AFTV is set. -/
def lAfter (w : List W64) : Option Nat := if lField w 3 48 1 = 1 then some (lField w 3 0 16) else none
/-- EVENT, when EVV is set. -/
def lEvent (w : List W64) : Option Nat := if lField w 3 49 1 = 1 then some (lField w 3 16 16) else none
/-- INQ, when INQV is set. -/
def lInq (w : List W64) : Option Nat := if lField w 3 50 1 = 1 then some (lField w 3 32 8) else none
/-- OUTQ, when OUTQV is set. -/
def lOutq (w : List W64) : Option Nat := if lField w 3 51 1 = 1 then some (lField w 3 40 8) else none
/-- FEED. -/
def lFeed (w : List W64) : Bool := lField w 3 52 1 = 1
/-- Lanes of a team; 0 for a WIDTH of 6 or 7. -/
def lWidth (w : List W64) : Nat := if lField w 4 0 3 < 6 then 32 * 2 ^ lField w 4 0 3 else 0
/-- Declared vector registers. -/
def lRegs (w : List W64) : Nat := 8 * (lField w 4 3 4 + 1)
/-- Teams per crew. -/
def lTeams (w : List W64) : Nat := lField w 4 7 4 + 1
/-- SCRATCH. -/
def lScratch (w : List W64) : Nat := lField w 4 11 12
/-- The quantum, when DQ is set. -/
def lQuantum (w : List W64) : Option Nat := if lField w 4 23 1 = 1 then some (lField w 4 24 15) else none
/-- IDEM. -/
def lIdem (w : List W64) : Bool := lField w 4 39 1 = 1
/-- CORES. -/
def lCores (w : List W64) : Bool := lField w 4 40 1 = 1
/-- CTL. -/
def lCtl (w : List W64) : Bool := lField w 4 41 1 = 1
/-- FUSE. -/
def lFuse (w : List W64) : Bool := lField w 4 42 1 = 1
/-- CLASS. -/
def lClass (w : List W64) : Nat := lField w 4 43 2
/-- QOS. -/
def lQos (w : List W64) : Nat := lField w 4 45 2
/-- CSCOPE. -/
def lScope (w : List W64) : Nat := lField w 4 47 3
/-- The DOM code of level `k`, 2 to 7. -/
def lDom (w : List W64) (k : Nat) : Nat := lField w 5 (3 * (k - 2)) 3
/-- Crews per group. -/
def lGroup (w : List W64) : Nat := lField w 5 18 10 + 1

/-- A reserved bit of the record is set (R167). -/
def lRsv (w : List W64) : Bool :=
  lField w 3 53 11 ≠ 0 || lField w 4 50 14 ≠ 0 || lField w 5 28 36 ≠ 0 || w.getD 6 0 ≠ 0 || w.getD 7 0 ≠ 0

/-- KiB of register file that a bind must give (R165). -/
def lRfNeed (w : List W64) : Nat := (lTeams w * lWidth w * lRegs w * 4 + 1023) / 1024

/-- The crew level is bound beyond one core, so that each team takes a slot of its own (R170). -/
def lSpread (w : List W64) : Bool := 2 < lDom w 2

/-- The scope a bound L2 domain gives the crew is held by Crew.scope; the lowest present level of L3 to L5 is the grouping level
(R169): its DOM code. -/
def lGrouping (w : List W64) : Option Nat := ([3, 4, 5].map (lDom w)).find? fun c => c ≠ 0

/-! ### Room on the package (R165, R168, R169) -/

/-- KiB of register file, 128-byte units of scratchpad and crew slots of a core (R16, R163). -/
def coreRoom (ctl : Bool) : Nat × Nat × Nat := if ctl then (64, 512, 4) else (512, 2048, 16)

/-- A logical core has a position (R41). -/
def coreThere (s : State) (c : Nat × Nat) : Bool := !((s.die c.1).coreMap.any fun e => e.1 = c.2 && e.2.isNone)

/-- The cores, or the control cores, of the package (R14). -/
def packageCores (s : State) (ctl : Bool) : List (Nat × Nat) :=
  ((List.range 8).flatMap fun d => ((List.range 48).filter fun k => decide (40 ≤ k) == ctl).map fun k => (d, k)).filter (coreThere s)

/-- The domain of a DOM code that a core lies in (R18): the control cores of a die count as one cluster. -/
def domOf (code : Nat) (c : Nat × Nat) : Nat :=
  if code < 3 then coreKey c.1 c.2 else if code = 3 then c.1 * 8 + c.2 / 8 else if code = 4 then c.1 else 0

/-- The crew slots of one empty core that crews of a launch can take together. -/
def coreHolds (w : List W64) : Nat :=
  let r := coreRoom (lCtl w)
  let byRf := if lRfNeed w = 0 then r.2.2 else r.1 / lRfNeed w
  let bySp := if lScratch w = 0 then r.2.2 else r.2.1 / lScratch w
  min r.2.2 (min byRf bySp)

/-- The crews of a launch that each domain of a DOM code holds on an empty package. -/
def domHolds (s : State) (w : List W64) (code : Nat) : List Nat :=
  let cores := packageCores s (lCtl w)
  let l2 := lDom w 2
  let per := if lSpread w then lTeams w else 1
  (distinct (cores.map (domOf code))).map fun g =>
    let mine := cores.filter fun c => domOf code c = g
    ((distinct (mine.map (domOf l2))).map fun a =>
      (mine.filter fun c => domOf l2 c = a).length * coreHolds w / per).foldl (· + ·) 0

/-- No domain of the grouping level holds a group, or a group is named without a grouping level (R169). -/
def groupBad (s : State) (w : List W64) : Bool :=
  match lGrouping w with
  | none => lGroup w ≠ 1
  | some code => (domHolds s w code).all fun n => n < lGroup w

/-- The UNITS crews, group by group, fit on an empty package (R168, R169). -/
def allFit (s : State) (w : List W64) : Bool :=
  match lGrouping w with
  | none => lUnits w ≤ (domHolds s w (lDom w 2)).foldl (· + ·) 0
  | some code =>
    let caps := domHolds s w code
    let g := lGroup w
    let whole := (caps.map (· / g)).foldl (· + ·) 0
    let rest := lUnits w % g
    decide (lUnits w / g ≤ whole) && (rest == 0 || decide (lUnits w / g < whole) || caps.any fun n => rest ≤ n % g)

/-- The levels break a rule of R168. -/
def levelsBad (s : State) (w : List W64) : Bool :=
  let cs := [2, 3, 4, 5, 6, 7].map fun k => (k, lDom w k)
  let here := cs.filter fun e => e.2 ≠ 0
  (here.any fun e => e.2 < e.1) || ((here.zip (here.drop 1)).any fun e => e.2.2 < e.1.2) ||
  (lDom w 2 = 0 && lTeams w ≠ 1) || (lFuse w && lDom w 3 ≠ 3) || groupBad s w

/-! ### Events and record queues of a context (R177, R202) -/

/-- An event. -/
def State.event (s : State) (e : Nat) : Event := smGet {} s.events e

/-- An event is allocated to a context. -/
def eventOf (s : State) (ctx e : Nat) : Bool := (s.event e).ctx == some ctx

/-- A record queue is allocated to a context. -/
def queueOf (s : State) (ctx n : Nat) : Bool := (s.rq n).state != .free && (s.rq n).ctx == ctx

/-- INQ and OUTQ break a rule of R168. -/
def queuesBad (s : State) (ctx : Nat) (w : List W64) : Bool :=
  let bad : Nat → Bool := fun n => !(queueOf s ctx n) || (s.rq n).state != .opened
  (match lOutq w with | none => false | some n => bad n) ||
  match lInq w with
  | none => lUnits w = 0
  | some n =>
    bad n || (s.rq n).fed ≠ 0 || lUnits w ≠ 0 || (!lFeed w && lTeams w ≠ 1) || (lFeed w && lWidth w ≠ 32)

/-! ### The launch table (R168, R171) -/

/-- A launch table entry. -/
def State.launchAt (s : State) (d k : Nat) : LaunchEntry := smGet {} (s.die d).launches k

/-- Replace a launch table entry. -/
def State.setLaunch (s : State) (d k : Nat) (e : LaunchEntry) : State :=
  { s.setDie d { s.die d with launches := smSet {} (s.die d).launches k e } with progress := s.progress + 1 }

/-- A handle's die. -/
def handleDie (h : Nat) : Nat := h / 2 ^ 29 % 8
/-- A handle's entry. -/
def handleEntry (h : Nat) : Nat := h / 2 ^ 20 % 512

/-- The handle of an entry (R171). -/
def handleOf (d k gen : Nat) : Nat := d * 2 ^ 29 + k * 2 ^ 20 + gen

/-- The entry of a launch that a handle names, unless it is free or the handle stale. -/
def launchOf (s : State) (h : Nat) : Option LaunchEntry :=
  let e := s.launchAt (handleDie h) (handleEntry h)
  if e.state != .free && e.gen = h % 2 ^ 20 then some e else none

/-- The free entries of a die's launch table. -/
def freeLaunches (s : State) (d : Nat) : List Nat :=
  (List.range 512).filter fun k => (s.launchAt d k).state == .free

/-- The allowance of the function that owns a context: QOSMASK in [3:0], CLASSMAX in [5:4] (R512). -/
def allowOf (s : State) (ctx : Nat) : W32 := (smGet {} s.funcs (s.context ctx).func).allow

/-- The contents' checks of R168 in their order; 0 for a record that is accepted. -/
def launchStatus (s : State) (d ctx ceil : Nat) (w : List W64) : Nat :=
  let size := lTeams w * lWidth w * lRegs w * 4
  let evBad : Option Nat → Bool := fun e => match e with | none => false | some e => !eventOf s ctx e
  let rows : List (Nat × Bool) := [
    (0x01, lRsv w),
    (0x04, lField w 0 0 4 ≠ 0 || lField w 0 48 16 ≠ 0),
    (0x05, lWidth w = 0 || 4096 < lTeams w * lWidth w || (lCtl w && lWidth w ≠ 32)),
    (0x06, (if lCtl w then 65536 else 524288) < size),
    (0x07, (coreRoom (lCtl w)).2.1 < lScratch w || (lScratch w ≠ 0 && lSpread w)),
    (0x08, levelsBad s w),
    (0x09, match lQuantum w with | none => false | some q => q < 64 || 16384 < q),
    (0x0A, ceil < lClass w || !(allowOf s ctx).getLsbD (lQos w)),
    (0x0B, evBad (lAfter w) || evBad (lEvent w)),
    (0x0C, queuesBad s ctx w),
    (0x0D, lCores w && !allFit s w),
    (0x0E, lScope w ≠ 4 && lScope w ≠ 6),
    (0x0F, freeLaunches s d = [])]
  ((rows.find? fun r => r.2).map Prod.fst).getD 0

/-- A launch becomes PENDING: it attaches to OUTQ, one that has been SEALED meanwhile too (DESIGN CHOICE, log entry 85; R177, R206). -/
def pendLaunch (s : State) (d k : Nat) : State :=
  let e := s.launchAt d k
  match lOutq e.words with
  | none => s.setLaunch d k { e with state := .pending }
  | some n =>
    let q := s.rq n
    (s.setRq n { q with producers := q.producers + 1 }).setLaunch d k { e with state := .pending, attached := true }

/-- Groups of 32 records of a queue that a crew is formed from (R205). -/
def formFull : Nat → Nat → List Nat
  | 0, _ => []
  | n + 1, k => if 32 ≤ k then 32 :: formFull n (k - 32) else []

/-- Crews of FEED = 1 are formed from the records of a queue: groups of 32, and with `all` the rest too (R205). -/
def formCrews (s : State) (n : Nat) (all : Bool) : State :=
  let q := s.rq n
  match launchOf s q.fed with
  | none => s
  | some e =>
    if !lFeed e.words then s
    else
      let have' := e.formed.foldl (· + ·) 0
      let k := q.recs.length - have'
      let rest := k % 32
      s.setLaunch (handleDie q.fed) (handleEntry q.fed)
        { e with formed := e.formed ++ formFull (k / 32) k ++ (if all && rest ≠ 0 then [rest] else []) }

/-- Accept a record that has passed its checks (R171): a free entry takes it, HELD or PENDING; the handle. -/
def acceptLaunch (s : State) (d ctx : Nat) (w : List W64) (ring : Option Nat) : State × Nat :=
  let free := freeLaunches s d
  let k := free.getD (Config.choice s.fresh % free.length) 0
  let old := s.launchAt d k
  let gen := if old.gen = 2 ^ 20 - 1 then 1 else old.gen + 1
  let s := { s with fresh := s.fresh + 1 }
  let held := match lAfter w with | none => false | some e => decide ((s.event e).count.toNat < lAftCount w)
  let s := s.setLaunch d k { state := .held, gen := gen, words := w, ctx := ctx, ring := ring }
  let h := handleOf d k gen
  let s := match lInq w with
    | none => s
    | some n => formCrews (s.setRq n { s.rq n with fed := h }) n false
  (if held then s else pendLaunch s d k, h)

/-- Check a record and accept it: the status and the handle, or 0 (R168). -/
def submitLaunch (s : State) (d ctx ceil : Nat) (w : List W64) (ring : Option Nat) : State × Nat × Nat :=
  let st := launchStatus s d ctx ceil w
  if st ≠ 0 then (s, st, 0) else let r := acceptLaunch s d ctx w ring; (r.1, 0, r.2)

/-! ### Events (R177 to R179, R182) -/

/-- HELD launches whose event has reached their count become PENDING (R177). -/
def wakeHeld (s : State) (e : Nat) : State :=
  (List.range 8).foldl (fun s d =>
    (s.die d).launches.foldl (fun s x =>
      if x.2.state == .held && lAfter x.2.words == some e && lAftCount x.2.words ≤ (s.event e).count.toNat then
        pendLaunch s d x.1 else s) s) s

/-- The teams whose EVWAIT an event's new count satisfies need not wait any more, whatever the count is when they issue again (R182). -/
def reachWaiters (s : State) (e : Nat) : State :=
  let n := (s.event e).count.toNat
  let met : Team → Team := fun t =>
    match t.sched.wait with
    | some (.event k v) => if k = e && v ≤ n then t.setArr 5 (some 1) else t
    | _ => t
  { s with team := met s.team, others := s.others.map fun x => (x.1, met x.2) }

/-- Add to an event, between 0 and 2^32 - 1, which launches and teams that wait for it then look at; whether the sum was clamped (R182). -/
def evAdd (s : State) (e : Nat) (amount : Int) : State × Bool :=
  let x := s.event e
  let t : Int := x.count.toNat + amount
  let v : Int := if t < 0 then 0 else if 2 ^ 32 - 1 < t then 2 ^ 32 - 1 else t
  let s := { s with events := smSet {} s.events e { x with count := BitVec.ofInt 32 v }, progress := s.progress + 1 }
  (wakeHeld (reachWaiters s e) e, t ≠ v)

/-! ### The completion ring of a function (R480) -/

/-- The 16 bytes of a completion. -/
def hostEntry (status kind handle terminated cause : Nat) : List Byte :=
  [BitVec.ofNat 8 status, BitVec.ofNat 8 kind, 0, 0] ++ leBytes handle 4 ++ leBytes terminated 4 ++ [BitVec.ofNat 8 cause, 0, 0, 0]

/-- SQLOG of a function; the completion ring has as many entries (R479). -/
def HostFunc.log (f : HostFunc) : Nat := (f.sqctl.extractLsb' 4 4).toNat

/-- The completion ring of a function has room. -/
def HostFunc.room (f : HostFunc) : Bool := (f.cqtail - f.cqhead).toNat < 2 ^ f.log

/-- A PCIe function's registers. -/
def State.fn (s : State) (f : Nat) : HostFunc := smGet {} s.funcs f

/-- Replace a PCIe function's registers. -/
def State.setFn (s : State) (f : Nat) (x : HostFunc) : State := { s with funcs := smSet {} s.funcs f x, progress := s.progress + 1 }

/-- Write a completion at CQTAIL and raise MSI-X vector 0; one that finds the ring full waits (R480). -/
def hostPut (s : State) (f : Nat) (bs : List Byte) : State :=
  let x := s.fn f
  if !x.room || x.pend ≠ [] then s.setFn f { x with pend := x.pend ++ [bs] }
  else
    let a := 2 ^ 51 + x.cqbase.toNat + 16 * (x.cqtail.toNat % 2 ^ x.log)
    let s := if isHost a then setHomeBytes s a bs else s
    (s.setFn f { x with cqtail := x.cqtail + 1 }).emit (.msix f 0)

/-- The completions that wait are written while there is room. -/
def hostDrain (s : State) (f : Nat) : State :=
  let p := (s.fn f).pend
  p.foldl (fun s bs => hostPut s f bs) (s.setFn f { s.fn f with pend := [] })

/-! ### Sealing and completion (R174, R206) -/

/-- A record queue becomes SEALED; its last crew of FEED = 1 is formed (R205, R206). -/
def sealQueue (s : State) (n : Nat) : State :=
  if (s.rq n).state != .opened then s else formCrews (s.setRq n { s.rq n with state := .closed }) n true

/-- A producer detaches, where one is attached; the queue is SEALED with the last (R184, R206). -/
def detachQueue (s : State) (n : Nat) : State :=
  let q := s.rq n
  let q := { q with producers := if q.producers = 0 then 0 else q.producers - 1 }
  let s := s.setRq n q
  if q.attached = 0 then sealQueue s n else s

/-- A launch is complete (R174, R206). -/
def launchDone (s : State) (e : LaunchEntry) : Bool :=
  (e.state == .running || e.state == .pending) &&
  match lInq e.words with
  | none => lUnits e.words ≤ e.ended
  | some n => (s.rq n).state == .closed && (s.rq n).recs == [] && e.formed == [] && e.ended == e.started && e.dropped == []

/-- The work of a completion (R174, R175, R480): the entry is freed, EVENT gets 1, OUTQ loses its producer, the host its entry. -/
def completeLaunch (s : State) (d k : Nat) : State :=
  let e := s.launchAt d k
  let s := s.setLaunch d k { e with state := .free }
  let s := match lInq e.words with | none => s | some n => s.setRq n { s.rq n with fed := 0 }
  let s := match lEvent e.words with | none => s | some v => (evAdd s v 1).1
  let s := match lOutq e.words with | some n => if e.attached then detachQueue s n else s | none => s
  match e.ring with
  | none => s
  | some f => hostPut s f (hostEntry 0 1 (handleOf d k e.gen) e.terminated e.cause)

/-- The first launch that is complete. -/
def firstDone (s : State) : Option (Nat × Nat) :=
  (List.range 8).findSome? fun d => ((s.die d).launches.find? fun e => launchDone s e.2).map fun e => (d, e.1)

/-- Complete every launch that is complete, and those that this completes. -/
def settleLaunches : Nat → State → State
  | 0, s => s
  | n + 1, s =>
    match firstDone s with
    | none => s
    | some (d, k) => settleLaunches n (completeLaunch s d k)

/-- Every launch of the package (R171). -/
def allLaunches : Nat := 4096

/-! ### Words (R180 to R185) -/

/-- EVENT (R185). -/
def codeEvent : Nat := 0x80
/-- RQUEUE. -/
def codeRqueue : Nat := 0x81

/-- The scope at which an engine of the die acts for a team: DIE at least (R21). -/
def dieScope (sc : Nat) : Nat := if sc < 3 then 3 else sc

/-- A byte as an engine of die `d` outside the cores reads it: from L2, else from the home. -/
def dieByte (s : State) (d pa : Nat) : Byte :=
  let l := smGet {} (s.die d).l2 (pa / 128)
  if l.valid.getLsbD (pa % 128) then l.byte (pa % 128) else homeByte s pa

/-- Bytes as an engine of a die reads them. -/
def dieBytes (s : State) (d pa n : Nat) : List Byte := (List.range n).map fun k => dieByte s d (pa + k)

/-- 64-bit words of a string of bytes. -/
def words64 (bs : List Byte) (n : Nat) : List W64 :=
  (List.range n).map fun k => BitVec.ofNat 64 (leNat ((bs.drop (8 * k)).take 8))

/-- Read `n` 64-bit words of a context from an address, aligned to `align`: none for a fault or an uncorrectable error. The
address lies in one page. -/
def readObject (s : State) (d ctx : Nat) (va : W64) (n : Nat) (sup : Bool) : State × Option (List W64) :=
  if vaClass va ≠ .localVa then (s, none)
  else
    match transNow s d ctx va .read sup with
    | (s, .error _) => (s, none)
    | (s, .ok pa) => (s, if diePoison s d pa (8 * n) then none else some (words64 (dieBytes s d pa (8 * n)) n))

/-- The launch engine reads, checks and takes the record at an address (R168, R181). -/
def launchFrom (s : State) (d ctx ceil : Nat) (va : W64) (sup : Bool) (ring : Option Nat) : State × Nat × Nat :=
  if va.toNat % 64 ≠ 0 then (s, 2, 0)
  else
    match readObject s d ctx va 8 sup with
    | (s, none) => (s, 3, 0)
    | (s, some w) => submitLaunch s d ctx ceil w ring

/-- A word of the launch engine issues: it clears idempotence where `clears`, and its results come later in `n` scalar registers from
`d` (R29, R188). -/
def issueWord (s : State) (clears : Bool) (w : EngWord) (d n : Nat) : State :=
  let id := s.opId
  let s := if clears then s.clearIdem else s
  (startOp s (.word w)).mapTeam fun t => t.sPend d n (id + 1)

/-- LAUNCH (R181): its results are pending until the record has been read, checked and taken; REL has no effect. -/
def execLaunch (d a : BitVec 6) (q l : BitVec 1) (sc : BitVec 3) (s : State) : Host.Outcome State Fault Refusal :=
  runWord (.launch d a q l sc) s fun s =>
    let t := s.team
    ok (issueWord s true
      (.launch d.toNat (t.getS64 a.toNat) (if q = 1 then some (dieScope (s.meant t.key sc.toNat)) else none) t.supSrc) d.toNat 2)

/-- The event that a scalar register names: it must be allocated to the team's context (R182). -/
def withEvent (s : State) (a : BitVec 6) (f : Nat → Res) : Res :=
  let v := s.team.getS a.toNat
  if v.toNat < 2 ^ 16 && eventOf s s.team.id.ctx v.toNat then f v.toNat
  else .trap s { code := codeEvent, val := v.setWidth 64 }

/-- EVSIG and EVADD (R182): the word issues; the release and the add come later. -/
def addWord (i : Instr) (a : BitVec 6) (amount : Team → Int) (sc : BitVec 3) (s : State) : Host.Outcome State Fault Refusal :=
  runWord i s fun s => withEvent s a fun e => ok (issueWord s true (.event e (amount s.team) (dieScope (s.meant s.team.key sc.toNat))) 0 0)

/-- EVSIG (R182). -/
def execEvsig (a : BitVec 6) (sc : BitVec 3) (s : State) : Host.Outcome State Fault Refusal :=
  addWord (.evsig a sc) a (fun _ => 1) sc s

/-- EVADD (R182). -/
def execEvadd (a b : BitVec 6) (sc : BitVec 3) (s : State) : Host.Outcome State Fault Refusal :=
  addWord (.evadd a b sc) a (fun t => (t.getS b.toNat).toInt) sc s

/-- EVWAIT (R182): it waits until the event's count is, or by an add comes to be, at least sB. -/
def execEvwait (a b : BitVec 6) (sc : BitVec 3) (s : State) : Host.Outcome State Fault Refusal :=
  runWord (.evwait a b sc) s fun s =>
    withEvent s a fun e =>
      let n := (s.team.getS b.toNat).toNat
      if (s.event e).count.toNat < n && (s.team.arr 5).isNone then .block s (.event e n)
      else withAcquire s (dieScope (s.meant s.team.key sc.toNat)) fun s => ok (s.mapTeam fun t => t.setArr 5 none)

/-- IDEM.CLR (R183). -/
def execIdemClr (s : State) : Host.Outcome State Fault Refusal := runWord .idemClr s fun s => ok s.clearIdem

/-- IDEM.RD (R183). -/
def execIdemRd (d : BitVec 6) (s : State) : Host.Outcome State Fault Refusal :=
  runWord (.idemRd d) s fun s =>
    ok (s.mapTeam fun t => t.setS d.toNat (if (s.crew t.id.crew).idem then 1 else 0))

/-- RQUEUE for the queue that a word names in bits [7:0] (R184, R185). -/
def rqueueTrap (v : W32) (d : Nat) : TrapInfo := { code := codeRqueue, detail := d, val := (v &&& 0xFF).setWidth 64 }

/-- The record queue that a scalar register names: it must be allocated to the team's context (R184). -/
def withQueue (s : State) (a : BitVec 6) (f : Nat → Res) : Res :=
  let v := s.team.getS a.toNat
  if v.toNat < 256 && queueOf s s.team.id.ctx v.toNat then f v.toNat else .trap s (rqueueTrap v 0)

/-- RQBIND.attach (R184). -/
def execRqbindAttach (a : BitVec 6) (s : State) : Host.Outcome State Fault Refusal :=
  runWord (.rqbindAttach a) s fun s =>
    withQueue s a fun n =>
      let q := s.rq n
      if q.state = .closed then .trap s (rqueueTrap (s.team.getS a.toNat) 1)
      else ok (s.clearIdem.setRq n { q with producers := q.producers + 1 })

/-- RQBIND.detach (R184): a push is in its queue when its word has issued, so nothing is left to wait for. -/
def execRqbindDetach (a : BitVec 6) (s : State) : Host.Outcome State Fault Refusal :=
  runWord (.rqbindDetach a) s fun s =>
    withQueue s a fun n =>
      if (s.rq n).producers = 0 then .trap s (rqueueTrap (s.team.getS a.toNat) 2)
      else ok (settleLaunches allLaunches (detachQueue s.clearIdem n))

/-- RQBIND.stat (R184): the status is pending. -/
def execRqbindStat (d a : BitVec 6) (s : State) : Host.Outcome State Fault Refusal :=
  runWord (.rqbindStat d a) s fun s => withQueue s a fun n => ok (issueWord s false (.stat d.toNat n) d.toNat 1)

/-! ### What the words bring later (R181, R182, R184) -/

/-- The value of RQBIND.stat: STATE, PRODUCERS, OCCUPANCY (R184). -/
def queueStat (q : RecordQueue) : W32 :=
  BitVec.ofNat 32 ((if q.state = .closed then 2 else 1) * 2 ^ 30 + (if q.attached < 16383 then q.attached else 16383) * 2 ^ 16 + q.recs.length)

/-- An event word of the operation's team that came before it is still to add (R179). -/
def earlierAdd (s : State) (o : Op) : Bool :=
  s.ops.any fun x => x.team = o.team && x.id < o.id && (match x.kind with | .word (.event _ _ _) => true | _ => false)

/-- Scalar results of a word arrive and the word completes. -/
def giveScalars (s : State) (o : Op) (d : Nat) (vs : List W32) : State :=
  finishOp (s.updTeam o.team fun t =>
    (((List.range vs.length).zip vs).foldl (fun t e => t.setS (d + e.1) e.2) t).sPend d vs.length 0) o

/-! ### Events of the launch engine's own (R186, R205, R206) -/

/-- LAUNCH_PORT_RECORD (R186): the record at the head of the site's register, after the accesses it comes after, is checked and
taken, of a team that has ended too; the result is the status, the handle and two zero words. -/
def execLaunchPortRecord (s : State) : Host.Outcome State Fault Refusal :=
  let key := teamKey s.site.crew s.site.team
  let t := s.teamAt key
  let q := t.qreg s.site.q
  match q.pushed with
  | [] => .next s
  | p :: rest =>
    if q.port ≠ 4 || (t.id.alive && 256 ≤ q.results.length) || (s.crew s.site.crew).state ≠ .run ||
        s.ops.any fun o => o.team = key && o.id < p.stamp && o.kind.isMem then .next s
    else
      let w := (List.range 8).map fun k => p.words.getD (2 * k + 1) 0 ++ p.words.getD (2 * k) 0
      let r := submitLaunch s t.id.die t.id.ctx t.id.ceil.toNat w none
      let s := giveResult (r.1.updQ key s.site.q fun q => { q with pushed := rest }) key s.site.q {
        words := [BitVec.ofNat 32 r.2.1, BitVec.ofNat 32 r.2.2, 0, 0] }
      .next (settleLaunches allLaunches s)

/-- FED_CREW_TIMEOUT (R205): records of the site's queue stand in no crew and none has been added for 4,096 cycles of its die. -/
def execFedCrewTimeout (s : State) : Host.Outcome State Fault Refusal :=
  let n := s.site.q
  let q := s.rq n
  if q.recs = [] || s.now (n % 8) < q.added + 4096 then .next s else .next (formCrews s n true)

/-- RECORD_PACKET (R470): the packet's records are applied in order, crews of a fed launch are formed, and the packet is acknowledged. -/
def execRecordPacket (p : RecordPacket) (s : State) : Host.Outcome State Fault Refusal :=
  if p.dstDev ≠ s.devno 0 then .next s
  else
    match arrive s (p.srcDev == s.devno 0) (.record p) with
    | none => .next s
    | some s =>
      let y := applyRecords p 0 p.recs s
      let u := formCrews y.1 p.queue false
      .next ({ u with progress := u.progress + 1 }.send p.srcDev
        (.ack { dev := p.srcDev, die := p.srcDie, src := p.dstDev, job := p.job, recs := true, seq := p.seq, acks := y.2, flags := 0 }))

/-- INB_WRITE (R465, R468): system software writes the inbound registers of the site's queue; no slot is reserved, and the reservation epoch
advances. The producer that INB stood for goes with it: with the last the queue is SEALED (R206). -/
def execInbWrite (value : W32) (s : State) : Host.Outcome State Fault Refusal :=
  let n := s.site.q
  let q := s.rq n
  let q' := { q with inb := value.getLsbD 31, job := value.toNat % 65536, held := 0, epoch := q.epoch + 1, grants := [] }
  let s := s.setRq n q'
  .next (if q.inb && !q'.inb && q'.attached = 0 then settleLaunches allLaunches (sealQueue s n) else s)

/-- SYSTEM_SOFTWARE_SEAL (R206): system software seals the site's queue. -/
def execSystemSoftwareSeal (s : State) : Host.Outcome State Fault Refusal :=
  .next (settleLaunches allLaunches (sealQueue s s.site.q))

end Sys2Proof.Machine
end

