-- ==== Sys2Proof/Machine/Composite.lean ====
section
/-! DEFINITION. The compositing engine: plans, coding tables, the fixed tree, chunks, runs, the words of opcode 0x7E and port 0x002
(spec/13_compositing_engine.md). -/

namespace Sys2Proof.Machine

/-! ### Plan objects (R487, R488) -/

/-- PLANID. -/
def pId (w : List W64) : W32 := BitVec.ofNat 32 (lField w 1 0 32)
/-- NR. -/
def pNr (w : List W64) : Nat := lField w 1 32 16
/-- EVENT, when EVV is set. -/
def pEvent (w : List W64) : Option Nat := if lField w 2 17 1 = 1 then some (lField w 1 48 16) else none
/-- CHUNK. -/
def pChunk (w : List W64) : Nat := lField w 2 18 4 + 1
/-- CLASS. -/
def pClass (w : List W64) : Nat := lField w 2 15 2
/-- TABLE. -/
def pTable (w : List W64) : Nat := lField w 2 13 2
/-- OUTCODED. -/
def pOutCoded (w : List W64) : Bool := lField w 2 12 1 = 1
/-- INCODED. -/
def pInCoded (w : List W64) : Bool := lField w 2 11 1 = 1
/-- SCATTER. -/
def pScatter (w : List W64) : Bool := lField w 2 10 1 = 1
/-- ETYPE. -/
def pEtype (w : List W64) : Nat := lField w 2 7 3
/-- OP. -/
def pOp (w : List W64) : Nat := lField w 2 3 4
/-- ALG. -/
def pAlg (w : List W64) : Nat := lField w 2 0 3
/-- CTIMEOUT, at least 0x0001_0000. -/
def pTimeout (w : List W64) : Nat := max 0x10000 (lField w 3 32 32)
/-- NU. -/
def pNu (w : List W64) : Nat := lField w 3 0 32
/-- IN. -/
def pIn (w : List W64) : Nat := (w.getD 4 0).toNat
/-- OUT. -/
def pOut (w : List W64) : Nat := (w.getD 5 0).toNat

/-- Bytes of an input unit (R488). -/
def pInSize (w : List W64) : Nat :=
  if pEtype w = 0 then 512 else if pEtype w = 1 then 1024 else if pEtype w = 2 then 36 else if pInCoded w then 4096 else 3584

/-- Bytes of an output unit (R488). -/
def pOutSize (w : List W64) : Nat :=
  if pEtype w = 0 then 512 else if pEtype w < 3 then 1024 else if pOutCoded w then 4096 else 3584

/-- A power of two. -/
def isPow2 (n : Nat) : Bool := (List.range 13).any fun k => n = 2 ^ k

/-- ETYPE and OP are allowed together (R488). -/
def pairOk (et op : Nat) : Bool :=
  if et < 2 then 3 ≤ op && op ≤ 5 else if et = 2 then op = 5 else et = 3 && op < 3

/-- The rows of R490 on the object alone, from MAGIC to the alignment of its addresses. -/
def objectStatus (w : List W64) : Nat :=
  let rows : List (Nat × Bool) := [
    (0x04, lField w 0 0 32 ≠ 0x434F4C4C || lField w 0 32 16 ≠ 1),
    (0x01, lField w 0 48 16 ≠ 0 || lField w 2 22 42 ≠ 0 || w.getD 7 0 ≠ 0),
    (0x05, pNr w < 2 || 4096 < pNr w || pNu w = 0 || 2 ^ 24 < pNu w || 2 < pAlg w ||
      (pAlg w = 0 && (!isPow2 (pNr w) || pNu w % pNr w ≠ 0))),
    (0x06, !pairOk (pEtype w) (pOp w) || (pScatter w && pAlg w ≠ 0) || ((pInCoded w || pOutCoded w) && pEtype w ≠ 3)),
    (0x02, (w.getD 6 0).toNat % 8 ≠ 0 || pIn w % 128 ≠ 0 || pOut w % 128 ≠ 0)]
  ((rows.find? fun r => r.2).map Prod.fst).getD 0

/-- The ranges of IN and OUT pass VA 2^48, or overlap without being equal (R490). -/
def rangeBad (w : List W64) : Bool :=
  let i := (pIn w, pNu w * pInSize w)
  let o := (pOut w, pNu w * pOutSize w)
  2 ^ 48 < i.1 + i.2 || 2 ^ 48 < o.1 + o.2 || (spansMeet i o && i ≠ o)

/-! ### Plan slots (R486) -/

/-- A plan slot of a die. -/
def State.plan (s : State) (d k : Nat) : Plan := smGet {} (s.die d).comp.plans k

/-- Replace a plan slot. -/
def State.setPlan (s : State) (d k : Nat) (p : Plan) : State :=
  let v := s.die d
  { s.setDie d { v with comp := { v.comp with plans := smSet {} v.comp.plans k p } } with progress := s.progress + 1 }

/-- Change the run of a plan. -/
def mapRun (s : State) (d k : Nat) (f : Run → Run) : State :=
  let p := s.plan d k
  s.setPlan d k { p with run := f p.run }

/-- A plan's handle. -/
def planHandle (d k gen : Nat) : Nat := d * 2 ^ 29 + k * 2 ^ 23 + gen

/-- The registered plan of a context that a handle names. -/
def planOf (s : State) (ctx : Nat) (h : W32) : Option (Nat × Nat × Plan) :=
  let d := h.toNat / 2 ^ 29
  let k := h.toNat / 2 ^ 23 % 64
  let p := s.plan d k
  if p.used && !p.torn && p.gen = h.toNat % 2 ^ 23 && p.ctx = ctx then some (d, k, p) else none

/-! ### Reads and writes of the engine -/

/-- Translate pages for an engine of die `d` in a context. -/
def engPages (s : State) (d ctx : Nat) (sup : Bool) (a : Access) : List Nat → State × Option (List (Nat × Nat))
  | [] => (s, some [])
  | p :: r =>
    match transNow s d ctx (BitVec.ofNat 64 (p * 65536)) a sup with
    | (s, .error _) => (s, none)
    | (s, .ok pa) =>
      match engPages s d ctx sup a r with
      | (s, none) => (s, none)
      | (s, some l) => (s, some ((p, pa) :: l))

/-- The pages of a range. -/
def pagesOf (va n : Nat) : List Nat :=
  if n = 0 then [] else (List.range ((va + n - 1) / 65536 - va / 65536 + 1)).map (va / 65536 + ·)

/-- Bytes of a context as the engine of a die reads them, and whether one is uncorrectable; none for a fault. -/
def engRead (s : State) (d ctx : Nat) (sup : Bool) (va n : Nat) : State × Option (List Byte × Bool) :=
  match engPages s d ctx sup .read (pagesOf va n) with
  | (s, none) => (s, none)
  | (s, some pages) =>
    let pas := (List.range n).map fun k => pagePa pages (va + k)
    (s, some (pas.map (dieByte s d), (distinct (pas.map (· / 128))).any fun l => dieMarks s d l ≠ 0))

/-- A byte that the engine of a die stores through L2 (R502). -/
def engByte (d : Nat) (s : State) (e : Nat × Byte) : State :=
  l2Byte d s e.1 e.2 false

/-- Store bytes through pages; as poisoned lines when `bad`. -/
def engWrite (s : State) (d : Nat) (pages : List (Nat × Nat)) (va : Nat) (bs : List Byte) (bad : Bool) : State :=
  let ks := ((List.range bs.length).map fun k => pagePa pages (va + k)).zip bs
  let s := ks.foldl (engByte d) s
  if bad then (distinct (ks.map (·.1 / 128))).foldl (fun s line => poisonLine (spoilCopy s (.l2 d) line) (line * 128)) s else s

/-! ### Rank tables (R487, R490) -/

/-- A rank table's entry: DEV, DIE, ORDER. -/
def rankEntry (e : W64) : Nat × Nat × Nat := (bitsAt e.toNat 0 17, bitsAt e.toNat 17 3, bitsAt e.toNat 32 16)

/-- Entries that name a die. -/
def namesDie (tab : List (Nat × Nat × Nat)) (dev die : Nat) : List Nat :=
  ((List.range tab.length).zip tab).filterMap fun e => if e.2.1 = dev && e.2.2.1 = die then some e.1 else none

/-- Read and check the rank table for the engine of a die: its status, or this die's rank and the table. -/
def readRanks (s : State) (d ctx : Nat) (sup : Bool) (w : List W64) : State × Except Nat (Nat × List (Nat × Nat × Nat)) :=
  let va := (w.getD 6 0).toNat
  let n := pNr w
  if va % 8 ≠ 0 then (s, .error 0x02)
  else if vaClass (w.getD 6 0) ≠ .localVa || 2 ^ 48 < va + 8 * n then (s, .error 0x03)
  else
    match engRead s d ctx sup va (8 * n) with
    | (s, none) => (s, .error 0x03)
    | (s, some (_, true)) => (s, .error 0x03)
    | (s, some (bs, false)) =>
      let es := words64 bs n
      let tab := es.map rankEntry
      if es.any fun e => bitsAt e.toNat 20 12 ≠ 0 || bitsAt e.toNat 48 16 ≠ 0 then (s, .error 0x01)
      else
        match namesDie tab (s.devno d) d with
        | [r] =>
          if tab.any (fun e => (namesDie tab e.1 e.2.1).length ≠ 1) || sortAsc (tab.map fun e => e.2.2) ≠ List.range n then (s, .error 0x07)
          else (s, .ok (r, tab))
        | _ => (s, .error 0x07)

/-- The checks of R490 for a team whose word issued in some privilege: the status, or the object with the die's rank and the table. -/
def planStatus (s : State) (t : TeamId) (sup : Bool) (va : W64) : State × Except Nat (List W64 × Nat × List (Nat × Nat × Nat)) :=
  let d := t.die
  let ctx := t.ctx
  if va.toNat % 64 ≠ 0 then (s, .error 0x02)
  else
    match readObject s d ctx va 8 sup with
    | (s, none) => (s, .error 0x03)
    | (s, some w) =>
      if objectStatus w ≠ 0 then (s, .error (objectStatus w))
      else
        match readRanks s d ctx sup w with
        | (s, .error e) => (s, .error e)
        | (s, .ok (r, tab)) =>
          let job := jobOf s d ctx
          let mine := (s.die d).comp.plans.filter fun e => e.2.used
          let rows : List (Nat × Bool) := [
            (0x08, match pEvent w with | none => false | some e => !eventOf s ctx e),
            (0x09, t.ceil.toNat < pClass w), (0x0A, rangeBad w), (0x0B, job.isNone),
            (0x0C, mine.any fun e => pId e.2.words = pId w && jobOf s d e.2.ctx = job), (0x0D, 64 ≤ mine.length)]
          match rows.find? fun r => r.2 with
          | some x => (s, .error x.1)
          | none => (s, .ok (w, r, tab))

/-- A free slot of a die takes a plan of a context; its handle (R486). -/
def registerPlan (s : State) (d ctx : Nat) (w : List W64) (r : Nat) (tab : List (Nat × Nat × Nat)) : State × Nat :=
  let free := (List.range 64).filter fun k => !(s.plan d k).used
  let k := free.getD (Config.choice s.fresh % free.length) 0
  let old := s.plan d k
  let gen := if old.gen = 2 ^ 23 - 1 then 1 else old.gen + 1
  let s := { s with fresh := s.fresh + 1 }
  (s.setPlan d k { used := true, gen := gen, ctx := ctx, words := w, run := { rank := r, table := tab } }, planHandle d k gen)

/-- CPLAN (R490, R511): it issues, its two results pending. -/
def execCplan (d a : BitVec 6) (s : State) : Host.Outcome State Fault Refusal :=
  runWord (.cplan d a) s fun s =>
    let t := s.team
    ok (issueWord s true (.plan d.toNat (t.getS64 a.toNat) (if t.atOrd.acq then some (dieScope (s.meant t.key t.atOrd.scope)) else none) t.supSrc) d.toNat 2)

/-- What CPLAN brings: after the team's earlier accesses, with ACQ after an acquire, the object is read and checked; the status and the handle, or 0,
arrive (R33, R490). -/
def planReturn (s : State) (o : Op) (d : Nat) (va : W64) (acq : Option Nat) (sup : Bool) : State :=
  if earlierMem s o then s
  else
    let t := (s.teamAt o.team).id
    let s := drainWb s t.die t.core
    let s := match acq with | some sc => s.acquireFor o.team sc | none => s
    match planStatus s t sup va with
    | (s, .error e) => giveScalars s o d [BitVec.ofNat 32 e, 0]
    | (s, .ok (w, r, tab)) =>
      let x := registerPlan s t.die t.ctx w r tab
      giveScalars x.1 o d [0, BitVec.ofNat 32 x.2]

/-! ### Coding of image tiles (R496 to R498) -/

/-- Values of an image tile: plane * 256 + pixel. -/
def tileVals : Nat := 1536

/-- A plane's width in bytes: depth 4, the others 2 (R496). -/
def planeWidth (k : Nat) : Nat := if k = 0 then 4 else 2

/-- A plane's offset in a raw tile. -/
def planeOff (k : Nat) : Nat := if k = 0 then 0 else 512 * (k + 1)

/-- The values of a raw tile. -/
def rawVals (get : Nat → Byte) : List W64 :=
  (List.range tileVals).map fun i => BitVec.ofNat 64 (leAt get (planeOff (i / 256) + i % 256 * planeWidth (i / 256)) (planeWidth (i / 256)))

/-- The raw bytes of a tile. -/
def rawBytes (v : List W64) : List Byte :=
  ((List.range tileVals).zip v).flatMap fun e => leBytes e.2.toNat (planeWidth (e.1 / 256))

/-- The symbols of a tile: byte after byte of each plane's deltas (R497). -/
def tileSyms (v : List W64) : List Nat :=
  (List.range 6).flatMap fun k =>
    let w := 2 ^ (8 * planeWidth k)
    let vs := (v.drop (256 * k)).take 256
    let ds := (vs.zip (0 :: vs)).map fun e => (e.1.toNat + w - e.2.toNat) % w
    (List.range (planeWidth k)).flatMap fun b => ds.map fun d => d / 2 ^ (8 * b) % 256

/-- Running sums modulo `w`. -/
def undelta (w : Nat) : Nat → List Nat → List W64
  | _, [] => []
  | v, d :: r => let x := (v + d) % w; BitVec.ofNat 64 x :: undelta w x r

/-- The values that a tile's symbols stand for. -/
def symVals (y : List Nat) : List W64 :=
  (List.range 6).flatMap fun k =>
    let n := planeWidth k
    let ys := (y.drop (planeOff k)).take (256 * n)
    undelta (2 ^ (8 * n)) 0 ((List.range 256).map fun p => (List.range n).foldl (fun m b => m + ys.getD (256 * b + p) 0 * 2 ^ (8 * b)) 0)

/-- The frequencies of a coding table that a die's engine holds: 0 to 3 when loaded, 15 always (R491). -/
def codingTable (s : State) (d t : Nat) : Option (List Nat) :=
  let c := (s.die d).comp
  if t = 15 then some (List.replicate 256 16)
  else if t < 4 && c.tvalid.getLsbD t then some (freqsOf fun k => smGet 0 c.freq (t * 384 + k))
  else none

/-- The coded tile of some values, under table `t` when the conditions of R498 hold and under table 15 otherwise. -/
def encodeVals (s : State) (d t : Nat) (v : List W64) : List Byte :=
  let y := tileSyms v
  let fixed := encodeTile (List.replicate 256 16) 7 15 y
  match codingTable s d t with
  | none => fixed
  | some fr =>
    if y.any fun x => fr.getD x 0 = 0 then fixed
    else
      let b := encodeTile fr 7 t y
      if b.length ≤ 3848 then b else fixed

/-- A coded slot of 4,096 bytes (R498). -/
def slotBytes (tile : List Byte) : List Byte :=
  leBytes tile.length 4 ++ [0, 0, 0, 0] ++ tile ++ List.replicate (4096 - 8 - tile.length) 0

/-- Decode a coded tile of `len` bytes: its values, or TDEC's status and its substream (R508). -/
def decodeVals (s : State) (d : Nat) (get : Nat → Byte) (len : Nat) : Except (Nat × Nat) (List W64) :=
  if len < 136 || 4088 < len then .error (3, 0xFF)
  else
    let h := tileHeader get
    if h.kind ≠ 7 || h.count ≠ 3584 then .error (4, 0xFF)
    else
      match codingTable s d h.table with
      | none => .error (2, 0xFF)
      | some fr =>
        if h.rsv then .error (2, 0xFF)
        else
          match decodeTile fr get len h fun _ => false with
          | .error f => .error (if f.len then 1 else 2, f.sub.getD 0xFF)
          | .ok y => .ok (symVals y)

/-! ### Operators (R494, R495) -/

/-- The element format of ETYPE. -/
def etFmt (et : Nat) : Fmt := if et = 0 then .bf16 else .f32

/-- A depth is above another: −0 equals +0, NaN is above every number (R495). -/
def depthAbove (x y : W64) : Bool :=
  let a := unpackF .f32 x.toNat
  let b := unpackF .f32 y.toNat
  if a.isNan then !b.isNan else if b.isNan then false else fCmpV a b = some .gt

/-- The lesser depth (R495). -/
def depthMin (x y : W64) : W64 := if depthAbove x y then y else x

/-- 1 less a value, exact. -/
def oneMinus : FVal → FVal
  | .nan q => .nan q
  | .inf n => .inf (!n)
  | .fin n m e => let x := dyAdd 1 0 (-(sgn n m)) e; .fin (decide (x.1 < 0)) x.1.natAbs x.2

/-- OVER of one channel (R495). -/
def overChan (lx la rx : W64) : Nat × Flags :=
  fFmaV .f16 .rne (oneMinus (unpackF .f16 la.toNat)) (unpackF .f16 rx.toNat) (unpackF .f16 lx.toNat)

/-- An exact sum of two values; none when it is invalid. -/
def exactSum (a b : FVal) : Option FVal :=
  match a, b with
  | .nan p, y => some (.nan (p || y.snan))
  | x, .nan q => some (.nan (x.snan || q))
  | .inf n, .inf m => if n = m then some (.inf n) else none
  | .inf n, .fin _ _ _ => some (.inf n)
  | .fin _ _ _, .inf n => some (.inf n)
  | .fin n1 m1 e1, .fin n2 m2 e2 => let x := dyAdd (sgn n1 m1) e1 (sgn n2 m2) e2; some (.fin (decide (x.1 < 0)) x.1.natAbs x.2)

/-- AVG of one channel with its counts (R495). -/
def avgChan (lx rx : W64) (lc rc : Nat) : Nat × Flags :=
  if lc + rc = 0 then (0, 0)
  else
    let a := unpackF .f16 lx.toNat
    let b := unpackF .f16 rx.toNat
    match fMulExact (.fin false lc 0) a, fMulExact (.fin false rc 0) b with
    | some x, some y =>
      match exactSum x y with
      | none => nanResult .f16 true
      | some (.fin n m e) =>
        if m = 0 then (if lx = 0x8000 && rx = 0x8000 then 0x8000 else 0, 0)
        else fDivV .f16 .rne (.fin n m e) (.fin false (lc + rc) 0)
      | some v => fDivV .f16 .rne v (.fin false (lc + rc) 0)
    | _, _ => nanResult .f16 true

/-- One pixel's six values from the lower and the higher positions (R495). -/
def pixel (op : Nat) (l r : List W64) : List W64 × Flags :=
  let at' : List W64 → Nat → W64 := fun v k => v.getD k 0
  let lc := (at' l 5).toNat
  let rc := (at' r 5).toNat
  let sat := lc + rc
  let c : W64 := BitVec.ofNat 64 (if 65535 < sat then 65535 else sat)
  if op = 0 then (if depthAbove (at' l 0) (at' r 0) then r else l, 0)
  else
    let ch := [1, 2, 3, 4].map fun k => if op = 1 then overChan (at' l k) (at' l 4) (at' r k) else avgChan (at' l k) (at' r k) lc rc
    (depthMin (at' l 0) (at' r 0) :: (ch.map fun x => BitVec.ofNat 64 x.1) ++ [c],
     ch.foldl (fun f x => f ||| x.2) (if 65535 < sat then flagOF else 0))

/-- The planes of pixels. -/
def planesOf (px : List (List W64)) : List W64 := (List.range 6).flatMap fun k => px.map fun v => v.getD k 0

/-- combine(L, R) of two units (R492, R494, R495). -/
def combineVals (w : List W64) (l r : List W64) : List W64 × Flags :=
  let each : (W64 → W64 → Nat × Flags) → List W64 × Flags := fun f =>
    let x := (l.zip r).map fun e => f e.1 e.2
    (x.map fun y => BitVec.ofNat 64 y.1, x.foldl (fun m y => m ||| y.2) 0)
  if pEtype w = 3 then
    let px := (List.range 256).map fun p =>
      let sel : List W64 → List W64 := fun v => (List.range 6).map fun k => v.getD (256 * k + p) 0
      pixel (pOp w) (sel l) (sel r)
    (planesOf (px.map Prod.fst), px.foldl (fun m y => m ||| y.2) 0)
  else if pOp w = 5 then each fun a b => fAddV .f64 .rne (unpackF .f64 a.toNat) (unpackF .f64 b.toNat)
  else each fun a b => fMinMax (etFmt (pEtype w)) (pOp w = 3) a.toNat b.toNat

/-- A leaf's values: elements, for SUM as binary64; a tile's planes; or MALFORMED (R489, R494, R503). -/
def leafVals (s : State) (d : Nat) (w : List W64) (bs : List Byte) : Option (List W64 × Flags) :=
  let get : Nat → Byte := fun k => bs.getD k 0
  let wide : Nat → Nat × Flags := fun c => fCvtV .f64 .rne 0 (unpackF (etFmt (pEtype w)) c)
  let elems : List Nat :=
    if pEtype w = 0 then (List.range 256).map fun k => leAt get (2 * k) 2
    else if pEtype w = 1 then (List.range 256).map fun k => leAt get (4 * k) 4
    else
      let sc := leAt get 32 4
      (List.range 256).map fun e => let b := leAt get (e / 32 * 4) 4 / 2 ^ (e % 32) % 2; if b = 1 then (sc + 2 ^ 31) % 2 ^ 32 else sc
  if pEtype w = 3 then
    if pInCoded w then
      match decodeVals s d (fun k => get (8 + k)) (leAt get 0 4) with
      | .ok v => some (v, 0)
      | .error _ => none
    else some (rawVals get, 0)
  else if pOp w = 5 then
    let x := elems.map wide
    some (x.map fun y => BitVec.ofNat 64 y.1, x.foldl (fun m y => m ||| y.2) 0)
  else some (elems.map fun c => BitVec.ofNat 64 c, 0)

/-- The root's last rounding: a SUM goes to its output type (R494). -/
def finalVals (w : List W64) (v : List W64) : List W64 × Flags :=
  if pEtype w = 3 || pOp w ≠ 5 then (v, 0)
  else
    let x := v.map fun c => fCvtV (etFmt (pEtype w)) .rne 0 (unpackF .f64 c.toNat)
    (x.map fun y => BitVec.ofNat 64 y.1, x.foldl (fun m y => m ||| y.2) 0)

/-- Bytes of a final value of ETYPE. -/
def elemBytes (w : List W64) : Nat := if pEtype w = 0 then 2 else 4

/-- The bytes of an output unit (R488). -/
def outBytes (s : State) (d : Nat) (w : List W64) (v : List W64) : List Byte :=
  if pEtype w = 3 then (if pOutCoded w then slotBytes (encodeVals s d (pTable w) v) else rawBytes v)
  else v.flatMap fun x => leBytes x.toNat (elemBytes w)

/-- The payload of a unit on its way; `fin` for a final one (R499). -/
def payload (s : State) (d : Nat) (w : List W64) (fin : Bool) (v : List W64) : List Byte :=
  if pEtype w = 3 then let b := encodeVals s d (pTable w) v; leBytes b.length 4 ++ b
  else if pOp w = 5 && !fin then v.flatMap fun x => leBytes x.toNat 8
  else v.flatMap fun x => leBytes x.toNat (elemBytes w)

/-- The values of a payload; none when it is malformed (R503). -/
def payloadVals (s : State) (d : Nat) (w : List W64) (fin : Bool) (bs : List Byte) : Option (List W64) :=
  let get : Nat → Byte := fun k => bs.getD k 0
  if pEtype w = 3 then
    match decodeVals s d (fun k => get (4 + k)) (leAt get 0 4) with
    | .ok v => some v
    | .error _ => none
  else
    let n := if pOp w = 5 && !fin then 8 else elemBytes w
    if bs.length ≠ 256 * n then none else some ((List.range 256).map fun k => BitVec.ofNat 64 (leAt get (n * k) n))

/-! ### The schedule (R492, R493) -/

/-- m, the steps of a reduction by halves. -/
def pSteps (w : List W64) : Nat := ((List.range 13).find? fun k => pNr w ≤ 2 ^ k).getD 12

/-- A position with bit `b` changed. -/
def flipBit (p b : Nat) : Nat := if p / 2 ^ b % 2 = 0 then p + 2 ^ b else p - 2 ^ b

/-- The number of the range that position `p` keeps after `n` steps of binary-swap. -/
def swapShare (n p : Nat) : Nat := (List.range n).foldl (fun k i => 2 * k + p / 2 ^ i % 2) 0

/-- A unit lies in the range that a position keeps after `n` steps of binary-swap. -/
def inSwap (w : List W64) (n p u : Nat) : Bool := u * 2 ^ n / pNu w = swapShare n p

/-- The position that makes a unit's final value in binary-swap: rev_m of its share. -/
def swapOwner (w : List W64) (u : Nat) : Nat :=
  let m := pSteps w
  let n := u * pNr w / pNu w
  (List.range m).foldl (fun r i => r + n / 2 ^ i % 2 * 2 ^ (m - 1 - i)) 0

/-- The combinations of a unit at a position in order: step, the position it comes from, whether what comes is L. -/
def combos (w : List W64) (p u : Nat) : List (Nat × Nat × Bool) :=
  let m := pSteps w
  if pAlg w = 0 then
    (List.range m).filterMap fun n => if inSwap w (n + 1) p u then some (n, flipBit p n, decide (flipBit p n < p)) else none
  else if pAlg w = 1 then (if p = 0 then [] else [(0, p - 1, true)])
  else (List.range m).filterMap fun n => if p % 2 ^ (n + 1) = 0 && p + 2 ^ n < pNr w then some (n, p + 2 ^ n, false) else none

/-- Where a position sends its partial of a unit, at which step; none at the position that makes the final value. -/
def partTo (w : List W64) (p u : Nat) : Option (Nat × Nat) :=
  let m := pSteps w
  if pAlg w = 0 then
    (List.range m).findSome? fun n => if inSwap w n p u && !inSwap w (n + 1) p u then some (n, flipBit p n) else none
  else if pAlg w = 1 then (if p + 1 < pNr w then some (0, p + 1) else none)
  else (List.range m).findSome? fun n => if p % 2 ^ (n + 1) = 2 ^ n then some (n, p - 2 ^ n) else none

/-- Where a position sends a final unit, at which steps. -/
def finTo (w : List W64) (p u : Nat) : List (Nat × Nat) :=
  let m := pSteps w
  if pAlg w = 0 then
    if pScatter w then []
    else (List.range m).filterMap fun j => if swapOwner w u % 2 ^ (m - j) = p % 2 ^ (m - j) then some (m + j, flipBit p (m - 1 - j)) else none
  else if pAlg w = 1 then (if p + 1 = pNr w then [(1, 0)] else if p + 2 < pNr w then [(1, p + 1)] else [])
  else (List.range m).filterMap fun j =>
    if p % 2 ^ (m - j) = 0 && p + 2 ^ (m - 1 - j) < pNr w then some (m + j, p + 2 ^ (m - 1 - j)) else none

/-- A position writes a unit: with SCATTER only its share. -/
def owes (w : List W64) (p u : Nat) : Bool := !pScatter w || (partTo w p u).isNone

/-- The units of a chunk index (R499). -/
def chunkSpan (w : List W64) (c : Nat) : List Nat :=
  (List.range (pChunk w)).filterMap fun k => if c * pChunk w + k < pNu w then some (c * pChunk w + k) else none

/-- The units that position `p` sends to `q` at a step in chunk `c`. -/
def chunkUnits (w : List W64) (p q step c : Nat) : List Nat :=
  (chunkSpan w c).filter fun u => partTo w p u == some (step, q) || (finTo w p u).contains (step, q)

/-- What position `p` sends of chunk `c`: step and destination, once each. -/
def chunkSends (w : List W64) (p c : Nat) : List (Nat × Nat) :=
  ((chunkSpan w c).flatMap fun u => (partTo w p u).toList ++ finTo w p u).eraseDups

/-- The number of chunk indexes. -/
def chunkCount (w : List W64) : Nat := (pNu w + pChunk w - 1) / pChunk w

/-- A step of the distribution, whose units are final. -/
def finalStep (w : List W64) (step : Nat) : Bool := if pAlg w = 1 then step = 1 else pSteps w ≤ step

/-- The digest's fields (R499). -/
def digestOf (w : List W64) : List Nat :=
  [pNr w, pAlg w, pOp w, pEtype w, pNu w, pChunk w, if pScatter w then 1 else 0]

/-- The position of a rank (R492). -/
def posOf (w : List W64) (r : Run) (rank : Nat) : Nat := if pOp w = 1 then ((r.table.getD rank (0, 0, 0)).2.2) else rank

/-- The device and die of a position. -/
def dieAt (w : List W64) (r : Run) (p : Nat) : Nat × Nat :=
  let e := if pOp w = 1 then ((r.table.find? fun e => e.2.2 = p).getD (0, 0, 0)) else r.table.getD p (0, 0, 0)
  (e.1, e.2.1)

/-! ### The end of a run (R503) -/

/-- The status word. -/
def Plan.status (p : Plan) : W32 :=
  BitVec.ofNat 32 (p.state % 16 + (if p.poisoned then 2 ^ 7 else 0) + p.reason % 16 * 2 ^ 8 + p.flags.toNat % 32 * 2 ^ 16)

/-- A result of port 0x002 (R509). -/
def portResult (kind err : Nat) (tag handle : W32) (p : Plan) : QRes :=
  { words := [BitVec.ofNat 32 (kind % 16 + err * 256), tag, handle, p.status, BitVec.ofNat 32 p.count, 0, 0, 0] }

/-- A run is in progress: RUNNING, and its end has not begun. -/
def Plan.going (p : Plan) : Bool := p.state = 1 && p.run.ending.isNone

/-- A run is CANCELLED, or its end as CANCELLED has begun (R500, R503). -/
def Plan.cancelled (p : Plan) : Bool := p.state = 4 || (p.run.ending.map Prod.fst) == some 4

/-- A run's end goes on once its release may: at POD or SYS, where REL asks for one, after the elements of the starting team (R34, R262). Then the
release at PKG, EVENT, the status, the result of a port's START; a slot whose context is torn down is free (R486). -/
def finishRun (s : State) (d k : Nat) : State :=
  let p := s.plan d k
  match p.run.ending with
  | none => s
  | some (state, reason) =>
    match relReady s p.run.team (p.run.rel.getD 0) with
    | (s, false) => s
    | (s, true) =>
      let s := writeBackL2 s d
      let s := match pEvent p.words with | none => s | some e => (evAdd s e 1).1
      let old := p.run.port
      let p := { p with state := state, reason := reason, run := { p.run with port := none, ending := none } }
      let s := s.setPlan d k p
      let s := match old with
        | none => s
        | some (q, tag) =>
          let key := p.run.team
          if ((s.teamAt key).qreg q).port ≠ 2 then s
          else giveResult (s.updQ key q fun x => { x with accepted := x.accepted - 1 }) key q (portResult 1 0 tag (BitVec.ofNat 32 (planHandle d k p.gen)) p)
      settleLaunches allLaunches (if p.torn then s.setPlan d k { gen := p.gen } else s)

/-- A run ends: its burst's leave goes back, and its end goes on as far as it can (R503). -/
def endRun (s : State) (d k state reason : Nat) : State :=
  let p := s.plan d k
  if !p.going then s
  else
    let s := dropLeave s d 40 (.burst k) p.run.leave
    finishRun (s.setPlan d k { p with run := { p.run with waiting := [], unacked := [], leave := .free, ending := some (state, reason) } }) d k

/-- The runs whose end waits go on. -/
def settleRuns (s : State) : State :=
  (List.range 8).foldl (fun s d => (s.die d).comp.plans.foldl (fun s e => if e.2.run.ending.isSome then finishRun s d e.1 else s) s) s

/-! ### Units and chunks of a run (R499 to R502) -/

/-- A unit of a run. -/
def Run.unit (r : Run) (u : Nat) : PlanUnit := smGet {} r.units u

/-- Replace a unit. -/
def Run.setUnit (r : Run) (u : Nat) (x : PlanUnit) : Run := { r with units := smSet {} r.units u x }

/-- A unit has its final value: it is written, whole, on another die than the starting team's as far as the home, where that team's releases leave
nothing to do (R262, R502); none when a page of OUT does not translate. -/
def putFinal (s : State) (d k u : Nat) (x : PlanUnit) : State × Bool :=
  let p := s.plan d k
  let w := p.words
  let va := pOut w + u * pOutSize w
  match engPages s d p.ctx p.run.sup .write (pagesOf va (pOutSize w)) with
  | (s, none) => (s, false)
  | (s, some pages) =>
    let s := engWrite s d pages va (outBytes s d w x.vals) x.poison
    let s := if p.run.die = d then s else writeBackL2 s d
    let p := s.plan d k
    (s.setPlan d k { p with
      flags := p.flags ||| x.flags, poisoned := p.poisoned || x.poison, run := p.run.setUnit u { x with fin := true } }, true)

/-- One more combination is done with a unit: the last one at its root makes it final. -/
def settleUnit (s : State) (d k u : Nat) (x : PlanUnit) : State × Bool :=
  let p := s.plan d k
  let w := p.words
  let pos := posOf w p.run p.run.rank
  if x.lvl < (combos w pos u).length || (partTo w pos u).isSome then (mapRun s d k fun r => r.setUnit u x, true)
  else let y := finalVals w x.vals; putFinal s d k u { x with vals := y.1, flags := x.flags ||| y.2 }

/-- A chunk may be sent: its units are complete at this rank. -/
def chunkReady (w : List W64) (r : Run) (pos step : Nat) (us : List Nat) : Bool :=
  us.all fun u => if finalStep w step then (r.unit u).fin else (r.unit u).lvl = (combos w pos u).length

/-- Send one chunk, unless it is sent or not ready. -/
def sendChunk (d k c : Nat) (s : State) (e : Nat × Nat) : State :=
  let p := s.plan d k
  let w := p.words
  let r := p.run
  let pos := posOf w r r.rank
  let us := chunkUnits w pos e.2 e.1 c
  if r.sent.contains (e.1, e.2, c) || !chunkReady w r pos e.1 us then s
  else
    let s := mapRun s d k fun r => { r with sent := (e.1, e.2, c) :: r.sent, unacked := r.unacked ++ [(e.1, e.2, c)] }
    let units := us.map fun u =>
      let x := r.unit u
      (u, ({ bytes := payload s d w (finalStep w e.1) x.vals, poison := x.poison } : ChunkUnit))
    let dst := dieAt w r e.2
    s.send dst.1 (.chunk dst.1 dst.2 {
      job := (jobOf s d p.ctx).getD 0, planId := pId w, run := p.count, step := e.1, src := pos, dst := e.2, index := c,
      digest := digestOf w, flags := us.foldl (fun m u => m ||| (r.unit u).flags) 0, units := units })

/-- Everything that the run owes is written, sent and acknowledged. -/
def runDone (p : Plan) : Bool :=
  let w := p.words
  let pos := posOf w p.run p.run.rank
  (List.range (pNu w)).all (fun u => !owes w pos u || (p.run.unit u).fin) && p.run.unacked == [] &&
  (List.range (chunkCount w)).all fun c => (chunkSends w pos c).all fun e => p.run.sent.contains (e.1, e.2, c)

/-- A run goes on as far as it can without more chunks: what is ready is sent, and a run that is done ends. -/
def advance (s : State) (d k : Nat) : State :=
  let p := s.plan d k
  if !p.going then s
  else
    let w := p.words
    let pos := posOf w p.run p.run.rank
    let s := (List.range (chunkCount w)).foldl (fun s c => (chunkSends w pos c).foldl (sendChunk d k c) s) s
    if runDone (s.plan d k) then endRun s d k 2 0 else s

/-- Read an input unit (R502): whether it was read, or the reason that the run fails for. -/
def loadUnit (s : State) (d k u : Nat) : State × Option Nat :=
  let p := s.plan d k
  let w := p.words
  match engRead s d p.ctx p.run.sup (pIn w + u * pInSize w) (pInSize w) with
  | (s, none) => (s, some 6)
  | (s, some (bs, bad)) =>
    match leafVals s d w bs with
    | none =>
      if bad then ((settleUnit s d k u { vals := List.replicate tileVals 0, poison := true }).1, none) else (s, some 3)
    | some (v, f) => ((settleUnit s d k u { vals := v, flags := f, poison := bad }).1, none)

/-- Read the input units from one on. -/
def loadUnits (d k : Nat) : List Nat → State → State × Option Nat
  | [], s => (s, none)
  | u :: r, s =>
    match loadUnit s d k u with
    | (s, some e) => (s, some e)
    | (s, none) => loadUnits d k r s

/-- A run starts (R501, R502): RUN rises, its units are read, its first chunks go; a rank on an unreachable device, a page that
does not translate or a malformed slot fails it. -/
def startRun (s : State) (d k : Nat) (r : Run) : State :=
  let p := s.plan d k
  let s := s.setPlan d k { p with
    count := (p.count + 1) % 2 ^ 32, state := 1, reason := 0, poisoned := false, flags := 0, run := { r with last := s.now d } }
  if r.table.any fun e => s.lost e.1 then endRun s d k 3 2
  else
    match loadUnits d k (List.range (pNu p.words)) s with
    | (s, some e) => endRun s d k 3 e
    | (s, none) => advance s d k

/-! ### Run control (R501, R507) -/

/-- CHANDLE, CPLANX (R510). -/
def codeChandle : Nat := 0xA0
/-- CPLANX. -/
def codeCplanx : Nat := 0xA1

/-- CHANDLE for a handle. -/
def handleTrap (h : W32) (d : Nat) : TrapInfo := { code := codeChandle, detail := d, val := h.setWidth 64 }

/-- The plan that a word's handle names (R507). -/
def withPlan (s : State) (a : BitVec 6) (f : W32 → Nat → Nat → Plan → Res) : Res :=
  let h := s.team.getS a.toNat
  match planOf s s.team.id.ctx h with
  | none => .trap s (handleTrap h 0)
  | some (d, k, p) => f h d k p

/-- CPLAN.FREE (R507, R511). -/
def execCplanFree (a : BitVec 6) (s : State) : Host.Outcome State Fault Refusal :=
  runWord (.cplanFree a) s fun s =>
    withPlan s a fun h d k p =>
      if p.state = 1 then .trap s (handleTrap h 1)
      else ok (s.clearIdem.setPlan d k { gen := p.gen })

/-- The team's earlier accesses reach the engine of a die: at DIE scope, or on another die at PKG (R21, R33). -/
def reachDie (s : State) (key d : Nat) : State :=
  let t := s.teamAt key
  if t.id.die = d then drainWb s d t.id.core else invalL2 (releaseAt s t.id.die t.id.core 4) d

/-- The scope of a command of a team of one die at the engine of another (R21). -/
def planScope (die d scope : Nat) : Nat := if die = d then dieScope scope else max 4 scope

/-- The acquire of a command of the engine of die `d` at a scope (R21, R34). -/
def engineAcquire (s : State) (key d scope : Nat) : State :=
  let t := s.teamAt key
  let s' := s.acquireFor key (planScope t.id.die d (s.meant key scope))
  if t.id.die = d then s' else invalL2 s' d

/-- The scope of the release at a run's end, when it is wider than PKG (R503). -/
def runScope (o : AtOrd) : Option Nat := if o.rel then some o.scope else none

/-- CSTART (R501): handle, state, rank table, pages; then the run starts. -/
def execCstart (a : BitVec 6) (s : State) : Host.Outcome State Fault Refusal :=
  runWord (.cstart a) s fun s =>
    let t := s.team
    withPlan s a fun h d k p =>
      if p.state = 1 then .trap s (handleTrap h 1)
      else if memBusy s t.key then .block s .fence
      else
        let s := reachDie s t.key d
        let s := if t.atOrd.acq then engineAcquire s t.key d t.atOrd.scope else s
        let w := p.words
        match readRanks s d t.id.ctx t.supSrc w with
        | (s, .error e) => .trap s { code := codeCplanx, detail := e, val := h.setWidth 64 }
        | (s, .ok (r, tab)) =>
          match transPages s .read (pagesOf (pIn w) (pNu w * pInSize w)) with
          | (s, .error (va, f)) => let x := wholeFault s va f; .trap x.1 x.2
          | (s, .ok _) =>
            match transPages s .write (pagesOf (pOut w) (pNu w * pOutSize w)) with
            | (s, .error (va, f)) => let x := wholeFault s va f; .trap x.1 x.2
            | (s, .ok _) =>
              ok (startRun s.clearIdem d k {
                rank := r, table := tab, team := t.key, die := t.id.die, core := t.id.core, sup := t.supSrc, rel := runScope t.atOrd })

/-- CWAIT (R507). -/
def execCwait (d a : BitVec 6) (s : State) : Host.Outcome State Fault Refusal :=
  runWord (.cwait d a) s fun s =>
    withPlan s a fun _ d' _ p =>
      if p.state = 1 then .block s .run
      else
        let o := s.team.atOrd
        let go : State → Res := fun s => ok (s.mapTeam fun t => (t.setS d.toNat p.status).raise (p.flags &&& 0x1F))
        if o.acq then withAcquire s (planScope s.team.id.die d' (s.meant s.team.key o.scope)) go else go s

/-- CSTAT (R507). -/
def execCstat (d a : BitVec 6) (x : BitVec 3) (s : State) : Host.Outcome State Fault Refusal :=
  runWord (.cstat d a x) s fun s =>
    withPlan s a fun _ _ _ p =>
      let v : W32 :=
        match x.toNat with
        | 0 => p.status
        | 1 => BitVec.ofNat 32 p.count
        | 2 => BitVec.ofNat 32 (p.run.rank + posOf p.words p.run p.run.rank * 2 ^ 16)
        | _ => BitVec.ofNat 32 (p.run.units.filter fun e => e.2.fin).length
      ok (s.mapTeam fun t => t.setS d.toNat v)

/-- CCANCEL (R507, R511). -/
def execCcancel (a : BitVec 6) (s : State) : Host.Outcome State Fault Refusal :=
  runWord (.ccancel a) s fun s => withPlan s a fun _ d k _ => ok (endRun s.clearIdem d k 4 0)

/-! ### TENC and TDEC (R508) -/

/-- The checks of a range at an address: ADDR and ALIGN. -/
def tileAddr (va : W64) (n : Nat) : Option TrapInfo :=
  if vaClass va ≠ .localVa then some { code := codeAddr, detail := addrDetail va, val := va }
  else if 2 ^ 48 < va.toNat + n then some { code := codeAddr, detail := 3, val := va }
  else none

/-- TENC and TDEC: checks, then they issue. -/
def tileWord (i : Instr) (d a b : BitVec 6) (table : Option Nat) (s : State) : Host.Outcome State Fault Refusal :=
  runWord i s fun s =>
    let t := s.team
    let o := t.atOrd
    let src := t.getS64 a.toNat
    let dst := t.getS64 b.toNat
    let n := if table.isSome then (3584, 4096) else (4096, 3584)
    let bad := [tileAddr src n.1, tileAddr dst n.2, if src.toNat % 128 ≠ 0 then some { code := codeAlign, detail := 128, val := src } else none,
      if dst.toNat % 128 ≠ 0 then some { code := codeAlign, detail := 128, val := dst } else none]
    match bad.findSome? id with
    | some f => .trap s f
    | none =>
      match transPages s .read (pagesOf src.toNat n.1) with
      | (s, .error (va, f)) => let x := wholeFault s va f; .trap x.1 x.2
      | (s, .ok sp) =>
        match transPages s .write (pagesOf dst.toNat n.2) with
        | (s, .error (va, f)) => let x := wholeFault s va f; .trap x.1 x.2
        | (s, .ok dp) =>
          let id := s.opId
          ok ((startOp s (.tile {
            table := table, d := d.toNat, src := src, dst := dst, srcPages := sp, dstPages := dp,
            acq := o.acq, rel := o.rel, scope := o.scope })).mapTeam fun t => t.sPend d.toNat 1 (id + 1))

/-- TENC (R508). -/
def execTenc (d a b : BitVec 6) (t : BitVec 3) (s : State) : Host.Outcome State Fault Refusal :=
  tileWord (.tenc d a b t) d a b (some t.toNat) s

/-- TDEC (R508). -/
def execTdec (d a b : BitVec 6) (s : State) : Host.Outcome State Fault Refusal := tileWord (.tdec d a b) d a b none s

/-- What a TENC or TDEC writes, and its result word. -/
def tileResult (s : State) (d : Nat) (o : TileOp) : List Byte × W32 :=
  let get : Nat → Byte := fun k => dieByte s d (pagePa o.srcPages (o.src.toNat + k))
  match o.table with
  | some t => let b := encodeVals s d t (rawVals get); (slotBytes b, BitVec.ofNat 32 b.length)
  | none =>
    match decodeVals s d (fun k => get (8 + k)) (leAt get 0 4) with
    | .ok v => (rawBytes v, 0)
    | .error (st, sub) => ([], BitVec.ofNat 32 (st + sub * 256))

/-- TILE_CODING_COMPLETE (R508): the site's TENC or TDEC reads, codes, writes and completes; the team's later loads
read what it wrote (R28, R266). -/
def execTileCodingComplete (s : State) : Host.Outcome State Fault Refusal :=
  siteOp s fun s₀ x =>
    let s := s₀
    match x.kind with
    | .tile o =>
      let t := s.teamAt x.team
      let d := t.id.die
      let y := if o.rel then relReady s x.team o.scope else (s, true)
      let s := y.1
      if !mayEngine s x || !y.2 then s
      else
        let s := reachDie s x.team d
        let s := if o.acq then engineAcquire s x.team d o.scope else s
        let n := if o.table.isSome then 3584 else 4096
        let bad := (List.range (n / 128)).any fun j => diePoison s d (pagePa o.srcPages (o.src.toNat + 128 * j)) 128
        let r := tileResult s d o
        let s := engWrite s d o.dstPages o.dst.toNat r.1 bad
        let s := ((List.range (r.1.length / 128)).map fun j => pagePa o.dstPages (o.dst.toNat + 128 * j) / 128).foldl (dropCopies d t.id.core) s
        let s := if o.rel then s.releaseFor x.team (dieScope (s.meant x.team o.scope)) else s
        followImages s₀ (finishOp (s.updTeam x.team fun t => (t.setS o.d r.2).sPend o.d 1 0) x)
    | _ => s

/-! ### Chunks arrive (R500, R502, R503) -/

/-- The plan of a job with an identifier on a die. -/
def planById (s : State) (d job : Nat) (i : W32) : Option (Nat × Plan) :=
  (s.die d).comp.plans.find? fun e => e.2.used && pId e.2.words = i && jobOf s d e.2.ctx = some job

/-- An acknowledgement goes to a chunk's source. -/
def ackChunk (s : State) (p : Plan) (c : Chunk) : State :=
  let dst := dieAt p.words p.run c.src
  s.send dst.1 (.chunkAck dst.1 dst.2 c.job c.planId c.run c.step c.src c.index)

/-- Final units are stored in order; whether every page translated. -/
def storeFinals (d k : Nat) : List (Nat × List W64 × Bool × Flags) → State → State × Bool
  | [], s => (s, true)
  | (u, v, bad, f) :: r, s =>
    match putFinal s d k u { vals := v, poison := bad, flags := f } with
    | (s, false) => (s, false)
    | (s, true) => storeFinals d k r s

/-- A run that has ended keeps the status it ended with (R503). -/
def keepStatus (d k : Nat) (p : Plan) (s : State) : State :=
  if p.going then s else s.setPlan d k { s.plan d k with flags := p.flags, poisoned := p.poisoned }

/-- A chunk of the current run is taken (R499, R500): each of its units carries the flags of its header; its bit is set, final units are stored,
of a run that has FAILED too, others wait for their burst, and it is acknowledged; one that is malformed fails the run. -/
def takeChunk (s : State) (d k : Nat) (c : Chunk) : State :=
  let p := s.plan d k
  let w := p.words
  let fin := finalStep w c.step
  let units := c.units.map fun u => (u.1, payloadVals s d w fin u.2.bytes, u.2.poison, c.flags)
  let s := mapRun s d k fun r => { r with seen := (c.step, c.src, c.index) :: r.seen, last := s.now d }
  if units.any fun u => u.2.1.isNone && !u.2.2.1 then endRun s d k 3 3
  else
    let us := units.map fun u => (u.1, u.2.1.getD (List.replicate tileVals 0), u.2.2)
    if fin then
      match storeFinals d k us s with
      | (s, false) => endRun s d k 3 6
      | (s, true) => advance (ackChunk (keepStatus d k p s) p c) d k
    else ackChunk (mapRun s d k fun r => { r with waiting := r.waiting ++ [{ step := c.step, src := c.src, units := us }] }) p c

/-- CHUNK_ARRIVAL (R500): a chunk at the engine of the site's die is refused, discarded and acknowledged, fails the run, or is
taken. -/
def execChunkArrival (c : Chunk) (s : State) : Host.Outcome State Fault Refusal :=
  let d := s.site.die
  match planById s d c.job c.planId with
  | none => .next s
  | some (k, p) =>
    let w := p.words
    let me := posOf w p.run p.run.rank
    let own := (dieAt w p.run c.src).1 = s.devno 0
    let twice := p.run.seen.contains (c.step, c.src, c.index)
    if p.count < c.run then .next s
    else if c.run = p.count && !p.cancelled && !twice && chunkUnits w c.src me c.step c.index ≠ c.units.map Prod.fst &&
        c.digest = digestOf w then .next s
    else
      match arrive s own (.chunk (s.devno d) d c) with
      | none => .next s
      | some s =>
        if c.run < p.count || twice || p.cancelled then .next (ackChunk s p c)
        else if c.digest ≠ digestOf w then .next (endRun s d k 3 4)
        else .next (takeChunk s d k c)

/-- The first waiting chunk whose units have all had their earlier combinations at this rank. -/
def burstChunk (p : Plan) : Option RunChunk :=
  let w := p.words
  let pos := posOf w p.run p.run.rank
  p.run.waiting.find? fun c => c.units.all fun u =>
    (((combos w pos u.1)[(p.run.unit u.1).lvl]?).map fun x => (x.1, x.2.1)) = some (c.step, c.src)

/-- Combine the units of a chunk with this rank's; whether every page translated. -/
def burstUnits (d k : Nat) (isL : Bool) : List (Nat × List W64 × Bool × Flags) → State → State × Bool
  | [], s => (s, true)
  | (u, v, bad, f) :: r, s =>
    let p := s.plan d k
    let x := p.run.unit u
    let y := if isL then combineVals p.words v x.vals else combineVals p.words x.vals v
    match settleUnit s d k u { x with vals := y.1, flags := x.flags ||| f ||| y.2, poison := x.poison || bad, lvl := x.lvl + 1 } with
    | (s, false) => (s, false)
    | (s, true) => burstUnits d k isL r s

/-- REDUCTION_BURST (R502): for the site's plan slot, a chunk that may be combined asks for its 40 A at CLASS; with them it is combined,
and the leave goes back. -/
def execReductionBurst (s : State) : Host.Outcome State Fault Refusal :=
  let d := s.site.die
  let k := s.site.q
  let p := s.plan d k
  match burstChunk p with
  | none => .next s
  | some c =>
    if !p.going then .next s
    else
      match p.run.leave with
      | .asked => .next s
      | .free => .next (askLeave (mapRun s d k fun r => { r with leave := .asked }) d { who := .burst k, amps := 40, cls := pClass p.words })
      | .held =>
        let pos := posOf p.words p.run p.run.rank
        let isL := match c.units.head? with
          | none => false
          | some u => ((combos p.words pos u.1).find? fun x => x.1 = c.step && x.2.1 = c.src).any fun x => x.2.2
        let s := mapRun s d k fun r => { r with waiting := r.waiting.erase c, leave := .free }
        match burstUnits d k isL c.units s with
        | (s, false) => .next (returnLeave (endRun s d k 3 6) d 40)
        | (s, true) => .next (returnLeave (advance s d k) d 40)

/-- CHUNK_ACKNOWLEDGEMENT (R503): the acknowledgement of the site's unacknowledged chunk arrives at its plan. -/
def execChunkAcknowledgement (s : State) : Host.Outcome State Fault Refusal :=
  let d := s.site.die
  let k := s.site.q
  let p := s.plan d k
  match p.run.unacked[s.site.n]? with
  | none => .next s
  | some (step, q, c) =>
    let w := p.words
    let m := NetMsg.chunkAck (s.devno d) d ((jobOf s d p.ctx).getD 0) (pId w) p.count step (posOf w p.run p.run.rank) c
    if !p.going then .next s
    else
      match arrive s ((dieAt w p.run q).1 = s.devno 0) m with
      | none => .next s
      | some s => .next (advance (mapRun s d k fun r => { r with unacked := r.unacked.eraseIdx s.site.n, last := s.now d }) d k)

/-- RUN_TIMEOUT (R503): the site's run has made no progress for CTIMEOUT cycles of its die. -/
def execRunTimeout (s : State) : Host.Outcome State Fault Refusal :=
  let d := s.site.die
  let p := s.plan d s.site.q
  if !p.going || s.now d < p.run.last + pTimeout p.words then .next s else .next (endRun s d s.site.q 3 1)

/-- The runs of the package in progress that satisfy a test, as die and slot. -/
def runsWhere (s : State) (f : Plan → Bool) : List (Nat × Nat) :=
  (List.range 8).flatMap fun d => ((s.die d).comp.plans.filter fun e => e.2.state = 1 && f e.2).map fun e => (d, e.1)

/-- DEVICE_UNREACHABLE (R468, R476, R503): the transport reports a device; what is on its way there fails, and so do the runs
with a rank on it. -/
def execDeviceUnreachable (dev : BitVec 17) (s₀ : State) : Host.Outcome State Fault Refusal :=
  let s := loseDevice s₀ dev.toNat
  let s := (runsWhere s fun p => p.run.table.any fun e => e.1 = dev.toNat).foldl (fun s e => endRun s e.1 e.2 3 2) s
  .next (followImages s₀ s)

/-! ### Coding tables (R491) and port 0x002 (R509) -/

/-- Replace a die's compositing engine. -/
def State.setComp (s : State) (d : Nat) (c : Composer) : State :=
  { s.setDie d { s.die d with comp := c } with progress := s.progress + 1 }

/-- FREQ_WRITE (R491): eight bytes of the site's table, which is then not loaded. -/
def execFreqWrite (off : BitVec 9) (value : W64) (s : State) : Host.Outcome State Fault Refusal :=
  let d := s.site.die
  let c := (s.die d).comp
  let t := s.site.n % 4
  let a := off.toNat / 8 * 8
  if 384 ≤ a then .next s
  else
    .next (s.setComp d { c with
      freq := smSetAll 0 c.freq (((List.range 8).zip (leBytes value.toNat 8)).map fun e => (t * 384 + a + e.1, e.2)),
      tvalid := c.tvalid &&& ~~~(1#4 <<< t) })

/-- TVALID_WRITE (R491): a bit written 1 is set when the table's frequencies sum to 4,096. -/
def execTvalidWrite (value : W32) (s : State) : Host.Outcome State Fault Refusal :=
  let d := s.site.die
  let c := (s.die d).comp
  let good : Nat → Bool := fun t => value.getLsbD t && freqsOk (freqsOf fun k => smGet 0 c.freq (t * 384 + k))
  .next (s.setComp d { c with tvalid := (List.range 4).foldl (fun m t => if good t then m ||| (1#4 <<< t) else m) 0 })

/-- A record of port 0x002 is malformed (R509). -/
def compRecordBad (w : List W32) : Bool :=
  let c := recW w 0
  let kind := c % 16
  bitsAt c 4 4 ≠ 0 || bitsAt c 13 19 ≠ 0 || kind = 0 || 4 ≤ kind || bitsAt c 10 3 = 7 ||
  (bitsAt c 10 3 ≠ 0 && bitsAt c 8 2 = 0) || (w.drop 3).any fun x => x ≠ 0

/-- START of a record: the acquire, the rank table, the run; what CSTART would fault for fails the run with FAULT (R509). -/
def portStart (s : State) (key q d k : Nat) (w : List W32) : State :=
  let t := s.teamAt key
  let c := recW w 0
  let sc := bitsAt c 10 3
  let s := reachDie s key d
  let s := if bitsAt c 8 1 = 1 then engineAcquire s key d sc else s
  let s := s.updQ key q fun x => { x with accepted := x.accepted + 1 }
  let p := s.plan d k
  let r : Run := {
    team := key, die := t.id.die, core := t.id.core, sup := t.supSrc, rel := if bitsAt c 9 1 = 1 then some sc else none,
    port := some (q, w.getD 1 0) }
  let fail : State → State := fun s =>
    endRun (s.setPlan d k { p with count := (p.count + 1) % 2 ^ 32, state := 1, flags := 0, poisoned := false, run := { r with rank := p.run.rank, table := p.run.table } }) d k 3 6
  match readRanks s d t.id.ctx t.supSrc p.words with
  | (s, .error _) => fail s
  | (s, .ok (rank, tab)) =>
    match engPages s d t.id.ctx t.supSrc .read (pagesOf (pIn p.words) (pNu p.words * pInSize p.words)) with
    | (s, none) => fail s
    | (s, some _) =>
      match engPages s d t.id.ctx t.supSrc .write (pagesOf (pOut p.words) (pNu p.words * pOutSize p.words)) with
      | (s, none) => fail s
      | (s, some _) => startRun s d k { r with rank := rank, table := tab }

/-- COMPOSITING_PORT_RECORD (R509): the record at the head of the site's register, after the accesses it comes after. -/
def execCompositingPortRecord (s : State) : Host.Outcome State Fault Refusal :=
  let key := teamKey s.site.crew s.site.team
  let q := (s.teamAt key).qreg s.site.q
  match q.pushed with
  | [] => .next s
  | x :: rest =>
    if q.port ≠ 2 || ((s.teamAt key).id.alive && 256 ≤ q.results.length + q.accepted) || (s.crew s.site.crew).state ≠ .run ||
        s.ops.any fun o => o.team = key && o.id < x.stamp && o.kind.isMem then .next s
    else
      let s := { s.updQ key s.site.q (fun q => { q with pushed := rest }) with progress := s.progress + 1 }
      let w := x.words
      let kind := recW w 0 % 16
      let h := w.getD 2 0
      let give : State → Nat → Plan → State := fun s err p => giveResult s key s.site.q (portResult kind err (w.getD 1 0) h p)
      match planOf s (s.teamAt key).id.ctx h with
      | none => .next (give s (if compRecordBad w then 1 else 2) {})
      | some (d, k, p) =>
        if compRecordBad w then .next (give s 1 p)
        else if kind = 1 then (if p.state = 1 then .next (give s 3 p) else .next (portStart s key s.site.q d k w))
        else
          let s := if kind = 2 then endRun s d k 4 0 else s
          .next (give s 0 (s.plan d k))

end Sys2Proof.Machine
end

