-- ==== Sys2Proof/Machine/Queue.lean ====
section
/-! DEFINITION. The queue words (spec/04_team_sequencer.md R143 to R145; spec/01_engines_and_ties.md R22 to R25;
spec/05_launch_engine.md R186, R203, R204; spec/12_fabric_engine.md R465, R467, R469). -/

namespace Sys2Proof.Machine

/-- A port that QBIND takes (R22). -/
def portOk (n : Nat) : Bool := n ≤ 4 || (0x100 ≤ n && n < 0x200)

/-- The record queue of a port from 0x100 on. -/
def portQueue (n : Nat) : Nat := n - 0x100

/-- A register holds what a rebinding would lose (R145, R388, R467). -/
def qBusy (s : State) (q : Nat) (x : QReg) : Bool :=
  x.results != [] || x.pushed != [] || x.accepted != 0 || (x.port == 3 && x.resv != 0) ||
  (x.port == 1 && rayCount s s.team.id.crew s.team.id.tno q != 0)

/-- Registers of the teams on a core that are bound to its ray engine (R388); a crew that is being restored has none there yet. -/
def rayBound (s : State) (ck : Nat) : Nat :=
  (s.aliveKeys.map fun k =>
    let t := s.teamAt k
    if t.coreK = ck && (s.crew t.id.crew).state != .saved && (s.crew t.id.crew).state != .restoring then (t.q.filter fun e => e.2.port = 1).length else 0).foldl (· + ·) 0

/-- QBIND (R143): its faults in their order, then the binding; the old port's reservations go back (R467). -/
def execQbind (q : BitVec 4) (a : BitVec 6) (s : State) : Host.Outcome State Fault Refusal :=
  runWord (.qbind q a) s fun s =>
    let t := s.team
    let v := t.getS a.toNat
    let x := t.qreg q.toNat
    let mine := if x.port = 1 then 1 else 0
    if v.toNat % 2 ^ 9 = 1 && t.onControl then .trap s { code := codeEng, val := t.wordVal (.qbind q a) }
    else if !portOk v.toNat then .trap s { code := codeQport, val := v.setWidth 64 }
    else if qBusy s q.toNat x then .trap s (qbusyTrap x)
    else if v.toNat = 1 && 16 < rayBound s t.coreK - mine + 1 then .trap s { code := codeHfull, detail := 0, val := q.setWidth 64 }
    else
      ok ((returnResv s t.key q.toNat).updQ t.key q.toNat fun x => { port := v.toNat, seq := x.seq })

/-! ### Pushes (R23, R24, R143) -/

/-- A port takes the form and the size of a push (R22, R145). -/
def pushShape (port n : Nat) (team : Bool) : Bool :=
  if port = 1 || port = 3 then !team && n == 16
  else if port = 2 then team && n == 8
  else if port = 4 then team && n == 16
  else n == 16

/-- There is credit, or room in the record queue, for `k` records (R23, R203, R465). -/
def pushRoom (s : State) (x : QReg) (k : Nat) : Bool :=
  if 0x100 ≤ x.port then k ≤ (s.rq (portQueue x.port)).pool
  else x.pushed.length + k ≤ 256

/-- Records of one mask word go to the port, for another than the ray engine's once the crew's idempotence is cleared (R188): to the engine's list, or to
the tail of the record queue (R24, R203, R205). -/
def pushGive (s : State) (q : Nat) (x : QReg) (l : List Pushed) : State :=
  let key := s.team.key
  let s := if x.port = 1 then s else s.clearIdem
  let s := { s.updQ key q (fun x => { x with staged := x.staged.drop l.length }) with progress := s.progress + 1 }
  if 0x100 ≤ x.port then
    let n := portQueue x.port
    formCrews (l.foldl (fun s p => rqAppend s n p.words) s) n false
  else s.updQ key q fun x => { x with pushed := x.pushed ++ l }

/-- Deliver the staged records one mask word at a time, as far as there is credit; a queue sealed meanwhile refuses them. -/
def pushDeliver (q : Nat) : Nat → State → Res
  | 0, s => ok s
  | n + 1, s =>
    let x := s.team.qreg q
    match x.staged with
    | [] => ok s
    | p :: _ =>
      let l := x.staged.takeWhile fun y => y.lane / 32 = p.lane / 32
      if 0x100 ≤ x.port && (s.rq (portQueue x.port)).state = .closed then
        .trap (s.updQ s.team.key q fun x => { x with staged := [] }) (rqueueTrap (BitVec.ofNat 32 (portQueue x.port)) 3)
      else if pushRoom s x l.length then pushDeliver q n (pushGive s q x l)
      else .block s (if 0x100 ≤ x.port then .queue (portQueue x.port) else .credit)

/-- The records of a push: registers `v` to `v + n - 1` of each lane. -/
def pushRecords (t : Team) (v n : Nat) (lanes : List Nat) : List (Nat × List W32) :=
  lanes.map fun l => (l, (List.range n).map fun k => t.getV (v + k) l)

/-- The checks of a push on its port: QPORT, QSIZE, the record queue, HFULL, RSVX (R145, R185, R203, R389, R469). -/
def pushFault (s : State) (q : BitVec 4) (x : QReg) (n : Nat) (team : Bool) (recs : List (Nat × List W32)) : Option TrapInfo :=
  let t := s.team
  let starts := (recs.filter fun r => recW r.2 0 % 16 = 1).length
  let k := portQueue x.port
  if x.port = 0 then some (qportTrap x)
  else if !pushShape x.port n team then some { code := codeQsize, val := BitVec.ofNat 64 x.port }
  else if 0x100 ≤ x.port && !queueOf s t.id.ctx k then some (rqueueTrap (BitVec.ofNat 32 k) 0)
  else if 0x100 ≤ x.port && (s.rq k).state = .closed then some (rqueueTrap (BitVec.ofNat 32 k) 3)
  else if x.port = 1 && 256 < rayCount s t.id.crew t.id.tno q.toNat + starts then
    some { code := codeHfull, detail := 1, val := q.setWidth 64 }
  else if x.port = 3 then overResv s q (recs.map Prod.fst)
  else none

/-- QPUSH in either form: the lanes that push, the checks, then the records are staged and delivered (R143). Port 0x003 sends them
to the register's destination (R469). -/
def pushWord (q : BitVec 4) (v : BitVec 7) (n : BitVec 5) (team : Bool) (lanes : List Nat) (s : State) : Res :=
  let t := s.team
  let x := t.qreg q.toNat
  let k := n.toNat + 1
  let recs := pushRecords t v.toNat k lanes
  if x.staged ≠ [] then pushDeliver q.toNat 33 s
  else if lanes = [] then ok s
  else
    match pushFault s q x k team recs with
    | some f => .trap s f
    | none =>
      if x.port = 3 then pushRemote s q.toNat v.toNat lanes
      else
        let y := if x.port = 1 then pushBatches s q.toNat x recs
          else (s, recs.map fun r => { words := r.2, lane := r.1, stamp := s.nextOp })
        pushDeliver q.toNat 33 (y.1.updQ t.key q.toNat fun x => { x with staged := y.2 })

/-- QPUSH (R143): one record per lane of the effective mask. -/
def execQpush (q : BitVec 4) (v : BitVec 7) (n : BitVec 5) (s : State) : Host.Outcome State Fault Refusal :=
  runWord (.qpush q v n) s fun s => pushWord q v n false s.team.lanes s

/-- QPUSH.team (R143): one record from the lowest-numbered lane of M. -/
def execQpushTeam (q : BitVec 4) (v : BitVec 7) (n : BitVec 5) (s : State) : Host.Outcome State Fault Refusal :=
  runWord (.qpushTeam q v n) s fun s =>
    let t := s.team
    let low := (lanesOf t.id.width t.mSrc).take 1
    match laneHazard s { t with m := t.m &&& maskOf low, group := t.group.map fun g => { g with m := g.m &&& maskOf low } }
        [(v.toNat, n.toNat + 1, 1)] [] with
    | some r => r
    | none => pushWord q v n true low s

/-! ### Pops (R144, R204, R416, R417) -/

/-- The registers a result of a port takes; none for a port without results (R145). -/
def popSize (port : Nat) : Nat := if port = 1 then 24 else if port = 2 then 8 else if port = 3 then 0 else if port = 4 then 4 else 16

/-- The checks of a pop on its port (R145, R204). -/
def popCheck (s : State) (x : QReg) (n : Nat) : Option TrapInfo :=
  let k := portQueue x.port
  if x.port = 0 then some (qportTrap x)
  else if 0x100 ≤ x.port && (s.rq k).fed ≠ 0 then some (qportTrap x)
  else if popSize x.port ≠ n then some { code := codeQsize, val := BitVec.ofNat 64 x.port }
  else if 0x100 ≤ x.port && !queueOf s s.team.id.ctx k then some (rqueueTrap (BitVec.ofNat 32 k) 0)
  else none

/-- What a register has to pop: an engine's results, or the records of its queue. -/
def popAvail (s : State) (x : QReg) : List QRes :=
  if 0x100 ≤ x.port then (s.rq (portQueue x.port)).recs.map fun w => { words := w } else x.results

/-- Take the first `k` results away. -/
def popTake (s : State) (q : Nat) (x : QReg) (k : Nat) : State :=
  if 0x100 ≤ x.port then
    let n := portQueue x.port
    let r := s.rq n
    s.setRq n { r with recs := r.recs.drop k }
  else
    let s := if x.port = 1 then popRays s q ((s.team.qreg q).results.take k) else s
    s.updQ s.team.key q fun x => { x with results := x.results.drop k }

/-- Write a result to lanes, `v` on. -/
def popWrite (t : Team) (v : Nat) (e : QRes × List Nat) : Team :=
  e.2.foldl (fun t l => ((List.range e.1.words.length).zip e.1.words).foldl (fun t w => t.setV (v + w.1) l w.2) t) t

/-- The results of a pop with the lanes that receive them (R144). -/
def popPairs (team : Bool) (lanes : List Nat) (rs : List QRes) : List (QRes × List Nat) :=
  if team then (rs.take 1).map fun r => (r, lanes) else (rs.zip lanes).map fun e => (e.1, [e.2])

/-- A pop (R144): `wait` for QPOP, `team` for a team form. -/
def popWord (q : BitVec 4) (v : BitVec 7) (n : BitVec 5) (p : BitVec 3) (wait team : Bool) (s : State) : Res :=
  let t := s.team
  let lanes := lanesOf t.id.width t.mSrc
  let want := if team then 1 else lanes.length
  match popCheck s (t.qreg q.toNat) (n.toNat + 1) with
  | some f => .trap s f
  | none =>
    let s := if (t.qreg q.toNat).port = 1 then popReported s q.toNat want 257 else s
    let x := s.team.qreg q.toNat
    let pairs := popPairs team lanes (popAvail s x)
    let dry := 0x100 ≤ x.port && (s.rq (portQueue x.port)).state = .closed
    if pairs = [] && wait && !dry then .block s .result
    else
      match if x.port = 1 then popFault s q.toNat pairs else none with
      | some (s, f) => .trap s f
      | none =>
        ok ((popTake s q.toNat x pairs.length).mapTeam fun t =>
          (pairs.foldl (fun t e => popWrite t v.toNat e) t).setP p.toNat t.mSrc (maskOf (pairs.flatMap Prod.snd)))

/-- QPOP (R144). -/
def execQpop (q : BitVec 4) (v : BitVec 7) (n : BitVec 5) (p : BitVec 3) (s : State) : Host.Outcome State Fault Refusal :=
  runWord (.qpop q v n p) s (popWord q v n p true false)

/-- QPOP.team (R144). -/
def execQpopTeam (q : BitVec 4) (v : BitVec 7) (n : BitVec 5) (p : BitVec 3) (s : State) : Host.Outcome State Fault Refusal :=
  runWord (.qpopTeam q v n p) s (popWord q v n p true true)

/-- QTRY (R144). -/
def execQtry (q : BitVec 4) (v : BitVec 7) (n : BitVec 5) (p : BitVec 3) (s : State) : Host.Outcome State Fault Refusal :=
  runWord (.qtry q v n p) s (popWord q v n p false false)

/-- QTRY.team (R144). -/
def execQtryTeam (q : BitVec 4) (v : BitVec 7) (n : BitVec 5) (p : BitVec 3) (s : State) : Host.Outcome State Fault Refusal :=
  runWord (.qtryTeam q v n p) s (popWord q v n p false true)

end Sys2Proof.Machine
end

