-- ==== Sys2Proof/Machine/Returns.lean ====
section
/-! DEFINITION. What comes back to a word that has issued: a load's values and the results of a word of an engine (R29, R30, R252, R255). -/

namespace Sys2Proof.Machine

/-- What a word of an engine brings when it can: LAUNCH reads, checks and takes its record after the team's earlier accesses, with ACQ after an
acquire (R33, R181); an event word releases them at its scope and adds (R178, R179, R182); RQBIND.stat and PMAP their status;
CPLAN its status and handle (R490). -/
def wordReturn (s : State) (o : Op) (k : Nat) : State :=
  match o.kind with
  | .word (.pmap d left sts pages) => returnPmap s o d left sts pages k
  | .word (.plan d va acq sup) => planReturn s o d va acq sup
  | .word (.stat d n) => giveScalars s o d [queueStat (s.rq n)]
  | .word (.launch d va acq sup) =>
    if earlierMem s o then s
    else
      let t := s.teamAt o.team
      let s := drainWb s t.id.die t.id.core
      let s := match acq with | some sc => s.acquireFor o.team sc | none => s
      let r := launchFrom s t.id.die t.id.ctx t.id.ceil.toNat va sup none
      giveScalars (settleLaunches allLaunches r.1) o d [BitVec.ofNat 32 r.2.1, BitVec.ofNat 32 r.2.2]
  | .word (.event e amount sc) =>
    if earlierMem s o || earlierAdd s o then s
    else
      match relReady s o.team sc with
      | (s, false) => s
      | (s, true) =>
        let r := evAdd (s.releaseFor o.team sc) e amount
        finishOp ((settleLaunches allLaunches r.1).updTeam o.team fun t => if r.2 then t.raise flagOF else t) o
  | _ => s

/-- LOAD_RETURN (R252, R254, R255, R258): the site names the operation and the mask word; `remote` holds the lines of
fabric addresses that the owners returned. The results of a word of an engine come in the same way (R29). -/
def execLoadReturn (remote : List RemoteLine) (s : State) : Host.Outcome State Fault Refusal :=
  match s.op s.site.op with
  | none => .next s
  | some o =>
    if (s.crew o.crew).gen ≠ o.gen then .next { s with ops := s.ops.filter fun x => x.id ≠ o.id }
    else if !opCurrent s o || !loadTurn s o then .next s
    else .next (match o.kind with | .word _ => wordReturn s o s.site.n | _ => returnLoad s o s.site.n remote)

/-! ### Host atomics (R308, R310 to R312) -/

/-- The answer for one lane of the site's atomic: the lane receives it. -/
def hostAnswer (s : State) (f : State → Op → AtomicOp → AtLane → State) : Host.Outcome State Fault Refusal :=
  siteOp s fun s o =>
    match o.kind with
    | .atomic a =>
      match hostLane s o a with
      | some l =>
        if l.lane ≠ s.site.n then s else followImages s (atSettle (f s o a l) o a (a.lanes.filter fun x => x.lane ≠ l.lane) 0)
      | none => s
    | _ => s

/-- HOST_ATOMIC_COMPLETION (R311): the lane of the site's number gets its old value, or a marker. -/
def execHostAtomicCompletion (reply : HostReply) (old : BitVec 128) (s : State) : Host.Outcome State Fault Refusal :=
  hostAnswer s fun s o a l =>
    let v := old.toNat % 2 ^ (8 * a.size)
    match reply with
    | .value => giveOld (hostApplied s o a l v) o a l v
    | .unsupported => giveMark s o a l (.hostAtomic 1 l.va)
    | .aborted => giveMark s o a l (.hostAtomic 2 l.va)
    | .poisoned => giveMark s o a l (.hostAtomic 4 l.va)

/-- HOST_ATOMIC_TIMEOUT (R311): the lane gets a marker with DETAIL 3; whether the host applied the operation is the
host's. -/
def execHostAtomicTimeout (applied : Bool) (old : BitVec 128) (s : State) : Host.Outcome State Fault Refusal :=
  hostAnswer s fun s o a l =>
    giveMark (if applied then hostApplied s o a l (old.toNat % 2 ^ (8 * a.size)) else s) o a l (.hostAtomic 3 l.va)

end Sys2Proof.Machine
end

