-- ==== Sys2Proof/Machine/Crew.lean ====
section
/-! DEFINITION. Crews in their slots: bind, start, save, restore, drop, end, wait promotion
(spec/05_launch_engine.md R163 to R166, R170, R172, R174, R175, R187 to R201, R205). -/

namespace Sys2Proof.Machine

/-! ### Binding a slot (R164, R165) -/

/-- Logical cores of a die have 16 crew slots, control cores 4 (R163). -/
def slotThere (core slot : Nat) : Bool := core < 48 && slot < (coreRoom (40 ≤ core)).2.2

/-- A bind is refused (R165). -/
def bindBad (s : State) (die core slot : Nat) (r : SlotRow) : Bool :=
  let room := coreRoom (40 ≤ core)
  let others := ((s.core (coreKey die core)).slots.filter fun e => e.1 ≠ slot && e.2.state ≠ 0).map Prod.snd
  !coreThere s (die, core) || room.1 < r.rfbase + r.rflen || room.2.1 < r.spbase + r.splen ||
  others.any (fun o => spansMeet (o.rfbase, o.rflen) (r.rfbase, r.rflen) || spansMeet (o.spbase, o.splen) (r.spbase, r.splen)) ||
  r.area.toNat % 65536 ≠ 0 ||
  match launchOf s r.lhandle.toNat with
  | none => true
  | some e =>
    (e.state != .pending && e.state != .running) || r.splen < lScratch e.words ||
    r.rflen < lRfNeed e.words

/-- The crew that a bind joins: one whose teams take slots of their own and that has slots to take still (R170), or a saved
crew (R197). -/
def bindsTo (s : State) (r : SlotRow) : Option (Nat × Crew) :=
  s.crews.find? fun e =>
    e.2.handle = r.lhandle.toNat && e.2.crewno = r.crewno.toNat &&
    (if r.area = 0 then e.2.state == .starting && e.2.spots.length < lTeams e.2.words && lSpread e.2.words
     else (e.2.state == .saved && e.2.area = r.area.toNat) ||
       (e.2.state == .restoring && e.2.spots.length < lTeams e.2.words && lSpread e.2.words))

/-- A crew takes a slot; a saved one leaves the place it was captured at. Its scratchpad keeps the SPLEN of the slot it was first bound in (DESIGN
CHOICE, log entry 91). -/
def Crew.takeSlot (c : Crew) (die core slot : Nat) (r : SlotRow) : Crew :=
  let spot := if lSpread c.words then [(coreKey die core, slot)] else []
  if c.state = .starting || c.state = .restoring then { c with spots := c.spots ++ spot }
  else { c with state := .restoring, die := die, core := core, slot := slot, spots := spot, ceil := r.ceil, qos := r.qos }

/-- A new crew of a launch in a slot, its dropped records with it; a level bound beyond a core has no scratchpad (R19, R89, R166, R172, R205). -/
def newCrew (e : LaunchEntry) (die core slot : Nat) (r : SlotRow) : Crew :=
  {
    state := if r.area = 0 then .starting else .restoring, handle := r.lhandle.toNat, crewno := r.crewno.toNat, ctx := e.ctx,
    gen := 1, idem := lIdem e.words, qos := r.qos, ceil := r.ceil, die := die, core := core, slot := slot,
    spots := if lSpread e.words then [(coreKey die core, slot)] else [], words := e.words,
    splen := if lSpread e.words then 0 else r.splen, since := e.start,
    fed := ((e.dropped.find? fun x => x.1 = r.crewno.toNat).map Prod.snd).getD [] }

/-- The launch of a bound crew is RUNNING, from the step of its first bind on; the crew is among the bound ones (R89, R171, R172). -/
def LaunchEntry.bound (e : LaunchEntry) (n tick : Nat) : LaunchEntry :=
  { e with state := .running, start := if e.state = .running then e.start else tick, next := max e.next (n + 1), dropped := e.dropped.filter fun x => x.1 ≠ n }

/-- Software writes VALID = 1 in an EMPTY slot: the bind, before which its clusters' fusion becomes what its launch asks for, or ERR; VALID reads 0
after a refusal (DESIGN CHOICE, log entry 92; R164, R165, R245). -/
def bindSlot (s : State) (die core slot : Nat) : State :=
  let ck := coreKey die core
  let r := s.row ck slot
  if r.state ≠ 0 || !slotThere core slot then s
  else if bindBad s die core slot r then s.setRow ck slot { r with err := true, valid := false }
  else
    match launchOf s r.lhandle.toNat with
    | none => s
    | some e =>
      let e := e.bound r.crewno.toNat s.tick
      let id := match bindsTo s r with | some x => x.1 | none => s.nextOp + 1
      let cr := match bindsTo s r with | some x => x.2.takeSlot die core slot r | none => newCrew e die core slot r
      let s := { (settleFusion s cr cr.fuse).setCrew id cr with nextOp := if (bindsTo s r).isSome then s.nextOp else s.nextOp + 1 }
      let h := r.lhandle.toNat
      let s := s.setLaunch (handleDie h) (handleEntry h) e
      s.setRow ck slot { r with valid := true, err := false, state := if r.area = 0 then 1 else 5, crew := id, cmd := 0 }

/-- SLOT_BIND (R164): VALID = 1 is written in the site's slot. -/
def execSlotBind (s : State) : Host.Outcome State Fault Refusal := .next (bindSlot s s.site.die s.site.core s.site.slot)

/-! ### A crew stops (R38, R190, R191, R338, R386, R433) -/

/-- Every leave that a crew's rays, matrix operations and unissued words hold or ask for goes back to the die whose arbiter it is of (R38). -/
def leavesBack (s : State) (c : Nat) : State :=
  let cr := s.crew c
  let s := cr.batches.foldl (fun s b => dropLeave s (s.teamAt (teamKey c b.team)).id.die 3 (.rays c b.id) b.leave) s
  let s := cr.mat.ops.foldl (fun s o => dropLeave s (opSpot s c o).1 (matAmps o.ta) (.array c o.id) o.leave) s
  let s := (teamKeys s c).foldl (fun s k =>
    let t := s.teamAt k
    (dropLeave s t.id.die 2 (.word k) t.eng.leave).updTeam k fun t => { t with eng := { t.eng with leave := .free } }) s
  let cr := s.crew c
  s.setCrew c { cr with
    batches := cr.batches.map fun b => { b with leave := .free },
    mat := { cr.mat with ops := cr.mat.ops.map fun o => { o with leave := .free } } }

/-- The array of each of the crew's cores lets go of the crew: the operation on it stops at its step, a rival's request is withdrawn. -/
def freeArray (s : State) (c : Nat) : State :=
  (distinct ((s.crew c).slotsOf.map Prod.fst)).foldl (fun s ck =>
    let s := if ((s.core ck).array.map Prod.fst) = some c then stopArray s ck else s
    let k := s.core ck
    if (k.rival.map Prod.fst) = some c then s.setCore ck { k with rival := none } else s) s

/-- Every fill of a crew is abandoned: its entry is ABSENT with the next GEN, and the teams descheduled on it are ready (R190, R326, R338). -/
def dropFills (s : State) (c : Nat) : State :=
  (List.range 32).foldl (fun s e =>
    let r := (s.crew c).region e
    if r.state ≠ .filling then s
    else
      let s := abandonFill s c e
      leftWindow (s.setCrew c ((s.crew c).setRegion e { r with state := .absent, gen := r.gen + 1 })) c e) s

/-- What the matrix engine keeps of operations and arrivals: an operation that has not issued goes, its members re-execute their
words; an MMAC whose decode is not verified awaits them, any other is saved suspended (R386, R387). -/
def Matrix.captured (m : Matrix) : Matrix :=
  { m with
    starts := [], latch := m.latch.filter fun a => match a.status with | .issued _ => true | .fault _ _ _ => true | _ => false,
    ops := (m.ops.filter fun o => o.issued || o.isC || o.state != .started).map fun o =>
      if o.state = .held then { o with leave := .free }
      else { o with state := if o.isC && !o.verified then .restored else .suspended, issued := o.issued && (!o.isC || o.verified), leave := .free } }

/-- The engines let go of a crew that is saved (R190). -/
def stopEngines (s : State) (c : Nat) : State :=
  let s := dropFills (leavesBack (freeArray s c) c) c
  let cr := s.crew c
  let s := (teamKeys s c).foldl (fun s k => dropWalks s (s.teamAt k).coreK k) s
  s.setCrew c { cr with mat := cr.mat.captured, rays := cr.rays.map fun r => { r with lines := [] } }

/-- The slot command Save on a crew that is RUN (R164, R192). -/
def saveCrew (s : State) (c : Nat) : State := stopEngines (beginSave s c) c

/-- The crew bound to the site's slot. -/
def siteCrew (s : State) : Nat := (s.row (coreKey s.site.die s.site.core) s.site.slot).crew

/-- An operation whose effect Save and Drop wait for: a store, a drain, an atomic without a result, MST (R290, R314, R338, R386). -/
def OpKind.stands : OpKind → Bool
  | .load _ _ _ _ _ _ _ _ _ => false
  | .store _ _ => true
  | .fill _ => false
  | .drain _ => true
  | .mload _ => true
  | .mst _ => true
  | .mtrq _ => true
  | .atomic a => a.regs == 0 && !a.deferred
  | .ramo _ => false
  | .rsvs _ => false
  | .tile _ => false
  | .word _ => false

/-- Make a crew's slots EMPTY; each interrupts the management core (R164). -/
def emptySlots (s : State) (c : Nat) : State :=
  let cr := s.crew c
  cr.slotsOf.foldl (fun s p =>
    let r := s.row p.1 p.2
    if r.crew = c then
      (s.setRow p.1 p.2 { r with valid := false, state := 0, crew := 0, cmd := 0, idem := cr.idem }).emit (.slotEmpty (p.1 / 48) (p.1 % 48) p.2)
    else s) s

/-- A crew has left its slots: the fusion of its clusters ends where no other crew is bound (R245). -/
def unfuse (s : State) (cr : Crew) : State := settleFusion s cr false

/-! ### Save (R187, R190 to R195) -/

/-- What a team is in an image: its clause ends at its group's boundary, arrivals at a barrier or in REFORM stay, ageing starts
again (R58, R161, R190). -/
def Team.captured (t : Team) : Team :=
  { t with
    pc := t.faultPc, clause := none, pfx := {}, group := none,
    sched := { arrived := smSet none [] 0 (t.arr 0) } }

/-- A team is waiting: in BAR, AWAIT, REFORM, MWAIT, EVWAIT or CWAIT, or a full record queue stalls its QPUSH (R200). -/
def Team.waits (t : Team) : Bool :=
  t.id.alive &&
    match t.sched.wait with
    | some (.barrier _) | some (.phase _ _) | some .reform | some .memory | some (.event _ _) | some .run | some (.queue _) => true
    | _ => false

/-- The classes of a crew's teams that have been waiting for WAITLIM cycles of their die (R200). -/
def waiterClasses (s : State) (c : Nat) : List Nat :=
  ((teamKeys s c).filter fun k =>
    let t := s.teamAt k
    t.waits && (s.crew c).state == .run && t.sched.blockedFrom + max 1024 (s.die t.id.die).regs.waitlim.toNat ≤ s.now t.id.die).map
    fun k => effClass s c (k % 16)

/-- A crew that is a waiter stops being one when no team of it is waiting (R200). -/
def settleWaiters (s : State) : State :=
  s.crews.foldl (fun s e =>
    if e.2.waiter.isSome && (e.2.state != .run || !((teamKeys s e.1).any fun k => (s.teamAt k).waits)) then
      s.setCrew e.1 { s.crew e.1 with waiter := none }
    else s) s

/-- The highest class of a list. -/
def topClass : List Nat → Option Nat
  | [] => none
  | x :: r => some (r.foldl max x)

/-- Saved crews of a context with a lower promoted class are promoted, and those with none, whatever class they were saved with (DESIGN CHOICE, log
entry 93; R201; what brings them back is R200's restore, the second to fourth promises of R176). -/
def promoteSaved (s : State) (ctx cls : Nat) : State :=
  s.crews.foldl (fun s e =>
    let cr := s.crew e.1
    if cr.state = .saved && cr.ctx = ctx && (match cr.promoted with | none => true | some p => decide (p.toNat < cls)) then
      syncImage (s.setCrew e.1 { cr with promoted := some (BitVec.ofNat 2 cls) }) e.1
    else s) s

/-- Every waiter of a context promotes (R201). -/
def promoteAll (s : State) (ctx : Nat) : State :=
  s.crews.foldl (fun s e =>
    if e.2.ctx = ctx then match e.2.waiter with | some k => promoteSaved s ctx k | none => s else s) s

/-- A word of an event that is still to add when its crew is captured keeps no flag: the image restores it clear (R30). -/
def flagless (c : Nat) (o : Op) : Op :=
  match o.kind with
  | .word (.event _ _ _) => if o.crew = c then { o with flag := none } else o
  | _ => o

/-- A crew is captured into its save area and its slots are EMPTY (R192). Its stores are at the home, and its elements depart
(log entry 30). -/
def captureCrew (s : State) (c : Nat) : State :=
  let cr := s.crew c
  let s := cr.slotsOf.foldl (fun s p => releaseAt s (p.1 / 48) (p.1 % 48) 4) s
  let s := (teamKeys s c).foldl (fun s k => flushTeam s (s.teamAt k).id.die k fun _ => true) s
  let s := { s with ops := (s.ops.filter fun o => !(o.crew = c && (match o.kind with | .ramo r => !r.issued | _ => false))).map (flagless c) }
  let row := match cr.slotsOf with | p :: _ => s.row p.1 p.2 | [] => {}
  let s := (teamKeys s c).foldl (fun s k => s.updTeam k Team.captured) s
  let s := s.setCrew c { s.crew c with state := .saved, area := row.area.toNat, ceil := row.ceil, qos := row.qos, waiter := none }
  let s := unfuse (emptySlots s c) cr
  promoteAll (writeImage (s.setCrew c { s.crew c with spots := [] }) c) cr.ctx

/-- A crew that is SAVING may be captured: it has not been terminated, no commit goes on, what must complete first has, no member stands at a word
that has issued, no word has requests that wait for slots, no RFREE waits for its drain (R191, R193, R252, R276, R386). -/
def mayCapture (s : State) (c : Nat) : Bool :=
  let cr := s.crew c
  cr.state == .saving && cr.cause.isNone && !cr.commit && !(s.ops.any fun o => o.crew = c && (o.kind.stands || entering s o)) && cr.mat.latch == [] &&
  !((s.liveTeams c).any fun n => ((s.teamAt (teamKey c n)).arr 4).isSome)

/-- SAVE_COMPLETE (R192): the image of the site's crew is written and its slots become EMPTY; a save area that the physical map
does not hold stops the machine. -/
def execSaveComplete (s : State) : Host.Outcome State Fault Refusal :=
  let c := s.site.crew
  let s' := if (s.crew c).state = .saving then stopEngines s c else s
  if !mayCapture s' c then .next s'
  else
    let area := match (s.crew c).slotsOf with | p :: _ => (s.row p.1 p.2).area.toNat | [] => 0
    if isMapped area && isMapped (area + 0x3FFFFF) then .next (captureCrew s' c) else .fault (.physHole area)

/-- LATE_RETURN (R30, R31): what the site's operation of a saved crew brings is written into its image; that of a retired
generation is discarded. -/
def execLateReturn (remote : List RemoteLine) (s : State) : Host.Outcome State Fault Refusal :=
  match s.op s.site.op with
  | none => .next s
  | some o =>
    let cr := s.crew o.crew
    if cr.gen ≠ o.gen then .next { s with ops := s.ops.filter fun x => x.id ≠ o.id, progress := s.progress + 1 }
    else if cr.state ≠ .saved && cr.state ≠ .restoring then .next s
    else
      match o.kind with
      | .load _ _ _ _ _ _ _ _ _ => if loadTurn s o then .next (followImages s (returnLoad s o s.site.n remote)) else .next s
      | .word _ => .next (followImages s (wordReturn s o s.site.n))
      | .atomic a =>
        if a.deferred || !mayPerform s o || atWaits a then .next s else .next (followImages s (atPerform s o a))
      | _ => .next s

/-! ### Drop (R187, R190, R198) -/

/-- Drop begins: every team ends where it stands, what the crew has not performed is discarded, and its stores, drains and atomics
without a result go on (R31, R190). -/
def beginDrop (s : State) (c : Nat) : State :=
  let s := dropFills (leavesBack (freeArray s c) c) c
  let s := (teamKeys s c).foldl (fun s k => dropWalks s (s.teamAt k).coreK k) s
  let s := { s with ops := s.ops.filter fun o => o.crew ≠ c || o.kind.stands || (match o.kind with | .tile _ => true | _ => false) }
  let s := (teamKeys s c).foldl (fun s k => s.updTeam k fun t => { t with id := { t.id with alive := false }, clause := none, pfx := {}, group := none }) s
  mapRows (s.setCrew c { s.crew c with state := .dropping }) c fun r => { r with state := 4 }

/-- A core's TLB drops a context's entries (R290). -/
def dropContext (s : State) (ck ctx : Nat) : State :=
  s.setCore ck { s.core ck with tlb := (s.core ck).tlb.filter fun t => t.ctx ≠ ctx }

/-- Drop ends: the generation is retired, its cores' TLBs drop its entries, and the crew is among its launch's unbound crews, with its records
(R172, R198, R290). -/
def endDrop (s : State) (c : Nat) : State :=
  let cr := s.crew c
  let s := cr.slotsOf.foldl (fun s p => dropContext (drainWb s (p.1 / 48) (p.1 % 48)) p.1 cr.ctx) s
  let s := emptySlots s c
  let s := match launchOf s cr.handle with
    | none => s
    | some e => s.setLaunch (handleDie cr.handle) (handleEntry cr.handle) { e with dropped := e.dropped ++ [(cr.crewno, cr.fed)] }
  let s := { s with others := s.others.filter fun e => e.1 / 16 ≠ c, team := if s.team.id.crew = c then {} else s.team }
  unfuse (s.setCrew c {}) cr

/-- A drop goes on: it ends when nothing of the crew is still to be performed. -/
def stepDrop (s : State) (c : Nat) : State := if s.ops.any fun o => o.crew = c then s else endDrop s c

/-- A slot command: 1 Save, 2 Drop; before RUN it waits, and Drop of a crew that is not idempotent is Save (R164, R188). -/
def slotCommand (s : State) (die core slot cmd : Nat) : State :=
  let ck := coreKey die core
  let r := s.row ck slot
  if cmd ≠ 1 && cmd ≠ 2 then s
  else if r.state = 1 || r.state = 5 then s.setRow ck slot { r with cmd := BitVec.ofNat 2 cmd }
  else if r.state ≠ 2 then s
  else if cmd = 1 || !(s.crew r.crew).idem then saveCrew s r.crew
  else stepDrop (beginDrop s r.crew) r.crew

/-- A write of the command register of a core's slot table (R163, R164): SLOT is kept; CMD reads 0 once the command is accepted or ignored, and stays
while it waits for RUN or is none. -/
def writeSlotCmd (s : State) (die core : Nat) (v : W32) : State :=
  let ck := coreKey die core
  let cmd := (v.extractLsb' 30 2).toNat
  let slot := (v.extractLsb' 0 4).toNat
  let st := (s.row ck slot).state
  let kept : W32 := if (cmd ≠ 1 && cmd ≠ 2) || st = 1 || st = 5 then v &&& 0xC000000F else v &&& 0xF
  slotCommand (s.setCore ck { s.core ck with slotCmd := kept }) die core slot cmd

/-- SLOT_SAVE (R192): the command Save for the site's slot. -/
def execSlotSave (s : State) : Host.Outcome State Fault Refusal := .next (slotCommand s s.site.die s.site.core s.site.slot 1)

/-- SLOT_DROP (R198): the command Drop for the site's slot; on a slot that is DROPPING, the end of the drop. -/
def execSlotDrop (s : State) : Host.Outcome State Fault Refusal :=
  let c := siteCrew s
  .next (if (s.crew c).state = .dropping then stepDrop s c else slotCommand s s.site.die s.site.core s.site.slot 2)

/-- A command that waited is taken now that the crew is RUN (R164). -/
def takeCommand (s : State) (c : Nat) : State :=
  (s.crew c).slotsOf.foldl (fun s p =>
    let r := s.row p.1 p.2
    if r.crew = c && r.state = 2 && r.cmd ≠ 0 then
      let k := s.core p.1
      let s := if (k.slotCmd.extractLsb' 0 4).toNat = p.2 then s.setCore p.1 { k with slotCmd := k.slotCmd &&& 0xF } else s
      slotCommand (s.setRow p.1 p.2 { r with cmd := 0 }) (p.1 / 48) (p.1 % 48) p.2 r.cmd.toNat
    else s) s

/-! ### Start (R166, R205) -/

/-- All the slots of a crew are bound (R170). -/
def allBound (cr : Crew) : Bool := !lSpread cr.words || cr.spots.length = lTeams cr.words

/-- The records that feed a crew that starts: none for a launch without a queue; those it had before a drop; else, for the crew
next in number, the group formed first, taken from the queue (R172, R205). None when it has to wait. -/
def takeFed (s : State) (cr : Crew) : Option (State × List (List W32)) :=
  match lInq cr.words with
  | none => some (s, [])
  | some n =>
    if cr.fed ≠ [] then some (s, cr.fed)
    else
      match launchOf s cr.handle with
      | none => none
      | some e =>
        let q := s.rq n
        let k := if lFeed cr.words then e.formed.headD 0 else if q.recs = [] then 0 else 1
        if e.started ≠ cr.crewno || k = 0 then none
        else
          let s := s.setRq n { q with recs := q.recs.drop k }
          some (s.setLaunch (handleDie cr.handle) (handleEntry cr.handle) { e with formed := e.formed.drop 1, started := e.started + 1 },
            q.recs.take k)

/-- Team `n` of a crew at its start (R166). Words 8 to 15 of the records that feed a crew with 8 declared vector registers go nowhere (DESIGN CHOICE,
log entry 94; R205). -/
def freshTeam (s : State) (id : Nat) (cr : Crew) (n : Nat) : Team :=
  let spot := cr.spots.getD n (coreKey cr.die cr.core, cr.slot)
  let w := lWidth cr.words
  let full := fullMask w
  let byLane := n = 0 && lFeed cr.words && cr.fed ≠ []
  let live := if byLane then fullMask cr.fed.length else full
  let t : Team := {
    id := {
      alive := true, crew := id, tno := n, die := spot.1 / 48, core := spot.1 % 48, slot := spot.2, ctx := cr.ctx, width := w,
      nregs := lRegs cr.words, ceil := cr.ceil, crewno := cr.crewno, crewTeams := lTeams cr.words, quantum := lQuantum cr.words },
    live := live, m := live, pc := cr.words.getD 0 0, cls := cr.ceil,
    x := { xvec := recWord s cr.ctx 0x38 &&& ~~~(0xF#64) }, sched := { since := s.tick } }
  let t := t.setS64 60 (cr.words.getD 1 0)
  if byLane then
    ((List.range cr.fed.length).zip cr.fed).foldl (fun t e =>
      (List.range 16).foldl (fun t k => if k < t.id.nregs then t.setV k e.1 (e.2.getD k 0) else t) t) t
  else if n = 0 then ((cr.fed.headD []).zip (List.range 16)).foldl (fun t e => t.setS e.2 e.1) t
  else t

/-- CREW_START (R166): the site's crew, bound in all its slots, acquires at CSCOPE, its teams begin, its slots are RUN. -/
def execCrewStart (s : State) : Host.Outcome State Fault Refusal :=
  let c := s.site.crew
  let cr := s.crew c
  if cr.state ≠ .starting || !allBound cr then .next s
  else
    match takeFed s cr with
    | none => .next s
    | some (s, fed) =>
      let cr := { cr with state := .run, fed := fed }
      let s := acquireCrew (s.setCrew c cr) cr (lScope cr.words)
      let s := (List.range (lTeams cr.words)).foldl (fun s n => s.setTeamAt (teamKey c n) (freshTeam s c cr n)) s
      .next (takeCommand (mapRows s c fun r => { r with state := 2 }) c)

/-! ### Restore (R197) -/

/-- A team in the slot that its crew is restored in: its class is within the new ceiling (R197, R201). -/
def Team.moved (t : Team) (cr : Crew) (tick : Nat) : Team :=
  let spot := cr.spots.getD t.id.tno (coreKey cr.die cr.core, cr.slot)
  { t with
    id := { t.id with die := spot.1 / 48, core := spot.1 % 48, slot := spot.2, ceil := cr.ceil },
    cls := if t.cls ≤ cr.ceil then t.cls else cr.ceil, sched := { t.sched with since := tick } }

/-- The header in memory is that of a crew's image (R194, R197). -/
def headerFits (s : State) (cr : Crew) : Bool :=
  (home32 s cr.area).toNat = 0x53564B4C && leNat (homeBytes s (cr.area + 4) 2) = 1 &&
  (home32 s (cr.area + 8)).toNat = cr.handle && (home32 s (cr.area + 12)).toNat = cr.crewno && !anyPoison s cr.area 64

/-- The batches of a restored crew's running rays ask for their leave again (R38, R423). -/
def askBatches (s : State) (c : Nat) : State :=
  let cr := s.crew c
  let s := s.setCrew c { cr with batches := cr.batches.map fun b => { b with leave := .asked } }
  settleBatches (cr.batches.foldl (fun s b => askLeave s (s.teamAt (teamKey c b.team)).id.die { who := .rays c b.id, amps := 3, cls := effClass s c b.team }) s) c

/-- The completion flags that a restored team has busy: those of the matrix operations and of the deferred words that go on (R30). -/
def restoredFlags (s : State) (key : Nat) : BitVec 12 :=
  let ops := (s.ops.filter fun o => o.team = key).filterMap Op.flag
  let mat := ((s.crew (key / 16)).mat.ops.flatMap MatOp.busy).filterMap fun b => if b.1 = key % 16 then some b.2 else none
  (ops ++ mat).foldl (fun m f => m ||| (1#12 <<< f)) 0

/-- A crew whose image has been loaded goes on: a new generation, an acquire, its teams in their slots, its slots RUN (R31, R197). -/
def resumeCrew (s : State) (c : Nat) : State :=
  let cr := s.crew c
  let gen := if cr.gen = 2 ^ 32 - 1 then 1 else cr.gen + 1
  let s := s.setCrew c { cr with state := .run, gen := gen, promoted := none }
  let s := { s with ops := s.ops.map fun o => if o.crew = c then { o with gen := gen } else o }
  let s := acquireCrew s cr 4
  let s := (teamKeys s c).foldl (fun s k => s.updTeam k fun t => { t.moved cr s.tick with busy := restoredFlags s k }) s
  takeCommand (mapRows (askBatches s c) c fun r => { r with state := 2 }) c

/-- The core that a crew is restored on has the matrix resources that it claims, and each core of it room for its ray-bound registers (R345, R388,
R433). -/
def engineRoom (s : State) (c : Nat) : Bool :=
  let cr := s.crew c
  let regs : Nat → Nat := fun k => (rayRegs (s.teamAt k)).length
  let spot : Nat → Nat := fun k => (cr.spots.getD (k % 16) (coreKey cr.die cr.core, cr.slot)).1
  ([0, 1, 2].all fun kind => physUsed s cr.die cr.core kind + bitCount (cr.mat.claims kind) ≤ kindCount kind) &&
  (cr.slotsOf.map Prod.fst).all fun ck =>
    rayBound s ck + (((teamKeys s c).filter fun k => spot k = ck).map regs).foldl (· + ·) 0 ≤ 16

/-- An image that cannot be restored: its crew is terminated with MCE.CREW (R197). -/
def badImage (s : State) (c : Nat) : State :=
  mapRows ((s.setCrew c { s.crew c with state := .run }).killCrew c causeMce) c fun r => { r with state := 2 }

/-- The teams of a crew whose image is to be loaded: those kept beside it, and fresh ones where none is kept. -/
def withTeams (s : State) (c : Nat) : State :=
  (List.range (lTeams (s.crew c).words)).foldl (fun s n =>
    if (s.teamAt (teamKey c n)).id.crew = c then s else s.setTeamAt (teamKey c n) (freshTeam s c (s.crew c) n)) s

/-- What a crew's restored quantum buffers access is translated again for the die each team is restored on; none when an access does not translate
(R281; log entry 108). -/
def buffersAgain (c : Nat) : List Nat → State → Option State
  | [], s => some s
  | k :: r, s =>
    let cr := s.crew c
    match itemsAgain ((cr.spots.getD (k % 16) (coreKey cr.die cr.core, cr.slot)).1 / 48) cr.ctx (s.teamAt k).dq.items s with
    | (_, none) => none
    | (s, some l) => buffersAgain c r (s.updTeam k fun t => { t with dq := { t.dq with items := l } })

/-- CREW_RESTORE (R197): the site's crew, bound in all its slots and with PENDING and MISSING 0: its image is decoded and every section loaded, and
where the engines have room for it and what it has buffered translates, it gets a new generation, acquires and goes on; an image that is not its own
or cannot be decoded terminates it with MCE.CREW. -/
def execCrewRestore (s : State) : Host.Outcome State Fault Refusal :=
  let c := s.site.crew
  let cr := s.crew c
  if cr.state ≠ .restoring || !allBound cr then .next s
  else if cr.area = 0 || !headerFits s cr then .next (badImage s c)
  else if pendingOf s c ≠ 0 || cr.missing ≠ 0 then .next s
  else
    match readImage s c with
    | none => .next (badImage s c)
    | some l =>
      let u := loadSections c l (withTeams s c)
      if !engineRoom u c then .next s
      else
        match buffersAgain c (teamKeys u c) u with
        | none => .next s
        | some u => .next (resumeCrew u c)

/-! ### The end of a crew (R174, R175) -/

/-- What an ended or terminated crew leaves that is abandoned at once: fills, words that have not issued, atomics that no commit
will perform, leaves (R340). -/
def dropRest (s : State) (c : Nat) : State :=
  let s := dropFills (leavesBack (freeArray s c) c) c
  { s with ops := s.ops.filter fun o => !(o.crew = c && (waitsCommit s o || (match o.kind with | .ramo r => !r.issued | _ => false))) }

/-- A matrix word of a crew has issued and its operation has not completed (R345). -/
def matrixBusy (cr : Crew) : Bool := cr.mat.ops.any fun o => o.issued && o.state != .held

/-- The launch of a crew counts its end, with the first termination's cause, and completes with its last crew (R174, R175). -/
def countEnd (s : State) (cr : Crew) : State :=
  match launchOf s cr.handle with
  | none => s
  | some e =>
    let e' := match cr.cause with
      | none => e
      | some k => { e with terminated := e.terminated + 1, cause := if e.terminated = 0 then k else e.cause }
    settleLaunches allLaunches (s.setLaunch (handleDie cr.handle) (handleEntry cr.handle) { e' with ended := e.ended + 1 })

/-- The release at CSCOPE of a crew's teams: whether its elements have completed (R174, R262). -/
def endRelease (s : State) (c scope : Nat) : State × Bool :=
  (teamKeys s c).foldl (fun x k => let y := relReady x.1 k scope; (y.1, x.2 && y.2)) (s, true)

/-- A record that a team pushed waits for its engine (R24). -/
def portsBusy (s : State) (c : Nat) : Bool :=
  (teamKeys s c).any fun k => (s.teamAt k).q.any fun e => (e.2.port = 2 || e.2.port = 4) && e.2.pushed != []

/-- CREW_END (R174, R175, R345, R467): every team of the site's crew has ended and what it issued has completed; its matrix claims are released; a
crew that was not terminated then releases at CSCOPE; its reservations go back, its slots are EMPTY and its launch counts it. -/
def execCrewEnd (s : State) : Host.Outcome State Fault Refusal :=
  let c := s.site.crew
  let cr := s.crew c
  if (cr.state ≠ .run && cr.state ≠ .saving) || s.liveTeams c ≠ [] || cr.commit ||
      (cr.cause.isNone && (matrixBusy cr || (teamKeys s c).any fun k => (s.teamAt k).dq.items ≠ [])) then .next s
  else
    let s := dropRest s c
    if s.ops.any (fun o => o.crew = c) || (cr.cause.isNone && portsBusy s c) then .next s
    else
      let s := (teamKeys s c).foldl returnAll (s.setCrew c { s.crew c with mat := {} })
      match if cr.cause.isNone then endRelease s c (lScope cr.words) else (s, true) with
      | (s, false) => .next s
      | (s, true) =>
        let s := if cr.cause.isNone then cr.slotsOf.foldl (fun s p => releaseAt s (p.1 / 48) (p.1 % 48) (lScope cr.words)) s else s
        let s := emptySlots s c
        let s := s.setCrew c { state := .ended, handle := cr.handle, crewno := cr.crewno, ctx := cr.ctx, gen := cr.gen, cause := cr.cause }
        .next (countEnd (unfuse s cr) cr)

/-! ### Wait promotion (R199 to R201) -/

/-- WAIT_LIMIT_EXPIRY (R200, R201): the site's crew becomes a waiter; the saved crews of its context are promoted, and the unbound crews of
a launch fed by a queue that a team of it waits for. With it a crew that only waits does not keep a saved crew of its context out (R176, the promises
to crews that wait). -/
def execWaitLimitExpiry (s : State) : Host.Outcome State Fault Refusal :=
  let c := s.site.crew
  match topClass (waiterClasses s c) with
  | none => .next s
  | some k =>
    let cr := s.crew c
    let k := max k (cr.waiter.getD 0)
    let s := promoteSaved (s.setCrew c { cr with waiter := some k }) cr.ctx k
    .next ((teamKeys s c).foldl (fun s key =>
      match (s.teamAt key).sched.wait with
      | some (.queue n) =>
        match launchOf s (s.rq n).fed with
        | none => s
        | some e =>
          if (match e.promoted with | none => true | some p => decide (p.toNat < k)) then
            s.setLaunch (handleDie (s.rq n).fed) (handleEntry (s.rq n).fed) { e with promoted := some (BitVec.ofNat 2 k) }
          else s
      | _ => s) { s with progress := s.progress + 1 })

end Sys2Proof.Machine
end

