-- ==== Sys2Proof/Machine/Issue.lean ====
section
/-! DEFINITION. Clauses and prefixes: the checks at a clause's start, its fetch, IMX and GRD, which team may issue
(spec/02_clauses_and_encoding.md R50 to R58, R63, R72 to R76, R82 to R88; spec/04_team_sequencer.md R151, R152). -/

namespace Sys2Proof.Machine

/-! ### Prefixes (R72, R73, R76, R85, R86) -/

/-- The kind of prefix a word is: 1 IMX, 2 GRD, 0 none. -/
def prefKind (w : W32) : Nat := if w.extractLsb' 24 7 = 1 then 1 else if w.extractLsb' 24 7 = 2 then 2 else 0

/-- The word that a prefix in a slot modifies: the next, or the one after a prefix of the other kind; none where R72 makes the clause
illegal. -/
def Clause.target (c : Clause) (k : Nat) : Option W32 :=
  let w := c.word (k + 1)
  if 3 ≤ k then none
  else if prefKind w = 0 then some w
  else if k ≠ 1 || prefKind w = prefKind (c.word k) || prefKind (c.word 3) ≠ 0 then none
  else some (c.word 3)

/-- What stands against a prefix at a team's program counter: the program counter of the fault, the code, the word it names. `may` says
which words the prefix may precede. -/
def prefFault (t : Team) (may : Usage → Bool) : Option (W64 × Nat × W32) :=
  match t.clause with
  | none => some (pcClause t.pc, codeClause, 0)
  | some c =>
    match c.target (pcSlot t.pc) with
    | none => some (pcClause t.pc, codeClause, c.header)
    | some w =>
      match decodeParts (w.extractLsb' 24 7) (w.extractLsb' 0 24) with
      | none => some (t.faultPc, codeOp, w)
      | some i =>
        if subUnassigned i then some (t.faultPc, codeOp, w)
        else if may (usage i) then none else some (t.pc, codeOp, c.word (pcSlot t.pc))

/-- A team after a prefix: it is in force for the next word. -/
def Team.prefixed (t : Team) (f : Pfx → Pfx) : Team :=
  { t with pfx := { f t.pfx with pc := some (t.pfx.pc.getD t.pc) }, pc := t.pc + 4, note := .done }

/-- A prefix: its own fault, or it comes into force. -/
def prefWord (may : Usage → Bool) (f : Pfx → Pfx) (s : State) : State :=
  match prefFault s.team may with
  | some (pc, code, w) => s.enterHandler pc { code := code, val := w.setWidth 64 }
  | none => s.mapTeam fun t => t.prefixed f

/-- IMX (R73): IMM24 for the prefixed word. -/
def execImx (i : BitVec 24) (s : State) : Host.Outcome State Fault Refusal :=
  .next (prefWord takesImx (fun p => { p with imm := some i }) s)

/-- GRD (R75, R76): the prefixed word's guard. -/
def execGrd (n : BitVec 1) (p : BitVec 3) (s : State) : Host.Outcome State Fault Refusal :=
  .next (prefWord (fun u => u.guardable) (fun x => { x with grd := some (n = 1, p.toNat) }) s)

/-! ### Words that do not decode (R68, R82, R84) -/

/-- A word whose T field its chapter gives no meaning: a code there is a T code that the instruction does not accept (R84; DEDUCED,
log entry 61). -/
def bareT (w : W32) : Bool :=
  w.extractLsb' 21 3 ≠ 0 && [0x0B, 0x0D, 0x45, 0x46].contains (w.extractLsb' 24 7).toNat

/-- The encoding fault of a word under a team's prefixes (R85). -/
def wordFault (t : Team) (w : W32) : Option Nat :=
  match decode w with
  | .ok i => illegal (usage i) t false
  | .error .unassigned => some codeOp
  | .error (.reserved i) => if bareT w then some codeOp else illegal (usage i) t true

/-! ### Clauses (R50 to R56, R85, R88) -/

/-- The fault of a header (R52). -/
def clauseHeader (h : W32) : Option Nat :=
  let bad : Nat → Bool := fun n => 12 ≤ n && n ≤ 14
  if h.extractLsb' 0 8 ≠ 0x5C then some codeHdr
  else if bad (h.extractLsb' 16 4).toNat || bad (h.extractLsb' 12 4).toNat then some codeHdr
  else if h.extractLsb' 8 3 ≠ 0 then some codeRsv
  else none

/-- The clause-level conditions of ILL.CLAUSE (R84). -/
def Clause.bad (c : Clause) : Bool :=
  chainBit c.w3 || prefKind c.w3 ≠ 0 || (prefKind c.w1 ≠ 0 && prefKind c.w1 = prefKind c.w2) || 3 ≤ c.llBefore 4

/-- The fault of a clause at its start (R85). -/
def Clause.fault (c : Clause) : Option Nat :=
  match clauseHeader c.header with
  | some k => some k
  | none => if c.bad then some codeClause else none

/-- The 16 bytes of a clause as the home held them when a launch started, in the step `since` (R50, R89; log entry 40). -/
def codeBytes (s : State) (since pa : Nat) : List Byte :=
  match s.code.find? fun r => r.clause = pa / 16 && since ≤ r.tick with
  | some r => r.old
  | none => homeBytes s pa 16

/-- The clause at a physical address, for a launch that started in the step `since` (R50, R89). -/
def clauseAt (s : State) (since : Nat) (addr : W64) (pa : Nat) : Clause :=
  let bs := codeBytes s since pa
  let w : Nat → W32 := fun k => BitVec.ofNat 32 (leNat ((bs.drop (4 * k)).take 4))
  { addr := addr, header := w 0, w1 := w 1, w2 := w 2, w3 := w 3 }

/-- A team begins a fetched clause: at its start with slot 1, when it resumes at the slot its program counter names (R55, R152). -/
def Team.begin (t : Team) (c : Clause) (tick : Nat) : Team :=
  { t with
    clause := some c, pc := if pcSlot t.pc = 0 then t.pc + 4 else t.pc, pfx := {}, note := .done,
    sched := { t.sched with wait := none, since := tick, passed := 0 } }

/-- The team that issues begins a clause that is at hand: its checks, WAIT when it starts at slot 0 (R26, R52, R55); WAIT for the flag of
a deferred atomic ends the quantum (log entry 62). -/
def beginClause (s : State) (c : Clause) : State :=
  let t := s.team
  match c.fault with
  | some k => s.enterHandler c.addr { code := k, val := c.header.setWidth 64 }
  | none =>
    let wait := c.header.extractLsb' 20 12
    if pcSlot t.pc = 0 && wait &&& t.busy ≠ 0 then
      if deferredOn s t fun f => wait.getLsbD f then (s.mapTeam Team.endQuantum).blockOn .quantum else s.blockOn .flag
    else { s.mapTeam fun t => t.begin c s.tick with progress := s.progress + 1 }

/-- The team that issues fetches the clause its program counter names and begins it (R87, R88, R282). -/
def fetchClause (s : State) : State :=
  let t := s.team
  let a := pcClause t.pc
  if !pcOk a then s.enterHandler t.pc { code := codePc, val := a }
  else
    match lookup s t.coreK t.key t.id.ctx a .fetch t.sup with
    | .miss =>
      (askWalk s t.coreK { ctx := t.id.ctx, vpn := a.toNat / 65536, acc := 2, sup := t.sup, team := t.key }).blockOn .walk
    | .fault f =>
      let s := (dropWalks s t.coreK t.key).mapTeam fun t => writeFaddr t ((lanesOf t.id.width t.m).map fun l => (l, a, f))
      s.enterHandler a { code := f.code, detail := f.detail, val := a }
    | .hit l =>
      let pa := leafPa t.id.die l a.toNat
      if anyPoison s pa 16 then s.killCrew t.id.crew causeMce else beginClause s (clauseAt s (s.crew t.id.crew).since a pa)

/-! ### Which team may issue (R151, R152) -/

/-- A crew that is being saved lets a member finish the matrix word whose operation has issued (R386). -/
def latchHolds (s : State) (t : Team) : Bool :=
  (s.crew t.id.crew).mat.latch.any fun a =>
    a.team = t.id.tno && (match a.status with | .issued _ => true | .fault _ _ _ => true | _ => false)

/-- A team stands where it could issue: it has not ended, its crew runs, it stands at no quantum end and is not descheduled. In a crew that is
being saved the words that complete before capture go on: one whose matrix operation has issued, and RFREE (R191, R386). -/
def standsReady (s : State) (t : Team) : Bool :=
  let st := (s.crew t.id.crew).state
  t.id.alive && (st == .run || (st == .saving && (latchHolds s t || (t.arr 4).isSome))) && !t.dq.atEnd && t.eng.parked == []

/-- A team's last word is behind it: its requests have all entered (R252), and the atomic that the team acquires after has completed with every load
before its next word (R267, R307, R447). -/
def acqDone (s : State) (t : Team) : Bool :=
  !(s.ops.any fun o => o.team = t.key && entering s o) &&
  match t.eng.acq with
  | some e => (s.op e.1).isNone && !loadsBusy s t.key
  | none => true

/-- A team may issue: it stands where it could, its last word is behind it, and it is not known to be stalled. -/
def canIssue (s : State) (t : Team) : Bool := standsReady s t && acqDone s t && t.sched.wait.isNone

/-- A team may be tried: it may issue, or something has changed since it stalled. -/
def mayTry (s : State) (t : Team) : Bool :=
  standsReady s t && acqDone s t && (t.sched.wait.isNone || t.sched.blockedAt ≠ s.progress)

/-- The acquire of an atomic that has completed, before the team's next word (R307, R447). -/
def settleAcq (s : State) : State :=
  match s.team.eng.acq with
  | none => s
  | some e =>
    if (s.op e.1).isSome then s
    else (s.mapTeam fun t => { t with eng := { t.eng with acq := none } }).acquireTeam e.2

/-- The teams of a core that may issue, as key and effective class. -/
def readyTeams (s : State) (ck : Nat) : List (Nat × Nat) :=
  (s.aliveKeys.filter fun k => (s.teamAt k).coreK = ck && canIssue s (s.teamAt k)).map fun k => (k, effClass s (k / 16) (k % 16))

/-- Of two ready teams of one core, the first is chosen before the second (R152). -/
def goesBefore (s : State) (x y : Nat × Nat) : Bool :=
  let a := s.teamAt x.1
  let b := s.teamAt y.1
  let sx := 64 ≤ a.sched.passed
  let sy := 64 ≤ b.sched.passed
  if sx != sy then sx
  else if !sx && x.2 ≠ y.2 then y.2 < x.2
  else if a.sched.since ≠ b.sched.since then a.sched.since < b.sched.since
  else if a.id.slot ≠ b.id.slot then a.id.slot < b.id.slot
  else a.id.tno < b.id.tno

/-- The team of a core chosen next: one passed over 64 times goes before any other, so that a ready team starts a clause in bounded time (R154, R176). -/
def chooseTeam (s : State) (ck : Nat) : Option Nat :=
  ((readyTeams s ck).foldl (fun b x => match b with
    | none => some x
    | some y => if goesBefore s x y then some x else some y) none).map Prod.fst

/-- The ready teams of a core that a clause start of team `key` passes over (R152). -/
def passOver (s : State) (key : Nat) : State :=
  let ready := readyTeams s (s.teamAt key).coreK
  let mine := ((ready.find? fun e => e.1 = key).map Prod.snd).getD 0
  ready.foldl (fun s e =>
    if e.1 = key then s
    else s.updTeam e.1 fun t => { t with sched := { t.sched with passed := if e.2 < mine then t.sched.passed + 1 else 0 } }) s

/-- Team `key` starts the clause its program counter names, as the team that issues. -/
def startClause (s : State) (key : Nat) : State := fetchClause (settleAcq (s.checkOut key))

/-- CLAUSE_START (R151): the site's team, when it may be tried, starts the clause its program counter names, or goes on with the one
that is open. The ready teams that it passes over count only a clause that starts (R152). -/
def execClauseStart (s : State) : Host.Outcome State Fault Refusal :=
  let key := teamKey s.site.crew s.site.team
  let t := s.teamAt key
  if t.key ≠ key || !mayTry s t then .next s
  else if t.clause.isSome then .next ((s.checkOut key).mapTeam fun t => { t with sched := { t.sched with wait := none } })
  else if (startClause s key).team.clause.isSome then .next (startClause (passOver s key) key)
  else .next (startClause s key)

end Sys2Proof.Machine
end

