-- ==== Sys2Proof/Machine/Digest.lean ====
section
/-! DEFINITION. The digest and the signatures that the firmware is checked by (spec/12_fabric_engine.md R481, R482). The spec names SHA-256 and
the HSS parameters LMS_SHA256_M32_H10 with LMOTS_SHA256_N32_W4 and does not write them out: PRESUMED as FIPS 180-4 and RFC 8554 give them (log
entry 96). -/

namespace Sys2Proof.Machine

/-! ### SHA-256 -/

/-- The greatest number whose `k`-th power is at most `n`, below 2^36. -/
def rootFloor (k n : Nat) : Nat :=
  (List.range 36).foldl (fun r i => if (r + 2 ^ (35 - i)) ^ k ≤ n then r + 2 ^ (35 - i) else r) 0

/-- The primes below `n`, ascending. -/
def primesBelow (n : Nat) : List Nat := (List.range n).filter fun p => 2 ≤ p && (List.range p).all fun q => q < 2 || p % q ≠ 0

/-- The first 32 bits of the fraction of a number's `k`-th root: what every constant of SHA-256 is made of. -/
def rootFraction (k p : Nat) : W32 := BitVec.ofNat 32 (rootFloor k (p * 2 ^ (32 * k)))

/-- The round constants of SHA-256: the cube roots of the first sixty-four primes. -/
def shaK : List W32 := (primesBelow 312).map (rootFraction 3)

/-- The eight working words of SHA-256. -/
structure ShaWords where
  a : W32
  b : W32
  c : W32
  d : W32
  e : W32
  f : W32
  g : W32
  h : W32
  deriving DecidableEq, Repr

/-- The words that a digest starts from: the square roots of the first eight primes. -/
def shaStart : ShaWords :=
  let r := rootFraction 2
  { a := r 2, b := r 3, c := r 5, d := r 7, e := r 11, f := r 13, g := r 17, h := r 19 }

/-- One round, with its schedule word and constant. -/
def shaRound (x : ShaWords) (wk : W32 × W32) : ShaWords :=
  let s1 := x.e.rotateRight 6 ^^^ x.e.rotateRight 11 ^^^ x.e.rotateRight 25
  let t1 := x.h + s1 + ((x.e &&& x.f) ^^^ (~~~x.e &&& x.g)) + wk.2 + wk.1
  let s0 := x.a.rotateRight 2 ^^^ x.a.rotateRight 13 ^^^ x.a.rotateRight 22
  { a := t1 + (s0 + ((x.a &&& x.b) ^^^ (x.a &&& x.c) ^^^ (x.b &&& x.c))), b := x.a, c := x.b, d := x.c, e := x.d + t1, f := x.e, g := x.f, h := x.g }

/-- `n` more words of a message schedule, whose last sixteen words, newest first, head the list. -/
def shaExpand : Nat → List W32 → List W32
  | 0, l => l.reverse
  | n + 1, l =>
    let p := l.getD 1 0
    let q := l.getD 14 0
    let s1 := p.rotateRight 17 ^^^ p.rotateRight 19 ^^^ (p >>> 10)
    let s0 := q.rotateRight 7 ^^^ q.rotateRight 18 ^^^ (q >>> 3)
    shaExpand n ((s1 + l.getD 6 0 + s0 + l.getD 15 0) :: l)

/-- A number from bytes, most significant first. -/
def beNat (l : List Byte) : Nat := l.foldl (fun n b => n * 256 + b.toNat) 0

/-- The `n` bytes of a number, most significant first. -/
def beBytes (v n : Nat) : List Byte := (leBytes v n).reverse

/-- The working words after a 64-byte block. -/
def shaBlock (x : ShaWords) (bs : List Byte) : ShaWords :=
  let w := shaExpand 48 ((List.range 16).map fun k => BitVec.ofNat 32 (beNat ((bs.drop (4 * k)).take 4))).reverse
  let y := (w.zip shaK).foldl shaRound x
  { a := x.a + y.a, b := x.b + y.b, c := x.c + y.c, d := x.d + y.d, e := x.e + y.e, f := x.f + y.f, g := x.g + y.g, h := x.h + y.h }

/-- A message padded to whole blocks: a one bit, zeros, the length in bits. -/
def shaPad (m : List Byte) : List Byte :=
  m ++ 0x80 :: (List.replicate ((119 - m.length % 64) % 64) 0 ++ beBytes (8 * m.length) 8)

/-- SHA-256 of a byte string. -/
def sha256 (m : List Byte) : List Byte :=
  let p := shaPad m
  let x := (List.range (p.length / 64)).foldl (fun x k => shaBlock x ((p.drop (64 * k)).take 64)) shaStart
  [x.a, x.b, x.c, x.d, x.e, x.f, x.g, x.h].flatMap fun w => beBytes w.toNat 4

/-! ### LM-OTS, LMS and HSS: verification -/

/-- The bytes from one place on. -/
def slice (l : List Byte) (at' n : Nat) : List Byte := (l.drop at').take n

/-- The Winternitz digits of width 4 of a byte string. -/
def nibbles (l : List Byte) : List Nat := l.flatMap fun b => [b.toNat / 16, b.toNat % 16]

/-- `n` steps of a chain of LMOTS_SHA256_N32_W4 from step `j` on. -/
def otsChain (head : List Byte) : Nat → Nat → List Byte → List Byte
  | 0, _, t => t
  | n + 1, j, t => otsChain head n (j + 1) (sha256 (head ++ BitVec.ofNat 8 j :: t))

/-- The digits that a message's signature walks the chains by: those of its digest, then those of their checksum. -/
def otsDigits (pre rand msg : List Byte) : List Nat :=
  let dig := sha256 (pre ++ [0x81, 0x81] ++ rand ++ msg)
  nibbles (dig ++ beBytes (((nibbles dig).map fun a => 15 - a).foldl (· + ·) 0 * 16) 2)

/-- The public key that a signature of LMOTS_SHA256_N32_W4 gives for a message; none for a signature of another shape. -/
def otsKey (ident : List Byte) (q : Nat) (msg sig : List Byte) : Option (List Byte) :=
  if sig.length ≠ 2180 || beNat (slice sig 0 4) ≠ 3 then none
  else
    let pre := ident ++ beBytes q 4
    let digits := otsDigits pre (slice sig 4 32) msg
    let z := (List.range 67).flatMap fun i =>
      let a := digits.getD i 0
      otsChain (pre ++ beBytes i 2) (15 - a) a (slice sig (36 + 32 * i) 32)
    some (sha256 (pre ++ [0x80, 0x80] ++ z))

/-- The node above a node, in a Merkle tree of LMS. -/
def lmsUp (ident : List Byte) (node : Nat) (t sib : List Byte) : List Byte :=
  sha256 (ident ++ beBytes (node / 2) 4 ++ [0x83, 0x83] ++ (if node % 2 = 1 then sib ++ t else t ++ sib))

/-- The root over a path. -/
def lmsRoot (ident : List Byte) : List (List Byte) → Nat → List Byte → List Byte
  | [], _, t => t
  | p :: r, node, t => lmsRoot ident r (node / 2) (lmsUp ident node t p)

/-- A signature of LMS_SHA256_M32_H10 verifies against a 56-byte public key. -/
def lmsVerify (key msg sig : List Byte) : Bool :=
  let ident := slice key 8 16
  let q := beNat (slice sig 0 4)
  key.length == 56 && sig.length == 2508 && beNat (slice key 0 4) == 6 && beNat (slice key 4 4) == 3 && beNat (slice sig 2184 4) == 6 &&
  decide (q < 1024) &&
  match otsKey ident q msg (slice sig 4 2180) with
  | none => false
  | some k =>
    let path := (List.range 10).map fun i => slice sig (2188 + 32 * i) 32
    lmsRoot ident path (1024 + q) (sha256 (ident ++ beBytes (1024 + q) 4 ++ [0x82, 0x82] ++ k)) == slice key 24 32

/-- An HSS signature of two levels verifies against a 60-byte root public key (R481). -/
def hssVerify (key msg sig : List Byte) : Bool :=
  let next := slice sig 2512 56
  key.length == 60 && sig.length == 5076 && beNat (slice key 0 4) == 2 && beNat (slice sig 0 4) == 1 &&
  lmsVerify (key.drop 4) next (slice sig 4 2508) && lmsVerify next msg (slice sig 2568 2508)

/-! ### Signing with the identity key (R482) -/

/-- The identifier's bytes. -/
def LmsKey.name (k : LmsKey) : List Byte := beBytes k.ident.toNat 16

/-- A secret of a tree: number `i` of leaf `q`, derived from the seed. -/
def LmsKey.secret (k : LmsKey) (q i : Nat) : List Byte := sha256 (k.name ++ beBytes q 4 ++ beBytes i 2 ++ 0xFF :: beBytes k.seed.toNat 32)

/-- The head of every string hashed for leaf `q`. -/
def LmsKey.leafHead (k : LmsKey) (q : Nat) : List Byte := k.name ++ beBytes q 4

/-- The one-time public key of leaf `q`. -/
def otsPublic (k : LmsKey) (q : Nat) : List Byte :=
  sha256 (k.leafHead q ++ [0x80, 0x80] ++
    (List.range 67).flatMap fun i => otsChain (k.leafHead q ++ beBytes i 2) 15 0 (k.secret q i))

/-- A node `h` levels above the leaves of a tree. -/
def lmsNode (k : LmsKey) : Nat → Nat → List Byte
  | 0, node => sha256 (k.name ++ beBytes node 4 ++ [0x82, 0x82] ++ otsPublic k (node - 1024))
  | h + 1, node => sha256 (k.name ++ beBytes node 4 ++ [0x83, 0x83] ++ (lmsNode k h (2 * node) ++ lmsNode k h (2 * node + 1)))

/-- The public key of a tree. -/
def lmsPublic (k : LmsKey) : List Byte := beBytes 6 4 ++ beBytes 3 4 ++ k.name ++ lmsNode k 10 1

/-- The one-time signature of leaf `q` for a message. -/
def otsSign (k : LmsKey) (q : Nat) (msg : List Byte) : List Byte :=
  let rand := k.secret q 0xFFFD
  let digits := otsDigits (k.leafHead q) rand msg
  beBytes 3 4 ++ rand ++
    (List.range 67).flatMap fun i => otsChain (k.leafHead q ++ beBytes i 2) (digits.getD i 0) 0 (k.secret q i)

/-- The signature of a tree's leaf `q` for a message: the leaf, its one-time signature, the siblings on the way to the root. -/
def lmsSign (k : LmsKey) (q : Nat) (msg : List Byte) : List Byte :=
  beBytes q 4 ++ otsSign k q msg ++ beBytes 6 4 ++
    (List.range 10).flatMap fun i =>
      let node := (1024 + q) / 2 ^ i
      lmsNode k i (if node % 2 = 0 then node + 1 else node - 1)

/-- The lower tree under leaf `q` of the upper one. -/
def LmsKey.below (k : LmsKey) (q : Nat) : LmsKey :=
  { ident := BitVec.ofNat 128 (beNat ((k.secret q 0xFFFF).take 16)), seed := BitVec.ofNat 256 (beNat (k.secret q 0xFFFE)) }

/-- The HSS signature of a message at a leaf from 0 to 2^20 - 1: the upper tree signs the lower one's key, the lower tree the message (R482). -/
def hssSign (k : LmsKey) (leaf : Nat) (msg : List Byte) : List Byte :=
  let low := k.below (leaf / 1024)
  beBytes 1 4 ++ lmsSign k (leaf / 1024) (lmsPublic low) ++ lmsPublic low ++ lmsSign low (leaf % 1024) msg

end Sys2Proof.Machine
end

