-- ==== Sys2Proof/Machine/System.lean ====
section
/-! DEFINITION. What system software and the host do to the part: control registers, submissions, resets and power, sparing, soft
errors, attestation; and the grant of leave (spec/01_engines_and_ties.md R36, R40 to R47; spec/12_fabric_engine.md R439, R463, R476 to
R485, R512; spec/05_launch_engine.md R163, R199, R207; spec/13_compositing_engine.md R486). -/

namespace Sys2Proof.Machine

/-! ### Current leave (R36) -/

/-- An operation with the leave that it asked for. -/
def OpKind.withLeave : OpKind → OpKind
  | .fill f => .fill { f with leave := .held }
  | .drain d => .drain { d with leave := .held }
  | .load a b c d e f g h i => .load a b c d e f g h i
  | .store a b => .store a b
  | .mload l => .mload l
  | .mst m => .mst m
  | .mtrq q => .mtrq q
  | .atomic a => .atomic a
  | .ramo r => .ramo r
  | .rsvs r => .rsvs r
  | .tile t => .tile t
  | .word w => .word w

/-- The requester on a die has its leave. -/
def giveLeave (s : State) (d : Nat) : LeaveWho → State
  | .word k => s.updTeam k fun t => { t with eng := { t.eng with leave := .held } }
  | .op id => s.updOp id fun o => { o with kind := o.kind.withLeave }
  | .array c id => arrayGranted s c id
  | .rays c id =>
    let cr := s.crew c
    s.setCrew c { cr with batches := cr.batches.map fun b => if b.id = id then { b with leave := .held } else b }
  | .burst k => mapRun s d k fun r => { r with leave := .held }

/-- The class of a request as it stands: its team's effective class, lent classes with it, the highest one of a gang's members; a burst's is its
plan's (R36, R153, R358, R502). -/
def LeaveReq.now (s : State) (r : LeaveReq) : LeaveReq :=
  match r.who with
  | .word k => { r with cls := effClass s (k / 16) (k % 16) }
  | .op id => match s.op id with | some o => { r with cls := effClass s (o.team / 16) (o.team % 16) } | none => r
  | .array c id => match (s.crew c).mat.ops.find? fun o => o.id = id with | some o => { r with cls := matClass s c o } | none => r
  | .rays c id => match (s.crew c).batches.find? fun b => b.id = id with | some b => { r with cls := effClass s c b.team } | none => r
  | .burst _ => r

/-- A die's arbiter with each request at the class that its requester has now. -/
def State.arbNow (s : State) (d : Nat) : Arbiter := { s.arb d with waiting := (s.arb d).waiting.map (LeaveReq.now s) }

/-- LEAVE_GRANT (R36, R358): the arbiter of the site's die grants the next request that fits. -/
def execLeaveGrant (s : State) : Host.Outcome State Fault Refusal :=
  let d := s.site.die
  match nextGrant (s.arbNow d) (s.now d) with
  | none => .next s
  | some r => .next { giveLeave (s.setArb d (grantReq (s.arbNow d) (s.now d) r)) d r.who with progress := s.progress + 1 }

/-! ### Registers (R9, R40, R163, R199, R207, R439, R463) -/

/-- Replace a die's plain registers. -/
def State.mapRegs (s : State) (d : Nat) (f : DieRegs → DieRegs) : State :=
  let v := s.die d
  s.setDie d { v with regs := f v.regs }

/-- A value no lower than one bound and no higher than another. -/
def clamp (lo hi x : Nat) : Nat := if x < lo then lo else if hi < x then hi else x

/-- The arbiter's register 0x100 (R40). -/
def Arbiter.write (a : Arbiter) (v : W32) : Arbiter :=
  { a with pool := clamp 40 825 (v.extractLsb' 21 11).toNat, ramp := max 1 (v.extractLsb' 13 8).toNat }

/-- The four registers of a ring, by offset from its first (R463). -/
def RingRegs.write (r : RingRegs) (off : Nat) (v : W64) : RingRegs :=
  if off = 0 then { r with base := v }
  else if off = 8 then { r with log := if 6 ≤ v.toNat % 32 && v.toNat % 32 ≤ 20 then BitVec.ofNat 32 (v.toNat % 32) else 6 }
  else if off = 0xC then { r with head := v.setWidth 32 }
  else r

/-- The fabric registers, by offset (R439). -/
def FabRegs.write (r : FabRegs) (off : Nat) (v : W64) : FabRegs :=
  if off = 0x400 then { r with agelim := BitVec.ofNat 32 (clamp 256 65536 (v.toNat % 2 ^ 17)) }
  else if off = 0x404 then { r with rtimeout := BitVec.ofNat 32 (max 0x10000 (v.toNat % 2 ^ 32)) }
  else if off = 0x408 then { r with devno := BitVec.ofNat 32 (v.toNat % 2 ^ 17) }
  else if 0x410 ≤ off && off < 0x490 && off % 8 = 0 then
    { r with jobs := smSet 0 r.jobs ((off - 0x410) / 8) (v &&& 0x8000FFFF0000FFFF) }
  else r

/-- A share of R207 in die 0's control block: the class and, by the offset, its ways or its bandwidth. -/
def DieRegs.writeShare (r : DieRegs) (off : Nat) (v : W64) : DieRegs :=
  let c := (off - 0x200) / 8
  if off % 8 = 0 then { r with ways := smSet 4 r.ways c (BitVec.ofNat 32 (min 16 (v.toNat % 32))) }
  else if off % 8 = 4 then { r with bw := smSet 16 r.bw c (BitVec.ofNat 32 (min 64 (v.toNat % 128))) }
  else r

/-- A row of a slot table after a write of one of its registers (R163). While the slot is not EMPTY, IDEM is the crew's. -/
def SlotRow.write (r : SlotRow) (off : Nat) (v : W64) : SlotRow :=
  if off = 0 then { r with valid := v.getLsbD 31, ceil := v.extractLsb' 26 2, qos := v.extractLsb' 24 2, idem := v.getLsbD 23 }
  else if off = 4 then { r with lhandle := v.setWidth 32 }
  else if off = 8 then { r with crewno := v.setWidth 32 }
  else if off = 0xC then { r with rfbase := (v.extractLsb' 16 9).toNat, rflen := (v.extractLsb' 0 10).toNat }
  else if off = 0x10 then { r with spbase := (v.extractLsb' 16 11).toNat, splen := (v.extractLsb' 0 12).toNat }
  else if off = 0x18 then { r with area := v }
  else r

/-- A write in a core's slot table: a row, the bind that VALID = 1 asks for, or the command register (R163, R164). -/
def writeSlots (s : State) (d core off : Nat) (v : W64) : State :=
  if off = 0x200 then writeSlotCmd s d core (v.setWidth 32)
  else if 0x200 ≤ off || !slotThere core (off / 32) then s
  else
    let ck := coreKey d core
    let slot := off / 32
    let r := s.row ck slot
    let s := s.setRow ck slot (r.write (off % 32) v)
    let s := if off % 32 = 0 && r.state ≠ 0 then s.setCrew r.crew { s.crew r.crew with idem := v.getLsbD 23 } else s
    if off % 32 = 0 && v.getLsbD 31 then bindSlot s d core slot else s

/-- A write in a die's control block (R40, R163, R199, R207, R439, R463). The registers whose write is a step of its own (0x300, 0x308,
0x310, 0x800 on, 0x1000 on, 0x1800) are written by that step. -/
def writeDie (s : State) (d off : Nat) (v : W64) : State :=
  if off = 0x100 then s.setArb d ((s.arb d).write (v.setWidth 32))
  else if off = 0x180 then s.mapRegs d fun r => { r with waitlim := BitVec.ofNat 32 (max 1024 (v.toNat % 2 ^ 32)) }
  else if 0x200 ≤ off && off < 0x220 then (if d = 0 then s.mapRegs 0 fun r => r.writeShare off v else s)
  else if 0x400 ≤ off && off < 0x490 then s.mapRegs d fun r => { r with fab := r.fab.write off v }
  else if 0x500 ≤ off && off < 0x510 then s.setIfl d ((s.die d).regs.ifl.write (off - 0x500) v)
  else if 0x520 ≤ off && off < 0x530 then s.setRas d ((s.die d).regs.ras.write (off - 0x520) v)
  else if 0x10000 ≤ off && off < 0x1C000 then writeSlots s d ((off - 0x10000) / 0x400) ((off - 0x10000) % 0x400) v
  else s

/-- A write in BAR0 of a function (R479), or in the physical function's of an allowance (R512). SQTAIL and CQHEAD are written by their
own steps. -/
def writeBar (s : State) (f off : Nat) (v : W64) : State :=
  let x := s.fn f
  if off = 0 then s.setFn f { x with sqbase := v }
  else if off = 8 then
    let log := (v.extractLsb' 4 4).toNat
    s.setFn f { x with sqctl := BitVec.ofNat 32 ((if 4 ≤ log && log ≤ 12 then log else 4) * 16 + v.toNat % 8) }
  else if off = 0x18 then s.setFn f { x with cqbase := v }
  else if f = 0 && 0x1000 ≤ off && off ≤ 0x1080 && off % 8 = 0 then
    let g := (off - 0x1000) / 8
    s.setFn g { s.fn g with allow := BitVec.ofNat 32 (v.toNat % 64) }
  else s

/-- Device Control 2 of a function (R478): AtomicOp Requester Enable is bit 6 (PRESUMED: as PCI Express lays the register out; log entry 95). -/
def writeDevCtl2 (s : State) (f : Nat) (v : W64) : State := s.setFn f { s.fn f with atomics := v.getLsbD 6 }

/-- REGISTER_WRITE (R9): system software writes the register at an offset of the control block of the site's die, or for site number
1 + f of BAR0 of function f, or for 32 + f Device Control 2 of function f; read-only fields keep their values. In recovery the physical
function offers only a flash update (R481). -/
def execRegisterWrite (off : BitVec 32) (value : W64) (s : State) : Host.Outcome State Fault Refusal :=
  .next (if s.site.n = 0 then writeDie s s.site.die off.toNat value
    else if s.board.recovery then s
    else if 32 ≤ s.site.n then (if s.site.n ≤ 48 then writeDevCtl2 s (s.site.n - 32) value else s)
    else if 17 < s.site.n then s
    else writeBar s (s.site.n - 1) off.toNat value)

/-! ### Host submissions (R479, R480) -/

/-- The context that a function's submission ring is read in: the lowest-numbered that the function owns. -/
def ringContext (s : State) (f : Nat) : Option Nat := (s.contexts.find? fun e => e.2.func = f).map Prod.fst

/-- Read, check and answer the next record of a function's ring. -/
def submitNext (s : State) (f : Nat) : State :=
  let x := s.fn f
  let va := x.sqbase + BitVec.ofNat 64 (64 * (x.sqhead.toNat % 2 ^ x.log))
  let s := s.setFn f { x with sqhead := x.sqhead + 1 }
  match ringContext s f with
  | none => hostPut s f (hostEntry 3 0 0 0 0)
  | some c =>
    let r := launchFrom s (x.sqctl.toNat % 8) c (x.allow.extractLsb' 4 2).toNat va false (some f)
    hostPut r.1 f (hostEntry r.2.1 0 r.2.2 0 0)

/-- Read a function's ring while it holds records and the completion ring has room. -/
def readRing (f : Nat) : Nat → State → State
  | 0, s => s
  | n + 1, s =>
    let x := s.fn f
    if x.sqhead = x.sqtail || !x.room || x.pend ≠ [] then s else readRing f n (submitNext s f)

/-- The launch engine takes what a function has submitted: not in recovery (R481), and in D0 only (R483). -/
def takeRing (s : State) (f : Nat) : State :=
  if s.board.recovery || s.board.power ≠ 0 then s else settleLaunches allLaunches (readRing f 4096 s)

/-- HOST_SUBMIT (R479): the host writes SQTAIL of the site's function; not in recovery (R481). -/
def execHostSubmit (tail : W32) (s : State) : Host.Outcome State Fault Refusal :=
  let f := s.site.n
  .next (if s.board.recovery then s else takeRing (s.setFn f { s.fn f with sqtail := tail }) f)

/-- CQHEAD_WRITE (R480): the host writes CQHEAD of the site's function; completions that wait are written, and reading resumes; not
in recovery (R481). -/
def execCqheadWrite (head : W32) (s : State) : Host.Outcome State Fault Refusal :=
  let f := s.site.n
  .next (if s.board.recovery then s else takeRing (hostDrain (s.setFn f { s.fn f with cqhead := head }) f) f)

/-- INBOUND_ATOMICOP (R477): it is completed with Unsupported Request. -/
def execInboundAtomicop (s : State) : Host.Outcome State Fault Refusal := .next (s.emit (.unsupported s.site.n))

/-! ### Firmware, power and reset (R47, R481 to R484) -/

/-- What an image's signature signs and its digest is of: the version and the code (DESIGN CHOICE, log entry 97). -/
def signedBytes (i : Firmware) : List Byte := leBytes i.version.toNat 4 ++ i.code

/-- The boot ROM accepts an image: its version is not below the rollback counter, its signature verifies against its root key, and that key's
digest is the fused one (R481). -/
def Board.accepts (b : Board) (i : Firmware) : Bool :=
  decide (b.rollback.toNat ≤ i.version.toNat) && i.key.length == 60 && beNat (sha256 i.key) == b.fused.toNat && hssVerify i.key (signedBytes i) i.sig

/-- The boot ROM's verdict on the image in the flash (R481). -/
def Board.boot (b : Board) : Board :=
  if b.accepts b.flash then { b with power := 0, recovery := false, running := b.flash }
  else { b with power := 0, recovery := true, running := {} }

/-- The four tables that the firmware loads into a context-save codec at boot (R196; log entry 98). -/
def bootTables : List (List Byte) := (List.range 4).map fun t => (List.range 384).map (Config.saveTable t)

/-- Started firmware loads every die's tables. -/
def withFirmware (s : State) : State :=
  if s.board.recovery then s
  else (List.range 8).foldl (fun s d => s.setDie d { s.die d with saveTabs := bootTables }) s

/-- The machine with every die reset. What outlasts it: host memory, the module flash and the fuses, the fabric outside, what the
schedule still holds. What a reset does to device memory the spec does not say: it reads as after power-on (log entry 1). -/
def State.cleared (s : State) : State :=
  { State.reset with
    mem := s.mem.filter fun e => isHost e.1, poison := s.poison.filter fun e => isHost e.1, unreach := s.unreach,
    board := s.board, agenda := s.agenda, out := s.out, nextOp := s.nextOp, fresh := s.fresh, progress := s.progress + 1, tick := s.tick }

/-- Every die is reset and boots (R484). -/
def State.reboot (s : State) : State := withFirmware { s.cleared with board := s.board.boot }

/-- POWER_ON_RESET (R484). -/
def execPowerOnReset (s : State) : Host.Outcome State Fault Refusal := .next s.reboot

/-- HOT_RESET (R484). -/
def execHotReset (s : State) : Host.Outcome State Fault Refusal := .next s.reboot

/-- FLR_PHYSICAL_FUNCTION (R484): as a hot reset. -/
def execFlrPhysicalFunction (s : State) : Host.Outcome State Fault Refusal := .next s.reboot

/-- A launch of the package is not complete. -/
def anyLaunch (s : State) : Bool := s.dies.any fun d => d.2.launches.any fun e => e.2.state != .free

/-- D3HOT_ENTRY (R483): the transition waits until every launch has completed. -/
def execD3hotEntry (s : State) : Host.Outcome State Fault Refusal :=
  .next (if s.board.power = 0 && !anyLaunch s then { s with board := { s.board with power := 1 }, progress := s.progress + 1 } else s)

/-- D3HOT_EXIT (R483): the host returns the device to D0. -/
def execD3hotExit (s : State) : Host.Outcome State Fault Refusal :=
  .next (if s.board.power = 1 then { s with board := { s.board with power := 0 }, progress := s.progress + 1 } else s)

/-- D3COLD_ENTRY (R483): every state is lost except the module flash. -/
def execD3coldEntry (s : State) : Host.Outcome State Fault Refusal :=
  .next { s.cleared with board := { s.board with power := 2, recovery := false, running := {} } }

/-- FLASH_UPDATE (R481): in recovery, a new image, which the boot ROM then judges. -/
def execFlashUpdate (version : W32) (signed : SignedCode) (s : State) : Host.Outcome State Fault Refusal :=
  .next (if s.board.recovery then
      withFirmware { s with board := { s.board with flash := { toSignedCode := signed, version := version } }.boot, progress := s.progress + 1 }
    else s)

/-- ATTESTATION_REQUEST (R482): the leaf is advanced, then the nonce and the running image's SHA-256 digest are signed with the identity key;
after 2^20 signatures the device refuses. In recovery it offers no attestation. -/
def execAttestationRequest (nonce : W64) (s : State) : Host.Outcome State Fault Refusal :=
  let b := s.board
  .next (if b.recovery || b.power ≠ 0 then s
    else if 2 ^ 20 ≤ b.leaf then s.emit .refuseAttest
    else
      let digest := sha256 (signedBytes b.running)
      { s with board := { b with leaf := b.leaf + 1 } }.emit
        (.attest nonce digest b.leaf (hssSign b.identity b.leaf (leBytes nonce.toNat 8 ++ digest))))

/-- CLOCK_CHANGE (R47): the clock of the site's die. -/
def execClockChange (lowered : Bool) (s : State) : Host.Outcome State Fault Refusal :=
  .next (s.setDie s.site.die { s.die s.site.die with slow := lowered })

/-! ### A virtual function's reset (R484) and a context's teardown (R486) -/

/-- A crew is discarded without Save: what it has not sent away goes, what has departed completes unreported, its reservations are returned, one
that is on its way once its grant comes (strayGrant); its slots are EMPTY. -/
def discardCrew (s : State) (c : Nat) : State :=
  let s := dropFills (leavesBack (freeArray s c) c) c
  let s := (teamKeys s c).foldl (fun s k => returnAll (dropWalks s (s.teamAt k).coreK k) k) s
  let mine : SpItem → Bool := fun i => i.team / 16 = c
  let s := (List.range 8).foldl (fun s d =>
    let x := s.spin d
    s.setSpin d { x with bufs := (x.bufs.map fun b => if b.departing then b else { b with items := b.items.filter fun i => !mine i }).filter fun b => b.items != [] }) s
  let s := emptySlots { s with ops := s.ops.filter fun o => o.crew ≠ c } c
  let s := { s with others := s.others.filter fun e => e.1 / 16 ≠ c, team := if s.team.id.crew = c then {} else s.team }
  unfuse (s.setCrew c {}) (s.crew c)

/-- FLR_VIRTUAL_FUNCTION (R484): the launches of the contexts of the site's function end, their crews are discarded, their record
queues are freed; the function's own registers start again (log entry 70), and a RAS entry is written. -/
def execFlrVirtualFunction (s : State) : Host.Outcome State Fault Refusal :=
  let f := s.site.n
  if f = 0 || 16 < f then .next s
  else
    let own : Nat → Bool := fun c => (s.contexts.any fun e => e.1 = c) && (s.context c).func = f
    let s := s.crews.foldl (fun s e => if own e.2.ctx then discardCrew s e.1 else s) s
    let dropL : Nat × LaunchEntry → Nat × LaunchEntry := fun e => (e.1, if own e.2.ctx then { gen := e.2.gen } else e.2)
    let dropQ : Nat × RecordQueue → Nat × RecordQueue := fun e => (e.1, if own e.2.ctx then { epoch := e.2.epoch + 1 } else e.2)
    let dropD : Nat × Die → Nat × Die := fun d => (d.1, { d.2 with launches := d.2.launches.map dropL })
    let s := { s with dies := s.dies.map dropD, queues := s.queues.map dropQ }
    let s := s.setFn f { allow := (s.fn f).allow }
    .next (rasLog s 0 8 0 0 f)

/-- CONTEXT_TEARDOWN (R486): runs of the plans of the site's context are cancelled, and its plans freed, each once its run's end is done (R503). -/
def execContextTeardown (s : State) : Host.Outcome State Fault Refusal :=
  .next ((List.range 8).foldl (fun s d => (s.die d).comp.plans.foldl (fun s e =>
    if e.2.used && e.2.ctx = s.site.n then
      let s := endRun s d e.1 4 0
      let p := s.plan d e.1
      s.setPlan d e.1 (if p.run.ending.isSome then { p with torn := true } else { gen := p.gen })
    else s) s) s)

/-! ### Sparing (R41 to R44, R476) -/

/-- The position of a logical core; none for a core that is gone (R15, R41). -/
def corePosition (v : Die) (k : Nat) : Option Nat := ((v.coreMap.find? fun e => e.1 = k).map Prod.snd).getD (some k)

/-- A spare position of a die that is neither used nor retired (R41). -/
def sparePosition (v : Die) : Option Nat := [40, 41].find? fun p => !v.retired.contains p && !(v.coreMap.any fun e => e.2 = some p)

/-- CORE_RETIRE (R41): every crew bound to the site's core is saved; once none is, the core map names a spare position, or none. -/
def execCoreRetire (s : State) : Host.Outcome State Fault Refusal :=
  let d := s.site.die
  let k := s.site.core
  let ck := coreKey d k
  let held := (s.core ck).slots.filter fun e => e.2.state ≠ 0
  if 40 ≤ k then .next s
  else if held ≠ [] then .next (held.foldl (fun s e => slotCommand s d k e.1 1) s)
  else
    match corePosition (s.die d) k with
    | none => .next s
    | some p =>
      let v := { s.die d with retired := (s.die d).retired ++ [p] }
      let s := s.setDie d { v with coreMap := v.coreMap.filter (fun e => e.1 ≠ k) ++ [(k, sparePosition v)] }
      let s := s.setCore ck { slots := (s.core ck).slots }
      .next (reportFixed s d 1 k p)

/-- CHANNEL_RETIRE (R42): the spare channel of the site's stack takes the site's channel, once copied; memory stays as it is. -/
def execChannelRetire (s : State) : Host.Outcome State Fault Refusal :=
  let st := s.site.q
  if 12 ≤ st || 32 ≤ s.site.n || s.sparing.channels.any (fun e => e.1 = st) then .next s
  else
    let s := { s with sparing := { s.sparing with channels := s.sparing.channels ++ [(st, s.site.n, false)] } }
    .next (reportFixed s (st / 3 * 2) 2 st s.site.n)

/-- CHANNEL_COPY_COMPLETE (R42): the addresses go to the spare channel. -/
def execChannelCopyComplete (s : State) : Host.Outcome State Fault Refusal :=
  .next { s with sparing := { s.sparing with
    channels := s.sparing.channels.map fun e => if e.1 = s.site.q then (e.1, e.2.1, true) else e }, progress := s.progress + 1 }

/-- A port is left out of the spray (R43, R476). -/
def Sparing.without (x : Sparing) (port : Nat) : Sparing := { x with ports := if x.ports.contains port then x.ports else x.ports ++ [port] }

/-- LANE_RETIRE (R43): the site's port retrains with its spare lane in place of the site's lane. -/
def execLaneRetire (s : State) : Host.Outcome State Fault Refusal :=
  let p := s.site.q
  if 12 ≤ p then .next s
  else
    let x := s.sparing.without p
    .next (reportFixed { s with sparing := { x with lanes := smSet 0 x.lanes p (smGet 0 x.lanes p + 1) } } (p / 3 * 2) 3 p s.site.n)

/-- WAY_RETIRE (R44): the spare way of the site's LLC set takes a way's place; a set without a spare runs with one way less. -/
def execWayRetire (s : State) : Host.Outcome State Fault Refusal :=
  let x := s.sparing
  .next (reportFixed { s with sparing := { x with ways := smSet 0 x.ways s.site.n (smGet 0 x.ways s.site.n + 1) } } s.site.die 4 0 s.site.n)

/-- FABRIC_PORT_FAILURE (R476): the site's port is left out of the spray. -/
def execFabricPortFailure (s : State) : Host.Outcome State Fault Refusal :=
  .next (if 12 ≤ s.site.q then s else { s with sparing := s.sparing.without s.site.q, progress := s.progress + 1 })

/-- FABRIC_PORT_RETURN (R43, R476): the site's port is in the spray again; what no path led to may be reached (log entry 71). -/
def execFabricPortReturn (s : State) : Host.Outcome State Fault Refusal :=
  let x := s.sparing
  .next (if x.ports.contains s.site.q then
      { s with sparing := { x with ports := x.ports.filter fun p => p ≠ s.site.q }, unreach := [], progress := s.progress + 1 }
    else s)

/-! ### Soft errors (R45, R437, R485) -/

/-- The function that owns a crew's context. -/
def funcOf (s : State) (c : Nat) : Nat := (s.context (s.crew c).ctx).func

/-- A crew whose state is lost is terminated with MCE.CREW. -/
def loseCrew (s : State) (c : Nat) : State :=
  match (s.crew c).state with
  | .none | .ended => s
  | _ => reportConfined (s.killCrew c causeMce) (s.crew c).die 1 c (funcOf s c)

/-- The die that logs an error of a home line: an even die of the line's base die, or the site's for a line that no HBM stack holds (log entry
69). -/
def homeDie (s : State) (pa : Nat) : Nat := if isHbm pa then pa / 2 ^ 38 * 2 else s.site.die

/-- The die of a cache. -/
def placeDie : CachePlace → Nat
  | .writeBuffer ck => ck / 48
  | .l1 ck => ck / 48
  | .l2 d => d

/-- SOFT_ERROR (R45): corrected, confined to a lane, to what reads a word or a line, to an element, to a crew, or fatal. -/
def execSoftError (e : ErrorSite) (s : State) : Host.Outcome State Fault Refusal :=
  .next (match e with
    | .corrected d u => reportFixed s d 0 u 0
    | .vreg c n r l =>
      if (s.teamAt (teamKey c n)).key ≠ teamKey c n then s
      else reportConfined (s.updTeam (teamKey c n) fun t => t.markV r l .lane 1) (s.crew c).die 2 (r * 1024 + l) (funcOf s c)
    | .scratch c off =>
      let cr := s.crew c
      if cr.state = .none then s
      else
        let cr' := { cr with spoison := smSetAll false cr.spoison ((List.range 4).map fun k => (off / 4 * 4 + k, true)) }
        reportConfined (s.setCrew c cr') cr.die 3 off (funcOf s c)
    | .homeLine pa => reportConfined (poisonLine s pa) (homeDie s pa) 4 pa 0
    | .cacheLine place pa => reportConfined (spoilCopy s place (pa / 128)) (placeDie place) 5 pa 0
    | .bufferElement d b k =>
      let x := s.spin d
      match x.bufs[b]? with
      | none => s
      | some f =>
        let items := ((List.range f.items.length).zip f.items).map fun i => if i.1 = k then { i.2 with bad := true } else i.2
        reportConfined (s.setSpin d { x with bufs := x.bufs.set b { f with items := items } }) d 6 b
          (match f.items[k]? with | some i => funcOf s (i.team / 16) | none => 0)
    | .crewState c => loseCrew s c
    | .rayEntry c => loseCrew s c
    | .unconfined d u => (rasLog s d 6 u 0 0).emit (.aer 2))

end Sys2Proof.Machine
end

