-- ==== Sys2Proof/Machine/Dispatch.lean ====
section
/-! DEFINITION. The meaning of each instruction: one arm for each row of the table of operations and events. -/

namespace Sys2Proof.Machine

/-- What an instruction does. -/
def exec (i : Instr) (s : State) : Host.Outcome State Fault Refusal :=
  match i with
  | .imx i1 => Sys2Proof.Machine.execImx i1 s
  | .grd n p => Sys2Proof.Machine.execGrd n p s
  | .bra o => Sys2Proof.Machine.execBra o s
  | .brs k o => Sys2Proof.Machine.execBrs k o s
  | .brv n p o => Sys2Proof.Machine.execBrv n p o s
  | .call o => Sys2Proof.Machine.execCall o s
  | .ret a => Sys2Proof.Machine.execRet a s
  | .mark o => Sys2Proof.Machine.execMark o s
  | .sadd t d a b => Sys2Proof.Machine.execSadd t d a b s
  | .ssub t d a b => Sys2Proof.Machine.execSsub t d a b s
  | .smul t d a b => Sys2Proof.Machine.execSmul t d a b s
  | .smulh t d a b => Sys2Proof.Machine.execSmulh t d a b s
  | .sdiv t d a b => Sys2Proof.Machine.execSdiv t d a b s
  | .smin t d a b => Sys2Proof.Machine.execSmin t d a b s
  | .smax t d a b => Sys2Proof.Machine.execSmax t d a b s
  | .sand d a b => Sys2Proof.Machine.execSand d a b s
  | .sor d a b => Sys2Proof.Machine.execSor d a b s
  | .sxor d a b => Sys2Proof.Machine.execSxor d a b s
  | .sshl d a b => Sys2Proof.Machine.execSshl d a b s
  | .sshr d a b => Sys2Proof.Machine.execSshr d a b s
  | .ssra d a b => Sys2Proof.Machine.execSsra d a b s
  | .ssel d a b => Sys2Proof.Machine.execSsel d a b s
  | .smov d a => Sys2Proof.Machine.execSmov d a s
  | .scmp t d a b k => Sys2Proof.Machine.execScmp t d a b k s
  | .sadd64 d a b => Sys2Proof.Machine.execSadd64 d a b s
  | .sli d i1 => Sys2Proof.Machine.execSli d i1 s
  | .saddImmediate d a i1 => Sys2Proof.Machine.execSaddImmediate d a i1 s
  | .sshlImmediate d a n => Sys2Proof.Machine.execSshlImmediate d a n s
  | .sshrImmediate d a n => Sys2Proof.Machine.execSshrImmediate d a n s
  | .ssraImmediate d a n => Sys2Proof.Machine.execSsraImmediate d a n s
  | .slane d b a => Sys2Proof.Machine.execSlane d b a s
  | .sbcast a d => Sys2Proof.Machine.execSbcast a d s
  | .voteAny d p => Sys2Proof.Machine.execVoteAny d p s
  | .voteAll d p => Sys2Proof.Machine.execVoteAll d p s
  | .voteBallot d a p => Sys2Proof.Machine.execVoteBallot d a p s
  | .popm d p => Sys2Proof.Machine.execPopm d p s
  | .bar b => Sys2Proof.Machine.execBar b s
  | .arrive d b => Sys2Proof.Machine.execArrive d b s
  | .await a b => Sys2Proof.Machine.execAwait a b s
  | .prio k => Sys2Proof.Machine.execPrio k s
  | .sysr d n => Sys2Proof.Machine.execSysr d n s
  | .sysw a n => Sys2Proof.Machine.execSysw a n s
  | .trap k => Sys2Proof.Machine.execTrap k s
  | .reform k => Sys2Proof.Machine.execReform k s
  | .qbind q a => Sys2Proof.Machine.execQbind q a s
  | .qpush q v n => Sys2Proof.Machine.execQpush q v n s
  | .qpushTeam q v n => Sys2Proof.Machine.execQpushTeam q v n s
  | .qpop q v n p => Sys2Proof.Machine.execQpop q v n p s
  | .qpopTeam q v n p => Sys2Proof.Machine.execQpopTeam q v n p s
  | .qtry q v n p => Sys2Proof.Machine.execQtry q v n p s
  | .qtryTeam q v n p => Sys2Proof.Machine.execQtryTeam q v n p s
  | .fadd t d a b => Sys2Proof.Machine.execFadd t d a b s
  | .fsub t d a b => Sys2Proof.Machine.execFsub t d a b s
  | .fmul t d a b => Sys2Proof.Machine.execFmul t d a b s
  | .ffma t d a b => Sys2Proof.Machine.execFfma t d a b s
  | .fmin t d a b => Sys2Proof.Machine.execFmin t d a b s
  | .fmax t d a b => Sys2Proof.Machine.execFmax t d a b s
  | .fdiv t d a b => Sys2Proof.Machine.execFdiv t d a b s
  | .fdot2 t d a b => Sys2Proof.Machine.execFdot2 t d a b s
  | .fsgn t d a b => Sys2Proof.Machine.execFsgn t d a b s
  | .fsgnNeg t d a b => Sys2Proof.Machine.execFsgnNeg t d a b s
  | .fsgnXor t d a b => Sys2Proof.Machine.execFsgnXor t d a b s
  | .fcmp t k p a b => Sys2Proof.Machine.execFcmp t k p a b s
  | .frcp d a t => Sys2Proof.Machine.execFrcp d a t s
  | .frsq d a t => Sys2Proof.Machine.execFrsq d a t s
  | .fsqrt d a t => Sys2Proof.Machine.execFsqrt d a t s
  | .fex2 d a t => Sys2Proof.Machine.execFex2 d a t s
  | .flg2 d a t => Sys2Proof.Machine.execFlg2 d a t s
  | .fsin d a t => Sys2Proof.Machine.execFsin d a t s
  | .fcos d a t => Sys2Proof.Machine.execFcos d a t s
  | .fclass d a t => Sys2Proof.Machine.execFclass d a t s
  | .frnd d a t m => Sys2Proof.Machine.execFrnd d a t m s
  | .fcvt d a t x m => Sys2Proof.Machine.execFcvt d a t x m s
  | .icvt d a r f i1 m => Sys2Proof.Machine.execIcvt d a r f i1 m s
  | .iadd t d a b => Sys2Proof.Machine.execIadd t d a b s
  | .isub t d a b => Sys2Proof.Machine.execIsub t d a b s
  | .imul t d a b => Sys2Proof.Machine.execImul t d a b s
  | .imulh t d a b => Sys2Proof.Machine.execImulh t d a b s
  | .imad t d a b => Sys2Proof.Machine.execImad t d a b s
  | .imin t d a b => Sys2Proof.Machine.execImin t d a b s
  | .imax t d a b => Sys2Proof.Machine.execImax t d a b s
  | .ishl t d a b => Sys2Proof.Machine.execIshl t d a b s
  | .ishr t d a b => Sys2Proof.Machine.execIshr t d a b s
  | .isra t d a b => Sys2Proof.Machine.execIsra t d a b s
  | .iand t d a b => Sys2Proof.Machine.execIand t d a b s
  | .ior t d a b => Sys2Proof.Machine.execIor t d a b s
  | .ixor t d a b => Sys2Proof.Machine.execIxor t d a b s
  | .icmp t k p a b => Sys2Proof.Machine.execIcmp t k p a b s
  | .iabs d a t => Sys2Proof.Machine.execIabs d a t s
  | .inot d a t => Sys2Proof.Machine.execInot d a t s
  | .ipop d a t => Sys2Proof.Machine.execIpop d a t s
  | .iclz d a t => Sys2Proof.Machine.execIclz d a t s
  | .vsel p d a b => Sys2Proof.Machine.execVsel p d a b s
  | .vmov t d a => Sys2Proof.Machine.execVmov t d a s
  | .vli d i1 => Sys2Proof.Machine.execVli d i1 s
  | .lperm t d a b => Sys2Proof.Machine.execLperm t d a b s
  | .lred d a k t o => Sys2Proof.Machine.execLred d a k t o s
  | .lscan d a k t o n => Sys2Proof.Machine.execLscan d a k t o n s
  | .sgnq d a b => Sys2Proof.Machine.execSgnq d a b s
  | .sgnx d a b => Sys2Proof.Machine.execSgnx d a b s
  | .pack d a z s1 g => Sys2Proof.Machine.execPack d a z s1 g s
  | .unpk d a z g => Sys2Proof.Machine.execUnpk d a z g s
  | .ld z d o s1 g l => Sys2Proof.Machine.execLd z d o s1 g l s
  | .st z d o s1 l => Sys2Proof.Machine.execSt z d o s1 l s
  | .lds z d o s1 g => Sys2Proof.Machine.execLds z d o s1 g s
  | .sts z d o s1 => Sys2Proof.Machine.execSts z d o s1 s
  | .ldk z d s1 g l => Sys2Proof.Machine.execLdk z d s1 g l s
  | .ldb z d o s1 g n => Sys2Proof.Machine.execLdb z d o s1 g n s
  | .pref o s1 l => Sys2Proof.Machine.execPref o s1 l s
  | .fenceAcq s1 => Sys2Proof.Machine.execFenceAcq s1 s
  | .fenceRel s1 => Sys2Proof.Machine.execFenceRel s1 s
  | .fenceAr s1 => Sys2Proof.Machine.execFenceAr s1 s
  | .cinv s1 a b => Sys2Proof.Machine.execCinv s1 a b s
  | .cwb s1 a b => Sys2Proof.Machine.execCwb s1 a b s
  | .rrinv a b => Sys2Proof.Machine.execRrinv a b s
  | .spchk d => Sys2Proof.Machine.execSpchk d s
  | .mwait t d a b s1 => Sys2Proof.Machine.execMwait t d a b s1 s
  | .pmap d => Sys2Proof.Machine.execPmap d s
  | .pmapRd d => Sys2Proof.Machine.execPmapRd d s
  | .loadReturn remote => Sys2Proof.Machine.execLoadReturn remote s
  | .amo o w d v s1 => Sys2Proof.Machine.execAmo o w d v s1 s
  | .acas w d v s1 => Sys2Proof.Machine.execAcas w d v s1 s
  | .acas2 d v s1 => Sys2Proof.Machine.execAcas2 d v s1 s
  | .red o w d v s1 => Sys2Proof.Machine.execRed o w d v s1 s
  | .redx w d v s1 => Sys2Proof.Machine.execRedx w d v s1 s
  | .ald w d v s1 => Sys2Proof.Machine.execAld w d v s1 s
  | .ast w d v s1 => Sys2Proof.Machine.execAst w d v s1 s
  | .apin o v s1 => Sys2Proof.Machine.execApin o v s1 s
  | .hostAtomicCompletion reply old => Sys2Proof.Machine.execHostAtomicCompletion reply old s
  | .hostAtomicTimeout applied old => Sys2Proof.Machine.execHostAtomicTimeout applied old s
  | .rbind e a m q s1 => Sys2Proof.Machine.execRbind e a m q s1 s
  | .rdrain e a t r f q l s1 => Sys2Proof.Machine.execRdrain e a t r f q l s1 s
  | .rwait e => Sys2Proof.Machine.execRwait e s
  | .rfree e => Sys2Proof.Machine.execRfree e s
  | .rstat e d => Sys2Proof.Machine.execRstat e d s
  | .cyield o => Sys2Proof.Machine.execCyield o s
  | .rseed a b => Sys2Proof.Machine.execRseed a b s
  | .mclaim k d a => Sys2Proof.Machine.execMclaim k d a s
  | .mrelease k a => Sys2Proof.Machine.execMrelease k a s
  | .mgang a => Sys2Proof.Machine.execMgang a s
  | .mstat d a => Sys2Proof.Machine.execMstat d a s
  | .mload a b q s1 => Sys2Proof.Machine.execMload a b q s1 s
  | .mloadc a b q s1 => Sys2Proof.Machine.execMloadc a b q s1 s
  | .mtable a i1 q s1 => Sys2Proof.Machine.execMtable a i1 q s1 s
  | .mcbook a i1 t q s1 => Sys2Proof.Machine.execMcbook a i1 t q s1 s
  | .mma k a x y => Sys2Proof.Machine.execMma k a x y s
  | .mmac k a x => Sys2Proof.Machine.execMmac k a x s
  | .mzero k => Sys2Proof.Machine.execMzero k s
  | .mrd k v d a => Sys2Proof.Machine.execMrd k v d a s
  | .mwr k v d a => Sys2Proof.Machine.execMwr k v d a s
  | .mst a b k t m l s1 => Sys2Proof.Machine.execMst a b k t m l s1 s
  | .mtrq a m => Sys2Proof.Machine.execMtrq a m s
  | .hbind q a k s1 => Sys2Proof.Machine.execHbind q a k s1 s
  | .hlog q a => Sys2Proof.Machine.execHlog q a s
  | .hreplay q v k s1 => Sys2Proof.Machine.execHreplay q v k s1 s
  | .hstat d q s1 => Sys2Proof.Machine.execHstat d q s1 s
  | .hinv a b => Sys2Proof.Machine.execHinv a b s
  | .rayFetchReturn remote => Sys2Proof.Machine.execRayFetchReturn remote s
  | .launch d a q l s1 => Sys2Proof.Machine.execLaunch d a q l s1 s
  | .evsig a s1 => Sys2Proof.Machine.execEvsig a s1 s
  | .evadd a b s1 => Sys2Proof.Machine.execEvadd a b s1 s
  | .evwait a b s1 => Sys2Proof.Machine.execEvwait a b s1 s
  | .idemRd d => Sys2Proof.Machine.execIdemRd d s
  | .rqbindAttach a => Sys2Proof.Machine.execRqbindAttach a s
  | .rqbindDetach a => Sys2Proof.Machine.execRqbindDetach a s
  | .rqbindStat d a => Sys2Proof.Machine.execRqbindStat d a s
  | .lateReturn remote => Sys2Proof.Machine.execLateReturn remote s
  | .tlbInvalidate value => Sys2Proof.Machine.execTlbInvalidate value s
  | .missingDecrement value => Sys2Proof.Machine.execMissingDecrement value s
  | .rrcstepsWrite value => Sys2Proof.Machine.execRrcstepsWrite value s
  | .registerWrite off value => Sys2Proof.Machine.execRegisterWrite off value s
  | .rstw w a d p => Sys2Proof.Machine.execRstw w a d p s
  | .rred w a d o p => Sys2Proof.Machine.execRred w a d o p s
  | .ramo w a d o p => Sys2Proof.Machine.execRamo w a d o p s
  | .aflush d a => Sys2Proof.Machine.execAflush d a s
  | .aflushAll d => Sys2Proof.Machine.execAflushAll d s
  | .afstatFail d => Sys2Proof.Machine.execAfstatFail d s
  | .afstatPend d => Sys2Proof.Machine.execAfstatPend d s
  | .rsvs d q a => Sys2Proof.Machine.execRsvs d q a s
  | .rsvsRet q => Sys2Proof.Machine.execRsvsRet q s
  | .rrpush q v p => Sys2Proof.Machine.execRrpush q v p s
  | .aggregatedStore p => Sys2Proof.Machine.execAggregatedStore p s
  | .storeAcknowledgement a => Sys2Proof.Machine.execStoreAcknowledgement a s
  | .recordPacket p => Sys2Proof.Machine.execRecordPacket p s
  | .reservationRequest p => Sys2Proof.Machine.execReservationRequest p s
  | .reservationGrant p => Sys2Proof.Machine.execReservationGrant p s
  | .reservationCancel p => Sys2Proof.Machine.execReservationCancel p s
  | .reservationReturn p => Sys2Proof.Machine.execReservationReturn p s
  | .inbWrite value => Sys2Proof.Machine.execInbWrite value s
  | .deviceUnreachable dev => Sys2Proof.Machine.execDeviceUnreachable dev s
  | .cplan d a => Sys2Proof.Machine.execCplan d a s
  | .cplanFree a => Sys2Proof.Machine.execCplanFree a s
  | .cstart a => Sys2Proof.Machine.execCstart a s
  | .cwait d a => Sys2Proof.Machine.execCwait d a s
  | .cstat d a x => Sys2Proof.Machine.execCstat d a x s
  | .ccancel a => Sys2Proof.Machine.execCcancel a s
  | .tenc d a b t => Sys2Proof.Machine.execTenc d a b t s
  | .tdec d a b => Sys2Proof.Machine.execTdec d a b s
  | .chunkArrival k => Sys2Proof.Machine.execChunkArrival k s
  | .tvalidWrite value => Sys2Proof.Machine.execTvalidWrite value s
  | .freqWrite off value => Sys2Proof.Machine.execFreqWrite off value s
  | .hostSubmit tail => Sys2Proof.Machine.execHostSubmit tail s
  | .cqheadWrite head => Sys2Proof.Machine.execCqheadWrite head s
  | .attestationRequest nonce => Sys2Proof.Machine.execAttestationRequest nonce s
  | .softError e => Sys2Proof.Machine.execSoftError e s
  | .lineReplacement r => Sys2Proof.Machine.execLineReplacement r s
  | .clockChange lowered => Sys2Proof.Machine.execClockChange lowered s
  | .flashUpdate version signed => Sys2Proof.Machine.execFlashUpdate version signed s
  | .clauseStart => Sys2Proof.Machine.execClauseStart s
  | .nop => Sys2Proof.Machine.execNop s
  | .join => Sys2Proof.Machine.execJoin s
  | .elseW => Sys2Proof.Machine.execElseW s
  | .exit => Sys2Proof.Machine.execExit s
  | .yield => Sys2Proof.Machine.execYield s
  | .tfence => Sys2Proof.Machine.execTfence s
  | .tret => Sys2Proof.Machine.execTret s
  | .mwaitWake => Sys2Proof.Machine.execMwaitWake s
  | .pmiss => Sys2Proof.Machine.execPmiss s
  | .pret => Sys2Proof.Machine.execPret s
  | .pageWalkComplete => Sys2Proof.Machine.execPageWalkComplete s
  | .storeComplete => Sys2Proof.Machine.execStoreComplete s
  | .frameZeroed => Sys2Proof.Machine.execFrameZeroed s
  | .dqCommit => Sys2Proof.Machine.execDqCommit s
  | .atomicReturn => Sys2Proof.Machine.execAtomicReturn s
  | .cyieldOff => Sys2Proof.Machine.execCyieldOff s
  | .fillBeat => Sys2Proof.Machine.execFillBeat s
  | .fillComplete => Sys2Proof.Machine.execFillComplete s
  | .drainComplete => Sys2Proof.Machine.execDrainComplete s
  | .mfence => Sys2Proof.Machine.execMfence s
  | .arraySchedule => Sys2Proof.Machine.execArraySchedule s
  | .matrixStep => Sys2Proof.Machine.execMatrixStep s
  | .mmacBlockDecode => Sys2Proof.Machine.execMmacBlockDecode s
  | .mmacVerify => Sys2Proof.Machine.execMmacVerify s
  | .matrixComplete => Sys2Proof.Machine.execMatrixComplete s
  | .hinvAll => Sys2Proof.Machine.execHinvAll s
  | .trace => Sys2Proof.Machine.execTrace s
  | .resume => Sys2Proof.Machine.execResume s
  | .abort => Sys2Proof.Machine.execAbort s
  | .launchPortRecord => Sys2Proof.Machine.execLaunchPortRecord s
  | .idemClr => Sys2Proof.Machine.execIdemClr s
  | .fedCrewTimeout => Sys2Proof.Machine.execFedCrewTimeout s
  | .slotBind => Sys2Proof.Machine.execSlotBind s
  | .crewStart => Sys2Proof.Machine.execCrewStart s
  | .crewRestore => Sys2Proof.Machine.execCrewRestore s
  | .slotSave => Sys2Proof.Machine.execSlotSave s
  | .saveComplete => Sys2Proof.Machine.execSaveComplete s
  | .slotDrop => Sys2Proof.Machine.execSlotDrop s
  | .crewEnd => Sys2Proof.Machine.execCrewEnd s
  | .waitLimitExpiry => Sys2Proof.Machine.execWaitLimitExpiry s
  | .leaveGrant => Sys2Proof.Machine.execLeaveGrant s
  | .tlbInvalidateDone => Sys2Proof.Machine.execTlbInvalidateDone s
  | .spindleAgeDepart => Sys2Proof.Machine.execSpindleAgeDepart s
  | .packetHandoff => Sys2Proof.Machine.execPacketHandoff s
  | .packetTimeout => Sys2Proof.Machine.execPacketTimeout s
  | .rsvsTimeout => Sys2Proof.Machine.execRsvsTimeout s
  | .compositingPortRecord => Sys2Proof.Machine.execCompositingPortRecord s
  | .reductionBurst => Sys2Proof.Machine.execReductionBurst s
  | .chunkAcknowledgement => Sys2Proof.Machine.execChunkAcknowledgement s
  | .runTimeout => Sys2Proof.Machine.execRunTimeout s
  | .inboundAtomicop => Sys2Proof.Machine.execInboundAtomicop s
  | .powerOnReset => Sys2Proof.Machine.execPowerOnReset s
  | .hotReset => Sys2Proof.Machine.execHotReset s
  | .flrPhysicalFunction => Sys2Proof.Machine.execFlrPhysicalFunction s
  | .flrVirtualFunction => Sys2Proof.Machine.execFlrVirtualFunction s
  | .d3hotEntry => Sys2Proof.Machine.execD3hotEntry s
  | .d3coldEntry => Sys2Proof.Machine.execD3coldEntry s
  | .coreRetire => Sys2Proof.Machine.execCoreRetire s
  | .channelRetire => Sys2Proof.Machine.execChannelRetire s
  | .laneRetire => Sys2Proof.Machine.execLaneRetire s
  | .wayRetire => Sys2Proof.Machine.execWayRetire s
  | .channelCopyComplete => Sys2Proof.Machine.execChannelCopyComplete s
  | .fabricPortFailure => Sys2Proof.Machine.execFabricPortFailure s
  | .fabricPortReturn => Sys2Proof.Machine.execFabricPortReturn s
  | .mloadComplete => Sys2Proof.Machine.execMloadComplete s
  | .mstComplete => Sys2Proof.Machine.execMstComplete s
  | .mtrqComplete => Sys2Proof.Machine.execMtrqComplete s
  | .tileCodingComplete => Sys2Proof.Machine.execTileCodingComplete s
  | .d3hotExit => Sys2Proof.Machine.execD3hotExit s
  | .contextTeardown => Sys2Proof.Machine.execContextTeardown s
  | .systemSoftwareSeal => Sys2Proof.Machine.execSystemSoftwareSeal s

end Sys2Proof.Machine
end

