-- ==== Sys2Proof/Machine/Group.lean ====
section
/-! DEFINITION. A word, and a chained group, of an open clause: decoding it, the order of a group's checks, its issue and commit as a
whole (spec/02_clauses_and_encoding.md R57, R58, R63 to R66, R68, R82, R84 to R86). -/

namespace Sys2Proof.Machine

/-! ### One word -/

/-- The word at the program counter of the team that issues; NOP when it has no open clause. -/
def Team.word (t : Team) : W32 :=
  match t.clause with
  | some c => c.word (pcSlot t.pc)
  | none => 0

/-- A word that does not decode faults; a GRD whose unused bits are not zero comes into force and leaves the fault to its word
(R82, R85). -/
def badWord (w : W32) (s : State) : Host.Outcome State Fault Refusal :=
  let t := s.team
  match decode w with
  | .error (.reserved (.grd n p)) =>
    match execGrd n p s with
    | .next s => .next (if s.team.note = .done then s.mapTeam fun t => { t with pfx := { t.pfx with rsv := true } } else s)
    | r => r
  | _ => .next (s.enterHandler t.faultPc { code := (wordFault t w).getD codeOp, val := w.setWidth 64 })

/-- The word at the program counter, or a prefix there, alone (R57). -/
def wordStep (s : State) : Host.Outcome State Fault Refusal :=
  match decode s.team.word with
  | .ok i => exec i s
  | .error _ => badWord s.team.word s

/-! ### The members of a group (R63, R72) -/

/-- A word of a group with its prefixes: the program counter of the word, the prefixes, the word, whether a prefix of it is chained. -/
structure Member where
  pc : W64
  pfx : Pfx
  word : W32
  bad : Bool

/-- The words of a group from a team's program counter on, or the first fault of their own checks (R85): the program counter of the
fault, its code, the word it names. `bad` says that a prefix before the program counter is chained. -/
def members (c : Clause) : Nat → Bool → Team → Except (W64 × Nat × W32) (List Member)
  | 0, _, _ => .ok []
  | n + 1, bad, t =>
    let w := c.word (pcSlot t.pc)
    match decodeParts (w.extractLsb' 24 7) (w.extractLsb' 0 24) with
    | some (.imx i) =>
      match prefFault t takesImx with
      | some f => .error f
      | none => members c n (bad || chainBit w) (t.prefixed fun p => { p with imm := some i })
    | some (.grd g p) =>
      match prefFault t fun u => u.guardable with
      | some f => .error f
      | none =>
        members c n (bad || chainBit w) (t.prefixed fun x =>
          { x with grd := some (g = 1, p.toNat), rsv := w.extractLsb' 4 20 ≠ 0 })
    | _ =>
      match wordFault t w with
      | some k => .error (t.faultPc, k, w)
      | none =>
        let m : Member := { pc := t.pc, pfx := t.pfx, word := w, bad := bad }
        if !chainBit w then .ok [m]
        else
          match members c n false { t with pc := t.pc + 4, pfx := {} } with
          | .error f => .error f
          | .ok l => .ok (m :: l)

/-- The instruction of a member whose checks have passed. -/
def Member.instr (m : Member) : Instr :=
  match decode m.word with
  | .ok i => i
  | .error _ => .nop

/-- The queue register that a word writes: its binding, its traversal context or log area, its destination and reservations; records and results
that pass through a register are none of it (R64, R78; DEDUCED, log entry 78). -/
def writtenQ (i : Instr) : List Nat :=
  match i with
  | .qbind q _ => [q.toNat]
  | .hbind q _ _ _ => [q.toNat]
  | .hlog q _ => [q.toNat]
  | .rsvs _ q _ => [q.toNat]
  | .rsvsRet q => [q.toNat]
  | .rrpush q _ _ => [q.toNat]
  | _ => []

/-- The registers that a word names as written: scalar registers, then vector registers from 64, predicates from 192, queue registers from 200;
p0 is not written (R64, R78). -/
def writtenRegs (i : Instr) : List Nat :=
  let u := usage i
  let old : List Span := match i with | .ramo w _ d _ _ => [grp (atRegs w) d] | _ => []
  u.sw.flatMap spanRegs ++ ((u.vw ++ old).flatMap spanRegs).map (64 + ·) ++ (u.pw.filter (· ≠ 0)).map (192 + ·) ++ (writtenQ i).map (200 + ·)

/-- Two words may not be chained: one pipe, or one register written by both (R64). -/
def clash (x y : Instr) : Bool :=
  (usage x).pipe == (usage y).pipe || (writtenRegs x).any fun r => (writtenRegs y).contains r

/-- The group raises ILL.CHAIN (R64). -/
def chainBad : List Member → Bool
  | [] => false
  | m :: l => m.bad || l.any (fun x => clash m.instr x.instr) || chainBad l

/-! ### Issue and commit (R65, R66) -/

/-- Where a word's effect falls in its group: words that only compute, memory words, vector and engine words, the queue words, which change the
queue registers that those read, the return of reservations, and last the words that change the team's course (R65). -/
def rank (i : Instr) : Nat :=
  match i with
  | .exit => 5 | .join => 5 | .elseW => 5 | .trap _ => 5 | .tret => 5 | .pret => 5 | .cyield _ => 5
  | .bra _ => 5 | .brs _ _ => 5 | .brv _ _ _ => 5 | .call _ => 5 | .ret _ => 5
  | .qpush _ _ _ => 3 | .qpushTeam _ _ _ => 3 | .qbind _ _ => 3
  | .qpop _ _ _ _ => 3 | .qpopTeam _ _ _ _ => 3 | .qtry _ _ _ _ => 3 | .qtryTeam _ _ _ _ => 3
  | .rsvsRet _ => 4
  | i =>
    match (usage i).pipe with
    | .s => 0
    | .m => 1
    | _ => 2

/-- The group's snapshot of its team: every word reads its registers as they were before the group (R65). -/
def groupOf (s : State) (first : W64) : Group :=
  let t := s.team
  { first := first, r := t.r, busy := t.busy, m := t.m, sup := t.sup, stamp := s.nextOp, ctl := .next }

/-- One member runs. -/
def Member.run (s : State) (m : Member) : Host.Outcome State Fault Refusal :=
  exec m.instr (s.mapTeam fun t => { t with pc := m.pc, pfx := m.pfx, note := .done })

/-- The first member that does not run on its own, with what it does instead (R66); what an earlier member does before it issues (an arrival, a
part of a push) it has then done, though a later one stalls or faults (DESIGN CHOICE, log entry 102). -/
def firstStop (s : State) : List Member → Option (Host.Outcome State Fault Refusal)
  | [] => none
  | m :: l =>
    match m.run s with
    | .next s' => if s'.team.note = .done then firstStop s l else some (.next s')
    | r => some r

/-- A member's fault as the handler of the group's state before it reports it: no word of the group commits (R65). -/
def faultBefore (s0 : State) (first : W64) (x : TrapRegs) : State :=
  s0.enterHandler first { code := x.code.toNat, detail := x.detail.toNat, val := x.xval, mask := some x.xmask }

/-- The members run one after the other on the state that the group builds. -/
def runMembers (s0 s : State) (first : W64) : List Member → Host.Outcome State Fault Refusal
  | [] => .next s
  | m :: l =>
    match m.run s with
    | .next s' =>
      if s'.team.note = .done then runMembers s0 s' first l
      else .next (if s'.team.note = .trapped then faultBefore s0 first s'.team.x else s0.blockOn .engine)
    | r => r

/-- The members in the order in which their effects fall. -/
def byRank (l : List Member) : List Member := [0, 1, 2, 3, 4, 5].flatMap fun k => l.filter fun m => rank m.instr = k

/-- A group whose checks have passed issues: when each of its words can, they run and the group commits (R65, R66). `s0` is the state
before the group. -/
def issueGroup (s0 : State) (first : W64) (l : List Member) : Host.Outcome State Fault Refusal :=
  let s := s0.mapTeam fun t => { t with group := some (groupOf s0 first) }
  match firstStop s l with
  | some r => r
  | none =>
    match runMembers s0 s first (byRank l) with
    | .next s' =>
      if s'.team.note ≠ .done then .next s'
      else
        let us := l.map fun m => usage m.instr
        let last := (l.getLast?.map Member.pc).getD first
        let ctl := match s'.team.group with | some g => g.ctl | none => .ended
        .next (s'.commit s0.team (sortAsc (us.flatMap undoRegs)) (us.filter fun u => u.counted).length first (pcNext last) ctl)
    | r => r

/-- The chained group at the program counter: its words' own checks in slot order, ILL.CHAIN, its issue (R63 to R66, R85, R86). -/
def groupStep (s : State) : Host.Outcome State Fault Refusal :=
  let t := s.team
  let first := t.pfx.pc.getD t.pc
  match t.clause with
  | none => .next s
  | some c =>
    match members c 3 false { t with group := some (groupOf s first) } with
    | .error f => .next (s.enterHandler f.1 { code := f.2.1, val := f.2.2.setWidth 64 })
    | .ok l =>
      if chainBad l then .next (s.enterHandler first { code := codeChain, val := ((l.head?.map Member.word).getD 0).setWidth 64 })
      else issueGroup s first l

/-- What stands at the program counter runs: a word or prefix that is not chained alone, else its group. -/
def clauseStep (s : State) : Host.Outcome State Fault Refusal :=
  if chainBit s.team.word then groupStep s else wordStep s

end Sys2Proof.Machine
end

