-- ==== Sys2Proof/Machine/Schedule.lean ====
section
/-! DEFINITION. What happens next. The spec gives no order among the machine's agents, so the order here is the model's choice
(log entry 3): a prefix's word first; then what is on the agenda from outside; then the open clause; then a team's next clause and an
event in turn. -/

namespace Sys2Proof.Machine

/-! ### The events that can come by themselves -/

/-- What the host's memory holds for a lane of an ALD once the team's own dirty bytes are there (R266, R310). -/
def hostValue (s : State) (o : Op) (a : AtomicOp) (l : AtLane) : BitVec 128 :=
  let t := s.teamAt o.team
  BitVec.ofNat 128 (leNat (homeBytes (settleLine s t.id.die t.id.core (l.pa / 128)) l.pa a.size))

/-- The events that may end or advance an operation. -/
def opEvents (s : State) (o : Op) : List (Site × Instr) :=
  let at' : Nat → Site := fun n => { op := o.id, n := n }
  let late := (s.crew o.crew).state == .saved || (s.crew o.crew).state == .restoring
  match o.kind with
  | .load _ _ _ _ _ left _ _ _ =>
    if late then left.map fun k => (at' k, .lateReturn []) else left.map fun k => (at' k, .loadReturn [])
  | .store _ _ => [(at' 0, .storeComplete)]
  | .fill _ => [(at' 0, .fillBeat), (at' 0, .fillComplete)]
  | .drain _ => [(at' 0, .drainComplete)]
  | .mload _ => [(at' 0, .mloadComplete)]
  | .mst _ => [(at' 0, .mstComplete)]
  | .mtrq _ => [(at' 0, .mtrqComplete)]
  | .atomic a =>
    (at' 0, if late then .lateReturn [] else .atomicReturn) ::
      (match hostLane s o a with
        | some l => if a.what == .ald then [(at' l.lane, .hostAtomicCompletion .value (hostValue s o a l))] else []
        | none => [])
  | .ramo _ => []
  | .rsvs _ => [(at' 0, .rsvsTimeout)]
  | .tile _ => [(at' 0, .tileCodingComplete)]
  | .word w =>
    (match w with | .pmap _ left _ _ => left | _ => [0]).map fun k => (at' k, if late then .lateReturn [] else .loadReturn [])

/-- The events of a core; every store is performed at last (R270). -/
def coreEvents (s : State) (ck : Nat) : List (Site × Instr) :=
  let c := s.core ck
  let x : Site := { die := ck / 48, core := ck % 48 }
  (if c.walks = [] then [] else [(x, .pageWalkComplete)]) ++
  [(x, .arraySchedule)] ++
  (if c.wb = [] then [] else [(x, .lineReplacement (.writeBuffer ck))]) ++
  (if c.array.isNone then [] else [(x, .mmacBlockDecode), (x, .matrixStep), (x, .mmacVerify), (x, .matrixComplete)]) ++
  (c.slots.filter fun e => e.2.state = 4).map fun e => ({ x with slot := e.1 }, .slotDrop)

/-- The events of a queue register's port. -/
def portEvents (x : Site) (q : QReg) : List (Site × Instr) :=
  if q.pushed = [] then []
  else if q.port = 1 then [(x, .trace), (x, .resume), (x, .abort)]
  else if q.port = 2 then [(x, .compositingPortRecord)]
  else if q.port = 4 then [(x, .launchPortRecord)]
  else []

/-- The events of a crew; what a team that has ended pushed is still taken (R24, R186). -/
def crewEvents (s : State) (c : Nat) : List (Site × Instr) :=
  let cr := s.crew c
  let x : Site := { crew := c, die := cr.die, core := cr.core, slot := cr.slot }
  let ports := (teamKeys s c).flatMap fun k => (s.teamAt k).q.flatMap fun e => portEvents { x with team := k % 16, q := e.1 } e.2
  let rays := cr.rays.map fun r =>
    (({ x with team := r.team, q := r.q, n := r.handle.toNat % 256 } : Site), Instr.rayFetchReturn [])
  match cr.state with
  | .none => []
  | .ended => []
  | .saved => []
  | .dropping => []
  | .starting => [(x, .crewStart)]
  | .restoring => [(x, .crewRestore)]
  | .saving => [(x, .dqCommit), (x, .saveComplete), (x, .crewEnd)]
  | .run => ports ++ rays ++ [(x, .dqCommit), (x, .crewEnd), (x, .waitLimitExpiry)]

/-- A message of this device to itself arrives. -/
def netEvent (m : NetMsg) : List (Site × Instr) :=
  match m with
  | .store p => [({}, .aggregatedStore p)]
  | .ack a => [({ die := a.die }, .storeAcknowledgement a)]
  | .record p => [({}, .recordPacket p)]
  | .resv p => [({}, .reservationRequest p)]
  | .cancel p => [({}, .reservationCancel p)]
  | .grant g => [({ die := g.die }, .reservationGrant g)]
  | .ret r => [({}, .reservationReturn r)]
  | .chunk _ die k => [({ die := die }, .chunkArrival k)]
  | .chunkAck _ _ _ _ _ _ _ _ => []
  | .msix _ _ => []
  | .aer _ => []
  | .read _ _ _ => []
  | .line _ _ => []
  | .slotEmpty _ _ _ => []
  | .attest _ _ _ _ => []
  | .refuseAttest => []
  | .unsupported _ => []

/-- The events of a run: its bursts, the acknowledgements of chunks to this device, its timeout. -/
def runEvents (s : State) (d k : Nat) (p : Plan) : List (Site × Instr) :=
  let x : Site := { die := d, q := k }
  if !p.going then []
  else
    (((List.range p.run.unacked.length).zip p.run.unacked).filter fun e => (dieAt p.words p.run e.2.2.1).1 = s.devno 0).map
      (fun e => ({ x with n := e.1 }, .chunkAcknowledgement)) ++ [(x, .reductionBurst), (x, .runTimeout)]

/-- The events of a die. -/
def dieEvents (s : State) (d : Nat) : List (Site × Instr) :=
  let v := s.die d
  let x : Site := { die := d }
  (if v.arb.waiting = [] then [] else [(x, .leaveGrant)]) ++
  (if v.regs.inval.getLsbD 0 then [(x, .tlbInvalidateDone)] else []) ++
  ((List.range v.spindle.bufs.length).flatMap fun n => [({ x with n := n }, .packetHandoff), ({ x with n := n }, .spindleAgeDepart)]) ++
  ((List.range v.spindle.flight.length).map fun n => ({ x with n := n }, .packetTimeout)) ++
  (v.comp.plans.flatMap fun e => runEvents s d e.1 e.2) ++
  (v.l2.filter fun e => e.2.dirty ≠ 0).map fun e => (x, .lineReplacement (.l2 d e.1))

/-- Every event that may come by itself, whether or not it does anything yet. -/
def eventsOf (s : State) : List (Site × Instr) :=
  s.ops.flatMap (opEvents s) ++ s.cores.flatMap (fun e => coreEvents s e.1) ++ s.crews.flatMap (fun e => crewEvents s e.1) ++
  s.dies.flatMap (fun e => dieEvents s e.1) ++ s.net.flatMap netEvent ++
  (s.queues.filter fun e => e.2.recs != []).map (fun e => ({ q := e.1 }, .fedCrewTimeout)) ++
  s.zeroed.map (fun n => ({ n := n }, .frameZeroed)) ++
  (s.sparing.channels.filter fun e => !e.2.2).map fun e => ({ q := e.1 }, .channelCopyComplete)

/-! ### Which teams are ready (R151, R152) -/

/-- An instruction at a site. -/
def atSite (s : State) (e : Site × Instr) : Host.Outcome State Fault Refusal := exec e.2 { s with site := e.1 }

/-- The words of a team's next group run on the side, its prefixes before it: the state in which it has been found stalled, or none when the
group issues or faults. -/
def stallOf : Nat → State → Option State
  | 0, _ => none
  | n + 1, s =>
    match clauseStep s with
    | .next s' =>
      if s'.team.note = .blocked then some s'
      else if s'.team.pfx.pc.isSome && s'.team.note = .done then stallOf n s'
      else none
    | _ => none

/-- A team that still waits for what it waited for has waited since then (R200). -/
def Sched.goesOn (x old : Sched) : Sched := if x.wait = old.wait then { x with blockedFrom := old.blockedFrom } else x

/-- Team `key` is tried on the side: the state in which its next group stalls, or none when it is ready (R151). A barrier word at which it
newly arrives is no stall; a touch that deschedules it leaves it at its continuation (R326). -/
def tryTeam (s : State) (key : Nat) : Option State :=
  let t := s.teamAt key
  let s1 := if t.clause.isSome then settleAcq (s.checkOut key) else startClause s key
  if s1.team.note = .blocked && s1.team.clause.isNone then some s1
  else if s1.team.clause.isNone then none
  else
    match stallOf 3 s1 with
    | none => none
    | some b =>
      if (b.team.arr 0).isSome && (t.arr 0).isNone then none
      else if t.clause.isSome || b.team.eng.parked ≠ [] then some b
      else some (b.mapTeam fun u => { u with clause := none, pc := t.pc, sched := u.sched.goesOn t.sched })

/-- A team's readiness is settled: one that is tried and stalls waits, what its word does while it waits is done; one that is no
longer stalled becomes ready, its waiting time from zero (R151, R152). A team whose atomic is still to complete before its acquire waits. -/
def sweepTeam (s : State) (key : Nat) : State :=
  let t := s.teamAt key
  if standsReady s t && !acqDone s t && t.sched.wait.isNone then
    s.updTeam key fun t => { t with sched := { t.sched with wait := some .fence, blockedAt := s.progress } }
  else if !mayTry s t then s
  else
    match tryTeam s key with
    | some b => b
    | none =>
      if t.sched.wait.isNone then s
      else s.updTeam key fun t => { t with sched := { t.sched with wait := none, since := s.tick, passed := 0 } }

/-- The readiness of every team is settled. -/
def sweep (s : State) : State := s.aliveKeys.foldl sweepTeam s

/-! ### The choice -/

/-- A state but for what no event is done for. -/
def State.still (s : State) : State := { s with site := {}, progress := 0 }

/-- Something has happened: teams that wait look again. -/
def State.moved (s : State) : State := { s with progress := s.progress + 1 }

/-- The first event of a list that does something, with its outcome. -/
def firstEvent (s : State) : List (Site × Instr) → Option (Host.Outcome State Fault Refusal)
  | [] => none
  | e :: l =>
    match atSite s e with
    | .next s' => if s'.still = s.still then firstEvent s l else some (.next s'.moved)
    | r => some r

/-- An event comes by itself; the search starts one place on with each event. -/
def eventTurn (s : State) : Option (Host.Outcome State Fault Refusal) :=
  let l := eventsOf s
  firstEvent { s with eventNo := s.eventNo + 1 } (l.rotateLeft (s.eventNo % (l.length + 1)))

/-- The cores with a ready team. -/
def readyCores (s : State) : List Nat :=
  distinct ((s.aliveKeys.filter fun k => canIssue s (s.teamAt k)).map fun k => (s.teamAt k).coreK)

/-- The core whose turn it is: the next with a ready team after the last one that started a clause, so that no core with a ready team is passed over
for ever (R154; the first promise of R176). -/
def nextCore (s : State) : Option Nat :=
  let l := sortAsc (readyCores s)
  (l.find? fun k => s.lastCore < k).orElse fun _ => l.head?

/-- A core with a ready team starts a clause (R151); the cores take turns (R154). -/
def clauseTurn (s : State) : Option (Host.Outcome State Fault Refusal) :=
  (nextCore s).bind fun ck =>
    (chooseTeam s ck).map fun k => atSite { s with lastCore := ck } ({ crew := k / 16, team := k % 16 }, .clauseStart)

/-- The next state of an outcome changed. -/
def mapNext (f : State → State) : Host.Outcome State Fault Refusal → Host.Outcome State Fault Refusal
  | .next s => .next (f s)
  | .fault r => .fault r
  | .refused r => .refused r

/-- At a clause boundary the readiness of the teams is settled; then a team's clause and an event come in turn, either when the other
has nothing to do. -/
def boundary (s : State) : Host.Outcome State Fault Refusal :=
  let s := sweep s
  let ev := fun s => (eventTurn s).map (mapNext fun s => { s with turn := false })
  let cl := fun s => (clauseTurn s).map (mapNext fun s => { s with turn := true })
  if s.turn then ((ev s).orElse fun _ => cl s).getD (.next s) else ((cl s).orElse fun _ => ev s).getD (.next s)

/-- The team that issues is within a clause and may issue. -/
def midClause (s : State) : Bool := s.team.clause.isSome && canIssue s s.team

/-- What happens next. A word on the agenda is not an event and does nothing. -/
def turnOf (s : State) : Host.Outcome State Fault Refusal :=
  if midClause s && s.team.pfx.pc.isSome then clauseStep s
  else
    match s.agenda with
    | e :: l =>
      let s := { s with agenda := l }
      if (encodeParts e.2).isSome then .next s else mapNext State.moved (atSite s e)
    | [] => if midClause s then clauseStep (settleAcq s) else boundary s

/-! ### The end of a step -/

/-- The addresses at which two memories differ. -/
def cellDiff : Nat → List Host.Cell → List Host.Cell → List Nat
  | 0, _, _ => []
  | _ + 1, [], b => b.map Prod.fst
  | _ + 1, a, [] => a.map Prod.fst
  | n + 1, x :: a, y :: b =>
    if x = y then cellDiff n a b
    else if x.1 < y.1 then x.1 :: cellDiff n a (y :: b)
    else if y.1 < x.1 then y.1 :: cellDiff n (x :: a) b
    else x.1 :: cellDiff n a b

/-- A launch runs, whether or not a crew of it is bound, so that what fetch sees is kept (R89). -/
def launchRuns (s : State) : Bool :=
  (s.dies.any fun d => d.2.launches.any fun e => e.2.state == .running) || s.crews.any fun e => e.2.state != .none && e.2.state != .ended

/-- A step from `s` to `t` keeps, for the launches that run, the clauses whose bytes at the home it changed; a frame that PMAP took holds
nothing older (R89, R284; log entry 40). -/
def keepCode (s t : State) : State :=
  if !launchRuns t then { t with code := [] }
  else if s.mem = t.mem then t
  else
    let taken : Nat → Bool := fun clause => t.zeroed.any fun f => !s.zeroed.contains f && f == clause / 4096
    let changed := (distinct ((cellDiff (s.mem.length + t.mem.length) s.mem t.mem).map (· / 16))).filter fun c => !taken c
    { t with
      code := (t.code.filter fun r => !taken r.clause) ++
        changed.map fun c => { clause := c, tick := s.tick, old := homeBytes s (16 * c) 16 } }

/-- `n` of some lines, by free choices from one on. -/
def someLines : Nat → Nat → List Nat → List Nat
  | 0, _, _ => []
  | n + 1, c, l => l.getD (Config.choice c % l.length) 0 :: someLines n (c + 1) (l.eraseIdx (Config.choice c % l.length))

/-- The lines that a cache of some capacity gives up. -/
def surplus {α : Type} (s : State) (cap : Nat) (m : SMap α) : List Nat := someLines (m.length - cap) s.fresh (m.map Prod.fst)

/-- The lines of an L1 or of a slice of a fused one; of a node cache; of an L2 and of one step of the remote-read cache (R2, R246, R420). -/
def l1Lines : Nat := 1024
/-- Lines of a node cache. -/
def nodeLines : Nat := 512
/-- Lines of an L2. -/
def l2Lines : Nat := 262144

/-- The lines of the LLC behind a base die: 384 MiB less its share of the remote-read cache (R2, R246). -/
def llcLines (s : State) : Nat := 3145728 - 65536 * (s.die 0).regs.rrcsteps.toNat

/-- Each base die's slices give up the lines touched longest ago that do not fit. They hold the home's bytes, so that nothing is lost (R2; log
entry 10). -/
def trimLlc (s : State) : State :=
  if s.llc.length ≤ llcLines s then s
  else { s with llc := (List.range 4).flatMap fun b => (s.llc.filter fun l => l * 128 / 2 ^ 38 = b).take (llcLines s) }

/-- The caches give up what does not fit; an L2 writes a line back first. Which line goes is a free choice (R2, R244; log entry 10). -/
def trimCaches (s : State) : State :=
  let s := s.cores.foldl (fun s (e : Nat × Core) =>
    if e.2.l1.length ≤ l1Lines && e.2.node.length ≤ nodeLines then s
    else
      let a := surplus s l1Lines e.2.l1
      let b := surplus s nodeLines e.2.node
      { s.setCore e.1 { e.2 with l1 := smDrop (a.contains ·) e.2.l1, node := smDrop (b.contains ·) e.2.node } with fresh := s.fresh + a.length + b.length }) s
  let s := s.dies.foldl (fun s (e : Nat × Die) =>
    if e.2.l2.length ≤ l2Lines then s
    else
      let a := surplus s l2Lines e.2.l2
      let s := a.foldl (fun s l => writeBackLine s e.1 l) { s with fresh := s.fresh + a.length }
      s.setDie e.1 { s.die e.1 with l2 := smDrop (a.contains ·) (s.die e.1).l2 }) s
  let cap := l2Lines * (s.die 0).regs.rrcsteps.toNat
  if s.rrc.length ≤ cap then s
  else { s with rrc := smDrop ((surplus s cap s.rrc).contains ·) s.rrc, fresh := s.fresh + (s.rrc.length - cap) }

/-- Time passes: one step, on every die (log entry 4). -/
def State.pass (s : State) : State :=
  (List.range 8).foldl (fun s d => s.setDie d { s.die d with clock := (s.die d).clock + 1 }) { s with tick := s.tick + 1 }

/-- Another device's reads of this device's window are answered (R243). -/
def serveReads (s : State) : State :=
  let reads := s.net.filterMap fun m => match m with | .read dev job line => some (dev, job, line) | _ => none
  let s := if reads = [] then s else { s with net := s.net.filter fun m => match m with | .read _ _ _ => false | _ => true }
  reads.foldl (fun s (r : Nat × Nat × Nat) =>
    let x := exportLine s r.2.1 r.2.2
    { x.1 with out := x.1.out ++ [.line r.1 x.2] }) s

/-- What follows of itself: reads of the window are answered, runs whose release is done end, crews that wait no longer are no waiters (R200,
R243, R503). -/
def settle (s : State) : State := settleRuns (settleWaiters (serveReads s))

/-- The end of a step from `s` to `t`: what follows of itself, the code that the running launches see is kept, the caches keep their capacity, time
passes. -/
def State.endStep (s t : State) : State := (trimLlc (trimCaches (keepCode s (settle t)))).pass

/-- What leaves the device in a step is taken away before the next. -/
def State.sent (s : State) : State := { s with out := [] }

/-- The state that a word placed to be fetched next runs in: a team of 32 lanes of a running crew, within a clause that holds the word in
slot 1 and NOPs after it (log entry 5). -/
def placed (s : State) (w : W32) : State :=
  let c : Clause := { addr := 0x10000, header := 0x000FF05C, w1 := w, w2 := 0, w3 := 0 }
  let t : Team := {
    id := { alive := true, crew := 1, nregs := 128 }, live := fullMask 32, m := fullMask 32, pc := 0x10004, clause := some c }
  let s := { s with agenda := [] }
  { s.setCrew 1 { s.crew 1 with state := .run } with team := t }

end Sys2Proof.Machine
end

