-- ==== Sys2Proof/Machine/Step.lean ====
section
/-! DEFINITION. One step of the machine, and a word placed where the next step fetches it (log entries 3 to 5). -/

namespace Sys2Proof.Machine

/-- One step: what happens next happens, and the step ends. -/
def step (s : State) : Host.Outcome State Fault Refusal := mapNext s.endStep (turnOf s.sent)

/-- The state with an instruction of `nbits` bits where the next step takes its instruction (log entry 5). -/
def State.withFetchWord (s : State) (nbits w : Nat) : State := placed s (BitVec.ofNat 32 (w % 2 ^ nbits))

end Sys2Proof.Machine
end

