-- ==== Sys2Proof/Safety.lean ====
section
/-! DEFINITION. What claims call safe, and the words that claims are made in: a word that may issue, a word that runs, what changes and
what stays. -/

namespace Sys2Proof.Machine

/-- The memory of a state is in its canonical form. -/
abbrev State.memWf (s : State) : Prop := Memory.wf s.mem

/-- A run of `n` steps that does not stop. -/
def State.runs (s : State) : Nat → Bool
  | 0 => true
  | n + 1 =>
    match step s with
    | .next s' => s'.runs n
    | .fault _ => false
    | .refused _ => false

/-- Nothing stands between a word and its effect: its encoding is legal for the team that issues it, in its mode and on its core (R85),
it waits for no register, flag or quantum end (R27, R29, R273), and no register that it reads is marked (R254). -/
abbrev State.ready (s : State) (i : Instr) : Prop := issueCheck i s = none

/-- A word executes normally: its effect makes `s1` of the state and leaves control as `c` says, and then the word ends as every word
does (`endWord`). -/
abbrev Runs (i : Instr) (s s1 : State) (c : Ctl) : Prop := exec i s = .next (endWord i s s1 c)

/-- A word takes its exception `x`, from a state in which it has changed what `s1` says. -/
abbrev Traps (i : Instr) (s s1 : State) (x : TrapInfo) : Prop := exec i s = .next (s1.enterHandler s.team.faultPc x)

/-- A word waits, from a state in which it has changed what `s1` says. -/
abbrev Waits (i : Instr) (s s1 : State) (w : Wait) : Prop := exec i s = .next (s1.blockOn w)

/-- A scalar register as it stands. -/
def Team.sNow (t : Team) (k : Nat) : W32 := smGet 0 t.r.s k

/-- A lane of a vector register as it stands. -/
def Team.vNow (t : Team) (r l : Nat) : W32 := smGet 0 t.r.v (vKey r l)

/-- A predicate's lane as it stands; p0 is true. -/
def Team.pNow (t : Team) (p l : Nat) : Bool := p == 0 || (smGet 0 t.r.p p).getLsbD l

/-- Everything is as in `s` but the scalar registers `ks` with their markers: all of memory, every other register, the flags, the special
registers, the mode, the program counter. -/
def OnlyScalars (ks : List Nat) (s s1 : State) : Prop :=
  ∃ v m, s1 = { s with team := { s.team with r := { s.team.r with s := v, smarks := m } } } ∧
    ∀ k, k ∉ ks → smGet 0 v k = smGet 0 s.team.r.s k ∧ smGet none m k = smGet none s.team.r.smarks k

/-- Everything is as in `s` but the vector registers from `d` to `d + n - 1` with their markers, and of those only in the lanes of `ls`. -/
def OnlyLanes (d n : Nat) (ls : List Nat) (s s1 : State) : Prop :=
  ∃ v m, s1 = { s with team := { s.team with r := { s.team.r with v := v, vmarks := m } } } ∧
    ∀ r l, l < 1024 → (r < d ∨ d + n ≤ r ∨ l ∉ ls) →
      smGet 0 v (vKey r l) = smGet 0 s.team.r.v (vKey r l) ∧ smGet none m (vKey r l) = smGet none s.team.r.vmarks (vKey r l)

/-- The state with sticky flags raised in the team that issues. -/
def State.flagged (s : State) (f : Flags) : State := s.mapTeam fun t => t.raise f

/-- The flags that the lanes of a list raise together. -/
def flagsOf (ls : List Nat) (g : Nat → Flags) : Flags := ls.foldl (fun f l => f ||| g l) 0

/-- What a team keeps when a word of it ends: registers with markers, completion flags, queue registers, masks, join stack, SCC, class,
privilege, the trap, flag, fault and debug registers, what the engines hold. -/
def KeptAtWordEnd (a b : Team) : Prop :=
  a.id = b.id ∧ a.r = b.r ∧ a.busy = b.busy ∧ a.q = b.q ∧ a.live = b.live ∧ a.m = b.m ∧ a.join = b.join ∧ a.scc = b.scc ∧
  a.cls = b.cls ∧ a.sup = b.sup ∧ a.x = b.x ∧ a.asticky = b.asticky ∧ a.aenable = b.aenable ∧ a.sp = b.sp ∧ a.rf = b.rf ∧
  a.dbg = b.dbg ∧ a.eng = b.eng

/-- A word that, whenever it may issue, writes `f` to scalar register `d` and changes nothing else. -/
def ScalarWord (i : Instr) (d : Nat) (f : Team → W32) : Prop :=
  ∀ s, s.ready i → ∃ s1, Runs i s s1 .next ∧ OnlyScalars [d] s s1 ∧ s1.team.sNow d = f s.team

/-- A word that, whenever it may issue, writes the `n` words of `f l` to registers `d` to `d + n - 1` in every lane `l` of its effective
mask, raises the flags `g l`, and changes nothing else. -/
def LaneWord (i : Instr) (d n : Nat) (f : Team → Nat → Nat) (g : Team → Nat → Flags) : Prop :=
  ∀ s, s.ready i → ∃ s1, Runs i s (s1.flagged (flagsOf s.team.lanes (g s.team))) .next ∧ OnlyLanes d n s.team.lanes s s1 ∧
    ∀ l ∈ s.team.lanes, ∀ k < n, s1.team.vNow (d + k) l = BitVec.ofNat 32 (f s.team l / 2 ^ (32 * k))

/-- The completion flags of a team once a word that takes its flag has issued (R26, R53). -/
def Team.busyNow (t : Team) : BitVec 12 := match t.llFlag with | none => t.busy | some f => t.busy ||| (1#12 <<< f)

/-- The operation that a word of the team that issues starts: the next number, the team and its crew, the flag it takes. -/
def State.newOp (s : State) (k : OpKind) : Op :=
  { id := s.nextOp, team := s.team.key, crew := s.team.id.crew, gen := (s.crew s.team.id.crew).gen, flag := s.team.llFlag, kind := k }

/-- The state with an operation started and some registers pending; everything else, every byte of memory among it, is as in `s`. -/
def State.started (s : State) (k : OpKind) (vp sp : SMap Nat) : State :=
  { s with
    ops := s.ops ++ [s.newOp k], nextOp := s.nextOp + 1,
    team := { s.team with busy := s.team.busyNow, r := { s.team.r with vpend := vp, spend := sp } } }

/-- What a load that issues leaves (R252, R255): its operation is started with the bytes `h` of its team's buffer over it; behind an atomic that
the quantum defers it is among the items of the commit, without those bytes (log entry 89). -/
def State.loadStarted (s : State) (k : List (Nat × Byte) → OpKind) (h : List (Nat × Byte)) (vp sp : SMap Nat) : State :=
  if behindDeferred s (k h) then
    (s.started (k []) vp sp).mapTeam fun t => { t with dq := { t.dq with items := t.dq.items ++ [.load s.nextOp] } }
  else s.started (k h) vp sp

/-- The byte that a list of stores leaves at a place, the last one that covers it; none when none does. -/
def storedByte (l : List (Nat × List Byte)) (pa : Nat) : Option Byte :=
  l.foldl (fun x e => if e.1 ≤ pa ∧ pa < e.1 + e.2.length then some (e.2.getD (pa - e.1) 0) else x) none

/-- The state once what the other cores of a fused cluster hold of the lines of some bytes has reached L2, byte by byte (R245, R266); in a cluster
that is not fused, the state itself. -/
def State.othersOut (s : State) (d k : Nat) (pas : List Nat) : State := pas.foldl (fun s pa => drainOthers s d k (pa / 128)) s

/-- The addresses of the bytes of a list of stores. -/
def storePas (l : List (Nat × List Byte)) : List Nat := l.flatMap fun e => (List.range e.2.length).map (e.1 + ·)

/-- Two states differ in what write buffers, L1s, node caches, L2s and the LLC hold, and in nothing else but the progress count. -/
def OnlyCaches (s s1 : State) : Prop :=
  (∃ c d p l, s1 = { s with cores := c, dies := d, progress := p, llc := l }) ∧
  (∀ k, ∃ w a n, s1.core k = { s.core k with wb := w, l1 := a, node := n }) ∧ ∀ d, ∃ l, s1.die d = { s.die d with l2 := l }

/-- A value is `a` where a condition holds, and `b` where it does not. -/
def Either {α : Type} (x : α) (p : Prop) (a b : α) : Prop := (p → x = a) ∧ (¬p → x = b)

/-- A physical line holds bytes of a local range of a context, read through the page tables for a die (R263). -/
def State.inRange (s : State) (ctx d va n line : Nat) : Prop :=
  ∃ p e pa big, walk s ctx (p * 65536) = .leaf e pa big ∧ line * 128 / 65536 = leafPa d { e := e, large := big } (p * 65536) / 65536 ∧
    p * 65536 + line * 128 % 65536 < va + n ∧ va < p * 65536 + line * 128 % 65536 + 128

/-- What a lane of a load of the team with an operation's key gets: the bytes of the scratchpad, of the home with what its core has stored in it, or as
its core reads them, or a marker with the line's address where they are poisoned; with the bytes that its team's quantum buffer holds over them
(R247, R254, R255, R272). -/
def State.laneGot (s : State) (o : Op) (sp : Space) (n : Nat) (a : LaneAcc) (held : List (Nat × Byte)) : Got :=
  let t := s.teamAt o.team; let d := t.id.die; let k := t.id.core
  let c := settleLine s d k (a.pa / 128)
  heldOver held a.pa n <| match sp with
    | .scratch => readScratch s o.crew n a
    | .home => if anyPoison c a.pa n then .bad (.data (a.va &&& ~~~0x7F#64)) else .val (homeBytes c a.pa n)
    | _ => if plainPoison s d k a.pa n then .bad (.data (a.va &&& ~~~0x7F#64)) else .val (plainBytes (fillL1 s d k (a.pa / 128)) d k a.pa n)

/-- The completion flags of an operation's team once it has completed: its own clears unless another operation of the team holds it (R28). -/
def State.busyAfter (s : State) (o : Op) : BitVec 12 :=
  let b := (s.teamAt o.team).busy
  match o.flag with
  | none => b
  | some f => if s.ops.any fun x => x.id ≠ o.id && x.team = o.team && x.flag = some f then b else b &&& ~~~(1#12 <<< f)

/-- Nothing that has started before the matrix word of the team that issues conflicts with it (R351, R352): what it reads and writes. -/
def State.matFree (s : State) (r : BitVec 64 × BitVec 64) : Prop :=
  matBlocked s s.team.id.crew
    ((((s.crew s.team.id.crew).mat.starts.find? fun w => w.team = s.team.id.tno).map fun w => w.stamp).getD s.nextOp) r = false

/-- The place in start order of the matrix word of the team that issues: the one that it took when it began to wait, else the next (R351). -/
def State.matStamp (s : State) : Nat :=
  (((s.crew s.team.id.crew).mat.starts.find? fun w => w.team = s.team.id.tno).map fun w => w.stamp).getD s.nextOp

/-- The state once the matrix word of the team that issues waits no longer at the start point. -/
def State.matGo (s : State) : State :=
  s.mapMat s.team.id.crew fun m => { m with starts := m.starts.filter fun w => w.team ≠ s.team.id.tno }

/-- The state with the operation of a matrix word started at its place in start order (R351); every byte of memory is as in `s`. -/
def State.matStarted (s : State) (k : OpKind) : State :=
  { s.matGo with
    ops := s.ops ++ [{ s.newOp k with id := s.matStamp }], nextOp := max s.nextOp (s.matStamp + 1),
    team := { s.team with busy := s.team.busyNow } }

/-- The run of a plan has ended with a STATE and a REASON; one that releases at POD or SYS may wait for its elements still (R34, R262, R503). -/
def Plan.endsAs (p : Plan) (s : State) (state reason : Nat) : Prop :=
  (p.state = state ∧ p.reason = reason) ∨ (p.state = 1 ∧ p.run.ending = some (state, reason) ∧ 5 ≤ s.meant p.run.team (p.run.rel.getD 0))

/-- The matrix state of the crew of the team that issues. -/
def State.matNow (s : State) : Matrix := (s.crew s.team.id.crew).mat

/-- A record that a die's launch engine accepts completes no launch, its die is one of the package, and its table's generations are in their range. -/
def mayAccept (s : State) (d ctx : Nat) (w : List W64) : Prop :=
  d < 8 ∧ (∀ k, (s.launchAt d k).gen < 2 ^ 20) ∧ firstDone (acceptLaunch s d ctx w none).1 = none

/-- `u` holds, in an entry that is free in `s`, the launch of the record `w` of a context under the handle `h`, with the entry's next generation: HELD
while its AFTER event is short of its count, else PENDING with OUTQ attached; the table's other entries are those of `s` (R171, R177). -/
def Accepted (s u : State) (d ctx : Nat) (w : List W64) (h : Nat) : Prop :=
  ∃ k < 512, let old := s.launchAt d k; let e := u.launchAt d k; let held := ∃ v, lAfter w = some v ∧ (s.event v).count.toNat < lAftCount w
    old.state = .free ∧ e.gen = (if old.gen = 2 ^ 20 - 1 then 1 else old.gen + 1) ∧ h = handleOf d k e.gen ∧ e.words = w ∧ e.ctx = ctx ∧ e.ring = none ∧
    (held → e.state = .held) ∧ (¬held → e.state = .pending) ∧ (∀ j, j ≠ k → u.launchAt d j = s.launchAt d j) ∧ u.events = s.events ∧
    (∀ n, lInq w = some n → (u.rq n).fed = h) ∧ ∀ n, lOutq w = some n → ¬held → (u.rq n).producers = (s.rq n).producers + 1 ∧ e.attached = true

/-- The `n` bytes at a base and offset as a number, where the ray has their line (R402). -/
def Ray.held (r : Ray) (base : W64) (off n : Nat) : Option Nat :=
  (rayVa base off).bind fun va => (r.lines.find? fun l => l.1 = va / 128).map fun l => bitsAt l.2.toNat (8 * (va % 128)) (8 * n)

end Sys2Proof.Machine
end

