-- ==== Sys2Proof/WellFormed.lean ====
section
/-! DEFINITION. Which terms of Instr are legal instruction words: a word of the opcode map, its codes accepted, no reserved value, its
registers within the declared count and its groups whole (spec/02_clauses_and_encoding.md R68 to R70, R79, R84). -/

namespace Sys2Proof

/-- An instruction word, or a prefix, and no step of the machine on its own (R81). -/
def Instr.isWord (i : Instr) : Bool := (encodeParts i).isSome

/-- Its sub-code is assigned, and it accepts its T, type and size codes: no ILL.OP (R82, R84). -/
def Instr.codesOk (i : Instr) : Bool := (Machine.usage i).op

/-- It has no reserved value in a field: no ILL.RSV (R84). -/
def Instr.fieldsOk (i : Instr) : Bool := !(Machine.usage i).rsv

/-- Its registers exist for a team of `n` vector registers and its groups start where they may: no ILL.REG (R79, R84). -/
def Instr.regsOk (n : Nat) (i : Instr) : Bool :=
  let u := Machine.usage i
  let ok : Nat → Machine.Span → Bool := fun n x => x.1 % x.2.2 == 0 && decide (x.1 + x.2.1 ≤ n)
  !u.regBad && (u.vr ++ u.vw ++ u.vall ++ u.vchk).all (ok n) && (u.sr ++ u.sw).all (ok 64)

/-- A legal word for a team of `n` vector registers (R84). -/
def Instr.wellFormed (n : Nat) (i : Instr) : Bool := i.isWord && i.codesOk && i.fieldsOk && i.regsOk n

end Sys2Proof
end

