-- ==== Sys2Proof/Certificates/Slice0/Obligations.lean ====
section
/-! DEFINITION. The statements for the provers. A docstring names the rules that a statement formalises, or says that it is the
model's own. -/

open Sys2Proof Sys2Proof.Machine

/-! ### Decoding, steps, reset, exceptions -/

/-- R59, R67, R68: the word that encodes an instruction, with either chain bit, decodes to that instruction with every operand. -/
def Obligations.EncodedWordDecodesBack : Prop :=
  ∀ (i : Instr) (c : BitVec 1) (w : W32), encodeWord c i = some w → decode w = .ok i ∧ chainBit w = (c == 1#1)

/-- R68: a word that decodes is the one encoding of its instruction with its chain bit, so a bit set in a field that the
instruction does not use keeps a word from decoding. -/
def Obligations.DecodedWordHasOneEncoding : Prop :=
  ∀ (w : W32) (i : Instr), decode w = .ok i → encodeWord (w.extractLsb' 31 1) i = some w

/-- Words written out bit by bit from the encoding tables of R59, R61, R67, R138: NOP; the same with its chain bit; a word whose opcode
is 0x7F; SADD s3, s4, s5; a NOP with an unused bit set. -/
def Obligations.WordsFromTheTables : Prop :=
  decode 0x00000000 = .ok .nop ∧ decode 0x80000000 = .ok .nop ∧ decode 0xFFFFFFFF = .error .unassigned ∧
  decode 0x0A018828 = .ok (.sadd 0 3 4 5) ∧ decode 0x00000001 = .error (.reserved .nop)

/-- R82: opcode 0x7F and the opcodes that no chapter assigns decode to nothing, whatever the other bits; and the word as it stands in an
open clause, not chained and without a prefix, raises ILL.OP with itself in XVAL.

R84 to R86: a word that issues alone and whose encoding is not legal for its team takes the exception that R85 finds first, with the
word in XVAL and its own program counter or that of its first prefix in XPC, and has none of its effect.

R79, R84, R85: the order of the checks: an unassigned code or a prefix that the word does not take (ILL.OP), the wrong engine on a control
core (ILL.ENG), privilege (PRIV), a reserved value of the word, of its prefix or of the immediate (ILL.RSV), a register that breaks the word's rule, is
not the first of its group, or lies with its group beyond the team's vector registers or s63 (ILL.REG); a word that passes them all is legal. -/
def Obligations.IllegalWords : Prop :=
  ((∀ w : W32, (w.extractLsb' 24 7).toNat ∈ [0x17, 0x18, 0x19, 0x1A, 0x1B, 0x49, 0x4A, 0x4B, 0x4C, 0x4D, 0x4E, 0x4F, 0x5F, 0x7F] →
    decode w = .error .unassigned) ∧
  ∀ (w : W32) (s : State), decode w = .error .unassigned → s.team.word = w →
    wordStep s = .next (s.enterHandler s.team.faultPc { code := codeOp, val := w.setWidth 64 })) ∧
  (∀ (i : Instr) (s : State) (k : Nat), i.isWord = true → (∀ x, i ≠ .imx x) → (∀ n p, i ≠ .grd n p) →
    illegal (usage i) s.team false = some k →
    Traps i s s { code := k, val := (s.team.curWord i).setWidth 64 }) ∧
  (∀ (u : Usage) (t : Team),
    let noOp := u.op = false ∨ (t.pfx.imm ≠ none ∧ takesImx u = false) ∨ (t.pfx.grd ≠ none ∧ u.guardable = false)
    let rsv := u.rsv = true ∨ t.pfx.rsv = true ∨ imxRsv u t.pfx.imm = true
    let beyond : Nat → Span → Prop := fun n x => x.1 % x.2.2 ≠ 0 ∨ n < x.1 + x.2.1
    let reg := u.regBad = true ∨ (∃ x ∈ u.vr ++ u.vw ++ u.vall ++ u.vchk, beyond t.id.nregs x) ∨ ∃ x ∈ u.sr ++ u.sw, beyond 64 x
    (noOp → illegal u t false = some codeOp) ∧
    (¬noOp →
      (u.engine = true → t.onControl = true → illegal u t false = some codeEng) ∧
      ((u.engine = false ∨ t.onControl = false) →
        (u.priv = true → t.supSrc = false → illegal u t false = some codePriv) ∧
        ((u.priv = false ∨ t.supSrc = true) →
          (rsv → illegal u t false = some codeRsv) ∧
          (¬rsv → (reg → illegal u t false = some codeReg) ∧ (¬reg → illegal u t false = none))))))

/-- R57: when the team that issues stands in an open clause, with nothing on the agenda, at a word that is not chained and decodes, a step
is that instruction's meaning, after an acquire that an earlier atomic left to do, and then the step ends as every step does (the
model's own: log entries 3, 4, 10 and 40). -/
def Obligations.StepRunsTheDecodedWord : Prop :=
  ∀ (s : State) (i : Instr), midClause s.sent = true → s.agenda = [] → chainBit s.team.word = false → decode s.team.word = .ok i →
    (s.team.pfx.pc = none → step s = mapNext s.endStep (exec i (settleAcq s.sent))) ∧
    (s.team.pfx.pc ≠ none → step s = mapNext s.endStep (exec i s.sent))

/-- R65: in a chained group a word reads the scalar registers, vector registers, predicates and M that stood before the group, whatever
the words of the group have written. -/
def Obligations.GroupedWordsReadOldValues : Prop :=
  ∀ (t : Team) (g : Group), t.group = some g →
    (∀ k v j, (t.setS k v).getS j = smGet 0 g.r.s j) ∧
    (∀ r l v r' l', (t.setV r l v).getV r' l' = smGet 0 g.r.v (vKey r' l')) ∧
    (∀ p m v q, (t.setP p m v).getP q = if q = 0 then BitVec.allOnes 1024 else smGet 0 g.r.p q) ∧
    ∀ m, ({ t with m := m } : Team).mSrc = g.m

/-- Every step keeps the canonical form of memory: addresses rise, and no byte is listed that reads as an unlisted one. -/
def Obligations.StepKeepsMemoryCanonical : Prop :=
  ∀ s s' : State, s.memWf → step s = .next s' → s'.memWf

/-- Memory after reset is in its canonical form, and every byte of it reads as the byte that log entry 1 chooses. -/
def Obligations.ResetMemoryCanonical : Prop :=
  State.reset.memWf ∧ ∀ d k pa, plainByte State.reset d k pa = memDefault

/-- R36, R174, R199, R246, R281, R288, R439: the values that the tables of the control blocks give for reset; no launch, crew or
operation stands, and the team that issues is none. -/
def Obligations.ResetValues : Prop :=
  State.reset.team.id.alive = false ∧ State.reset.ops = [] ∧ (∀ c, (State.reset.crew c).state = .none) ∧
  (∀ k n, (smGet {} (State.reset.core k).slots n).valid = false) ∧
  ∀ d, (State.reset.die d).launches = [] ∧ (State.reset.die d).regs.waitlim = 0x00100000 ∧ (State.reset.die d).regs.inval = 0 ∧
    (State.reset.die d).regs.missReg = 0 ∧ (State.reset.die d).regs.rrcsteps = 0 ∧ (State.reset.fab d).agelim = 4096 ∧
    (State.reset.fab d).rtimeout = 0x01000000 ∧ (State.reset.fab d).devno = 0 ∧ (State.reset.fab d).jobs = [] ∧
    (State.reset.arb d).pool = 825 ∧ (State.reset.arb d).ramp = 64 ∧ (State.reset.arb d).inuse = 0

/-- R155: taking an exception in user state, with an XVEC that a clause can be fetched from: XPC, XCAUSE, XVAL and XMASK are written, M
is saved and becomes XMASK, the team enters supervisor state at XVEC; nothing else of the machine changes but what the team had in
force for the word.

R155: an exception in supervisor state terminates the crew with TRAP.NEST: no team of it lives on, its cause is kept unless it has
one, and memory, the other crews and the trap registers are as they were. -/
def Obligations.TakingAnException : Prop :=
  (∀ (s : State) (pc : W64) (i : TrapInfo), s.team.sup = false → pcOk s.team.x.xvec = true →
    let t := (s.enterHandler pc i).team
    t.x.xpc = pc ∧ t.x.code = BitVec.ofNat 8 i.code ∧ t.x.detail = BitVec.ofNat 8 i.detail ∧ t.x.xval = i.val ∧
    t.x.xmask = i.mask.getD s.team.m ∧ t.x.saved = s.team.m ∧ t.sup = true ∧ t.m = t.x.xmask ∧ t.pc = s.team.x.xvec ∧
    t.x.xvec = s.team.x.xvec ∧ t.r = s.team.r ∧ t.busy = s.team.busy ∧ t.q = s.team.q ∧ t.live = s.team.live ∧ t.join = s.team.join ∧
    t.scc = s.team.scc ∧ t.cls = s.team.cls ∧ t.asticky = s.team.asticky ∧ t.aenable = s.team.aenable ∧ t.rf = s.team.rf ∧
    t.dbg = s.team.dbg ∧ t.eng = s.team.eng ∧ t.dq = s.team.dq ∧ s.enterHandler pc i = { s with team := t }) ∧
  (∀ (s : State) (pc : W64) (i : TrapInfo), s.team.sup = true →
    let s' := s.enterHandler pc i
    s'.team.id.alive = false ∧ (∀ e ∈ s'.others, e.2.id.crew = s.team.id.crew → e.2.id.alive = false) ∧
    (s'.crew s.team.id.crew).cause = some ((s.crew s.team.id.crew).cause.getD causeNest) ∧
    (∀ c, c ≠ s.team.id.crew → s'.crew c = s.crew c) ∧ s'.team.x = s.team.x ∧ s'.team.r = s.team.r ∧ s'.mem = s.mem)

/-- R155, R289: TRET and PRET in supervisor state, with an XPC whose bits [1:0] and [63:48] are zero: M comes from the saved mask's lanes that live
(R129; all live lanes where none of those lives: the model's choice, log entry 99), the team is in user state and goes on at XPC; with another XPC the exception is ILL.PC, which in supervisor state ends the crew. PRET waits while a
PMAP of the team has not completed. -/
def Obligations.ReturnFromException : Prop :=
  ∀ s : State, let m := if s.team.x.saved &&& s.team.live = 0 then s.team.live else s.team.x.saved &&& s.team.live
    (s.ready .tret → s.team.x.xpc.extractLsb' 0 2 = 0 → pcOk s.team.x.xpc = true →
      Runs .tret s { s with team := { s.team with m := m, sup := false } } (.go s.team.x.xpc)) ∧
    (s.ready .tret → (s.team.x.xpc.extractLsb' 0 2 ≠ 0 ∨ pcOk s.team.x.xpc = false) →
      Traps .tret s s { code := codePc, val := s.team.x.xpc })
    ∧ (s.ready .pret → pmapBusy s s.team.key = true → Waits .pret s s .pending)
    ∧ (s.ready .pret → pmapBusy s s.team.key = false →
      (s.team.x.xpc.extractLsb' 0 2 = 0 → pcOk s.team.x.xpc = true →
        Runs .pret s { s with team := { s.team with m := m, sup := false } } (.go s.team.x.xpc)) ∧
      ((s.team.x.xpc.extractLsb' 0 2 ≠ 0 ∨ pcOk s.team.x.xpc = false) → Traps .pret s s { code := codePc, val := s.team.x.xpc }))

/-- R57, R87: how a word that ran alone ends, when no undo log is kept and STEP does not trap. Control left to the next slot: the program
counter names it, or the next clause after slot 3, and the clause is left then. A transfer: the program counter is its target and the
clause is left. Everything else is as the word's effect left it, every byte of memory among it. A transfer to an address that cannot be
fetched is ILL.PC instead, with the state before the word.

R155: with STEP set, a user-state word that ends at the next slot enters the handler at once with STEP, XPC naming that slot.

R160: with UNDO set, a user-state word that ends at the next slot leaves a record of 16 bytes at UNDOBASE + UNDOHEAD: with REG 0xFF when it writes no
scalar register, with the register and its value before the word when it writes one, or SCC; UNDOHEAD advances by 16 modulo UNDOLEN, and no other byte
changes. When the log's address does not translate for writing, UNDO clears and UFLT is set.

R273: outside supervisor state a team of deterministic quantum mode counts the words of its quantum and stands at its end after the
Q-th. -/
def Obligations.WordEnd : Prop :=
  (∀ (i : Instr) (s s1 : State), s.team.group = none → (s.team.sup = true ∨ (s.team.dbg.undo = false ∧ s.team.dbg.step = false)) →
    (∀ pc, pcOk pc = false → endWord i s s1 (.go pc) = s.enterHandler s.team.faultPc { code := codePc, val := pc }) ∧
    ∀ c pc, (c = .go pc ∧ pcOk pc = true) ∨ (c = .next ∧ pc = pcNext s.team.pc ∧ (pcSlot pc ≠ 0 ∨ pcOk pc = true)) →
      let t := endWord i s s1 c
      t.team.pc = pc ∧ t.team.clause = (if c = .next ∧ pcSlot pc ≠ 0 then s1.team.clause else none) ∧ t.team.pfx = {} ∧
      KeptAtWordEnd t.team s1.team ∧ t = { s1 with team := t.team, progress := s1.progress + 1 } ∧
      ∀ d k pa, plainByte t d k pa = plainByte s1 d k pa) ∧
  (∀ (i : Instr) (s s1 : State), s.team.group = none → s.team.sup = false → s1.team.sup = false → s.team.dbg.undo = false →
    s.team.dbg.step = true → pcSlot (pcNext s.team.pc) ≠ 0 →
    ∃ u : State, endWord i s s1 .next = u.enterHandler (pcNext s.team.pc) { code := codeStep } ∧ KeptAtWordEnd u.team s1.team ∧
      u = { s1 with team := u.team, progress := s1.progress + 1 }) ∧
  (∀ (i : Instr) (s s1 : State) (r : Nat) (old : W32), let t := s1.team; let d := t.id.die; let k := t.id.core
    s.team.group = none → s.team.sup = false → s.team.dbg.undo = true → s.team.dbg.step = false → t.dbg.undo = true →
    pcSlot (pcNext s.team.pc) ≠ 0 →
    (undoRegs (usage i) = [] ∧ r = 0xFF ∧ old = 0) ∨
      (undoRegs (usage i) = [r] ∧ old = if r = 64 then s.team.scc.setWidth 32 else smGet 0 s.team.r.s r) →
    let u := endWord i s s1 .next; let head := t.dbg.head.toNat % t.dbg.len.toNat; let va := t.dbg.base + BitVec.ofNat 64 head
    (∀ s2 pa, vaClass va = .localVa → transNow s1 d t.id.ctx va .write false = (s2, .ok pa) →
      let bs := leBytes s.team.faultPc.toNat 8 ++ [BitVec.ofNat 8 r, 0, 0, 0] ++ leBytes old.toNat 4
      u.team.dbg = { t.dbg with head := BitVec.ofNat 32 ((head + 16) % t.dbg.len.toNat) } ∧
      ∀ q, plainByte u d k q = (storedByte [(pa, bs)] q).getD (plainByte (s2.othersOut d k (storePas [(pa, bs)])) d k q)) ∧
    ((vaClass va ≠ .localVa ∨ ∃ s2 e, transNow s1 d t.id.ctx va .write false = (s2, .error e)) →
      u.team.dbg = { t.dbg with undo := false, uflt := true } ∧ ∀ q, plainByte u d k q = plainByte s1 d k q)) ∧
  (∀ (i : Instr) (s s1 : State) (q : Nat), s.team.group = none → s.team.sup = false → s.team.dbg.undo = false → s.team.dbg.step = false →
    s.team.id.quantum = some q → (usage i).counted = true → pcSlot (pcNext s.team.pc) ≠ 0 → s1.team.dq.full = false → s1.team.dq.atEnd = false →
    let t := (endWord i s s1 .next).team
    t.dq.count = s1.team.dq.count + 1 ∧ (t.dq.atEnd = true ↔ q ≤ s1.team.dq.count + 1))

/-- R73, R75, R76: a prefix that may precede the word after it leaves its immediate, or its guard, in force for that word and names the
next slot.

R26, R52, R55, R151: CLAUSE_START for a team that may issue and has no open clause, whose clause, as the launch sees it (R89), is translated, unpoisoned and
legal, with no flag of WAIT busy: the clause is open, the program counter names slot 1, or stays at the slot it resumes at; the teams
passed over count it (R152). -/
def Obligations.PrefixesAndClauseStart : Prop :=
  (∀ s : State,
    (∀ v, prefFault s.team takesImx = none →
      exec (.imx v) s = .next { s with team := { s.team with
        pfx := { s.team.pfx with imm := some v, pc := some (s.team.pfx.pc.getD s.team.pc) }, pc := s.team.pc + 4, note := .done } }) ∧
    ∀ n p, prefFault s.team (fun u => u.guardable) = none →
      exec (.grd n p) s = .next { s with team := { s.team with
        pfx := { s.team.pfx with grd := some (n = 1, p.toNat), pc := some (s.team.pfx.pc.getD s.team.pc) }, pc := s.team.pc + 4,
        note := .done } }) ∧
  (∀ (s : State) (l : Leaf), let key := teamKey s.site.crew s.site.team; let tm := s.teamAt key
    tm.key = key → canIssue s tm = true → tm.clause = none → tm.eng.acq = none → pcOk (pcClause tm.pc) = true →
    lookup s tm.coreK key tm.id.ctx (pcClause tm.pc) .fetch tm.sup = .hit l →
    let pa := leafPa tm.id.die l (pcClause tm.pc).toNat
    let c := clauseAt s (s.crew tm.id.crew).since (pcClause tm.pc) pa
    anyPoison s pa 16 = false → c.fault = none → (pcSlot tm.pc = 0 → c.header.extractLsb' 20 12 &&& tm.busy = 0) →
    ∃ t, exec .clauseStart s = .next { (passOver s key).checkOut key with team := t, progress := s.progress + 1 } ∧ t.clause = some c ∧
      t.pc = (if pcSlot tm.pc = 0 then tm.pc + 4 else tm.pc) ∧ KeptAtWordEnd t tm)

/-! ### The sequencer's words -/

/-- R138, R141: the scalar words that compute, in their register and immediate forms: sD receives the result and nothing else changes. A
shift by 32 or more gives 0, or the sign in every bit.

R139, R140, R141: SDIV writes the quotient rounded towards zero, 0xFFFF_FFFF with IDZ for a divisor of 0, and 0x8000_0000 with OF where
the signed quotient does not fit; SCMP writes the condition to sD and EQ, signed LT and LTU to SCC; SADD64 adds even pairs. -/
def Obligations.ScalarWords : Prop :=
  ((∀ t d a b, ScalarWord (.sadd t d a b) d.toNat fun m => m.getS a.toNat + m.getS b.toNat) ∧
  (∀ t d a b, ScalarWord (.ssub t d a b) d.toNat fun m => m.getS a.toNat - m.getS b.toNat) ∧
  (∀ t d a b, ScalarWord (.smul t d a b) d.toNat fun m => m.getS a.toNat * m.getS b.toNat) ∧
  (∀ d a b, ScalarWord (.smulh 0 d a b) d.toNat fun m => BitVec.ofInt 32 ((m.getS a.toNat).toInt * (m.getS b.toNat).toInt / 2 ^ 32)) ∧
  (∀ d a b, ScalarWord (.smulh 1 d a b) d.toNat fun m => BitVec.ofNat 32 ((m.getS a.toNat).toNat * (m.getS b.toNat).toNat / 2 ^ 32)) ∧
  (∀ d a b, ScalarWord (.smin 0 d a b) d.toNat fun m => if (m.getS a.toNat).sle (m.getS b.toNat) then m.getS a.toNat else m.getS b.toNat) ∧
  (∀ d a b, ScalarWord (.smin 1 d a b) d.toNat fun m => if (m.getS a.toNat).ule (m.getS b.toNat) then m.getS a.toNat else m.getS b.toNat) ∧
  (∀ d a b, ScalarWord (.smax 0 d a b) d.toNat fun m => if (m.getS a.toNat).sle (m.getS b.toNat) then m.getS b.toNat else m.getS a.toNat) ∧
  (∀ d a b, ScalarWord (.smax 1 d a b) d.toNat fun m => if (m.getS a.toNat).ule (m.getS b.toNat) then m.getS b.toNat else m.getS a.toNat) ∧
  (∀ d a b, ScalarWord (.sand d a b) d.toNat fun m => m.getS a.toNat &&& m.getS b.toNat) ∧
  (∀ d a b, ScalarWord (.sor d a b) d.toNat fun m => m.getS a.toNat ||| m.getS b.toNat) ∧
  (∀ d a b, ScalarWord (.sxor d a b) d.toNat fun m => m.getS a.toNat ^^^ m.getS b.toNat) ∧
  (∀ d a b, ScalarWord (.sshl d a b) d.toNat fun m => BitVec.ofNat 32 ((m.getS a.toNat).toNat * 2 ^ (m.getS b.toNat).toNat)) ∧
  (∀ d a b, ScalarWord (.sshr d a b) d.toNat fun m => BitVec.ofNat 32 ((m.getS a.toNat).toNat / 2 ^ (m.getS b.toNat).toNat)) ∧
  (∀ d a b, ScalarWord (.ssra d a b) d.toNat fun m => BitVec.ofInt 32 ((m.getS a.toNat).toInt / 2 ^ (m.getS b.toNat).toNat)) ∧
  (∀ d a b, ScalarWord (.ssel d a b) d.toNat fun m => if m.getS d.toNat = 0 then m.getS b.toNat else m.getS a.toNat) ∧
  (∀ d a, ScalarWord (.smov d a) d.toNat fun m => m.getS a.toNat) ∧
  (∀ d i, ScalarWord (.sli d i) d.toNat fun m => m.imm32 i) ∧
  (∀ d a i, ScalarWord (.saddImmediate d a i) d.toNat fun m => m.getS a.toNat + m.imm32 i) ∧
  (∀ d a n, ScalarWord (.sshlImmediate d a n) d.toNat fun m => m.getS a.toNat <<< n.toNat) ∧
  (∀ d a n, ScalarWord (.sshrImmediate d a n) d.toNat fun m => m.getS a.toNat >>> n.toNat) ∧
  ∀ d a n, ScalarWord (.ssraImmediate d a n) d.toNat fun m => (m.getS a.toNat).sshiftRight n.toNat) ∧
  (∀ (s : State) (d a b : BitVec 6) (k : BitVec 3), let x := s.team.getS a.toNat; let y := s.team.getS b.toNat
    (∀ t, s.ready (.sdiv t d a b) → ∃ s1 f q, Runs (.sdiv t d a b) s (s1.flagged f) .next ∧ OnlyScalars [d.toNat] s s1 ∧
      s1.team.sNow d.toNat = q ∧
      (y = 0 → q = 0xFFFFFFFF ∧ f = flagIDZ) ∧ (t = 0 → x = 0x80000000 → y = 0xFFFFFFFF → q = 0x80000000 ∧ f = flagOF) ∧
      (y ≠ 0 → (t = 0 → ¬(x = 0x80000000 ∧ y = 0xFFFFFFFF)) → f = 0 ∧
        q = if t = 0 then BitVec.ofInt 32 (x.toInt.tdiv y.toInt) else BitVec.ofNat 32 (x.toNat / y.toNat))) ∧
    (∀ t, s.ready (.scmp t d a b k) → ∃ s1, Runs (.scmp t d a b k) s { s1 with team := { s1.team with
        scc := BitVec.ofBool (x.ult y) ++ BitVec.ofBool (x.slt y) ++ BitVec.ofBool (x == y) } } .next ∧ OnlyScalars [d.toNat] s s1 ∧
      s1.team.sNow d.toNat = if scmpHolds k (if t = 0 then x.slt y else x.ult y) (x == y) then 1 else 0) ∧
    (s.ready (.sadd64 d a b) → ∃ s1, Runs (.sadd64 d a b) s s1 .next ∧ OnlyScalars [d.toNat, d.toNat + 1] s s1 ∧
      s1.team.sNow (d.toNat + 1) ++ s1.team.sNow d.toNat = s.team.getS64 a.toNat + s.team.getS64 b.toNat))

/-- R71: a branch target is the word's clause address plus 16 times the offset, sign-extended, or the 32-bit offset that IMX forms.

R61, R71, R135, R136: NOP does nothing; BRA goes to its target; BRS goes there when its condition holds of SCC and falls through
otherwise; CALL writes the address of the next clause to s62:s63; RET goes to the address in its pair, or raises ILL.PC when bits [3:0] of
it are not zero. -/
def Obligations.BranchesAndCalls : Prop :=
  (∀ (t : Team) (o : BitVec 20),
    (t.pfx.imm = none → t.target o = (t.pc &&& ~~~0xF#64) + BitVec.ofInt 64 (16 * o.toInt)) ∧
    ∀ i, t.pfx.imm = some i → t.target o = (t.pc &&& ~~~0xF#64) + BitVec.ofInt 64 (16 * (i ++ o.setWidth 8 : BitVec 32).toInt)) ∧
  (∀ s : State,
    (s.ready .nop → Runs .nop s s .next) ∧
    (∀ o, s.ready (.bra o) → Runs (.bra o) s s (.go (s.team.target o))) ∧
    (∀ k o, s.ready (.brs k o) → Runs (.brs k o) s s (if brsHolds k s.team.scc then .go (s.team.target o) else .next)) ∧
    (∀ o, s.ready (.call o) → ∃ s1, Runs (.call o) s s1 (.go (s.team.target o)) ∧ OnlyScalars [62, 63] s s1 ∧
      s1.team.sNow 63 ++ s1.team.sNow 62 = pcClause s.team.pc + 16) ∧
    (∀ a, s.ready (.ret a) → (s.team.getS64 a.toNat).extractLsb' 0 4 = 0 → Runs (.ret a) s s (.go (s.team.getS64 a.toNat))) ∧
    ∀ a, s.ready (.ret a) → (s.team.getS64 a.toNat).extractLsb' 0 4 ≠ 0 →
      Traps (.ret a) s s { code := codePc, val := s.team.getS64 a.toNat })

/-- R137: the words of divergence. MARK pushes an entry with the target and M, or raises JOIN.OVF at 32. BRV with every lane of M selected
goes, with none falls through; with some it leaves the others in OTHER of the top entry with the slot after it as OPC and goes with the
selected; without a free top entry it raises JOIN.DIV. ELSE and JOIN take up the lanes left in OTHER that live, at OPC; otherwise ELSE goes
to RJ and JOIN restores the lanes of SAVE that live and pops; on an empty stack they raise JOIN.UNF. -/
def Obligations.DivergenceWords : Prop :=
  ∀ s : State, let t := s.team
    (∀ o, s.ready (.mark o) →
      (t.join.length < 32 → Runs (.mark o) s { s with team := { t with join := { rj := t.target o, save := t.m, other := 0, opc := 0 } :: t.join } } .next) ∧
      (32 ≤ t.join.length → Traps (.mark o) s s { code := codeJoinOvf, val := t.wordVal (.mark o) })) ∧
    (∀ n p o, s.ready (.brv n p o) → let sel := t.mSrc &&& (if n = 1 then ~~~(t.getP p.toNat) else t.getP p.toNat)
      (sel = t.mSrc → Runs (.brv n p o) s s (.go (t.target o))) ∧ (sel ≠ t.mSrc → sel = 0 → Runs (.brv n p o) s s .next) ∧
      (sel ≠ t.mSrc → sel ≠ 0 →
        (t.join = [] → Traps (.brv n p o) s s { code := codeJoinDiv, val := t.wordVal (.brv n p o) }) ∧
        ∀ e r, t.join = e :: r →
          (e.other ≠ 0 → Traps (.brv n p o) s s { code := codeJoinDiv, val := t.wordVal (.brv n p o) }) ∧
          (e.other = 0 → Runs (.brv n p o) s
            { s with team := { t with m := sel, join := { e with other := t.m &&& ~~~sel, opc := pcNext t.pc } :: r } } (.go (t.target o))))) ∧
    (t.join = [] → (s.ready .elseW → Traps .elseW s s { code := codeJoinUnf, val := t.wordVal .elseW }) ∧
      (s.ready .join → Traps .join s s { code := codeJoinUnf, val := t.wordVal .join })) ∧
    ∀ e r, t.join = e :: r →
      (e.other &&& t.live ≠ 0 → let s1 := { s with team := { t with m := e.other &&& t.live, join := { e with other := 0 } :: r } }
        (s.ready .elseW → Runs .elseW s s1 (.go e.opc)) ∧ (s.ready .join → Runs .join s s1 (.go e.opc))) ∧
      (e.other &&& t.live = 0 → (s.ready .elseW → Runs .elseW s s (.go e.rj)) ∧
        (s.ready .join → Runs .join s { s with team := { t with m := e.save &&& t.live, join := r } } .next))

/-- R131, R137: EXIT takes the lanes of M out of LIVE. While lanes live, the entries of the join stack that hold none of them are passed
over: when that is all of them, the stack is empty, M = LIVE and the next slot follows; else the first that holds some in OTHER goes on with
them at OPC, or with those of SAVE at RJ. The last lane ends the team, and no byte of memory changes. -/
def Obligations.ExitEndsLanes : Prop :=
  ∀ s : State, s.ready .exit → let t := s.team; let live := t.live &&& ~~~t.mSrc
    let gone : JoinEntry → Prop := fun e => e.other &&& live = 0 ∧ e.save &&& live = 0
    (live ≠ 0 → (∀ e ∈ t.join, gone e) → Runs .exit s { s with team := { t with live := live, m := live, join := [] } } .next) ∧
    (∀ l e r, live ≠ 0 → t.join = l ++ e :: r → (∀ x ∈ l, gone x) →
      (e.other &&& live ≠ 0 →
        Runs .exit s { s with team := { t with live := live, m := e.other &&& live, join := { e with other := 0 } :: r } } (.go e.opc)) ∧
      (e.other &&& live = 0 → e.save &&& live ≠ 0 →
        Runs .exit s { s with team := { t with live := live, m := e.save &&& live, join := e :: r } } (.go e.rj))) ∧
    (live = 0 → ∃ s1, Runs .exit s s1 .ended ∧ s1.team.id.alive = false ∧ s1.team.live = 0 ∧
      ∀ d k pa, plainByte s1 d k pa = plainByte s d k pa)

/-- R142: the words between lanes and the team. SLANE reads one lane, or 0 beyond the width, when that lane is neither pending nor marked;
SBCAST writes a scalar to the active lanes; VOTE and POPM reduce a predicate over M. -/
def Obligations.CrossLaneWords : Prop :=
  (∀ d b a s, s.ready (.slane d b a) → let l := (s.team.getS b.toNat).toNat
    (s.team.id.width ≤ l → ∃ s1, Runs (.slane d b a) s s1 .next ∧ OnlyScalars [d.toNat] s s1 ∧ s1.team.sNow d.toNat = 0) ∧
    (l < s.team.id.width → vPending s.team [l / 32] a.toNat = false → laneMark s.team [a.toNat] l = none →
      ∃ s1, Runs (.slane d b a) s s1 .next ∧ OnlyScalars [d.toNat] s s1 ∧ s1.team.sNow d.toNat = s.team.getV a.toNat l)) ∧
  (∀ a d, LaneWord (.sbcast a d) d.toNat 1 (fun m _ => (m.getS a.toNat).toNat) fun _ _ => 0) ∧
  (∀ d p, ScalarWord (.voteAny d p) d.toNat fun m => if m.mSrc &&& m.getP p.toNat = 0 then 0 else 1) ∧
  (∀ d p, ScalarWord (.voteAll d p) d.toNat fun m => if m.mSrc &&& ~~~(m.getP p.toNat) = 0 then 1 else 0) ∧
  (∀ d a p, ScalarWord (.voteBallot d a p) d.toNat fun m => let k := (m.getS a.toNat).toNat
    if k < (m.id.width + 31) / 32 then maskWord (m.mSrc &&& m.getP p.toNat) k else 0) ∧
  ∀ d p, ScalarWord (.popm d p) d.toNat fun m =>
    BitVec.ofNat 32 (((List.range m.id.width).filter fun l => (m.mSrc &&& m.getP p.toNat).getLsbD l).length)

/-- R153: PRIO sets the class to the smaller of the one asked for and the ceiling; YIELD makes the team give up its place when it leaves its clause. R158, R159: SYSR
reads a system register to sD, or to a pair when it is wide; SYSW writes one; each leaves everything else. TRAP enters the handler after its
group with its code (R155, R157).

R158, R159: what SYSW leaves in the registers it may write: a sticky flag written as 1 is cleared, XVEC, RFBASE, UNDOBASE and UNDOHEAD keep their
alignment, RFSLOTS its 16 bits, UNDOLEN takes a power of two from 4,096 to 2^31 and else 4,096, UFLT is cleared by a 1; a write of a read-only
register changes nothing; and SYSR of a register gives what its last write left of it.

R158, R159: what SYSR reads of the registers that no write changes: TEAMID, CREWID, LANEBASE, WIDTH, COREID and CTL, class and ceiling, the
scratchpad fault, the die's cycle counter, the depth of the join stack, the words of M, LIVE and XMASK, the summary word of M, XVAL and the cause.

R157: TFENCE with no operation of the team that can set a flag in flight: it does nothing when no enabled flag is set, and otherwise
raises ARITH with the enabled flags that are set; while one is in flight it waits. -/
def Obligations.ClassSystemRegistersAndTraps : Prop :=
  (∀ s : State,
    (∀ k, s.ready (.prio k) → Runs (.prio k) s { s with team := { s.team with cls := if k ≤ s.team.id.ceil then k else s.team.id.ceil } } .next) ∧
    (s.ready .yield → Runs .yield s { s with team := { s.team with sched := { s.team.sched with yields := true } } } .next) ∧
    (∀ d n, s.ready (.sysr d n) → ∃ s1, Runs (.sysr d n) s s1 .next ∧
      (sysWide n.toNat = false → OnlyScalars [d.toNat] s s1 ∧ s1.team.sNow d.toNat = (sysRead s n.toNat).setWidth 32) ∧
      (sysWide n.toNat = true → OnlyScalars [d.toNat, d.toNat + 1] s s1 ∧ s1.team.sNow (d.toNat + 1) ++ s1.team.sNow d.toNat = sysRead s n.toNat)) ∧
    (∀ a n, s.ready (.sysw a n) → let v := if sysWide n.toNat then s.team.getS64 a.toNat else (s.team.getS a.toNat).setWidth 64
      Runs (.sysw a n) s { s with team := sysWrite s.team n.toNat v } .next) ∧
    ∀ k, s.ready (.trap k) → Runs (.trap k) s s (.after codeTrap (k.setWidth 64))) ∧
  (∀ (s : State) (v : W64), let t := s.team; let w := sysWrite t; let back : Nat → W64 := fun n => sysRead { s with team := w n v } n
    (w 0x006 v = { t with asticky := t.asticky &&& ~~~(v.setWidth 7) } ∧ back 0x006 = (t.asticky &&& ~~~(v.setWidth 7)).setWidth 64) ∧
    (w 0x007 v = { t with aenable := v.setWidth 7 } ∧ back 0x007 = v &&& 0x7F) ∧
    (w 0x008 v = { t with scc := v.setWidth 3 } ∧ back 0x008 = v &&& 0x7) ∧
    (w 0x00A v = { t with rf := { t.rf with count := v.setWidth 32 } } ∧ back 0x00A = v &&& 0xFFFFFFFF) ∧
    (w 0x010 v = { t with rf := { t.rf with base := v &&& ~~~0x1F#64 } } ∧ back 0x010 = v &&& ~~~0x1F#64) ∧
    (w 0x012 v = { t with rf := { t.rf with slots := v.setWidth 16 } } ∧ back 0x012 = v &&& 0xFFFF) ∧
    (w 0x100 v = { t with x := { t.x with xvec := v &&& ~~~0xF#64 } } ∧ back 0x100 = v &&& ~~~0xF#64) ∧
    (w 0x102 v = { t with x := { t.x with xpc := v } } ∧ back 0x102 = v) ∧
    (w 0x140 v = { t with dbg := { t.dbg with uflt := t.dbg.uflt && !v.getLsbD 2, undo := v.getLsbD 1, step := v.getLsbD 0 } } ∧
      back 0x140 = (v &&& 0x3) ||| (if t.dbg.uflt && !v.getLsbD 2 then 4 else 0)) ∧
    (w 0x142 v = { t with dbg := { t.dbg with base := v &&& ~~~0xFFF#64 } } ∧ back 0x142 = v &&& ~~~0xFFF#64) ∧
    ((∃ k, 12 ≤ k ∧ k ≤ 31 ∧ (v.setWidth 32 : W32).toNat = 2 ^ k) →
      w 0x144 v = { t with dbg := { t.dbg with len := v.setWidth 32 } } ∧ back 0x144 = v &&& 0xFFFFFFFF) ∧
    ((¬∃ k, 12 ≤ k ∧ k ≤ 31 ∧ (v.setWidth 32 : W32).toNat = 2 ^ k) →
      w 0x144 v = { t with dbg := { t.dbg with len := 4096 } } ∧ back 0x144 = 4096) ∧
    (w 0x145 v = { t with dbg := { t.dbg with head := v.setWidth 32 &&& ~~~0xF#32 } } ∧ back 0x145 = v &&& 0xFFFFFFF0) ∧
    (∀ n, n ∈ [0x000, 0x001, 0x002, 0x003, 0x004, 0x005, 0x009, 0x00C, 0x00E, 0x060, 0x104, 0x106] → w n v = t) ∧
    ∀ k < 32, w (0x020 + k) v = t ∧ w (0x040 + k) v = t ∧ w (0x120 + k) v = t) ∧
  (∀ (s : State), let t := s.team; let r := sysRead s
    r 0x000 = BitVec.ofNat 64 t.id.tno ∧ r 0x001 = BitVec.ofNat 64 t.id.crewno ∧ r 0x003 = BitVec.ofNat 64 t.id.width ∧
    r 0x002 = BitVec.ofNat 64 ((t.id.crewno * t.id.crewTeams + t.id.tno) * t.id.width % 2 ^ 32) ∧
    (t.id.core < 40 → t.id.die < 8 → r 0x004 = BitVec.ofNat 64 (t.id.die * 40 + t.id.core)) ∧
    (40 ≤ t.id.core → t.id.core < 48 → t.id.die < 8 → r 0x004 = BitVec.ofNat 64 (2 ^ 31 + t.id.die * 8 + (t.id.core - 40))) ∧
    r 0x005 = BitVec.ofNat 64 (t.id.ceil.toNat * 4 + t.cls.toNat) ∧
    r 0x009 = BitVec.ofNat 64 (t.sp.off.toNat + (if t.sp.wr then 2 ^ 30 else 0) + if t.sp.valid then 2 ^ 31 else 0) ∧
    r 0x00C = BitVec.ofNat 64 (s.now t.id.die) ∧ r 0x00E = BitVec.ofNat 64 t.join.length ∧ r 0x104 = t.x.xval ∧
    r 0x106 = BitVec.ofNat 64 (t.x.detail.toNat * 256 + t.x.code.toNat) ∧
    (∀ k < 32, (k < (t.id.width + 31) / 32 →
        r (0x020 + k) = BitVec.ofNat 64 (t.mSrc.toNat / 2 ^ (32 * k) % 2 ^ 32) ∧ r (0x040 + k) = BitVec.ofNat 64 (t.live.toNat / 2 ^ (32 * k) % 2 ^ 32)) ∧
      ((t.id.width + 31) / 32 ≤ k → r (0x020 + k) = 0 ∧ r (0x040 + k) = 0) ∧ r (0x120 + k) = BitVec.ofNat 64 (t.x.xmask.toNat / 2 ^ (32 * k) % 2 ^ 32)) ∧
    (t.id.width ≤ 1024 → ∀ k < 64, (r 0x060).getLsbD k = decide (k < (t.id.width + 31) / 32 ∧ t.mSrc.toNat / 2 ^ (32 * k) % 2 ^ 32 ≠ 0))) ∧
  (∀ s : State, s.ready .tfence → (∀ o ∈ s.ops, o.team = s.team.key → o.kind.isDeferred = false) →
    ((∃ o ∈ s.ops, o.team = s.team.key ∧ o.kind.setsFlags = true) → Waits .tfence s s .fence) ∧
    ((∀ o ∈ s.ops, o.team = s.team.key → o.kind.setsFlags = false) → gangBusy s s.team.id.crew s.team.id.tno = false →
      s.team.eng.redErr = none →
      (s.team.asticky &&& s.team.aenable = 0 → Runs .tfence s s .next) ∧
      (s.team.asticky &&& s.team.aenable ≠ 0 →
        Traps .tfence s s { code := codeArith, val := (s.team.asticky &&& s.team.aenable).setWidth 64 })))

/-- R146, R147: a barrier. ARRIVE of a team that has not arrived in the phase, with no memory access in flight and a domain below a pod:
sD receives the phase and the team has arrived, and when it is the last of the live teams the phase counts up; AWAIT passes once the
phase has moved on from its operand and waits until then; BAR waits after its arrival while another live team has not arrived, and passes
when it is the last.

R149, R150: REFORM inside a divergence raises JOIN.DIV. Outside one it waits until every live team of its crew has arrived. The last to arrive, with
no memory access in flight, a domain below a pod and no register of the crew pending, moves the lanes: the live lanes of the crew, each with its vector
registers, markers and p1 to p7, are permuted into ascending order of (key, team, lane) over the live positions in team and lane order; lanes that are
not live, the scalar registers, LIVE and M stay. -/
def Obligations.BarriersAndReform : Prop :=
  (∀ (s : State) (b : BitVec 4), let t := s.team; let cr := s.crew t.id.crew; let x := cr.barrier b.toNat
    memBusy s t.key = false → cr.scope < 5 → t.arr 0 = none →
    (∀ d, s.ready (.arrive d b) → ¬t.id.tno ∈ x.arrived → ∃ s1, Runs (.arrive d b) s s1 .next ∧ s1.team.sNow d.toNat = x.phase ∧
      let y := (s1.crew t.id.crew).barrier b.toNat
      if ∀ n ∈ s.liveTeams t.id.crew, n = t.id.tno ∨ n ∈ x.arrived then y.phase = x.phase + 1 ∧ y.arrived = []
      else y.phase = x.phase ∧ y.arrived = x.arrived ++ [t.id.tno]) ∧
    (∀ a, s.ready (.await a b) →
      (0 ≤ (x.phase - t.getS a.toNat - 1).toInt → Runs (.await a b) s (s.acquireTeam cr.scope) .next) ∧
      ((x.phase - t.getS a.toNat - 1).toInt < 0 → Waits (.await a b) s s (.phase b.toNat (t.getS a.toNat)))) ∧
    (s.ready (.bar b) → ¬t.id.tno ∈ x.arrived →
      ((∀ n ∈ s.liveTeams t.id.crew, n = t.id.tno ∨ n ∈ x.arrived) → ∃ s1, Runs (.bar b) s s1 .next ∧
        ((s1.crew t.id.crew).barrier b.toNat).phase = x.phase + 1 ∧ s1.team.arr 0 = none ∧ s1.team.r = t.r) ∧
      ((∃ n ∈ s.liveTeams t.id.crew, n ≠ t.id.tno ∧ ¬n ∈ x.arrived) → ∃ s1, Waits (.bar b) s s1 (.barrier b.toNat) ∧
        t.id.tno ∈ ((s1.crew t.id.crew).barrier b.toNat).arrived ∧ s1.team.arr 0 = some x.phase.toNat))) ∧
  (∀ (s : State) (k : BitVec 7), s.ready (.reform k) → let t := s.team; let c := t.id.crew; let cr := s.crew c
    (t.join ≠ [] → Traps (.reform k) s s { code := codeJoinDiv, val := t.wordVal (.reform k) }) ∧
    (t.join = [] → t.arr 0 = none → memBusy s t.key = false → cr.scope < 5 → t.id.alive = true → t.id.tno < 16 →
      (∀ e ∈ cr.reform, e.1 ≠ t.id.tno) →
      ((∃ n ∈ s.liveTeams c, n ≠ t.id.tno ∧ ∀ e ∈ cr.reform, e.1 ≠ n) → ∃ s1, Waits (.reform k) s s1 .reform ∧
        (s1.crew c).reform = cr.reform ++ [(t.id.tno, k.toNat)] ∧ s1.team.arr 0 = some 0 ∧ s1.team.r = t.r) ∧
      ((∀ n ∈ s.liveTeams c, n = t.id.tno ∨ ∃ e ∈ cr.reform, e.1 = n) → (s.liveTeams c).Nodup →
        (∀ n ∈ s.liveTeams c, let u := s.teamAt (teamKey c n)
          n < 16 ∧ u.r.vpend = [] ∧ u.r.ppend = [] ∧ u.group = none ∧ u.id.nregs ≤ 128 ∧ u.id.width ≤ 1024) →
        let key : Nat → Nat := fun p => let n := p / 1024
          ((s.teamAt (teamKey c n)).vNow (if n = t.id.tno then k.toNat else keyReg cr.reform n) (p % 1024)).toNat
        ∃ (s1 : State) (qs : List Nat), Runs (.reform k) s s1 .next ∧ qs.Perm (livePositions s c) ∧ qs.Pairwise (fun p q => key p < key q ∨ (key p = key q ∧ p < q)) ∧
          (∀ i < qs.length, let p := (livePositions s c).getD i 0; let q := qs.getD i 0
            let a := s1.teamAt (teamKey c (p / 1024)); let b := s.teamAt (teamKey c (q / 1024))
            (∀ r < a.id.nregs, a.vNow r (p % 1024) = b.vNow r (q % 1024) ∧
              smGet none a.r.vmarks (vKey r (p % 1024)) = smGet none b.r.vmarks (vKey r (q % 1024))) ∧
            ∀ j, 1 ≤ j → j ≤ 7 → (smGet 0 a.r.p j).getLsbD (p % 1024) = (smGet 0 b.r.p j).getLsbD (q % 1024)) ∧
          ∀ n ∈ s.liveTeams c, let a := s1.teamAt (teamKey c n); let b := s.teamAt (teamKey c n)
            a.live = b.live ∧ a.m = b.m ∧ a.r.s = b.r.s ∧
            ∀ l < 1024, ¬l ∈ lanesOf b.id.width b.live →
              (∀ r, a.vNow r l = b.vNow r l) ∧ ∀ j, (smGet 0 a.r.p j).getLsbD l = (smGet 0 b.r.p j).getLsbD l)))

/-! ### The vector engine's words -/

/-- R213, R217, R218, R219: two-operand float words in every lane of the effective mask: the sum, difference, product and quotient rounded
once to nearest even; the fused sum with vD as addend; FMIN and FMAX, which give the other operand of a NaN and order -0 below +0; vA
with a sign taken from vB, its opposite, or the exclusive or of the two.

R218: of two operands that are no NaN, FMIN gives the smaller and FMAX the larger, with -0 below +0; a NaN gives the other operand, two
the format's canonical NaN, and only a signalling NaN raises NV. -/
def Obligations.FloatArithmeticWords : Prop :=
  (∀ (t : BitVec 3) (d a b : BitVec 7), let f := fFmt t; let w := fWide t
    let two := fun (i : Instr) (op : FVal → FVal → Nat × Flags) =>
      LaneWord i d.toNat w (fun m l => (op (fVal m t a.toNat l) (fVal m t b.toNat l)).1) fun m l => (op (fVal m t a.toNat l) (fVal m t b.toNat l)).2
    let bits := fun (i : Instr) (op : Nat → Nat → Nat × Flags) =>
      LaneWord i d.toNat w (fun m l => (op (fBits m t a.toNat l) (fBits m t b.toNat l)).1) fun m l => (op (fBits m t a.toNat l) (fBits m t b.toNat l)).2
    let sign := fun (i : Instr) (g : Bool → Bool → Bool) =>
      LaneWord i d.toNat w (fun m l => let k := 2 ^ (f.bits - 1); let x := fBits m t a.toNat l; let y := fBits m t b.toNat l
        x % k + if g (k ≤ x) (k ≤ y) then k else 0) fun _ _ => 0
    two (.fadd t d a b) (fAddV f .rne) ∧ two (.fsub t d a b) (fun x y => fAddV f .rne x y.flip) ∧ two (.fmul t d a b) (fMulV f .rne) ∧
    two (.fdiv t d a b) (fDivV f .rne) ∧
    LaneWord (.ffma t d a b) d.toNat w (fun m l => (fFmaV f .rne (fVal m t a.toNat l) (fVal m t b.toNat l) (fVal m t d.toNat l)).1)
      (fun m l => (fFmaV f .rne (fVal m t a.toNat l) (fVal m t b.toNat l) (fVal m t d.toNat l)).2) ∧
    bits (.fmin t d a b) (fMinMax f false) ∧ bits (.fmax t d a b) (fMinMax f true) ∧
    sign (.fsgn t d a b) (fun _ y => y) ∧ sign (.fsgnNeg t d a b) (fun _ y => !y) ∧ sign (.fsgnXor t d a b) (fun x y => x != y)) ∧
  (∀ (f : Fmt) (x y : Nat), let a := unpackF f x; let b := unpackF f y
    (∀ k, (fMinMax f k x y).2 = if a.snan = true ∨ b.snan = true then flagNV else 0) ∧
    (∀ k, a.isNan = true → b.isNan = false → (fMinMax f k x y).1 = y) ∧ (∀ k, a.isNan = false → b.isNan = true → (fMinMax f k x y).1 = x) ∧
    (∀ k, a.isNan = true → b.isNan = true → (fMinMax f k x y).1 = f.nanCode) ∧
    (a.isNan = false → b.isNan = false →
      (fCmpV a b = some .lt → (fMinMax f false x y).1 = x ∧ (fMinMax f true x y).1 = y) ∧
      (fCmpV a b = some .gt → (fMinMax f false x y).1 = y ∧ (fMinMax f true x y).1 = x) ∧
      (fCmpV a b = some .eq → 2 ^ (f.bits - 1) ≤ x → (fMinMax f false x y).1 = x ∧ (fMinMax f true x y).1 = y)))

/-- R220 to R227: the dot product of two pairs, single-operand float words, rounding to an integral value and the conversions, in every
lane of the effective mask; ICVT to an integer saturates under R112. The words of R221 whose result is bounded and not fixed take a value of
the implementation within the bound (log entry 8).

R112, R227: a conversion from float to integer stays within the integer type: a NaN gives 0 with NV, an infinity the nearest end of the range with
NV; a finite value is rounded by the mode (down, up, towards zero, to the nearest with ties to even), and gives the rounded integer, with NX when it is
not the value itself, or, when that lies beyond the range, the nearest end with NV. -/
def Obligations.FloatUnaryAndConversionWords : Prop :=
  (∀ (t : BitVec 3) (d a b : BitVec 7), let f := fFmt t; let w := fWide t
    let one := fun (i : Instr) (n : Nat) (op : Nat → Nat × Flags) =>
      LaneWord i d.toNat n (fun m l => (op (fBits m t a.toNat l)).1) fun m l => (op (fBits m t a.toNat l)).2
    one (.frcp d a t) w (fRcp f t.toNat) ∧ one (.frsq d a t) w (fRsq f t.toNat) ∧ one (.fsqrt d a t) w (fun x => fSqrtV f .rne (unpackF f x)) ∧
    one (.fex2 d a t) w (fEx2 f t.toNat) ∧ one (.flg2 d a t) w (fLg2 f t.toNat) ∧ one (.fsin d a t) w (fun x => fTrig f 5 t.toNat x 0) ∧
    one (.fcos d a t) w (fun x => fTrig f 6 t.toNat x 1) ∧ one (.fclass d a t) 1 (fun x => (2 ^ classBit f x, 0)) ∧
    (∀ r, one (.frnd d a t r) w (roundIntegral f ((Rm.ofField r.toNat).getD .rne))) ∧
    LaneWord (.fdot2 t d a b) d.toNat 1
      (fun m l => let x := (m.getV a.toNat l).toNat; let y := (m.getV b.toNat l).toNat
        (dotStep (unpackF .f32 (m.getV d.toNat l).toNat) (fMulExact (unpackF f (x % 65536)) (unpackF f (y % 65536)))
          (fMulExact (unpackF f (x / 65536)) (unpackF f (y / 65536)))).1)
      (fun m l => let x := (m.getV a.toNat l).toNat; let y := (m.getV b.toNat l).toNat
        (dotStep (unpackF .f32 (m.getV d.toNat l).toNat) (fMulExact (unpackF f (x % 65536)) (unpackF f (y % 65536)))
          (fMulExact (unpackF f (x / 65536)) (unpackF f (y / 65536)))).2) ∧
    (∀ x r, let rm := (Rm.ofField r.toNat).getD .rne
      let g := fun (m : Team) l => convert f (cvtFmt x) rm (if rm = .sr then srRnd (m.getS64 56) (m.getS64 58) l else 0) (fBits m t a.toNat l)
      LaneWord (.fcvt d a t x r) d.toNat (cvtWide x) (fun m l => (g m l).1) fun m l => (g m l).2) ∧
    ∀ i r, let rm := (Rm.ofField r.toNat).getD .rne
      LaneWord (.icvt d a 0 t i r) d.toNat w (fun m l => (roundInt f rm 0 false (asInt i (m.getVn a.toNat l (iWide i))) 0).1)
        (fun m l => (roundInt f rm 0 false (asInt i (m.getVn a.toNat l (iWide i))) 0).2) ∧
      LaneWord (.icvt d a 1 t i r) d.toNat (iWide i) (fun m l => intRegs (fToInt (iSigned i) (iBits i) rm (fVal m t a.toNat l)).1 (iWide i))
        fun m l => (fToInt (iSigned i) (iBits i) rm (fVal m t a.toNat l)).2) ∧
  (∀ (sg : Bool) (w : Nat) (rm : Rm) (v : FVal), 0 < w →
    let r := fToInt sg w rm v
    (if sg then -(2 : Int) ^ (w - 1) ≤ r.1 ∧ r.1 ≤ 2 ^ (w - 1) - 1 else 0 ≤ r.1 ∧ r.1 ≤ 2 ^ w - 1) ∧
    (v.isNan = true → r = (0, flagNV)) ∧ (v = .inf false → r = (if sg then 2 ^ (w - 1) - 1 else 2 ^ w - 1, flagNV)) ∧
    (v = .inf true → r = (if sg then -2 ^ (w - 1) else 0, flagNV)) ∧
    ∀ n m e (z : Int), v = .fin n m e →
      let x : ℚ := (if n then -1 else 1) * (m : ℚ) * (2 : ℚ) ^ e
      let lo : Int := if sg then -2 ^ (w - 1) else 0; let hi : Int := if sg then 2 ^ (w - 1) - 1 else 2 ^ w - 1
      ((rm = .rdn ∧ (z : ℚ) ≤ x ∧ x < z + 1) ∨ (rm = .rup ∧ (z : ℚ) - 1 < x ∧ x ≤ z) ∨
        (rm = .rtz ∧ 0 ≤ (z : ℚ) * x ∧ |(z : ℚ)| ≤ |x| ∧ |x| < |(z : ℚ)| + 1) ∨
        (rm = .rne ∧ (|x - z| < 1 / 2 ∨ (|x - z| = 1 / 2 ∧ z % 2 = 0)))) →
      r = if hi < z then (hi, flagNV) else if z < lo then (lo, flagNV) else (z, if (z : ℚ) = x then 0 else flagNX))

/-- R228, R229: the integer words in every lane of the effective mask, on 32- or 64-bit operands, modulo the operand width; a shift by the
width or more gives 0, or the sign in every bit; IABS of the most negative number returns it and raises OF. -/
def Obligations.IntegerLaneWords : Prop :=
  ∀ (t : BitVec 3) (d a b : BitVec 7), let w := iWide t; let k := iBits t
    let two := fun (i : Instr) (op : Nat → Nat → Nat) =>
      LaneWord i d.toNat w (fun m l => op (m.getVn a.toNat l w) (m.getVn b.toNat l w) % 2 ^ k) fun _ _ => 0
    let shift := fun (i : Instr) (op : Nat → Nat → Nat) =>
      LaneWord i d.toNat w (fun m l => op (m.getVn a.toNat l w) (m.getV b.toNat l).toNat % 2 ^ k) fun _ _ => 0
    let one := fun (i : Instr) (n : Nat) (op : Nat → Nat) (g : Nat → Flags) =>
      LaneWord i d.toNat n (fun m l => op (m.getVn a.toNat l w)) fun m l => g (m.getVn a.toNat l w)
    two (.iadd t d a b) (· + ·) ∧ two (.isub t d a b) (fun x y => x + (2 ^ k - y)) ∧ two (.imul t d a b) (· * ·) ∧
    two (.imulh t d a b) (fun x y => (asInt t x * asInt t y / 2 ^ k % 2 ^ k).toNat) ∧
    two (.imin t d a b) (fun x y => if asInt t x ≤ asInt t y then x else y) ∧
    two (.imax t d a b) (fun x y => if asInt t x ≤ asInt t y then y else x) ∧
    two (.iand t d a b) (· &&& ·) ∧ two (.ior t d a b) (· ||| ·) ∧ two (.ixor t d a b) (· ^^^ ·) ∧
    LaneWord (.imad t d a b) d.toNat w
      (fun m l => (m.getVn a.toNat l w * m.getVn b.toNat l w + m.getVn d.toNat l w) % 2 ^ k) (fun _ _ => 0) ∧
    shift (.ishl t d a b) (fun x y => if y < k then x * 2 ^ y else 0) ∧ shift (.ishr t d a b) (fun x y => x / 2 ^ y) ∧
    shift (.isra t d a b) (shiftSign k) ∧
    one (.iabs d a t) w (fun x => if 2 ^ (k - 1) ≤ x then 2 ^ k - x else x) (fun x => if x = 2 ^ (k - 1) then flagOF else 0) ∧
    one (.inot d a t) w (fun x => 2 ^ k - 1 - x) (fun _ => 0) ∧
    one (.ipop d a t) 1 (fun x => ((List.range k).filter fun j => x.testBit j).length) (fun _ => 0) ∧
    one (.iclz d a t) 1 (fun x => if x = 0 then k else k - 1 - Nat.log2 x) fun _ => 0

/-- R230: FCMP and ICMP write the condition to pD in the lanes of the effective mask and leave the other lanes of it; p0 is not written;
an ordered condition on a NaN, or a signalling NaN, raises NV. -/
def Obligations.CompareWordsWriteAPredicate : Prop :=
  ∀ (s : State) (t : BitVec 3) (k : BitVec 4) (p : BitVec 3) (a b : BitVec 7), s.team.id.width ≤ 1024 →
    s.team.eff &&& ~~~(fullMask s.team.id.width) = 0 →
    let done := fun (i : Instr) (g : Nat → Bool) (f : Nat → Flags) => ∃ q, Runs i s (({ s with team := { s.team with
        r := { s.team.r with p := q } } } : State).flagged (flagsOf s.team.lanes f)) .next ∧
      (∀ j, (p = 0 ∨ j ≠ p.toNat) → smGet 0 q j = smGet 0 s.team.r.p j) ∧
      (p ≠ 0 → ∀ l < 1024, (smGet 0 q p.toNat).getLsbD l = if l ∈ s.team.lanes then g l else (smGet 0 s.team.r.p p.toNat).getLsbD l)
    (s.ready (.fcmp t k p a b) → done (.fcmp t k p a b) (fun l => condHolds k.toNat (fCmpV (fVal s.team t a.toNat l) (fVal s.team t b.toNat l)))
      fun l => let x := fVal s.team t a.toNat l; let y := fVal s.team t b.toNat l
        if x.snan ∨ y.snan ∨ (2 ≤ k.toNat ∧ k.toNat ≤ 5 ∧ (x.isNan ∨ y.isNan)) then flagNV else 0) ∧
    (s.ready (.icmp t k p a b) → done (.icmp t k p a b) (fun l => condHolds k.toNat
      (some (compare (asInt t (s.team.getVn a.toNat l (iWide t))) (asInt t (s.team.getVn b.toNat l (iWide t)))))) fun _ => 0)

/-- R231, R232: VSEL takes vA or vB by the lane's predicate; VMOV copies; VLI writes its immediate; LPERM takes vA of the lane that vB
names, whatever the masks, or 0 beyond the width, when no element of vA that is read is marked.

R235 to R238: SGNX flips a lane's sign by its bit of vA's word; PACK joins the low fields of consecutive registers, clamped with OF
where it saturates; UNPK takes them apart, extended; SGNQ writes, in the active lanes alone, the scale of the lane's block to vA, the error that the
scale with the sum's sign leaves to vB, and the sign word to vD, with the flags of its sums, scales and errors. A block's scale is that of R235: a NaN
with NV when a sum is a NaN, else +∞ when one is infinite, else the exact mean magnitude rounded to nearest even. -/
def Obligations.SelectMovePermuteAndPack : Prop :=
  ((∀ p d a b, LaneWord (.vsel p d a b) d.toNat 1
    (fun m l => if (m.getP p.toNat).getLsbD l then (m.getV a.toNat l).toNat else (m.getV b.toNat l).toNat) fun _ _ => 0) ∧
  (∀ t d a, LaneWord (.vmov t d a) d.toNat (iWide t) (fun m l => m.getVn a.toNat l (iWide t)) fun _ _ => 0) ∧
  (∀ d i, LaneWord (.vli d i) d.toNat 1 (fun m _ => (m.imm32 i).toNat) fun _ _ => 0) ∧
  ∀ t d a b s, s.ready (.lperm t d a b) →
    (∀ l ∈ s.team.lanes, ∀ k < iWide t, let j := (s.team.getV b.toNat l).toNat
      j < s.team.id.width → smGet none s.team.rSrc.vmarks (vKey (a.toNat + k) j) = none) →
    ∃ s1, Runs (.lperm t d a b) s s1 .next ∧ OnlyLanes d.toNat (iWide t) s.team.lanes s s1 ∧
      ∀ l ∈ s.team.lanes, ∀ k < iWide t, let j := (s.team.getV b.toNat l).toNat
        s1.team.vNow (d.toNat + k) l = if j < s.team.id.width then s.team.getV (a.toNat + k) j else 0) ∧
  ((∀ d a b, LaneWord (.sgnx d a b) d.toNat 1
    (fun m l => (m.getV b.toNat l ^^^ (if (m.getV a.toNat l).getLsbD (l % 32) then 0x80000000#32 else 0)).toNat) fun _ _ => 0) ∧
  (∀ d a z, LaneWord (.pack d a z 0 0) d.toNat 1
    (fun m l => let n := packN z; let fw := 32 / n
      ((List.range n).map fun k => (m.getV (a.toNat + k) l).toNat % 2 ^ fw * 2 ^ (fw * k)).foldl (· + ·) 0) fun _ _ => 0) ∧
  (∀ d a z g, LaneWord (.pack d a z 1 g) d.toNat 1
    (fun m l => let n := packN z; let fw := 32 / n
      ((List.range n).map fun k => (packField fw true (g = 1) (m.getV (a.toNat + k) l)).1 * 2 ^ (fw * k)).foldl (· + ·) 0)
    fun m l => if (List.range (packN z)).any fun k => (packField (32 / packN z) true (g = 1) (m.getV (a.toNat + k) l)).2 then flagOF else 0) ∧
  (∀ d a z, LaneWord (.unpk d a z 0) d.toNat (packN z)
    (fun m l => let n := packN z; let fw := 32 / n
      ((List.range n).map fun k => (m.getV a.toNat l).toNat / 2 ^ (fw * k) % 2 ^ fw * 2 ^ (32 * k)).foldl (· + ·) 0) fun _ _ => 0) ∧
  (∀ d a z, LaneWord (.unpk d a z 1) d.toNat (packN z)
    (fun m l => let n := packN z; let fw := 32 / n
      ((List.range n).map fun k => let f := (m.getV a.toNat l).toNat / 2 ^ (fw * k) % 2 ^ fw
        (if 2 ^ (fw - 1) ≤ f then f + (2 ^ 32 - 2 ^ fw) else f) * 2 ^ (32 * k)).foldl (· + ·) 0) fun _ _ => 0) ∧
  (∀ ts : List Nat, let vs := ts.map (unpackF .f32)
    ((∃ v ∈ vs, v.isNan = true) → sgnScale ts = (Fmt.nanCode .f32, flagNV)) ∧
    ((∀ v ∈ vs, v.isNan = false) → (∃ n, FVal.inf n ∈ vs) → sgnScale ts = (Fmt.infCode .f32, 0)) ∧
    ((∀ v ∈ vs, ∃ n m e, v = .fin n m e) → ts ≠ [] → ts.length ≤ 1024 → ∃ m e st, sgnScale ts = roundMag .f32 .rne 0 false m e st ∧
      let mean : ℚ := (vs.map fun v => match v with | .fin _ m e => (m : ℚ) * (2 : ℚ) ^ e | _ => 0).sum / ts.length
      if st then 2 ^ 30 ≤ m ∧ (m : ℚ) * (2 : ℚ) ^ e < mean ∧ mean < ((m : ℚ) + 1) * (2 : ℚ) ^ e else mean = (m : ℚ) * (2 : ℚ) ^ e)) ∧
  ∀ d a b s, s.ready (.sgnq d a b) → d ≠ a → d ≠ b → a ≠ b → let ls := s.team.lanes
    let t := fun l => fAddV .f32 .rne (unpackF .f32 (s.team.getV a.toNat l).toNat) (unpackF .f32 (s.team.getV b.toNat l).toNat)
    let scale := fun l => sgnScale ((ls.filter fun j => s.team.id.width < 256 ∨ j / 256 = l / 256).map fun j => (t j).1)
    let err := fun l => fAddV .f32 .rne (unpackF .f32 (t l).1) (unpackF .f32 ((scale l).1 % 2 ^ 31 + if 2 ^ 31 ≤ (t l).1 then 2 ^ 31 else 0)).flip
    ∃ s1 v m, Runs (.sgnq d a b) s (s1.flagged (flagsOf ls fun l => (t l).2 ||| (scale l).2 ||| (err l).2)) .next ∧
      s1 = { s with team := { s.team with r := { s.team.r with v := v, vmarks := m } } } ∧
      (∀ r l, l < 1024 → (¬l ∈ ls ∨ (r ≠ d.toNat ∧ r ≠ a.toNat ∧ r ≠ b.toNat)) →
        s1.team.vNow r l = s.team.vNow r l ∧ smGet none m (vKey r l) = smGet none s.team.r.vmarks (vKey r l)) ∧
      ∀ l ∈ ls, s1.team.vNow d.toNat l = maskWord (maskOf (ls.filter fun j => 2 ^ 31 ≤ (t j).1)) (l / 32) ∧
        s1.team.vNow a.toNat l = BitVec.ofNat 32 (scale l).1 ∧ s1.team.vNow b.toNat l = BitVec.ofNat 32 (err l).1)

/-- R233, R234: LRED writes the value of one tree over the active lanes, in the order of their numbers, to every active lane; LSCAN gives
each active lane the combination of those up to it, or before it with the identity for the first.

R234: the tree of an integer sum, minimum, maximum or logical reduction gives what taking the active lanes' values one after the other
gives, so it does not depend on which neighbours combine first. -/
def Obligations.ReduceAndScanWords : Prop :=
  (∀ (s : State) (d a : BitVec 7) (k : BitVec 1) (t o : BitVec 3), let w := redWide k t; let ls := s.team.lanes
    (s.ready (.lred d a k t o) →
      let r := treeRoot (redOp k t o) 10
        ((List.range s.team.id.width).map fun l => if s.team.eff.getLsbD l then some (redVal s.team k t a.toNat l) else none)
      ∃ s1, Runs (.lred d a k t o) s (s1.flagged r.2) .next ∧ OnlyLanes d.toNat w ls s s1 ∧
        ∀ l ∈ ls, ∀ j < w, s1.team.vNow (d.toNat + j) l = BitVec.ofNat 32 (r.1.getD 0 / 2 ^ (32 * j))) ∧
    (∀ n, s.ready (.lscan d a k t o n) →
      let r := scanLanes (redOp k t o) (scanId k t o) (n = 1) none (ls.map fun l => (l, redVal s.team k t a.toNat l))
      ∃ s1, Runs (.lscan d a k t o n) s (s1.flagged r.2) .next ∧ OnlyLanes d.toNat w ls s s1 ∧
        ∀ e ∈ r.1, ∀ j < w, s1.team.vNow (d.toNat + j) e.1 = BitVec.ofNat 32 (e.2 / 2 ^ (32 * j)))) ∧
  (∀ (t o : BitVec 3) (x : Nat) (l : List Nat), o.toNat ≤ 5 → (x :: l).length ≤ 1024 → (∀ y ∈ x :: l, y < 2 ^ iBits t) →
    (treeRoot (redOp 0 t o) 10 ((x :: l).map some)).1 = some (l.foldl (fun a y => (redOp 0 t o a y).1) x))

/-! ### The load-store engine -/

/-- R26, R29, R252, R255, R257, R258: a load whose addresses are local, aligned and translated issues once its requests may enter the core's
slots, and waits until then: the operation stands in flight with the lanes' accesses and what its team's quantum buffer holds of them (`loadStarted`),
its flag is busy, its destination is pending (for LD and LDB the mask words of the active lanes, for LDK the scalar registers) and nothing else
changes. With no active lane it does nothing. LDB of a fabric address needs no translation. A load behind an atomic that its team's quantum defers
takes its place in the commit (log entry 89). R272: the buffer's bytes stand over those read: each byte is that of the last store in the buffer that
covers it, else the one read. -/
def Obligations.LoadsIssue : Prop :=
  (∀ (t : Team) (sc : Bool) (pa j : Nat) (bs : List Byte), j < bs.length → (overHeld (heldBytes t sc pa bs.length) pa bs).getD j 0 =
    (storedByte (t.dq.items.filterMap fun x => match x with | .store _ p c b => if c = sc then some (p, b) else none | _ => none) (pa + j)).getD
      (bs.getD j 0)) ∧
  ∀ (s : State) (z : BitVec 3), let t := s.team; let n := szBytes z
    let held : List LaneAcc → List (Nat × Byte) := fun accs => accs.flatMap fun a => heldBytes t false a.pa n
    let pends : BitVec 7 → List Nat → SMap Nat → Prop := fun d w vp => ∀ r k, k < 32 →
      smGet 0 vp (r * 32 + k) = if d.toNat ≤ r ∧ r < d.toNat + szRegs z ∧ k ∈ w then s.nextOp + 1 else smGet 0 t.r.vpend (r * 32 + k)
    (∀ d o sp g l accs, s.ready (.ld z d o sp g l) → let as := memLanes t sp o
      addrCheck as n false = none → translateLanes s as .read = .ok accs →
      (accs = [] → Runs (.ld z d o sp g l) s s .next) ∧
      (accs ≠ [] → let w := maskWords t.id.width (maskOf (accs.map fun a => a.lane))
        let k := fun h => OpKind.load (if l = 1 then .home else .plain) z (g = 1) false d.toNat w accs h true
        (mayEnter s (k (held accs)) = false → Waits (.ld z d o sp g l) s s .slots) ∧
        (mayEnter s (k (held accs)) = true → ∃ vp, pends d w vp ∧ Runs (.ld z d o sp g l) s (s.loadStarted k (held accs) vp t.r.spend) .next))) ∧
    (∀ d o sp g nra accs, s.ready (.ldb z d o sp g nra) → let as := memLanes t sp o
      addrCheck as n true = none → translateLanes s (as.filter fun a => vaClass a.2 = .localVa) .read = .ok accs →
      let far := (as.filter fun a => vaClass a.2 = .fabric).map fun a => ({ lane := a.1, va := a.2, pa := 0 } : LaneAcc)
      (accs ++ far = [] → Runs (.ldb z d o sp g nra) s s .next) ∧
      (accs ++ far ≠ [] → let w := maskWords t.id.width (maskOf ((accs ++ far).map fun a => a.lane))
        let h := held (if far = [] then accs else accs.filter fun a => vaClass a.va ≠ .fabric)
        let k := fun h => OpKind.load (if far = [] then .plain else .remote) z (g = 1) false d.toNat w (accs ++ far) h (nra = 0)
        (mayEnter s (k h) = false → Waits (.ldb z d o sp g nra) s s .slots) ∧
        (mayEnter s (k h) = true → ∃ vp, pends d w vp ∧ Runs (.ldb z d o sp g nra) s (s.loadStarted k h vp t.r.spend) .next))) ∧
    ∀ d sp g l accs, s.ready (.ldk z d sp g l) → let as := t.lanes.map fun k => (k, t.getS64 (2 * sp.toNat) + t.memOff)
      addrCheck as n false = none → translateLanes s as .read = .ok accs →
      (accs = [] → Runs (.ldk z d sp g l) s s .next) ∧
      (accs ≠ [] → let h := held (accs.take 1)
        let k := fun h => OpKind.load (if l = 1 then .home else .plain) z (g = 1) true d.toNat [0] (accs.take 1) h true
        (mayEnter s (k h) = false → Waits (.ldk z d sp g l) s s .slots) ∧
        (mayEnter s (k h) = true → ∃ p, (∀ r, smGet 0 p r = if d.toNat ≤ r ∧ r < d.toNat + szRegs z then s.nextOp + 1 else smGet 0 t.r.spend r) ∧
          Runs (.ldk z d sp g l) s (s.loadStarted k h t.r.vpend p) .next))

/-- R252, R256, R272, R273, R275: a store whose addresses are local, aligned and translated issues once its requests may enter the core's slots: the
operation holds each active lane's address and the low bytes of its registers, least significant first; no register and no byte of memory changes
until it completes. In deterministic quantum mode its bytes go to the team's buffer: the quantum ends before it when the buffer cannot take its lines
beside those it holds, and after it when its lines exceed the buffer on their own. With no active lane it does nothing. R252, R253: an address that is
not local raises ADDR, else one that is not a multiple of the size raises ALIGN, each for the lanes concerned and with nothing stored. -/
def Obligations.StoresIssueOrFault : Prop :=
  ∀ (s : State) (z : BitVec 3) (d o : BitVec 7) (sp : BitVec 5) (l : BitVec 1), s.ready (.st z d o sp l) → let t := s.team; let as := memLanes t sp o
    (∀ accs, addrCheck as (szBytes z) false = none → translateLanes s as .write = .ok accs →
      let where' : Space := if l = 1 then .home else .plain
      let vals := accs.map fun a => (a, leBytes (t.getVn d.toNat a.lane (szRegs z)) (szBytes z))
      let k := OpKind.store where' vals; let s1 := s.started k t.r.vpend t.r.spend
      let items := t.dq.items ++ vals.map fun a => DqItem.store a.1.va a.1.pa false a.2
      (accs = [] → Runs (.st z d o sp l) s s .next) ∧
      (accs ≠ [] → t.id.quantum = none →
        (mayEnter s k = false → Waits (.st z d o sp l) s s .slots) ∧
        (mayEnter s k = true → Runs (.st z d o sp l) s s1 .next)) ∧
      (accs ≠ [] → t.id.quantum.isSome = true → let own := (dqLines (items.drop t.dq.items.length)).length
        (own ≤ 256 → (dqLines items).length ≤ 256 → Runs (.st z d o sp l) s { s with team := { t with dq := { t.dq with items := items } } } .next) ∧
        (own ≤ 256 → 256 < (dqLines items).length →
          Waits (.st z d o sp l) s { s with team := { t with dq := { t.dq with atEnd := true } } } .quantum) ∧
        (256 < own → Runs (.st z d o sp l) s { s with team := { t with dq := { t.dq with items := items, full := true } } } .next))) ∧
    (∀ a r, as.filter (fun e => vaClass e.2 ≠ .localVa) = a :: r →
      Traps (.st z d o sp l) s s { code := codeAddr, detail := if vaClass a.2 = .fabric then 1 else 0, val := a.2, mask := some (maskOf ((a :: r).map Prod.fst)) }) ∧
    ∀ a r, (∀ e ∈ as, vaClass e.2 = .localVa) → as.filter (fun e => e.2.toNat % szBytes z ≠ 0) = a :: r →
      Traps (.st z d o sp l) s s { code := codeAlign, detail := szBytes z, val := a.2, mask := some (maskOf ((a :: r).map Prod.fst)) }

/-- R254, R255, R257, R258: LOAD_RETURN for a mask word still to come of a load that nothing earlier of its team holds back and whose crew stands: the
pending bits of the destination in that word clear, and with the last word the load leaves and its flag clears unless another operation of the team
holds it. A lane that is alone in its word receives the value that the size and extension make of the bytes it gets, or a marker when those are
poisoned (`laneGot`: LD, LDS, LDK and LDB, with the bytes held in its team's buffer over them); LDB of a fabric address takes the bytes of the line
that came, or the marker of its failure. No other register changes.

R255: a value narrower than 32 bits is extended with zeros, or with its sign where the word says so.

R30, R31: LATE_RETURN for an operation of a generation that is retired discards it; for a word still to come of a load of a saved or restoring crew
that may be performed, it brings the lane its value or its marker, clears the pending bits of that word and, with the last, the flag, as a return
does, and the crew's image follows. -/
def Obligations.LoadsReturn : Prop :=
  (∀ (s : State) (o : Op) (sp : Space) (z : BitVec 3) (sg : Bool) (d : Nat) (left : List Nat) (accs : List LaneAcc) (a : LaneAcc)
    (held : List (Nat × Byte)) (alloc : Bool) (remote : List RemoteLine),
    s.op s.site.op = some o → opCurrent s o = true → loadTurn s o = true → mayPerform s o = true →
    let n := szBytes z; let t := s.teamAt o.team; let rest := left.filter (· ≠ s.site.n)
    let settles : OpKind → State → Prop := fun k s' => let t' := s'.teamAt o.team
      (rest = [] → s'.ops = s.ops.filter (fun x => x.id ≠ o.id) ∧ t'.busy = s.busyAfter o) ∧
      (rest ≠ [] → s'.ops = s.ops.map (fun x => if x.id = o.id then { o with kind := k } else x) ∧ t'.busy = t.busy) ∧
      t'.r.p = t.r.p ∧ t'.m = t.m ∧ t'.pc = t.pc
    (∀ g, o.kind = .load sp z sg false d left accs held alloc → o.kind.notEntered s.site.n = false → s.site.n ∈ left →
      accs.filter (fun x => x.lane / 32 = s.site.n) = [a] → a.lane < 1024 →
      ((sp ≠ .remote ∨ vaClass a.va ≠ .fabric) ∧ g = s.laneGot o sp n a held ∨
        sp = .remote ∧ vaClass a.va = .fabric ∧ ∃ s2 r, remoteLine s t.id.die t.id.ctx remote (a.va.toNat / 128) = (s2, some r) ∧
          g = match r.fail with | some dt => .bad (.remoteRead dt (a.va &&& ~~~0x7F#64)) | none => .val ((r.data.drop (a.va.toNat % 128)).take n)) →
      ∃ s', exec (.loadReturn remote) s = .next s' ∧ let t' := s'.teamAt o.team
        settles (.load sp z sg false d rest accs held alloc) s' ∧ t'.r.s = t.r.s ∧ (∀ r < szRegs z, smGet 0 t'.r.vpend ((d + r) * 32 + s.site.n) = 0) ∧
        (∀ r l, l < 1024 → (r < d ∨ d + szRegs z ≤ r ∨ l ≠ a.lane) → t'.vNow r l = t.vNow r l) ∧ (sp = .plain ∨ sp = .scratch → s'.mem = s.mem) ∧
        ∀ r < szRegs z, match g with
          | .val bs => t'.vNow (d + r) a.lane = BitVec.ofNat 32 (loadValue z sg bs / 2 ^ (32 * r)) ∧ smGet none t'.r.vmarks (vKey (d + r) a.lane) = none
          | .bad m => t'.vNow (d + r) a.lane = t.vNow (d + r) a.lane ∧ smGet none t'.r.vmarks (vKey (d + r) a.lane) = some m) ∧
    ((sp = .plain ∨ sp = .home) → o.kind = .load sp z sg true d [0] [a] held alloc → left = [0] → s.site.n = 0 →
      ∃ s', exec (.loadReturn remote) s = .next s' ∧ let t' := s'.teamAt o.team
        settles o.kind s' ∧ t'.r.v = t.r.v ∧ (∀ r < szRegs z, smGet 0 t'.r.spend (d + r) = 0) ∧
        (∀ r, (r < d ∨ d + szRegs z ≤ r) → t'.sNow r = t.sNow r) ∧
        ∀ r < szRegs z, match s.laneGot o sp n a held with
          | .val bs => t'.sNow (d + r) = BitVec.ofNat 32 (loadValue z sg bs / 2 ^ (32 * r)) ∧ smGet none t'.r.smarks (d + r) = none
          | .bad m => t'.sNow (d + r) = t.sNow (d + r) ∧ smGet none t'.r.smarks (d + r) = some m)) ∧
  (∀ (z : BitVec 3) (bs : List Byte), bs.length = szBytes z →
    loadValue z false bs = leNat bs ∧
    (z.toNat < 2 → loadValue z true bs = ((leNat bs : Int) - if 2 ^ (8 * szBytes z - 1) ≤ leNat bs then 2 ^ (8 * szBytes z) else 0) % 2 ^ 32) ∧
    (2 ≤ z.toNat → loadValue z true bs = leNat bs)) ∧
  (∀ (s : State) (o : Op) (remote : List RemoteLine), s.op s.site.op = some o →
    ((s.crew o.crew).gen ≠ o.gen → ∃ u, exec (.lateReturn remote) s = .next u ∧ u.ops = s.ops.filter (fun x => x.id ≠ o.id) ∧ u.team = s.team ∧ u.others = s.others ∧ u.mem = s.mem) ∧
    ∀ sp z sg d left accs held alloc a, o.kind = .load sp z sg false d left accs held alloc → sp ≠ .remote → (s.crew o.crew).gen = o.gen →
      (s.crew o.crew).state = .saved ∨ (s.crew o.crew).state = .restoring → loadTurn s o = true → mayPerform s o = true → o.kind.notEntered s.site.n = false →
      s.site.n ∈ left → accs.filter (fun x => x.lane / 32 = s.site.n) = [a] → a.lane < 1024 → let rest := left.filter (· ≠ s.site.n)
      ∃ v, exec (.lateReturn remote) s = .next (followImages s v) ∧ let t := s.teamAt o.team; let t' := v.teamAt o.team
        (followImages s v).team = v.team ∧ (followImages s v).others = v.others ∧
        (rest = [] → v.ops = s.ops.filter (fun x => x.id ≠ o.id) ∧ t'.busy = s.busyAfter o) ∧ (rest ≠ [] → t'.busy = t.busy) ∧
        (∀ r < szRegs z, smGet 0 t'.r.vpend ((d + r) * 32 + s.site.n) = 0) ∧
        (∀ r l, l < 1024 → (r < d ∨ d + szRegs z ≤ r ∨ l ≠ a.lane) → t'.vNow r l = t.vNow r l) ∧
        ∀ r < szRegs z, match s.laneGot o sp (szBytes z) a held with
          | .val bs => t'.vNow (d + r) a.lane = BitVec.ofNat 32 (loadValue z sg bs / 2 ^ (32 * r)) ∧ smGet none t'.r.vmarks (vKey (d + r) a.lane) = none
          | .bad m => t'.vNow (d + r) a.lane = t.vNow (d + r) a.lane ∧ smGet none t'.r.vmarks (vKey (d + r) a.lane) = some m)

/-- R244, R256, R266: STORE_COMPLETE of a plain store that nothing earlier of its team holds back: afterwards its core reads, at every
place that the store covers, the byte of the last lane that covers it, and at every other place what it read before, once what the other cores of a
fused cluster hold of the lines has reached L2; no byte at the home changes yet; the operation leaves.

R242, R256: bytes stored at the home read back there, and no other byte at the home changes; a store overwrites the poison of its bytes, and
a line reads as poisoned while a marked byte of it has not been overwritten (R45; log entry 9). -/
def Obligations.StoresArePerformed : Prop :=
  (∀ (s : State) (o : Op) (accs : List (LaneAcc × List Byte)), s.op s.site.op = some o → o.kind = .store .plain accs → mayPerform s o = true →
    let t := s.teamAt o.team
    ∃ s', exec .storeComplete s = .next s' ∧ s'.mem = s.mem ∧ s'.ops = s.ops.filter (fun x => x.id ≠ o.id) ∧
      (∀ pa, plainByte s' t.id.die t.id.core pa =
        (storedByte (accs.map fun e => (e.1.pa, e.2)) pa).getD
          (plainByte (s.othersOut t.id.die t.id.core (storePas (accs.map fun e => (e.1.pa, e.2)))) t.id.die t.id.core pa)) ∧
      (fusedCluster s t.id.die t.id.core = false → ∀ l, s.othersOut t.id.die t.id.core l = s) ∧
      (s'.teamAt o.team).r = t.r) ∧
  (∀ (s : State) (pa : Nat) (bs : List Byte) (x : Nat),
    homeByte (setHomeBytes s pa bs) x = (if pa ≤ x ∧ x < pa + bs.length then bs.getD (x - pa) 0 else homeByte s x) ∧
    smGet false (setHomeBytes s pa bs).poison x = (if pa ≤ x ∧ x < pa + bs.length then false else smGet false s.poison x) ∧
    (isPoison (setHomeBytes s pa bs) x = true ↔
      ∃ y, y / 128 = x / 128 ∧ ¬(pa ≤ y ∧ y < pa + bs.length) ∧ smGet false s.poison y = true))

/-- R259, R260, R263, R264: PREF fills L1 (level 0) or L2 (level 1) with the line of each lane whose local address the TLB answers, and changes nothing
but caches. CINV and CWB clean a local range up to the point of their scope (CREW is that of the crew's domain): no line of it is left in the core's
write buffer, and from PKG on none dirty in L2; CINV then takes the range's lines out of the L1, or fused L1, the node cache, and from PKG on L2, and
no other line. For a count of 0 they do nothing, and they raise ADDR for an address that is not local or a range that passes the class. RRINV drops
the lines of the remote-read cache that its range touches, or raises ADDR; SPCHK reads the scratchpad fault register and clears it.

R265, R266, R267: MWAIT on a local, aligned and translated word of device memory: it waits for an earlier access of its team to the word;
while the word, read at the scope's point, equals its operand it waits; otherwise, once the team's earlier loads have their values, the team
acquires at the scope and sD receives the word. MWAIT_WAKE lets waiting teams look again and does nothing else. -/
def Obligations.CacheWordsAndMemoryWait : Prop :=
  (∀ s : State, let t := s.team; let d := t.id.die; let k := t.id.core; let ck := coreKey d k
    (∀ o sp l, s.ready (.pref o sp l) →
      let lines := (memLanes t sp o).filterMap fun a => if vaClass a.2 ≠ .localVa then none else
        match lookup s ck t.key t.id.ctx a.2 .read t.supSrc with | .hit lf => some (leafPa d lf a.2.toNat / 128) | _ => none
      let s1 := lines.foldl (fun s line => if l = 0 then fillL1 s d k line else if l = 1 then fillL2 s d line else s) s
      Runs (.pref o sp l) s s1 .next ∧ OnlyCaches s s1) ∧
    (∀ line, (smGet {} ((fillL1 s d k line).core (l1Home s d k line)).l1 line).valid = BitVec.allOnes 128 ∧
      (smGet {} ((fillL2 s d line).die d).l2 line).valid = BitVec.allOnes 128 ∧
      ∀ j < 128, (smGet {} ((fillL2 s d line).die d).l2 line).byte j = dieByte s d (line * 128 + j)) ∧
    (∀ sc a b, let va := t.getS64 a.toNat; let n := (t.getS b.toNat).toNat; let scope := s.meant t.key sc.toNat
      let bad := fun dt => (s.ready (.cinv sc a b) → Traps (.cinv sc a b) s s { code := codeAddr, detail := dt, val := va, mask := some t.m }) ∧
        (s.ready (.cwb sc a b) → Traps (.cwb sc a b) s s { code := codeAddr, detail := dt, val := va, mask := some t.m })
      (vaClass va ≠ .localVa → bad (if vaClass va = .fabric then 1 else 0)) ∧ (vaClass va = .localVa → 2 ^ 48 < va.toNat + n → bad 3) ∧
      (vaClass va = .localVa → va.toNat + n ≤ 2 ^ 48 → n = 0 →
        (s.ready (.cinv sc a b) → Runs (.cinv sc a b) s s .next) ∧ (s.ready (.cwb sc a b) → Runs (.cwb sc a b) s s .next)) ∧
      (vaClass va = .localVa → va.toNat + n ≤ 2 ^ 48 → n ≠ 0 → let ctx := t.id.ctx; let c := cleanRange s d k scope ctx va.toNat n
        let u := dropRange c d k scope ctx va.toNat n; let fused := fusedCluster s d k
        (s.ready (.cwb sc a b) → Runs (.cwb sc a b) s c .next) ∧ c.team = t ∧ (scope < 2 → c = s) ∧
        (2 ≤ scope → ∀ l, s.inRange ctx d va.toNat n l → (∀ e ∈ (c.core ck).wb, e.1 ≠ l) ∧ (4 ≤ scope → (smGet {} (c.die d).l2 l).dirty = 0)) ∧
        (s.ready (.cinv sc a b) → Runs (.cinv sc a b) s u .next) ∧ OnlyCaches c u ∧ (∀ x, (u.core x).wb = (c.core x).wb) ∧
        ∀ x l, let mine := if fused then scope ≠ 2 ∧ ∃ j < 8, x = coreKey d (k / 8 * 8 + j) else x = ck
          let hit := c.inRange ctx d va.toNat n l
          Either (smGet {} (u.core x).l1 l) (2 ≤ scope ∧ mine ∧ hit) {} (smGet {} (c.core x).l1 l) ∧
          Either (smGet none (u.core x).node l) (2 ≤ scope ∧ x = ck ∧ l < 2 ^ 45 ∧ hit) none (smGet none (c.core x).node l) ∧
          ∀ y, Either (smGet {} (u.die y).l2 l) (4 ≤ scope ∧ y = d ∧ hit) {} (smGet {} (c.die y).l2 l))) ∧
    (∀ a b, s.ready (.rrinv a b) → let va := t.getS64 a.toNat; let n := (t.getS b.toNat).toNat
      (vaClass va ≠ .fabric → Traps (.rrinv a b) s s { code := codeAddr, detail := 2, val := va, mask := some t.m }) ∧
      (vaClass va = .fabric → 2 ^ 45 < fabOff va + n → Traps (.rrinv a b) s s { code := codeAddr, detail := 3, val := va, mask := some t.m }) ∧
      (vaClass va = .fabric → fabOff va + n ≤ 2 ^ 45 → ∃ c, Runs (.rrinv a b) s { s with rrc := c } .next ∧
        ∀ l, smGet {} c l = if n ≠ 0 ∧ l * 128 < va.toNat + n ∧ va.toNat < l * 128 + 128 then {} else smGet {} s.rrc l)) ∧
    ∀ d, s.ready (.spchk d) → ∃ s1, Runs (.spchk d) s { s1 with team := { s1.team with sp := {} } } .next ∧ OnlyScalars [d.toNat] s s1 ∧
      s1.team.sNow d.toNat = BitVec.ofBool t.sp.valid ++ BitVec.ofBool t.sp.wr ++ 0#12 ++ t.sp.off) ∧
  (∀ (s : State), (∀ tc d a b sc x accs, s.ready (.mwait tc d a b sc) → let t := s.team; let va := t.getS64 a.toNat; let n := 4 * iWide tc
      let as := t.lanes.map fun k => (k, va)
      addrCheck as n false = none → translateLanes s as .read = .ok (x :: accs) → isHost x.pa = false →
      let scope := s.meant t.key sc.toNat; let c := settleAt s t.id.die t.id.core scope (x.pa / 128)
      let v := leNat (overHeld (heldBytes t false x.pa n) x.pa (readAtScope c t.id.die t.id.core scope x.pa n))
      let w := if tc = 3 then (t.getS64 b.toNat).toNat else (t.getS b.toNat).toNat
      (readBusy s t x.pa n = true → Waits (.mwait tc d a b sc) s s .fence) ∧
      (readBusy s t x.pa n = false → v = w → Waits (.mwait tc d a b sc) s c .memory) ∧
      (readBusy s t x.pa n = false → v ≠ w → loadsBusy c t.key = true → Waits (.mwait tc d a b sc) s c .fence) ∧
      (readBusy s t x.pa n = false → v ≠ w → loadsBusy c t.key = false → ∃ s1, Runs (.mwait tc d a b sc) s s1 .next ∧
        OnlyScalars ((List.range (iWide tc)).map fun k => d.toNat + k) (c.acquireTeam scope) s1 ∧ ∀ k < iWide tc, s1.team.sNow (d.toNat + k) = BitVec.ofNat 32 (v / 2 ^ (32 * k)))) ∧
    exec .mwaitWake s = .next { s with progress := s.progress + 1 })

/-- R278 to R280: a walk that is done answers every request of its core for its page and context, whatever their kind of access and privilege:
where the leaf allows one, the TLB holds the leaf with A set, and D for a write; a request that the leaf does not allow, and every one for an
absent page, stands with its fault. Memory changes in the leaf alone, and not where the page is absent.

R253, R278, R285: which accesses a valid leaf allows: a user access needs U, a read R, a write W and no read-duplication, a fetch X. -/
def Obligations.PageWalks : Prop :=
  (∀ (s : State) (w : Walk), let ck := coreKey s.site.die s.site.core
    s.site.core < 48 → (coreWalks s ck).find? (fun x => x.fault.isNone) = some w →
    isMapped (((recWord s w.ctx 0).extractLsb' 9 43).toNat * 512) = true →
    ∃ s', exec .pageWalkComplete s = .next s' ∧ s'.team = s.team ∧ (∀ y ∈ (s'.core ck).walks, y.fault = none → y.samePage w = false) ∧
      (∀ e pa big, walk s w.ctx (w.vpn * 65536) = .leaf e pa big → (∀ a, (a < pa ∨ pa + 8 ≤ a) → homeByte s' a = homeByte s a) ∧
        ∀ x ∈ (s.core ck).walks, x.fault = none → x.samePage w = true →
          (permFault e x.access x.sup = none → ∃ l, (s'.core ck).tlb.head? = some { ctx := w.ctx, vpn := w.vpn, leaf := l, large := big } ∧
            l.getLsbD 7 = true ∧ (x.access = .write → l.getLsbD 8 = true) ∧ l &&& ~~~0x180#64 = e &&& ~~~0x180#64) ∧
          ∀ p, permFault e x.access x.sup = some p → x.team ≠ noTeam →
            { x with stands := .shared, fault := some (codeProt, p) } ∈ (s'.core ck).walks) ∧
      (walk s w.ctx (w.vpn * 65536) = .absent → s'.mem = s.mem ∧ ∀ x ∈ (s.core ck).walks, x.fault = none → x.samePage w = true →
        x.team ≠ noTeam → { x with stands := .shared, fault := some (codePage, pageDetail x.access true) } ∈ (s'.core ck).walks)) ∧
  (∀ (e : W64) (a : Access) (sup : Bool),
    (permFault e a sup = none ↔ (sup = true ∨ e.getLsbD 3 = true) ∧
      (match a with | .read => e.getLsbD 4 = true | .write => e.getLsbD 5 = true ∧ leafAttr e ≠ 2 | .fetch => e.getLsbD 6 = true)) ∧
    (sup = false → e.getLsbD 3 = false → permFault e a sup = some 3))

/-- R244, R246, R258, R281, R284, R288, R420: system software's registers over translation and the caches' own steps. TLB_INVALIDATE loads
register 0x300; TLB_INVALIDATE_DONE, once no operation uses a translation it names, clears GO and leaves no such entry in a TLB of the
die; RRCSTEPS_WRITE keeps at most 8 and empties the remote-read cache; MISSING_DECREMENT counts the missing pages of the saved crew that it
names down by one, in its image too, changes no other crew, and is ignored where it names none;
FRAME_ZEROED ends a frame's zeroing; LINE_REPLACEMENT takes a clean line away and keeps what the home holds. -/
def Obligations.TranslationAndCacheEvents : Prop :=
  ∀ s : State,
    (∀ v, ∃ s', exec (.tlbInvalidate v) s = .next s' ∧ (s'.die s.site.die).regs.inval = v &&& ~~~0xFFF8#64 ∧ s'.cores = s.cores ∧ s'.mem = s.mem ∧ s'.team = s.team) ∧
    ((s.die s.site.die).regs.inval.getLsbD 0 = true → (∀ o ∈ s.ops, usesInval s s.site.die (s.die s.site.die).regs.inval o = false) →
      heldInval s s.site.die (s.die s.site.die).regs.inval s.team = false →
      (∀ e ∈ s.others, heldInval s s.site.die (s.die s.site.die).regs.inval e.2 = false) →
      ∃ s', exec .tlbInvalidateDone s = .next s' ∧ (s'.die s.site.die).regs.inval.getLsbD 0 = false ∧
        (∀ k < 48, (s'.core (coreKey s.site.die k)).tlb = (s.core (coreKey s.site.die k)).tlb.filter fun t => !invalNames (s.die s.site.die).regs.inval t) ∧ s'.mem = s.mem) ∧
    (∀ v, ∃ s', exec (.rrcstepsWrite v) s = .next s' ∧ (s'.die 0).regs.rrcsteps = BitVec.ofNat 32 (min 8 (v.toNat % 16)) ∧ s'.rrc = [] ∧ s'.mem = s.mem) ∧
    (∀ v : W64, let named : Nat × Crew → Bool := fun e =>
        e.2.handle = (v.extractLsb' 32 32).toNat && e.2.crewno = (v.extractLsb' 0 32).toNat && e.2.missing ≠ 0 && (e.2.state == .saved || e.2.state == .saving)
      ∃ s', exec (.missingDecrement v) s = .next s' ∧ (s'.die s.site.die).regs.missReg = v ∧ s'.team = s.team ∧ s'.others = s.others ∧
        (s.crews.find? named = none → s'.crews = s.crews ∧ s'.mem = s.mem) ∧
        ∀ e, s.crews.find? named = some e →
          s'.crew e.1 = { e.2 with missing := e.2.missing - 1 } ∧ (∀ c, c ≠ e.1 → s'.crew c = s.crew c) ∧
          (e.2.state ≠ .saved → s'.mem = s.mem) ∧
          (e.2.state = .saved → homeBytes s' (e.2.area + 24) 4 = leBytes (e.2.missing - 1) 4 ∧
            ∀ a, (a < e.2.area + 20 ∨ e.2.area + 29 ≤ a) → homeByte s' a = homeByte s a)) ∧
    (∃ s', exec .frameZeroed s = .next s' ∧ s'.zeroed = s.zeroed.filter (· ≠ s.site.n) ∧ s'.mem = s.mem) ∧
    (∀ ck l, ∃ s', exec (.lineReplacement (.l1 ck l)) s = .next s' ∧ smGet {} (s'.core ck).l1 l = {} ∧ s'.mem = s.mem ∧ s'.dies = s.dies) ∧
    ∀ d l, (smGet {} (s.die d).l2 l).dirty = 0 → ∃ s', exec (.lineReplacement (.l2 d l)) s = .next s' ∧ smGet {} (s'.die d).l2 l = {} ∧ s'.mem = s.mem

/-- R282, R283, R287: the handler's words, in supervisor state. PMAP.RD gives each active lane its fault word. PMAP resolves the pages of the active
lanes' fault words in ascending order and issues with each lane's status on its way to vD, which is pending; LOAD_RETURN brings the statuses of a mask
word when no access through a collapsed leaf is waited for. PMISS with no page unresolved does nothing; with one page unresolved and room in the miss
ring it releases at SYS, posts the page's record and saves the crew with MISSING 1; with no room it waits.

R283, R284, R286: PMAP's work on one page. A PROT fault that no collapse mends, and WALK, give status 3; a valid leaf 0; a lazy leaf with the pool
empty 1, with a frame in the pool 0: the leaf becomes valid with that frame, without A and D and with its other fields kept, the pool's head moves on by
one, every byte of the frame reads as zero, and no other byte changes; anything else 2. A write to a read-duplicated leaf collapses it: the leaf keeps
the copy of the writer's base die with ATTR 0, no TLB holds the page, and a record of KIND 3 that gives the other frames back is posted. Where one of
these places lies in another of them nothing is said. -/
def Obligations.TranslationHandlerWords : Prop :=
  ((∀ d, LaneWord (.pmapRd d) d.toNat 2 (fun m l => (m.faddr l).toNat) fun _ _ => 0) ∧
  ∀ s : State, let t := s.team; let ctx := t.id.ctx; let cr := s.crew t.id.crew
    (∀ d, s.ready (.pmap d) → isMapped (((recWord s ctx 0).extractLsb' 9 43).toNat * 512) = true →
      (t.lanes = [] → Runs (.pmap d) s s .next) ∧
      (t.lanes ≠ [] → let w := maskWords t.id.width t.eff; let r := pmapPages ctx t.id.die (faddrPages t t.lanes) s
        let status := fun l => ((r.2.find? fun e => e.1 = (t.faddr l).toNat / 65536).map fun e => e.2.1).getD 0
        (∃ vp, Runs (.pmap d) s (r.1.started (.word (.pmap d.toNat w (t.lanes.map fun l => (l, status l)) (r.2.filterMap fun e => e.2.2))) vp t.r.spend) .next ∧
          ∀ q k, k < 32 → smGet 0 vp (q * 32 + k) = if q = d.toNat ∧ k ∈ w then s.nextOp + 1 else smGet 0 t.r.vpend (q * 32 + k)) ∧
        ((∀ l ∈ t.lanes, faddrCode (t.faddr l) = codePage ∧ ∃ e pa b, walk s ctx ((t.faddr l).toNat / 65536 * 65536) = .leaf e pa b) →
          r.1 = s ∧ ∀ l ∈ t.lanes, status l = 0))) ∧
    (∀ o d left sts gone, s.op s.site.op = some o → o.kind = .word (.pmap d left sts gone) → opCurrent s o = true → loadTurn s o = true → s.site.n ∈ left →
      (collapseBusy s o gone = true → exec (.loadReturn []) s = .next s) ∧
      (collapseBusy s o gone = false → s.site.n < 32 → ∃ s', exec (.loadReturn []) s = .next s' ∧ s'.mem = s.mem ∧
        smGet 0 (s'.teamAt o.team).r.vpend (d * 32 + s.site.n) = 0 ∧
        ∀ l v, sts.filter (fun e => e.1 / 32 = s.site.n) = [(l, v)] → (s'.teamAt o.team).vNow d l = BitVec.ofNat 32 v)) ∧
    (s.ready .pmiss → t.arr 1 = none → t.arr 3 = none →
      ((∀ l ∈ lanesOf t.id.width t.mSrc, ∃ e pa b, walk s ctx ((t.faddr l).toNat / 65536 * 65536) = .leaf e pa b) →
        ∃ s1, Runs .pmiss s s1 .next ∧ s1.mem = s.mem ∧ s1.team.r = t.r ∧ (s1.crew t.id.crew).state = cr.state) ∧
      ∀ p kind, lanesOf t.id.width t.mSrc ≠ [] → (∀ l ∈ lanesOf t.id.width t.mSrc, (t.faddr l).toNat / 65536 = p) → missKind s ctx p = some kind →
        (missRoom s ctx = false → ∃ s1, Waits .pmiss s s1 .missRing ∧ s1.mem = s.mem ∧ s1.team.r = t.r) ∧
        (missRoom s ctx = true → memBusy s t.key = false → spindleCount s t.id.die t.key (fun _ => true) = 0 → t.id.alive = true → t.id.tno < 16 →
          (s.liveTeams t.id.crew).Nodup → (∀ n ∈ s.liveTeams t.id.crew, n ≠ t.id.tno → (s.teamAt (teamKey t.id.crew n)).posted = 0) →
          let words := (lanesOf t.id.width t.mSrc).map t.faddr
          let flags := (if words.any (·.getLsbD 4) then 1 else 0) + if words.any (·.getLsbD 5) then 2 else 0
          ∃ s1, Runs .pmiss s s1 .next ∧ s1.team.r = t.r ∧ (s1.crew t.id.crew).state = .saving ∧ (s1.crew t.id.crew).missing = 1 ∧
            s1.mem = (postMiss (s.releaseTeam 6) ctx (leBytes (p * 65536) 8 ++ leBytes cr.handle 4 ++ leBytes cr.crewno 4 ++
              [BitVec.ofNat 8 kind, BitVec.ofNat 8 flags] ++ List.replicate 14 0)).mem))) ∧
  (∀ (s : State) (ctx d page code detail : Nat), let root := (s.context ctx).root; let r := pmapPage s ctx d page code detail
    let apart : Nat → Nat → Nat → Nat → Prop := fun a n b m => a + n ≤ b ∨ b + m ≤ a
    ((code = codeProt ∧ detail ≠ 4) ∨ code = codeWalk → r = (s, 3, none)) ∧
    (code ≠ codeWalk → (code ≠ codeProt ∨ detail = 4) →
      (∀ e pa b, walk s ctx (page * 65536) = .leaf e pa b → (code ≠ codeProt ∨ leafAttr e ≠ 2) → r = (s, 0, none)) ∧
      ((∀ e pa b, walk s ctx (page * 65536) ≠ .leaf e pa b) → (∀ e pa, walk s ctx (page * 65536) ≠ .lazyLeaf e pa) → r = (s, 2, none)) ∧
      (∀ e pa, walk s ctx (page * 65536) = .lazyLeaf e pa → let head := home32 s (root + 0x10)
        (head = home32 s (root + 0x14) → r = (s, 1, none)) ∧
        (head ≠ home32 s (root + 0x14) → let w := recWord s ctx 0x08
          let f := (home64 s ((w.extractLsb' 3 49).toNat * 8 + head.toNat % 2 ^ (w.extractLsb' 59 5).toNat * 8)).toNat % 2 ^ 36
          r.2 = (0, none) ∧ (∀ x, x / 65536 = f → homeByte r.1 x = 0 ∧ ∀ d k, plainByte r.1 d k x = 0) ∧ f ∈ r.1.zeroed ∧ r.1.team = s.team ∧
          (∀ x, x / 65536 ≠ f → (x < pa ∨ pa + 8 ≤ x) → (x < root + 0x10 ∨ root + 0x14 ≤ x) → homeByte r.1 x = homeByte s x) ∧
          (apart pa 8 (root + 0x10) 4 → apart pa 8 (f * 65536) 65536 → apart (root + 0x10) 4 (f * 65536) 65536 →
            home64 r.1 pa = (e &&& ~~~0x000FFFFFFFFF0180#64) ||| (BitVec.ofNat 64 f <<< 16) ||| 1#64 ∧ home32 r.1 (root + 0x10) = head + 1))) ∧
      ∀ e pa b, walk s ctx (page * 65536) = .leaf e pa b → code = codeProt → leafAttr e = 2 →
        let own := leafFrame e + d / 2 * 2 ^ 22; let others := ([0, 1, 2, 3].filter (· ≠ d / 2)).map fun k => leafFrame e + k * 2 ^ 22
        let leaf := (e &&& ~~~0x700FFFFFFFFF0000#64) ||| (BitVec.ofNat 64 own <<< 16); let s1 := setHome64 s pa leaf
        let w := recWord s1 ctx 0x18; let tail := home32 s1 (root + 0x24)
        let slot := (w.extractLsb' 5 47).toNat * 32 + tail.toNat % 2 ^ (w.extractLsb' 59 5).toNat * 32
        r.2 = (0, some (if b then (page / 8192 * 8192, 8192, others) else (page, 1, others))) ∧ r.1.team = s.team ∧
        (∀ ck, ∀ t ∈ (r.1.core ck).tlb, tlbHits ctx page t = false) ∧
        (apart pa 8 slot 32 → apart pa 8 (root + 0x24) 4 → apart slot 32 (root + 0x24) 4 →
          home64 r.1 pa = leaf ∧ home32 r.1 (root + 0x24) = tail + 1 ∧
          homeBytes r.1 slot 32 = leBytes (others.headD 0) 8 ++ leBytes (s.crew s.team.id.crew).handle 4 ++ leBytes 0 4 ++ [3, 0x30] ++ List.replicate 14 0)))

/-! ### Queue registers -/

/-- R22, R143, R145: QBIND with a port that exists, of a register that holds nothing, binds it: no result is left, SEQ stays, every other
register of the team and memory stay; on a control core the ray port's number in sA[8:0] raises ILL.ENG first (R83); a port that does not exist
raises QPORT with the number in XVAL.

R143, R203, R186: a push of 16 registers to a record queue of the context that is not SEALED and has POOL for them appends one record for each
active lane, lowest lane first; QPUSH.team to the launch port gives it the record of the lowest lane of M. Neither changes a register or
memory. A push to an unbound register raises QPORT.

R144, R204: QPOP and QTRY give the results of a register, oldest first, to the lanes of M in ascending order, and take those away; the
team forms give the oldest to every lane of M. Every word of a result goes to its own register, pD says which lanes of M received one,
and nothing else of the registers or memory changes. QPOP with nothing to give waits, unless its queue is SEALED; QTRY does not. -/
def Obligations.QueueWords : Prop :=
  (∀ (s : State) (q : BitVec 4) (a : BitVec 6), s.ready (.qbind q a) → let t := s.team; let v := (t.getS a.toNat).toNat; let x := t.qreg q.toNat
    (portOk v = true → v ≠ 1 → qBusy s q.toNat x = false →
      ∃ u, Runs (.qbind q a) s u .next ∧ u.team.qreg q.toNat = { port := v, seq := x.seq } ∧ (∀ k ≠ q.toNat, u.team.qreg k = t.qreg k) ∧
        u.team.r = t.r ∧ u.mem = s.mem ∧ u.crews = s.crews) ∧
    (v % 2 ^ 9 = 1 → t.onControl = true → Traps (.qbind q a) s s { code := codeEng, val := t.wordVal (.qbind q a) }) ∧
    (portOk v = false → (v % 2 ^ 9 = 1 → t.onControl = false) → Traps (.qbind q a) s s { code := codeQport, val := BitVec.ofNat 64 v }) ∧
    (portOk v = true → v ≠ 1 → qBusy s q.toNat x = true → Traps (.qbind q a) s s (qbusyTrap x))) ∧
  (∀ (s : State) (q : BitVec 4) (v : BitVec 7) (n : BitVec 5), let t := s.team; let x := t.qreg q.toNat; let k := x.port - 0x100
    (s.ready (.qpush q v n) → x.staged = [] → t.lanes = [] → Runs (.qpush q v n) s s .next) ∧
    (s.ready (.qpush q v n) → x.staged = [] → t.lanes ≠ [] → x.port = 0 → Traps (.qpush q v n) s s (qportTrap x)) ∧
    (s.ready (.qpush q v n) → x.staged = [] → t.lanes ≠ [] → 0x100 ≤ x.port → n = 15 → queueOf s t.id.ctx k = true → (s.rq k).state = .opened →
      t.lanes.length ≤ (s.rq k).pool →
      ∃ u, Runs (.qpush q v n) s u .next ∧
        (u.rq k).recs = (s.rq k).recs ++ t.lanes.map (fun l => (List.range 16).map fun j => t.getV (v.toNat + j) l) ∧
        (u.team.qreg q.toNat).staged = [] ∧ u.team.r = t.r ∧ u.mem = s.mem) ∧
    ∀ l r, s.ready (.qpushTeam q v n) → x.staged = [] → x.port = 4 → n = 15 → lanesOf t.id.width t.mSrc = l :: r → t.rSrc.vpend = [] →
      t.rSrc.vmarks = [] → t.pfx.grd = none → x.pushed.length < 256 →
      ∃ u, Runs (.qpushTeam q v n) s u .next ∧
        u.team.qreg q.toNat = { x with
          pushed := x.pushed ++
          [{ words := (List.range 16).map fun j => t.getV (v.toNat + j) l, lane := l, stamp := s.nextOp }] } ∧ u.team.r = t.r ∧ u.mem = s.mem) ∧
  (∀ (s : State) (q : BitVec 4) (v : BitVec 7) (n : BitVec 5) (p : BitVec 3), let t := s.team; let x := t.qreg q.toNat; let rs := popAvail s x
    let ls := lanesOf t.id.width t.mSrc; let dry := 0x100 ≤ x.port ∧ (s.rq (x.port - 0x100)).state = .closed
    x.port ≠ 1 → popCheck s x (n.toNat + 1) = none → (∀ e ∈ rs, e.words.length = n.toNat + 1) →
    (∀ i, (i = .qpop q v n p ∧ (rs = [] ∨ ls = [] → dry)) ∨ i = .qtry q v n p → s.ready i →
      ∃ u, Runs i s u .next ∧ popAvail u (u.team.qreg q.toNat) = rs.drop ls.length ∧
        (∀ e ∈ rs.zip ls, ∀ w < n.toNat + 1, u.team.vNow (v.toNat + w) e.2 = e.1.words.getD w 0) ∧
        (∀ l ∈ ls, p ≠ 0 → u.team.pNow p.toNat l = decide (l ∈ ls.take rs.length)) ∧
        (∀ r l, l < 1024 → (r < v.toNat ∨ v.toNat + n.toNat < r ∨ l ∉ ls) → u.team.vNow r l = t.vNow r l) ∧
        u.team.r.s = t.r.s ∧ u.mem = s.mem) ∧
    (∀ i, (i = .qpopTeam q v n p ∧ (rs = [] → dry)) ∨ i = .qtryTeam q v n p → s.ready i →
      ∃ u, Runs i s u .next ∧ popAvail u (u.team.qreg q.toNat) = rs.drop 1 ∧
        (∀ e ∈ rs.take 1, ∀ l ∈ ls, ∀ w < n.toNat + 1, u.team.vNow (v.toNat + w) l = e.words.getD w 0) ∧
        (∀ l ∈ ls, p ≠ 0 → u.team.pNow p.toNat l = decide (rs ≠ [])) ∧ u.team.r.s = t.r.s ∧ u.mem = s.mem) ∧
    (rs = [] → ¬dry → s.ready (.qpop q v n p) → Waits (.qpop q v n p) s s .result))

/-! ### The tile copy engine and the scratchpad -/

/-- R322, R324, R326, R327, R330, R332: the words over a crew's region table. RBIND without acquire reads a legal descriptor and makes the
entry ABSENT, or FULL (with 3, the window's bytes then read as zero), with GEN one more; RWAIT of an entry FREE or FULL goes on and of one
in motion waits; RFREE makes it FREE, with GEN one more and its fill gone when it was FILLING, and for one that is DRAINING has the drain free it
and completes once that is done; RSTAT gives STATE, GEN and POISON; CYIELD
and CYIELD.OFF set and clear the continuation; RSEED sets SEED and COUNTER. -/
def Obligations.CopyWindowWords : Prop :=
  ∀ (s : State) (e : BitVec 5), let t := s.team; let c := t.id.crew; let rg := (s.crew c).region e.toNat
    (∀ a m sc accs, s.ready (.rbind e a m 0 sc) → rg.state = .free → memBusy s t.key = false → m ≠ 1 →
      let va := t.getS64 a.toNat; let as := (if t.mSrc = 0 then [0] else lanesOf t.id.width t.mSrc).map fun k => (k, va)
      addrCheck as 64 false = none → translateLanes s as .read = .ok accs → ∀ x, accs.head? = some x → plainPoison s t.id.die t.id.core x.pa 64 = false →
      let w := words64 (plainBytes s t.id.die t.id.core x.pa 64) 8
      (tileFault (s.crew c) e.toNat (tileOf w) = none →
        ∃ u, Runs (.rbind e a m 0 sc) s u .next ∧ (u.crew c).region e.toNat =
            { desc := w, acq := false, scope := sc, gen := rg.gen + 1, poison := false, state := if m = 0 then .absent else .full } ∧
          (∀ k ≠ e.toNat, (u.crew c).region k = (s.crew c).region k) ∧ u.team = t ∧ u.mem = s.mem ∧
          ∀ j, smGet 0 (u.crew c).scratch j =
            if m = 3 ∧ (tileOf w).window.1 ≤ j ∧ j < (tileOf w).window.1 + (tileOf w).window.2 then 0 else smGet 0 (s.crew c).scratch j) ∧
      ∀ d, tileFault (s.crew c) e.toNat (tileOf w) = some d → Traps (.rbind e a m 0 sc) s s { code := codeCpDesc, detail := d, val := va }) ∧
    (∀ a m q sc, s.ready (.rbind e a m q sc) → rg.state ≠ .free →
      Traps (.rbind e a m q sc) s s { code := codeCpState, detail := rg.state.code, val := e.setWidth 64 }) ∧
    (s.ready (.rwait e) → (rg.state = .free ∨ rg.state = .full → Runs (.rwait e) s s .next) ∧
      (rg.state = .filling ∨ rg.state = .draining → Waits (.rwait e) s s .engine)) ∧
    (s.ready (.rfree e) → t.arr 4 = none → rg.state = .draining → ∃ u, Waits (.rfree e) s u .engine ∧ u.mem = s.mem ∧ u.crews = s.crews) ∧
    (∀ id, s.ready (.rfree e) → t.arr 4 = some id →
      ((s.op id).isSome = true → Waits (.rfree e) s s .engine) ∧
      (s.op id = none → Runs (.rfree e) s (s.mapTeam fun t => t.setArr 4 none) .next)) ∧
    (s.ready (.rfree e) → t.arr 4 = none → rg.state ≠ .draining → ∃ u, Runs (.rfree e) s u .next ∧
      (u.crew c).region e.toNat = { rg with state := .free, gen := if rg.state = .filling then rg.gen + 1 else rg.gen } ∧
      (rg.state = .filling → ∀ o ∈ u.ops, ∀ f, o.kind = .fill f → ¬(o.crew = c ∧ f.entry = e.toNat)) ∧ u.team.r = t.r ∧ u.mem = s.mem) ∧
    (∀ d, s.ready (.rstat e d) → ∃ u, Runs (.rstat e d) s u .next ∧ OnlyScalars [d.toNat] s u ∧
      u.team.sNow d.toNat = 0#15 ++ BitVec.ofBool rg.poison ++ rg.gen ++ BitVec.ofNat 8 rg.state.code) ∧
    (∀ o, s.ready (.cyield o) → Runs (.cyield o) s { s with team := { t with eng := { t.eng with cyield := some (t.target o) } } } .next) ∧
    (s.ready .cyieldOff → Runs .cyieldOff s { s with team := { t with eng := { t.eng with cyield := none } } } .next) ∧
    ∀ a b, s.ready (.rseed a b) → Runs (.rseed a b) s { s with team := { t with eng := { t.eng with
      seed := t.getS64 a.toNat, counter := t.getS64 b.toNat } } } .next

/-- R247, R272, R273, R329, R332: LDS and STS whose lanes are aligned, touching no window in motion: they issue, a lane out of range recorded in SPFAULT
when it holds none and dropped by STS; LDS takes along what its team's quantum buffer holds of its bytes, and STS goes to that buffer in deterministic
quantum mode, where the quantum ends before it when its lines do not fit, and after it when they exceed the buffer on their own. In either word a
misaligned lane raises ALIGN. RDRAIN of a FULL entry of at most 64 KiB whose pages translate
issues: the entry is DRAINING, and an accumulating drain with stochastic rounding advances COUNTER. -/
def Obligations.ScratchpadWordsIssue : Prop :=
  ∀ (s : State), let t := s.team; let cr := s.crew t.id.crew
    (∀ z d o sp, let as := memLanes t sp o; let n := szBytes z
      let quiet := ∀ x ∈ cr.regions, x.2.state = .free ∨ x.2.state = .full
      let accs : List LaneAcc := as.map fun a => { lane := a.1, va := a.2, pa := a.2.toNat }
      let noted := fun wr => s.mapTeam fun t => spRecord t wr (as.filter fun a => !spInRange cr a.2 n)
      (quiet → as ≠ [] → (∀ a ∈ as, a.2.toNat % n = 0) →
        (∀ g, s.ready (.lds z d o sp g) → ∃ vp, Runs (.lds z d o sp g) s ((noted false).loadStarted
          (fun h => .load .scratch z (g = 1) false d.toNat (maskWords t.id.width (maskOf (as.map Prod.fst))) accs h false)
          (accs.flatMap fun a => heldBytes t true a.pa n) vp t.r.spend) .next ∧
          ∀ r k, k < 32 → smGet 0 vp (r * 32 + k) =
            if d.toNat ≤ r ∧ r < d.toNat + szRegs z ∧ k ∈ maskWords t.id.width (maskOf (as.map Prod.fst)) then s.nextOp + 1 else smGet 0 t.r.vpend (r * 32 + k)) ∧
        (s.ready (.sts z d o sp) → let vals := (accs.filter fun a => spInRange cr a.va n).map fun a => (a, leBytes (t.getVn d.toNat a.lane (szRegs z)) n)
          let new := vals.map fun a => DqItem.store a.1.va a.1.pa true a.2; let items := t.dq.items ++ new
          let held := fun (full : Bool) => (noted true).mapTeam fun t => { t with dq := { t.dq with items := items, full := full } }
          (vals = [] → Runs (.sts z d o sp) s (noted true) .next) ∧
          (vals ≠ [] → t.id.quantum = none → Runs (.sts z d o sp) s ((noted true).started (.store .scratch vals) t.r.vpend t.r.spend) .next) ∧
          (vals ≠ [] → t.id.quantum.isSome = true →
            ((dqLines new).length ≤ 256 → (dqLines items).length ≤ 256 → Runs (.sts z d o sp) s (held t.dq.full) .next) ∧
            ((dqLines new).length ≤ 256 → 256 < (dqLines items).length → Waits (.sts z d o sp) s ((noted true).mapTeam Team.endQuantum) .quantum) ∧
            (256 < (dqLines new).length → Runs (.sts z d o sp) s (held true) .next)))) ∧
      ∀ a r, as.filter (fun e => e.2.toNat % n ≠ 0) = a :: r →
        let x : TrapInfo := { code := codeAlign, detail := n, val := a.2, mask := some (maskOf ((a :: r).map Prod.fst)) }
        (∀ g, s.ready (.lds z d o sp g) → Traps (.lds z d o sp g) s s x) ∧ (s.ready (.sts z d o sp) → Traps (.sts z d o sp) s s x)) ∧
    (∀ wr bad, (t.sp.valid = true ∨ bad = [] → spRecord t wr bad = t) ∧
      ∀ a l, bad = a :: l → t.sp.valid = false → spRecord t wr bad = { t with sp := { valid := true, wr := wr, off := a.2.setWidth 18 } }) ∧
    ∀ e a dt r f q l sc pages, s.ready (.rdrain e a dt r f q l sc) → let rg := cr.region e.toNat; let tile := tileOf rg.desc
      rg.state = .full → transPages s .write tile.pages = (s, .ok pages) → (if a = 1 then 4 * tile.count else tile.size) ≤ 65536 → t.eng.leave = .free →
      (a = 1 → tile.e = (if dt = 0 then 2 else 1) ∧ 4 * tile.count ≤ tile.wlen * 128 ∧ ∀ p ∈ pages, isHost p.2 = false) →
      ∃ u, Runs (.rdrain e a dt r f q l sc) s u .next ∧ (u.crew t.id.crew).region e.toNat = { rg with state := .draining } ∧
        u.ops = s.ops ++ [s.newOp (.drain {
          entry := e.toNat, acc := if a = 1 then some dt else none, sr := r = 1, seed := t.eng.seed, counter := t.eng.counter,
          free := f = 1, acq := q = 1, rel := l = 1, scope := sc, pages := pages, leave := .free })] ∧ u.team.busy = t.busyNow ∧ u.team.r = t.r ∧ u.mem = s.mem ∧
        u.team.eng.counter = t.eng.counter + (if a = 1 ∧ r = 1 then BitVec.ofNat 64 ((tile.count + 2 ^ 20 - 1) / 2 ^ 20) else 0)

/-- R324, R329: FILL_BEAT of a fill that may go on brings the next 128 bytes at most, in window order, into the scratchpad, and nothing
else changes there; FILL_COMPLETE, when all have arrived, makes the entry FULL. DRAIN_COMPLETE of a plain drain that may be performed gives
every byte of memory, as its team's core reads it, the last window byte that the tile puts there, every other byte what it was once what the other cores
of a fused cluster hold of the lines has reached L2, and the entry is FULL or FREE. A command waits for every earlier access of its team (R33). -/
def Obligations.FillsAndDrainsMoveTheTile : Prop :=
  ∀ (s : State) (o : Op), s.op s.site.op = some o → (s.crew o.crew).gen = o.gen → let cr := s.crew o.crew; let t := (s.teamAt o.team).id
    ((∃ x ∈ s.ops, x.team = o.team ∧ x.id < o.id ∧ x.kind.isMem = true ∧ waitsCommit s x = false) → mayEngine s o = false) ∧
    (∀ f, o.kind = .fill f → mayEngine s o = false → f.gen = (cr.region f.entry).gen → (cr.region f.entry).state = .filling → exec .fillBeat s = .next s) ∧
    (∀ f, o.kind = .fill f → let rg := cr.region f.entry; let tile := tileOf rg.desc
      f.gen = rg.gen → rg.state = .filling →
      (f.leave ≠ .asked → mayEngine s o = true → f.done < tile.size →
        let s1 := if f.done = 0 ∧ rg.acq = true then acquireAt s t.die t.core (s.meant o.team rg.scope.toNat) else s; let n := min 128 (tile.size - f.done)
        ∃ u, exec .fillBeat s = .next u ∧ (∀ j, smGet 0 (u.crew o.crew).scratch j =
            if tile.window.1 + f.done ≤ j ∧ j < tile.window.1 + f.done + n
            then plainByte s1 t.die t.core (pagePa f.pages (tile.va (j - tile.window.1))) else smGet 0 cr.scratch j) ∧
          u.mem = s1.mem ∧ u.team = s.team ∧ (∀ x ∈ u.ops, x.id = o.id → ∃ g, x.kind = .fill g ∧ g.done = f.done + n)) ∧
      (f.done = tile.size → ∃ u, exec .fillComplete s = .next u ∧ (u.crew o.crew).region f.entry = { rg with state := .full } ∧
        (∀ x ∈ u.ops, x.id ≠ o.id) ∧ u.mem = s.mem)) ∧
    ∀ d, o.kind = .drain d → d.acc = none → d.acq = false → d.rel = false → mayEngine s o = true → t.quantum = none →
      let rg := cr.region d.entry; let tile := tileOf rg.desc; (∀ k, smGet false cr.spoison k = false) →
      let w := (List.range tile.size).map fun k => (pagePa d.pages (tile.va k), [smGet 0 cr.scratch (tile.window.1 + k)])
      ∃ u, exec .drainComplete s = .next u ∧ (u.crew o.crew).region d.entry = { rg with state := if d.free then .free else .full } ∧
        (∀ x ∈ u.ops, x.id ≠ o.id) ∧ u.mem = s.mem ∧
        ∀ pa, plainByte u t.die t.core pa = (storedByte w pa).getD (plainByte (s.othersOut t.die t.core (storePas w)) t.die t.core pa)

/-! ### Scopes and atomics -/

/-- R19, R261, R262: FENCE.ACQ waits while a load of the team has not its value, and then acquires; FENCE.REL and FENCE.AR wait while a load, a store or
an atomic of it has not completed and, where the scope means POD or SYS, have its elements depart and wait while one has not completed; then they
release, and FENCE.AR acquires after that, in the caches of the team's core. No register changes. CREW means the scope of the domain that the crew is
bound to. -/
def Obligations.Fences : Prop :=
  ∀ (s : State) (sc : BitVec 3), let t := s.team; let n := s.meant t.key sc.toNat
    let s1 := if 5 ≤ n then flushTeam s t.id.die t.key (fun _ => true) else s; let left := spindleCount s1 t.id.die t.key fun _ => true
    (n = if sc = 1 then (s.crew t.id.crew).scope else sc.toNat) ∧
    (s.ready (.fenceAcq sc) → (loadsBusy s t.key = true → Waits (.fenceAcq sc) s s .fence) ∧
      (loadsBusy s t.key = false → Runs (.fenceAcq sc) s (acquireAt s t.id.die t.id.core n) .next)) ∧
    (∀ i u, (i = .fenceRel sc ∧ u = releaseAt s1 t.id.die t.id.core n) ∨
        (i = .fenceAr sc ∧ u = acquireAt (releaseAt s1 t.id.die t.id.core n) t.id.die t.id.core n) → s.ready i →
      (memBusy s t.key = true → Waits i s s .fence) ∧
      (memBusy s t.key = false → 5 ≤ n → left ≠ 0 → Waits i s s1 .fence) ∧
      (memBusy s t.key = false → (5 ≤ n → left = 0) → Runs i s u .next ∧ u.team = t)) ∧
    (acquireAt s t.id.die t.id.core n).team = t ∧
    ∀ o ∈ s.ops, o.team = t.key → t.group = none → waitsCommit s o = false →
      (o.kind.isLoad = true → loadsBusy s t.key = true) ∧ (o.kind.isMem = true → memBusy s t.key = true)

/-- R244, R262, R268: a release at PKG or beyond takes every byte of the core's write buffer, and of those of the cores that share its L1 in a fused
cluster, the one stored last at each place, to the home; and after an acquire there by another core a plain load reads the home, so it reads that byte,
if neither that core's write buffer nor the L2 of another die holds the place dirty. (Of the cores that share an L1 one at most holds a place.) -/
def Obligations.ReleaseThenAcquireSeesTheStore : Prop :=
  ∀ (s : State) (d k sc pa j : Nat) (b : Byte), 4 ≤ sc → j ∈ l1Sharers s d k → wbByte (s.core (coreKey d j)).wb (pa / 128) (pa % 128) = some b →
    (∀ i ∈ l1Sharers s d k, (∀ e ∈ (s.core (coreKey d i)).wb, e.2.dirty = e.2.valid) ∧
      (i ≠ j → wbByte (s.core (coreKey d i)).wb (pa / 128) (pa % 128) = none)) →
    k ∈ l1Sharers s d k ∧ homeByte (releaseAt s d k sc) pa = b ∧
    ∀ d' k', coreKey d' k' ≠ coreKey d j → wbByte (s.core (coreKey d' k')).wb (pa / 128) (pa % 128) = none →
      (d' ≠ d → (smGet {} (s.die d').l2 (pa / 128)).dirty.getLsbD (pa % 128) = false) →
      plainByte (acquireAt (releaseAt s d k sc) d' k' sc) d' k' pa = b

/-- R252, R294 to R298, R306, R307: an atomic word outside deterministic quantum mode whose lanes' addresses pass its checks issues once its
requests may enter the core's slots, and waits until then: the operation holds the lanes with their operands, its flag is busy, the result
registers are pending, and with ACQ the team waits for it; no register and, without REL, no memory changes. Without an active lane it only
releases and acquires as REL and ACQ say. APIN never faults and changes pins alone (R303). -/
def Obligations.AtomicWordsIssue : Prop :=
  ∀ (s : State) (w : BitVec 1) (d v : BitVec 7) (sp : BitVec 5), let t := s.team; let o := t.atOrd
    let as := t.lanes.map fun l => (l, laneAddr t sp v o.off l)
    (∀ i what, (i, what) ∈ (List.range 16).map (fun k => (Instr.amo (BitVec.ofNat 4 k) w d v sp, AtWhat.amo k)) ++
          (List.range 16).map (fun k => (Instr.red (BitVec.ofNat 4 k) w d v sp, AtWhat.red k)) ++
          [(.acas w d v sp, .acas), (.redx w d v sp, .redx), (.ald w d v sp, .ald), (.ast w d v sp, .ast)] ++ (if w = 0 then [(.acas2 d v sp, .acas2)] else []) →
      let a : AtomicOp := { what := what, wide := w = 1, d := d.toNat, spad := o.spad, lanes := [] }
      s.ready i → t.id.quantum = none →
      (as = [] → (o.rel = true → memBusy s t.key = false ∧ s.meant t.key o.scope < 5) → (o.acq = true → loadsBusy s t.key = false) →
        let s1 := if o.rel then s.releaseTeam o.scope else s
        Runs i s (if o.acq then s1.acquireTeam o.scope else s1) .next) ∧
      ∀ accs, as ≠ [] → o.spad = false → addrCheck as a.size false = none → translateLanes s as (if what = .ald then .read else .write) = .ok accs →
        hostFault s what accs = none → redPage s what accs = none → (o.rel = true → memBusy s t.key = false ∧ s.meant t.key o.scope < 5) →
        let a' := { a with lanes := atLanes s a accs }
        (o.rel = false → mayEnter s (.atomic a') = false → Waits i s s .slots) ∧
        (mayEnter s (.atomic a') = true → ∃ u : State, Runs i s u .next ∧ (∀ y ∈ s.ops, y ∈ u.ops) ∧ u.nextOp = s.nextOp + 1 ∧
          (∃ op ∈ u.ops, op.id = s.nextOp ∧ op.team = t.key ∧ op.flag = t.llFlag ∧ ∃ b, op.kind = .atomic b ∧ b.what = what ∧ b.deferred = false ∧
            b.lanes.map (fun l => (l.lane, l.pa)) = accs.map fun x => (x.lane, x.pa)) ∧
          u.team.busy = t.busyNow ∧ u.team.r.s = t.r.s ∧ u.team.r.v = t.r.v ∧ u.team.eng.acq = (if o.acq then some (s.nextOp, o.scope) else t.eng.acq) ∧
          (∀ r k, k < 32 → smGet 0 u.team.r.vpend (r * 32 + k) = if d.toNat ≤ r ∧ r < d.toNat + a.regs ∧ k ∈ maskWords t.id.width (maskOf (accs.map fun x => x.lane))
            then s.nextOp + 1 else smGet 0 t.r.vpend (r * 32 + k)) ∧ (o.rel = false → u.mem = s.mem))) ∧
    ∀ m, s.ready (.apin m v sp) → ∃ p, Runs (.apin m v sp) s { s with pins := p } .next

/-- R291, R293, R299 to R302, R306: ATOMIC_RETURN of an atomic with one lane on device memory, when it may be performed: the location, at the home with
the die's dirty bytes, is read, what the operation makes of it is written there and nowhere else, the old value goes to the result registers,
the flags that it raises become sticky, and the operation leaves.

R299, R300: what the integer operations, ACAS and AST write over an old value.

R266, R308, R310, R311: the host's answer for the one lane of an atomic on a host page, nothing earlier of its team on its bytes, no crew being saved:
the lane receives the old value, the host's memory holds what the operation makes of it, and no copy of the line that the core reads is older; a
timeout leaves a marker with DETAIL 3, and the operation leaves. -/
def Obligations.AtomicsArePerformed : Prop :=
  (∀ (s : State) (o : Op) (a : AtomicOp) (l : AtLane), s.op s.site.op = some o → o.kind = .atomic a → a.deferred = false → a.lanes = [l] → a.spad = false →
    isHost l.pa = false → l.lane < 1024 → opCurrent s o = true → mayPerform s o = true → let t := s.teamAt o.team
    let s0 := settleLine s t.id.die t.id.core (l.pa / 128); (a.what = .ast ∨ anyPoison s0 l.pa a.size = false) →
    let old := leNat (homeBytes s0 l.pa a.size); let r := atNew a l old
    ∃ u, exec .atomicReturn s = .next u ∧
      (∀ x, homeByte u x = match r.1 with
        | some v => if l.pa ≤ x ∧ x < l.pa + a.size then (leBytes v a.size).getD (x - l.pa) 0 else homeByte s0 x
        | none => homeByte s0 x) ∧
      (∀ k < a.regs, (u.teamAt o.team).vNow (a.d + k) l.lane = BitVec.ofNat 32 (old / 2 ^ (32 * k))) ∧
      (u.teamAt o.team).r.s = t.r.s ∧ (u.teamAt o.team).asticky = t.asticky ||| (a.flags ||| r.2) ∧ u.ops = s.ops.filter fun x => x.id ≠ o.id) ∧
  (∀ (a : AtomicOp) (l : AtLane) (old : Nat), old < 2 ^ atBits a.wide → l.x < 2 ^ atBits a.wide → let n := atBits a.wide
    let u : BitVec n := BitVec.ofNat n old; let x : BitVec n := BitVec.ofNat n l.x
    (a.what = .amo 0 → atNew a l old = (some (u + x).toNat, 0)) ∧ (a.what = .amo 2 → atNew a l old = (some (u &&& x).toNat, 0)) ∧
    (a.what = .amo 3 → atNew a l old = (some (u ||| x).toNat, 0)) ∧ (a.what = .amo 4 → atNew a l old = (some (u ^^^ x).toNat, 0)) ∧
    (a.what = .amo 5 → atNew a l old = (some l.x, 0)) ∧
    (a.what = .amo 6 → atNew a l old = (some (if x.toInt < u.toInt then x else u).toNat, 0)) ∧
    (a.what = .amo 7 → atNew a l old = (some (if u.toInt < x.toInt then x else u).toNat, 0)) ∧
    (a.what = .amo 8 → atNew a l old = (some (min old l.x), 0)) ∧ (a.what = .amo 9 → atNew a l old = (some (max old l.x), 0)) ∧
    (a.what = .acas ∨ a.what = .acas2 → atNew a l old = (if old = l.cmp then some l.x else none, 0)) ∧
    (a.what = .ald → (atNew a l old).1 = none) ∧ (a.what = .ast → atNew a l old = (some l.x, 0))) ∧
  (∀ (s : State) (o : Op) (a : AtomicOp) (l : AtLane) (old : BitVec 128), s.op s.site.op = some o → o.kind = .atomic a → a.deferred = false →
    a.lanes = [l] → l.lane = s.site.n → l.lane < 1024 → atAtHost a l = true → (s.crew o.crew).gen = o.gen → mayPerform s o = true →
    (∀ e ∈ s.crews, e.2.state ≠ .saved) →
    (let v := old.toNat % 2 ^ (8 * a.size); let t := (s.teamAt o.team).id
      ∃ u, exec (.hostAtomicCompletion .value old) s = .next u ∧ (∀ x ∈ u.ops, x.id ≠ o.id) ∧
        (∀ k < a.regs, (u.teamAt o.team).vNow (a.d + k) l.lane = BitVec.ofNat 32 (v / 2 ^ (32 * k))) ∧
        (∀ x, homeByte u x = if l.pa ≤ x ∧ x < l.pa + a.size then (leBytes ((atNew a l v).1.getD v) a.size).getD (x - l.pa) 0
          else homeByte (settleLine s t.die t.core (l.pa / 128)) x) ∧
        smGet {} (u.core (l1Home s t.die t.core (l.pa / 128))).l1 (l.pa / 128) = {} ∧ smGet {} (u.die t.die).l2 (l.pa / 128) = {}) ∧
    ∃ u, exec (.hostAtomicTimeout false old) s = .next u ∧ (∀ x ∈ u.ops, x.id ≠ o.id) ∧ u.mem = s.mem ∧
      ∀ k < a.regs, smGet none (u.teamAt o.team).r.vmarks (vKey (a.d + k) l.lane) = some (.hostAtomic 3 l.va))

/-- R19, R274: DQ_COMMIT of a crew that may commit, with no atomic deferred or in flight, and whose elements have completed where CREW means POD or SYS for
it: every team's buffer is empty, its count is 0 and it waits at no quantum end. On one core, bound to no wider domain, with stores to memory alone, a
crew of one team then reads the last byte stored at each place; a crew over several cores has the last byte stored at each place at the home, in team
and program order, when no cache held a dirty byte. -/
def Obligations.QuantumCommitPerformsTheStores : Prop :=
  ∀ s : State, let c := s.site.crew; let cr := s.crew c; commitGoes s c = true → (cr.commit = true ∨ cr.scope < 5) →
    (∀ o ∈ s.ops, o.crew = c → ∀ a, o.kind ≠ .atomic a) →
    let stored := fun n => (s.teamAt (teamKey c n)).dq.items.map fun x => match x with
      | .store _ p _ bs => (p, bs)
      | .atomic _ => (0, [])
      | .load _ => (0, [])
    (∀ n ∈ crewTeams s c, ∀ x ∈ (s.teamAt (teamKey c n)).dq.items, ∃ va pa bs, x = .store va pa false bs) →
    ∃ u, exec .dqCommit s = .next u ∧ (u.crew c).commit = false ∧
      (∀ n ∈ crewTeams s c, let t := u.teamAt (teamKey c n); t.dq.items = [] ∧ t.dq.count = 0 ∧ t.dq.atEnd = false ∧ t.r = (s.teamAt (teamKey c n)).r) ∧
      (cr.spots = [] → cr.scope = 1 → u.mem = s.mem ∧ ∀ n, crewTeams s c = [n] → let t := (s.teamAt (teamKey c n)).id
        ∀ pa, plainByte u t.die t.core pa = (storedByte (stored n) pa).getD (plainByte (s.othersOut t.die t.core (storePas (stored n))) t.die t.core pa)) ∧
      (cr.spots ≠ [] → (∀ k, (s.core k).wb = []) → (∀ d l, (smGet {} (s.die d).l2 l).dirty = 0) →
        ∀ pa, homeByte u pa = (storedByte ((crewTeams s c).flatMap stored) pa).getD (homeByte s pa))

/-! ### The matrix engine -/

/-- R343, R344, R354, R378, R379, R382, R383: MCLAIM gives 3 for an invalid range, 1 for one already claimed in part, 2 when the core has too few, and
otherwise claims the range cleared and gives 0; MRELEASE of a claimed range, once no started word uses it, one restored to await its members
among them, gives it up, and of another raises MSLOT; MGANG writes a legal gang register and raises MGANGX, with the old one, for another; MSTAT gives its
pair; MFENCE waits while a load, a store or a transposition of the team is in flight or a gang operation that it has joined is, and then goes on. -/
def Obligations.MatrixClaimsAndStatus : Prop :=
  ∀ s : State, let t := s.team; let c := t.id.crew
    (∀ k d a, s.ready (.mclaim k d a) → let v := t.getS a.toNat
      ∃ u, Runs (.mclaim k d a) s u .next ∧ u.mem = s.mem ∧ match rangeOf k.toNat v with
        | none => OnlyScalars [d.toNat] s u ∧ u.team.sNow d.toNat = 3
        | some r =>
          if s.matNow.claims k.toNat &&& rangeMask r ≠ 0 then OnlyScalars [d.toNat] s u ∧ u.team.sNow d.toNat = 1
          else if kindCount k.toNat < physUsed s t.id.die t.id.core k.toNat + r.2 then OnlyScalars [d.toNat] s u ∧ u.team.sNow d.toNat = 2
          else u.team.sNow d.toNat = 0 ∧ u.matNow.claims k.toNat = s.matNow.claims k.toNat ||| rangeMask r ∧
            (k = 0 → ∀ j, smGet 0 u.matNow.data j = (if r.1 * 16384 ≤ j ∧ j < (r.1 + r.2) * 16384 then 0 else smGet 0 s.matNow.data j) ∧
              smGet none u.matNow.coded j = if r.1 ≤ j ∧ j < r.1 + r.2 then none else smGet none s.matNow.coded j) ∧
            (k = 1 → ∀ j, smGet 0 u.matNow.acc j = if r.1 * 1024 ≤ j ∧ j < (r.1 + r.2) * 1024 then 0 else smGet 0 s.matNow.acc j) ∧
            (k = 2 → ∀ j, smGet 0 u.matNow.cb j = (if r.1 * 2048 ≤ j ∧ j < (r.1 + r.2) * 2048 then 0 else smGet 0 s.matNow.cb j) ∧
              smGet none u.matNow.cbType j = if r.1 ≤ j ∧ j < r.1 + r.2 then none else smGet none s.matNow.cbType j)) ∧
    (∀ k a, s.ready (.mrelease k a) → let v := t.getS a.toNat
      (∀ r, rangeOf k.toNat v = some r → (∀ j < r.2, (s.matNow.claims k.toNat).getLsbD (r.1 + j) = true) →
        let bits := if k = 0 then rangeMask r else if k = 1 then rangeMask r <<< 48 else rangeMask r <<< 52
        matBlocked s c s.nextOp (0, bits) = false → (∀ o ∈ s.matNow.ops, o.state = .restored → resMeet (0, bits) o.res = false) →
        ∃ u, Runs (.mrelease k a) s u .next ∧ u.matNow.claims k.toNat = s.matNow.claims k.toNat &&& ~~~rangeMask r ∧ u.team = t ∧ u.mem = s.mem) ∧
      (rangeOf k.toNat v = none → ∃ u, Traps (.mrelease k a) s u { code := codeMslot, detail := k.toNat, val := (v.extractLsb' 0 6).setWidth 64 } ∧ u.team = t) ∧
      ∀ r j, rangeOf k.toNat v = some r → ((List.range r.2).find? fun j => !(s.matNow.claims k.toNat).getLsbD (r.1 + j)) = some j →
        ∃ u, Traps (.mrelease k a) s u { code := codeMslot, detail := k.toNat, val := BitVec.ofNat 64 (r.1 + j) } ∧ u.team = t) ∧
    (∀ a, s.ready (.mgang a) → let v := t.getS a.toNat; let ms := gangTeams (v.setWidth 20)
      let good := v = 0 ∨ (v.extractLsb' 20 12 = 0 ∧ 2 ≤ ms.length ∧ ms.length ≤ 6 ∧ t.id.tno ∈ ms ∧ (∀ m ∈ ms, m < t.id.crewTeams) ∧ v.extractLsb' 16 4 ≠ 0)
      (good → Runs (.mgang a) s { s with team := { t with eng := { t.eng with gang := v.setWidth 20 } } } .next) ∧
      (¬good → Traps (.mgang a) s s { code := codeMgangx, detail := 1, val := t.eng.gang.setWidth 64 })) ∧
    (∀ d a, s.ready (.mstat d a) → let v := (t.getS a.toNat).toNat; ∃ u, Runs (.mstat d a) s u .next ∧ OnlyScalars [d.toNat, d.toNat + 1] s u ∧
      let x := u.team.sNow (d.toNat + 1) ++ u.team.sNow d.toNat
      (v = 0 → x = 0#16 ++ s.matNow.slots) ∧
      (v = 1 → ∃ l : BitVec 8, (∀ j < 8, l.getLsbD j = (smGet none s.matNow.cbType j).isSome) ∧
        x = 0#12 ++ t.eng.gang ++ l ++ 0#4 ++ s.matNow.tabs ++ s.matNow.cbs ++ 0#4 ++ s.matNow.banks) ∧
      (v = 2 → x = t.eng.stream0) ∧ (v = 3 → x = t.eng.stream1) ∧
      (v = 4 → x = BitVec.ofNat 64 (opBanks s.matNow (fun o => o.state == .held) + 256 * opBanks s.matNow fun o => o.state == .suspended || o.state == .restored)) ∧
      (5 ≤ v → x = 0)) ∧
    (s.ready .mfence → let idle := ∀ o ∈ s.ops, o.team = t.key → (∀ l, o.kind ≠ .mload l) ∧ (∀ m, o.kind ≠ .mst m) ∧ ∀ q, o.kind ≠ .mtrq q
      (idle → gangBusy s c t.id.tno = false → Runs .mfence s s .next) ∧ (¬idle ∨ gangBusy s c t.id.tno = true → Waits .mfence s s .fence))

/-- R342, R352, R378 to R380: words over a claimed bank, once no earlier word conflicts. MZERO makes its elements zero; MRD gives each active lane its element
as bits, as binary32 or saturated, and 0 beyond row 31; MWR writes them, with the flags of widening binary32; each leaves the other elements, and
MZERO and MWR discard a held operation on the bank. MST whose elements' pages translate issues at its place in start order, holding its operands. A bank that is not claimed raises MSLOT. -/
def Obligations.AccumulatorWords : Prop :=
  ∀ (s : State) (k : BitVec 2), let t := s.team; let mt := s.matNow; let at' := fun (i n : Nat) => k.toNat * 1024 + i * 32 + n
    let held := fun (m : Matrix) => ∀ o ∈ m.ops, o.state = .held → o.bank ≠ k.toNat
    (mt.banks.getLsbD k.toNat = true →
      (s.matFree (0, bankBit k.toNat) → s.ready (.mzero k) → ∃ u, Runs (.mzero k) s u .next ∧ u.team = t ∧ u.mem = s.mem ∧ held u.matNow ∧
        ∀ j, smGet 0 u.matNow.acc j = if j / 1024 = k.toNat then 0 else smGet 0 mt.acc j) ∧
      (∀ cv d a, s.matFree (bankBit k.toNat, 0) → s.ready (.mrd k cv d a) → let row := (t.getS a.toNat).toNat
        let f := fun l => let x := smGet 0 mt.acc (at' (row + l / 32) (l % 32))
          if 31 < row + l / 32 then (0, 0) else if cv = 0 then (x.toNat, 0) else if cv = 1 then fCvtV .f32 .rne 0 (unpackF .f64 x.toNat) else satI32 x
        ∃ s1, Runs (.mrd k cv d a) s (s1.flagged (flagsOf t.lanes fun l => (f l).2)) .next ∧ OnlyLanes d.toNat (if cv = 0 then 2 else 1) t.lanes s.matGo s1 ∧
          ∀ l ∈ t.lanes, ∀ j < (if cv = 0 then 2 else 1), s1.team.vNow (d.toNat + j) l = BitVec.ofNat 32 ((f l).1 / 2 ^ (32 * j))) ∧
      (∀ cv v a, s.matFree (0, bankBit k.toNat) → s.ready (.mwr k cv v a) → let row := (t.getS a.toNat).toNat
        let fl := if cv = 1 then flagsOf (t.lanes.filter fun l => row + l / 32 ≤ 31) fun l => (fCvtV .f64 .rne 0 (unpackF .f32 (t.getV v.toNat l).toNat)).2 else 0
        ∃ s1 : State, Runs (.mwr k cv v a) s (s1.flagged fl) .next ∧ s1.team = t ∧ s1.mem = s.mem ∧ held s1.matNow ∧
          (∀ l ∈ t.lanes, row + l / 32 ≤ 31 → smGet 0 s1.matNow.acc (at' (row + l / 32) (l % 32)) =
            if cv = 0 then t.getV64 v.toNat l else if cv = 1 then BitVec.ofNat 64 (fCvtV .f64 .rne 0 (unpackF .f32 (t.getV v.toNat l).toNat)).1
            else (t.getV v.toNat l).signExtend 64) ∧
          ∀ j, (∀ l ∈ t.lanes, row + l / 32 ≤ 31 → j ≠ at' (row + l / 32) (l % 32)) → smGet 0 s1.matNow.acc j = smGet 0 mt.acc j) ∧
      ∀ a b tc m l sc pages, s.ready (.mst a b k tc m l sc) → let base := t.getS64 a.toNat; let stride := (t.getS b.toNat).toInt; let z := mstSize tc
        let addrs := (List.range 1024).map (mstAddr base stride z)
        (∀ x ∈ addrs, vaClass x = .localVa) → base.toNat % z = 0 → stride % z = 0 →
        transPages s .write (sortAsc (distinct (addrs.map fun x => x.toNat / 65536))) = (s, .ok pages) → s.matFree (bankBit k.toNat, 0) →
        Runs (.mst a b k tc m l sc) s (s.matStarted (.mst {
          bank := k.toNat, base := base, stride := stride, t := tc, rm := m, rel := l = 1, scope := sc,
          seed := t.getS64 56, counter := t.getS64 58, pages := pages })) .next) ∧
    (mt.banks.getLsbD k.toNat = false → ∀ i, (i = .mzero k ∨ (∃ cv d a, i = .mrd k cv d a) ∨ (∃ cv v a, i = .mwr k cv v a) ∨
      ∃ a b tc m l sc, i = .mst a b k tc m l sc) → s.ready i →
      ∃ u, Traps i s u { code := codeMslot, detail := 1, val := k.setWidth 64 } ∧ u.team = t ∧ u.mem = s.mem)

/-- R346, R347, R373 to R376, R381: the words that load operands and that transpose them: when the check of their register, the claims and the addresses pass and no
earlier word conflicts, each issues at its place in start order; no register or memory changes. MTABLE has its table loaded when it completes. -/
def Obligations.OperandLoadsIssue : Prop :=
  ∀ s : State, let t := s.team; let mt := s.matNow
    let starts := fun (i : Instr) (k : OpKind) => ∃ u : State, Runs i s u .next ∧ u.ops = s.ops ++ [{ s.newOp k with id := s.matStamp }] ∧ u.nextOp = max s.nextOp (s.matStamp + 1) ∧
      u.team.busy = t.busyNow ∧ u.team.r = t.r ∧ u.mem = s.mem ∧ u.matNow.data = mt.data ∧ u.matNow.acc = mt.acc
    (∀ a b q sc pages, s.ready (.mload a b q sc) → let v := t.getS b.toNat; let slot := (v.extractLsb' 0 6).toNat; let n := (v.extractLsb' 8 13).toNat
      let va := t.getS64 a.toNat
      (0 < n → n ≤ 6144 → v &&& ~~~0x1FFF3F#32 = 0 → mt.missing slot (n * 128) = none → vaClass va = .localVa → va.toNat + n * 128 ≤ 2 ^ 48 → va.toNat % 128 = 0 →
        transPages s .read (rangePages va.toNat (n * 128)) = (s, .ok pages) → s.matFree (0, runBits slot (n * 128)) →
        starts (.mload a b q sc) (.mload { slot := slot, cbType := none, len := n * 128, va := va.toNat, pages := pages, code := none, acq := q = 1, scope := sc })) ∧
      (n = 0 ∨ 6144 < n ∨ v &&& ~~~0x1FFF3F#32 ≠ 0 → ∃ u, Traps (.mload a b q sc) s u { code := codeMshape, detail := 8, val := v.setWidth 64 } ∧ u.team = t ∧ u.mem = s.mem)) ∧
    (∀ a b sc pg ph pages eb hb, s.ready (.mloadc a b 0 sc) → let v := t.getS b.toNat; let slot := (v.extractLsb' 0 6).toNat; let tile := v.toNat / 256
      let ea := t.getS64 a.toNat + BitVec.ofNat 64 (16 * tile); let e : BitVec 128 := BitVec.ofNat 128 (leNat eb); let cd : Coded := { entry := e, tile := tile }
      let ha := t.getS64 (a.toNat + 2) + BitVec.ofNat 64 (e.extractLsb' 0 48).toNat; let h := tileHeader fun k => hb.getD k 0
      v.extractLsb' 6 2 = 0 → memBusy s t.key = false →
      vaClass ea = .localVa → ea.toNat + 16 ≤ 2 ^ 48 → ea.toNat % 16 = 0 → transPages s .read (rangePages ea.toNat 16) = (s, .ok pg) → readChecked s pg ea.toNat 16 = some eb →
      e.extractLsb' 108 20 = 0 → (e.extractLsb' 0 48).toNat % 8 = 0 → 136 ≤ cd.len →
      vaClass ha = .localVa → ha.toNat + cd.len ≤ 2 ^ 48 → ha.toNat % 8 = 0 → transPages s .read (rangePages ha.toNat 8) = (s, .ok ph) → readChecked s ph ha.toNat 8 = some hb →
      headerFault h (fun k => decide (k < 7)) (fun t => decide (t < 4)) = none →
      h.sc = cd.sc → h.cbook = cd.cbook → h.kind = cd.kind → h.table = cd.table → h.count = cd.count → mt.missing slot cd.len = none →
      transPages s .read (rangePages ha.toNat cd.len) = (s, .ok pages) → s.matFree (0, runBits slot cd.len) →
      starts (.mloadc a b 0 sc) (.mload { slot := slot, cbType := none, len := cd.len, va := ha.toNat, pages := pages, code := some cd, acq := false, scope := sc })) ∧
    (∀ a i sc pages, s.ready (.mtable a i 0 sc) → let va := t.getS64 a.toNat; let bs := readPages s t.id.die t.id.core pages va.toNat 384
      memBusy s t.key = false → vaClass va = .localVa → va.toNat + 384 ≤ 2 ^ 48 → va.toNat % 128 = 0 → transPages s .read (rangePages va.toNat 384) = (s, .ok pages) →
      s.matFree (0, tabBit i.toNat) → freqsOk (freqsOf fun k => bs.getD k 0) = true →
      ∃ u, Runs (.mtable a i 0 sc) s u .next ∧ u.matNow.tabs.getLsbD i.toNat = true ∧ (∀ k < 384, smGet 0 u.matNow.tab (i.toNat * 384 + k) = bs.getD k 0) ∧
        (∀ j, (j < i.toNat * 384 ∨ i.toNat * 384 + 384 ≤ j) → smGet 0 u.matNow.tab j = smGet 0 mt.tab j) ∧ u.team = t ∧ u.mem = s.mem) ∧
    (∀ a i ct q sc pages, s.ready (.mcbook a i ct q sc) → let va := t.getS64 a.toNat; let n := if ct.toNat < 2 then 2048 else 1024
      mt.cbs.getLsbD i.toNat = true → vaClass va = .localVa → va.toNat + n ≤ 2 ^ 48 → va.toNat % 128 = 0 → transPages s .read (rangePages va.toNat n) = (s, .ok pages) →
      s.matFree (0, cbBit i.toNat) →
      starts (.mcbook a i ct q sc) (.mload { slot := i.toNat, cbType := some ct, len := n, va := va.toNat, pages := pages, code := none, acq := q = 1, scope := sc })) ∧
    ∀ a m, s.ready (.mtrq a m) → let v := t.getS a.toNat; let src := (v.extractLsb' 0 6).toNat; let dst := (v.extractLsb' 8 6).toNat; let nkb := (v.extractLsb' 16 6).toNat + 1
      let st := (v.extractLsb' 22 3).toNat; let dt := (v.extractLsb' 25 3).toNat; let ls := operandLen st nkb (v.getLsbD 28); let ld := operandLen dt nkb true
      st < 5 → dt < 5 → v.extractLsb' 6 2 = 0 → v.extractLsb' 14 2 = 0 → v.extractLsb' 29 3 = 0 → mt.hasRun src ls = true → mt.hasRun dst ld = true →
      smGet none mt.coded src = none → runBits src ls &&& runBits dst ld = 0 →
      s.matFree (OpKind.mtrq { desc := v, rm := m, seed := t.getS64 56, counter := t.getS64 58 }).matRes →
      starts (.mtrq a m) (.mtrq { desc := v, rm := m, seed := t.getS64 56, counter := t.getS64 58 })

/-- R17, R33, R373, R376, R377, R380, R381: MLOAD_COMPLETE, when it may be performed, brings the bytes that its team's core reads, after the acquire of the word
that has one, into the slot run, with the poison of their lines, and nothing else of operand memory changes; of MCBOOK into its codebook, zero bytes after
them. MST_COMPLETE without release gives every byte of memory, as that core reads it, what the last element stored there says, and every other byte what it
was once the lines that the other cores of a fused cluster hold have reached L2; MTRQ_COMPLETE writes its run and leaves memory. Each operation leaves. -/
def Obligations.MatrixTransfersComplete : Prop :=
  ∀ (s : State) (o : Op), s.op s.site.op = some o → (s.crew o.crew).gen = o.gen → let cr := s.crew o.crew; let t := (s.teamAt o.team).id
    (∀ l, o.kind = .mload l → mayEngine s o = true → let s1 := if l.acq = true then acquireAt s t.die t.core (s.meant o.team l.scope.toNat) else s
      let got := fun k => plainByte s1 t.die t.core (pagePa l.pages (l.va + k)); let bad := fun k => plainPoison s1 t.die t.core (pagePa l.pages (l.va + k)) 1
      ∃ u, exec .mloadComplete s = .next u ∧ (∀ x ∈ u.ops, x.id ≠ o.id) ∧ u.mem = s1.mem ∧ let mt := (u.crew o.crew).mat
        (l.cbType = none → mt.cb = cr.mat.cb ∧ ∀ j, let k := j - l.slot * 16384
          smGet 0 mt.data j = (if l.slot * 16384 ≤ j ∧ k < l.len then got k else smGet 0 cr.mat.data j) ∧
          smGet false mt.poison j = (if l.slot * 16384 ≤ j ∧ k < l.len then bad k else smGet false cr.mat.poison j)) ∧
        (l.cbType ≠ none → l.len ≤ 2048 → mt.data = cr.mat.data ∧ ∀ j,
          smGet 0 mt.cb j = (if j / 2048 ≠ l.slot then smGet 0 cr.mat.cb j else if j % 2048 < l.len then got (j % 2048) else 0) ∧
          smGet false mt.cbPoison j = (if j / 2048 ≠ l.slot then smGet false cr.mat.cbPoison j else decide (j % 2048 < l.len) && bad (j % 2048)))) ∧
    (∀ m, o.kind = .mst m → m.rel = false → mayEngine s o = true → ∃ u, exec .mstComplete s = .next u ∧ (∀ x ∈ u.ops, x.id ≠ o.id) ∧ u.mem = s.mem ∧
      let w := (List.range 1024).map fun e => (pagePa m.pages (mstAddr m.base m.stride (mstSize m.t) e).toNat,
        leBytes (mstElem m e (smGet 0 cr.mat.acc (m.bank * 1024 + e))).1 (mstSize m.t))
      (∀ pa, plainByte u t.die t.core pa = (storedByte w pa).getD (plainByte (s.othersOut t.die t.core (storePas w)) t.die t.core pa)) ∧
      (m.t = 0 → ∀ e x, mstElem m e x = (x.toNat, 0))) ∧
    ∀ q, o.kind = .mtrq q → cr.mat.poison = [] → ∃ u, exec .mtrqComplete s = .next u ∧ (∀ x ∈ u.ops, x.id ≠ o.id) ∧ u.mem = s.mem ∧
      (u.crew o.crew).mat.data = (trqAll cr.mat q s.fresh).1.data ∧ (u.crew o.crew).mat.acc = cr.mat.acc

/-- R355, R356, R360, R370: MMA and MMAC. A member's word whose operation has issued leaves the latch and goes on, its flag busy while the operation is in
flight; one that comes before the others waits with its word, gang register and descriptor at the latch; the last starts the operation at step 0,
or resumes the one held on its bank, or, when a check of R360 fails, it and every member take that fault; a restored operation that matches
goes on in its own place. A team without a gang raises MGANGX. -/
def Obligations.GangWordsMeetAtTheLatch : Prop :=
  ∀ (s : State) (i : Instr) (k : BitVec 2) (a : BitVec 6) (x y : BitVec 4), i = .mma k a x y ∨ i = .mmac k a x → s.ready i →
    let t := s.team; let mt := s.matNow; let g := t.eng.gang
    let me : Arrival := { team := t.id.tno, gang := g, word := ((encodeParts i).map Prod.snd).getD 0, desc := t.getS a.toNat, status := .waiting }
    (∀ b id, mt.latch.find? (fun b => b.team = t.id.tno) = some b → b.status = .issued id →
      ∃ u, Runs i s u .next ∧ (∀ b ∈ u.matNow.latch, b.team ≠ t.id.tno) ∧ u.team.r = t.r ∧ u.mem = s.mem ∧
        u.team.busy = (if mt.ops.any (fun o => o.id = id) then t.busyNow else t.busy)) ∧
    (mt.latch.find? (fun b => b.team = t.id.tno) = none →
      (g = 0 → Traps i s s { code := codeMgangx, detail := 2, val := 0 }) ∧
      (arrivalFault s me = none → (∃ m ∈ gangTeams g, m ≠ t.id.tno ∧ ∀ b ∈ mt.latch, b.team = m → b.status ≠ .waiting) →
        ∃ u, Waits i s u .engine ∧ u.matNow.latch = mt.latch ++ [me] ∧ u.mem = s.mem) ∧
      (arrivalFault s me = none → (∀ m ∈ gangTeams g, m = t.id.tno ∨ ∃ b ∈ mt.latch, b.team = m ∧ b.status = .waiting) →
        let op := arrivalOp mt me s.nextOp; let fresh := ∀ h ∈ mt.ops, h.state = .restored → matMatches h op = false
        (∀ h, (mt.ops.find? fun h => h.state = .restored && matMatches h op) = some h → ∃ u, (Runs i s u .next ∨ Waits i s u .engine) ∧ u.mem = s.mem ∧
          u.nextOp = s.nextOp ∧ ∀ x ∈ u.matNow.ops, x.id = h.id → x.state = .suspended) ∧
        (fresh → ∀ f, gangFault mt op = some f → ∃ u, Traps i s u { code := f.1, detail := f.2.1, val := f.2.2 } ∧
          ∀ b ∈ u.matNow.latch, b.team ∈ gangTeams g → b.status = .fault f.1 f.2.1 f.2.2) ∧
        (fresh → gangFault mt op = none → ∃ u, (Runs i s u .next ∨ Waits i s u .engine) ∧ u.mem = s.mem ∧
          ∃ o ∈ u.matNow.ops, o.id = s.nextOp ∧ o.word = me.word ∧ o.desc = me.desc ∧ o.gang = g ∧ o.state = .started ∧
            o.steps = match mt.ops.find? fun h => matMatches h op with | some h => h.steps | none => 0)))

/-- R357, R361, R362, R364, R369, R371: the array. ARRAY_SCHEDULE with the array free and no other request for it gives it to the operation chosen and asks for leave. MATRIX_STEP, with leave, adds one
step's products to every element of the bank (integer types, of an MMA: exactly, modulo 2^64), leaves the other banks, and counts the step. MATRIX_COMPLETE after the last step ends
the operation and raises its flags in every member. MMAC_BLOCK_DECODE gives the next block's symbols or holds the operation, and MMAC_VERIFY, with sound ends, verifies it. -/
def Obligations.ArrayPerformsTheSteps : Prop :=
  ∀ s : State, let d := s.site.die; let ck := coreKey d s.site.core
    (∀ x, (s.core ck).array = none → (s.core ck).rival = none → chooseOp s (readyOps s d s.site.core) = some x →
      ∃ u, exec .arraySchedule s = .next u ∧ (u.core ck).array = some (x.1, x.2.id) ∧ u.mem = s.mem ∧
        ∃ cl, (u.arb d).waiting = (s.arb d).waiting ++ [{ who := .array x.1 x.2.id, amps := matAmps x.2.ta, cls := cl }]) ∧
    ∀ c o, siteArray s = some (c, o) → let mt := (s.crew c).mat; let blk := o.steps * matK o.ta / 32
      (o.steps < o.total → stepPoison mt o = false →
        (o.isC = false ∨ ∃ w, o.work = some w ∧ w.blk = blk ∧ w.syms ≠ [] ∧ (blk + 1 < o.nkb ∨ o.verified = true)) →
        ∃ u, exec .matrixStep s = .next u ∧ u.mem = s.mem ∧ (u.crew c).mat.acc = (matStep mt o).1.acc ∧ (u.crew c).mat.data = mt.data ∧
          (∀ x ∈ (u.crew c).mat.ops, x.id = o.id → ∃ y ∈ mt.ops, x.steps = y.steps + 1)) ∧
      (8 ≤ o.ta → o.isC = false → o.code = none → ∀ i < 32, ∀ n < 32, smGet 0 (matStep mt o).1.acc (o.bank * 1024 + i * 32 + n) = smGet 0 mt.acc (o.bank * 1024 + i * 32 + n) +
        BitVec.ofInt 64 ((List.range (matK o.ta)).foldl (fun z j => z + matInt o.ta (elemCode mt o.aslot o.ta (elemIdx i (o.steps * matK o.ta + j))) *
          matInt o.tb (elemCode mt o.bslot o.tb (elemIdx n (o.steps * matK o.ta + j)))) 0)) ∧
      (∀ j, j / 1024 ≠ o.bank → smGet 0 (matStep mt o).1.acc j = smGet 0 mt.acc j) ∧
      (o.total ≤ o.steps → (o.isC = true → o.verified = true) → ∃ u, exec .matrixComplete s = .next u ∧ (u.core ck).array = none ∧ u.mem = s.mem ∧
        (∀ x ∈ (u.crew c).mat.ops, x.id ≠ o.id) ∧ (u.crew c).mat.acc = mt.acc ∧
        ∀ m ∈ gangTeams o.gang, (u.teamAt (teamKey c m)).asticky = (s.teamAt (teamKey c m)).asticky ||| o.flags) ∧
      ∀ cd, o.tile mt = some cd →
        (o.steps < o.total → (∀ w, o.work = some w → w.blk ≠ blk ∨ w.syms = []) → decodePoison mt o cd = false →
          (∀ o', decodeBlock mt o cd = .ok o' → ∃ u, exec .mmacBlockDecode s = .next u ∧ (∀ x ∈ (u.crew c).mat.ops, x.id = o.id → x = o') ∧ u.mem = s.mem) ∧
          ∀ f marks, decodeBlock mt o cd = .error (f, marks) → ∃ u, exec .mmacBlockDecode s = .next u ∧ (u.core ck).array = none ∧ u.mem = s.mem ∧
            (∀ x ∈ (u.crew c).mat.ops, x.id = o.id → x.state = .held) ∧ ∀ b ∈ (u.crew c).mat.latch, b.team ∈ gangTeams o.gang →
              b.status = .fault (if f.len then codeStreamLen else codeStreamSyn) (f.sub.getD 255) (BitVec.ofNat 64 cd.tile)) ∧
        ∀ w, o.work = some w → o.verified = false → o.nkb ≤ w.blk + 1 → w.syms ≠ [] → endFault (mt.byte o.bslot) cd.len cd.count w.subs = none →
          ∃ u, exec .mmacVerify s = .next u ∧ (∀ x ∈ (u.crew c).mat.ops, x.id = o.id → x.verified = true ∧ x.issued = true) ∧ u.mem = s.mem

/-! ### The ray engine -/

/-- R389, R392 to R395, R419, R422, R426, R429, R432: the ray words on a register bound to the ray port; on another register each raises QPORT. HBIND,
after the acquire it asks for, takes a legal context, with which the records waiting on the register may form batches, and raises HCTX for
another; HLOG sets the log area, clears it for base 0 and raises HLOGX for an illegal one; both raise QBUSY while the register holds rays. HREPLAY
makes one ray for each active lane, or raises HFULL for more than 256; HSTAT gives the register's counts; HINV drops the node-cache lines of its range
and no others, or raises ADDR, and HINV.ALL drops all of the core's. -/
def Obligations.RayWords : Prop :=
  ∀ (s : State) (q : BitVec 4), let t := s.team; let x := t.qreg q.toNat; let c := t.id.crew; let rays := raysOf s c t.id.tno q.toNat
    (∀ i, (∃ a k sc, i = .hbind q a k sc) ∨ (∃ a, i = .hlog q a) ∨ (∃ v k sc, i = .hreplay q v k sc) ∨ (∃ d sel, i = .hstat d q sel) →
      x.port ≠ 1 → s.ready i → Traps i s s (qportTrap x)) ∧
    (∀ i, (∃ a k sc, i = .hbind q a k sc) ∨ (∃ a, i = .hlog q a) → x.port = 1 → rays ≠ [] → s.ready i → Traps i s s (qbusyTrap x)) ∧
    (x.port = 1 → rays = [] →
      (∀ a k sc, s.ready (.hbind q a k sc) →
        (memBusy s t.key = true → Waits (.hbind q a k sc) s s .fence) ∧
        ∀ accs y, memBusy s t.key = false → let va := t.getS64 a.toNat
          let as := (if t.mSrc = 0 then [0] else lanesOf t.id.width t.mSrc).map fun k => (k, va)
          addrCheck as 64 false = none → translateLanes s as .read = .ok accs → accs.head? = some y →
          let s1 := if k = 1 then s.acquireTeam sc.toNat else s; let w := words64 (plainBytes s1 t.id.die t.id.core y.pa 64) 8
          (plainPoison s1 t.id.die t.id.core y.pa 64 = true → Traps (.hbind q a k sc) s s1 { code := codeMceData, val := va &&& ~~~(0x7F#64) }) ∧
          (plainPoison s1 t.id.die t.id.core y.pa 64 = false →
            (∀ d, ctxFault w = some d → Traps (.hbind q a k sc) s s1 { code := codeHctx, detail := d, val := va }) ∧
            (ctxFault w = none → ∃ u, Runs (.hbind q a k sc) s u .next ∧ u.team.r = t.r ∧ u.mem = s1.mem ∧ u.cores = s1.cores ∧ let z := u.team.qreg q.toNat
              let bare : List Pushed → List Pushed := fun l => l.map fun p => { p with batch := none }
              z = { x with ctx := some w, staged := z.staged, pushed := z.pushed } ∧ bare z.pushed = bare x.pushed ∧ bare z.staged = bare x.staged))) ∧
      (∀ a, s.ready (.hlog q a) → let base := t.getS64 a.toNat; let lg := (t.getS (a.toNat + 2)).toNat; let n := (t.getS (a.toNat + 3)).toNat
        let legal := base.toNat % 128 = 0 ∧ 7 ≤ lg ∧ lg ≤ 20 ∧ 1 ≤ n ∧ n ≤ 2 ^ 24 ∧ vaClass base = .localVa
        let set : W64 → Nat → Nat → Prop := fun base lg n => ∃ u, Runs (.hlog q a) s u .next ∧ u.team.r = t.r ∧ u.mem = s.mem ∧ u.cores = s.cores ∧
          u.team.qreg q.toNat = { x with logBase := base, slotLog := lg, nslots := n, dropped := 0 }
        (base = 0 → set 0 0 0) ∧ (base ≠ 0 → legal → set base lg n) ∧
        (base ≠ 0 → ¬legal → Traps (.hlog q a) s s {
          code := codeHlogx, val := base, detail :=
          if base.toNat % 128 ≠ 0 then 1 else if lg < 7 ∨ 20 < lg then 2 else if n = 0 ∨ 2 ^ 24 < n then 3 else 4 }))) ∧
    (∀ v k sc, x.port = 1 → s.ready (.hreplay q v k sc) → x.staged = [] → let n := rayCount s c t.id.tno q.toNat + t.lanes.length
      let s1 := if k = 1 then s.acquireTeam sc.toNat else s
      (256 < n → Traps (.hreplay q v k sc) s s { code := codeHfull, detail := 1, val := q.setWidth 64 }) ∧
      (n ≤ 256 → k = 1 → memBusy s t.key = true → Waits (.hreplay q v k sc) s s .fence) ∧
      (n ≤ 256 → (k = 1 → memBusy s t.key = false) → (∀ k, x.pushed.length + (t.lanes.filter fun l => l / 32 = k).length ≤ 256) →
        ∃ u, Runs (.hreplay q v k sc) s u .next ∧ u.team.r = t.r ∧ u.mem = s1.mem ∧ u.cores = s1.cores ∧ let new := raysOf u c t.id.tno q.toNat
          new.length = rays.length + t.lanes.length ∧ (∀ r ∈ rays, r ∈ new) ∧
          ∀ l ∈ t.lanes, ∃ r ∈ new, r.tag = t.getV v.toNat l ∧ r.replay = true ∧ r.state = .run ∧ r.pos = { phase := 4 })) ∧
    (∀ d sel, x.port = 1 → s.ready (.hstat d q sel) → ∃ u, Runs (.hstat d q sel) s u .next ∧ OnlyScalars [d.toNat] s u ∧
      (sel = 0 → u.team.sNow d.toNat = BitVec.ofNat 32 (x.results.length * 2 ^ 16 + rays.length)) ∧
      (sel = 1 → u.team.sNow d.toNat = BitVec.ofNat 32 (rays.filter fun r => r.state = .call).length) ∧
      (sel = 2 → u.team.sNow d.toNat = BitVec.ofNat 32 (rays.filter fun r => r.state = .held).length) ∧
      (sel = 3 → u.team.sNow d.toNat = BitVec.ofNat 32 x.dropped)) ∧
    (∀ a b, s.ready (.hinv a b) → let va := t.getS64 a.toNat; let n := (t.getS b.toNat).toNat
      let bad : Nat → Prop := fun d => Traps (.hinv a b) s s { code := codeAddr, detail := d, val := va, mask := some t.m }
      let drops : (Nat → Prop) → Prop := fun hit => ∃ nd, Runs (.hinv a b) s (s.setCore t.coreK { s.core t.coreK with node := nd }) .next ∧
        ∀ l, Either (smGet none nd l) (n ≠ 0 ∧ hit l) none (smGet none (s.core t.coreK).node l)
      (vaClass va = .invalid → bad 0) ∧ (vaClass va = .localVa → 2 ^ 48 < va.toNat + n → bad 3) ∧ (vaClass va = .fabric → 2 ^ 45 < fabOff va + n → bad 3) ∧
      (vaClass va = .localVa → va.toNat + n ≤ 2 ^ 48 → drops fun l => s.inRange t.id.ctx t.id.die va.toNat n l) ∧
      (vaClass va = .fabric → fabOff va + n ≤ 2 ^ 45 → drops fun l => l * 128 < va.toNat + n ∧ va.toNat < l * 128 + 128)) ∧
    (s.ready .hinvAll → Runs .hinvAll s (s.setCore t.coreK { s.core t.coreK with node := [] }) .next)

/-- R389, R399 to R401, R404, R405, R414, R415, R421: records of a ray port that may be taken. TRACE makes a running ray at the root with the record's
numbers, or answers a bad one with its FAULT; RESUME lets the ray that its HANDLE names run on, its candidate offered when ACCEPT is set; ABORT
ends that ray; a HANDLE that names none is answered with FAULT 0x13, a bad RECORD with 0x10. The acquire that a record asks for is made. A ray whose
traversal ends gives its HIT or MISS.

R402, R403, R405: the moves of a ray that is not replayed: with FIRST and a hit it ends. At a slot of its node, whose line it has or asks for, a
node that breaks R403 ends it with the rule's DETAIL and INFO; an empty slot or one whose box it misses is passed; an interior one is entered, a
leaf's primitives are tested one by one, a user surface is met. After slot 3 it ends at the root, or goes up to the slot after its own.

R397, R403, R406 to R409: a primitive's entry and vertices, which the ray has or asks for, are checked in R403's order and tested, and a candidate
is offered. A box with a NaN bound or LO above HI, or beside which a ray with no direction along an axis stands, is not hit; a triangle or sphere
with a non-finite component gives no candidate. Comparisons are exact, the main axis is the lowest of the largest, and a shared edge that is no
point gets opposite signs in its two directions. -/
def Obligations.RayRecords : Prop :=
  (∀ s : State, let c := s.site.crew; let key := teamKey c s.site.team; let q := (s.teamAt key).qreg s.site.q
    (∀ p rest, q.pushed = p :: rest → q.port = 1 → q.results.length < 256 → (s.crew c).state = .run →
      (∀ o ∈ s.ops, o.team = key → o.kind.isMem = true → p.stamp ≤ o.id) → let w := p.words; let kind := recW w 0 % 16
      let taken : State → List QRes → Prop := fun u l => let y := (u.teamAt key).qreg s.site.q
        y.pushed = rest ∧ y.results = if (s.teamAt key).id.alive then q.results ++ l else q.results
      let acquires : State → Prop := fun u => ∃ v : State, v.mem = s.mem ∧ v.cores = s.cores ∧ v.dies = s.dies ∧ (v.teamAt key).id = (s.teamAt key).id ∧
        (∀ x, v.meant key x = s.meant key x) ∧ let a := recAcquire v key w; u.mem = a.mem ∧ u.cores = a.cores ∧ u.dies = a.dies
      let fault : Nat → Nat → QRes := fun reason d => { words := faultWords 4 reason d 0 (w.getD 2 0) 0 }
      (kind = 0 ∨ 3 < kind → ∃ u, exec .trace s = .next u ∧ taken u [{ words := faultWords 4 0x10 2 0 0 0 }] ∧ u.crews = s.crews ∧ u.mem = s.mem) ∧
      (kind = 1 → ∃ u, exec .trace s = .next u ∧
        (traceBad q w = none → taken u [] ∧ acquires u ∧ ∃ r ∈ (u.crew c).rays, r.team = s.site.team ∧ r.q = s.site.q ∧
          r.tag = w.getD 1 0 ∧ r.geo = traceGeom w ∧ r.state = .run ∧ r.pos = {} ∧ r.first = (w.getD 0 0).getLsbD 4) ∧
        ∀ reason d, traceBad q w = some (reason, d) → ∃ h, taken u [{ words := faultWords 4 reason d (w.getD 1 0) 0 0, kind := .final, handle := h }]) ∧
      (kind = 2 → ∃ u, exec .resume s = .next u ∧ (∀ d, recordBad w = some d → taken u [fault 0x10 d]) ∧
        (recordBad w = none → calledRay s (w.getD 2 0) = none → taken u [fault 0x13 0]) ∧
        ∀ r, recordBad w = none → calledRay s (w.getD 2 0) = some r → taken u [] ∧ acquires u ∧ ∀ y ∈ (u.crew c).rays, y.same r = true → y.state = .run ∧
          y.geo = (if bitsAt (recW w 0) 4 1 = 1 then r.offer (recD w 4) 3 r.user (recD w 6) (recD w 8) (recD w 10) else r).geo) ∧
      (kind = 3 → ∃ u, exec .abort s = .next u ∧ u.mem = s.mem ∧ u.cores = s.cores ∧ (∀ d, recordBad w = some d → taken u [fault 0x10 d]) ∧
        (recordBad w = none → calledRay s (w.getD 2 0) = none → taken u [fault 0x13 0]) ∧
        ∀ r, recordBad w = none → calledRay s (w.getD 2 0) = some r → taken u [] ∧ ∀ y, y ∈ (u.crew c).rays ↔ y ∈ (s.crew c).rays ∧ y.same r = false)) ∧
    (∀ r remote, (raysOf s c s.site.team s.site.q).find? (fun r => r.handle.toNat % 256 = s.site.n) = some r → rayReady s c r = true → (s.crew c).state = .run →
      r.log = false → r.lost = false → r.rel = false → rayStep (q.ctx.getD []) q r = .stop → ∃ u, exec (.rayFetchReturn remote) s = .next u ∧ u.mem = s.mem ∧
        ((u.teamAt key).qreg s.site.q).results = q.results ++ [{ words := endWords r, kind := .final, handle := r.handle }] ∧
        recW (endWords r) 0 % 16 = if r.geo.hit.isSome then 1 else 2) ∧
    ∀ (r : Ray) (t : W64) (k i : Nat) (a b h : W64), let y := r.offer t k i a b h
      (accepts r.seg r.geo.hit t k i = true → y.geo.hit = some (k, i) ∧ y.geo.tmax = t) ∧ (accepts r.seg r.geo.hit t k i = false → y = r)) ∧
  (∀ (c : List W64) (q : QReg) (r : Ray), let p := r.pos; let act := rayStep c q r; let base := c.getD 0 0
    (r.nextSlot c = { r with lines := (r.nextSlot c).lines, pos := { p with slot := p.slot + 1, phase := 0, primoff := 0 } }) ∧
    (∀ (b : W64) (off n : Nat) k, (rayVa b off = none → withRead r b off n k = .bvh 10 (b.toNat + off)) ∧
      (∀ va, rayVa b off = some va → (∀ l ∈ r.lines, l.1 ≠ va / 128) → withRead r b off n k = .need va) ∧ ∀ x, r.held b off n = some x → withRead r b off n k = k x) ∧
    (∀ n, let idx := fun j => nodeRef n j % 2 ^ 30; let inner := fun j => nodeRef n j / 2 ^ 30 = 1; let bad := fun j => inner j ∧ (idx j = 0 ∨ ctxNodes c ≤ idx j)
      let whole := bitsAt n 0x3A8 24 = 0 ∧ bitsAt n 0x3E0 32 = 0 ∧ (∀ j < 4, nodeRef n j / 2 ^ 30 = 0 → nodeRef n j = 0) ∧
        ∀ i < 4, ∀ j < 4, inner i → inner j → idx i = idx j → i = j
      (∀ j < 4, bad j → (∀ i < j, ¬bad i) → nodeBad c r n = some (1, idx j)) ∧
      ((∀ j < 4, ¬bad j) → (bitsAt n 0x3C0 32 ≠ p.frm → nodeBad c r n = some (2, p.node)) ∧
        (bitsAt n 0x3C0 32 = p.frm → (whole → nodeBad c r n = none) ∧ (¬whole → nodeBad c r n = some (3, p.node))))) ∧
    (r.first = true → r.geo.hit ≠ none → act = .stop) ∧
    ((r.first = true → r.geo.hit = none) →
      (p.phase = 0 → 4 ≤ p.slot → act = if p.node = 0 then .stop else .go [] { r with lines := [], pos := { p with phase := 1 } }) ∧
      (∀ n, r.held base (128 * p.frm) 128 = some n → p.phase = 1 →
        (∀ j < 4, nodeRef n j = 2 ^ 30 + p.node → (∀ i < j, nodeRef n i ≠ 2 ^ 30 + p.node) →
          act = .go [] { r with pos := { p with node := p.frm, frm := bitsAt n 0x3C0 32, slot := j + 1, phase := 0 } }) ∧
        ((∀ j < 4, nodeRef n j ≠ 2 ^ 30 + p.node) → act = .bvh 9 p.node)) ∧
      (p.phase = 0 → p.slot < 4 → ∃ k, act = withRead r base (128 * p.node) 128 k) ∧
      ∀ n, r.held base (128 * p.node) 128 = some n → let ref := nodeRef n p.slot; let box := slotBox r n p.slot
        (p.phase = 0 → p.slot < 4 →
          (∀ d i, p.slot = 0 → nodeBad c r n = some (d, i) → act = .bvh d i) ∧
          ((p.slot = 0 → nodeBad c r n = none) →
            (ref / 2 ^ 30 = 0 ∨ box = none → act = .go [] (r.nextSlot c)) ∧
            (box ≠ none → (ref / 2 ^ 30 = 1 → act = .go [] { r with lines := [], pos := { p with node := ref % 2 ^ 30, frm := p.node, slot := 0 } }) ∧
              (ref / 2 ^ 30 = 2 → r.log = false → act = .go [] { r with pos := { p with phase := 2, primoff := 0 } }) ∧
              (2 < ref / 2 ^ 30 → act = .go [] { r with pos := { p with phase := 3 } })))) ∧
        (p.phase = 2 → ∃ k, act = primTest c r (bitsAt n 0x380 40 + ref % 2 ^ 26 + p.primoff) k ∧ ∀ y : Ray,
          (p.primoff < bitsAt ref 26 4 → ∃ l, k y = .go [] { y with lines := l, pos := { y.pos with primoff := p.primoff + 1 } }) ∧
          (bitsAt ref 26 4 ≤ p.primoff → k y = .go [] (y.nextSlot c))) ∧
        (p.phase = 3 → (box = none → act = .go [] (r.nextSlot c)) ∧
          ∀ lim, box = some lim → act = userMeet c q r (ref % 2 ^ 30) (some lim) (.go [] (r.nextSlot c))))) ∧
  ((∀ (c : List W64) (r : Ray) (i : Nat) (k : Ray → RayAct), let wide := ctxPrec c; let m := if wide then 32 else 16; let act := primTest c r i k
    let offers : Option (W64 × W64 × W64) → Nat → RayAct := fun x kind => match x with | none => k r | some y => k (r.offer y.1 kind i y.2.1 y.2.2 0)
    (ctxPrims c ≤ i → act = .bvh 4 i) ∧ (i < ctxPrims c → ∃ f, act = withRead r (c.getD 1 0) (16 * i) 16 f) ∧
    ∀ e, i < ctxPrims c → r.held (c.getD 1 0) (16 * i) 16 = some e → let w := fun j => bitsAt e (32 * j) 32; let typ := w 0 / 2 ^ 30; let v := w 0 % 2 ^ 30
      let clean := w 3 = 0 ∧ w 1 < 2 ^ 30 ∧ w 2 < 2 ^ 30
      (2 ≤ typ → act = .bvh 8 i) ∧ (typ = 0 → ¬clean → act = .bvh 3 i) ∧ (typ = 1 → w 1 ≠ 0 → act = .bvh 3 i) ∧
      (typ = 0 → clean → (ctxVerts c ≤ v → act = .bvh 5 v) ∧ (v < ctxVerts c → ctxVerts c ≤ w 1 → act = .bvh 5 (w 1)) ∧
        (v < ctxVerts c → w 1 < ctxVerts c → ctxVerts c ≤ w 2 → act = .bvh 5 (w 2)) ∧
        ∀ x y z, v < ctxVerts c → w 1 < ctxVerts c → w 2 < ctxVerts c → r.held (c.getD 2 0) (m * v) m = some x → r.held (c.getD 2 0) (m * w 1) m = some y →
          r.held (c.getD 2 0) (m * w 2) m = some z →
          act = offers (triTest (if wide then .f64 else .f32) r.seg (vertexVals wide x) (vertexVals wide y) (vertexVals wide z)) 1) ∧
      (typ = 1 → w 1 = 0 → (ctxVerts c ≤ v → act = .bvh 5 v) ∧ (v < ctxVerts c → posDy (bitsAt e 64 64) = none → act = .bvh 3 i) ∧
        ∀ x rad, v < ctxVerts c → posDy (bitsAt e 64 64) = some rad → r.held (c.getD 2 0) (m * v) m = some x →
          act = offers ((sphereTest r.seg (vertexVals wide x) rad).map fun t => (t, 0, 0)) 2)) ∧
  (∀ (g : RaySeg) (b : List Nat), b.length = 6 → ((∃ x ∈ b, (unpackF .f32 x).rx = none) → boxTest g b = none) ∧
    ∀ a < 3, ∀ lo hi, (unpackF .f32 (b.getD a 0)).rx = some lo → (unpackF .f32 (b.getD (a + 3) 0)).rx = some hi → let o := RX.fin (compDy g.org a) (1, 0)
      (rxLe lo hi = false → boxTest g b = none) ∧ ((compDy g.dir a).1 = 0 → rxLe lo o = false ∨ rxLe o hi = false → boxTest g b = none)) ∧
  (∀ f g x y z, (∃ v ∈ x ++ y ++ z, v.dy = none) → triTest f g x y z = none) ∧ (∀ g x rad, (∃ v ∈ x, v.dy = none) → sphereTest g x rad = none) ∧
  (∀ a b : Dy, dyLe a b = true ↔ (a.1 : ℚ) * 2 ^ a.2 ≤ b.1 * 2 ^ b.2) ∧
  (∀ d : List Dy, let size : Nat → ℚ := fun k => |((d.getD k (0, 0)).1 : ℚ)| * 2 ^ (d.getD k (0, 0)).2
    mainAxis d < 3 ∧ (∀ k < 3, size k ≤ size (mainAxis d)) ∧ ∀ k < mainAxis d, size k < size (mainAxis d)) ∧
  ∀ (e : Dy) (a b : Dy × Dy × Dy), (dySub b.2.1 a.2.1).1 ≠ 0 ∨ (dySub b.1 a.1).1 ≠ 0 → edgeSign (dyNeg e) b a = !edgeSign e a b)

/-! ### The launch engine and crews -/

/-- R168, R181 to R184: LAUNCH, EVSIG, EVADD and RQBIND.stat issue: their flag is busy, the results of the first and the last are pending, and
LAUNCH and the adds clear the crew's idempotence. LOAD_RETURN brings what they do: LAUNCH, once the team's earlier accesses are done, gives 2 for a
record that is not aligned, 3 for one that cannot be read, otherwise the status of its checks, with a handle of 0 unless that is 0, and takes
nothing then; with status 0 a free entry holds the launch under the handle given; an add puts its event's count between 0 and 2^32 - 1, raises OF when
it clamps, and lets the teams go on whose EVWAIT it satisfies; RQBIND.stat tells the queue's state. EVWAIT goes on once its count was reached, after
an acquire, and waits before that; an event not of the context raises EVENT, a queue not of it RQUEUE; IDEM.CLR and IDEM.RD act on the crew's bit;
RQBIND attaches, detaches and tells.

R186, R205, R206: LAUNCH_PORT_RECORD takes the record at the head of a launch port that may be taken, of a team that has ended too, and answers
a live one with the status and the handle, and holds the launch of an accepted one;
FED_CREW_TIMEOUT, when its queue has waited 4,096 cycles, forms a crew of the records that stand in none; SYSTEM_SOFTWARE_SEAL seals an
OPEN queue. -/
def Obligations.LaunchEngine : Prop :=
  (∀ s : State, let t := s.team
    let issues := fun (i : Instr) (w : EngWord) (d n : Nat) (clears : Bool) => ∃ u, Runs i s u .next ∧ u.ops = s.ops ++ [s.newOp (.word w)] ∧ u.mem = s.mem ∧
      u.team.busy = t.busyNow ∧ u.team.r = { t.r with spend := u.team.r.spend } ∧ (clears = true → (u.crew t.id.crew).idem = false) ∧
      (∀ k, smGet 0 u.team.r.spend k = if d ≤ k ∧ k < d + n then s.nextOp + 1 else smGet 0 t.r.spend k) ∧ u.dies = s.dies ∧ u.events = s.events ∧ u.queues = s.queues
    (∀ d a q l sc, s.ready (.launch d a q l sc) →
      issues (.launch d a q l sc) (.launch d.toNat (t.getS64 a.toNat) (if q = 1 then some (dieScope (s.meant t.key sc.toNat)) else none) t.supSrc) d.toNat 2 true) ∧
    (∀ (i : Instr) (a : BitVec 6) (sc : BitVec 3) (n : Int), (i = .evsig a sc ∧ n = 1) ∨ (∃ b, i = .evadd a b sc ∧ n = (t.getS b.toNat).toInt) → s.ready i →
      let e := (t.getS a.toNat).toNat
      (e < 2 ^ 16 → eventOf s t.id.ctx e = true → issues i (.event e n (dieScope (s.meant t.key sc.toNat))) 0 0 true) ∧
      ((2 ^ 16 ≤ e ∨ eventOf s t.id.ctx e = false) → Traps i s s { code := codeEvent, val := (t.getS a.toNat).setWidth 64 })) ∧
    (∀ (o : Op) (remote : List RemoteLine), s.op s.site.op = some o → opCurrent s o = true → loadTurn s o = true → let w := s.teamAt o.team
      let now := fun (u : State) (k : Nat) => (u.teamAt o.team).sNow k
      (∀ d va acq sup, o.kind = .word (.launch d va acq sup) → earlierMem s o = false → let s0 := drainWb s w.id.die w.id.core
        let s1 := match acq with | none => s0 | some sc => s0.acquireFor o.team sc
        ∃ u, exec (.loadReturn remote) s = .next u ∧ (∀ x ∈ u.ops, x.id ≠ o.id) ∧ (∀ k < 2, smGet 0 (u.teamAt o.team).r.spend (d + k) = 0) ∧
          (va.toNat % 64 ≠ 0 → now u d = 2 ∧ now u (d + 1) = 0) ∧
          (va.toNat % 64 = 0 → ∀ s2, readObject s1 w.id.die w.id.ctx va 8 sup = (s2, none) → now u d = 3 ∧ now u (d + 1) = 0) ∧
          (va.toNat % 64 = 0 → ∀ s2 r, readObject s1 w.id.die w.id.ctx va 8 sup = (s2, some r) → let st := launchStatus s2 w.id.die w.id.ctx w.id.ceil.toNat r
            now u d = BitVec.ofNat 32 st ∧ (st ≠ 0 → now u (d + 1) = 0 ∧ (firstDone s2 = none → u.dies = s2.dies ∧ u.events = s2.events ∧ u.queues = s2.queues)) ∧
              (st = 0 → mayAccept s2 w.id.die w.id.ctx r → ∃ h, now u (d + 1) = BitVec.ofNat 32 h ∧ Accepted s2 u w.id.die w.id.ctx r h))) ∧
      (∀ e n sc, o.kind = .word (.event e n sc) → earlierMem s o = false → earlierAdd s o = false → let m := s.meant o.team sc; m < 5 →
        let sum : Int := (s.event e).count.toNat + n
        firstDone (evAdd (releaseAt s w.id.die w.id.core m) e n).1 = none → ∃ u, exec (.loadReturn remote) s = .next u ∧ (∀ x ∈ u.ops, x.id ≠ o.id) ∧
          ((u.event e).count.toNat : Int) = max 0 (min (2 ^ 32 - 1) sum) ∧ (∀ k ≠ e, u.event k = s.event k) ∧ (u.teamAt o.team).r = w.r ∧
          (∀ key v, (s.teamAt key).sched.wait = some (.event e v) → v ≤ (u.event e).count.toNat → (u.teamAt key).arr 5 ≠ none) ∧
          (u.teamAt o.team).asticky = (if sum < 0 ∨ 2 ^ 32 ≤ sum then w.asticky ||| flagOF else w.asticky)) ∧
      ∀ d n, o.kind = .word (.stat d n) → let q := s.rq n
        ∃ u, exec (.loadReturn remote) s = .next u ∧ (∀ x ∈ u.ops, x.id ≠ o.id) ∧ u.queues = s.queues ∧ u.mem = s.mem ∧ smGet 0 (u.teamAt o.team).r.spend d = 0 ∧
          now u d = BitVec.ofNat 32 ((if q.state = .closed then 2 else 1) * 2 ^ 30 + min q.attached 16383 * 2 ^ 16 + q.recs.length)) ∧
    (∀ a b sc, s.ready (.evwait a b sc) → let e := (t.getS a.toNat).toNat; let n := (t.getS b.toNat).toNat; let met := n ≤ (s.event e).count.toNat ∨ t.arr 5 ≠ none
      (2 ^ 16 ≤ e ∨ eventOf s t.id.ctx e = false → Traps (.evwait a b sc) s s { code := codeEvent, val := (t.getS a.toNat).setWidth 64 }) ∧
      (e < 2 ^ 16 → eventOf s t.id.ctx e = true → (¬met → Waits (.evwait a b sc) s s (.event e n)) ∧ (met → loadsBusy s t.key = true → Waits (.evwait a b sc) s s .fence) ∧
        (met → loadsBusy s t.key = false →
          Runs (.evwait a b sc) s ((s.acquireTeam (dieScope (s.meant t.key sc.toNat))).mapTeam fun t => t.setArr 5 none) .next))) ∧
    (s.ready .idemClr → ∃ u, Runs .idemClr s u .next ∧ (u.crew t.id.crew).idem = false ∧ u.team = t ∧ u.mem = s.mem) ∧
    (∀ d, s.ready (.idemRd d) → ∃ u, Runs (.idemRd d) s u .next ∧ OnlyScalars [d.toNat] s u ∧ u.team.sNow d.toNat = if (s.crew t.id.crew).idem then 1 else 0) ∧
    ∀ a : BitVec 6, let n := (t.getS a.toNat).toNat; let q := s.rq n
      (∀ i, i = .rqbindAttach a ∨ i = .rqbindDetach a ∨ (∃ d, i = .rqbindStat d a) → 256 ≤ n ∨ queueOf s t.id.ctx n = false → s.ready i →
        Traps i s s (rqueueTrap (t.getS a.toNat) 0)) ∧ (n < 256 → queueOf s t.id.ctx n = true →
      (s.ready (.rqbindAttach a) → (q.state = .closed → Traps (.rqbindAttach a) s s (rqueueTrap (t.getS a.toNat) 1)) ∧
        (q.state ≠ .closed → ∃ u, Runs (.rqbindAttach a) s u .next ∧ u.rq n = { q with producers := q.producers + 1 } ∧ u.team = t ∧ u.mem = s.mem)) ∧
      (s.ready (.rqbindDetach a) → (q.producers = 0 → Traps (.rqbindDetach a) s s (rqueueTrap (t.getS a.toNat) 2)) ∧
        (q.producers ≠ 0 → firstDone (detachQueue s.clearIdem n) = none → ∃ u, Runs (.rqbindDetach a) s u .next ∧ (u.rq n).producers = q.producers - 1 ∧
          (u.rq n).recs = q.recs ∧ (u.rq n).state = (if q.producers = 1 ∧ q.inb = false ∧ q.state = .opened then .closed else q.state) ∧ u.team = t)) ∧
      ∀ d, s.ready (.rqbindStat d a) → issues (.rqbindStat d a) (.stat d.toNat n) d.toNat 1 false)) ∧
  (∀ s : State, let key := teamKey s.site.crew s.site.team; let t := s.teamAt key; let x := t.qreg s.site.q; let n := s.site.q; let q := s.rq n
    (∀ p rest, x.pushed = p :: rest → x.port = 4 → (t.id.alive = true → x.results.length < 256) → (s.crew s.site.crew).state = .run →
      (∀ o ∈ s.ops, o.team = key → o.kind.isMem = true → p.stamp ≤ o.id) →
      let w := (List.range 8).map fun k => p.words.getD (2 * k + 1) 0 ++ p.words.getD (2 * k) 0; let st := launchStatus s t.id.die t.id.ctx t.id.ceil.toNat w
      ∃ u h, exec .launchPortRecord s = .next u ∧ (u.teamAt key).qreg s.site.q = { x with
          pushed := rest, results := if t.id.alive then x.results ++ [{ words := [BitVec.ofNat 32 st, BitVec.ofNat 32 h, 0, 0] }] else x.results } ∧
        (st ≠ 0 → h = 0) ∧ (st = 0 → mayAccept s t.id.die t.id.ctx w → Accepted s u t.id.die t.id.ctx w h) ∧ (u.teamAt key).r = t.r) ∧
    (∀ e, q.recs ≠ [] → q.added + 4096 ≤ s.now (n % 8) → launchOf s q.fed = some e → lFeed e.words = true → e.formed.foldl (· + ·) 0 ≤ q.recs.length →
      ∃ u, exec .fedCrewTimeout s = .next u ∧ (u.launchAt (handleDie q.fed) (handleEntry q.fed)).formed.foldl (· + ·) 0 = q.recs.length ∧ u.team = s.team ∧ u.mem = s.mem) ∧
    (q.state = .opened → ∃ u, exec .systemSoftwareSeal s = .next u ∧ (u.rq n).state = .closed ∧ u.team = s.team))

/-- R163 to R166, R170, R174, R192, R197 to R201: slots and crews. SLOT_BIND of an EMPTY slot whose row passes its checks starts a crew, and of another leaves it EMPTY with ERR;
CREW_START of a crew bound in all its slots, with no records to take and no command waiting, runs it, every team in its slot at the record's entry
with all lanes live; SLOT_SAVE, SAVE_COMPLETE, CREW_RESTORE take a crew out of its slots and back, its teams as the sections of its image have them, with the
next generation, and an image that cannot be loaded ends it with MCE.CREW; SLOT_DROP of an idempotent crew with nothing in flight discards it; CREW_END
of a crew whose teams have ended and whose words have completed empties its slots; WAIT_LIMIT_EXPIRY makes a waiter and promotes the saved crews of its
context.

R192, R194 to R197, R339: what a save image holds and what a restore takes from it. An image that its save area has room for, stored without
the codec, is read back section by section, under a header with its magic, version, count, handle, crew, generation, PENDING and MISSING. A
section's bytes (those of 0x01 to 0x03 are laid out by the model: log entry 13) give back the registers, predicates, pending bits, masks, program
counter, join stack and trap registers of the team, and the entry of the copy engine, that they were made of. -/
def Obligations.CrewsComeAndGo : Prop :=
  (∀ s : State, let d := s.site.die; let ck := coreKey d s.site.core; let sl := s.site.slot; let r := s.row ck sl; let c := s.site.crew; let cr := s.crew c
    let quiet := ∀ p ∈ cr.slotsOf, (s.row p.1 p.2).cmd = 0
    let holds : Nat → Prop := fun c => ∀ p ∈ (s.crew c).slotsOf, (s.row p.1 p.2).crew = c
    let leaves : State → Nat → Prop := fun u c => ∀ p ∈ (s.crew c).slotsOf, (u.row p.1 p.2).state = 0 ∧ (u.row p.1 p.2).valid = false
    (r.state = 0 → slotThere s.site.core sl = true →
      (bindBad s d s.site.core sl r = true → ∃ u, exec .slotBind s = .next u ∧ u.row ck sl = { r with err := true, valid := false } ∧ u.crews = s.crews ∧ u.mem = s.mem) ∧
      (bindBad s d s.site.core sl r = false → bindsTo s r = none → r.area = 0 → ∃ u, exec .slotBind s = .next u ∧
        u.row ck sl = { r with valid := true, err := false, state := 1, crew := s.nextOp + 1, cmd := 0 } ∧
        (u.crew (s.nextOp + 1)).state = .starting ∧ (u.crew (s.nextOp + 1)).crewno = r.crewno.toNat ∧ u.team = s.team ∧ u.mem = s.mem ∧
        ∀ e, launchOf s r.lhandle.toNat = some e → let y := u.crew (s.nextOp + 1)
          y.words = e.words ∧ y.ctx = e.ctx ∧ y.splen = if lSpread e.words then 0 else r.splen)) ∧
    (cr.state = .starting → allBound cr = true → lInq cr.words = none → quiet → lTeams cr.words ≤ 16 → ∃ u, exec .crewStart s = .next u ∧ (u.crew c).state = .run ∧
      ∀ n < lTeams cr.words, let t := u.teamAt (teamKey c n)
        t.id.alive = true ∧ t.id.crew = c ∧ t.id.tno = n ∧ t.coreK = (cr.spots.getD n (coreKey cr.die cr.core, cr.slot)).1 ∧ t.pc = cr.words.getD 0 0 ∧
        t.live = fullMask (lWidth cr.words) ∧ t.m = t.live ∧ t.cls = cr.ceil ∧ t.sup = false ∧ t.getS64 60 = cr.words.getD 1 0 ∧ t.busy = 0 ∧ t.join = []) ∧
    (r.state = 2 → ∃ u, exec .slotSave s = .next u ∧ (u.crew r.crew).state = .saving) ∧
    (cr.state = .saving → holds c → mayCapture (stopEngines s c) c = true → ∀ p, cr.slotsOf.head? = some p →
      let area := (s.row p.1 p.2).area.toNat; isMapped area = true → isMapped (area + 0x3FFFFF) = true →
      ∃ u, exec .saveComplete s = .next u ∧ (u.crew c).state = .saved ∧ (u.crew c).area = area ∧ (u.crew c).spots = [] ∧ leaves u c) ∧
    (cr.state = .restoring → allBound cr = true →
      let ends := ∃ u, exec .crewRestore s = .next u ∧ (u.crew c).cause = some (cr.cause.getD causeMce)
      (cr.area = 0 ∨ headerFits s cr = false → ends) ∧
      (cr.area ≠ 0 → headerFits s cr = true → pendingOf s c = 0 → cr.missing = 0 → (readImage s c = none → ends) ∧
        ∀ l w, readImage s c = some l → let v := loadSections c l (withTeams s c)
          quiet → engineRoom v c = true → buffersAgain c (teamKeys v c) v = some w → ∃ u, exec .crewRestore s = .next u ∧
            (u.crew c).state = .run ∧ (u.crew c).gen = (if cr.gen = 2 ^ 32 - 1 then 1 else cr.gen + 1) ∧ (u.crew c).promoted = none ∧
            ∀ k ∈ teamKeys w c, let a := u.teamAt k; let b := w.teamAt k
              a.r = b.r ∧ a.pc = b.pc ∧ a.live = b.live ∧ a.m = b.m ∧ a.join = b.join ∧ a.x = b.x ∧ a.sup = b.sup ∧ a.q = b.q ∧ a.busy = restoredFlags w k)) ∧
    (r.state = 2 → (s.crew r.crew).idem = true → (s.crew r.crew).state = .run → holds r.crew →
      (∀ o ∈ s.ops, o.crew ≠ r.crew) → ∃ u, exec .slotDrop s = .next u ∧ (u.crew r.crew).state = .none ∧ leaves u r.crew) ∧
    (cr.state = .run → holds c → s.liveTeams c = [] → cr.commit = false → matrixBusy cr = false → (∀ o ∈ s.ops, o.crew ≠ c) → portsBusy s c = false →
      (∀ k ∈ teamKeys s c, s.meant k (lScope cr.words) < 5 ∧ (s.teamAt k).dq.items = []) → cr.cause = none →
      ∃ u, exec .crewEnd s = .next u ∧ (u.crew c).state = .ended ∧ (u.crew c).cause = none ∧ leaves u c) ∧
    ∀ k, topClass (waiterClasses s c) = some k → let k' := max k (cr.waiter.getD 0); ∃ u, exec .waitLimitExpiry s = .next u ∧ u.team = s.team ∧ (u.crew c).waiter = some k' ∧
      ∀ c', (s.crew c').state = .saved → (s.crew c').ctx = cr.ctx → ∃ p, (u.crew c').promoted = some p ∧ (k' < 4 → k' ≤ p.toNat)) ∧
  ((∀ (s : State) (c : Nat), let cr := s.crew c; let l := crewSections s c; let u := writeImage s c; let a := cr.area
    let size := l.foldl (fun n x => upTo128 (n + x.bytes.length)) (upTo128 (64 + 16 * l.length))
    (s.die cr.die).saveTabs = [] → size ≤ 2 ^ 22 → (∀ pa, a ≤ pa → pa < a + 2 ^ 22 → isPoison s pa = false) →
      readImage u c = some l ∧ u.crews = s.crews ∧ u.team = s.team ∧ u.others = s.others ∧ homeBytes u a 64 = imageHeader s c l.length ∧
      ∀ pa, pa < a ∨ a + 2 ^ 22 ≤ pa → homeByte u pa = homeByte s pa) ∧
  (∀ (s : State) (c n : Nat), (imageHeader s c n).length = 64 ∧ let cr := s.crew c; let w := fun o => leNat (((imageHeader s c n).drop o).take 4)
    w 0 = 0x53564B4C ∧ w 4 = 1 + n % 2 ^ 16 * 2 ^ 16 ∧ w 8 = cr.handle % 2 ^ 32 ∧ w 12 = cr.crewno % 2 ^ 32 ∧ w 16 = cr.gen % 2 ^ 32 ∧
      w 20 = pendingOf s c % 2 ^ 32 ∧ w 24 = cr.missing % 2 ^ 32 ∧ w 28 = cr.classByte.toNat) ∧
  (∀ t b : Team, (let a := (rdScalars b (scalarBytes t)).1
      (∀ k < 64, a.sNow k = t.sNow k ∧ (smGet 0 a.r.spend k = 0 ↔ smGet 0 t.r.spend k = 0)) ∧
      a = { b with r := { b.r with s := a.r.s, spend := a.r.spend, smarks := a.r.smarks } }) ∧
    (b.id.width = t.id.width → b.id.nregs = t.id.nregs → t.id.width ≤ 1024 → let a := (rdVectors b (vectorBytes t)).1
      (∀ r < t.id.nregs, ∀ l < t.id.width, a.vNow r l = t.vNow r l) ∧ (∀ p < 8, smGet 0 a.r.p p = smGet 0 t.r.p p) ∧
      (∀ r < t.id.nregs, ∀ k < t.id.maskLen, smGet 0 a.r.vpend (r * 32 + k) = 0 ↔ smGet 0 t.r.vpend (r * 32 + k) = 0) ∧
      a = { b with r := { b.r with v := a.r.v, p := a.r.p, vpend := a.r.vpend, ppend := a.r.ppend, vmarks := a.r.vmarks } }) ∧
    (t.join.length < 2 ^ 32 → let a := (rdSeq b (seqBytes t)).1
      a.pc = t.pc ∧ a.live = t.live ∧ a.m = t.m ∧ a.id.alive = t.id.alive ∧ a.sup = t.sup ∧ a.scc = t.scc ∧ a.cls = t.cls ∧ a.join = t.join ∧ a.x = t.x ∧
      a.asticky = t.asticky ∧ a.aenable = t.aenable ∧ a.sp = t.sp ∧ a.dbg = t.dbg ∧ a.r = b.r ∧ a.q = b.q ∧ a.clause = none)) ∧
  ∀ r : Region, r.bytes.length = 80 ∧ (r.desc = [] ∨ (r.desc.length = 8 ∧ ∃ w ∈ r.desc, w ≠ 0) → regionOf (fun k => r.bytes.getD k 0) = r))

/-! ### Reset, registers, the host, sparing, soft errors -/

/-- R481 to R484: POWER_ON_RESET, HOT_RESET and FLR_PHYSICAL_FUNCTION leave every die, crew, team, queue and register of a control block as after reset, keep host memory
and boot the flash image, which runs and brings the codec tables when its version is not below the rollback counter, its root key has the fused digest and its
signature verifies, and leaves the machine in recovery otherwise (device memory as log entry 1 says, tables as log entry 98). D3HOT_ENTRY waits for launches; D3HOT_EXIT and D3COLD_ENTRY change the power state; FLASH_UPDATE in recovery boots the new
image; ATTESTATION_REQUEST gives the nonce with the digest of the running image, signed with the identity key's next leaf, refuses after 2^20 and offers nothing in recovery; CLOCK_CHANGE sets the die's clock.

R484, R486: FLR_VIRTUAL_FUNCTION of a virtual function leaves no crew, launch or record queue of its contexts, and its own registers as after reset but for the
allowance (log entry 70), with the RAS rings off; CONTEXT_TEARDOWN leaves no plan of the context on any die but one whose cancelled run
has a release still to make, which is freed with it; where no release has to wait, none. -/
def Obligations.ResetsAndTheEndOfFunctions : Prop :=
  (∀ s : State,
    let booted := fun (u : State) (i : Firmware) => (u.board.recovery = true ↔ s.board.accepts i = false) ∧ u.board.running = (if s.board.accepts i then i else {})
    (∀ i ∈ [Instr.powerOnReset, Instr.hotReset, Instr.flrPhysicalFunction], ∃ u, exec i s = .next u ∧ u.team = {} ∧ u.others = [] ∧ u.crews = [] ∧ (∀ d < 8, u.die d = { State.reset.die d with saveTabs := if u.board.recovery then [] else bootTables }) ∧
      u.cores = State.reset.cores ∧ u.queues = [] ∧ u.events = [] ∧ u.funcs = State.reset.funcs ∧ u.ops = [] ∧ u.board.power = 0 ∧ u.board.flash = s.board.flash ∧
      booted u s.board.flash ∧ u.board.rollback = s.board.rollback ∧ u.board.fused = s.board.fused ∧ u.board.identity = s.board.identity ∧
      ∀ pa, homeByte u pa = if isHost pa then homeByte s pa else memDefault) ∧
    (s.board.power = 0 → (anyLaunch s = true → exec .d3hotEntry s = .next s) ∧
      (anyLaunch s = false → ∃ u, exec .d3hotEntry s = .next u ∧ u = { s with board := { s.board with power := 1 }, progress := s.progress + 1 })) ∧
    (s.board.power = 1 → ∃ u, exec .d3hotExit s = .next u ∧ u = { s with board := { s.board with power := 0 }, progress := s.progress + 1 }) ∧
    (∃ u, exec .d3coldEntry s = .next u ∧ u.board.power = 2 ∧ u.crews = [] ∧ u.team = {} ∧ u.board.flash = s.board.flash ∧ ∀ pa, isHost pa = false → homeByte u pa = memDefault) ∧
    (∀ v x, let i : Firmware := { toSignedCode := x, version := v }; (s.board.recovery = false → exec (.flashUpdate v x) s = .next s) ∧
      (s.board.recovery = true → ∃ u, exec (.flashUpdate v x) s = .next u ∧ u.board.flash = i ∧ booted u i ∧ u.mem = s.mem)) ∧
    (∀ n, (s.board.recovery = true → exec (.attestationRequest n) s = .next s) ∧
      (s.board.recovery = false → s.board.power = 0 → s.board.leaf < 2 ^ 20 → exec (.attestationRequest n) s =
        let h := sha256 (leBytes s.board.running.version.toNat 4 ++ s.board.running.code)
        .next { s with board := { s.board with leaf := s.board.leaf + 1 }, out := s.out ++ [.attest n h s.board.leaf (hssSign s.board.identity s.board.leaf (leBytes n.toNat 8 ++ h))] }) ∧
      (s.board.recovery = false → s.board.power = 0 → 2 ^ 20 ≤ s.board.leaf → exec (.attestationRequest n) s = .next { s with out := s.out ++ [.refuseAttest] })) ∧
    ∀ b, ∃ u, exec (.clockChange b) s = .next u ∧ (u.die s.site.die).slow = b ∧ (u.die s.site.die).regs = (s.die s.site.die).regs ∧ u.team = s.team ∧ u.mem = s.mem) ∧
  (∀ s : State, let f := s.site.n; let own := fun (c : Nat) => (∃ e ∈ s.contexts, e.1 = c) ∧ (s.context c).func = f
    (1 ≤ f → f ≤ 16 → (∀ d, (s.die d).regs.ras.base = 0) → ∃ u, exec .flrVirtualFunction s = .next u ∧ (∀ c, own (s.crew c).ctx → (u.crew c).state = .none) ∧
      (∀ d k, own (s.launchAt d k).ctx → (u.launchAt d k).state = .free) ∧ (∀ n, own (s.rq n).ctx → (u.rq n).state = .free) ∧ u.fn f = { allow := (s.fn f).allow }) ∧
    ∃ u, exec .contextTeardown s = .next u ∧ ∀ d < 8, ∀ k, (s.plan d k).used = true → (s.plan d k).ctx = f → let p := u.plan d k
      (p.used = false ∨ p.torn = true ∧ p.run.ending ≠ none) ∧
      ((∀ d k, (s.plan d k).run.ending = none ∧ s.meant (s.plan d k).run.team ((s.plan d k).run.rel.getD 0) < 5) → p.used = false))

/-- R36, R40, R163, R199, R207, R439, R463, R477 to R480, R512: REGISTER_WRITE changes the register it names and nothing else, kept within its bounds: in a
die's control block the arbiter's POOL and RAMP, WAITLIM, die 0's shares of the LLC and of HBM, AGELIM, RTIMEOUT, DEVNO and the job table, the fault and
RAS rings, the rows of a slot table; out of recovery in BAR0 SQBASE, SQCTL and CQBASE of a function and the allowances in the physical
function's, and the AtomicOp Requester Enable of Device Control 2 (log entry 95). HOST_SUBMIT and CQHEAD_WRITE write SQTAIL and CQHEAD out of
recovery, and nothing is read outside D0; an inbound AtomicOp is answered Unsupported Request; LEAVE_GRANT gives the requester that the arbiter picks at
its class as it stands its leave, and counts its amperes (those of an operation that the grant stops on the array go back). -/
def Obligations.RegistersAndTheHost : Prop :=
  ∀ s : State, let d := s.site.die; let f := s.site.n - 1; let regs := (s.die d).regs
    let fits : Nat → Nat → Nat → Nat → Prop := fun lo hi x y => lo ≤ y ∧ y ≤ hi ∧ (lo ≤ x → x ≤ hi → y = x) ∧ (x < lo → y = lo) ∧ (hi < x → y = hi)
    (∀ (off : BitVec 32) (v : W64), s.site.n = 0 → let o := off.toNat; let w := v.toNat % 2 ^ 32
      let at' : Nat → DieRegs → Prop := fun d r => exec (.registerWrite off v) s = .next (s.setDie d { s.die d with regs := r })
      (o = 0x100 → ∃ p r, exec (.registerWrite off v) s = .next (s.setArb d { s.arb d with pool := p, ramp := r }) ∧ fits 40 825 (w / 2 ^ 21) p ∧
        fits 1 255 (w / 2 ^ 13 % 256) r) ∧
      (o = 0x180 → at' d { regs with waitlim := BitVec.ofNat 32 (max 1024 w) }) ∧
      (∀ c < 4, (d ≠ 0 → o = 0x200 + 8 * c ∨ o = 0x204 + 8 * c → exec (.registerWrite off v) s = .next s) ∧
        (d = 0 → o = 0x200 + 8 * c → at' 0 { regs with ways := smSet 4 regs.ways c (BitVec.ofNat 32 (min 16 (w % 32))) }) ∧
        (d = 0 → o = 0x204 + 8 * c → at' 0 { regs with bw := smSet 16 regs.bw c (BitVec.ofNat 32 (min 64 (w % 128))) })) ∧
      (o = 0x400 → ∃ x, fits 256 65536 (w % 2 ^ 17) x ∧ at' d { regs with fab := { regs.fab with agelim := BitVec.ofNat 32 x } }) ∧
      (o = 0x404 → at' d { regs with fab := { regs.fab with rtimeout := BitVec.ofNat 32 (max 0x10000 w) } }) ∧
      (o = 0x408 → at' d { regs with fab := { regs.fab with devno := BitVec.ofNat 32 (w % 2 ^ 17) } }) ∧
      (∀ j < 16, o = 0x410 + 8 * j → at' d { regs with fab := { regs.fab with jobs := smSet 0 regs.fab.jobs j (v &&& 0x8000FFFF0000FFFF) } }) ∧
      (∀ b ∈ [0x500, 0x520], let r := if b = 0x500 then regs.ifl else regs.ras
        let ring : RingRegs → Prop := fun r => at' d (if b = 0x500 then { regs with ifl := r } else { regs with ras := r })
        (o = b → ring { r with base := v }) ∧ (o = b + 0xC → ring { r with head := v.setWidth 32 }) ∧
        (o = b + 8 → ring { r with log := if 6 ≤ w % 32 ∧ w % 32 ≤ 20 then BitVec.ofNat 32 (w % 32) else 6 })) ∧
      ∀ k i, slotThere k i = true → let ck := coreKey d k; let r := s.row ck i; let b := 0x10000 + 0x400 * k + 32 * i
        let row : SlotRow → Prop := fun r => exec (.registerWrite off v) s = .next (s.setRow ck i r)
        (o = b → r.state = 0 → v.getLsbD 31 = false → row { r with valid := false, ceil := v.extractLsb' 26 2, qos := v.extractLsb' 24 2, idem := v.getLsbD 23 }) ∧
        (o = b + 4 → row { r with lhandle := v.setWidth 32 }) ∧ (o = b + 8 → row { r with crewno := v.setWidth 32 }) ∧ (o = b + 0x18 → row { r with area := v }) ∧
        (o = b + 0xC → row { r with rfbase := w / 2 ^ 16 % 2 ^ 9, rflen := w % 2 ^ 10 }) ∧ (o = b + 0x10 → row { r with spbase := w / 2 ^ 16 % 2 ^ 11, splen := w % 2 ^ 12 })) ∧
    (∀ (off : BitVec 32) (v : W64), 1 ≤ s.site.n → s.site.n ≤ 17 → let o := off.toNat; let x := s.fn f; let lg := (v.extractLsb' 4 4).toNat
      let put : Nat → HostFunc → Prop := fun f x => exec (.registerWrite off v) s = .next (s.setFn f x)
      (s.board.recovery = true → exec (.registerWrite off v) s = .next s) ∧ (s.board.recovery = false →
        (o = 0 → put f { x with sqbase := v }) ∧ (o = 0x18 → put f { x with cqbase := v }) ∧
        (o = 8 → put f { x with sqctl := BitVec.ofNat 32 ((if 4 ≤ lg ∧ lg ≤ 12 then lg else 4) * 16 + v.toNat % 8) }) ∧
        ∀ g ≤ 16, f = 0 → o = 0x1000 + 8 * g → put g { s.fn g with allow := BitVec.ofNat 32 (v.toNat % 64) })) ∧
    (∀ v g, s.site.n = 32 + g → g ≤ 16 → s.board.recovery = false → exec (.registerWrite 0 v) s = .next (s.setFn g { s.fn g with atomics := v.getLsbD 6 })) ∧
    (∀ v, (s.board.recovery = true → exec (.hostSubmit v) s = .next s ∧ exec (.cqheadWrite v) s = .next s) ∧
      (s.board.recovery = false → (∃ u, exec (.hostSubmit v) s = .next u ∧ (u.fn s.site.n).sqtail = v) ∧
        (s.board.power ≠ 0 → exec (.hostSubmit v) s = .next (s.setFn s.site.n { s.fn s.site.n with sqtail := v })) ∧
        ∃ u, exec (.cqheadWrite v) s = .next u ∧ (u.fn s.site.n).cqhead = v)) ∧
    exec .inboundAtomicop s = .next { s with out := s.out ++ [.unsupported s.site.n] } ∧
    ∀ r, nextGrant (s.arbNow d) (s.now d) = some r → ∃ u, exec .leaveGrant s = .next u ∧ (s.arb d).inuse + r.amps ≤ (s.arb d).pool ∧ u.mem = s.mem ∧
      ((∀ c i, r.who ≠ .array c i) → (u.arb d).inuse = (s.arb d).inuse + r.amps) ∧ (∀ k, r.who = .word k → (u.teamAt k).eng.leave = .held) ∧
      ∀ c i, r.who = .rays c i → ∀ b ∈ (u.crew c).batches, b.id = i → b.leave = .held

/-- R41 to R44, R476: CORE_RETIRE of a core without a bound crew gives it a spare position, or none when both are used, CHANNEL_RETIRE and
CHANNEL_COPY_COMPLETE move a channel of a stack that has not used its spare, LANE_RETIRE and FABRIC_PORT_FAILURE leave the port out of the spray and FABRIC_PORT_RETURN
brings it back, WAY_RETIRE counts in its set; with the RAS ring off none of them changes memory or a crew.

R45, R46, R485: SOFT_ERROR, with the RAS rings off: a corrected error changes nothing a program reads and is reported; one in a vector lane marks that lane, in a scratchpad word its four bytes,
in a line at its home every byte of it, in a cache's copy of a line the bytes of that copy and of no other; one in a crew's state ends the crew with MCE.CREW unless it has a cause; one that is not confined is reported as fatal. -/
def Obligations.SparingAndSoftErrors : Prop :=
  (∀ s : State, (∀ d, (s.die d).regs.ras.base = 0) → let d := s.site.die; let k := s.site.core; let q := s.site.q; let v := s.die d
    (∀ p, k < 40 → (∀ e ∈ (s.core (coreKey d k)).slots, e.2.state = 0) → corePosition v k = some p → ∃ u, exec .coreRetire s = .next u ∧ p ∈ (u.die d).retired ∧
      corePosition (u.die d) k = sparePosition { v with retired := v.retired ++ [p] } ∧ (∀ j ≠ k, corePosition (u.die d) j = corePosition v j) ∧ u.crews = s.crews ∧ u.mem = s.mem) ∧
    (q < 12 → s.site.n < 32 → (∀ e ∈ s.sparing.channels, e.1 ≠ q) → ∃ u, exec .channelRetire s = .next u ∧
      u.sparing.channels = s.sparing.channels ++ [(q, s.site.n, false)] ∧ u.crews = s.crews ∧ u.mem = s.mem) ∧
    (∃ u, exec .channelCopyComplete s = .next u ∧ (∀ e ∈ u.sparing.channels, e.1 = q → e.2.2 = true) ∧ u.crews = s.crews ∧ u.mem = s.mem) ∧
    (q < 12 → (∃ u, exec .laneRetire s = .next u ∧ q ∈ u.sparing.ports ∧ smGet 0 u.sparing.lanes q = smGet 0 s.sparing.lanes q + 1 ∧ u.crews = s.crews ∧ u.mem = s.mem) ∧
      ∃ u, exec .fabricPortFailure s = .next u ∧ (∀ p, p ∈ u.sparing.ports ↔ p = q ∨ p ∈ s.sparing.ports) ∧ u.crews = s.crews ∧ u.mem = s.mem) ∧
    (q ∈ s.sparing.ports → ∃ u, exec .fabricPortReturn s = .next u ∧ (∀ p, p ∈ u.sparing.ports ↔ p ≠ q ∧ p ∈ s.sparing.ports) ∧ u.crews = s.crews ∧ u.mem = s.mem) ∧
    ∃ u, exec .wayRetire s = .next u ∧ smGet 0 u.sparing.ways s.site.n = smGet 0 s.sparing.ways s.site.n + 1 ∧ u.crews = s.crews ∧ u.mem = s.mem) ∧
  (∀ s : State, (∀ d, (s.die d).regs.ras.base = 0) →
    (∀ d x, exec (.softError (.corrected d x)) s = .next { s with out := s.out ++ [.aer 0, .msix 0 1] }) ∧
    (∀ c n r l, (s.teamAt (teamKey c n)).key = teamKey c n → l < 1024 → ∃ u, exec (.softError (.vreg c n r l)) s = .next u ∧ let m := (u.teamAt (teamKey c n)).r
      smGet none m.vmarks (vKey r l) = some .lane ∧ (∀ j, j ≠ vKey r l → smGet none m.vmarks j = smGet none (s.teamAt (teamKey c n)).r.vmarks j) ∧
      m.v = (s.teamAt (teamKey c n)).r.v ∧ u.mem = s.mem ∧ u.crews = s.crews) ∧
    (∀ c off, (s.crew c).state ≠ .none → ∃ u, exec (.softError (.scratch c off)) s = .next u ∧ (u.crew c).scratch = (s.crew c).scratch ∧ u.mem = s.mem ∧
      ∀ j, smGet false (u.crew c).spoison j = (decide (j / 4 = off / 4) || smGet false (s.crew c).spoison j)) ∧
    (∀ pa, ∃ u, exec (.softError (.homeLine pa)) s = .next u ∧ u.mem = s.mem ∧ u.crews = s.crews ∧ u.cores = s.cores ∧ u.dies = s.dies ∧
      ∀ x, isPoison u x = (decide (x / 128 = pa / 128) || isPoison s x)) ∧
    (∀ place pa, ∃ u, exec (.softError (.cacheLine place pa)) s = .next u ∧ u.mem = s.mem ∧ u.poison = s.poison ∧ u.crews = s.crews ∧ let line := pa / 128
      let bad : LineCopy → LineCopy := fun l => { l with bad := l.valid }
      (∀ ck, place = .l1 ck → u.dies = s.dies ∧ (∀ j, j ≠ ck → u.core j = s.core j) ∧ (u.core ck).wb = (s.core ck).wb ∧
        ∀ l, smGet {} (u.core ck).l1 l = if l = line then bad (smGet {} (s.core ck).l1 l) else smGet {} (s.core ck).l1 l) ∧
      (∀ ck, place = .writeBuffer ck → u.dies = s.dies ∧ (∀ j, j ≠ ck → u.core j = s.core j) ∧ (u.core ck).l1 = (s.core ck).l1 ∧
        (u.core ck).wb = (s.core ck).wb.map fun e => if e.1 = line then (e.1, bad e.2) else e) ∧
      ∀ d, place = .l2 d → u.cores = s.cores ∧ (∀ j, j ≠ d → u.die j = s.die j) ∧
        ∀ l, smGet {} (u.die d).l2 l = if l = line then bad (smGet {} (s.die d).l2 l) else smGet {} (s.die d).l2 l) ∧
    (∀ c, (s.crew c).state = .run → ∀ e ∈ [ErrorSite.crewState c, .rayEntry c], ∃ u, exec (.softError e) s = .next u ∧ (u.crew c).cause = some ((s.crew c).cause.getD causeMce) ∧
      (∀ x ∈ u.others, x.2.id.crew = c → x.2.id.alive = false) ∧ u.mem = s.mem) ∧
    ∀ d x, exec (.softError (.unconfined d x)) s = .next { s with out := s.out ++ [.aer 2] })

/-! ### The fabric engine -/

/-- R441, R447, R450, R454 to R458, R466, R467, R469: the remote words. RSTW, RRED and RAMO with no register pending or marked, addresses that pass their checks and
room in the buffers and among the packets not acknowledged put one element for each lane of the mask and predicate into the buffer of its flow, and what stood there stays; RAMO holds an operation
for its lanes; an address that fails a check raises it for the lanes concerned. AFLUSH and AFLUSH.all wait until no element of the team is on its way and
give the failures not yet reported; AFSTAT reads the counts. RSVS sends its request, its register pending; RSVS.ret gives the reserved slots back in the flow's record stream;
RRPUSH inserts one record for each lane and RESV falls, or raises RSVX when RESV is less. -/
def Obligations.RemoteWords : Prop :=
  ∀ s : State, let t := s.team; let d := t.id.die; let o := t.atOrd
    let released := (o.rel = true → memBusy s t.key = false ∧ s.meant t.key o.scope < 5) ∧ (o.acq = true → loadsBusy s t.key = false)
    let room := fun (n : Nat) => (s.spin d).flight.length < 1024 ∧ (s.spin d).bufs.length + n ≤ 512
    let kept := fun u : State => ∀ b ∈ (s.spin d).bufs, ∃ b' ∈ (u.spin d).bufs, b'.dest = b.dest ∧ b'.job = b.job ∧ b'.recs = b.recs ∧ ∀ x ∈ b.items, x ∈ b'.items
    (∀ (w : BitVec 1) (a v : BitVec 7) (p : BitVec 3) (i : Instr) (kind : BitVec 2) (opn : BitVec 4),
      (i = .rstw w a v p ∧ kind = kindStore ∧ opn = 0) ∨ (i = .rred w a v opn p ∧ kind = kindRed) ∨ (i = .ramo w a v opn p ∧ kind = kindAmo) → s.ready i →
      let n := if w = 1 then 2 else 1; let tn := t.narrow p.toNat; let lanes := lanesOf t.id.width tn.mSrc; let as := lanes.map fun l => (l, t.getV64 a.toNat l)
      let put := fun e : Nat × W64 => SpBody.el e.2 (BitVec.ofNat 64 (t.getVn v.toNat e.1 n)) kind (w = 1) opn (if kind = kindAmo then some s.nextOp else none)
      laneHazard s tn [grp 2 a, grp n v] (if kind = kindAmo then [grp n v] else []) = none →
      (∀ x, remoteCheck as (jobOf s d t.id.ctx) (remoteSize kind (w = 1) opn) = some x → Traps i s s x) ∧
      (remoteCheck as (jobOf s d t.id.ctx) (remoteSize kind (w = 1) opn) = none → t.arr 2 = none → openRamo s = none → (∀ x ∈ s.ops, x.id ≠ s.nextOp) →
        room lanes.length → released →
        ∃ u, Runs i s u .next ∧ kept u ∧
          (∀ e ∈ as, ∃ b ∈ (u.spin d).bufs, b.dest = fabDev e.2 ∧ b.job = (jobOf s d t.id.ctx).getD 0 ∧ b.recs = false ∧
            ({ team := t.key, lane := e.1, pc := t.pc, body := put e } : SpItem) ∈ b.items) ∧
          (kind ≠ kindAmo → u.team.r = t.r ∧ u.ops = s.ops) ∧ u.team.r.s = t.r.s ∧ u.team.r.v = t.r.v ∧ (o.rel = false → o.acq = false → u.mem = s.mem) ∧
          (kind = kindAmo → lanes ≠ [] → u.nextOp = s.nextOp + 1 ∧ (∀ x ∈ s.ops, x ∈ u.ops) ∧
            ∃ y ∈ u.ops, y.id = s.nextOp ∧ y.team = t.key ∧ y.kind = .ramo { d := v.toNat, wide := w = 1, lanes := lanes, issued := true, got := [] }))) ∧
    (∀ (v : BitVec 6) (i : Instr) (dest : Nat → Bool), (i = .aflushAll v ∧ dest = fun _ => true) ∨ (∃ a, i = .aflush v a ∧ dest = fun x => x == (t.getS a.toNat).toNat % 2 ^ 17) →
      s.ready i → let s1 := flushTeam s d t.key dest
        (spindleCount s1 d t.key dest ≠ 0 → Waits i s s1 .fence) ∧
        (spindleCount s1 d t.key dest = 0 → ∃ s2, Runs i s { s2 with team := { s2.team with rf := { s2.team.rf with unrep := 0 } } } .next ∧ OnlyScalars [v.toNat] s1 s2 ∧
          s2.team.sNow v.toNat = BitVec.ofNat 32 t.rf.unrep)) ∧
    (∀ v, s.ready (.afstatFail v) → ∃ s2, Runs (.afstatFail v) s { s2 with team := { s2.team with rf := { s2.team.rf with unrep := 0 } } } .next ∧
      OnlyScalars [v.toNat] s s2 ∧ s2.team.sNow v.toNat = BitVec.ofNat 32 t.rf.unrep) ∧
    (∀ v, s.ready (.afstatPend v) → ∃ s1, Runs (.afstatPend v) s s1 .next ∧ OnlyScalars [v.toNat] s s1 ∧
      s1.team.sNow v.toNat = BitVec.ofNat 32 (min (spindleCount s d t.key fun _ => true) (2 ^ 32 - 1))) ∧
    (∀ (v : BitVec 6) (q : BitVec 4) (a : BitVec 6), s.ready (.rsvs v q a) → let x := t.qreg q.toNat; let c := (t.getS a.toNat).toNat; let w := t.getS (a.toNat + 1)
      let dest := ((w.extractLsb' 0 17).toNat, (w.extractLsb' 24 8).toNat); let y := s.spin d
      (x.port ≠ 3 → Traps (.rsvs v q a) s s (qportTrap x)) ∧
      (x.port = 3 → (c = 0 ∨ 4096 < c ∨ w.extractLsb' 17 7 ≠ 0) → Traps (.rsvs v q a) s s { code := codeRsvx, detail := 3, val := q.setWidth 64 }) ∧
      ∀ job, x.port = 3 → 1 ≤ c → c ≤ 4096 → w.extractLsb' 17 7 = 0 → (x.resv = 0 ∨ x.dest = some dest) → x.resv + c ≤ 65535 → jobOf s d t.id.ctx = some job →
        (s.lost dest.1 = true → ∃ u, Runs (.rsvs v q a) s u .next ∧ u.team.sNow v.toNat = resvWord 0 9 ∧ (u.team.qreg q.toNat).dest = some dest ∧ u.ops = s.ops ∧ u.mem = s.mem) ∧
        (s.lost dest.1 = false → y.flight.length < 1024 → let sq := y.next dest.1 job true
          let r : RsvsOp := { d := v.toNat, q := q.toNat, dev := dest.1, queue := dest.2, count := c, job := job, seq := sq, sent := s.now d }
          let m := NetMsg.resv { srcDev := s.devno d, srcDie := d, dstDev := dest.1, job := job, seq := sq, queue := dest.2, count := c }
          ∃ u, Runs (.rsvs v q a) s u .next ∧ u.ops = s.ops ++ [s.newOp (.rsvs r)] ∧ smGet 0 u.team.r.spend v.toNat = s.nextOp + 1 ∧ u.team.r.s = t.r.s ∧
            (u.spin d).flight = y.flight ++ [{ seq := sq, dest := dest.1, job := job, recs := true, items := [], resv := some (s.nextOp, dest.2, c), sent := s.now d }] ∧
            (dest.1 = s.devno 0 → u.net = s.net ++ [m]) ∧ (dest.1 ≠ s.devno 0 → u.out = s.out ++ [m]) ∧ u.mem = s.mem)) ∧
    (∀ q : BitVec 4, s.ready (.rsvsRet q) → let x := t.qreg q.toNat; ∃ u, Runs (.rsvsRet q) s u .next ∧ u.team.qreg q.toNat = { x with resv := 0 } ∧
      (∀ k ≠ q.toNat, u.team.qreg k = t.qreg k) ∧ u.team.r = t.r ∧ u.mem = s.mem ∧ ∀ dev queue job, x.resv ≠ 0 → x.dest = some (dev, queue) → jobOf s d t.id.ctx = some job →
        let sq := (s.spin d).next dev job true; (u.spin d).next dev job true = (sq + 1) % 2 ^ 32 ∧ (u.spin d).bufs = (s.spin d).bufs ∧
        let m := NetMsg.ret { srcDev := s.devno d, srcDie := d, dstDev := dev, job := job, seq := sq, queue := queue, count := x.resv, epoch := x.epoch }
        (dev = s.devno 0 → u.net = s.net ++ [m]) ∧ (dev ≠ s.devno 0 → u.out = s.out ++ [m])) ∧
    ∀ (q : BitVec 4) (v : BitVec 7) (p : BitVec 3), s.ready (.rrpush q v p) → let x := t.qreg q.toNat; let tn := t.narrow p.toNat; let lanes := lanesOf t.id.width tn.mSrc
      x.port = 3 → v.toNat + 15 < t.id.nregs → laneHazard s tn [(v.toNat, 16, 1)] [] = none →
      (x.resv < lanes.length → Traps (.rrpush q v p) s s { code := codeRsvx, detail := 1, val := q.setWidth 64 }) ∧
      ∀ dev queue job, lanes.length ≤ x.resv → x.dest = some (dev, queue) → jobOf s d t.id.ctx = some job → t.arr 2 = none → room lanes.length → released →
        ∃ u, Runs (.rrpush q v p) s u .next ∧ kept u ∧ (u.team.qreg q.toNat).resv = x.resv - lanes.length ∧ u.team.r = t.r ∧ u.ops = s.ops ∧ (o.rel = false → u.mem = s.mem) ∧
          ∀ l ∈ lanes, ∃ b ∈ (u.spin d).bufs, b.dest = dev ∧ b.job = job ∧ b.recs = true ∧
            ({ team := t.key, lane := l, pc := t.pc, body := SpBody.rc queue x.epoch ((List.range 16).map fun k => t.getV (v.toNat + k) l) } : SpItem) ∈ b.items

/-- R442, R444, R455, R459, R462, R463, R465 to R468, R470, R473, R476: what the transport and the targets do. An insertion that finds no EMPTY buffer makes the
OPEN one whose last insertion is oldest depart; a buffer departs at its age limit and is handed over whole as one packet; a
packet not answered in time fails its items; an element of another device is applied at the home and acknowledged; a record enters its reserved slot or
fails with QUEUE, giving back the slot when its queue is SEALED; reservations are granted from POOL, refused, timed out, cancelled and given back; INB_WRITE sets the inbound registers and seals a queue that loses its last producer; an acknowledgement takes its packet
away; what is on its way to an unreachable device fails, and the runs with a rank on it, at once or once a release at POD or SYS is done. -/
def Obligations.FabricEvents : Prop :=
  ∀ s : State, let d := s.site.die; let x := s.spin d; let n := s.site.n; let me := s.devno 0
    (∀ b, x.bufs[n]? = some b →
      (b.departing = false → b.first + (s.fab d).agelim.toNat ≤ s.now d → ∃ u, exec .spindleAgeDepart s = .next u ∧
        (u.spin d).bufs[n]? = some { b with departing := true } ∧ u.team = s.team ∧ u.mem = s.mem) ∧
      (b.departing = true → x.flight.length < 1024 → (∀ y ∈ x.bufs.take n, ¬(y.dest = b.dest ∧ y.job = b.job ∧ y.recs = b.recs)) → b.items ≠ [] →
        (∀ i ∈ b.items, i.bad = false) → s.lost b.dest = false → let sq := x.next b.dest b.job b.recs
        ∃ u, exec .packetHandoff s = .next u ∧ (u.spin d).bufs = x.bufs.eraseIdx n ∧ (u.spin d).next b.dest b.job b.recs = (sq + 1) % 2 ^ 32 ∧
          (u.spin d).flight = x.flight ++ [{ seq := sq, dest := b.dest, job := b.job, recs := b.recs, items := b.items, sent := s.now d }] ∧
          (b.dest = me → u.net = s.net ++ [packetOf s d b sq b.items]) ∧ (b.dest ≠ me → u.out = s.out ++ [packetOf s d b sq b.items]) ∧ u.team = s.team)) ∧
    (∀ dest job (i : SpItem), i.body.queue = none → (∀ y ∈ x.bufs, y.isOpen dest job false = false) → 512 ≤ x.bufs.length → x.evicted.contains (i.team, dest) = false →
      (∃ y ∈ x.bufs, y.departing = false) → ∃ u, spInsert s d dest job i = (u, false) ∧ ∃ b ∈ x.bufs, b.departing = false ∧
        (∀ y ∈ x.bufs, y.departing = false → b.last ≤ y.last) ∧ (u.spin d).bufs = x.bufs.map (fun y => if y = b then { y with departing := true } else y) ∧
        u.team = s.team ∧ u.mem = s.mem) ∧
    (∀ f i, x.flight[n]? = some f → f.resv = none → f.sent + (s.fab d).rtimeout.toNat ≤ s.now d → f.items = [i] →
      (∀ va v k w o id, i.body ≠ .el va v k w o (some id)) → let t := s.teamAt i.team; t.key = i.team → t.id.alive = true →
      ∃ u, exec .packetTimeout s = .next u ∧ (∀ g ∈ (u.spin d).flight, g ≠ f) ∧ let t' := u.teamAt i.team
        t'.rf.count = t.rf.count + 1 ∧ t'.asticky = t.asticky ||| flagRF ∧ t'.r = t.r) ∧
    (∀ (p : StorePacket) (e : Element) (c : Nat) (s1 : State) (l : Leaf), p.dstDev = me → p.srcDev ≠ me → p.elems = [e] → (elemFields e).kind = kindStore → ctxOfJob s p.job = some c →
      let g := elemFields e; let z := if g.w then 8 else 4; let va := (expBase s c).toNat + g.off.toNat; let pa := leafPa 0 l va
      g.off.toNat + z ≤ expLen s c → va + z ≤ 2 ^ 48 → walkAccess s c va .write false = (s1, .ok l) → isHost pa = false →
      ∃ u, exec (.aggregatedStore p) s = .next u ∧
        (∀ y, homeByte u y = if pa ≤ y ∧ y < pa + z then (leBytes g.data.toNat z).getD (y - pa) 0 else homeByte s1 y) ∧ u.team = s.team ∧
        NetMsg.ack { dev := p.srcDev, die := p.srcDie, src := me, job := p.job, recs := false, seq := p.seq, acks := [{ reason := 0, old := 0 }], flags := 0 } ∈ u.out) ∧
    (∀ (a : StoreAck) (f : Flight) (i : SpItem) (y : ElemAck), a.dev = me →
      (s.spin a.die).flight.find? (fun f => f.seq = a.seq && f.dest = a.src && f.job = a.job && f.recs = a.recs && f.resv.isNone) = some f → f.dest ≠ me →
      f.items = [i] → a.acks = [y] → y.reason = 0 → (∀ va v k w o id, i.body ≠ .el va v k w o (some id)) → (s.teamAt i.team).id.alive = true →
      ∃ u, exec (.storeAcknowledgement a) s = .next u ∧ (∀ g ∈ (u.spin a.die).flight, g ≠ f) ∧ let t' := u.teamAt i.team
        t'.asticky = (s.teamAt i.team).asticky ||| a.flags ∧ t'.r = (s.teamAt i.team).r ∧ t'.rf = (s.teamAt i.team).rf) ∧
    (∀ (p : RecordPacket) (r : Nat × List W32), p.dstDev = me → p.srcDev ≠ me → p.recs = [r] → let q := s.rq p.queue
      let ack := fun k => NetMsg.ack { dev := p.srcDev, die := p.srcDie, src := me, job := p.job, recs := true, seq := p.seq, acks := [{ reason := k, old := 0 }], flags := 0 }
      (q.inb = true → q.job = p.job → r.1 = q.epoch → q.state = .opened → ∃ u, exec (.recordPacket p) s = .next u ∧
        (u.rq p.queue).recs = q.recs ++ [r.2] ∧ (u.rq p.queue).held = q.held - 1 ∧ ack 0 ∈ u.out ∧ u.mem = s.mem) ∧
      (q.inb = true → q.job = p.job → r.1 = q.epoch → q.state ≠ .opened → ∃ u, exec (.recordPacket p) s = .next u ∧
        (u.rq p.queue).recs = q.recs ∧ (u.rq p.queue).held = q.held - 1 ∧ ack 10 ∈ u.out) ∧
      (q.inb = false ∨ q.job ≠ p.job ∨ r.1 ≠ q.epoch → ∃ u, exec (.recordPacket p) s = .next u ∧ u.rq p.queue = q ∧ ack 10 ∈ u.out)) ∧
    (∀ p : ResvRequest, p.dstDev = me → p.srcDev ≠ me → let q := s.rq p.queue
      let ans := fun g k => NetMsg.grant { dev := p.srcDev, die := p.srcDie, src := me, job := p.job, seq := p.seq, grant := g, status := k, epoch := q.epoch }
      (q.inb = true ∧ q.job = p.job ∧ q.state = .opened → ∃ u, exec (.reservationRequest p) s = .next u ∧
        (u.rq p.queue).held = q.held + min p.count q.pool ∧ (u.rq p.queue).pool = q.pool - min p.count q.pool ∧ (u.rq p.queue).recs = q.recs ∧ ans (min p.count q.pool) 0 ∈ u.out ∧ u.mem = s.mem) ∧
      (q.inb = false ∨ q.job ≠ p.job ∨ q.state ≠ .opened → ∃ u, exec (.reservationRequest p) s = .next u ∧ u.rq p.queue = q ∧ ans 0 1 ∈ u.out) ∧
      ∃ u, exec (.reservationCancel p) s = .next u ∧ (u.rq p.queue).recs = q.recs ∧ u.mem = s.mem ∧ (u.rq p.queue).held =
        q.held - ((q.grants.filter fun g => g.1 = p.srcDev * 8 + p.srcDie && g.2.1 = p.job && g.2.2.1 = p.request).map fun g => g.2.2.2).foldl (· + ·) 0) ∧
    (∀ (g : ResvGrant) (o : Op) (r : RsvsOp), g.dev = me → rsvsOf s g = some (o, r) → r.dev ≠ me → g.status = 0 → let y := (s.teamAt o.team).qreg r.q
      (s.teamAt o.team).id.alive = true → y.port = 3 → y.epoch = g.epoch → ∃ u, exec (.reservationGrant g) s = .next u ∧ (∀ z ∈ u.ops, z.id ≠ o.id) ∧
        (u.teamAt o.team).qreg r.q = { y with dest := some (r.dev, r.queue), resv := y.resv + g.grant } ∧ (u.teamAt o.team).sNow r.d = resvWord g.grant 0 ∧
        smGet 0 (u.teamAt o.team).r.spend r.d = 0) ∧
    (∀ o r, s.op s.site.op = some o → o.kind = .rsvs r → let k := (s.teamAt o.team).id.die; r.sent + (s.fab k).rtimeout.toNat ≤ s.now k →
      ∃ u, exec .rsvsTimeout s = .next u ∧ (∀ z ∈ u.ops, z.id ≠ o.id) ∧ (u.teamAt o.team).sNow r.d = resvWord 0 8 ∧ smGet 0 (u.teamAt o.team).r.spend r.d = 0 ∧
        ((u.teamAt o.team).qreg r.q).dest = some (r.dev, r.queue) ∧ let m := NetMsg.cancel {
          srcDev := s.devno k, srcDie := k, dstDev := r.dev, job := r.job, seq := (s.spin k).next r.dev r.job true, queue := r.queue, count := r.count,
          request := r.seq }
        (r.dev = me → m ∈ u.net) ∧ (r.dev ≠ me → m ∈ u.out)) ∧
    (∀ p : ResvReturn, p.dstDev = me → p.srcDev ≠ me → let q := s.rq p.queue; ∃ u, exec (.reservationReturn p) s = .next u ∧ (u.rq p.queue).recs = q.recs ∧ u.mem = s.mem ∧
      (u.rq p.queue).held = if q.inb = true ∧ q.job = p.job ∧ q.epoch = p.epoch then q.held - p.count else q.held) ∧
    (∀ v : W32, let q := s.rq s.site.q; ∃ u, exec (.inbWrite v) s = .next u ∧ let q' := u.rq s.site.q
      q'.inb = v.getLsbD 31 ∧ q'.job = v.toNat % 65536 ∧ q'.held = 0 ∧ q'.epoch = q.epoch + 1 ∧ q'.recs = q.recs ∧ q'.grants = [] ∧
      let last := q.inb = true ∧ v.getLsbD 31 = false ∧ q.producers = 0
      (last → q.state = .opened → q'.state = .closed) ∧ (¬last → q'.state = q.state ∧ u.mem = s.mem)) ∧
    ∀ dev : BitVec 17, (∀ k, ∀ f ∈ (s.spin k).flight, f.dest = dev.toNat → f.resv = none) → ∃ u, exec (.deviceUnreachable dev) s = .next u ∧ dev.toNat ∈ u.unreach ∧
      (∀ k < 8, ∀ f ∈ (u.spin k).flight, f.dest ≠ dev.toNat) ∧
      ∀ k < 8, ∀ j, (s.plan k j).going = true → (s.plan k j).torn = false → (∃ e ∈ (s.plan k j).run.table, e.1 = dev.toNat) → (u.plan k j).endsAs u 3 2

/-! ### The compositing engine -/

/-- R486, R490, R501, R507, R508, R510, R511: the words of the compositing engine. CPLAN issues, its two results pending, and clears the crew's idempotence; LOAD_RETURN brings
the status of its checks with a handle of 0, or 0 with a handle that names the registered plan. CPLAN.FREE, CSTART, CWAIT, CSTAT and CCANCEL of a handle that names no plan raise CHANDLE; FREE and START of a running plan raise it too; FREE
empties the slot, START counts a run, WAIT waits for the run and gives its status and flags, STAT reads, CANCEL ends a run as CANCELLED. TENC and TDEC whose
addresses pass their checks and translate issue, their register pending. -/
def Obligations.CompositingWords : Prop :=
  ∀ s : State, let t := s.team; let o := t.atOrd
    (∀ d a : BitVec 6, s.ready (.cplan d a) → ∃ u, Runs (.cplan d a) s u .next ∧ u.mem = s.mem ∧ u.dies = s.dies ∧ (u.crew t.id.crew).idem = false ∧
      u.ops = s.ops ++ [s.newOp (.word (.plan d.toNat (t.getS64 a.toNat) (if o.acq then some (dieScope (s.meant t.key o.scope)) else none) t.supSrc))] ∧
      u.team.busy = t.busyNow ∧ u.team.r = { t.r with spend := u.team.r.spend } ∧
      ∀ k, smGet 0 u.team.r.spend k = if d.toNat ≤ k ∧ k < d.toNat + 2 then s.nextOp + 1 else smGet 0 t.r.spend k) ∧
    (∀ (x : Op) (remote : List RemoteLine) (d : Nat) (va : W64) (acq : Option Nat) (sup : Bool), s.op s.site.op = some x → opCurrent s x = true → loadTurn s x = true →
      x.kind = .word (.plan d va acq sup) → earlierMem s x = false → let w := (s.teamAt x.team).id; w.die < 8 → (∀ k, (s.plan w.die k).gen < 2 ^ 23) →
      let s1 := drainWb s w.die w.core; let s2 := match acq with | some sc => s1.acquireFor x.team sc | none => s1
      ∃ u, exec (.loadReturn remote) s = .next u ∧ (∀ y ∈ u.ops, y.id ≠ x.id) ∧ (∀ k < 2, smGet 0 (u.teamAt x.team).r.spend (d + k) = 0) ∧
        let now := fun k => (u.teamAt x.team).sNow k
        (∀ s3 e, planStatus s2 w sup va = (s3, .error e) → now d = BitVec.ofNat 32 e ∧ now (d + 1) = 0 ∧ u.dies = s3.dies) ∧
        ∀ s3 v r tab, planStatus s2 w sup va = (s3, .ok (v, r, tab)) → now d = 0 ∧
          ∃ k p, planOf u w.ctx (now (d + 1)) = some (w.die, k, p) ∧ p.words = v ∧ p.state = 0 ∧ p.run.rank = r ∧ p.run.table = tab) ∧
    (∀ a : BitVec 6, let h := t.getS a.toNat
      (planOf s t.id.ctx h = none → ∀ d x, ∀ i ∈ [Instr.cplanFree a, .cstart a, .cwait d a, .cstat d a x, .ccancel a], s.ready i →
        Traps i s s { code := codeChandle, detail := 0, val := h.setWidth 64 }) ∧
      ∀ e k p, planOf s t.id.ctx h = some (e, k, p) →
        (p.state = 1 → ∀ i ∈ [Instr.cplanFree a, .cstart a], s.ready i → Traps i s s { code := codeChandle, detail := 1, val := h.setWidth 64 }) ∧
        (p.state ≠ 1 → s.ready (.cplanFree a) → ∃ u, Runs (.cplanFree a) s u .next ∧ u.plan e k = { gen := p.gen } ∧ u.team = t ∧ u.mem = s.mem) ∧
        (p.state ≠ 1 → s.ready (.cstart a) → memBusy s t.key = true → Waits (.cstart a) s s .fence) ∧
        (p.state ≠ 1 → p.torn = false → s.ready (.cstart a) → memBusy s t.key = false →
          let s0 := reachDie s t.key e; let s1 := if o.acq then engineAcquire s0 t.key e o.scope else s0
          (∀ s2 c, readRanks s1 e t.id.ctx t.supSrc p.words = (s2, .error c) → Traps (.cstart a) s s2 { code := codeCplanx, detail := c, val := h.setWidth 64 }) ∧
          ∀ s2 x s3 ip s4 op, readRanks s1 e t.id.ctx t.supSrc p.words = (s2, .ok x) →
            transPages s2 .read (pagesOf (pIn p.words) (pNu p.words * pInSize p.words)) = (s3, .ok ip) →
            transPages s3 .write (pagesOf (pOut p.words) (pNu p.words * pOutSize p.words)) = (s4, .ok op) →
            ∃ u, Runs (.cstart a) s u .next ∧ (u.plan e k).count = (p.count + 1) % 2 ^ 32 ∧ (u.plan e k).words = p.words ∧ (u.plan e k).run.team = t.key) ∧
        (∀ d, s.ready (.cwait d a) → (p.state = 1 → Waits (.cwait d a) s s .run) ∧
          (p.state ≠ 1 → (o.acq = true → loadsBusy s t.key = false) → ∃ s1, OnlyScalars [d.toNat] (if o.acq then s.acquireTeam (planScope t.id.die e (s.meant t.key o.scope)) else s) s1 ∧
            s1.team.sNow d.toNat = p.status ∧ Runs (.cwait d a) s (s1.flagged (p.flags &&& 0x1F)) .next) ∧
          (p.state ≠ 1 → o.acq = true → loadsBusy s t.key = true → Waits (.cwait d a) s s .fence)) ∧
        (∀ d x, s.ready (.cstat d a x) → ∃ s1, Runs (.cstat d a x) s s1 .next ∧ OnlyScalars [d.toNat] s s1 ∧ let v := s1.team.sNow d.toNat
          (x = 0 → v = p.status) ∧ (x = 1 → v = BitVec.ofNat 32 p.count) ∧
          (x = 2 → v = BitVec.ofNat 32 (p.run.rank + posOf p.words p.run p.run.rank * 2 ^ 16)) ∧
          (x = 3 → v = BitVec.ofNat 32 (p.run.units.filter fun y => y.2.fin).length)) ∧
        (s.ready (.ccancel a) → ∃ u, Runs (.ccancel a) s u .next ∧ (p.going = true → p.torn = false → (u.plan e k).endsAs u 4 0) ∧ (p.going = false → u.plan e k = p) ∧ u.team.r = t.r)) ∧
    ∀ (d a b : BitVec 6) (i : Instr) (tb : Option Nat), (∃ k : BitVec 3, i = .tenc d a b k ∧ tb = some k.toNat) ∨ (i = .tdec d a b ∧ tb = none) → s.ready i →
      let src := t.getS64 a.toNat; let dst := t.getS64 b.toNat; let n := if tb.isSome then (3584, 4096) else (4096, 3584)
      (∀ f, tileAddr src n.1 = some f → Traps i s s f) ∧ (∀ f, tileAddr src n.1 = none → tileAddr dst n.2 = some f → Traps i s s f) ∧
      (tileAddr src n.1 = none → tileAddr dst n.2 = none → src.toNat % 128 ≠ 0 → Traps i s s { code := codeAlign, detail := 128, val := src }) ∧
      (tileAddr src n.1 = none → tileAddr dst n.2 = none → src.toNat % 128 = 0 → dst.toNat % 128 ≠ 0 → Traps i s s { code := codeAlign, detail := 128, val := dst }) ∧
      ∀ ip op, tileAddr src n.1 = none → tileAddr dst n.2 = none → src.toNat % 128 = 0 → dst.toNat % 128 = 0 →
        transPages s .read (pagesOf src.toNat n.1) = (s, .ok ip) → transPages s .write (pagesOf dst.toNat n.2) = (s, .ok op) →
        let k := OpKind.tile { table := tb, d := d.toNat, src := src, dst := dst, srcPages := ip, dstPages := op, acq := o.acq, rel := o.rel, scope := o.scope }
        ∃ sp, Runs i s (s.started k t.r.vpend sp) .next ∧ ∀ r, smGet 0 sp r = if r = d.toNat then s.nextOp + 1 else smGet 0 t.r.spend r

/-- R491, R500, R502, R503, R508, R509: what the compositing engine does on its own. TENC and TDEC, after the team's earlier accesses and the acquire they ask for, write the result of the coding, then release; a chunk of an earlier
run, or one seen before, is acknowledged again and nothing else; one of a cancelled run too; one of a later run, or of other units, waits; one with another digest or a payload that
does not decode fails a run in progress; any other, of a run that has FAILED too, is taken and acknowledged: its bit is set, its units wait for their burst or, final, are stored; a combination asks for leave,
and with it replaces the unit by the combined values; an acknowledgement is progress, and the last one ends a run that has sent and written everything;
a run without progress for CTIMEOUT fails; writes of the coding tables clear TVALID, and TVALID keeps a bit only for frequencies that sum to 4,096; a record of port 0x002 is answered. -/
def Obligations.CompositingEvents : Prop :=
  ∀ s : State, let d := s.site.die; let k := s.site.q; let p := s.plan d k; let me := s.devno 0
    (∀ (o : Op) (x : TileOp), s.op s.site.op = some o → o.kind = .tile x → (s.crew o.crew).gen = o.gen → (∀ e ∈ s.crews, e.2.state ≠ .saved) →
      (x.rel = false → mayEngine s o = false → exec .tileCodingComplete s = .next s) ∧
      ((x.rel = true → s.meant o.team x.scope < 5) → mayEngine s o = true → let e := (s.teamAt o.team).id.die; let s0 := reachDie s o.team e
        let s1 := if x.acq then engineAcquire s0 o.team e x.scope else s0; let r := tileResult s1 e x
        (∀ j < (if x.table.isSome then 28 else 32), diePoison s1 e (pagePa x.srcPages (x.src.toNat + 128 * j)) 128 = false) →
        ∃ u v : State, exec .tileCodingComplete s = .next u ∧ (∀ y ∈ u.ops, y.id ≠ o.id) ∧ (u.teamAt o.team).sNow x.d = r.2 ∧ smGet 0 (u.teamAt o.team).r.spend x.d = 0 ∧
          (∀ pa, dieByte v e pa = (storedByte ((List.range r.1.length).map fun j => (pagePa x.dstPages (x.dst.toNat + j), [r.1.getD j 0])) pa).getD (dieByte s1 e pa)) ∧
          let w := if x.rel then v.releaseFor o.team (dieScope (s.meant o.team x.scope)) else v; u.mem = w.mem ∧ u.cores = w.cores ∧ u.dies = w.dies)) ∧
    (∀ (c : Chunk) (j : Nat) (y : Plan), planById s d c.job c.planId = some (j, y) → s.plan d j = y →
      let src := dieAt y.words y.run c.src; let again := NetMsg.chunkAck src.1 src.2 c.job c.planId c.run c.step c.src c.index
      let key := (c.step, c.src, c.index); let fits := chunkUnits y.words c.src (posOf y.words y.run y.run.rank) c.step c.index = c.units.map Prod.fst
      let fin := finalStep y.words c.step; let us := c.units.map fun u => (u.1, payloadVals s d y.words fin u.2.bytes, u.2.poison, c.flags)
      let ts := us.map fun u => (u.1, u.2.1.getD (List.replicate tileVals 0), u.2.2)
      let r1 := { y.run with seen := key :: y.run.seen, last := s.now d }
      (y.count < c.run → exec (.chunkArrival c) s = .next s) ∧
      (src.1 ≠ me → c.run ≤ y.count → (c.run < y.count ∨ y.run.seen.contains key = true ∨ y.cancelled = true) →
        exec (.chunkArrival c) s = .next { s with out := s.out ++ [again] }) ∧
      (src.1 ≠ me → c.run = y.count → y.cancelled = false → y.torn = false → y.run.seen.contains key = false →
        (c.digest ≠ digestOf y.words → ∃ u, exec (.chunkArrival c) s = .next u ∧ (y.going = true → (u.plan d j).endsAs u 3 4) ∧ (y.going = false → u = s)) ∧
        (c.digest = digestOf y.words → ¬fits → exec (.chunkArrival c) s = .next s) ∧
        (c.digest = digestOf y.words → fits → (∃ u ∈ us, u.2.1 = none ∧ u.2.2.1 = false) → ∃ u, exec (.chunkArrival c) s = .next u ∧ (y.going = true → (u.plan d j).endsAs u 3 3)) ∧
        (c.digest = digestOf y.words → fits → (∀ u ∈ us, u.2.1 ≠ none ∨ u.2.2.1 = true) →
          (fin = false → ∃ u, exec (.chunkArrival c) s = .next u ∧ again ∈ u.out ∧ u.mem = s.mem ∧ u.team = s.team ∧
            u.plan d j = { y with run := { r1 with waiting := y.run.waiting ++ [{ step := c.step, src := c.src, units := ts }] } }) ∧
          (fin = true → ∀ s2, storeFinals d j ts (s.setPlan d j { y with run := r1 }) = (s2, true) → ∃ u, exec (.chunkArrival c) s = .next u ∧
            again ∈ u.out ∧ key ∈ (u.plan d j).run.seen ∧ (u.plan d j).count = (s2.plan d j).count ∧
            (y.going = false → (u.plan d j).flags = y.flags ∧ (u.plan d j).poisoned = y.poisoned))))) ∧
    (p.going = true → ∀ c, burstChunk p = some c →
      (p.run.leave = .free → ∃ u, exec .reductionBurst s = .next u ∧ (u.plan d k).run.leave = .asked ∧
        (u.arb d).waiting = (s.arb d).waiting ++ [{ who := .burst k, amps := 40, cls := pClass p.words }] ∧ u.mem = s.mem) ∧
      ∀ j v bad f, p.run.leave = .held → p.torn = false → c.units = [(j, v, bad, f)] → let x := p.run.unit j; let cs := combos p.words (posOf p.words p.run p.run.rank) j
        x.lvl + 1 < cs.length → let isL := (cs.find? fun y => y.1 = c.step && y.2.1 = c.src).any fun y => y.2.2
        let y := if isL then combineVals p.words v x.vals else combineVals p.words x.vals v
        ∃ u, exec .reductionBurst s = .next u ∧
          (u.plan d k).run.unit j = { x with vals := y.1, flags := x.flags ||| f ||| y.2, poison := x.poison || bad, lvl := x.lvl + 1 }) ∧
    (∀ e, p.run.unacked[s.site.n]? = some e → p.going = true → p.torn = false → (dieAt p.words p.run e.2.1).1 ≠ me →
      let p' := { p with run := { p.run with unacked := p.run.unacked.eraseIdx s.site.n, last := s.now d } }
      ∃ u, exec .chunkAcknowledgement s = .next u ∧ (u.plan d k).run.last = s.now d ∧ (runDone p' = true → (u.plan d k).endsAs u 2 0)) ∧
    (p.going = true → (s.now d < p.run.last + pTimeout p.words → exec .runTimeout s = .next s) ∧
      (p.run.last + pTimeout p.words ≤ s.now d → p.torn = false → ∃ u, exec .runTimeout s = .next u ∧ (u.plan d k).endsAs u 3 1)) ∧
    (∀ (off : BitVec 9) (v : W64), let a := off.toNat / 8 * 8; let n := s.site.n % 4; a < 384 → ∃ u, exec (.freqWrite off v) s = .next u ∧ u.mem = s.mem ∧
      (u.die d).comp.tvalid = (s.die d).comp.tvalid &&& ~~~(1#4 <<< n) ∧
      ∀ j, smGet 0 (u.die d).comp.freq j = if n * 384 + a ≤ j ∧ j < n * 384 + a + 8 then v.extractLsb' (8 * (j - n * 384 - a)) 8 else smGet 0 (s.die d).comp.freq j) ∧
    (∀ v : W32, ∃ u, exec (.tvalidWrite v) s = .next u ∧ (u.die d).comp.freq = (s.die d).comp.freq ∧ u.mem = s.mem ∧ ∀ n < 4,
      (u.die d).comp.tvalid.getLsbD n = (v.getLsbD n && freqsOk (freqsOf fun j => smGet 0 (s.die d).comp.freq (n * 384 + j)))) ∧
    let key := teamKey s.site.crew s.site.team; let q := (s.teamAt key).qreg s.site.q
    ∀ r rest, q.pushed = r :: rest → q.port = 2 → ((s.teamAt key).id.alive = true → q.results.length + q.accepted < 256) → (s.crew s.site.crew).state = .run →
      (∀ o ∈ s.ops, o.team = key → o.kind.isMem = true → r.stamp ≤ o.id) → let w := r.words; let h := w.getD 2 0; let c := (s.teamAt key).id.ctx
      let kind := recW w 0 % 16; let ans : QRes → List QRes := fun x => if (s.teamAt key).id.alive then q.results ++ [x] else q.results
      let answers : QRes → Prop := fun x => ∃ u, exec .compositingPortRecord s = .next u ∧
        (u.teamAt key).qreg s.site.q = { q with pushed := rest, results := ans x } ∧ u.mem = s.mem ∧ u.dies = s.dies
      (planOf s c h = none → answers (portResult kind (if compRecordBad w then 1 else 2) (w.getD 1 0) h {})) ∧
      ∀ e j y, planOf s c h = some (e, j, y) →
        (compRecordBad w = true → answers (portResult kind 1 (w.getD 1 0) h y)) ∧
        (compRecordBad w = false → kind = 3 → answers (portResult 3 0 (w.getD 1 0) h y)) ∧
        (compRecordBad w = false → kind = 1 → y.state = 1 → answers (portResult 1 3 (w.getD 1 0) h y)) ∧
        (compRecordBad w = false → kind = 2 → y.torn = false → ∃ u, exec .compositingPortRecord s = .next u ∧ (y.going = true → (u.plan e j).endsAs u 4 0)) ∧
        (compRecordBad w = false → kind = 1 → y.state ≠ 1 → y.torn = false → ∃ u, exec .compositingPortRecord s = .next u ∧
          (u.plan e j).count = (y.count + 1) % 2 ^ 32)
end

