-- ==== Sys2Proof/Laws/Decode.lean ====
section
/-! SUPPORT. Fields of an encoded word read back, and what the decoder does with a word made of its parts. -/

namespace Sys2Proof

theorem ext_or {n lo len : Nat} (x y : BitVec n) : (x ||| y).extractLsb' lo len = x.extractLsb' lo len ||| y.extractLsb' lo len := by
  apply BitVec.eq_of_getLsbD_eq
  intro i hi
  simp [hi]

/-- A field, or a part of it, read where it was put. -/
theorem ext_field {n lo lo' len : Nat} (x : BitVec n) (h : lo ≤ lo') (h1 : lo' + len ≤ lo + n) (h2 : lo + n ≤ 24) :
    (fieldAt lo x).extractLsb' lo' len = x.extractLsb' (lo' - lo) len := by
  apply BitVec.eq_of_getLsbD_eq
  intro i hi
  have e : lo' + i - lo = lo' - lo + i := by omega
  have a1 : lo' + i < 24 := by omega
  have a2 : ¬lo' + i < lo := by omega
  have a3 : lo' - lo + i < 24 := by omega
  simp [fieldAt, hi, e, a1, a2]

/-- A field read elsewhere is zero. -/
theorem ext_field_off {n lo lo' len : Nat} (x : BitVec n) (h : lo + n ≤ lo' ∨ lo' + len ≤ lo) :
    (fieldAt lo x).extractLsb' lo' len = 0#len := by
  apply BitVec.eq_of_getLsbD_eq
  intro i hi
  simp only [fieldAt, BitVec.getLsbD_extractLsb', hi, decide_true, Bool.true_and, BitVec.getLsbD_shiftLeft,
    BitVec.getLsbD_setWidth, BitVec.getLsbD_zero, Bool.and_eq_false_iff]
  rcases h with h | h
  · exact .inr (.inr (BitVec.getLsbD_of_ge _ _ (by omega)))
  · exact .inl (.inr (by simpa using (by omega : lo' + i < lo)))

theorem word_op {p q r : Nat} (c : BitVec p) (op : BitVec q) (b : BitVec r) : (c ++ op ++ b).extractLsb' r q = op := by
  apply BitVec.eq_of_getLsbD_eq
  intro i hi
  have h : ¬r + i < r := by omega
  simp only [BitVec.getLsbD_extractLsb', BitVec.getLsbD_append, hi, h, decide_true, Bool.true_and]
  simp [hi]

theorem word_fields {p q r : Nat} (c : BitVec p) (op : BitVec q) (b : BitVec r) : (c ++ op ++ b).extractLsb' 0 r = b := by
  apply BitVec.eq_of_getLsbD_eq
  intro i hi
  simp only [BitVec.getLsbD_extractLsb', BitVec.getLsbD_append, Nat.zero_add, hi, decide_true, Bool.true_and]
  simp

/-- A word made of its parts decodes by them; its chain bit says nothing. -/
theorem decode_word (c : BitVec 1) (op : BitVec 7) (b : BitVec 24) : decode (c ++ op ++ b) = decodeFields op b :=
  congrArg₂ decodeFields (word_op c op b) (word_fields c op b)

end Sys2Proof
end

