-- ==== Sys2Proof/Laws/SMap.lean ====
section
/-! SUPPORT. What reading and writing sparse data does: the read after a write, and that a write keeps the canonical form. -/

namespace Sys2Proof.Machine

variable {β : Type}

theorem smGet_smDel (d : β) (m : SMap β) (k j : Nat) : smGet d (smDel m k) j = if j = k then d else smGet d m j := by
  induction m with
  | nil => simp [smDel, smGet]
  | cons e r ih =>
    by_cases hk : e.1 = k <;> by_cases hj : j = k <;> simp_all [smDel, smGet]
    intro h; exact absurd h.symm hk

theorem smDel_sublist (m : SMap β) (k : Nat) : (smDel m k).Sublist m := by
  induction m with
  | nil => exact List.Sublist.slnil
  | cons e r ih =>
    by_cases hk : e.1 = k
    · simpa [smDel, hk] using ih.cons e
    · simpa [smDel, hk] using ih

theorem smDel_key (m : SMap β) (k : Nat) : ∀ e ∈ smDel m k, e.1 ≠ k := by
  induction m with
  | nil => simp [smDel]
  | cons e r ih =>
    by_cases hk : e.1 = k
    · simpa [smDel, hk] using ih
    · simpa [smDel, hk] using ih

theorem smGet_put_ne (d : β) (m : SMap β) (k j : Nat) (v : β) (h : j ≠ k) : smGet d (smPut m k v) j = smGet d m j := by
  induction m with
  | nil => simp [smPut, smGet, h]
  | cons e r ih =>
    by_cases hk : k < e.1
    · simp [smPut, hk, smGet, h]
    · simp [smPut, hk, smGet, ih]

theorem smGet_put_self (d : β) (m : SMap β) (k : Nat) (v : β) (h : ∀ e ∈ m, e.1 ≠ k) : smGet d (smPut m k v) k = v := by
  induction m with
  | nil => simp [smPut, smGet]
  | cons e r ih =>
    by_cases hk : k < e.1
    · simp [smPut, hk, smGet]
    · have he : ¬k = e.1 := fun q => h e (by simp) q.symm
      simp [smPut, hk, smGet, he, ih fun x hx => h x (by simp [hx])]

/-- A read after a write: the value at its key, the old one at every other. -/
@[simp] theorem smGet_smSet [DecidableEq β] (d : β) (m : SMap β) (k : Nat) (v : β) (j : Nat) :
    smGet d (smSet d m k v) j = if j = k then v else smGet d m j := by
  unfold smSet
  by_cases hv : v = d <;> by_cases hj : j = k
  · simp [hv, hj, smGet_smDel]
  · simp [hv, hj, smGet_smDel]
  · subst hj; rw [if_neg hv, if_pos rfl, smGet_put_self _ _ _ _ (smDel_key m j)]
  · rw [if_neg hv, if_neg hj, smGet_put_ne _ _ _ _ _ hj, smGet_smDel, if_neg hj]

/-- The canonical form in the words of lists: keys rise, and no value is the default. -/
theorem smWfFrom_iff [DecidableEq β] (d : β) (lo : Nat) (m : SMap β) :
    smWfFrom d lo m = true ↔ m.Pairwise (fun a b => a.1 < b.1) ∧ (∀ e ∈ m, lo ≤ e.1) ∧ ∀ e ∈ m, e.2 ≠ d := by
  induction m generalizing lo with
  | nil => simp [smWfFrom]
  | cons e r ih =>
    obtain ⟨k, v⟩ := e
    simp only [smWfFrom, Bool.and_eq_true, decide_eq_true_eq, ih, List.pairwise_cons, List.forall_mem_cons]
    constructor
    · rintro ⟨⟨hl, hv⟩, hp, hk, hd⟩
      exact ⟨⟨fun b hb => hk b hb, hp⟩, ⟨hl, fun b hb => by have := hk b hb; omega⟩, hv, hd⟩
    · rintro ⟨⟨hk, hp⟩, ⟨hl, _⟩, hv, hd⟩
      exact ⟨⟨hl, hv⟩, hp, fun b hb => hk b hb, hd⟩

theorem smWf_iff [DecidableEq β] (d : β) (m : SMap β) :
    smWf d m = true ↔ m.Pairwise (fun a b => a.1 < b.1) ∧ ∀ e ∈ m, e.2 ≠ d := by
  simp [smWf, smWfFrom_iff]

theorem mem_smPut (m : SMap β) (k : Nat) (v : β) (e : Nat × β) : e ∈ smPut m k v ↔ e = (k, v) ∨ e ∈ m := by
  induction m with
  | nil => simp [smPut]
  | cons a r ih =>
    by_cases hk : k < a.1
    · simp [smPut, hk]
    · simp [smPut, hk, ih, or_left_comm]

theorem smPut_pairwise (m : SMap β) (k : Nat) (v : β) (hp : m.Pairwise fun a b => a.1 < b.1) (hk : ∀ e ∈ m, e.1 ≠ k) :
    (smPut m k v).Pairwise fun a b => a.1 < b.1 := by
  induction m with
  | nil => simp [smPut]
  | cons a r ih =>
    rw [List.pairwise_cons] at hp
    have ha := hk a (by simp)
    by_cases h : k < a.1
    · simp only [smPut, h, if_true, List.pairwise_cons]
      refine ⟨?_, hp⟩
      intro b hb
      rcases List.mem_cons.mp hb with rfl | hb
      · exact h
      · exact Nat.lt_trans h (hp.1 b hb)
    · simp only [smPut, h, if_false, List.pairwise_cons]
      refine ⟨?_, ih hp.2 fun e he => hk e (by simp [he])⟩
      intro b hb
      rcases (mem_smPut r k v b).mp hb with rfl | hb
      · exact Nat.lt_of_le_of_ne (Nat.le_of_not_lt h) ha
      · exact hp.1 b hb

/-- Dropping entries keeps the canonical form. -/
theorem smWf_sublist [DecidableEq β] (d : β) (m n : SMap β) (hs : n.Sublist m) (h : smWf d m = true) : smWf d n = true := by
  rw [smWf_iff] at h ⊢
  exact ⟨h.1.sublist hs, fun e he => h.2 e (hs.subset he)⟩

theorem smWf_smDrop [DecidableEq β] (d : β) (m : SMap β) (p : Nat → Bool) (h : smWf d m = true) : smWf d (smDrop p m) = true :=
  smWf_sublist d m _ List.filter_sublist h

/-- A write keeps the canonical form. -/
theorem smWf_smSet [DecidableEq β] (d : β) (m : SMap β) (k : Nat) (v : β) (h : smWf d m = true) : smWf d (smSet d m k v) = true := by
  have hf := smWf_sublist d m _ (smDel_sublist m k) h
  unfold smSet
  by_cases hv : v = d
  · rwa [if_pos hv]
  · rw [if_neg hv]
    rw [smWf_iff] at hf ⊢
    refine ⟨smPut_pairwise _ k v hf.1 (smDel_key m k), ?_⟩
    intro e he
    rcases (mem_smPut _ k v e).mp he with rfl | he
    · exact hv
    · exact hf.2 e he

theorem smWf_smSetAll [DecidableEq β] (d : β) (m : SMap β) (l : List (Nat × β)) (h : smWf d m = true) :
    smWf d (smSetAll d m l) = true := by
  unfold smSetAll
  induction l generalizing m with
  | nil => exact h
  | cons e l ih => exact ih _ (smWf_smSet d m e.1 e.2 h)

theorem smWf_nil [DecidableEq β] (d : β) : smWf d ([] : SMap β) = true := rfl

/-- A lookup gives the default, or what some entry of the key holds. -/
theorem smGet_mem_or (d : β) (m : SMap β) (k : Nat) : (k, smGet d m k) ∈ m ∨ smGet d m k = d := by
  induction m with
  | nil => exact .inr rfl
  | cons e r ih =>
    by_cases h : k = e.1
    · exact .inl (by subst h; simp [smGet])
    · simp only [smGet, if_neg h]
      exact ih.imp (List.mem_cons_of_mem e) id

theorem smGet_lt [DecidableEq β] (d : β) (lo : Nat) (m : SMap β) (h : smWfFrom d lo m = true) (k : Nat) (hk : k < lo) :
    smGet d m k = d := by
  induction m generalizing lo with
  | nil => rfl
  | cons e r ih =>
    obtain ⟨a, v⟩ := e
    simp only [smWfFrom, Bool.and_eq_true, decide_eq_true_eq] at h
    have : ¬k = a := by omega
    simp only [smGet, this, if_false]
    exact ih (a + 1) h.2 (by omega)

/-- Two tables in canonical form that read alike are equal. -/
theorem smWf_ext [DecidableEq β] (d : β) (m n : SMap β) (hm : smWf d m = true) (hn : smWf d n = true)
    (h : ∀ k, smGet d m k = smGet d n k) : m = n := by
  have key : ∀ lo lo', smWfFrom d lo m = true → smWfFrom d lo' n = true → m = n := by
    clear hm hn
    induction m generalizing n with
    | nil =>
      intro lo lo' _ hn
      cases n with
      | nil => rfl
      | cons e r =>
        simp only [smWfFrom, Bool.and_eq_true, decide_eq_true_eq] at hn
        have := h e.1
        simp only [smGet, if_true] at this
        exact absurd this.symm hn.1.2
    | cons e r ih =>
      intro lo lo' hm hn
      obtain ⟨a, v⟩ := e
      simp only [smWfFrom, Bool.and_eq_true, decide_eq_true_eq] at hm
      cases n with
      | nil =>
        have := h a
        simp only [smGet, if_true] at this
        exact absurd this hm.1.2
      | cons e' r' =>
        obtain ⟨b, w⟩ := e'
        simp only [smWfFrom, Bool.and_eq_true, decide_eq_true_eq] at hn
        have hab : a = b := by
          rcases Nat.lt_trichotomy a b with hlt | heq | hlt
          · have := h a
            simp only [smGet, if_true, Nat.ne_of_lt hlt, if_false] at this
            rw [smGet_lt d (b + 1) r' hn.2 a (by omega)] at this
            exact absurd this hm.1.2
          · exact heq
          · have := h b
            simp only [smGet, if_true, Nat.ne_of_lt hlt, if_false] at this
            rw [smGet_lt d (a + 1) r hm.2 b (by omega)] at this
            exact absurd this.symm hn.1.2
        subst hab
        have hv := h a
        simp only [smGet, if_true] at hv
        subst hv
        have hr : ∀ k, smGet d r k = smGet d r' k := by
          intro k
          by_cases hk : k = a
          · subst hk
            rw [smGet_lt d (k + 1) r hm.2 k (by omega), smGet_lt d (k + 1) r' hn.2 k (by omega)]
          · have := h k
            simpa [smGet, hk] using this
        rw [ih r' hr (a + 1) (a + 1) hm.2 hn.2]
  exact key 0 0 hm hn

end Sys2Proof.Machine
end

