-- ==== Sys2Proof/Laws/State.lean ====
section
/-! SUPPORT. What each field of the state, and of a team, reads as after each update: true by rfl, so that no proof unfolds a record
update. -/

namespace Sys2Proof.Machine

set_option Elab.async false

/-! ### The state -/

@[simp] theorem State.mapTeam_team (s : State) (f : Team → Team) : (s.mapTeam f).team = f s.team := rfl
@[simp] theorem State.mapTeam_others (s : State) (f : Team → Team) : (s.mapTeam f).others = s.others := rfl
@[simp] theorem State.mapTeam_crews (s : State) (f : Team → Team) : (s.mapTeam f).crews = s.crews := rfl
@[simp] theorem State.mapTeam_cores (s : State) (f : Team → Team) : (s.mapTeam f).cores = s.cores := rfl
@[simp] theorem State.mapTeam_dies (s : State) (f : Team → Team) : (s.mapTeam f).dies = s.dies := rfl
@[simp] theorem State.mapTeam_mem (s : State) (f : Team → Team) : (s.mapTeam f).mem = s.mem := rfl
@[simp] theorem State.mapTeam_poison (s : State) (f : Team → Team) : (s.mapTeam f).poison = s.poison := rfl
@[simp] theorem State.mapTeam_zeroed (s : State) (f : Team → Team) : (s.mapTeam f).zeroed = s.zeroed := rfl
@[simp] theorem State.mapTeam_code (s : State) (f : Team → Team) : (s.mapTeam f).code = s.code := rfl
@[simp] theorem State.mapTeam_contexts (s : State) (f : Team → Team) : (s.mapTeam f).contexts = s.contexts := rfl
@[simp] theorem State.mapTeam_llc (s : State) (f : Team → Team) : (s.mapTeam f).llc = s.llc := rfl
@[simp] theorem State.mapTeam_rrc (s : State) (f : Team → Team) : (s.mapTeam f).rrc = s.rrc := rfl
@[simp] theorem State.mapTeam_events (s : State) (f : Team → Team) : (s.mapTeam f).events = s.events := rfl
@[simp] theorem State.mapTeam_queues (s : State) (f : Team → Team) : (s.mapTeam f).queues = s.queues := rfl
@[simp] theorem State.mapTeam_unreach (s : State) (f : Team → Team) : (s.mapTeam f).unreach = s.unreach := rfl
@[simp] theorem State.mapTeam_pins (s : State) (f : Team → Team) : (s.mapTeam f).pins = s.pins := rfl
@[simp] theorem State.mapTeam_funcs (s : State) (f : Team → Team) : (s.mapTeam f).funcs = s.funcs := rfl
@[simp] theorem State.mapTeam_board (s : State) (f : Team → Team) : (s.mapTeam f).board = s.board := rfl
@[simp] theorem State.mapTeam_sparing (s : State) (f : Team → Team) : (s.mapTeam f).sparing = s.sparing := rfl
@[simp] theorem State.mapTeam_net (s : State) (f : Team → Team) : (s.mapTeam f).net = s.net := rfl
@[simp] theorem State.mapTeam_out (s : State) (f : Team → Team) : (s.mapTeam f).out = s.out := rfl
@[simp] theorem State.mapTeam_ops (s : State) (f : Team → Team) : (s.mapTeam f).ops = s.ops := rfl
@[simp] theorem State.mapTeam_nextOp (s : State) (f : Team → Team) : (s.mapTeam f).nextOp = s.nextOp := rfl
@[simp] theorem State.mapTeam_fresh (s : State) (f : Team → Team) : (s.mapTeam f).fresh = s.fresh := rfl
@[simp] theorem State.mapTeam_agenda (s : State) (f : Team → Team) : (s.mapTeam f).agenda = s.agenda := rfl
@[simp] theorem State.mapTeam_site (s : State) (f : Team → Team) : (s.mapTeam f).site = s.site := rfl
@[simp] theorem State.mapTeam_progress (s : State) (f : Team → Team) : (s.mapTeam f).progress = s.progress := rfl
@[simp] theorem State.mapTeam_turn (s : State) (f : Team → Team) : (s.mapTeam f).turn = s.turn := rfl
@[simp] theorem State.mapTeam_tick (s : State) (f : Team → Team) : (s.mapTeam f).tick = s.tick := rfl
@[simp] theorem State.mapTeam_lastCore (s : State) (f : Team → Team) : (s.mapTeam f).lastCore = s.lastCore := rfl
@[simp] theorem State.mapTeam_eventNo (s : State) (f : Team → Team) : (s.mapTeam f).eventNo = s.eventNo := rfl

@[simp] theorem State.setCrew_team (s : State) (c : Nat) (v : Crew) : (s.setCrew c v).team = s.team := rfl
@[simp] theorem State.setCrew_others (s : State) (c : Nat) (v : Crew) : (s.setCrew c v).others = s.others := rfl
@[simp] theorem State.setCrew_crews (s : State) (c : Nat) (v : Crew) : (s.setCrew c v).crews = smSet {} s.crews c v := rfl
@[simp] theorem State.setCrew_cores (s : State) (c : Nat) (v : Crew) : (s.setCrew c v).cores = s.cores := rfl
@[simp] theorem State.setCrew_dies (s : State) (c : Nat) (v : Crew) : (s.setCrew c v).dies = s.dies := rfl
@[simp] theorem State.setCrew_mem (s : State) (c : Nat) (v : Crew) : (s.setCrew c v).mem = s.mem := rfl
@[simp] theorem State.setCrew_poison (s : State) (c : Nat) (v : Crew) : (s.setCrew c v).poison = s.poison := rfl
@[simp] theorem State.setCrew_zeroed (s : State) (c : Nat) (v : Crew) : (s.setCrew c v).zeroed = s.zeroed := rfl
@[simp] theorem State.setCrew_code (s : State) (c : Nat) (v : Crew) : (s.setCrew c v).code = s.code := rfl
@[simp] theorem State.setCrew_contexts (s : State) (c : Nat) (v : Crew) : (s.setCrew c v).contexts = s.contexts := rfl
@[simp] theorem State.setCrew_llc (s : State) (c : Nat) (v : Crew) : (s.setCrew c v).llc = s.llc := rfl
@[simp] theorem State.setCrew_rrc (s : State) (c : Nat) (v : Crew) : (s.setCrew c v).rrc = s.rrc := rfl
@[simp] theorem State.setCrew_events (s : State) (c : Nat) (v : Crew) : (s.setCrew c v).events = s.events := rfl
@[simp] theorem State.setCrew_queues (s : State) (c : Nat) (v : Crew) : (s.setCrew c v).queues = s.queues := rfl
@[simp] theorem State.setCrew_unreach (s : State) (c : Nat) (v : Crew) : (s.setCrew c v).unreach = s.unreach := rfl
@[simp] theorem State.setCrew_pins (s : State) (c : Nat) (v : Crew) : (s.setCrew c v).pins = s.pins := rfl
@[simp] theorem State.setCrew_funcs (s : State) (c : Nat) (v : Crew) : (s.setCrew c v).funcs = s.funcs := rfl
@[simp] theorem State.setCrew_board (s : State) (c : Nat) (v : Crew) : (s.setCrew c v).board = s.board := rfl
@[simp] theorem State.setCrew_sparing (s : State) (c : Nat) (v : Crew) : (s.setCrew c v).sparing = s.sparing := rfl
@[simp] theorem State.setCrew_net (s : State) (c : Nat) (v : Crew) : (s.setCrew c v).net = s.net := rfl
@[simp] theorem State.setCrew_out (s : State) (c : Nat) (v : Crew) : (s.setCrew c v).out = s.out := rfl
@[simp] theorem State.setCrew_ops (s : State) (c : Nat) (v : Crew) : (s.setCrew c v).ops = s.ops := rfl
@[simp] theorem State.setCrew_nextOp (s : State) (c : Nat) (v : Crew) : (s.setCrew c v).nextOp = s.nextOp := rfl
@[simp] theorem State.setCrew_fresh (s : State) (c : Nat) (v : Crew) : (s.setCrew c v).fresh = s.fresh := rfl
@[simp] theorem State.setCrew_agenda (s : State) (c : Nat) (v : Crew) : (s.setCrew c v).agenda = s.agenda := rfl
@[simp] theorem State.setCrew_site (s : State) (c : Nat) (v : Crew) : (s.setCrew c v).site = s.site := rfl
@[simp] theorem State.setCrew_progress (s : State) (c : Nat) (v : Crew) : (s.setCrew c v).progress = s.progress := rfl
@[simp] theorem State.setCrew_turn (s : State) (c : Nat) (v : Crew) : (s.setCrew c v).turn = s.turn := rfl
@[simp] theorem State.setCrew_tick (s : State) (c : Nat) (v : Crew) : (s.setCrew c v).tick = s.tick := rfl
@[simp] theorem State.setCrew_lastCore (s : State) (c : Nat) (v : Crew) : (s.setCrew c v).lastCore = s.lastCore := rfl
@[simp] theorem State.setCrew_eventNo (s : State) (c : Nat) (v : Crew) : (s.setCrew c v).eventNo = s.eventNo := rfl

@[simp] theorem State.setCore_team (s : State) (k : Nat) (v : Core) : (s.setCore k v).team = s.team := rfl
@[simp] theorem State.setCore_others (s : State) (k : Nat) (v : Core) : (s.setCore k v).others = s.others := rfl
@[simp] theorem State.setCore_crews (s : State) (k : Nat) (v : Core) : (s.setCore k v).crews = s.crews := rfl
@[simp] theorem State.setCore_cores (s : State) (k : Nat) (v : Core) : (s.setCore k v).cores = smSet {} s.cores k v := rfl
@[simp] theorem State.setCore_dies (s : State) (k : Nat) (v : Core) : (s.setCore k v).dies = s.dies := rfl
@[simp] theorem State.setCore_mem (s : State) (k : Nat) (v : Core) : (s.setCore k v).mem = s.mem := rfl
@[simp] theorem State.setCore_poison (s : State) (k : Nat) (v : Core) : (s.setCore k v).poison = s.poison := rfl
@[simp] theorem State.setCore_zeroed (s : State) (k : Nat) (v : Core) : (s.setCore k v).zeroed = s.zeroed := rfl
@[simp] theorem State.setCore_code (s : State) (k : Nat) (v : Core) : (s.setCore k v).code = s.code := rfl
@[simp] theorem State.setCore_contexts (s : State) (k : Nat) (v : Core) : (s.setCore k v).contexts = s.contexts := rfl
@[simp] theorem State.setCore_llc (s : State) (k : Nat) (v : Core) : (s.setCore k v).llc = s.llc := rfl
@[simp] theorem State.setCore_rrc (s : State) (k : Nat) (v : Core) : (s.setCore k v).rrc = s.rrc := rfl
@[simp] theorem State.setCore_events (s : State) (k : Nat) (v : Core) : (s.setCore k v).events = s.events := rfl
@[simp] theorem State.setCore_queues (s : State) (k : Nat) (v : Core) : (s.setCore k v).queues = s.queues := rfl
@[simp] theorem State.setCore_unreach (s : State) (k : Nat) (v : Core) : (s.setCore k v).unreach = s.unreach := rfl
@[simp] theorem State.setCore_pins (s : State) (k : Nat) (v : Core) : (s.setCore k v).pins = s.pins := rfl
@[simp] theorem State.setCore_funcs (s : State) (k : Nat) (v : Core) : (s.setCore k v).funcs = s.funcs := rfl
@[simp] theorem State.setCore_board (s : State) (k : Nat) (v : Core) : (s.setCore k v).board = s.board := rfl
@[simp] theorem State.setCore_sparing (s : State) (k : Nat) (v : Core) : (s.setCore k v).sparing = s.sparing := rfl
@[simp] theorem State.setCore_net (s : State) (k : Nat) (v : Core) : (s.setCore k v).net = s.net := rfl
@[simp] theorem State.setCore_out (s : State) (k : Nat) (v : Core) : (s.setCore k v).out = s.out := rfl
@[simp] theorem State.setCore_ops (s : State) (k : Nat) (v : Core) : (s.setCore k v).ops = s.ops := rfl
@[simp] theorem State.setCore_nextOp (s : State) (k : Nat) (v : Core) : (s.setCore k v).nextOp = s.nextOp := rfl
@[simp] theorem State.setCore_fresh (s : State) (k : Nat) (v : Core) : (s.setCore k v).fresh = s.fresh := rfl
@[simp] theorem State.setCore_agenda (s : State) (k : Nat) (v : Core) : (s.setCore k v).agenda = s.agenda := rfl
@[simp] theorem State.setCore_site (s : State) (k : Nat) (v : Core) : (s.setCore k v).site = s.site := rfl
@[simp] theorem State.setCore_progress (s : State) (k : Nat) (v : Core) : (s.setCore k v).progress = s.progress := rfl
@[simp] theorem State.setCore_turn (s : State) (k : Nat) (v : Core) : (s.setCore k v).turn = s.turn := rfl
@[simp] theorem State.setCore_tick (s : State) (k : Nat) (v : Core) : (s.setCore k v).tick = s.tick := rfl
@[simp] theorem State.setCore_lastCore (s : State) (k : Nat) (v : Core) : (s.setCore k v).lastCore = s.lastCore := rfl
@[simp] theorem State.setCore_eventNo (s : State) (k : Nat) (v : Core) : (s.setCore k v).eventNo = s.eventNo := rfl

@[simp] theorem State.setDie_team (s : State) (d : Nat) (v : Die) : (s.setDie d v).team = s.team := rfl
@[simp] theorem State.setDie_others (s : State) (d : Nat) (v : Die) : (s.setDie d v).others = s.others := rfl
@[simp] theorem State.setDie_crews (s : State) (d : Nat) (v : Die) : (s.setDie d v).crews = s.crews := rfl
@[simp] theorem State.setDie_cores (s : State) (d : Nat) (v : Die) : (s.setDie d v).cores = s.cores := rfl
@[simp] theorem State.setDie_dies (s : State) (d : Nat) (v : Die) : (s.setDie d v).dies = smSet {} s.dies d v := rfl
@[simp] theorem State.setDie_mem (s : State) (d : Nat) (v : Die) : (s.setDie d v).mem = s.mem := rfl
@[simp] theorem State.setDie_poison (s : State) (d : Nat) (v : Die) : (s.setDie d v).poison = s.poison := rfl
@[simp] theorem State.setDie_zeroed (s : State) (d : Nat) (v : Die) : (s.setDie d v).zeroed = s.zeroed := rfl
@[simp] theorem State.setDie_code (s : State) (d : Nat) (v : Die) : (s.setDie d v).code = s.code := rfl
@[simp] theorem State.setDie_contexts (s : State) (d : Nat) (v : Die) : (s.setDie d v).contexts = s.contexts := rfl
@[simp] theorem State.setDie_llc (s : State) (d : Nat) (v : Die) : (s.setDie d v).llc = s.llc := rfl
@[simp] theorem State.setDie_rrc (s : State) (d : Nat) (v : Die) : (s.setDie d v).rrc = s.rrc := rfl
@[simp] theorem State.setDie_events (s : State) (d : Nat) (v : Die) : (s.setDie d v).events = s.events := rfl
@[simp] theorem State.setDie_queues (s : State) (d : Nat) (v : Die) : (s.setDie d v).queues = s.queues := rfl
@[simp] theorem State.setDie_unreach (s : State) (d : Nat) (v : Die) : (s.setDie d v).unreach = s.unreach := rfl
@[simp] theorem State.setDie_pins (s : State) (d : Nat) (v : Die) : (s.setDie d v).pins = s.pins := rfl
@[simp] theorem State.setDie_funcs (s : State) (d : Nat) (v : Die) : (s.setDie d v).funcs = s.funcs := rfl
@[simp] theorem State.setDie_board (s : State) (d : Nat) (v : Die) : (s.setDie d v).board = s.board := rfl
@[simp] theorem State.setDie_sparing (s : State) (d : Nat) (v : Die) : (s.setDie d v).sparing = s.sparing := rfl
@[simp] theorem State.setDie_net (s : State) (d : Nat) (v : Die) : (s.setDie d v).net = s.net := rfl
@[simp] theorem State.setDie_out (s : State) (d : Nat) (v : Die) : (s.setDie d v).out = s.out := rfl
@[simp] theorem State.setDie_ops (s : State) (d : Nat) (v : Die) : (s.setDie d v).ops = s.ops := rfl
@[simp] theorem State.setDie_nextOp (s : State) (d : Nat) (v : Die) : (s.setDie d v).nextOp = s.nextOp := rfl
@[simp] theorem State.setDie_fresh (s : State) (d : Nat) (v : Die) : (s.setDie d v).fresh = s.fresh := rfl
@[simp] theorem State.setDie_agenda (s : State) (d : Nat) (v : Die) : (s.setDie d v).agenda = s.agenda := rfl
@[simp] theorem State.setDie_site (s : State) (d : Nat) (v : Die) : (s.setDie d v).site = s.site := rfl
@[simp] theorem State.setDie_progress (s : State) (d : Nat) (v : Die) : (s.setDie d v).progress = s.progress := rfl
@[simp] theorem State.setDie_turn (s : State) (d : Nat) (v : Die) : (s.setDie d v).turn = s.turn := rfl
@[simp] theorem State.setDie_tick (s : State) (d : Nat) (v : Die) : (s.setDie d v).tick = s.tick := rfl
@[simp] theorem State.setDie_lastCore (s : State) (d : Nat) (v : Die) : (s.setDie d v).lastCore = s.lastCore := rfl
@[simp] theorem State.setDie_eventNo (s : State) (d : Nat) (v : Die) : (s.setDie d v).eventNo = s.eventNo := rfl

@[simp] theorem State.blockOn_others (s : State) (w : Wait) : (s.blockOn w).others = s.others := rfl
@[simp] theorem State.blockOn_crews (s : State) (w : Wait) : (s.blockOn w).crews = s.crews := rfl
@[simp] theorem State.blockOn_cores (s : State) (w : Wait) : (s.blockOn w).cores = s.cores := rfl
@[simp] theorem State.blockOn_dies (s : State) (w : Wait) : (s.blockOn w).dies = s.dies := rfl
@[simp] theorem State.blockOn_mem (s : State) (w : Wait) : (s.blockOn w).mem = s.mem := rfl
@[simp] theorem State.blockOn_poison (s : State) (w : Wait) : (s.blockOn w).poison = s.poison := rfl
@[simp] theorem State.blockOn_zeroed (s : State) (w : Wait) : (s.blockOn w).zeroed = s.zeroed := rfl
@[simp] theorem State.blockOn_code (s : State) (w : Wait) : (s.blockOn w).code = s.code := rfl
@[simp] theorem State.blockOn_contexts (s : State) (w : Wait) : (s.blockOn w).contexts = s.contexts := rfl
@[simp] theorem State.blockOn_llc (s : State) (w : Wait) : (s.blockOn w).llc = s.llc := rfl
@[simp] theorem State.blockOn_rrc (s : State) (w : Wait) : (s.blockOn w).rrc = s.rrc := rfl
@[simp] theorem State.blockOn_events (s : State) (w : Wait) : (s.blockOn w).events = s.events := rfl
@[simp] theorem State.blockOn_queues (s : State) (w : Wait) : (s.blockOn w).queues = s.queues := rfl
@[simp] theorem State.blockOn_unreach (s : State) (w : Wait) : (s.blockOn w).unreach = s.unreach := rfl
@[simp] theorem State.blockOn_pins (s : State) (w : Wait) : (s.blockOn w).pins = s.pins := rfl
@[simp] theorem State.blockOn_funcs (s : State) (w : Wait) : (s.blockOn w).funcs = s.funcs := rfl
@[simp] theorem State.blockOn_board (s : State) (w : Wait) : (s.blockOn w).board = s.board := rfl
@[simp] theorem State.blockOn_sparing (s : State) (w : Wait) : (s.blockOn w).sparing = s.sparing := rfl
@[simp] theorem State.blockOn_net (s : State) (w : Wait) : (s.blockOn w).net = s.net := rfl
@[simp] theorem State.blockOn_out (s : State) (w : Wait) : (s.blockOn w).out = s.out := rfl
@[simp] theorem State.blockOn_ops (s : State) (w : Wait) : (s.blockOn w).ops = s.ops := rfl
@[simp] theorem State.blockOn_nextOp (s : State) (w : Wait) : (s.blockOn w).nextOp = s.nextOp := rfl
@[simp] theorem State.blockOn_fresh (s : State) (w : Wait) : (s.blockOn w).fresh = s.fresh := rfl
@[simp] theorem State.blockOn_agenda (s : State) (w : Wait) : (s.blockOn w).agenda = s.agenda := rfl
@[simp] theorem State.blockOn_site (s : State) (w : Wait) : (s.blockOn w).site = s.site := rfl
@[simp] theorem State.blockOn_progress (s : State) (w : Wait) : (s.blockOn w).progress = s.progress := rfl
@[simp] theorem State.blockOn_turn (s : State) (w : Wait) : (s.blockOn w).turn = s.turn := rfl
@[simp] theorem State.blockOn_tick (s : State) (w : Wait) : (s.blockOn w).tick = s.tick := rfl
@[simp] theorem State.blockOn_lastCore (s : State) (w : Wait) : (s.blockOn w).lastCore = s.lastCore := rfl
@[simp] theorem State.blockOn_eventNo (s : State) (w : Wait) : (s.blockOn w).eventNo = s.eventNo := rfl

@[simp] theorem State.parkAt_others (s : State) (pc : W64) : (s.parkAt pc).others = s.others := rfl
@[simp] theorem State.parkAt_crews (s : State) (pc : W64) : (s.parkAt pc).crews = s.crews := rfl
@[simp] theorem State.parkAt_cores (s : State) (pc : W64) : (s.parkAt pc).cores = s.cores := rfl
@[simp] theorem State.parkAt_dies (s : State) (pc : W64) : (s.parkAt pc).dies = s.dies := rfl
@[simp] theorem State.parkAt_mem (s : State) (pc : W64) : (s.parkAt pc).mem = s.mem := rfl
@[simp] theorem State.parkAt_poison (s : State) (pc : W64) : (s.parkAt pc).poison = s.poison := rfl
@[simp] theorem State.parkAt_zeroed (s : State) (pc : W64) : (s.parkAt pc).zeroed = s.zeroed := rfl
@[simp] theorem State.parkAt_code (s : State) (pc : W64) : (s.parkAt pc).code = s.code := rfl
@[simp] theorem State.parkAt_contexts (s : State) (pc : W64) : (s.parkAt pc).contexts = s.contexts := rfl
@[simp] theorem State.parkAt_llc (s : State) (pc : W64) : (s.parkAt pc).llc = s.llc := rfl
@[simp] theorem State.parkAt_rrc (s : State) (pc : W64) : (s.parkAt pc).rrc = s.rrc := rfl
@[simp] theorem State.parkAt_events (s : State) (pc : W64) : (s.parkAt pc).events = s.events := rfl
@[simp] theorem State.parkAt_queues (s : State) (pc : W64) : (s.parkAt pc).queues = s.queues := rfl
@[simp] theorem State.parkAt_unreach (s : State) (pc : W64) : (s.parkAt pc).unreach = s.unreach := rfl
@[simp] theorem State.parkAt_pins (s : State) (pc : W64) : (s.parkAt pc).pins = s.pins := rfl
@[simp] theorem State.parkAt_funcs (s : State) (pc : W64) : (s.parkAt pc).funcs = s.funcs := rfl
@[simp] theorem State.parkAt_board (s : State) (pc : W64) : (s.parkAt pc).board = s.board := rfl
@[simp] theorem State.parkAt_sparing (s : State) (pc : W64) : (s.parkAt pc).sparing = s.sparing := rfl
@[simp] theorem State.parkAt_net (s : State) (pc : W64) : (s.parkAt pc).net = s.net := rfl
@[simp] theorem State.parkAt_out (s : State) (pc : W64) : (s.parkAt pc).out = s.out := rfl
@[simp] theorem State.parkAt_ops (s : State) (pc : W64) : (s.parkAt pc).ops = s.ops := rfl
@[simp] theorem State.parkAt_nextOp (s : State) (pc : W64) : (s.parkAt pc).nextOp = s.nextOp := rfl
@[simp] theorem State.parkAt_fresh (s : State) (pc : W64) : (s.parkAt pc).fresh = s.fresh := rfl
@[simp] theorem State.parkAt_agenda (s : State) (pc : W64) : (s.parkAt pc).agenda = s.agenda := rfl
@[simp] theorem State.parkAt_site (s : State) (pc : W64) : (s.parkAt pc).site = s.site := rfl
@[simp] theorem State.parkAt_progress (s : State) (pc : W64) : (s.parkAt pc).progress = s.progress := rfl
@[simp] theorem State.parkAt_turn (s : State) (pc : W64) : (s.parkAt pc).turn = s.turn := rfl
@[simp] theorem State.parkAt_tick (s : State) (pc : W64) : (s.parkAt pc).tick = s.tick := rfl
@[simp] theorem State.parkAt_lastCore (s : State) (pc : W64) : (s.parkAt pc).lastCore = s.lastCore := rfl
@[simp] theorem State.parkAt_eventNo (s : State) (pc : W64) : (s.parkAt pc).eventNo = s.eventNo := rfl

@[simp] theorem State.setSpin_team (s : State) (d : Nat) (x : Spindle) : (s.setSpin d x).team = s.team := rfl
@[simp] theorem State.setSpin_others (s : State) (d : Nat) (x : Spindle) : (s.setSpin d x).others = s.others := rfl
@[simp] theorem State.setSpin_crews (s : State) (d : Nat) (x : Spindle) : (s.setSpin d x).crews = s.crews := rfl
@[simp] theorem State.setSpin_cores (s : State) (d : Nat) (x : Spindle) : (s.setSpin d x).cores = s.cores := rfl
@[simp] theorem State.setSpin_mem (s : State) (d : Nat) (x : Spindle) : (s.setSpin d x).mem = s.mem := rfl
@[simp] theorem State.setSpin_poison (s : State) (d : Nat) (x : Spindle) : (s.setSpin d x).poison = s.poison := rfl
@[simp] theorem State.setSpin_zeroed (s : State) (d : Nat) (x : Spindle) : (s.setSpin d x).zeroed = s.zeroed := rfl
@[simp] theorem State.setSpin_code (s : State) (d : Nat) (x : Spindle) : (s.setSpin d x).code = s.code := rfl
@[simp] theorem State.setSpin_contexts (s : State) (d : Nat) (x : Spindle) : (s.setSpin d x).contexts = s.contexts := rfl
@[simp] theorem State.setSpin_llc (s : State) (d : Nat) (x : Spindle) : (s.setSpin d x).llc = s.llc := rfl
@[simp] theorem State.setSpin_rrc (s : State) (d : Nat) (x : Spindle) : (s.setSpin d x).rrc = s.rrc := rfl
@[simp] theorem State.setSpin_events (s : State) (d : Nat) (x : Spindle) : (s.setSpin d x).events = s.events := rfl
@[simp] theorem State.setSpin_queues (s : State) (d : Nat) (x : Spindle) : (s.setSpin d x).queues = s.queues := rfl
@[simp] theorem State.setSpin_unreach (s : State) (d : Nat) (x : Spindle) : (s.setSpin d x).unreach = s.unreach := rfl
@[simp] theorem State.setSpin_pins (s : State) (d : Nat) (x : Spindle) : (s.setSpin d x).pins = s.pins := rfl
@[simp] theorem State.setSpin_funcs (s : State) (d : Nat) (x : Spindle) : (s.setSpin d x).funcs = s.funcs := rfl
@[simp] theorem State.setSpin_board (s : State) (d : Nat) (x : Spindle) : (s.setSpin d x).board = s.board := rfl
@[simp] theorem State.setSpin_sparing (s : State) (d : Nat) (x : Spindle) : (s.setSpin d x).sparing = s.sparing := rfl
@[simp] theorem State.setSpin_net (s : State) (d : Nat) (x : Spindle) : (s.setSpin d x).net = s.net := rfl
@[simp] theorem State.setSpin_out (s : State) (d : Nat) (x : Spindle) : (s.setSpin d x).out = s.out := rfl
@[simp] theorem State.setSpin_ops (s : State) (d : Nat) (x : Spindle) : (s.setSpin d x).ops = s.ops := rfl
@[simp] theorem State.setSpin_nextOp (s : State) (d : Nat) (x : Spindle) : (s.setSpin d x).nextOp = s.nextOp := rfl
@[simp] theorem State.setSpin_fresh (s : State) (d : Nat) (x : Spindle) : (s.setSpin d x).fresh = s.fresh := rfl
@[simp] theorem State.setSpin_agenda (s : State) (d : Nat) (x : Spindle) : (s.setSpin d x).agenda = s.agenda := rfl
@[simp] theorem State.setSpin_site (s : State) (d : Nat) (x : Spindle) : (s.setSpin d x).site = s.site := rfl
@[simp] theorem State.setSpin_progress (s : State) (d : Nat) (x : Spindle) : (s.setSpin d x).progress = s.progress := rfl
@[simp] theorem State.setSpin_turn (s : State) (d : Nat) (x : Spindle) : (s.setSpin d x).turn = s.turn := rfl
@[simp] theorem State.setSpin_tick (s : State) (d : Nat) (x : Spindle) : (s.setSpin d x).tick = s.tick := rfl
@[simp] theorem State.setSpin_lastCore (s : State) (d : Nat) (x : Spindle) : (s.setSpin d x).lastCore = s.lastCore := rfl
@[simp] theorem State.setSpin_eventNo (s : State) (d : Nat) (x : Spindle) : (s.setSpin d x).eventNo = s.eventNo := rfl

@[simp] theorem State.setArb_team (s : State) (d : Nat) (a : Arbiter) : (s.setArb d a).team = s.team := rfl
@[simp] theorem State.setArb_others (s : State) (d : Nat) (a : Arbiter) : (s.setArb d a).others = s.others := rfl
@[simp] theorem State.setArb_crews (s : State) (d : Nat) (a : Arbiter) : (s.setArb d a).crews = s.crews := rfl
@[simp] theorem State.setArb_cores (s : State) (d : Nat) (a : Arbiter) : (s.setArb d a).cores = s.cores := rfl
@[simp] theorem State.setArb_mem (s : State) (d : Nat) (a : Arbiter) : (s.setArb d a).mem = s.mem := rfl
@[simp] theorem State.setArb_poison (s : State) (d : Nat) (a : Arbiter) : (s.setArb d a).poison = s.poison := rfl
@[simp] theorem State.setArb_zeroed (s : State) (d : Nat) (a : Arbiter) : (s.setArb d a).zeroed = s.zeroed := rfl
@[simp] theorem State.setArb_code (s : State) (d : Nat) (a : Arbiter) : (s.setArb d a).code = s.code := rfl
@[simp] theorem State.setArb_contexts (s : State) (d : Nat) (a : Arbiter) : (s.setArb d a).contexts = s.contexts := rfl
@[simp] theorem State.setArb_llc (s : State) (d : Nat) (a : Arbiter) : (s.setArb d a).llc = s.llc := rfl
@[simp] theorem State.setArb_rrc (s : State) (d : Nat) (a : Arbiter) : (s.setArb d a).rrc = s.rrc := rfl
@[simp] theorem State.setArb_events (s : State) (d : Nat) (a : Arbiter) : (s.setArb d a).events = s.events := rfl
@[simp] theorem State.setArb_queues (s : State) (d : Nat) (a : Arbiter) : (s.setArb d a).queues = s.queues := rfl
@[simp] theorem State.setArb_unreach (s : State) (d : Nat) (a : Arbiter) : (s.setArb d a).unreach = s.unreach := rfl
@[simp] theorem State.setArb_pins (s : State) (d : Nat) (a : Arbiter) : (s.setArb d a).pins = s.pins := rfl
@[simp] theorem State.setArb_funcs (s : State) (d : Nat) (a : Arbiter) : (s.setArb d a).funcs = s.funcs := rfl
@[simp] theorem State.setArb_board (s : State) (d : Nat) (a : Arbiter) : (s.setArb d a).board = s.board := rfl
@[simp] theorem State.setArb_sparing (s : State) (d : Nat) (a : Arbiter) : (s.setArb d a).sparing = s.sparing := rfl
@[simp] theorem State.setArb_net (s : State) (d : Nat) (a : Arbiter) : (s.setArb d a).net = s.net := rfl
@[simp] theorem State.setArb_out (s : State) (d : Nat) (a : Arbiter) : (s.setArb d a).out = s.out := rfl
@[simp] theorem State.setArb_ops (s : State) (d : Nat) (a : Arbiter) : (s.setArb d a).ops = s.ops := rfl
@[simp] theorem State.setArb_nextOp (s : State) (d : Nat) (a : Arbiter) : (s.setArb d a).nextOp = s.nextOp := rfl
@[simp] theorem State.setArb_fresh (s : State) (d : Nat) (a : Arbiter) : (s.setArb d a).fresh = s.fresh := rfl
@[simp] theorem State.setArb_agenda (s : State) (d : Nat) (a : Arbiter) : (s.setArb d a).agenda = s.agenda := rfl
@[simp] theorem State.setArb_site (s : State) (d : Nat) (a : Arbiter) : (s.setArb d a).site = s.site := rfl
@[simp] theorem State.setArb_progress (s : State) (d : Nat) (a : Arbiter) : (s.setArb d a).progress = s.progress := rfl
@[simp] theorem State.setArb_turn (s : State) (d : Nat) (a : Arbiter) : (s.setArb d a).turn = s.turn := rfl
@[simp] theorem State.setArb_tick (s : State) (d : Nat) (a : Arbiter) : (s.setArb d a).tick = s.tick := rfl
@[simp] theorem State.setArb_lastCore (s : State) (d : Nat) (a : Arbiter) : (s.setArb d a).lastCore = s.lastCore := rfl
@[simp] theorem State.setArb_eventNo (s : State) (d : Nat) (a : Arbiter) : (s.setArb d a).eventNo = s.eventNo := rfl

@[simp] theorem State.setComp_team (s : State) (d : Nat) (c : Composer) : (s.setComp d c).team = s.team := rfl
@[simp] theorem State.setComp_others (s : State) (d : Nat) (c : Composer) : (s.setComp d c).others = s.others := rfl
@[simp] theorem State.setComp_crews (s : State) (d : Nat) (c : Composer) : (s.setComp d c).crews = s.crews := rfl
@[simp] theorem State.setComp_cores (s : State) (d : Nat) (c : Composer) : (s.setComp d c).cores = s.cores := rfl
@[simp] theorem State.setComp_mem (s : State) (d : Nat) (c : Composer) : (s.setComp d c).mem = s.mem := rfl
@[simp] theorem State.setComp_poison (s : State) (d : Nat) (c : Composer) : (s.setComp d c).poison = s.poison := rfl
@[simp] theorem State.setComp_zeroed (s : State) (d : Nat) (c : Composer) : (s.setComp d c).zeroed = s.zeroed := rfl
@[simp] theorem State.setComp_code (s : State) (d : Nat) (c : Composer) : (s.setComp d c).code = s.code := rfl
@[simp] theorem State.setComp_contexts (s : State) (d : Nat) (c : Composer) : (s.setComp d c).contexts = s.contexts := rfl
@[simp] theorem State.setComp_llc (s : State) (d : Nat) (c : Composer) : (s.setComp d c).llc = s.llc := rfl
@[simp] theorem State.setComp_rrc (s : State) (d : Nat) (c : Composer) : (s.setComp d c).rrc = s.rrc := rfl
@[simp] theorem State.setComp_events (s : State) (d : Nat) (c : Composer) : (s.setComp d c).events = s.events := rfl
@[simp] theorem State.setComp_queues (s : State) (d : Nat) (c : Composer) : (s.setComp d c).queues = s.queues := rfl
@[simp] theorem State.setComp_unreach (s : State) (d : Nat) (c : Composer) : (s.setComp d c).unreach = s.unreach := rfl
@[simp] theorem State.setComp_pins (s : State) (d : Nat) (c : Composer) : (s.setComp d c).pins = s.pins := rfl
@[simp] theorem State.setComp_funcs (s : State) (d : Nat) (c : Composer) : (s.setComp d c).funcs = s.funcs := rfl
@[simp] theorem State.setComp_board (s : State) (d : Nat) (c : Composer) : (s.setComp d c).board = s.board := rfl
@[simp] theorem State.setComp_sparing (s : State) (d : Nat) (c : Composer) : (s.setComp d c).sparing = s.sparing := rfl
@[simp] theorem State.setComp_net (s : State) (d : Nat) (c : Composer) : (s.setComp d c).net = s.net := rfl
@[simp] theorem State.setComp_out (s : State) (d : Nat) (c : Composer) : (s.setComp d c).out = s.out := rfl
@[simp] theorem State.setComp_ops (s : State) (d : Nat) (c : Composer) : (s.setComp d c).ops = s.ops := rfl
@[simp] theorem State.setComp_nextOp (s : State) (d : Nat) (c : Composer) : (s.setComp d c).nextOp = s.nextOp := rfl
@[simp] theorem State.setComp_fresh (s : State) (d : Nat) (c : Composer) : (s.setComp d c).fresh = s.fresh := rfl
@[simp] theorem State.setComp_agenda (s : State) (d : Nat) (c : Composer) : (s.setComp d c).agenda = s.agenda := rfl
@[simp] theorem State.setComp_site (s : State) (d : Nat) (c : Composer) : (s.setComp d c).site = s.site := rfl
@[simp] theorem State.setComp_progress (s : State) (d : Nat) (c : Composer) : (s.setComp d c).progress = s.progress + 1 := rfl
@[simp] theorem State.setComp_turn (s : State) (d : Nat) (c : Composer) : (s.setComp d c).turn = s.turn := rfl
@[simp] theorem State.setComp_tick (s : State) (d : Nat) (c : Composer) : (s.setComp d c).tick = s.tick := rfl
@[simp] theorem State.setComp_lastCore (s : State) (d : Nat) (c : Composer) : (s.setComp d c).lastCore = s.lastCore := rfl
@[simp] theorem State.setComp_eventNo (s : State) (d : Nat) (c : Composer) : (s.setComp d c).eventNo = s.eventNo := rfl

@[simp] theorem State.setPlan_team (s : State) (d k : Nat) (p : Plan) : (s.setPlan d k p).team = s.team := rfl
@[simp] theorem State.setPlan_others (s : State) (d k : Nat) (p : Plan) : (s.setPlan d k p).others = s.others := rfl
@[simp] theorem State.setPlan_crews (s : State) (d k : Nat) (p : Plan) : (s.setPlan d k p).crews = s.crews := rfl
@[simp] theorem State.setPlan_cores (s : State) (d k : Nat) (p : Plan) : (s.setPlan d k p).cores = s.cores := rfl
@[simp] theorem State.setPlan_mem (s : State) (d k : Nat) (p : Plan) : (s.setPlan d k p).mem = s.mem := rfl
@[simp] theorem State.setPlan_poison (s : State) (d k : Nat) (p : Plan) : (s.setPlan d k p).poison = s.poison := rfl
@[simp] theorem State.setPlan_zeroed (s : State) (d k : Nat) (p : Plan) : (s.setPlan d k p).zeroed = s.zeroed := rfl
@[simp] theorem State.setPlan_code (s : State) (d k : Nat) (p : Plan) : (s.setPlan d k p).code = s.code := rfl
@[simp] theorem State.setPlan_contexts (s : State) (d k : Nat) (p : Plan) : (s.setPlan d k p).contexts = s.contexts := rfl
@[simp] theorem State.setPlan_llc (s : State) (d k : Nat) (p : Plan) : (s.setPlan d k p).llc = s.llc := rfl
@[simp] theorem State.setPlan_rrc (s : State) (d k : Nat) (p : Plan) : (s.setPlan d k p).rrc = s.rrc := rfl
@[simp] theorem State.setPlan_events (s : State) (d k : Nat) (p : Plan) : (s.setPlan d k p).events = s.events := rfl
@[simp] theorem State.setPlan_queues (s : State) (d k : Nat) (p : Plan) : (s.setPlan d k p).queues = s.queues := rfl
@[simp] theorem State.setPlan_unreach (s : State) (d k : Nat) (p : Plan) : (s.setPlan d k p).unreach = s.unreach := rfl
@[simp] theorem State.setPlan_pins (s : State) (d k : Nat) (p : Plan) : (s.setPlan d k p).pins = s.pins := rfl
@[simp] theorem State.setPlan_funcs (s : State) (d k : Nat) (p : Plan) : (s.setPlan d k p).funcs = s.funcs := rfl
@[simp] theorem State.setPlan_board (s : State) (d k : Nat) (p : Plan) : (s.setPlan d k p).board = s.board := rfl
@[simp] theorem State.setPlan_sparing (s : State) (d k : Nat) (p : Plan) : (s.setPlan d k p).sparing = s.sparing := rfl
@[simp] theorem State.setPlan_net (s : State) (d k : Nat) (p : Plan) : (s.setPlan d k p).net = s.net := rfl
@[simp] theorem State.setPlan_out (s : State) (d k : Nat) (p : Plan) : (s.setPlan d k p).out = s.out := rfl
@[simp] theorem State.setPlan_ops (s : State) (d k : Nat) (p : Plan) : (s.setPlan d k p).ops = s.ops := rfl
@[simp] theorem State.setPlan_nextOp (s : State) (d k : Nat) (p : Plan) : (s.setPlan d k p).nextOp = s.nextOp := rfl
@[simp] theorem State.setPlan_fresh (s : State) (d k : Nat) (p : Plan) : (s.setPlan d k p).fresh = s.fresh := rfl
@[simp] theorem State.setPlan_agenda (s : State) (d k : Nat) (p : Plan) : (s.setPlan d k p).agenda = s.agenda := rfl
@[simp] theorem State.setPlan_site (s : State) (d k : Nat) (p : Plan) : (s.setPlan d k p).site = s.site := rfl
@[simp] theorem State.setPlan_progress (s : State) (d k : Nat) (p : Plan) : (s.setPlan d k p).progress = s.progress + 1 := rfl
@[simp] theorem State.setPlan_turn (s : State) (d k : Nat) (p : Plan) : (s.setPlan d k p).turn = s.turn := rfl
@[simp] theorem State.setPlan_tick (s : State) (d k : Nat) (p : Plan) : (s.setPlan d k p).tick = s.tick := rfl
@[simp] theorem State.setPlan_lastCore (s : State) (d k : Nat) (p : Plan) : (s.setPlan d k p).lastCore = s.lastCore := rfl
@[simp] theorem State.setPlan_eventNo (s : State) (d k : Nat) (p : Plan) : (s.setPlan d k p).eventNo = s.eventNo := rfl

@[simp] theorem State.setLaunch_team (s : State) (d k : Nat) (e : LaunchEntry) : (s.setLaunch d k e).team = s.team := rfl
@[simp] theorem State.setLaunch_others (s : State) (d k : Nat) (e : LaunchEntry) : (s.setLaunch d k e).others = s.others := rfl
@[simp] theorem State.setLaunch_crews (s : State) (d k : Nat) (e : LaunchEntry) : (s.setLaunch d k e).crews = s.crews := rfl
@[simp] theorem State.setLaunch_cores (s : State) (d k : Nat) (e : LaunchEntry) : (s.setLaunch d k e).cores = s.cores := rfl
@[simp] theorem State.setLaunch_mem (s : State) (d k : Nat) (e : LaunchEntry) : (s.setLaunch d k e).mem = s.mem := rfl
@[simp] theorem State.setLaunch_poison (s : State) (d k : Nat) (e : LaunchEntry) : (s.setLaunch d k e).poison = s.poison := rfl
@[simp] theorem State.setLaunch_zeroed (s : State) (d k : Nat) (e : LaunchEntry) : (s.setLaunch d k e).zeroed = s.zeroed := rfl
@[simp] theorem State.setLaunch_code (s : State) (d k : Nat) (e : LaunchEntry) : (s.setLaunch d k e).code = s.code := rfl
@[simp] theorem State.setLaunch_contexts (s : State) (d k : Nat) (e : LaunchEntry) : (s.setLaunch d k e).contexts = s.contexts := rfl
@[simp] theorem State.setLaunch_llc (s : State) (d k : Nat) (e : LaunchEntry) : (s.setLaunch d k e).llc = s.llc := rfl
@[simp] theorem State.setLaunch_rrc (s : State) (d k : Nat) (e : LaunchEntry) : (s.setLaunch d k e).rrc = s.rrc := rfl
@[simp] theorem State.setLaunch_events (s : State) (d k : Nat) (e : LaunchEntry) : (s.setLaunch d k e).events = s.events := rfl
@[simp] theorem State.setLaunch_queues (s : State) (d k : Nat) (e : LaunchEntry) : (s.setLaunch d k e).queues = s.queues := rfl
@[simp] theorem State.setLaunch_unreach (s : State) (d k : Nat) (e : LaunchEntry) : (s.setLaunch d k e).unreach = s.unreach := rfl
@[simp] theorem State.setLaunch_pins (s : State) (d k : Nat) (e : LaunchEntry) : (s.setLaunch d k e).pins = s.pins := rfl
@[simp] theorem State.setLaunch_funcs (s : State) (d k : Nat) (e : LaunchEntry) : (s.setLaunch d k e).funcs = s.funcs := rfl
@[simp] theorem State.setLaunch_board (s : State) (d k : Nat) (e : LaunchEntry) : (s.setLaunch d k e).board = s.board := rfl
@[simp] theorem State.setLaunch_sparing (s : State) (d k : Nat) (e : LaunchEntry) : (s.setLaunch d k e).sparing = s.sparing := rfl
@[simp] theorem State.setLaunch_net (s : State) (d k : Nat) (e : LaunchEntry) : (s.setLaunch d k e).net = s.net := rfl
@[simp] theorem State.setLaunch_out (s : State) (d k : Nat) (e : LaunchEntry) : (s.setLaunch d k e).out = s.out := rfl
@[simp] theorem State.setLaunch_ops (s : State) (d k : Nat) (e : LaunchEntry) : (s.setLaunch d k e).ops = s.ops := rfl
@[simp] theorem State.setLaunch_nextOp (s : State) (d k : Nat) (e : LaunchEntry) : (s.setLaunch d k e).nextOp = s.nextOp := rfl
@[simp] theorem State.setLaunch_fresh (s : State) (d k : Nat) (e : LaunchEntry) : (s.setLaunch d k e).fresh = s.fresh := rfl
@[simp] theorem State.setLaunch_agenda (s : State) (d k : Nat) (e : LaunchEntry) : (s.setLaunch d k e).agenda = s.agenda := rfl
@[simp] theorem State.setLaunch_site (s : State) (d k : Nat) (e : LaunchEntry) : (s.setLaunch d k e).site = s.site := rfl
@[simp] theorem State.setLaunch_progress (s : State) (d k : Nat) (e : LaunchEntry) : (s.setLaunch d k e).progress = s.progress + 1 := rfl
@[simp] theorem State.setLaunch_turn (s : State) (d k : Nat) (e : LaunchEntry) : (s.setLaunch d k e).turn = s.turn := rfl
@[simp] theorem State.setLaunch_tick (s : State) (d k : Nat) (e : LaunchEntry) : (s.setLaunch d k e).tick = s.tick := rfl
@[simp] theorem State.setLaunch_lastCore (s : State) (d k : Nat) (e : LaunchEntry) : (s.setLaunch d k e).lastCore = s.lastCore := rfl
@[simp] theorem State.setLaunch_eventNo (s : State) (d k : Nat) (e : LaunchEntry) : (s.setLaunch d k e).eventNo = s.eventNo := rfl

@[simp] theorem State.setRow_team (s : State) (ck slot : Nat) (r : SlotRow) : (s.setRow ck slot r).team = s.team := rfl
@[simp] theorem State.setRow_others (s : State) (ck slot : Nat) (r : SlotRow) : (s.setRow ck slot r).others = s.others := rfl
@[simp] theorem State.setRow_crews (s : State) (ck slot : Nat) (r : SlotRow) : (s.setRow ck slot r).crews = s.crews := rfl
@[simp] theorem State.setRow_dies (s : State) (ck slot : Nat) (r : SlotRow) : (s.setRow ck slot r).dies = s.dies := rfl
@[simp] theorem State.setRow_mem (s : State) (ck slot : Nat) (r : SlotRow) : (s.setRow ck slot r).mem = s.mem := rfl
@[simp] theorem State.setRow_poison (s : State) (ck slot : Nat) (r : SlotRow) : (s.setRow ck slot r).poison = s.poison := rfl
@[simp] theorem State.setRow_zeroed (s : State) (ck slot : Nat) (r : SlotRow) : (s.setRow ck slot r).zeroed = s.zeroed := rfl
@[simp] theorem State.setRow_code (s : State) (ck slot : Nat) (r : SlotRow) : (s.setRow ck slot r).code = s.code := rfl
@[simp] theorem State.setRow_contexts (s : State) (ck slot : Nat) (r : SlotRow) : (s.setRow ck slot r).contexts = s.contexts := rfl
@[simp] theorem State.setRow_llc (s : State) (ck slot : Nat) (r : SlotRow) : (s.setRow ck slot r).llc = s.llc := rfl
@[simp] theorem State.setRow_rrc (s : State) (ck slot : Nat) (r : SlotRow) : (s.setRow ck slot r).rrc = s.rrc := rfl
@[simp] theorem State.setRow_events (s : State) (ck slot : Nat) (r : SlotRow) : (s.setRow ck slot r).events = s.events := rfl
@[simp] theorem State.setRow_queues (s : State) (ck slot : Nat) (r : SlotRow) : (s.setRow ck slot r).queues = s.queues := rfl
@[simp] theorem State.setRow_unreach (s : State) (ck slot : Nat) (r : SlotRow) : (s.setRow ck slot r).unreach = s.unreach := rfl
@[simp] theorem State.setRow_pins (s : State) (ck slot : Nat) (r : SlotRow) : (s.setRow ck slot r).pins = s.pins := rfl
@[simp] theorem State.setRow_funcs (s : State) (ck slot : Nat) (r : SlotRow) : (s.setRow ck slot r).funcs = s.funcs := rfl
@[simp] theorem State.setRow_board (s : State) (ck slot : Nat) (r : SlotRow) : (s.setRow ck slot r).board = s.board := rfl
@[simp] theorem State.setRow_sparing (s : State) (ck slot : Nat) (r : SlotRow) : (s.setRow ck slot r).sparing = s.sparing := rfl
@[simp] theorem State.setRow_net (s : State) (ck slot : Nat) (r : SlotRow) : (s.setRow ck slot r).net = s.net := rfl
@[simp] theorem State.setRow_out (s : State) (ck slot : Nat) (r : SlotRow) : (s.setRow ck slot r).out = s.out := rfl
@[simp] theorem State.setRow_ops (s : State) (ck slot : Nat) (r : SlotRow) : (s.setRow ck slot r).ops = s.ops := rfl
@[simp] theorem State.setRow_nextOp (s : State) (ck slot : Nat) (r : SlotRow) : (s.setRow ck slot r).nextOp = s.nextOp := rfl
@[simp] theorem State.setRow_fresh (s : State) (ck slot : Nat) (r : SlotRow) : (s.setRow ck slot r).fresh = s.fresh := rfl
@[simp] theorem State.setRow_agenda (s : State) (ck slot : Nat) (r : SlotRow) : (s.setRow ck slot r).agenda = s.agenda := rfl
@[simp] theorem State.setRow_site (s : State) (ck slot : Nat) (r : SlotRow) : (s.setRow ck slot r).site = s.site := rfl
@[simp] theorem State.setRow_progress (s : State) (ck slot : Nat) (r : SlotRow) : (s.setRow ck slot r).progress = s.progress + 1 := rfl
@[simp] theorem State.setRow_turn (s : State) (ck slot : Nat) (r : SlotRow) : (s.setRow ck slot r).turn = s.turn := rfl
@[simp] theorem State.setRow_tick (s : State) (ck slot : Nat) (r : SlotRow) : (s.setRow ck slot r).tick = s.tick := rfl
@[simp] theorem State.setRow_lastCore (s : State) (ck slot : Nat) (r : SlotRow) : (s.setRow ck slot r).lastCore = s.lastCore := rfl
@[simp] theorem State.setRow_eventNo (s : State) (ck slot : Nat) (r : SlotRow) : (s.setRow ck slot r).eventNo = s.eventNo := rfl

@[simp] theorem State.setRq_team (s : State) (n : Nat) (q : RecordQueue) : (s.setRq n q).team = s.team := rfl
@[simp] theorem State.setRq_others (s : State) (n : Nat) (q : RecordQueue) : (s.setRq n q).others = s.others := rfl
@[simp] theorem State.setRq_crews (s : State) (n : Nat) (q : RecordQueue) : (s.setRq n q).crews = s.crews := rfl
@[simp] theorem State.setRq_cores (s : State) (n : Nat) (q : RecordQueue) : (s.setRq n q).cores = s.cores := rfl
@[simp] theorem State.setRq_dies (s : State) (n : Nat) (q : RecordQueue) : (s.setRq n q).dies = s.dies := rfl
@[simp] theorem State.setRq_mem (s : State) (n : Nat) (q : RecordQueue) : (s.setRq n q).mem = s.mem := rfl
@[simp] theorem State.setRq_poison (s : State) (n : Nat) (q : RecordQueue) : (s.setRq n q).poison = s.poison := rfl
@[simp] theorem State.setRq_zeroed (s : State) (n : Nat) (q : RecordQueue) : (s.setRq n q).zeroed = s.zeroed := rfl
@[simp] theorem State.setRq_code (s : State) (n : Nat) (q : RecordQueue) : (s.setRq n q).code = s.code := rfl
@[simp] theorem State.setRq_contexts (s : State) (n : Nat) (q : RecordQueue) : (s.setRq n q).contexts = s.contexts := rfl
@[simp] theorem State.setRq_llc (s : State) (n : Nat) (q : RecordQueue) : (s.setRq n q).llc = s.llc := rfl
@[simp] theorem State.setRq_rrc (s : State) (n : Nat) (q : RecordQueue) : (s.setRq n q).rrc = s.rrc := rfl
@[simp] theorem State.setRq_events (s : State) (n : Nat) (q : RecordQueue) : (s.setRq n q).events = s.events := rfl
@[simp] theorem State.setRq_queues (s : State) (n : Nat) (q : RecordQueue) : (s.setRq n q).queues = smSet {} s.queues n q := rfl
@[simp] theorem State.setRq_unreach (s : State) (n : Nat) (q : RecordQueue) : (s.setRq n q).unreach = s.unreach := rfl
@[simp] theorem State.setRq_pins (s : State) (n : Nat) (q : RecordQueue) : (s.setRq n q).pins = s.pins := rfl
@[simp] theorem State.setRq_funcs (s : State) (n : Nat) (q : RecordQueue) : (s.setRq n q).funcs = s.funcs := rfl
@[simp] theorem State.setRq_board (s : State) (n : Nat) (q : RecordQueue) : (s.setRq n q).board = s.board := rfl
@[simp] theorem State.setRq_sparing (s : State) (n : Nat) (q : RecordQueue) : (s.setRq n q).sparing = s.sparing := rfl
@[simp] theorem State.setRq_net (s : State) (n : Nat) (q : RecordQueue) : (s.setRq n q).net = s.net := rfl
@[simp] theorem State.setRq_out (s : State) (n : Nat) (q : RecordQueue) : (s.setRq n q).out = s.out := rfl
@[simp] theorem State.setRq_ops (s : State) (n : Nat) (q : RecordQueue) : (s.setRq n q).ops = s.ops := rfl
@[simp] theorem State.setRq_nextOp (s : State) (n : Nat) (q : RecordQueue) : (s.setRq n q).nextOp = s.nextOp := rfl
@[simp] theorem State.setRq_fresh (s : State) (n : Nat) (q : RecordQueue) : (s.setRq n q).fresh = s.fresh := rfl
@[simp] theorem State.setRq_agenda (s : State) (n : Nat) (q : RecordQueue) : (s.setRq n q).agenda = s.agenda := rfl
@[simp] theorem State.setRq_site (s : State) (n : Nat) (q : RecordQueue) : (s.setRq n q).site = s.site := rfl
@[simp] theorem State.setRq_progress (s : State) (n : Nat) (q : RecordQueue) : (s.setRq n q).progress = s.progress + 1 := rfl
@[simp] theorem State.setRq_turn (s : State) (n : Nat) (q : RecordQueue) : (s.setRq n q).turn = s.turn := rfl
@[simp] theorem State.setRq_tick (s : State) (n : Nat) (q : RecordQueue) : (s.setRq n q).tick = s.tick := rfl
@[simp] theorem State.setRq_lastCore (s : State) (n : Nat) (q : RecordQueue) : (s.setRq n q).lastCore = s.lastCore := rfl
@[simp] theorem State.setRq_eventNo (s : State) (n : Nat) (q : RecordQueue) : (s.setRq n q).eventNo = s.eventNo := rfl

@[simp] theorem State.setFn_team (s : State) (f : Nat) (x : HostFunc) : (s.setFn f x).team = s.team := rfl
@[simp] theorem State.setFn_others (s : State) (f : Nat) (x : HostFunc) : (s.setFn f x).others = s.others := rfl
@[simp] theorem State.setFn_crews (s : State) (f : Nat) (x : HostFunc) : (s.setFn f x).crews = s.crews := rfl
@[simp] theorem State.setFn_cores (s : State) (f : Nat) (x : HostFunc) : (s.setFn f x).cores = s.cores := rfl
@[simp] theorem State.setFn_dies (s : State) (f : Nat) (x : HostFunc) : (s.setFn f x).dies = s.dies := rfl
@[simp] theorem State.setFn_mem (s : State) (f : Nat) (x : HostFunc) : (s.setFn f x).mem = s.mem := rfl
@[simp] theorem State.setFn_poison (s : State) (f : Nat) (x : HostFunc) : (s.setFn f x).poison = s.poison := rfl
@[simp] theorem State.setFn_zeroed (s : State) (f : Nat) (x : HostFunc) : (s.setFn f x).zeroed = s.zeroed := rfl
@[simp] theorem State.setFn_code (s : State) (f : Nat) (x : HostFunc) : (s.setFn f x).code = s.code := rfl
@[simp] theorem State.setFn_contexts (s : State) (f : Nat) (x : HostFunc) : (s.setFn f x).contexts = s.contexts := rfl
@[simp] theorem State.setFn_llc (s : State) (f : Nat) (x : HostFunc) : (s.setFn f x).llc = s.llc := rfl
@[simp] theorem State.setFn_rrc (s : State) (f : Nat) (x : HostFunc) : (s.setFn f x).rrc = s.rrc := rfl
@[simp] theorem State.setFn_events (s : State) (f : Nat) (x : HostFunc) : (s.setFn f x).events = s.events := rfl
@[simp] theorem State.setFn_queues (s : State) (f : Nat) (x : HostFunc) : (s.setFn f x).queues = s.queues := rfl
@[simp] theorem State.setFn_unreach (s : State) (f : Nat) (x : HostFunc) : (s.setFn f x).unreach = s.unreach := rfl
@[simp] theorem State.setFn_pins (s : State) (f : Nat) (x : HostFunc) : (s.setFn f x).pins = s.pins := rfl
@[simp] theorem State.setFn_funcs (s : State) (f : Nat) (x : HostFunc) : (s.setFn f x).funcs = smSet {} s.funcs f x := rfl
@[simp] theorem State.setFn_board (s : State) (f : Nat) (x : HostFunc) : (s.setFn f x).board = s.board := rfl
@[simp] theorem State.setFn_sparing (s : State) (f : Nat) (x : HostFunc) : (s.setFn f x).sparing = s.sparing := rfl
@[simp] theorem State.setFn_net (s : State) (f : Nat) (x : HostFunc) : (s.setFn f x).net = s.net := rfl
@[simp] theorem State.setFn_out (s : State) (f : Nat) (x : HostFunc) : (s.setFn f x).out = s.out := rfl
@[simp] theorem State.setFn_ops (s : State) (f : Nat) (x : HostFunc) : (s.setFn f x).ops = s.ops := rfl
@[simp] theorem State.setFn_nextOp (s : State) (f : Nat) (x : HostFunc) : (s.setFn f x).nextOp = s.nextOp := rfl
@[simp] theorem State.setFn_fresh (s : State) (f : Nat) (x : HostFunc) : (s.setFn f x).fresh = s.fresh := rfl
@[simp] theorem State.setFn_agenda (s : State) (f : Nat) (x : HostFunc) : (s.setFn f x).agenda = s.agenda := rfl
@[simp] theorem State.setFn_site (s : State) (f : Nat) (x : HostFunc) : (s.setFn f x).site = s.site := rfl
@[simp] theorem State.setFn_progress (s : State) (f : Nat) (x : HostFunc) : (s.setFn f x).progress = s.progress + 1 := rfl
@[simp] theorem State.setFn_turn (s : State) (f : Nat) (x : HostFunc) : (s.setFn f x).turn = s.turn := rfl
@[simp] theorem State.setFn_tick (s : State) (f : Nat) (x : HostFunc) : (s.setFn f x).tick = s.tick := rfl
@[simp] theorem State.setFn_lastCore (s : State) (f : Nat) (x : HostFunc) : (s.setFn f x).lastCore = s.lastCore := rfl
@[simp] theorem State.setFn_eventNo (s : State) (f : Nat) (x : HostFunc) : (s.setFn f x).eventNo = s.eventNo := rfl

@[simp] theorem State.mapMat_team (s : State) (c : Nat) (f : Matrix → Matrix) : (s.mapMat c f).team = s.team := rfl
@[simp] theorem State.mapMat_others (s : State) (c : Nat) (f : Matrix → Matrix) : (s.mapMat c f).others = s.others := rfl
@[simp] theorem State.mapMat_cores (s : State) (c : Nat) (f : Matrix → Matrix) : (s.mapMat c f).cores = s.cores := rfl
@[simp] theorem State.mapMat_dies (s : State) (c : Nat) (f : Matrix → Matrix) : (s.mapMat c f).dies = s.dies := rfl
@[simp] theorem State.mapMat_mem (s : State) (c : Nat) (f : Matrix → Matrix) : (s.mapMat c f).mem = s.mem := rfl
@[simp] theorem State.mapMat_poison (s : State) (c : Nat) (f : Matrix → Matrix) : (s.mapMat c f).poison = s.poison := rfl
@[simp] theorem State.mapMat_zeroed (s : State) (c : Nat) (f : Matrix → Matrix) : (s.mapMat c f).zeroed = s.zeroed := rfl
@[simp] theorem State.mapMat_code (s : State) (c : Nat) (f : Matrix → Matrix) : (s.mapMat c f).code = s.code := rfl
@[simp] theorem State.mapMat_contexts (s : State) (c : Nat) (f : Matrix → Matrix) : (s.mapMat c f).contexts = s.contexts := rfl
@[simp] theorem State.mapMat_llc (s : State) (c : Nat) (f : Matrix → Matrix) : (s.mapMat c f).llc = s.llc := rfl
@[simp] theorem State.mapMat_rrc (s : State) (c : Nat) (f : Matrix → Matrix) : (s.mapMat c f).rrc = s.rrc := rfl
@[simp] theorem State.mapMat_events (s : State) (c : Nat) (f : Matrix → Matrix) : (s.mapMat c f).events = s.events := rfl
@[simp] theorem State.mapMat_queues (s : State) (c : Nat) (f : Matrix → Matrix) : (s.mapMat c f).queues = s.queues := rfl
@[simp] theorem State.mapMat_unreach (s : State) (c : Nat) (f : Matrix → Matrix) : (s.mapMat c f).unreach = s.unreach := rfl
@[simp] theorem State.mapMat_pins (s : State) (c : Nat) (f : Matrix → Matrix) : (s.mapMat c f).pins = s.pins := rfl
@[simp] theorem State.mapMat_funcs (s : State) (c : Nat) (f : Matrix → Matrix) : (s.mapMat c f).funcs = s.funcs := rfl
@[simp] theorem State.mapMat_board (s : State) (c : Nat) (f : Matrix → Matrix) : (s.mapMat c f).board = s.board := rfl
@[simp] theorem State.mapMat_sparing (s : State) (c : Nat) (f : Matrix → Matrix) : (s.mapMat c f).sparing = s.sparing := rfl
@[simp] theorem State.mapMat_net (s : State) (c : Nat) (f : Matrix → Matrix) : (s.mapMat c f).net = s.net := rfl
@[simp] theorem State.mapMat_out (s : State) (c : Nat) (f : Matrix → Matrix) : (s.mapMat c f).out = s.out := rfl
@[simp] theorem State.mapMat_ops (s : State) (c : Nat) (f : Matrix → Matrix) : (s.mapMat c f).ops = s.ops := rfl
@[simp] theorem State.mapMat_nextOp (s : State) (c : Nat) (f : Matrix → Matrix) : (s.mapMat c f).nextOp = s.nextOp := rfl
@[simp] theorem State.mapMat_fresh (s : State) (c : Nat) (f : Matrix → Matrix) : (s.mapMat c f).fresh = s.fresh := rfl
@[simp] theorem State.mapMat_agenda (s : State) (c : Nat) (f : Matrix → Matrix) : (s.mapMat c f).agenda = s.agenda := rfl
@[simp] theorem State.mapMat_site (s : State) (c : Nat) (f : Matrix → Matrix) : (s.mapMat c f).site = s.site := rfl
@[simp] theorem State.mapMat_progress (s : State) (c : Nat) (f : Matrix → Matrix) : (s.mapMat c f).progress = s.progress := rfl
@[simp] theorem State.mapMat_turn (s : State) (c : Nat) (f : Matrix → Matrix) : (s.mapMat c f).turn = s.turn := rfl
@[simp] theorem State.mapMat_tick (s : State) (c : Nat) (f : Matrix → Matrix) : (s.mapMat c f).tick = s.tick := rfl
@[simp] theorem State.mapMat_lastCore (s : State) (c : Nat) (f : Matrix → Matrix) : (s.mapMat c f).lastCore = s.lastCore := rfl
@[simp] theorem State.mapMat_eventNo (s : State) (c : Nat) (f : Matrix → Matrix) : (s.mapMat c f).eventNo = s.eventNo := rfl

/-! ### A team -/

@[simp] theorem Team.setS_id (t : Team) (i : Nat) (v : W32) : (t.setS i v).id = t.id := rfl
@[simp] theorem Team.setS_busy (t : Team) (i : Nat) (v : W32) : (t.setS i v).busy = t.busy := rfl
@[simp] theorem Team.setS_q (t : Team) (i : Nat) (v : W32) : (t.setS i v).q = t.q := rfl
@[simp] theorem Team.setS_live (t : Team) (i : Nat) (v : W32) : (t.setS i v).live = t.live := rfl
@[simp] theorem Team.setS_m (t : Team) (i : Nat) (v : W32) : (t.setS i v).m = t.m := rfl
@[simp] theorem Team.setS_join (t : Team) (i : Nat) (v : W32) : (t.setS i v).join = t.join := rfl
@[simp] theorem Team.setS_pc (t : Team) (i : Nat) (v : W32) : (t.setS i v).pc = t.pc := rfl
@[simp] theorem Team.setS_clause (t : Team) (i : Nat) (v : W32) : (t.setS i v).clause = t.clause := rfl
@[simp] theorem Team.setS_pfx (t : Team) (i : Nat) (v : W32) : (t.setS i v).pfx = t.pfx := rfl
@[simp] theorem Team.setS_group (t : Team) (i : Nat) (v : W32) : (t.setS i v).group = t.group := rfl
@[simp] theorem Team.setS_note (t : Team) (i : Nat) (v : W32) : (t.setS i v).note = t.note := rfl
@[simp] theorem Team.setS_scc (t : Team) (i : Nat) (v : W32) : (t.setS i v).scc = t.scc := rfl
@[simp] theorem Team.setS_cls (t : Team) (i : Nat) (v : W32) : (t.setS i v).cls = t.cls := rfl
@[simp] theorem Team.setS_sup (t : Team) (i : Nat) (v : W32) : (t.setS i v).sup = t.sup := rfl
@[simp] theorem Team.setS_x (t : Team) (i : Nat) (v : W32) : (t.setS i v).x = t.x := rfl
@[simp] theorem Team.setS_asticky (t : Team) (i : Nat) (v : W32) : (t.setS i v).asticky = t.asticky := rfl
@[simp] theorem Team.setS_aenable (t : Team) (i : Nat) (v : W32) : (t.setS i v).aenable = t.aenable := rfl
@[simp] theorem Team.setS_sp (t : Team) (i : Nat) (v : W32) : (t.setS i v).sp = t.sp := rfl
@[simp] theorem Team.setS_rf (t : Team) (i : Nat) (v : W32) : (t.setS i v).rf = t.rf := rfl
@[simp] theorem Team.setS_dbg (t : Team) (i : Nat) (v : W32) : (t.setS i v).dbg = t.dbg := rfl
@[simp] theorem Team.setS_eng (t : Team) (i : Nat) (v : W32) : (t.setS i v).eng = t.eng := rfl
@[simp] theorem Team.setS_dq (t : Team) (i : Nat) (v : W32) : (t.setS i v).dq = t.dq := rfl
@[simp] theorem Team.setS_sched (t : Team) (i : Nat) (v : W32) : (t.setS i v).sched = t.sched := rfl

@[simp] theorem Team.setS64_id (t : Team) (i : Nat) (v : W64) : (t.setS64 i v).id = t.id := rfl
@[simp] theorem Team.setS64_busy (t : Team) (i : Nat) (v : W64) : (t.setS64 i v).busy = t.busy := rfl
@[simp] theorem Team.setS64_q (t : Team) (i : Nat) (v : W64) : (t.setS64 i v).q = t.q := rfl
@[simp] theorem Team.setS64_live (t : Team) (i : Nat) (v : W64) : (t.setS64 i v).live = t.live := rfl
@[simp] theorem Team.setS64_m (t : Team) (i : Nat) (v : W64) : (t.setS64 i v).m = t.m := rfl
@[simp] theorem Team.setS64_join (t : Team) (i : Nat) (v : W64) : (t.setS64 i v).join = t.join := rfl
@[simp] theorem Team.setS64_pc (t : Team) (i : Nat) (v : W64) : (t.setS64 i v).pc = t.pc := rfl
@[simp] theorem Team.setS64_clause (t : Team) (i : Nat) (v : W64) : (t.setS64 i v).clause = t.clause := rfl
@[simp] theorem Team.setS64_pfx (t : Team) (i : Nat) (v : W64) : (t.setS64 i v).pfx = t.pfx := rfl
@[simp] theorem Team.setS64_group (t : Team) (i : Nat) (v : W64) : (t.setS64 i v).group = t.group := rfl
@[simp] theorem Team.setS64_note (t : Team) (i : Nat) (v : W64) : (t.setS64 i v).note = t.note := rfl
@[simp] theorem Team.setS64_scc (t : Team) (i : Nat) (v : W64) : (t.setS64 i v).scc = t.scc := rfl
@[simp] theorem Team.setS64_cls (t : Team) (i : Nat) (v : W64) : (t.setS64 i v).cls = t.cls := rfl
@[simp] theorem Team.setS64_sup (t : Team) (i : Nat) (v : W64) : (t.setS64 i v).sup = t.sup := rfl
@[simp] theorem Team.setS64_x (t : Team) (i : Nat) (v : W64) : (t.setS64 i v).x = t.x := rfl
@[simp] theorem Team.setS64_asticky (t : Team) (i : Nat) (v : W64) : (t.setS64 i v).asticky = t.asticky := rfl
@[simp] theorem Team.setS64_aenable (t : Team) (i : Nat) (v : W64) : (t.setS64 i v).aenable = t.aenable := rfl
@[simp] theorem Team.setS64_sp (t : Team) (i : Nat) (v : W64) : (t.setS64 i v).sp = t.sp := rfl
@[simp] theorem Team.setS64_rf (t : Team) (i : Nat) (v : W64) : (t.setS64 i v).rf = t.rf := rfl
@[simp] theorem Team.setS64_dbg (t : Team) (i : Nat) (v : W64) : (t.setS64 i v).dbg = t.dbg := rfl
@[simp] theorem Team.setS64_eng (t : Team) (i : Nat) (v : W64) : (t.setS64 i v).eng = t.eng := rfl
@[simp] theorem Team.setS64_dq (t : Team) (i : Nat) (v : W64) : (t.setS64 i v).dq = t.dq := rfl
@[simp] theorem Team.setS64_sched (t : Team) (i : Nat) (v : W64) : (t.setS64 i v).sched = t.sched := rfl

@[simp] theorem Team.setV_id (t : Team) (r l : Nat) (v : W32) : (t.setV r l v).id = t.id := rfl
@[simp] theorem Team.setV_busy (t : Team) (r l : Nat) (v : W32) : (t.setV r l v).busy = t.busy := rfl
@[simp] theorem Team.setV_q (t : Team) (r l : Nat) (v : W32) : (t.setV r l v).q = t.q := rfl
@[simp] theorem Team.setV_live (t : Team) (r l : Nat) (v : W32) : (t.setV r l v).live = t.live := rfl
@[simp] theorem Team.setV_m (t : Team) (r l : Nat) (v : W32) : (t.setV r l v).m = t.m := rfl
@[simp] theorem Team.setV_join (t : Team) (r l : Nat) (v : W32) : (t.setV r l v).join = t.join := rfl
@[simp] theorem Team.setV_pc (t : Team) (r l : Nat) (v : W32) : (t.setV r l v).pc = t.pc := rfl
@[simp] theorem Team.setV_clause (t : Team) (r l : Nat) (v : W32) : (t.setV r l v).clause = t.clause := rfl
@[simp] theorem Team.setV_pfx (t : Team) (r l : Nat) (v : W32) : (t.setV r l v).pfx = t.pfx := rfl
@[simp] theorem Team.setV_group (t : Team) (r l : Nat) (v : W32) : (t.setV r l v).group = t.group := rfl
@[simp] theorem Team.setV_note (t : Team) (r l : Nat) (v : W32) : (t.setV r l v).note = t.note := rfl
@[simp] theorem Team.setV_scc (t : Team) (r l : Nat) (v : W32) : (t.setV r l v).scc = t.scc := rfl
@[simp] theorem Team.setV_cls (t : Team) (r l : Nat) (v : W32) : (t.setV r l v).cls = t.cls := rfl
@[simp] theorem Team.setV_sup (t : Team) (r l : Nat) (v : W32) : (t.setV r l v).sup = t.sup := rfl
@[simp] theorem Team.setV_x (t : Team) (r l : Nat) (v : W32) : (t.setV r l v).x = t.x := rfl
@[simp] theorem Team.setV_asticky (t : Team) (r l : Nat) (v : W32) : (t.setV r l v).asticky = t.asticky := rfl
@[simp] theorem Team.setV_aenable (t : Team) (r l : Nat) (v : W32) : (t.setV r l v).aenable = t.aenable := rfl
@[simp] theorem Team.setV_sp (t : Team) (r l : Nat) (v : W32) : (t.setV r l v).sp = t.sp := rfl
@[simp] theorem Team.setV_rf (t : Team) (r l : Nat) (v : W32) : (t.setV r l v).rf = t.rf := rfl
@[simp] theorem Team.setV_dbg (t : Team) (r l : Nat) (v : W32) : (t.setV r l v).dbg = t.dbg := rfl
@[simp] theorem Team.setV_eng (t : Team) (r l : Nat) (v : W32) : (t.setV r l v).eng = t.eng := rfl
@[simp] theorem Team.setV_dq (t : Team) (r l : Nat) (v : W32) : (t.setV r l v).dq = t.dq := rfl
@[simp] theorem Team.setV_sched (t : Team) (r l : Nat) (v : W32) : (t.setV r l v).sched = t.sched := rfl

@[simp] theorem Team.raise_id (t : Team) (f : Flags) : (t.raise f).id = t.id := rfl
@[simp] theorem Team.raise_r (t : Team) (f : Flags) : (t.raise f).r = t.r := rfl
@[simp] theorem Team.raise_busy (t : Team) (f : Flags) : (t.raise f).busy = t.busy := rfl
@[simp] theorem Team.raise_q (t : Team) (f : Flags) : (t.raise f).q = t.q := rfl
@[simp] theorem Team.raise_live (t : Team) (f : Flags) : (t.raise f).live = t.live := rfl
@[simp] theorem Team.raise_m (t : Team) (f : Flags) : (t.raise f).m = t.m := rfl
@[simp] theorem Team.raise_join (t : Team) (f : Flags) : (t.raise f).join = t.join := rfl
@[simp] theorem Team.raise_pc (t : Team) (f : Flags) : (t.raise f).pc = t.pc := rfl
@[simp] theorem Team.raise_clause (t : Team) (f : Flags) : (t.raise f).clause = t.clause := rfl
@[simp] theorem Team.raise_pfx (t : Team) (f : Flags) : (t.raise f).pfx = t.pfx := rfl
@[simp] theorem Team.raise_group (t : Team) (f : Flags) : (t.raise f).group = t.group := rfl
@[simp] theorem Team.raise_note (t : Team) (f : Flags) : (t.raise f).note = t.note := rfl
@[simp] theorem Team.raise_scc (t : Team) (f : Flags) : (t.raise f).scc = t.scc := rfl
@[simp] theorem Team.raise_cls (t : Team) (f : Flags) : (t.raise f).cls = t.cls := rfl
@[simp] theorem Team.raise_sup (t : Team) (f : Flags) : (t.raise f).sup = t.sup := rfl
@[simp] theorem Team.raise_x (t : Team) (f : Flags) : (t.raise f).x = t.x := rfl
@[simp] theorem Team.raise_asticky (t : Team) (f : Flags) : (t.raise f).asticky = t.asticky ||| f := rfl
@[simp] theorem Team.raise_aenable (t : Team) (f : Flags) : (t.raise f).aenable = t.aenable := rfl
@[simp] theorem Team.raise_sp (t : Team) (f : Flags) : (t.raise f).sp = t.sp := rfl
@[simp] theorem Team.raise_rf (t : Team) (f : Flags) : (t.raise f).rf = t.rf := rfl
@[simp] theorem Team.raise_dbg (t : Team) (f : Flags) : (t.raise f).dbg = t.dbg := rfl
@[simp] theorem Team.raise_eng (t : Team) (f : Flags) : (t.raise f).eng = t.eng := rfl
@[simp] theorem Team.raise_dq (t : Team) (f : Flags) : (t.raise f).dq = t.dq := rfl
@[simp] theorem Team.raise_sched (t : Team) (f : Flags) : (t.raise f).sched = t.sched := rfl

@[simp] theorem Team.setArr_id (t : Team) (k : Nat) (v : Option Nat) : (t.setArr k v).id = t.id := rfl
@[simp] theorem Team.setArr_r (t : Team) (k : Nat) (v : Option Nat) : (t.setArr k v).r = t.r := rfl
@[simp] theorem Team.setArr_busy (t : Team) (k : Nat) (v : Option Nat) : (t.setArr k v).busy = t.busy := rfl
@[simp] theorem Team.setArr_q (t : Team) (k : Nat) (v : Option Nat) : (t.setArr k v).q = t.q := rfl
@[simp] theorem Team.setArr_live (t : Team) (k : Nat) (v : Option Nat) : (t.setArr k v).live = t.live := rfl
@[simp] theorem Team.setArr_m (t : Team) (k : Nat) (v : Option Nat) : (t.setArr k v).m = t.m := rfl
@[simp] theorem Team.setArr_join (t : Team) (k : Nat) (v : Option Nat) : (t.setArr k v).join = t.join := rfl
@[simp] theorem Team.setArr_pc (t : Team) (k : Nat) (v : Option Nat) : (t.setArr k v).pc = t.pc := rfl
@[simp] theorem Team.setArr_clause (t : Team) (k : Nat) (v : Option Nat) : (t.setArr k v).clause = t.clause := rfl
@[simp] theorem Team.setArr_pfx (t : Team) (k : Nat) (v : Option Nat) : (t.setArr k v).pfx = t.pfx := rfl
@[simp] theorem Team.setArr_group (t : Team) (k : Nat) (v : Option Nat) : (t.setArr k v).group = t.group := rfl
@[simp] theorem Team.setArr_note (t : Team) (k : Nat) (v : Option Nat) : (t.setArr k v).note = t.note := rfl
@[simp] theorem Team.setArr_scc (t : Team) (k : Nat) (v : Option Nat) : (t.setArr k v).scc = t.scc := rfl
@[simp] theorem Team.setArr_cls (t : Team) (k : Nat) (v : Option Nat) : (t.setArr k v).cls = t.cls := rfl
@[simp] theorem Team.setArr_sup (t : Team) (k : Nat) (v : Option Nat) : (t.setArr k v).sup = t.sup := rfl
@[simp] theorem Team.setArr_x (t : Team) (k : Nat) (v : Option Nat) : (t.setArr k v).x = t.x := rfl
@[simp] theorem Team.setArr_asticky (t : Team) (k : Nat) (v : Option Nat) : (t.setArr k v).asticky = t.asticky := rfl
@[simp] theorem Team.setArr_aenable (t : Team) (k : Nat) (v : Option Nat) : (t.setArr k v).aenable = t.aenable := rfl
@[simp] theorem Team.setArr_sp (t : Team) (k : Nat) (v : Option Nat) : (t.setArr k v).sp = t.sp := rfl
@[simp] theorem Team.setArr_rf (t : Team) (k : Nat) (v : Option Nat) : (t.setArr k v).rf = t.rf := rfl
@[simp] theorem Team.setArr_dbg (t : Team) (k : Nat) (v : Option Nat) : (t.setArr k v).dbg = t.dbg := rfl
@[simp] theorem Team.setArr_eng (t : Team) (k : Nat) (v : Option Nat) : (t.setArr k v).eng = t.eng := rfl
@[simp] theorem Team.setArr_dq (t : Team) (k : Nat) (v : Option Nat) : (t.setArr k v).dq = t.dq := rfl

@[simp] theorem Team.endQuantum_id (t : Team) : t.endQuantum.id = t.id := rfl
@[simp] theorem Team.endQuantum_r (t : Team) : t.endQuantum.r = t.r := rfl
@[simp] theorem Team.endQuantum_busy (t : Team) : t.endQuantum.busy = t.busy := rfl
@[simp] theorem Team.endQuantum_q (t : Team) : t.endQuantum.q = t.q := rfl
@[simp] theorem Team.endQuantum_live (t : Team) : t.endQuantum.live = t.live := rfl
@[simp] theorem Team.endQuantum_m (t : Team) : t.endQuantum.m = t.m := rfl
@[simp] theorem Team.endQuantum_join (t : Team) : t.endQuantum.join = t.join := rfl
@[simp] theorem Team.endQuantum_pc (t : Team) : t.endQuantum.pc = t.pc := rfl
@[simp] theorem Team.endQuantum_clause (t : Team) : t.endQuantum.clause = t.clause := rfl
@[simp] theorem Team.endQuantum_pfx (t : Team) : t.endQuantum.pfx = t.pfx := rfl
@[simp] theorem Team.endQuantum_group (t : Team) : t.endQuantum.group = t.group := rfl
@[simp] theorem Team.endQuantum_note (t : Team) : t.endQuantum.note = t.note := rfl
@[simp] theorem Team.endQuantum_scc (t : Team) : t.endQuantum.scc = t.scc := rfl
@[simp] theorem Team.endQuantum_cls (t : Team) : t.endQuantum.cls = t.cls := rfl
@[simp] theorem Team.endQuantum_sup (t : Team) : t.endQuantum.sup = t.sup := rfl
@[simp] theorem Team.endQuantum_x (t : Team) : t.endQuantum.x = t.x := rfl
@[simp] theorem Team.endQuantum_asticky (t : Team) : t.endQuantum.asticky = t.asticky := rfl
@[simp] theorem Team.endQuantum_aenable (t : Team) : t.endQuantum.aenable = t.aenable := rfl
@[simp] theorem Team.endQuantum_sp (t : Team) : t.endQuantum.sp = t.sp := rfl
@[simp] theorem Team.endQuantum_rf (t : Team) : t.endQuantum.rf = t.rf := rfl
@[simp] theorem Team.endQuantum_dbg (t : Team) : t.endQuantum.dbg = t.dbg := rfl
@[simp] theorem Team.endQuantum_eng (t : Team) : t.endQuantum.eng = t.eng := rfl
@[simp] theorem Team.endQuantum_sched (t : Team) : t.endQuantum.sched = t.sched := rfl

/-! ### Registers -/

@[simp] theorem Team.setS_s (t : Team) (i : Nat) (v : W32) : (t.setS i v).r.s = smSet 0 t.r.s i v := rfl
@[simp] theorem Team.setS_smarks (t : Team) (i : Nat) (v : W32) : (t.setS i v).r.smarks = smSet none t.r.smarks i none := rfl
@[simp] theorem Team.setS_v (t : Team) (i : Nat) (v : W32) : (t.setS i v).r.v = t.r.v := rfl
@[simp] theorem Team.setS_p (t : Team) (i : Nat) (v : W32) : (t.setS i v).r.p = t.r.p := rfl
@[simp] theorem Team.setV_v (t : Team) (r l : Nat) (v : W32) : (t.setV r l v).r.v = smSet 0 t.r.v (vKey r l) v := rfl
@[simp] theorem Team.setV_vmarks (t : Team) (r l : Nat) (v : W32) :
    (t.setV r l v).r.vmarks = smSet none t.r.vmarks (vKey r l) none := rfl
@[simp] theorem Team.setV_s (t : Team) (r l : Nat) (v : W32) : (t.setV r l v).r.s = t.r.s := rfl
@[simp] theorem Team.setV_p (t : Team) (r l : Nat) (v : W32) : (t.setV r l v).r.p = t.r.p := rfl

end Sys2Proof.Machine
end

