-- ==== Sys2Proof/Laws/Memory.lean ====
section
/-! SUPPORT. Memory at its homes: every memory operation keeps the canonical form, a read after a write, and which operations between a core
and the home change the home. -/

namespace Sys2Proof.Machine

/-! ### The canonical form -/

/-- The memory of the state after reset is in canonical form. -/
theorem reset_memWf : State.reset.memWf := rfl

theorem setHomeByte_memWf (s : State) (pa : Nat) (b : Byte) (h : s.memWf) : (setHomeByte s pa b).memWf := smWf_smSet _ _ _ _ h

theorem setHomeBytes_memWf (bs : List Byte) (s : State) (pa : Nat) (h : s.memWf) : (setHomeBytes s pa bs).memWf := by
  induction bs generalizing s pa with
  | nil => exact h
  | cons b r ih => exact ih _ _ (setHomeByte_memWf s pa b h)

theorem setHome64_memWf (s : State) (pa : Nat) (v : W64) (h : s.memWf) : (setHome64 s pa v).memWf := setHomeBytes_memWf _ s pa h

theorem setHome32_memWf (s : State) (pa : Nat) (v : W32) (h : s.memWf) : (setHome32 s pa v).memWf := setHomeBytes_memWf _ s pa h

theorem backByte_memWf (s : State) (pa : Nat) (b : Byte) (bad : Bool) (h : s.memWf) : (backByte s pa b bad).memWf := smWf_smSet _ _ _ _ h

theorem zeroPage_memWf (s : State) (p : Nat → Bool) (h : s.memWf) : Memory.wf (smDrop p s.mem) := smWf_smDrop _ _ _ h

/-! ### A fold keeps what each of its steps keeps -/

theorem foldl_keeps {α β : Type} (P : α → Prop) (f : α → β → α) (hf : ∀ a b, P a → P (f a b)) (l : List β) (a : α) (h : P a) :
    P (l.foldl f a) := by
  induction l generalizing a with
  | nil => exact h
  | cons b r ih => exact ih _ (hf a b h)

/-- A fold leaves what each of its steps leaves. -/
theorem foldl_same {α β γ : Type} (g : α → γ) (f : α → β → α) (hf : ∀ a b, g (f a b) = g a) (l : List β) (a : α) : g (l.foldl f a) = g a :=
  foldl_keeps (fun x => g x = g a) f (fun x b hx => (hf x b).trans hx) l a rfl

/-- What `eachDirty` does byte by byte, it keeps on the whole. -/
theorem eachDirty_keeps (P : State → Prop) (f : State → Nat → Byte → Bool → State) (hf : ∀ s pa b bad, P s → P (f s pa b bad)) (l : LineCopy) (line : Nat)
    (s : State) (h : P s) : P (eachDirty l line f s) := by
  unfold eachDirty
  refine foldl_keeps P _ (fun a k ha => ?_) _ _ h
  by_cases hk : l.dirty.getLsbD k = true
  · rw [if_pos hk]; exact hf _ _ _ _ ha
  · rw [if_neg hk]; exact ha

/-! ### Operations between a core and the home -/

@[simp] theorem l2Byte_mem (d : Nat) (s : State) (pa : Nat) (b : Byte) (bad : Bool) : (l2Byte d s pa b bad).mem = s.mem := by
  unfold l2Byte; exact State.setDie_mem _ _ _
@[simp] theorem dropL1_mem (s : State) (ck : Nat) : (dropL1 s ck).mem = s.mem := rfl
@[simp] theorem dropNode_mem (s : State) (ck : Nat) : (dropNode s ck).mem = s.mem := rfl
@[simp] theorem poisonLine_mem (s : State) (pa : Nat) : (poisonLine s pa).mem = s.mem := by
  rw [poisonLine]
@[simp] theorem forgetLine_mem (s : State) (d k line : Nat) : (forgetLine s d k line).mem = s.mem := by
  unfold forgetLine; simp only [State.setDie_mem, State.setCore_mem]

@[simp] theorem fillL2_mem (s : State) (d line : Nat) : (fillL2 s d line).mem = s.mem := by
  unfold fillL2
  dsimp only
  split <;> rfl

theorem eachDirty_l2_mem (d : Nat) (l : LineCopy) (line : Nat) (s : State) : (eachDirty l line (l2Byte d) s).mem = s.mem :=
  eachDirty_keeps (fun x => x.mem = s.mem) _ (fun a pa b bad h => (l2Byte_mem d a pa b bad).trans h) l line s rfl

@[simp] theorem drainHead_mem (s : State) (d k : Nat) : (drainHead s d k).mem = s.mem := by
  unfold drainHead
  dsimp only
  split
  · rfl
  · exact eachDirty_l2_mem _ _ _ _

@[simp] theorem drainFirst_mem (d k n : Nat) (s : State) : (drainFirst d k n s).mem = s.mem := by
  induction n generalizing s with
  | zero => rfl
  | succ n ih => rw [drainFirst, ih, drainHead_mem]

@[simp] theorem drainWb_mem (s : State) (d k : Nat) : (drainWb s d k).mem = s.mem := drainFirst_mem _ _ _ _

@[simp] theorem drainLine_mem (s : State) (d k line : Nat) : (drainLine s d k line).mem = s.mem := drainFirst_mem _ _ _ _

theorem drainLines_mem (d line : Nat) (ks : List Nat) (s : State) :
    (ks.foldl (fun s j => drainLine s d j line) s).mem = s.mem := by
  induction ks generalizing s with
  | nil => rfl
  | cons k r ih => rw [List.foldl_cons, ih, drainLine_mem]

@[simp] theorem drainOthers_mem (s : State) (d k line : Nat) : (drainOthers s d k line).mem = s.mem :=
  foldl_same State.mem _ (fun a j => by split <;> simp) _ _

@[simp] theorem drainShared_mem (s : State) (d k : Nat) : (drainShared s d k).mem = s.mem := foldl_same State.mem _ (fun a j => drainWb_mem a d j) _ _

@[simp] theorem storeOwn_mem (s : State) (d k pa : Nat) (b : Byte) : (storeOwn s d k pa b).mem = s.mem := by
  unfold storeOwn
  dsimp only
  split <;> rfl

@[simp] theorem storeByte_mem (s : State) (d k pa : Nat) (b : Byte) : (storeByte s d k pa b).mem = s.mem := by
  rw [storeByte, storeOwn_mem, drainOthers_mem]

@[simp] theorem storeBytes_mem (bs : List Byte) (s : State) (d k pa : Nat) : (storeBytes s d k pa bs).mem = s.mem := by
  induction bs generalizing s pa with
  | nil => rfl
  | cons b r ih => rw [storeBytes, ih, storeByte_mem]

@[simp] theorem fillL1_mem (s : State) (d k line : Nat) : (fillL1 s d k line).mem = s.mem := by
  unfold fillL1
  dsimp only
  split
  · rfl
  · rw [State.setCore_mem, fillL2_mem, drainLines_mem]

@[simp] theorem invalL1_mem (s : State) (d k : Nat) : (invalL1 s d k).mem = s.mem := by
  unfold invalL1
  split
  · exact foldl_keeps (fun x : State => x.mem = s.mem) (fun s j => dropL1 s (coreKey d (k / 8 * 8 + j))) (fun a b h => h) _ _ rfl
  · rfl

theorem writeBackLine_memWf (s : State) (d line : Nat) (h : s.memWf) : (writeBackLine s d line).memWf :=
  eachDirty_keeps State.memWf _ (fun a pa b bad ha => backByte_memWf a pa b bad ha) _ _ _ h

theorem writeBackL2_memWf (s : State) (d : Nat) (h : s.memWf) : (writeBackL2 s d).memWf :=
  foldl_keeps State.memWf _ (fun a _ ha => writeBackLine_memWf a d _ ha) _ _ h

theorem invalL2_memWf (s : State) (d : Nat) (h : s.memWf) : (invalL2 s d).memWf := writeBackL2_memWf s d h

theorem releaseAt_memWf (s : State) (d k scope : Nat) (h : s.memWf) : (releaseAt s d k scope).memWf := by
  have hw : (drainShared s d k).memWf := by rw [State.memWf, drainShared_mem]; exact h
  unfold releaseAt
  dsimp only
  split
  · exact h
  · split
    · exact hw
    · exact writeBackL2_memWf _ _ hw

theorem acquireAt_memWf (s : State) (d k scope : Nat) (h : s.memWf) : (acquireAt s d k scope).memWf := by
  have hi : (invalL1 (dropNode s (coreKey d k)) d k).memWf := by rw [State.memWf, invalL1_mem]; exact h
  unfold acquireAt
  dsimp only
  split
  · exact h
  · split
    · split <;> exact h
    · split
      · exact hi
      · exact invalL2_memWf _ _ hi

theorem settleLine_memWf (s : State) (d k line : Nat) (h : s.memWf) : (settleLine s d k line).memWf :=
  writeBackLine_memWf _ _ _ (by rw [State.memWf, drainLine_mem]; exact h)

theorem storeHome_memWf (s : State) (d k pa : Nat) (bs : List Byte) (h : s.memWf) : (storeHome s d k pa bs).memWf := by
  rw [State.memWf, storeHome, forgetLine_mem]
  exact setHomeBytes_memWf _ _ _ (settleLine_memWf _ _ _ _ h)

/-! ### Reading after writing -/

@[simp] theorem homeByte_setHomeByte (s : State) (pa : Nat) (b : Byte) (q : Nat) :
    homeByte (setHomeByte s pa b) q = if q = pa then b else homeByte s q := smGet_smSet _ _ _ _ _

/-- A read after a write of bytes: the byte at its place, and every other byte as before. -/
theorem homeByte_setHomeBytes (bs : List Byte) (s : State) (pa q : Nat) :
    homeByte (setHomeBytes s pa bs) q = if pa ≤ q ∧ q < pa + bs.length then bs.getD (q - pa) 0 else homeByte s q := by
  induction bs generalizing s pa with
  | nil =>
    have : ¬(pa ≤ q ∧ q < pa) := by omega
    simp [setHomeBytes, this]
  | cons b r ih =>
    rw [setHomeBytes, ih, homeByte_setHomeByte]
    by_cases h1 : q = pa
    · subst h1
      simp
    · by_cases h2 : pa + 1 ≤ q ∧ q < pa + 1 + r.length
      · have h3 : pa ≤ q ∧ q < pa + (b :: r).length := ⟨by omega, by simp; omega⟩
        rw [if_pos h2, if_pos h3]
        obtain ⟨n, hn⟩ : ∃ n, q - pa = n + 1 := ⟨q - pa - 1, by omega⟩
        rw [hn, show q - (pa + 1) = n by omega]
        rfl
      · have h3 : ¬(pa ≤ q ∧ q < pa + (b :: r).length) := by simp; omega
        rw [if_neg h2, if_neg h3, if_neg h1]

/-- A write changes no other field than memory, its poison and the lines that the LLC holds. -/
theorem setHomeBytes_frame (bs : List Byte) (s : State) (pa : Nat) :
    ∃ m p l, setHomeBytes s pa bs = { s with mem := m, poison := p, llc := l } := by
  induction bs generalizing s pa with
  | nil => exact ⟨s.mem, s.poison, s.llc, rfl⟩
  | cons b r ih =>
    obtain ⟨m, p, q, e⟩ := ih (setHomeByte s pa b) (pa + 1)
    exact ⟨m, p, q, by rw [setHomeBytes, e]; rfl⟩

/-! ### What a core reads -/

/-- A byte of a write buffer's line: the last copy that has it. -/
theorem wbByte_cons (e : Nat × LineCopy) (r : List (Nat × LineCopy)) (line j : Nat) :
    wbByte (e :: r) line j =
      (wbByte r line j).or (if e.1 = line && e.2.valid.getLsbD j then some (e.2.byte j) else none) := by
  have key : ∀ (r : List (Nat × LineCopy)) (x : Option Byte),
      r.foldl (fun x e => if e.1 = line && e.2.valid.getLsbD j then some (e.2.byte j) else x) x = (wbByte r line j).or x := by
    intro r
    induction r with
    | nil => intro x; rfl
    | cons e r ih =>
      intro x
      rw [wbByte, List.foldl_cons, List.foldl_cons, ih, ih]
      by_cases h : (decide (e.1 = line) && e.2.valid.getLsbD j) = true
      · rw [if_pos h, if_pos h]; cases wbByte r line j <;> rfl
      · rw [if_neg h, if_neg h]; cases wbByte r line j <;> rfl
  rw [wbByte, List.foldl_cons, key]

@[simp] theorem LineCopy.put_valid (l : LineCopy) (k j : Nat) (b : Byte) (w bad : Bool) (h : j < 128) :
    (l.put k b w bad).valid.getLsbD j = (l.valid.getLsbD j || decide (j = k)) := by
  simp only [LineCopy.put, BitVec.getLsbD_or, BitVec.getLsbD_shiftLeft, BitVec.getLsbD_one, h, decide_true, Bool.true_and]
  by_cases e : j = k
  · subst e; simp
  · by_cases q : j < k
    · simp [e, q]
    · have : ¬j - k = 0 := by omega
      simp [e, this]

/-- A byte put into a line is read back, and the other bytes are as before. -/
@[simp] theorem LineCopy.put_byte (l : LineCopy) (k j : Nat) (b : Byte) (w bad : Bool) (hk : k < 128) (hj : j < 128) :
    (l.put k b w bad).byte j = if j = k then b else l.byte j := by
  apply BitVec.eq_of_getLsbD_eq
  intro i hi
  have h1 : 8 * j + i < 1024 := by omega
  have m : ∀ n, (0xFF#1024).getLsbD n = decide (n < 8) := by
    intro n
    have h255 : (255 : Nat).testBit n = decide (n < 8) := Nat.testBit_two_pow_sub_one 8 n
    rw [BitVec.getLsbD_ofNat, h255]
    by_cases h : n < 8
    · have : n < 1024 := by omega
      simp [h, this]
    · simp [h]
  simp only [LineCopy.byte, LineCopy.put, BitVec.getLsbD_setWidth, hi, decide_true, Bool.true_and, BitVec.getLsbD_ushiftRight, BitVec.getLsbD_or, BitVec.getLsbD_and,
    BitVec.getLsbD_not, BitVec.getLsbD_shiftLeft, h1, m]
  by_cases e : j = k
  · subst e
    have h2 : ¬8 * j + i < 8 * j := by omega
    have h3 : 8 * j + i - 8 * j = i := by omega
    simp [h2, h3, hi]
    intro h
    omega
  · rw [if_neg e, BitVec.getLsbD_setWidth, BitVec.getLsbD_ushiftRight]
    simp only [hi, decide_true, Bool.true_and]
    by_cases q : 8 * j + i < 8 * k
    · simp [q]
    · have h2 : ¬8 * j + i - 8 * k < 8 := by omega
      have h3 : b.getLsbD (8 * j + i - 8 * k) = false := BitVec.getLsbD_of_ge _ _ (by omega)
      simp [q, h2, h3]

/-- A byte that arrives in a write buffer is the one read; every other byte is as before. -/
theorem wbByte_wbPut (wb : List (Nat × LineCopy)) (line j : Nat) (b : Byte) (line' j' : Nat) (hj : j < 128) (hj' : j' < 128) :
    wbByte (wbPut line j b wb) line' j' = if line' = line ∧ j' = j then some b else wbByte wb line' j' := by
  have z : ∀ x : Nat, x < 128 → (0#128).getLsbD x = false := fun x _ => BitVec.getLsbD_zero
  have single : ∀ e : Nat × LineCopy, wbByte [e] line' j' = if e.1 = line' && e.2.valid.getLsbD j' then some (e.2.byte j') else none := fun _ => rfl
  have fresh : wbByte [(line, ({} : LineCopy).put j b true)] line' j' = if line' = line ∧ j' = j then some b else none := by
    rw [single, LineCopy.put_valid _ _ _ _ _ _ hj', LineCopy.put_byte _ _ _ _ _ _ hj hj']
    by_cases e : line = line'
    · subst e; by_cases q : j' = j <;> simp [q]
    · have : ¬line' = line := fun h => e h.symm
      simp [e, this]
  induction wb with
  | nil => exact fresh
  | cons e r ih =>
    cases r with
    | nil =>
      unfold wbPut
      by_cases h : e.1 = line
      · rw [if_pos h, single, single, LineCopy.put_valid _ _ _ _ _ _ hj', LineCopy.put_byte _ _ _ _ _ _ hj hj']
        subst h
        by_cases e1 : e.1 = line'
        · subst e1; by_cases q : j' = j <;> simp [q]
        · have : ¬line' = e.1 := fun h => e1 h.symm
          simp [e1, this]
      · rw [if_neg h, wbByte_cons, fresh]
        by_cases e1 : line' = line ∧ j' = j
        · simp [e1]
        · rw [if_neg e1, if_neg e1, single]; rfl
    | cons e2 r2 =>
      rw [show wbPut line j b (e :: e2 :: r2) = e :: wbPut line j b (e2 :: r2) from rfl, wbByte_cons, ih, wbByte_cons e (e2 :: r2)]
      by_cases h : line' = line ∧ j' = j
      · rw [if_pos h, if_pos h]; rfl
      · rw [if_neg h, if_neg h]

/-! ### A core reads what it stored (R266) -/

@[simp] theorem State.core_setCore (s : State) (a b : Nat) (v : Core) : (s.setCore a v).core b = if b = a then v else s.core b := smGet_smSet _ _ _ _ _
@[simp] theorem State.die_setDie (s : State) (a b : Nat) (v : Die) : (s.setDie a v).die b = if b = a then v else s.die b := smGet_smSet _ _ _ _ _
@[simp] theorem State.crew_setCrew (s : State) (a b : Nat) (v : Crew) : (s.setCrew a v).crew b = if b = a then v else s.crew b := smGet_smSet _ _ _ _ _

/-- What a byte that goes into its core's write buffer changes: that, one line of the L1 that serves it when it is there, a line of the node cache. -/
theorem storeOwn_spec (s : State) (d k pa : Nat) (b : Byte) : let s1 := storeOwn s d k pa b
    (∃ c, s1 = { s with cores := c }) ∧ (s1.core (coreKey d k)).wb = wbPut (pa / 128) (pa % 128) b (s.core (coreKey d k)).wb ∧
    (∀ x, x ≠ coreKey d k → (s1.core x).wb = (s.core x).wb) ∧
    ∀ x, (s1.core x).l1 = if x = l1Home s d k (pa / 128) ∧ (smGet {} (s.core x).l1 (pa / 128)).valid ≠ 0 then
      smSet {} (s.core x).l1 (pa / 128) ((smGet {} (s.core x).l1 (pa / 128)).put (pa % 128) b false) else (s.core x).l1 := by
  have hh : ∀ (v : Core), l1Home (s.setCore (coreKey d k) v) d k (pa / 128) = l1Home s d k (pa / 128) := fun _ => rfl
  have hl : ((s.setCore (coreKey d k) { s.core (coreKey d k) with
      wb := wbPut (pa / 128) (pa % 128) b (s.core (coreKey d k)).wb, node := smSet none (s.core (coreKey d k)).node (pa / 128) none }).core
        (l1Home s d k (pa / 128))).l1 = (s.core (l1Home s d k (pa / 128))).l1 := by
    rw [State.core_setCore]; split <;> simp_all
  simp only [storeOwn, hh, hl]
  by_cases h : (smGet {} (s.core (l1Home s d k (pa / 128))).l1 (pa / 128)).valid = 0
  · rw [if_pos h]
    refine ⟨⟨_, rfl⟩, ?_, ?_, ?_⟩
    · simp [State.core, State.setCore]
    · intro x hx; simp [State.core, State.setCore, hx]
    · intro x
      by_cases e : x = l1Home s d k (pa / 128)
      · subst e; simp only [h, ne_eq, not_true_eq_false, and_false, if_false]; exact hl
      · simp only [e, false_and, if_false]
        rw [State.core_setCore]; split <;> simp_all
  · rw [if_neg h]
    refine ⟨⟨_, rfl⟩, ?_, ?_, ?_⟩
    · simp only [State.core_setCore, if_true]; split
      · rename_i e; rw [← e, if_pos rfl]
      · rfl
    · intro x hx
      simp only [State.core_setCore, hx, if_false]; split
      · rename_i e; rw [← e, if_neg hx]
      · rfl
    · intro x
      simp only [State.core_setCore]
      by_cases e : x = l1Home s d k (pa / 128)
      · subst e; simp only [if_true]; rw [if_pos ⟨trivial, h⟩]
      · simp only [e, if_false, false_and]; split <;> simp_all

/-- A plain load of the core whose write buffer took a byte reads it, and every other byte as before. -/
theorem plainByte_storeOwn (s : State) (d k pa : Nat) (b : Byte) (q : Nat) :
    plainByte (storeOwn s d k pa b) d k q = if q = pa then b else plainByte s d k q := by
  obtain ⟨⟨c, e⟩, hw, -, hl⟩ := storeOwn_spec s d k pa b
  have hq : q = pa ↔ q / 128 = pa / 128 ∧ q % 128 = pa % 128 := by omega
  have hh : l1Home (storeOwn s d k pa b) d k (q / 128) = l1Home s d k (q / 128) := by rw [e]; rfl
  have hm : ∀ x, homeByte (storeOwn s d k pa b) x = homeByte s x := fun x => by rw [e]; rfl
  have hd : (storeOwn s d k pa b).die d = s.die d := by rw [e]; rfl
  simp only [plainByte, hw, hh, hl, hm, hd, wbByte_wbPut _ _ _ _ _ _ (Nat.mod_lt pa (by omega : 0 < 128)) (Nat.mod_lt q (by omega : 0 < 128)), hq]
  by_cases h : q / 128 = pa / 128 ∧ q % 128 = pa % 128
  · simp only [h, and_self, if_true]
  · rw [if_neg h, if_neg h]
    by_cases hv : l1Home s d k (q / 128) = l1Home s d k (pa / 128) ∧ (smGet {} (s.core (l1Home s d k (q / 128))).l1 (pa / 128)).valid ≠ 0
    · rw [if_pos hv, smGet_smSet]
      by_cases hx : q / 128 = pa / 128
      · have hy : q % 128 ≠ pa % 128 := fun w => h ⟨hx, w⟩
        rw [if_pos hx, LineCopy.put_valid _ _ _ _ _ _ (Nat.mod_lt q (by omega : 0 < 128)),
          LineCopy.put_byte _ _ _ _ _ _ (Nat.mod_lt pa (by omega : 0 < 128)) (Nat.mod_lt q (by omega : 0 < 128)), if_neg hy]
        simp [hx, hy]
      · rw [if_neg hx]
    · rw [if_neg hv]

/-! ### What drains of other cores leave (R245, R266) -/

/-- Two states agree below the L1s and in the write buffers of every core but one. -/
def SameLow (ck : Nat) (s t : State) : Prop := (∀ x, x ≠ ck → (s.core x).wb = (t.core x).wb) ∧ s.dies = t.dies

theorem l1Sharers_congr {s t : State} (d k : Nat) (h : s.dies = t.dies) : l1Sharers s d k = l1Sharers t d k := by
  unfold l1Sharers fusedCluster State.die
  rw [h]

theorem l2Byte_low (d : Nat) (s t : State) (pa : Nat) (b : Byte) (bad : Bool) (h : s.dies = t.dies) :
    (l2Byte d s pa b bad).dies = (l2Byte d t pa b bad).dies := by simp only [l2Byte, State.setDie, State.die, h]

theorem eachDirty_low (d : Nat) (l : LineCopy) (line : Nat) (s t : State) (h : s.dies = t.dies) :
    (eachDirty l line (l2Byte d) s).dies = (eachDirty l line (l2Byte d) t).dies ∧ (eachDirty l line (l2Byte d) s).cores = s.cores := by
  unfold eachDirty
  suffices H : ∀ (ks : List Nat) (a b : State), a.dies = b.dies →
      (ks.foldl (fun s k => if l.dirty.getLsbD k then l2Byte d s (line * 128 + k) (l.byte k) (l.bad.getLsbD k) else s) a).dies =
      (ks.foldl (fun s k => if l.dirty.getLsbD k then l2Byte d s (line * 128 + k) (l.byte k) (l.bad.getLsbD k) else s) b).dies ∧
      (ks.foldl (fun s k => if l.dirty.getLsbD k then l2Byte d s (line * 128 + k) (l.byte k) (l.bad.getLsbD k) else s) a).cores = a.cores from
    H _ s t h
  intro ks
  induction ks with
  | nil => exact fun a b h => ⟨h, rfl⟩
  | cons k r ih =>
    intro a b h
    simp only [List.foldl_cons]
    by_cases hk : l.dirty.getLsbD k = true
    · rw [if_pos hk, if_pos hk]
      exact ⟨(ih _ _ (l2Byte_low d a b _ _ _ h)).1, (ih _ _ (l2Byte_low d a b _ _ _ h)).2.trans rfl⟩
    · rw [if_neg hk, if_neg hk]; exact ih _ _ h

/-- Draining the first line of a core's write buffer: that buffer loses the line, every other part of a core stays. -/
theorem drainHead_core (s : State) (d j x : Nat) :
    ((drainHead s d j).core x).l1 = (s.core x).l1 ∧ (x ≠ coreKey d j → ((drainHead s d j).core x).wb = (s.core x).wb) ∧
    ((drainHead s d j).core (coreKey d j)).wb = (s.core (coreKey d j)).wb.tail := by
  unfold drainHead
  dsimp only
  split
  · rename_i h; exact ⟨rfl, fun _ => rfl, by rw [h]; rfl⟩
  · rename_i e r h
    have c : ∀ y, (eachDirty e.2 e.1 (l2Byte d) (s.setCore (coreKey d j) { s.core (coreKey d j) with wb := r })).core y =
        (s.setCore (coreKey d j) { s.core (coreKey d j) with wb := r }).core y := fun y => by
      simp only [State.core, (eachDirty_low d e.2 e.1 _ _ rfl).2]
    simp only [c, State.core_setCore, if_true, h]
    refine ⟨?_, fun hx => by rw [if_neg hx], rfl⟩
    split
    · rename_i hx; rw [hx]
    · rfl

/-- Drains of another core keep two states the same below. -/
theorem drainHead_low (s t : State) (d k j : Nat) (hj : j ≠ k) (h : SameLow (coreKey d k) s t) :
    SameLow (coreKey d k) (drainHead s d j) (drainHead t d j) := by
  have hne : coreKey d j ≠ coreKey d k := fun e => hj (Nat.add_left_cancel e)
  refine ⟨fun x hx => ?_, ?_⟩
  · by_cases e : x = coreKey d j
    · subst e; rw [(drainHead_core s d j 0).2.2, (drainHead_core t d j 0).2.2, h.1 _ hx]
    · rw [(drainHead_core s d j x).2.1 e, (drainHead_core t d j x).2.1 e, h.1 _ hx]
  · unfold drainHead
    dsimp only
    rw [h.1 _ hne]
    split
    · exact h.2
    · refine (eachDirty_low d _ _ _ _ ?_).1
      exact h.2

theorem drainFirst_low (d k j : Nat) (hj : j ≠ k) (n : Nat) (s t : State) (h : SameLow (coreKey d k) s t) :
    SameLow (coreKey d k) (drainFirst d j n s) (drainFirst d j n t) := by
  induction n generalizing s t with
  | zero => exact h
  | succ n ih => simp only [drainFirst]; exact ih _ _ (drainHead_low s t d k j hj h)

theorem drainFirst_own (d k j : Nat) (hj : j ≠ k) (n : Nat) (s : State) :
    ((drainFirst d j n s).core (coreKey d k)).wb = (s.core (coreKey d k)).wb ∧ ∀ x, ((drainFirst d j n s).core x).l1 = (s.core x).l1 := by
  have hne : coreKey d k ≠ coreKey d j := fun e => hj (Nat.add_left_cancel e).symm
  induction n generalizing s with
  | zero => exact ⟨rfl, fun _ => rfl⟩
  | succ n ih =>
    rw [drainFirst]
    exact ⟨(ih _).1.trans ((drainHead_core s d j _).2.1 hne), fun x => ((ih _).2 x).trans (drainHead_core s d j x).1⟩

/-- What drains of the other cores keep: two states that are the same below stay so. -/
theorem drainOthers_low (s t : State) (d k line : Nat) (hf : l1Sharers s d k = l1Sharers t d k) (h : SameLow (coreKey d k) s t) :
    SameLow (coreKey d k) (drainOthers s d k line) (drainOthers t d k line) := by
  unfold drainOthers
  rw [hf]
  generalize l1Sharers t d k = js
  induction js generalizing s t with
  | nil => exact h
  | cons j r ih =>
    simp only [List.foldl_cons]
    by_cases hj : j = k
    · rw [if_pos hj, if_pos hj]; exact ih s t hf h
    · rw [if_neg hj, if_neg hj]
      have hne : coreKey d j ≠ coreKey d k := fun e => hj (Nat.add_left_cancel e)
      have hd : SameLow (coreKey d k) (drainLine s d j line) (drainLine t d j line) := by
        unfold drainLine; rw [h.1 _ hne]; exact drainFirst_low d k j hj _ s t h
      exact ih _ _ (l1Sharers_congr d k hd.2) hd

/-- Drains of the other cores leave the core's own write buffer and every L1. -/
theorem drainOthers_own (s : State) (d k line : Nat) :
    ((drainOthers s d k line).core (coreKey d k)).wb = (s.core (coreKey d k)).wb ∧ ∀ x, ((drainOthers s d k line).core x).l1 = (s.core x).l1 := by
  unfold drainOthers
  generalize l1Sharers s d k = js
  induction js generalizing s with
  | nil => exact ⟨rfl, fun _ => rfl⟩
  | cons j r ih =>
    simp only [List.foldl_cons]
    by_cases hj : j = k
    · rw [if_pos hj]; exact ih s
    · rw [if_neg hj]
      have h := drainFirst_own d k j hj (wbUpTo line (s.core (coreKey d j)).wb) s
      exact ⟨(ih _).1.trans h.1, fun x => ((ih _).2 x).trans (h.2 x)⟩

/-- Which clusters are fused does not change with a drain. -/
theorem l2Byte_fused (d' d : Nat) (s : State) (pa : Nat) (b : Byte) (bad : Bool) : ((l2Byte d s pa b bad).die d').fused = (s.die d').fused := by
  simp only [l2Byte, State.die_setDie]; split
  · rename_i e; rw [e]
  · rfl

theorem drainHead_fused (d' : Nat) (s : State) (d j : Nat) : ((drainHead s d j).die d').fused = (s.die d').fused := by
  unfold drainHead
  dsimp only
  split
  · rfl
  · exact eachDirty_keeps (fun x => (x.die d').fused = (s.die d').fused) _ (fun a pa b bad h => (l2Byte_fused d' d a pa b bad).trans h) _ _ _ rfl

theorem drainOthers_fused (d' : Nat) (s : State) (d k line : Nat) : ((drainOthers s d k line).die d').fused = (s.die d').fused := by
  refine foldl_same (fun x : State => (x.die d').fused) _ (fun a j => ?_) _ _
  split
  · rfl
  · unfold drainLine
    generalize wbUpTo line (a.core (coreKey d j)).wb = n
    induction n generalizing a with
    | zero => rfl
    | succ n ih => rw [drainFirst, ih, drainHead_fused]

theorem othersOut_low (d k : Nat) (l : List Nat) (s t : State) (h : SameLow (coreKey d k) s t) :
    SameLow (coreKey d k) (s.othersOut d k l) (t.othersOut d k l) := by
  induction l generalizing s t with
  | nil => exact h
  | cons a r ih => exact ih _ _ (drainOthers_low s t d k _ (l1Sharers_congr d k h.2) h)

theorem othersOut_own (s : State) (d k : Nat) (l : List Nat) :
    ((s.othersOut d k l).core (coreKey d k)).wb = (s.core (coreKey d k)).wb ∧ ∀ x, ((s.othersOut d k l).core x).l1 = (s.core x).l1 := by
  induction l generalizing s with
  | nil => exact ⟨rfl, fun _ => rfl⟩
  | cons a r ih =>
    have h := drainOthers_own s d k (a / 128)
    exact ⟨(ih _).1.trans h.1, fun x => ((ih _).2 x).trans (h.2 x)⟩

@[simp] theorem othersOut_mem (s : State) (d k : Nat) (l : List Nat) : (s.othersOut d k l).mem = s.mem :=
  foldl_same State.mem _ (fun a _ => drainOthers_mem a d k _) _ _

theorem othersOut_fused (d' : Nat) (s : State) (d k : Nat) (l : List Nat) : ((s.othersOut d k l).die d').fused = (s.die d').fused :=
  foldl_same (fun x : State => (x.die d').fused) _ (fun a _ => drainOthers_fused d' a d k _) _ _

/-- What a core reads is told by its write buffer, the L1s, and what lies below them. -/
theorem plainByte_congr (s t : State) (d k q : Nat) (hw : (s.core (coreKey d k)).wb = (t.core (coreKey d k)).wb)
    (hl : ∀ x, (s.core x).l1 = (t.core x).l1) (hd : s.dies = t.dies) (hm : s.mem = t.mem) : plainByte s d k q = plainByte t d k q := by
  have hh : l1Home s d k (q / 128) = l1Home t d k (q / 128) := by unfold l1Home fusedCluster State.die; rw [hd]
  unfold plainByte homeByte State.die
  dsimp only
  rw [hw, hh, hl, hd, hm]

/-- In a cluster that is not fused nothing of another core drains. -/
theorem drainOthers_unfused (s : State) (d k line : Nat) (h : fusedCluster s d k = false) : drainOthers s d k line = s := by
  simp [drainOthers, l1Sharers, h]

theorem othersOut_unfused (s : State) (d k : Nat) (l : List Nat) (h : fusedCluster s d k = false) : s.othersOut d k l = s := by
  induction l with
  | nil => rfl
  | cons a r ih => rw [State.othersOut, List.foldl_cons, drainOthers_unfused s d k _ h]; exact ih

/-- A plain store of a byte: its core reads it, and every other byte as once the other cores of its cluster have drained the line. -/
theorem plainByte_storeByte (s : State) (d k pa : Nat) (b : Byte) (q : Nat) :
    plainByte (storeByte s d k pa b) d k q = if q = pa then b else plainByte (drainOthers s d k (pa / 128)) d k q := plainByte_storeOwn _ _ _ _ _ _

/-- A byte that a core stored stands, for that core, before what drains of other cores bring. -/
theorem plainByte_othersOut_storeByte (s : State) (d k pa : Nat) (b : Byte) (l : List Nat) (q : Nat) :
    plainByte ((storeByte s d k pa b).othersOut d k l) d k q = if q = pa then b else plainByte (s.othersOut d k (pa :: l)) d k q := by
  let u := drainOthers s d k (pa / 128)
  have hs := storeOwn_spec u d k pa b
  obtain ⟨⟨c, e⟩, hw, ho, hl⟩ := hs
  have low : SameLow (coreKey d k) (storeOwn u d k pa b) u := ⟨ho, by rw [e]⟩
  have L := othersOut_low d k l _ _ low
  have A := othersOut_own (storeOwn u d k pa b) d k l
  have B := othersOut_own u d k l
  have f : ∀ d', ((u.othersOut d k l).die d').fused = (u.die d').fused := fun d' => othersOut_fused d' u d k l
  have e1 : plainByte ((storeByte s d k pa b).othersOut d k l) d k q = plainByte (storeOwn (u.othersOut d k l) d k pa b) d k q := by
    obtain ⟨⟨c2, e2⟩, hw2, -, hl2⟩ := storeOwn_spec (u.othersOut d k l) d k pa b
    have hh : l1Home (u.othersOut d k l) d k (pa / 128) = l1Home u d k (pa / 128) := by unfold l1Home fusedCluster; rw [f]
    refine plainByte_congr _ _ d k q ?_ ?_ ?_ ?_
    · rw [hw2, B.1]; exact A.1.trans hw
    · intro x
      rw [hl2, hh]
      refine (A.2 x).trans ?_
      rw [hl, B.2]
    · rw [e2]; exact L.2
    · rw [storeOwn_mem]
      refine (othersOut_mem _ _ _ _).trans ?_
      rw [othersOut_mem]; exact (storeByte_mem s d k pa b).trans (drainOthers_mem s d k _).symm
  rw [e1, plainByte_storeOwn]
  rfl

/-- Bytes stored are read by the core that stored them, and every other byte as once the other cores of its cluster have drained the lines; further
drains change nothing of that. -/
theorem plainByte_othersOut_storeBytes (bs : List Byte) (s : State) (d k pa q : Nat) (l : List Nat) :
    plainByte ((storeBytes s d k pa bs).othersOut d k l) d k q =
      if pa ≤ q ∧ q < pa + bs.length then bs.getD (q - pa) 0
      else plainByte (s.othersOut d k ((List.range bs.length).map (pa + ·) ++ l)) d k q := by
  induction bs generalizing s pa with
  | nil =>
    have : ¬(pa ≤ q ∧ q < pa) := by omega
    simp [storeBytes, this]
  | cons b r ih =>
    have er : (List.range (b :: r).length).map (pa + ·) ++ l = pa :: ((List.range r.length).map (pa + 1 + ·) ++ l) := by
      rw [List.length_cons, List.range_succ_eq_map, List.map_cons, List.map_map, List.cons_append]
      congr 2
      apply List.map_congr_left
      intro a _
      show pa + (a + 1) = pa + 1 + a
      omega
    rw [storeBytes, ih, plainByte_othersOut_storeByte, er]
    by_cases h1 : q = pa
    · subst h1; simp
    · by_cases h2 : pa + 1 ≤ q ∧ q < pa + 1 + r.length
      · have h3 : pa ≤ q ∧ q < pa + (b :: r).length := ⟨by omega, by simp; omega⟩
        rw [if_pos h2, if_pos h3]
        obtain ⟨n, hn⟩ : ∃ n, q - pa = n + 1 := ⟨q - pa - 1, by omega⟩
        rw [hn, show q - (pa + 1) = n by omega]
        rfl
      · have h3 : ¬(pa ≤ q ∧ q < pa + (b :: r).length) := by simp; omega
        rw [if_neg h2, if_neg h3, if_neg h1]

/-! ### What resets and mappings leave of memory -/

theorem zeroFrame_memWf (s : State) (frame : Nat) (h : s.memWf) : (zeroFrame s frame).memWf := by
  change Memory.wf (smDrop (fun a => decide (a / 65536 = frame)) s.mem)
  exact smWf_smDrop _ _ _ h

theorem cleared_memWf (s : State) (h : s.memWf) : s.cleared.memWf := smWf_sublist _ _ _ List.filter_sublist h

/-- A cycle counter is at least the steps since reset. -/
theorem clock_le_now (s : State) (d : Nat) : (s.die d).clock ≤ s.now d := Nat.le_add_right _ _

end Sys2Proof.Machine
end

