-- ==== Sys2Proof/Laws/Vector.lean ====
section
/-! SUPPORT. What writing lanes does: the registers written, the lanes left alone, everything else. -/

namespace Sys2Proof.Machine

/-- Lane keys of different registers and lanes differ. -/
theorem vKey_inj {r l r' l' : Nat} (h : l < 1024) (h' : l' < 1024) : vKey r l = vKey r' l' ↔ r = r' ∧ l = l' := by
  unfold vKey
  constructor
  · intro e; constructor <;> omega
  · rintro ⟨rfl, rfl⟩; rfl

theorem mem_lanesOf {w : Nat} {m : Mask} {l : Nat} : l ∈ lanesOf w m ↔ l < w ∧ m.getLsbD l = true := by
  simp [lanesOf]

theorem lanesOf_lt {w : Nat} {m : Mask} {l : Nat} (h : l ∈ lanesOf w m) : l < 1024 := by
  have := (mem_lanesOf.mp h).2
  exact BitVec.lt_of_getLsbD this

theorem lanesOf_nodup (w : Nat) (m : Mask) : (lanesOf w m).Nodup := List.nodup_range.filter _

theorem Team.lanes_lt {t : Team} {l : Nat} (h : l ∈ t.lanes) : l < 1024 := lanesOf_lt h

theorem Team.lanes_nodup (t : Team) : t.lanes.Nodup := lanesOf_nodup _ _

/-- A team with its vector registers and markers replaced. -/
def Team.withV (t : Team) (v : SMap W32) (m : SMap (Option Mark)) : Team := { t with r := { t.r with v := v, vmarks := m } }

theorem Team.setV_eq (t : Team) (r l : Nat) (x : W32) :
    t.setV r l x = t.withV (smSet 0 t.r.v (vKey r l) x) (smSet none t.r.vmarks (vKey r l) none) := rfl

@[simp] theorem Team.withV_v (t : Team) (v m) : (t.withV v m).r.v = v := rfl
@[simp] theorem Team.withV_vmarks (t : Team) (v m) : (t.withV v m).r.vmarks = m := rfl
@[simp] theorem Team.withV_withV (t : Team) (v m v' m') : (t.withV v m).withV v' m' = t.withV v' m' := rfl

/-- Writing `n` registers of a lane changes those registers of that lane and nothing else. -/
theorem Team.setVn_spec (n : Nat) (t : Team) (r l x : Nat) (hl : l < 1024) :
    ∃ v m, t.setVn r l x n = t.withV v m ∧
      (∀ k < n, smGet 0 v (vKey (r + k) l) = BitVec.ofNat 32 (x / 2 ^ (32 * k))) ∧
      ∀ r' l', l' < 1024 → (r' < r ∨ r + n ≤ r' ∨ l' ≠ l) →
        smGet 0 v (vKey r' l') = smGet 0 t.r.v (vKey r' l') ∧ smGet none m (vKey r' l') = smGet none t.r.vmarks (vKey r' l') := by
  induction n generalizing t r x with
  | zero => exact ⟨t.r.v, t.r.vmarks, rfl, by simp, fun _ _ _ _ => ⟨rfl, rfl⟩⟩
  | succ n ih =>
    obtain ⟨v, m, he, hv, ho⟩ := ih (t.setV r l (BitVec.ofNat 32 x)) (r + 1) (x / 2 ^ 32)
    refine ⟨v, m, by rw [Team.setVn, he, Team.setV_eq, Team.withV_withV], ?_, ?_⟩
    · intro k hk
      match k with
      | 0 =>
        have := (ho r l hl (by omega)).1
        simp only [Team.setV_v, smGet_smSet, if_true] at this
        simpa using this
      | k + 1 =>
        have := hv k (by omega)
        rw [show r + (k + 1) = r + 1 + k by omega, this, Nat.div_div_eq_div_mul, ← Nat.pow_add]
        congr 3; omega
    · intro r' l' hl' h
      have h1 := ho r' l' hl' (by omega)
      have hne : ¬vKey r' l' = vKey r l := by rw [vKey_inj hl' hl]; omega
      simpa [hne] using h1

/-- A register of lane `l` was written by the fold over lanes when `l` is among them. -/
theorem vFold_spec (d n : Nat) (g : Nat → Nat × Flags) (ls : List Nat) (t : Team) (hn : ls.Nodup) (hl : ∀ l ∈ ls, l < 1024) :
    ∃ v m, ls.foldl (fun a l => (a.setVn d l (g l).1 n).raise (g l).2) t = (t.withV v m).raise (flagsOf ls fun l => (g l).2) ∧
      (∀ l ∈ ls, ∀ k < n, smGet 0 v (vKey (d + k) l) = BitVec.ofNat 32 ((g l).1 / 2 ^ (32 * k))) ∧
      ∀ r l, l < 1024 → (r < d ∨ d + n ≤ r ∨ l ∉ ls) →
        smGet 0 v (vKey r l) = smGet 0 t.r.v (vKey r l) ∧ smGet none m (vKey r l) = smGet none t.r.vmarks (vKey r l) := by
  have z : ∀ f : Flags, (0 : Flags) ||| f = f := fun f => BitVec.zero_or
  have flg : ∀ (ls : List Nat) (f : Flags), ls.foldl (fun f l => f ||| (g l).2) f = f ||| ls.foldl (fun f l => f ||| (g l).2) 0 := by
    intro ls
    induction ls with
    | nil => simp
    | cons a ls ih => intro f; rw [List.foldl_cons, List.foldl_cons, ih, ih (0 ||| (g a).2), z, BitVec.or_assoc]
  induction ls generalizing t with
  | nil => exact ⟨t.r.v, t.r.vmarks, by simp [flagsOf, Team.withV, Team.raise], by simp, fun _ _ _ _ => ⟨rfl, rfl⟩⟩
  | cons a ls ih =>
    obtain ⟨v0, m0, e0, hv0, ho0⟩ := Team.setVn_spec n t d a (g a).1 (hl a (by simp))
    obtain ⟨v, m, e, hv, ho⟩ := ih ((t.setVn d a (g a).1 n).raise (g a).2) (List.nodup_cons.mp hn).2 fun l h => hl l (by simp [h])
    refine ⟨v, m, ?_, ?_, ?_⟩
    · rw [List.foldl_cons, e, e0]
      simp only [Team.withV, Team.raise, flagsOf, List.foldl_cons]
      rw [flg ls (0 ||| (g a).2), z, BitVec.or_assoc]
    · intro l h k hk
      rcases List.mem_cons.mp h with rfl | h
      · have := (ho (d + k) l (hl l (by simp)) (.inr (.inr (List.nodup_cons.mp hn).1))).1
        rw [this, Team.raise_r, e0, Team.withV_v, hv0 k hk]
      · exact hv l h k hk
    · intro r l hl' h
      have h1 := ho r l hl' (by rcases h with h | h | h; exacts [.inl h, .inr (.inl h), .inr (.inr fun q => h (by simp [q]))])
      have h2 := ho0 r l hl' (by rcases h with h | h | h; exacts [.inl h, .inr (.inl h), .inr (.inr fun q => h (by simp [q]))])
      rw [h1.1, h1.2, Team.raise_r, e0, Team.withV_v, Team.withV_vmarks]
      exact h2

/-- A vector word writes its lanes and raises their flags. -/
theorem Team.vWrite_spec (t : Team) (d n : Nat) (g : Nat → Nat × Flags) :
    ∃ v m, t.vWrite d n g = (t.withV v m).raise (flagsOf t.lanes fun l => (g l).2) ∧
      (∀ l ∈ t.lanes, ∀ k < n, smGet 0 v (vKey (d + k) l) = BitVec.ofNat 32 ((g l).1 / 2 ^ (32 * k))) ∧
      ∀ r l, l < 1024 → (r < d ∨ d + n ≤ r ∨ l ∉ t.lanes) →
        smGet 0 v (vKey r l) = smGet 0 t.r.v (vKey r l) ∧ smGet none m (vKey r l) = smGet none t.r.vmarks (vKey r l) :=
  vFold_spec d n g t.lanes t t.lanes_nodup fun _ h => Team.lanes_lt h

/-- A word that may issue runs its own effect. -/
theorem runWord_ready (i : Instr) (s : State) (f : State → Res) (h : s.ready i) : runWord i s f = finishWord i s (f s) := by
  simp [runWord, h]

/-- A word whose meaning is a lane-local result is a lane word. -/
theorem vecWord_lane (i : Instr) (d n : Nat) (g : Team → Nat → Nat × Flags) (he : ∀ s, exec i s = vecWord i s d n g) :
    LaneWord i d n (fun t l => (g t l).1) (fun t l => (g t l).2) := by
  intro s hs
  obtain ⟨v, m, e, hv, ho⟩ := s.team.vWrite_spec d n (g s.team)
  refine ⟨{ s with team := s.team.withV v m }, ?_, ⟨v, m, rfl, ho⟩, hv⟩
  unfold Runs
  rw [he, vecWord, runWord_ready _ _ _ hs]
  simp only [ok, finishWord, State.mapTeam, e]
  rfl

end Sys2Proof.Machine
end

