-- ==== Sys2Proof/Laws/Ops.lean ====
section
/-! SUPPORT. What the shared operations of the words can do: entering the handler, waiting, committing, ending and running a word; what each
leaves of the state, and that each keeps the canonical form of memory. -/

namespace Sys2Proof.Machine

/-! ### Ending crews, entering the handler, waiting -/

/-- A terminated crew: its teams end, its first cause stays, and nothing else changes. -/
theorem killCrew_spec (s : State) (c cause : Nat) : let u := s.killCrew c cause
    (∃ t o, u = { s.setCrew c { s.crew c with cause := some ((s.crew c).cause.getD cause) } with team := t, others := o }) ∧
    (s.team.id.crew = c → u.team.id.alive = false) ∧ (s.team.id.crew ≠ c → u.team = s.team) ∧ u.team.r = s.team.r := by
  refine ⟨⟨_, _, rfl⟩, ?_, ?_, ?_⟩
  · intro h; simp [State.killCrew, h]
  · intro h; simp [State.killCrew, h]
  · by_cases h : s.team.id.crew = c <;> simp [State.killCrew, h]

@[simp] theorem killCrew_mem (s : State) (c cause : Nat) : (s.killCrew c cause).mem = s.mem := rfl
@[simp] theorem killCrew_cores (s : State) (c cause : Nat) : (s.killCrew c cause).cores = s.cores := rfl
@[simp] theorem killCrew_dies (s : State) (c cause : Nat) : (s.killCrew c cause).dies = s.dies := rfl
@[simp] theorem killCrew_ops (s : State) (c cause : Nat) : (s.killCrew c cause).ops = s.ops := rfl

/-- A user-state team with a handler that can be fetched enters it. -/
theorem enterHandler_user (s : State) (pc : W64) (i : TrapInfo) (hu : s.team.sup = false) (hx : pcOk s.team.x.xvec = true) :
    s.enterHandler pc i = { s with team := { s.team with
      x := { s.team.x with
        xpc := pc, xval := i.val, detail := BitVec.ofNat 8 i.detail, code := BitVec.ofNat 8 i.code,
                           xmask := i.mask.getD s.team.m, saved := s.team.m }
      sup := true, m := i.mask.getD s.team.m, pc := s.team.x.xvec, clause := none, pfx := {}, group := none, note := .trapped
      sched := { (if s.team.sched.yields then (s.team.giveUp s.tick).sched else s.team.sched) with wait := none } } } := by
  simp [State.enterHandler, hu, hx]

/-- In supervisor state, or without a handler, the crew is terminated with TRAP.NEST. -/
theorem enterHandler_nest (s : State) (pc : W64) (i : TrapInfo) (h : s.team.sup = true ∨ pcOk s.team.x.xvec = false) :
    s.enterHandler pc i = ({ s with team := { s.team with note := .trapped } }).killCrew s.team.id.crew causeNest := by
  rcases h with h | h <;> simp [State.enterHandler, h]

/-- An exception changes the team and, when it terminates the crew, the crew and its teams, and nothing else. -/
theorem enterHandler_frame (s : State) (pc : W64) (i : TrapInfo) : ∃ t o c, s.enterHandler pc i = { s with team := t, others := o, crews := c } := by
  unfold State.enterHandler
  dsimp only
  split
  · exact ⟨_, _, _, rfl⟩
  · exact ⟨_, s.others, s.crews, rfl⟩

@[simp] theorem enterHandler_mem (s : State) (pc : W64) (i : TrapInfo) : (s.enterHandler pc i).mem = s.mem := by
  obtain ⟨t, o, c, e⟩ := enterHandler_frame s pc i; rw [e]

@[simp] theorem enterHandler_r (s : State) (pc : W64) (i : TrapInfo) : (s.enterHandler pc i).team.r = s.team.r := by
  unfold State.enterHandler
  dsimp only
  split
  · exact (killCrew_spec _ _ _).2.2.2
  · rfl

@[simp] theorem blockOn_mem (s : State) (w : Wait) : (s.blockOn w).mem = s.mem := rfl
@[simp] theorem blockOn_r (s : State) (w : Wait) : (s.blockOn w).team.r = s.team.r := rfl
@[simp] theorem blockOn_ops (s : State) (w : Wait) : (s.blockOn w).ops = s.ops := rfl
@[simp] theorem parkAt_mem (s : State) (pc : W64) : (s.parkAt pc).mem = s.mem := rfl
@[simp] theorem parkAt_r (s : State) (pc : W64) : (s.parkAt pc).team.r = s.team.r := rfl

/-! ### Translations -/

theorem markLeaf_memWf (s : State) (e : W64) (pa : Nat) (wr : Bool) (h : s.memWf) : (markLeaf s e pa wr).memWf := by
  unfold markLeaf
  split
  · exact h
  · exact setHome64_memWf _ _ _ h

theorem walkAccess_memWf (s : State) (ctx va : Nat) (a : Access) (sup : Bool) (h : s.memWf) : (walkAccess s ctx va a sup).1.memWf := by
  unfold walkAccess
  cases walk s ctx va with
  | bad lvl mce => exact h
  | absent => exact h
  | lazyLeaf _ _ => exact h
  | leaf e pa large =>
    dsimp only
    cases permFault e a sup with
    | some d => exact h
    | none => exact markLeaf_memWf _ _ _ _ h

theorem transNow_memWf (s : State) (d ctx : Nat) (va : W64) (a : Access) (sup : Bool) (h : s.memWf) : (transNow s d ctx va a sup).1.memWf := by
  have hw := walkAccess_memWf s ctx va.toNat a sup h
  unfold transNow
  split
  · rename_i e; rw [e] at hw; exact hw
  · rename_i e; rw [e] at hw; exact hw

/-! ### Committing -/

theorem writeUndo_memWf (pc : W64) (s : State) (e : Nat × W32) (h : s.memWf) : (writeUndo pc s e).memWf := by
  unfold writeUndo
  dsimp only
  split
  · exact h
  · split
    · exact h
    · split
      · exact h
      · rename_i e1
        have hw := transNow_memWf s s.team.id.die s.team.id.ctx (s.team.dbg.base + BitVec.ofNat 64 (s.team.dbg.head.toNat % s.team.dbg.len.toNat)) .write false h
        rw [e1] at hw
        rw [State.memWf, State.mapTeam_mem, storeBytes_mem]
        exact hw

theorem undoLog_memWf (s : State) (t0 : Team) (regs : List Nat) (pc : W64) (h : s.memWf) : (undoLog s t0 regs pc).memWf :=
  foldl_keeps State.memWf _ (fun a e ha => writeUndo_memWf pc a e ha) _ _ h

/-- A group commits from a state whose memory is canonical into one whose memory is. -/
theorem commit_memWf (s : State) (t0 : Team) (regs : List Nat) (counted : Nat) (first after : W64) (c : Ctl) (h : s.memWf) :
    (s.commit t0 regs counted first after c).memWf := by
  have hs : (if (t0.dbg.undo && !t0.sup) = true then undoLog s t0 regs first else s).memWf := by
    split
    · exact undoLog_memWf _ _ _ _ h
    · exact h
  unfold State.commit
  generalize (if (t0.dbg.undo && !t0.sup) = true then undoLog s t0 regs first else s) = s1 at hs
  rw [State.memWf] at hs ⊢
  cases c with
  | next =>
    dsimp only
    split
    · simpa using hs
    · split
      · simpa using hs
      · simpa using hs
  | go pc =>
    dsimp only
    split
    · simpa using hs
    · simpa using hs
  | after code val => simpa using hs
  | ended => exact hs

/-- Without an undo log and without STEP a word that goes on leaves everything but the team's place and accounts as it was. -/
theorem commit_plain (s : State) (t0 : Team) (regs : List Nat) (counted : Nat) (first after : W64) (hu : t0.dbg.undo = false)
    (hs : t0.dbg.step = false) (ha : pcSlot after ≠ 0) :
    ∃ q w, s.commit t0 regs counted first after .next = { s with
      progress := s.progress + 1, team := { s.team with pfx := {}, group := none, note := .done, dq := q, sched := w, pc := after } } := by
  simp only [State.commit, hu, hs, ha, Bool.false_and, if_false, decide_false]
  exact ⟨_, _, rfl⟩

/-! ### Ending and running a word -/

theorem endWord_memWf (i : Instr) (s0 s : State) (c : Ctl) (h0 : s0.memWf) (h : s.memWf) : (endWord i s0 s c).memWf := by
  unfold endWord
  split
  · rw [State.memWf, enterHandler_mem]; exact h0
  · split
    · exact h
    · exact commit_memWf _ _ _ _ _ _ _ h

/-- The state that a word's result leaves has property `P`. -/
def Res.all (P : State → Prop) : Res → Prop
  | .done s _ => P s
  | .trap s _ => P s
  | .block s _ => P s
  | .park s _ => P s
  | .stop _ => True

/-- How a word can end: it ran, took an exception, waits, or was put off; it is never refused, and stops only where its own effect does. -/
theorem finishWord_cases {i : Instr} {s0 u : State} {r : Res} (h : finishWord i s0 r = .next u) :
    (∃ s c, r = .done s c ∧ u = endWord i s0 s c) ∨ (∃ s x, r = .trap s x ∧ u = s.enterHandler s0.team.faultPc x) ∨
    (∃ s w, r = .block s w ∧ u = s.blockOn w) ∨
    ∃ s pc, r = .park s pc ∧ u = if pcOk pc then s.parkAt pc else s0.enterHandler s0.team.faultPc { code := codePc, val := pc } := by
  cases r <;> simp only [finishWord, Host.Outcome.next.injEq, reduceCtorEq] at h
  · exact .inl ⟨_, _, rfl, h.symm⟩
  · exact .inr (.inl ⟨_, _, rfl, h.symm⟩)
  · exact .inr (.inr (.inl ⟨_, _, rfl, h.symm⟩))
  · exact .inr (.inr (.inr ⟨_, _, rfl, h.symm⟩))

theorem finishWord_memWf {i : Instr} {s0 u : State} {r : Res} (h0 : s0.memWf) (hr : r.all State.memWf) (h : finishWord i s0 r = .next u) : u.memWf := by
  rcases finishWord_cases h with ⟨s, c, rfl, rfl⟩ | ⟨s, x, rfl, rfl⟩ | ⟨s, w, rfl, rfl⟩ | ⟨s, pc, rfl, rfl⟩
  · exact endWord_memWf _ _ _ _ h0 hr
  · rw [State.memWf, enterHandler_mem]; exact hr
  · exact hr
  · split
    · exact hr
    · rw [State.memWf, enterHandler_mem]; exact h0

/-- What the checks before a word can answer: an exception from the state as it is, or a wait that at most stops the team at a quantum end. -/
theorem issueCheck_cases {i : Instr} {s : State} {r : Res} (h : issueCheck i s = some r) :
    (∃ x, r = .trap s x) ∨ ∃ q w, r = .block (s.mapTeam fun t => { t with dq := q }) w := by
  unfold issueCheck at h
  dsimp only at h
  split at h
  · exact .inl ⟨_, (Option.some.inj h).symm⟩
  · unfold hazard at h
    dsimp only at h
    split at h
    · exact .inr ⟨_, _, (Option.some.inj h).symm⟩
    · split at h
      · exact .inr ⟨s.team.dq, _, (Option.some.inj h).symm⟩
      · split at h
        · split at h
          · exact .inr ⟨_, _, (Option.some.inj h).symm⟩
          · exact .inr ⟨s.team.dq, _, (Option.some.inj h).symm⟩
        · split at h
          · exact .inl ⟨_, (Option.some.inj h).symm⟩
          · split at h
            · split at h
              · exact .inr ⟨_, _, (Option.some.inj h).symm⟩
              · exact .inr ⟨s.team.dq, _, (Option.some.inj h).symm⟩
            · exact absurd h (by simp)

/-- A word that answers a next state: its checks stopped it, or it ran its own effect and ended. -/
theorem runWord_cases {i : Instr} {s u : State} {f : State → Res} (h : runWord i s f = .next u) :
    (∃ r, issueCheck i s = some r ∧ finishWord i s r = .next u) ∨ (s.ready i ∧ finishWord i s (f s) = .next u) := by
  cases hc : issueCheck i s with
  | none => exact .inr ⟨hc, by simpa [runWord, hc] using h⟩
  | some r => exact .inl ⟨r, rfl, by simpa [runWord, hc] using h⟩

/-- A word keeps the canonical form of memory when its own effect does. -/
theorem runWord_memWf {i : Instr} {s u : State} {f : State → Res} (hs : s.memWf) (hf : (f s).all State.memWf) (h : runWord i s f = .next u) : u.memWf := by
  rcases runWord_cases h with ⟨r, hc, h⟩ | ⟨-, h⟩
  · refine finishWord_memWf hs ?_ h
    rcases issueCheck_cases hc with ⟨x, rfl⟩ | ⟨q, w, rfl⟩ <;> exact hs
  · exact finishWord_memWf hs hf h

/-- A word that runs and goes on at the next slot. -/
theorem runs_of_ok {i : Instr} {s s1 : State} {f : State → Res} (he : exec i s = runWord i s f) (hr : s.ready i) (hf : f s = ok s1) : Runs i s s1 .next := by
  rw [Runs, he, runWord_ready _ _ _ hr, hf]; rfl

/-- A word that takes its exception. -/
theorem traps_of_trap {i : Instr} {s s1 : State} {f : State → Res} {x : TrapInfo} (he : exec i s = runWord i s f) (hr : s.ready i) (hf : f s = .trap s1 x) :
    Traps i s s1 x := by
  rw [Traps, he, runWord_ready _ _ _ hr, hf]; rfl

/-- A word that waits. -/
theorem waits_of_block {i : Instr} {s s1 : State} {f : State → Res} {w : Wait} (he : exec i s = runWord i s f) (hr : s.ready i) (hf : f s = .block s1 w) :
    Waits i s s1 w := by
  rw [Waits, he, runWord_ready _ _ _ hr, hf]; rfl

/-- A scalar result of the team that issues changes that register alone. -/
theorem onlyScalars_setS (s : State) (d : Nat) (v : W32) : OnlyScalars [d] s (s.mapTeam fun t => t.setS d v) ∧ ((s.mapTeam fun t => t.setS d v).team).sNow d = v := by
  refine ⟨⟨_, _, rfl, ?_⟩, ?_⟩
  · intro k hk
    have : k ≠ d := by simpa using hk
    simp [this]
  · simp [Team.sNow, Team.setS]

end Sys2Proof.Machine
end

