-- ==== Sys2Proof/Laws/LoadStore.lean ====
section
/-! SUPPORT. What starting and completing an operation do, what a list of stores leaves in memory as its core reads it, and the teams by key. -/

namespace Sys2Proof.Machine

/-! ### Teams by key -/

/-- The team with a key after a team was replaced, when what stands there keeps its key. -/
theorem State.teamAt_setTeamAt (s : State) (k j : Nat) (t : Team) (h : k = s.team.key → t.key = k) :
    (s.setTeamAt k t).teamAt j = if j = k then t else s.teamAt j := by
  unfold State.setTeamAt
  by_cases hk : k = s.team.key
  · have ht := h hk
    rw [if_pos hk]
    by_cases hj : j = k
    · simp [State.teamAt, hj, ht]
    · have : ¬j = t.key := fun e => hj (e.trans ht)
      simp [State.teamAt, hj, this, ← hk]
  · rw [if_neg hk]
    by_cases hj : j = k
    · subst hj; simp [State.teamAt, hk]
    · have hs : ¬s.team.key = k := fun e => hk e.symm
      by_cases hj2 : j = s.team.key <;> simp [State.teamAt, hj, hj2, hs]

theorem State.teamAt_updTeam (s : State) (k j : Nat) (f : Team → Team) (h : ∀ t, (f t).key = t.key) :
    (s.updTeam k f).teamAt j = if j = k then f (s.teamAt k) else s.teamAt j :=
  s.teamAt_setTeamAt k j _ fun hk => by rw [h, State.teamAt, if_pos hk, hk]

/-- Replacing a team changes the team that issues or one of the others, and nothing else. -/
theorem State.setTeamAt_frame (s : State) (k : Nat) (t : Team) : ∃ a o, s.setTeamAt k t = { s with team := a, others := o } := by
  unfold State.setTeamAt
  split
  · exact ⟨t, s.others, rfl⟩
  · exact ⟨s.team, _, rfl⟩

theorem State.updTeam_frame (s : State) (k : Nat) (f : Team → Team) : ∃ a o, s.updTeam k f = { s with team := a, others := o } := s.setTeamAt_frame k _

@[simp] theorem State.updTeam_mem (s : State) (k : Nat) (f : Team → Team) : (s.updTeam k f).mem = s.mem := by
  obtain ⟨a, o, e⟩ := s.updTeam_frame k f; rw [e]
@[simp] theorem State.updTeam_cores (s : State) (k : Nat) (f : Team → Team) : (s.updTeam k f).cores = s.cores := by
  obtain ⟨a, o, e⟩ := s.updTeam_frame k f; rw [e]
@[simp] theorem State.updTeam_dies (s : State) (k : Nat) (f : Team → Team) : (s.updTeam k f).dies = s.dies := by
  obtain ⟨a, o, e⟩ := s.updTeam_frame k f; rw [e]
@[simp] theorem State.updTeam_crews (s : State) (k : Nat) (f : Team → Team) : (s.updTeam k f).crews = s.crews := by
  obtain ⟨a, o, e⟩ := s.updTeam_frame k f; rw [e]
@[simp] theorem State.updTeam_ops (s : State) (k : Nat) (f : Team → Team) : (s.updTeam k f).ops = s.ops := by
  obtain ⟨a, o, e⟩ := s.updTeam_frame k f; rw [e]

/-! ### Operations -/

/-- Starting an operation: it joins the operations with the next number, its flag becomes busy, and nothing else changes. -/
theorem startOp_eq (s : State) (k : OpKind) : startOp s k = s.started k s.team.r.vpend s.team.r.spend := by
  unfold startOp State.started State.newOp Team.busyNow State.mapTeam
  dsimp only
  cases s.team.llFlag <;> rfl

@[simp] theorem startOp_mem (s : State) (k : OpKind) : (startOp s k).mem = s.mem := rfl

/-- An operation that starts with vector registers pending. -/
theorem startOp_vPend (s : State) (k : OpKind) (d n id : Nat) (ws : List Nat) :
    (startOp s k).mapTeam (fun t => t.vPend d n ws id) = s.started k (s.team.vPend d n ws id).r.vpend s.team.r.spend := by
  rw [startOp_eq]; rfl

/-- An operation that starts with scalar registers pending. -/
theorem startOp_sPend (s : State) (k : OpKind) (d n id : Nat) :
    (startOp s k).mapTeam (fun t => t.sPend d n id) = s.started k s.team.r.vpend (s.team.sPend d n id).r.spend := by
  rw [startOp_eq]; rfl

/-- Keys written one after another with one value. -/
theorem smGet_foldl_smSet (l : List Nat) (m : SMap Nat) (id j : Nat) :
    smGet 0 (l.foldl (fun m k => smSet 0 m k id) m) j = if j ∈ l then id else smGet 0 m j := by
  induction l generalizing m with
  | nil => simp
  | cons a r ih =>
    rw [List.foldl_cons, ih, smGet_smSet]
    by_cases h1 : j ∈ r <;> by_cases h2 : j = a <;> simp [h1, h2]

/-- Marking registers pending: those keys hold the operation, every other key what it held. -/
theorem Team.vPend_get (t : Team) (d n : Nat) (ws : List Nat) (id j : Nat) : smGet 0 (t.vPend d n ws id).r.vpend j =
    if j ∈ (List.range n).flatMap (fun r => ws.map fun k => (d + r) * 32 + k) then id else smGet 0 t.r.vpend j :=
  smGet_foldl_smSet _ _ _ _

theorem Team.sPend_get (t : Team) (d n id j : Nat) : smGet 0 (t.sPend d n id).r.spend j = if d ≤ j ∧ j < d + n then id else smGet 0 t.r.spend j := by
  have e : (t.sPend d n id).r.spend = ((List.range n).map (d + ·)).foldl (fun m k => smSet 0 m k id) t.r.spend := by
    rw [List.foldl_map]; rfl
  have m : j ∈ (List.range n).map (d + ·) ↔ d ≤ j ∧ j < d + n := by
    simp only [List.mem_map, List.mem_range]
    constructor
    · rintro ⟨r, hr, rfl⟩; omega
    · rintro ⟨h1, h2⟩; exact ⟨j - d, by omega, by omega⟩
  rw [e, smGet_foldl_smSet]
  by_cases h : d ≤ j ∧ j < d + n
  · rw [if_pos (m.mpr h), if_pos h]
  · rw [if_neg (fun x => h (m.mp x)), if_neg h]

/-- Completing an operation: it leaves the operations, its team's flag may clear, and nothing else changes. -/
theorem finishOp_spec (s : State) (o : Op) : ∃ a t, finishOp s o = { s with
    ops := s.ops.filter fun x => x.id ≠ o.id, progress := s.progress + 1, team := a, others := t } := by
  unfold finishOp
  dsimp only
  cases o.flag with
  | none => exact ⟨s.team, s.others, rfl⟩
  | some f =>
    dsimp only
    split
    · exact ⟨s.team, s.others, rfl⟩
    · obtain ⟨a, t, e⟩ := State.updTeam_frame ({ s with ops := s.ops.filter fun x => x.id ≠ o.id, progress := s.progress + 1 } : State) o.team
        fun t => { t with busy := t.busy &&& ~~~(1#12 <<< f) }
      exact ⟨a, t, e⟩

@[simp] theorem finishOp_mem (s : State) (o : Op) : (finishOp s o).mem = s.mem := by
  obtain ⟨a, t, e⟩ := finishOp_spec s o; rw [e]

/-- A completed operation is no longer among them. -/
theorem finishOp_ops (s : State) (o x : Op) : x ∈ (finishOp s o).ops ↔ x ∈ s.ops ∧ x.id ≠ o.id := by
  obtain ⟨a, t, e⟩ := finishOp_spec s o
  rw [e]; simp

/-! ### Lists of stores -/

theorem storedByte_nil (pa : Nat) : storedByte [] pa = none := rfl

theorem storedByte_append (l : List (Nat × List Byte)) (e : Nat × List Byte) (pa : Nat) :
    storedByte (l ++ [e]) pa = if e.1 ≤ pa ∧ pa < e.1 + e.2.length then some (e.2.getD (pa - e.1) 0) else storedByte l pa := by
  simp [storedByte, List.foldl_append]

theorem storedByte_from (l : List (Nat × List Byte)) (x : Option Byte) (pa : Nat) :
    l.foldl (fun x e => if e.1 ≤ pa ∧ pa < e.1 + e.2.length then some (e.2.getD (pa - e.1) 0) else x) x = (storedByte l pa).or x := by
  induction l generalizing x with
  | nil => rfl
  | cons e r ih =>
    rw [storedByte, List.foldl_cons, List.foldl_cons, ih, ih]
    by_cases h : e.1 ≤ pa ∧ pa < e.1 + e.2.length
    · rw [if_pos h, if_pos h]; cases storedByte r pa <;> rfl
    · rw [if_neg h, if_neg h]; cases storedByte r pa <;> rfl

theorem storedByte_cons (e : Nat × List Byte) (r : List (Nat × List Byte)) (pa : Nat) :
    storedByte (e :: r) pa = (storedByte r pa).or (if e.1 ≤ pa ∧ pa < e.1 + e.2.length then some (e.2.getD (pa - e.1) 0) else none) := by
  rw [storedByte, List.foldl_cons, storedByte_from]

/-- What a list of plain stores leaves, as its core reads it: the last that covers a byte, or the byte as once the other cores of its cluster have
drained the lines of the stores. -/
theorem plainByte_stores (l : List (Nat × List Byte)) (s : State) (d k pa : Nat) :
    plainByte (l.foldl (fun s e => storeBytes s d k e.1 e.2) s) d k pa =
      (storedByte l pa).getD (plainByte (s.othersOut d k (storePas l)) d k pa) := by
  suffices H : ∀ (more : List Nat) (s : State),
      plainByte ((l.foldl (fun s e => storeBytes s d k e.1 e.2) s).othersOut d k more) d k pa =
        (storedByte l pa).getD (plainByte (s.othersOut d k (storePas l ++ more)) d k pa) by
    have := H [] s
    rwa [List.append_nil] at this
  induction l with
  | nil => exact fun more s => rfl
  | cons e r ih =>
    intro more s
    rw [List.foldl_cons, ih, plainByte_othersOut_storeBytes, storedByte_cons]
    have ea : storePas (e :: r) ++ more = (List.range e.2.length).map (e.1 + ·) ++ (storePas r ++ more) := by
      rw [storePas, List.flatMap_cons, List.append_assoc]; rfl
    rw [ea]
    by_cases h : e.1 ≤ pa ∧ pa < e.1 + e.2.length
    · rw [if_pos h, if_pos h]; cases storedByte r pa <;> rfl
    · rw [if_neg h, if_neg h]; cases storedByte r pa <;> rfl

/-- The same in a cluster that is not fused: every other byte as before. -/
theorem plainByte_stores_unfused (l : List (Nat × List Byte)) (s : State) (d k pa : Nat) (h : fusedCluster s d k = false) :
    plainByte (l.foldl (fun s e => storeBytes s d k e.1 e.2) s) d k pa = (storedByte l pa).getD (plainByte s d k pa) := by
  rw [plainByte_stores, othersOut_unfused s d k _ h]

/-- The same at the home. -/
theorem homeByte_stores (l : List (Nat × List Byte)) (s : State) (pa : Nat) :
    homeByte (l.foldl (fun s e => setHomeBytes s e.1 e.2) s) pa = (storedByte l pa).getD (homeByte s pa) := by
  induction l generalizing s with
  | nil => rfl
  | cons e r ih =>
    rw [List.foldl_cons, ih, homeByte_setHomeBytes, storedByte_cons]
    by_cases h : e.1 ≤ pa ∧ pa < e.1 + e.2.length
    · rw [if_pos h, if_pos h]; cases storedByte r pa <;> rfl
    · rw [if_neg h, if_neg h]; cases storedByte r pa <;> rfl

end Sys2Proof.Machine
end

