-- ==== Sys2Proof/Laws/PerInstr.lean ====
section
/-! SUPPORT. Statements made for each instruction: the word that its encoding gives decodes to it again. -/

namespace Sys2Proof.Laws.RoundTrip

set_option Elab.async false
set_option linter.unusedSimpArgs false

/-- An instruction's encoding, when it has one, decodes to the instruction with every operand (R59, R67, R68). -/
def Statement (i : Instr) : Prop := ∀ op b, encodeParts i = some (op, b) → decodeFields op b = .ok i

theorem of_parts (i : Instr) (op : BitVec 7) (b : BitVec 24) (h : encodeParts i = some (op, b)) (hd : decodeParts op b = some i) :
    Statement i := by
  intro op' b' h'
  rw [h] at h'
  obtain ⟨rfl, rfl⟩ := Prod.mk.inj (Option.some.inj h')
  simp [decodeFields, hd, h]

theorem of_none (i : Instr) (h : encodeParts i = none) : Statement i := fun _ _ h' => by simp [h] at h'

theorem imx (i : BitVec 24) : Statement (.imx i) :=
  of_parts _ _ _ rfl (by show decodeOp01 _ = _; simp (disch := omega) [decodeOp01, ext_or, ext_field, ext_field_off])

theorem grd (n : BitVec 1) (p : BitVec 3) : Statement (.grd n p) :=
  of_parts _ _ _ rfl (by show decodeOp02 _ = _; simp (disch := omega) [decodeOp02, ext_or, ext_field, ext_field_off])

theorem bra (o : BitVec 20) : Statement (.bra o) :=
  of_parts _ _ _ rfl (by show decodeOp03 _ = _; simp (disch := omega) [decodeOp03, ext_or, ext_field, ext_field_off])

theorem brs (k : BitVec 4) (o : BitVec 20) : Statement (.brs k o) :=
  of_parts _ _ _ rfl (by show decodeOp04 _ = _; simp (disch := omega) [decodeOp04, ext_or, ext_field, ext_field_off])

theorem brv (n : BitVec 1) (p : BitVec 3) (o : BitVec 20) : Statement (.brv n p o) :=
  of_parts _ _ _ rfl (by show decodeOp05 _ = _; simp (disch := omega) [decodeOp05, ext_or, ext_field, ext_field_off])

theorem call (o : BitVec 20) : Statement (.call o) :=
  of_parts _ _ _ rfl (by show decodeOp06 _ = _; simp (disch := omega) [decodeOp06, ext_or, ext_field, ext_field_off])

theorem ret (a : BitVec 6) : Statement (.ret a) :=
  of_parts _ _ _ rfl (by show decodeOp07 _ = _; simp (disch := omega) [decodeOp07, ext_or, ext_field, ext_field_off])

theorem mark (o : BitVec 20) : Statement (.mark o) :=
  of_parts _ _ _ rfl (by show decodeOp08 _ = _; simp (disch := omega) [decodeOp08, ext_or, ext_field, ext_field_off])

theorem sadd (t : BitVec 3) (d : BitVec 6) (a : BitVec 6) (b : BitVec 6) : Statement (.sadd t d a b) :=
  of_parts _ _ _ rfl (by show decodeOp0A _ = _; simp (disch := omega) [decodeOp0A, ext_or, ext_field, ext_field_off])

theorem ssub (t : BitVec 3) (d : BitVec 6) (a : BitVec 6) (b : BitVec 6) : Statement (.ssub t d a b) :=
  of_parts _ _ _ rfl (by show decodeOp0A _ = _; simp (disch := omega) [decodeOp0A, ext_or, ext_field, ext_field_off])

theorem smul (t : BitVec 3) (d : BitVec 6) (a : BitVec 6) (b : BitVec 6) : Statement (.smul t d a b) :=
  of_parts _ _ _ rfl (by show decodeOp0A _ = _; simp (disch := omega) [decodeOp0A, ext_or, ext_field, ext_field_off])

theorem smulh (t : BitVec 3) (d : BitVec 6) (a : BitVec 6) (b : BitVec 6) : Statement (.smulh t d a b) :=
  of_parts _ _ _ rfl (by show decodeOp0A _ = _; simp (disch := omega) [decodeOp0A, ext_or, ext_field, ext_field_off])

theorem sdiv (t : BitVec 3) (d : BitVec 6) (a : BitVec 6) (b : BitVec 6) : Statement (.sdiv t d a b) :=
  of_parts _ _ _ rfl (by show decodeOp0A _ = _; simp (disch := omega) [decodeOp0A, ext_or, ext_field, ext_field_off])

theorem smin (t : BitVec 3) (d : BitVec 6) (a : BitVec 6) (b : BitVec 6) : Statement (.smin t d a b) :=
  of_parts _ _ _ rfl (by show decodeOp0A _ = _; simp (disch := omega) [decodeOp0A, ext_or, ext_field, ext_field_off])

theorem smax (t : BitVec 3) (d : BitVec 6) (a : BitVec 6) (b : BitVec 6) : Statement (.smax t d a b) :=
  of_parts _ _ _ rfl (by show decodeOp0A _ = _; simp (disch := omega) [decodeOp0A, ext_or, ext_field, ext_field_off])

theorem sand (d : BitVec 6) (a : BitVec 6) (b : BitVec 6) : Statement (.sand d a b) :=
  of_parts _ _ _ rfl (by show decodeOp0B _ = _; simp (disch := omega) [decodeOp0B, ext_or, ext_field, ext_field_off])

theorem sor (d : BitVec 6) (a : BitVec 6) (b : BitVec 6) : Statement (.sor d a b) :=
  of_parts _ _ _ rfl (by show decodeOp0B _ = _; simp (disch := omega) [decodeOp0B, ext_or, ext_field, ext_field_off])

theorem sxor (d : BitVec 6) (a : BitVec 6) (b : BitVec 6) : Statement (.sxor d a b) :=
  of_parts _ _ _ rfl (by show decodeOp0B _ = _; simp (disch := omega) [decodeOp0B, ext_or, ext_field, ext_field_off])

theorem sshl (d : BitVec 6) (a : BitVec 6) (b : BitVec 6) : Statement (.sshl d a b) :=
  of_parts _ _ _ rfl (by show decodeOp0B _ = _; simp (disch := omega) [decodeOp0B, ext_or, ext_field, ext_field_off])

theorem sshr (d : BitVec 6) (a : BitVec 6) (b : BitVec 6) : Statement (.sshr d a b) :=
  of_parts _ _ _ rfl (by show decodeOp0B _ = _; simp (disch := omega) [decodeOp0B, ext_or, ext_field, ext_field_off])

theorem ssra (d : BitVec 6) (a : BitVec 6) (b : BitVec 6) : Statement (.ssra d a b) :=
  of_parts _ _ _ rfl (by show decodeOp0B _ = _; simp (disch := omega) [decodeOp0B, ext_or, ext_field, ext_field_off])

theorem ssel (d : BitVec 6) (a : BitVec 6) (b : BitVec 6) : Statement (.ssel d a b) :=
  of_parts _ _ _ rfl (by show decodeOp0B _ = _; simp (disch := omega) [decodeOp0B, ext_or, ext_field, ext_field_off])

theorem smov (d : BitVec 6) (a : BitVec 6) : Statement (.smov d a) :=
  of_parts _ _ _ rfl (by show decodeOp0B _ = _; simp (disch := omega) [decodeOp0B, ext_or, ext_field, ext_field_off])

theorem scmp (t : BitVec 3) (d : BitVec 6) (a : BitVec 6) (b : BitVec 6) (k : BitVec 3) : Statement (.scmp t d a b k) :=
  of_parts _ _ _ rfl (by show decodeOp0C _ = _; simp (disch := omega) [decodeOp0C, ext_or, ext_field, ext_field_off])

theorem sadd64 (d : BitVec 6) (a : BitVec 6) (b : BitVec 6) : Statement (.sadd64 d a b) :=
  of_parts _ _ _ rfl (by show decodeOp0D _ = _; simp (disch := omega) [decodeOp0D, ext_or, ext_field, ext_field_off])

theorem sli (d : BitVec 6) (i : BitVec 12) : Statement (.sli d i) :=
  of_parts _ _ _ rfl (by show decodeOp0E _ = _; simp (disch := omega) [decodeOp0E, ext_or, ext_field, ext_field_off])

theorem saddImmediate (d : BitVec 6) (a : BitVec 6) (i : BitVec 12) : Statement (.saddImmediate d a i) :=
  of_parts _ _ _ rfl (by show decodeOp0F _ = _; simp (disch := omega) [decodeOp0F, ext_or, ext_field, ext_field_off])

theorem sshlImmediate (d : BitVec 6) (a : BitVec 6) (n : BitVec 5) : Statement (.sshlImmediate d a n) :=
  of_parts _ _ _ rfl (by show decodeOp10 _ = _; simp (disch := omega) [decodeOp10, ext_or, ext_field, ext_field_off])

theorem sshrImmediate (d : BitVec 6) (a : BitVec 6) (n : BitVec 5) : Statement (.sshrImmediate d a n) :=
  of_parts _ _ _ rfl (by show decodeOp10 _ = _; simp (disch := omega) [decodeOp10, ext_or, ext_field, ext_field_off])

theorem ssraImmediate (d : BitVec 6) (a : BitVec 6) (n : BitVec 5) : Statement (.ssraImmediate d a n) :=
  of_parts _ _ _ rfl (by show decodeOp10 _ = _; simp (disch := omega) [decodeOp10, ext_or, ext_field, ext_field_off])

theorem slane (d : BitVec 6) (b : BitVec 6) (a : BitVec 7) : Statement (.slane d b a) :=
  of_parts _ _ _ rfl (by show decodeOp11 _ = _; simp (disch := omega) [decodeOp11, ext_or, ext_field, ext_field_off])

theorem sbcast (a : BitVec 6) (d : BitVec 7) : Statement (.sbcast a d) :=
  of_parts _ _ _ rfl (by show decodeOp11 _ = _; simp (disch := omega) [decodeOp11, ext_or, ext_field, ext_field_off])

theorem voteAny (d : BitVec 6) (p : BitVec 3) : Statement (.voteAny d p) :=
  of_parts _ _ _ rfl (by show decodeOp11 _ = _; simp (disch := omega) [decodeOp11, ext_or, ext_field, ext_field_off])

theorem voteAll (d : BitVec 6) (p : BitVec 3) : Statement (.voteAll d p) :=
  of_parts _ _ _ rfl (by show decodeOp11 _ = _; simp (disch := omega) [decodeOp11, ext_or, ext_field, ext_field_off])

theorem voteBallot (d : BitVec 6) (a : BitVec 6) (p : BitVec 3) : Statement (.voteBallot d a p) :=
  of_parts _ _ _ rfl (by show decodeOp11 _ = _; simp (disch := omega) [decodeOp11, ext_or, ext_field, ext_field_off])

theorem popm (d : BitVec 6) (p : BitVec 3) : Statement (.popm d p) :=
  of_parts _ _ _ rfl (by show decodeOp11 _ = _; simp (disch := omega) [decodeOp11, ext_or, ext_field, ext_field_off])

theorem bar (b : BitVec 4) : Statement (.bar b) :=
  of_parts _ _ _ rfl (by show decodeOp12 _ = _; simp (disch := omega) [decodeOp12, ext_or, ext_field, ext_field_off])

theorem arrive (d : BitVec 6) (b : BitVec 4) : Statement (.arrive d b) :=
  of_parts _ _ _ rfl (by show decodeOp12 _ = _; simp (disch := omega) [decodeOp12, ext_or, ext_field, ext_field_off])

theorem await (a : BitVec 6) (b : BitVec 4) : Statement (.await a b) :=
  of_parts _ _ _ rfl (by show decodeOp12 _ = _; simp (disch := omega) [decodeOp12, ext_or, ext_field, ext_field_off])

theorem prio (k : BitVec 2) : Statement (.prio k) :=
  of_parts _ _ _ rfl (by show decodeOp13 _ = _; simp (disch := omega) [decodeOp13, ext_or, ext_field, ext_field_off])

theorem sysr (d : BitVec 6) (n : BitVec 10) : Statement (.sysr d n) :=
  of_parts _ _ _ rfl (by show decodeOp14 _ = _; simp (disch := omega) [decodeOp14, ext_or, ext_field, ext_field_off])

theorem sysw (a : BitVec 6) (n : BitVec 10) : Statement (.sysw a n) :=
  of_parts _ _ _ rfl (by show decodeOp14 _ = _; simp (disch := omega) [decodeOp14, ext_or, ext_field, ext_field_off])

theorem trap (k : BitVec 8) : Statement (.trap k) :=
  of_parts _ _ _ rfl (by show decodeOp15 _ = _; simp (disch := omega) [decodeOp15, ext_or, ext_field, ext_field_off])

theorem reform (k : BitVec 7) : Statement (.reform k) :=
  of_parts _ _ _ rfl (by show decodeOp16 _ = _; simp (disch := omega) [decodeOp16, ext_or, ext_field, ext_field_off])

theorem qbind (q : BitVec 4) (a : BitVec 6) : Statement (.qbind q a) :=
  of_parts _ _ _ rfl (by show decodeOp1C _ = _; simp (disch := omega) [decodeOp1C, ext_or, ext_field, ext_field_off])

theorem qpush (q : BitVec 4) (v : BitVec 7) (n : BitVec 5) : Statement (.qpush q v n) :=
  of_parts _ _ _ rfl (by show decodeOp1D _ = _; simp (disch := omega) [decodeOp1D, ext_or, ext_field, ext_field_off])

theorem qpushTeam (q : BitVec 4) (v : BitVec 7) (n : BitVec 5) : Statement (.qpushTeam q v n) :=
  of_parts _ _ _ rfl (by show decodeOp1D _ = _; simp (disch := omega) [decodeOp1D, ext_or, ext_field, ext_field_off])

theorem qpop (q : BitVec 4) (v : BitVec 7) (n : BitVec 5) (p : BitVec 3) : Statement (.qpop q v n p) :=
  of_parts _ _ _ rfl (by show decodeOp1E _ = _; simp (disch := omega) [decodeOp1E, ext_or, ext_field, ext_field_off])

theorem qpopTeam (q : BitVec 4) (v : BitVec 7) (n : BitVec 5) (p : BitVec 3) : Statement (.qpopTeam q v n p) :=
  of_parts _ _ _ rfl (by show decodeOp1E _ = _; simp (disch := omega) [decodeOp1E, ext_or, ext_field, ext_field_off])

theorem qtry (q : BitVec 4) (v : BitVec 7) (n : BitVec 5) (p : BitVec 3) : Statement (.qtry q v n p) :=
  of_parts _ _ _ rfl (by show decodeOp1F _ = _; simp (disch := omega) [decodeOp1F, ext_or, ext_field, ext_field_off])

theorem qtryTeam (q : BitVec 4) (v : BitVec 7) (n : BitVec 5) (p : BitVec 3) : Statement (.qtryTeam q v n p) :=
  of_parts _ _ _ rfl (by show decodeOp1F _ = _; simp (disch := omega) [decodeOp1F, ext_or, ext_field, ext_field_off])

theorem fadd (t : BitVec 3) (d : BitVec 7) (a : BitVec 7) (b : BitVec 7) : Statement (.fadd t d a b) :=
  of_parts _ _ _ rfl (by show decodeOp20 _ = _; simp (disch := omega) [decodeOp20, ext_or, ext_field, ext_field_off])

theorem fsub (t : BitVec 3) (d : BitVec 7) (a : BitVec 7) (b : BitVec 7) : Statement (.fsub t d a b) :=
  of_parts _ _ _ rfl (by show decodeOp21 _ = _; simp (disch := omega) [decodeOp21, ext_or, ext_field, ext_field_off])

theorem fmul (t : BitVec 3) (d : BitVec 7) (a : BitVec 7) (b : BitVec 7) : Statement (.fmul t d a b) :=
  of_parts _ _ _ rfl (by show decodeOp22 _ = _; simp (disch := omega) [decodeOp22, ext_or, ext_field, ext_field_off])

theorem ffma (t : BitVec 3) (d : BitVec 7) (a : BitVec 7) (b : BitVec 7) : Statement (.ffma t d a b) :=
  of_parts _ _ _ rfl (by show decodeOp23 _ = _; simp (disch := omega) [decodeOp23, ext_or, ext_field, ext_field_off])

theorem fmin (t : BitVec 3) (d : BitVec 7) (a : BitVec 7) (b : BitVec 7) : Statement (.fmin t d a b) :=
  of_parts _ _ _ rfl (by show decodeOp24 _ = _; simp (disch := omega) [decodeOp24, ext_or, ext_field, ext_field_off])

theorem fmax (t : BitVec 3) (d : BitVec 7) (a : BitVec 7) (b : BitVec 7) : Statement (.fmax t d a b) :=
  of_parts _ _ _ rfl (by show decodeOp25 _ = _; simp (disch := omega) [decodeOp25, ext_or, ext_field, ext_field_off])

theorem fdiv (t : BitVec 3) (d : BitVec 7) (a : BitVec 7) (b : BitVec 7) : Statement (.fdiv t d a b) :=
  of_parts _ _ _ rfl (by show decodeOp26 _ = _; simp (disch := omega) [decodeOp26, ext_or, ext_field, ext_field_off])

theorem fdot2 (t : BitVec 3) (d : BitVec 7) (a : BitVec 7) (b : BitVec 7) : Statement (.fdot2 t d a b) :=
  of_parts _ _ _ rfl (by show decodeOp27 _ = _; simp (disch := omega) [decodeOp27, ext_or, ext_field, ext_field_off])

theorem fsgn (t : BitVec 3) (d : BitVec 7) (a : BitVec 7) (b : BitVec 7) : Statement (.fsgn t d a b) :=
  of_parts _ _ _ rfl (by show decodeOp28 _ = _; simp (disch := omega) [decodeOp28, ext_or, ext_field, ext_field_off])

theorem fsgnNeg (t : BitVec 3) (d : BitVec 7) (a : BitVec 7) (b : BitVec 7) : Statement (.fsgnNeg t d a b) :=
  of_parts _ _ _ rfl (by show decodeOp29 _ = _; simp (disch := omega) [decodeOp29, ext_or, ext_field, ext_field_off])

theorem fsgnXor (t : BitVec 3) (d : BitVec 7) (a : BitVec 7) (b : BitVec 7) : Statement (.fsgnXor t d a b) :=
  of_parts _ _ _ rfl (by show decodeOp2A _ = _; simp (disch := omega) [decodeOp2A, ext_or, ext_field, ext_field_off])

theorem fcmp (t : BitVec 3) (k : BitVec 4) (p : BitVec 3) (a : BitVec 7) (b : BitVec 7) : Statement (.fcmp t k p a b) :=
  of_parts _ _ _ rfl (by show decodeOp2B _ = _; simp (disch := omega) [decodeOp2B, ext_or, ext_field, ext_field_off])

theorem frcp (d : BitVec 7) (a : BitVec 7) (t : BitVec 3) : Statement (.frcp d a t) :=
  of_parts _ _ _ rfl (by show decodeOp2C _ = _; simp (disch := omega) [decodeOp2C, ext_or, ext_field, ext_field_off])

theorem frsq (d : BitVec 7) (a : BitVec 7) (t : BitVec 3) : Statement (.frsq d a t) :=
  of_parts _ _ _ rfl (by show decodeOp2C _ = _; simp (disch := omega) [decodeOp2C, ext_or, ext_field, ext_field_off])

theorem fsqrt (d : BitVec 7) (a : BitVec 7) (t : BitVec 3) : Statement (.fsqrt d a t) :=
  of_parts _ _ _ rfl (by show decodeOp2C _ = _; simp (disch := omega) [decodeOp2C, ext_or, ext_field, ext_field_off])

theorem fex2 (d : BitVec 7) (a : BitVec 7) (t : BitVec 3) : Statement (.fex2 d a t) :=
  of_parts _ _ _ rfl (by show decodeOp2C _ = _; simp (disch := omega) [decodeOp2C, ext_or, ext_field, ext_field_off])

theorem flg2 (d : BitVec 7) (a : BitVec 7) (t : BitVec 3) : Statement (.flg2 d a t) :=
  of_parts _ _ _ rfl (by show decodeOp2C _ = _; simp (disch := omega) [decodeOp2C, ext_or, ext_field, ext_field_off])

theorem fsin (d : BitVec 7) (a : BitVec 7) (t : BitVec 3) : Statement (.fsin d a t) :=
  of_parts _ _ _ rfl (by show decodeOp2C _ = _; simp (disch := omega) [decodeOp2C, ext_or, ext_field, ext_field_off])

theorem fcos (d : BitVec 7) (a : BitVec 7) (t : BitVec 3) : Statement (.fcos d a t) :=
  of_parts _ _ _ rfl (by show decodeOp2C _ = _; simp (disch := omega) [decodeOp2C, ext_or, ext_field, ext_field_off])

theorem fclass (d : BitVec 7) (a : BitVec 7) (t : BitVec 3) : Statement (.fclass d a t) :=
  of_parts _ _ _ rfl (by show decodeOp2C _ = _; simp (disch := omega) [decodeOp2C, ext_or, ext_field, ext_field_off])

theorem frnd (d : BitVec 7) (a : BitVec 7) (t : BitVec 3) (m : BitVec 3) : Statement (.frnd d a t m) :=
  of_parts _ _ _ rfl (by show decodeOp2D _ = _; simp (disch := omega) [decodeOp2D, ext_or, ext_field, ext_field_off])

theorem fcvt (d : BitVec 7) (a : BitVec 7) (t : BitVec 3) (x : BitVec 4) (m : BitVec 3) : Statement (.fcvt d a t x m) :=
  of_parts _ _ _ rfl (by show decodeOp2E _ = _; simp (disch := omega) [decodeOp2E, ext_or, ext_field, ext_field_off])

theorem icvt (d : BitVec 7) (a : BitVec 7) (r : BitVec 1) (f : BitVec 3) (i : BitVec 3) (m : BitVec 3) : Statement (.icvt d a r f i m) :=
  of_parts _ _ _ rfl (by show decodeOp2F _ = _; simp (disch := omega) [decodeOp2F, ext_or, ext_field, ext_field_off])

theorem iadd (t : BitVec 3) (d : BitVec 7) (a : BitVec 7) (b : BitVec 7) : Statement (.iadd t d a b) :=
  of_parts _ _ _ rfl (by show decodeOp30 _ = _; simp (disch := omega) [decodeOp30, ext_or, ext_field, ext_field_off])

theorem isub (t : BitVec 3) (d : BitVec 7) (a : BitVec 7) (b : BitVec 7) : Statement (.isub t d a b) :=
  of_parts _ _ _ rfl (by show decodeOp31 _ = _; simp (disch := omega) [decodeOp31, ext_or, ext_field, ext_field_off])

theorem imul (t : BitVec 3) (d : BitVec 7) (a : BitVec 7) (b : BitVec 7) : Statement (.imul t d a b) :=
  of_parts _ _ _ rfl (by show decodeOp32 _ = _; simp (disch := omega) [decodeOp32, ext_or, ext_field, ext_field_off])

theorem imulh (t : BitVec 3) (d : BitVec 7) (a : BitVec 7) (b : BitVec 7) : Statement (.imulh t d a b) :=
  of_parts _ _ _ rfl (by show decodeOp33 _ = _; simp (disch := omega) [decodeOp33, ext_or, ext_field, ext_field_off])

theorem imad (t : BitVec 3) (d : BitVec 7) (a : BitVec 7) (b : BitVec 7) : Statement (.imad t d a b) :=
  of_parts _ _ _ rfl (by show decodeOp34 _ = _; simp (disch := omega) [decodeOp34, ext_or, ext_field, ext_field_off])

theorem imin (t : BitVec 3) (d : BitVec 7) (a : BitVec 7) (b : BitVec 7) : Statement (.imin t d a b) :=
  of_parts _ _ _ rfl (by show decodeOp35 _ = _; simp (disch := omega) [decodeOp35, ext_or, ext_field, ext_field_off])

theorem imax (t : BitVec 3) (d : BitVec 7) (a : BitVec 7) (b : BitVec 7) : Statement (.imax t d a b) :=
  of_parts _ _ _ rfl (by show decodeOp36 _ = _; simp (disch := omega) [decodeOp36, ext_or, ext_field, ext_field_off])

theorem ishl (t : BitVec 3) (d : BitVec 7) (a : BitVec 7) (b : BitVec 7) : Statement (.ishl t d a b) :=
  of_parts _ _ _ rfl (by show decodeOp37 _ = _; simp (disch := omega) [decodeOp37, ext_or, ext_field, ext_field_off])

theorem ishr (t : BitVec 3) (d : BitVec 7) (a : BitVec 7) (b : BitVec 7) : Statement (.ishr t d a b) :=
  of_parts _ _ _ rfl (by show decodeOp38 _ = _; simp (disch := omega) [decodeOp38, ext_or, ext_field, ext_field_off])

theorem isra (t : BitVec 3) (d : BitVec 7) (a : BitVec 7) (b : BitVec 7) : Statement (.isra t d a b) :=
  of_parts _ _ _ rfl (by show decodeOp39 _ = _; simp (disch := omega) [decodeOp39, ext_or, ext_field, ext_field_off])

theorem iand (t : BitVec 3) (d : BitVec 7) (a : BitVec 7) (b : BitVec 7) : Statement (.iand t d a b) :=
  of_parts _ _ _ rfl (by show decodeOp3A _ = _; simp (disch := omega) [decodeOp3A, ext_or, ext_field, ext_field_off])

theorem ior (t : BitVec 3) (d : BitVec 7) (a : BitVec 7) (b : BitVec 7) : Statement (.ior t d a b) :=
  of_parts _ _ _ rfl (by show decodeOp3B _ = _; simp (disch := omega) [decodeOp3B, ext_or, ext_field, ext_field_off])

theorem ixor (t : BitVec 3) (d : BitVec 7) (a : BitVec 7) (b : BitVec 7) : Statement (.ixor t d a b) :=
  of_parts _ _ _ rfl (by show decodeOp3C _ = _; simp (disch := omega) [decodeOp3C, ext_or, ext_field, ext_field_off])

theorem icmp (t : BitVec 3) (k : BitVec 4) (p : BitVec 3) (a : BitVec 7) (b : BitVec 7) : Statement (.icmp t k p a b) :=
  of_parts _ _ _ rfl (by show decodeOp3D _ = _; simp (disch := omega) [decodeOp3D, ext_or, ext_field, ext_field_off])

theorem iabs (d : BitVec 7) (a : BitVec 7) (t : BitVec 3) : Statement (.iabs d a t) :=
  of_parts _ _ _ rfl (by show decodeOp3E _ = _; simp (disch := omega) [decodeOp3E, ext_or, ext_field, ext_field_off])

theorem inot (d : BitVec 7) (a : BitVec 7) (t : BitVec 3) : Statement (.inot d a t) :=
  of_parts _ _ _ rfl (by show decodeOp3E _ = _; simp (disch := omega) [decodeOp3E, ext_or, ext_field, ext_field_off])

theorem ipop (d : BitVec 7) (a : BitVec 7) (t : BitVec 3) : Statement (.ipop d a t) :=
  of_parts _ _ _ rfl (by show decodeOp3E _ = _; simp (disch := omega) [decodeOp3E, ext_or, ext_field, ext_field_off])

theorem iclz (d : BitVec 7) (a : BitVec 7) (t : BitVec 3) : Statement (.iclz d a t) :=
  of_parts _ _ _ rfl (by show decodeOp3E _ = _; simp (disch := omega) [decodeOp3E, ext_or, ext_field, ext_field_off])

theorem vsel (p : BitVec 3) (d : BitVec 7) (a : BitVec 7) (b : BitVec 7) : Statement (.vsel p d a b) :=
  of_parts _ _ _ rfl (by show decodeOp3F _ = _; simp (disch := omega) [decodeOp3F, ext_or, ext_field, ext_field_off])

theorem vmov (t : BitVec 3) (d : BitVec 7) (a : BitVec 7) : Statement (.vmov t d a) :=
  of_parts _ _ _ rfl (by show decodeOp40 _ = _; simp (disch := omega) [decodeOp40, ext_or, ext_field, ext_field_off])

theorem vli (d : BitVec 7) (i : BitVec 10) : Statement (.vli d i) :=
  of_parts _ _ _ rfl (by show decodeOp41 _ = _; simp (disch := omega) [decodeOp41, ext_or, ext_field, ext_field_off])

theorem lperm (t : BitVec 3) (d : BitVec 7) (a : BitVec 7) (b : BitVec 7) : Statement (.lperm t d a b) :=
  of_parts _ _ _ rfl (by show decodeOp42 _ = _; simp (disch := omega) [decodeOp42, ext_or, ext_field, ext_field_off])

theorem lred (d : BitVec 7) (a : BitVec 7) (k : BitVec 1) (t : BitVec 3) (o : BitVec 3) : Statement (.lred d a k t o) :=
  of_parts _ _ _ rfl (by show decodeOp43 _ = _; simp (disch := omega) [decodeOp43, ext_or, ext_field, ext_field_off])

theorem lscan (d : BitVec 7) (a : BitVec 7) (k : BitVec 1) (t : BitVec 3) (o : BitVec 3) (n : BitVec 1) : Statement (.lscan d a k t o n) :=
  of_parts _ _ _ rfl (by show decodeOp44 _ = _; simp (disch := omega) [decodeOp44, ext_or, ext_field, ext_field_off])

theorem sgnq (d : BitVec 7) (a : BitVec 7) (b : BitVec 7) : Statement (.sgnq d a b) :=
  of_parts _ _ _ rfl (by show decodeOp45 _ = _; simp (disch := omega) [decodeOp45, ext_or, ext_field, ext_field_off])

theorem sgnx (d : BitVec 7) (a : BitVec 7) (b : BitVec 7) : Statement (.sgnx d a b) :=
  of_parts _ _ _ rfl (by show decodeOp46 _ = _; simp (disch := omega) [decodeOp46, ext_or, ext_field, ext_field_off])

theorem pack (d : BitVec 7) (a : BitVec 7) (z : BitVec 2) (s : BitVec 1) (g : BitVec 1) : Statement (.pack d a z s g) :=
  of_parts _ _ _ rfl (by show decodeOp47 _ = _; simp (disch := omega) [decodeOp47, ext_or, ext_field, ext_field_off])

theorem unpk (d : BitVec 7) (a : BitVec 7) (z : BitVec 2) (g : BitVec 1) : Statement (.unpk d a z g) :=
  of_parts _ _ _ rfl (by show decodeOp48 _ = _; simp (disch := omega) [decodeOp48, ext_or, ext_field, ext_field_off])

theorem ld (z : BitVec 3) (d : BitVec 7) (o : BitVec 7) (s : BitVec 5) (g : BitVec 1) (l : BitVec 1) : Statement (.ld z d o s g l) :=
  of_parts _ _ _ rfl (by show decodeOp50 _ = _; simp (disch := omega) [decodeOp50, ext_or, ext_field, ext_field_off])

theorem st (z : BitVec 3) (d : BitVec 7) (o : BitVec 7) (s : BitVec 5) (l : BitVec 1) : Statement (.st z d o s l) :=
  of_parts _ _ _ rfl (by show decodeOp51 _ = _; simp (disch := omega) [decodeOp51, ext_or, ext_field, ext_field_off])

theorem lds (z : BitVec 3) (d : BitVec 7) (o : BitVec 7) (s : BitVec 5) (g : BitVec 1) : Statement (.lds z d o s g) :=
  of_parts _ _ _ rfl (by show decodeOp52 _ = _; simp (disch := omega) [decodeOp52, ext_or, ext_field, ext_field_off])

theorem sts (z : BitVec 3) (d : BitVec 7) (o : BitVec 7) (s : BitVec 5) : Statement (.sts z d o s) :=
  of_parts _ _ _ rfl (by show decodeOp53 _ = _; simp (disch := omega) [decodeOp53, ext_or, ext_field, ext_field_off])

theorem ldk (z : BitVec 3) (d : BitVec 6) (s : BitVec 5) (g : BitVec 1) (l : BitVec 1) : Statement (.ldk z d s g l) :=
  of_parts _ _ _ rfl (by show decodeOp54 _ = _; simp (disch := omega) [decodeOp54, ext_or, ext_field, ext_field_off])

theorem ldb (z : BitVec 3) (d : BitVec 7) (o : BitVec 7) (s : BitVec 5) (g : BitVec 1) (n : BitVec 1) : Statement (.ldb z d o s g n) :=
  of_parts _ _ _ rfl (by show decodeOp55 _ = _; simp (disch := omega) [decodeOp55, ext_or, ext_field, ext_field_off])

theorem pref (o : BitVec 7) (s : BitVec 5) (l : BitVec 2) : Statement (.pref o s l) :=
  of_parts _ _ _ rfl (by show decodeOp56 _ = _; simp (disch := omega) [decodeOp56, ext_or, ext_field, ext_field_off])

theorem fenceAcq (s : BitVec 3) : Statement (.fenceAcq s) :=
  of_parts _ _ _ rfl (by show decodeOp57 _ = _; simp (disch := omega) [decodeOp57, ext_or, ext_field, ext_field_off])

theorem fenceRel (s : BitVec 3) : Statement (.fenceRel s) :=
  of_parts _ _ _ rfl (by show decodeOp57 _ = _; simp (disch := omega) [decodeOp57, ext_or, ext_field, ext_field_off])

theorem fenceAr (s : BitVec 3) : Statement (.fenceAr s) :=
  of_parts _ _ _ rfl (by show decodeOp57 _ = _; simp (disch := omega) [decodeOp57, ext_or, ext_field, ext_field_off])

theorem cinv (s : BitVec 3) (a : BitVec 6) (b : BitVec 6) : Statement (.cinv s a b) :=
  of_parts _ _ _ rfl (by show decodeOp58 _ = _; simp (disch := omega) [decodeOp58, ext_or, ext_field, ext_field_off])

theorem cwb (s : BitVec 3) (a : BitVec 6) (b : BitVec 6) : Statement (.cwb s a b) :=
  of_parts _ _ _ rfl (by show decodeOp58 _ = _; simp (disch := omega) [decodeOp58, ext_or, ext_field, ext_field_off])

theorem rrinv (a : BitVec 6) (b : BitVec 6) : Statement (.rrinv a b) :=
  of_parts _ _ _ rfl (by show decodeOp59 _ = _; simp (disch := omega) [decodeOp59, ext_or, ext_field, ext_field_off])

theorem spchk (d : BitVec 6) : Statement (.spchk d) :=
  of_parts _ _ _ rfl (by show decodeOp5A _ = _; simp (disch := omega) [decodeOp5A, ext_or, ext_field, ext_field_off])

theorem mwait (t : BitVec 3) (d : BitVec 6) (a : BitVec 6) (b : BitVec 6) (s : BitVec 3) : Statement (.mwait t d a b s) :=
  of_parts _ _ _ rfl (by show decodeOp5B _ = _; simp (disch := omega) [decodeOp5B, ext_or, ext_field, ext_field_off])

theorem pmap (d : BitVec 7) : Statement (.pmap d) :=
  of_parts _ _ _ rfl (by show decodeOp5C _ = _; simp (disch := omega) [decodeOp5C, ext_or, ext_field, ext_field_off])

theorem pmapRd (d : BitVec 7) : Statement (.pmapRd d) :=
  of_parts _ _ _ rfl (by show decodeOp5C _ = _; simp (disch := omega) [decodeOp5C, ext_or, ext_field, ext_field_off])

theorem loadReturn (remote : List RemoteLine) : Statement (.loadReturn remote) := of_none _ rfl

theorem amo (o : BitVec 4) (w : BitVec 1) (d : BitVec 7) (v : BitVec 7) (s : BitVec 5) : Statement (.amo o w d v s) :=
  of_parts _ _ _ rfl (by show decodeOp60 _ = _; simp (disch := omega) [decodeOp60, ext_or, ext_field, ext_field_off])

theorem acas (w : BitVec 1) (d : BitVec 7) (v : BitVec 7) (s : BitVec 5) : Statement (.acas w d v s) :=
  of_parts _ _ _ rfl (by show decodeOp61 _ = _; simp (disch := omega) [decodeOp61, ext_or, ext_field, ext_field_off])

theorem acas2 (d : BitVec 7) (v : BitVec 7) (s : BitVec 5) : Statement (.acas2 d v s) :=
  of_parts _ _ _ rfl (by show decodeOp62 _ = _; simp (disch := omega) [decodeOp62, ext_or, ext_field, ext_field_off])

theorem red (o : BitVec 4) (w : BitVec 1) (d : BitVec 7) (v : BitVec 7) (s : BitVec 5) : Statement (.red o w d v s) :=
  of_parts _ _ _ rfl (by show decodeOp63 _ = _; simp (disch := omega) [decodeOp63, ext_or, ext_field, ext_field_off])

theorem redx (w : BitVec 1) (d : BitVec 7) (v : BitVec 7) (s : BitVec 5) : Statement (.redx w d v s) :=
  of_parts _ _ _ rfl (by show decodeOp64 _ = _; simp (disch := omega) [decodeOp64, ext_or, ext_field, ext_field_off])

theorem ald (w : BitVec 1) (d : BitVec 7) (v : BitVec 7) (s : BitVec 5) : Statement (.ald w d v s) :=
  of_parts _ _ _ rfl (by show decodeOp65 _ = _; simp (disch := omega) [decodeOp65, ext_or, ext_field, ext_field_off])

theorem ast (w : BitVec 1) (d : BitVec 7) (v : BitVec 7) (s : BitVec 5) : Statement (.ast w d v s) :=
  of_parts _ _ _ rfl (by show decodeOp66 _ = _; simp (disch := omega) [decodeOp66, ext_or, ext_field, ext_field_off])

theorem apin (o : BitVec 4) (v : BitVec 7) (s : BitVec 5) : Statement (.apin o v s) :=
  of_parts _ _ _ rfl (by show decodeOp67 _ = _; simp (disch := omega) [decodeOp67, ext_or, ext_field, ext_field_off])

theorem hostAtomicCompletion (reply : HostReply) (old : BitVec 128) : Statement (.hostAtomicCompletion reply old) := of_none _ rfl

theorem hostAtomicTimeout (applied : Bool) (old : BitVec 128) : Statement (.hostAtomicTimeout applied old) := of_none _ rfl

theorem rbind (e : BitVec 5) (a : BitVec 6) (m : BitVec 2) (q : BitVec 1) (s : BitVec 3) : Statement (.rbind e a m q s) :=
  of_parts _ _ _ rfl (by show decodeOp68 _ = _; simp (disch := omega) [decodeOp68, ext_or, ext_field, ext_field_off])

theorem rdrain (e : BitVec 5) (a : BitVec 1) (t : BitVec 2) (r : BitVec 1) (f : BitVec 1) (q : BitVec 1) (l : BitVec 1) (s : BitVec 3) : Statement (.rdrain e a t r f q l s) :=
  of_parts _ _ _ rfl (by show decodeOp69 _ = _; simp (disch := omega) [decodeOp69, ext_or, ext_field, ext_field_off])

theorem rwait (e : BitVec 5) : Statement (.rwait e) :=
  of_parts _ _ _ rfl (by show decodeOp6A _ = _; simp (disch := omega) [decodeOp6A, ext_or, ext_field, ext_field_off])

theorem rfree (e : BitVec 5) : Statement (.rfree e) :=
  of_parts _ _ _ rfl (by show decodeOp6A _ = _; simp (disch := omega) [decodeOp6A, ext_or, ext_field, ext_field_off])

theorem rstat (e : BitVec 5) (d : BitVec 6) : Statement (.rstat e d) :=
  of_parts _ _ _ rfl (by show decodeOp6A _ = _; simp (disch := omega) [decodeOp6A, ext_or, ext_field, ext_field_off])

theorem cyield (o : BitVec 20) : Statement (.cyield o) :=
  of_parts _ _ _ rfl (by show decodeOp6B _ = _; simp (disch := omega) [decodeOp6B, ext_or, ext_field, ext_field_off])

theorem rseed (a : BitVec 6) (b : BitVec 6) : Statement (.rseed a b) :=
  of_parts _ _ _ rfl (by show decodeOp6B _ = _; simp (disch := omega) [decodeOp6B, ext_or, ext_field, ext_field_off])

theorem mclaim (k : BitVec 2) (d : BitVec 6) (a : BitVec 6) : Statement (.mclaim k d a) :=
  of_parts _ _ _ rfl (by show decodeOp6C _ = _; simp (disch := omega) [decodeOp6C, ext_or, ext_field, ext_field_off])

theorem mrelease (k : BitVec 2) (a : BitVec 6) : Statement (.mrelease k a) :=
  of_parts _ _ _ rfl (by show decodeOp6C _ = _; simp (disch := omega) [decodeOp6C, ext_or, ext_field, ext_field_off])

theorem mgang (a : BitVec 6) : Statement (.mgang a) :=
  of_parts _ _ _ rfl (by show decodeOp6D _ = _; simp (disch := omega) [decodeOp6D, ext_or, ext_field, ext_field_off])

theorem mstat (d : BitVec 6) (a : BitVec 6) : Statement (.mstat d a) :=
  of_parts _ _ _ rfl (by show decodeOp6D _ = _; simp (disch := omega) [decodeOp6D, ext_or, ext_field, ext_field_off])

theorem mload (a : BitVec 6) (b : BitVec 6) (q : BitVec 1) (s : BitVec 3) : Statement (.mload a b q s) :=
  of_parts _ _ _ rfl (by show decodeOp6E _ = _; simp (disch := omega) [decodeOp6E, ext_or, ext_field, ext_field_off])

theorem mloadc (a : BitVec 6) (b : BitVec 6) (q : BitVec 1) (s : BitVec 3) : Statement (.mloadc a b q s) :=
  of_parts _ _ _ rfl (by show decodeOp6E _ = _; simp (disch := omega) [decodeOp6E, ext_or, ext_field, ext_field_off])

theorem mtable (a : BitVec 6) (i : BitVec 3) (q : BitVec 1) (s : BitVec 3) : Statement (.mtable a i q s) :=
  of_parts _ _ _ rfl (by show decodeOp6F _ = _; simp (disch := omega) [decodeOp6F, ext_or, ext_field, ext_field_off])

theorem mcbook (a : BitVec 6) (i : BitVec 3) (t : BitVec 2) (q : BitVec 1) (s : BitVec 3) : Statement (.mcbook a i t q s) :=
  of_parts _ _ _ rfl (by show decodeOp6F _ = _; simp (disch := omega) [decodeOp6F, ext_or, ext_field, ext_field_off])

theorem mma (k : BitVec 2) (a : BitVec 6) (x : BitVec 4) (y : BitVec 4) : Statement (.mma k a x y) :=
  of_parts _ _ _ rfl (by show decodeOp70 _ = _; simp (disch := omega) [decodeOp70, ext_or, ext_field, ext_field_off])

theorem mmac (k : BitVec 2) (a : BitVec 6) (x : BitVec 4) : Statement (.mmac k a x) :=
  of_parts _ _ _ rfl (by show decodeOp70 _ = _; simp (disch := omega) [decodeOp70, ext_or, ext_field, ext_field_off])

theorem mzero (k : BitVec 2) : Statement (.mzero k) :=
  of_parts _ _ _ rfl (by show decodeOp71 _ = _; simp (disch := omega) [decodeOp71, ext_or, ext_field, ext_field_off])

theorem mrd (k : BitVec 2) (v : BitVec 2) (d : BitVec 7) (a : BitVec 6) : Statement (.mrd k v d a) :=
  of_parts _ _ _ rfl (by show decodeOp71 _ = _; simp (disch := omega) [decodeOp71, ext_or, ext_field, ext_field_off])

theorem mwr (k : BitVec 2) (v : BitVec 2) (d : BitVec 7) (a : BitVec 6) : Statement (.mwr k v d a) :=
  of_parts _ _ _ rfl (by show decodeOp71 _ = _; simp (disch := omega) [decodeOp71, ext_or, ext_field, ext_field_off])

theorem mst (a : BitVec 6) (b : BitVec 6) (k : BitVec 2) (t : BitVec 3) (m : BitVec 3) (l : BitVec 1) (s : BitVec 3) : Statement (.mst a b k t m l s) :=
  of_parts _ _ _ rfl (by show decodeOp72 _ = _; simp (disch := omega) [decodeOp72, ext_or, ext_field, ext_field_off])

theorem mtrq (a : BitVec 6) (m : BitVec 3) : Statement (.mtrq a m) :=
  of_parts _ _ _ rfl (by show decodeOp73 _ = _; simp (disch := omega) [decodeOp73, ext_or, ext_field, ext_field_off])

theorem hbind (q : BitVec 4) (a : BitVec 6) (k : BitVec 1) (s : BitVec 3) : Statement (.hbind q a k s) :=
  of_parts _ _ _ rfl (by show decodeOp74 _ = _; simp (disch := omega) [decodeOp74, ext_or, ext_field, ext_field_off])

theorem hlog (q : BitVec 4) (a : BitVec 6) : Statement (.hlog q a) :=
  of_parts _ _ _ rfl (by show decodeOp75 _ = _; simp (disch := omega) [decodeOp75, ext_or, ext_field, ext_field_off])

theorem hreplay (q : BitVec 4) (v : BitVec 7) (k : BitVec 1) (s : BitVec 3) : Statement (.hreplay q v k s) :=
  of_parts _ _ _ rfl (by show decodeOp76 _ = _; simp (disch := omega) [decodeOp76, ext_or, ext_field, ext_field_off])

theorem hstat (d : BitVec 6) (q : BitVec 4) (s : BitVec 4) : Statement (.hstat d q s) :=
  of_parts _ _ _ rfl (by show decodeOp77 _ = _; simp (disch := omega) [decodeOp77, ext_or, ext_field, ext_field_off])

theorem hinv (a : BitVec 6) (b : BitVec 6) : Statement (.hinv a b) :=
  of_parts _ _ _ rfl (by show decodeOp77 _ = _; simp (disch := omega) [decodeOp77, ext_or, ext_field, ext_field_off])

theorem rayFetchReturn (remote : List RemoteLine) : Statement (.rayFetchReturn remote) := of_none _ rfl

theorem launch (d : BitVec 6) (a : BitVec 6) (q : BitVec 1) (l : BitVec 1) (s : BitVec 3) : Statement (.launch d a q l s) :=
  of_parts _ _ _ rfl (by show decodeOp78 _ = _; simp (disch := omega) [decodeOp78, ext_or, ext_field, ext_field_off])

theorem evsig (a : BitVec 6) (s : BitVec 3) : Statement (.evsig a s) :=
  of_parts _ _ _ rfl (by show decodeOp79 _ = _; simp (disch := omega) [decodeOp79, ext_or, ext_field, ext_field_off])

theorem evadd (a : BitVec 6) (b : BitVec 6) (s : BitVec 3) : Statement (.evadd a b s) :=
  of_parts _ _ _ rfl (by show decodeOp79 _ = _; simp (disch := omega) [decodeOp79, ext_or, ext_field, ext_field_off])

theorem evwait (a : BitVec 6) (b : BitVec 6) (s : BitVec 3) : Statement (.evwait a b s) :=
  of_parts _ _ _ rfl (by show decodeOp79 _ = _; simp (disch := omega) [decodeOp79, ext_or, ext_field, ext_field_off])

theorem idemRd (d : BitVec 6) : Statement (.idemRd d) :=
  of_parts _ _ _ rfl (by show decodeOp7A _ = _; simp (disch := omega) [decodeOp7A, ext_or, ext_field, ext_field_off])

theorem rqbindAttach (a : BitVec 6) : Statement (.rqbindAttach a) :=
  of_parts _ _ _ rfl (by show decodeOp7B _ = _; simp (disch := omega) [decodeOp7B, ext_or, ext_field, ext_field_off])

theorem rqbindDetach (a : BitVec 6) : Statement (.rqbindDetach a) :=
  of_parts _ _ _ rfl (by show decodeOp7B _ = _; simp (disch := omega) [decodeOp7B, ext_or, ext_field, ext_field_off])

theorem rqbindStat (d : BitVec 6) (a : BitVec 6) : Statement (.rqbindStat d a) :=
  of_parts _ _ _ rfl (by show decodeOp7B _ = _; simp (disch := omega) [decodeOp7B, ext_or, ext_field, ext_field_off])

theorem lateReturn (remote : List RemoteLine) : Statement (.lateReturn remote) := of_none _ rfl

theorem tlbInvalidate (value : W64) : Statement (.tlbInvalidate value) := of_none _ rfl

theorem missingDecrement (value : W64) : Statement (.missingDecrement value) := of_none _ rfl

theorem rrcstepsWrite (value : W32) : Statement (.rrcstepsWrite value) := of_none _ rfl

theorem registerWrite (off : BitVec 32) (value : W64) : Statement (.registerWrite off value) := of_none _ rfl

theorem rstw (w : BitVec 1) (a : BitVec 7) (d : BitVec 7) (p : BitVec 3) : Statement (.rstw w a d p) :=
  of_parts _ _ _ rfl (by show decodeOp7C _ = _; simp (disch := omega) [decodeOp7C, ext_or, ext_field, ext_field_off])

theorem rred (w : BitVec 1) (a : BitVec 7) (d : BitVec 7) (o : BitVec 4) (p : BitVec 3) : Statement (.rred w a d o p) :=
  of_parts _ _ _ rfl (by show decodeOp7C _ = _; simp (disch := omega) [decodeOp7C, ext_or, ext_field, ext_field_off])

theorem ramo (w : BitVec 1) (a : BitVec 7) (d : BitVec 7) (o : BitVec 4) (p : BitVec 3) : Statement (.ramo w a d o p) :=
  of_parts _ _ _ rfl (by show decodeOp7C _ = _; simp (disch := omega) [decodeOp7C, ext_or, ext_field, ext_field_off])

theorem aflush (d : BitVec 6) (a : BitVec 6) : Statement (.aflush d a) :=
  of_parts _ _ _ rfl (by show decodeOp7D _ = _; simp (disch := omega) [decodeOp7D, ext_or, ext_field, ext_field_off])

theorem aflushAll (d : BitVec 6) : Statement (.aflushAll d) :=
  of_parts _ _ _ rfl (by show decodeOp7D _ = _; simp (disch := omega) [decodeOp7D, ext_or, ext_field, ext_field_off])

theorem afstatFail (d : BitVec 6) : Statement (.afstatFail d) :=
  of_parts _ _ _ rfl (by show decodeOp7D _ = _; simp (disch := omega) [decodeOp7D, ext_or, ext_field, ext_field_off])

theorem afstatPend (d : BitVec 6) : Statement (.afstatPend d) :=
  of_parts _ _ _ rfl (by show decodeOp7D _ = _; simp (disch := omega) [decodeOp7D, ext_or, ext_field, ext_field_off])

theorem rsvs (d : BitVec 6) (q : BitVec 4) (a : BitVec 6) : Statement (.rsvs d q a) :=
  of_parts _ _ _ rfl (by show decodeOp7D _ = _; simp (disch := omega) [decodeOp7D, ext_or, ext_field, ext_field_off])

theorem rsvsRet (q : BitVec 4) : Statement (.rsvsRet q) :=
  of_parts _ _ _ rfl (by show decodeOp7D _ = _; simp (disch := omega) [decodeOp7D, ext_or, ext_field, ext_field_off])

theorem rrpush (q : BitVec 4) (v : BitVec 7) (p : BitVec 3) : Statement (.rrpush q v p) :=
  of_parts _ _ _ rfl (by show decodeOp7D _ = _; simp (disch := omega) [decodeOp7D, ext_or, ext_field, ext_field_off])

theorem aggregatedStore (p : StorePacket) : Statement (.aggregatedStore p) := of_none _ rfl

theorem storeAcknowledgement (a : StoreAck) : Statement (.storeAcknowledgement a) := of_none _ rfl

theorem recordPacket (p : RecordPacket) : Statement (.recordPacket p) := of_none _ rfl

theorem reservationRequest (p : ResvRequest) : Statement (.reservationRequest p) := of_none _ rfl

theorem reservationGrant (p : ResvGrant) : Statement (.reservationGrant p) := of_none _ rfl

theorem reservationCancel (p : ResvRequest) : Statement (.reservationCancel p) := of_none _ rfl

theorem reservationReturn (p : ResvReturn) : Statement (.reservationReturn p) := of_none _ rfl

theorem inbWrite (value : W32) : Statement (.inbWrite value) := of_none _ rfl

theorem deviceUnreachable (dev : BitVec 17) : Statement (.deviceUnreachable dev) := of_none _ rfl

theorem cplan (d : BitVec 6) (a : BitVec 6) : Statement (.cplan d a) :=
  of_parts _ _ _ rfl (by show decodeOp7E _ = _; simp (disch := omega) [decodeOp7E, ext_or, ext_field, ext_field_off])

theorem cplanFree (a : BitVec 6) : Statement (.cplanFree a) :=
  of_parts _ _ _ rfl (by show decodeOp7E _ = _; simp (disch := omega) [decodeOp7E, ext_or, ext_field, ext_field_off])

theorem cstart (a : BitVec 6) : Statement (.cstart a) :=
  of_parts _ _ _ rfl (by show decodeOp7E _ = _; simp (disch := omega) [decodeOp7E, ext_or, ext_field, ext_field_off])

theorem cwait (d : BitVec 6) (a : BitVec 6) : Statement (.cwait d a) :=
  of_parts _ _ _ rfl (by show decodeOp7E _ = _; simp (disch := omega) [decodeOp7E, ext_or, ext_field, ext_field_off])

theorem cstat (d : BitVec 6) (a : BitVec 6) (x : BitVec 3) : Statement (.cstat d a x) :=
  of_parts _ _ _ rfl (by show decodeOp7E _ = _; simp (disch := omega) [decodeOp7E, ext_or, ext_field, ext_field_off])

theorem ccancel (a : BitVec 6) : Statement (.ccancel a) :=
  of_parts _ _ _ rfl (by show decodeOp7E _ = _; simp (disch := omega) [decodeOp7E, ext_or, ext_field, ext_field_off])

theorem tenc (d : BitVec 6) (a : BitVec 6) (b : BitVec 6) (t : BitVec 3) : Statement (.tenc d a b t) :=
  of_parts _ _ _ rfl (by show decodeOp7E _ = _; simp (disch := omega) [decodeOp7E, ext_or, ext_field, ext_field_off])

theorem tdec (d : BitVec 6) (a : BitVec 6) (b : BitVec 6) : Statement (.tdec d a b) :=
  of_parts _ _ _ rfl (by show decodeOp7E _ = _; simp (disch := omega) [decodeOp7E, ext_or, ext_field, ext_field_off])

theorem chunkArrival (k : Chunk) : Statement (.chunkArrival k) := of_none _ rfl

theorem tvalidWrite (value : W32) : Statement (.tvalidWrite value) := of_none _ rfl

theorem freqWrite (off : BitVec 9) (value : W64) : Statement (.freqWrite off value) := of_none _ rfl

theorem hostSubmit (tail : W32) : Statement (.hostSubmit tail) := of_none _ rfl

theorem cqheadWrite (head : W32) : Statement (.cqheadWrite head) := of_none _ rfl

theorem attestationRequest (nonce : W64) : Statement (.attestationRequest nonce) := of_none _ rfl

theorem softError (e : ErrorSite) : Statement (.softError e) := of_none _ rfl

theorem lineReplacement (r : Replace) : Statement (.lineReplacement r) := of_none _ rfl

theorem clockChange (lowered : Bool) : Statement (.clockChange lowered) := of_none _ rfl

theorem flashUpdate (version : W32) (signed : SignedCode) : Statement (.flashUpdate version signed) := of_none _ rfl

theorem clauseStart : Statement .clauseStart := of_none _ rfl

theorem nop : Statement .nop := of_parts _ _ _ rfl rfl

theorem join : Statement .join :=
  of_parts _ _ _ rfl (by show decodeOp09 _ = _; simp (disch := omega) [decodeOp09, ext_or, ext_field, ext_field_off])

theorem elseW : Statement .elseW :=
  of_parts _ _ _ rfl (by show decodeOp09 _ = _; simp (disch := omega) [decodeOp09, ext_or, ext_field, ext_field_off])

theorem exit : Statement .exit :=
  of_parts _ _ _ rfl (by show decodeOp09 _ = _; simp (disch := omega) [decodeOp09, ext_or, ext_field, ext_field_off])

theorem yield : Statement .yield :=
  of_parts _ _ _ rfl (by show decodeOp13 _ = _; simp (disch := omega) [decodeOp13, ext_or, ext_field, ext_field_off])

theorem tfence : Statement .tfence :=
  of_parts _ _ _ rfl (by show decodeOp15 _ = _; simp (disch := omega) [decodeOp15, ext_or, ext_field, ext_field_off])

theorem tret : Statement .tret :=
  of_parts _ _ _ rfl (by show decodeOp15 _ = _; simp (disch := omega) [decodeOp15, ext_or, ext_field, ext_field_off])

theorem mwaitWake : Statement .mwaitWake := of_none _ rfl

theorem pmiss : Statement .pmiss := of_parts _ _ _ rfl rfl

theorem pret : Statement .pret := of_parts _ _ _ rfl rfl

theorem pageWalkComplete : Statement .pageWalkComplete := of_none _ rfl

theorem storeComplete : Statement .storeComplete := of_none _ rfl

theorem frameZeroed : Statement .frameZeroed := of_none _ rfl

theorem dqCommit : Statement .dqCommit := of_none _ rfl

theorem atomicReturn : Statement .atomicReturn := of_none _ rfl

theorem cyieldOff : Statement .cyieldOff :=
  of_parts _ _ _ rfl (by show decodeOp6B _ = _; simp (disch := omega) [decodeOp6B, ext_or, ext_field, ext_field_off])

theorem fillBeat : Statement .fillBeat := of_none _ rfl

theorem fillComplete : Statement .fillComplete := of_none _ rfl

theorem drainComplete : Statement .drainComplete := of_none _ rfl

theorem mfence : Statement .mfence :=
  of_parts _ _ _ rfl (by show decodeOp73 _ = _; simp (disch := omega) [decodeOp73, ext_or, ext_field, ext_field_off])

theorem arraySchedule : Statement .arraySchedule := of_none _ rfl

theorem matrixStep : Statement .matrixStep := of_none _ rfl

theorem mmacBlockDecode : Statement .mmacBlockDecode := of_none _ rfl

theorem mmacVerify : Statement .mmacVerify := of_none _ rfl

theorem matrixComplete : Statement .matrixComplete := of_none _ rfl

theorem hinvAll : Statement .hinvAll :=
  of_parts _ _ _ rfl (by show decodeOp77 _ = _; simp (disch := omega) [decodeOp77, ext_or, ext_field, ext_field_off])

theorem trace : Statement .trace := of_none _ rfl

theorem resume : Statement .resume := of_none _ rfl

theorem abort : Statement .abort := of_none _ rfl

theorem launchPortRecord : Statement .launchPortRecord := of_none _ rfl

theorem idemClr : Statement .idemClr :=
  of_parts _ _ _ rfl (by show decodeOp7A _ = _; simp (disch := omega) [decodeOp7A, ext_or, ext_field, ext_field_off])

theorem fedCrewTimeout : Statement .fedCrewTimeout := of_none _ rfl

theorem slotBind : Statement .slotBind := of_none _ rfl

theorem crewStart : Statement .crewStart := of_none _ rfl

theorem crewRestore : Statement .crewRestore := of_none _ rfl

theorem slotSave : Statement .slotSave := of_none _ rfl

theorem saveComplete : Statement .saveComplete := of_none _ rfl

theorem slotDrop : Statement .slotDrop := of_none _ rfl

theorem crewEnd : Statement .crewEnd := of_none _ rfl

theorem waitLimitExpiry : Statement .waitLimitExpiry := of_none _ rfl

theorem leaveGrant : Statement .leaveGrant := of_none _ rfl

theorem tlbInvalidateDone : Statement .tlbInvalidateDone := of_none _ rfl

theorem spindleAgeDepart : Statement .spindleAgeDepart := of_none _ rfl

theorem packetHandoff : Statement .packetHandoff := of_none _ rfl

theorem packetTimeout : Statement .packetTimeout := of_none _ rfl

theorem rsvsTimeout : Statement .rsvsTimeout := of_none _ rfl

theorem compositingPortRecord : Statement .compositingPortRecord := of_none _ rfl

theorem reductionBurst : Statement .reductionBurst := of_none _ rfl

theorem chunkAcknowledgement : Statement .chunkAcknowledgement := of_none _ rfl

theorem runTimeout : Statement .runTimeout := of_none _ rfl

theorem inboundAtomicop : Statement .inboundAtomicop := of_none _ rfl

theorem powerOnReset : Statement .powerOnReset := of_none _ rfl

theorem hotReset : Statement .hotReset := of_none _ rfl

theorem flrPhysicalFunction : Statement .flrPhysicalFunction := of_none _ rfl

theorem flrVirtualFunction : Statement .flrVirtualFunction := of_none _ rfl

theorem d3hotEntry : Statement .d3hotEntry := of_none _ rfl

theorem d3coldEntry : Statement .d3coldEntry := of_none _ rfl

theorem coreRetire : Statement .coreRetire := of_none _ rfl

theorem channelRetire : Statement .channelRetire := of_none _ rfl

theorem laneRetire : Statement .laneRetire := of_none _ rfl

theorem wayRetire : Statement .wayRetire := of_none _ rfl

theorem channelCopyComplete : Statement .channelCopyComplete := of_none _ rfl

theorem fabricPortFailure : Statement .fabricPortFailure := of_none _ rfl

theorem fabricPortReturn : Statement .fabricPortReturn := of_none _ rfl

theorem mloadComplete : Statement .mloadComplete := of_none _ rfl

theorem mstComplete : Statement .mstComplete := of_none _ rfl

theorem mtrqComplete : Statement .mtrqComplete := of_none _ rfl

theorem tileCodingComplete : Statement .tileCodingComplete := of_none _ rfl

theorem d3hotExit : Statement .d3hotExit := of_none _ rfl

theorem contextTeardown : Statement .contextTeardown := of_none _ rfl

theorem systemSoftwareSeal : Statement .systemSoftwareSeal := of_none _ rfl

end Sys2Proof.Laws.RoundTrip
end

