-- ==== Sys2Proof/Tests/Slice0.lean ====
section
/-! SUPPORT. Tests: ill-formed terms, words of the encoding tables, single steps on small states with results worked out by hand from
the spec, and for every statement with hypotheses a state and operands that meet them, at which what it concludes is checked too. -/

open Sys2Proof Sys2Proof.Machine

/-! ### Helpers -/

namespace Sys2Proof.Machine

/-- The instruction that a word decodes to is the one named. -/
def reads (e : W32 × Instr) : Bool := match decode e.1 with | .ok i => decide (i = e.2) | .error _ => false

/-- `s.ready i`, as a test. -/
def isReady (s : State) (i : Instr) : Bool := (issueCheck i s).isNone

theorem ready_of_isReady {s : State} {i : Instr} (h : isReady s i = true) : s.ready i := Option.isNone_iff_eq_none.mp h

/-- An outcome is a next state of which a test holds. -/
def next (o : Host.Outcome State Fault Refusal) (f : State → Bool) : Bool :=
  match o with
  | .next u => f u
  | .fault _ => false
  | .refused _ => false

/-- A word may issue, completes, and a test holds of the state it leaves. -/
def runs (s : State) (i : Instr) (f : State → Bool) : Bool := isReady s i && next (exec i s) fun u => u.team.note == .done && f u

/-- A word may issue, and takes an exception with this cause. -/
def traps (s : State) (i : Instr) (code detail : Nat) (val : W64) : Bool :=
  isReady s i && next (exec i s) fun u => u.team.note == .trapped && u.team.x.code == BitVec.ofNat 8 code &&
    u.team.x.detail == BitVec.ofNat 8 detail && u.team.x.xval == val && u.team.sup

/-- A word may issue, and waits. -/
def waits (s : State) (i : Instr) (w : Wait) : Bool :=
  isReady s i && next (exec i s) fun u => u.team.note == .blocked && u.team.sched.wait == some w

/-- A team of 32 lanes and 128 registers of crew 1, alone on its core, in a clause. -/
def base : State := placed State.reset 0

/-- The same team with scalar registers set. -/
def State.withS (s : State) (l : List (Nat × W32)) : State := s.mapTeam fun t => l.foldl (fun t e => t.setS e.1 e.2) t

/-- Lanes 0 and 1 of vector registers set: (register, lane 0, lane 1). -/
def State.withV (s : State) (l : List (Nat × W32 × W32)) : State :=
  s.mapTeam fun t => l.foldl (fun t e => (t.setV e.1 0 e.2.1).setV e.1 1 e.2.2) t

/-- A predicate set. -/
def State.withP (s : State) (p : Nat) (m : Mask) : State := s.mapTeam fun t => { t with r := { t.r with p := smSet 0 t.r.p p m } }

/-- Only lanes 0 and 1 are in M. -/
def State.two (s : State) : State := s.mapTeam fun t => { t with m := 3 }

/-- The first 512 MiB of the context map to themselves, for every access: translation record at 0x1000, tables at 0x2000 and 0x10000 (R277,
R278), and the TLB of the core holds the leaf. -/
def mapped : State := { base with
  mem := [(0x1001, 0x20), (0x2000, 0x01), (0x2002, 0x01), (0x10000, 0xFD), (0x10001, 0x01)]
  contexts := [(0, { root := 0x1000 })]
  cores := [(0, { tlb := [{ ctx := 0, vpn := 0, leaf := 0x1FD, large := true }] })] }

/-- The crew of the team changed. -/
def State.withCrew (s : State) (f : Crew → Crew) : State := s.setCrew 1 (f (s.crew 1))

/-- A queue register of the team. -/
def State.withQ (s : State) (q : Nat) (x : QReg) : State := s.mapTeam fun t => { t with q := smSet {} t.q q x }

/-- A place for an event. -/
def State.atPlace (s : State) (x : Site) : State := { s with site := x }

/-- A clause open with two words in slots 1 and 2. -/
def State.withWords (s : State) (w1 w2 : W32) : State :=
  s.mapTeam fun t => { t with clause := some { addr := 0x10000, header := 0x000FF05C, w1 := w1, w2 := w2, w3 := 0 } }

/-- The team in supervisor state. -/
def State.inSup (s : State) : State := s.mapTeam fun t => { t with sup := true }

/-- An operation of the team of `base` in flight. -/
def State.flying (s : State) (k : OpKind) : State :=
  { s with ops := [{ id := 0, team := 16, crew := 1, gen := 0, flag := none, kind := k }], nextOp := 1, site := { crew := 1 } }

end Sys2Proof.Machine

namespace Sys2Proof.Tests

set_option Elab.async false

/-- s0:s1 = 0x20000, v1 = offsets 0 and 4, v5 = values; memory has 0x1234 at 0x20000 and 0xFF at 0x20004; s2:s3 names the fabric window of device 1. -/
def data : State := { (mapped.two.withV [(1, 0, 4), (5, 0xAABBCCDD, 0x80)]).withS [(0, 0x20000), (3, 0x80002000)] with
  mem := mapped.mem ++ [(0x20000, 0x34), (0x20001, 0x12), (0x20004, 0xFF)] }

/-- What a word does when it issues, and then what the step of its operation does. -/
def thenDoes (s : State) (i e : Instr) (n : Nat) (f : State → Bool) : Bool :=
  isReady s i && next (exec i s) fun u => u.ops.length == 1 && next (exec e { u with site := { n := n } }) f

/-! ### Ill-formed terms: one for each check of WellFormed -/

theorem test_wf_accepts : [Instr.sadd 0 3 4 5, .iadd 0 126 1 2, .exit].all (Instr.wellFormed 128) = true := by decide +kernel
/-- A step of the machine is no word. -/
theorem test_wf_word : (Instr.hotReset.isWord || Instr.hotReset.wellFormed 128) = false := by decide +kernel
/-- T code 4 of a scalar word is not assigned. -/
theorem test_wf_codes : (Instr.sadd 4 3 4 5).wellFormed 128 = false := by decide +kernel
/-- COND 0xA of BRS is not assigned. -/
theorem test_wf_cond : (Instr.brs 0xA 1).wellFormed 128 = false := by decide +kernel
/-- SCOPE 7 of a fence is reserved (R261). -/
theorem test_wf_fields : (Instr.fenceAcq 7).wellFormed 128 = false := by decide +kernel
/-- Register v20 of a team with 16 registers (R79). -/
theorem test_wf_regs : (Instr.iadd 0 20 1 2).wellFormed 16 = false := by decide +kernel
/-- An odd register names no pair (R78). -/
theorem test_wf_pair : (Instr.sadd64 3 4 6).wellFormed 128 = false := by decide +kernel

/-- Words of these instructions, their fields placed by hand from the encoding tables, decode to them. -/
theorem test_decode_prefix_words : ([
  (0x00000000, .nop),
  (0x019C7ACB, .imx 10255051),
  (0x02000009, .grd 1 1)] : List (W32 × Instr)).all reads = true := by decide +kernel

/-- Words of these instructions, their fields placed by hand from the encoding tables, decode to them. -/
theorem test_decode_control_words : ([
  (0x03038F59, .bra 233305),
  (0x049671EB, .brs 9 422379),
  (0x05B2CE3D, .brv 1 3 183869),
  (0x06038F59, .call 233305),
  (0x07003200, .ret 25),
  (0x08038F59, .mark 233305),
  (0x09000000, .join),
  (0x09000001, .elseW),
  (0x09000002, .exit)] : List (W32 × Instr)).all reads = true := by decide +kernel

/-- Words of these instructions, their fields placed by hand from the encoding tables, decode to them. -/
theorem test_decode_scalar_words : ([
  (0x0A35FA38, .sadd 1 43 61 7),
  (0x0A35FA39, .ssub 1 43 61 7),
  (0x0A35FA3A, .smul 1 43 61 7),
  (0x0A35FA3B, .smulh 1 43 61 7),
  (0x0A35FA3C, .sdiv 1 43 61 7),
  (0x0A35FA3D, .smin 1 43 61 7),
  (0x0A35FA3E, .smax 1 43 61 7),
  (0x0B0CD7E8, .sand 25 43 61),
  (0x0B0CD7E9, .sor 25 43 61),
  (0x0B0CD7EA, .sxor 25 43 61),
  (0x0B0CD7EB, .sshl 25 43 61),
  (0x0B0CD7EC, .sshr 25 43 61),
  (0x0B0CD7ED, .ssra 25 43 61),
  (0x0B0CD7EE, .ssel 25 43 61),
  (0x0B0CD607, .smov 25 43),
  (0x0C35FA38, .scmp 1 43 61 7 0),
  (0x0D0CD7E8, .sadd64 25 43 61),
  (0x0E6401EB, .sli 25 491),
  (0x0F66BE3D, .saddImmediate 25 43 3645),
  (0x1066B01D, .sshlImmediate 25 43 29),
  (0x1066B41D, .sshrImmediate 25 43 29),
  (0x1066B81D, .ssraImmediate 25 43 29),
  (0x1166B03D, .slane 25 43 61),
  (0x1101926B, .sbcast 25 107),
  (0x11640403, .voteAny 25 3),
  (0x11640603, .voteAll 25 3),
  (0x1166B805, .voteBallot 25 43 5),
  (0x11640A03, .popm 25 3)] : List (W32 × Instr)).all reads = true := by decide +kernel

/-- Words of these instructions, their fields placed by hand from the encoding tables, decode to them. -/
theorem test_decode_sequencer_words : ([
  (0x12000009, .bar 9),
  (0x1264040B, .arrive 25 11),
  (0x1201980B, .await 25 11),
  (0x13000001, .prio 1),
  (0x13000400, .yield),
  (0x146401EB, .sysr 25 491),
  (0x140195EB, .sysw 25 491),
  (0x15000059, .trap 89),
  (0x15000400, .tfence),
  (0x15000800, .tret),
  (0x16000059, .reform 89)] : List (W32 × Instr)).all reads = true := by decide +kernel

/-- Words of these instructions, their fields placed by hand from the encoding tables, decode to them. -/
theorem test_decode_other_words : ([
  (0x1C956000, .qbind 9 43),
  (0x1D9D7D00, .qpush 9 107 29),
  (0x1D9D7D01, .qpushTeam 9 107 29),
  (0x1E9D7D0E, .qpop 9 107 29 7),
  (0x1E9D7D0F, .qpopTeam 9 107 29 7),
  (0x1F9D7D0E, .qtry 9 107 29 7),
  (0x1F9D7D0F, .qtryTeam 9 107 29 7)] : List (W32 × Instr)).all reads = true := by decide +kernel

/-- Words of these instructions, their fields placed by hand from the encoding tables, decode to them. -/
theorem test_decode_float_words : ([
  (0x203ADEC7, .fadd 1 107 61 71),
  (0x213ADEC7, .fsub 1 107 61 71),
  (0x223ADEC7, .fmul 1 107 61 71),
  (0x233ADEC7, .ffma 1 107 61 71),
  (0x243ADEC7, .fmin 1 107 61 71),
  (0x253ADEC7, .fmax 1 107 61 71),
  (0x263ADEC7, .fdiv 1 107 61 71),
  (0x273ADEC7, .fdot2 1 107 61 71),
  (0x283ADEC7, .fsgn 1 107 61 71),
  (0x293ADEC7, .fsgnNeg 1 107 61 71),
  (0x2A3ADEC7, .fsgnXor 1 107 61 71),
  (0x2B3763B8, .fcmp 1 11 5 71 56),
  (0x2CB3AE80, .frcp 89 107 5),
  (0x2CB3AE88, .frsq 89 107 5),
  (0x2CB3AE90, .fsqrt 89 107 5),
  (0x2CB3AE98, .fex2 89 107 5),
  (0x2CB3AEA0, .flg2 89 107 5),
  (0x2CB3AEA8, .fsin 89 107 5),
  (0x2CB3AEB0, .fcos 89 107 5),
  (0x2CB3AEB8, .fclass 89 107 5),
  (0x2DB3AEF0, .frnd 89 107 5 7),
  (0x2EB3AEB8, .fcvt 89 107 5 7 0),
  (0x2FB3AFC7, .icvt 89 107 1 7 0 7)] : List (W32 × Instr)).all reads = true := by decide +kernel

/-- Words of these instructions, their fields placed by hand from the encoding tables, decode to them. -/
theorem test_decode_integer_words : ([
  (0x303ADEC7, .iadd 1 107 61 71),
  (0x313ADEC7, .isub 1 107 61 71),
  (0x323ADEC7, .imul 1 107 61 71),
  (0x333ADEC7, .imulh 1 107 61 71),
  (0x343ADEC7, .imad 1 107 61 71),
  (0x353ADEC7, .imin 1 107 61 71),
  (0x363ADEC7, .imax 1 107 61 71),
  (0x373ADEC7, .ishl 1 107 61 71),
  (0x383ADEC7, .ishr 1 107 61 71),
  (0x393ADEC7, .isra 1 107 61 71),
  (0x3A3ADEC7, .iand 1 107 61 71),
  (0x3B3ADEC7, .ior 1 107 61 71),
  (0x3C3ADEC7, .ixor 1 107 61 71),
  (0x3D3763B8, .icmp 1 11 5 71 56),
  (0x3EB3AE80, .iabs 89 107 5),
  (0x3EB3AE90, .inot 89 107 5),
  (0x3EB3AEA0, .ipop 89 107 5),
  (0x3EB3AEB0, .iclz 89 107 5)] : List (W32 × Instr)).all reads = true := by decide +kernel

/-- Words of these instructions, their fields placed by hand from the encoding tables, decode to them. -/
theorem test_decode_lane_words : ([
  (0x3F3ADEC7, .vsel 1 107 61 71),
  (0x403ADE80, .vmov 1 107 61),
  (0x41B201EB, .vli 89 491),
  (0x423ADEC7, .lperm 1 107 61 71),
  (0x43B3AFC0, .lred 89 107 1 7 0),
  (0x44B3AFC4, .lscan 89 107 1 7 0 1),
  (0x451675BD, .sgnq 89 107 61),
  (0x461675BD, .sgnx 89 107 61),
  (0x47B3AD80, .pack 89 107 1 1 0),
  (0x48B3AD40, .unpk 89 107 1 1)] : List (W32 × Instr)).all reads = true := by decide +kernel

/-- Words of these instructions, their fields placed by hand from the encoding tables, decode to them. -/
theorem test_decode_memory_words : ([
  (0x503ADE9D, .ld 1 107 61 7 0 1),
  (0x513ADE9C, .st 1 107 61 7 0),
  (0x523ADE9C, .lds 1 107 61 7 0),
  (0x533ADE9C, .sts 1 107 61 7),
  (0x542AC076, .ldk 1 43 29 1 0),
  (0x553ADE9D, .ldb 1 107 61 7 0 1),
  (0x56002CAD, .pref 89 11 1),
  (0x57000401, .fenceAcq 1),
  (0x57000801, .fenceRel 1),
  (0x57000C01, .fenceAr 1),
  (0x582057E8, .cinv 1 43 61),
  (0x582057E9, .cwb 1 43 61),
  (0x59003358, .rrinv 25 43),
  (0x5A640000, .spchk 25),
  (0x5B35FA38, .mwait 1 43 61 7 0),
  (0x5C164000, .pmap 89),
  (0x5C364000, .pmapRd 89),
  (0x5D000000, .pmiss),
  (0x5E000000, .pret)] : List (W32 × Instr)).all reads = true := by decide +kernel

/-- Words of these instructions, their fields placed by hand from the encoding tables, decode to them. -/
theorem test_decode_copy_words : ([
  (0x609BD8F8, .amo 9 1 61 71 24),
  (0x610EB7A7, .acas 1 107 61 7),
  (0x62059D7D, .acas2 89 107 29),
  (0x639BD8F8, .red 9 1 61 71 24),
  (0x640EB7A7, .redx 1 107 61 7),
  (0x650EB7A7, .ald 1 107 61 7),
  (0x660EB7A7, .ast 1 107 61 7),
  (0x67900D7D, .apin 9 107 29)] : List (W32 × Instr)).all reads = true := by decide +kernel

/-- Words of these instructions, their fields placed by hand from the encoding tables, decode to them. -/
theorem test_decode_matrix_words : ([
  (0x68CD6C00, .rbind 25 43 1 1 0),
  (0x69CDAA00, .rdrain 25 1 1 1 0 1 0 5),
  (0x6A320000, .rwait 25),
  (0x6A720000, .rfree 25),
  (0x6AB35800, .rstat 25 43),
  (0x6B038F59, .cyield 233305),
  (0x6B400000, .cyieldOff),
  (0x6B99AC00, .rseed 25 43),
  (0x6C1AFD00, .mclaim 1 43 61),
  (0x6C502B00, .mrelease 1 43),
  (0x6D006400, .mgang 25),
  (0x6D59AC00, .mstat 25 43),
  (0x6E335DC0, .mload 25 43 1 7),
  (0x6EB35DC0, .mloadc 25 43 1 7),
  (0x6F32CB80, .mtable 25 3 1 7),
  (0x6FB2D800, .mcbook 25 3 1 1 0)] : List (W32 × Instr)).all reads = true := by decide +kernel

/-- Words of these instructions, their fields placed by hand from the encoding tables, decode to them. -/
theorem test_decode_ray_words : ([
  (0x7035EB80, .mma 1 43 13 7),
  (0x70B5E800, .mmac 1 43 13),
  (0x71100000, .mzero 1),
  (0x715DE8E0, .mrd 1 3 61 7),
  (0x719DE8E0, .mwr 1 3 61 7),
  (0x7266B78C, .mst 25 43 1 7 0 1 4),
  (0x7332C000, .mtrq 25 3),
  (0x73800000, .mfence),
  (0x749AEE00, .hbind 9 43 1 7),
  (0x759AC000, .hlog 9 43),
  (0x769D7700, .hreplay 9 107 1 7),
  (0x7719BD00, .hstat 25 11 13),
  (0x7759AC00, .hinv 25 43),
  (0x77800000, .hinvAll)] : List (W32 × Instr)).all reads = true := by decide +kernel

/-- Words of these instructions, their fields placed by hand from the encoding tables, decode to them. -/
theorem test_decode_launch_words : ([
  (0x7866B060, .launch 25 43 1 1 0),
  (0x79190006, .evsig 25 3),
  (0x7959AC0A, .evadd 25 43 5),
  (0x7999AC0A, .evwait 25 43 5),
  (0x7A000000, .idemClr),
  (0x7A590000, .idemRd 25),
  (0x7B006400, .rqbindAttach 25),
  (0x7B406400, .rqbindDetach 25),
  (0x7B99AC00, .rqbindStat 25 43)] : List (W32 × Instr)).all reads = true := by decide +kernel

/-- Words of these instructions, their fields placed by hand from the encoding tables, decode to them. -/
theorem test_decode_remote_words : ([
  (0x7C3ADE87, .rstw 1 107 61 7),
  (0x7C7ADEB8, .rred 1 107 61 7 0),
  (0x7CBADEB8, .ramo 1 107 61 7 0),
  (0x7D0CD600, .aflush 25 43),
  (0x7D2C8000, .aflushAll 25),
  (0x7D4C8000, .afstatFail 25),
  (0x7D4CA000, .afstatPend 25),
  (0x7D6CDFA0, .rsvs 25 11 61),
  (0x7D920000, .rsvsRet 9),
  (0x7DB3AE80, .rrpush 9 107 5),
  (0x7E0CD600, .cplan 25 43),
  (0x7E003201, .cplanFree 25),
  (0x7E203200, .cstart 25),
  (0x7E4CD600, .cwait 25 43),
  (0x7E6CD605, .cstat 25 43 5),
  (0x7E803200, .ccancel 25),
  (0x7EACD7EF, .tenc 25 43 61 7),
  (0x7ECCD7E8, .tdec 25 43 61)] : List (W32 × Instr)).all reads = true := by decide +kernel

/-! ### Decoding, steps, reset, exceptions -/

theorem witness_EncodedWordDecodesBack : encodeWord 1 (.sadd 0 3 4 5) = some 0x8A018828 ∧ encodeWord 0 .exit = some 0x09000002 := by decide +kernel

theorem witness_DecodedWordHasOneEncoding : reads (0x8A018828, .sadd 0 3 4 5) = true := by decide +kernel

/-- An unassigned opcode in slot 1; BRS with an unassigned condition; TRET in user state; SCOPE 7; an odd pair (R82, R84, R85). -/
theorem witness_IllegalWords : (match decode 0x7F000000 with | .error .unassigned => true | _ => false) = true ∧
    (placed State.reset 0x7F000000).team.word = 0x7F000000 ∧
    ([(Instr.brs 0xA 1, 3), (.tret, 5), (.fenceAcq 7, 6), (.sadd64 3 4 6, 7)].all fun e =>
      illegal (usage e.1) base.team false == some e.2 && next (exec e.1 base) fun u => u.team.x.code == BitVec.ofNat 8 e.2 && u.team.r == base.team.r) = true ∧
    (next (wordStep (placed State.reset 0x7F000000)) fun u => u.team.x.code == 3 && u.team.x.xval == 0x7F000000 && u.team.x.xpc == 0x10004) = true := by
  decide +kernel

/-- SADD s3, s4, s5 in the state of log entry 5, and the same after an IMX. -/
theorem witness_StepRunsTheDecodedWord : (let s := placed State.reset 0x0A018828
    let p : State := s.mapTeam fun t => { t with pfx := { imm := some 1, pc := some 0x10004 } }
    midClause s.sent && midClause p.sent && s.agenda.isEmpty && !chainBit s.team.word && reads (s.team.word, .sadd 0 3 4 5) &&
    next (step s) (fun u => u.team.pc == 0x10008 && u.tick == 1) && next (step p) fun u => u.team.sup) = true := by decide +kernel

theorem witness_GroupedWordsReadOldValues :
    (let g : Group := { first := 0, r := { s := [(3, 7)] }, busy := 0, m := 5, sup := false, stamp := 0, ctl := .next }
     let t : Team := { base.team with group := some g }
     (t.setS 3 9).getS 3 == 7 && ({ t with m := 1 } : Team).mSrc == 5) = true := by decide +kernel

/-- SYSR CYCLE's step, and that of a plain store's return, keep memory canonical at a state that lists bytes. -/
theorem witness_StepKeepsMemoryCanonical : mapped.memWf ∧ (next (step mapped) fun u => smWf memDefault u.mem) = true := by decide +kernel

/-- XVEC 0x40000; a fault of the first two lanes (R155). -/
theorem witness_TakingAnException : (let s := base.mapTeam fun t => { t with x := { t.x with xvec := 0x40000 } }
    let u := s.enterHandler 0x10004 { code := 0x20, detail := 1, val := 5, mask := some 3 }
    !s.team.sup && pcOk s.team.x.xvec && u.team.pc == 0x40000 && u.team.m == 3 && u.team.x.saved == fullMask 32 && u.team.sup &&
    s.inSup.team.sup && !(s.inSup.enterHandler 0x10004 { code := 0x20 }).team.id.alive) = true := by decide +kernel

theorem witness_ReturnFromException : (let s := base.inSup.mapTeam fun t => { t with x := { t.x with xpc := 0x20008, saved := 5 } }
    let b := base.inSup.mapTeam fun t => { t with x := { t.x with xpc := 2 } }
    [Instr.tret, .pret].all (fun i => runs s i fun u => u.team.pc == 0x20008 && u.team.m == 5 && !u.team.sup) && isReady b .tret &&
    next (exec .tret b) fun u => !u.team.id.alive) = true := by decide +kernel

/-- A word of slot 1 goes on at slot 2; one of slot 3 at the next clause; STEP; a quantum of one word. -/
theorem witness_WordEnd : (let last := base.mapTeam fun t => { t with pc := 0x1000C }
    let st := base.mapTeam fun t => { t with dbg := { t.dbg with step := true } }
    let q := mapped.mapTeam fun t => { t with id := { t.id with quantum := some 1 } }
    base.team.group == none && pcSlot (pcNext base.team.pc) != 0 && pcOk 0x20000 && !pcOk 0x1000000000000 &&
    runs base .nop (fun u => u.team.pc == 0x10008 && u.team.clause.isSome) && runs last .nop (fun u => u.team.pc == 0x10010 && u.team.clause == none) &&
    (next (exec .nop st) fun u => u.team.sup && u.team.x.code == 0x12 && u.team.x.xpc == 0x10008) &&
    (usage (.ld 2 3 1 0 0 0)).counted && runs q (.ld 2 3 1 0 0 0) fun u => u.team.dq.count == 1 && u.team.dq.atEnd) = true := by decide +kernel

/-- A clause in memory at 0x20000 whose slot 1 is an IMX and slot 2 SLI s1; the team stands before it (R50, R73, R151). -/
def unfetched : State := { mapped with
  mem := mapped.mem ++ [(0x20000, 0x5C), (0x20001, 0xF0), (0x20002, 0x0F)]
  team := { mapped.team with clause := none, pc := 0x20000 }
  site := { crew := 1 } }

theorem witness_PrefixesAndClauseStart : (let s := base.withWords 0x01000ABC 0x0F040000; let g := base.withWords 0x02000009 0x30004000
    let u := unfetched; let tm := u.teamAt 16
    (prefFault s.team takesImx).isNone && next (exec (.imx 0xABC) s) (fun u => u.team.pfx.imm == some 0xABC && u.team.pc == 0x10008) &&
    (prefFault g.team fun u => u.guardable).isNone && next (exec (.grd 1 1) g) (fun u => u.team.pfx.grd == some (true, 1)) &&
    tm.key == 16 && canIssue u tm && tm.clause == none && tm.eng.acq == none && pcOk (pcClause tm.pc) &&
    lookup u tm.coreK 16 tm.id.ctx (pcClause tm.pc) .fetch tm.sup == .hit { e := 0x1FD, large := true } && !anyPoison u 0x20000 16 &&
    (clauseAt u (u.crew 1).since 0x20000 0x20000).fault == none &&
    next (exec .clauseStart u) fun u => u.team.pc == 0x20004 && (u.team.clause.map fun c => c.header) == some 0x000FF05C) = true := by decide +kernel

/-! ### The sequencer's words -/

/-- s4 = 7, s5 = 0xFFFFFFFF, s2 = 3: results by hand from R138 to R141. -/
def ints : State := base.withS [(2, 3), (4, 7), (5, 0xFFFFFFFF), (6, 0x80000000), (8, 1), (9, 2), (10, 0xFFFFFFFF), (11, 1)]

theorem test_ScalarWords : ([
    (Instr.sadd 0 1 4 5, 6), (.ssub 0 1 4 2, 4), (.smul 0 1 4 5, 0xFFFFFFF9), (.smulh 0 1 4 5, 0xFFFFFFFF), (.smulh 1 1 4 5, 6), (.smin 0 1 4 5, 0xFFFFFFFF),
    (.smin 1 1 4 5, 7), (.smax 0 1 4 5, 7), (.smax 1 1 4 5, 0xFFFFFFFF), (.sand 1 4 2, 3), (.sor 1 4 6, 0x80000007), (.sxor 1 4 2, 4), (.sshl 1 4 2, 56),
    (.sshl 1 4 5, 0), (.sshr 1 5 2, 0x1FFFFFFF), (.ssra 1 6 2, 0xF0000000), (.ssra 1 6 5, 0xFFFFFFFF), (.ssel 1 4 2, 3), (.ssel 2 4 6, 7), (.smov 1 4, 7),
    (.sli 1 0xFFF, 0xFFFFFFFF), (.saddImmediate 1 4 0xFFE, 5), (.sshlImmediate 1 4 4, 112), (.sshrImmediate 1 5 28, 15), (.ssraImmediate 1 6 31, 0xFFFFFFFF),
    (.sdiv 0 1 4 2, 2), (.sdiv 1 1 4 7, 0xFFFFFFFF), (.sdiv 0 1 6 5, 0x80000000), (.sdiv 0 1 5 2, 0), (.scmp 0 1 5 4 2, 1), (.scmp 1 1 5 4 2, 0)] :
      List (Instr × W32)).all (fun e => runs ints e.1 fun u => match e.1 with
        | .ssel d _ _ => u.team.sNow d.toNat == e.2
        | _ => u.team.sNow 1 == e.2) = true := by decide +kernel

/-- IDZ and OF of SDIV, SCC of SCMP, the sum of two pairs (R139 to R141). -/
theorem test_ScalarFlags : (runs ints (.sdiv 1 1 4 7) (fun u => u.team.asticky == flagIDZ) && runs ints (.sdiv 0 1 6 5) (fun u => u.team.asticky == flagOF) &&
    runs ints (.scmp 0 1 5 4 2) (fun u => u.team.scc == 0b010) &&
    runs ints (.sadd64 12 8 10) fun u => u.team.sNow 12 == 0 && u.team.sNow 13 == 4) = true := by decide +kernel

theorem witness_ScalarWords : ([Instr.sdiv 0 1 4 7, .sdiv 0 1 6 5, .sdiv 0 1 4 2, .scmp 0 1 4 5 0, .sadd64 12 8 10].all (isReady ints)) = true ∧
    ints.team.getS 7 = 0 ∧ ints.team.getS 6 = 0x80000000 := by decide +kernel

/-- A branch back by one clause; not taken; a call; a return to 0x20000, and one that is not aligned (R71, R135, R136). -/
theorem witness_BranchesAndCalls : (let s := (base.withS [(20, 0x20000), (22, 8)]).mapTeam fun t => { t with scc := 0b001 }
    runs s (.bra 0xFFFFF) (fun u => u.team.pc == 0xFFF0) && runs s (.brs 0 2) (fun u => u.team.pc == 0x10020) && runs s (.brs 1 2) (fun u => u.team.pc == 0x10008) &&
    runs s (.call 4) (fun u => u.team.pc == 0x10040 && u.team.sNow 62 == 0x10010 && u.team.sNow 63 == 0) && runs s .nop (fun u => u.team.r == s.team.r) &&
    runs s (.ret 20) (fun u => u.team.pc == 0x20000) && traps s (.ret 22) codePc 0 8) = true := by decide +kernel

/-- MARK, a divergent BRV, then the other side by ELSE and JOIN; the empty and the full stack; a BRV without an entry (R137). -/
theorem witness_DivergenceWords : (let full := base.mapTeam fun t => { t with join := List.replicate 32 { rj := 0, save := 0, other := 0, opc := 0 } }
    let s := ((base.withP 1 0xF).mapTeam fun t => { t with join := [{ rj := 0x30000, save := fullMask 32, other := 0, opc := 0 }] })
    let o := base.mapTeam fun t => { t with m := 0xF, join := [{ rj := 0x30000, save := fullMask 32, other := 0xFFFFFFF0, opc := 0x20000 }] }
    let e := base.mapTeam fun t => { t with m := 0xF, join := [{ rj := 0x30000, save := 0xFF, other := 0, opc := 0x20000 }] }
    runs base (.mark 2) (fun u => u.team.join == [{ rj := 0x10020, save := fullMask 32, other := 0, opc := 0 }]) && traps full (.mark 2) codeJoinOvf 0 (full.team.wordVal (.mark 2)) &&
    runs s (.brv 0 1 2) (fun u => u.team.m == 0xF && u.team.pc == 0x10020 && (u.team.join.map fun e => (e.other, e.opc)) == [(0xFFFFFFF0, 0x10008)]) &&
    runs base (.brv 0 0 2) (fun u => u.team.pc == 0x10020) && runs base (.brv 1 0 2) (fun u => u.team.pc == 0x10008) &&
    traps (base.withP 1 0xF) (.brv 0 1 2) codeJoinDiv 0 (s.team.wordVal (.brv 0 1 2)) && traps (o.withP 1 3) (.brv 0 1 2) codeJoinDiv 0 (s.team.wordVal (.brv 0 1 2)) &&
    traps base .elseW codeJoinUnf 0 (base.team.wordVal .elseW) && traps base .join codeJoinUnf 0 (base.team.wordVal .join) &&
    runs o .elseW (fun u => u.team.m == 0xFFFFFFF0 && u.team.pc == 0x20000) && runs o .join (fun u => u.team.m == 0xFFFFFFF0 && u.team.pc == 0x20000) &&
    runs e .elseW (fun u => u.team.pc == 0x30000) && runs e .join (fun u => u.team.m == 0xFF && u.team.join.isEmpty)) = true := by decide +kernel

/-- Four lanes end: the rest wait in OTHER, in SAVE, or in no entry; all lanes end (R137). -/
theorem witness_ExitEndsLanes : (let en : Mask → Mask → JoinEntry := fun s o => { rj := 0x30000, save := s, other := o, opc := 0x20000 }
    let s := fun j => base.mapTeam fun t => { t with m := 0xF, join := j }
    runs (s []) .exit (fun u => u.team.live == 0xFFFFFFF0 && u.team.m == 0xFFFFFFF0 && u.team.pc == 0x10008) &&
    runs (s [en 0xF 0, en 0xFF 0xF0]) .exit (fun u => u.team.m == 0xF0 && u.team.pc == 0x20000 && u.team.join == [en 0xFF 0]) &&
    runs (s [en 0xFF 0]) .exit (fun u => u.team.m == 0xF0 && u.team.pc == 0x30000 && u.team.join == [en 0xFF 0]) &&
    isReady base .exit && next (exec .exit base) fun u => !u.team.id.alive && u.team.live == 0) = true := by decide +kernel

theorem witness_CrossLaneWords : (let s := (base.withS [(1, 1), (2, 32), (3, 5)]).withV [(7, 70, 71)]; let v := s.withP 2 0x3
    runs s (.slane 9 1 7) (fun u => u.team.sNow 9 == 71) && runs s (.slane 9 2 7) (fun u => u.team.sNow 9 == 0) &&
    runs s (.sbcast 3 8) (fun u => u.team.vNow 8 31 == 5) && runs v (.voteAny 9 2) (fun u => u.team.sNow 9 == 1) && runs v (.voteAll 9 2) (fun u => u.team.sNow 9 == 0) &&
    runs v (.voteBallot 9 4 2) (fun u => u.team.sNow 9 == 3) && runs v (.voteBallot 9 2 2) (fun u => u.team.sNow 9 == 0) &&
    runs v (.popm 9 2) fun u => u.team.sNow 9 == 2) = true := by decide +kernel

/-- PRIO above the ceiling; SYSR of a narrow and of a wide register; SYSW; TRAP 7; TFENCE with nothing, with an enabled flag, and while an atomic is in
flight (R153, R155 to R159). -/
theorem witness_ClassSystemRegistersAndTraps : (let s := (base.withS [(1, 0x55)]).mapTeam fun t => { t with id := { t.id with ceil := 1 }, aenable := flagOF }
    let f : State := s.mapTeam fun t => { t with asticky := flagOF }
    let o : State := { s with ops := [{ id := 0, team := 16, crew := 1, gen := 0, flag := none, kind := .atomic { what := .redx, wide := false, d := 0, spad := false, lanes := [] } }], nextOp := 1 }
    runs s (.prio 3) (fun u => u.team.cls == 1) && runs s .yield (fun _ => true) && runs s (.sysr 2 0x007) (fun u => u.team.sNow 2 == flagOF.setWidth 32) &&
    sysWide 0x010 && runs s.inSup (.sysw 2 0x102) (fun u => u.team.x.xpc == 0) && runs s.inSup (.sysr 2 0x102) (fun u => u.team.sNow 2 == 0 && u.team.sNow 3 == 0) &&
    runs s (.sysw 1 0x007) (fun u => u.team.aenable == 0x55) && runs s .tfence (fun _ => true) && traps f .tfence codeArith 0 (flagOF.setWidth 64) &&
    waits o .tfence .fence && !gangBusy s 1 0 && isReady s (.trap 7) && next (exec (.trap 7) s) fun u => u.team.x.code == 0x10 && u.team.x.xval == 7 && u.team.x.xpc == 0x10008) = true := by decide +kernel

/-- Barrier 2 of a crew of one team, and of one of two; REFORM by key v3 (R146, R147, R149). -/
theorem witness_BarriersAndReform : (let o : State := { base with others := [(17, { base.team with id := { base.team.id with tno := 1 } })] }
    let s := base.withS [(1, 0xFFFFFFFF)]; let k := base.two.withV [(3, 9, 4), (5, 50, 51)]
    !memBusy base 16 && (base.crew 1).scope < 5 && base.team.arr 0 == none &&
    runs base (.arrive 9 2) (fun u => u.team.sNow 9 == 0 && ((u.crew 1).barrier 2).phase == 1) && runs o (.arrive 9 2) (fun u => ((u.crew 1).barrier 2) == { phase := 0, arrived := [0] }) &&
    runs s (.await 1 2) (fun _ => true) && waits base (.await 1 2) (.phase 2 0) && runs base (.bar 2) (fun u => ((u.crew 1).barrier 2).phase == 1) &&
    waits o (.bar 2) (.barrier 2) && base.liveTeams 1 == [0] && base.team.r.vpend.isEmpty &&
    runs ((k.mapTeam fun t => { t with live := 3 })) (.reform 3) (fun u => u.team.vNow 3 0 == 4 && u.team.vNow 3 1 == 9 && u.team.vNow 5 0 == 51 && u.team.vNow 5 1 == 50) &&
    traps (base.mapTeam fun t => { t with join := [{ rj := 0, save := 0, other := 0, opc := 0 }] }) (.reform 3) codeJoinDiv 0 (base.team.wordVal (.reform 3))) = true := by decide +kernel

/-! ### The vector engine's words -/

/-- Lanes 0 and 1 of the operands below: 1.0 and -0; 2.0 and +0; 3.0 and +0; halves; integers; NaN and infinity. -/
def vecs : State := base.two.withV [
  (1, 0x3F800000, 0x80000000), (2, 0x40000000, 0), (3, 0x40400000, 0), (5, 0x40003C00, 0), (6, 0x38004200, 0), (7, 0x40800000, 0x3FC00000), (8, 7, 0xFFFFFFFF),
  (9, 0x7FC00000, 0x7F800000), (11, 7, 0x80000000), (12, 3, 0xFFFFFFFF), (13, 1, 1), (14, 1, 40), (15, 2, 2), (16, 0x3F800000, 0x3F800000), (20, 0x11111, 1),
  (21, 2, 0), (22, 0x80017FFF, 0), (24, 0x3F800000, 0xC0400000)]

/-- A word leaves these values in register 10 of lanes 0 and 1, and these flags. -/
def gives (i : Instr) (x y : W32) (f : Flags) : Bool :=
  runs vecs i fun u => u.team.vNow 10 0 == x && u.team.vNow 10 1 == y && u.team.asticky == f && u.team.vNow 10 2 == 0 && u.team.r.s == vecs.team.r.s

/-- Sums, products, a division of zeros, signed zeros in a minimum and a maximum, signs (R217 to R219). -/
theorem witness_FloatArithmeticWords : (gives (.fadd 0 10 1 2) 0x40400000 0 0 && gives (.fsub 0 10 1 2) 0xBF800000 0x80000000 0 &&
    gives (.fmul 0 10 1 2) 0x40000000 0x80000000 0 && gives (.fdiv 0 10 1 2) 0x3F000000 0x7FC00000 flagNV && gives (.ffma 0 10 1 2) 0x40000000 0 0 &&
    gives (.fmin 0 10 1 2) 0x3F800000 0x80000000 0 && gives (.fmax 0 10 1 2) 0x40000000 0 0 && gives (.fmin 0 10 9 1) 0x3F800000 0x80000000 0 &&
    gives (.fsgn 0 10 1 2) 0x3F800000 0 0 && gives (.fsgnNeg 0 10 1 2) 0xBF800000 0x80000000 0 && gives (.fsgnXor 0 10 1 2) 0x3F800000 0x80000000 0 &&
    (unpackF .f32 0x7FC00000).isNan && !(unpackF .f32 0x3F800000).isNan && fCmpV (unpackF .f32 0x80000000) (unpackF .f32 0) == some .eq) = true := by decide +kernel

/-- 3 + 1 * 3 + 2 * 0.5 = 7; the square root of 4; classes; rounding 1.5; conversions, saturating (R112, R220 to R227). -/
theorem witness_FloatUnaryAndConversionWords : (runs vecs (.fdot2 2 3 5 6) (fun u => u.team.vNow 3 0 == 0x40E00000) &&
    runs vecs (.fsqrt 10 7 0) (fun u => u.team.vNow 10 0 == 0x40000000) && gives (.fclass 10 1 0) 64 8 0 && runs vecs (.frnd 10 7 0 0) (fun u => u.team.vNow 10 1 == 0x40000000) &&
    runs vecs (.frnd 10 7 0 1) (fun u => u.team.vNow 10 1 == 0x3F800000) && runs vecs (.fcvt 10 1 0 2 0) (fun u => u.team.vNow 10 0 == 0x3C00 && u.team.vNow 10 1 == 0x8000) &&
    gives (.icvt 10 8 0 0 0 0) 0x40E00000 0xBF800000 0 && gives (.icvt 10 9 1 0 0 0) 0 0x7FFFFFFF flagNV && gives (.icvt 10 2 1 0 0 0) 2 0 0 &&
    [Instr.frcp 10 1 0, .frsq 10 1 0, .fex2 10 1 0, .flg2 10 1 0, .fsin 10 1 0, .fcos 10 1 0].all (isReady vecs)) = true := by decide +kernel

theorem witness_IntegerLaneWords : (gives (.iadd 0 10 11 12) 10 0x7FFFFFFF 0 && gives (.isub 0 10 11 12) 4 0x80000001 0 && gives (.imul 0 10 11 12) 21 0x80000000 0 &&
    gives (.imulh 0 10 11 12) 0 0 0 && gives (.imulh 1 10 11 12) 0 0x7FFFFFFF 0 && gives (.imad 0 10 11 12) 21 0x80000000 0 && gives (.imin 0 10 11 12) 3 0x80000000 0 &&
    gives (.imax 0 10 11 12) 7 0xFFFFFFFF 0 && gives (.iand 0 10 11 12) 3 0x80000000 0 && gives (.ior 0 10 11 12) 7 0xFFFFFFFF 0 && gives (.ixor 0 10 11 12) 4 0x7FFFFFFF 0 &&
    gives (.ishl 0 10 11 12) 56 0 0 && gives (.ishr 0 10 11 12) 0 0 0 && gives (.isra 0 10 11 12) 0 0xFFFFFFFF 0 && gives (.iabs 10 11 0) 7 0x80000000 flagOF &&
    gives (.inot 10 11 0) 0xFFFFFFF8 0x7FFFFFFF 0 && gives (.ipop 10 11 0) 3 1 0 && gives (.iclz 10 11 0) 29 0 0) = true := by decide +kernel

/-- 7 < 3 and -2^31 < -1 as signed numbers; a NaN under an ordered condition (R230). -/
theorem witness_CompareWordsWriteAPredicate : (vecs.team.id.width ≤ 1024 && (vecs.team.eff &&& ~~~(fullMask 32)) == 0 &&
    runs vecs (.icmp 0 2 1 11 12) (fun u => u.team.pNow 1 0 == false && u.team.pNow 1 1) && runs vecs (.icmp 1 4 1 11 12) (fun u => smGet 0 u.team.r.p 1 == 1) &&
    runs vecs (.fcmp 0 2 1 9 1) (fun u => u.team.asticky == flagNV && u.team.r.p == []) && runs vecs (.fcmp 0 0 1 1 1) (fun u => smGet 0 u.team.r.p 1 == 3)) = true := by decide +kernel

theorem witness_SelectMovePermuteAndPack : (gives (.vsel 1 10 1 2) 0x40000000 0 0 && gives (.vmov 1 10 1) 0x3F800000 0x80000000 0 && gives (.vli 10 0x3FF) 0xFFFFFFFF 0xFFFFFFFF 0 &&
    gives (.lperm 1 10 11 14) 0x80000000 0 0 && vecs.team.r.vmarks.isEmpty && gives (.sgnx 10 15 16) 0x3F800000 0xBF800000 0 && gives (.pack 10 20 0 0 0) 0x21111 1 0 &&
    runs vecs (.unpk 10 22 0 0) (fun u => u.team.vNow 10 0 == 0x7FFF && u.team.vNow 11 0 == 0x8001) && runs vecs (.unpk 10 22 0 1) (fun u => u.team.vNow 11 0 == 0xFFFF8001) &&
    runs vecs (.sgnq 10 24 25) (fun u => u.team.vNow 10 0 == 2 && u.team.vNow 24 1 == 0x40000000 && u.team.vNow 25 0 == 0xBF800000 && u.team.vNow 25 1 == 0xBF800000) &&
    runs vecs (.pack 10 20 0 1 1) (fun u => u.team.vNow 10 0 == 0x27FFF && u.team.asticky == flagOF)) = true := by decide +kernel

theorem witness_ReduceAndScanWords : (gives (.lred 10 12 0 0 0) 2 2 0 && gives (.lscan 10 12 0 0 0 1) 3 2 0 && gives (.lscan 10 12 0 0 0 0) 0 3 0 && gives (.lred 10 11 0 0 2) 7 7 0 &&
    gives (.lred 10 1 1 0 0) 0x3F800000 0x3F800000 0) = true := by decide +kernel

/-! ### The load-store engine -/

theorem witness_LoadsIssue : ((addrCheck (memLanes data.team 0 1) 4 false).isNone && (match translateLanes data (memLanes data.team 0 1) .read with | .ok a => a.length == 2 | _ => false) &&
    runs data (.ld 2 9 1 0 0 0) (fun u => u.ops.length == 1 && smGet 0 u.team.r.vpend (9 * 32) == 1 && u.mem == data.mem) &&
    runs data (.ldb 2 9 1 1 0 0) (fun u => u.ops.length == 1) && runs data (.ldk 2 9 0 0 0) (fun u => smGet 0 u.team.r.spend 9 == 1) &&
    runs (data.mapTeam fun t => { t with m := 0 }) (.ld 2 9 1 0 0 0) (fun u => u.ops.isEmpty)) = true := by decide +kernel

/-- A store issues; one to the fabric window raises ADDR with detail 1, a misaligned one ALIGN with the size (R252, R253, R256). -/
theorem witness_StoresIssueOrFault : ((match translateLanes data (memLanes data.team 0 1) .write with | .ok a => a.length == 2 | _ => false) &&
    runs data (.st 2 5 1 0 0) (fun u => u.ops.length == 1 && u.mem == data.mem && u.team.r == data.team.r) && traps data (.st 2 5 1 1 0) codeAddr 1 0x8000200000000000 &&
    traps (data.withS [(0, 0x20001)]) (.st 2 5 1 0 0) codeAlign 4 0x20001 && data.team.id.quantum.isNone) = true := by decide +kernel

/-- The first lane alone: 0x1234 comes back; a load of bytes, signed: 0x34; a line that is poisoned leaves a marker; an operation of a retired generation is
discarded (R30, R254, R255). -/
theorem witness_LoadsReturn : (let s := data.mapTeam fun t => { t with m := 1 }; let p := { s with poison := [(0x20002, true)] }
    thenDoes s (.ld 2 9 1 0 0 0) (.loadReturn []) 0 (fun u => u.team.vNow 9 0 == 0x1234 && smGet 0 u.team.r.vpend (9 * 32) == 0 && u.ops.isEmpty) &&
    thenDoes s (.ld 0 9 1 0 1 1) (.loadReturn []) 0 (fun u => u.team.vNow 9 0 == 0x34) && opCurrent s { id := 0, team := 16, crew := 1, gen := 0, flag := none, kind := .rsvs {
      d := 0, q := 0, dev := 0, queue := 0, count := 0, job := 0, seq := 0, sent := 0 } } &&
    thenDoes p (.ld 2 9 1 0 0 0) (.loadReturn []) 0 (fun u => smGet none u.team.r.vmarks (vKey 9 0) == some (.data 0x20000)) &&
    loadValue 0 true [0xFF] == 0xFFFFFFFF && loadValue 1 false [0x34, 0x12] == 0x1234 &&
    next (exec (.ld 2 9 1 0 0 0) s) fun u => next (exec (.lateReturn []) (u.withCrew fun c => { c with gen := 5 })) fun v => v.ops.isEmpty && v.team.r == u.team.r) = true := by decide +kernel

theorem witness_StoresArePerformed : (thenDoes data (.st 2 5 1 0 0) .storeComplete 0 (fun u => plainByte u 0 0 0x20000 == 0xDD && plainByte u 0 0 0x20003 == 0xAA &&
    plainByte u 0 0 0x20004 == 0x80 && plainByte u 0 0 0x20008 == 0 && u.mem == data.mem && u.ops.isEmpty)) = true := by decide +kernel

/-- Cache words over the range of s0:s1 with s4 bytes and of the fabric window; SPCHK; MWAIT on the word 0x1234, equal and not (R259 to R265). -/
theorem witness_CacheWordsAndMemoryWait : (let n := data.withS [(4, 8)]; let big := data.withS [(1, 0x10000), (4, 8)]; let w := data.withS [(6, 0x1234)]
    let as := data.team.lanes.map fun k => (k, (0x20000 : W64))
    runs data (.pref 1 0 0) (fun u => u.mem == data.mem && u.team.r == data.team.r) && runs data (.cinv 0 0 4) (fun u => u.mem == data.mem) && runs data (.cwb 0 0 4) (fun u => u.dies == data.dies) &&
    runs n (.cinv 0 0 4) (fun _ => true) && runs n (.cwb 4 0 4) (fun u => u.team.r == n.team.r) && traps (data.withS [(0, 0xFFFFFFF8), (1, 0xFFFF), (4, 9)]) (.cwb 0 0 4) codeAddr 3 0xFFFFFFFFFFF8 &&
    traps n (.cinv 0 2 4) codeAddr 1 0x8000200000000000 && vaClass 0x8000200000000000 == .fabric && vaClass (big.team.getS64 0) != .localVa &&
    runs n (.rrinv 2 4) (fun u => u.rrc.isEmpty) && runs data (.spchk 9) (fun u => u.team.sNow 9 == 0) &&
    (addrCheck as 4 false).isNone && (match translateLanes data as .read with | .ok (x :: _) => !isHost x.pa | _ => false) && waits w (.mwait 1 9 0 6 0) .memory &&
    runs data (.mwait 1 9 0 6 0) (fun u => u.team.sNow 9 == 0x1234) && next (exec .mwaitWake (data.atPlace { crew := 1 })) fun u => u.progress == data.progress + 1) = true := by decide +kernel

/-- A walk asked for page 2 finds the large leaf, with A and D set already; a write of a page that is read-only faults; page 0x4000000 is absent (R278, R280). -/
theorem witness_PageWalks : (let w : Walk := { ctx := 0, vpn := 2, acc := 0, sup := false, team := 16, stands := .running }
    let s := fun w => { data with cores := [(0, { walks := [w] })] }; let ro : State → State := fun s => setHomeBytes s 0x10000 [0xDD, 0x01]
    ((coreWalks (s w) 0).find? (fun x => x.fault.isNone)) == some w && isMapped (((recWord (s w) 0 0).extractLsb' 9 43).toNat * 512) &&
    (match walk (s w) 0 0x20000 with | .leaf e _ _ => e == 0x1FD && (permFault e .read false).isNone | _ => false) &&
    next (exec .pageWalkComplete (s w)) (fun u => (u.core 0).walks.isEmpty && (u.core 0).tlb == [{ ctx := 0, vpn := 2, leaf := 0x1FD, large := true }]) &&
    (match walk (ro (s w)) 0 0x20000 with | .leaf e _ _ => permFault e .write false == some 1 | _ => false) &&
    next (exec .pageWalkComplete (ro (s { w with acc := 1 }))) (fun u => (u.core 0).walks == [{ w with acc := 1, stands := .shared, fault := some (codeProt, 1) }]) &&
    walk (s w) 0 (0x4000000 * 65536) == .absent && next (exec .pageWalkComplete (s { w with vpn := 0x4000000 })) fun u =>
      (u.core 0).walks == [{ w with vpn := 0x4000000, stands := .shared, fault := some (codePage, 1) }] && permFault 0x1F5 .read false == some 3) = true := by decide +kernel

theorem witness_TranslationAndCacheEvents : (let s := { data with dies := [(0, { regs := { inval := 1 } })] }
    next (exec (.tlbInvalidate 0x5FFF9) data) (fun u => (u.die 0).regs.inval == 0x50001) && (s.die 0).regs.inval.getLsbD 0 && s.ops.isEmpty &&
    next (exec .tlbInvalidateDone s) (fun u => (u.die 0).regs.inval.getLsbD 0 == false) && next (exec (.rrcstepsWrite 0xF) data) (fun u => (u.die 0).regs.rrcsteps == 8) &&
    data.crews.all (fun e => e.2.missing == 0) && next (exec (.missingDecrement 5) data) (fun u => (u.die 0).regs.missReg == 5) &&
    (let k := data.withCrew fun c => { c with state := .saved, handle := 9, crewno := 0, missing := 2, area := 0x100000 }
     next (exec (.missingDecrement 0x900000000) k) fun u => (u.crew 1).missing == 1 && home32 u 0x100018 == 1) &&
    next (exec .frameZeroed { data with zeroed := [0, 4] }) (fun u => u.zeroed == [4]) && next (exec (.lineReplacement (.l1 0 3)) data) (fun _ => true) &&
    (smGet {} (data.die 0).l2 3).dirty == 0 && next (exec (.lineReplacement (.l2 0 3)) data) fun u => u.mem == data.mem) = true := by decide +kernel

/-- Lane 0 with a PAGE fault of page 2, which is mapped by now; a lazy page at 0x20000000 with one frame, 0x40, in the pool (R282 to R287). -/
def faulted : State := (data.inSup.mapTeam fun t => { t with m := 1, eng := { t.eng with faddr := [(0, 0x22201)] } })

theorem witness_TranslationHandlerWords : (let f := faulted
    let l0 := setHomeBytes data 0x10008 [0x01, 0, 0x03]; let l1 := setHomeBytes l0 0x30000 [0x7E]
    let pool := setHomeBytes (setHomeBytes (setHomeBytes l1 0x1008 [0x00, 0x80]) 0x1014 [1]) 0x8000 [0x40]
    runs f (.pmapRd 10) (fun u => u.team.vNow 10 0 == (f.team.faddr 0).setWidth 32) && faddrCode (f.team.faddr 0) == codePage &&
    (match walk f 0 ((f.team.faddr 0).toNat / 65536 * 65536) with | .leaf _ _ _ => true | _ => false) && runs f (.pmap 10) (fun u => smGet 0 u.team.r.vpend (10 * 32) == 1) &&
    thenDoes f (.pmap 10) (.loadReturn []) 0 (fun u => u.team.vNow 10 0 == 0 && smGet 0 u.team.r.vpend (10 * 32) == 0 && u.ops.isEmpty) &&
    f.team.arr 1 == none && f.team.arr 3 == none && (f.crew 1).missing == 0 && runs f .pmiss (fun u => u.mem == f.mem) &&
    (match walk pool 0 0x20000000 with | .lazyLeaf _ _ => true | _ => false) && home32 pool 0x1010 != home32 pool 0x1014 &&
    (let r := pmapPage pool 0 0 0x2000 codePage 0; r.2 == (0, none) && r.1.zeroed == [0x40] && home32 r.1 0x1010 == 1 && homeByte r.1 0x30002 == 0x40)) = true := by decide +kernel

/-! ### Queue registers -/

/-- A register bound to the launch port with one result; one bound to record queue 5, which is OPEN, or CLOSED and empty. -/
def queued : State := (((base.two.withV [(1, 11, 12)]).withQ 1 { port := 4 }).withQ 2 { port := 4, results := [{ words := [7, 8, 0, 0] }] }).withQ 3 { port := 0x105 }

theorem witness_QueueWords : (let s : State := { queued with queues := [(5, { state := .opened, recs := [List.replicate 16 9] })] }
    let c : State := { queued with queues := [(5, { state := .closed })] }; let b := queued.withS [(4, 4), (5, 5)]
    portOk 4 && !portOk 5 && !qBusy b 0 (b.team.qreg 0) && qBusy b 2 (b.team.qreg 2) && runs b (.qbind 0 4) (fun u => (u.team.qreg 0).port == 4 && u.team.r == b.team.r) &&
    traps b (.qbind 0 5) codeQport 0 5 &&
    traps ((b.withS [(4, 0x201)]).mapTeam fun t => { t with id := { t.id with core := 40 } }) (.qbind 0 4) codeEng 0 (b.team.wordVal (.qbind 0 4)) && traps b (.qbind 2 4) codeQbusy 0 4 && runs (s.mapTeam fun t => { t with m := 0 }) (.qpush 3 1 15) (fun u => u.queues == s.queues) &&
    traps s (.qpush 0 1 15) codeQport 0 0 && queueOf s 0 5 && runs s (.qpush 3 1 15) (fun u => ((u.rq 5).recs.map fun r => r.getD 0 0) == [9, 11, 12]) &&
    runs s (.qpushTeam 1 1 15) (fun u => ((u.team.qreg 1).pushed.map fun p => (p.words.getD 0 0, p.lane)) == [(11, 0)]) &&
    (popCheck s (s.team.qreg 2) 4).isNone && (popCheck s (s.team.qreg 3) 16).isNone &&
    runs s (.qpop 2 10 3 1) (fun u => u.team.vNow 10 0 == 7 && u.team.vNow 11 0 == 8 && u.team.vNow 10 1 == 0 && smGet 0 u.team.r.p 1 == 1 && (u.team.qreg 2).results.isEmpty) &&
    runs s (.qpopTeam 3 10 15 1) (fun u => u.team.vNow 10 1 == 9 && (u.rq 5).recs.isEmpty && smGet 0 u.team.r.p 1 == 3) && runs s (.qtry 1 10 3 1) (fun u => u.team.r.v == s.team.r.v) &&
    runs c (.qpop 3 10 15 1) (fun u => u.team.r.v == s.team.r.v) && runs s (.qtryTeam 2 10 3 1) (fun u => u.team.vNow 10 1 == 7) && waits s (.qpop 1 10 3 1) .result) = true := by decide +kernel

/-! ### The tile copy engine and the scratchpad -/

/-- A descriptor at 0x21000: eight bytes from 0x20000 into the first window line of a scratchpad of eight lines (R317). s4:s5 names it; s6:s7 an illegal one. -/
def tiled : State := (((data.withS [(4, 0x21000), (6, 0x22000)]).withCrew fun c => { c with splen := 8 }) : State)

/-- The same with its descriptor in memory. -/
def bound : State := setHomeBytes (setHomeBytes (setHomeBytes tiled 0x21002 [2]) 0x21008 [8]) 0x21022 [1]

/-- Entry 3 bound to the tile, in a state. -/
def withEntry (st : RegionState) : State :=
  bound.withCrew fun c => c.setRegion 3 { desc := words64 (homeBytes bound 0x21000 64) 8, state := st, gen := 2 }

theorem witness_CopyWindowWords : (let f := withEntry .full; let l := withEntry .filling
    (match translateLanes bound (bound.team.lanes.map fun k => (k, 0x21000)) .read with | .ok (x :: _) => !anyPoison bound x.pa 64 | _ => false) && !memBusy bound 16 &&
    (tileFault (bound.crew 1) 3 (tileOf (words64 (homeBytes bound 0x21000 64) 8))).isNone &&
    runs bound (.rbind 3 4 0 0 0) (fun u => ((u.crew 1).region 3).state == .absent && ((u.crew 1).region 3).gen == 1) && runs bound (.rbind 3 4 2 0 0) (fun u => ((u.crew 1).region 3).state == .full) &&
    traps bound (.rbind 3 6 0 0 0) codeCpDesc 4 0x22000 && traps f (.rbind 3 4 0 0 0) codeCpState 3 3 && runs f (.rwait 3) (fun _ => true) && waits l (.rwait 3) .engine &&
    runs l (.rfree 3) (fun u => ((u.crew 1).region 3).state == .free && ((u.crew 1).region 3).gen == 3) && runs f (.rstat 3 9) (fun u => u.team.sNow 9 == 0x203) &&
    runs f (.cyield 2) (fun u => u.team.eng.cyield == some 0x10020) && runs f .cyieldOff (fun u => u.team.eng.cyield == none) && runs f (.rseed 4 6) (fun u => u.team.eng.seed == 0x21000)) = true := by
  decide +kernel

/-- LDS and STS at offsets 0 and 4, and beyond the eight lines; RDRAIN of the entry (R247, R329). -/
theorem witness_ScratchpadWordsIssue : (let s := bound.withS [(8, 0)]; let f := withEntry .full; let far := s.withS [(8, 1024)]
    (s.crew 1).regions.isEmpty && (memLanes s.team 4 1).all (fun a => spInRange (s.crew 1) a.2 4) && runs s (.lds 2 9 1 4 0) (fun u => u.ops.length == 1) &&
    runs s (.sts 2 5 1 4) (fun u => u.ops.length == 1) && runs far (.lds 2 9 1 4 0) (fun u => u.team.sp == { valid := true, wr := false, off := 1024 }) &&
    traps (s.withS [(8, 2)]) (.lds 2 9 1 4 0) codeAlign 4 2 && (match transPages f .write (tileOf ((f.crew 1).region 3).desc).pages with | (_, .ok l) => l == [(2, 0x20000)] | _ => false) &&
    runs f (.rdrain 3 0 0 0 0 0 0 0) (fun u => ((u.crew 1).region 3).state == .draining && u.ops.length == 1)) = true := by decide +kernel

/-- Eight bytes in one beat; then FULL; a window of eight bytes back to 0x20000. -/
theorem witness_FillsAndDrainsMoveTheTile : (let l := withEntry .filling
    let op : Nat → State := fun n => { l with ops := [{ id := 0, team := 16, crew := 1, gen := 0, flag := none, kind := .fill {
      entry := 3, gen := 2, pages := [(2, 0x20000)], done := n, leave := .free } }] }
    let f := (withEntry .draining).withCrew fun c => { c with scratch := [(0, 0x77), (7, 0x66)] }
    let d : State := { f with ops := [{ id := 0, team := 16, crew := 1, gen := 0, flag := none, kind := .drain {
      entry := 3, acc := none, sr := false, seed := 0, counter := 0, free := true, acq := false, rel := false, scope := 0, pages := [(2, 0x20000)], leave := .free } }] }
    mayPerform (op 0) { id := 0, team := 16, crew := 1, gen := 0, flag := none, kind := .fill { entry := 3, gen := 2, pages := [(2, 0x20000)], done := 0, leave := .free } } &&
    next (exec .fillBeat (op 0)) (fun u => smGet 0 (u.crew 1).scratch 0 == 0x34 && smGet 0 (u.crew 1).scratch 1 == 0x12 && smGet 0 (u.crew 1).scratch 4 == 0xFF) &&
    next (exec .fillComplete (op 8)) (fun u => ((u.crew 1).region 3).state == .full && u.ops.isEmpty) &&
    next (exec .drainComplete d) fun u => ((u.crew 1).region 3).state == .free && plainByte u 0 0 0x20000 == 0x77 && plainByte u 0 0 0x20007 == 0x66 && plainByte u 0 0 0x20001 == 0 &&
      plainByte u 0 0 0x20008 == 0) = true := by decide +kernel

/-! ### Scopes and atomics -/

theorem witness_Fences : (let o : State := { base with ops := [{ id := 0, team := 16, crew := 1, gen := 0, flag := none, kind := .store .plain [] }], nextOp := 1 }
    runs base (.fenceAcq 0) (fun _ => true) && !memBusy base 16 && runs base (.fenceRel 4) (fun u => u.team.r == base.team.r) && runs base (.fenceAr 6) (fun _ => true) &&
    spindleCount (flushTeam base 0 16 fun _ => true) 0 16 (fun _ => true) == 0 && memBusy o 16 && waits o (.fenceRel 0) .fence) = true := by decide +kernel

/-- Core 3's write buffer holds byte 0x20000; after a release at PKG and an acquire, core 5 of die 1 reads it. -/
theorem witness_ReleaseThenAcquireSeesTheStore : (let s : State := { data with cores := [(3, { wb := [(0x400, { data := 0xAB, valid := 1, dirty := 1 })] })] }
    (s.core 3).wb.all (fun e => e.2.dirty == e.2.valid) && wbByte (s.core 3).wb 0x400 0 == some 0xAB && (wbByte (s.core (coreKey 1 5)).wb 0x400 0).isNone &&
    (smGet {} (s.die 1).l2 0x400).dirty.getLsbD 0 == false && homeByte (releaseAt s 0 3 4) 0x20000 == 0xAB &&
    plainByte (acquireAt (releaseAt s 0 3 4) 1 5 4) 1 5 0x20000 == 0xAB) = true := by decide +kernel

/-- AMO.add of 5 to 0x1234, and the rest of the family, on the first lane's word (R294 to R302). -/
def one : State := data.mapTeam fun t => { t with m := 1 }

theorem witness_AtomicWordsIssue : (let as := one.team.lanes.map fun l => (l, laneAddr one.team 0 1 0 l)
    (addrCheck as 4 false).isNone && (match translateLanes one as .write with | .ok a => (hostFault one (.amo 0) a).isNone && (redPage one (.amo 0) a).isNone | _ => false) && one.team.id.quantum.isNone &&
    [Instr.amo 0 0 5 1 0, .red 3 0 5 1 0, .acas 0 6 1 0, .acas2 8 1 0, .ald 0 5 1 0, .ast 0 5 1 0].all (fun i => runs one i fun u => u.ops.length == 1 && u.mem == one.mem && u.team.r.v == one.team.r.v) &&
    runs (setHomeBytes one 0x10007 [0x10]) (.ald 0 5 1 0) (fun u => u.ops.length == 1) && isReady one (.redx 0 5 1 0) && runs one (.apin 0 1 0) (fun u => u.mem == one.mem && u.team.r == one.team.r) &&
    runs (one.mapTeam fun t => { t with m := 0 }) (.amo 0 0 5 1 0) (fun u => u.ops.isEmpty)) = true := by decide +kernel

/-- 0x1234 + 0xAABBCCDD = 0xAABBDF11 at the home, the old value in v5; the host's answer and its timeout (R299, R310, R311). -/
theorem witness_AtomicsArePerformed : (let s := one
    let h : State := { one with ops := [{ id := 0, team := 16, crew := 1, gen := 0, flag := none, kind := .atomic {
      what := .amo 0, wide := false, d := 5, spad := false, lanes := [{ lane := 0, va := 0x20000, pa := 2 ^ 51, x := 5, cmp := 0, rede := 0 }] } }] }
    thenDoes s (.amo 0 0 5 1 0) .atomicReturn 0 (fun u => leNat (homeBytes u 0x20000 4) == 0xAABBDF11 && u.team.vNow 5 0 == 0x1234 && homeByte u 0x20004 == 0xFF && u.ops.isEmpty) &&
    atNew { what := .amo 8, wide := false, d := 0, spad := false, lanes := [] } { lane := 0, va := 0, pa := 0, x := 5, cmp := 0, rede := 0 } 7 == (some 5, 0) &&
    h.ops.all (fun o => match o.kind with | .atomic a => a.lanes.all (fun l => atAtHost a l) | _ => false) && h.crews.all (fun e => e.2.state != .saved) &&
    next (exec (.hostAtomicCompletion .value 9) h) (fun u => u.team.vNow 5 0 == 9 && u.ops.isEmpty) &&
    next (exec (.hostAtomicTimeout false 0) h) fun u => smGet none u.team.r.vmarks (vKey 5 0) == some (.hostAtomic 3 0x20000)) = true := by decide +kernel

/-- A team at its quantum end with one deferred store commits. -/
theorem witness_QuantumCommitPerformsTheStores : (let s : State := (data.mapTeam fun t => { t with
      id := { t.id with quantum := some 1 }, dq := { t.dq with items := [.store 0x20000 0x20000 false [0x99]], atEnd := true, count := 1 } }).atPlace { crew := 1 }
    commitGoes s 1 && s.ops.isEmpty && crewTeams s 1 == [0] &&
    next (exec .dqCommit s) fun u => plainByte u 0 0 0x20000 == 0x99 && u.team.dq.items.isEmpty && !u.team.dq.atEnd && u.team.dq.count == 0) = true := by decide +kernel

/-! ### The matrix engine -/

/-- Slots 0 to 3, bank 0 and codebook 0 are claimed; the bank's element (0, 1) is 2.5. -/
def mats : State := (data.withS [(4, 0x20000), (6, 0x0101), (7, 0x0100), (8, 0), (9, 0x10003), (10, 0x0104), (12, 0x20100), (14, 0x100)]).withCrew fun c =>
  { c with mat := { slots := 0xF, banks := 1, cbs := 1, acc := [(1, 0x4004000000000000)] } }

theorem witness_MatrixClaimsAndStatus : (let g : State := { mats with others := [(17, { mats.team with id := { mats.team.id with tno := 1 } })] }
    let two := g.mapTeam fun t => { t with id := { t.id with crewTeams := 2 } }
    runs mats (.mclaim 0 20 8) (fun u => u.team.sNow 20 == 3) && runs mats (.mclaim 0 20 7) (fun u => u.team.sNow 20 == 1) && runs mats (.mclaim 1 20 6) (fun u => u.team.sNow 20 == 0 && u.matNow.banks == 3) &&
    rangeOf 1 0x0101 == some (1, 1) && runs mats (.mrelease 0 7) (fun u => u.matNow.slots == 0xE) && traps mats (.mrelease 0 8) codeMslot 0 0 &&
    runs two (.mgang 9) (fun u => u.team.eng.gang == 0x10003) && traps mats (.mgang 9) codeMgangx 1 0 && runs mats (.mstat 20 8) (fun u => u.team.sNow 20 == 0xF) &&
    runs mats .mfence (fun _ => true) && !gangBusy mats 1 0) = true := by decide +kernel

/-- MZERO, MRD of (0, 0) and (0, 1) as binary64 and as binary32, MWR from v4:v5, all over bank 0; MST of it to 0x20100; bank 1 is not claimed (R378 to R380). -/
theorem witness_AccumulatorWords : (mats.matNow.banks.getLsbD 0 && !mats.matNow.banks.getLsbD 1 &&
    runs mats (.mzero 0) (fun u => u.matNow.acc.isEmpty) && runs mats (.mrd 0 0 20 8) (fun u => u.team.vNow 21 1 == 0x40040000 && u.team.vNow 21 0 == 0) &&
    runs mats (.mrd 0 1 20 8) (fun u => u.team.vNow 20 1 == 0x40200000) && runs mats (.mwr 0 0 4 8) (fun u => smGet 0 u.matNow.acc 0 == 0xAABBCCDD00000000) &&
    vaClass (mstAddr 0x20100 0x100 8 1023) == .localVa && traps mats (.mzero 1) codeMslot 1 1 && isReady mats (.mst 12 14 0 0 0 0 0)) = true := by decide +kernel

theorem witness_OperandLoadsIssue : (let t := setHomeBytes mats 0x20100 (List.replicate 384 0)
    (mats.matNow.missing 0 128).isNone && (match transPages mats .read (rangePages 0x20000 128) with | (_, .ok l) => l == [(2, 0x20000)] | _ => false) &&
    runs mats (.mload 4 7 0 0) (fun u => u.ops.length == 1 && u.mem == mats.mem) && traps mats (.mload 4 8 0 0) codeMshape 8 0 && runs mats (.mcbook 4 0 2 0 0) (fun u => u.ops.length == 1) &&
    isReady mats (.mloadc 4 8 0 0) && isReady t (.mtable 12 0 0 0) && isReady mats (.mtrq 10 0)) = true := by decide +kernel

/-- MLOAD of one line into slot 0. -/
theorem witness_MatrixTransfersComplete : (thenDoes mats (.mload 4 7 0 0) .mloadComplete 0 (fun u => smGet 0 u.matNow.data 0 == 0x34 && smGet 0 u.matNow.data 1 == 0x12 && u.ops.isEmpty) &&
    mats.matNow.poison.isEmpty) = true := by decide +kernel

/-- A gang of teams 0 and 1 over bank 0: the first member's MMA waits at the latch, the second starts the operation; without a gang register; with a slot that is not
claimed (R355, R356, R360). -/
def ganged (st : ArrStatus) (desc : W32) : State :=
  let g : State := (mats.withS [(20, desc)]).mapTeam fun t => { t with id := { t.id with crewTeams := 2 }, eng := { t.eng with gang := 0x10003 } }
  let a : Arrival := { team := 1, gang := 0x10003, word := ((encodeParts (.mma 0 20 8 8)).map Prod.snd).getD 0, desc := desc, status := st }
  { g.withCrew fun c => { c with mat := { c.mat with latch := if st = .issued 0 then [] else [a] } } with
    others := [(17, { g.team with id := { g.team.id with tno := 1 } })] }

theorem witness_GangWordsMeetAtTheLatch : (traps mats (.mma 0 20 8 8) codeMgangx 2 0 && waits (ganged (.issued 0) 0x100) (.mma 0 20 8 8) .engine &&
    (isReady (ganged .waiting 0x100) (.mma 0 20 8 8) && next (exec (.mma 0 20 8 8) (ganged .waiting 0x100)) fun u => (u.matNow.ops.map fun o => (o.steps, o.desc)) == [(0, 0x100)]) &&
    traps (ganged .waiting 0x900) (.mma 0 20 8 8) codeMslot 0 9) = true := by decide +kernel

/-- An MMA of 8-bit integers over one K-block: two steps of 16; chosen, then done (R357, R361). -/
def arrayed (n : Nat) (l : Leave) (busy : Option (Nat × Nat)) : State :=
  let o : MatOp := { id := 0, word := ((encodeParts (.mma 0 20 8 8)).map Prod.snd).getD 0, desc := 0x100, gang := 0x10003, code := none, issued := true, steps := n, leave := l }
  { mats.withCrew fun c => { c with mat := { c.mat with ops := [o] } } with
    nextOp := 1
    cores := [(0, { array := busy })] }

theorem witness_ArrayPerformsTheSteps : ((chooseOp (arrayed 0 .free none) (readyOps (arrayed 0 .free none) 0 0)).isSome &&
    next (exec .arraySchedule (arrayed 0 .free none)) (fun u => (u.core 0).array == some (1, 0) && (u.arb 0).waiting.length == 1) &&
    (match siteArray (arrayed 1 .held (some (1, 0))) with | some (c, o) => c == 1 && o.total == 2 && !stepPoison (arrayed 1 .held (some (1, 0))).matNow o && !o.isC | none => false) &&
    next (exec .matrixComplete (arrayed 2 .held (some (1, 0)))) (fun u => (u.core 0).array == none && u.matNow.ops.isEmpty && u.matNow.acc == mats.matNow.acc)) = true := by decide +kernel

/-! ### The ray engine -/

/-- Register 1 bound to the ray port with a context at 0x20000 of one node; a context of zeros at 0x22000 has no nodes. -/
def rayed : State := (base.two.withQ 1 { port := 1 }).withS [(4, 0x21000), (6, 0x22000), (8, 0x21000), (10, 7), (11, 1), (12, 0x21001), (14, 7), (15, 1)]

theorem witness_RayWords : (let s : State := setHomeBytes { rayed with mem := data.mem, contexts := data.contexts, cores := data.cores } 0x21030 [1]
    traps base (.hlog 1 8) codeQport 0 0 && (s.team.qreg 1).port == 1 && rayCount s 1 0 1 == 0 && !memBusy s 16 &&
    runs s (.hlog 1 8) (fun u => (u.team.qreg 1).logBase == 0x21000 && (u.team.qreg 1).slotLog == 7) && traps s (.hlog 1 12) codeHlogx 1 0x21001 &&
    runs s (.hlog 1 20) (fun u => (u.team.qreg 1).logBase == 0) && runs s (.hstat 9 1 0) (fun u => u.team.sNow 9 == 0) && runs s (.hinv 4 10) (fun u => u.mem == s.mem) &&
    runs s .hinvAll (fun u => (u.core 0).node.isEmpty) && isReady s (.hbind 1 4 0 0) && isReady s (.hreplay 1 10 0 0)) = true := by decide +kernel

/-- A ray from TMIN = 0 to TMAX = 2. -/
def geo0 : RayGeom := { tmax := 0x4000000000000000, tmax0 := 0x4000000000000000 }

def seg0 : RaySeg := { org := [], dir := [], tmin := 0, tmax := 0x4000000000000000 }

/-- A ray of HANDLE 5 that has left the root and ends at its next move. -/
def ended (s : State) (g : RayGeom) : State := { s.withCrew fun c => { c with state := .run, rays := [{ team := 0, q := 1, handle := 5, tag := 0, geo := g, pos := { slot := 4 } }] } with
  site := { crew := 1, q := 1, n := 5 } }

/-- A TRACE without a context is answered with FAULT 0x11, an unknown KIND with 0x10, a RESUME and an ABORT of no ray. -/
theorem witness_RayRecords : (let rec' := fun (k : W32) => (base.withQ 1 { port := 1, pushed := [{ words := k :: List.replicate 15 0, lane := 0, stamp := 0 }] }).atPlace { crew := 1, q := 1 }
    (traceBad { port := 1 } (1 :: List.replicate 15 0)) == some (0x11, 0) && next (exec .trace (rec' 1)) (fun u => ((u.team.qreg 1).results.map fun r => r.words.getD 0 0) == [0x1104]) &&
    (recordBad (2 :: List.replicate 15 0)).isNone && (calledRay (rec' 2) 0).isNone && next (exec .resume (rec' 2)) (fun u => ((u.team.qreg 1).results.map fun r => r.words.getD 0 0) == [0x1304]) &&
    (recordBad (3 :: List.replicate 15 0)).isNone && next (exec .abort (rec' 3)) (fun u => (u.team.qreg 1).pushed.isEmpty) &&
    next (exec (.rayFetchReturn []) (ended (rec' 0) { geo0 with hit := some (1, 9) })) (fun u => ((u.team.qreg 1).results.map fun r => r.words.getD 0 0) == [0x11]) &&
    accepts seg0 none 0x3FF0000000000000 1 5 && !accepts seg0 none 0x4008000000000000 1 5 &&
    next (exec (.rayFetchReturn []) (ended (rec' 0) geo0)) (fun u => ((u.team.qreg 1).results.map fun r => (r.words.getD 0 0, r.handle)) == [(2, 5)])) = true := by decide +kernel

/-! ### The launch engine and crews -/

/-- A launch record: entry 0x10000, argument 0x77, one crew of one team of 32 lanes and 8 registers, CSCOPE package. -/
def launchRec : List W64 := [0x10000, 0x77, 1, 0, 0x2000000000000, 0, 0, 0]

/-- The same fed by record queue 2, FEED = 1 (INQ, INQV and FEED of word 3, UNITS 0). -/
def fedRecord : List W64 := [0x10000, 0x77, 0, 0x0014000200000000, 0x2000000000000, 0, 0, 0]

/-- Event 5 with 3, queues 1 (OPEN, one producer) and 3 (CLOSED) of context 0; s4 = 5, s5 = -10, s6 = 1, s7 = 3, s8 = 4; the record at 0x20000. -/
def launching : State := setHomeBytes { data.withS [(4, 5), (5, 0xFFFFFFF6), (6, 1), (7, 3), (8, 4)] with
  events := [(5, { count := 3, ctx := some 0 })]
  queues := [(1, { state := .opened, producers := 1 }), (3, { state := .closed })] } 0x20000 (launchRec.flatMap fun w => leBytes w.toNat 8)

/-- The record passes its checks; LAUNCH of an address that is not a multiple of 64, of a page without a translation, of a record of zeros (no crews and no queue: 0x0C). -/
theorem witness_LaunchEngine_record : (launchStatus launching 0 0 0 launchRec == 0 && isReady launching (.launch 20 0 0 0 0) &&
    (match readObject launching 0 0 0x20000 8 false with | (_, some w) => w == launchRec | _ => false)) = true := by decide +kernel
theorem witness_LaunchEngine : (let s := launching
    let brings := fun (s : State) (f : State → Bool) => thenDoes s (.launch 20 0 0 0 0) (.loadReturn []) 0 fun u => f u && u.ops.isEmpty && smGet 0 u.team.r.spend 21 == 0
    !memBusy s 16 && (firstDone s).isNone && runs s (.launch 20 0 0 0 0) (fun u => smGet 0 u.team.r.spend 20 == 1 && smGet 0 u.team.r.spend 21 == 1) &&
    brings (s.withS [(0, 0x20008)]) (fun u => u.team.sNow 20 == 2 && u.team.sNow 21 == 0) &&
    brings (s.withS [(0, 0x40000000)]) (fun u => u.team.sNow 20 == 3 && u.team.sNow 21 == 0) &&
    brings (s.withS [(0, 0x22000)]) (fun u => u.team.sNow 20 == 0xC && u.dies.isEmpty)) = true := by decide +kernel

/-- The count of event 5 after EVSIG, and after EVADD of -10, which clamps; event 4 is not of the context. -/
theorem witness_LaunchEngine_events : (let s := launching
    eventOf s 0 5 && !eventOf s 0 4 && !memBusy s 16 &&
    runs s (.evsig 4 0) (fun u => u.ops.length == 1 && (u.event 5).count == 3) &&
    thenDoes s (.evsig 4 0) (.loadReturn []) 0 (fun u => (u.event 5).count == 4 && u.team.asticky == 0 && u.ops.isEmpty) &&
    thenDoes s (.evadd 4 5 0) (.loadReturn []) 0 (fun u => (u.event 5).count == 0 && u.team.asticky == flagOF) &&
    traps s (.evsig 8 0) codeEvent 0 4 && runs s (.evwait 4 7 0) (fun u => u.events == s.events) && waits s (.evwait 4 8 0) (.event 5 4) &&
    runs s .idemClr (fun u => !(u.crew 1).idem) && runs s (.idemRd 20) (fun u => u.team.sNow 20 == 0) &&
    queueOf s 0 1 && queueOf s 0 3 && runs s (.rqbindAttach 6) (fun u => (u.rq 1).producers == 2) && traps s (.rqbindAttach 7) codeRqueue 1 3 &&
    runs s (.rqbindDetach 6) (fun u => (u.rq 1).producers == 0 && (u.rq 1).state == .closed) && traps s (.rqbindDetach 7) codeRqueue 2 3 &&
    thenDoes s (.rqbindStat 20 6) (.loadReturn []) 0 (fun u => u.team.sNow 20 == 0x40010000 && smGet 0 u.team.r.spend 20 == 0) &&
    thenDoes s (.rqbindStat 20 7) (.loadReturn []) 0 (fun u => u.team.sNow 20 == 0x80000000)) = true := by decide +kernel

/-- Five records of queue 2, the first of them added at cycle 0, fed to a launch of FEED = 1 of die 2. -/
def feeding : State := { base with
  queues := [(2, { state := .opened, fed := 2 ^ 30 + 1, recs := List.replicate 5 (List.replicate 16 0) })]
  dies := [(2, { clock := 4096, launches := [(0, { state := .running, gen := 1, words := fedRecord })] })]
  site := { q := 2 } }

/-- A cycle counter is at least the steps since reset. -/
theorem waited (s : State) (d n : Nat) (h : n ≤ (s.die d).clock) : n ≤ s.now d := Nat.le_trans h (Nat.le_add_right _ _)

/-- The record at a launch port whose CSCOPE is 0, refused with status 0x0E; queue 1 is sealed. -/
theorem witness_LaunchEngine_port : (
    let p : State := (base.withQ 1 { port := 4, pushed := [{ words := (launchRec.set 4 0).flatMap fun (w : W64) => [w.setWidth 32, (w >>> 32).setWidth 32], lane := 0, stamp := 0 }] }).atPlace {
      crew := 1, q := 1 }
    next (exec .launchPortRecord p) (fun u => ((u.team.qreg 1).results.map fun r => r.words) == [[0xE, 0, 0, 0]] && (u.team.qreg 1).pushed.isEmpty) &&
    lFeed fedRecord && lInq fedRecord == some 2 && (launchOf feeding (2 ^ 30 + 1)).isSome &&
    next (exec .systemSoftwareSeal (launching.atPlace { q := 1 })) (fun u => (u.rq 1).state == .closed)) = true := by decide +kernel

theorem witness_LaunchEngine_feed : (feeding.rq 2).added + 4096 ≤ feeding.now 2 := waited feeding 2 4096 (Nat.le_of_eq rfl)

/-- Slot 2 of core 0 written for crew 0 of a PENDING launch. -/
def bindable : State := { State.reset with
  dies := [(0, { launches := [(0, { state := .pending, gen := 1, words := launchRec })] })]
  cores := [(0, { slots := [(2, { lhandle := 1, rflen := 1 })] })]
  nextOp := 7
  site := { slot := 2, crew := 8 } }

/-- Crew 1 in slot 0, RUN, with a save area at 0x100000. -/
def seated (idem : Bool) : State := { base.withCrew fun c => { c with idem := idem, handle := 1, words := launchRec, area := 0x100000 } with
  cores := [(0, { slots := [(0, { valid := true, state := 2, crew := 1, area := 0x100000 })] })]
  site := { crew := 1 } }

theorem witness_CrewsComeAndGo : (
    !bindBad bindable 0 0 2 (bindable.row 0 2) && (bindsTo bindable (bindable.row 0 2)).isNone && slotThere 0 2 && bindBad bindable 0 0 2 { lhandle := 3 } &&
    next (exec .slotBind bindable) (fun b => (b.row 0 2).state == 1 && (b.crew 8).state == .starting && (b.row 0 2).cmd == 0 && (b.crew 8).spots.isEmpty &&
      next (exec .crewStart b) fun u => (u.crew 8).state == .run && (u.teamAt 128).pc == 0x10000 && (u.teamAt 128).getS64 60 == 0x77 && (u.teamAt 128).live == fullMask 32) &&
    next (exec .slotSave (seated false)) (fun b => (b.crew 1).state == .saving && mayCapture (stopEngines b 1) 1) && isMapped 0x100000 && isMapped 0x4FFFFF &&
    next (exec .slotDrop (seated true)) (fun u => (u.crew 1).state == .none && (u.row 0 0).state == 0 && !(u.row 0 0).valid) &&
    next (exec .crewEnd ((seated false).mapTeam fun t => { t with id := { t.id with alive := false } })) (fun u => (u.crew 1).state == .ended && (u.row 0 0).state == 0)) = true := by decide +kernel

/-- Crew 1 RESTORING from an image of its own without sections. -/
theorem witness_CrewsComeAndGo_restore : (let b := (seated false).withCrew fun c => { c with state := .restoring, gen := 4 }; let s := setHomeBytes b 0x100000 (imageHeader b 1 0)
    headerFits s (s.crew 1) && pendingOf s 1 == 0 && (match readImage s 1 with | some [] => true | _ => false) && engineRoom (loadSections 1 [] s) 1 && next (exec .crewRestore s) fun u => (u.crew 1).state == .run && (u.crew 1).gen == 5) = true := by decide +kernel

/-- A team of crew 1 that has waited for an event since cycle 0. -/
def longWait : State := { (seated false).mapTeam fun t => { t with cls := 2, sched := { t.sched with wait := some (.event 5 4) } } with dies := [(0, { clock := 1024, regs := { waitlim := 0 } })] }

theorem witness_CrewsComeAndGo_waitLimit : topClass (waiterClasses longWait 1) = some 2 := by
  have keys : teamKeys longWait 1 = [16] := by decide +kernel
  have late : 1024 ≤ longWait.now 0 := waited longWait 0 _ (Nat.le_of_eq rfl)
  have rest : (longWait.teamAt 16).id.alive = true ∧ (longWait.teamAt 16).id.die = 0 ∧ (longWait.teamAt 16).sched.blockedFrom = 0 ∧
    (longWait.teamAt 16).waits = true ∧ (longWait.crew 1).state = .run ∧ effClass longWait 1 0 = 2 ∧ (longWait.die 0).regs.waitlim = 0 := by decide +kernel
  obtain ⟨h1, h2, h3, h4, h5, h6, h7⟩ := rest
  simp only [waiterClasses, keys, List.filter, h2, h3, h4, h5, h7]
  generalize longWait.now 0 = n at late
  simp [late, h6, topClass]

/-! ### Reset, registers, the host, sparing, soft errors -/

/-- A state in use: a team, a crew, an event, memory; rollback counter 3, an image of version 2 in flash. -/
def used : State := { launching with board := { flash := { version := 2 }, rollback := 3 } }

/-- The digest of "abc", as FIPS 180-4 gives it. -/
theorem test_sha256 : beNat (sha256 [0x61, 0x62, 0x63]) = 0xBA7816BF8F01CFEA414140DE5DAE2223B00361A396177A9CB410FF61F20015AD := by decide +kernel

/-- Context 0 is of virtual function 2. -/
def owned : State := { (seated false) with contexts := [(0, { func := 2 })], funcs := [(2, { sqtail := 5, allow := 7 })], site := { n := 2 } }

theorem witness_ResetsAndTheEndOfFunctions : (
    ([.powerOnReset, .hotReset, .flrPhysicalFunction] : List Instr).all (fun i => next (exec i used) fun u => u.team == {} && u.crews.isEmpty && u.events.isEmpty && u.board.recovery) &&
    next (exec .d3hotEntry base) (fun u => u.board.power == 1) && anyLaunch bindable && next (exec .d3hotEntry bindable) (fun u => u == bindable) &&
    next (exec .d3hotExit { base with board := { power := 1 } }) (fun u => u.board.power == 0) && next (exec .d3coldEntry used) (fun u => u.board.power == 2 && u.crews.isEmpty) &&
    next (exec (.flashUpdate 4 {}) { used with board := { used.board with recovery := true } }) (fun u => u.board.recovery && u.board.flash.version == 4 && u.board.running == {}) &&
    next (exec (.flashUpdate 4 {}) used) (fun u => u == used) && next (exec (.attestationRequest 9) used) (fun u => u.board.leaf == 1 &&
      (match u.out with | [.attest n _ l _] => n == 9 && l == 0 | _ => false)) && next (exec (.attestationRequest 9) { used with board := { recovery := true } }) (fun u => u.out.isEmpty) &&
    next (exec (.attestationRequest 9) { used with board := { leaf := 2 ^ 20 } }) (fun u => u.out == [.refuseAttest]) && next (exec (.clockChange true) used) (fun u => (u.die 0).slow) &&
    next (exec .flrVirtualFunction owned) (fun u => (u.crew 1).state == .none && u.fn 2 == { allow := 7 }) &&
    next (exec .contextTeardown { base with dies := [(1, { comp := { plans := [(3, { used := true, ctx := 6 })] } })], site := { n := 6 } }) fun u => !(u.plan 1 3).used) = true := by decide +kernel

theorem witness_RegistersAndTheHost : (let s := base; let f := s.atPlace { n := 3 }; let r : State := { f with board := { recovery := true } }
    let l : LeaveReq := { who := .word 16, amps := 2, cls := 1 }
    let g : State := { s with dies := [(0, { arb := { waiting := [l] } })] }
    next (exec (.registerWrite 0x100 0x0000000019000000) s) (fun u => (u.arb 0).pool == 200) && next (exec (.registerWrite 0x100 0) s) (fun u => 40 ≤ (u.arb 0).pool) &&
    next (exec (.registerWrite 0x180 0x4000) s) (fun u => (u.die 0).regs.waitlim == 0x4000) && next (exec (.registerWrite 0x404 5) s) (fun u => (u.fab 0).rtimeout == 0x10000) &&
    next (exec (.registerWrite 0x408 0xFFFFF) s) (fun u => (u.fab 0).devno == 0x1FFFF) && next (exec (.registerWrite 0 0x1000) f) (fun u => (u.fn 2).sqbase == 0x1000) &&
    next (exec (.registerWrite 0 0x1000) r) (fun u => u == r) && next (exec (.hostSubmit 0) f) (fun u => (u.fn 3).sqtail == 0) && next (exec (.hostSubmit 7) r) (fun u => u == r) && next (exec (.registerWrite 0 0x40) (s.atPlace { n := 34 })) (fun u => (u.fn 2).atomics) &&
    next (exec (.cqheadWrite 7) f) (fun u => (u.fn 3).cqhead == 7) && next (exec .inboundAtomicop f) (fun u => u.out == [.unsupported 3]) &&
    nextGrant (g.arb 0) (g.now 0) == some l && next (exec .leaveGrant g) (fun u => (u.team.eng.leave == .held) && (u.arb 0).inuse == 2)) = true := by decide +kernel

theorem witness_SparingAndSoftErrors : (let s := base.atPlace { core := 3, q := 5, n := 1 }
    (s.die 0).regs.ras.base == 0 && corePosition (s.die 0) 3 == some 3 && next (exec .coreRetire s) (fun u => corePosition (u.die 0) 3 == some 40 && corePosition (u.die 0) 4 == some 4) &&
    next (exec .coreRetire { s with dies := [(0, { retired := [40, 41] })] }) (fun u => corePosition (u.die 0) 3 == none) &&
    next (exec .channelRetire s) (fun u => u.sparing.channels == [(5, 1, false)] && next (exec .channelCopyComplete u) fun v => v.sparing.channels == [(5, 1, true)]) &&
    next (exec .laneRetire s) (fun u => u.sparing.ports == [5] && smGet 0 u.sparing.lanes 5 == 1 && next (exec .fabricPortReturn u) fun v => v.sparing.ports.isEmpty) &&
    next (exec .fabricPortFailure s) (fun u => u.sparing.ports == [5]) && next (exec .wayRetire s) (fun u => smGet 0 u.sparing.ways 1 == 1) &&
    next (exec (.softError (.corrected 0 0)) s) (fun u => u.out == [.aer 0, .msix 0 1]) && (s.teamAt 16).key == 16 &&
    next (exec (.softError (.vreg 1 0 7 2)) s) (fun u => smGet none (u.teamAt 16).r.vmarks (vKey 7 2) == some .lane && (u.teamAt 16).r.vmarks.length == 1) &&
    next (exec (.softError (.scratch 1 9)) s) (fun u => smGet false (u.crew 1).spoison 8 && smGet false (u.crew 1).spoison 11 && !smGet false (u.crew 1).spoison 12) &&
    next (exec (.softError (.homeLine 0x20081)) s) (fun u => isPoison u 0x20080 && isPoison u 0x200FF && !isPoison u 0x20100) &&
    next (exec (.softError (.crewState 1)) s) (fun u => (u.crew 1).cause == some causeMce && !(u.teamAt 16).id.alive) &&
    next (exec (.softError (.unconfined 0 0)) s) (fun u => u.out == [.aer 2])) = true := by decide +kernel

/-! ### The fabric engine -/

/-- Job 5 of context 0. Lanes 0 and 1 of v2:v3 name offsets 0 and 8 of device 0, this one, of v4:v5 the odd offset 2; v6 holds values; P1 both lanes; s4 = 1 and s6:s7 = 2
slots of queue 9 of it. Register 1 is bound to port 3 with nothing reserved, register 2 with four slots, register 3 to no port. -/
def remote : State := ((((({ base.two with dies := [(0, { regs := { fab := { jobs := [(0, 0x8000000000000005)] } } })] } : State).withV [(2, 0, 8), (3, 0x80000000, 0x80000000), (4, 2, 2),
  (5, 0x80000000, 0x80000000), (6, 0x11, 0x22), (7, 0, 0)]).withS [(4, 1), (6, 2), (7, 0x09000000)]).withP 1 3).withQ 1 { port := 3 }).withQ 2 { port := 3, resv := 4, dest := some (0, 9), epoch := 6 }

/-- An element of the team waits in an open buffer. -/
def inserted : State := { remote with dies := [(0, { regs := { fab := { jobs := [(0, 0x8000000000000005)] } }, spindle := { bufs := [{
  dest := 0, job := 5, recs := false, first := 0, last := 0, items := [
  { team := 16, lane := 0, pc := 0x10004, body := .el 0x8000000000000000 0x11 kindStore false 0 none }] }] } })] }

theorem witness_RemoteWords : (let s := remote
    let put : Instr → Bool := fun i => runs s i fun u => ((u.spin 0).bufs.map fun b => (b.dest, b.job, b.items.map fun x => x.lane)) == [(0, 5, [0, 1])]
    (s.team.arr 2).isNone && (openRamo s).isNone && (remoteCheck [(0, 0x8000000000000000), (1, 0x8000000000000008)] (jobOf s 0 0) 8).isNone && put (.rstw 0 2 6 1) && put (.rstw 1 2 6 1) &&
    put (.rred 0 2 6 0 1) && put (.ramo 0 2 6 0 1) && runs s (.ramo 0 2 6 0 1) (fun u => u.ops.length == 1) && traps s (.rstw 0 4 6 1) codeAlign 4 0x8000000000000002 &&
    traps (s.withV [(3, 0, 0)]) (.rstw 0 2 6 1) codeAddr 2 0 && waits inserted (.aflush 20 5) .fence && waits inserted (.aflushAll 20) .fence &&
    runs inserted (.aflush 20 4) (fun u => u.team.sNow 20 == 0) && runs s (.aflushAll 20) (fun u => u.team.sNow 20 == 0) &&
    runs (s.mapTeam fun t => { t with rf := { unrep := 3 } }) (.afstatFail 20) (fun u => u.team.sNow 20 == 3 && u.team.rf.unrep == 0) && runs inserted (.afstatPend 20) (fun u => u.team.sNow 20 == 1) &&
    traps s (.rsvs 20 3 6) codeQport 0 0 && traps (s.withS [(6, 0)]) (.rsvs 20 1 6) codeRsvx 3 1 && runs s (.rsvs 20 1 6) (fun u => u.ops.length == 1 && u.net.length == 1 && smGet 0 u.team.r.spend 20 == 1) &&
    runs { s with unreach := [0] } (.rsvs 20 1 6) (fun u => u.team.sNow 20 == 0x90000000) && runs s (.rsvsRet 2) (fun u => (u.team.qreg 2).resv == 0) && traps s (.rrpush 1 6 1) codeRsvx 1 1 &&
    runs s (.rrpush 2 6 1) (fun u => (u.team.qreg 2).resv == 2 && ((u.spin 0).bufs.map fun b => (b.dest, b.recs, b.items.length)) == [(0, true, 2)])) = true := by decide +kernel

/-- The element of `inserted` in a buffer, in one that departs, in a packet on its way, with AGELIM and RTIMEOUT 0. -/
def aged (b : List SpBuf) (f : List Flight) : State := { remote with
  dies := [(0, { regs := { fab := { agelim := 0, rtimeout := 0, jobs := [(0, 0x8000000000000005)] } }, spindle := { bufs := b, flight := f, seqs := [(flowKey 0 5 false, 7)] } })]
  site := {} }

theorem witness_FabricEvents_departures : (let b := (inserted.spin 0).bufs
    let f : Flight := { seq := 4, dest := 1, job := 5, recs := false, items := (b.flatMap fun x => x.items), sent := 0 }
    next (exec .spindleAgeDepart (aged b [])) (fun u => ((u.spin 0).bufs.map fun x => x.departing) == [true]) &&
    next (exec .packetHandoff (aged (b.map fun x => { x with departing := true }) [])) (fun u => (u.spin 0).bufs.isEmpty && ((u.spin 0).flight.map fun x => (x.seq, x.dest)) == [(7, 0)] && u.net.length == 1) &&
    next (exec .packetTimeout (aged [] [f])) (fun u => (u.spin 0).flight.isEmpty && u.team.rf.count == 1 && u.team.asticky == flagRF) &&
    next (exec (.storeAcknowledgement { dev := 0, die := 0, src := 1, job := 5, recs := false, seq := 4, acks := [{ reason := 0, old := 0 }], flags := flagOF }) (aged [] [f])) (fun u => (u.spin 0).flight.isEmpty && u.team.asticky == flagOF) &&
    next (exec (.deviceUnreachable 1) (aged [] [f])) (fun u => u.unreach == [1] && (u.spin 0).flight.isEmpty && u.team.rf.count == 1)) = true := by decide +kernel

/-- Device 0 exports 4,096 bytes at 0x20000 to job 5 (EXPBASE and EXPLEN of the translation record). -/
def exporting : State := { data with
  mem := (mapped.mem.take 1) ++ [(0x102A, 2), (0x1031, 0x10)] ++ (mapped.mem.drop 1)
  dies := [(0, { regs := { fab := { jobs := [(0, 0x8000000000000005)] } } })]
  queues := [(9, { state := .opened, inb := true, job := 5, epoch := 1, held := 61, grants := [(8, 5, 2, 2)] })]
  site := { q := 9 } }

theorem witness_FabricEvents : (let s := exporting
    let p : StorePacket := { srcDev := 1, srcDie := 0, dstDev := 0, job := 5, seq := 2, elems := [({ off := 0x40, data := 0x1122, kind := kindStore, w := false, opn := 0 } : ElemFields).pack] }
    let r : Nat → RecordPacket := fun e => { srcDev := 1, srcDie := 0, dstDev := 0, job := 5, seq := 2, queue := 9, recs := [(e, List.replicate 16 7)] }
    let q : Nat → ResvRequest := fun j => { srcDev := 1, srcDie := 0, dstDev := 0, job := j, seq := 2, queue := 9, count := 4 }
    s.devno 0 == 0 && ctxOfJob s 5 == some 0 && (expBase s 0).toNat == 0x20000 && expLen s 0 == 0x1000 &&
    next (exec (.aggregatedStore p) s) (fun u => homeByte u 0x20040 == 0x22 && homeByte u 0x20041 == 0x11 && u.out == [.ack { dev := 1, die := 0, src := 0, job := 5, recs := false, seq := 2, acks := [{ reason := 0, old := 0 }], flags := 0 }]) &&
    next (exec (.recordPacket (r 1)) s) (fun u => (u.rq 9).recs.length == 1 && (u.rq 9).pool == 3) && next (exec (.recordPacket (r 2)) s) (fun u => (u.rq 9).recs.isEmpty && u.out.contains (.ack { dev := 1, die := 0, src := 0, job := 5, recs := true, seq := 2, acks := [{ reason := 10, old := 0 }], flags := 0 })) &&
    next (exec (.reservationRequest (q 5)) s) (fun u => (u.rq 9).pool == 0 && u.out == [.grant { dev := 1, die := 0, src := 0, job := 5, seq := 2, grant := 3, status := 0, epoch := 1 }]) &&
    next (exec (.reservationRequest (q 6)) s) (fun u => (u.rq 9).pool == 3 && u.out.contains (.grant { dev := 1, die := 0, src := 0, job := 6, seq := 2, grant := 0, status := 1, epoch := 1 })) &&
    next (exec (.reservationCancel { q 5 with request := 2 }) s) (fun u => (u.rq 9).pool == 5) &&
    next (exec (.reservationReturn { srcDev := 1, srcDie := 0, dstDev := 0, job := 5, seq := 2, queue := 9, count := 2, epoch := 1 }) s) (fun u => (u.rq 9).pool == 5) &&
    next (exec (.recordPacket (r 1)) { s with queues := [(9, { s.rq 9 with state := .closed })] }) (fun u => (u.rq 9).recs.isEmpty && (u.rq 9).held == 60) &&
    next (exec (.inbWrite 7) s) (fun u => !(u.rq 9).inb && (u.rq 9).state == .closed) && next (exec (.inbWrite 0x80000007) s) fun u => (u.rq 9).inb && (u.rq 9).job == 7 && (u.rq 9).epoch == 2 && (u.rq 9).pool == 64) = true := by decide +kernel

/-- An RSVS of register 1 for queue 9 of device 1 is on its way: what comes back, and what its timeout leaves. -/
def asking : State := { (aged [] [{ seq := 7, dest := 1, job := 5, recs := true, items := [], resv := some (0, 9, 2), sent := 0 }]).mapTeam fun t => t.sPend 20 1 1 with
  ops := [{ id := 0, team := 16, crew := 1, gen := 0, flag := none, kind := .rsvs { d := 20, q := 1, dev := 1, queue := 9, count := 2, job := 5, seq := 7, sent := 0 } }]
  nextOp := 1 }

theorem witness_FabricEvents_reservations : (let s := asking; let g : ResvGrant := { dev := 0, die := 0, src := 1, job := 5, seq := 7, grant := 2, status := 0, epoch := 0 }
    (rsvsOf s g).isSome && next (exec (.reservationGrant g) s) (fun u => u.ops.isEmpty && (u.team.qreg 1).resv == 2 && (u.team.qreg 1).dest == some (1, 9) &&
      u.team.sNow 20 == 2 && smGet 0 u.team.r.spend 20 == 0 && (u.spin 0).flight.isEmpty) &&
    next (exec .rsvsTimeout s) fun u => u.ops.isEmpty && u.team.sNow 20 == 0x80000000 && (u.team.qreg 1).dest == some (1, 9)) = true := by decide +kernel

/-! ### The compositing engine -/

/-- PLANID 7, two ranks, a chain of SUM of binary32 (ALG 1, OP 5, ETYPE 1), one unit; IN 0x22000, OUT 0x24000, ranks at 0x21000. -/
def object : List W64 := [0x1434F4C4C, 0x200000007, 0xA9, 1, 0x22000, 0x24000, 0x21000, 0]

/-- Rank 0 is die 0 of this device, rank 1 die 0 of device 1. -/
def ranks : List (Nat × Nat × Nat) := [(0, 0, 0), (1, 0, 1)]

/-- A registered plan in slot 3 (handle 0x01800002 in s4); the object at 0x20000, the rank table at 0x21000; s6:s7 = 0x23000, s8:s9 = 0x26000, s10:s11 = 0x26001. -/
def planned (st : Nat) (r : Run) : State := setHomeBytes (setHomeBytes { data.withS [(4, 0x01800002), (6, 0x23000), (8, 0x26000), (10, 0x26001)] with
  dies := [(0, { regs := { fab := { jobs := [(0, 0x8000000000000005)] } }, comp := { plans := [(3, {
    used := true, gen := 2, words := object, count := 4, state := st, flags := flagOF,
    run := { r with rank := 0, table := ranks } })] } })]
  site := { q := 3, crew := 1 } } 0x20000 (object.flatMap fun w => leBytes w.toNat 8)) 0x21008 [1, 0, 0, 0, 1]

theorem witness_CompositingWords : (let s := planned 2 {}; let b := planned 1 {}; let none' := s.withS [(4, 0x01800003)]
    let reg : State := { s with dies := [(0, { regs := { fab := { jobs := [(0, 0x8000000000000005)] } } })] }
    !memBusy s 16 && (planOf s 0 0x01800002).isSome && (planOf s 0 0x01800003).isNone &&
    isReady reg (.cplan 20 0) && (match planStatus reg reg.team.id false 0x20000 with | (_, .ok x) => x == (object, 0, ranks) | _ => false) &&
    runs reg (.cplan 20 0) (fun u => u.ops.length == 1 && smGet 0 u.team.r.spend 21 == 1) && thenDoes (reg.withS [(0, 0x20008)]) (.cplan 20 0) (.loadReturn []) 0 (fun u => u.team.sNow 20 == 2 && u.team.sNow 21 == 0) &&
    thenDoes s (.cplan 20 0) (.loadReturn []) 0 (fun u => u.team.sNow 20 == 0xC && u.ops.isEmpty) && traps none' (.cplanFree 4) codeChandle 0 0x01800003 && traps none' (.cwait 20 4) codeChandle 0 0x01800003 &&
    traps b (.cplanFree 4) codeChandle 1 0x01800002 && traps b (.cstart 4) codeChandle 1 0x01800002 && runs s (.cplanFree 4) (fun u => u.plan 0 3 == { gen := 2 }) &&
    (match readRanks s 0 0 false object with | (_, .ok x) => x == (0, ranks) | _ => false) && isReady s (.cstart 4) && waits b (.cwait 20 4) .run &&
    runs s (.cwait 20 4) (fun u => u.team.sNow 20 == 0x00010002 + 0x10000 * (flagOF.toNat - 1) && u.team.asticky == flagOF) && runs s (.cstat 20 4 1) (fun u => u.team.sNow 20 == 4) &&
    runs s (.cstat 20 4 2) (fun u => u.team.sNow 20 == 0) && runs s (.cstat 20 4 3) (fun u => u.team.sNow 20 == 0) && runs b (.ccancel 4) (fun u => (u.plan 0 3).state == 4) &&
    runs s (.tenc 20 6 8 0) (fun u => u.ops.length == 1 && smGet 0 u.team.r.spend 20 == 1) && runs s (.tdec 20 6 8) (fun u => u.ops.length == 1) && traps s (.tenc 20 10 8 0) codeAlign 128 0x26001) = true := by
  decide +kernel

/-- A plan has ended with this STATE and REASON. -/
def endsNow (p : Plan) (st why : Nat) : Bool := p.state == st && p.reason == why

/-- A rank table that names die 0 twice: CPLANX. -/
theorem witness_CompositingWords_cplanx : traps (setHomeBytes (planned 2 {}) 0x21008 [0]) (.cstart 4) codeCplanx 7 0x01800002 = true := by decide +kernel

/-- The die of a running plan at step 0x10000. -/
def stalled : State := { planned 1 {} with dies := (planned 1 {}).dies.map fun e => (e.1, { e.2 with clock := 0x10000 }) }

theorem witness_CompositingEvents_chunks : (let b := planned 1 { units := [(0, { fin := true })], sent := [(0, 1, 0)], unacked := [(0, 1, 0)] }
    let c : Chunk := { job := 5, planId := 7, run := 4, step := 0, src := 1, dst := 0, index := 0, digest := [], flags := 0, units := [] }
    (planById b 0 5 7).isSome && next (exec (.chunkArrival { c with run := 5 }) b) (fun u => u == b) &&
    next (exec (.chunkArrival { c with run := 3 }) b) (fun u => u.out == [.chunkAck 1 0 5 7 3 0 1 0]) && next (exec (.chunkArrival c) b) (fun u => (u.plan 0 3).state == 3 && (u.plan 0 3).reason == 4) &&
    next (exec .chunkAcknowledgement b) (fun u => (u.plan 0 3).state == 2 && (u.plan 0 3).reason == 0) && next (exec .runTimeout b) (fun u => u == b)) = true := by decide +kernel

/-- A run without progress since cycle 0, at cycle 0x10000 at least. -/
theorem witness_CompositingEvents_timeout : ((stalled.plan 0 3).run.last + pTimeout (stalled.plan 0 3).words) ≤ stalled.now 0 := waited stalled 0 0x10000 (Nat.le_of_eq rfl)

/-- Position 0 of four ranks of a tree (ALG 2) with 1.0 of its own, and the chunk of position 1 with 2.0: their sum is 3.0. -/
theorem witness_CompositingEvents_burst : (let p : Leave → Plan := fun l => { used := true, gen := 2, words := [0x1434F4C4C, 0x400000007, 0xAA, 1, 0x22000, 0x24000, 0x21000, 0], count := 1, state := 1, run := {
      table := [(0, 0, 0), (1, 0, 1), (2, 0, 2), (3, 0, 3)], units := [(0, { vals := [0x3FF0000000000000] })], waiting := [{ step := 0, src := 1, units := [(0, [0x4000000000000000], false, 0)] }], leave := l } }
    let s : Leave → State := fun l => { base with dies := [(0, { comp := { plans := [(3, p l)] } })], site := { q := 3 } }
    (burstChunk (p .free)).isSome && next (exec .reductionBurst (s .free)) (fun u => (u.plan 0 3).run.leave == .asked && ((u.arb 0).waiting.map fun r => r.amps) == [40]) &&
    next (exec .reductionBurst (s .held)) fun u => (u.plan 0 3).run.unit 0 == { vals := [0x4008000000000000], lvl := 1 }) = true := by decide +kernel

/-- A chunk of position 1 of that tree whose one unit, poisoned, waits then; a payload that does not decode; another digest fails the run. -/
theorem witness_CompositingEvents_arrivals : (
    let tree : List W64 := [0x1434F4C4C, 0x400000007, 0xAA, 1, 0x22000, 0x24000, 0x21000, 0]
    let t : State := { base with dies := [(0, { regs := { fab := { jobs := [(0, 0x8000000000000005)] } }, comp := { plans := [(3, { used := true, gen := 2, words := tree, count := 4, state := 1, run := {
      table := [(0, 0, 0), (1, 0, 1), (2, 0, 2), (3, 0, 3)] } })] } })] }
    let s := planned 1 {}
    let c : List W64 → Nat → Nat → Bool → Chunk := fun w run step bad =>
      { job := 5, planId := 7, run := run, step := step, src := 1, dst := 0, index := 0, digest := digestOf w, flags := 0, units := [(0, { bytes := [], poison := bad })] }
    next (exec (.chunkArrival (c tree 4 0 true)) t) (fun u => ((u.plan 0 3).run.waiting.map fun x => x.units.map fun y => (y.1, y.2.2.1)) == [[(0, true)]] &&
      u.out == [.chunkAck 1 0 5 7 4 0 1 0]) &&
    next (exec (.chunkArrival { c object 4 1 false with digest := [] }) s) (fun u => endsNow (u.plan 0 3) 3 4) &&
    next (exec (.chunkArrival (c object 4 1 false)) s) fun u => endsNow (u.plan 0 3) 3 3) = true := by decide +kernel

/-- A final chunk of a chain, of position 1: it fits, and its unit is stored at OUT, which translates. -/
theorem witness_CompositingEvents_final : (finalStep object 1 && !finalStep object 0 && chunkUnits object 1 0 1 0 == [0] &&
    (storeFinals 0 3 [(0, List.replicate 256 0, true, 0)] (planned 1 {})).2) = true := by decide +kernel

/-- A TENC that may be performed; the coding tables; a CANCEL and a bad record at port 0x002. -/
theorem witness_CompositingEvents : (let s := planned 2 {}
    let x : TileOp := { table := some 0, d := 20, src := 0x23000, dst := 0x26000, srcPages := [(2, 0x20000)], dstPages := [(2, 0x20000)], acq := false, rel := false, scope := 0 }
    let o : Op := { id := 0, team := 16, crew := 1, gen := 0, flag := none, kind := .tile x }
    let q : List W32 → State := fun w => s.withQ 3 { port := 2, pushed := [{ words := w, lane := 0, stamp := 0 }] }
    let h : W32 := 0x01800002
    mayPerform { s with ops := [o] } o && !(isPoison s 0x23000) && next (exec (.freqWrite 8 0x1122) { s with site := { n := 1 } }) (fun u => smGet 0 (u.die 0).comp.freq 392 == 0x22 && smGet 0 (u.die 0).comp.freq 393 == 0x11) &&
    next (exec (.tvalidWrite 1) s) (fun u => (u.die 0).comp.tvalid == 0) && next (exec .compositingPortRecord (q [3, 9, 0, 0])) (fun u => ((u.team.qreg 3).results.map fun r => r.words.getD 0 0) == [0x203]) &&
    next (exec .compositingPortRecord (q [0, 9, h, 0])) (fun u => ((u.team.qreg 3).results.map fun r => r.words.getD 0 0) == [0x100]) &&
    next (exec .compositingPortRecord (q [3, 9, h, 0])) (fun u => ((u.team.qreg 3).results.map fun r => (r.words.take 3)) == [[3, 9, h]]) &&
    planOf s 0 h == some (0, 3, s.plan 0 3) && !compRecordBad [1, 9, h, 0]) = true := by decide +kernel

/-! ### Further clauses: decoding, exceptions, the undo log, system registers -/

/-- The clauses of R85's order, each with those before it passed: IMX on TRET (ILL.OP), HINV.ALL on a control core, TRET in user state, SCOPE 7, v64 of a
team with 64 registers (R79), s63 as the first of a pair; the last register, and the last pair, are legal. -/
theorem witness_EncodingChecksInOrder : (let b := base.team; let imx : Team := { b with pfx := { imm := some 1, pc := some 0x10000 } }
    let grd : Team := { b with pfx := { grd := some (false, 1), pc := some 0x10000 } }
    let ctl : Team := { b with id := { b.id with core := 40 } }; let few : Team := { b with id := { b.id with nregs := 64 } }
    illegal (usage .tret) imx false == some codeOp && illegal (usage .exit) grd false == some codeOp && ctl.onControl &&
    illegal (usage .hinvAll) ctl false == some codeEng && illegal (usage .tret) b false == some codePriv && illegal (usage (.fenceAcq 7)) b false == some codeRsv &&
    illegal (usage (.iadd 0 63 62 64)) few false == some codeReg && illegal (usage (.iadd 0 63 62 61)) few false == none &&
    illegal (usage (.ret 63)) b false == some codeReg && illegal (usage (.ret 62)) b false == none) = true := by decide +kernel

/-- The saved lanes have all ended: every live lane comes back (log entry 99); PRET while a PMAP is in flight. -/
theorem witness_ReturnFromException_lanes : (let s := base.inSup.mapTeam fun t => { t with live := 0xF0, x := { t.x with xpc := 0x20008, saved := 5 } }
    let o : State := { s with ops := [{ id := 0, team := 16, crew := 1, gen := 0, flag := none, kind := .word (.pmap 9 [0] [] []) }], nextOp := 1 }
    runs s .tret (fun u => u.team.m == 0xF0) && pmapBusy o o.team.key && waits o .pret .pending && !pmapBusy s s.team.key) = true := by decide +kernel

/-- SADD s3, NOP and a word that writes SCC, logged at 0x20FF0 of a log of 4,096 bytes; a log at an address without a translation. -/
theorem witness_UndoLogKeepsTheOldValue : (let s := (data.withS [(3, 0x77)]).mapTeam fun t => { t with scc := 5, dbg := { undo := true, base := 0x20000, head := 4080 } }
    let bad := s.mapTeam fun t => { t with dbg := { t.dbg with base := 0x40000000 } }
    undoRegs (usage (.sadd 0 3 4 5)) == [3] && undoRegs (usage .nop) == [] && vaClass (0x20FF0 : W64) == .localVa &&
    (match (transNow s 0 0 0x20FF0 .write false).2 with | .ok pa => pa == 0x20FF0 | .error _ => false) &&
    runs s (.sadd 0 3 4 5) (fun u => u.team.dbg.head == 0 && plainBytes u 0 0 0x20FF0 16 == [4, 0, 1, 0, 0, 0, 0, 0, 3, 0, 0, 0, 0x77, 0, 0, 0]) &&
    runs s .nop (fun u => u.team.dbg.head == 0 && plainBytes u 0 0 0x20FF8 8 == [0xFF, 0, 0, 0, 0, 0, 0, 0]) &&
    (match (transNow bad 0 0 0x40000FF0 .write false).2 with | .ok _ => false | .error _ => true) &&
    runs bad .nop (fun u => !u.team.dbg.undo && u.team.dbg.uflt && u.team.dbg.head == 4080)) = true := by decide +kernel

/-- UNDOLEN takes 4,096 and 2^31, and 4,096 for 2^32, for 2,048 and for a number that is no power of two; cores 39 and 40; a team of 33 lanes. -/
theorem witness_SystemRegisters : (let s := base; let len : W64 → W64 := fun v => sysRead { s with team := sysWrite s.team 0x144 v } 0x144
    let at' : Nat → State := fun k => s.mapTeam fun t => { t with id := { t.id with core := k } }
    let w : State := s.mapTeam fun t => { t with id := { t.id with width := 33 }, live := fullMask 33, m := fullMask 33 }
    len 4096 == 4096 && len 0x80000000 == 0x80000000 && len 0x100000000 == 4096 && len 2048 == 4096 && len 0x3000 == 4096 &&
    sysRead (at' 39) 0x004 == 39 && sysRead (at' 40) 0x004 == 0x80000000 && sysRead w 0x021 == 1 && sysRead w 0x022 == 0 && sysRead w 0x041 == 1 &&
    sysRead w 0x060 == 3) = true := by decide +kernel

/-- Keys 9 and 4 of lanes 0 and 1, equal keys keep their order; p1 moves with its lane; another team has not arrived. -/
theorem witness_ReformSortsLanes : (
    let k := ((base.two.withV [(3, 9, 4), (5, 50, 51)]).withP 1 1).mapTeam fun t => { t with live := 3 }
    let o : State := { k with others := [(17, { k.team with id := { k.team.id with tno := 1 } })] }
    isReady k (.reform 3) && k.team.join.isEmpty && k.team.arr 0 == none && !memBusy k 16 && (k.crew 1).reform.isEmpty && k.liveTeams 1 == [0] && livePositions k 1 == [0, 1] &&
    k.team.r.vpend.isEmpty && k.team.r.ppend.isEmpty && k.team.group.isNone &&
    runs k (.reform 3) (fun u => u.team.vNow 5 0 == 51 && u.team.vNow 5 1 == 50 && smGet 0 u.team.r.p 1 == 2) &&
    runs k (.reform 7) (fun u => u.team.vNow 5 0 == 50 && smGet 0 u.team.r.p 1 == 1) && o.liveTeams 1 == [0, 1] &&
    waits o (.reform 3) .reform && next (exec (.reform 3) o) fun u => (u.crew 1).reform == [(0, 3)]) = true := by decide +kernel

/-! ### Further clauses: vector words, loads, stores, caches, translation -/

/-- 2.5 in the four modes; 2^31 - 1, 2^31 and -2^31 - 1/2; NaN and infinities (R112). -/
theorem witness_FloatToIntegerSaturates : (fToInt true 32 .rdn (.fin false 5 (-1)) == (2, flagNX) && fToInt true 32 .rup (.fin false 5 (-1)) == (3, flagNX) &&
    fToInt true 32 .rtz (.fin true 5 (-1)) == (-2, flagNX) && fToInt true 32 .rne (.fin false 5 (-1)) == (2, flagNX) && fToInt true 32 .rne (.fin false 7 (-1)) == (4, flagNX) &&
    fToInt true 32 .rne (.fin false (2 ^ 31 - 1) 0) == (2 ^ 31 - 1, 0) && fToInt true 32 .rne (.fin false 1 31) == (2 ^ 31 - 1, flagNV) &&
    fToInt true 32 .rtz (.fin true (2 ^ 32 + 1) (-1)) == (-2 ^ 31, flagNX) && fToInt true 32 .rdn (.fin true (2 ^ 32 + 1) (-1)) == (-2 ^ 31, flagNV) &&
    fToInt false 8 .rup (.fin false 511 (-1)) == (255, flagNV) && fToInt false 8 .rne (.nan false) == (0, flagNV) && fToInt false 8 .rne (.inf true) == (0, flagNV) &&
    fToInt false 8 .rne (.inf false) == (255, flagNV)) = true := by decide +kernel

/-- The scale of a NaN, of an infinity, of 1 and 2 (1.5), and of three values whose mean 1/3 is rounded (R235). -/
theorem witness_SignAndPackWords : (sgnScale [0x7FC00000, 0x3F800000] == (Fmt.nanCode .f32, flagNV) && sgnScale [0xFF800000, 0x3F800000] == (0x7F800000, 0) &&
    sgnScale [0x3F800000, 0xC0000000] == (0x3FC00000, 0) && sgnScale [0x3F800000, 0, 0] == (0x3EAAAAAB, flagNX) && isReady vecs (.sgnq 10 24 25)) = true := by decide +kernel

/-- 768 lines are asked for by 24 stores of 32 lines each; one fewer line leaves room. -/
def fullSlots (lanes : Nat) : State := { data with
  ops := (List.range 24).map fun n => {
    id := n, team := 16, crew := 1, gen := 0, flag := none, kind := .store .plain ((List.range lanes).map fun k =>
    ({ lane := k, va := 0, pa := 0x1000000 + (n * 32 + k) * 128 }, [0])) }
  nextOp := 24 }

/-- The first lane alone, in deterministic quantum mode, with byte 0x20001 held in the buffer. -/
def holding : State := data.mapTeam fun t => { t with m := 1, id := { t.id with quantum := some 9 }, dq := { t.dq with items := [.store 0x20001 0x20001 false [0x99]] } }

/-- The loads' slots; held bytes; LDB of the fabric window; a load behind a deferred atomic. -/
theorem witness_LoadsIssue_forms : (let far := (data.withS [(0, 0), (1, 0x80010000)]).mapTeam fun t => { t with m := 1 }
    let d := { holding with ops := [{ id := 0, team := 16, crew := 1, gen := 0, flag := none, kind := .atomic {
      what := .amo 0, wide := false, d := 9, spad := false, deferred := true, lanes := [
      { lane := 0, va := 0x20000, pa := 0x20000, x := 5, cmp := 0, rede := 0 }] } }], nextOp := 1 }
    overHeld (heldBytes holding.team false 0x20000 4) 0x20000 [1, 2, 3, 4] == [1, 0x99, 3, 4] &&
    waits (fullSlots 32) (.ld 2 9 1 0 0 0) .slots && waits (fullSlots 32) (.ldk 2 9 0 0 0) .slots && waits (fullSlots 32) (.ldb 2 9 1 0 0 0) .slots && waits (fullSlots 32) (.st 2 5 1 0 0) .slots &&
    runs (fullSlots 31) (.ld 2 9 1 0 0 0) (fun u => u.ops.length == 25) &&
    runs holding (.ld 2 9 1 0 0 0) (fun u => u.ops.map (fun o => match o.kind with | .load _ _ _ _ _ _ _ h _ => h | _ => []) == [[(0x20001, 0x99)]]) &&
    (memLanes far.team 0 1).all (fun a => vaClass a.2 == .fabric) && runs far (.ldb 2 9 1 0 0 0) (fun u => u.ops.length == 1 && smGet 0 u.team.r.vpend (9 * 32) == 1) &&
    runs d (.ld 2 9 1 0 0 0) (fun u => u.team.dq.items.contains (.load 1) && u.ops.length == 2) && runs (data.mapTeam fun t => { t with m := 0 }) (.ldk 2 9 0 0 0) (fun u => u.ops.isEmpty) &&
    runs (data.mapTeam fun t => { t with m := 0 }) (.ldb 2 9 1 0 0 0) (fun u => u.ops.isEmpty)) = true := by decide +kernel

/-- A store in quantum mode: it fits; 256 lines are held already; no active lane. -/
theorem witness_StoresIssueOrFault_quantum : (let full := holding.mapTeam fun t => { t with dq := { t.dq with items := (List.range 256).map fun k => .store 0 (0x1000000 + k * 128) false [0] } }
    runs holding (.st 2 5 1 0 0) (fun u => u.team.dq.items.length == 2 && u.ops.isEmpty && !u.team.dq.full) && (dqLines full.team.dq.items).length == 256 &&
    waits full (.st 2 5 1 0 0) .quantum && next (exec (.st 2 5 1 0 0) full) (fun u => u.team.dq.atEnd && u.team.dq.items.length == 256) &&
    runs (data.mapTeam fun t => { t with m := 0 }) (.st 2 5 1 0 0) (fun u => u.ops.isEmpty)) = true := by decide +kernel

/-- Returns of LDK, of LDS, of LDB from the line of another device, that line failed, and of a load with a held byte; the flag clears with the last word. -/
theorem witness_LoadReturnDelivers_forms : (let s := data.mapTeam fun t => { t with m := 1 }; let far := (data.withS [(0, 0x100), (1, 0x80010000)]).mapTeam fun t => { t with m := 1 }
    let sp := ((data.withS [(0, 0), (1, 0), (8, 0)]).mapTeam fun t => { t with m := 1 }).withCrew fun c => { c with splen := 8, scratch := [(1, 0x77)] }
    let line : RemoteLine := { line := 0x8001000000000100, data := 0x55 :: List.replicate 127 0, fail := none }
    thenDoes s (.ldk 2 9 0 0 0) (.loadReturn []) 0 (fun u => u.team.sNow 9 == 0x1234 && smGet 0 u.team.r.spend 9 == 0 && u.ops.isEmpty) &&
    thenDoes sp (.lds 2 9 1 4 0) (.loadReturn []) 0 (fun u => u.team.vNow 9 0 == 0x7700 && u.mem == data.mem) &&
    thenDoes far (.ldb 2 9 1 0 0 0) (.loadReturn [line]) 0 (fun u => u.team.vNow 9 0 == 0x55) &&
    thenDoes far (.ldb 2 9 1 0 0 0) (.loadReturn [{ line with fail := some 8 }]) 0 (fun u => smGet none u.team.r.vmarks (vKey 9 0) == some (.remoteRead 8 0x8001000000000100)) &&
    thenDoes holding (.ld 2 9 1 0 0 0) (.loadReturn []) 0 (fun u => u.team.vNow 9 0 == 0x9934) &&
    (next (exec (.ld 2 9 1 0 0 0) s) fun u => (u.op 0).isSome && (u.op 0).all fun o => opCurrent u o && loadTurn u o && mayPerform u o && !o.kind.notEntered 0) &&
    (let f := s.mapTeam fun t => { t with clause := some { addr := 0x10000, header := 0x0003F05C, w1 := (encodeWord 0 (.ld 2 9 1 0 0 0)).getD 0, w2 := 0, w3 := 0 } }
     next (exec (.ld 2 9 1 0 0 0) f) fun u => u.team.busy == 8 && next (exec (.loadReturn []) u) fun v => v.team.busy == 0)) = true := by decide +kernel

/-- PREF into L1; CINV at CORE of a line that the L1, the node cache and the write buffer hold: it leaves them, the byte is kept; CWB at PKG leaves nothing dirty in L2; RRINV. -/
theorem witness_CacheWords : (
    let line : LineCopy := { data := 0xAB, valid := 1, dirty := 1 }; let clean : LineCopy := { line with dirty := 0 }
    let n : State := { data.withS [(4, 8)] with cores := data.cores.map fun e => (e.1, { e.2 with wb := [(0x400, line)], l1 := [(0x400, clean), (0x401, clean)], node := [(0x400, some { data := 0, poison := false })] }) }
    let far : State := { (data.withS [(4, 8)]) with rrc := [(0x8000200000000000 / 128, clean), (5, clean)] }
    runs data (.pref 1 0 0) (fun u => (smGet {} (u.core 0).l1 0x400).valid == BitVec.allOnes 128) && runs data (.pref 1 0 1) (fun u => (smGet {} (u.die 0).l2 0x400).valid == BitVec.allOnes 128) &&
    !fusedCluster n 0 0 && runs n (.cinv 2 0 4) (fun u => (u.core 0).wb.isEmpty && ((u.core 0).l1.map Prod.fst) == [0x401] && (u.core 0).node.isEmpty && plainByte u 0 0 0x20000 == 0xAB) &&
    runs n (.cinv 0 0 4) (fun u => (u.core 0).l1.length == 2) && runs n (.cwb 4 0 4) (fun u => (u.core 0).wb.isEmpty && (smGet {} (u.die 0).l2 0x400).dirty == 0 && homeByte u 0x20000 == 0xAB) &&
    runs far (.rrinv 2 4) (fun u => (u.rrc.map Prod.fst) == [5]) && traps n (.rrinv 0 4) codeAddr 2 0x20000) = true := by decide +kernel

/-- A load of the word is in flight: MWAIT of another value waits, and for its own word's store too. -/
theorem witness_MemoryWait : (let o := fun (k : OpKind) => ({ data with ops := [{ id := 0, team := 16, crew := 1, gen := 0, flag := none, kind := k }], nextOp := 1 } : State)
    let ld := o (.load .plain 2 false false 9 [0] [{ lane := 0, va := 0x30000, pa := 0x30000 }] [] true)
    let st := o (.store .plain [({ lane := 0, va := 0x20000, pa := 0x20000 }, [1])])
    loadsBusy ld 16 && !readBusy ld ld.team 0x20000 4 && waits ld (.mwait 1 19 0 6 0) .fence && readBusy st st.team 0x20000 4 && waits st (.mwait 1 19 0 6 0) .fence) = true := by decide +kernel

/-- GO for page 2 stands while a resident team's quantum buffer holds a store to it; a MISSING register that names no crew. -/
theorem witness_TranslationAndCacheEvents_held : (let r : W64 := 0x20001
    let s := { data with dies := [(0, { regs := { inval := r } })] }; let h := s.mapTeam fun t => { t with dq := { t.dq with items := [.store 0x20000 0x20000 false [1]] } }
    !heldInval s 0 r s.team && s.others.isEmpty && heldInval h 0 r h.team && next (exec .tlbInvalidateDone h) (fun u => (u.die 0).regs.inval.getLsbD 0) &&
    next (exec (.missingDecrement 0x900000001) data) (fun u => u.crews == data.crews && u.mem == data.mem)) = true := by decide +kernel

/-- PMAP's statuses: PROT with DETAIL 1 and WALK (3), a leaf (0), the pool empty (1), an absent page (2); a write to a read-duplicated leaf collapses it. -/
theorem witness_LazyPageTakesAFrame : (let lazy := setHomeBytes (setHomeBytes data 0x10008 [0x01, 0, 0x03]) 0x30000 [0x7E]
    let dup := setHomeBytes data 0x10007 [0x20]
    (pmapPage data 0 0 2 codeProt 1).2.1 == 3 && (pmapPage data 0 0 2 codeWalk 1).2.1 == 3 && (pmapPage data 0 0 2 codePage 0).2 == (0, none) &&
    (match walk lazy 0 0x20000000 with | .lazyLeaf _ pa => pa == 0x30000 | _ => false) && (pmapPage lazy 0 0 0x2000 codePage 0).2 == (1, none) &&
    (pmapPage data 0 0 0x4000000 codePage 0).2 == (2, none) && (match walk dup 0 0x20000 with | .leaf e pa b => leafAttr e == 2 && pa == 0x10000 && b | _ => false) &&
    (let r := pmapPage dup 0 3 2 codeProt 4; r.2 == (0, some (0, 8192, [0, 0x800000, 0xC00000])) && (r.1.core 0).tlb.isEmpty && home64 r.1 0x10000 == 0x40000001FD)) = true := by decide +kernel

/-! ### Further clauses: the translation handler, the copy engine, fences, atomics, matrices -/

/-- PMAP waits for an access through the collapsed leaf; PMISS posts an absent page and the crew is saved; a full ring makes it wait. -/
theorem witness_TranslationHandlerWords_waits : (let op : Op := { id := 1, team := 16, crew := 1, gen := 0, flag := none, kind := .word (.pmap 9 [0] [(0, 0)] [(0, 8192, [])]) }
    let ld : Op := { op with id := 0, kind := .load .plain 2 false false 9 [0] [{ lane := 0, va := 0x30000, pa := 0x30000 }] [] true }
    let w : State := { data with ops := [ld, op], nextOp := 2, site := { op := 1 } }; let f : State := { data with ops := [op], nextOp := 2, site := { op := 1 } }
    let absent := data.inSup.mapTeam fun t => { t with m := 1, eng := { t.eng with faddr := [(0, 0x400000022211)] } }; let full := setHomeBytes absent 0x1024 [1]
    collapseBusy w op [(0, 8192, [])] && loadTurn w op && opCurrent w op && next (exec (.loadReturn []) w) (fun u => u == w) && !collapseBusy f op [(0, 8192, [])] &&
    next (exec (.loadReturn []) f) (fun u => u.ops.isEmpty) && isReady absent .pmiss && missKind absent 0 0x40000000 == some 2 && missRoom absent 0 && !memBusy absent 16 &&
    absent.team.id.tno == 0 && runs absent .pmiss (fun u => (u.crew 1).state == .saving && (u.crew 1).missing == 1 && homeByte u 0x1024 == 1 && homeByte u 16 == 2) &&
    !missRoom full 0 && waits full .pmiss .missRing) = true := by decide +kernel

/-- RFREE of a draining entry waits, and then for the drain's operation; RBIND with zeros. -/
theorem witness_CopyWindowWords_waits : (let d := withEntry .draining; let op : OpKind := .word (.stat 9 1)
    let z := (bound.withCrew fun c => { c with scratch := [(127, 1), (128, 2)] })
    waits d (.rfree 3) .engine && waits ((d.flying op).mapTeam fun t => t.setArr 4 (some 0)) (.rfree 3) .engine && runs (d.mapTeam fun t => t.setArr 4 (some 0)) (.rfree 3) (fun u => (u.team.arr 4).isNone) &&
    waits d (.rwait 3) .engine && runs z (.rbind 3 4 3 0 0) (fun u => (u.crew 1).scratch == [(128, 2)])) = true := by decide +kernel

/-- STS: dropped beyond the eight lines, and recorded; misaligned; into the quantum's buffer, and one line too many. -/
theorem witness_ScratchpadWordsIssue_stores : (let s := bound.withS [(8, 0)]; let far := s.withS [(8, 1020)]
    let q := fun n => s.mapTeam fun t => { t with m := 1, id := { t.id with quantum := some 9 }, dq := { t.dq with items := (List.range n).map fun k => .store 0 (0x1000000 + k * 128) false [0] } }
    runs far (.sts 2 5 1 4) (fun u => u.team.sp == { valid := true, wr := true, off := 1024 } && u.ops.map (fun o => match o.kind with | .store _ l => l.length | _ => 0) == [1]) &&
    runs (s.withS [(8, 1024)]) (.sts 2 5 1 4) (fun u => u.ops.isEmpty) && traps (s.withS [(8, 2)]) (.sts 2 5 1 4) codeAlign 4 2 &&
    runs (q 255) (.sts 2 5 1 4) (fun u => u.team.dq.items.length == 256 && u.ops.isEmpty) && waits (q 256) (.sts 2 5 1 4) .quantum &&
    next (exec (.sts 2 5 1 4) (q 256)) (fun u => u.team.dq.atEnd && u.team.dq.items.length == 256)) = true := by decide +kernel

/-- A fill behind a store of its team waits. -/
theorem witness_FillsAndDrainsMoveTheTile_order : (let f : OpKind := .fill { entry := 3, gen := 2, pages := [(2, 0x20000)], done := 0, leave := .free }
    let st : Op := { id := 0, team := 16, crew := 1, gen := 0, flag := none, kind := .store .plain [({ lane := 0, va := 0x40000, pa := 0x40000 }, [1])] }
    let s : State := { withEntry .filling with ops := [st, { st with id := 1, kind := f }], nextOp := 2, site := { op := 1 } }
    !mayEngine s { st with id := 1, kind := f } && next (exec .fillBeat s) (fun u => u == s)) = true := by decide +kernel

/-- FENCE.ACQ behind a load; FENCE.AR behind a store; FENCE.REL at POD behind an element of its team; CREW of a crew bound to a package. -/
theorem witness_Fences_waits : (let ld := base.flying (.load .plain 2 false false 9 [0] [{ lane := 0, va := 0x30000, pa := 0x30000 }] [] true)
    let st := base.flying (.store .plain [({ lane := 0, va := 0x30000, pa := 0x30000 }, [1])])
    loadsBusy ld 16 && waits ld (.fenceAcq 0) .fence && memBusy st 16 && !loadsBusy st 16 && waits st (.fenceAr 4) .fence && runs st (.fenceAcq 4) (fun _ => true) &&
    spindleCount (flushTeam inserted 0 16 fun _ => true) 0 16 (fun _ => true) == 1 && waits inserted (.fenceRel 5) .fence && waits inserted (.fenceAr 6) .fence &&
    next (exec (.fenceRel 5) inserted) (fun u => ((u.spin 0).bufs.map fun b => b.departing) == [true]) && runs inserted (.fenceRel 4) (fun _ => true) &&
    (base.withCrew fun c => { c with words := [0, 0, 0, 0, 0, 5] }).meant 16 1 == 4) = true := by decide +kernel

/-- Cores 0 and 1 of a fused cluster; the store of core 1 is released by core 0. -/
theorem witness_ReleaseThenAcquireSeesTheStore_fused : (let s : State := { data with
      cores := [(1, { wb := [(0x400, { data := 0xAB, valid := 1, dirty := 1 })] })]
      dies := [(0, { fused := [0] })] }
    (l1Sharers s 0 0).contains 1 && homeByte (releaseAt s 0 0 4) 0x20000 == 0xAB) = true := by decide +kernel

/-- Atomics wait for slots; with REL and ACQ and no active lane they release and acquire. -/
theorem witness_AtomicWordsIssue_slots : (waits (fullSlots 32) (.amo 0 0 5 1 0) .slots && runs (fullSlots 31) (.amo 0 0 5 1 0) (fun u => u.ops.length == 25) &&
    (fullSlots 32).team.atOrd.rel == false) = true := by decide +kernel

/-- The host's line is in the L1 of the core: the answer takes it away and is at the home. -/
theorem witness_HostAtomicsAnswer : (let a : AtomicOp := { what := .amo 0, wide := false, d := 5, spad := false, lanes := [{ lane := 0, va := 0x20000, pa := 2 ^ 51, x := 5, cmp := 0, rede := 0 }] }
    let s : State := { one.flying (.atomic a) with cores := one.cores.map fun e => (e.1, { e.2 with l1 := [(2 ^ 44, { data := 1, valid := 1 })] }) }
    mayPerform s { id := 0, team := 16, crew := 1, gen := 0, flag := none, kind := .atomic a } &&
    next (exec (.hostAtomicCompletion .value 9) s) (fun u => (u.core 0).l1.isEmpty && leNat (homeBytes u (2 ^ 51) 4) == 14 && u.team.vNow 5 0 == 9)) = true := by decide +kernel

/-- A crew of two teams on two cores stores 1 and 2 to one byte: the higher team's is last, at the home. -/
theorem witness_QuantumCommitPerformsTheStores_spread : (let q := fun (t : Team) (n k v : Nat) => { t with id := { t.id with tno := n, core := k, quantum := some 1 }, dq := { t.dq with
      items := [.store 0x20000 0x20000 false [BitVec.ofNat 8 v]], atEnd := true, count := 1 } }
    let s : State := { (data.withCrew fun c => { c with spots := [(0, 0), (1, 0)], words := [0, 0, 0, 0, 0, 3], commit := true }).mapTeam (fun t => q t 0 0 1) with
      others := [(17, q data.team 1 1 2)]
      site := { crew := 1 } }
    commitGoes s 1 && crewTeams s 1 == [0, 1] && s.cores.all (fun e => e.2.wb.isEmpty) && s.dies.all (fun e => e.2.l2.isEmpty) &&
    next (exec .dqCommit s) fun u => homeByte u 0x20000 == 2 && (u.teamAt 17).dq.items.isEmpty && !(u.crew 1).commit) = true := by decide +kernel

/-- MSTAT 1 of codebook 0 loaded; MCLAIM of codebook 1 clears it; MFENCE behind a load and behind a gang operation. -/
theorem witness_MatrixClaimsAndStatus_waits : (let l : OpKind := .mload { slot := 0, cbType := none, len := 128, va := 0x20000, pages := [(2, 0x20000)], code := none, acq := false, scope := 0 }
    let c := (mats.withS [(6, 0x0101), (8, 1)]).withCrew fun c => { c with mat := { c.mat with cb := [(2048, 7), (0, 8)], cbType := [(0, some 2), (1, some 1)] } }
    let g := (mats.withCrew fun c => { c with mat := { c.mat with ops := [{ id := 0, word := 0, desc := 0, gang := 3, code := none, state := .started }] } }).mapTeam fun t => { t with eng := { t.eng with gang := 3 } }
    runs c (.mstat 20 8) (fun u => u.team.sNow 20 == 0x03000101 && u.team.sNow 21 == 0) && runs c (.mclaim 2 20 6) (fun u => u.team.sNow 20 == 0 && u.matNow.cb == [(0, 8)] && (u.matNow.cbType.map Prod.fst) == [0]) &&
    waits (mats.flying l) .mfence .fence && gangBusy g 1 0 && waits g .mfence .fence) = true := by decide +kernel

/-- MRD, MWR and MST of bank 1, which is not claimed. -/
theorem witness_AccumulatorWords_unclaimed : ([Instr.mrd 1 0 20 8, .mwr 1 0 4 8, .mst 12 14 1 0 0 0 0].all fun i => traps mats i codeMslot 1 1) = true := by decide +kernel

/-- A codebook of 1,024 bytes over one of 2,048. -/
theorem witness_MatrixTransfersComplete_codebook : (
    let l : OpKind := .mload { slot := 0, cbType := some 2, len := 4, va := 0x20000, pages := [(2, 0x20000)], code := none, acq := false, scope := 0 }
    let s := (mats.flying l).withCrew fun c => { c with mat := { c.mat with cb := [(0, 9), (5, 9), (2047, 9), (2048, 9)] } }
    next (exec .mloadComplete s) (fun u => (u.crew 1).mat.cb == [(0, 0x34), (1, 0x12), (2048, 9)] && u.ops.isEmpty)) = true := by decide +kernel

/-! ### Further clauses: gangs, the array, rays -/

/-- The word that has issued leaves the latch; a restored operation takes its members up again. -/
theorem witness_GangWordsMeetAtTheLatch_again : (let g := ganged .waiting 0x100; let w := ((encodeParts (.mma 0 20 8 8)).map Prod.snd).getD 0
    let done := g.withCrew fun c => { c with mat := { c.mat with latch := [{ team := 0, gang := 0x10003, word := w, desc := 0x100, status := .issued 7 }] } }
    let back := g.withCrew fun c => { c with mat := { c.mat with ops := [{ id := 7, word := w, desc := 0x100, gang := 0x10003, code := none, state := .restored, steps := 1 }] } }
    runs done (.mma 0 20 8 8) (fun u => u.matNow.latch.isEmpty && u.team.busy == 0) &&
    next (exec (.mma 0 20 8 8) back) (fun u => u.nextOp == back.nextOp && (u.matNow.ops.map fun o => (o.id, o.steps, o.state == .suspended)) == [(7, 1, true)])) = true := by decide +kernel

/-- An MMAC over a tile of 256 symbols of KIND 0 whose first row of symbols is decoded, and whose substreams have no bytes left to read; the table gives symbol 0 the
frequency 4,095. -/
def coded (n : Nat) (work : Option OpdWork) : State :=
  let s := arrayed n .held (some (1, 0))
  s.withCrew fun c => { c with mat := { c.mat with tabs := 1, tab := [(0, 0xFF), (1, 0x1F)], data := [(16385, 1)], ops := c.mat.ops.map fun o => { o with
    word := ((encodeParts (.mmac 0 20 8)).map Prod.snd).getD 0, code := some { entry := 0, tile := 5 }, work := work } } }

theorem witness_ArrayPerformsTheSteps_coded : (let subs := List.replicate 32 { cnt := 1, pos := 4, x := 2 ^ 30 }
    let s := coded 0 (some { next := 0, subs := subs, blk := 0, syms := [] }); let bad := coded 0 none
    let e := coded 0 (some { next := 256, subs := List.replicate 32 { cnt := 8, pos := 0, x := 2 ^ 23 }, blk := 0, syms := [0] })
    let fine := fun (o : MatOp) (cd : Coded) => (cd.count == 256 && !decodePoison s.matNow o cd && (match decodeBlock s.matNow o cd with | .ok _ => true | .error _ => false))
    let empty := { mats.matNow with data := [] }
    (siteArray s).any (fun x => x.2.isC && x.2.bslot == 1 && (x.2.tile s.matNow).any (fine x.2)) &&
    next (exec .mmacBlockDecode s) (fun u => (u.matNow.ops.map fun o => (o.work.map fun w => w.syms.length).getD 0) == [224]) &&
    (siteArray bad).any (fun x => match decodeBlock empty x.2 { entry := 0, tile := 5 } with | .error (f, _) => !f.len && f.sub == none | .ok _ => false) &&
    next (exec .mmacBlockDecode (bad.withCrew fun c => { c with mat := { c.mat with data := [] } })) (fun u => (u.core 0).array.isNone && u.matNow.ops.all fun o => o.state == .held) &&
    next (exec .mmacVerify e) (fun u => u.matNow.ops.all fun o => o.verified && o.issued)) = true := by decide +kernel

/-- Each of HBIND, HREPLAY and HSTAT on a register of another port; a legal context, one without nodes, an acquire behind a load, rays held; HLOG's four checks. -/
theorem witness_RayWords_forms : (let s : State := setHomeBytes { rayed with mem := data.mem, contexts := data.contexts, cores := data.cores } 0x21030 [1]
    let ray : Ray := { team := 0, q := 1, handle := 5, tag := 0 }; let held := s.withCrew fun c => { c with rays := [{ ray with state := .call }] }
    let ld := { s with ops := (base.flying (.load .plain 2 false false 9 [0] [{ lane := 0, va := 0x30000, pa := 0x30000 }] [] true)).ops, nextOp := 1 }
    let many := s.withCrew fun c => { c with rays := (List.range 255).map fun k => { ray with handle := BitVec.ofNat 32 k } }
    let log := fun (b lg n : W32) => s.withS [(8, b), (9, 0), (10, lg), (11, n)]
    [Instr.hbind 0 4 0 0, .hlog 0 8, .hreplay 0 1 0 0, .hstat 9 0 0].all (fun i => traps s i codeQport 0 0) && [Instr.hbind 1 4 0 0, .hlog 1 8].all (fun i => traps held i codeQbusy 0 1) &&
    runs s (.hbind 1 4 0 0) (fun u => (u.team.qreg 1).ctx.isSome) && runs s (.hbind 1 4 1 4) (fun u => (u.team.qreg 1).ctx.isSome) && traps s (.hbind 1 6 0 0) codeHctx 5 0x22000 &&
    waits ld (.hbind 1 4 1 4) .fence && waits ld (.hreplay 1 10 1 4) .fence && traps { s with poison := [(0x21000, true)] } (.hbind 1 4 0 0) codeMceData 0 0x21000 &&
    traps (log 0x21000 6 1) (.hlog 1 8) codeHlogx 2 0x21000 && traps (log 0x21000 21 1) (.hlog 1 8) codeHlogx 2 0x21000 && traps (log 0x21000 20 0) (.hlog 1 8) codeHlogx 3 0x21000 &&
    traps (log 0x21000 7 0x1000001) (.hlog 1 8) codeHlogx 3 0x21000 && traps ((log 0x21000 7 1).withS [(9, 0x80000000)]) (.hlog 1 8) codeHlogx 4 0x8000000000021000 &&
    runs (log 0x21000 20 0x1000000) (.hlog 1 8) (fun u => (u.team.qreg 1).nslots == 0x1000000) && rayCount many 1 0 1 == 255 && traps many (.hreplay 1 10 0 0) codeHfull 1 1 &&
    runs s (.hreplay 1 10 0 0) (fun u => (raysOf u 1 0 1).length == 2 && (raysOf u 1 0 1).all fun r => r.replay && r.pos.phase == 4) && runs held (.hstat 9 1 1) (fun u => u.team.sNow 9 == 1) &&
    runs held (.hstat 9 1 2) (fun u => u.team.sNow 9 == 0) && runs held (.hstat 9 1 3) (fun u => u.team.sNow 9 == 0)) = true := by decide +kernel

/-- HINV of 128 bytes at 0x20000 and of a fabric line; beyond a class; no class. -/
theorem witness_RayWords_hinv : (let l : NodeLine := { data := 0, poison := false }
    let n : State := { data with cores := data.cores.map fun e => (e.1, { e.2 with node := [(0x400, some l), (0x401, some l), (0x8000200000000000 / 128, some l)] }) }
    let s := n.withS [(4, 128), (6, 0xFFFFFFF8), (7, 0xFFFF), (8, 0), (9, 0x00010000), (10, 0xFFFFFF80), (11, 0x80003FFF)]
    runs s (.hinv 0 4) (fun u => ((u.core 0).node.map Prod.fst) == [0x401, 0x8000200000000000 / 128]) && runs s (.hinv 2 4) (fun u => ((u.core 0).node.map Prod.fst) == [0x400, 0x401]) &&
    traps s (.hinv 6 4) codeAddr 3 0xFFFFFFFFFFF8 && traps (s.withS [(4, 129)]) (.hinv 10 4) codeAddr 3 0x80003FFFFFFFFF80 && runs s (.hinv 10 4) (fun _ => true) && traps s (.hinv 8 4) codeAddr 0 0x0001000000000000) = true := by decide +kernel

/-- Records with bad fields, an ABORT that names no ray, a RESUME and an ABORT of ray 5, an acquire at CORE. -/
theorem witness_RayRecords_forms : (let r := fun (l : List W32) => (base.withQ 1 { port := 1, pushed := [{ words := l ++ List.replicate (16 - l.length) 0, lane := 0, stamp := 0 }] }).atPlace { crew := 1, q := 1 }
    let called := fun (s : State) => s.withCrew fun c => { c with rays := [{ team := 0, q := 1, handle := 5, tag := 0, state := .call, geo := geo0 }] }
    let first := fun (u : State) => (u.team.qreg 1).results.map fun r => r.words.getD 0 0
    let bound := (r [1, 0, 0, 0, 0, 0, 0, 0, 0, 0, 0, 0, 0, 0x3FF00000, 0, 0x40000000]).mapTeam fun t => { t with q := smSet {} t.q 1 { t.qreg 1 with ctx := some [0x20000, 0, 0, 0, 0, 0, 1, 0] } }
    next (exec .trace (r [0])) (fun u => first u == [0x21004]) && next (exec .trace (r [4])) (fun u => first u == [0x21004]) && next (exec .abort (r [3, 0, 5])) (fun u => first u == [0x1304]) &&
    (recordBad ([0x20003] ++ List.replicate 15 0)).isSome && (calledRay (called (r [2, 0, 5])) 5).isSome && next (exec .abort (called (r [3, 0, 5]))) (fun u => (u.crew 1).rays.isEmpty && (first u).isEmpty) &&
    next (exec .resume (called (r [2, 0, 5]))) (fun u => (u.crew 1).rays.map (fun x => x.state == .run) == [true]) &&
    next (exec .resume (called (r [0x12, 0, 5, 0, 0, 0x3FF00000]))) (fun u => (u.crew 1).rays.map (fun x => x.geo.hit.isSome) == [true]) &&
    (bound.team.qreg 1).pushed.all (fun p => traceBad (bound.team.qreg 1) p.words == none) && next (exec .trace bound) (fun u => (u.crew 1).rays.length == 1 && (first u).isEmpty)) = true := by decide +kernel

/-- A node of boxes from -1 to 1 with the references of its four slots; a ray along z from -2, at a place. -/
def rayNode (refs : List Nat) (frm : Nat) : BitVec 1024 :=
  let box := [0xBF800000, 0xBF800000, 0xBF800000, 0x3F800000, 0x3F800000, 0x3F800000]
  BitVec.ofNat 1024 (leNat (((box ++ box ++ box ++ box ++ refs ++ [0, 0, frm, 0]).flatMap fun w => leBytes w 4)))

def rayAt (n : BitVec 1024) (p : RayPos) : Ray := { team := 0, q := 1, handle := 5, tag := 0, pos := p, lines := [(0x400, n)], geo := { geo0 with
  org := [0, 0, 0xC000000000000000], dir := [0, 0, 0x3FF0000000000000], tmax := 0x4010000000000000 } }

/-- Four nodes at 0x20000, two primitives at 0x21000, three vertices at 0x22000, one user surface at 0x23000, PREC 1. -/
def rayCtx : List W64 := [0x20000, 0x21000, 0x22000, 0x23000, 0, 0x30001, 0x0000000100000004, 2]

/-- Where a move leads: a place, or a rule broken. -/
def leads (r : Ray) (p : RayPos) : Bool := match rayStep rayCtx {} r with | .go _ y => y.pos == p | _ => false

def breaks (r : Ray) (d i : Nat) : Bool := match rayStep rayCtx {} r with | .bvh x y => x == d && y == i | _ => false

def wants (r : Ray) (va : Nat) : Bool := match rayStep rayCtx {} r with | .need x => x == va | _ => false

def stops (r : Ray) : Bool := match rayStep rayCtx {} r with | .stop => true | _ => false

/-- Descent, an empty slot, a leaf, a user surface, the ends of a node at the root and below it, the ascent, the rules of R403, FIRST. -/
theorem witness_RayTraversal : (let root := 0xFFFFFFFF; let n := rayNode [2 ^ 30 + 2, 0, 2 ^ 31 + 2 ^ 26, 3 * 2 ^ 30] root; let at' := fun s => rayAt n { slot := s }
    let bad := fun refs frm => rayAt (rayNode refs frm) {}; let up := fun refs => rayAt (rayNode refs root) { node := 2, frm := 0, phase := 1, slot := 4 }
    leads (at' 0) { node := 2, frm := 0 } && leads (at' 1) { slot := 2 } && leads (at' 2) { slot := 2, phase := 2 } && leads (at' 3) { slot := 3, phase := 3 } && stops (at' 4) &&
    leads { at' 3 with pos := { node := 2, frm := 0, slot := 4 } } { node := 2, frm := 0, slot := 4, phase := 1 } && leads (up [2 ^ 30 + 2, 0, 0, 0]) { slot := 1 } && breaks (up [0, 0, 0, 0]) 9 2 &&
    breaks (bad [2 ^ 30, 0, 0, 0] root) 1 0 && breaks (bad [0, 2 ^ 30 + 4, 0, 0] root) 1 4 && breaks (bad [0, 0, 0, 0] 7) 2 0 && breaks (bad [5, 0, 0, 0] root) 3 0 &&
    breaks (bad [2 ^ 30 + 2, 2 ^ 30 + 2, 0, 0] root) 3 0 && wants { at' 0 with lines := [] } 0x20000 && wants { at' 2 with pos := { slot := 2, phase := 2 } } 0x21000 &&
    wants { at' 3 with pos := { slot := 3, phase := 3 } } 0x23000 && leads { at' 0 with geo := { (at' 0).geo with org := [0x4000000000000000, 0, 0xC000000000000000] } } { slot := 1 } &&
    stops { at' 0 with first := true, geo := { geo0 with hit := some (1, 0) } } && (rayVa 0xFFFFFFFFFF80 128).isNone) = true := by decide +kernel

/-- Entry 0, a triangle about the ray, and entry 1, a sphere of radius 2 about vertex 0; the checks of both; a leaf's last primitive. -/
theorem witness_RayTests_primitives : (let one : Nat := 0x3FF0000000000000; let neg : Nat := 0xBFF0000000000000; let e := fun (l : List Nat) => BitVec.ofNat 1024 (leNat (l.flatMap fun w => leBytes w 4))
    let verts := BitVec.ofNat 1024 (leNat ([neg, neg, 0, 0, one, neg, 0, 0, 0, one, 0, 0].flatMap fun w => leBytes w 8))
    let n := rayNode [0, 0, 2 ^ 31 + 2 ^ 26, 0] 0xFFFFFFFF; let ok := [0, 1, 2, 0, 2 ^ 30, 0, 0, 0x40000000]
    let r := fun (l : List Nat) (k : Nat) => { rayAt n { slot := 2, phase := 2, primoff := k } with lines := [(0x400, n), (0x420, e l), (0x440, verts)] }
    let hits := fun (x : Ray) (w : Nat × Nat) => (match rayStep rayCtx {} x with | .go _ y => decide (y.geo.hit = some w ∧ y.geo.tmax ≠ x.geo.tmax) | _ => false)
    hits (r ok 0) (1, 0) && leads (r ok 0) { slot := 2, phase := 2, primoff := 1 } && hits (r ok 1) (2, 1) && leads (r ok 1) { slot := 3 } && breaks (r [2 ^ 31] 0) 8 0 && breaks (r [0, 0, 0, 1] 0) 3 0 &&
    breaks (r [0, 2 ^ 30] 0) 3 0 && breaks (r [2 ^ 30, 1] 0) 3 0 && breaks (r [3] 0) 5 3 && breaks (r [2, 3] 0) 5 3 && breaks (r [2, 2, 4] 0) 5 4 && breaks (r [2 ^ 30 + 3] 0) 5 3 && breaks (r [2 ^ 30 + 2] 0) 3 0 &&
    (match primTest rayCtx (r ok 0) 2 (fun y => .go [] y) with | .bvh 4 2 => true | _ => false)) = true := by decide +kernel

/-- Boxes with a NaN, with LO above HI, beside a ray with no direction along x; vertices that are not finite; the axes and an edge's two directions. -/
theorem witness_RayTests : (let g : RaySeg := { org := [0, 0, 0xC000000000000000], dir := [0, 0, 0x3FF0000000000000], tmin := 0, tmax := 0x4010000000000000 }
    let box := [0xBF800000, 0xBF800000, 0xBF800000, 0x3F800000, 0x3F800000, 0x3F800000]; let zero := FVal.fin false 0 0; let v := [zero, zero, zero]
    (boxTest g box).isSome && (boxTest g (box.set 0 0x7FC00000)).isNone && (boxTest g (box.set 0 0x40000000)).isNone && (boxTest g ((box.set 0 0x3F000000).set 3 0x3F800000)).isNone &&
    (triTest .f64 g v v [zero, .nan false, zero]).isNone && (sphereTest g [.inf false, zero, zero] (1, 0)).isNone && mainAxis [(1, 1), (-2, 0), (1, 0)] == 0 && mainAxis [(1, 0), (-3, 0), (1, 0)] == 1 &&
    edgeSign (1, 0) ((0, 0), (0, 0), (0, 0)) ((1, 0), (0, 0), (0, 0)) != edgeSign (-1, 0) ((1, 0), (0, 0), (0, 0)) ((0, 0), (0, 0), (0, 0))) = true := by decide +kernel

/-! ### Further clauses: launches, crews, images -/

/-- LAUNCH of a legal record: a free entry takes it; EVADD to 4 lets the team go that waits for 4 with EVWAIT, and EVWAIT of a count once reached goes on, behind a load not. -/
theorem witness_LaunchWords_accepted : (let s := launching
    let o : State := { s with others := [(17, { s.team with id := { s.team.id with tno := 1 }, sched := { s.team.sched with wait := some (.event 5 4) } })] }
    let met := { s with events := [(5, { count := 0, ctx := some 0 })] }.mapTeam fun t => t.setArr 5 (some 1)
    let ld : State := { s with ops := (base.flying (.load .plain 2 false false 9 [0] [{ lane := 0, va := 0x30000, pa := 0x30000 }] [] true)).ops, nextOp := 1 }
    launchStatus s 0 0 0 launchRec == 0 &&
    thenDoes o (.evsig 4 0) (.loadReturn []) 0 (fun u => ((u.teamAt 17).arr 5).isSome) && runs met (.evwait 4 8 0) (fun u => (u.team.arr 5).isNone) &&
    waits ld (.evwait 4 7 0) .fence && loadsBusy ld 16 && traps s (.rqbindStat 9 8) codeRqueue 0 4 && traps s (.evwait 8 8 0) codeEvent 0 4 && traps s (.evsig 5 0) codeEvent 0 0xFFFFFFF6) = true := by decide +kernel

/-- A launch table with entry 0 free alone: it takes the record, and no launch completes. -/
def crowded : State := { launching with dies := [(0, { launches := (List.range 511).map fun k => (k + 1, { state := .held, gen := 1, words := launchRec }) })] }

theorem witness_LaunchWords_mayAccept : mayAccept crowded 0 0 launchRec := by
  have one : freeLaunches crowded 0 = [0] := by decide +kernel
  have gens : ∀ e ∈ (crowded.die 0).launches, e.2.gen < 2 ^ 20 := by decide +kernel
  refine ⟨by decide, fun k => ?_, ?_⟩
  · have h := smGet_mem_or {} (crowded.die 0).launches k
    unfold State.launchAt
    generalize (crowded.die 0).launches = l at gens h ⊢
    rcases h with h | h
    · exact gens _ h
    · rw [h]; decide
  · unfold acceptLaunch
    simp only [one, List.length_singleton, Nat.mod_one]
    decide +kernel

/-- A legal record at a launch port, of a live team and of one that has ended. -/
theorem witness_LaunchEngineEvents_ended : (let p := fun (al : Bool) => (base.mapTeam fun t => { t with id := { t.id with alive := al }, q := smSet {} t.q 1 { port := 4, pushed := [{
      words := launchRec.flatMap fun (w : W64) => [w.setWidth 32, (w >>> 32).setWidth 32], lane := 0, stamp := 0 }] } }).atPlace { crew := 1, q := 1 }
    launchStatus (p true) 0 0 0 launchRec == 0 && launchStatus (p false) 0 0 0 launchRec == 0 && (p false).ops.isEmpty && ((p false).crew 1).state == .run && !(p false).team.id.alive) = true := by decide +kernel

/-- A record of two teams of 32 lanes whose crew level is bound to L2, and so to slots of its own: its crew takes a slot of core 0 and one of core 1, and starts there. -/
def spreadRec : List W64 := [0x10000, 0x77, 1, 0, 0x2000000000080, 3, 0, 0]

def spreading : State := { State.reset with
  dies := [(0, { launches := [(0, { state := .running, gen := 1, words := spreadRec })] })]
  cores := [(0, { slots := [(2, { valid := true, state := 1, lhandle := 1, crew := 8 })] }), (1, { slots := [(3, { valid := true, state := 1, lhandle := 1, crew := 8 })] })]
  crews := [(8, { state := .starting, handle := 1, words := spreadRec, spots := [(0, 2), (1, 3)], ceil := 2 })]
  site := { crew := 8 } }

theorem witness_CrewsComeAndGo_spread : (lSpread spreadRec && lTeams spreadRec == 2 && allBound (spreading.crew 8) && (lInq spreadRec).isNone &&
    next (exec .crewStart spreading) (fun u => (u.crew 8).state == .run && (u.teamAt 128).id.core == 0 && (u.teamAt 129).id.core == 1 && (u.teamAt 129).pc == 0x10000 && (u.teamAt 129).cls == 2)) = true := by decide +kernel

/-- Crew 1 with a small team of two registers, each of two lanes, being saved to 0x100000. -/
def small : State := (seated false).mapTeam fun t => { t with id := { t.id with nregs := 2, width := 2 }, live := 3, m := 2, r := { s := [(3, 7)], v := [(vKey 1 1, 9)] }, join := [{ rj := 8, save := 3, other := 1, opc := 4 }] }

/-- A restore that its image does not allow ends the crew with MCE.CREW: no save area, another header, a section of one byte whose decoded length is 0. -/
theorem witness_CrewsComeAndGo_badImage : (let b := (seated false).withCrew fun c => { c with state := .restoring, gen := 4 }; let none' := b.withCrew fun c => { c with area := 0 }
    let bad := setHomeBytes b 0x100000 (imageHeader b 1 1 ++ [0, 0, 0, 0, 1]); let ends := fun (s : State) => next (exec .crewRestore s) fun u => (u.crew 1).cause == some causeMce
    allBound (b.crew 1) && !headerFits b (b.crew 1) && ends b && ends none' && headerFits bad (bad.crew 1) && (readImage bad 1).isNone && ends bad) = true := by decide +kernel

/-- The sections of that team are read back; its image has room and no codec. -/
theorem witness_SaveImages : (let t := small.team; let b : Team := { id := t.id }; let l := crewSections small 1
    (rdScalars b (scalarBytes t)).1.sNow 3 == 7 && (rdVectors b (vectorBytes t)).1.vNow 1 1 == 9 && (let a := (rdSeq b (seqBytes t)).1; a.m == 2 && a.join == t.join && a.pc == t.pc) &&
    (small.die 0).saveTabs.isEmpty && l.foldl (fun n x => upTo128 (n + x.bytes.length)) (upTo128 (64 + 16 * l.length)) ≤ 2 ^ 22 && small.poison.isEmpty &&
    (let r : Region := { desc := [1, 0, 0, 0, 0, 0, 0, 0], state := .full, gen := 3, poison := true, scope := 5 }; regionOf (fun k => r.bytes.getD k 0) == r)) = true := by decide +kernel

/-- A load of a saved crew returns. -/
theorem witness_LateReturns : (let s := data.mapTeam fun t => { t with m := 1, live := 1, id := { t.id with nregs := 10, width := 1 } }
    let saved := fun (u : State) => u.withCrew fun c => { c with state := .saved, area := 0x400000 }
    next (exec (.ld 2 9 1 0 0 0) s) (fun u => (u.op 0).isSome && (u.op 0).all (fun o => loadTurn (saved u) o && mayPerform (saved u) o) &&
      next (exec (.lateReturn []) (saved u)) fun w => w.team.vNow 9 0 == 0x1234 && w.ops.isEmpty)) = true := by decide +kernel

/-! ### Further clauses: registers, soft errors, the fabric and compositing engines -/

/-- What register of die 0's block, or of another site, a write leaves. -/
def wrote (s : State) (off : BitVec 32) (v : W64) (f : State → Bool) : Bool := next (exec (.registerWrite off v) s) f

/-- Each register at the ends of its range: POOL and RAMP, WAITLIM, the shares, AGELIM, RTIMEOUT, the job table, the rings, a slot's row, BAR0, the allowances. -/
theorem witness_RegistersAndTheHost_bounds : (let s := base; let d1 : State := { s with site := { die := 1 } }; let f := s.atPlace { n := 1 }; let row := fun (u : State) => u.row 0 2
    wrote s 0x100 0x000001FFE0000000 (fun u => (u.arb 0).pool == 825 && (u.arb 0).ramp == 1) && wrote s 0x100 0x0000000005FFFFFF (fun u => (u.arb 0).pool == 47 && (u.arb 0).ramp == 255) &&
    wrote s 0x180 0x3FF (fun u => (u.die 0).regs.waitlim == 1024) && wrote s 0x208 0x1F (fun u => smGet 4 (u.die 0).regs.ways 1 == 16) && wrote s 0x21C 0x7F (fun u => smGet 16 (u.die 0).regs.bw 3 == 64) &&
    wrote d1 0x200 5 (fun u => u == d1) && wrote s 0x400 0xFF (fun u => (u.fab 0).agelim == 256) && wrote s 0x400 0x1FFFF (fun u => (u.fab 0).agelim == 65536) &&
    wrote s 0x488 0xFFFFFFFFFFFFFFFF (fun u => (u.fab 0).jobs == [(15, 0x8000FFFF0000FFFF)]) && wrote s 0x500 7 (fun u => (u.die 0).regs.ifl.base == 7) && wrote s 0x528 21 (fun u => (u.die 0).regs.ras.log == 6) &&
    wrote s 0x528 20 (fun u => (u.die 0).regs.ras.log == 20) && wrote s 0x52C 9 (fun u => (u.die 0).regs.ras.head == 9) && slotThere 0 2 && wrote s 0x10040 0x0F800000 (fun u => row u == { ceil := 3, qos := 3, idem := true }) &&
    wrote s 0x10044 9 (fun u => row u == { lhandle := 9 }) && wrote s 0x1004C 0xFFFFFFFF (fun u => row u == { rfbase := 511, rflen := 1023 }) && wrote s 0x10050 0xFFFFFFFF (fun u => row u == { spbase := 2047, splen := 4095 }) &&
    wrote s 0x10058 0x100000 (fun u => row u == { area := 0x100000 }) && wrote f 8 0x37 (fun u => (u.fn 0).sqctl == 0x47) && wrote f 8 0xC8 (fun u => (u.fn 0).sqctl == 0xC0) && wrote f 0x18 5 (fun u => (u.fn 0).cqbase == 5) &&
    wrote f 0x1080 0xFF (fun u => (u.fn 16).allow == 63) && wrote (s.atPlace { n := 48 }) 0 0x40 (fun u => (u.fn 16).atomics)) = true := by decide +kernel

/-- An error in one core's L1 copy, and in one die's L2, leaves the home and the other copies. -/
theorem witness_SoftErrorsAreConfined_copies : (let l : LineCopy := { data := 0xAB, valid := 1 }
    let s : State := { base with cores := [(0, { l1 := [(0x400, l)], wb := [(0x400, l), (0x401, l)] }), (1, { l1 := [(0x400, l)] })], dies := [(0, { l2 := [(0x400, l)] })] }
    next (exec (.softError (.cacheLine (.l1 0) 0x20001)) s) (fun u => (u.core 0).l1 == [(0x400, { l with bad := 1 })] && (u.core 1).l1 == [(0x400, l)] && !isPoison u 0x20000 && (u.die 0).l2 == [(0x400, l)]) &&
    next (exec (.softError (.cacheLine (.writeBuffer 0) 0x20001)) s) (fun u => (u.core 0).wb == [(0x400, { l with bad := 1 }), (0x401, l)] && (u.core 0).l1 == [(0x400, l)]) &&
    next (exec (.softError (.cacheLine (.l2 0) 0x20001)) s) (fun u => (u.die 0).l2 == [(0x400, { l with bad := 1 })] && u.cores == s.cores)) = true := by decide +kernel

/-- A running plan of context 6 whose release at POD waits for an element of its team is torn and freed later; one without a release is freed. -/
theorem witness_FunctionAndContextEnd_release : (let p : Plan := { used := true, ctx := 6, state := 1, words := object, run := { rank := 0, table := ranks, team := 16, rel := some 5 } }
    let s := fun (p : Plan) => ({ inserted with dies := inserted.dies.map fun e => (e.1, { e.2 with comp := { plans := [(3, p)] } }), site := { n := 6 } } : State)
    next (exec .contextTeardown (s p)) (fun u => (u.plan 0 3).torn && (u.plan 0 3).run.ending.isSome) &&
    next (exec .contextTeardown (s { p with run := { p.run with rel := some 4 } })) (fun u => !(u.plan 0 3).used)) = true := by decide +kernel

/-- RSVS.ret sends its slots back with the stream's number 7; 512 buffers: the oldest departs. -/
theorem witness_FabricEvents_eviction : (let s : State := remote.mapTeam fun t => t
    let b : Nat → SpBuf := fun k => { dest := 1 + k, job := 5, recs := false, items := [], first := 0, last := 9 }
    let full := aged ({ b 600 with last := 3 } :: (List.range 511).map b) []; let i : SpItem := { team := 16, lane := 0, pc := 0x10004, body := .el 0 0 kindStore false 0 none }
    (jobOf s 0 0) == some 5 && runs s (.rsvsRet 2) (fun u => u.net.length == 1 && (u.spin 0).next 0 5 true == 1 && (u.team.qreg 2).resv == 0) && i.body.queue.isNone && (full.spin 0).evicted.isEmpty &&
    (let r := spInsert full 0 0 5 i; !r.2 && ((r.1.spin 0).bufs.filter fun x => x.departing).map (fun x => x.dest) == [601])) = true := by decide +kernel

/-- TENC behind a store of its team waits; with nothing before it, its register gets the status; a chunk of a FAILED run is taken, of a CANCELLED one only acknowledged. -/
theorem witness_CompositingEvents_order : (let s := planned 2 {}
    let x : TileOp := { table := some 0, d := 20, src := 0x23000, dst := 0x26000, srcPages := [(2, 0x20000)], dstPages := [(2, 0x20000)], acq := false, rel := false, scope := 0 }
    let st : Op := { id := 0, team := 16, crew := 1, gen := 0, flag := none, kind := .store .plain [({ lane := 0, va := 0x40000, pa := 0x40000 }, [1])] }
    let o : Op := { st with id := 1, kind := .tile x }; let w : State := { s with ops := [st, o], nextOp := 2, site := { op := 1, crew := 1 } }
    let tree : List W64 := [0x1434F4C4C, 0x400000007, 0xAA, 1, 0x22000, 0x24000, 0x21000, 0]
    let c : Chunk := { job := 5, planId := 7, run := 4, step := 0, src := 1, dst := 0, index := 0, digest := digestOf tree, flags := 0, units := [(0, { bytes := [], poison := true })] }
    let t := fun (st : Nat) => ({ base with dies := [(0, { regs := { fab := { jobs := [(0, 0x8000000000000005)] } }, comp := { plans := [(3, { used := true, gen := 2, words := tree, count := 4, state := st, run := {
      table := [(0, 0, 0), (1, 0, 1), (2, 0, 2), (3, 0, 3)] } })] } })] } : State)
    !mayEngine w o && next (exec .tileCodingComplete w) (fun u => u == w) && mayEngine { w with ops := [o] } o &&
    next (exec (.chunkArrival c) (t 3)) (fun u => (u.plan 0 3).run.seen == [(0, 1, 0)] && (u.plan 0 3).run.waiting.length == 1 && u.out.length == 1) &&
    next (exec (.chunkArrival { c with digest := [] }) (t 3)) (fun u => u == t 3) && next (exec (.chunkArrival c) (t 4)) (fun u => (u.plan 0 3).run.seen.isEmpty && u.out == [.chunkAck 1 0 5 7 4 0 1 0])) = true := by decide +kernel

end Sys2Proof.Tests
end

section
/-! SUPPORT. What the operations between a core and the home leave of the machine: they change caches, memory with its poison and the lines
of the LLC, and nothing else. -/

open Sys2Proof Sys2Proof.Machine

namespace Sys2Proof.Machine

/-! ### Accesses change caches and memory alone -/

/-- Two states differ in memory with its poison, in what write buffers, L1s, node caches, L2s and the LLC hold, and in nothing else. -/
def OnlyMemory (s u : State) : Prop :=
  (∃ c d m p l, u = { s with cores := c, dies := d, mem := m, poison := p, llc := l }) ∧
  (∀ k, ∃ w a n, u.core k = { s.core k with wb := w, l1 := a, node := n }) ∧ ∀ d, ∃ l, u.die d = { s.die d with l2 := l }

theorem OnlyMemory.refl (s : State) : OnlyMemory s s := ⟨⟨_, _, _, _, _, rfl⟩, fun _ => ⟨_, _, _, rfl⟩, fun _ => ⟨_, rfl⟩⟩

theorem OnlyMemory.trans {s u v : State} (h : OnlyMemory s u) (h' : OnlyMemory u v) : OnlyMemory s v := by
  obtain ⟨⟨c, d, m, p, l, rfl⟩, hc, hd⟩ := h
  obtain ⟨⟨c', d', m', p', l', rfl⟩, hc', hd'⟩ := h'
  refine ⟨⟨_, _, _, _, _, rfl⟩, fun k => ?_, fun k => ?_⟩
  · obtain ⟨w, a, n, e⟩ := hc k
    obtain ⟨w', a', n', e'⟩ := hc' k
    exact ⟨w', a', n', by rw [e', e]⟩
  · obtain ⟨x, e⟩ := hd k
    obtain ⟨x', e'⟩ := hd' k
    exact ⟨x', by rw [e', e]⟩

section
variable {s u : State}

theorem OnlyMemory.team (h : OnlyMemory s u) : u.team = s.team := by obtain ⟨⟨_, _, _, _, _, rfl⟩, -, -⟩ := h; rfl
theorem OnlyMemory.others (h : OnlyMemory s u) : u.others = s.others := by obtain ⟨⟨_, _, _, _, _, rfl⟩, -, -⟩ := h; rfl
theorem OnlyMemory.crews (h : OnlyMemory s u) : u.crews = s.crews := by obtain ⟨⟨_, _, _, _, _, rfl⟩, -, -⟩ := h; rfl
theorem OnlyMemory.ops (h : OnlyMemory s u) : u.ops = s.ops := by obtain ⟨⟨_, _, _, _, _, rfl⟩, -, -⟩ := h; rfl
theorem OnlyMemory.site (h : OnlyMemory s u) : u.site = s.site := by obtain ⟨⟨_, _, _, _, _, rfl⟩, -, -⟩ := h; rfl
theorem OnlyMemory.fresh (h : OnlyMemory s u) : u.fresh = s.fresh := by obtain ⟨⟨_, _, _, _, _, rfl⟩, -, -⟩ := h; rfl
theorem OnlyMemory.teamAt (h : OnlyMemory s u) (k : Nat) : u.teamAt k = s.teamAt k := by obtain ⟨⟨_, _, _, _, _, rfl⟩, -, -⟩ := h; rfl
theorem OnlyMemory.crew (h : OnlyMemory s u) (c : Nat) : u.crew c = s.crew c := by obtain ⟨⟨_, _, _, _, _, rfl⟩, -, -⟩ := h; rfl
theorem OnlyMemory.meant (h : OnlyMemory s u) (k n : Nat) : u.meant k n = s.meant k n := by obtain ⟨⟨_, _, _, _, _, rfl⟩, -, -⟩ := h; rfl
theorem OnlyMemory.fused (h : OnlyMemory s u) (d : Nat) : (u.die d).fused = (s.die d).fused := by
  obtain ⟨l, e⟩ := h.2.2 d; rw [e]
theorem OnlyMemory.fusedCluster (h : OnlyMemory s u) (d k : Nat) : fusedCluster u d k = fusedCluster s d k := by
  unfold Machine.fusedCluster; rw [h.fused]
theorem OnlyMemory.l1Home (h : OnlyMemory s u) (d k line : Nat) : l1Home u d k line = l1Home s d k line := by
  unfold Machine.l1Home; rw [h.fusedCluster]
theorem OnlyMemory.l1Sharers (h : OnlyMemory s u) (d k : Nat) : l1Sharers u d k = l1Sharers s d k := by
  unfold Machine.l1Sharers; rw [h.fusedCluster]

end

/-- A core's write buffer, L1 and node cache are replaced. -/
theorem onlyMemory_setCore (s : State) (ck : Nat) (w : List (Nat × LineCopy)) (a : SMap LineCopy) (n : SMap (Option NodeLine)) :
    OnlyMemory s (s.setCore ck { s.core ck with wb := w, l1 := a, node := n }) := by
  refine ⟨⟨_, _, _, _, _, rfl⟩, fun k => ?_, fun d => ⟨_, rfl⟩⟩
  rw [State.core_setCore]
  split
  · rename_i e; subst e; exact ⟨_, _, _, rfl⟩
  · exact ⟨_, _, _, rfl⟩

/-- A die's L2 is replaced. -/
theorem onlyMemory_setDie (s : State) (d : Nat) (l : SMap LineCopy) : OnlyMemory s (s.setDie d { s.die d with l2 := l }) := by
  refine ⟨⟨_, _, _, _, _, rfl⟩, fun k => ⟨_, _, _, rfl⟩, fun k => ?_⟩
  rw [State.die_setDie]
  split
  · rename_i e; subst e; exact ⟨_, rfl⟩
  · exact ⟨_, rfl⟩

/-- Memory, its poison and the lines of the LLC are replaced. -/
theorem onlyMemory_mem (s : State) (m : List Host.Cell) (p : SMap Bool) (l : List Nat) : OnlyMemory s { s with mem := m, poison := p, llc := l } :=
  ⟨⟨_, _, _, _, _, rfl⟩, fun _ => ⟨_, _, _, rfl⟩, fun _ => ⟨_, rfl⟩⟩

/-- A fold of steps that change caches and memory alone changes nothing else. -/
theorem onlyMemory_foldl {β : Type} (f : State → β → State) (hf : ∀ s b, OnlyMemory s (f s b)) (l : List β) (s : State) : OnlyMemory s (l.foldl f s) :=
  foldl_keeps (OnlyMemory s) f (fun u b h => h.trans (hf u b)) l s (.refl s)

theorem onlyMemory_backByte (s : State) (pa : Nat) (b : Byte) (bad : Bool) : OnlyMemory s (backByte s pa b bad) := onlyMemory_mem s _ _ _

theorem onlyMemory_l2Byte (d : Nat) (s : State) (pa : Nat) (b : Byte) (bad : Bool) : OnlyMemory s (l2Byte d s pa b bad) := onlyMemory_setDie s d _

theorem onlyMemory_eachDirty (l : LineCopy) (line : Nat) (f : State → Nat → Byte → Bool → State) (hf : ∀ s pa b bad, OnlyMemory s (f s pa b bad))
    (s : State) : OnlyMemory s (eachDirty l line f s) :=
  eachDirty_keeps (OnlyMemory s) f (fun u pa b bad h => h.trans (hf u pa b bad)) l line s (.refl s)

theorem onlyMemory_setHomeBytes (bs : List Byte) (s : State) (pa : Nat) : OnlyMemory s (setHomeBytes s pa bs) := by
  obtain ⟨m, p, l, e⟩ := setHomeBytes_frame bs s pa
  rw [e]; exact onlyMemory_mem s m p l

theorem onlyMemory_poisonLine (s : State) (pa : Nat) : OnlyMemory s (poisonLine s pa) := onlyMemory_mem s s.mem _ s.llc

theorem onlyMemory_drainHead (s : State) (d k : Nat) : OnlyMemory s (drainHead s d k) := by
  unfold drainHead
  dsimp only
  split
  · exact .refl s
  · exact (onlyMemory_setCore s _ _ _ _).trans (onlyMemory_eachDirty _ _ _ (onlyMemory_l2Byte d) _)

theorem onlyMemory_drainFirst (d k n : Nat) (s : State) : OnlyMemory s (drainFirst d k n s) := by
  induction n generalizing s with
  | zero => exact .refl s
  | succ n ih => exact (onlyMemory_drainHead s d k).trans (ih _)

theorem onlyMemory_drainWb (s : State) (d k : Nat) : OnlyMemory s (drainWb s d k) := onlyMemory_drainFirst _ _ _ _

theorem onlyMemory_drainLine (s : State) (d k line : Nat) : OnlyMemory s (drainLine s d k line) := onlyMemory_drainFirst _ _ _ _

theorem onlyMemory_drainShared (s : State) (d k : Nat) : OnlyMemory s (drainShared s d k) :=
  onlyMemory_foldl _ (fun u j => onlyMemory_drainWb u d j) _ _

theorem onlyMemory_drainOthers (s : State) (d k line : Nat) : OnlyMemory s (drainOthers s d k line) :=
  onlyMemory_foldl _ (fun u j => by
    split
    · exact .refl u
    · exact onlyMemory_drainLine u d j line) _ _

theorem onlyMemory_othersOut (s : State) (d k : Nat) (l : List Nat) : OnlyMemory s (s.othersOut d k l) :=
  onlyMemory_foldl _ (fun u pa => onlyMemory_drainOthers u d k (pa / 128)) l s

theorem onlyMemory_fillL2 (s : State) (d line : Nat) : OnlyMemory s (fillL2 s d line) := by
  unfold fillL2
  dsimp only
  split
  · exact .refl s
  · exact (onlyMemory_setDie s d _).trans (onlyMemory_mem _ _ _ _)

theorem onlyMemory_fillL1 (s : State) (d k line : Nat) : OnlyMemory s (fillL1 s d k line) := by
  unfold fillL1
  dsimp only
  split
  · exact .refl s
  · exact ((onlyMemory_foldl _ (fun u j => onlyMemory_drainLine u d j line) _ _).trans (onlyMemory_fillL2 _ d line)).trans (onlyMemory_setCore _ _ _ _ _)

theorem onlyMemory_storeOwn (s : State) (d k pa : Nat) (b : Byte) : OnlyMemory s (storeOwn s d k pa b) := by
  unfold storeOwn
  dsimp only
  split
  · exact onlyMemory_setCore s _ _ _ _
  · exact (onlyMemory_setCore s _ _ _ _).trans (onlyMemory_setCore _ _ _ _ _)

theorem onlyMemory_storeByte (s : State) (d k pa : Nat) (b : Byte) : OnlyMemory s (storeByte s d k pa b) :=
  (onlyMemory_drainOthers s d k _).trans (onlyMemory_storeOwn _ d k pa b)

theorem onlyMemory_storeBytes (bs : List Byte) (s : State) (d k pa : Nat) : OnlyMemory s (storeBytes s d k pa bs) := by
  induction bs generalizing s pa with
  | nil => exact .refl s
  | cons b r ih => exact (onlyMemory_storeByte s d k pa b).trans (ih _ _)

theorem onlyMemory_writeBackLine (s : State) (d line : Nat) : OnlyMemory s (writeBackLine s d line) :=
  (onlyMemory_setDie s d _).trans (onlyMemory_eachDirty _ _ _ onlyMemory_backByte _)

theorem onlyMemory_writeBackL2 (s : State) (d : Nat) : OnlyMemory s (writeBackL2 s d) :=
  onlyMemory_foldl (fun u (e : Nat × LineCopy) => writeBackLine u d e.1) (fun u e => onlyMemory_writeBackLine u d e.1) (s.die d).l2 s

theorem onlyMemory_dropL1 (s : State) (ck : Nat) : OnlyMemory s (dropL1 s ck) := onlyMemory_setCore s ck _ _ _

theorem onlyMemory_dropNode (s : State) (ck : Nat) : OnlyMemory s (dropNode s ck) := onlyMemory_setCore s ck _ _ _

theorem onlyMemory_invalL1 (s : State) (d k : Nat) : OnlyMemory s (invalL1 s d k) := by
  unfold invalL1
  split
  · exact onlyMemory_foldl _ (fun u j => onlyMemory_dropL1 u _) _ s
  · exact onlyMemory_dropL1 s _

theorem onlyMemory_invalL2 (s : State) (d : Nat) : OnlyMemory s (invalL2 s d) := (onlyMemory_writeBackL2 s d).trans (onlyMemory_setDie _ d _)

theorem onlyMemory_releaseAt (s : State) (d k scope : Nat) : OnlyMemory s (releaseAt s d k scope) := by
  unfold releaseAt
  dsimp only
  split
  · exact .refl s
  · split
    · exact onlyMemory_drainShared s d k
    · exact (onlyMemory_drainShared s d k).trans (onlyMemory_writeBackL2 _ d)

theorem onlyMemory_acquireAt (s : State) (d k scope : Nat) : OnlyMemory s (acquireAt s d k scope) := by
  have hn := onlyMemory_dropNode s (coreKey d k)
  have hi := hn.trans (onlyMemory_invalL1 _ d k)
  unfold acquireAt
  dsimp only
  split
  · exact .refl s
  · split
    · split
      · exact hn
      · exact hn.trans (onlyMemory_dropL1 _ _)
    · split
      · exact hi
      · exact hi.trans (onlyMemory_invalL2 _ d)

theorem onlyMemory_settleLine (s : State) (d k line : Nat) : OnlyMemory s (settleLine s d k line) :=
  (onlyMemory_drainLine s d k line).trans (onlyMemory_writeBackLine _ d line)

theorem onlyMemory_forgetLine (s : State) (d k line : Nat) : OnlyMemory s (forgetLine s d k line) :=
  ((onlyMemory_setCore s _ _ _ _).trans (onlyMemory_setCore _ _ _ _ _)).trans (onlyMemory_setDie _ _ _)

theorem onlyMemory_storeHome (s : State) (d k pa : Nat) (bs : List Byte) : OnlyMemory s (storeHome s d k pa bs) :=
  ((onlyMemory_settleLine s d k _).trans (onlyMemory_setHomeBytes bs _ pa)).trans (onlyMemory_forgetLine _ d k _)

theorem onlyMemory_spoilCopy (s : State) (place : CachePlace) (line : Nat) : OnlyMemory s (spoilCopy s place line) := by
  cases place with
  | writeBuffer ck => exact onlyMemory_setCore s ck _ _ _
  | l1 ck => exact onlyMemory_setCore s ck _ _ _
  | l2 d => exact onlyMemory_setDie s d _

theorem onlyMemory_poisonStore (s : State) (d k pa : Nat) : OnlyMemory s (poisonStore s d k pa) :=
  (((onlyMemory_spoilCopy s _ _).trans (onlyMemory_spoilCopy _ _ _)).trans (onlyMemory_spoilCopy _ _ _)).trans (onlyMemory_poisonLine _ pa)

theorem onlyMemory_markLeaf (s : State) (e : W64) (pa : Nat) (wr : Bool) : OnlyMemory s (markLeaf s e pa wr) := by
  unfold markLeaf
  split
  · exact .refl s
  · exact onlyMemory_setHomeBytes _ s pa

theorem onlyMemory_walkAccess (s : State) (ctx va : Nat) (a : Access) (sup : Bool) : OnlyMemory s (walkAccess s ctx va a sup).1 := by
  unfold walkAccess
  cases walk s ctx va with
  | bad lvl mce => exact .refl s
  | absent => exact .refl s
  | lazyLeaf _ _ => exact .refl s
  | leaf e pa large =>
    dsimp only
    cases permFault e a sup with
    | some d => exact .refl s
    | none => exact onlyMemory_markLeaf s e pa _

end Sys2Proof.Machine
end

section
open Sys2Proof Sys2Proof.Machine

namespace Sys2Proof.Machine

@[simp] theorem reset_die (d : Nat) : State.reset.die d = {} := rfl
@[simp] theorem reset_crew (c : Nat) : State.reset.crew c = {} := rfl
@[simp] theorem reset_core (k : Nat) : State.reset.core k = {} := rfl

end Sys2Proof.Machine

/-- Settles O9: every table that the reset state lists is empty, so each lookup gives the value of an unlisted entry. -/
theorem resetValues : Obligations.ResetValues := by
  unfold Obligations.ResetValues
  refine ⟨rfl, rfl, fun c => by rw [reset_crew], fun k n => by rw [reset_core]; rfl, fun d => ?_⟩
  simp only [State.fab, State.arb, reset_die]
  decide
end

section
open Sys2Proof Sys2Proof.Machine

namespace Sys2Proof.Machine

/-! ### Prefixes and the start of a clause -/

/-- A prefix that nothing stands against comes into force. -/
theorem prefWord_eq {may : Usage → Bool} {f : Pfx → Pfx} {s : State} (h : prefFault s.team may = none) :
    prefWord may f s = s.mapTeam fun t => t.prefixed f := by
  rw [prefWord, h]

/-- Passing teams over touches the other teams alone, and no team's key. -/
theorem passOver_spec (s : State) (key : Nat) : (∃ a o, passOver s key = { s with team := a, others := o }) ∧
    (passOver s key).teamAt key = s.teamAt key := by
  unfold passOver
  dsimp only
  refine foldl_keeps (fun u : State => (∃ a o, u = { s with team := a, others := o }) ∧ u.teamAt key = s.teamAt key) _
    (fun u e hu => ?_) _ _ ⟨⟨s.team, s.others, rfl⟩, rfl⟩
  obtain ⟨⟨a, o, rfl⟩, ht⟩ := hu
  split
  · exact ⟨⟨a, o, rfl⟩, ht⟩
  · rename_i hne
    refine ⟨?_, ?_⟩
    · obtain ⟨b, p, e⟩ := State.updTeam_frame ({ s with team := a, others := o } : State) e.1 _
      exact ⟨b, p, e⟩
    · exact (State.teamAt_updTeam _ _ key _ (by intro t; rfl)).trans ((if_neg fun e => hne e.symm).trans ht)

/-- The team with the key issues, and nothing else than the places of the teams has changed. -/
theorem checkOut_spec (s : State) (k : Nat) : ∃ o, s.checkOut k = { s with team := s.teamAt k, others := o } := by
  unfold State.checkOut State.teamAt
  split
  · exact ⟨s.others, rfl⟩
  · exact ⟨_, rfl⟩

/-- A team that has no acquire to settle starts a clause whose fetch hits, that is not poisoned, legal, and with no flag of WAIT busy. -/
theorem startClause_begins {s : State} {key : Nat} {l : Leaf} (hq : (s.teamAt key).eng.acq = none) (hp : pcOk (pcClause (s.teamAt key).pc) = true)
    (hl : lookup s (s.teamAt key).coreK (s.teamAt key).key (s.teamAt key).id.ctx (pcClause (s.teamAt key).pc) .fetch (s.teamAt key).sup = .hit l)
    (hb : anyPoison s (leafPa (s.teamAt key).id.die l (pcClause (s.teamAt key).pc).toNat) 16 = false) (c : Clause)
    (hc : c = clauseAt s (s.crew (s.teamAt key).id.crew).since (pcClause (s.teamAt key).pc)
      (leafPa (s.teamAt key).id.die l (pcClause (s.teamAt key).pc).toNat))
    (hf : c.fault = none) (hw : pcSlot (s.teamAt key).pc = 0 → c.header.extractLsb' 20 12 &&& (s.teamAt key).busy = 0) :
    startClause s key = { s.checkOut key with team := (s.teamAt key).begin c s.tick, progress := s.progress + 1 } := by
  obtain ⟨o, e⟩ := checkOut_spec s key
  have hs : settleAcq (s.checkOut key) = s.checkOut key := by rw [settleAcq, e]; simp only [hq]
  have hwait : ¬(decide (pcSlot (s.teamAt key).pc = 0) && decide (c.header.extractLsb' 20 12 &&& (s.teamAt key).busy ≠ 0)) = true := by
    simpa using hw
  rw [startClause, hs, e, fetchClause]
  have hl' : lookup { s with team := s.teamAt key, others := o } (s.teamAt key).coreK (s.teamAt key).key (s.teamAt key).id.ctx
      (pcClause (s.teamAt key).pc) .fetch (s.teamAt key).sup = .hit l := hl
  have hb' : anyPoison { s with team := s.teamAt key, others := o } (leafPa (s.teamAt key).id.die l (pcClause (s.teamAt key).pc).toNat) 16 = false := hb
  simp only [hp, Bool.not_true, Bool.false_eq_true, if_false, hl', hb']
  have hc' : clauseAt { s with team := s.teamAt key, others := o } (State.crew { s with team := s.teamAt key, others := o } (s.teamAt key).id.crew).since
      (pcClause (s.teamAt key).pc) (leafPa (s.teamAt key).id.die l (pcClause (s.teamAt key).pc).toNat) = c := hc.symm
  rw [hc', beginClause]
  simp only [hf]
  rw [if_neg hwait]
  rfl

theorem Team.begin_clause (t : Team) (c : Clause) (tick : Nat) : (t.begin c tick).clause = some c := rfl

/-- Beginning a clause touches the clause, the program counter, the prefixes and the accounts alone. -/
theorem Team.begin_kept (t : Team) (c : Clause) (tick : Nat) : KeptAtWordEnd (t.begin c tick) t := by
  refine ⟨?_, ?_, ?_, ?_, ?_, ?_, ?_, ?_, ?_, ?_, ?_, ?_, ?_, ?_, ?_, ?_, ?_⟩ <;> rfl

/-- Settles O13: a prefix by its definition; CLAUSE_START by what the team finds at its program counter, which the teams passed over do not
change. -/
theorem prefixesAndClauseStart : Obligations.PrefixesAndClauseStart := by
  unfold Obligations.PrefixesAndClauseStart
  refine ⟨fun s => ⟨fun v h => ?_, fun n p h => ?_⟩, ?_⟩
  · exact congrArg Host.Outcome.next (prefWord_eq h)
  · exact congrArg Host.Outcome.next (prefWord_eq h)
  · intro s l key tm hk hi hn hq hp hl pa c hb hf hw
    obtain ⟨hready, hnone⟩ : (standsReady s tm && acqDone s tm) = true ∧ tm.sched.wait.isNone = true := by
      simpa only [canIssue, Bool.and_eq_true] using hi
    have htry : mayTry s tm = true := by rw [mayTry, hready, hnone]; rfl
    have hstart : startClause s key = { s.checkOut key with team := tm.begin c s.tick, progress := s.progress + 1 } :=
      startClause_begins hq hp (by rw [show (s.teamAt key).key = key from hk]; exact hl) hb c rfl hf hw
    obtain ⟨⟨a, o, e⟩, ht⟩ := passOver_spec s key
    have hpass : startClause (passOver s key) key =
        { (passOver s key).checkOut key with team := tm.begin c s.tick, progress := s.progress + 1 } := by
      have ht' : (passOver s key).teamAt key = tm := ht
      have := @startClause_begins (passOver s key) key l (by rw [ht']; exact hq) (by rw [ht']; exact hp)
        (by rw [ht', hk, e]; exact hl) (by rw [ht', e]; exact hb) c (by rw [ht', e]; rfl) hf (by rw [ht']; exact hw)
      rw [this, ht', e]
    refine ⟨tm.begin c s.tick, ?_, rfl, rfl, tm.begin_kept c s.tick⟩
    have hopen : (startClause s key).team.clause.isSome = true := by rw [hstart]; rfl
    change execClauseStart s = _
    rw [execClauseStart]
    change (if (tm.key ≠ key || !mayTry s tm) = true then _ else if tm.clause.isSome = true then _ else
      if (startClause s key).team.clause.isSome = true then _ else _) = _
    rw [if_neg (by simp [hk, htry]), if_neg (by simp [hn]), if_pos hopen, hpass]

end Sys2Proof.Machine
end

section
/-! Fences (R19, R261, R262). -/

open Sys2Proof Sys2Proof.Machine

namespace Sys2Proof.Machine

@[simp] theorem teamAt_own (s : State) : s.teamAt s.team.key = s.team := if_pos rfl

/-- Departing buffers belong to the fabric engine of a die. -/
theorem flushTeam_frame (s : State) (d key : Nat) (p : Nat → Bool) : ∃ x, flushTeam s d key p = s.setSpin d x := ⟨_, rfl⟩

/-- What a release at a scope does for the team that issues, once it may. -/
theorem releaseTeam_eq (s : State) (sc : Nat) : s.releaseTeam sc = releaseAt s s.team.id.die s.team.id.core (s.meant s.team.key sc) := by
  rw [State.releaseTeam, State.releaseFor, teamAt_own]

theorem acquireTeam_eq (s : State) (sc : Nat) : s.acquireTeam sc = acquireAt s s.team.id.die s.team.id.core (s.meant s.team.key sc) := by
  rw [State.acquireTeam, State.acquireFor, teamAt_own]

/-- A load of a team is among the accesses that it waits for at a release. -/
theorem isMem_of_isLoad {k : OpKind} (h : k.isLoad = true) : k.isMem = true := by
  cases k <;> simp_all [OpKind.isLoad, OpKind.isMem]

theorem loadsBusy_of_memBusy {s : State} {key : Nat} (h : memBusy s key = false) : loadsBusy s key = false := by
  rw [memBusy, List.any_eq_false] at h
  rw [loadsBusy, List.any_eq_false]
  intro o ho hl
  simp only [Bool.and_eq_true] at hl h
  exact h o ho ⟨⟨⟨hl.1.1.1, isMem_of_isLoad hl.1.1.2⟩, hl.1.2⟩, hl.2⟩

/-- Waiting for loads asks the operations and the teams. -/
theorem OnlyMemory.loadsBusy {s u : State} (h : OnlyMemory s u) (key : Nat) : loadsBusy u key = loadsBusy s key := by
  obtain ⟨⟨_, _, _, _, _, rfl⟩, -, -⟩ := h; rfl

/-- Where a release by the team that issues stands, by the scope that it means: it waits for accesses, or for elements, or goes on from the state that
it leaves. -/
theorem withRelease_eq (s : State) (sc : Nat) (k : State → Res) : let t := s.team; let n := s.meant t.key sc
    let s1 := if 5 ≤ n then flushTeam s t.id.die t.key (fun _ => true) else s
    withRelease s sc k = if memBusy s t.key = true then .block s .fence
      else if 5 ≤ n ∧ spindleCount s1 t.id.die t.key (fun _ => true) ≠ 0 then .block s1 .fence
      else k (releaseAt s1 t.id.die t.id.core n) := by
  intro t n s1
  unfold withRelease
  dsimp only
  by_cases hb : memBusy s s.team.key = true
  · rw [if_pos hb, if_pos hb]
  · rw [if_neg hb, if_neg hb]
    by_cases hn : 5 ≤ n
    · have e1 : s1 = flushTeam s s.team.id.die s.team.key fun _ => true := if_pos hn
      rw [if_pos (show 5 ≤ s.meant s.team.key sc from hn), ← e1, releaseTeam_eq]
      obtain ⟨x, e⟩ := flushTeam_frame s s.team.id.die s.team.key fun _ => true
      have hm : s1.meant s1.team.key sc = n := by rw [e1, e]; rfl
      have ht : s1.team = t := by rw [e1, e]; rfl
      rw [hm, ht]
      by_cases hs : spindleCount s1 t.id.die t.key (fun _ => true) = 0
      · rw [if_neg (not_not_intro hs), if_neg (fun h => h.2 hs)]
      · rw [if_pos hs, if_pos ⟨hn, hs⟩]
    · have e1 : s1 = s := if_neg hn
      rw [if_neg (show ¬5 ≤ s.meant s.team.key sc from hn), if_neg (fun h => hn h.1), releaseTeam_eq, e1]

/-- The acquire of a word of the team that issues. -/
theorem withAcquire_eq (s : State) (sc : Nat) (k : State → Res) : withAcquire s sc k =
    if loadsBusy s s.team.key = true then .block s .fence else k (acquireAt s s.team.id.die s.team.id.core (s.meant s.team.key sc)) := by
  rw [withAcquire, acquireTeam_eq]

/-- After a release that went on, the acquire of FENCE.AR finds every load with its value. -/
theorem withAcquire_released {s u : State} (h : OnlyMemory s u) (sc : Nat) (hb : memBusy s s.team.key = false) :
    withAcquire u sc ok = ok (acquireAt u s.team.id.die s.team.id.core (s.meant s.team.key sc)) := by
  rw [withAcquire_eq, h.team, h.loadsBusy, loadsBusy_of_memBusy hb, h.meant]
  exact if_neg Bool.false_ne_true

/-- CREW means the scope of the domain that the crew is bound to. -/
theorem meant_own (s : State) (sc : BitVec 3) :
    s.meant s.team.key sc.toNat = if sc = 1 then (s.crew s.team.id.crew).scope else sc.toNat := by
  have h : sc.toNat = 1 ↔ sc = 1 := by bv_omega
  rw [State.meant, teamAt_own, Crew.means]
  by_cases e : sc = 1
  · rw [if_pos (h.mpr e), if_pos e]
  · rw [if_neg (fun x => e (h.mp x)), if_neg e]

/-- Settles O39: what a release and an acquire wait for is asked of the operations in flight, and neither changes more than caches and memory. -/
theorem fences : Obligations.Fences := by
  unfold Obligations.Fences
  intro s sc t n s1 left
  refine ⟨meant_own s sc, fun hr => ⟨fun hb => ?_, fun hb => ?_⟩, ?_, (onlyMemory_acquireAt _ _ _ _).team, ?_⟩
  · refine waits_of_block (f := fun s => withAcquire s sc.toNat ok) rfl hr ?_
    rw [withAcquire_eq, if_pos hb]
  · refine runs_of_ok (f := fun s => withAcquire s sc.toNat ok) rfl hr ?_
    rw [withAcquire_eq, hb]; rfl
  · obtain ⟨ht1, ho1, ha1, hm1⟩ : s1.team = s.team ∧ s1.ops = s.ops ∧ (∀ k, s1.teamAt k = s.teamAt k) ∧ ∀ k m, s1.meant k m = s.meant k m := by
      obtain ⟨x, e⟩ := flushTeam_frame s t.id.die t.key fun _ => true
      by_cases hn : 5 ≤ n
      · rw [show s1 = s.setSpin t.id.die x from (if_pos hn).trans e]; exact ⟨rfl, rfl, fun _ => rfl, fun _ _ => rfl⟩
      · rw [show s1 = s from if_neg hn]; exact ⟨rfl, rfl, fun _ => rfl, fun _ _ => rfl⟩
    intro i u hi hr
    obtain ⟨f, he, hgo, hteam⟩ : ∃ k : State → Res, exec i s = runWord i s (fun s => withRelease s sc.toNat k) ∧
        (memBusy s t.key = false → k (releaseAt s1 t.id.die t.id.core n) = ok u) ∧ u.team = t := by
      have hrel := onlyMemory_releaseAt s1 t.id.die t.id.core n
      rcases hi with ⟨rfl, rfl⟩ | ⟨rfl, rfl⟩
      · exact ⟨ok, rfl, fun _ => rfl, hrel.team.trans ht1⟩
      · refine ⟨fun s => withAcquire s sc.toNat ok, rfl, fun hb => ?_, ((onlyMemory_acquireAt _ _ _ _).team.trans hrel.team).trans ht1⟩
        have hb1 : memBusy s1 s1.team.key = false := by
          rw [ht1, ← hb]; unfold memBusy waitsCommit; simp only [ho1, ha1]; rfl
        refine (withAcquire_released hrel sc.toNat hb1).trans ?_
        rw [ht1, hm1]
    have hw := withRelease_eq s sc.toNat f
    refine ⟨fun hb => waits_of_block he hr ?_, fun hb hn hl => waits_of_block he hr ?_, fun hb hl => ⟨runs_of_ok he hr ?_, hteam⟩⟩
    · exact hw.trans (if_pos hb)
    · exact hw.trans ((if_neg (by rw [hb]; exact Bool.false_ne_true)).trans (if_pos ⟨hn, hl⟩))
    · exact hw.trans ((if_neg (by rw [hb]; exact Bool.false_ne_true)).trans ((if_neg fun h => h.2 (hl h.1)).trans (hgo hb)))
  · intro o ho hk hg hw
    have hg' : inGroup (s.teamAt t.key) o.id = false := by
      rw [show s.teamAt t.key = s.team from teamAt_own s, inGroup, show s.team.group = none from hg]
    refine ⟨fun hl => List.any_eq_true.mpr ⟨o, ho, ?_⟩, fun hl => List.any_eq_true.mpr ⟨o, ho, ?_⟩⟩ <;>
      rw [hl, hw, hg'] <;> simp [hk]

end Sys2Proof.Machine
end

section
/-! Stores performed (R242, R244, R256, R266) and poison overwritten (R45). -/

open Sys2Proof Sys2Proof.Machine

namespace Sys2Proof.Machine

/-! ### Plain stores of an operation -/

/-- A list of plain stores changes caches and memory alone. -/
theorem onlyMemory_stores (l : List (Nat × List Byte)) (s : State) (d k : Nat) :
    OnlyMemory s (l.foldl (fun s e => storeBytes s d k e.1 e.2) s) :=
  onlyMemory_foldl _ (fun u e => onlyMemory_storeBytes e.2 u d k e.1) l s

theorem stores_mem (l : List (Nat × List Byte)) (s : State) (d k : Nat) : (l.foldl (fun s e => storeBytes s d k e.1 e.2) s).mem = s.mem :=
  foldl_same State.mem _ (fun u e => storeBytes_mem e.2 u d k e.1) l s

theorem storeLane_plain (s : State) (o : Op) (a : LaneAcc) (bs : List Byte) :
    storeLane s o .plain a bs = storeBytes s (s.teamAt o.team).id.die (s.teamAt o.team).id.core a.pa bs := rfl

/-- The lanes of a plain store are performed as the stores of their bytes, by the core of the operation's team. -/
theorem storeLanes_plain (o : Op) (accs : List (LaneAcc × List Byte)) (s : State) :
    accs.foldl (fun s a => storeLane s o .plain a.1 a.2) s =
      (accs.map fun e => (e.1.pa, e.2)).foldl (fun u e => storeBytes u (s.teamAt o.team).id.die (s.teamAt o.team).id.core e.1 e.2) s := by
  suffices H : ∀ u : State, u.teamAt o.team = s.teamAt o.team → accs.foldl (fun s a => storeLane s o .plain a.1 a.2) u =
      (accs.map fun e => (e.1.pa, e.2)).foldl (fun u e => storeBytes u (s.teamAt o.team).id.die (s.teamAt o.team).id.core e.1 e.2) u from H s rfl
  induction accs with
  | nil => exact fun u _ => rfl
  | cons a r ih =>
    intro u hu
    rw [List.foldl_cons, List.map_cons, List.foldl_cons, storeLane_plain, hu]
    exact ih _ (((onlyMemory_storeBytes _ _ _ _ _).teamAt _).trans hu)

/-! ### A completed operation -/

/-- The flags of an operation's team once it completes, and every team's other fields. -/
theorem finishOp_teamAt (s : State) (o : Op) (k : Nat) : ∃ b, (finishOp s o).teamAt k = { s.teamAt k with busy := b } := by
  unfold finishOp
  dsimp only
  cases o.flag with
  | none => exact ⟨_, rfl⟩
  | some f =>
    dsimp only
    split
    · exact ⟨_, rfl⟩
    · rw [State.teamAt_updTeam]
      · split
        · rename_i e; subst e; exact ⟨_, rfl⟩
        · exact ⟨_, rfl⟩
      · intro t; rfl

/-- What a core reads is told by caches, dies and memory, which the end of an operation leaves. -/
theorem plainByte_finishOp (s : State) (o : Op) (d k pa : Nat) : plainByte (finishOp s o) d k pa = plainByte s d k pa := by
  obtain ⟨a, t, e⟩ := finishOp_spec s o
  rw [e]; rfl

theorem finishOp_ops_eq (s : State) (o : Op) : (finishOp s o).ops = s.ops.filter fun x => x.id ≠ o.id := by
  obtain ⟨a, t, e⟩ := finishOp_spec s o
  rw [e]

/-! ### Poison at the home -/

/-- A store at the home overwrites the poison of its bytes and of no other. -/
theorem poison_setHomeBytes (bs : List Byte) (s : State) (pa x : Nat) :
    smGet false (setHomeBytes s pa bs).poison x = if pa ≤ x ∧ x < pa + bs.length then false else smGet false s.poison x := by
  induction bs generalizing s pa with
  | nil => rw [if_neg (by simp)]; rfl
  | cons b r ih =>
    have e : smGet false (setHomeByte s pa b).poison x = if x = pa then false else smGet false s.poison x :=
      smGet_smSet false s.poison pa false x
    rw [setHomeBytes, ih, e, List.length_cons]
    by_cases h1 : x = pa
    · rw [if_pos h1, ite_self, if_pos (by omega)]
    · rw [if_neg h1]
      by_cases h2 : pa + 1 ≤ x ∧ x < pa + 1 + r.length
      · rw [if_pos h2, if_pos (by omega)]
      · rw [if_neg h2, if_neg (by omega)]

/-- A line is poisoned when a byte of it is marked. -/
theorem isPoison_iff (s : State) (x : Nat) : isPoison s x = true ↔ ∃ y, y / 128 = x / 128 ∧ smGet false s.poison y = true := by
  rw [isPoison, List.any_eq_true]
  constructor
  · rintro ⟨k, hk, h⟩
    rw [List.mem_range] at hk
    exact ⟨_, by omega, h⟩
  · rintro ⟨y, hy, h⟩
    refine ⟨y % 128, List.mem_range.mpr (by omega), ?_⟩
    rwa [← hy, Nat.div_add_mod' y 128]

/-- Settles O30: a plain store's lanes are stores of its core, which then reads the last of them; at the home a write gives its bytes and takes
their marks. -/
theorem storesArePerformed : Obligations.StoresArePerformed := by
  unfold Obligations.StoresArePerformed
  refine ⟨?_, fun s pa bs x => ⟨homeByte_setHomeBytes bs s pa x, poison_setHomeBytes bs s pa x, ?_⟩⟩
  · intro s o accs ho hk hp t
    let l := accs.map fun e => (e.1.pa, e.2)
    let u := l.foldl (fun u e => storeBytes u t.id.die t.id.core e.1 e.2) s
    have hu : OnlyMemory s u := onlyMemory_stores l s _ _
    have he : exec .storeComplete s = .next (finishOp u o) := by
      change execStoreComplete s = _
      simp only [execStoreComplete, ho, hk, hp, if_true, storeLanes_plain]
      rfl
    refine ⟨finishOp u o, he, ?_, ?_, fun pa => ?_, fun hf l => othersOut_unfused s _ _ l hf, ?_⟩
    · rw [finishOp_mem]; exact stores_mem l s _ _
    · rw [finishOp_ops_eq, hu.ops]
    · rw [plainByte_finishOp]; exact plainByte_stores l s _ _ pa
    · obtain ⟨b, e⟩ := finishOp_teamAt u o o.team
      rw [e, hu.teamAt]
  · rw [isPoison_iff]
    refine exists_congr fun y => and_congr_right fun _ => ?_
    rw [poison_setHomeBytes]
    by_cases h : pa ≤ y ∧ y < pa + bs.length
    · simp [h]
    · simp [h]

end Sys2Proof.Machine
end

section
/-! Loads that issue (R252, R255, R257, R258), and the bytes of a quantum buffer over those read (R272). -/

open Sys2Proof Sys2Proof.Machine

namespace Sys2Proof.Machine

/-! ### The quantum buffer over what is read (R272) -/

/-- The bytes of a list with their places, from a place on. -/
def bytesFrom (p : Nat) (bs : List Byte) : List (Nat × Byte) := ((List.range bs.length).zip bs).map fun e => (p + e.1, e.2)

theorem bytesFrom_cons (p : Nat) (b : Byte) (r : List Byte) : bytesFrom p (b :: r) = (p, b) :: bytesFrom (p + 1) r := by
  unfold bytesFrom
  rw [List.length_cons, List.range_succ_eq_map, List.zip_cons_cons, List.map_cons, List.zip_map_left, List.map_map]
  refine congrArg _ (List.map_congr_left fun e _ => ?_)
  show (p + (e.1 + 1), e.2) = (p + 1 + e.1, e.2)
  rw [Nat.add_assoc, Nat.add_comm 1]

/-- Of the bytes of a list at their places, the one at a place. -/
theorem find_bytesFrom (p q : Nat) (bs : List Byte) : ((bytesFrom p bs).find? fun h => h.1 = q).map Prod.snd =
    if p ≤ q ∧ q < p + bs.length then some (bs.getD (q - p) 0) else none := by
  induction bs generalizing p with
  | nil => rw [if_neg (by simp)]; rfl
  | cons b r ih =>
    rw [bytesFrom_cons, List.find?_cons, List.length_cons]
    by_cases h : p = q
    · subst h; simp
    · simp only [h, decide_false, ih]
      by_cases h2 : p + 1 ≤ q ∧ q < p + 1 + r.length
      · obtain ⟨m, hm⟩ : ∃ m, q - p = m + 1 := ⟨q - p - 1, by omega⟩
        rw [if_pos h2, if_pos (by omega), hm, show q - (p + 1) = m by omega]
        rfl
      · rw [if_neg h2, if_neg (by omega)]

/-- The store to a storage that an item of a quantum buffer is, if it is one. -/
def DqItem.storeTo (sc : Bool) : DqItem → Option (Nat × List Byte)
  | .store _ p c b => if c = sc then some (p, b) else none
  | _ => none

/-- What an item of a quantum buffer holds for a range of a storage. -/
def DqItem.held (sc : Bool) (pa n : Nat) (x : DqItem) : List (Nat × Byte) :=
  ((x.storeTo sc).elim [] fun e => bytesFrom e.1 e.2).filter fun h => pa ≤ h.1 && h.1 < pa + n

theorem filterMap_ite {α β : Type} (p : α → Bool) (f : α → β) (l : List α) :
    l.filterMap (fun e => if p e = true then some (f e) else none) = (l.filter p).map f := by
  induction l with
  | nil => rfl
  | cons a r ih => by_cases h : p a = true <;> simp [h, ih]

theorem heldBytes_eq (t : Team) (sc : Bool) (pa n : Nat) : heldBytes t sc pa n = t.dq.items.reverse.flatMap (DqItem.held sc pa n) := by
  unfold heldBytes
  refine congrArg (List.flatMap · _) (funext fun x => ?_)
  cases x with
  | store va p c b =>
    by_cases h : c = sc
    · simp only [DqItem.held, DqItem.storeTo, h, if_true, Option.elim_some, bytesFrom, List.filter_map]
      exact filterMap_ite (fun e : Nat × Byte => decide (pa ≤ p + e.1) && decide (p + e.1 < pa + n)) (fun e => (p + e.1, e.2)) _
    · simp [DqItem.held, DqItem.storeTo, h]
  | atomic _ => rfl
  | load _ => rfl

/-- The byte that a quantum buffer holds for a place of a range: that of its last store there. -/
theorem find_heldBytes (t : Team) (sc : Bool) (pa n q : Nat) (hq : pa ≤ q ∧ q < pa + n) :
    ((heldBytes t sc pa n).find? fun h => h.1 = q).map Prod.snd = storedByte (t.dq.items.filterMap (DqItem.storeTo sc)) q := by
  have item : ∀ x : DqItem, ((x.held sc pa n).find? fun h => h.1 = q).map Prod.snd =
      (x.storeTo sc).bind fun e => if e.1 ≤ q ∧ q < e.1 + e.2.length then some (e.2.getD (q - e.1) 0) else none := by
    intro x
    have e : (fun h : Nat × Byte => decide ((pa ≤ h.1 && h.1 < pa + n) = true ∧ decide (h.1 = q) = true)) = fun h => decide (h.1 = q) := by
      funext h
      by_cases e : h.1 = q
      · simp [e, hq]
      · simp [e]
    unfold DqItem.held
    rw [List.find?_filter]
    cases x.storeTo sc with
    | none => rfl
    | some y => simp only [Option.elim_some, Option.bind_some, ← find_bytesFrom]; exact congrArg (fun p => (List.find? p _).map Prod.snd) e
  rw [heldBytes_eq]
  induction t.dq.items using List.reverseRecOn with
  | nil => rfl
  | append_singleton l x ih =>
    rw [List.reverse_append, List.reverse_singleton, List.singleton_append, List.flatMap_cons, List.find?_append, List.filterMap_append]
    cases hx : x.storeTo sc with
    | none =>
      have e := item x
      rw [hx, Option.bind_none, Option.map_eq_none_iff] at e
      rw [e, Option.none_or, ih, List.filterMap_cons_none hx, List.filterMap_nil, List.append_nil]
    | some y =>
      have e := item x
      rw [hx, Option.bind_some] at e
      rw [Option.map_or, e, ih, List.filterMap_cons_some hx, List.filterMap_nil, storedByte_append]
      by_cases h : y.1 ≤ q ∧ q < y.1 + y.2.length
      · rw [if_pos h, if_pos h]; rfl
      · rw [if_neg h, if_neg h]; rfl

/-- The bytes of a quantum buffer stand over those read (R272). -/
theorem overHeld_getD (held : List (Nat × Byte)) (pa j : Nat) (bs : List Byte) (hj : j < bs.length) :
    (overHeld held pa bs).getD j 0 = ((held.find? fun h => h.1 = pa + j).map Prod.snd).getD (bs.getD j 0) := by
  have e : (overHeld held pa bs).getD j 0 = ((held.find? fun h => h.1 = pa + j).map Prod.snd).getD bs[j] := by
    simp only [overHeld, List.getD_eq_getElem?_getD, List.getElem?_map, Option.map_some, Option.getD_some,
      show ((List.range bs.length).zip bs)[j]? = some (j, bs[j]) by simp [hj]]
  rw [e, List.getD_eq_getElem _ _ hj]

/-! ### Issue -/

/-- A word whose addresses pass their checks and are translated does what it does with its accesses. -/
theorem withAccess_ok {s : State} {as : List (Nat × W64)} {n : Nat} {a : Access} {accs : List LaneAcc} (f : State → List LaneAcc → Res)
    (hc : addrCheck as n false = none) (ht : translateLanes s as a = .ok accs) : withAccess s as n a f = f s accs := by
  rw [withAccess, hc]; dsimp only; rw [ht]

/-- A load that starts and marks vector registers pending leaves what `loadStarted` says. -/
theorem startLoadOp_vPend (s : State) (sp : Space) (z : BitVec 3) (sg sc : Bool) (d0 : Nat) (ws : List Nat) (accs : List LaneAcc)
    (h : List (Nat × Byte)) (al : Bool) (d n : Nat) (words : List Nat) (id : Nat) :
    (startLoadOp s sp z sg sc d0 ws accs h al).mapTeam (fun t => t.vPend d n words id) =
      s.loadStarted (fun h => .load sp z sg sc d0 ws accs h al) h (s.team.vPend d n words id).r.vpend s.team.r.spend := by
  unfold startLoadOp State.loadStarted
  split
  · rw [startOp_eq]; rfl
  · exact startOp_vPend _ _ _ _ _ _

/-- The same of scalar registers. -/
theorem startLoadOp_sPend (s : State) (sp : Space) (z : BitVec 3) (sg sc : Bool) (d0 : Nat) (ws : List Nat) (accs : List LaneAcc)
    (h : List (Nat × Byte)) (al : Bool) (d n id : Nat) :
    (startLoadOp s sp z sg sc d0 ws accs h al).mapTeam (fun t => t.sPend d n id) =
      s.loadStarted (fun h => .load sp z sg sc d0 ws accs h al) h s.team.r.vpend (s.team.sPend d n id).r.spend := by
  unfold startLoadOp State.loadStarted
  split
  · rw [startOp_eq]; rfl
  · exact startOp_sPend _ _ _ _ _

/-- A mask word of a mask lies among its 32. -/
theorem maskWords_lt {w : Nat} {m : Mask} {k : Nat} (h : k ∈ maskWords w m) : k < 32 := by
  by_contra hk
  have hz : maskWord m k = 0 := by
    apply BitVec.eq_of_getLsbD_eq
    intro i hi
    simp only [maskWord, BitVec.getLsbD_setWidth, BitVec.getLsbD_ushiftRight, BitVec.getLsbD_of_ge m (32 * k + i) (by omega), Bool.and_false]
    exact BitVec.getLsbD_zero.symm
  exact absurd hz (by simpa using (List.mem_filter.mp h).2)

/-- Pending bits of registers in some mask words. -/
theorem Team.vPend_at (t : Team) (d n : Nat) (ws : List Nat) (id r k : Nat) (hw : ∀ j ∈ ws, j < 32) (hk : k < 32) :
    smGet 0 (t.vPend d n ws id).r.vpend (r * 32 + k) = if d ≤ r ∧ r < d + n ∧ k ∈ ws then id else smGet 0 t.r.vpend (r * 32 + k) := by
  have e : r * 32 + k ∈ (List.range n).flatMap (fun r => ws.map fun k => (d + r) * 32 + k) ↔ d ≤ r ∧ r < d + n ∧ k ∈ ws := by
    simp only [List.mem_flatMap, List.mem_range, List.mem_map]
    constructor
    · rintro ⟨a, ha, b, hb, h⟩
      have := hw b hb
      obtain rfl : b = k := by omega
      exact ⟨by omega, by omega, hb⟩
    · rintro ⟨h1, h2, h3⟩
      exact ⟨r - d, by omega, k, h3, by rw [Nat.add_sub_cancel' h1]⟩
  rw [t.vPend_get]
  exact if_congr e rfl rfl

/-- What a quantum buffer holds for a list of accesses of memory. -/
def heldFor (t : Team) (n : Nat) (accs : List LaneAcc) : List (Nat × Byte) := accs.flatMap fun a => heldBytes t false a.pa n

theorem not_not_true_of {b : Bool} (h : b = true) : ¬(!b) = true := by rw [h]; exact Bool.false_ne_true

/-- A load to vector registers whose accesses are at hand: with none it is done, without room in the slots it waits, and else it is in flight
with the mask words of its lanes pending. -/
theorem issueLoad_cases (i : Instr) (s : State) (f : State → Res) (sp : Space) (z : BitVec 3) (sg : Bool) (d : BitVec 7)
    (accs : List LaneAcc) (al : Bool) (h : List (Nat × Byte)) (he : exec i s = runWord i s f) (hr : s.ready i)
    (hf : f s = issueLoad s sp z sg d accs al) (hh : heldFor s.team (szBytes z) (accs.filter fun a => !farLane sp a) = h) (hs : sp ≠ .scratch) :
    (accs = [] → Runs i s s .next) ∧
    (accs ≠ [] → let w := maskWords s.team.id.width (maskOf (accs.map fun a => a.lane))
      let k := fun h => OpKind.load sp z sg false d.toNat w accs h al
      (mayEnter s (k h) = false → Waits i s s .slots) ∧
      (mayEnter s (k h) = true → ∃ vp, (∀ r j, j < 32 → smGet 0 vp (r * 32 + j) =
          if d.toNat ≤ r ∧ r < d.toNat + szRegs z ∧ j ∈ w then s.nextOp + 1 else smGet 0 s.team.r.vpend (r * 32 + j)) ∧
        Runs i s (s.loadStarted k h vp s.team.r.spend) .next)) := by
  have hsc : (sp == Space.scratch) = false := by simpa using hs
  subst hh
  refine ⟨fun ha => runs_of_ok he hr (hf.trans (by rw [issueLoad, if_pos ha])), fun ha => ⟨fun hm => ?_, fun hm => ?_⟩⟩
  · refine waits_of_block he hr (hf.trans ?_)
    rw [issueLoad, if_neg ha]
    simp only [hsc]
    exact if_pos ((Bool.not_eq_true' _).mpr hm)
  · refine ⟨_, fun r j hj => Team.vPend_at s.team _ _ _ _ r j (fun _ => maskWords_lt) hj, runs_of_ok he hr (hf.trans ?_)⟩
    rw [issueLoad, if_neg ha]
    simp only [hsc]
    refine (if_neg (not_not_true_of hm)).trans ?_
    exact congrArg ok (startLoadOp_vPend s sp z sg false d.toNat _ accs _ al d.toNat (szRegs z) _ _)

/-- Settles O27: each load issues through `issueLoad`, or its scalar form, from the accesses that its checks give. -/
theorem loadsIssue : Obligations.LoadsIssue := by
  unfold Obligations.LoadsIssue
  refine ⟨fun t sc pa j bs hj => ?_, fun s z => ⟨?_, ?_, ?_⟩⟩
  · have e : DqItem.storeTo sc = fun x => match x with | .store _ p c b => if c = sc then some (p, b) else none | _ => none := by
      funext x; cases x <;> rfl
    rw [overHeld_getD _ _ _ _ hj, find_heldBytes t sc pa bs.length (pa + j) (by omega), e] <;> rfl
  · intro d o sp g l accs hr as hc ht
    have hfar : ∀ x : LaneAcc, farLane (if l = 1 then .home else .plain) x = false := fun x => by
      unfold farLane; split <;> rfl
    refine issueLoad_cases (.ld z d o sp g l) s _ (if l = 1 then .home else .plain) z (g = 1) d accs true _ (show execLd z d o sp g l s = _ from rfl) hr
      (withAccess_ok _ hc ht) ?_ ?_
    · simp only [hfar, Bool.not_false, List.filter_true]; rfl
    · split <;> simp
  · intro d o sp g nra accs hr as hc ht far
    refine issueLoad_cases (.ldb z d o sp g nra) s _ (if far = [] then .plain else .remote) z (g = 1) d (accs ++ far) (nra = 0) _
      (show execLdb z d o sp g nra s = _ from rfl) hr ?_ ?_ ?_
    · dsimp only
      rw [hc]; dsimp only; rw [ht]
    · by_cases hf : far = []
      · have hn : ∀ x : LaneAcc, farLane .plain x = false := fun _ => rfl
        simp only [hf, if_true, List.append_nil, hn, Bool.not_false, List.filter_true]; rfl
      · have hv : ∀ x ∈ far, vaClass x.va = .fabric := by
          intro x hx
          obtain ⟨a, ha, rfl⟩ := List.mem_map.mp hx
          simpa using (List.mem_filter.mp ha).2
        have hl : (far.filter fun a => !farLane .remote a) = [] := List.filter_eq_nil_iff.mpr fun x hx => by simp [farLane, hv x hx]
        have hr' : ∀ a : LaneAcc, (!farLane .remote a) = decide (vaClass a.va ≠ .fabric) := fun a => by
          by_cases e : vaClass a.va = .fabric <;> simp [farLane, e]
        rw [if_neg hf, if_neg hf, List.filter_append, hl, List.append_nil]
        simp only [hr']; rfl
    · split <;> simp
  · intro d sp g l accs hr as hc ht
    have hw : ∀ f : State → List LaneAcc → Res, withAccess s as (szBytes z) .read f = f s accs := fun f => withAccess_ok f hc ht
    refine ⟨fun ha => ?_, fun ha => ?_⟩
    · subst ha
      refine runs_of_ok (show execLdk z d sp g l s = _ from rfl) hr ?_
      dsimp only
      rw [hw]; rfl
    · intro h k
      have ha' : ¬accs.take 1 = [] := by cases accs <;> simp_all
      refine ⟨fun hm => waits_of_block (show execLdk z d sp g l s = _ from rfl) hr ?_, fun hm => ⟨_, fun r => Team.sPend_get s.team d.toNat (szRegs z) (s.nextOp + 1) r, runs_of_ok (show execLdk z d sp g l s = _ from rfl) hr ?_⟩⟩
      · dsimp only
        rw [hw, if_neg ha', if_pos ((Bool.not_eq_true' _).mpr hm)]
      · dsimp only
        rw [hw, if_neg ha', if_neg (not_not_true_of hm)]
        exact congrArg ok (startLoadOp_sPend s _ z _ true d.toNat [0] _ h true d.toNat (szRegs z) _)

end Sys2Proof.Machine
end

section
/-! Loads that return (R254, R255, R257, R258), in place and late (R30, R31). -/

open Sys2Proof Sys2Proof.Machine

namespace Sys2Proof.Machine

/-! ### Registers that receive a value or a marker -/

/-- Keys written one after another with one value, in any table. -/
theorem smGet_foldl_const {α β : Type} [DecidableEq β] (z x : β) (f : α → Nat) (l : List α) (m : SMap β) (j : Nat) :
    smGet z (l.foldl (fun m k => smSet z m (f k) x) m) j = if j ∈ l.map f then x else smGet z m j := by
  induction l generalizing m with
  | nil => simp
  | cons a r ih =>
    rw [List.foldl_cons, ih, smGet_smSet, List.map_cons]
    by_cases h1 : j ∈ r.map f <;> by_cases h2 : j = f a <;> simp [h1, h2]

/-- A team with its scalar registers and their markers replaced. -/
def Team.withS (t : Team) (v : SMap W32) (m : SMap (Option Mark)) : Team := { t with r := { t.r with s := v, smarks := m } }

/-- The registers that a value is written to lose their markers. -/
theorem Team.setVn_unmarks (n : Nat) (t : Team) (r l x k : Nat) (hk : k < n) : smGet none (t.setVn r l x n).r.vmarks (vKey (r + k) l) = none := by
  have keep : ∀ (n : Nat) (t : Team) (r x j : Nat), smGet none t.r.vmarks j = none → smGet none (t.setVn r l x n).r.vmarks j = none := by
    intro n
    induction n with
    | zero => exact fun _ _ _ _ h => h
    | succ n ih =>
      intro t r x j h
      refine ih _ _ _ _ ?_
      rw [Team.setV_vmarks, smGet_smSet, h, ite_self]
  induction n generalizing t r x k with
  | zero => exact absurd hk (Nat.not_lt_zero k)
  | succ n ih =>
    cases k with
    | zero => exact keep n _ _ _ _ (by rw [Team.setV_vmarks, smGet_smSet, Nat.add_zero, if_pos rfl])
    | succ k =>
      rw [Team.setVn, show r + (k + 1) = r + 1 + k by omega]
      exact ih _ _ _ _ (by omega)

/-- Writing `n` scalar registers changes those registers with their markers and nothing else. -/
theorem Team.setSn_spec (n : Nat) (t : Team) (d x : Nat) : ∃ v m, t.setSn d x n = t.withS v m ∧
    (∀ k < n, smGet 0 v (d + k) = BitVec.ofNat 32 (x / 2 ^ (32 * k)) ∧ smGet none m (d + k) = none) ∧
    ∀ r, (r < d ∨ d + n ≤ r) → smGet 0 v r = smGet 0 t.r.s r ∧ smGet none m r = smGet none t.r.smarks r := by
  induction n generalizing t d x with
  | zero => exact ⟨t.r.s, t.r.smarks, rfl, by simp, fun _ _ => ⟨rfl, rfl⟩⟩
  | succ n ih =>
    obtain ⟨v, m, e, hv, ho⟩ := ih (t.setS d (BitVec.ofNat 32 x)) (d + 1) (x / 2 ^ 32)
    refine ⟨v, m, e, ?_, ?_⟩
    · intro k hk
      cases k with
      | zero =>
        have := ho d (by omega)
        simp only [Team.setS_s, Team.setS_smarks, smGet_smSet, if_true] at this
        simpa using this
      | succ k =>
        have := hv k (by omega)
        rw [show d + (k + 1) = d + 1 + k by omega, this.1, this.2, Nat.div_div_eq_div_mul, ← Nat.pow_add]
        refine ⟨?_, rfl⟩
        congr 3; omega
    · intro r hr
      have := ho r (by omega)
      have hne : ¬r = d := by omega
      simpa [hne] using this

/-- What a register of a lane, or a scalar register, holds after a load brought it its part of a value, or a marker. -/
def Received (z : BitVec 3) (sg : Bool) (g : Got) (r : Nat) (old new : W32) (mark : Option Mark) : Prop :=
  match g with
  | .val bs => new = BitVec.ofNat 32 (loadValue z sg bs / 2 ^ (32 * r)) ∧ mark = none
  | .bad m => new = old ∧ mark = some m

/-- A lane receives its value or its marker in its destination registers, and nothing else changes. -/
theorem deliver_lane (t : Team) (z : BitVec 3) (sg : Bool) (d l : Nat) (g : Got) (hl : l < 1024) : ∃ v m, deliver t z sg false d l g = t.withV v m ∧
    (∀ r l', l' < 1024 → (r < d ∨ d + szRegs z ≤ r ∨ l' ≠ l) → smGet 0 v (vKey r l') = t.vNow r l') ∧
    ∀ r < szRegs z, Received z sg g r (t.vNow (d + r) l) (smGet 0 v (vKey (d + r) l)) (smGet none m (vKey (d + r) l)) := by
  cases g with
  | val bs =>
    obtain ⟨v, m, e, hv, ho⟩ := Team.setVn_spec (szRegs z) t d l (loadValue z sg bs) hl
    refine ⟨v, m, e, fun r l' h1 h2 => (ho r l' h1 h2).1, fun r hr => ⟨hv r hr, ?_⟩⟩
    have := Team.setVn_unmarks (szRegs z) t d l (loadValue z sg bs) r hr
    rwa [e] at this
  | bad mk =>
    refine ⟨t.r.v, _, rfl, fun _ _ _ _ => rfl, fun r hr => ⟨rfl, ?_⟩⟩
    refine (smGet_foldl_const none (some mk) (fun r => vKey (d + r) l) (List.range (szRegs z)) t.r.vmarks _).trans (if_pos ?_)
    exact List.mem_map_of_mem (List.mem_range.mpr hr)

/-- The same of scalar registers. -/
theorem deliver_scalar (t : Team) (z : BitVec 3) (sg : Bool) (d l : Nat) (g : Got) : ∃ v m, deliver t z sg true d l g = t.withS v m ∧
    (∀ r, (r < d ∨ d + szRegs z ≤ r) → smGet 0 v r = t.sNow r) ∧
    ∀ r < szRegs z, Received z sg g r (t.sNow (d + r)) (smGet 0 v (d + r)) (smGet none m (d + r)) := by
  cases g with
  | val bs =>
    obtain ⟨v, m, e, hv, ho⟩ := Team.setSn_spec (szRegs z) t d (loadValue z sg bs)
    exact ⟨v, m, e, fun r h => (ho r h).1, hv⟩
  | bad mk =>
    refine ⟨t.r.s, _, rfl, fun _ _ => rfl, fun r hr => ⟨rfl, ?_⟩⟩
    refine (smGet_foldl_const none (some mk) (fun r => d + r) (List.range (szRegs z)) t.r.smarks _).trans (if_pos ?_)
    exact List.mem_map_of_mem (List.mem_range.mpr hr)

/-! ### A mask word is there -/

/-- When an operation completes, its team's flags are those of `busyAfter`, and the rest of the team stays. -/
theorem finishOp_own (s : State) (o : Op) : (finishOp s o).teamAt o.team = { s.teamAt o.team with busy := s.busyAfter o } := by
  unfold finishOp State.busyAfter
  dsimp only
  cases o.flag with
  | none => rfl
  | some f =>
    have e : (s.ops.filter fun x => x.id ≠ o.id).any (fun x => decide (x.team = o.team) && decide (x.flag = some f)) =
        s.ops.any fun x => decide (x.id ≠ o.id) && decide (x.team = o.team) && decide (x.flag = some f) := by
      rw [List.any_filter]; simp only [Bool.and_assoc]
    dsimp only
    rw [e]
    split
    · rfl
    · rw [State.teamAt_updTeam, if_pos rfl]
      · rfl
      · intro t; rfl

/-- A load whose word `k` is there: it leaves with its last word, else it stays with those still to come. -/
def settleWords (s : State) (o : Op) (left : List Nat) (k : OpKind) : State :=
  if left = [] then finishOp s { o with kind := k } else { s.updOp o.id (fun _ => { o with kind := k }) with progress := s.progress + 1 }

theorem settleWords_spec (s : State) (o : Op) (left : List Nat) (k : OpKind) : let u := settleWords s o left k
    (left = [] → u.ops = s.ops.filter (fun x => x.id ≠ o.id) ∧ (u.teamAt o.team).busy = s.busyAfter o) ∧
    (left ≠ [] → u.ops = s.ops.map (fun x => if x.id = o.id then { o with kind := k } else x) ∧ (u.teamAt o.team).busy = (s.teamAt o.team).busy) ∧
    (∃ b, u.teamAt o.team = { s.teamAt o.team with busy := b }) ∧ u.mem = s.mem := by
  intro u
  by_cases h : left = []
  · have e : u = finishOp s { o with kind := k } := if_pos h
    have ht : u.teamAt o.team = { s.teamAt o.team with busy := s.busyAfter o } := by rw [e]; exact finishOp_own s { o with kind := k }
    exact ⟨fun _ => ⟨by rw [e]; exact finishOp_ops_eq s _, by rw [ht]⟩, fun h' => absurd h h', ⟨_, ht⟩, by rw [e, finishOp_mem]⟩
  · have e : u = { s.updOp o.id (fun _ => { o with kind := k }) with progress := s.progress + 1 } := if_neg h
    exact ⟨fun h' => absurd h' h, fun _ => ⟨by rw [e]; rfl, by rw [e]; rfl⟩, ⟨_, by rw [e]; rfl⟩, by rw [e]; rfl⟩

/-! ### What a lane reads -/

/-- Two states have the same teams and operations. -/
def SameTeams (s u : State) : Prop := u.team = s.team ∧ u.others = s.others ∧ u.ops = s.ops

theorem OnlyMemory.sameTeams {s u : State} (h : OnlyMemory s u) : SameTeams s u := ⟨h.team, h.others, h.ops⟩

theorem SameTeams.teamAt {s u : State} (h : SameTeams s u) (k : Nat) : u.teamAt k = s.teamAt k := by
  rw [State.teamAt, State.teamAt, h.1, h.2.1]

/-- What a lane of memory gets, for a read of its core or at its home, and what the read leaves. -/
theorem readLane_local (s : State) (o : Op) (sp : Space) (n : Nat) (a : LaneAcc) (held : List (Nat × Byte)) (remote : List RemoteLine) (al : Bool)
    (hsp : sp ≠ .scratch) (hl : sp ≠ .remote ∨ vaClass a.va ≠ .fabric) : let t := s.teamAt o.team
    ∃ u g, readLane s t.id.die t.id.core t.id.ctx sp n a remote al = (u, some g) ∧ heldOver held a.pa n g = s.laneGot o sp n a held ∧
      SameTeams s u ∧ (sp ≠ .home → u.mem = s.mem) := by
  intro t
  have hfar : (decide (sp = .remote) && decide (vaClass a.va = .fabric)) = false := by
    rcases hl with h | h <;> simp [h]
  by_cases hh : sp = .home
  · subst hh
    have hfw := (onlyMemory_settleLine s t.id.die t.id.core (a.pa / 128)).trans (onlyMemory_forgetLine _ t.id.die t.id.core (a.pa / 128))
    by_cases hp : anyPoison (settleLine s t.id.die t.id.core (a.pa / 128)) a.pa n = true
    · refine ⟨s, .bad (.data (a.va &&& ~~~0x7F#64)), ?_, ?_, ⟨rfl, rfl, rfl⟩, fun _ => rfl⟩
      · rw [readLane, if_neg (by rw [hfar]; exact Bool.false_ne_true), if_pos (by rw [if_pos rfl]; exact hp)]
      · exact congrArg (heldOver held a.pa n) (if_pos hp).symm
    · refine ⟨_, .val (homeBytes (forgetLine (settleLine s t.id.die t.id.core (a.pa / 128)) t.id.die t.id.core (a.pa / 128)) a.pa n), ?_, ?_,
        hfw.sameTeams, fun h => absurd rfl h⟩
      · rw [readLane, if_neg (by rw [hfar]; exact Bool.false_ne_true), if_neg (by rw [if_pos rfl]; exact hp), if_pos (by rfl)]
      · refine congrArg (heldOver held a.pa n) (Eq.trans ?_ (if_neg hp).symm)
        simp only [homeBytes, homeByte, forgetLine_mem]; rfl
  · have hfw := onlyMemory_fillL1 s t.id.die t.id.core (a.pa / 128)
    have hg : s.laneGot o sp n a held = heldOver held a.pa n (if plainPoison s t.id.die t.id.core a.pa n = true
        then .bad (.data (a.va &&& ~~~0x7F#64)) else .val (plainBytes (fillL1 s t.id.die t.id.core (a.pa / 128)) t.id.die t.id.core a.pa n)) := by
      cases sp with
      | plain => rfl
      | remote => rfl
      | home => exact absurd rfl hh
      | scratch => exact absurd rfl hsp
    by_cases hp : plainPoison s t.id.die t.id.core a.pa n = true
    · refine ⟨s, .bad (.data (a.va &&& ~~~0x7F#64)), ?_, ?_, ⟨rfl, rfl, rfl⟩, fun _ => rfl⟩
      · rw [readLane, if_neg (by rw [hfar]; exact Bool.false_ne_true), if_pos (by rw [if_neg hh]; exact hp)]
      · rw [hg, if_pos hp]
    · refine ⟨_, .val (plainBytes (fillL1 s t.id.die t.id.core (a.pa / 128)) t.id.die t.id.core a.pa n), ?_, ?_, hfw.sameTeams,
        fun _ => fillL1_mem _ _ _ _⟩
      · rw [readLane, if_neg (by rw [hfar]; exact Bool.false_ne_true), if_neg (by rw [if_neg hh]; exact hp), if_neg hh]
      · rw [hg, if_neg hp]

theorem exportLine_sameTeams (s : State) (job line : Nat) : SameTeams s (exportLine s job line).1 := by
  unfold exportLine
  dsimp only
  split
  · exact ⟨rfl, rfl, rfl⟩
  · rename_i c _
    split
    · exact ⟨rfl, rfl, rfl⟩
    · have h := (onlyMemory_walkAccess s c ((expBase s c).toNat + fabOff (BitVec.ofNat 64 (line * 128))) .read false).sameTeams
      split <;> rename_i e <;> rw [e] at h <;> exact h

/-- A line of a fabric address is found without a change to teams and operations. -/
theorem remoteLine_sameTeams (s : State) (d ctx : Nat) (remote : List RemoteLine) (line : Nat) : SameTeams s (remoteLine s d ctx remote line).1 := by
  unfold remoteLine
  dsimp only
  split
  · exact ⟨rfl, rfl, rfl⟩
  · split
    · split
      · exact exportLine_sameTeams s _ line
      · exact ⟨rfl, rfl, rfl⟩
    · exact ⟨rfl, rfl, rfl⟩

theorem cacheRemote_sameTeams (s : State) (r : RemoteLine) (al : Bool) : SameTeams s (cacheRemote s r al) := by
  unfold cacheRemote
  split <;> exact ⟨rfl, rfl, rfl⟩

/-- What one lane of a load brings its team: the value or marker `g`. -/
def LaneBrings (s : State) (o : Op) (sp : Space) (n : Nat) (a : LaneAcc) (held : List (Nat × Byte)) (remote : List RemoteLine) (g : Got) : Prop :=
  let t := s.teamAt o.team
  ((sp ≠ .remote ∨ vaClass a.va ≠ .fabric) ∧ g = s.laneGot o sp n a held ∨
    sp = .remote ∧ vaClass a.va = .fabric ∧ ∃ s2 r, remoteLine s t.id.die t.id.ctx remote (a.va.toNat / 128) = (s2, some r) ∧
      g = match r.fail with | some dt => .bad (.remoteRead dt (a.va &&& ~~~0x7F#64)) | none => .val ((r.data.drop (a.va.toNat % 128)).take n))

/-- A load's word with one lane brings it what the lane reads. -/
theorem loadWord_one (s : State) (o : Op) (sp : Space) (z : BitVec 3) (sg sc : Bool) (d : Nat) (a : LaneAcc) (held : List (Nat × Byte)) (al : Bool)
    (remote : List RemoteLine) (g : Got) (hg : LaneBrings s o sp (szBytes z) a held remote g) :
    ∃ u, loadWord s o sp z sg sc d [a] held al remote = some (u.updTeam o.team fun t => deliver t z sg sc d a.lane g) ∧ SameTeams s u ∧
      (sp = .plain ∨ sp = .scratch → u.mem = s.mem) := by
  have one : ∀ u g0, (if sp = .scratch then (s, some (readScratch s o.crew (szBytes z) a)) else readLane s (s.teamAt o.team).id.die
      (s.teamAt o.team).id.core (s.teamAt o.team).id.ctx sp (szBytes z) a remote al) = (u, some g0) →
      (if farLane sp a = true then g0 else heldOver held a.pa (szBytes z) g0) = g →
      loadWord s o sp z sg sc d [a] held al remote = some (u.updTeam o.team fun t => deliver t z sg sc d a.lane g) := by
    intro u g0 h1 h2
    unfold loadWord
    dsimp only [List.foldl_cons, List.foldl_nil]
    rw [h1]
    dsimp only
    rw [h2]
  rcases hg with ⟨hl, rfl⟩ | ⟨rfl, hv, s2, r, hr, rfl⟩
  · have hfar : farLane sp a = false := by
      unfold farLane
      rcases hl with h | h <;> simp [h]
    by_cases hsp : sp = .scratch
    · subst hsp
      exact ⟨s, one s _ (if_pos rfl) (by rw [hfar]; rfl), ⟨rfl, rfl, rfl⟩, fun _ => rfl⟩
    · obtain ⟨u, g0, he, hg, hs, hm⟩ := readLane_local s o sp (szBytes z) a held remote al hsp hl
      refine ⟨u, one u g0 ((if_neg hsp).trans he) (by rw [hfar]; exact hg), hs, fun h => hm ?_⟩
      rcases h with h | h
      · rw [h]; exact Space.noConfusion
      · exact absurd h hsp
  · have hfar : farLane .remote a = true := by rw [farLane, hv]; rfl
    have hs2 := remoteLine_sameTeams s (s.teamAt o.team).id.die (s.teamAt o.team).id.ctx remote (a.va.toNat / 128)
    rw [hr] at hs2
    have hc := cacheRemote_sameTeams s2 r al
    refine ⟨cacheRemote s2 r al, one _ _ ((if_neg Space.noConfusion).trans ?_) (by rw [hfar]; rfl),
      ⟨hc.1.trans hs2.1, hc.2.1.trans hs2.2.1, hc.2.2.trans hs2.2.2⟩, fun h => by rcases h with h | h <;> exact Space.noConfusion h⟩
    rw [readLane, if_pos (by rw [hv]; rfl), hr] <;> rfl

/-! ### A mask word of a load returns -/

/-- A mask word that is still to come, of a load that may be performed, is there: its registers wait no longer, and the load has the words left. -/
theorem returnLoad_eq {s u : State} {o : Op} {k : Nat} {remote : List RemoteLine} {sp : Space} {z : BitVec 3} {sg sc : Bool} {d : Nat} {left : List Nat}
    {accs : List LaneAcc} {held : List (Nat × Byte)} {al : Bool} (hk : o.kind = .load sp z sg sc d left accs held al) (hl : k ∈ left)
    (hp : mayPerform s o = true) (hn : o.kind.notEntered k = false)
    (hw : loadWord s o sp z sg sc d (if sc = true then accs else accs.filter fun a => a.lane / 32 = k) held al remote = some u) :
    returnLoad s o k remote = settleWords (u.updTeam o.team fun t => if sc = true then t.sPend d (szRegs z) 0 else t.vPend d (szRegs z) [k] 0) o
      (left.filter (· ≠ k)) (.load sp z sg sc d (left.filter (· ≠ k)) accs held al) := by
  have hg : ¬(!left.contains k || !mayPerform s o || o.kind.notEntered k) = true := by simp [hl, hp, hn]
  unfold returnLoad
  rw [hk] at hg ⊢
  dsimp only
  rw [if_neg hg, hw]
  rfl

/-- The flags that a completion leaves are told by the operations and its team's flags. -/
theorem busyAfter_congr {s u : State} (o : Op) (ho : u.ops = s.ops) (hb : (u.teamAt o.team).busy = (s.teamAt o.team).busy) :
    u.busyAfter o = s.busyAfter o := by
  unfold State.busyAfter
  rw [ho, hb]

/-- A team that takes what a load's word brings, and whose registers wait for it no longer: the team then, the other fields of it, and what the
load leaves. `f` brings, `g` clears the pending bits. -/
theorem settleWords_brought {s u : State} (o : Op) (f g : Team → Team) (left : List Nat) (k : OpKind) (hs : SameTeams s u)
    (hf : ∀ t, ∃ r, f t = { t with r := r }) (hg : ∀ t, ∃ r, g t = { t with r := r }) :
    let v := settleWords ((u.updTeam o.team f).updTeam o.team g) o left k; let t := s.teamAt o.team; let t' := v.teamAt o.team
    (left = [] → v.ops = s.ops.filter (fun x => x.id ≠ o.id) ∧ t'.busy = s.busyAfter o) ∧
    (left ≠ [] → v.ops = s.ops.map (fun x => if x.id = o.id then { o with kind := k } else x) ∧ t'.busy = t.busy) ∧
    t'.m = t.m ∧ t'.pc = t.pc ∧ t'.r = (g (f t)).r ∧ v.mem = u.mem := by
  intro v t t'
  have keyOf : ∀ {f : Team → Team}, (∀ t, ∃ r, f t = { t with r := r }) → ∀ t, (f t).key = t.key := fun h t => by
    obtain ⟨r, e⟩ := h t; rw [e]; rfl
  have ht : ((u.updTeam o.team f).updTeam o.team g).teamAt o.team = g (f t) := by
    rw [State.teamAt_updTeam _ _ _ _ (keyOf hg), if_pos rfl, State.teamAt_updTeam _ _ _ _ (keyOf hf), if_pos rfl, hs.teamAt]
  have hops : ((u.updTeam o.team f).updTeam o.team g).ops = s.ops := by rw [State.updTeam_ops, State.updTeam_ops, hs.2.2]
  obtain ⟨h1, h2, ⟨b, h3⟩, h4⟩ := settleWords_spec ((u.updTeam o.team f).updTeam o.team g) o left k
  obtain ⟨r1, e1⟩ := hf t
  obtain ⟨r2, e2⟩ := hg (f t)
  have hb : (((u.updTeam o.team f).updTeam o.team g).teamAt o.team).busy = t.busy := by rw [ht, e2, e1]
  rw [ht] at h3
  refine ⟨fun h => ?_, fun h => ?_, ?_, ?_, ?_, ?_⟩
  · rw [← hops, ← busyAfter_congr o hops hb]; exact h1 h
  · rw [← hops, ← hb]; exact h2 h
  · rw [show t' = _ from h3, e2, e1]
  · rw [show t' = _ from h3, e2, e1]
  · rw [show t' = _ from h3]
  · exact h4.trans (by rw [State.updTeam_mem, State.updTeam_mem])

/-- A mask word with one lane returns: the lane has its value or its marker, and nothing else of the registers changes. -/
theorem returnLoad_lane {s : State} {o : Op} {k : Nat} {remote : List RemoteLine} {sp : Space} {z : BitVec 3} {sg : Bool} {d : Nat} {left : List Nat}
    {accs : List LaneAcc} {a : LaneAcc} {held : List (Nat × Byte)} {al : Bool} {g : Got} (hk : o.kind = .load sp z sg false d left accs held al)
    (hl : k ∈ left) (hp : mayPerform s o = true) (hn : o.kind.notEntered k = false) (ha : accs.filter (fun x => x.lane / 32 = k) = [a])
    (hal : a.lane < 1024) (hg : LaneBrings s o sp (szBytes z) a held remote g) :
    let v := returnLoad s o k remote; let t := s.teamAt o.team; let t' := v.teamAt o.team; let rest := left.filter (· ≠ k)
    (rest = [] → v.ops = s.ops.filter (fun x => x.id ≠ o.id) ∧ t'.busy = s.busyAfter o) ∧
    (rest ≠ [] → v.ops = s.ops.map (fun x => if x.id = o.id then { o with kind := .load sp z sg false d rest accs held al } else x) ∧ t'.busy = t.busy) ∧
    t'.r.p = t.r.p ∧ t'.m = t.m ∧ t'.pc = t.pc ∧ t'.r.s = t.r.s ∧ (∀ r < szRegs z, smGet 0 t'.r.vpend ((d + r) * 32 + k) = 0) ∧
    (∀ r l, l < 1024 → (r < d ∨ d + szRegs z ≤ r ∨ l ≠ a.lane) → t'.vNow r l = t.vNow r l) ∧ (sp = .plain ∨ sp = .scratch → v.mem = s.mem) ∧
    ∀ r < szRegs z, Received z sg g r (t.vNow (d + r) a.lane) (t'.vNow (d + r) a.lane) (smGet none t'.r.vmarks (vKey (d + r) a.lane)) := by
  intro v t t' rest
  obtain ⟨u, hw, hs, hm⟩ := loadWord_one s o sp z sg false d a held al remote g hg
  have hv : v = settleWords ((u.updTeam o.team fun t => deliver t z sg false d a.lane g).updTeam o.team fun t => t.vPend d (szRegs z) [k] 0) o rest
      (.load sp z sg false d rest accs held al) := returnLoad_eq hk hl hp hn (by rw [if_neg Bool.false_ne_true, ha]; exact hw)
  have hf : ∀ t, ∃ r, deliver t z sg false d a.lane g = { t with r := r } := fun t => by
    obtain ⟨x, y, e, -⟩ := deliver_lane t z sg d a.lane g hal
    exact ⟨_, e⟩
  obtain ⟨h1, h2, h3, h4, h5, h6⟩ := settleWords_brought o (fun t => deliver t z sg false d a.lane g) (fun t => t.vPend d (szRegs z) [k] 0) rest
    (.load sp z sg false d rest accs held al) hs hf fun t => ⟨_, rfl⟩
  rw [← hv] at h1 h2 h3 h4 h5 h6
  obtain ⟨x, y, e, ho, hr⟩ := deliver_lane t z sg d a.lane g hal
  have hregs : t'.r = ((t.withV x y).vPend d (szRegs z) [k] 0).r := by rw [← e]; exact h5
  refine ⟨h1, h2, by rw [hregs]; rfl, h3, h4, by rw [hregs]; rfl, fun r hr => ?_, fun r l h h' => ?_, fun h => h6.trans (hm h), fun r hlt => ?_⟩
  · rw [hregs, Team.vPend_get]
    exact if_pos (List.mem_flatMap.mpr ⟨r, List.mem_range.mpr hr, by simp⟩)
  · rw [Team.vNow, hregs]; exact ho r l h h'
  · rw [show t'.vNow (d + r) a.lane = smGet 0 x (vKey (d + r) a.lane) by rw [Team.vNow, hregs]; rfl, hregs]
    exact hr r hlt

/-- The scalar registers of a load to scalar registers take its value or its marker, and nothing else of the registers changes. -/
theorem returnLoad_scalar {s : State} {o : Op} {remote : List RemoteLine} {sp : Space} {z : BitVec 3} {sg : Bool} {d : Nat}
    {a : LaneAcc} {held : List (Nat × Byte)} {al : Bool} {g : Got} (hk : o.kind = .load sp z sg true d [0] [a] held al)
    (hp : mayPerform s o = true) (hg : LaneBrings s o sp (szBytes z) a held remote g) :
    let v := returnLoad s o 0 remote; let t := s.teamAt o.team; let t' := v.teamAt o.team
    v.ops = s.ops.filter (fun x => x.id ≠ o.id) ∧ t'.busy = s.busyAfter o ∧ t'.r.p = t.r.p ∧ t'.m = t.m ∧ t'.pc = t.pc ∧ t'.r.v = t.r.v ∧
    (∀ r < szRegs z, smGet 0 t'.r.spend (d + r) = 0) ∧ (∀ r, (r < d ∨ d + szRegs z ≤ r) → t'.sNow r = t.sNow r) ∧
    ∀ r < szRegs z, Received z sg g r (t.sNow (d + r)) (t'.sNow (d + r)) (smGet none t'.r.smarks (d + r)) := by
  intro v t t'
  obtain ⟨u, hw, hs, -⟩ := loadWord_one s o sp z sg true d a held al remote g hg
  have hn : o.kind.notEntered 0 = false := by
    have : ¬coreSlots < (OpKind.load sp z sg true d [0] [a] held al).requests.length := by
      cases sp <;> simp [OpKind.requests, OpKind.lines, accLines, distinct, coreSlots]
    rw [hk, OpKind.notEntered, decide_eq_false this]; rfl
  have hv : v = settleWords ((u.updTeam o.team fun t => deliver t z sg true d a.lane g).updTeam o.team fun t => t.sPend d (szRegs z) 0) o []
      (.load sp z sg true d [] [a] held al) := returnLoad_eq hk (by simp) hp hn (by rw [if_pos rfl]; exact hw)
  have hf : ∀ t, ∃ r, deliver t z sg true d a.lane g = { t with r := r } := fun t => by
    obtain ⟨x, y, e, -⟩ := deliver_scalar t z sg d a.lane g
    exact ⟨_, e⟩
  obtain ⟨h1, -, h3, h4, h5, -⟩ := settleWords_brought o (fun t => deliver t z sg true d a.lane g) (fun t => t.sPend d (szRegs z) 0) []
    (.load sp z sg true d [] [a] held al) hs hf fun t => ⟨_, rfl⟩
  rw [← hv] at h1 h3 h4 h5
  obtain ⟨x, y, e, ho, hr⟩ := deliver_scalar t z sg d a.lane g
  have hregs : t'.r = ((t.withS x y).sPend d (szRegs z) 0).r := by rw [← e]; exact h5
  refine ⟨(h1 rfl).1, (h1 rfl).2, by rw [hregs]; rfl, h3, h4, by rw [hregs]; rfl, fun r hr => ?_, fun r h => ?_, fun r hlt => ?_⟩
  · rw [hregs, Team.sPend_get]
    exact if_pos (by omega)
  · rw [Team.sNow, hregs]; exact ho r h
  · rw [show t'.sNow (d + r) = smGet 0 x (d + r) by rw [Team.sNow, hregs]; rfl, hregs]
    exact hr r hlt

/-! ### Images of saved crews -/

theorem onlyMemory_writeSections (d area n : Nat) (l : List Section) (k off : Nat) (s : State) : OnlyMemory s (writeSections d area n k off l s) := by
  induction l generalizing k off s with
  | nil => exact .refl s
  | cons x r ih => exact ((onlyMemory_setHomeBytes _ s _).trans (onlyMemory_setHomeBytes _ _ _)).trans (ih _ _ _)

/-- The images of saved crews are memory: teams and operations stay. -/
theorem followImages_sameTeams (s v : State) : SameTeams v (followImages s v) := by
  have hw : ∀ u c, SameTeams u (writeImage u c) := fun u c => by
    have h := onlyMemory_setHomeBytes (imageHeader u c (crewSections u c).length) u (u.crew c).area
    exact (h.trans (onlyMemory_writeSections (u.crew c).die (u.crew c).area (setHomeBytes u (u.crew c).area _).fresh (crewSections u c) 0
      (upTo128 (64 + 16 * (crewSections u c).length)) _)).sameTeams
  have hy : ∀ u c, SameTeams u (syncImage u c) := fun u c => by
    unfold syncImage
    dsimp only
    split
    · exact ⟨rfl, rfl, rfl⟩
    · exact (onlyMemory_setHomeBytes _ u _).sameTeams
  unfold followImages
  refine foldl_keeps (SameTeams v) _ (fun u e hu => ?_) _ _ ⟨rfl, rfl, rfl⟩
  have tr : ∀ w, SameTeams u w → SameTeams v w := fun w h => ⟨h.1.trans hu.1, h.2.1.trans hu.2.1, h.2.2.trans hu.2.2⟩
  split
  · exact hu
  · split
    · exact tr _ (hy u e.1)
    · exact tr _ (hw u e.1)

/-! ### Values of loads -/

theorem leNat_lt (bs : List Byte) : leNat bs < 2 ^ (8 * bs.length) := by
  induction bs with
  | nil => exact Nat.one_pos
  | cons b r ih =>
    have := b.isLt
    rw [leNat, List.length_cons, Nat.mul_succ, Nat.pow_add]
    omega

/-- A value narrower than 32 bits, extended with its sign (R255). -/
theorem loadValue_signed (z : BitVec 3) (bs : List Byte) (hz : z.toNat < 2) (hb : bs.length = szBytes z) :
    (loadValue z true bs : Int) = ((leNat bs : Int) - if 2 ^ (8 * szBytes z - 1) ≤ leNat bs then 2 ^ (8 * szBytes z) else 0) % 2 ^ 32 := by
  have h := leNat_lt bs
  have hw : szBytes z = 1 ∨ szBytes z = 2 := by
    unfold szBytes
    rcases (by omega : z.toNat = 0 ∨ z.toNat = 1) with e | e <;> rw [e] <;> simp
  rw [hb] at h
  unfold loadValue
  dsimp only
  simp only [Bool.true_and, Bool.and_eq_true, decide_eq_true_eq, hz, true_and]
  rcases hw with e | e <;> rw [e] at h ⊢ <;> split <;> omega

theorem loadValue_wide (z : BitVec 3) (bs : List Byte) (hz : 2 ≤ z.toNat) : loadValue z true bs = leNat bs := by
  have : ¬z.toNat < 2 := by omega
  simp [loadValue, this]

/-- Settles O29: a word's return is what its one lane reads, brought to the team, and the load left with its other words; a late one is the same
before the image follows. -/
theorem loadsReturn : Obligations.LoadsReturn := by
  unfold Obligations.LoadsReturn
  refine ⟨?_, fun z bs hb => ⟨rfl, fun hz => loadValue_signed z bs hz hb, loadValue_wide z bs⟩, ?_⟩
  · intro s o sp z sg d left accs a held al remote ho hc ht hp n t rest settles
    have hgen : (s.crew o.crew).gen = o.gen := by simpa using (Bool.and_eq_true_iff.mp hc).1
    have hexec : ∀ {sc l a'}, o.kind = .load sp z sg sc d l a' held al → exec (.loadReturn remote) s = .next (returnLoad s o s.site.n remote) := by
      intro sc l a' hk
      change execLoadReturn remote s = _
      rw [execLoadReturn, ho]
      dsimp only
      rw [if_neg (not_not_intro hgen), if_neg (by simp [hc, ht]), hk]
    refine ⟨?_, ?_⟩
    · intro g hk hn hl ha hal hg
      obtain ⟨h1, h2, h3, h4, h5, h6, h7, h8, h9, h10⟩ := returnLoad_lane (remote := remote) hk hl hp hn ha hal hg
      exact ⟨_, hexec hk, ⟨h1, h2, h3, h4, h5⟩, h6, h7, h8, h9, h10⟩
    · intro hsp hk hleft hsite
      have hg : LaneBrings s o sp n a held remote (s.laneGot o sp n a held) := .inl ⟨.inl (by rcases hsp with h | h <;> simp [h]), rfl⟩
      obtain ⟨h1, h2, h3, h4, h5, h6, h7, h8, h9⟩ := returnLoad_scalar (remote := remote) hk hp hg
      have hrest : rest = [] := by rw [show rest = left.filter (· ≠ s.site.n) from rfl, hleft, hsite]; rfl
      exact ⟨_, (hexec hk).trans (by rw [hsite]), ⟨fun _ => ⟨h1, h2⟩, fun h => absurd hrest h, h3, h4, h5⟩, h6, h7, h8, h9⟩
  · intro s o remote ho
    refine ⟨fun hgen => ⟨{ s with ops := s.ops.filter fun x => x.id ≠ o.id, progress := s.progress + 1 }, ?_, rfl, rfl, rfl, rfl⟩, ?_⟩
    · change execLateReturn remote s = _
      rw [execLateReturn, ho]
      dsimp only
      rw [if_pos hgen]
    · intro sp z sg d left accs held al a hk hsp hgen hst ht hp hn hl ha hal rest
      have hexec : exec (.lateReturn remote) s = .next (followImages s (returnLoad s o s.site.n remote)) := by
        change execLateReturn remote s = _
        rw [execLateReturn, ho]
        dsimp only
        rw [if_neg (not_not_intro hgen), if_neg (by rcases hst with h | h <;> simp [h]), hk]
        dsimp only
        rw [if_pos ht]
      have hf := followImages_sameTeams s (returnLoad s o s.site.n remote)
      obtain ⟨h1, h2, -, -, -, -, h7, h8, -, h10⟩ := returnLoad_lane (remote := remote) hk hl hp hn ha hal (.inl ⟨.inl hsp, rfl⟩)
      exact ⟨_, hexec, hf.1, hf.2.1, h1, fun h => (h2 h).2, h7, h8, h10⟩

end Sys2Proof.Machine
end

section
/-! The tile copy engine: fills and plain drains (R317, R324, R329), and the order that its commands keep (R33). -/

open Sys2Proof Sys2Proof.Machine

namespace Sys2Proof.Machine

/-! ### Runs of a sparse map -/

/-- Writing a run of keys: each reads what the list gives it, every other key what it did. -/
theorem smGet_smSetAll_run {α β : Type} [DecidableEq β] (d : β) (m : SMap β) (f : α → β) (off j : Nat) (l : List α) :
    smGet d (smSetAll d m (((List.range l.length).zip l).map fun e => (off + e.1, f e.2))) j =
      if off ≤ j ∧ j < off + l.length then (l.map f).getD (j - off) d else smGet d m j := by
  induction l using List.reverseRecOn with
  | nil => rw [if_neg (by simp)]; rfl
  | append_singleton r x ih =>
    have hz : (List.range (r ++ [x]).length).zip (r ++ [x]) = (List.range r.length).zip r ++ [(r.length, x)] := by
      rw [List.length_append, List.length_singleton, List.range_succ, List.zip_append (List.length_range), List.zip_cons_cons, List.zip_nil_left]
    rw [hz, List.map_append, smSetAll, List.foldl_append]
    refine (smGet_smSet d _ (off + r.length) (f x) j).trans ?_
    rw [List.map_append, List.length_append, List.length_singleton]
    by_cases h : j = off + r.length
    · subst h
      rw [if_pos rfl, if_pos (by omega), Nat.add_sub_cancel_left, List.getD_append_right _ _ _ _ (by simp)]
      simp
    · rw [if_neg h]
      refine ih.trans ?_
      by_cases h2 : off ≤ j ∧ j < off + r.length
      · rw [if_pos h2, if_pos (by omega), List.getD_append _ _ _ _ (by rw [List.length_map]; omega)]
      · rw [if_neg h2, if_neg (by omega)]

/-- What stands in the scratchpad once window bytes are written. -/
theorem setScratch_get (cr : Crew) (off j : Nat) (bs : List (Byte × Bool)) :
    smGet 0 (setScratch cr off bs).scratch j = if off ≤ j ∧ j < off + bs.length then (bs.map Prod.fst).getD (j - off) 0 else smGet 0 cr.scratch j :=
  smGet_smSetAll_run 0 cr.scratch Prod.fst off j bs

@[simp] theorem Crew.region_setRegion (cr : Crew) (e : Nat) (r : Region) : (cr.setRegion e r).region e = r := by
  rw [Crew.region, Crew.setRegion, smGet_smSet, if_pos rfl]

/-! ### What a command's end leaves -/

/-- What a core reads is told by its write buffer, the L1s, the die's L2 and its fused clusters, and memory. -/
theorem plainByte_of_caches {s t : State} {d k : Nat} (q : Nat) (hc : ∀ x, (s.core x).wb = (t.core x).wb ∧ (s.core x).l1 = (t.core x).l1)
    (hl : (s.die d).l2 = (t.die d).l2) (hf : (s.die d).fused = (t.die d).fused) (hm : s.mem = t.mem) : plainByte s d k q = plainByte t d k q := by
  have hh : l1Home s d k (q / 128) = l1Home t d k (q / 128) := by unfold l1Home fusedCluster; rw [hf]
  unfold plainByte homeByte
  dsimp only
  rw [(hc _).1, hh, (hc _).2, hl, hm]

/-- What an operation does with its leave: its die's arbiter may change, the progress count may rise. -/
theorem dropLeave_frame (s : State) (d amps : Nat) (who : LeaveWho) (l : Leave) :
    dropLeave s d amps who l = s ∨ ∃ a p, dropLeave s d amps who l = { s.setArb d a with progress := p } := by
  cases l with
  | free => exact .inl rfl
  | asked => exact .inr ⟨_, s.progress, rfl⟩
  | held => exact .inr ⟨_, _, rfl⟩

/-- Two states have the same operations, crews and memory, and every core reads in one what it reads in the other. -/
def ReadsAlike (s u : State) : Prop :=
  u.ops = s.ops ∧ u.crews = s.crews ∧ u.mem = s.mem ∧ ∀ d k pa, plainByte u d k pa = plainByte s d k pa

theorem dropLeave_readsAlike (s : State) (d amps : Nat) (who : LeaveWho) (l : Leave) : ReadsAlike s (dropLeave s d amps who l) := by
  rcases dropLeave_frame s d amps who l with e | ⟨a, p, e⟩
  · rw [e]; exact ⟨rfl, rfl, rfl, fun _ _ _ => rfl⟩
  · rw [e]
    refine ⟨rfl, rfl, rfl, fun d' k pa => ?_⟩
    have hd : ((s.setArb d a).die d').l2 = (s.die d').l2 ∧ ((s.setArb d a).die d').fused = (s.die d').fused := by
      rw [State.setArb, State.die_setDie]
      split
      · rename_i h; subst h; exact ⟨rfl, rfl⟩
      · exact ⟨rfl, rfl⟩
    exact plainByte_of_caches pa (fun _ => ⟨rfl, rfl⟩) hd.1 hd.2 rfl

/-- An entry's command ends: the entry has its new state, the operation is gone, memory and what cores read stay. -/
theorem windowEnds (s : State) (o : Op) (d e : Nat) (l : Leave) (r : Region) :
    let v := dropLeave s d 2 (.op o.id) l
    let u := leftWindow (finishOp (v.setCrew o.crew ((v.crew o.crew).setRegion e r)) o) o.crew e
    (u.crew o.crew).region e = r ∧ (∀ x ∈ u.ops, x.id ≠ o.id) ∧ u.mem = s.mem ∧ ∀ d k pa, plainByte u d k pa = plainByte s d k pa := by
  intro v u
  obtain ⟨-, -, hm, hp⟩ := dropLeave_readsAlike s d 2 (.op o.id) l
  obtain ⟨a, t, he⟩ := finishOp_spec (v.setCrew o.crew ((v.crew o.crew).setRegion e r)) o
  have hu : u = leftWindow _ o.crew e := congrArg (leftWindow · o.crew e) he
  rw [hu]
  refine ⟨?_, fun x hx => by simpa using (List.mem_filter.mp hx).2, hm, hp⟩
  show (((v.setCrew o.crew ((v.crew o.crew).setRegion e r))).crew o.crew).region e = r
  rw [State.crew_setCrew, if_pos rfl, Crew.region_setRegion]

/-- The end of a fill asks its leave of the same crew as before. -/
theorem dropLeave_crew (s : State) (d amps : Nat) (who : LeaveWho) (l : Leave) (c : Nat) : (dropLeave s d amps who l).crew c = s.crew c := by
  unfold State.crew
  rw [(dropLeave_readsAlike s d amps who l).2.1]

/-! ### The order of a command (R33) -/

theorem mayEngine_false_of_earlier {s : State} {o x : Op} (hx : x ∈ s.ops) (ht : x.team = o.team) (hi : x.id < o.id) (hm : x.kind.isMem = true)
    (hw : waitsCommit s x = false) : mayEngine s o = false := by
  have : earlierMem s o = true := List.any_eq_true.mpr ⟨x, hx, by simp [ht, hi, hm, hw]⟩
  rw [mayEngine, this]
  exact Bool.and_false _

/-- An operation of its crew's generation is there for its step. -/
theorem siteOp_eq {s : State} {o : Op} (f : State → Op → State) (ho : s.op s.site.op = some o) (hg : (s.crew o.crew).gen = o.gen) :
    siteOp s f = .next (f s o) := by
  rw [siteOp, ho]
  exact if_neg (not_not_intro hg)

/-! ### Fills (R324) -/

/-- The window bytes that a beat of a fill brings. -/
def beatBytes (s : State) (t : TeamId) (f : Fill) (tile : Tile) : List (Byte × Bool) :=
  (List.range (min 128 (tile.size - f.done))).map fun k =>
    (plainByte s t.die t.core (pagePa f.pages (tile.va (f.done + k))), plainPoison s t.die t.core (pagePa f.pages (tile.va (f.done + k))) 1)

theorem beatBytes_length (s : State) (t : TeamId) (f : Fill) (tile : Tile) : (beatBytes s t f tile).length = min 128 (tile.size - f.done) := by
  simp [beatBytes]

theorem beatBytes_getD (s : State) (t : TeamId) (f : Fill) (tile : Tile) (k : Nat) (h : k < min 128 (tile.size - f.done)) :
    ((beatBytes s t f tile).map Prod.fst).getD k 0 = plainByte s t.die t.core (pagePa f.pages (tile.va (f.done + k))) := by
  rw [List.getD_eq_getElem _ _ (by rw [List.length_map, beatBytes_length]; exact h)]
  simp [beatBytes]

/-- A beat of a fill that may go on: after its acquire, if it is the first of a word that has one, its bytes go to the window and the operation
counts them. -/
theorem fillBeat_eq {s : State} {o : Op} {f : Fill} (ho : s.op s.site.op = some o) (hg : (s.crew o.crew).gen = o.gen) (hk : o.kind = .fill f)
    (hgen : f.gen = ((s.crew o.crew).region f.entry).gen) (hst : ((s.crew o.crew).region f.entry).state = .filling) (hl : f.leave ≠ .asked)
    (hm : mayEngine s o = true) (hd : f.done < (tileOf ((s.crew o.crew).region f.entry).desc).size) :
    let rg := (s.crew o.crew).region f.entry; let tile := tileOf rg.desc
    let s1 := if (decide (f.done = 0) && rg.acq) = true then s.acquireFor o.team rg.scope.toNat else s
    let bs := beatBytes s1 (s1.teamAt o.team).id f tile
    exec .fillBeat s = .next ((s1.setCrew o.crew ((setScratch (s1.crew o.crew) (tile.window.1 + f.done) bs).setRegion f.entry
        { rg with poison := rg.poison || bs.any fun b => b.2 })).updOp o.id fun o =>
          { o with kind := .fill { f with done := f.done + min 128 (tile.size - f.done) } }) := by
  change execFillBeat s = _
  rw [execFillBeat, siteOp_eq _ ho hg, hk]
  dsimp only
  rw [if_neg (by simp [hgen, hst]), if_neg (by simp [hl, hm, hd])]
  rfl

/-- A fill that may not go on waits. -/
theorem fillBeat_waits {s : State} {o : Op} {f : Fill} (ho : s.op s.site.op = some o) (hg : (s.crew o.crew).gen = o.gen) (hk : o.kind = .fill f)
    (hgen : f.gen = ((s.crew o.crew).region f.entry).gen) (hst : ((s.crew o.crew).region f.entry).state = .filling) (hm : mayEngine s o = false) :
    exec .fillBeat s = .next s := by
  change execFillBeat s = _
  rw [execFillBeat, siteOp_eq _ ho hg, hk]
  dsimp only
  rw [if_neg (by simp [hgen, hst]), if_pos (by simp [hm])]

/-- A fill whose bytes are all there ends. -/
theorem fillComplete_eq {s : State} {o : Op} {f : Fill} (ho : s.op s.site.op = some o) (hg : (s.crew o.crew).gen = o.gen) (hk : o.kind = .fill f)
    (hgen : f.gen = ((s.crew o.crew).region f.entry).gen) (hst : ((s.crew o.crew).region f.entry).state = .filling)
    (hd : f.done = (tileOf ((s.crew o.crew).region f.entry).desc).size) :
    let cr := s.crew o.crew; let v := dropLeave s (s.teamAt o.team).id.die 2 (.op o.id) f.leave
    exec .fillComplete s = .next (leftWindow (finishOp (v.setCrew o.crew (cr.setRegion f.entry { cr.region f.entry with state := .full })) o)
      o.crew f.entry) := by
  change execFillComplete s = _
  rw [execFillComplete, siteOp_eq _ ho hg, hk]
  dsimp only
  rw [if_pos (by simp [hgen, hst, hd])]

/-! ### Plain drains (R329) -/

/-- The stores of a plain drain: each window byte in ascending order. -/
def drainStores (cr : Crew) (tile : Tile) (pages : List (Nat × Nat)) : List (Nat × List Byte) :=
  (List.range tile.size).map fun k => (pagePa pages (tile.va k), [smGet 0 cr.scratch (tile.window.1 + k)])

/-- A plain drain of window bytes none of which is poisoned is the stores of those bytes. -/
theorem drainPlain_eq (s : State) (t : Team) (cr : Crew) (tile : Tile) (pages : List (Nat × Nat)) (hp : ∀ k, smGet false cr.spoison k = false) :
    drainPlain s t cr tile pages = (drainStores cr tile pages).foldl (fun s e => storeBytes s t.id.die t.id.core e.1 e.2) s := by
  have h : ∀ u : State, (List.range tile.size).foldl (fun s k =>
      if smGet false cr.spoison (tile.window.1 + k) = true then poisonStore s t.id.die t.id.core (pagePa pages (tile.va k)) else s) u = u := fun u => by
    simp [hp]
  rw [drainPlain, h, drainStores, List.foldl_map]
  rfl

/-- A plain drain that may be performed: its stores, then its end. -/
theorem drainComplete_plain {s s1 : State} {o : Op} {d : Drain} (ho : s.op s.site.op = some o) (hg : (s.crew o.crew).gen = o.gen)
    (hk : o.kind = .drain d) (hacc : d.acc = none) (hacq : d.acq = false) (hrel : d.rel = false) (hm : mayEngine s o = true)
    (hq : (s.teamAt o.team).id.quantum = none)
    (hs : drainPlain s (s.teamAt o.team) (s.crew o.crew) (tileOf ((s.crew o.crew).region d.entry).desc) d.pages = s1) :
    let rg := (s.crew o.crew).region d.entry
    let v := dropLeave s1 (s1.teamAt o.team).id.die 2 (.op o.id) d.leave
    exec .drainComplete s = .next (leftWindow (finishOp (v.setCrew o.crew
      ((v.crew o.crew).setRegion d.entry { rg with state := if d.free then .free else .full })) o) o.crew d.entry) := by
  subst hs
  change execDrainComplete s = _
  rw [execDrainComplete, siteOp_eq _ ho hg, hk]
  dsimp only
  simp only [hacc, hacq, hrel, hm, hq, Option.isSome_none, Bool.false_and, Bool.not_true, Bool.or_self, Bool.false_eq_true, if_false]

/-- Settles O38: a beat writes the window bytes that its core reads after the acquire; a plain drain is the stores of the window's bytes; and what an
entry's command ends with leaves memory and what cores read. -/
theorem fillsAndDrainsMoveTheTile : Obligations.FillsAndDrainsMoveTheTile := by
  unfold Obligations.FillsAndDrainsMoveTheTile
  intro s o ho hg cr t
  refine ⟨fun ⟨x, hx, ht, hi, hm, hw⟩ => mayEngine_false_of_earlier hx ht hi hm hw, fun f hk hm hgen hst => fillBeat_waits ho hg hk hgen hst hm, ?_, ?_⟩
  · intro f hk rg tile hgen hst
    refine ⟨fun hl hm hd => ?_, fun hd => ?_⟩
    · intro s1 n
      have he := fillBeat_eq ho hg hk hgen hst hl hm hd
      have h1 : (if (decide (f.done = 0) && rg.acq) = true then s.acquireFor o.team rg.scope.toNat else s) = s1 := if_congr (by simp) rfl rfl
      have hs1 : OnlyMemory s s1 := by
        by_cases h : f.done = 0 ∧ rg.acq = true
        · rw [show s1 = _ from if_pos h]; exact onlyMemory_acquireAt _ _ _ _
        · rw [show s1 = s from if_neg h]; exact .refl s
      dsimp only at he
      rw [h1] at he
      refine ⟨_, he, fun j => ?_, rfl, hs1.team, fun x hx hid => ?_⟩
      · show smGet 0 ((s1.setCrew o.crew _).crew o.crew).scratch j = _
        rw [State.crew_setCrew, if_pos rfl]
        refine (setScratch_get _ _ j _).trans ?_
        rw [beatBytes_length, hs1.crew, hs1.teamAt]
        refine if_ctx_congr Iff.rfl (fun h => ?_) fun _ => rfl
        have hj : j - (tile.window.1 + f.done) < n := by omega
        exact (beatBytes_getD s1 t f tile _ hj).trans
          (by rw [show f.done + (j - (tile.window.1 + f.done)) = j - tile.window.1 by omega])
      · obtain ⟨y, -, rfl⟩ := List.mem_map.mp hx
        by_cases h : y.id = o.id
        · rw [if_pos h]; exact ⟨_, rfl, rfl⟩
        · rw [if_neg h] at hid; exact absurd hid h
    · obtain ⟨h1, h2, h3, -⟩ := windowEnds s o t.die f.entry f.leave { rg with state := .full }
      refine ⟨_, fillComplete_eq ho hg hk hgen hst hd, ?_⟩
      rw [dropLeave_crew] at h1 h2 h3
      exact ⟨h1, h2, h3⟩
  · intro d hk hacc hacq hrel hm hq rg tile hp w
    let s1 := w.foldl (fun s e => storeBytes s t.die t.core e.1 e.2) s
    have e1 : drainPlain s (s.teamAt o.team) cr tile d.pages = s1 := drainPlain_eq s _ cr tile d.pages hp
    have he := drainComplete_plain ho hg hk hacc hacq hrel hm hq e1
    obtain ⟨h1, h2, h3, h4⟩ := windowEnds s1 o (s1.teamAt o.team).id.die d.entry d.leave { rg with state := if d.free then .free else .full }
    refine ⟨_, he, h1, h2, h3.trans (stores_mem w s _ _), fun pa => (h4 _ _ pa).trans (plainByte_stores w s _ _ pa)⟩

end Sys2Proof.Machine
end

section
/-! The commit of a quantum that holds plain stores (R19, R274). -/

open Sys2Proof Sys2Proof.Machine

namespace Sys2Proof.Machine

/-! ### Caches without a dirty byte -/

/-- No write buffer holds a line and no L2 a dirty byte. -/
def NoDirty (s : State) : Prop := (∀ k, (s.core k).wb = []) ∧ ∀ d l, (smGet {} (s.die d).l2 l).dirty = 0

/-- From a state whose caches hold no dirty byte the other is such a state too, with the same memory. -/
def StaysClean (s u : State) : Prop := NoDirty s → NoDirty u ∧ u.mem = s.mem

theorem StaysClean.refl (s : State) : StaysClean s s := fun h => ⟨h, rfl⟩

theorem StaysClean.trans {s u v : State} (h : StaysClean s u) (h' : StaysClean u v) : StaysClean s v := fun hs =>
  ⟨(h' (h hs).1).1, (h' (h hs).1).2.trans (h hs).2⟩

theorem staysClean_foldl {β : Type} (f : State → β → State) (hf : ∀ s b, StaysClean s (f s b)) (l : List β) (s : State) : StaysClean s (l.foldl f s) :=
  foldl_keeps (StaysClean s) f (fun u b h => h.trans (hf u b)) l s (.refl s)

/-- Nothing drains from an empty write buffer. -/
theorem drainWb_clean {s : State} (h : NoDirty s) (d k : Nat) : drainWb s d k = s := by
  rw [drainWb, h.1]; rfl

theorem drainLine_clean {s : State} (h : NoDirty s) (d k line : Nat) : drainLine s d k line = s := by
  rw [drainLine, h.1]; rfl

theorem staysClean_drainWb (s : State) (d k : Nat) : StaysClean s (drainWb s d k) := fun h => by
  rw [drainWb_clean h]; exact ⟨h, rfl⟩

theorem eachDirty_clean {l : LineCopy} (h : l.dirty = 0) (line : Nat) (f : State → Nat → Byte → Bool → State) (s : State) : eachDirty l line f s = s := by
  unfold eachDirty
  rw [h]
  simp

/-- A core's caches but its write buffer are replaced. -/
theorem staysClean_setCore (s : State) (ck : Nat) (a : SMap LineCopy) (n : SMap (Option NodeLine)) :
    StaysClean s (s.setCore ck { s.core ck with l1 := a, node := n }) := fun h => by
  refine ⟨⟨fun k => ?_, h.2⟩, rfl⟩
  rw [State.core_setCore]
  split
  · exact h.1 ck
  · exact h.1 k

/-- A die's L2 is replaced by one without a dirty byte. -/
theorem staysClean_setDie (s : State) (d : Nat) (l : SMap LineCopy) (hl : NoDirty s → ∀ x, (smGet {} l x).dirty = 0) :
    StaysClean s (s.setDie d { s.die d with l2 := l }) := fun h => by
  refine ⟨⟨h.1, fun k x => ?_⟩, rfl⟩
  rw [State.die_setDie]
  split
  · exact hl h x
  · exact h.2 k x

theorem staysClean_writeBackLine (s : State) (d line : Nat) : StaysClean s (writeBackLine s d line) := fun h => by
  rw [writeBackLine, eachDirty_clean (h.2 d line)]
  refine staysClean_setDie s d _ (fun _ x => ?_) h
  rw [smGet_smSet]
  split
  · rfl
  · exact h.2 d x

theorem staysClean_writeBackL2 (s : State) (d : Nat) : StaysClean s (writeBackL2 s d) :=
  staysClean_foldl (fun u (e : Nat × LineCopy) => writeBackLine u d e.1) (fun u e => staysClean_writeBackLine u d e.1) (s.die d).l2 s

theorem staysClean_releaseAt (s : State) (d k scope : Nat) : StaysClean s (releaseAt s d k scope) := by
  have hd : StaysClean s (drainShared s d k) := staysClean_foldl _ (fun u j => staysClean_drainWb u d j) _ s
  unfold releaseAt
  dsimp only
  split
  · exact .refl s
  · split
    · exact hd
    · exact hd.trans (staysClean_writeBackL2 _ d)

theorem staysClean_dropL1 (s : State) (ck : Nat) : StaysClean s (dropL1 s ck) := staysClean_setCore s ck [] _

theorem staysClean_acquireAt (s : State) (d k scope : Nat) : StaysClean s (acquireAt s d k scope) := by
  have hn : StaysClean s (dropNode s (coreKey d k)) := staysClean_setCore s (coreKey d k) _ []
  have hi : StaysClean s (invalL1 (dropNode s (coreKey d k)) d k) := by
    refine hn.trans ?_
    unfold invalL1
    split
    · exact staysClean_foldl _ (fun u j => staysClean_dropL1 u _) _ _
    · exact staysClean_dropL1 _ _
  unfold acquireAt
  dsimp only
  split
  · exact .refl s
  · split
    · split
      · exact hn
      · exact hn.trans (staysClean_dropL1 _ _)
    · split
      · exact hi
      · exact hi.trans ((staysClean_writeBackL2 _ d).trans (staysClean_setDie _ d [] fun _ _ => rfl))

theorem staysClean_settleLine (s : State) (d k line : Nat) : StaysClean s (settleLine s d k line) := fun h => by
  rw [settleLine, drainLine_clean h]
  exact staysClean_writeBackLine s d line h

theorem staysClean_forgetLine (s : State) (d k line : Nat) : StaysClean s (forgetLine s d k line) := by
  have h1 := staysClean_setCore s (coreKey d k) (s.core (coreKey d k)).l1 (smSet none (s.core (coreKey d k)).node line none)
  refine (h1.trans (staysClean_setCore _ _ _ _)).trans (staysClean_setDie _ d _ fun h x => ?_)
  rw [smGet_smSet]
  split
  · rfl
  · exact h.2 d x

theorem homeByte_congr {u v : State} (h : u.mem = v.mem) (x : Nat) : homeByte u x = homeByte v x := by rw [homeByte, h]; rfl

/-- A store at the home while no cache holds a dirty byte: its bytes change there and no others. -/
theorem storeHome_clean {s : State} (h : NoDirty s) (d k pa : Nat) (bs : List Byte) :
    NoDirty (storeHome s d k pa bs) ∧ ∀ x, homeByte (storeHome s d k pa bs) x = homeByte (setHomeBytes s pa bs) x := by
  obtain ⟨h1, hm⟩ := staysClean_settleLine s d k (pa / 128) h
  obtain ⟨m, p, l, e⟩ := setHomeBytes_frame bs (settleLine s d k (pa / 128)) pa
  have h2 : NoDirty (setHomeBytes (settleLine s d k (pa / 128)) pa bs) := by rw [e]; exact h1
  obtain ⟨h3, hf⟩ := staysClean_forgetLine _ d k (pa / 128) h2
  refine ⟨h3, fun x => (homeByte_congr hf x).trans ?_⟩
  rw [homeByte_setHomeBytes, homeByte_setHomeBytes, homeByte_congr hm]

/-! ### A team's buffered stores -/

/-- Of two lists of stores the later one goes over the earlier. -/
theorem storedByte_concat (a b : List (Nat × List Byte)) (x : Nat) : storedByte (a ++ b) x = (storedByte b x).or (storedByte a x) := by
  rw [storedByte, List.foldl_append]
  exact storedByte_from b _ x

/-- The place and the bytes of a buffered store. -/
def DqItem.bytes : DqItem → Nat × List Byte
  | .store _ p _ bs => (p, bs)
  | .atomic _ => (0, [])
  | .load _ => (0, [])

/-- The stores of a team's quantum buffer. -/
def teamStores (t : Team) : List (Nat × List Byte) := t.dq.items.map DqItem.bytes

/-- Every item of a buffer is a store to memory. -/
def OnlyStores (l : List DqItem) : Prop := ∀ x ∈ l, ∃ va pa bs, x = .store va pa false bs

/-- Stores of a team as the commit performs them. -/
def commitStores (s : State) (key : Nat) (l : List (Nat × List Byte)) : State := l.foldl (fun s e => commitStore s key e.1 false e.2) s

/-- A buffer of stores is committed whole. -/
theorem commitItems_stores (key : Nat) (l : List DqItem) (h : OnlyStores l) (s : State) :
    commitItems key l s = (commitStores s key (l.map DqItem.bytes), []) := by
  induction l generalizing s with
  | nil => rfl
  | cons x r ih =>
    obtain ⟨va, pa, bs, rfl⟩ := h x List.mem_cons_self
    exact ih (fun y hy => h y (List.mem_cons_of_mem _ hy)) _

theorem onlyMemory_commitStore (s : State) (key pa : Nat) (bs : List Byte) : OnlyMemory s (commitStore s key pa false bs) := by
  unfold commitStore
  dsimp only
  rw [if_neg Bool.false_ne_true]
  split
  · exact onlyMemory_storeBytes _ _ _ _ _
  · exact onlyMemory_storeHome _ _ _ _ _

theorem onlyMemory_commitStores (l : List (Nat × List Byte)) (s : State) (key : Nat) : OnlyMemory s (commitStores s key l) :=
  onlyMemory_foldl (fun u (e : Nat × List Byte) => commitStore u key e.1 false e.2) (fun u e => onlyMemory_commitStore u key e.1 e.2) l s

/-- On one core the commit's stores are those of the core. -/
theorem commitStores_one (l : List (Nat × List Byte)) (s : State) (key : Nat) (h : (s.crew (s.teamAt key).id.crew).spots = []) :
    let t := (s.teamAt key).id; commitStores s key l = l.foldl (fun s e => storeBytes s t.die t.core e.1 e.2) s := by
  intro t
  suffices H : ∀ u, OnlyMemory s u → commitStores u key l = l.foldl (fun s e => storeBytes s t.die t.core e.1 e.2) u from H s (.refl s)
  induction l with
  | nil => exact fun u _ => rfl
  | cons e r ih =>
    intro u hu
    have e1 : commitStore u key e.1 false e.2 = storeBytes u t.die t.core e.1 e.2 := by
      unfold commitStore
      dsimp only
      rw [if_neg Bool.false_ne_true, hu.teamAt, hu.crew, if_pos h]
    rw [commitStores, List.foldl_cons, List.foldl_cons, e1]
    exact ih _ (hu.trans (onlyMemory_storeBytes _ _ _ _ _))

/-- Over several cores the commit's stores are made at the home. -/
theorem commitStores_home (l : List (Nat × List Byte)) (s : State) (key : Nat) (h : (s.crew (s.teamAt key).id.crew).spots ≠ []) (hc : NoDirty s) :
    NoDirty (commitStores s key l) ∧ ∀ x, homeByte (commitStores s key l) x = (storedByte l x).getD (homeByte s x) := by
  suffices H : ∀ u, OnlyMemory s u → NoDirty u →
      NoDirty (commitStores u key l) ∧ ∀ x, homeByte (commitStores u key l) x = (storedByte l x).getD (homeByte u x) from H s (.refl s) hc
  induction l with
  | nil => exact fun u _ hu => ⟨hu, fun _ => rfl⟩
  | cons e r ih =>
    intro u hu hn
    have e1 : commitStore u key e.1 false e.2 = storeHome u (s.teamAt key).id.die (s.teamAt key).id.core e.1 e.2 := by
      unfold commitStore
      dsimp only
      rw [if_neg Bool.false_ne_true, hu.teamAt, hu.crew, if_neg h]
    obtain ⟨hn1, hb⟩ := storeHome_clean hn (s.teamAt key).id.die (s.teamAt key).id.core e.1 e.2
    rw [commitStores, List.foldl_cons, e1]
    obtain ⟨hn2, h2⟩ := ih _ (hu.trans (onlyMemory_storeHome _ _ _ _ _)) hn1
    refine ⟨hn2, fun x => (h2 x).trans ?_⟩
    rw [hb, homeByte_setHomeBytes, storedByte_cons]
    by_cases hx : e.1 ≤ x ∧ x < e.1 + e.2.length
    · rw [if_pos hx, if_pos hx]; cases storedByte r x <;> rfl
    · rw [if_neg hx, if_neg hx]; cases storedByte r x <;> rfl

/-! ### The teams of a crew in turn -/

theorem teamKey_inj {c m n : Nat} (h : teamKey c m = teamKey c n) : m = n := Nat.add_left_cancel h

/-- A team with other items in its buffer. -/
def Team.withItems (t : Team) (l : List DqItem) : Team := { t with dq := { t.dq with items := l } }

/-- Crews stay, and teams but for their buffers. -/
def LeavesTeams (s u : State) : Prop := u.crews = s.crews ∧ ∀ k, ∃ d, u.teamAt k = { s.teamAt k with dq := d }

theorem LeavesTeams.refl (s : State) : LeavesTeams s s := ⟨rfl, fun _ => ⟨_, rfl⟩⟩

theorem LeavesTeams.trans {s u v : State} (h : LeavesTeams s u) (h' : LeavesTeams u v) : LeavesTeams s v := by
  refine ⟨h'.1.trans h.1, fun k => ?_⟩
  obtain ⟨d, e⟩ := h.2 k
  obtain ⟨d', e'⟩ := h'.2 k
  exact ⟨d', by rw [e', e]⟩

theorem OnlyMemory.leavesTeams {s u : State} (h : OnlyMemory s u) : LeavesTeams s u := ⟨h.crews, fun k => ⟨_, h.teamAt k⟩⟩

theorem teamAt_withItems (s : State) (k j : Nat) (l : List DqItem) :
    (s.updTeam k fun t => t.withItems l).teamAt j = if j = k then (s.teamAt k).withItems l else s.teamAt j := by
  rw [State.teamAt_updTeam]
  intro t; rfl

theorem leavesTeams_withItems (s : State) (k : Nat) (l : List DqItem) : LeavesTeams s (s.updTeam k fun t => t.withItems l) := by
  refine ⟨State.updTeam_crews _ _ _, fun j => ?_⟩
  rw [teamAt_withItems]
  split
  · rename_i h; subst h; exact ⟨_, rfl⟩
  · exact ⟨_, rfl⟩

/-- A team whose buffer holds stores has its turn in the commit. -/
theorem commitTeams_cons (c n : Nat) (r : List Nat) (s : State) (h : OnlyStores (s.teamAt (teamKey c n)).dq.items) : let k := teamKey c n
    commitTeams c (n :: r) s = commitTeams c r ((commitStores s k (teamStores (s.teamAt k))).updTeam k fun t => t.withItems []) := by
  intro k
  rw [commitTeams]
  dsimp only
  rw [commitItems_stores _ _ h, if_pos rfl]
  rfl

/-- A crew's teams whose buffers hold stores alone are committed, and other teams keep their buffers. -/
theorem commitTeams_stores (c : Nat) (l : List Nat) (hl : l.Nodup) (s : State) (h : ∀ n ∈ l, OnlyStores (s.teamAt (teamKey c n)).dq.items) :
    (commitTeams c l s).2 = true ∧ LeavesTeams s (commitTeams c l s).1 ∧
    ((∀ n ∈ l, (s.crew (s.teamAt (teamKey c n)).id.crew).spots = []) → (commitTeams c l s).1.mem = s.mem) ∧
    ((∀ n ∈ l, (s.crew (s.teamAt (teamKey c n)).id.crew).spots ≠ []) → NoDirty s → NoDirty (commitTeams c l s).1 ∧
      ∀ x, homeByte (commitTeams c l s).1 x = (storedByte (l.flatMap fun n => teamStores (s.teamAt (teamKey c n))) x).getD (homeByte s x)) := by
  induction l generalizing s with
  | nil => exact ⟨rfl, .refl s, fun _ => rfl, fun _ hn => ⟨hn, fun _ => rfl⟩⟩
  | cons n r ih =>
    obtain ⟨hnr, hr⟩ := List.nodup_cons.mp hl
    let k := teamKey c n
    let v := commitStores s k (teamStores (s.teamAt k))
    let u := v.updTeam k fun t => t.withItems []
    have hv : OnlyMemory s v := onlyMemory_commitStores _ _ _
    have ht : ∀ m ∈ r, u.teamAt (teamKey c m) = s.teamAt (teamKey c m) := fun m hm => by
      have hne : teamKey c m ≠ k := fun e => hnr (teamKey_inj e ▸ hm)
      rw [teamAt_withItems, if_neg hne, hv.teamAt]
    have hu : LeavesTeams s u := hv.leavesTeams.trans (leavesTeams_withItems v k [])
    have hcr : ∀ x, u.crew x = s.crew x := fun x => by unfold State.crew; rw [hu.1]
    obtain ⟨h1, h2, h3, h4⟩ := ih hr u fun m hm => by rw [ht m hm]; exact h m (List.mem_cons_of_mem _ hm)
    rw [commitTeams_cons c n r s (h n List.mem_cons_self)]
    refine ⟨h1, hu.trans h2, fun hs => ?_, fun hs hn => ?_⟩
    · have hvm : v.mem = s.mem := by
        rw [show v = _ from commitStores_one _ s k (hs n List.mem_cons_self)]; exact stores_mem _ s _ _
      refine (h3 fun m hm => ?_).trans ((State.updTeam_mem _ _ _).trans hvm)
      rw [ht m hm, hcr]; exact hs m (List.mem_cons_of_mem _ hm)
    obtain ⟨hn1, hb⟩ := commitStores_home (teamStores (s.teamAt k)) s k (hs n List.mem_cons_self) hn
    have hn2 : NoDirty u ∧ ∀ x, homeByte u x = homeByte v x := by
      obtain ⟨a, o, e⟩ := v.updTeam_frame k fun t => t.withItems []
      rw [show u = _ from e]; exact ⟨hn1, fun _ => rfl⟩
    obtain ⟨h5, h6⟩ := h4 (fun m hm => by rw [ht m hm, hcr]; exact hs m (List.mem_cons_of_mem _ hm)) hn2.1
    refine ⟨h5, fun x => (h6 x).trans ?_⟩
    rw [hn2.2, hb, List.flatMap_cons, List.flatMap_congr fun m hm => by rw [ht m hm], storedByte_concat]
    cases storedByte (r.flatMap fun m => teamStores (s.teamAt (teamKey c m))) x <;> rfl

/-! ### After the commit -/

/-- Teams of a crew go on after a commit. -/
def resumeTeams (s : State) (c : Nat) (l : List Nat) : State := l.foldl (fun s n => s.updTeam (teamKey c n) Team.afterCommit) s

theorem teamAt_resumed (s : State) (k j : Nat) : (s.updTeam k Team.afterCommit).teamAt j = if j = k then (s.teamAt k).afterCommit else s.teamAt j := by
  rw [State.teamAt_updTeam]
  intro t; rfl

theorem resumeTeams_other (c n : Nat) (l : List Nat) (s : State) (h : n ∉ l) : (resumeTeams s c l).teamAt (teamKey c n) = s.teamAt (teamKey c n) := by
  induction l generalizing s with
  | nil => rfl
  | cons m r ih =>
    refine (ih _ (List.not_mem_of_not_mem_cons h)).trans ?_
    rw [teamAt_resumed, if_neg fun e => h (teamKey_inj (c := c) (m := n) (n := m) e ▸ List.mem_cons_self)]

theorem resumeTeams_one (c n : Nat) (l : List Nat) (hl : l.Nodup) (s : State) (h : n ∈ l) :
    (resumeTeams s c l).teamAt (teamKey c n) = (s.teamAt (teamKey c n)).afterCommit := by
  induction l generalizing s with
  | nil => simp at h
  | cons m r ih =>
    obtain ⟨hm, hr⟩ := List.nodup_cons.mp hl
    rcases List.mem_cons.mp h with rfl | h
    · refine (resumeTeams_other c n r _ hm).trans ?_
      rw [teamAt_resumed, if_pos rfl]
    · refine (ih hr _ h).trans ?_
      rw [teamAt_resumed, if_neg fun e => hm (teamKey_inj (c := c) (m := n) (n := m) e ▸ h)]

/-- Teams that go on leave everything but teams. -/
theorem resumeTeams_frame (c : Nat) (l : List Nat) (s : State) : ∃ a o, resumeTeams s c l = { s with team := a, others := o } := by
  refine foldl_keeps (fun u => ∃ a o, u = { s with team := a, others := o }) _ (fun u n hu => ?_) l s ⟨s.team, s.others, rfl⟩
  obtain ⟨a, o, rfl⟩ := hu
  exact State.updTeam_frame _ _ _

/-! ### The commit's release and acquire -/

theorem onlyMemory_releaseCrew (s : State) (c scope : Nat) : OnlyMemory s (releaseCrew s c scope) := onlyMemory_foldl _ (fun u _ => onlyMemory_releaseAt u _ _ _) _ s

theorem onlyMemory_acquireCrew (s : State) (cr : Crew) (scope : Nat) : OnlyMemory s (acquireCrew s cr scope) :=
  onlyMemory_foldl (fun s (p : Nat × Nat) => acquireAt s (p.1 / 48) (p.1 % 48) (cr.means scope)) (fun u _ => onlyMemory_acquireAt u _ _ _) cr.slotsOf s

theorem staysClean_releaseCrew (s : State) (c scope : Nat) : StaysClean s (releaseCrew s c scope) := staysClean_foldl _ (fun u _ => staysClean_releaseAt u _ _ _) _ s

theorem staysClean_acquireCrew (s : State) (cr : Crew) (scope : Nat) : StaysClean s (acquireCrew s cr scope) :=
  staysClean_foldl (fun s (p : Nat × Nat) => acquireAt s (p.1 / 48) (p.1 % 48) (cr.means scope)) (fun u _ => staysClean_acquireAt u _ _ _) cr.slotsOf s

/-- A crew bound to no wider domain has nothing to release to itself. -/
theorem releaseCrew_narrow (s : State) (c : Nat) (h : (s.crew c).scope = 1) : releaseCrew s c 1 = s := by
  have e : ∀ u ck, releaseAt u (ck / 48) (ck % 48) ((s.crew c).means 1) = u := fun u ck => by
    rw [Crew.means, if_pos rfl, h]; rfl
  refine foldl_keeps (· = s) _ (fun u ck hu => ?_) _ s rfl
  subst hu
  exact e u ck

theorem acquireCrew_narrow (s : State) (cr : Crew) (h : cr.scope = 1) : acquireCrew s cr 1 = s := by
  refine foldl_keeps (· = s) _ (fun u p hu => ?_) _ s rfl
  subst hu
  rw [Crew.means, if_pos rfl, h]; rfl

/-- Which teams a crew has is told by their names. -/
theorem crewTeams_congr {s u : State} (c : Nat) (h : ∀ k, (u.teamAt k).id = (s.teamAt k).id) : crewTeams u c = crewTeams s c := by
  unfold crewTeams
  simp only [h]

theorem mem_crewTeams {s : State} {c n : Nat} (h : n ∈ crewTeams s c) : (s.teamAt (teamKey c n)).id.crew = c := by
  have := (List.mem_filter.mp h).2
  simp only [Bool.and_eq_true, decide_eq_true_eq] at this
  exact this.1

theorem crewTeams_nodup (s : State) (c : Nat) : (crewTeams s c).Nodup := List.nodup_range.filter _

/-- A crew whose domain is narrower than a pod waits for no element before its commit. -/
theorem crewReady_narrow (s : State) (c : Nat) (h : (s.crew c).scope < 5) : crewReady s c = (s, true) := by
  have step : ∀ n ∈ crewTeams s c, relReady s (teamKey c n) 1 = (s, true) := fun n hn => by
    have : s.meant (teamKey c n) 1 < 5 := by rw [State.meant, mem_crewTeams hn, Crew.means, if_pos rfl]; exact h
    rw [relReady]
    exact if_pos this
  unfold crewReady
  generalize crewTeams s c = l at step
  induction l with
  | nil => rfl
  | cons n r ih =>
    rw [List.foldl_cons, step n List.mem_cons_self]
    exact ih fun m hm => step m (List.mem_cons_of_mem _ hm)

/-- The state in which a commit performs its items: after the release, unless that was made when the commit began. -/
def commitBegun (s : State) (c : Nat) : State :=
  let s1 := if (s.crew c).commit then s else releaseCrew s c 1
  s1.setCrew c { s1.crew c with commit := true }

/-- A commit whose items are all performed ends. -/
def commitEnded (v : State) (c : Nat) : State :=
  let s := acquireCrew v (v.crew c) 1
  let s := s.setCrew c { s.crew c with commit := false }
  resumeTeams { s with progress := s.progress + 1 } c (crewTeams s c)

/-- A commit that may go on, waits for no element, and performs every item. -/
theorem dqCommit_eq {s v : State} (hg : commitGoes s s.site.crew = true) (hc : (s.crew s.site.crew).commit = true ∨ (s.crew s.site.crew).scope < 5)
    (hv : commitTeams s.site.crew (crewTeams (commitBegun s s.site.crew) s.site.crew) (commitBegun s s.site.crew) = (v, true)) :
    exec .dqCommit s = .next (commitEnded v s.site.crew) := by
  have hr : (if (s.crew s.site.crew).commit = true then (s, true) else crewReady s s.site.crew) = (s, true) := by
    by_cases h : (s.crew s.site.crew).commit = true
    · exact if_pos h
    · rw [if_neg h]; exact crewReady_narrow s _ (hc.resolve_left h)
  change execDqCommit s = _
  unfold execDqCommit
  dsimp only
  rw [if_neg (by simp [hg]), hr]
  dsimp only
  unfold commitBegun at hv
  dsimp only at hv
  rw [hv]
  rfl

/-- When a commit's items are performed, teams are as they were, and the crew but for its mark. -/
theorem commitBegun_spec (s : State) (c : Nat) : (∀ k, (commitBegun s c).teamAt k = s.teamAt k) ∧
    (commitBegun s c).crew c = { s.crew c with commit := true } ∧ StaysClean s (commitBegun s c) := by
  have h : OnlyMemory s (if (s.crew c).commit then s else releaseCrew s c 1) := by
    split
    · exact .refl s
    · exact onlyMemory_releaseCrew s c 1
  refine ⟨h.teamAt, ?_, ?_⟩
  · rw [commitBegun, State.crew_setCrew, if_pos rfl, h.crew]
  · have hc : StaysClean s (if (s.crew c).commit then s else releaseCrew s c 1) := by
      split
      · exact .refl s
      · exact staysClean_releaseCrew s c 1
    exact hc

/-- What a commit's end leaves of a state. -/
theorem commitEnded_spec (v : State) (c : Nat) : ((commitEnded v c).crew c).commit = false ∧
    (∀ n ∈ crewTeams v c, (commitEnded v c).teamAt (teamKey c n) = (v.teamAt (teamKey c n)).afterCommit) ∧
    ((v.crew c).scope = 1 → (commitEnded v c).mem = v.mem ∧ ∀ d k pa, plainByte (commitEnded v c) d k pa = plainByte v d k pa) ∧
    (NoDirty v → ∀ pa, homeByte (commitEnded v c) pa = homeByte v pa) := by
  have ha := onlyMemory_acquireCrew v (v.crew c) 1
  let w := acquireCrew v (v.crew c) 1
  let x := { w.setCrew c { w.crew c with commit := false } with progress := w.progress + 1 }
  have hx : commitEnded v c = resumeTeams x c (crewTeams v c) := by
    rw [commitEnded]
    exact congrArg (resumeTeams x c) (crewTeams_congr c fun k => congrArg Team.id (ha.teamAt k))
  obtain ⟨a, o, he⟩ := resumeTeams_frame c (crewTeams v c) x
  refine ⟨?_, fun n hn => ?_, fun hs => ?_, fun hd pa => ?_⟩
  · rw [hx, he]
    show ((w.setCrew c _).crew c).commit = false
    rw [State.crew_setCrew, if_pos rfl]
  · rw [hx, resumeTeams_one c n _ (crewTeams_nodup v c) x hn]
    exact congrArg Team.afterCommit (ha.teamAt _)
  · have hw : w = v := acquireCrew_narrow v _ hs
    rw [hx, he, show x = { v.setCrew c { v.crew c with commit := false } with progress := v.progress + 1 } by unfold x; rw [hw]]
    exact ⟨rfl, fun _ _ _ => rfl⟩
  · rw [hx, he]
    have := (staysClean_acquireCrew v (v.crew c) 1 hd).2
    exact homeByte_congr this pa

/-! ### What crews do not tell -/

/-- The machine with other crews. -/
def State.withCrews (s : State) (x : SMap Crew) : State := { s with crews := x }

/-- What other cores hold of a line drains whatever crews stand. -/
theorem othersOut_withCrews (x : SMap Crew) (s : State) (d k : Nat) (l : List Nat) :
    (s.withCrews x).othersOut d k l = (s.othersOut d k l).withCrews x := by
  have each : ∀ (c : LineCopy) (line d : Nat) (u : State), eachDirty c line (l2Byte d) (u.withCrews x) = (eachDirty c line (l2Byte d) u).withCrews x :=
    fun c line d u => List.foldl_hom (State.withCrews · x) fun u j => by split <;> rfl
  have head : ∀ (u : State) d j, drainHead (u.withCrews x) d j = (drainHead u d j).withCrews x := fun u d j => by
    have hc : (u.withCrews x).core (coreKey d j) = u.core (coreKey d j) := rfl
    unfold drainHead
    dsimp only
    rw [hc]
    cases (u.core (coreKey d j)).wb with
    | nil => rfl
    | cons e r => exact each e.2 e.1 d (u.setCore (coreKey d j) { u.core (coreKey d j) with wb := r })
  have first : ∀ d j n (u : State), drainFirst d j n (u.withCrews x) = (drainFirst d j n u).withCrews x := fun d j n => by
    induction n with
    | zero => exact fun u => rfl
    | succ n ih => intro u; rw [drainFirst, drainFirst, head, ih]
  have others : ∀ (u : State) line, drainOthers (u.withCrews x) d k line = (drainOthers u d k line).withCrews x := fun u line =>
    List.foldl_hom (State.withCrews · x) fun v j => by
      split
      · rfl
      · exact first d j _ v
  exact List.foldl_hom (State.withCrews · x) fun u pa => others u (pa / 128)

/-- Settles O43: the commit's release and acquire leave every byte where no cache is dirty, and nothing at all for a crew bound to no wider domain;
in between each team's buffer is performed as the stores it holds. -/
theorem quantumCommitPerformsTheStores : Obligations.QuantumCommitPerformsTheStores := by
  unfold Obligations.QuantumCommitPerformsTheStores
  intro s c cr hg hc _ stored hst
  obtain ⟨hbt, hbc, hbd⟩ := commitBegun_spec s c
  have hbT : crewTeams (commitBegun s c) c = crewTeams s c := crewTeams_congr c fun k => congrArg Team.id (hbt k)
  obtain ⟨h1, h2, h3, h4⟩ := commitTeams_stores c (crewTeams s c) (crewTeams_nodup s c) (commitBegun s c) fun n hn => by rw [hbt]; exact hst n hn
  have hcrew : ∀ n ∈ crewTeams s c, (commitBegun s c).crew ((commitBegun s c).teamAt (teamKey c n)).id.crew = { cr with commit := true } := fun n hn => by
    rw [hbt, mem_crewTeams hn]; exact hbc
  let v := (commitTeams c (crewTeams s c) (commitBegun s c)).1
  have hteams : crewTeams v c = crewTeams s c := by
    refine (crewTeams_congr c fun k => ?_).trans hbT
    obtain ⟨d, e⟩ := h2.2 k
    rw [show v.teamAt k = _ from e]
  have hvc : v.crew c = { cr with commit := true } := by rw [← hbc]; unfold State.crew; rw [show v.crews = _ from h2.1]
  obtain ⟨he1, he2, he3, he4⟩ := commitEnded_spec v c
  refine ⟨_, dqCommit_eq hg hc (by rw [hbT]; exact Prod.ext rfl h1), he1, fun n hn => ?_, fun hsp hsc => ?_, fun hsp hwb hl pa => ?_⟩
  · intro t
    obtain ⟨d, e⟩ := h2.2 (teamKey c n)
    rw [show t = _ from he2 n (hteams ▸ hn), show v.teamAt _ = _ from e, hbt]
    exact ⟨rfl, rfl, rfl, rfl⟩
  · have hb : commitBegun s c = s.withCrews (smSet {} s.crews c { cr with commit := true }) := by
      rw [commitBegun, releaseCrew_narrow s c hsc, ite_self]; rfl
    obtain ⟨hm, hp⟩ := he3 (by rw [hvc]; exact hsc)
    refine ⟨(hm.trans (h3 fun n hn => by rw [hcrew n hn]; exact hsp)).trans (by rw [hb]; rfl), fun n hn => ?_⟩
    intro t pa
    refine (hp _ _ pa).trans ?_
    have hmem : n ∈ crewTeams s c := by rw [hn]; exact List.mem_singleton_self n
    have hv : v = ((stored n).foldl (fun s e => storeBytes s t.die t.core e.1 e.2) (commitBegun s c)).updTeam (teamKey c n) fun t => t.withItems [] := by
      have e := commitStores_one (stored n) (commitBegun s c) (teamKey c n) (by rw [hcrew n hmem]; exact hsp)
      rw [hbt] at e
      have h := commitTeams_cons c n [] (commitBegun s c) (by rw [hbt]; exact hst n hmem)
      rw [show v = _ from congrArg Prod.fst ((congrArg (commitTeams c · _) hn).trans h), hbt, ← e]
      rfl
    obtain ⟨a, o, e⟩ := State.updTeam_frame ((stored n).foldl (fun s e => storeBytes s t.die t.core e.1 e.2) (commitBegun s c)) (teamKey c n)
      fun t => t.withItems []
    have hu : plainByte v t.die t.core pa = plainByte ((stored n).foldl (fun s e => storeBytes s t.die t.core e.1 e.2) (commitBegun s c)) t.die t.core pa := by
      rw [hv, e]; rfl
    rw [hu, plainByte_stores, hb, othersOut_withCrews]
    rfl
  · have hv := h4 (fun n hn => by rw [hcrew n hn]; exact hsp) (hbd ⟨hwb, hl⟩).1
    refine (he4 hv.1 pa).trans ((hv.2 pa).trans ?_)
    rw [homeByte_congr (hbd ⟨hwb, hl⟩).2, List.flatMap_congr fun n _ => by rw [hbt]]
    rfl

end Sys2Proof.Machine
end

section
/-! The matrix engine's transfers (R373, R376, R377, R380, R381). -/

open Sys2Proof Sys2Proof.Machine

namespace Sys2Proof.Machine

/-! ### Operand memory -/

theorem smGet_smDrop {β : Type} (d : β) (p : Nat → Bool) (m : SMap β) (j : Nat) : smGet d (smDrop p m) j = if p j = true then d else smGet d m j := by
  induction m with
  | nil => exact (ite_self d).symm
  | cons e r ih =>
    rw [smDrop, List.filter_cons]
    by_cases h : j = e.1
    · subst h
      by_cases hp : p e.1 = true
      · rw [if_neg (by simp [hp]), if_pos hp]
        exact ih.trans (if_pos hp)
      · rw [if_pos (by simp [hp]), if_neg hp, smGet, smGet, if_pos rfl, if_pos rfl]
    · split
      · rw [smGet, smGet, if_neg h, if_neg h]; exact ih
      · rw [smGet, if_neg h]; exact ih

/-- A slot run with the bytes of a load in it. -/
theorem loaded_slots {l : MatLoad} (hl : l.cbType = none) (m : Matrix) (bs : List (Byte × Bool)) (hn : bs.length = l.len) (j : Nat) :
    let k := j - l.slot * 16384
    (m.loaded l bs).cb = m.cb ∧
    smGet 0 (m.loaded l bs).data j = (if l.slot * 16384 ≤ j ∧ k < l.len then (bs.map Prod.fst).getD k 0 else smGet 0 m.data j) ∧
    smGet false (m.loaded l bs).poison j = (if l.slot * 16384 ≤ j ∧ k < l.len then (bs.map Prod.snd).getD k false else smGet false m.poison j) := by
  have e : m.loaded l bs = { m with
      data := smSetAll 0 m.data (((List.range bs.length).zip bs).map fun e => (l.slot * 16384 + e.1, e.2.1)),
      poison := smSetAll false m.poison (((List.range bs.length).zip bs).map fun e => (l.slot * 16384 + e.1, e.2.2)) } := by
    rw [Matrix.loaded, hl]
  have hr : l.slot * 16384 ≤ j ∧ j < l.slot * 16384 + bs.length ↔ l.slot * 16384 ≤ j ∧ j - l.slot * 16384 < l.len := by omega
  rw [e]
  exact ⟨rfl, (smGet_smSetAll_run 0 m.data Prod.fst _ j bs).trans (if_congr hr rfl rfl),
    (smGet_smSetAll_run false m.poison Prod.snd _ j bs).trans (if_congr hr rfl rfl)⟩

/-- A codebook with the bytes of a load in it, and zero bytes after them. -/
theorem loaded_codebook {l : MatLoad} {ct : BitVec 2} (hl : l.cbType = some ct) (m : Matrix) (bs : List (Byte × Bool)) (hn : bs.length = l.len)
    (hs : l.len ≤ 2048) (j : Nat) : (m.loaded l bs).data = m.data ∧
    smGet 0 (m.loaded l bs).cb j = (if j / 2048 ≠ l.slot then smGet 0 m.cb j else if j % 2048 < l.len then (bs.map Prod.fst).getD (j % 2048) 0 else 0) ∧
    smGet false (m.loaded l bs).cbPoison j =
      (if j / 2048 ≠ l.slot then smGet false m.cbPoison j else if j % 2048 < l.len then (bs.map Prod.snd).getD (j % 2048) false else false) := by
  have e : m.loaded l bs = { m with
      cb := smSetAll 0 (smDrop (fun k => decide (k / 2048 = l.slot)) m.cb) (((List.range bs.length).zip bs).map fun e => (l.slot * 2048 + e.1, e.2.1)),
      cbPoison := smSetAll false (smDrop (fun k => decide (k / 2048 = l.slot)) m.cbPoison)
        (((List.range bs.length).zip bs).map fun e => (l.slot * 2048 + e.1, e.2.2)) } := by
    rw [Matrix.loaded, hl]
  have run : ∀ {β : Type} [DecidableEq β] (d : β) (cb : SMap β) (f : Byte × Bool → β),
      smGet d (smSetAll d (smDrop (fun k => decide (k / 2048 = l.slot)) cb) (((List.range bs.length).zip bs).map fun e => (l.slot * 2048 + e.1, f e.2))) j =
        if j / 2048 ≠ l.slot then smGet d cb j else if j % 2048 < l.len then (bs.map f).getD (j % 2048) d else d := fun d cb f => by
    rw [smGet_smSetAll_run, smGet_smDrop, hn]
    by_cases h : j / 2048 = l.slot
    · rw [if_neg (not_not_intro h), if_pos (decide_eq_true h), show j - l.slot * 2048 = j % 2048 by omega]
      exact if_congr (by omega) rfl rfl
    · rw [if_pos h, if_neg (show ¬(l.slot * 2048 ≤ j ∧ j < l.slot * 2048 + l.len) by omega),
        if_neg (show ¬decide (j / 2048 = l.slot) = true by simp [h])]
  rw [e]
  exact ⟨rfl, run 0 m.cb Prod.fst, run false m.cbPoison Prod.snd⟩

/-- The bytes that a matrix load brings, with the poison of their lines. -/
def loadBytes (s : State) (t : TeamId) (l : MatLoad) : List (Byte × Bool) :=
  (List.range l.len).map fun j => (plainByte s t.die t.core (pagePa l.pages (l.va + j)), plainPoison s t.die t.core (pagePa l.pages (l.va + j)) 1)

theorem loadBytes_length (s : State) (t : TeamId) (l : MatLoad) : (loadBytes s t l).length = l.len := by simp [loadBytes]

theorem loadBytes_fst (s : State) (t : TeamId) (l : MatLoad) (k : Nat) (h : k < l.len) :
    ((loadBytes s t l).map Prod.fst).getD k 0 = plainByte s t.die t.core (pagePa l.pages (l.va + k)) := by
  rw [List.getD_eq_getElem _ _ (by rw [List.length_map, loadBytes_length]; exact h)]
  simp [loadBytes]

theorem loadBytes_snd (s : State) (t : TeamId) (l : MatLoad) (k : Nat) (h : k < l.len) :
    ((loadBytes s t l).map Prod.snd).getD k false = plainPoison s t.die t.core (pagePa l.pages (l.va + k)) 1 := by
  rw [List.getD_eq_getElem _ _ (by rw [List.length_map, loadBytes_length]; exact h)]
  simp [loadBytes]

/-- A matrix load that may be performed. -/
theorem mloadComplete_eq {s : State} {o : Op} {l : MatLoad} (ho : s.op s.site.op = some o) (hg : (s.crew o.crew).gen = o.gen) (hk : o.kind = .mload l)
    (hm : mayEngine s o = true) : let s1 := if l.acq = true then s.acquireFor o.team l.scope.toNat else s
    exec .mloadComplete s = .next (finishOp (s1.mapMat o.crew fun m => m.loaded l (loadBytes s1 (s1.teamAt o.team).id l)) o) := by
  change execMloadComplete s = _
  rw [execMloadComplete, siteOp_eq _ ho hg, hk]
  dsimp only
  rw [if_neg (by simp [hm])]
  rfl

/-! ### MST -/

/-- The stores of a bank's elements. -/
def bankStores (m : MatStore) (mt : Matrix) : List (Nat × List Byte) :=
  (List.range 1024).map fun e => (pagePa m.pages (mstAddr m.base m.stride (mstSize m.t) e).toNat,
    leBytes (mstElem m e (smGet 0 mt.acc (m.bank * 1024 + e))).1 (mstSize m.t))

/-- A matrix store without release that may be performed: its elements' stores, then the flags of its team. -/
theorem mstComplete_eq {s : State} {o : Op} {m : MatStore} (ho : s.op s.site.op = some o) (hg : (s.crew o.crew).gen = o.gen) (hk : o.kind = .mst m)
    (hr : m.rel = false) (hm : mayEngine s o = true) : let t := (s.teamAt o.team).id
    ∃ f, exec .mstComplete s = .next (finishOp
      (((bankStores m (s.crew o.crew).mat).foldl (fun s e => storeBytes s t.die t.core e.1 e.2) s).updTeam o.team fun t => t.raise f) o) := by
  intro t
  have hf : ∀ (l : List Nat) (x : State × Flags), ∃ f, l.foldl (fun (x : State × Flags) e =>
      (storeBytes x.1 t.die t.core (pagePa m.pages (mstAddr m.base m.stride (mstSize m.t) e).toNat)
        (leBytes (mstElem m e (smGet 0 (s.crew o.crew).mat.acc (m.bank * 1024 + e))).1 (mstSize m.t)),
        x.2 ||| (mstElem m e (smGet 0 (s.crew o.crew).mat.acc (m.bank * 1024 + e))).2)) x =
      ((l.map fun e => (pagePa m.pages (mstAddr m.base m.stride (mstSize m.t) e).toNat,
        leBytes (mstElem m e (smGet 0 (s.crew o.crew).mat.acc (m.bank * 1024 + e))).1 (mstSize m.t))).foldl
          (fun s e => storeBytes s t.die t.core e.1 e.2) x.1, f) := by
    intro l
    induction l with
    | nil => exact fun x => ⟨x.2, rfl⟩
    | cons e r ih => exact fun x => ih _
  obtain ⟨f, e⟩ := hf (List.range 1024) (s, 0)
  refine ⟨f, ?_⟩
  change execMstComplete s = _
  rw [execMstComplete, siteOp_eq _ ho hg, hk]
  dsimp only
  simp only [hr, hm, Bool.false_eq_true, if_false, Bool.not_true, Bool.or_self]
  unfold bankStores
  rw [e]

/-! ### MTRQ -/

/-- A transposition leaves the banks. -/
theorem trqAll_acc (mt : Matrix) (q : MatTrq) (fresh : Nat) : (trqAll mt q fresh).1.acc = mt.acc := by
  have put : ∀ (m : Matrix) slot t e code, (m.putElem slot t e code).acc = m.acc := fun m slot t e code => by
    unfold Matrix.putElem
    dsimp only
    split <;> rfl
  unfold trqAll
  refine foldl_same (fun x : Matrix × Flags => x.1.acc) _ (fun x n => ?_) _ _
  exact foldl_same (fun m : Matrix => m.acc) _ (fun m e => put m _ _ _ _) _ _

/-- A transposition of bytes none of which is poisoned. -/
theorem mtrqComplete_eq {s : State} {o : Op} {q : MatTrq} (ho : s.op s.site.op = some o) (hg : (s.crew o.crew).gen = o.gen) (hk : o.kind = .mtrq q)
    (hp : (s.crew o.crew).mat.poison = []) : let r := trqAll (s.crew o.crew).mat q s.fresh
    exec .mtrqComplete s = .next (finishOp (({ s.mapMat o.crew fun _ => r.1 with fresh := s.fresh + 2048 } : State).updTeam o.team fun t => t.raise r.2) o) := by
  have hb : ∀ slot p, (s.crew o.crew).mat.badByte slot p = false := fun slot p => by rw [Matrix.badByte, hp]; rfl
  change execMtrqComplete s = _
  rw [execMtrqComplete, siteOp_eq _ ho hg, hk]
  dsimp only
  rw [if_neg (by rw [hb]; exact Bool.false_ne_true)]

/-! ### What a transfer's end leaves -/

theorem plainByte_updTeam (s : State) (k : Nat) (f : Team → Team) (d c pa : Nat) : plainByte (s.updTeam k f) d c pa = plainByte s d c pa := by
  obtain ⟨a, o, e⟩ := s.updTeam_frame k f
  rw [e]; rfl

/-- An operation ends: it is gone; crews, memory and what cores read stay. -/
theorem finishOp_leaves (s : State) (o : Op) : (∀ x ∈ (finishOp s o).ops, x.id ≠ o.id) ∧ (∀ c, (finishOp s o).crew c = s.crew c) ∧
    (finishOp s o).mem = s.mem ∧ ∀ d k pa, plainByte (finishOp s o) d k pa = plainByte s d k pa := by
  refine ⟨fun x hx => ((finishOp_ops s o x).mp hx).2, fun c => ?_, finishOp_mem s o, plainByte_finishOp s o⟩
  obtain ⟨a, t, e⟩ := finishOp_spec s o
  rw [e]; rfl

theorem mat_mapMat (s : State) (c : Nat) (f : Matrix → Matrix) : ((s.mapMat c f).crew c).mat = f (s.crew c).mat := by
  rw [State.mapMat, State.crew_setCrew, if_pos rfl]

/-- Settles O47: a load's bytes are a run of its slots or its codebook, a store is the stores of its elements, and no transfer's end changes more. -/
theorem matrixTransfersComplete : Obligations.MatrixTransfersComplete := by
  unfold Obligations.MatrixTransfersComplete
  intro s o ho hg cr t
  refine ⟨?_, ?_, ?_⟩
  · intro l hk hm s1 got bad
    have hs1 : OnlyMemory s s1 := by
      by_cases h : l.acq = true
      · rw [show s1 = _ from if_pos h]; exact onlyMemory_acquireAt _ _ _ _
      · rw [show s1 = s from if_neg h]; exact .refl s
    have he : exec .mloadComplete s = .next (finishOp (s1.mapMat o.crew fun m => m.loaded l (loadBytes s1 (s1.teamAt o.team).id l)) o) :=
      mloadComplete_eq ho hg hk hm
    rw [hs1.teamAt] at he
    obtain ⟨h1, h2, h3, -⟩ := finishOp_leaves (s1.mapMat o.crew fun m => m.loaded l (loadBytes s1 (s.teamAt o.team).id l)) o
    refine ⟨_, he, h1, h3, ?_⟩
    intro mt
    have hmt : mt = cr.mat.loaded l (loadBytes s1 t l) := by
      rw [show mt = _ from congrArg Crew.mat (h2 o.crew), mat_mapMat, hs1.crew]
    rw [hmt]
    refine ⟨fun hc => ⟨?_, ?_⟩, fun hc hs => ⟨?_, ?_⟩⟩
    · exact (loaded_slots hc cr.mat _ (loadBytes_length s1 t l) 0).1
    · intro j k
      obtain ⟨-, hd, hp⟩ := loaded_slots hc cr.mat _ (loadBytes_length s1 t l) j
      exact ⟨hd.trans (if_ctx_congr Iff.rfl (fun h => loadBytes_fst s1 t l k h.2) fun _ => rfl),
        hp.trans (if_ctx_congr Iff.rfl (fun h => loadBytes_snd s1 t l k h.2) fun _ => rfl)⟩
    · obtain ⟨ct, e⟩ := Option.ne_none_iff_exists'.mp hc
      exact (loaded_codebook e cr.mat _ (loadBytes_length s1 t l) hs 0).1
    · intro j
      obtain ⟨ct, e⟩ := Option.ne_none_iff_exists'.mp hc
      obtain ⟨-, hd, hp⟩ := loaded_codebook e cr.mat _ (loadBytes_length s1 t l) hs j
      refine ⟨hd.trans ?_, hp.trans ?_⟩
      · exact if_ctx_congr Iff.rfl (fun _ => rfl) fun _ => if_ctx_congr Iff.rfl (fun h => loadBytes_fst s1 t l _ h) fun _ => rfl
      · refine if_ctx_congr Iff.rfl (fun _ => rfl) fun _ => ?_
        by_cases h : j % 2048 < l.len
        · rw [if_pos h, loadBytes_snd s1 t l _ h, decide_eq_true h, Bool.true_and]
        · rw [if_neg h, decide_eq_false h, Bool.false_and]
  · intro m hk hr hm
    obtain ⟨f, he⟩ := mstComplete_eq ho hg hk hr hm
    obtain ⟨h1, -, h3, h4⟩ := finishOp_leaves
      (((bankStores m cr.mat).foldl (fun s e => storeBytes s t.die t.core e.1 e.2) s).updTeam o.team fun t => t.raise f) o
    refine ⟨_, he, h1, ?_, ?_⟩
    · exact h3.trans ((State.updTeam_mem _ _ _).trans (stores_mem _ s _ _))
    · intro w
      refine ⟨fun pa => ?_, fun h e x => if_pos h⟩
      rw [h4, plainByte_updTeam]
      exact plainByte_stores w s t.die t.core pa
  · intro q hk hp
    let v : State := { s.mapMat o.crew fun _ => (trqAll cr.mat q s.fresh).1 with fresh := s.fresh + 2048 }
    obtain ⟨h1, h2, h3, -⟩ := finishOp_leaves (v.updTeam o.team fun t => t.raise (trqAll cr.mat q s.fresh).2) o
    have hmt : ((finishOp (v.updTeam o.team fun t => t.raise (trqAll cr.mat q s.fresh).2) o).crew o.crew).mat = (trqAll cr.mat q s.fresh).1 := by
      rw [h2, State.crew, State.updTeam_crews]
      exact mat_mapMat s o.crew fun _ => (trqAll cr.mat q s.fresh).1
    refine ⟨_, mtrqComplete_eq ho hg hk hp, h1, h3.trans (State.updTeam_mem _ _ _), congrArg Matrix.data hmt, ?_⟩
    exact (congrArg Matrix.acc hmt).trans (trqAll_acc _ _ _)

end Sys2Proof.Machine
end

section
/-! Queue words (R22, R143 to R145, R186, R203, R204). -/

open Sys2Proof Sys2Proof.Machine

namespace Sys2Proof.Machine

/-! ### Queue registers -/

/-- Changing the team that issues by its key. -/
theorem updTeam_own (s : State) (f : Team → Team) : s.updTeam s.team.key f = s.mapTeam f := by
  rw [State.updTeam, State.setTeamAt, if_pos rfl, teamAt_own]; rfl

/-- A team with its queue registers replaced. -/
def Team.withQ (t : Team) (q : SMap QReg) : Team := { t with q := q }

theorem updQ_own (s : State) (q : Nat) (f : QReg → QReg) :
    s.updQ s.team.key q f = s.mapTeam fun t => t.withQ (smSet {} t.q q (f (t.qreg q))) := updTeam_own s _

@[simp] theorem Team.qreg_withQ_smSet (t : Team) (m : SMap QReg) (q k : Nat) (x : QReg) :
    (t.withQ (smSet {} m q x)).qreg k = if k = q then x else smGet {} m k := smGet_smSet ({} : QReg) m q x k

/-- Reservations that go back leave the team's registers, but that queue register's count of them, memory and crews. -/
theorem returnResv_spec (s : State) (q : Nat) : let u := returnResv s s.team.key q
    (∃ m, u.team = s.team.withQ m ∧ (∀ k ≠ q, smGet {} m k = s.team.qreg k) ∧ (smGet {} m q).seq = (s.team.qreg q).seq) ∧
      u.mem = s.mem ∧ u.crews = s.crews := by
  have upd : ∀ v : State, v.team = s.team → v.mem = s.mem → v.crews = s.crews →
      let u := v.updTeam s.team.key fun t => { t with q := smSet {} t.q q { s.team.qreg q with resv := 0 } }
      (∃ m, u.team = s.team.withQ m ∧ (∀ k ≠ q, smGet {} m k = s.team.qreg k) ∧ (smGet {} m q).seq = (s.team.qreg q).seq) ∧
        u.mem = s.mem ∧ u.crews = s.crews := by
    intro v ht hm hc
    dsimp only
    rw [State.updTeam_mem, State.updTeam_crews, ← ht, updTeam_own]
    refine ⟨⟨_, rfl, fun k hk => ?_, ?_⟩, hm, hc⟩
    · rw [smGet_smSet, if_neg hk]; rfl
    · rw [smGet_smSet, if_pos rfl]
  have hsend : ∀ d dev job m, (s.sendOn d dev job m).team = s.team ∧ (s.sendOn d dev job m).mem = s.mem ∧ (s.sendOn d dev job m).crews = s.crews :=
    fun d dev job m => by
      unfold State.sendOn State.send
      split <;> exact ⟨rfl, rfl, rfl⟩
  unfold returnResv
  dsimp only
  rw [teamAt_own]
  split
  · split
    · exact ⟨⟨s.team.q, rfl, fun _ _ => rfl, rfl⟩, rfl, rfl⟩
    · obtain ⟨h1, h2, h3⟩ := hsend s.team.id.die _ _ _
      exact upd _ h1 h2 h3
  · exact upd s rfl rfl rfl

/-! ### QBIND (R143, R145) -/

/-- A port is below 2 ^ 9, so its number is the ray port's when its low bits are. -/
theorem portOk_ray {n : Nat} (h : portOk n = true) (hn : n ≠ 1) : n % 2 ^ 9 ≠ 1 := by
  simp only [portOk, Bool.or_eq_true, Bool.and_eq_true, decide_eq_true_eq] at h
  omega

/-- QBIND of a port other than the ray engine's. -/
theorem qbind_runs {s : State} {q : BitVec 4} {a : BitVec 6} (hr : s.ready (.qbind q a)) (hp : portOk (s.team.getS a.toNat).toNat = true)
    (hn : (s.team.getS a.toNat).toNat ≠ 1) (hb : qBusy s q.toNat (s.team.qreg q.toNat) = false) :
    Runs (.qbind q a) s ((returnResv s s.team.key q.toNat).updQ s.team.key q.toNat fun x => { port := (s.team.getS a.toNat).toNat, seq := x.seq }) .next := by
  refine runs_of_ok (f := _) (show execQbind q a s = _ from rfl) hr ?_
  dsimp only
  rw [if_neg fun h => portOk_ray hp hn (of_decide_eq_true (Bool.and_eq_true_iff.mp h).1), if_neg (by simp [hp]), if_neg (by simp [hb]), if_neg (by simp [hn])]

/-- What QBIND leaves: the register holds its port and its sequence number, and nothing else of the team, of memory or of crews changes. -/
theorem qbind_leaves (s : State) (q v : Nat) :
    let u := (returnResv s s.team.key q).updQ s.team.key q fun x => { port := v, seq := x.seq }
    u.team.qreg q = { port := v, seq := (s.team.qreg q).seq } ∧ (∀ k ≠ q, u.team.qreg k = s.team.qreg k) ∧ u.team.r = s.team.r ∧ u.mem = s.mem ∧
      u.crews = s.crews := by
  obtain ⟨⟨m, ht, hk, hs⟩, hm, hc⟩ := returnResv_spec s q
  have hkey : s.team.key = (returnResv s s.team.key q).team.key := by rw [ht]; rfl
  rw [show (returnResv s s.team.key q).updQ s.team.key q (fun x => { port := v, seq := x.seq }) = _ from
    (congrArg (fun k => (returnResv s s.team.key q).updQ k q fun x => { port := v, seq := x.seq }) hkey).trans (updQ_own _ q _)]
  refine ⟨?_, fun k hne => ?_, ?_, hm, hc⟩
  · show ((returnResv s s.team.key q).team.withQ _).qreg q = _
    rw [Team.qreg_withQ_smSet, if_pos rfl, ht, ← hs]; rfl
  · show ((returnResv s s.team.key q).team.withQ _).qreg k = _
    rw [Team.qreg_withQ_smSet, if_neg hne, ht, ← hk k hne]; rfl
  · show (returnResv s s.team.key q).team.r = _
    rw [ht]; rfl

/-! ### Pushes (R143, R203, R205) -/

/-- Crews that form from a queue's records are told in the launch table. -/
theorem formCrews_frame (s : State) (n : Nat) (all : Bool) : ∃ d p, formCrews s n all = { s with dies := d, progress := p } := by
  unfold formCrews
  dsimp only
  split
  · exact ⟨_, _, rfl⟩
  · split
    · exact ⟨_, _, rfl⟩
    · exact ⟨_, _, rfl⟩

/-- Records that join the tail of a record queue change that queue. -/
theorem rqAppends_spec (n : Nat) (l : List Pushed) (s : State) : ∃ q p, l.foldl (fun s p => rqAppend s n p.words) s = { s with queues := q, progress := p } ∧
    ∃ a, smGet {} q n = { s.rq n with recs := (s.rq n).recs ++ l.map Pushed.words, added := a } := by
  induction l generalizing s with
  | nil => exact ⟨s.queues, s.progress, rfl, (s.rq n).added, by rw [List.map_nil, List.append_nil]; rfl⟩
  | cons x r ih =>
    obtain ⟨q, p, e, a, h⟩ := ih (rqAppend s n x.words)
    refine ⟨q, p, e, a, h.trans ?_⟩
    have : (rqAppend s n x.words).rq n = { s.rq n with recs := (s.rq n).recs ++ [x.words], added := s.now (n % 8) } := by
      rw [rqAppend, State.rq, State.setRq, smGet_smSet, if_pos rfl]
    rw [this, List.map_cons, List.append_assoc]
    rfl

/-- Records of one mask word go to a record queue: they stand at its tail, the register's staged records are fewer, and the team's other registers
and memory stay. -/
theorem pushGive_queue (s : State) (q : Nat) (l : List Pushed) (hp : 0x100 ≤ (s.team.qreg q).port) :
    let x := s.team.qreg q; let k := portQueue x.port; let u := pushGive s q x l
    u.team = s.team.withQ (smSet {} s.team.q q { x with staged := x.staged.drop l.length }) ∧ u.mem = s.mem ∧
    ∃ a, u.rq k = { s.rq k with recs := (s.rq k).recs ++ l.map Pushed.words, added := a } := by
  intro x k u
  let v : State := { s.clearIdem.mapTeam (fun t => t.withQ (smSet {} t.q q { t.qreg q with staged := (t.qreg q).staged.drop l.length })) with
    progress := s.progress + 1 }
  obtain ⟨qs, p, e, a, h⟩ := rqAppends_spec k l v
  obtain ⟨d, p', e'⟩ := formCrews_frame { v with queues := qs, progress := p } k false
  have hu : u = { ({ v with queues := qs, progress := p } : State) with dies := d, progress := p' } := by
    rw [← e', ← e]
    show pushGive s q x l = _
    have h1 : x.port ≠ 1 := fun h => absurd (h ▸ hp : 0x100 ≤ 1) (by decide)
    unfold pushGive
    dsimp only
    rw [if_neg h1, if_pos hp]
    have := updQ_own s.clearIdem q fun x => { x with staged := x.staged.drop l.length }
    rw [show s.clearIdem.team.key = s.team.key from rfl] at this
    rw [this]
    rfl
  rw [hu]
  exact ⟨rfl, rfl, a, h⟩

/-- What follows the records of the first mask word in a list in lane order belongs to later words. -/
theorem laterWords {x : Pushed} {r : List Pushed} (hs : (x :: r).Pairwise fun a b => a.lane ≤ b.lane) :
    ∀ y ∈ (x :: r).dropWhile (fun y => y.lane / 32 = x.lane / 32), x.lane / 32 < y.lane / 32 := by
  have hsub := (List.dropWhile_sublist (l := x :: r) fun y => y.lane / 32 = x.lane / 32)
  intro y hy
  rcases h : (x :: r).dropWhile (fun y => y.lane / 32 = x.lane / 32) with _ | ⟨z, w⟩
  · rw [h] at hy; exact absurd hy List.not_mem_nil
  · rw [h] at hy
    have hz : ¬z.lane / 32 = x.lane / 32 := by
      have := List.head?_dropWhile_not (fun y : Pushed => y.lane / 32 = x.lane / 32) (x :: r)
      rw [h] at this
      simpa using this
    have hmem : ∀ y ∈ z :: w, x.lane ≤ y.lane := fun y hy => by
      rcases List.mem_cons.mp ((h ▸ hsub).subset hy) with rfl | hy
      · exact Nat.le_refl _
      · exact (List.pairwise_cons.mp hs).1 y hy
    have hzw : (z :: w).Pairwise fun a b => a.lane ≤ b.lane := hs.sublist (h ▸ hsub)
    have h1 := hmem z List.mem_cons_self
    have h2 : z.lane ≤ y.lane := by
      rcases List.mem_cons.mp hy with rfl | hy
      · exact Nat.le_refl _
      · exact (List.pairwise_cons.mp hzw).1 y hy
    omega

theorem RecordQueue.pool_append (x : RecordQueue) (l : List (List W32)) (a : Nat) :
    ({ x with recs := x.recs ++ l, added := a } : RecordQueue).pool = x.pool - l.length := by
  unfold RecordQueue.pool
  dsimp only
  split
  · exact (Nat.zero_sub _).symm
  · rw [List.length_append]; omega

/-- Staged records, in lane order, are delivered whole to a record queue that is not sealed and has room for them. `j` is the first mask word that may be
left. -/
theorem pushDeliver_queue (q fuel : Nat) (s : State) (j : Nat) (hp : 0x100 ≤ (s.team.qreg q).port) (ho : (s.rq (portQueue (s.team.qreg q).port)).state = .opened)
    (hroom : (s.team.qreg q).staged.length ≤ (s.rq (portQueue (s.team.qreg q).port)).pool)
    (hs : (s.team.qreg q).staged.Pairwise fun a b => a.lane ≤ b.lane) (hl : ∀ x ∈ (s.team.qreg q).staged, j ≤ x.lane / 32 ∧ x.lane / 32 < 32)
    (hf : 33 ≤ fuel + j) : let k := portQueue (s.team.qreg q).port
    ∃ u, pushDeliver q fuel s = ok u ∧ (u.rq k).recs = (s.rq k).recs ++ (s.team.qreg q).staged.map Pushed.words ∧ (u.team.qreg q).staged = [] ∧
      u.team.r = s.team.r ∧ u.mem = s.mem := by
  induction fuel generalizing s j with
  | zero =>
    have : (s.team.qreg q).staged = [] := by
      rcases h : (s.team.qreg q).staged with _ | ⟨x, r⟩
      · rfl
      · have := hl x (by rw [h]; exact List.mem_cons_self); omega
    exact ⟨s, rfl, by rw [this, List.map_nil, List.append_nil], this, rfl, rfl⟩
  | succ n ih =>
    rw [pushDeliver]
    dsimp only
    rcases hst : (s.team.qreg q).staged with _ | ⟨x, r⟩
    · exact ⟨s, rfl, by rw [List.map_nil, List.append_nil], hst, rfl, rfl⟩
    · dsimp only
      rw [hst] at hs hl hroom
      let x0 := s.team.qreg q
      let g := (x :: r).takeWhile fun y => y.lane / 32 = x.lane / 32
      let rest := (x :: r).dropWhile fun y => y.lane / 32 = x.lane / 32
      have hsplit : g ++ rest = x :: r := List.takeWhile_append_dropWhile
      have hlen : g.length + rest.length = (x :: r).length := by rw [← hsplit, List.length_append]
      obtain ⟨hteam, hmem, a, hrq⟩ := pushGive_queue s q g hp
      let u := pushGive s q x0 g
      have hq : u.team.qreg q = { x0 with staged := rest } := by
        rw [show u.team = _ from hteam, Team.qreg_withQ_smSet, if_pos rfl, hst, ← hsplit, List.drop_left]
      have hroom' : g.length ≤ (s.rq (portQueue (s.team.qreg q).port)).pool := by omega
      rw [if_neg (by rw [show (s.rq (portQueue (s.team.qreg q).port)).state = .opened from ho]; simp),
        if_pos (show pushRoom s x0 g.length = true by rw [pushRoom, if_pos hp]; exact decide_eq_true hroom')]
      have hport : (u.team.qreg q).port = x0.port := by rw [hq]
      have hu : u.rq (portQueue x0.port) = _ := hrq
      obtain ⟨v, h1, h2, h3, h4, h5⟩ := ih u (x.lane / 32 + 1) (by rw [hport]; exact hp) (by rw [hport, hu]; exact ho)
        (by
          rw [hq]
          show rest.length ≤ (u.rq (portQueue x0.port)).pool
          rw [hu]
          rw [RecordQueue.pool_append, List.length_map]
          omega)
        (by rw [hq]; exact hs.sublist (List.dropWhile_sublist _))
        (fun y hy => by
          have hy : y ∈ rest := by rw [hq] at hy; exact hy
          exact ⟨laterWords hs y hy, (hl y ((List.dropWhile_sublist _).subset hy)).2⟩)
        (by have := (hl x List.mem_cons_self).1; omega)
      rw [hport] at h2
      refine ⟨v, h1, ?_, h3, ?_, h5.trans hmem⟩
      · rw [h2, hu, hq, List.append_assoc, ← List.map_append, hsplit]
      · rw [h4, show u.team = _ from hteam]; rfl

/-- The records of a push from some lanes, as they are staged. -/
def stagedRecords (s : State) (v n : Nat) (lanes : List Nat) : List Pushed :=
  (pushRecords s.team v n lanes).map fun r => { words := r.2, lane := r.1, stamp := s.nextOp }

theorem stagedRecords_eq (s : State) (v n : Nat) (lanes : List Nat) : stagedRecords s v n lanes =
    lanes.map fun l => { words := (List.range n).map fun k => s.team.getV (v + k) l, lane := l, stamp := s.nextOp } := by
  rw [stagedRecords, pushRecords, List.map_map]; rfl

/-- A push whose port takes it stages its records and delivers them. -/
theorem pushWord_stages {s : State} {q : BitVec 4} {v : BitVec 7} {n : BitVec 5} {team : Bool} {lanes : List Nat} (hs : (s.team.qreg q.toNat).staged = [])
    (hl : lanes ≠ []) (hp : (s.team.qreg q.toNat).port ≠ 1 ∧ (s.team.qreg q.toNat).port ≠ 3)
    (hf : pushFault s q (s.team.qreg q.toNat) (n.toNat + 1) team (pushRecords s.team v.toNat (n.toNat + 1) lanes) = none) :
    pushWord q v n team lanes s = pushDeliver q.toNat 33 (s.mapTeam fun t => t.withQ (smSet {} t.q q.toNat
      { t.qreg q.toNat with staged := stagedRecords s v.toNat (n.toNat + 1) lanes })) := by
  rw [pushWord]
  dsimp only
  rw [if_neg (not_not_intro hs), if_neg hl, hf]
  dsimp only
  rw [if_neg hp.2, if_neg hp.1, updQ_own]
  rfl

/-- QPUSH to a record queue with room. -/
theorem qpush_queue {s : State} {q : BitVec 4} {v : BitVec 7} {n : BitVec 5} (hr : s.ready (.qpush q v n)) (hs : (s.team.qreg q.toNat).staged = [])
    (hl : s.team.lanes ≠ []) (hp : 0x100 ≤ (s.team.qreg q.toNat).port) (hn : n.toNat = 15)
    (hq : queueOf s s.team.id.ctx (portQueue (s.team.qreg q.toNat).port) = true) (ho : (s.rq (portQueue (s.team.qreg q.toNat).port)).state = .opened)
    (hroom : s.team.lanes.length ≤ (s.rq (portQueue (s.team.qreg q.toNat).port)).pool) :
    ∃ u, Runs (.qpush q v n) s u .next ∧ (u.rq (portQueue (s.team.qreg q.toNat).port)).recs =
        (s.rq (portQueue (s.team.qreg q.toNat).port)).recs ++ s.team.lanes.map (fun l => (List.range 16).map fun j => s.team.getV (v.toNat + j) l) ∧
      (u.team.qreg q.toNat).staged = [] ∧ u.team.r = s.team.r ∧ u.mem = s.mem := by
  have hport : (s.team.qreg q.toNat).port ≠ 0 ∧ (s.team.qreg q.toNat).port ≠ 1 ∧ (s.team.qreg q.toNat).port ≠ 2 ∧ (s.team.qreg q.toNat).port ≠ 3 ∧
      (s.team.qreg q.toNat).port ≠ 4 := by omega
  obtain ⟨h0, h1, h2, h3, h4⟩ := hport
  have hf : pushFault s q (s.team.qreg q.toNat) (n.toNat + 1) false (pushRecords s.team v.toNat (n.toNat + 1) s.team.lanes) = none := by
    simp [pushFault, pushShape, h0, h1, h2, h3, h4, hn, hq, ho]
  let w := s.mapTeam fun t => t.withQ (smSet {} t.q q.toNat
    { t.qreg q.toNat with staged := stagedRecords s v.toNat (n.toNat + 1) s.team.lanes })
  have hw : w.team.qreg q.toNat = { s.team.qreg q.toNat with staged := stagedRecords s v.toNat (n.toNat + 1) s.team.lanes } := by
    show (s.team.withQ _).qreg q.toNat = _
    rw [Team.qreg_withQ_smSet, if_pos rfl]
  have hrec := stagedRecords_eq s v.toNat (n.toNat + 1) s.team.lanes
  obtain ⟨u, e, hu1, hu2, hu3, hu4⟩ := pushDeliver_queue q.toNat 33 w 0 (by rw [hw]; exact hp) (by rw [hw]; exact ho)
    (by rw [hw, hrec, List.length_map]; exact hroom)
    (by
      rw [hw, hrec]
      refine List.Pairwise.map _ (fun a b h => ?_) (List.pairwise_lt_range.filter _)
      exact Nat.le_of_lt h)
    (fun x hx => by
      rw [hw, hrec] at hx
      obtain ⟨l, hl, rfl⟩ := List.mem_map.mp hx
      have := Team.lanes_lt hl
      exact ⟨Nat.zero_le _, by show l / 32 < 32; omega⟩) (by omega)
  refine ⟨u, runs_of_ok (f := fun s => pushWord q v n false s.team.lanes s) (show execQpush q v n s = _ from rfl) hr ?_, ?_, hu2, hu3, hu4⟩
  · rw [pushWord_stages hs hl ⟨h1, h3⟩ hf]; exact e
  · rw [hw] at hu1
    refine hu1.trans ?_
    rw [hrec, List.map_map, hn]
    rfl

/-- A word that reads vector registers, none of which is pending or marked in its team, is not held back. -/
theorem laneHazard_clear (s : State) (t : Team) (sp : List Span) (hp : t.rSrc.vpend = []) (hm : t.rSrc.vmarks = []) (hg : t.pfx.grd = none) :
    laneHazard s t sp [] = none := by
  have hv : ∀ words r, vPending t words r = false := fun words r => by
    rw [vPending, hp]
    simp [smGet]
  have hst : stalled { pipe := .x, vr := sp, vw := [] } t = false := by
    have ha : ∀ words (l : List Span), (l.any fun x => (spanRegs x).any (vPending t words)) = false := fun words l => by simp [hv]
    unfold stalled
    simp only [hg, ha, List.any_nil, List.append_nil, Bool.or_false, Bool.and_false]
  have hpo : poisoned { pipe := .x, vr := sp, vw := [] } t = none := by
    unfold poisoned
    simp only [hm, List.isEmpty_nil, Bool.true_or, if_true, List.flatMap_nil, ite_self, List.findSome?_nil, Option.map_none]
  unfold laneHazard
  dsimp only
  rw [hst, hpo]
  rfl

/-- Records of one mask word go to an engine's port other than the ray engine's. -/
theorem pushGive_engine (s : State) (q : Nat) (l : List Pushed) (h1 : (s.team.qreg q).port ≠ 1) (hp : ¬0x100 ≤ (s.team.qreg q).port) :
    let x := s.team.qreg q; let u := pushGive s q x l
    u.team.qreg q = { x with staged := x.staged.drop l.length, pushed := x.pushed ++ l } ∧ u.team.r = s.team.r ∧ u.mem = s.mem := by
  let v := s.clearIdem.mapTeam fun t => t.withQ (smSet {} t.q q { t.qreg q with staged := (t.qreg q).staged.drop l.length })
  have hu : pushGive s q (s.team.qreg q) l = ({ v with progress := s.progress + 1 } : State).mapTeam fun t =>
      t.withQ (smSet {} t.q q { t.qreg q with pushed := (t.qreg q).pushed ++ l }) := by
    unfold pushGive
    dsimp only
    rw [if_neg h1, if_neg hp]
    have h := updQ_own s.clearIdem q fun x => { x with staged := x.staged.drop l.length }
    rw [show s.clearIdem.team.key = s.team.key from rfl] at h
    rw [h]
    exact updQ_own { v with progress := s.progress + 1 } q fun x => { x with pushed := x.pushed ++ l }
  have hv : v.team.qreg q = { s.team.qreg q with staged := (s.team.qreg q).staged.drop l.length } := by
    show (s.team.withQ _).qreg q = _
    rw [Team.qreg_withQ_smSet, if_pos rfl]
    rfl
  dsimp only
  rw [hu]
  refine ⟨?_, rfl, rfl⟩
  show (v.team.withQ _).qreg q = _
  rw [Team.qreg_withQ_smSet, if_pos rfl, hv]

/-- QPUSH.team to the launch port with room for its record. -/
theorem qpushTeam_launch {s : State} {q : BitVec 4} {v : BitVec 7} {n : BitVec 5} {l : Nat} {r : List Nat} (hr : s.ready (.qpushTeam q v n))
    (hs : (s.team.qreg q.toNat).staged = []) (hp : (s.team.qreg q.toNat).port = 4) (hn : n.toNat = 15) (hl : lanesOf s.team.id.width s.team.mSrc = l :: r)
    (hpend : s.team.rSrc.vpend = []) (hmark : s.team.rSrc.vmarks = []) (hg : s.team.pfx.grd = none) (hroom : (s.team.qreg q.toNat).pushed.length < 256) :
    ∃ u, Runs (.qpushTeam q v n) s u .next ∧ u.team.qreg q.toNat = { s.team.qreg q.toNat with
        pushed := (s.team.qreg q.toNat).pushed ++
          [{ words := (List.range 16).map fun j => s.team.getV (v.toNat + j) l, lane := l, stamp := s.nextOp }] } ∧
      u.team.r = s.team.r ∧ u.mem = s.mem := by
  let y : Pushed := { words := (List.range 16).map fun j => s.team.getV (v.toNat + j) l, lane := l, stamp := s.nextOp }
  have hf : pushFault s q (s.team.qreg q.toNat) (n.toNat + 1) true (pushRecords s.team v.toNat (n.toNat + 1) [l]) = none := by
    simp [pushFault, pushShape, hp, hn]
  have hrec : stagedRecords s v.toNat (n.toNat + 1) [l] = [y] := by rw [stagedRecords_eq, hn]; rfl
  let w := s.mapTeam fun t => t.withQ (smSet {} t.q q.toNat { t.qreg q.toNat with staged := [y] })
  have hw : w.team.qreg q.toNat = { s.team.qreg q.toNat with staged := [y] } := by
    show (s.team.withQ _).qreg q.toNat = _
    rw [Team.qreg_withQ_smSet, if_pos rfl]
  have hword : pushWord q v n true [l] s = pushDeliver q.toNat 33 w := by
    rw [pushWord_stages hs (List.cons_ne_nil _ _) (by rw [hp]; decide) hf, hrec]
  let u := pushGive w q.toNat (w.team.qreg q.toNat) [y]
  obtain ⟨hu1, hu2, hu3⟩ := pushGive_engine w q.toNat [y] (by rw [hw, hp]; decide) (by rw [hw, hp]; decide)
  have hdel : pushDeliver q.toNat 33 w = ok u := by
    have h1 : (w.team.qreg q.toNat).staged = [y] := by rw [hw]
    have h2 : pushRoom w (w.team.qreg q.toNat) 1 = true := by
      rw [pushRoom, hw, if_neg (by rw [hp]; decide)]
      exact decide_eq_true hroom
    have h3 : (u.team.qreg q.toNat).staged = [] := by
      rw [show u.team.qreg q.toNat = _ from hu1, h1]; rfl
    rw [pushDeliver]
    simp only [h1, List.takeWhile_cons, decide_true, if_true, List.takeWhile_nil, List.length_singleton, h2]
    rw [if_neg (by rw [hw, hp]; simp), pushDeliver]
    simp only [show (pushGive w q.toNat (w.team.qreg q.toNat) [y]).team.qreg q.toNat = u.team.qreg q.toNat from rfl, h3]
    rfl
  refine ⟨u, runs_of_ok (f := fun s => _) (show execQpushTeam q v n s = _ from rfl) hr ?_, ?_, hu2, hu3⟩
  · dsimp only
    have hsrc : ({ s.team with
        m := s.team.m &&& maskOf [l], group := s.team.group.map fun g => { g with m := g.m &&& maskOf [l] } } : Team).rSrc = s.team.rSrc := by
      unfold Team.rSrc
      dsimp only
      cases s.team.group <;> rfl
    rw [hl]
    have := laneHazard_clear s { s.team with
        m := s.team.m &&& maskOf [l], group := s.team.group.map fun g => { g with m := g.m &&& maskOf [l] } } [(v.toNat, n.toNat + 1, 1)]
      (by rw [hsrc]; exact hpend) (by rw [hsrc]; exact hmark) hg
    rw [show List.take 1 (l :: r) = [l] from rfl, this]
    exact hword.trans hdel
  · have hx : { s.team.qreg q.toNat with staged := [] } = s.team.qreg q.toNat := by rw [← hs]
    refine hu1.trans ?_
    rw [hw]
    exact congrArg (fun x : QReg => { x with pushed := x.pushed ++ [y] }) hx

/-! ### Results written to lanes (R144) -/

theorem Team.vNow_setV (t : Team) (r l r' l' : Nat) (x : W32) (h : l < 1024) (h' : l' < 1024) :
    (t.setV r l x).vNow r' l' = if r' = r ∧ l' = l then x else t.vNow r' l' := by
  rw [Team.vNow, Team.setV_v, smGet_smSet]
  exact if_congr (vKey_inj h' h) rfl rfl

/-- Two teams differ in vector registers and their markers alone. -/
def OnlyV (t u : Team) : Prop := ∃ v m, u = t.withV v m

theorem OnlyV.trans {t u w : Team} (h : OnlyV t u) (h' : OnlyV u w) : OnlyV t w := by
  obtain ⟨_, _, rfl⟩ := h
  obtain ⟨v, m, rfl⟩ := h'
  exact ⟨v, m, rfl⟩

/-- The words of a result go to the registers of a lane. -/
theorem writeWords_spec (t : Team) (v l : Nat) (ws : List W32) (hl : l < 1024) :
    let u := ((List.range ws.length).zip ws).foldl (fun t w => t.setV (v + w.1) l w.2) t
    OnlyV t u ∧ ∀ r k, k < 1024 → u.vNow r k = if k = l ∧ v ≤ r ∧ r < v + ws.length then ws.getD (r - v) 0 else t.vNow r k := by
  induction ws using List.reverseRecOn with
  | nil => exact ⟨⟨_, _, rfl⟩, fun r k _ => by rw [if_neg fun h => by simp at h; omega]; rfl⟩
  | append_singleton ws x ih =>
    obtain ⟨hf, ih⟩ := ih
    have hz : (List.range (ws ++ [x]).length).zip (ws ++ [x]) = (List.range ws.length).zip ws ++ [(ws.length, x)] := by
      rw [List.length_append, List.length_singleton, List.range_succ, List.zip_append (List.length_range), List.zip_cons_cons, List.zip_nil_left]
    dsimp only
    rw [hz, List.foldl_append]
    refine ⟨hf.trans ⟨_, _, rfl⟩, fun r k hk => ?_⟩
    refine (Team.vNow_setV _ (v + ws.length) l r k x hl hk).trans ?_
    rw [ih r k hk, List.length_append, List.length_singleton]
    by_cases h : r = v + ws.length ∧ k = l
    · obtain ⟨rfl, rfl⟩ := h
      rw [if_pos ⟨rfl, rfl⟩, if_pos (by omega), Nat.add_sub_cancel_left, List.getD_append_right _ _ _ _ (Nat.le_refl _)]
      simp
    · rw [if_neg h]
      by_cases h2 : k = l ∧ v ≤ r ∧ r < v + ws.length
      · rw [if_pos h2, if_pos (by omega), List.getD_append _ _ _ _ (by omega)]
      · rw [if_neg h2, if_neg (by omega)]

/-- A result goes to lanes. -/
theorem popWrite_spec (v : Nat) (e : QRes) (ls : List Nat) (t : Team) (hl : ∀ l ∈ ls, l < 1024) :
    OnlyV t (popWrite t v (e, ls)) ∧ ∀ r k, k < 1024 → (popWrite t v (e, ls)).vNow r k =
      if k ∈ ls ∧ v ≤ r ∧ r < v + e.words.length then e.words.getD (r - v) 0 else t.vNow r k := by
  induction ls generalizing t with
  | nil => exact ⟨⟨_, _, rfl⟩, fun r k _ => by rw [if_neg (by simp)]; rfl⟩
  | cons l ls ih =>
    obtain ⟨h1, h2⟩ := writeWords_spec t v l e.words (hl l List.mem_cons_self)
    obtain ⟨h3, h4⟩ := ih (((List.range e.words.length).zip e.words).foldl (fun t w => t.setV (v + w.1) l w.2) t)
      fun k hk => hl k (List.mem_cons_of_mem _ hk)
    refine ⟨h1.trans h3, fun r k hk => (h4 r k hk).trans ?_⟩
    rw [h2 r k hk]
    by_cases hr : v ≤ r ∧ r < v + e.words.length
    · by_cases hk : k ∈ ls
      · rw [if_pos ⟨hk, hr⟩, if_pos ⟨List.mem_cons_of_mem _ hk, hr⟩]
      · rw [if_neg fun h => hk h.1]
        exact if_congr ⟨fun h => ⟨by rw [h.1]; exact List.mem_cons_self, h.2⟩, fun h => ⟨(List.mem_cons.mp h.1).resolve_right hk, h.2⟩⟩ rfl rfl
    · rw [if_neg fun h => hr h.2, if_neg fun h => hr h.2, if_neg fun h => hr h.2]

/-- Each result of a list goes to its own lane. -/
theorem popLanes_spec (v n : Nat) (rs : List QRes) (ls : List Nat) (t : Team) (hn : ls.Nodup) (hl : ∀ l ∈ ls, l < 1024)
    (hw : ∀ e ∈ rs, e.words.length = n) :
    let u := ((rs.zip ls).map fun e => (e.1, [e.2])).foldl (fun t e => popWrite t v e) t
    OnlyV t u ∧ (∀ e ∈ rs.zip ls, ∀ w < n, u.vNow (v + w) e.2 = e.1.words.getD w 0) ∧
      ∀ r l, l < 1024 → (r < v ∨ v + n ≤ r ∨ l ∉ ls) → u.vNow r l = t.vNow r l := by
  induction ls generalizing rs t with
  | nil => cases rs <;> exact ⟨⟨_, _, rfl⟩, by simp, fun _ _ _ _ => rfl⟩
  | cons l ls ih =>
    cases rs with
    | nil => exact ⟨⟨_, _, rfl⟩, by simp, fun _ _ _ _ => rfl⟩
    | cons e rs =>
      obtain ⟨hln, hls⟩ := List.nodup_cons.mp hn
      obtain ⟨h1, h2⟩ := popWrite_spec v e [l] t (by simpa using hl l List.mem_cons_self)
      obtain ⟨h3, h4, h5⟩ := ih rs (popWrite t v (e, [l])) hls (fun k hk => hl k (List.mem_cons_of_mem _ hk)) fun x hx => hw x (List.mem_cons_of_mem _ hx)
      have he := hw e List.mem_cons_self
      refine ⟨h1.trans h3, fun x hx w hlt => ?_, fun r k hk h => ?_⟩
      · rcases List.mem_cons.mp hx with rfl | hx
        · refine (h5 (v + w) l (hl l List.mem_cons_self) (.inr (.inr hln))).trans ?_
          rw [h2 _ l (hl l List.mem_cons_self), if_pos ⟨List.mem_singleton_self l, by omega, by omega⟩, Nat.add_sub_cancel_left]
        · exact h4 x hx w hlt
      · refine (h5 r k hk ?_).trans ?_
        · exact h.imp_right (Or.imp_right fun h hm => h (List.mem_cons_of_mem _ hm))
        · rw [h2 r k hk, if_neg]
          rintro ⟨hm, h6⟩
          rw [List.mem_singleton] at hm
          subst hm
          rcases h with h | h | h
          · omega
          · omega
          · exact h List.mem_cons_self

/-- The mask of a list of lanes. -/
theorem getLsbD_maskOf (ls : List Nat) (l : Nat) (hl : l < 1024) : (maskOf ls).getLsbD l = decide (l ∈ ls) := by
  suffices H : ∀ m : Mask, (ls.foldl (fun m k => m ||| (1#1024 <<< k)) m).getLsbD l = (m.getLsbD l || decide (l ∈ ls)) by
    have := H 0
    rw [show (0 : Mask).getLsbD l = false from BitVec.getLsbD_zero, Bool.false_or] at this
    exact this
  induction ls with
  | nil => intro m; simp
  | cons k ls ih =>
    intro m
    rw [List.foldl_cons, ih, BitVec.getLsbD_or, Bool.or_assoc]
    have hk : (1#1024 <<< k).getLsbD l = decide (l = k) := by
      rw [BitVec.getLsbD_shiftLeft, BitVec.getLsbD_one, decide_eq_true hl, Bool.true_and, decide_eq_true (by decide : 0 < 1024), Bool.true_and,
        ← decide_not, ← Bool.decide_and]
      exact decide_eq_decide.mpr (by omega)
    rw [hk, ← Bool.decide_or]
    exact congrArg _ (decide_eq_decide.mpr List.mem_cons.symm)

/-! ### Pops (R144, R204) -/

/-- A predicate's lane under the mask of a write is what the write gives. -/
theorem Team.pNow_setP (t : Team) (p l : Nat) (m v : Mask) (hp : p ≠ 0) (hl : m.getLsbD l = true) : (t.setP p m v).pNow p l = v.getLsbD l := by
  rw [Team.setP, if_neg hp, Team.pNow, smGet_smSet, if_pos rfl, BitVec.getLsbD_or, BitVec.getLsbD_and, BitVec.getLsbD_and, BitVec.getLsbD_not, hl]
  simp [hp]

/-- A predicate's write leaves vector and scalar registers and queue registers. -/
theorem Team.setP_leaves (t : Team) (p : Nat) (m v : Mask) : (t.setP p m v).r.v = t.r.v ∧ (t.setP p m v).r.s = t.r.s ∧ (t.setP p m v).q = t.q := by
  rw [Team.setP]
  split <;> exact ⟨rfl, rfl, rfl⟩

/-- What a pop that takes `k` results leaves: the others, whatever then happens to the team but to its queue registers. -/
theorem popTake_spec (s : State) (q k : Nat) (h1 : (s.team.qreg q).port ≠ 1) : let u := popTake s q (s.team.qreg q) k
    (∃ m, u.team = s.team.withQ m) ∧ u.mem = s.mem ∧ ∀ f : Team → Team, (∀ t, (f t).q = t.q) →
      popAvail (u.mapTeam f) ((u.mapTeam f).team.qreg q) = (popAvail s (s.team.qreg q)).drop k := by
  unfold popTake
  dsimp only
  by_cases hp : 0x100 ≤ (s.team.qreg q).port
  · rw [if_pos hp]
    refine ⟨⟨s.team.q, rfl⟩, rfl, fun f hf => ?_⟩
    have hq : ∀ v : State, v.team = s.team → (v.mapTeam f).team.qreg q = s.team.qreg q := fun v hv => by
      rw [Team.qreg, show (v.mapTeam f).team = f v.team from rfl, hf, hv]; rfl
    let n := portQueue (s.team.qreg q).port
    let w := { s.rq n with recs := (s.rq n).recs.drop k }
    show popAvail ((s.setRq n w).mapTeam f) (((s.setRq n w).mapTeam f).team.qreg q) = _
    rw [hq (s.setRq n w) rfl, popAvail, popAvail, if_pos hp, if_pos hp, ← List.map_drop]
    refine congrArg _ ?_
    show (smGet {} (smSet {} s.queues n w) n : RecordQueue).recs = _
    rw [smGet_smSet, if_pos rfl]
  · rw [if_neg hp, if_neg h1, updQ_own]
    refine ⟨⟨_, rfl⟩, rfl, fun f hf => ?_⟩
    have hq : ∀ v : State, (v.mapTeam f).team.qreg q = v.team.qreg q := fun v => by
      rw [Team.qreg, show (v.mapTeam f).team = f v.team from rfl, hf]; rfl
    have hx : (s.team.withQ (smSet {} s.team.q q { s.team.qreg q with results := (s.team.qreg q).results.drop k })).qreg q =
        { s.team.qreg q with results := (s.team.qreg q).results.drop k } := by rw [Team.qreg_withQ_smSet, if_pos rfl]
    rw [hq]
    show popAvail _ ((s.team.withQ _).qreg q) = _
    rw [hx, popAvail, popAvail, if_neg hp, if_neg hp]

/-- The team once it has the results of a pop. -/
def Team.popped (t : Team) (v p : Nat) (pairs : List (QRes × List Nat)) : Team :=
  (pairs.foldl (fun t e => popWrite t v e) t).setP p t.mSrc (maskOf (pairs.flatMap Prod.snd))

/-- A pop whose register is not a ray port's, with something to give or nothing to wait for. -/
theorem popWord_gives {s : State} {q : BitVec 4} {v : BitVec 7} {n : BitVec 5} {p : BitVec 3} {wait team : Bool} (h1 : (s.team.qreg q.toNat).port ≠ 1)
    (hc : popCheck s (s.team.qreg q.toNat) (n.toNat + 1) = none)
    (hd : wait = true → popPairs team (lanesOf s.team.id.width s.team.mSrc) (popAvail s (s.team.qreg q.toNat)) = [] →
      0x100 ≤ (s.team.qreg q.toNat).port ∧ (s.rq ((s.team.qreg q.toNat).port - 0x100)).state = .closed) :
    let pairs := popPairs team (lanesOf s.team.id.width s.team.mSrc) (popAvail s (s.team.qreg q.toNat))
    popWord q v n p wait team s = ok ((popTake s q.toNat (s.team.qreg q.toNat) pairs.length).mapTeam fun t => t.popped v.toNat p.toNat pairs) := by
  have hdry : (decide (popPairs team (lanesOf s.team.id.width s.team.mSrc) (popAvail s (s.team.qreg q.toNat)) = []) && wait &&
      !(decide (0x100 ≤ (s.team.qreg q.toNat).port) && decide ((s.rq (portQueue (s.team.qreg q.toNat).port)).state = .closed))) = false := by
    by_cases hw : wait = true
    · by_cases hp : popPairs team (lanesOf s.team.id.width s.team.mSrc) (popAvail s (s.team.qreg q.toNat)) = []
      · obtain ⟨h2, h3⟩ := hd hw hp
        rw [decide_eq_true h2, decide_eq_true (show (s.rq (portQueue (s.team.qreg q.toNat).port)).state = .closed from h3)]
        exact Bool.and_false _
      · rw [decide_eq_false hp, Bool.false_and, Bool.false_and]
    · rw [Bool.eq_false_iff.mpr hw, Bool.and_false, Bool.false_and]
  intro pairs
  unfold popWord
  dsimp only
  rw [hc]
  dsimp only
  rw [if_neg h1, if_neg (by rw [hdry]; exact Bool.false_ne_true), if_neg h1]
  rfl

/-- QPOP with nothing to give waits, unless its queue is sealed. -/
theorem popWord_waits {s : State} {q : BitVec 4} {v : BitVec 7} {n : BitVec 5} {p : BitVec 3} (h1 : (s.team.qreg q.toNat).port ≠ 1)
    (hc : popCheck s (s.team.qreg q.toNat) (n.toNat + 1) = none) (hr : popAvail s (s.team.qreg q.toNat) = [])
    (hd : ¬(0x100 ≤ (s.team.qreg q.toNat).port ∧ (s.rq ((s.team.qreg q.toNat).port - 0x100)).state = .closed)) :
    popWord q v n p true false s = .block s .result := by
  unfold popWord
  dsimp only
  rw [hc]
  dsimp only
  rw [if_neg h1, if_pos]
  rw [hr]
  by_cases h : 0x100 ≤ (s.team.qreg q.toNat).port
  · have : (s.rq (portQueue (s.team.qreg q.toNat).port)).state ≠ .closed := fun e => hd ⟨h, e⟩
    simp [popPairs, this]
  · simp [popPairs, h]

/-- What a pop leaves of the state. -/
theorem popped_leaves (s : State) (q v p : Nat) (pairs : List (QRes × List Nat)) (h1 : (s.team.qreg q).port ≠ 1)
    (hv : ∀ t, OnlyV t (pairs.foldl (fun t e => popWrite t v e) t)) :
    let u := (popTake s q (s.team.qreg q) pairs.length).mapTeam fun t => t.popped v p pairs
    ∃ t : Team, (∃ m, t = s.team.withQ m) ∧ u.team = t.popped v p pairs ∧ u.team.r.v = (pairs.foldl (fun t e => popWrite t v e) t).r.v ∧
      popAvail u (u.team.qreg q) = (popAvail s (s.team.qreg q)).drop pairs.length ∧ u.team.r.s = s.team.r.s ∧ u.mem = s.mem := by
  intro u
  obtain ⟨⟨m, ht⟩, hm, ha⟩ := popTake_spec s q pairs.length h1
  have keep : ∀ t : Team, (t.popped v p pairs).q = t.q ∧ (t.popped v p pairs).r.s = t.r.s := fun t => by
    obtain ⟨x, y, e⟩ := hv t
    obtain ⟨-, h2, h3⟩ := Team.setP_leaves (pairs.foldl (fun t e => popWrite t v e) t) p t.mSrc (maskOf (pairs.flatMap Prod.snd))
    rw [Team.popped, h2, h3, e]
    exact ⟨rfl, rfl⟩
  refine ⟨(popTake s q (s.team.qreg q) pairs.length).team, ⟨m, ht⟩, rfl, (Team.setP_leaves _ _ _ _).1, ha _ fun t => (keep t).1, ?_, hm⟩
  rw [show u.team.r.s = _ from (keep _).2, ht]
  rfl

theorem map_snd_zip_take {α β : Type} (rs : List α) (ls : List β) : (rs.zip ls).map Prod.snd = ls.take rs.length := by
  induction rs generalizing ls with
  | nil => rfl
  | cons r rs ih => cases ls with
    | nil => rfl
    | cons l ls => rw [List.zip_cons_cons, List.map_cons, ih, List.length_cons, List.take_succ_cons]

theorem drop_min_length {α : Type} (l : List α) (n : Nat) : l.drop (min l.length n) = l.drop n := by
  rcases Nat.le_total l.length n with h | h
  · rw [Nat.min_eq_left h, List.drop_length, List.drop_of_length_le h]
  · rw [Nat.min_eq_right h]

/-- A pop in lane form: each result to its own lane. -/
theorem pop_lanes {s : State} {q : BitVec 4} {v : BitVec 7} {n : BitVec 5} {p : BitVec 3} {wait : Bool} (h1 : (s.team.qreg q.toNat).port ≠ 1)
    (hc : popCheck s (s.team.qreg q.toNat) (n.toNat + 1) = none) (hw : ∀ e ∈ popAvail s (s.team.qreg q.toNat), e.words.length = n.toNat + 1) :
    let t := s.team; let x := t.qreg q.toNat; let rs := popAvail s x; let ls := lanesOf t.id.width t.mSrc
    (wait = true → rs = [] ∨ ls = [] → 0x100 ≤ x.port ∧ (s.rq (x.port - 0x100)).state = .closed) →
    ∃ u, popWord q v n p wait false s = ok u ∧ popAvail u (u.team.qreg q.toNat) = rs.drop ls.length ∧
        (∀ e ∈ rs.zip ls, ∀ w < n.toNat + 1, u.team.vNow (v.toNat + w) e.2 = e.1.words.getD w 0) ∧
        (∀ l ∈ ls, p ≠ 0 → u.team.pNow p.toNat l = decide (l ∈ ls.take rs.length)) ∧
        (∀ r l, l < 1024 → (r < v.toNat ∨ v.toNat + n.toNat < r ∨ l ∉ ls) → u.team.vNow r l = t.vNow r l) ∧
        u.team.r.s = t.r.s ∧ u.mem = s.mem := by
  intro t x rs ls hd
  have hls : ∀ l ∈ ls, l < 1024 := fun l => lanesOf_lt
  have hpairs : popPairs false ls rs = (rs.zip ls).map fun e => (e.1, [e.2]) := rfl
  have hlen : (popPairs false ls rs).length = min rs.length ls.length := by rw [hpairs, List.length_map, List.length_zip]
  have hsnd : (popPairs false ls rs).flatMap Prod.snd = ls.take rs.length := by
    rw [hpairs, List.flatMap_map, ← map_snd_zip_take, List.map_eq_flatMap]
  have hspec := fun t => popLanes_spec v.toNat (n.toNat + 1) rs ls t (lanesOf_nodup _ _) hls hw
  obtain ⟨t0, ⟨m, rfl⟩, ht, hv, ha, hs, hm⟩ := popped_leaves s q.toNat v.toNat p.toNat (popPairs false ls rs) h1 fun t => (hspec t).1
  refine ⟨_, popWord_gives (p := p) (wait := wait) h1 hc fun hwt hp => hd hwt ?_, ?_, fun e he w hlt => ?_, fun l hl hp => ?_, fun r l hl h => ?_, hs, hm⟩
  · have h0 : min rs.length ls.length = 0 := by rw [← hlen, show popPairs false ls rs = [] from hp]; rfl
    rcases Nat.min_eq_zero_iff.mp h0 with h | h
    · exact .inl (List.length_eq_zero_iff.mp h)
    · exact .inr (List.length_eq_zero_iff.mp h)
  · rw [ha, hlen, drop_min_length]
  · rw [Team.vNow, hv]; exact (hspec (s.team.withQ m)).2.1 e he w hlt
  · rw [ht, Team.popped, Team.pNow_setP, hsnd, getLsbD_maskOf _ _ (hls l hl)]
    · exact fun h => hp (by bv_omega)
    · exact (mem_lanesOf.mp hl).2
  · rw [Team.vNow, hv]
    exact (hspec (s.team.withQ m)).2.2 r l hl (h.imp_right (Or.imp_left fun h => by omega))

/-- A pop in team form: the oldest result to every lane of M. -/
theorem pop_team {s : State} {q : BitVec 4} {v : BitVec 7} {n : BitVec 5} {p : BitVec 3} {wait : Bool} (h1 : (s.team.qreg q.toNat).port ≠ 1)
    (hc : popCheck s (s.team.qreg q.toNat) (n.toNat + 1) = none) (hw : ∀ e ∈ popAvail s (s.team.qreg q.toNat), e.words.length = n.toNat + 1) :
    let t := s.team; let x := t.qreg q.toNat; let rs := popAvail s x; let ls := lanesOf t.id.width t.mSrc
    (wait = true → rs = [] → 0x100 ≤ x.port ∧ (s.rq (x.port - 0x100)).state = .closed) →
    ∃ u, popWord q v n p wait true s = ok u ∧ popAvail u (u.team.qreg q.toNat) = rs.drop 1 ∧
        (∀ e ∈ rs.take 1, ∀ l ∈ ls, ∀ w < n.toNat + 1, u.team.vNow (v.toNat + w) l = e.words.getD w 0) ∧
        (∀ l ∈ ls, p ≠ 0 → u.team.pNow p.toNat l = decide (rs ≠ [])) ∧ u.team.r.s = t.r.s ∧ u.mem = s.mem := by
  intro t x rs ls hd
  have hls : ∀ l ∈ ls, l < 1024 := fun l => lanesOf_lt
  have hpairs : rs = [] ∧ popPairs true ls rs = [] ∨ ∃ e r, rs = e :: r ∧ popPairs true ls rs = [(e, ls)] := by
    rcases rs with _ | ⟨e, r⟩
    · exact .inl ⟨rfl, rfl⟩
    · exact .inr ⟨e, r, rfl, rfl⟩
  have hspec : ∀ t, OnlyV t ((popPairs true ls rs).foldl (fun t e => popWrite t v.toNat e) t) := fun t => by
    rcases hpairs with ⟨-, h⟩ | ⟨e, r, -, h⟩
    · rw [h]; exact ⟨_, _, rfl⟩
    · rw [h]; exact (popWrite_spec v.toNat e ls t hls).1
  obtain ⟨t0, ⟨m, rfl⟩, ht, hv, ha, hs, hm⟩ := popped_leaves s q.toNat v.toNat p.toNat (popPairs true ls rs) h1 hspec
  refine ⟨_, popWord_gives (p := p) (wait := wait) h1 hc fun hwt hp => hd hwt ?_, ?_, fun e he l hl w hlt => ?_, fun l hl hp => ?_, hs, hm⟩
  · rcases hpairs with ⟨h, -⟩ | ⟨e, r, -, h⟩
    · exact h
    · exact absurd (h.symm.trans hp) (List.cons_ne_nil _ _)
  · rw [ha]
    rcases hpairs with ⟨h, h'⟩ | ⟨e, r, h, h'⟩
    · rw [h', show popAvail s (s.team.qreg q.toNat) = [] from h, h]; rfl
    · rw [h']; rfl
  · rcases hpairs with ⟨h, -⟩ | ⟨e', r, h, h'⟩
    · rw [h] at he; exact absurd he List.not_mem_nil
    · obtain rfl : e = e' := by rw [h] at he; exact List.mem_singleton.mp he
      have hlen : e.words.length = n.toNat + 1 := hw e (by rw [show popAvail s (s.team.qreg q.toNat) = e :: r from h]; exact List.mem_cons_self)
      rw [Team.vNow, hv, h']
      refine ((popWrite_spec v.toNat e ls (s.team.withQ m) hls).2 _ l (hls l hl)).trans ?_
      rw [if_pos ⟨hl, by omega, by omega⟩, Nat.add_sub_cancel_left]
  · rw [ht, Team.popped, Team.pNow_setP, getLsbD_maskOf _ _ (hls l hl)]
    · rcases hpairs with ⟨h, h'⟩ | ⟨e, r, h, h'⟩
      · rw [h', h]; rfl
      · rw [h', h]
        exact decide_eq_decide.mpr (iff_of_true (by simpa using hl) (List.cons_ne_nil _ _))
    · exact fun h => hp (by bv_omega)
    · exact (mem_lanesOf.mp hl).2

/-- Settles O35: QBIND binds after the reservations went back; a push stages its records and delivers them by mask words; a pop writes each result to its
lanes. -/
theorem queueWords : Obligations.QueueWords := by
  unfold Obligations.QueueWords
  refine ⟨fun s q a hr => ?_, fun s q v n => ?_, fun s q v n p => ?_⟩
  · intro t v x
    refine ⟨fun hp hn hb => ⟨_, qbind_runs hr hp hn hb, qbind_leaves s q.toNat v⟩, fun hv hc => ?_, fun hp hv => ?_, fun hp hn hb => ?_⟩
    · refine traps_of_trap (f := _) (show execQbind q a s = _ from rfl) hr ?_
      dsimp only
      rw [if_pos (show (decide (v % 2 ^ 9 = 1) && t.onControl) = true by rw [decide_eq_true hv, hc]; rfl)]
    · refine traps_of_trap (f := _) (show execQbind q a s = _ from rfl) hr ?_
      dsimp only
      rw [if_neg, if_pos (by rw [show portOk (s.team.getS a.toNat).toNat = false from hp]; rfl), ← BitVec.ofNat_toNat]
      intro h
      obtain ⟨h1, h2⟩ := Bool.and_eq_true_iff.mp h
      exact absurd h2 (by rw [hv (of_decide_eq_true h1)]; exact Bool.false_ne_true)
    · refine traps_of_trap (f := _) (show execQbind q a s = _ from rfl) hr ?_
      dsimp only
      rw [if_neg fun h => portOk_ray hp hn (of_decide_eq_true (Bool.and_eq_true_iff.mp h).1),
        if_neg (by rw [show portOk (s.team.getS a.toNat).toNat = true from hp]; exact Bool.false_ne_true), if_pos hb]
  · intro t x k
    refine ⟨fun hr hs hl => ?_, fun hr hs hl hp => ?_, fun hr hs hl hp hn hq ho hroom => ?_, ?_⟩
    · refine runs_of_ok (f := fun s => pushWord q v n false s.team.lanes s) (show execQpush q v n s = _ from rfl) hr ?_
      rw [pushWord]
      dsimp only
      rw [if_neg (not_not_intro hs), if_pos hl]
    · refine traps_of_trap (f := fun s => pushWord q v n false s.team.lanes s) (show execQpush q v n s = _ from rfl) hr ?_
      rw [pushWord]
      dsimp only
      rw [if_neg (not_not_intro hs), if_neg hl, pushFault, if_pos hp]
    · exact qpush_queue hr hs hl hp (by rw [hn]; rfl) hq ho hroom
    · intro l r hr hs hp hn hl hpend hmark hg hroom
      exact qpushTeam_launch hr hs hp (by rw [hn]; rfl) hl hpend hmark hg hroom
  · intro t x rs ls dry h1 hc hw
    refine ⟨fun i hi hr => ?_, fun i hi hr => ?_, fun h0 hd hr => ?_⟩
    · obtain ⟨wait, he, hd⟩ : ∃ wait, exec i s = runWord i s (popWord q v n p wait false) ∧ (wait = true → rs = [] ∨ ls = [] → dry) := by
        rcases hi with ⟨rfl, h⟩ | rfl
        · exact ⟨true, rfl, fun _ => h⟩
        · exact ⟨false, rfl, fun h => absurd h Bool.false_ne_true⟩
      obtain ⟨u, hu, h⟩ := pop_lanes (p := p) h1 hc hw hd
      exact ⟨u, runs_of_ok he hr hu, h⟩
    · obtain ⟨wait, he, hd⟩ : ∃ wait, exec i s = runWord i s (popWord q v n p wait true) ∧ (wait = true → rs = [] → dry) := by
        rcases hi with ⟨rfl, h⟩ | rfl
        · exact ⟨true, rfl, fun _ => h⟩
        · exact ⟨false, rfl, fun h => absurd h Bool.false_ne_true⟩
      obtain ⟨u, hu, h⟩ := pop_team (p := p) h1 hc hw hd
      exact ⟨u, runs_of_ok he hr hu, h⟩
    · exact waits_of_block (f := popWord q v n p true false) (show execQpop q v n p s = _ from rfl) hr (popWord_waits h1 hc h0 hd)

end Sys2Proof.Machine
end

section
/-! Register writes (R40, R163, R199, R207, R439, R463, R478, R479, R512), the host's rings (R479, R480) and grants of leave (R36). -/

open Sys2Proof Sys2Proof.Machine

namespace Sys2Proof.Machine

/-! ### What leaves the functions' registers (R479, R480) -/

/-- Two states agree on the ring registers that the host alone writes. -/
def SameRings (s u : State) : Prop := ∀ f, (u.fn f).sqtail = (s.fn f).sqtail ∧ (u.fn f).cqhead = (s.fn f).cqhead

theorem SameRings.refl (s : State) : SameRings s s := fun _ => ⟨rfl, rfl⟩

theorem SameRings.trans {s u v : State} (h : SameRings s u) (h' : SameRings u v) : SameRings s v := fun f =>
  ⟨(h' f).1.trans (h f).1, (h' f).2.trans (h f).2⟩

theorem sameRings_of_funcs {s u : State} (h : u.funcs = s.funcs) : SameRings s u := fun f => by
  rw [State.fn, h]; exact ⟨rfl, rfl⟩

@[simp] theorem State.fn_setFn (s : State) (f g : Nat) (x : HostFunc) : (s.setFn f x).fn g = if g = f then x else s.fn g :=
  smGet_smSet ({} : HostFunc) s.funcs f x g

theorem sameRings_setFn (s : State) (f : Nat) (x : HostFunc) (h1 : x.sqtail = (s.fn f).sqtail) (h2 : x.cqhead = (s.fn f).cqhead) :
    SameRings s (s.setFn f x) := fun g => by
  rw [State.fn_setFn]
  split
  · rename_i e; subst e; exact ⟨h1, h2⟩
  · exact ⟨rfl, rfl⟩

theorem setHomeBytes_funcs (s : State) (pa : Nat) (bs : List Byte) : (setHomeBytes s pa bs).funcs = s.funcs := by
  obtain ⟨m, p, l, e⟩ := setHomeBytes_frame bs s pa
  rw [e]

theorem transNow_funcs (s : State) (d ctx : Nat) (va : W64) (a : Access) (sup : Bool) : (transNow s d ctx va a sup).1.funcs = s.funcs := by
  have hw : (walkAccess s ctx va.toNat a sup).1.funcs = s.funcs := by
    obtain ⟨⟨_, _, _, _, _, e⟩, -, -⟩ := onlyMemory_walkAccess s ctx va.toNat a sup
    rw [e]
  unfold transNow
  split
  · rename_i e; rw [e] at hw; exact hw
  · rename_i e; rw [e] at hw; exact hw

theorem readObject_funcs (s : State) (d ctx : Nat) (va : W64) (n : Nat) (sup : Bool) : (readObject s d ctx va n sup).1.funcs = s.funcs := by
  have h := transNow_funcs s d ctx va .read sup
  unfold readObject
  split
  · rfl
  · split
    · rename_i e; rw [e] at h; exact h
    · rename_i e; rw [e] at h; exact h

theorem formCrews_funcs (s : State) (n : Nat) (all : Bool) : (formCrews s n all).funcs = s.funcs := by
  obtain ⟨d, p, e⟩ := formCrews_frame s n all
  rw [e]

theorem pendLaunch_funcs (s : State) (d k : Nat) : (pendLaunch s d k).funcs = s.funcs := by
  unfold pendLaunch
  dsimp only
  split <;> rfl

theorem acceptLaunch_funcs (s : State) (d ctx : Nat) (w : List W64) (ring : Option Nat) : (acceptLaunch s d ctx w ring).1.funcs = s.funcs := by
  have held : ∀ (b : Bool) (u : State) k, (if b = true then u else pendLaunch u d k).funcs = u.funcs := fun b u k => by
    cases b
    · exact pendLaunch_funcs u d k
    · rfl
  unfold acceptLaunch
  dsimp only
  refine (held _ _ _).trans ?_
  split
  · rfl
  · exact formCrews_funcs _ _ _

theorem launchFrom_funcs (s : State) (d ctx ceil : Nat) (va : W64) (sup : Bool) (ring : Option Nat) :
    (launchFrom s d ctx ceil va sup ring).1.funcs = s.funcs := by
  have hr := readObject_funcs s d ctx va 8 sup
  unfold launchFrom
  split
  · rfl
  · split
    · rename_i e; rw [e] at hr; exact hr
    · rename_i u w e
      rw [e] at hr
      refine Eq.trans ?_ hr
      unfold submitLaunch
      dsimp only
      split
      · rfl
      · exact acceptLaunch_funcs _ _ _ _ _

theorem wakeHeld_funcs (s : State) (e : Nat) : (wakeHeld s e).funcs = s.funcs := by
  have each : ∀ (u : State) d (x : Nat × LaunchEntry), (if x.2.state == .held && lAfter x.2.words == some e && lAftCount x.2.words ≤ (u.event e).count.toNat
      then pendLaunch u d x.1 else u).funcs = u.funcs := fun u d x => by
    split
    · exact pendLaunch_funcs u d x.1
    · rfl
  unfold wakeHeld
  exact foldl_same State.funcs _ (fun v d => foldl_same State.funcs _ (fun w x => each w d x) (v.die d).launches v) _ s

theorem reachWaiters_funcs (s : State) (e : Nat) : (reachWaiters s e).funcs = s.funcs := rfl

theorem evAdd_funcs (s : State) (e : Nat) (amount : Int) : (evAdd s e amount).1.funcs = s.funcs := by
  unfold evAdd
  dsimp only
  rw [wakeHeld_funcs, reachWaiters_funcs]

theorem sealQueue_funcs (s : State) (n : Nat) : (sealQueue s n).funcs = s.funcs := by
  unfold sealQueue
  split
  · rfl
  · exact formCrews_funcs _ _ _

theorem detachQueue_funcs (s : State) (n : Nat) : (detachQueue s n).funcs = s.funcs := by
  have h : ∀ q : RecordQueue, (if q.attached = 0 then sealQueue (s.setRq n q) n else s.setRq n q).funcs = s.funcs := fun q => by
    split
    · exact sealQueue_funcs _ _
    · rfl
  exact h _

theorem sameRings_hostPut (s : State) (f : Nat) (bs : List Byte) : SameRings s (hostPut s f bs) := by
  unfold hostPut
  dsimp only
  split
  · exact sameRings_setFn s f _ rfl rfl
  · have h : ∀ u : State, u.funcs = s.funcs → SameRings s ((u.setFn f { s.fn f with cqtail := (s.fn f).cqtail + 1 }).emit (.msix f 0)) := fun u hu =>
      have hx : u.fn f = s.fn f := by rw [State.fn, hu]; rfl
      (sameRings_of_funcs hu).trans (sameRings_setFn u f _ (by rw [hx]) (by rw [hx]))
    split
    · exact h _ (setHomeBytes_funcs _ _ _)
    · exact h s rfl

theorem sameRings_hostDrain (s : State) (f : Nat) : SameRings s (hostDrain s f) :=
  foldl_keeps (SameRings s) _ (fun u bs h => h.trans (sameRings_hostPut u f bs)) _ _ (sameRings_setFn s f _ rfl rfl)

theorem sameRings_completeLaunch (s : State) (d k : Nat) : SameRings s (completeLaunch s d k) := by
  let e := s.launchAt d k
  let s1 := s.setLaunch d k { e with state := .free }
  let s2 := match lInq e.words with | none => s1 | some n => s1.setRq n { s1.rq n with fed := 0 }
  let s3 := match lEvent e.words with | none => s2 | some v => (evAdd s2 v 1).1
  let s4 := match lOutq e.words with | some n => if e.attached then detachQueue s3 n else s3 | none => s3
  have h2 : s2.funcs = s1.funcs := by unfold s2; split <;> rfl
  have h3 : s3.funcs = s2.funcs := by
    unfold s3
    split
    · rfl
    · exact evAdd_funcs _ _ _
  have h4 : s4.funcs = s3.funcs := by
    unfold s4
    split
    · split
      · exact detachQueue_funcs _ _
      · rfl
    · rfl
  have h : SameRings s s4 := sameRings_of_funcs (h4.trans (h3.trans h2))
  have he : completeLaunch s d k = match e.ring with | none => s4 | some f => hostPut s4 f (hostEntry 0 1 (handleOf d k e.gen) e.terminated e.cause) := rfl
  rw [he]
  split
  · exact h
  · exact h.trans (sameRings_hostPut _ _ _)

theorem sameRings_settleLaunches (n : Nat) (s : State) : SameRings s (settleLaunches n s) := by
  induction n generalizing s with
  | zero => exact .refl s
  | succ n ih =>
    rw [settleLaunches]
    split
    · exact .refl s
    · exact (sameRings_completeLaunch s _ _).trans (ih _)

theorem sameRings_submitNext (s : State) (f : Nat) : SameRings s (submitNext s f) := by
  have h := sameRings_setFn s f { s.fn f with sqhead := (s.fn f).sqhead + 1 } rfl rfl
  unfold submitNext
  dsimp only
  split
  · exact h.trans (sameRings_hostPut _ _ _)
  · exact (h.trans (sameRings_of_funcs (launchFrom_funcs _ _ _ _ _ _ _))).trans (sameRings_hostPut _ _ _)

theorem sameRings_readRing (f n : Nat) (s : State) : SameRings s (readRing f n s) := by
  induction n generalizing s with
  | zero => exact .refl s
  | succ n ih =>
    rw [readRing]
    split
    · exact .refl s
    · exact (sameRings_submitNext s f).trans (ih _)

theorem sameRings_takeRing (s : State) (f : Nat) : SameRings s (takeRing s f) := by
  unfold takeRing
  split
  · exact .refl s
  · exact (sameRings_readRing f 4096 s).trans (sameRings_settleLaunches _ _)

/-! ### Control block registers (R40, R163, R199, R207, R439, R463) -/

/-- What a register kept within bounds holds for a value written. -/
theorem clamp_fits {lo hi : Nat} (h : lo ≤ hi) (x : Nat) : lo ≤ clamp lo hi x ∧ clamp lo hi x ≤ hi ∧ (lo ≤ x → x ≤ hi → clamp lo hi x = x) ∧
    (x < lo → clamp lo hi x = lo) ∧ (hi < x → clamp lo hi x = hi) := by
  unfold clamp
  by_cases h1 : x < lo
  · rw [if_pos h1]; omega
  · rw [if_neg h1]
    by_cases h2 : hi < x
    · rw [if_pos h2]; omega
    · rw [if_neg h2]; omega

theorem registerWrite_die {s : State} {off : BitVec 32} {v : W64} (h : s.site.n = 0) :
    exec (.registerWrite off v) s = .next (writeDie s s.site.die off.toNat v) := by
  change execRegisterWrite off v s = _
  rw [execRegisterWrite, if_pos h]

/-- The arbiter's register. -/
theorem writeDie_arbiter (s : State) (d : Nat) (v : W64) : let w := v.toNat % 2 ^ 32
    writeDie s d 0x100 v = s.setArb d { s.arb d with pool := clamp 40 825 (w / 2 ^ 21), ramp := max 1 (w / 2 ^ 13 % 256) } := by
  have hp : ((v.setWidth 32).extractLsb' 21 11).toNat = v.toNat % 2 ^ 32 / 2 ^ 21 := by
    rw [BitVec.extractLsb'_toNat, BitVec.toNat_setWidth, Nat.shiftRight_eq_div_pow]; omega
  have hr : ((v.setWidth 32).extractLsb' 13 8).toNat = v.toNat % 2 ^ 32 / 2 ^ 13 % 256 := by
    rw [BitVec.extractLsb'_toNat, BitVec.toNat_setWidth, Nat.shiftRight_eq_div_pow]
  rw [writeDie, if_pos rfl, Arbiter.write, hp, hr]

/-- The shares of the LLC and of HBM are die 0's. -/
theorem writeDie_share (s : State) (d off : Nat) (v : W64) (h : 0x200 ≤ off ∧ off < 0x220) :
    writeDie s d off v = if d = 0 then s.mapRegs 0 fun r => r.writeShare off v else s := by
  rw [writeDie, if_neg (by omega), if_neg (by omega), if_pos (by simp [h])]

theorem writeDie_fabric (s : State) (d off : Nat) (v : W64) (h : 0x400 ≤ off ∧ off < 0x490) :
    writeDie s d off v = s.mapRegs d fun r => { r with fab := r.fab.write off v } := by
  rw [writeDie, if_neg (by omega), if_neg (by omega), if_neg (by simp; omega), if_pos (by simp [h])]

theorem writeDie_ifl (s : State) (d k : Nat) (v : W64) (h : k < 16) :
    writeDie s d (0x500 + k) v = s.setIfl d ((s.die d).regs.ifl.write k v) := by
  rw [writeDie, if_neg (by omega), if_neg (by omega), if_neg (by simp; omega), if_neg (by simp; omega), if_pos (by simp; omega),
    Nat.add_sub_cancel_left]

theorem writeDie_ras (s : State) (d k : Nat) (v : W64) (h : k < 16) :
    writeDie s d (0x520 + k) v = s.setRas d ((s.die d).regs.ras.write k v) := by
  rw [writeDie, if_neg (by omega), if_neg (by omega), if_neg (by simp; omega), if_neg (by simp; omega), if_neg (by simp; omega),
    if_pos (by simp; omega), Nat.add_sub_cancel_left]

/-- A register of a row of a slot table, but the first while VALID is written or the slot is not EMPTY. -/
theorem writeDie_row (s : State) (d k i x : Nat) (v : W64) (hk : slotThere k i = true) (hx : x < 32)
    (h0 : x ≠ 0 ∨ (s.row (coreKey d k) i).state = 0 ∧ v.getLsbD 31 = false) :
    writeDie s d (0x10000 + 0x400 * k + 32 * i + x) v = s.setRow (coreKey d k) i ((s.row (coreKey d k) i).write x v) := by
  obtain ⟨h1, h2⟩ : k < 48 ∧ i < 16 := by
    simp only [slotThere, Bool.and_eq_true, decide_eq_true_eq] at hk
    refine ⟨hk.1, Nat.lt_of_lt_of_le hk.2 ?_⟩
    unfold coreRoom
    split <;> decide
  have hd : (0x10000 + 0x400 * k + 32 * i + x - 0x10000) / 0x400 = k := by omega
  have hm : (0x10000 + 0x400 * k + 32 * i + x - 0x10000) % 0x400 = 32 * i + x := by omega
  have hq : (32 * i + x) / 32 = i := by omega
  have hr : (32 * i + x) % 32 = x := by omega
  rw [writeDie, if_neg (by omega), if_neg (by omega), if_neg (by simp; omega), if_neg (by simp; omega), if_neg (by simp; omega),
    if_neg (by simp; omega), if_pos (by simp; omega), hd, hm, writeSlots, if_neg (by omega), if_neg (by simp [hq, hk]; omega), hq, hr]
  dsimp only
  rcases h0 with h | ⟨h, h'⟩
  · rw [if_neg (by simp [h]), if_neg (by simp [h])]
  · rw [if_neg (by rw [h']; simp), if_neg (by simp [h])]

/-- A field in the low 32 bits of a value written. -/
theorem field_low (v : W64) (k n : Nat) (h : k + n ≤ 32) : (v.extractLsb' k n).toNat = v.toNat % 2 ^ 32 / 2 ^ k % 2 ^ n := by
  rw [BitVec.extractLsb'_toNat, Nat.shiftRight_eq_div_pow, show 32 = k + (32 - k) by omega, Nat.pow_add, Nat.mod_mul_right_div_self,
    Nat.mod_mod_of_dvd _ (Nat.pow_dvd_pow 2 (by omega))]

theorem field_zero (v : W64) (n : Nat) : (v.extractLsb' 0 n).toNat = v.toNat % 2 ^ n := by
  rw [BitVec.extractLsb'_toNat, Nat.shiftRight_zero]

/-! ### A function's registers (R478, R479, R512) -/

theorem registerWrite_recovery {s : State} {off : BitVec 32} {v : W64} (h : s.site.n ≠ 0) (hr : s.board.recovery = true) :
    exec (.registerWrite off v) s = .next s := by
  change execRegisterWrite off v s = _
  rw [execRegisterWrite, if_neg h, if_pos hr]

theorem registerWrite_bar {s : State} {off : BitVec 32} {v : W64} (h : 1 ≤ s.site.n ∧ s.site.n ≤ 17) (hr : s.board.recovery = false) :
    exec (.registerWrite off v) s = .next (writeBar s (s.site.n - 1) off.toNat v) := by
  change execRegisterWrite off v s = _
  rw [execRegisterWrite, if_neg (by omega), if_neg (by rw [hr]; exact Bool.false_ne_true), if_neg (by omega), if_neg (by omega)]

/-! ### The host's rings (R479 to R481) -/

theorem hostSubmit_recovery {s : State} {v : W32} (h : s.board.recovery = true) : exec (.hostSubmit v) s = .next s := by
  change execHostSubmit v s = _
  rw [execHostSubmit]
  dsimp only
  rw [if_pos h]

theorem cqheadWrite_recovery {s : State} {v : W32} (h : s.board.recovery = true) : exec (.cqheadWrite v) s = .next s := by
  change execCqheadWrite v s = _
  rw [execCqheadWrite]
  dsimp only
  rw [if_pos h]

theorem hostSubmit_eq {s : State} {v : W32} (h : s.board.recovery = false) :
    exec (.hostSubmit v) s = .next (takeRing (s.setFn s.site.n { s.fn s.site.n with sqtail := v }) s.site.n) := by
  change execHostSubmit v s = _
  rw [execHostSubmit]
  dsimp only
  rw [if_neg (by rw [h]; exact Bool.false_ne_true)]

theorem cqheadWrite_eq {s : State} {v : W32} (h : s.board.recovery = false) :
    exec (.cqheadWrite v) s = .next (takeRing (hostDrain (s.setFn s.site.n { s.fn s.site.n with cqhead := v }) s.site.n) s.site.n) := by
  change execCqheadWrite v s = _
  rw [execCqheadWrite]
  dsimp only
  rw [if_neg (by rw [h]; exact Bool.false_ne_true)]

/-! ### Grants of leave (R36) -/

theorem mem_of_bestReq {l : List LeaveReq} {r : LeaveReq} (h : bestReq l = some r) : r ∈ l := by
  induction l with
  | nil => exact (Option.some_ne_none _ h.symm).elim
  | cons x l ih =>
    rw [bestReq] at h
    cases hb : bestReq l with
    | none =>
      rw [hb] at h
      exact Option.some.inj h ▸ List.mem_cons_self
    | some b =>
      rw [hb] at h
      dsimp only at h
      split at h
      · exact Option.some.inj h ▸ List.mem_cons_of_mem _ (Option.some.inj h ▸ ih (h ▸ hb))
      · exact Option.some.inj h ▸ List.mem_cons_self

/-- A request granted fits the pool. -/
theorem nextGrant_fits {a : Arbiter} {now : Nat} {r : LeaveReq} (h : nextGrant a now = some r) : a.inuse + r.amps ≤ a.pool := by
  have fits : leaveFits a now r = true → a.inuse + r.amps ≤ a.pool := fun h => by
    rw [leaveFits] at h
    exact of_decide_eq_true (Bool.and_eq_true_iff.mp h).1
  unfold nextGrant at h
  split at h
  · split at h
    · rename_i hf; exact fits (Option.some.inj h ▸ hf)
    · exact (Option.some_ne_none _ h.symm).elim
  · exact fits (List.mem_filter.mp (mem_of_bestReq h)).2

theorem dropLeave_mem (s : State) (d amps : Nat) (who : LeaveWho) (l : Leave) : (dropLeave s d amps who l).mem = s.mem :=
  (dropLeave_readsAlike s d amps who l).2.2.1

theorem stopArray_mem (s : State) (ck : Nat) : (stopArray s ck).mem = s.mem := by
  unfold stopArray
  split
  · rfl
  · dsimp only
    split
    · rfl
    · exact dropLeave_mem _ _ _ _ _

theorem arrayGranted_mem (s : State) (c id : Nat) : (arrayGranted s c id).mem = s.mem := by
  let x := (((s.crew c).mat.ops.find? fun o => o.id = id).map (opSpot s c)).getD (0, 0)
  show (if (s.core (coreKey x.1 x.2)).array = some (c, id) then s else stopArray s (coreKey x.1 x.2)).mem = s.mem
  split
  · rfl
  · exact stopArray_mem _ _

theorem giveLeave_mem (s : State) (d : Nat) (who : LeaveWho) : (giveLeave s d who).mem = s.mem := by
  cases who with
  | word k => exact State.updTeam_mem s k _
  | op id => rfl
  | array c id => exact arrayGranted_mem s c id
  | rays c id => rfl
  | burst k => rfl

/-- A grant to another than an operation of an array leaves the arbiter as the grant made it. -/
theorem giveLeave_arb (s : State) (d : Nat) (who : LeaveWho) (h : ∀ c i, who ≠ .array c i) : (giveLeave s d who).arb d = s.arb d := by
  cases who with
  | word k =>
    show ((s.updTeam k _).die d).arb = _
    rw [State.die, State.updTeam_dies]; rfl
  | op id => rfl
  | array c id => exact absurd rfl (h c id)
  | rays c id => rfl
  | burst k =>
    show ((s.setDie d _).die d).arb = _
    rw [State.die_setDie, if_pos rfl]; rfl

/-- The word that a grant names has its leave. -/
theorem giveLeave_word (s : State) (d k : Nat) : ((giveLeave s d (.word k)).teamAt k).eng.leave = .held := by
  rw [giveLeave, State.teamAt_updTeam _ _ _ _ (by intro t; rfl), if_pos rfl]

/-- The batch that a grant names has its leave. -/
theorem giveLeave_rays (s : State) (d c i : Nat) : ∀ b ∈ ((giveLeave s d (.rays c i)).crew c).batches, b.id = i → b.leave = .held := by
  intro b hb hi
  have hb' : b ∈ (s.crew c).batches.map fun b => if b.id = i then { b with leave := .held } else b := by
    rw [giveLeave, State.crew_setCrew, if_pos rfl] at hb
    exact hb
  obtain ⟨x, -, rfl⟩ := List.mem_map.mp hb'
  by_cases h : x.id = i
  · rw [if_pos h]
  · rw [if_neg h] at hi; exact absurd hi h

/-- LEAVE_GRANT with a request that may be granted. -/
theorem leaveGrant_eq {s : State} {r : LeaveReq} (h : nextGrant (s.arbNow s.site.die) (s.now s.site.die) = some r) :
    exec .leaveGrant s = .next { giveLeave (s.setArb s.site.die (grantReq (s.arbNow s.site.die) (s.now s.site.die) r)) s.site.die r.who with
      progress := s.progress + 1 } := by
  change execLeaveGrant s = _
  rw [execLeaveGrant]
  dsimp only
  rw [h]

/-- Settles O55: a write reaches the register that its offset names; what a function's rings take leaves what the host wrote; a grant changes the
requester and the amperes counted. -/
theorem registersAndTheHost : Obligations.RegistersAndTheHost := by
  unfold Obligations.RegistersAndTheHost
  intro s d f regs fits
  refine ⟨?_, ?_, ?_, ?_, rfl, ?_⟩
  · intro off v hn o w at'
    have he : exec (.registerWrite off v) s = .next (writeDie s d o v) := registerWrite_die hn
    have hw : ∀ n ≤ 32, w % 2 ^ n = v.toNat % 2 ^ n := fun n h => Nat.mod_mod_of_dvd _ (Nat.pow_dvd_pow 2 h)
    have put : ∀ {u : State}, writeDie s d o v = u → exec (.registerWrite off v) s = .next u := fun h => he.trans (congrArg _ h)
    have hzero : d = 0 → regs = (s.die 0).regs := fun h => by show (s.die d).regs = _; rw [h]
    refine ⟨fun ho => ?_, fun ho => put ?_, fun c hc => ⟨fun hd ho => put ?_, fun hd ho => put ?_, fun hd ho => put ?_⟩, fun ho => ?_, fun ho => put ?_,
      fun ho => put ?_, fun j hj ho => put ?_, ?_, ?_⟩
    · refine ⟨clamp 40 825 (w / 2 ^ 21), max 1 (w / 2 ^ 13 % 256), put ?_, clamp_fits (by decide) _, by omega⟩
      rw [ho, writeDie_arbiter]
    · rw [ho]; rfl
    · rw [writeDie_share s d o v (by omega), if_neg hd]
    · rw [writeDie_share s d o v (by omega), if_pos hd, ho, State.mapRegs, DieRegs.writeShare, if_pos (by omega),
        show (0x200 + 8 * c - 0x200) / 8 = c by omega, show w % 32 = v.toNat % 32 from hw 5 (by decide), hzero hd]
    · rw [writeDie_share s d o v (by omega), if_pos hd, ho, State.mapRegs, DieRegs.writeShare, if_neg (by omega), if_pos (by omega),
        show (0x204 + 8 * c - 0x200) / 8 = c by omega, show w % 128 = v.toNat % 128 from hw 7 (by decide), hzero hd]
    · refine ⟨clamp 256 65536 (w % 2 ^ 17), clamp_fits (by decide) _, put ?_⟩
      rw [ho, writeDie_fabric s d _ v (by decide), hw 17 (by decide)]; rfl
    · rw [ho, writeDie_fabric s d _ v (by decide)]; rfl
    · rw [ho, writeDie_fabric s d _ v (by decide), hw 17 (by decide)]; rfl
    · have hin : (decide (0x410 ≤ o) && decide (o < 0x490) && decide (o % 8 = 0)) = true := by
        rw [Bool.and_eq_true, Bool.and_eq_true, decide_eq_true_eq, decide_eq_true_eq, decide_eq_true_eq]; omega
      rw [writeDie_fabric s d o v (by omega), State.mapRegs, FabRegs.write, if_neg (by omega), if_neg (by omega), if_neg (by omega),
        if_pos hin, show (o - 0x410) / 8 = j by omega]
    · intro b hb r ring
      have hring : ∀ k < 16, o = b + k → ring (r.write k v) := fun k hk ho => by
        rcases List.mem_cons.mp hb with rfl | hb
        · exact put (by rw [ho, writeDie_ifl s d k v hk]; rfl)
        · obtain rfl := List.mem_singleton.mp hb
          exact put (by rw [ho, writeDie_ras s d k v hk]; rfl)
      refine ⟨fun ho => hring 0 (by decide) ho, fun ho => hring 0xC (by decide) ho, fun ho => ?_⟩
      have e : r.write 8 v = { r with log := if 6 ≤ w % 32 ∧ w % 32 ≤ 20 then BitVec.ofNat 32 (w % 32) else 6 } := by
        rw [RingRegs.write, if_neg (by decide), if_pos rfl, show w % 32 = v.toNat % 32 from hw 5 (by decide)]
        have hc : (decide (6 ≤ v.toNat % 32) && decide (v.toNat % 32 ≤ 20)) = true ↔ 6 ≤ v.toNat % 32 ∧ v.toNat % 32 ≤ 20 := by
          rw [Bool.and_eq_true, decide_eq_true_eq, decide_eq_true_eq]
        exact congrArg (fun l => { r with log := l }) (if_congr hc rfl rfl)
      exact e ▸ hring 8 (by decide) ho
    · intro k i hk ck r b row
      have hrow : ∀ x < 32, o = b + x → (x ≠ 0 ∨ r.state = 0 ∧ v.getLsbD 31 = false) → row (r.write x v) := fun x hx ho h0 =>
        put (by rw [ho]; exact writeDie_row s d k i x v hk hx h0)
      refine ⟨fun ho hs hv => ?_, fun ho => ?_, fun ho => ?_, fun ho => ?_, fun ho => ?_, fun ho => ?_⟩
      · have := hrow 0 (by decide) ho (.inr ⟨hs, hv⟩)
        rw [SlotRow.write, if_pos rfl, hv] at this
        exact this
      · exact hrow 4 (by decide) ho (.inl (by decide))
      · exact hrow 8 (by decide) ho (.inl (by decide))
      · exact hrow 0x18 (by decide) ho (.inl (by decide))
      · have e : r.write 0xC v = { r with rfbase := w / 2 ^ 16 % 2 ^ 9, rflen := w % 2 ^ 10 } := by
          rw [hw 10 (by decide), ← field_low v 16 9 (by decide)]
          exact congrArg (fun n => { r with rfbase := (v.extractLsb' 16 9).toNat, rflen := n }) (field_zero v 10)
        exact e ▸ hrow 0xC (by decide) ho (.inl (by decide))
      · have e : r.write 0x10 v = { r with spbase := w / 2 ^ 16 % 2 ^ 11, splen := w % 2 ^ 12 } := by
          rw [hw 12 (by decide), ← field_low v 16 11 (by decide)]
          exact congrArg (fun n => { r with spbase := (v.extractLsb' 16 11).toNat, splen := n }) (field_zero v 12)
        exact e ▸ hrow 0x10 (by decide) ho (.inl (by decide))
  · intro off v h1 h2 o x lg put
    refine ⟨registerWrite_recovery (by omega), fun hr => ?_⟩
    have he : exec (.registerWrite off v) s = .next (writeBar s f o v) := registerWrite_bar ⟨h1, h2⟩ hr
    have put' : ∀ {u : State}, writeBar s f o v = u → exec (.registerWrite off v) s = .next u := fun h => he.trans (congrArg _ h)
    refine ⟨fun ho => put' ?_, fun ho => put' ?_, fun ho => put' ?_, fun g hg hf ho => put' ?_⟩
    · rw [ho, writeBar, if_pos rfl]
    · rw [ho]; rfl
    · rw [ho, writeBar, if_neg (by decide), if_pos rfl]
      dsimp only
      rw [if_congr (show (decide (4 ≤ (v.extractLsb' 4 4).toNat) && decide ((v.extractLsb' 4 4).toNat ≤ 12)) = true ↔ 4 ≤ lg ∧ lg ≤ 12 by
        simp only [Bool.and_eq_true, decide_eq_true_eq, lg]) rfl rfl]
    · rw [ho, writeBar, if_neg (by omega), if_neg (by omega), if_neg (by omega), if_pos (by simp [hf]; omega),
        show (0x1000 + 8 * g - 0x1000) / 8 = g by omega]
  · intro v g hn hg hr
    change execRegisterWrite 0 v s = _
    rw [execRegisterWrite, if_neg (by omega), if_neg (by rw [hr]; exact Bool.false_ne_true), if_pos (by omega), if_pos (by omega), writeDevCtl2,
      show s.site.n - 32 = g by omega]
  · intro v
    refine ⟨fun hr => ⟨hostSubmit_recovery hr, cqheadWrite_recovery hr⟩, fun hr => ⟨⟨_, hostSubmit_eq hr, ?_⟩, fun hp => ?_, ⟨_, cqheadWrite_eq hr, ?_⟩⟩⟩
    · rw [(sameRings_takeRing _ _ _).1, State.fn_setFn, if_pos rfl]
    · rw [hostSubmit_eq hr, takeRing, if_pos (by simp [State.setFn, hp])]
    · rw [(((sameRings_hostDrain _ _).trans (sameRings_takeRing _ _)) _).2, State.fn_setFn, if_pos rfl]
  · intro r hr
    refine ⟨_, leaveGrant_eq hr, (nextGrant_fits hr : (s.arbNow d).inuse + r.amps ≤ (s.arbNow d).pool), giveLeave_mem _ _ _, fun h => ?_, fun k hk => ?_, fun c i hw => ?_⟩
    · show ((giveLeave _ d r.who).arb d).inuse = _
      rw [giveLeave_arb _ d _ h, State.arb, State.setArb, State.die_setDie, if_pos rfl]
      rfl
    · rw [hk]; exact giveLeave_word _ _ k
    · rw [hw]; exact giveLeave_rays (s.setArb d (grantReq (s.arbNow d) (s.now d) r)) d c i

end Sys2Proof.Machine
end

section
/-! Spare cores, channels, lanes and ways (R41 to R44, R476), and soft errors (R45, R46, R485). -/

open Sys2Proof Sys2Proof.Machine

namespace Sys2Proof.Machine

/-! ### Reports while the RAS rings are off -/

/-- No die's RAS ring has an address. -/
def RasOff (s : State) : Prop := ∀ d, (s.die d).regs.ras.base = 0

theorem RasOff.of_dies {s u : State} (h : RasOff s) (hd : u.dies = s.dies) : RasOff u := fun d => by
  have := h d
  rwa [State.die, ← hd] at this

theorem rasLog_off {s : State} (h : RasOff s) (d kind unit addr func : Nat) : rasLog s d kind unit addr func = s := by
  unfold rasLog ringPut
  dsimp only
  rw [h d]
  rfl

/-- What a report of a correction sends. -/
theorem reportFixed_off {s : State} (h : RasOff s) (d kind unit addr : Nat) :
    reportFixed s d kind unit addr = { s with out := s.out ++ [.aer 0, .msix 0 1] } := by
  rw [reportFixed, rasLog_off h, State.emit, State.emit]
  dsimp only
  rw [List.append_assoc]
  rfl

/-- The same once the sparing has changed. -/
theorem reportFixed_sparing {s : State} (h : RasOff s) (x : Sparing) (d kind unit addr : Nat) :
    reportFixed { s with sparing := x } d kind unit addr = { s with sparing := x, out := s.out ++ [.aer 0, .msix 0 1] } :=
  reportFixed_off (s := { s with sparing := x }) (h.of_dies rfl) d kind unit addr

theorem reportConfined_off {s : State} (h : RasOff s) (d unit addr func : Nat) :
    reportConfined s d unit addr func = { s with out := s.out ++ [.msix func 1] } := by
  rw [reportConfined, rasLog_off h, State.emit]

/-! ### Spare cores (R41) -/

/-- The core map once a core has another position. -/
def Die.moved (v : Die) (k : Nat) (p : Option Nat) : Die := { v with coreMap := v.coreMap.filter (fun e => e.1 ≠ k) ++ [(k, p)] }

theorem corePosition_moved (v : Die) (k j : Nat) (p : Option Nat) : corePosition (v.moved k p) j = if j = k then p else corePosition v j := by
  unfold corePosition Die.moved
  dsimp only
  rw [List.find?_append, List.find?_filter]
  by_cases h : j = k
  · subst h
    rw [if_pos rfl]
    have : v.coreMap.find? (fun a => decide (decide (a.1 ≠ j) = true ∧ decide (a.1 = j) = true)) = none := by
      rw [List.find?_eq_none]
      intro x _
      simp
    rw [this]
    simp
  · rw [if_neg h]
    have e : (fun a : Nat × Option Nat => decide (decide (a.1 ≠ k) = true ∧ decide (a.1 = j) = true)) = fun a => decide (a.1 = j) := by
      funext a
      by_cases ha : a.1 = j
      · simp [ha, h]
      · simp [ha]
    rw [e]
    have : [(k, p)].find? (fun e => decide (e.1 = j)) = none := by simp [Ne.symm h]
    rw [this, Option.or_none]

/-- CORE_RETIRE of a core of the die that no crew holds. -/
theorem coreRetire_eq {s : State} {p : Nat} (hr : RasOff s) (hk : s.site.core < 40)
    (hs : ∀ e ∈ (s.core (coreKey s.site.die s.site.core)).slots, e.2.state = 0) (hp : corePosition (s.die s.site.die) s.site.core = some p) :
    let d := s.site.die; let k := s.site.core; let v := { s.die d with retired := (s.die d).retired ++ [p] }
    ∃ o, exec .coreRetire s = .next { (s.setDie d (v.moved k (sparePosition v))).setCore (coreKey d k)
      { slots := (s.core (coreKey d k)).slots } with out := o } := by
  intro d k v
  have hheld : (s.core (coreKey d k)).slots.filter (fun e => e.2.state ≠ 0) = [] := by
    rw [List.filter_eq_nil_iff]
    intro e he
    simp [hs e he]
  let u := (s.setDie d (v.moved k (sparePosition v))).setCore (coreKey d k) { slots := (s.core (coreKey d k)).slots }
  have hu : RasOff u := fun j => by
    show ((s.setDie d _).die j).regs.ras.base = 0
    rw [State.die_setDie]
    split
    · exact hr d
    · exact hr j
  refine ⟨s.out ++ [.aer 0, .msix 0 1], ?_⟩
  change execCoreRetire s = _
  unfold execCoreRetire
  dsimp only
  rw [if_neg (by omega), if_neg (not_not_intro hheld), hp]
  exact congrArg Host.Outcome.next (reportFixed_off hu d 1 k p)

/-! ### Channels, lanes, ports and ways (R42 to R44, R476) -/

theorem mem_without (x : Sparing) (q p : Nat) : p ∈ (x.without q).ports ↔ p = q ∨ p ∈ x.ports := by
  unfold Sparing.without
  dsimp only
  by_cases h : x.ports.contains q = true
  · rw [if_pos h]
    exact ⟨.inr, fun hp => hp.elim (fun e => e ▸ List.contains_iff_mem.mp h) id⟩
  · rw [if_neg h, List.mem_append, List.mem_singleton]
    exact Or.comm

theorem channelRetire_eq {s : State} (hr : RasOff s) (hq : s.site.q < 12) (hn : s.site.n < 32)
    (hs : ∀ e ∈ s.sparing.channels, e.1 ≠ s.site.q) : exec .channelRetire s = .next { s with
      sparing := { s.sparing with channels := s.sparing.channels ++ [(s.site.q, s.site.n, false)] }, out := s.out ++ [.aer 0, .msix 0 1] } := by
  have hfree : s.sparing.channels.any (fun e => e.1 = s.site.q) = false := by
    rw [List.any_eq_false]
    exact fun e he => by simpa using hs e he
  change execChannelRetire s = _
  unfold execChannelRetire
  dsimp only
  rw [if_neg (by rw [hfree]; simp [hq, hn])]
  rw [reportFixed_sparing hr]

theorem laneRetire_eq {s : State} (hr : RasOff s) (hq : s.site.q < 12) : let x := s.sparing.without s.site.q
    exec .laneRetire s = .next { s with
      sparing := { x with lanes := smSet 0 x.lanes s.site.q (smGet 0 x.lanes s.site.q + 1) }, out := s.out ++ [.aer 0, .msix 0 1] } := by
  change execLaneRetire s = _
  unfold execLaneRetire
  dsimp only
  rw [if_neg (by omega)]
  rw [reportFixed_sparing hr]

theorem fabricPortFailure_eq {s : State} (hq : s.site.q < 12) :
    exec .fabricPortFailure s = .next { s with sparing := s.sparing.without s.site.q, progress := s.progress + 1 } := by
  change execFabricPortFailure s = _
  rw [execFabricPortFailure, if_neg (by omega)]

theorem fabricPortReturn_eq {s : State} (hq : s.site.q ∈ s.sparing.ports) : exec .fabricPortReturn s = .next { s with
    sparing := { s.sparing with ports := s.sparing.ports.filter fun p => p ≠ s.site.q }, unreach := [], progress := s.progress + 1 } := by
  change execFabricPortReturn s = _
  unfold execFabricPortReturn
  dsimp only
  rw [if_pos (List.contains_iff_mem.mpr hq)]

theorem wayRetire_eq {s : State} (hr : RasOff s) : exec .wayRetire s = .next { s with
    sparing := { s.sparing with ways := smSet 0 s.sparing.ways s.site.n (smGet 0 s.sparing.ways s.site.n + 1) }, out := s.out ++ [.aer 0, .msix 0 1] } := by
  change execWayRetire s = _
  unfold execWayRetire
  dsimp only
  rw [reportFixed_sparing hr]

/-! ### Soft errors (R45, R46) -/

/-- The marked bytes of a line's or a word's keys. -/
theorem smGet_marked (m : SMap Bool) (b n j : Nat) (hn : 0 < n) :
    smGet false ((List.range n).foldl (fun m k => smSet false m (b * n + k) true) m) j = (decide (j / n = b) || smGet false m j) := by
  rw [smGet_foldl_const false true (fun k => b * n + k)]
  have e : j ∈ (List.range n).map (fun k => b * n + k) ↔ j / n = b := by
    rw [List.mem_map]
    constructor
    · rintro ⟨k, hk, rfl⟩
      rw [List.mem_range] at hk
      rw [Nat.mul_comm, Nat.mul_add_div hn, Nat.div_eq_of_lt hk, Nat.add_zero]
    · rintro rfl
      exact ⟨j % n, List.mem_range.mpr (Nat.mod_lt j hn), Nat.div_add_mod' j n⟩
  by_cases h : j / n = b
  · rw [if_pos (e.mpr h), decide_eq_true h, Bool.true_or]
  · rw [if_neg fun h' => h (e.mp h'), decide_eq_false h, Bool.false_or]

/-- A line whose home is uncorrectable reads as poisoned, and no other line changes. -/
theorem isPoison_poisonLine (s : State) (pa x : Nat) : isPoison (poisonLine s pa) x = (decide (x / 128 = pa / 128) || isPoison s x) := by
  have hget : ∀ y, smGet false (poisonLine s pa).poison y = (decide (y / 128 = pa / 128) || smGet false s.poison y) :=
    fun y => by
      unfold poisonLine
      dsimp only
      rw [smGet_marked _ _ _ _ (by decide)]
  rw [Bool.eq_iff_iff, Bool.or_eq_true, isPoison_iff, isPoison_iff, decide_eq_true_eq]
  constructor
  · rintro ⟨y, hy, h⟩
    rw [hget, Bool.or_eq_true, decide_eq_true_eq] at h
    exact h.imp (fun h => hy ▸ h) fun h => ⟨y, hy, h⟩
  · rintro (h | ⟨y, hy, h⟩)
    · exact ⟨x, rfl, by rw [hget, decide_eq_true h, Bool.true_or]⟩
    · exact ⟨y, hy, by rw [hget, h, Bool.or_true]⟩

/-- The marker that a soft error leaves in a lane. -/
theorem markV_one (t : Team) (r l : Nat) (m : Mark) : t.markV r l m 1 = { t with r := { t.r with vmarks := smSet none t.r.vmarks (vKey r l) (some m) } } := rfl

theorem softError_vreg {s : State} {c n r l : Nat} (hr : RasOff s) (hk : (s.teamAt (teamKey c n)).key = teamKey c n) :
    let u := s.updTeam (teamKey c n) fun t => t.markV r l .lane 1
    exec (.softError (.vreg c n r l)) s = .next { u with out := u.out ++ [.msix (funcOf s c) 1] } := by
  change execSoftError (.vreg c n r l) s = _
  unfold execSoftError
  dsimp only
  rw [if_neg (not_not_intro hk), reportConfined_off (hr.of_dies (State.updTeam_dies _ _ _))]

/-- A crew once the scratchpad word that holds the byte at `off` is uncorrectable. -/
def Crew.spoilWord (x : Crew) (off : Nat) : Crew :=
  { x with spoison := smSetAll false x.spoison ((List.range 4).map fun k => (off / 4 * 4 + k, true)) }

theorem smGet_spoilWord (x : Crew) (off j : Nat) :
    smGet false (x.spoilWord off).spoison j = (decide (j / 4 = off / 4) || smGet false x.spoison j) := by
  rw [Crew.spoilWord, smSetAll, List.foldl_map, smGet_marked _ _ _ _ (by decide)]

theorem softError_scratch {s : State} {c off : Nat} (hr : RasOff s) (hs : (s.crew c).state ≠ .none) :
    exec (.softError (.scratch c off)) s =
      .next { s.setCrew c ((s.crew c).spoilWord off) with out := s.out ++ [.msix (funcOf s c) 1] } := by
  have hu : RasOff (s.setCrew c ((s.crew c).spoilWord off)) := hr.of_dies rfl
  change execSoftError (.scratch c off) s = _
  unfold execSoftError
  dsimp only
  rw [if_neg hs]
  exact congrArg Host.Outcome.next (reportConfined_off hu _ 3 off _)

theorem softError_homeLine (s : State) (pa : Nat) :
    exec (.softError (.homeLine pa)) s = .next (reportConfined (poisonLine s pa) (homeDie s pa) 4 pa 0) := rfl

theorem softError_cacheLine (s : State) (place : CachePlace) (pa : Nat) :
    exec (.softError (.cacheLine place pa)) s = .next (reportConfined (spoilCopy s place (pa / 128)) (placeDie place) 5 pa 0) := rfl

theorem softError_unconfined (s : State) (d u : Nat) : exec (.softError (.unconfined d u)) s = .next ((rasLog s d 6 u 0 0).emit (.aer 2)) := rfl

/-- A line marked at its home leaves crews, cores and dies. -/
theorem poisonLine_keeps (s : State) (pa : Nat) :
    (poisonLine s pa).crews = s.crews ∧ (poisonLine s pa).cores = s.cores ∧ (poisonLine s pa).dies = s.dies := by
  unfold poisonLine
  exact ⟨rfl, rfl, rfl⟩

/-- A spoiled copy leaves memory, the marks at the home and crews. -/
theorem spoilCopy_keeps (s : State) (place : CachePlace) (line : Nat) :
    (spoilCopy s place line).mem = s.mem ∧ (spoilCopy s place line).poison = s.poison ∧ (spoilCopy s place line).crews = s.crews := by
  cases place <;> exact ⟨rfl, rfl, rfl⟩

theorem spoilCopy_l1 (s : State) (ck line j : Nat) : (spoilCopy s (.l1 ck) line).core j =
    if j = ck then { s.core ck with l1 := smSet {} (s.core ck).l1 line (smGet {} (s.core ck).l1 line).spoil } else s.core j := State.core_setCore ..

theorem spoilCopy_writeBuffer (s : State) (ck line j : Nat) : (spoilCopy s (.writeBuffer ck) line).core j =
    if j = ck then { s.core ck with wb := (s.core ck).wb.map fun e => if e.1 = line then (e.1, e.2.spoil) else e } else s.core j := State.core_setCore ..

theorem spoilCopy_l2 (s : State) (d line j : Nat) : (spoilCopy s (.l2 d) line).die j =
    if j = d then { s.die d with l2 := smSet {} (s.die d).l2 line (smGet {} (s.die d).l2 line).spoil } else s.die j := State.die_setDie ..

/-- The lines of a cache once one of them is spoiled. -/
theorem smGet_spoiled (m : SMap LineCopy) (line l : Nat) : smGet {} (smSet {} m line (smGet {} m line).spoil) l =
    if l = line then (smGet {} m l).spoil else smGet {} m l := by
  rw [smGet_smSet]
  by_cases h : l = line
  · rw [if_pos h, if_pos h, h]
  · rw [if_neg h, if_neg h]

/-- A crew that runs and whose state is lost: MCE.CREW is its cause unless it has one, its other teams end, and memory stays. -/
theorem loseCrew_run {s : State} {c : Nat} (hr : RasOff s) (hs : (s.crew c).state = .run) : let u := loseCrew s c
    (u.crew c).cause = some ((s.crew c).cause.getD causeMce) ∧ (∀ x ∈ u.others, x.2.id.crew = c → x.2.id.alive = false) ∧ u.mem = s.mem := by
  have he : loseCrew s c = reportConfined (s.killCrew c causeMce) (s.crew c).die 1 c (funcOf s c) := by
    rw [loseCrew, hs]
  have ho : loseCrew s c = { s.killCrew c causeMce with out := (s.killCrew c causeMce).out ++ [.msix (funcOf s c) 1] } := by
    rw [he]
    exact reportConfined_off (s := s.killCrew c causeMce) (hr.of_dies rfl) _ 1 c (funcOf s c)
  dsimp only
  rw [ho]
  refine ⟨?_, fun x hx hc => ?_, rfl⟩
  · show ((s.setCrew c _).crew c).cause = _
    rw [State.crew_setCrew, if_pos rfl]
  · obtain ⟨y, -, rfl⟩ := List.mem_map.mp hx
    dsimp only at hc ⊢
    by_cases h : y.2.id.crew = c
    · rw [if_pos h]
    · rw [if_neg h] at hc; exact absurd hc h

/-- Settles O56: with the RAS rings off a report only sends its signals, so each step leaves what the part it touches says. -/
theorem sparingAndSoftErrors : Obligations.SparingAndSoftErrors := by
  unfold Obligations.SparingAndSoftErrors
  refine ⟨fun s (hr : RasOff s) => ?_, fun s (hr : RasOff s) => ?_⟩
  · intro d k q v
    refine ⟨fun p hk hs hp => ?_, fun hq hn hs => ⟨_, channelRetire_eq hr hq hn hs, rfl, rfl, rfl⟩, ⟨_, (show exec .channelCopyComplete s = _ from rfl), ?_, rfl, rfl⟩,
      fun hq => ⟨⟨_, laneRetire_eq hr hq, ?_, ?_, rfl, rfl⟩, ?_⟩, fun hq => ?_, ⟨_, wayRetire_eq hr, ?_, rfl, rfl⟩⟩
    · obtain ⟨o, he⟩ := coreRetire_eq hr hk hs hp
      let v' := { v with retired := v.retired ++ [p] }
      let u := (s.setDie d (v'.moved k (sparePosition v'))).setCore (coreKey d k) { slots := (s.core (coreKey d k)).slots }
      have hd : u.die d = v'.moved k (sparePosition v') := by
        show (s.setDie d _).die d = _
        rw [State.die_setDie, if_pos rfl]
      have hpos : ∀ j, corePosition (u.die d) j = if j = k then sparePosition v' else corePosition v j := fun j => by
        rw [hd]; exact corePosition_moved v' k j _
      refine ⟨_, he, ?_, (hpos k).trans (if_pos rfl), fun j hj => (hpos j).trans (if_neg hj), rfl, rfl⟩
      show p ∈ (u.die d).retired
      rw [hd]
      exact List.mem_append_right _ (List.mem_singleton_self p)
    · intro e he hq
      obtain ⟨x, -, rfl⟩ := List.mem_map.mp he
      by_cases h : x.1 = s.site.q
      · rw [if_pos h]
      · rw [if_neg h] at hq; exact absurd hq h
    · exact (mem_without s.sparing q q).mpr (.inl rfl)
    · show smGet 0 (smSet 0 s.sparing.lanes q (smGet 0 s.sparing.lanes q + 1)) q = _
      rw [smGet_smSet, if_pos rfl]
    · exact ⟨_, fabricPortFailure_eq hq, fun p => mem_without s.sparing q p, rfl, rfl⟩
    · refine ⟨_, fabricPortReturn_eq hq, fun p => ?_, rfl, rfl⟩
      show p ∈ s.sparing.ports.filter (fun p => p ≠ q) ↔ _
      rw [List.mem_filter, decide_eq_true_eq]
      exact And.comm
    · show smGet 0 (smSet 0 s.sparing.ways s.site.n (smGet 0 s.sparing.ways s.site.n + 1)) s.site.n = _
      rw [smGet_smSet, if_pos rfl]
  · refine ⟨fun d x => ?_, fun c n r l hk _ => ?_, fun c off hs => ?_, fun pa => ?_, fun place pa => ?_, fun c hs e he => ?_, fun d x => ?_⟩
    · exact congrArg Host.Outcome.next (reportFixed_off hr d 0 x 0)
    · refine ⟨_, softError_vreg hr hk, ?_⟩
      let k := teamKey c n
      let u := s.updTeam k fun t => t.markV r l .lane 1
      intro m
      have hm : m = (u.teamAt k).r := rfl
      rw [hm, State.teamAt_updTeam _ _ _ _ (by intro t; rfl), if_pos rfl, markV_one]
      refine ⟨?_, fun j hj => ?_, rfl, State.updTeam_mem _ _ _, State.updTeam_crews _ _ _⟩
      · rw [smGet_smSet, if_pos rfl]
      · rw [smGet_smSet, if_neg hj]
    · have hcr : (s.setCrew c ((s.crew c).spoilWord off)).crew c = (s.crew c).spoilWord off := by rw [State.crew_setCrew, if_pos rfl]
      refine ⟨_, softError_scratch hr hs, ?_, rfl, fun j => ?_⟩
      · show ((s.setCrew c ((s.crew c).spoilWord off)).crew c).scratch = _
        rw [hcr, Crew.spoilWord]
      · show smGet false ((s.setCrew c ((s.crew c).spoilWord off)).crew c).spoison j = _
        rw [hcr, smGet_spoilWord]
    · have hu : RasOff (poisonLine s pa) := hr.of_dies (poisonLine_keeps s pa).2.2
      rw [softError_homeLine, reportConfined_off hu]
      obtain ⟨hcrews, hcores, hdies⟩ := poisonLine_keeps s pa
      have hmem := poisonLine_mem s pa
      have hpoison := isPoison_poisonLine s pa
      generalize poisonLine s pa = u at hu hcrews hcores hdies hmem hpoison ⊢
      exact ⟨_, rfl, hmem, hcrews, hcores, hdies, hpoison⟩
    · have hu : RasOff (spoilCopy s place (pa / 128)) := fun d => by
        obtain ⟨l, e⟩ := (onlyMemory_spoilCopy s place (pa / 128)).2.2 d
        rw [e]; exact hr d
      obtain ⟨h1, h2, h3⟩ := spoilCopy_keeps s place (pa / 128)
      rw [softError_cacheLine, reportConfined_off hu]
      refine ⟨_, rfl, h1, h2, h3, ?_⟩
      intro line bad
      refine ⟨fun ck hp => ?_, fun ck hp => ?_, fun d hp => ?_⟩
      · subst hp
        have hck := (spoilCopy_l1 s ck line ck).trans (if_pos rfl)
        refine ⟨rfl, fun j hj => (spoilCopy_l1 s ck line j).trans (if_neg hj), ?_, fun l => ?_⟩
        · show ((spoilCopy s (.l1 ck) line).core ck).wb = _
          rw [hck]
        · show smGet {} ((spoilCopy s (.l1 ck) line).core ck).l1 l = _
          rw [hck]
          exact smGet_spoiled (s.core ck).l1 line l
      · subst hp
        have hck := (spoilCopy_writeBuffer s ck line ck).trans (if_pos rfl)
        refine ⟨rfl, fun j hj => (spoilCopy_writeBuffer s ck line j).trans (if_neg hj), ?_, ?_⟩
        · show ((spoilCopy s (.writeBuffer ck) line).core ck).l1 = _
          rw [hck]
        · show ((spoilCopy s (.writeBuffer ck) line).core ck).wb = _
          rw [hck]
          exact List.map_congr_left fun e _ => rfl
      · subst hp
        have hd := (spoilCopy_l2 s d line d).trans (if_pos rfl)
        refine ⟨rfl, fun j hj => (spoilCopy_l2 s d line j).trans (if_neg hj), fun l => ?_⟩
        show smGet {} ((spoilCopy s (.l2 d) line).die d).l2 l = _
        rw [hd]
        exact smGet_spoiled (s.die d).l2 line l
    · have hx : exec (.softError e) s = .next (loseCrew s c) := by
        simp only [List.mem_cons, List.not_mem_nil, or_false] at he
        rcases he with rfl | rfl <;> rfl
      exact ⟨_, hx, loseCrew_run hr hs⟩
    · rw [softError_unconfined, rasLog_off hr, State.emit]

end Sys2Proof.Machine
end

section
/-! Words and instructions: the encoder and the decoder agree in both directions (R59, R67, R68). -/

open Sys2Proof

namespace Sys2Proof.Laws.RoundTrip

/-- Every instruction that has an encoding decodes back from it: a step that is no word by having none, a word by its own lemma. -/
theorem statement_holds (i : Instr) : Statement i := by
  by_cases hp : encodeParts i = none
  · exact of_none i hp
  · cases i
    all_goals first | exact absurd rfl hp | simp only [
      imx, grd, bra, brs, brv, call, ret, mark, sadd, ssub, smul, smulh, sdiv, smin, smax, sand, sor, sxor, sshl, sshr, ssra, ssel, smov, scmp, sadd64,
      sli, saddImmediate, sshlImmediate, sshrImmediate, ssraImmediate, slane, sbcast, voteAny, voteAll, voteBallot, popm, bar, arrive, await, prio,
      sysr, sysw, trap, reform, qbind, qpush, qpushTeam, qpop, qpopTeam, qtry, qtryTeam, fadd, fsub, fmul, ffma, fmin, fmax, fdiv, fdot2, fsgn,
      fsgnNeg, fsgnXor, fcmp, frcp, frsq, fsqrt, fex2, flg2, fsin, fcos, fclass, frnd, fcvt, icvt, iadd, isub, imul, imulh, imad, imin, imax, ishl,
      ishr, isra, iand, ior, ixor, icmp, iabs, inot, ipop, iclz, vsel, vmov, vli, lperm, lred, lscan, sgnq, sgnx, pack, unpk, ld, st, lds, sts, ldk,
      ldb, pref, fenceAcq, fenceRel, fenceAr, cinv, cwb, rrinv, spchk, mwait, pmap, pmapRd, amo, acas, acas2, red, redx, ald, ast, apin, rbind, rdrain,
      rwait, rfree, rstat, cyield, rseed, mclaim, mrelease, mgang, mstat, mload, mloadc, mtable, mcbook, mma, mmac, mzero, mrd, mwr, mst, mtrq, hbind,
      hlog, hreplay, hstat, hinv, launch, evsig, evadd, evwait, idemRd, rqbindAttach, rqbindDetach, rqbindStat, rstw, rred, ramo, aflush, aflushAll,
      afstatFail, afstatPend, rsvs, rsvsRet, rrpush, cplan, cplanFree, cstart, cwait, cstat, ccancel, tenc, tdec, nop, join, elseW, exit, yield,
      tfence, tret, pmiss, pret, cyieldOff, mfence, hinvAll, idemClr]

end Sys2Proof.Laws.RoundTrip

namespace Sys2Proof

/-- A word's chain bit is the bit that its encoding was given. -/
theorem chainBit_word (c : BitVec 1) (op : BitVec 7) (b : BitVec 24) : chainBit (c ++ op ++ b) = (c == 1#1) := by
  have h : ∀ c : BitVec 1, c.getLsbD 0 = (c == 1#1) := by decide
  rw [← h c, chainBit, BitVec.getLsbD_append, BitVec.getLsbD_append]
  rfl

/-- A word is its chain bit, its major opcode and bits [23:0]. -/
theorem word_eq_parts (w : W32) : w.extractLsb' 31 1 ++ w.extractLsb' 24 7 ++ w.extractLsb' 0 24 = w := by
  have hi : w.extractLsb' 31 1 ++ w.extractLsb' 24 7 = w.extractLsb' 24 8 := BitVec.extractLsb'_append_extractLsb'_eq_extractLsb' rfl
  have hw : w.extractLsb' 24 8 ++ w.extractLsb' 0 24 = w.extractLsb' 0 32 := BitVec.extractLsb'_append_extractLsb'_eq_extractLsb' rfl
  exact (congrArg (fun x : BitVec 8 => x ++ w.extractLsb' 0 24) hi).trans (hw.trans BitVec.extractLsb'_eq_self)

/-- Fields decode to an instruction only when they are its encoding. -/
theorem encodeParts_of_decodeFields {op : BitVec 7} {b : BitVec 24} {i : Instr} (h : decodeFields op b = .ok i) : encodeParts i = some (op, b) := by
  unfold decodeFields at h
  split at h
  · exact absurd h (by simp)
  · split at h
    · rename_i e
      obtain rfl := Except.ok.inj h
      exact e
    · exact absurd h (by simp)

/-- Fields that no instruction is assigned to make a word that decodes to nothing. -/
theorem decode_unassigned {w : W32} (h : decodeParts (w.extractLsb' 24 7) (w.extractLsb' 0 24) = none) : decode w = .error .unassigned := by
  rw [decode, decodeFields, h]

end Sys2Proof

/-- Settles O1: the encoder's word is made of its parts, and each instruction's parts decode to it. -/
theorem encodedWordDecodesBack : Obligations.EncodedWordDecodesBack := by
  unfold Obligations.EncodedWordDecodesBack
  intro i c w h
  obtain ⟨⟨op, b⟩, hp, rfl⟩ := Option.map_eq_some_iff.mp h
  exact ⟨(decode_word c op b).trans (Laws.RoundTrip.statement_holds i op b hp), chainBit_word c op b⟩

/-- Settles O2: the decoder accepts fields only when they are the encoding of what it answers. -/
theorem decodedWordHasOneEncoding : Obligations.DecodedWordHasOneEncoding := by
  unfold Obligations.DecodedWordHasOneEncoding
  intro w i h
  rw [encodeWord, encodeParts_of_decodeFields h]
  exact congrArg some (word_eq_parts w)

/-- Settles O3: five words, decoded. -/
theorem wordsFromTheTables : Obligations.WordsFromTheTables := by
  unfold Obligations.WordsFromTheTables
  decide
end

section
/-! What every word goes through before its effect, and words that are not legal (R57, R65, R79, R82, R84 to R86). -/

open Sys2Proof Sys2Proof.Machine

namespace Sys2Proof.Machine

/-! ### Every word is checked before its own effect -/

/-- A word's outcome is that of its checks followed by some effect of its own. -/
def Checked (i : Instr) (s : State) (o : Host.Outcome State Fault Refusal) : Prop := ∃ f, o = runWord i s f

section
variable {i : Instr} {s : State}

theorem checked_runWord (f : State → Res) : Checked i s (runWord i s f) := ⟨f, rfl⟩
theorem checked_sWord (d a b f) : Checked i s (sWord i d a b f s) := ⟨_, rfl⟩
theorem checked_vecWord (d n g) : Checked i s (vecWord i s d n g) := ⟨_, rfl⟩
theorem checked_fWord1 (t d a g) : Checked i s (fWord1 i t d a g s) := checked_vecWord _ _ _
theorem checked_fWord2 (t d a b g) : Checked i s (fWord2 i t d a b g s) := checked_vecWord _ _ _
theorem checked_signWord (t d a b g) : Checked i s (signWord i t d a b g s) := checked_vecWord _ _ _
theorem checked_iWord (t d a b g) : Checked i s (iWord i t d a b g s) := checked_vecWord _ _ _
theorem checked_iWord1 (t d a n g) : Checked i s (iWord1 i t d a n g s) := checked_vecWord _ _ _
theorem checked_shiftWord (t d a b g) : Checked i s (shiftWord i t d a b g s) := checked_vecWord _ _ _
theorem checked_cmpWord (p g) : Checked i s (cmpWord i p g s) := ⟨_, rfl⟩
theorem checked_cacheWord (sc a b n) : Checked i s (cacheWord i sc a b n s) := ⟨_, rfl⟩
theorem checked_atomicWord (o w d v p) : Checked i s (atomicWord i o w d v p s) := ⟨_, rfl⟩
theorem checked_gangWord (a) : Checked i s (gangWord i a s) := ⟨_, rfl⟩
theorem checked_rayWord (q f) : Checked i s (rayWord i q s f) := ⟨_, rfl⟩
theorem checked_addWord (a n sc) : Checked i s (addWord i a n sc s) := ⟨_, rfl⟩
theorem checked_remoteWord (k w a d o p) : Checked i s (remoteWord i k w a d o p s) := ⟨_, rfl⟩
theorem checked_flushWord (d p) : Checked i s (flushWord i d p s) := ⟨_, rfl⟩
theorem checked_tileWord (d a b t) : Checked i s (tileWord i d a b t s) := ⟨_, rfl⟩

end

/-- Every word but the prefixes goes through the checks before its own effect. -/
theorem exec_checked {i : Instr} (s : State) (hw : i.isWord = true) (hi : ∀ x, i ≠ .imx x) (hg : ∀ n p, i ≠ .grd n p) :
    Checked i s (exec i s) := by
  unfold exec
  cases i
  case imx x => exact absurd rfl (hi x)
  case grd n p => exact absurd rfl (hg n p)
  case sadd | ssub | smul | smulh | smin | smax | sand | sor | sxor | sshl | sshr | ssra => exact checked_sWord _ _ _ _
  case ffma | fmin | fmax | fdot2 | fclass | fcvt | imad | vsel | vmov | vli | sgnx | pack | unpk => exact checked_vecWord _ _ _
  case frcp | frsq | fsqrt | fex2 | flg2 | fsin | fcos | frnd => exact checked_fWord1 _ _ _ _
  case fadd | fsub | fmul | fdiv => exact checked_fWord2 _ _ _ _ _
  case fsgn | fsgnNeg | fsgnXor => exact checked_signWord _ _ _ _ _
  case iadd | isub | imul | imulh | imin | imax | iand | ior | ixor => exact checked_iWord _ _ _ _ _
  case iabs | inot | ipop | iclz => exact checked_iWord1 _ _ _ _ _
  case ishl | ishr | isra => exact checked_shiftWord _ _ _ _ _
  case fcmp | icmp => exact checked_cmpWord _ _
  case icvt d a r f i m =>
    by_cases hr : r = 0
    · exact ⟨_, if_pos hr⟩
    · exact ⟨_, if_neg hr⟩
  case cinv | cwb => exact checked_cacheWord _ _ _ _
  case amo | acas | acas2 | red | redx | ald | ast => exact checked_atomicWord _ _ _ _ _
  case mma | mmac => exact checked_gangWord _
  case hbind | hlog | hreplay | hstat => exact checked_rayWord _ _
  case evsig | evadd => exact checked_addWord _ _ _
  case rstw | rred | ramo => exact checked_remoteWord _ _ _ _ _ _
  case aflush | aflushAll => exact checked_flushWord _ _
  case tenc | tdec => exact checked_tileWord _ _ _ _
  all_goals first | exact absurd hw Bool.false_ne_true | exact checked_runWord _

/-- What a word does that its checks stop. -/
theorem runWord_stopped {i : Instr} {s : State} {r : Res} (h : issueCheck i s = some r) (f : State → Res) : runWord i s f = finishWord i s r := by
  rw [runWord, h]; rfl

/-- The same of an instruction. -/
theorem exec_stopped {i : Instr} {s : State} {r : Res} (hw : i.isWord = true) (hi : ∀ x, i ≠ .imx x) (hg : ∀ n p, i ≠ .grd n p)
    (h : issueCheck i s = some r) : exec i s = finishWord i s r := by
  obtain ⟨f, hf⟩ := exec_checked s hw hi hg
  rw [hf, runWord_stopped h]

/-- The checks answer an encoding that is not legal with its exception. -/
theorem issueCheck_illegal {i : Instr} {s : State} {k : Nat} (h : illegal (usage i) s.team false = some k) :
    issueCheck i s = some (.trap s { code := k, val := (s.team.curWord i).setWidth 64 }) := by
  rw [issueCheck, h]

/-! ### The order of the checks of an encoding (R79, R84, R85) -/

section
variable (u : Usage) (t : Team)

/-- A code of the word is unassigned, or a prefix in force is one that the word does not take: ILL.OP. -/
def Usage.noOp : Prop := u.op = false ∨ (t.pfx.imm ≠ none ∧ takesImx u = false) ∨ (t.pfx.grd ≠ none ∧ u.guardable = false)

/-- A reserved value of the word, of its prefix or of the immediate: ILL.RSV. -/
def Usage.reserved : Prop := u.rsv = true ∨ t.pfx.rsv = true ∨ imxRsv u t.pfx.imm = true

/-- A span of registers does not start where its groups may, or lies beyond the first `n` registers. -/
def Span.beyond (n : Nat) (x : Span) : Prop := x.1 % x.2.2 ≠ 0 ∨ n < x.1 + x.2.1

/-- A register breaks the word's own rule, or the rule of groups: ILL.REG. -/
def Usage.badRegs : Prop :=
  u.regBad = true ∨ (∃ x ∈ u.vr ++ u.vw ++ u.vall ++ u.vchk, Span.beyond t.id.nregs x) ∨ ∃ x ∈ u.sr ++ u.sw, Span.beyond 64 x

theorem not_spanOk_iff (n : Nat) (x : Span) : ¬spanOk n x = true ↔ Span.beyond n x := by
  rw [spanOk, Span.beyond, Bool.and_eq_true, not_and_or, beq_iff_eq, decide_eq_true_eq, Nat.not_le]

theorem not_all_spanOk_iff (n : Nat) (l : List Span) : (!l.all (spanOk n)) = true ↔ ∃ x ∈ l, Span.beyond n x := by
  simp only [Bool.not_eq_true', List.all_eq_false, not_spanOk_iff]

theorem noOp_iff : (!u.op || (t.pfx.imm.isSome && !takesImx u) || (t.pfx.grd.isSome && !u.guardable)) = true ↔ u.noOp t := by
  simp only [Usage.noOp, Bool.or_eq_true, Bool.and_eq_true, Bool.not_eq_true', Option.isSome_iff_ne_none, or_assoc]

theorem reserved_iff : (false || u.rsv || t.pfx.rsv || imxRsv u t.pfx.imm) = true ↔ u.reserved t := by
  simp only [Usage.reserved, Bool.or_eq_true, Bool.false_or, or_assoc]

theorem badRegs_iff : (u.regBad || !((u.vr ++ u.vw ++ u.vall ++ u.vchk).all (spanOk t.id.nregs)) || !((u.sr ++ u.sw).all (spanOk 64))) = true ↔ u.badRegs t := by
  rw [Bool.or_eq_true, Bool.or_eq_true, not_all_spanOk_iff, not_all_spanOk_iff, Usage.badRegs, or_assoc]

/-- The first of its faults decides the encoding fault of a word whose unused fields are zero. -/
theorem illegal_order :
    (u.noOp t → illegal u t false = some codeOp) ∧
    (¬u.noOp t →
      (u.engine = true → t.onControl = true → illegal u t false = some codeEng) ∧
      ((u.engine = false ∨ t.onControl = false) →
        (u.priv = true → t.supSrc = false → illegal u t false = some codePriv) ∧
        ((u.priv = false ∨ t.supSrc = true) →
          (u.reserved t → illegal u t false = some codeRsv) ∧
          (¬u.reserved t → (u.badRegs t → illegal u t false = some codeReg) ∧ (¬u.badRegs t → illegal u t false = none))))) := by
  unfold illegal
  refine ⟨fun h => if_pos ((noOp_iff u t).mpr h), fun h => ?_⟩
  rw [if_neg (mt (noOp_iff u t).mp h)]
  refine ⟨fun he hc => if_pos (by rw [he, hc]; rfl), fun h => ?_⟩
  rw [if_neg (show ¬(u.engine && t.onControl) = true by rcases h with h | h <;> simp [h])]
  refine ⟨fun hp hs => if_pos (by rw [hp, hs]; rfl), fun h => ?_⟩
  rw [if_neg (show ¬(u.priv && !t.supSrc) = true by rcases h with h | h <;> simp [h])]
  refine ⟨fun h => if_pos ((reserved_iff u t).mpr h), fun h => ?_⟩
  rw [if_neg (mt (reserved_iff u t).mp h)]
  exact ⟨fun h => if_pos ((badRegs_iff u t).mpr h), fun h => if_neg (mt (badRegs_iff u t).mp h)⟩

end

/-! ### Words that do not decode -/

/-- The major opcodes that no chapter assigns (R82, R132, R215, R249) have no instruction, whatever the other bits. -/
theorem decodeParts_unassigned {op : BitVec 7} (b : BitVec 24)
    (h : op.toNat ∈ [0x17, 0x18, 0x19, 0x1A, 0x1B, 0x49, 0x4A, 0x4B, 0x4C, 0x4D, 0x4E, 0x4F, 0x5F, 0x7F]) : decodeParts op b = none := by
  simp only [List.mem_cons, List.not_mem_nil, or_false] at h
  rcases h with h | h | h | h | h | h | h | h | h | h | h | h | h | h <;>
    (rw [decodeParts, h]; rfl)

/-- A word that decodes to nothing raises ILL.OP with itself in XVAL. -/
theorem wordStep_unassigned {s : State} (h : decode s.team.word = .error .unassigned) :
    wordStep s = .next (s.enterHandler s.team.faultPc { code := codeOp, val := s.team.word.setWidth 64 }) := by
  simp only [wordStep, badWord, wordFault, h, Option.getD_some]

end Sys2Proof.Machine

/-- Settles O4: an unassigned opcode decodes to nothing; every word is checked before its effect; the checks are tried in order. -/
theorem illegalWords : Obligations.IllegalWords := by
  unfold Obligations.IllegalWords
  refine ⟨⟨fun w h => decode_unassigned (decodeParts_unassigned _ h), ?_⟩, ?_, illegal_order⟩
  · rintro w s h rfl
    exact wordStep_unassigned h
  · intro i s k hw hi hg h
    rw [Traps, exec_stopped hw hi hg (issueCheck_illegal h), finishWord]

/-! ### A step at a word -/

namespace Sys2Proof.Machine

/-- The acquire that an atomic left to do changes what the engines hold of the team, and caches and memory alone. -/
theorem settleAcq_team (s : State) : ∃ e, (settleAcq s).team = { s.team with eng := e } := by
  unfold settleAcq
  split
  · exact ⟨_, rfl⟩
  · split
    · exact ⟨_, rfl⟩
    · exact ⟨_, (onlyMemory_acquireAt _ _ _ _).team⟩

theorem settleAcq_word (s : State) : (settleAcq s).team.word = s.team.word := by
  obtain ⟨e, h⟩ := settleAcq_team s
  rw [h]; rfl

/-- What stands at the program counter, a word that is not chained and decodes, is its instruction. -/
theorem clauseStep_word {s : State} {i : Instr} (hc : chainBit s.team.word = false) (hd : decode s.team.word = .ok i) : clauseStep s = exec i s := by
  simp only [clauseStep, wordStep, hc, hd, Bool.false_eq_true, if_false]

/-- Within a clause, after a prefix, the word comes next. -/
theorem turnOf_prefixed {s : State} (hm : midClause s = true) (hp : s.team.pfx.pc ≠ none) : turnOf s = clauseStep s := by
  rw [turnOf, hm, Option.isSome_iff_ne_none.mpr hp]; rfl

/-- Within a clause, without a prefix and with an empty agenda, the word comes next, after the acquire that an atomic left to do. -/
theorem turnOf_midClause {s : State} (hm : midClause s = true) (ha : s.agenda = []) (hp : s.team.pfx.pc = none) :
    turnOf s = clauseStep (settleAcq s) := by
  rw [turnOf, hp, ha]
  simp only [hm, Option.isSome_none, Bool.and_false, Bool.false_eq_true, if_false, if_true]

end Sys2Proof.Machine

/-- Settles O5: what happens next within a clause is the word at the program counter. -/
theorem stepRunsTheDecodedWord : Obligations.StepRunsTheDecodedWord := by
  unfold Obligations.StepRunsTheDecodedWord
  intro s i hm ha hc hd
  refine ⟨fun hp => ?_, fun hp => ?_⟩
  · have hw : (settleAcq s.sent).team.word = s.team.word := settleAcq_word s.sent
    rw [step, turnOf_midClause hm ha hp, clauseStep_word (by rw [hw]; exact hc) (by rw [hw]; exact hd)]
  · rw [step, turnOf_prefixed hm hp]
    exact congrArg (mapNext s.endStep) (clauseStep_word (s := s.sent) hc hd)

/-- Settles O6: a write changes the team's registers, and a word of a group reads those of the group. -/
theorem groupedWordsReadOldValues : Obligations.GroupedWordsReadOldValues := by
  unfold Obligations.GroupedWordsReadOldValues
  intro t g hg
  have hr : ∀ u : Team, u.group = some g → u.rSrc = g.r := fun u h => by rw [Team.rSrc, h]
  refine ⟨fun k v j => ?_, fun r l v r' l' => ?_, fun p m v q => ?_, fun m => ?_⟩
  · rw [Team.getS, Team.sSrc, hr (t.setS k v) hg]
  · rw [Team.getV, Team.vSrc, hr (t.setV r l v) hg]
  · have hs : (t.setP p m v).group = some g := by unfold Team.setP; split <;> exact hg
    rw [Team.getP, Team.pSrc, hr _ hs]
  · show (match t.group with | some g => g.m | none => m) = g.m
    rw [hg]
end

section
/-! Branches, calls and returns (R71, R135, R136). -/

open Sys2Proof Sys2Proof.Machine

namespace Sys2Proof.Machine

/-- An offset, sign-extended and times 16, is 16 times the number that it stands for. -/
theorem signExtend_mul_sixteen {n : Nat} (x : BitVec n) : x.signExtend 64 * 16 = BitVec.ofInt 64 (16 * x.toInt) := by
  rw [BitVec.signExtend, Int.mul_comm, BitVec.ofInt_mul]
  rfl

/-- A branch target without IMX: the offset is OFF20. -/
theorem target_noImx {t : Team} (o : BitVec 20) (h : t.pfx.imm = none) : t.target o = pcClause t.pc + BitVec.ofInt 64 (16 * o.toInt) := by
  simp only [Team.target, h, signExtend_mul_sixteen]

/-- A branch target after IMX: the offset is the 32 bits that IMX forms. -/
theorem target_imx {t : Team} (o : BitVec 20) {i : BitVec 24} (h : t.pfx.imm = some i) :
    t.target o = pcClause t.pc + BitVec.ofInt 64 (16 * (i ++ o.setWidth 8 : BitVec 32).toInt) := by
  simp only [Team.target, h, signExtend_mul_sixteen]

/-- A word that runs, leaving control as it says. -/
theorem runs_of_done {i : Instr} {s s1 : State} {c : Ctl} {f : State → Res} (he : exec i s = runWord i s f) (hr : s.ready i) (hf : f s = .done s1 c) :
    Runs i s s1 c := by
  rw [Runs, he, runWord_ready _ _ _ hr, hf]; rfl

/-- A pair of scalar registers that the team that issues writes, low half first; no other register changes. -/
theorem onlyScalars_setS64 (s : State) (d : Nat) (v : W64) : let s1 := s.mapTeam fun t => t.setS64 d v
    OnlyScalars [d, d + 1] s s1 ∧ s1.team.sNow (d + 1) ++ s1.team.sNow d = v := by
  refine ⟨⟨_, _, rfl, fun k hk => ?_⟩, ?_⟩
  · obtain ⟨h0, h1⟩ : k ≠ d ∧ k ≠ d + 1 := by simpa using hk
    simp [h0, h1]
  · have hl : ((s.mapTeam fun t => t.setS64 d v).team).sNow d = v.extractLsb' 0 32 := by simp [Team.sNow, Team.setS64]
    have hh : ((s.mapTeam fun t => t.setS64 d v).team).sNow (d + 1) = v.extractLsb' 32 32 := by simp [Team.sNow, Team.setS64]
    have hv : v.extractLsb' 32 32 ++ v.extractLsb' 0 32 = v.extractLsb' 0 64 := BitVec.extractLsb'_append_extractLsb'_eq_extractLsb' rfl
    rw [hl, hh]
    exact hv.trans BitVec.extractLsb'_eq_self

/-! What each word does once it may issue. -/

section
variable (s : State)

theorem exec_bra (o) : exec (.bra o) s = runWord (.bra o) s fun s => .done s (.go (s.team.target o)) := rfl

theorem exec_brs (k o) : exec (.brs k o) s = runWord (.brs k o) s fun s => .done s (if brsHolds k s.team.scc then .go (s.team.target o) else .next) := rfl

theorem exec_call (o) : exec (.call o) s = runWord (.call o) s fun s =>
    .done (s.mapTeam fun t => t.setS64 62 (pcClause t.pc + 16)) (.go (s.team.target o)) := rfl

theorem exec_ret (a) : exec (.ret a) s = runWord (.ret a) s fun s =>
    if (s.team.getS64 a.toNat).extractLsb' 0 4 ≠ 0 then .trap s { code := codePc, val := s.team.getS64 a.toNat }
    else .done s (.go (s.team.getS64 a.toNat)) := rfl

end

end Sys2Proof.Machine

/-- Settles O15: each word's own effect, at a state where it may issue. -/
theorem branchesAndCalls : Obligations.BranchesAndCalls := by
  unfold Obligations.BranchesAndCalls
  refine ⟨fun t o => ⟨target_noImx o, fun i => target_imx o⟩, fun s =>
    ⟨fun hr => runs_of_ok (f := ok) rfl hr rfl, fun o hr => runs_of_done (exec_bra s o) hr rfl, fun k o hr => runs_of_done (exec_brs s k o) hr rfl,
      fun o hr => ?_, fun a hr h => runs_of_done (exec_ret s a) hr (if_neg (not_not_intro h)), fun a hr h => traps_of_trap (exec_ret s a) hr (if_pos h)⟩⟩
  obtain ⟨ho, hv⟩ := onlyScalars_setS64 s 62 (pcClause s.team.pc + 16)
  exact ⟨_, runs_of_done (exec_call s o) hr rfl, ho, hv⟩
end

section
/-! How a word that ran alone ends: the undo log, the accounts of the quantum, the program counter, STEP (R57, R87, R155, R160, R273). -/

open Sys2Proof Sys2Proof.Machine

namespace Sys2Proof.Machine

/-! ### The state that a word ends in -/

/-- A team whose word has ended: its place, its accounts, and nothing in force for a word. -/
def Team.endsAt (t : Team) (pc : W64) (c : Option Clause) (q : Quantum) (w : Sched) : Team :=
  { t with pc := pc, clause := c, dq := q, sched := w, pfx := {}, group := none, note := .done }

/-- A state whose team's word has ended. -/
def State.endsAt (s : State) (pc : W64) (c : Option Clause) (q : Quantum) (w : Sched) : State :=
  { s with team := s.team.endsAt pc c q w, progress := s.progress + 1 }

section
variable (s : State) (pc : W64) (c : Option Clause) (q : Quantum) (w : Sched)

@[simp] theorem State.endsAt_team : (s.endsAt pc c q w).team = s.team.endsAt pc c q w := rfl
@[simp] theorem Team.endsAt_dbg (t : Team) : (t.endsAt pc c q w).dbg = t.dbg := rfl

theorem Team.endsAt_kept (t : Team) : KeptAtWordEnd (t.endsAt pc c q w) t := by
  refine ⟨?_, ?_, ?_, ?_, ?_, ?_, ?_, ?_, ?_, ?_, ?_, ?_, ?_, ?_, ?_, ?_, ?_⟩ <;> rfl

@[simp] theorem plainByte_endsAt (d k pa : Nat) : plainByte (s.endsAt pc c q w) d k pa = plainByte s d k pa := rfl

theorem plainByte_mapTeam (f : Team → Team) (d k pa : Nat) : plainByte (s.mapTeam f) d k pa = plainByte s d k pa := rfl

end

/-- Leaving a clause closes it and changes at most what the sequencer keeps of the team. -/
theorem Team.leaveClause_eq (t : Team) (tick : Nat) : ∃ w, t.leaveClause tick = { t with clause := none, sched := w } := by
  unfold Team.leaveClause
  split
  · rename_i h
    exact ⟨t.sched, by rw [← h]⟩
  · dsimp only
    split
    · exact ⟨_, rfl⟩
    · exact ⟨_, rfl⟩

/-! ### Committing -/

/-- A group of counted words by a team that stood as `t0` before it ends the quantum (R273). -/
def Quantum.stops (q : Quantum) (t0 : Team) (counted : Nat) : Bool :=
  q.full || match t0.id.quantum with
    | some m => decide (m ≤ q.count + if t0.sup then 0 else counted) && !t0.sup && decide (0 < counted)
    | none => false

/-- The quantum's accounts after such a group (R273). -/
def Quantum.afterGroup (q : Quantum) (t0 : Team) (counted : Nat) : Quantum :=
  { q with
    count := q.count + if t0.sup then 0 else counted, passed := q.passed && t0.sup, atEnd := q.atEnd || q.stops t0 counted, full := false }

/-- The state once the accounts of a group are done, its team still where it was. -/
def State.accounted (s : State) (t0 : Team) (counted : Nat) : State :=
  s.endsAt s.team.pc s.team.clause (s.team.dq.afterGroup t0 counted)
    { s.team.sched with wait := if s.team.dq.stops t0 counted then some .quantum else none, blockedAt := s.progress }

/-- The state with the undo log's records of a group, where its team keeps one (R160). -/
def State.logged (s : State) (t0 : Team) (regs : List Nat) (first : W64) : State := if t0.dbg.undo && !t0.sup then undoLog s t0 regs first else s

theorem State.logged_off {s : State} {t0 : Team} (regs : List Nat) (first : W64) (h : t0.sup = true ∨ t0.dbg.undo = false) : s.logged t0 regs first = s := by
  rcases h with h | h <;> simp [State.logged, h]

theorem State.logged_on {s : State} {t0 : Team} (regs : List Nat) (first : W64) (hu : t0.sup = false) (h : t0.dbg.undo = true) :
    s.logged t0 regs first = undoLog s t0 regs first := by
  simp [State.logged, hu, h]

section
variable (s : State) {t0 : Team} (regs : List Nat) (counted : Nat) (first after : W64)

/-- Where a group that transfers control commits, in terms of what comes before. -/
theorem commit_go_eq (pc : W64) : s.commit t0 regs counted first after (.go pc) =
    let v := ((s.logged t0 regs first).accounted t0 counted)
    let u := v.mapTeam fun t => { t.leaveClause v.tick with pc := pc }
    if t0.dbg.step && !t0.sup then u.enterHandler pc { code := codeStep } else u := rfl

/-- The same of a group that goes on at the next slot. -/
theorem commit_next_eq : s.commit t0 regs counted first after .next =
    let v := ((s.logged t0 regs first).accounted t0 counted)
    let u := v.mapTeam fun t => { (if pcSlot after = 0 then t.leaveClause v.tick else t) with pc := after }
    if pcSlot after = 0 && !pcOk after then u.enterHandler first { code := codePc, val := after }
    else if t0.dbg.step && !t0.sup then u.enterHandler after { code := codeStep } else u := rfl

end

/-- Moving out of the clause from the accounts. -/
theorem accounted_leaves (u : State) (t0 : Team) (counted : Nat) (tick : Nat) (pc : W64) :
    ∃ w, (u.accounted t0 counted).mapTeam (fun t => { t.leaveClause tick with pc := pc }) = u.endsAt pc none (u.team.dq.afterGroup t0 counted) w := by
  obtain ⟨w, hw⟩ := (u.accounted t0 counted).team.leaveClause_eq tick
  exact ⟨w, by rw [State.mapTeam, hw]; rfl⟩

/-- Moving on within the clause from the accounts. -/
theorem accounted_stays (u : State) (t0 : Team) (counted : Nat) (pc : W64) :
    ∃ w, (u.accounted t0 counted).mapTeam (fun t => { t with pc := pc }) = u.endsAt pc u.team.clause (u.team.dq.afterGroup t0 counted) w := ⟨_, rfl⟩

/-- Control goes on at `pc`, of a group whose next slot is `after`: an address that can be fetched, by a transfer or at the end of the clause, or the
next slot of the clause. -/
def Ctl.goesTo (c : Ctl) (after pc : W64) : Prop := (c = .go pc ∧ pcOk pc = true) ∨ (c = .next ∧ pc = after ∧ (pcSlot pc ≠ 0 ∨ pcOk pc = true))

section
variable (s : State) {t0 : Team} (regs : List Nat) (counted : Nat) (first : W64) {after : W64}

/-- A group after which STEP does not trap ends at the place where control goes, its records and accounts done. -/
theorem commit_ends {c : Ctl} {pc : W64} (h : (t0.dbg.step && !t0.sup) = false) (hc : c.goesTo after pc) : let u := s.logged t0 regs first
    ∃ w, s.commit t0 regs counted first after c =
      u.endsAt pc (if c = .next ∧ pcSlot pc ≠ 0 then u.team.clause else none) (u.team.dq.afterGroup t0 counted) w := by
  rcases hc with ⟨rfl, -⟩ | ⟨rfl, rfl, hp⟩
  · rw [commit_go_eq, h]
    simpa using accounted_leaves _ _ _ _ _
  · rw [commit_next_eq, h]
    by_cases ha : pcSlot pc = 0
    · simpa [ha, hp.resolve_left (not_not_intro ha)] using accounted_leaves _ _ _ _ _
    · simpa [ha] using accounted_stays _ _ _ _

/-- With STEP set, a user-state group that goes on at the next slot enters the handler from there. -/
theorem commit_steps (hu : t0.sup = false) (h : t0.dbg.step = true) (ha : pcSlot after ≠ 0) : let u := s.logged t0 regs first
    ∃ w, s.commit t0 regs counted first after .next =
      (u.endsAt after u.team.clause (u.team.dq.afterGroup t0 counted) w).enterHandler after { code := codeStep } := by
  rw [commit_next_eq, h, hu]
  simp only [ha, if_false, decide_false, Bool.false_and, Bool.false_eq_true, Bool.not_false, Bool.and_true, if_true]
  exact ⟨_, rfl⟩

end

/-! ### Ending a word that ran alone -/

section
variable (i : Instr) {s : State} (s1 : State)

/-- A transfer to an address that cannot be fetched is ILL.PC with the state before the word (R87). -/
theorem endWord_badTarget {pc : W64} (h : pcOk pc = false) : endWord i s s1 (.go pc) = s.enterHandler s.team.faultPc { code := codePc, val := pc } := by
  simp [endWord, h]

/-- What a word adds to the count of its quantum. -/
def Usage.count (u : Usage) : Nat := if u.counted then 1 else 0

/-- A word that ran alone commits, unless it transfers control to an address that cannot be fetched. -/
theorem endWord_alone {c : Ctl} (hg : s.team.group = none) (hc : ∀ pc, c = .go pc → pcOk pc = true) :
    endWord i s s1 c = s1.commit s.team (undoRegs (usage i)) (usage i).count s.team.faultPc (pcNext s.team.pc) c := by
  cases c with
  | go pc => simp [endWord, hg, hc pc rfl, Usage.count]
  | next | after | ended => simp [endWord, hg, Usage.count]

theorem endWord_ends {c : Ctl} {pc : W64} (hg : s.team.group = none) (h : (s.team.dbg.step && !s.team.sup) = false)
    (hc : c.goesTo (pcNext s.team.pc) pc) : let u := s1.logged s.team (undoRegs (usage i)) s.team.faultPc
    ∃ w, endWord i s s1 c =
      u.endsAt pc (if c = .next ∧ pcSlot pc ≠ 0 then u.team.clause else none) (u.team.dq.afterGroup s.team (usage i).count) w := by
  rw [endWord_alone i s1 hg (by rintro p rfl; rcases hc with ⟨⟨⟩, hp⟩ | ⟨⟨⟩, -⟩; exact hp)]
  exact commit_ends s1 _ _ _ h hc

/-- A word that goes on at the next slot of its clause. -/
theorem endWord_nextSlot (hg : s.team.group = none) (h : s.team.dbg.step = false) (ha : pcSlot (pcNext s.team.pc) ≠ 0) :
    let u := s1.logged s.team (undoRegs (usage i)) s.team.faultPc
    ∃ w, endWord i s s1 .next = u.endsAt (pcNext s.team.pc) u.team.clause (u.team.dq.afterGroup s.team (usage i).count) w := by
  simpa [ha] using endWord_ends i s1 hg (by rw [h]; rfl) (.inr ⟨rfl, rfl, .inl ha⟩)

end

/-! ### The undo log (R160) -/

/-- A translation changes memory alone. -/
theorem onlyMemory_transNow (s : State) (d ctx : Nat) (va : W64) (a : Access) (sup : Bool) : OnlyMemory s (transNow s d ctx va a sup).1 := by
  have h := onlyMemory_walkAccess s ctx va.toNat a sup
  unfold transNow
  split
  · rename_i e; rw [e] at h; exact h
  · rename_i e; rw [e] at h; exact h

/-- Bytes that a core stores, as it reads them. -/
theorem plainByte_storeBytes (bs : List Byte) (s : State) (d k pa q : Nat) : plainByte (storeBytes s d k pa bs) d k q =
    (storedByte [(pa, bs)] q).getD (plainByte (s.othersOut d k (storePas [(pa, bs)])) d k q) :=
  plainByte_stores [(pa, bs)] s d k q

/-- Where the next record of an undo log goes, as an offset. -/
def Debug.offset (x : Debug) : Nat := x.head.toNat % x.len.toNat

/-- Where the next record of an undo log goes, as an address. -/
def Debug.slotVa (x : Debug) : W64 := x.base + BitVec.ofNat 64 x.offset

section
variable (first : W64) {s : State} (e : Nat × W32) (hu : s.team.dbg.undo = true)
include hu

theorem writeUndo_eq : writeUndo first s e =
    let fail := s.mapTeam fun t => { t with dbg := { t.dbg with undo := false, uflt := true } }
    if vaClass s.team.dbg.slotVa ≠ .localVa then fail
    else
      match transNow s s.team.id.die s.team.id.ctx s.team.dbg.slotVa .write false with
      | (_, .error _) => fail
      | (s2, .ok pa) =>
        (storeBytes s2 s.team.id.die s.team.id.core pa (undoRecord e.2 e.1 first)).mapTeam fun t =>
          { t with dbg := { t.dbg with head := BitVec.ofNat 32 ((s.team.dbg.offset + 16) % t.dbg.len.toNat) } } := by
  rw [writeUndo, hu]
  rfl

/-- A record whose address translates is stored there by the team's core, and the head advances. -/
theorem writeUndo_stores {s2 : State} {pa : Nat} (hc : vaClass s.team.dbg.slotVa = .localVa)
    (ht : transNow s s.team.id.die s.team.id.ctx s.team.dbg.slotVa .write false = (s2, .ok pa)) :
    (writeUndo first s e).team.dbg = { s.team.dbg with head := BitVec.ofNat 32 ((s.team.dbg.offset + 16) % s.team.dbg.len.toNat) } ∧
    ∀ q, plainByte (writeUndo first s e) s.team.id.die s.team.id.core q =
      plainByte (storeBytes s2 s.team.id.die s.team.id.core pa (undoRecord e.2 e.1 first)) s.team.id.die s.team.id.core q := by
  have hm : OnlyMemory s s2 := by simpa only [ht] using onlyMemory_transNow s s.team.id.die s.team.id.ctx s.team.dbg.slotVa .write false
  have hteam := (hm.trans (onlyMemory_storeBytes (undoRecord e.2 e.1 first) s2 s.team.id.die s.team.id.core pa)).team
  simp only [writeUndo_eq first e hu, hc, ht, ne_eq, not_true_eq_false, if_false, State.mapTeam_team, hteam, plainByte_mapTeam, implies_true, and_self]

/-- A record whose address does not translate is not written, and the log stops. -/
theorem writeUndo_fails (h : vaClass s.team.dbg.slotVa ≠ .localVa ∨
      ∃ s2 x, transNow s s.team.id.die s.team.id.ctx s.team.dbg.slotVa .write false = (s2, .error x)) :
    writeUndo first s e = s.mapTeam fun t => { t with dbg := { t.dbg with undo := false, uflt := true } } := by
  rw [writeUndo_eq first e hu]
  by_cases hc : vaClass s.team.dbg.slotVa = .localVa
  · obtain ⟨s2, x, ht⟩ := h.resolve_left (not_not_intro hc)
    simp only [hc, ht, ne_eq, not_true_eq_false, if_false]
  · exact if_pos hc

end

/-- A word that writes no scalar register, or one, leaves one record. -/
theorem undoLog_one (s : State) {t0 : Team} {regs : List Nat} (first : W64) {r : Nat} {old : W32}
    (h : (regs = [] ∧ r = 0xFF ∧ old = 0) ∨ (regs = [r] ∧ old = if r = 64 then t0.scc.setWidth 32 else smGet 0 t0.r.s r)) :
    undoLog s t0 regs first = writeUndo first s (r, old) := by
  rcases h with ⟨rfl, rfl, rfl⟩ | ⟨rfl, rfl⟩ <;> rfl

end Sys2Proof.Machine

/-- Settles O12: a word that ran alone commits, which ends it at one place with its accounts done; the record of the undo log is written before. -/
theorem wordEnd : Obligations.WordEnd := by
  unfold Obligations.WordEnd
  refine ⟨fun i s s1 hg hq => ⟨fun pc hp => endWord_badTarget i s1 hp, fun c pc hc => ?_⟩, ?_, ?_, ?_⟩
  · obtain ⟨w, h⟩ := endWord_ends i s1 hg (by rcases hq with h | ⟨-, h⟩ <;> simp [h]) hc
    rw [State.logged_off _ _ (hq.imp_right And.left)] at h
    rw [h]
    exact ⟨rfl, rfl, rfl, Team.endsAt_kept _ _ _ _ _, rfl, fun d k pa => rfl⟩
  · intro i s s1 hg hu _ hlog hstep ha
    obtain ⟨w, h⟩ := commit_steps s1 (undoRegs (usage i)) (usage i).count s.team.faultPc hu hstep ha
    rw [State.logged_off _ _ (.inr hlog)] at h
    exact ⟨_, (endWord_alone i s1 hg (by rintro _ ⟨⟩)).trans h, Team.endsAt_kept _ _ _ _ _, rfl⟩
  · intro i s s1 r old t d k hg hu hlog hstep hlog1 ha hregs u head va
    obtain ⟨w, h⟩ := endWord_nextSlot i s1 hg hstep ha
    rw [State.logged_on _ _ hu hlog, undoLog_one s1 s.team.faultPc hregs] at h
    have hdbg : u.team.dbg = (writeUndo s.team.faultPc s1 (r, old)).team.dbg := by
      show (endWord i s s1 .next).team.dbg = _
      rw [h]; rfl
    have hbyte : ∀ q, plainByte u d k q = plainByte (writeUndo s.team.faultPc s1 (r, old)) d k q := by
      show ∀ q, plainByte (endWord i s s1 .next) d k q = _
      rw [h]; exact fun q => rfl
    refine ⟨fun s2 pa hc ht => ?_, fun hf => ?_⟩
    · obtain ⟨hd, hb⟩ := writeUndo_stores s.team.faultPc (r, old) hlog1 hc ht
      exact ⟨hdbg.trans hd, fun q => ((hbyte q).trans (hb q)).trans (plainByte_storeBytes _ _ _ _ _ q)⟩
    · rw [writeUndo_fails s.team.faultPc (r, old) hlog1 hf] at hdbg hbyte
      exact ⟨hdbg, hbyte⟩
  · intro i s s1 q hg hu hlog hstep hq hcount ha hfull hend t
    obtain ⟨w, h⟩ := endWord_nextSlot i s1 hg hstep ha
    rw [State.logged_off _ _ (.inr hlog)] at h
    have hdq : t.dq = s1.team.dq.afterGroup s.team 1 := by
      rw [show 1 = (usage i).count by rw [Usage.count, hcount]; rfl]
      exact congrArg (fun x => x.team.dq) h
    rw [hdq]
    simp [Quantum.afterGroup, Quantum.stops, hend, hfull, hq, hu]
end

section
/-! Taking an exception and returning from one (R155, R289). -/

open Sys2Proof Sys2Proof.Machine

namespace Sys2Proof.Machine

/-- A terminated crew: no team of it lives, and every other crew is as it was. -/
theorem killCrew_crew (s : State) (c cause : Nat) : let u := s.killCrew c cause
    (u.crew c).cause = some ((s.crew c).cause.getD cause) ∧ ∀ k, k ≠ c → u.crew k = s.crew k := by
  intro u
  have hu : ∀ k, u.crew k = if k = c then { s.crew c with cause := some ((s.crew c).cause.getD cause) } else s.crew k := fun k =>
    State.crew_setCrew s c k _
  exact ⟨by rw [hu, if_pos rfl], fun k hk => by rw [hu, if_neg hk]⟩

theorem killCrew_others_dead (s : State) (c cause : Nat) : ∀ e ∈ (s.killCrew c cause).others, e.2.id.crew = c → e.2.id.alive = false := by
  intro e he hc
  obtain ⟨e0, -, rfl⟩ := List.mem_map.mp he
  by_cases h : e0.2.id.crew = c
  · simp [h]
  · simp [h] at hc

theorem killCrew_x (s : State) (c cause : Nat) : (s.killCrew c cause).team.x = s.team.x := by
  by_cases h : s.team.id.crew = c <;> simp [State.killCrew, h]

/-! ### TRET and PRET -/

/-- A return to an XPC that is a program counter. -/
theorem trapReturn_goes {s : State} (h : s.team.x.xpc.extractLsb' 0 2 = 0) (hp : pcOk s.team.x.xpc = true) :
    s.trapReturn = .done { s with team := { s.team with m := s.team.returnMask, sup := false } } (.go s.team.x.xpc) := by
  simp [State.trapReturn, h, hp, State.mapTeam]

/-- A return to another XPC is ILL.PC. -/
theorem trapReturn_traps {s : State} (h : s.team.x.xpc.extractLsb' 0 2 ≠ 0 ∨ pcOk s.team.x.xpc = false) :
    s.trapReturn = .trap s { code := codePc, val := s.team.x.xpc } :=
  if_pos (by simpa only [Bool.or_eq_true, decide_eq_true_eq, Bool.not_eq_true'] using h)

theorem exec_tret (s : State) : exec .tret s = runWord .tret s State.trapReturn := rfl

theorem exec_pret (s : State) : exec .pret s = runWord .pret s fun s => if pmapBusy s s.team.key then .block s .pending else s.trapReturn := rfl

end Sys2Proof.Machine

/-- Settles O10: in user state the handler's entry is one update of the team; in supervisor state the crew is terminated. -/
theorem takingAnException : Obligations.TakingAnException := by
  unfold Obligations.TakingAnException
  refine ⟨fun s pc i hu hx => ?_, fun s pc i hs => ?_⟩
  · rw [enterHandler_user s pc i hu hx]
    refine ⟨?_, ?_, ?_, ?_, ?_, ?_, ?_, ?_, ?_, ?_, ?_, ?_, ?_, ?_, ?_, ?_, ?_, ?_, ?_, ?_, ?_, ?_, ?_, ?_⟩ <;> rfl
  · rw [enterHandler_nest s pc i (.inl hs)]
    obtain ⟨-, hown, -, hr⟩ := killCrew_spec { s with team := { s.team with note := .trapped } } s.team.id.crew causeNest
    obtain ⟨hcause, hother⟩ := killCrew_crew { s with team := { s.team with note := .trapped } } s.team.id.crew causeNest
    exact ⟨hown rfl, killCrew_others_dead _ _ _, hcause, hother, killCrew_x _ _ _, hr, rfl⟩

/-- Settles O11: both words end in the return of R155, PRET once no PMAP of the team is in flight. -/
theorem returnFromException : Obligations.ReturnFromException := by
  unfold Obligations.ReturnFromException
  intro s m
  have hgo : pmapBusy s s.team.key = false → (if pmapBusy s s.team.key then .block s .pending else s.trapReturn) = s.trapReturn := fun h => by
    rw [h]; rfl
  refine ⟨fun hr h hp => runs_of_done (exec_tret s) hr (trapReturn_goes h hp), fun hr h => traps_of_trap (exec_tret s) hr (trapReturn_traps h),
    fun hr hb => waits_of_block (exec_pret s) hr (if_pos hb), fun hr hb => ⟨fun h hp => ?_, fun h => ?_⟩⟩
  · exact runs_of_done (exec_pret s) hr ((hgo hb).trans (trapReturn_goes h hp))
  · exact traps_of_trap (exec_pret s) hr ((hgo hb).trans (trapReturn_traps h))
end

section
/-! Scalar words (R138 to R141). -/

open Sys2Proof Sys2Proof.Machine

namespace Sys2Proof.Machine

/-! ### What the functions of the scalar words compute -/

/-- The result of SMIN of words of a kind. -/
def sMin (signed : Bool) (x y : W32) : W32 := if sLess signed y x then y else x

/-- The result of SMAX of words of a kind. -/
def sMax (signed : Bool) (x y : W32) : W32 := if sLess signed x y then y else x

/-- Of two words, the one that `lt` chooses is the one that its negation chooses from the other side. -/
theorem min_of_not_lt {lt le : Bool} (h : le = !lt) (x y : W32) : (if lt then y else x) = if le then x else y := by
  subst h; cases lt <;> rfl

/-- The larger of two words, whether equal words count as rising or not. -/
theorem max_of_lt {lt le : Bool} {x y : W32} (h : le = true ↔ lt = true ∨ x = y) : (if lt then y else x) = if le then y else x := by
  by_cases hlt : lt = true
  · rw [if_pos hlt, if_pos (h.mpr (.inl hlt))]
  · rw [if_neg hlt]
    split
    · exact (h.mp ‹_›).resolve_left hlt
    · rfl

theorem sle_iff_slt_or_eq (x y : W32) : x.sle y = true ↔ x.slt y = true ∨ x = y := by
  rw [BitVec.sle_iff_toInt_le, BitVec.slt_iff_toInt_lt, ← BitVec.toInt_inj, Int.le_iff_lt_or_eq]

theorem ule_iff_ult_or_eq (x y : W32) : x.ule y = true ↔ x.ult y = true ∨ x = y := by
  rw [BitVec.ule_iff_toNat_le, BitVec.ult_iff_toNat_lt, ← BitVec.toNat_inj, Nat.le_iff_lt_or_eq]

/-- A left shift is the product with a power of two, 0 by the width or more (R138). -/
theorem sShl_eq (x y : W32) : sShl x y = BitVec.ofNat 32 (x.toNat * 2 ^ y.toNat) := by
  unfold sShl
  split
  · exact BitVec.eq_of_toNat_eq (by simp [Nat.shiftLeft_eq])
  · rename_i h
    obtain ⟨k, hk⟩ := Nat.exists_eq_add_of_le (Nat.le_of_not_lt h)
    refine BitVec.eq_of_toNat_eq ?_
    rw [BitVec.toNat_ofNat, hk, Nat.pow_add, Nat.mul_left_comm, Nat.mul_mod_right]
    rfl

/-- A right shift with zero fill is the quotient by a power of two, 0 by the width or more (R138). -/
theorem sShr_eq (x y : W32) : sShr x y = BitVec.ofNat 32 (x.toNat / 2 ^ y.toNat) := by
  have hx := x.isLt
  unfold sShr
  split
  · exact BitVec.eq_of_toNat_eq (by
      rw [BitVec.toNat_ushiftRight, Nat.shiftRight_eq_div_pow, BitVec.toNat_ofNat, Nat.mod_eq_of_lt (Nat.lt_of_le_of_lt (Nat.div_le_self _ _) hx)])
  · rename_i h
    rw [Nat.div_eq_of_lt (Nat.lt_of_lt_of_le hx (Nat.pow_le_pow_right (by decide) (Nat.le_of_not_lt h)))]
    rfl

/-- Shifting an integer right divides it by a power of two, rounded down. -/
theorem int_shiftRight_eq (z : Int) (n : Nat) : z >>> n = z / 2 ^ n := by
  rw [Int.shiftRight_eq_div_pow]; norm_cast

/-- A right shift with sign fill is the quotient by a power of two, rounded down; the sign in every bit by the width or more (R138). -/
theorem sSra_eq (x y : W32) : sSra x y = BitVec.ofInt 32 (x.toInt / 2 ^ y.toNat) := by
  unfold sSra BitVec.sshiftRight
  rw [int_shiftRight_eq]
  split
  · rfl
  · rename_i h
    have hpow : (2 : Int) ^ 32 ≤ (2 : Int) ^ y.toNat := by exact_mod_cast Nat.pow_le_pow_right (by decide : 2 > 0) (Nat.le_of_not_lt h)
    have hlo := BitVec.le_two_mul_toInt (x := x)
    have hhi := BitVec.two_mul_toInt_lt (x := x)
    rcases lt_or_ge x.toInt 0 with hn | hn
    · rw [Int.ediv_eq_neg_one_of_neg_of_le hn (by omega), Int.ediv_eq_neg_one_of_neg_of_le hn (by omega)]
    · rw [Int.ediv_eq_zero_of_lt hn (by omega), Int.ediv_eq_zero_of_lt hn (by omega)]

/-- A shift whose count is the word's own five bits is a shift below the width (R141). -/
theorem sShl_count (x : W32) (n : BitVec 5) : sShl x (n.setWidth 32) = x <<< n.toNat := by
  have hn := n.isLt
  rw [sShl, BitVec.toNat_setWidth, Nat.mod_eq_of_lt (by omega), if_pos hn]

theorem sShr_count (x : W32) (n : BitVec 5) : sShr x (n.setWidth 32) = x >>> n.toNat := by
  have hn := n.isLt
  rw [sShr, BitVec.toNat_setWidth, Nat.mod_eq_of_lt (by omega), if_pos hn]

theorem sSra_count (x : W32) (n : BitVec 5) : sSra x (n.setWidth 32) = x.sshiftRight n.toNat := by
  have hn := n.isLt
  rw [sSra, BitVec.toNat_setWidth, Nat.mod_eq_of_lt (by omega), if_pos hn]

/-- The order that SCMP asks of its operands, by its type. -/
theorem sLess_eq (t : BitVec 3) (x y : W32) : sLess (t = 0) x y = if t = 0 then x.slt y else x.ult y := by
  by_cases h : t = 0 <;> simp [sLess, h]

/-- Division by zero (R139). -/
theorem sdivide_zero (signed : Bool) (x : W32) : sdivide signed x 0 = (0xFFFFFFFF, flagIDZ) := rfl

/-- The signed quotient that does not fit (R139). -/
theorem sdivide_overflow : sdivide true 0x80000000 0xFFFFFFFF = (0x80000000, flagOF) := rfl

/-- Every other signed quotient is rounded towards zero and raises nothing (R139). -/
theorem sdivide_signed {x y : W32} (hy : y ≠ 0) (h : ¬(x = 0x80000000 ∧ y = 0xFFFFFFFF)) :
    sdivide true x y = (BitVec.ofInt 32 (x.toInt.tdiv y.toInt), 0) := by
  have hq : (x.sdiv y).toInt = x.toInt.tdiv y.toInt := BitVec.toInt_sdiv_of_ne_or_ne x y (not_and_or.mp h)
  have hc : ¬(decide (x = 0x80000000) && decide (y = 0xFFFFFFFF)) = true := by simpa using h
  rw [sdivide, if_neg hy, if_pos rfl, if_neg hc, ← hq, BitVec.ofInt_toInt]

/-- An unsigned quotient by another word than 0 (R139). -/
theorem sdivide_unsigned {x y : W32} (hy : y ≠ 0) : sdivide false x y = (BitVec.ofNat 32 (x.toNat / y.toNat), 0) := by
  have hq : x.udiv y = BitVec.ofNat 32 (x.toNat / y.toNat) := by
    rw [BitVec.udiv_eq, ← BitVec.toNat_udiv, BitVec.ofNat_toNat, BitVec.setWidth_eq]
  rw [sdivide, if_neg hy, if_neg Bool.false_ne_true, hq]

/-! ### Words that write one scalar register -/

/-- A word whose whole effect is a scalar result is a scalar word. -/
theorem scalarWord_setS {i : Instr} {d : Nat} {f : Team → W32}
    (he : ∀ s, exec i s = runWord i s fun s => ok (s.mapTeam fun t => t.setS d (f t))) : ScalarWord i d f := by
  intro s hr
  obtain ⟨ho, hv⟩ := onlyScalars_setS s d (f s.team)
  exact ⟨_, runs_of_ok (he s) hr rfl, ho, hv⟩

/-- The same of a word with two scalar operands. -/
theorem scalarWord_sWord {i : Instr} {d a b : BitVec 6} {f : W32 → W32 → W32} (he : ∀ s, exec i s = sWord i d a b f s) :
    ScalarWord i d.toNat fun m => f (m.getS a.toNat) (m.getS b.toNat) := scalarWord_setS he

/-- A scalar word's function may be written in another way. -/
theorem ScalarWord.congr {i : Instr} {d : Nat} {f g : Team → W32} (h : ScalarWord i d f) (hfg : ∀ t, f t = g t) : ScalarWord i d g := by
  obtain rfl : f = g := funext hfg
  exact h

/-- The team that issues writes a pair of scalar registers from what it holds. -/
theorem onlyScalars_pair (s : State) (d : Nat) (f : Team → W64) : let s1 := s.mapTeam fun t => t.setS64 d (f t)
    OnlyScalars [d, d + 1] s s1 ∧ s1.team.sNow (d + 1) ++ s1.team.sNow d = f s.team := onlyScalars_setS64 s d (f s.team)

section
variable (s : State) (t k : BitVec 3) (d a b : BitVec 6)

theorem exec_ssel : exec (.ssel d a b) s = runWord (.ssel d a b) s fun s => ok (s.mapTeam fun t =>
    t.setS d.toNat (if t.getS d.toNat ≠ 0 then t.getS a.toNat else t.getS b.toNat)) := rfl

theorem exec_sdiv : exec (.sdiv t d a b) s = runWord (.sdiv t d a b) s fun s => ok (s.mapTeam fun tm =>
    let r := sdivide (t = 0) (tm.getS a.toNat) (tm.getS b.toNat)
    (tm.setS d.toNat r.1).raise r.2) := rfl

theorem exec_scmp : exec (.scmp t d a b k) s = runWord (.scmp t d a b k) s fun s => ok (s.mapTeam fun tm =>
    let x := tm.getS a.toNat
    let y := tm.getS b.toNat
    { tm.setS d.toNat (if scmpHolds k (sLess (t = 0) x y) (x == y) then 1 else 0) with scc := sccOf x y }) := rfl

theorem exec_sadd64 : exec (.sadd64 d a b) s = runWord (.sadd64 d a b) s fun s => ok (s.mapTeam fun t =>
    t.setS64 d.toNat (t.getS64 a.toNat + t.getS64 b.toNat)) := rfl

end

end Sys2Proof.Machine

/-- Settles O14: each scalar word writes its function of its operands, which is the arithmetic of R138 to R141. -/
theorem scalarWords : Obligations.ScalarWords := by
  unfold Obligations.ScalarWords
  refine ⟨⟨?_, ?_, ?_, ?_, ?_, ?_, ?_, ?_, ?_, ?_, ?_, ?_, ?_, ?_, ?_, ?_, ?_, ?_, ?_, ?_, ?_, ?_⟩, fun s d a b k => ⟨?_, ?_, ?_⟩⟩
  · exact fun t d a b => scalarWord_sWord (f := (· + ·)) fun _ => rfl
  · exact fun t d a b => scalarWord_sWord (f := (· - ·)) fun _ => rfl
  · exact fun t d a b => scalarWord_sWord (f := (· * ·)) fun _ => rfl
  · exact fun d a b => scalarWord_sWord (f := smulHigh true) fun _ => rfl
  · exact fun d a b => scalarWord_sWord (f := smulHigh false) fun _ => rfl
  · exact fun d a b => (scalarWord_sWord (f := sMin true) fun _ => rfl).congr fun _ => min_of_not_lt BitVec.sle_eq_not_slt _ _
  · exact fun d a b => (scalarWord_sWord (f := sMin false) fun _ => rfl).congr fun _ => min_of_not_lt (BitVec.ule_eq_not_ult _ _) _ _
  · exact fun d a b => (scalarWord_sWord (f := sMax true) fun _ => rfl).congr fun _ => max_of_lt (sle_iff_slt_or_eq _ _)
  · exact fun d a b => (scalarWord_sWord (f := sMax false) fun _ => rfl).congr fun _ => max_of_lt (ule_iff_ult_or_eq _ _)
  · exact fun d a b => scalarWord_sWord (f := (· &&& ·)) fun _ => rfl
  · exact fun d a b => scalarWord_sWord (f := (· ||| ·)) fun _ => rfl
  · exact fun d a b => scalarWord_sWord (f := (· ^^^ ·)) fun _ => rfl
  · exact fun d a b => (scalarWord_sWord (f := sShl) fun _ => rfl).congr fun _ => sShl_eq _ _
  · exact fun d a b => (scalarWord_sWord (f := sShr) fun _ => rfl).congr fun _ => sShr_eq _ _
  · exact fun d a b => (scalarWord_sWord (f := sSra) fun _ => rfl).congr fun _ => sSra_eq _ _
  · exact fun d a b => (scalarWord_setS fun s => exec_ssel s d a b).congr fun _ => ite_not _ _ _
  · exact fun d a => scalarWord_setS fun _ => rfl
  · exact fun d i => scalarWord_setS fun _ => rfl
  · exact fun d a i => scalarWord_setS fun _ => rfl
  · exact fun d a n => (scalarWord_setS (f := fun t => sShl (t.getS a.toNat) (n.setWidth 32)) fun _ => rfl).congr fun _ => sShl_count _ n
  · exact fun d a n => (scalarWord_setS (f := fun t => sShr (t.getS a.toNat) (n.setWidth 32)) fun _ => rfl).congr fun _ => sShr_count _ n
  · exact fun d a n => (scalarWord_setS (f := fun t => sSra (t.getS a.toNat) (n.setWidth 32)) fun _ => rfl).congr fun _ => sSra_count _ n
  · intro t hr
    refine ⟨_, _, _, runs_of_ok (exec_sdiv s t d a b) hr rfl, (onlyScalars_setS s d.toNat _).1, (onlyScalars_setS s d.toNat _).2, ?_, ?_, ?_⟩
    · intro hy
      rw [hy, sdivide_zero]; exact ⟨rfl, rfl⟩
    · rintro rfl hx hy
      rw [hx, hy]; exact ⟨rfl, rfl⟩
    · intro hy hfit
      by_cases ht : t = 0
      · rw [if_pos ht, decide_eq_true ht, sdivide_signed hy (hfit ht)]; exact ⟨rfl, rfl⟩
      · rw [if_neg ht, decide_eq_false ht, sdivide_unsigned hy]; exact ⟨rfl, rfl⟩
  · intro t hr
    refine ⟨_, runs_of_ok (exec_scmp s t k d a b) hr rfl, (onlyScalars_setS s d.toNat _).1, (onlyScalars_setS s d.toNat _).2.trans ?_⟩
    rw [sLess_eq]
  · intro hr
    obtain ⟨ho, hv⟩ := onlyScalars_pair s d.toNat fun t => t.getS64 a.toNat + t.getS64 b.toNat
    exact ⟨_, runs_of_ok (exec_sadd64 s d a b) hr rfl, ho, hv⟩
end

section
/-! Divergence: MARK, BRV, ELSE, JOIN and EXIT (R131, R137). -/

open Sys2Proof Sys2Proof.Machine

namespace Sys2Proof.Machine

/-! ### The join stack -/

/-- A word that needs an entry of the join stack traps without one. -/
theorem elseW_empty {s : State} (hr : s.ready .elseW) (h : s.team.join = []) :
    Traps .elseW s s { code := codeJoinUnf, val := s.team.wordVal .elseW } := by
  refine traps_of_trap (f := _) (show execElseW s = _ from rfl) hr ?_
  dsimp only
  rw [h]

theorem join_empty {s : State} (hr : s.ready .join) (h : s.team.join = []) :
    Traps .join s s { code := codeJoinUnf, val := s.team.wordVal .join } := by
  refine traps_of_trap (f := _) (show execJoin s = _ from rfl) hr ?_
  dsimp only
  rw [h]

/-- The team takes up the lanes left in OTHER of its top entry that live. -/
def State.takesUp (s : State) (e : JoinEntry) (r : List JoinEntry) : State :=
  { s with team := { s.team with m := e.other &&& s.team.live, join := { e with other := 0 } :: r } }

section
variable {s : State} {e : JoinEntry} {r : List JoinEntry} (hj : s.team.join = e :: r)
include hj

theorem elseW_takesUp (hr : s.ready .elseW) (h : e.other &&& s.team.live ≠ 0) : Runs .elseW s (s.takesUp e r) (.go e.opc) := by
  refine runs_of_done (f := _) (show execElseW s = _ from rfl) hr ?_
  dsimp only
  rw [hj]
  exact if_pos h

theorem elseW_passes (hr : s.ready .elseW) (h : e.other &&& s.team.live = 0) : Runs .elseW s s (.go e.rj) := by
  refine runs_of_done (f := _) (show execElseW s = _ from rfl) hr ?_
  dsimp only
  rw [hj]
  exact if_neg (not_not_intro h)

theorem join_takesUp (hr : s.ready .join) (h : e.other &&& s.team.live ≠ 0) : Runs .join s (s.takesUp e r) (.go e.opc) := by
  refine runs_of_done (f := _) (show execJoin s = _ from rfl) hr ?_
  dsimp only
  rw [hj]
  exact if_pos h

theorem join_pops (hr : s.ready .join) (h : e.other &&& s.team.live = 0) :
    Runs .join s { s with team := { s.team with m := e.save &&& s.team.live, join := r } } .next := by
  refine runs_of_done (f := _) (show execJoin s = _ from rfl) hr ?_
  dsimp only
  rw [hj]
  exact if_neg (not_not_intro h)

end

/-! ### BRV -/

/-- The lanes that BRV selects of M. -/
def Team.selects (t : Team) (n : BitVec 1) (p : BitVec 3) : Mask := t.mSrc &&& (if n = 1 then ~~~(t.getP p.toNat) else t.getP p.toNat)

section
variable {s : State} {n : BitVec 1} {p : BitVec 3} {o : BitVec 20} (hr : s.ready (.brv n p o))
include hr

theorem brv_all (h : s.team.selects n p = s.team.mSrc) : Runs (.brv n p o) s s (.go (s.team.target o)) :=
  runs_of_done (f := _) (show execBrv n p o s = _ from rfl) hr (if_pos h)

section
variable (hall : s.team.selects n p ≠ s.team.mSrc)
include hall

theorem brv_none (h : s.team.selects n p = 0) : Runs (.brv n p o) s s .next :=
  runs_of_done (f := _) (show execBrv n p o s = _ from rfl) hr ((if_neg hall).trans (if_pos h))

variable (hnone : s.team.selects n p ≠ 0)
include hnone

theorem brv_noEntry (h : s.team.join = []) : Traps (.brv n p o) s s { code := codeJoinDiv, val := s.team.wordVal (.brv n p o) } := by
  refine traps_of_trap (f := _) (show execBrv n p o s = _ from rfl) hr ((if_neg hall).trans ((if_neg hnone).trans ?_))
  rw [h]

theorem brv_usedEntry {e : JoinEntry} {r : List JoinEntry} (h : s.team.join = e :: r) (he : e.other ≠ 0) :
    Traps (.brv n p o) s s { code := codeJoinDiv, val := s.team.wordVal (.brv n p o) } := by
  refine traps_of_trap (f := _) (show execBrv n p o s = _ from rfl) hr ((if_neg hall).trans ((if_neg hnone).trans ?_))
  rw [h]
  exact if_pos he

theorem brv_splits {e : JoinEntry} {r : List JoinEntry} (h : s.team.join = e :: r) (he : e.other = 0) :
    Runs (.brv n p o) s { s with team := { s.team with
      m := s.team.selects n p, join := { e with other := s.team.m &&& ~~~(s.team.selects n p), opc := pcNext s.team.pc } :: r } }
      (.go (s.team.target o)) := by
  refine runs_of_done (f := _) (show execBrv n p o s = _ from rfl) hr ((if_neg hall).trans ((if_neg hnone).trans ?_))
  rw [h]
  exact if_neg (not_not_intro he)

end
end

/-! ### EXIT's loop over the stack -/

section
variable {live : Mask} (l : List JoinEntry)

/-- Entries that hold no live lane are passed over. -/
theorem exitLoop_append (hl : ∀ x ∈ l, x.other &&& live = 0 ∧ x.save &&& live = 0) (r : List JoinEntry) :
    exitLoop live (l ++ r) = exitLoop live r := by
  induction l with
  | nil => rfl
  | cons e l ih =>
    obtain ⟨ho, hs⟩ := hl e List.mem_cons_self
    rw [List.cons_append, exitLoop, if_neg (not_not_intro ho), if_neg (not_not_intro hs), ih fun x hx => hl x (List.mem_cons_of_mem _ hx)]

theorem exitLoop_gone (hl : ∀ x ∈ l, x.other &&& live = 0 ∧ x.save &&& live = 0) : exitLoop live l = (live, [], none) := by
  rw [← List.append_nil l, exitLoop_append l hl, exitLoop]

end

/-- What EXIT does while lanes live. -/
theorem exit_goesOn {s : State} (hr : s.ready .exit) {live m : Mask} {j : List JoinEntry} {a : Option W64}
    (hlive : s.team.live &&& ~~~s.team.mSrc = live)
    (h0 : live ≠ 0) (hx : exitLoop live s.team.join = (m, j, a)) :
    Runs .exit s { s with team := { s.team with live := live, m := m, join := j } } (a.elim .next .go) := by
  refine runs_of_done (f := _) (show execExit s = _ from rfl) hr ?_
  dsimp only
  rw [hlive, hx, if_neg h0]
  cases a <;> rfl

/-! ### The end of a team -/

theorem plainByte_setSpin (s : State) (d' : Nat) (x : Spindle) (d k pa : Nat) : plainByte (s.setSpin d' x) d k pa = plainByte s d k pa := by
  have hd : ((s.setSpin d' x).die d).l2 = (s.die d).l2 ∧ ((s.setSpin d' x).die d).fused = (s.die d).fused := by
    rw [State.setSpin, State.die_setDie]
    split
    · rename_i h; rw [h]; exact ⟨rfl, rfl⟩
    · exact ⟨rfl, rfl⟩
  exact plainByte_of_caches pa (fun _ => ⟨rfl, rfl⟩) hd.1 hd.2 rfl

theorem plainByte_sendOn (s : State) (d' dest job : Nat) (m : Nat → NetMsg) (d k pa : Nat) :
    plainByte (s.sendOn d' dest job m) d k pa = plainByte s d k pa := by
  rw [← plainByte_setSpin s d' ((s.spin d').number dest job true) d k pa]
  unfold State.sendOn State.send
  split <;> rfl

/-- Reservations that go back change no byte that a core reads. -/
theorem plainByte_returnResv (s : State) (key q d k pa : Nat) : plainByte (returnResv s key q) d k pa = plainByte s d k pa := by
  unfold returnResv
  dsimp only
  split
  · split
    · rfl
    · rw [plainByte_updTeam, plainByte_sendOn]
  · rw [plainByte_updTeam]

theorem plainByte_returnAll (s : State) (key d k pa : Nat) : plainByte (returnAll s key) d k pa = plainByte s d k pa :=
  foldl_same (fun u => plainByte u d k pa) (fun u (e : Nat × QReg) => returnResv u key e.1) (fun u e => plainByte_returnResv u key e.1 d k pa) _ s

/-- What an operation does with its leave leaves the team that issues. -/
theorem dropLeave_team (s : State) (d amps : Nat) (who : LeaveWho) (l : Leave) : (dropLeave s d amps who l).team = s.team := by
  rcases dropLeave_frame s d amps who l with h | ⟨a, p, h⟩
  · rw [h]
  · rw [h]
    rfl

/-- Giving back the leaves of some ray batches leaves the team that issues and what cores read. -/
theorem settleBatches_leaves (s : State) (c : Nat) :
    (settleBatches s c).team = s.team ∧ ∀ d k pa, plainByte (settleBatches s c) d k pa = plainByte s d k pa := by
  have hdrop : ∀ gone : List RayBatch, let u := gone.foldl (fun s b => dropLeave s (s.teamAt (teamKey c b.team)).id.die 3 (.rays c b.id) b.leave) s
      u.team = s.team ∧ ∀ d k pa, plainByte u d k pa = plainByte s d k pa := fun gone =>
    ⟨foldl_same State.team _ (fun u b => dropLeave_team u _ _ _ _) gone s,
      fun d k pa => foldl_same (fun u => plainByte u d k pa) _ (fun u b => (dropLeave_readsAlike u _ _ _ _).2.2.2 d k pa) gone s⟩
  unfold settleBatches
  dsimp only
  split
  · exact hdrop _
  · exact hdrop _

theorem plainByte_setCrew (s : State) (c : Nat) (v : Crew) (d k pa : Nat) : plainByte (s.setCrew c v) d k pa = plainByte s d k pa := rfl

theorem plainByte_completeBarriers (s : State) (c d k pa : Nat) : plainByte (completeBarriers s c) d k pa = plainByte s d k pa := rfl

/-- Ending the rays of a team leaves the team that issues and what cores read. -/
theorem dropRays_leaves (s : State) (c tno : Nat) :
    (dropRays s c tno).team = s.team ∧ ∀ d k pa, plainByte (dropRays s c tno) d k pa = plainByte s d k pa :=
  settleBatches_leaves (s.setCrew c _) c

/-- A team that has ended. -/
def Team.ended (t : Team) : Team :=
  { t with
    id := { t.id with alive := false }, clause := none, pfx := {}, live := 0, m := 0,
    q := t.q.map fun e => (e.1, e.2.endRays), dq := { t.dq with atEnd := t.id.quantum.isSome } }

theorem endTeam_eq (s : State) : let u := returnAll s s.team.key
    s.endTeam = completeBarriers (dropRays (u.mapTeam Team.ended) u.team.id.crew u.team.id.tno) u.team.id.crew := rfl

/-- A team that ends has no live lane, and no byte that a core reads changes. -/
theorem endTeam_leaves (s : State) : s.endTeam.team.id.alive = false ∧ s.endTeam.team.live = 0 ∧
    ∀ d k pa, plainByte s.endTeam d k pa = plainByte s d k pa := by
  rw [endTeam_eq]
  generalize hu : returnAll s s.team.key = u
  obtain ⟨ht, hb⟩ := dropRays_leaves (u.mapTeam Team.ended) u.team.id.crew u.team.id.tno
  generalize dropRays (u.mapTeam Team.ended) u.team.id.crew u.team.id.tno = v at ht hb
  have hteam : (completeBarriers v u.team.id.crew).team = u.team.ended := ht
  refine ⟨by rw [hteam]; rfl, by rw [hteam]; rfl, fun d k pa => ?_⟩
  rw [plainByte_completeBarriers, hb, plainByte_mapTeam, ← hu, plainByte_returnAll]

end Sys2Proof.Machine

/-- Settles O16: each word by the case of R137 that it meets. -/
theorem divergenceWords : Obligations.DivergenceWords := by
  unfold Obligations.DivergenceWords
  intro s t
  refine ⟨fun o hr => ⟨fun h => ?_, fun h => ?_⟩, fun n p o hr => ⟨brv_all hr, brv_none hr, fun hall hnone => ?_⟩, fun h => ?_,
    fun e r hj => ⟨fun h => ?_, fun h => ?_⟩⟩
  · exact runs_of_ok (f := _) (show execMark o s = _ from rfl) hr (if_neg (Nat.not_le.mpr h))
  · exact traps_of_trap (f := _) (show execMark o s = _ from rfl) hr (if_pos h)
  · exact ⟨brv_noEntry hr hall hnone, fun e r h => ⟨brv_usedEntry hr hall hnone h, brv_splits hr hall hnone h⟩⟩
  · exact ⟨fun hr => elseW_empty hr h, fun hr => join_empty hr h⟩
  · exact ⟨fun hr => elseW_takesUp hj hr h, fun hr => join_takesUp hj hr h⟩
  · exact ⟨fun hr => elseW_passes hj hr h, fun hr => join_pops hj hr h⟩

/-- Settles O17: while lanes live the loop over the join stack says where they go on; the last lane ends the team. -/
theorem exitEndsLanes : Obligations.ExitEndsLanes := by
  unfold Obligations.ExitEndsLanes
  intro s hr t live gone
  refine ⟨fun h0 hg => exit_goesOn hr rfl h0 (exitLoop_gone _ hg), fun l e r h0 hj hl => ⟨fun he => ?_, fun he hs => ?_⟩, fun h0 => ?_⟩
  · refine exit_goesOn hr rfl h0 (a := some e.opc) ?_
    show exitLoop live t.join = _
    rw [hj, exitLoop_append l hl, exitLoop, if_pos he]
  · refine exit_goesOn hr rfl h0 (a := some e.rj) ?_
    show exitLoop live t.join = _
    rw [hj, exitLoop_append l hl, exitLoop, if_neg (not_not_intro he), if_pos hs]
  · exact ⟨s.endTeam, runs_of_done (f := _) (show execExit s = _ from rfl) hr (if_pos h0), endTeam_leaves s⟩
end

section
/-! Words between lanes and the team (R142). -/

open Sys2Proof Sys2Proof.Machine

namespace Sys2Proof.Machine

section
variable {s : State} {d b : BitVec 6} {a : BitVec 7} (hr : s.ready (.slane d b a))
include hr

/-- SLANE of a lane beyond the width. -/
theorem slane_beyond (hw : s.team.id.width ≤ (s.team.getS b.toNat).toNat) : Runs (.slane d b a) s (s.mapTeam fun t => t.setS d.toNat 0) .next :=
  runs_of_ok (f := _) (show execSlane d b a s = _ from rfl) hr (if_pos hw)

/-- SLANE of a lane that is neither pending nor marked. -/
theorem slane_reads (hl : (s.team.getS b.toNat).toNat < s.team.id.width) (hp : vPending s.team [(s.team.getS b.toNat).toNat / 32] a.toNat = false)
    (hm : laneMark s.team [a.toNat] (s.team.getS b.toNat).toNat = none) :
    Runs (.slane d b a) s (s.mapTeam fun t => t.setS d.toNat (t.getV a.toNat (s.team.getS b.toNat).toNat)) .next := by
  refine runs_of_ok (f := _) (show execSlane d b a s = _ from rfl) hr ((if_neg (Nat.not_le.mpr hl)).trans ((if_neg ?_).trans ?_))
  · rw [hp]
    exact Bool.false_ne_true
  · rw [hm]

end

theorem exec_voteAny (s : State) (d : BitVec 6) (p : BitVec 3) : exec (.voteAny d p) s = runWord (.voteAny d p) s fun s =>
    ok (s.mapTeam fun t => t.setS d.toNat (if t.mSrc &&& t.getP p.toNat ≠ 0 then 1 else 0)) := rfl

theorem exec_voteBallot (s : State) (d a : BitVec 6) (p : BitVec 3) : exec (.voteBallot d a p) s = runWord (.voteBallot d a p) s fun s =>
    ok (s.mapTeam fun t => t.setS d.toNat
      (if (t.id.width + 31) / 32 ≤ (t.getS a.toNat).toNat then 0 else maskWord (t.mSrc &&& t.getP p.toNat) (t.getS a.toNat).toNat)) := rfl

end Sys2Proof.Machine

/-- Settles O18: SLANE by the lane that it names; the others write one value of the team, or of each lane. -/
theorem crossLaneWords : Obligations.CrossLaneWords := by
  unfold Obligations.CrossLaneWords
  refine ⟨fun d b a s hr => ⟨fun hw => ?_, fun hl hp hm => ?_⟩, fun a d => ?_, fun d p => ?_, fun d p => ?_, fun d a p => ?_, fun d p => ?_⟩
  · exact ⟨_, slane_beyond hr hw, onlyScalars_setS s d.toNat 0⟩
  · exact ⟨_, slane_reads hr hl hp hm, onlyScalars_setS s d.toNat (s.team.getV a.toNat (s.team.getS b.toNat).toNat)⟩
  · exact vecWord_lane _ _ _ (fun t _ => ((t.getS a.toNat).toNat, 0)) fun s => rfl
  · exact (scalarWord_setS fun s => exec_voteAny s d p).congr fun _ => ite_not _ _ _
  · exact scalarWord_setS fun s => rfl
  · refine (scalarWord_setS fun s => exec_voteBallot s d a p).congr fun t => ?_
    simp only [← Nat.not_lt, ite_not]
  · exact scalarWord_setS fun s => rfl
end

section
/-! Class, system registers, TRAP and TFENCE (R153, R155, R157 to R159). -/

open Sys2Proof Sys2Proof.Machine

namespace Sys2Proof.Machine

/-! ### Numbers of concatenated and cut words -/

theorem toNat_append_eq {n m : Nat} (a : BitVec n) (b : BitVec m) : (a ++ b).toNat = a.toNat * 2 ^ m + b.toNat := by
  rw [BitVec.toNat_append, ← Nat.shiftLeft_add_eq_or_of_lt b.isLt, Nat.shiftLeft_eq]

/-- A word whose number is below its width's bound, in 64 bits. -/
theorem setWidth_64_eq {n : Nat} (a : BitVec n) : a.setWidth 64 = BitVec.ofNat 64 a.toNat :=
  BitVec.eq_of_toNat_eq (by rw [BitVec.toNat_setWidth, BitVec.toNat_ofNat])

/-- Two words side by side, in 64 bits. -/
theorem append_64_eq {n m : Nat} (a : BitVec n) (b : BitVec m) : (a ++ b).setWidth 64 = BitVec.ofNat 64 (a.toNat * 2 ^ m + b.toNat) := by
  rw [setWidth_64_eq, toNat_append_eq]

/-- The low bits of a word, in 64 bits. -/
theorem setWidth_low (v : W64) {n : Nat} (hn : n ≤ 64) : (v.setWidth n).setWidth 64 = v &&& BitVec.ofNat 64 (2 ^ n - 1) := by
  refine BitVec.eq_of_toNat_eq ?_
  have hp : 2 ^ n ≤ 2 ^ 64 := Nat.pow_le_pow_right (by decide) hn
  have hpos : 0 < 2 ^ n := Nat.two_pow_pos n
  have hv : v.toNat % 2 ^ n < 2 ^ n := Nat.mod_lt _ hpos
  rw [BitVec.toNat_setWidth, BitVec.toNat_setWidth, BitVec.toNat_and, BitVec.toNat_ofNat, Nat.mod_eq_of_lt (by omega : 2 ^ n - 1 < 2 ^ 64),
    Nat.and_two_pow_sub_one_eq_mod, Nat.mod_eq_of_lt (by omega : v.toNat % 2 ^ n < 2 ^ 64)]

theorem maskWord_64 (m : Mask) (k : Nat) : (maskWord m k).setWidth 64 = BitVec.ofNat 64 (m.toNat / 2 ^ (32 * k) % 2 ^ 32) := by
  rw [setWidth_64_eq, maskWord, BitVec.toNat_setWidth, BitVec.toNat_ushiftRight, Nat.shiftRight_eq_div_pow]

/-! ### What SYSW leaves (R158, R159) -/

/-- The registers that SYSW may write. -/
def sysWritable : List Nat := [0x006, 0x007, 0x008, 0x00A, 0x010, 0x012, 0x100, 0x102, 0x140, 0x142, 0x144, 0x145]

/-- A write of another register changes nothing. -/
theorem sysWrite_readOnly (t : Team) {n : Nat} (v : W64) (h : n ∉ sysWritable) : sysWrite t n v = t := by
  unfold sysWrite
  split
  case h_13 => rfl
  all_goals exact absurd (by decide) h

theorem sysWrite_undoLen (t : Team) (v : W64) :
    sysWrite t 0x144 v = { t with dbg := { t.dbg with len := if undoLenOk (v.setWidth 32) then v.setWidth 32 else 4096 } } := rfl

theorem undoLenOk_iff (v : W32) : undoLenOk v = true ↔ ∃ k, 12 ≤ k ∧ k ≤ 31 ∧ v.toNat = 2 ^ k := by
  simp only [undoLenOk, List.any_eq_true, List.mem_range, beq_iff_eq]
  constructor
  · rintro ⟨k, hk, h⟩
    exact ⟨k + 12, by omega, by omega, h⟩
  · rintro ⟨k, h1, h2, h⟩
    exact ⟨k - 12, by omega, by rw [h]; congr 1; omega⟩

/-- DEBUGCTL as it reads after a write: UFLT, UNDO and STEP in bits 2 to 0. -/
theorem debugCtl_eq (u : Bool) (v : W64) : (BitVec.ofBool u ++ BitVec.ofBool (v.getLsbD 1) ++ BitVec.ofBool (v.getLsbD 0)).setWidth 64 =
    (v &&& 0x3) ||| (if u then 4 else 0) := by
  have hv : v.setWidth 2 = BitVec.ofBool (v.getLsbD 1) ++ BitVec.ofBool (v.getLsbD 0) := by
    refine BitVec.eq_of_getLsbD_eq fun i hi => ?_
    rw [BitVec.getLsbD_setWidth, BitVec.getLsbD_append]
    match i, hi with
    | 0, _ => simp
    | 1, _ => simp
  have hbits : ∀ u b c : Bool, (BitVec.ofBool u ++ BitVec.ofBool b ++ BitVec.ofBool c).setWidth 64 =
      (BitVec.ofBool b ++ BitVec.ofBool c).setWidth 64 ||| (if u then 4#64 else 0) := by decide
  rw [hbits, ← hv, setWidth_low v (by decide)]
  rfl

/-! ### What SYSR reads (R158, R159) -/

section
variable (s : State) {k : Nat} (hk : k < 32)
include hk

theorem sysRead_m : sysRead s (0x020 + k) = (if k < (s.team.id.width + 31) / 32 then maskWord s.team.mSrc k else 0).setWidth 64 := by
  have h : (decide (0x020 ≤ 0x020 + k) && decide (0x020 + k < 0x040)) = true := by simp; omega
  unfold sysRead
  dsimp only
  rw [if_pos h, Nat.add_sub_cancel_left]

theorem sysRead_live : sysRead s (0x040 + k) = (if k < (s.team.id.width + 31) / 32 then maskWord s.team.live k else 0).setWidth 64 := by
  have h0 : ¬(decide (0x020 ≤ 0x040 + k) && decide (0x040 + k < 0x040)) = true := by simp
  have h : (decide (0x040 ≤ 0x040 + k) && decide (0x040 + k < 0x060)) = true := by simp; omega
  unfold sysRead
  dsimp only
  rw [if_neg h0, if_pos h, Nat.add_sub_cancel_left]

theorem sysRead_xmask : sysRead s (0x120 + k) = (maskWord s.team.x.xmask k).setWidth 64 := by
  have h0 : ¬(decide (0x020 ≤ 0x120 + k) && decide (0x120 + k < 0x040)) = true := by simp; omega
  have h1 : ¬(decide (0x040 ≤ 0x120 + k) && decide (0x120 + k < 0x060)) = true := by simp; omega
  have h : (decide (0x120 ≤ 0x120 + k) && decide (0x120 + k < 0x140)) = true := by simp; omega
  unfold sysRead
  dsimp only
  rw [if_neg h0, if_neg h1, if_pos h, Nat.add_sub_cancel_left]

end

/-- The scratchpad fault register: VALID and WR in its two highest bits, the offset in its lowest. -/
theorem spFault_64 (x : SpFault) : (BitVec.ofBool x.valid ++ BitVec.ofBool x.wr ++ 0#12 ++ x.off).setWidth 64 =
    BitVec.ofNat 64 (x.off.toNat + (if x.wr then 2 ^ 30 else 0) + if x.valid then 2 ^ 31 else 0) := by
  rw [append_64_eq, toNat_append_eq, toNat_append_eq]
  congr 1
  cases x.valid <;> cases x.wr <;> simp <;> omega

/-- A word with one bit set. -/
theorem getLsbD_one_shiftLeft {w k j : Nat} (hj : j < w) : (1#w <<< k).getLsbD j = decide (j = k) := by
  rw [BitVec.getLsbD_shiftLeft, BitVec.getLsbD_one]
  by_cases e : j = k
  · simp [e, e ▸ hj]
    exact Nat.zero_lt_of_lt hj
  · simp [e]
    omega

theorem getLsbD_foldl_or (l : List Nat) (m : W64) {j : Nat} (hj : j < 64) :
    (l.foldl (fun m k => m ||| (1#64 <<< k)) m).getLsbD j = (m.getLsbD j || decide (j ∈ l)) := by
  induction l generalizing m with
  | nil => simp
  | cons k l ih =>
    rw [List.foldl_cons, ih, BitVec.getLsbD_or, getLsbD_one_shiftLeft hj, Bool.or_assoc, ← Bool.decide_or]
    simp only [List.mem_cons]

theorem mem_maskWords {w : Nat} {m : Mask} {k : Nat} : k ∈ maskWords w m ↔ k < (w + 31) / 32 ∧ m.toNat / 2 ^ (32 * k) % 2 ^ 32 ≠ 0 := by
  have hz : maskWord m k = 0 ↔ m.toNat / 2 ^ (32 * k) % 2 ^ 32 = 0 := by
    rw [← BitVec.toNat_inj, maskWord, BitVec.toNat_setWidth, BitVec.toNat_ushiftRight, Nat.shiftRight_eq_div_pow]; rfl
  simp only [maskWords, List.mem_filter, List.mem_range, decide_eq_true_eq, ne_eq, hz]

/-- COREID of a core of a die: its number in the package. -/
theorem coreId_die {t : Team} (h : t.id.core < 40) (hd : t.id.die < 8) : (coreId t).setWidth 64 = BitVec.ofNat 64 (t.id.die * 40 + t.id.core) := by
  have hc : ¬t.onControl = true := by simp [Team.onControl]; omega
  rw [setWidth_64_eq, coreId, if_neg hc, BitVec.toNat_ofNat, Nat.mod_eq_of_lt (by omega)]

/-- COREID of a control core: its number among the control cores, with CTL. -/
theorem coreId_control {t : Team} (h : 40 ≤ t.id.core) (h' : t.id.core < 48) (hd : t.id.die < 8) :
    (coreId t).setWidth 64 = BitVec.ofNat 64 (2 ^ 31 + t.id.die * 8 + (t.id.core - 40)) := by
  have hc : t.onControl = true := by simp [Team.onControl]; omega
  have hn : t.id.die * 8 + (t.id.core - 40) < 2 ^ 31 := by omega
  have ho : (0x80000000#32 ||| BitVec.ofNat 32 (t.id.die * 8 + (t.id.core - 40))).toNat = 2 ^ 31 + (t.id.die * 8 + (t.id.core - 40)) := by
    rw [BitVec.toNat_or, BitVec.toNat_ofNat, BitVec.toNat_ofNat, Nat.mod_eq_of_lt (by omega : t.id.die * 8 + (t.id.core - 40) < 2 ^ 32)]
    exact (Nat.two_pow_add_eq_or_of_lt hn 1).symm
  rw [setWidth_64_eq, coreId, if_pos hc, ho, Nat.add_assoc]

/-! ### TFENCE -/

/-- No operation of a team has a property. -/
theorem noneOfTeam {s : State} {p : OpKind → Bool} (h : ∀ o ∈ s.ops, o.team = s.team.key → p o.kind = false) :
    ¬(s.ops.any fun o => o.team = s.team.key && p o.kind) = true := by
  rw [Bool.not_eq_true, List.any_eq_false]
  intro o ho
  by_cases hk : o.team = s.team.key
  · simp [h o ho hk]
  · simp [hk]

section
variable {s : State} (hr : s.ready .tfence) (hd : ∀ o ∈ s.ops, o.team = s.team.key → o.kind.isDeferred = false)
include hr hd

/-- TFENCE waits for an operation that can set a flag. -/
theorem tfence_waits {o : Op} (ho : o ∈ s.ops) (hk : o.team = s.team.key) (hs : o.kind.setsFlags = true) : Waits .tfence s s .fence := by
  refine waits_of_block (f := _) (show execTfence s = _ from rfl) hr ((if_neg (noneOfTeam hd)).trans (if_pos ?_))
  rw [Bool.or_eq_true, List.any_eq_true]
  exact .inl ⟨o, ho, by simp [hk, hs]⟩

variable (hf : ∀ o ∈ s.ops, o.team = s.team.key → o.kind.setsFlags = false) (hg : gangBusy s s.team.id.crew s.team.id.tno = false)
  (hred : s.team.eng.redErr = none)
include hf hg hred

/-- With nothing in flight that can set a flag, the enabled flags decide. -/
theorem tfence_passes (h : s.team.asticky &&& s.team.aenable = 0) : Runs .tfence s s .next := by
  refine runs_of_ok (f := _) (show execTfence s = _ from rfl) hr ((if_neg (noneOfTeam hd)).trans ((if_neg ?_).trans ?_))
  · rw [hg, Bool.or_false]
    exact noneOfTeam hf
  · rw [hred]
    exact if_neg (not_not_intro h)

theorem tfence_raises (h : s.team.asticky &&& s.team.aenable ≠ 0) :
    Traps .tfence s s { code := codeArith, val := (s.team.asticky &&& s.team.aenable).setWidth 64 } := by
  refine traps_of_trap (f := _) (show execTfence s = _ from rfl) hr ((if_neg (noneOfTeam hd)).trans ((if_neg ?_).trans ?_))
  · rw [hg, Bool.or_false]
    exact noneOfTeam hf
  · rw [hred]
    exact if_pos h

end

end Sys2Proof.Machine

/-- Settles O19: the words by their effects, the registers one by one. -/
theorem classSystemRegistersAndTraps : Obligations.ClassSystemRegistersAndTraps := by
  unfold Obligations.ClassSystemRegistersAndTraps
  refine ⟨fun s => ⟨fun k hr => ?_, fun hr => ?_, fun d n hr => ?_, fun a n hr => ?_, fun k hr => ?_⟩, fun s v => ?_, fun s => ?_,
    fun s hr hd => ⟨?_, fun hf hg hred => ?_⟩⟩
  · exact runs_of_ok (f := _) (show execPrio k s = _ from rfl) hr rfl
  · exact runs_of_ok (f := _) (show execYield s = _ from rfl) hr rfl
  · by_cases hw : sysWide n.toNat = true
    · obtain ⟨ho, hv⟩ := onlyScalars_pair s d.toNat fun _ => sysRead s n.toNat
      refine ⟨_, runs_of_ok (f := _) (show execSysr d n s = _ from rfl) hr ?_, fun h => absurd hw (by simp [h]), fun _ => ⟨ho, hv⟩⟩
      simp only [hw, if_true]
    · obtain ⟨ho, hv⟩ := onlyScalars_setS s d.toNat ((sysRead s n.toNat).setWidth 32)
      refine ⟨_, runs_of_ok (f := _) (show execSysr d n s = _ from rfl) hr ?_, fun _ => ⟨ho, hv⟩, fun h => absurd h hw⟩
      simp only [hw]
      rfl
  · exact runs_of_ok (f := _) (show execSysw a n s = _ from rfl) hr rfl
  · exact runs_of_done (f := _) (show execTrap k s = _ from rfl) hr rfl
  · intro t w back
    refine ⟨⟨rfl, rfl⟩, ⟨rfl, setWidth_low v (n := 7) (by decide)⟩, ⟨rfl, setWidth_low v (n := 3) (by decide)⟩,
      ⟨rfl, setWidth_low v (n := 32) (by decide)⟩, ⟨rfl, rfl⟩, ⟨rfl, setWidth_low v (n := 16) (by decide)⟩, ⟨rfl, rfl⟩, ⟨rfl, rfl⟩,
      ⟨rfl, debugCtl_eq _ v⟩, ⟨rfl, rfl⟩, fun h => ?_, fun h => ?_, ⟨rfl, ?_⟩, fun n hn => ?_, fun k hk => ⟨?_, ?_, ?_⟩⟩
    · have hok := (undoLenOk_iff _).mpr h
      refine ⟨(sysWrite_undoLen t v).trans (by rw [if_pos hok]), ?_⟩
      show (sysWrite t 0x144 v).dbg.len.setWidth 64 = _
      rw [sysWrite_undoLen, if_pos hok]
      exact setWidth_low v (n := 32) (by decide)
    · have hok := fun e => h ((undoLenOk_iff _).mp e)
      refine ⟨(sysWrite_undoLen t v).trans (by rw [if_neg hok]), ?_⟩
      show (sysWrite t 0x144 v).dbg.len.setWidth 64 = _
      rw [sysWrite_undoLen, if_neg hok]
      rfl
    · show (v.setWidth 32 &&& ~~~0xF#32).setWidth 64 = _
      rw [BitVec.setWidth_and, setWidth_low v (by decide), BitVec.and_assoc]
      rfl
    · exact sysWrite_readOnly t v (by revert n; decide)
    · exact sysWrite_readOnly t v (by simp [sysWritable]; omega)
    · exact sysWrite_readOnly t v (by simp [sysWritable]; omega)
    · exact sysWrite_readOnly t v (by simp [sysWritable]; omega)
  · intro t r
    refine ⟨rfl, rfl, rfl, ?_, fun h hd => coreId_die h hd, fun h h' hd => coreId_control h h' hd, ?_, ?_, rfl, rfl, rfl, ?_,
      fun k hk => ⟨fun h => ⟨?_, ?_⟩, fun h => ⟨?_, ?_⟩, ?_⟩, fun hw k hk => ?_⟩
    · exact (setWidth_64_eq (BitVec.ofNat 32 _)).trans (congrArg (BitVec.ofNat 64) (BitVec.toNat_ofNat _ _))
    · exact append_64_eq t.id.ceil t.cls
    · exact spFault_64 t.sp
    · exact append_64_eq t.x.detail t.x.code
    · show sysRead s (0x020 + k) = _
      rw [sysRead_m s hk, if_pos h, maskWord_64]
    · show sysRead s (0x040 + k) = _
      rw [sysRead_live s hk, if_pos h, maskWord_64]
    · show sysRead s (0x020 + k) = _
      rw [sysRead_m s hk, if_neg (Nat.not_lt.mpr h)]; rfl
    · show sysRead s (0x040 + k) = _
      rw [sysRead_live s hk, if_neg (Nat.not_lt.mpr h)]; rfl
    · show sysRead s (0x120 + k) = _
      rw [sysRead_xmask s hk, maskWord_64]
    · refine (getLsbD_foldl_or (maskWords t.id.width t.mSrc) 0 hk).trans ?_
      rw [show (0 : W64).getLsbD k = false from BitVec.getLsbD_zero, Bool.false_or, decide_eq_decide.mpr mem_maskWords]
  · exact fun ⟨o, ho, hk, hs⟩ => tfence_waits hr hd ho hk hs
  · exact ⟨tfence_passes hr hd hf hg hred, tfence_raises hr hd hf hg hred⟩
end

section
/-! Barriers (R146, R147). -/

open Sys2Proof Sys2Proof.Machine

namespace Sys2Proof.Machine

/-! ### Releases and acquires of a crew's own scope -/

/-- The scope of the domain that the crew of the team that issues is bound to means itself. -/
theorem meant_scope (s : State) : s.meant s.team.key (s.crew s.team.id.crew).scope = (s.crew s.team.id.crew).scope := by
  rw [State.meant, teamAt_own, Crew.means, ite_self]

/-- A release below POD with no access in flight goes on at once. -/
theorem withRelease_goesOn {s : State} {sc : Nat} (k : State → Res) (hb : memBusy s s.team.key = false) (hn : s.meant s.team.key sc < 5) :
    withRelease s sc k = k (s.releaseTeam sc) := by
  unfold withRelease
  dsimp only
  rw [hb, if_neg Bool.false_ne_true, if_neg (Nat.not_le.mpr hn)]

theorem onlyMemory_releaseTeam (s : State) (sc : Nat) : OnlyMemory s (s.releaseTeam sc) := by
  rw [releaseTeam_eq]
  exact onlyMemory_releaseAt _ _ _ _

theorem onlyMemory_acquireTeam (s : State) (sc : Nat) : OnlyMemory s (s.acquireTeam sc) := by
  rw [acquireTeam_eq]
  exact onlyMemory_acquireAt _ _ _ _

theorem OnlyMemory.liveTeams {s u : State} (h : OnlyMemory s u) (c : Nat) : u.liveTeams c = s.liveTeams c := by
  obtain ⟨⟨_, _, _, _, _, rfl⟩, -, -⟩ := h; rfl

/-! ### A phase of a barrier -/

/-- Every live team has arrived in a barrier's phase, and some team has. -/
def Barrier.complete (live : List Nat) (x : Barrier) : Bool := x.arrived ≠ [] && live.all (x.arrived.contains ·)

/-- The next phase of a barrier. -/
def Barrier.next (x : Barrier) : Barrier := { phase := x.phase + 1, arrived := [] }

/-- A barrier after its phase completes, where it does. -/
def Barrier.settle (live : List Nat) (x : Barrier) : Barrier := if x.complete live then x.next else x

/-- The barriers of a list whose phase completes, put into a table. -/
def settleAll (live : List Nat) (l m : SMap Barrier) : SMap Barrier :=
  l.foldl (fun m e => if e.2.complete live then smSet {} m e.1 e.2.next else m) m

theorem completeBarriers_eq (s : State) (c : Nat) : completeBarriers s c = { s.setCrew c { s.crew c with
    barriers := settleAll (s.liveTeams c) (s.crew c).barriers (s.crew c).barriers } with progress := s.progress + 1 } := rfl

/-- What stands at a key of the table, when the list holds one barrier there or none. -/
theorem settleAll_get (live : List Nat) (b : Nat) (x : Barrier) (l m : SMap Barrier) (hl : ∀ e ∈ l, e.1 = b → e.2 = x) :
    smGet {} (settleAll live l m) b = if x.complete live = true ∧ ∃ e ∈ l, e.1 = b then x.next else smGet {} m b := by
  induction l generalizing m with
  | nil => simp [settleAll]
  | cons e l ih =>
    have hstep : smGet {} (if e.2.complete live then smSet {} m e.1 e.2.next else m) b =
        if x.complete live = true ∧ e.1 = b then x.next else smGet {} m b := by
      by_cases hb : e.1 = b
      · rw [hl e List.mem_cons_self hb, hb]
        by_cases hx : x.complete live = true <;> simp [hx]
      · have hb' : ¬b = e.1 := fun h => hb h.symm
        split <;> simp [hb, hb']
    show smGet {} (settleAll live l _) b = _
    rw [ih _ fun y hy => hl y (List.mem_cons_of_mem _ hy), hstep]
    simp only [List.exists_mem_cons_iff]
    split <;> split <;> simp_all

/-- A write of a value that is not the default is the one entry of its key. -/
theorem mem_smSet_key {β : Type} [DecidableEq β] {d : β} (m : SMap β) (k : Nat) {v : β} (hv : v ≠ d) :
    (k, v) ∈ smSet d m k v ∧ ∀ e ∈ smSet d m k v, e.1 = k → e.2 = v := by
  rw [smSet, if_neg hv]
  refine ⟨(mem_smPut _ _ _ _).mpr (.inl rfl), fun e he hk => ?_⟩
  rcases (mem_smPut _ _ _ _).mp he with rfl | he
  · rfl
  · exact absurd hk (smDel_key m k e he)

/-- A barrier with one more team arrived. -/
def Barrier.arrive (x : Barrier) (n : Nat) : Barrier := { x with arrived := x.arrived ++ [n] }

theorem Barrier.arrive_complete (x : Barrier) (n : Nat) (live : List Nat) :
    (x.arrive n).complete live = true ↔ ∀ k ∈ live, k = n ∨ k ∈ x.arrived := by
  simp [Barrier.complete, Barrier.arrive, or_comm]

/-- An arrival at a barrier changes the crew's barriers; at that one the team has arrived, and the phase completes when it was the last. -/
theorem arriveAt_spec (s : State) (c b n : Nat) : let u := arriveAt s c b n; let x := (s.crew c).barrier b
    u.team = s.team ∧ (∃ m, u.crew c = { s.crew c with barriers := m }) ∧ (u.crew c).barrier b = (x.arrive n).settle (s.liveTeams c) := by
  intro u x
  have hne : x.arrive n ≠ {} := fun h => by simpa [Barrier.arrive] using congrArg Barrier.arrived h
  let m := smSet {} (s.crew c).barriers b (x.arrive n)
  obtain ⟨hmem, huniq⟩ := mem_smSet_key (s.crew c).barriers b hne
  have hu : u = completeBarriers (s.setCrew c { s.crew c with barriers := m }) c := rfl
  have hcrew : u.crew c = { s.crew c with barriers := settleAll (s.liveTeams c) m m } := by
    rw [hu, completeBarriers_eq, State.crew_setCrew, if_pos rfl]
    show (State.setCrew _ c _).crew c = _
    rw [State.crew_setCrew, if_pos rfl]
    rfl
  refine ⟨rfl, ⟨_, hcrew⟩, ?_⟩
  rw [hcrew]
  show smGet {} (settleAll (s.liveTeams c) m m) b = _
  rw [settleAll_get _ b _ m m huniq, Barrier.settle]
  by_cases h : (x.arrive n).complete (s.liveTeams c) = true
  · rw [if_pos h, if_pos ⟨h, _, hmem, rfl⟩]
  · rw [if_neg h, if_neg fun e => h e.1, smGet_smSet, if_pos rfl]

/-- The barrier completes, its last team having arrived. -/
theorem settle_last {x : Barrier} {n : Nat} {live : List Nat} (h : ∀ k ∈ live, k = n ∨ k ∈ x.arrived) :
    (x.arrive n).settle live = { phase := x.phase + 1, arrived := [] } := if_pos ((x.arrive_complete n live).mpr h)

/-- The barrier stays in its phase while a team has not arrived. -/
theorem settle_notLast {x : Barrier} {n : Nat} {live : List Nat} (h : ¬∀ k ∈ live, k = n ∨ k ∈ x.arrived) :
    (x.arrive n).settle live = x.arrive n := if_neg fun e => h ((x.arrive_complete n live).mp e)

/-! ### ARRIVE, AWAIT and BAR -/

theorem Team.arr_setArr (t : Team) (k : Nat) (v : Option Nat) : (t.setArr k v).arr k = v := by
  simp [Team.arr, Team.setArr]

section
variable {s : State} (hb : memBusy s s.team.key = false) (hs : (s.crew s.team.id.crew).scope < 5)
include hb hs

/-- The release of a barrier word goes on, from a state that differs in caches and memory alone. -/
theorem barrierRelease (k : State → Res) : ∃ u, OnlyMemory s u ∧ withRelease s (s.crew s.team.id.crew).scope k = k u :=
  ⟨_, onlyMemory_releaseTeam _ _, withRelease_goesOn k hb (by rwa [meant_scope])⟩

/-- ARRIVE of a team that has not arrived in the phase. -/
theorem arrive_runs {d : BitVec 6} {b : BitVec 4} (hr : s.ready (.arrive d b)) : let c := s.team.id.crew; let x := (s.crew c).barrier b.toNat
    s.team.id.tno ∉ x.arrived → ∃ s1, Runs (.arrive d b) s s1 .next ∧ s1.team.sNow d.toNat = x.phase ∧
      (s1.crew c).barrier b.toNat = (x.arrive s.team.id.tno).settle (s.liveTeams c) := by
  intro c x hx
  obtain ⟨u, hu, hf⟩ := barrierRelease hb hs fun v =>
    ok (arriveAt (v.mapTeam fun t => t.setS d.toNat x.phase) c b.toNat s.team.id.tno)
  obtain ⟨ht, -, hy⟩ := arriveAt_spec (u.mapTeam fun t => t.setS d.toNat x.phase) c b.toNat s.team.id.tno
  refine ⟨_, runs_of_ok (f := _) (show execArrive d b s = _ from rfl) hr ((if_neg (by simpa using hx)).trans hf), ?_, hy.trans ?_⟩
  · rw [ht]
    exact (onlyScalars_setS u d.toNat x.phase).2
  · show (((u.crew c).barrier b.toNat).arrive _).settle (u.liveTeams c) = _
    rw [hu.crew, hu.liveTeams]

/-- BAR of a team that has arrived in phase `ph`: it waits in that phase, and goes on after it (R147). -/
def barPass (c b ph : Nat) (v : State) : Res :=
  if ((v.crew c).barrier b).phase.toNat = ph then .block v (.barrier b)
  else ok ((v.mapTeam fun t => t.setArr 0 none).acquireTeam (v.crew c).scope)

/-- BAR of a team that has not arrived in the phase: it arrives, and goes on when that completes the phase. -/
theorem bar_arrives {b : BitVec 4} (hr : s.ready (.bar b)) (ha : s.team.arr 0 = none) : let c := s.team.id.crew; let x := (s.crew c).barrier b.toNat
    s.team.id.tno ∉ x.arrived → ∃ v : State, v.team = s.team.setArr 0 (some x.phase.toNat) ∧
      (v.crew c).barrier b.toNat = (x.arrive s.team.id.tno).settle (s.liveTeams c) ∧
      (((v.crew c).barrier b.toNat).phase = x.phase → Waits (.bar b) s v (.barrier b.toNat)) ∧
      (((v.crew c).barrier b.toNat).phase ≠ x.phase →
        Runs (.bar b) s ((v.mapTeam fun t => t.setArr 0 none).acquireTeam (v.crew c).scope) .next) := by
  intro c x hx
  obtain ⟨u, hu, hf⟩ := barrierRelease hb hs fun v =>
    barPass c b.toNat x.phase.toNat (arriveAt (v.mapTeam fun t => t.setArr 0 (some x.phase.toNat)) c b.toNat s.team.id.tno)
  obtain ⟨ht, -, hy⟩ := arriveAt_spec (u.mapTeam fun t => t.setArr 0 (some x.phase.toNat)) c b.toNat s.team.id.tno
  generalize arriveAt (u.mapTeam fun t => t.setArr 0 (some x.phase.toNat)) c b.toNat s.team.id.tno = v at ht hy hf
  obtain ⟨f, he, hv⟩ : ∃ f, exec (.bar b) s = runWord (.bar b) s f ∧ f s = barPass c b.toNat x.phase.toNat v := by
    refine ⟨_, show execBar b s = _ from rfl, ?_⟩
    dsimp only
    rw [ha]
    exact (if_neg (by simpa using hx)).trans hf
  refine ⟨v, ht.trans (congrArg (fun t => Team.setArr t 0 (some x.phase.toNat)) hu.team), hy.trans ?_, fun h => ?_, fun h => ?_⟩
  · show (((u.crew c).barrier b.toNat).arrive _).settle (u.liveTeams c) = _
    rw [hu.crew, hu.liveTeams]
  · exact waits_of_block he hr (hv.trans (if_pos (congrArg BitVec.toNat h)))
  · exact runs_of_ok he hr (hv.trans (if_neg fun e => h (BitVec.eq_of_toNat_eq e)))

variable {b : BitVec 4} (hr : s.ready (.bar b)) (ha : s.team.arr 0 = none) (hx : s.team.id.tno ∉ ((s.crew s.team.id.crew).barrier b.toNat).arrived)
include hr ha hx

/-- BAR of the last team passes, in the next phase. -/
theorem bar_last (hall : ∀ n ∈ s.liveTeams s.team.id.crew, n = s.team.id.tno ∨ n ∈ ((s.crew s.team.id.crew).barrier b.toNat).arrived) :
    ∃ s1, Runs (.bar b) s s1 .next ∧
      ((s1.crew s.team.id.crew).barrier b.toNat).phase = ((s.crew s.team.id.crew).barrier b.toNat).phase + 1 ∧ s1.team.arr 0 = none ∧
      s1.team.r = s.team.r := by
  obtain ⟨v, ht, hy, -, hgo⟩ := bar_arrives hb hs hr ha hx
  rw [settle_last hall] at hy
  have hnext : ∀ p : W32, p + 1 ≠ p := fun p => by bv_omega
  have hm := onlyMemory_acquireTeam (v.mapTeam fun t => t.setArr 0 none) (v.crew s.team.id.crew).scope
  refine ⟨_, hgo (by rw [hy]; exact hnext _), ?_, ?_, ?_⟩
  · rw [hm.crew, show (v.mapTeam _).crew s.team.id.crew = v.crew s.team.id.crew from rfl, hy]
  · rw [hm.team]
    exact Team.arr_setArr _ _ _
  · rw [hm.team, State.mapTeam_team, ht]
    rfl

/-- BAR of another team waits in its phase, arrived. -/
theorem bar_notLast {n : Nat} (hn : n ∈ s.liveTeams s.team.id.crew) (hne : n ≠ s.team.id.tno)
    (hnx : n ∉ ((s.crew s.team.id.crew).barrier b.toNat).arrived) :
    ∃ s1, Waits (.bar b) s s1 (.barrier b.toNat) ∧ s.team.id.tno ∈ ((s1.crew s.team.id.crew).barrier b.toNat).arrived ∧
      s1.team.arr 0 = some ((s.crew s.team.id.crew).barrier b.toNat).phase.toNat := by
  obtain ⟨v, ht, hy, hwait, -⟩ := bar_arrives hb hs hr ha hx
  rw [settle_notLast fun hall => (hall n hn).elim hne hnx] at hy
  refine ⟨v, hwait (by rw [hy]; rfl), ?_, ?_⟩
  · rw [hy]
    exact List.mem_append_right _ List.mem_cons_self
  · rw [ht]
    exact Team.arr_setArr _ _ _

end

/-- AWAIT passes once the phase has moved on. -/
theorem await_passes {s : State} (hb : memBusy s s.team.key = false) {a : BitVec 6} {b : BitVec 4} (hr : s.ready (.await a b))
    (h : 0 ≤ (((s.crew s.team.id.crew).barrier b.toNat).phase - s.team.getS a.toNat - 1).toInt) :
    Runs (.await a b) s (s.acquireTeam (s.crew s.team.id.crew).scope) .next := by
  refine runs_of_ok (f := _) (show execAwait a b s = _ from rfl) hr ((if_neg (Int.not_lt.mpr h)).trans ?_)
  rw [withAcquire, loadsBusy_of_memBusy hb]
  rfl

theorem await_waits {s : State} {a : BitVec 6} {b : BitVec 4} (hr : s.ready (.await a b))
    (h : (((s.crew s.team.id.crew).barrier b.toNat).phase - s.team.getS a.toNat - 1).toInt < 0) :
    Waits (.await a b) s s (.phase b.toNat (s.team.getS a.toNat)) :=
  waits_of_block (f := _) (show execAwait a b s = _ from rfl) hr (if_pos h)

end Sys2Proof.Machine
end

section
/-! REFORM (R149, R150). -/

open Sys2Proof Sys2Proof.Machine

namespace Sys2Proof.Machine

/-! ### Sorting -/

/-- The model's sort is the library's insertion sort. -/
theorem sortAsc_eq (l : List Nat) : sortAsc l = l.insertionSort (· ≤ ·) := by
  have hins : ∀ (x : Nat) (l : List Nat), insertAsc x l = l.orderedInsert (· ≤ ·) x := by
    intro x l
    induction l with
    | nil => rfl
    | cons y l ih => rw [insertAsc, List.orderedInsert_cons, ih]
  have hf : insertAsc = List.orderedInsert (· ≤ ·) := funext fun x => funext (hins x)
  rw [sortAsc, hf]
  rfl

theorem sortAsc_perm (l : List Nat) : (sortAsc l).Perm l := by
  rw [sortAsc_eq]
  exact List.perm_insertionSort _ l

/-- Different numbers are sorted strictly. -/
theorem sortAsc_strict {l : List Nat} (h : l.Nodup) : (sortAsc l).Pairwise (· < ·) := by
  have hs : (sortAsc l).Pairwise (· ≤ ·) := by
    rw [sortAsc_eq]
    exact List.pairwise_insertionSort _ l
  exact (hs.and ((sortAsc_perm l).nodup_iff.mpr h)).imp fun h => Nat.lt_of_le_of_ne h.1 h.2

/-- Numbers below a bound, sorted by a key and then by themselves. -/
theorem sortByKey_spec {N : Nat} (key : Nat → Nat) {ps : List Nat} (hn : ps.Nodup) (hlt : ∀ p ∈ ps, p < N) :
    let qs := (sortAsc (ps.map fun p => key p * N + p)).map fun x => x % N
    qs.Perm ps ∧ qs.Pairwise fun p q => key p < key q ∨ (key p = key q ∧ p < q) := by
  intro qs
  have hmod : ∀ p ∈ ps, (key p * N + p) % N = p := fun p hp => by
    rw [Nat.mul_comm, Nat.mul_add_mod, Nat.mod_eq_of_lt (hlt p hp)]
  have hcodes : (ps.map fun p => key p * N + p).Nodup :=
    hn.map_on fun p hp q hq h => by rw [← hmod p hp, ← hmod q hq, h]
  refine ⟨((sortAsc_perm _).map _).trans (.of_eq ?_), List.pairwise_map.mpr ((sortAsc_strict hcodes).imp_of_mem fun {x y} hx hy hxy => ?_)⟩
  · rw [List.map_map]
    exact (List.map_congr_left (g := fun p => p) hmod).trans (List.map_id' ps)
  · obtain ⟨p, hp, rfl⟩ := List.mem_map.mp ((sortAsc_perm _).mem_iff.mp hx)
    obtain ⟨q, hq, rfl⟩ := List.mem_map.mp ((sortAsc_perm _).mem_iff.mp hy)
    rw [hmod p hp, hmod q hq]
    have hpN := hlt p hp
    rcases Nat.lt_trichotomy (key p) (key q) with h | h | h
    · exact .inl h
    · exact .inr ⟨h, by rw [h] at hxy; omega⟩
    · have := Nat.mul_le_mul_right N (Nat.succ_le_of_lt h)
      have := hlt q hq
      rw [Nat.succ_mul] at *
      omega

/-! ### Positions of live lanes -/

theorem mem_livePositions {s : State} {c p : Nat} : p ∈ livePositions s c ↔
    ∃ n ∈ s.liveTeams c, ∃ l ∈ lanesOf (s.teamAt (teamKey c n)).id.width (s.teamAt (teamKey c n)).live, p = n * 1024 + l := by
  simp only [livePositions, List.mem_flatMap, (sortAsc_perm _).mem_iff, List.mem_map, eq_comm]

theorem live_of_position {s : State} {c n l : Nat} (hl : l < 1024) (h : n * 1024 + l ∈ livePositions s c) :
    l ∈ lanesOf (s.teamAt (teamKey c n)).id.width (s.teamAt (teamKey c n)).live := by
  obtain ⟨m, -, j, hj, e⟩ := mem_livePositions.mp h
  have := lanesOf_lt hj
  obtain ⟨rfl, rfl⟩ : n = m ∧ l = j := by omega
  exact hj

theorem livePositions_nodup {s : State} {c : Nat} (h : (s.liveTeams c).Nodup) : (livePositions s c).Nodup := by
  refine List.nodup_flatMap.mpr ⟨fun n _ => (lanesOf_nodup _ _).map fun a b => Nat.add_left_cancel, ?_⟩
  refine ((sortAsc_perm _).nodup_iff.mpr h).imp fun {m n} hne p hp hq => ?_
  obtain ⟨a, ha, rfl⟩ := List.mem_map.mp hp
  obtain ⟨b, hb, e⟩ := List.mem_map.mp hq
  have := lanesOf_lt ha
  have := lanesOf_lt hb
  omega

/-! ### The move of a lane -/

/-- A team with other contents of its vector registers, their markers and its predicates. -/
def Team.withLanes (t : Team) (v : SMap W32) (m : SMap (Option Mark)) (p : SMap Mask) : Team :=
  { t with r := { t.r with v := v, vmarks := m, p := p } }

/-- Lane `l` of a team holds what lane `l'` of another does, in the first `n` vector registers with their markers and in p1 to p7. -/
def LaneMoved (a : Team) (l : Nat) (b : Team) (l' n : Nat) : Prop :=
  (∀ r < n, a.vNow r l = b.vNow r l' ∧ smGet none a.r.vmarks (vKey r l) = smGet none b.r.vmarks (vKey r l')) ∧
  ∀ j, 1 ≤ j → j ≤ 7 → (smGet 0 a.r.p j).getLsbD l = (smGet 0 b.r.p j).getLsbD l'

/-- Lane `l` of a team is as it was in every vector register with its marker and in every predicate. -/
def LaneKept (a b : Team) (l : Nat) : Prop :=
  (∀ r, a.vNow r l = b.vNow r l ∧ smGet none a.r.vmarks (vKey r l) = smGet none b.r.vmarks (vKey r l)) ∧
  ∀ j, (smGet 0 a.r.p j).getLsbD l = (smGet 0 b.r.p j).getLsbD l

/-- The move of one vector register of a lane. -/
def moveReg (l : Nat) (t0 : Team) (l0 : Nat) (u : Team) (r : Nat) : Team :=
  u.withV (smSet 0 u.r.v (vKey r l) (smGet 0 t0.r.v (vKey r l0))) (smSet none u.r.vmarks (vKey r l) (smGet none t0.r.vmarks (vKey r l0)))

/-- The move of one predicate of a lane. -/
def movePred (l : Nat) (t0 : Team) (l0 : Nat) (u : Team) (p : Nat) : Team :=
  u.setP p (1#1024 <<< l) (if (smGet 0 t0.r.p p).getLsbD l0 then 1#1024 <<< l else 0)

theorem moveLane_eq (t : Team) (l : Nat) (t0 : Team) (l0 : Nat) :
    moveLane t l t0 l0 = [1, 2, 3, 4, 5, 6, 7].foldl (movePred l t0 l0) ((List.range t.id.nregs).foldl (moveReg l t0 l0) t) := rfl

section
variable {l : Nat} (hl : l < 1024) (t0 : Team) (l0 : Nat)

include hl in
/-- The moves of some registers of a lane change those registers of the lane alone. -/
theorem moveRegs_spec (rs : List Nat) (t : Team) : let u := rs.foldl (moveReg l t0 l0) t
    (∃ v m, u = t.withV v m) ∧ ∀ r l', l' < 1024 →
      smGet 0 u.r.v (vKey r l') = (if l' = l ∧ r ∈ rs then smGet 0 t0.r.v (vKey r l0) else smGet 0 t.r.v (vKey r l')) ∧
      smGet none u.r.vmarks (vKey r l') = if l' = l ∧ r ∈ rs then smGet none t0.r.vmarks (vKey r l0) else smGet none t.r.vmarks (vKey r l') := by
  induction rs generalizing t with
  | nil => exact ⟨⟨t.r.v, t.r.vmarks, rfl⟩, fun r l' _ => by simp⟩
  | cons a rs ih =>
    obtain ⟨⟨v, m, hu⟩, hread⟩ := ih (moveReg l t0 l0 t a)
    refine ⟨⟨v, m, hu⟩, fun r l' hl' => ?_⟩
    rw [List.foldl_cons, (hread r l' hl').1, (hread r l' hl').2]
    simp only [moveReg, Team.withV_v, Team.withV_vmarks, smGet_smSet, vKey_inj hl' hl, List.mem_cons]
    by_cases h1 : l' = l <;> by_cases h2 : r ∈ rs <;> by_cases h3 : r = a <;> simp [h1, h2, h3]

/-- A predicate's lanes after a write in one lane. -/
theorem movePred_bit (u : Team) {p : Nat} (hp : p ≠ 0) (j : Nat) {l' : Nat} (hl' : l' < 1024) :
    (smGet 0 (movePred l t0 l0 u p).r.p j).getLsbD l' = if l' = l ∧ j = p then (smGet 0 t0.r.p p).getLsbD l0 else (smGet 0 u.r.p j).getLsbD l' := by
  have hbit : (1#1024 <<< l).getLsbD l' = decide (l' = l) := getLsbD_one_shiftLeft hl'
  have hsrc : (if (smGet 0 t0.r.p p).getLsbD l0 then 1#1024 <<< l else 0 : Mask).getLsbD l' = ((smGet 0 t0.r.p p).getLsbD l0 && decide (l' = l)) := by
    cases (smGet 0 t0.r.p p).getLsbD l0
    · exact BitVec.getLsbD_zero
    · exact hbit.trans (Bool.true_and _).symm
  rw [movePred, Team.setP, if_neg hp]
  show (smGet 0 (smSet 0 u.r.p p _) j).getLsbD l' = _
  rw [smGet_smSet]
  by_cases hj : j = p
  · subst hj
    rw [if_pos rfl, BitVec.getLsbD_or, BitVec.getLsbD_and, BitVec.getLsbD_and, BitVec.getLsbD_not, hbit, hsrc]
    by_cases h : l' = l <;> simp [h, hl']
  · rw [if_neg hj, if_neg fun h => hj h.2]

/-- The moves of some predicates of a lane change those predicates in the lane alone. -/
theorem movePreds_spec (js : List Nat) (hjs : ∀ j ∈ js, j ≠ 0) (t : Team) : let u := js.foldl (movePred l t0 l0) t
    (∃ p, u = { t with r := { t.r with p := p } }) ∧ ∀ j l', l' < 1024 →
      (smGet 0 u.r.p j).getLsbD l' = if l' = l ∧ j ∈ js then (smGet 0 t0.r.p j).getLsbD l0 else (smGet 0 t.r.p j).getLsbD l' := by
  induction js generalizing t with
  | nil => exact ⟨⟨t.r.p, rfl⟩, fun j l' _ => by simp⟩
  | cons a js ih =>
    have ha := hjs a List.mem_cons_self
    obtain ⟨⟨p, hu⟩, hread⟩ := ih (fun j hj => hjs j (List.mem_cons_of_mem _ hj)) (movePred l t0 l0 t a)
    refine ⟨⟨p, ?_⟩, fun j l' hl' => ?_⟩
    · rw [List.foldl_cons, hu, movePred, Team.setP, if_neg ha]
    · rw [List.foldl_cons, hread j l' hl', movePred_bit t0 l0 t ha j hl']
      by_cases hj : j = a
      · rw [hj]
        by_cases h : l' = l <;> simp only [h, List.mem_cons, true_and, true_or, false_and, if_true, if_false, ite_self]
      · simp only [hj, List.mem_cons, false_or, and_false, if_false]

include hl in
/-- A lane moved: it holds what its source does, and no other lane of the team changes. -/
theorem moveLane_spec (t : Team) : let u := moveLane t l t0 l0
    (∃ v m p, u = t.withLanes v m p) ∧ LaneMoved u l t0 l0 t.id.nregs ∧ ∀ l' < 1024, l' ≠ l → LaneKept u t l' := by
  obtain ⟨⟨v, m, hu⟩, hregs⟩ := moveRegs_spec hl t0 l0 (List.range t.id.nregs) t
  obtain ⟨⟨p, hw⟩, hpreds⟩ := movePreds_spec t0 l0 [1, 2, 3, 4, 5, 6, 7] (by decide) ((List.range t.id.nregs).foldl (moveReg l t0 l0) t)
  rw [← moveLane_eq] at hw hpreds
  generalize (List.range t.id.nregs).foldl (moveReg l t0 l0) t = f at hu hregs hw hpreds
  have hv : (moveLane t l t0 l0).r.v = f.r.v := by rw [hw]
  have hm : (moveLane t l t0 l0).r.vmarks = f.r.vmarks := by rw [hw]
  have hp : f.r.p = t.r.p := by rw [hu]; rfl
  refine ⟨⟨v, m, p, by rw [hw, hu]; rfl⟩, ⟨fun r hr => ?_, fun j h1 h7 => ?_⟩, fun l' hl' hne => ⟨fun r => ?_, fun j => ?_⟩⟩
  · rw [Team.vNow, hv, hm, (hregs r l hl).1, (hregs r l hl).2, if_pos ⟨rfl, List.mem_range.mpr hr⟩, if_pos ⟨rfl, List.mem_range.mpr hr⟩]
    exact ⟨rfl, rfl⟩
  · exact (hpreds j l hl).trans (if_pos ⟨rfl, by simp only [List.mem_cons]; omega⟩)
  · rw [Team.vNow, hv, hm, (hregs r l' hl').1, (hregs r l' hl').2, if_neg fun h => hne h.1, if_neg fun h => hne h.1]
    exact ⟨rfl, rfl⟩
  · rw [hpreds j l' hl', if_neg fun h => hne h.1, hp]

end

/-! ### The move of all lanes -/

theorem LaneKept.moved {a b t : Team} {l l' n : Nat} (h : LaneKept a b l) (h' : LaneMoved b l t l' n) : LaneMoved a l t l' n :=
  ⟨fun r hr => ⟨(h.1 r).1.trans (h'.1 r hr).1, (h.1 r).2.trans (h'.1 r hr).2⟩, fun j h1 h7 => (h.2 j).trans (h'.2 j h1 h7)⟩

theorem LaneKept.trans {a b t : Team} {l : Nat} (h : LaneKept a b l) (h' : LaneKept b t l) : LaneKept a t l :=
  ⟨fun r => ⟨(h.1 r).1.trans (h'.1 r).1, (h.1 r).2.trans (h'.1 r).2⟩, fun j => (h.2 j).trans (h'.2 j)⟩

theorem LaneMoved.congr {a a' b b' : Team} {l l' n : Nat} (h : LaneMoved a l b l' n) (ha : a'.r = a.r) (hb : b'.r = b.r) :
    LaneMoved a' l b' l' n := by
  unfold LaneMoved Team.vNow at *
  rwa [ha, hb]

theorem LaneKept.congr {a a' b b' : Team} {l : Nat} (h : LaneKept a b l) (ha : a'.r = a.r) (hb : b'.r = b.r) : LaneKept a' b' l := by
  unfold LaneKept Team.vNow at *
  rwa [ha, hb]

theorem LaneKept.refl (a : Team) (l : Nat) : LaneKept a a l := ⟨fun _ => ⟨rfl, rfl⟩, fun _ => rfl⟩

/-- Position `e.1` of a crew receives what position `e.2` carried in `s`. -/
def moveTo (s : State) (c : Nat) (u : State) (e : Nat × Nat) : State :=
  u.updTeam (teamKey c (e.1 / 1024)) fun t => moveLane t (e.1 % 1024) (s.teamAt (teamKey c (e.2 / 1024))) (e.2 % 1024)

theorem reformMove_eq (s : State) (c : Nat) (kr : List (Nat × Nat)) :
    reformMove s c kr = ((livePositions s c).zip (sortedLanes s c kr)).foldl (moveTo s c) s := rfl

theorem moveTo_teamAt (s : State) (c : Nat) (u : State) (e : Nat × Nat) (j : Nat) : (moveTo s c u e).teamAt j =
    if j = teamKey c (e.1 / 1024) then
      moveLane (u.teamAt (teamKey c (e.1 / 1024))) (e.1 % 1024) (s.teamAt (teamKey c (e.2 / 1024))) (e.2 % 1024)
    else u.teamAt j := by
  refine State.teamAt_updTeam _ _ _ _ fun t => ?_
  obtain ⟨⟨v, m, p, h⟩, -, -⟩ := moveLane_spec (Nat.mod_lt e.1 (by decide : 0 < 1024)) (s.teamAt (teamKey c (e.2 / 1024))) (e.2 % 1024) t
  rw [h]
  rfl

/-- Moves to different positions: each receives its source, every other lane stays, and nothing else of a team changes. -/
theorem moves_spec (s : State) (c : Nat) (es : List (Nat × Nat)) (hn : (es.map Prod.fst).Nodup) (u0 : State) : let u := es.foldl (moveTo s c) u0
    (∀ j, ∃ v m p, u.teamAt j = (u0.teamAt j).withLanes v m p) ∧
    (∀ e ∈ es, LaneMoved (u.teamAt (teamKey c (e.1 / 1024))) (e.1 % 1024) (s.teamAt (teamKey c (e.2 / 1024))) (e.2 % 1024)
      (u0.teamAt (teamKey c (e.1 / 1024))).id.nregs) ∧
    ∀ n l, l < 1024 → n * 1024 + l ∉ es.map Prod.fst → LaneKept (u.teamAt (teamKey c n)) (u0.teamAt (teamKey c n)) l := by
  induction es generalizing u0 with
  | nil => exact ⟨fun j => ⟨_, _, _, rfl⟩, fun e he => absurd he List.not_mem_nil, fun n l _ _ => .refl _ l⟩
  | cons e es ih =>
    rw [List.map_cons, List.nodup_cons] at hn
    obtain ⟨hall, hmoved, hkept⟩ := ih hn.2 (moveTo s c u0 e)
    have hstep := moveTo_teamAt s c u0 e
    have he : e.1 / 1024 * 1024 + e.1 % 1024 = e.1 := by omega
    have hlt : e.1 % 1024 < 1024 := Nat.mod_lt _ (by decide)
    obtain ⟨⟨v, m, p, hw⟩, hnew, hold⟩ :=
      moveLane_spec hlt (s.teamAt (teamKey c (e.2 / 1024))) (e.2 % 1024) (u0.teamAt (teamKey c (e.1 / 1024)))
    have hid : ∀ j, ∃ v m p, (moveTo s c u0 e).teamAt j = (u0.teamAt j).withLanes v m p := fun j => by
      rw [hstep]
      split
      · rename_i hj
        exact ⟨v, m, p, by rw [hj, hw]⟩
      · exact ⟨_, _, _, rfl⟩
    refine ⟨fun j => ?_, fun d hd => ?_, fun n l hl hnot => ?_⟩
    · obtain ⟨v1, m1, p1, h1⟩ := hall j
      obtain ⟨v2, m2, p2, h2⟩ := hid j
      exact ⟨v1, m1, p1, by rw [List.foldl_cons, h1, h2]; rfl⟩
    · rcases List.mem_cons.mp hd with rfl | hd
      · have hk := hkept (d.1 / 1024) (d.1 % 1024) hlt (by rw [he]; exact hn.1)
        rw [hstep, if_pos rfl] at hk
        exact hk.moved hnew
      · obtain ⟨v2, m2, p2, h2⟩ := hid (teamKey c (d.1 / 1024))
        have hm := hmoved d hd
        rw [h2] at hm
        exact hm
    · rw [List.map_cons, List.mem_cons, not_or] at hnot
      refine (hkept n l hl hnot.2).trans ?_
      rw [hstep]
      split
      · rename_i hj
        have hn := teamKey_inj hj
        rw [hj]
        exact hold l hl (by omega)
      · exact .refl _ l

/-! ### What the scheduling of a team does not touch -/

/-- Two teams differ in what the sequencer keeps of them alone. -/
def SameButSched (a b : Team) : Prop := ∃ w, a = { b with sched := w }

section
variable {a b : Team} (h : SameButSched a b)
include h

theorem SameButSched.r : a.r = b.r := by obtain ⟨w, rfl⟩ := h; rfl
theorem SameButSched.id : a.id = b.id := by obtain ⟨w, rfl⟩ := h; rfl
theorem SameButSched.live : a.live = b.live := by obtain ⟨w, rfl⟩ := h; rfl
theorem SameButSched.m : a.m = b.m := by obtain ⟨w, rfl⟩ := h; rfl
theorem SameButSched.group : a.group = b.group := by obtain ⟨w, rfl⟩ := h; rfl

end

/-- Every team of a state is that of another but for what the sequencer keeps of it. -/
def SchedOnly (u s : State) : Prop := ∀ j, SameButSched (u.teamAt j) (s.teamAt j)

theorem SchedOnly.refl (s : State) : SchedOnly s s := fun _ => ⟨_, rfl⟩

theorem SchedOnly.trans {u v s : State} (h : SchedOnly u v) (h' : SchedOnly v s) : SchedOnly u s := fun j => by
  obtain ⟨w, e⟩ := h j
  obtain ⟨w', e'⟩ := h' j
  exact ⟨w, by rw [e, e']⟩

theorem schedOnly_updTeam (s : State) (k a : Nat) (v : Option Nat) : SchedOnly (s.updTeam k fun t => t.setArr a v) s := fun j => by
  rw [State.teamAt_updTeam s k j (fun t => t.setArr a v) fun t => rfl]
  split
  · rename_i h
    exact ⟨_, by rw [h]; rfl⟩
  · exact ⟨_, rfl⟩

theorem schedOnly_mapTeam (s : State) (a : Nat) (v : Option Nat) : SchedOnly (s.mapTeam fun t => t.setArr a v) s := by
  rw [← updTeam_own]
  exact schedOnly_updTeam s _ a v

theorem OnlyMemory.schedOnly {s u : State} (h : OnlyMemory s u) : SchedOnly u s := fun j => by
  rw [h.teamAt]
  exact ⟨_, rfl⟩

theorem livePositions_congr {u s : State} {c : Nat} (h : SchedOnly u s) (hl : u.liveTeams c = s.liveTeams c) :
    livePositions u c = livePositions s c := by
  unfold livePositions
  rw [hl]
  congr 1
  funext n
  obtain ⟨w, e⟩ := h (teamKey c n)
  rw [e]

/-! ### REFORM -/

/-- Every live team of a crew has arrived, and none has a register pending (R149, R150). -/
def reformReady (c : Nat) (v : State) : Bool :=
  (v.liveTeams c).all (fun n => (v.crew c).reform.any fun e => e.1 = n) &&
    (v.liveTeams c).all fun n => (v.teamAt (teamKey c n)).r.vpend = [] && (v.teamAt (teamKey c n)).r.ppend = []

/-- The lanes have moved, the next REFORM has no arrivals, and every team may go on. -/
def reformMoved (c : Nat) (v : State) : State :=
  let w := (reformMove v c (v.crew c).reform).setCrew c { v.crew c with reform := [] }
  (v.liveTeams c).foldl (fun u n => u.updTeam (teamKey c n) fun t => t.setArr 0 (some 1)) { w with progress := w.progress + 1 }

/-- The state in which the team that issues goes on after the move. -/
def reformAfter (c sc : Nat) (v : State) : State := ((reformMoved c v).mapTeam fun t => t.setArr 0 none).acquireTeam sc

/-- What REFORM does once its team has arrived. -/
def reformTry (c sc : Nat) (v : State) : Res :=
  if reformReady c v then ok (reformAfter c sc v) else .block v .reform

theorem reformMoved_schedOnly (c : Nat) (v : State) : SchedOnly (reformMoved c v) (reformMove v c (v.crew c).reform) :=
  foldl_keeps (fun u => SchedOnly u (reformMove v c (v.crew c).reform)) _
    (fun u n h => (schedOnly_updTeam u (teamKey c n) 0 (some 1)).trans h) _ _ (.refl _)

/-- The state in which REFORM has arrived, in terms of the one in which it issued. -/
structure ReformArrived (s v : State) (k : Nat) : Prop where
  team : v.team = s.team.setArr 0 (some 0)
  teams : SchedOnly v s
  live : v.liveTeams s.team.id.crew = s.liveTeams s.team.id.crew
  crew : v.crew s.team.id.crew = { s.crew s.team.id.crew with reform := (s.crew s.team.id.crew).reform ++ [(s.team.id.tno, k)] }

/-- A team of a crew arrives at REFORM with its key register. -/
def reformArrive (c n k : Nat) (u : State) : State :=
  (u.setCrew c { u.crew c with reform := (u.crew c).reform ++ [(n, k)] }).mapTeam fun t => t.setArr 0 (some 0)

theorem reformArrive_arrived {s u : State} (hu : OnlyMemory s u) (k : Nat) : ReformArrived s (reformArrive s.team.id.crew s.team.id.tno k u) k where
  team := congrArg (fun t => Team.setArr t 0 (some 0)) hu.team
  teams := (schedOnly_mapTeam (u.setCrew s.team.id.crew _) 0 (some 0)).trans hu.schedOnly
  live := hu.liveTeams _
  crew := by
    show (State.setCrew u s.team.id.crew _).crew s.team.id.crew = _
    rw [State.crew_setCrew, if_pos rfl, hu.crew]

/-- REFORM of a team that has not arrived: it arrives, then it tries. -/
theorem reform_arrives {s : State} {k : BitVec 7} (hj : s.team.join = []) (ha : s.team.arr 0 = none) (hb : memBusy s s.team.key = false)
    (hs : (s.crew s.team.id.crew).scope < 5) : ∃ v, ReformArrived s v k.toNat ∧
      ∃ f, exec (.reform k) s = runWord (.reform k) s f ∧ f s = reformTry s.team.id.crew (s.crew s.team.id.crew).scope v := by
  obtain ⟨u, hu, hf⟩ := barrierRelease hb hs fun v =>
    reformTry s.team.id.crew (s.crew s.team.id.crew).scope (reformArrive s.team.id.crew s.team.id.tno k.toNat v)
  refine ⟨_, reformArrive_arrived hu k.toNat, _, show execReform k s = _ from rfl, ?_⟩
  dsimp only
  rw [if_neg (not_not_intro hj), ha]
  exact hf

/-- The teams have arrived once the team that issues has, when the others have. -/
theorem reformReady_iff {s v : State} {k : Nat} (h : ReformArrived s v k) : reformReady s.team.id.crew v = true ↔
    (∀ n ∈ s.liveTeams s.team.id.crew, n = s.team.id.tno ∨ ∃ e ∈ (s.crew s.team.id.crew).reform, e.1 = n) ∧
    ∀ n ∈ s.liveTeams s.team.id.crew, (s.teamAt (teamKey s.team.id.crew n)).r.vpend = [] ∧
      (s.teamAt (teamKey s.team.id.crew n)).r.ppend = [] := by
  have hr : ∀ j, (v.teamAt j).r = (s.teamAt j).r := fun j => (h.teams j).r
  simp only [reformReady, h.live, h.crew, hr, Bool.and_eq_true, List.all_eq_true, List.any_eq_true, decide_eq_true_eq, List.mem_append,
    List.mem_singleton]
  refine and_congr (forall₂_congr fun n _ => ?_) Iff.rfl
  simp [or_and_right, exists_or, or_comm, eq_comm]

/-! ### The keys of REFORM -/

/-- The key register of a team once the team that issues has added its own. -/
theorem keyReg_append {l : List (Nat × Nat)} {t k : Nat} (h : ∀ e ∈ l, e.1 ≠ t) (n : Nat) :
    keyReg (l ++ [(t, k)]) n = if n = t then k else keyReg l n := by
  unfold keyReg
  rw [List.find?_append]
  by_cases hn : n = t
  · subst hn
    have hl : l.find? (fun e => e.1 = n) = none := List.find?_eq_none.mpr fun e he => by simpa using h e he
    simp [hl]
  · simp [hn, Ne.symm hn]

/-- The key by which a position is sorted (R149). -/
def reformKey (s : State) (k p : Nat) : Nat :=
  ((s.teamAt (teamKey s.team.id.crew (p / 1024))).vNow
    (if p / 1024 = s.team.id.tno then k else keyReg (s.crew s.team.id.crew).reform (p / 1024)) (p % 1024)).toNat

/-- The sorted positions are the live ones, in the order of their keys. -/
theorem sortedLanes_spec {s v : State} {k : Nat} (h : ReformArrived s v k) (hnew : ∀ e ∈ (s.crew s.team.id.crew).reform, e.1 ≠ s.team.id.tno)
    (hn : (s.liveTeams s.team.id.crew).Nodup)
    (hteams : ∀ n ∈ s.liveTeams s.team.id.crew, n < 16 ∧ (s.teamAt (teamKey s.team.id.crew n)).group = none) :
    let qs := sortedLanes v s.team.id.crew (v.crew s.team.id.crew).reform
    qs.Perm (livePositions s s.team.id.crew) ∧
      qs.Pairwise fun p q => reformKey s k p < reformKey s k q ∨ (reformKey s k p = reformKey s k q ∧ p < q) := by
  intro qs
  have hkey : ∀ p ∈ livePositions s s.team.id.crew,
      ((v.teamAt (teamKey s.team.id.crew (p / 1024))).getV (keyReg (v.crew s.team.id.crew).reform (p / 1024)) (p % 1024)).toNat * 16384 + p =
        reformKey s k p * 16384 + p := fun p hp => by
    obtain ⟨n, hnl, l, hl, rfl⟩ := mem_livePositions.mp hp
    have hdiv : (n * 1024 + l) / 1024 = n := by have := lanesOf_lt hl; omega
    have ht := h.teams (teamKey s.team.id.crew n)
    rw [reformKey, hdiv, h.crew, keyReg_append hnew, Team.getV, Team.vSrc, Team.rSrc, ht.group, (hteams n hnl).2, ht.r, Team.vNow]
  have hqs : qs = (sortAsc ((livePositions s s.team.id.crew).map fun p => reformKey s k p * 16384 + p)).map fun x => x % 16384 := by
    show sortedLanes _ _ _ = _
    rw [sortedLanes, livePositions_congr h.teams h.live, List.map_congr_left hkey]
  rw [hqs]
  refine sortByKey_spec _ (livePositions_nodup hn) fun p hp => ?_
  obtain ⟨n, hnl, l, hl, rfl⟩ := mem_livePositions.mp hp
  have := lanesOf_lt hl
  have := (hteams n hnl).1
  omega

/-! ### REFORM as a whole -/

/-- Lists of one length, element by element. -/
theorem getD_mem_zip {ps qs : List Nat} (h : ps.length = qs.length) {i : Nat} (hi : i < qs.length) : (ps.getD i 0, qs.getD i 0) ∈ ps.zip qs := by
  rw [List.getD_eq_getElem _ _ (by omega), List.getD_eq_getElem _ _ hi, ← List.getElem_zip (h := by rw [List.length_zip]; omega)]
  exact List.getElem_mem _

/-- It is the state that the move makes, but for scheduling, caches and memory. -/
theorem reformAfter_teams (c sc : Nat) (v : State) : SchedOnly (reformAfter c sc v) (reformMove v c (v.crew c).reform) :=
  (onlyMemory_acquireTeam _ sc).schedOnly.trans ((schedOnly_mapTeam _ 0 none).trans (reformMoved_schedOnly c v))

/-- What REFORM leaves of the lanes of its crew, by the positions of the live ones and the order in which they are dealt out. -/
theorem reformAfter_lanes {s v : State} {k : Nat} (h : ReformArrived s v k) (sc : Nat) (hn : (s.liveTeams s.team.id.crew).Nodup)
    (hlen : (livePositions s s.team.id.crew).length = (sortedLanes v s.team.id.crew (v.crew s.team.id.crew).reform).length) :
    let c := s.team.id.crew; let ps := livePositions s c; let qs := sortedLanes v c (v.crew c).reform; let u := reformAfter c sc v
    (∀ j, (u.teamAt j).id = (s.teamAt j).id ∧ (u.teamAt j).live = (s.teamAt j).live ∧ (u.teamAt j).m = (s.teamAt j).m ∧
      (u.teamAt j).r.s = (s.teamAt j).r.s) ∧
    (∀ i < qs.length, LaneMoved (u.teamAt (teamKey c (ps.getD i 0 / 1024))) (ps.getD i 0 % 1024) (s.teamAt (teamKey c (qs.getD i 0 / 1024)))
      (qs.getD i 0 % 1024) (s.teamAt (teamKey c (ps.getD i 0 / 1024))).id.nregs) ∧
    ∀ n l, l < 1024 → n * 1024 + l ∉ ps → LaneKept (u.teamAt (teamKey c n)) (s.teamAt (teamKey c n)) l := by
  intro c ps qs u
  have hps : livePositions v c = ps := livePositions_congr h.teams h.live
  have hfst : (ps.zip qs).map Prod.fst = ps := List.map_fst_zip (Nat.le_of_eq hlen)
  obtain ⟨hall, hmoved, hkept⟩ := moves_spec v c (ps.zip qs) (by rw [hfst]; exact livePositions_nodup hn) v
  have hw : reformMove v c (v.crew c).reform = (ps.zip qs).foldl (moveTo v c) v := by rw [reformMove_eq, hps]
  rw [← hw] at hall hmoved hkept
  have hto : SchedOnly u (reformMove v c (v.crew c).reform) := reformAfter_teams c sc v
  refine ⟨fun j => ?_, fun i hi => ?_, fun n l hl hnot => ?_⟩
  · obtain ⟨a, m, p, e⟩ := hall j
    rw [(hto j).id, (hto j).live, (hto j).m, (hto j).r, ← (h.teams j).id, ← (h.teams j).live, ← (h.teams j).m, ← (h.teams j).r, e]
    exact ⟨rfl, rfl, rfl, rfl⟩
  · rw [← (h.teams _).id]
    have hm := hmoved _ (getD_mem_zip hlen hi)
    dsimp only at hm
    exact hm.congr (hto _).r (h.teams _).r.symm
  · exact (hkept n l hl (by rw [hfst]; exact hnot)).congr (hto _).r (h.teams _).r.symm

/-- REFORM that another live team has not reached waits, arrived. -/
theorem reform_waits {s v : State} {k : Nat} (h : ReformArrived s v k) (sc : Nat) {n : Nat} (hn : n ∈ s.liveTeams s.team.id.crew)
    (hne : n ≠ s.team.id.tno) (hnot : ∀ e ∈ (s.crew s.team.id.crew).reform, e.1 ≠ n) :
    reformTry s.team.id.crew sc v = .block v .reform ∧
      (v.crew s.team.id.crew).reform = (s.crew s.team.id.crew).reform ++ [(s.team.id.tno, k)] ∧ v.team.arr 0 = some 0 ∧ v.team.r = s.team.r := by
  refine ⟨if_neg fun hrdy => ?_, by rw [h.crew], ?_, by rw [h.team]; rfl⟩
  · exact (((reformReady_iff h).mp hrdy).1 n hn).elim hne fun ⟨e, he, hen⟩ => hnot e he hen
  · rw [h.team]
    exact Team.arr_setArr _ _ _

end Sys2Proof.Machine

/-- Settles O20: a barrier's arrival settles its phase; REFORM arrives, waits for the others, and deals the sorted lanes out to the live positions. -/
theorem barriersAndReform : Obligations.BarriersAndReform := by
  unfold Obligations.BarriersAndReform
  refine ⟨fun s b => ?_, fun s k hr => ?_⟩
  · intro t cr x hb hs ha
    refine ⟨fun d hr hx => ?_, fun a hr => ⟨await_passes hb hr, await_waits hr⟩, fun hr hx =>
      ⟨bar_last hb hs hr ha hx, fun ⟨n, hn, hne, hnx⟩ => bar_notLast hb hs hr ha hx hn hne hnx⟩⟩
    obtain ⟨s1, hrun, hd, hy⟩ := arrive_runs hb hs hr hx
    refine ⟨s1, hrun, hd, ?_⟩
    dsimp only
    rw [hy]
    split
    next hall => rw [settle_last hall]; exact ⟨rfl, rfl⟩
    next hall => rw [settle_notLast hall]; exact ⟨rfl, rfl⟩
  · refine ⟨fun hj => traps_of_trap (f := _) (show execReform k s = _ from rfl) hr (if_pos hj), fun hj ha hb hs _ _ hnew => ?_⟩
    obtain ⟨v, hv, f, he, hf⟩ := reform_arrives (k := k) hj ha hb hs
    refine ⟨fun ⟨n, hn, hne, hnot⟩ => ?_, fun hall hnd hteams => ?_⟩
    · obtain ⟨hblock, hleft⟩ := reform_waits hv (s.crew s.team.id.crew).scope hn hne hnot
      exact ⟨v, waits_of_block he hr (hf.trans hblock), hleft⟩
    · have hready := (reformReady_iff hv).mpr ⟨hall, fun n hn => ⟨(hteams n hn).2.1, (hteams n hn).2.2.1⟩⟩
      obtain ⟨hperm, hsorted⟩ := sortedLanes_spec hv hnew hnd fun n hn => ⟨(hteams n hn).1, (hteams n hn).2.2.2.1⟩
      obtain ⟨hsame, hmoved, hkept⟩ := reformAfter_lanes hv (s.crew s.team.id.crew).scope hnd hperm.length_eq.symm
      refine ⟨_, _, runs_of_ok he hr (hf.trans (if_pos hready)), hperm, hsorted, fun i hi => ?_, fun n hn => ?_⟩
      · obtain ⟨hregs, hpreds⟩ := hmoved i hi
        exact ⟨fun r hrn => hregs r (by rw [← (hsame _).1]; exact hrn), hpreds⟩
      · obtain ⟨-, hlive, hm, hscal⟩ := hsame (teamKey s.team.id.crew n)
        refine ⟨hlive, hm, hscal, fun l hl hnl => ?_⟩
        obtain ⟨hregs, hpreds⟩ := hkept n l hl fun hp => hnl (live_of_position hl hp)
        exact ⟨fun r => (hregs r).1, hpreds⟩
end

section
/-! The launch engine's own steps (R174, R177, R182, R206): sealing a queue can complete the launch that it feeds. -/

open Sys2Proof Sys2Proof.Machine

namespace Sys2Proof.Machine

/-- The record of a launch that queue 2 feeds and whose completion adds to event 5 (R167: INQ 2, INQV, EVENT 5, EVV), CSCOPE package. -/
def fedBySealed : List W64 := [0x10000, 0, 0, 0x6000200050000, 0x2000000000000, 0, 0, 0]

/-- Queue 2 is OPEN and empty, it feeds a RUNNING launch of die 0 that has no crew left to start or to end, and the team that issues waits in EVWAIT for
the launch's event to reach 1. -/
def waitsForSeal : State := {
  team := { id := { alive := true, crew := 1 }, sched := { wait := some (.event 5 1) } }
  crews := [(1, { state := .run })]
  dies := [(0, { launches := [(0, { state := .running, gen := 1, words := fedBySealed })] })]
  events := [(5, { ctx := some 0 })]
  queues := [(2, { state := .opened, fed := 1 })]
  site := { q := 2 } }

/-- Sealing queue 2 completes the launch, whose event satisfies the EVWAIT of the team (R174, R182, R206). -/
theorem seal_satisfies_evwait : ∃ u, exec .systemSoftwareSeal waitsForSeal = .next u ∧ u.team.arr 5 = some 1 := ⟨_, rfl, by decide +kernel⟩

end Sys2Proof.Machine

/-- Refutes O52: its last clause has SYSTEM_SOFTWARE_SEAL leave the team that issues as it was, but the queue's launch may complete with the seal, and the
completion lets an EVWAIT of the team go on. -/
theorem not_launchEngine : ¬ Obligations.LaunchEngine := by
  unfold Obligations.LaunchEngine
  intro h
  obtain ⟨-, -, hseal⟩ := h.2 waitsForSeal
  obtain ⟨u, hu, -, hteam⟩ := hseal rfl
  obtain ⟨v, hv, harr⟩ := seal_satisfies_evwait
  obtain rfl : u = v := by simpa [hu] using hv
  rw [hteam] at harr
  exact absurd harr (by decide)

end

section
/-! Numbers written as bytes, and fields of a save image that are read back as they were written (R6, R195; log entry 13). -/

open Sys2Proof Sys2Proof.Machine

namespace Sys2Proof.Machine

/-! ### Bytes of a number (R6) -/

@[simp] theorem length_leBytes (v n : Nat) : (leBytes v n).length = n := by
  induction n generalizing v with
  | zero => rfl
  | succ n ih => rw [leBytes, List.length_cons, ih]

theorem leNat_leBytes (v n : Nat) : leNat (leBytes v n) = v % 2 ^ (8 * n) := by
  induction n generalizing v with
  | zero => rw [leBytes, leNat, Nat.mul_zero, pow_zero, Nat.mod_one]
  | succ n ih =>
    rw [leBytes, leNat, ih, BitVec.toNat_ofNat, Nat.mul_succ, pow_add, Nat.mul_comm (2 ^ (8 * n)), Nat.mod_mul]
    rfl

theorem leNat_leBytes_of_lt {v n : Nat} (h : v < 2 ^ (8 * n)) : leNat (leBytes v n) = v := by
  rw [leNat_leBytes, Nat.mod_eq_of_lt h]

/-! ### Reading what was written -/

/-- `f` takes the bytes `bs` from the front, whatever follows them, and gives `x`. -/
def Reads {α : Type} (f : Rd α) (bs : List Byte) (x : α) : Prop := ∀ rest, f (bs ++ rest) = (x, rest)

section
variable {α β : Type}

/-- A read that follows another. -/
theorem Reads.bind {f : Rd α} {bs : List Byte} {x : α} (h : Reads f bs x) (g : α → Rd β) (rest : List Byte) : (f >>= g) (bs ++ rest) = g x rest := by
  show (fun p : α × List Byte => g p.1 p.2) (f (bs ++ rest)) = _
  rw [h]

theorem Reads.seq {f : Rd α} {g : α → Rd β} {bs cs : List Byte} {x : α} {y : β} (hf : Reads f bs x) (hg : Reads (g x) cs y) :
    Reads (f >>= g) (bs ++ cs) y := fun rest => by
  rw [List.append_assoc, hf.bind, hg]

theorem Reads.map {f : Rd α} {bs : List Byte} {x : α} (h : Reads f bs x) (g : α → β) : Reads (f >>= fun a => pure (g a)) bs (g x) := fun _ => h.bind _ _

theorem reads_nat {v n : Nat} (h : v < 2 ^ (8 * n)) : Reads (rdNat n) (leBytes v n) v := fun rest => by
  have hl : (leBytes v n).length = n := length_leBytes v n
  rw [rdNat, List.take_left' hl, List.drop_left' hl, leNat_leBytes_of_lt h]

/-- Fields of one kind, one after another. -/
theorem reads_many {f : Rd α} {w : β → List Byte} {x : β → α} (l : List β) (h : ∀ b ∈ l, Reads f (w b) (x b)) :
    Reads (rdMany f l.length) (l.flatMap w) (l.map x) := by
  induction l with
  | nil => exact fun _ => rfl
  | cons b r ih =>
    have hr := ih fun c hc => h c (List.mem_cons_of_mem _ hc)
    exact (h b List.mem_cons_self).seq (hr.map (x b :: ·))

/-- The same of fields by number. -/
theorem reads_range {f : Rd α} {w : Nat → List Byte} {x : Nat → α} {n : Nat} (h : ∀ k < n, Reads f (w k) (x k)) :
    Reads (rdMany f n) ((List.range n).flatMap w) ((List.range n).map x) := by
  have := reads_many (List.range n) fun k hk => h k (List.mem_range.mp hk)
  rwa [List.length_range] at this

/-- A counted list of fields of at least one byte each. -/
theorem reads_list {f : Rd α} {w : α → List Byte} {l : List α} (hn : l.length < 2 ^ 32) (hw : ∀ x ∈ l, Reads f (w x) x ∧ 1 ≤ (w x).length) :
    Reads (rdList f) (wrList w l) l := fun rest => by
  have hlen : l.length ≤ (l.flatMap w).length := by
    rw [List.length_flatMap]
    simpa using List.card_nsmul_le_sum (l.map fun x => (w x).length) 1 (by simpa using fun x hx => (hw x hx).2)
  have hm := reads_many l (x := id) fun x hx => (hw x hx).1
  rw [rdList, wrList, List.append_assoc, (reads_nat (by omega : l.length < 2 ^ (8 * 4))).bind]
  show rdMany f (min l.length (l.flatMap w ++ rest).length) (l.flatMap w ++ rest) = _
  rw [Nat.min_eq_left (by rw [List.length_append]; omega), hm, List.map_id]

end

theorem reads_word (n k : Nat) (hk : 8 * k = n) (v : BitVec n) : Reads (rdNat k >>= fun a => pure (BitVec.ofNat n a)) (leBytes v.toNat k) v := by
  have h := (reads_nat (n := k) (by rw [hk]; exact v.isLt)).map (BitVec.ofNat n)
  rwa [BitVec.ofNat_toNat, BitVec.setWidth_eq] at h

theorem reads_32 (v : W32) : Reads rd32 (leBytes v.toNat 4) v := reads_word 32 4 rfl v
theorem reads_64 (v : W64) : Reads rd64 (leBytes v.toNat 8) v := reads_word 64 8 rfl v
theorem reads_mask (v : Mask) : Reads rdMask (leBytes v.toNat 128) v := reads_word 1024 128 rfl v

/-- A field narrower than its bytes. -/
theorem reads_small {n : Nat} (k : Nat) (hk : n ≤ 8 * k) (v : BitVec n) : Reads (rdNat k) (leBytes v.toNat k) v.toNat :=
  reads_nat (Nat.lt_of_lt_of_le v.isLt (Nat.pow_le_pow_right Nat.two_pos hk))

theorem reads_bool (b : Bool) : Reads rdBool (leBytes b.toNat 1) b := by
  have h := (reads_nat (v := b.toNat) (n := 1) (by cases b <;> decide)).map fun x => decide (x % 2 = 1)
  have e : decide (b.toNat % 2 = 1) = b := by cases b <;> rfl
  rwa [e] at h

end Sys2Proof.Machine
end

section
/-! Truth values packed into bytes, and the maps of a team's registers, as an image lays them out (R195; log entry 13). -/

open Sys2Proof Sys2Proof.Machine

namespace Sys2Proof.Machine

/-! ### Bits of a byte string -/

/-- The byte that holds eight truth values, the first in its lowest bit. -/
def byteOf (q : Nat → Bool) : Byte := (List.range 8).foldl (fun b i => if q i then b ||| (1#8 <<< i) else b) 0

theorem testBit_byteOf (q : Nat → Bool) {i : Nat} (hi : i < 8) : (byteOf q).toNat.testBit i = q i := by
  have key : ∀ n, ((List.range n).foldl (fun b i => if q i then b ||| (1#8 <<< i) else b) (0 : Byte)).getLsbD i = (decide (i < n) && q i) := by
    intro n
    induction n with
    | zero => simp
    | succ n ih =>
      rw [List.range_succ, List.foldl_append, List.foldl_cons, List.foldl_nil]
      by_cases e : i = n
      · subst e
        by_cases hq : q i
        · rw [if_pos hq, BitVec.getLsbD_or, getLsbD_one_shiftLeft hi]; simp [hq]
        · rw [if_neg hq, ih]; simp [hq]
      · have hlt : i < n + 1 ↔ i < n := by omega
        by_cases hq : q n
        · rw [if_pos hq, BitVec.getLsbD_or, ih, getLsbD_one_shiftLeft hi]; simp [e, hlt]
        · rw [if_neg hq, ih]; simp [hlt]
  rw [byteOf, BitVec.testBit_toNat, key 8]
  simp [hi]

/-- Numbers beside what a function makes of them. -/
theorem zip_range_map {α : Type} (m : Nat) (f : Nat → α) :
    (List.range ((List.range m).map f).length).zip ((List.range m).map f) = (List.range m).map fun j => (j, f j) := by
  rw [List.length_map, List.length_range]
  simpa using List.zip_map' (f := id) (g := f) (l := List.range m)

/-- The numbers whose bits were set are read back. -/
theorem reads_bits (n : Nat) (p : Nat → Bool) : ∃ l, Reads (rdBits n) (wrBits n p) l ∧ ∀ k, k ∈ l ↔ k < n ∧ p k = true := by
  let byte : Nat → Byte := fun j => byteOf fun i => 8 * j + i < n && p (8 * j + i)
  have hw : (List.range ((n + 7) / 8)).flatMap (fun j => [byte j]) = wrBits n p := List.map_eq_flatMap.symm
  have hr := (reads_range (f := rdNat 1) (w := fun j => [byte j]) (x := fun j => (byte j).toNat) fun j (_ : j < (n + 7) / 8) => by
    intro rest
    show (leNat [byte j], rest) = _
    rw [leNat, leNat]; rfl).map fun l : List Nat =>
      ((List.range l.length).zip l).flatMap fun e => ((List.range 8).filter fun i => e.2.testBit i).map (8 * e.1 + ·)
  rw [hw] at hr
  refine ⟨_, hr, fun k => ?_⟩
  have hbit : ∀ j i, i < 8 → ((byte j).toNat.testBit i = true ↔ 8 * j + i < n ∧ p (8 * j + i) = true) := fun j i hi => by
    rw [testBit_byteOf _ hi, Bool.and_eq_true, decide_eq_true_eq]
  rw [zip_range_map]
  simp only [List.mem_flatMap, List.mem_map, List.mem_filter, List.mem_range]
  constructor
  · rintro ⟨_, ⟨j, -, rfl⟩, i, ⟨hi, hb⟩, rfl⟩
    exact (hbit j i hi).mp hb
  · rintro ⟨hk, hp⟩
    have hk8 : 8 * (k / 8) + k % 8 = k := Nat.div_add_mod k 8
    exact ⟨_, ⟨k / 8, by omega, rfl⟩, k % 8, ⟨Nat.mod_lt _ (by omega), (hbit _ _ (Nat.mod_lt _ (by omega))).mpr (by rw [hk8]; exact ⟨hk, hp⟩)⟩, hk8⟩

/-! ### Sparse data read back -/

/-- A key all of whose entries agree. -/
theorem smGet_of_mem {β : Type} {d v : β} {m : SMap β} {k : Nat} (h : (k, v) ∈ m) (hu : ∀ e ∈ m, e.1 = k → e.2 = v) : smGet d m k = v := by
  induction m with
  | nil => simp at h
  | cons e r ih =>
    obtain ⟨j, x⟩ := e
    by_cases hk : k = j
    · rw [smGet, if_pos hk]; exact hu (j, x) List.mem_cons_self hk.symm
    · rw [smGet, if_neg hk]
      exact ih ((List.mem_cons.mp h).resolve_left fun e => hk (congrArg Prod.fst e)) fun e he => hu e (List.mem_cons_of_mem _ he)

/-- The values written at keys that differ are read at those keys. -/
theorem smGet_smOf {β : Type} [DecidableEq β] (d : β) (k : Nat → Nat) (x : Nat → β) {n i : Nat} (hi : i < n) (hk : ∀ j < n, k j = k i → j = i) :
    smGet d (smOf d k ((List.range n).map x)) (k i) = x i := by
  have hm : ∀ e, e ∈ smOf d k ((List.range n).map x) ↔ ∃ j < n, e = (k j, x j) ∧ x j ≠ d := fun e => by
    rw [smOf, zip_range_map]
    simp only [List.mem_filter, List.mem_map, List.mem_range, decide_eq_true_eq]
    constructor
    · rintro ⟨⟨_, ⟨j, hj, rfl⟩, rfl⟩, hd⟩; exact ⟨j, hj, rfl, hd⟩
    · rintro ⟨j, hj, rfl, hd⟩; exact ⟨⟨_, ⟨j, hj, rfl⟩, rfl⟩, hd⟩
  by_cases hd : x i = d
  · rcases smGet_mem_or d (smOf d k ((List.range n).map x)) (k i) with h | h
    · obtain ⟨j, hj, e, hne⟩ := (hm _).mp h
      obtain ⟨hkj, hx⟩ := Prod.mk.inj e
      rw [hk j hj hkj.symm] at hne
      exact absurd hd hne
    · rw [h, hd]
  · refine smGet_of_mem ((hm _).mpr ⟨i, hi, rfl, hd⟩) fun e he hek => ?_
    obtain ⟨j, hj, rfl, -⟩ := (hm e).mp he
    rw [hk j hj hek]

/-- A pending bit that was set is pending, another is not. -/
theorem smGet_pendOf (old : SMap Nat) (l : List Nat) (k : Nat) : smGet 0 (pendOf old l) k = 0 ↔ k ∉ l := by
  induction l with
  | nil => simp [pendOf, smGet]
  | cons a r ih =>
    rw [pendOf, List.map_cons, smGet, List.mem_cons]
    by_cases h : k = a
    · rw [if_pos h]; simp [h]
    · rw [if_neg h, or_iff_right h]; exact ih

end Sys2Proof.Machine
end

section
/-! What the sections 0x02 and 0x03 of an image give back: the scalar and the vector registers (R195; log entry 13). -/

open Sys2Proof Sys2Proof.Machine

namespace Sys2Proof.Machine

/-! ### Registers of a team -/

/-- What section 0x02 gives back. -/
theorem rdScalars_scalarBytes (t b : Team) : let a := (rdScalars b (scalarBytes t)).1
    (∀ k < 64, a.sNow k = t.sNow k ∧ (smGet 0 a.r.spend k = 0 ↔ smGet 0 t.r.spend k = 0)) ∧
    a = { b with r := { b.r with s := a.r.s, spend := a.r.spend, smarks := a.r.smarks } } := by
  intro a
  obtain ⟨l, hl, hmem⟩ := reads_bits 64 fun r => smGet 0 t.r.spend r ≠ 0
  have ha : a = { b with r := { b.r with
      s := smOf 0 id ((List.range 64).map (smGet 0 t.r.s)), spend := pendOf b.r.spend l, smarks := (rdMarks (marksBytes t.r.smarks)).1 } } := by
    show (rdScalars b (scalarBytes t)).1 = _
    rw [rdScalars, scalarBytes, List.append_assoc, (reads_range fun r _ => reads_32 (smGet 0 t.r.s r)).bind, hl.bind]
    rfl
  rw [ha]
  refine ⟨fun k hk => ⟨smGet_smOf 0 id _ hk fun _ _ h => h, ?_⟩, rfl⟩
  rw [smGet_pendOf, hmem]
  simp [hk]

/-- What section 0x03 gives back. -/
theorem rdVectors_vectorBytes (t b : Team) (hw : b.id.width = t.id.width) (hn : b.id.nregs = t.id.nregs) (hle : t.id.width ≤ 1024) :
    let a := (rdVectors b (vectorBytes t)).1
    (∀ r < t.id.nregs, ∀ l < t.id.width, a.vNow r l = t.vNow r l) ∧ (∀ p < 8, smGet 0 a.r.p p = smGet 0 t.r.p p) ∧
    (∀ r < t.id.nregs, ∀ k < t.id.maskLen, smGet 0 a.r.vpend (r * 32 + k) = 0 ↔ smGet 0 t.r.vpend (r * 32 + k) = 0) ∧
    a = { b with r := { b.r with v := a.r.v, p := a.r.p, vpend := a.r.vpend, ppend := a.r.ppend, vmarks := a.r.vmarks } } := by
  intro a
  let w := t.id.width
  let m := t.id.maskLen
  let key : Nat → Nat := fun j => j / m * 32 + j % m
  have hm : b.id.maskLen = m := by rw [TeamId.maskLen, hw]; rfl
  have hm32 : m ≤ 32 := by show (t.id.width + 31) / 32 ≤ 32; omega
  obtain ⟨lv, hlv, hmem⟩ := reads_bits (t.id.nregs * m) fun j => smGet 0 t.r.vpend (key j) ≠ 0
  obtain ⟨lp, hlp, -⟩ := reads_bits (8 * m) fun j => smGet 0 t.r.ppend (key j) ≠ 0
  have ha : a = { b with r := { b.r with
      v := smOf 0 (fun j => vKey (j / w) (j % w)) ((List.range (t.id.nregs * w)).map fun j => smGet 0 t.r.v (vKey (j / w) (j % w)))
      vpend := pendOf b.r.vpend (lv.map key), p := smOf 0 id ((List.range 8).map (smGet 0 t.r.p)), ppend := pendOf b.r.ppend (lp.map key)
      vmarks := (rdMarks (marksBytes t.r.vmarks)).1 } } := by
    show (rdVectors b (vectorBytes t)).1 = _
    simp only [rdVectors, vectorBytes, List.append_assoc, hw, hn, hm]
    rw [(reads_range fun j _ => reads_32 (smGet 0 t.r.v (vKey (j / t.id.width) (j % t.id.width)))).bind, hlv.bind,
      (reads_range fun p _ => reads_mask (smGet 0 t.r.p p)).bind, hlp.bind]
    rfl
  have place : ∀ n r l, r < t.id.nregs → l < n → l + n * r < t.id.nregs * n ∧ (l + n * r) / n = r ∧ (l + n * r) % n = l := fun n r l hr hl =>
    ⟨by nlinarith, by rw [Nat.add_mul_div_left _ _ (by omega), Nat.div_eq_of_lt hl, Nat.zero_add], by rw [Nat.add_mul_mod_self_left, Nat.mod_eq_of_lt hl]⟩
  rw [ha]
  refine ⟨fun r hr l hl => ?_, fun p hp => smGet_smOf 0 id _ hp fun _ _ h => h, fun r hr k hk => ?_, rfl⟩
  · obtain ⟨hi, hd, hmod⟩ := place w r l hr hl
    have h := smGet_smOf 0 (fun j => vKey (j / w) (j % w)) (fun j => smGet 0 t.r.v (vKey (j / w) (j % w))) hi fun j _ hj => by
      have := Nat.mod_lt j (show 0 < w by omega)
      have := Nat.mod_lt (l + w * r) (show 0 < w by omega)
      simp only [vKey] at hj
      have hq : j / w = (l + w * r) / w ∧ j % w = (l + w * r) % w := by omega
      rw [← Nat.div_add_mod j w, hq.1, hq.2, Nat.div_add_mod]
    simp only [hd, hmod] at h
    exact h
  · obtain ⟨hi, hd, hmod⟩ := place m r k hr hk
    have hkey : key (k + m * r) = r * 32 + k := by show _ / m * 32 + _ % m = _; rw [hd, hmod]
    have hin : r * 32 + k ∈ lv.map key ↔ smGet 0 t.r.vpend (r * 32 + k) ≠ 0 := by
      rw [List.mem_map]
      constructor
      · rintro ⟨j, hj, e⟩
        rw [← e]
        simpa using ((hmem j).mp hj).2
      · intro h
        exact ⟨_, (hmem _).mpr ⟨hi, by rw [hkey]; simpa using h⟩, hkey⟩
    rw [smGet_pendOf, hin, not_not]

end Sys2Proof.Machine
end

section
/-! Section 0x01 of an image, its header, and the copy engine's entries (R194, R195, R339). -/

open Sys2Proof Sys2Proof.Machine

namespace Sys2Proof.Machine

theorem reads_join (e : JoinEntry) : Reads rdJoin e.bytes e := fun rest => by
  simp only [rdJoin, JoinEntry.bytes, List.append_assoc]
  rw [(reads_64 e.rj).bind, (reads_mask e.save).bind, (reads_mask e.other).bind, (reads_64 e.opc).bind]
  rfl

theorem reads_joins {l : List JoinEntry} (h : l.length < 2 ^ 32) : Reads (rdList rdJoin) (wrList JoinEntry.bytes l) l :=
  reads_list h fun e _ => ⟨reads_join e, by simp only [JoinEntry.bytes, List.length_append, length_leBytes]; omega⟩

theorem reads_trapRegs (x : TrapRegs) : Reads rdTrapRegs x.bytes x := fun rest => by
  simp only [rdTrapRegs, TrapRegs.bytes, List.append_assoc]
  rw [(reads_64 x.xvec).bind, (reads_64 x.xpc).bind, (reads_64 x.xval).bind, (reads_small 1 (by omega) x.detail).bind,
    (reads_small 1 (by omega) x.code).bind, (reads_mask x.xmask).bind, (reads_mask x.saved).bind]
  simp only [BitVec.ofNat_toNat, BitVec.setWidth_eq]
  rfl

theorem reads_spFault (x : SpFault) : Reads rdSpFault x.bytes x := fun rest => by
  simp only [rdSpFault, SpFault.bytes, List.append_assoc]
  rw [(reads_bool x.valid).bind, (reads_bool x.wr).bind, (reads_small 4 (by omega) x.off).bind]
  simp only [BitVec.ofNat_toNat, BitVec.setWidth_eq]
  rfl

theorem reads_debug (x : Debug) : Reads rdDebug x.bytes x := fun rest => by
  simp only [rdDebug, Debug.bytes, List.append_assoc]
  rw [(reads_bool x.uflt).bind, (reads_bool x.undo).bind, (reads_bool x.step).bind, (reads_64 x.base).bind, (reads_32 x.len).bind, (reads_32 x.head).bind]
  rfl

theorem reads_rf (x : RfRegs) : Reads rdRf x.bytes { x with unrep := x.unrep % 2 ^ 64 } := fun rest => by
  have hl : (leBytes x.unrep 8).length = 8 := length_leBytes _ _
  simp only [rdRf, RfRegs.bytes, List.append_assoc]
  rw [(reads_32 x.count).bind, (reads_64 x.base).bind, (reads_small 2 (by omega) x.slots).bind]
  show (({ count := x.count, base := x.base, slots := BitVec.ofNat 16 x.slots.toNat, unrep := leNat ((leBytes x.unrep 8 ++ rest).take 8) } : RfRegs),
    (leBytes x.unrep 8 ++ rest).drop 8) = _
  rw [List.take_left' hl, List.drop_left' hl, leNat_leBytes, BitVec.ofNat_toNat, BitVec.setWidth_eq]

/-- What section 0x01 gives back: all that a team is told by, up to the debug registers. -/
theorem rdSeq_eq (t b : Team) (h : t.join.length < 2 ^ 32) : ∃ rf w e, (rdSeq b (seqBytes t)).1 = { b with
    id := { b.id with alive := t.id.alive }, pc := t.pc, live := t.live, m := t.m, sup := t.sup, scc := t.scc, cls := t.cls, join := t.join, x := t.x
    asticky := t.asticky, aenable := t.aenable, sp := t.sp, rf := rf, dbg := t.dbg, clause := none, pfx := {}, group := none, sched := w, eng := e } := by
  simp only [rdSeq, seqBytes, List.append_assoc]
  rw [(reads_64 t.pc).bind, (reads_mask t.live).bind, (reads_mask t.m).bind, (reads_bool t.id.alive).bind, (reads_bool t.sup).bind,
    (reads_small 1 (by omega) t.scc).bind, (reads_small 1 (by omega) t.cls).bind, (reads_joins h).bind, (reads_trapRegs t.x).bind,
    (reads_small 1 (by omega) t.asticky).bind, (reads_small 1 (by omega) t.aenable).bind, (reads_spFault t.sp).bind, (reads_rf t.rf).bind,
    (reads_debug t.dbg).bind]
  simp only [BitVec.ofNat_toNat, BitVec.setWidth_eq]
  exact ⟨_, _, _, rfl⟩

/-- What section 0x01 gives back. -/
theorem rdSeq_seqBytes (t b : Team) (h : t.join.length < 2 ^ 32) : let a := (rdSeq b (seqBytes t)).1
    a.pc = t.pc ∧ a.live = t.live ∧ a.m = t.m ∧ a.id.alive = t.id.alive ∧ a.sup = t.sup ∧ a.scc = t.scc ∧ a.cls = t.cls ∧ a.join = t.join ∧ a.x = t.x ∧
    a.asticky = t.asticky ∧ a.aenable = t.aenable ∧ a.sp = t.sp ∧ a.dbg = t.dbg ∧ a.r = b.r ∧ a.q = b.q ∧ a.clause = none := by
  obtain ⟨rf, w, e, ha⟩ := rdSeq_eq t b h
  rw [ha]
  exact ⟨rfl, rfl, rfl, rfl, rfl, rfl, rfl, rfl, rfl, rfl, rfl, rfl, rfl, rfl, rfl, rfl⟩

/-! ### The header of an image (R194) -/

theorem length_imageHeader (s : State) (c n : Nat) : (imageHeader s c n).length = 64 := by
  simp only [imageHeader, List.length_append, length_leBytes, List.length_cons, List.length_nil, List.length_replicate]

/-- A block of a string of blocks of one length. -/
theorem take_drop_flatten {m : Nat} (l : List (List Byte)) (hl : ∀ b ∈ l, b.length = m) (i : Nat) : (l.flatten.drop (m * i)).take m = l.getD i [] := by
  induction l generalizing i with
  | nil => simp
  | cons b r ih =>
    have hb := hl b List.mem_cons_self
    cases i with
    | zero => rw [Nat.mul_zero, List.drop_zero, List.flatten_cons, List.take_left' hb]; rfl
    | succ i =>
      rw [Nat.mul_succ, Nat.add_comm, ← List.drop_drop, List.flatten_cons, List.drop_left' hb]
      exact ih (fun c hc => hl c (List.mem_cons_of_mem _ hc)) i

/-- The header as sixteen words. -/
theorem imageHeader_words (s : State) (c n : Nat) : let cr := s.crew c
    imageHeader s c n = ([leBytes 0x53564B4C 4, leBytes 1 2 ++ leBytes n 2, leBytes cr.handle 4, leBytes cr.crewno 4, leBytes cr.gen 4,
      leBytes (pendingOf s c) 4, leBytes cr.missing 4, [cr.classByte, 0, 0, 0]] ++ List.replicate 8 (List.replicate 4 0)).flatten := by
  simp only [imageHeader, List.flatten_append, List.flatten_cons, List.flatten_nil, List.append_nil, List.append_assoc]
  rfl

/-- What the header tells. -/
theorem imageHeader_fields (s : State) (c n : Nat) : let cr := s.crew c; let w := fun o => leNat (((imageHeader s c n).drop o).take 4)
    w 0 = 0x53564B4C ∧ w 4 = 1 + n % 2 ^ 16 * 2 ^ 16 ∧ w 8 = cr.handle % 2 ^ 32 ∧ w 12 = cr.crewno % 2 ^ 32 ∧ w 16 = cr.gen % 2 ^ 32 ∧
      w 20 = pendingOf s c % 2 ^ 32 ∧ w 24 = cr.missing % 2 ^ 32 ∧ w 28 = cr.classByte.toNat := by
  intro cr w
  have hword := fun i => congrArg leNat (take_drop_flatten (m := 4) ([leBytes 0x53564B4C 4, leBytes 1 2 ++ leBytes n 2, leBytes cr.handle 4,
    leBytes cr.crewno 4, leBytes cr.gen 4, leBytes (pendingOf s c) 4, leBytes cr.missing 4, [cr.classByte, 0, 0, 0]] ++
      List.replicate 8 (List.replicate 4 0)) (by simp) i)
  rw [← imageHeader_words] at hword
  refine ⟨(hword 0).trans (leNat_leBytes _ 4), (hword 1).trans ?_, (hword 2).trans (leNat_leBytes _ 4), (hword 3).trans (leNat_leBytes _ 4),
    (hword 4).trans (leNat_leBytes _ 4), (hword 5).trans (leNat_leBytes _ 4), (hword 6).trans (leNat_leBytes _ 4), (hword 7).trans ?_⟩
  · show leNat [BitVec.ofNat 8 1, BitVec.ofNat 8 (1 / 256), BitVec.ofNat 8 n, BitVec.ofNat 8 (n / 256)] = _
    simp only [leNat, BitVec.toNat_ofNat]
    omega
  · show leNat [cr.classByte, 0, 0, 0] = _
    simp [leNat]

/-! ### The copy engine's entries (R339) -/

/-- Bytes of a string as a number. -/
theorem leAt_getD (bs : List Byte) (off n : Nat) (h : off + n ≤ bs.length) : leAt (fun k => bs.getD k 0) off n = leNat ((bs.drop off).take n) := by
  rw [leAt]
  congr 1
  refine List.ext_getElem (by simp; omega) fun i h1 h2 => ?_
  rw [List.length_map, List.length_range] at h1
  simp [List.getElem?_eq_getElem (show off + i < bs.length by omega)]

/-- The state of an entry from its code. -/
theorem regionState_code (x : RegionState) : regionState x.code = x := by cases x <;> rfl

/-- The word of an entry's record that holds its state and flags. -/
def Region.word (r : Region) : Nat :=
  r.state.code + r.gen.toNat * 2 ^ 8 + r.poison.toNat * 2 ^ 16 + r.acq.toNat * 2 ^ 17 + r.scope.toNat * 2 ^ 18

/-- An entry's record in words. -/
def Region.words (r : Region) : List (List Byte) :=
  (List.range 8).map (fun k => leBytes (r.desc.getD k 0).toNat 8) ++ [leBytes r.word 8, leBytes 0 8]

theorem Region.bytes_eq (r : Region) : r.bytes = r.words.flatten := by
  rw [Region.words, List.flatten_append, ← List.flatMap_def, List.flatten_cons, List.flatten_cons, List.flatten_nil, List.append_nil, Region.bytes,
    List.append_assoc]
  rfl

theorem Region.length_words (r : Region) : ∀ b ∈ r.words, b.length = 8 := by
  simp only [Region.words, List.mem_append, List.mem_map, List.mem_cons, List.not_mem_nil, or_false]
  rintro b (⟨_, -, rfl⟩ | rfl | rfl) <;> exact length_leBytes _ _

theorem Region.length_bytes (r : Region) : r.bytes.length = 80 := by
  simp [Region.bytes, List.length_flatMap]

/-- A word of an entry's record. -/
theorem Region.leAt_bytes (r : Region) {k : Nat} (hk : k < 10) : leAt (fun k => r.bytes.getD k 0) (8 * k) 8 = leNat (r.words.getD k []) := by
  rw [leAt_getD _ _ _ (by rw [Region.length_bytes]; omega), Region.bytes_eq, take_drop_flatten _ r.length_words]

theorem Region.word_lt (r : Region) : r.word < 2 ^ 21 := by
  have hc : r.state.code < 8 := by cases r.state <;> decide
  have hg := r.gen.isLt
  have hs := r.scope.isLt
  have hp := Bool.toNat_lt r.poison
  have ha := Bool.toNat_lt r.acq
  rw [Region.word]
  omega

/-- The word holds its fields. -/
theorem Region.word_fields (r : Region) : let w : W64 := BitVec.ofNat 64 r.word
    regionState (w.toNat % 8) = r.state ∧ w.extractLsb' 8 8 = r.gen ∧ w.getLsbD 16 = r.poison ∧ w.getLsbD 17 = r.acq ∧ w.extractLsb' 18 3 = r.scope := by
  intro w
  have hc : r.state.code < 8 := by cases r.state <;> decide
  have hg := r.gen.isLt
  have hs := r.scope.isLt
  have hp := Bool.toNat_lt r.poison
  have ha := Bool.toNat_lt r.acq
  have hw : w.toNat = r.state.code + r.gen.toNat * 2 ^ 8 + r.poison.toNat * 2 ^ 16 + r.acq.toNat * 2 ^ 17 + r.scope.toNat * 2 ^ 18 := by
    rw [BitVec.toNat_ofNat, Nat.mod_eq_of_lt (by have := r.word_lt; omega), Region.word]
  have bit : ∀ (k : Nat) (b : Bool), w.toNat / 2 ^ k % 2 = b.toNat → w.getLsbD k = b := fun k b h => by
    rw [← BitVec.testBit_toNat, Nat.testBit_eq_decide_div_mod_eq, h]
    cases b <;> rfl
  refine ⟨?_, ?_, bit 16 _ (by omega), bit 17 _ (by omega), ?_⟩
  · rw [show w.toNat % 8 = r.state.code by omega, regionState_code]
  · apply BitVec.eq_of_toNat_eq
    rw [BitVec.extractLsb'_toNat, Nat.shiftRight_eq_div_pow]
    omega
  · apply BitVec.eq_of_toNat_eq
    rw [BitVec.extractLsb'_toNat, Nat.shiftRight_eq_div_pow]
    omega

/-- An entry of the copy engine is read back. -/
theorem regionOf_bytes (r : Region) (h : r.desc = [] ∨ (r.desc.length = 8 ∧ ∃ w ∈ r.desc, w ≠ 0)) : regionOf (fun k => r.bytes.getD k 0) = r := by
  have hword : ∀ k < 8, BitVec.ofNat 64 (leAt (fun k => r.bytes.getD k 0) (8 * k) 8) = r.desc.getD k 0 := fun k hk => by
    rw [r.leAt_bytes (by omega), Region.words, List.getD_append _ _ _ _ (by simpa using hk), List.getD_eq_getElem _ _ (by simpa using hk), List.getElem_map,
      List.getElem_range, leNat_leBytes_of_lt (r.desc.getD k 0).isLt, BitVec.ofNat_toNat, BitVec.setWidth_eq]
  have hdesc : (List.range 8).map (fun k => BitVec.ofNat 64 (leAt (fun k => r.bytes.getD k 0) (8 * k) 8)) = (List.range 8).map (r.desc.getD · 0) :=
    List.map_congr_left fun k hk => hword k (List.mem_range.mp hk)
  have hstate : leAt (fun k => r.bytes.getD k 0) 64 8 = r.word := by
    have := r.word_lt
    exact (r.leAt_bytes (k := 8) (by omega)).trans (leNat_leBytes_of_lt (by omega))
  obtain ⟨h1, h2, h3, h4, h5⟩ := r.word_fields
  have hd : (if ((List.range 8).map (r.desc.getD · 0)).all (· = 0) then [] else (List.range 8).map (r.desc.getD · 0)) = r.desc := by
    rcases h with h | ⟨hl, w, hw, hne⟩
    · rw [h]; rfl
    · have he : (List.range 8).map (r.desc.getD · 0) = r.desc := List.ext_getElem (by simp [hl]) fun i _ hi => by simp [hi]
      rw [he, if_neg]
      simpa using ⟨w, hw, hne⟩
  simp only [regionOf, hdesc, hstate, hd, h1, h2, h3, h4, h5]

end Sys2Proof.Machine
end

section
/-! A save image that is written without the codec is read back (R192, R194 to R197). -/

open Sys2Proof Sys2Proof.Machine

namespace Sys2Proof.Machine

/-! ### Bytes written and read at the home -/

/-- Bytes that were written are read back. -/
theorem homeBytes_setHomeBytes (s : State) (pa : Nat) (bs : List Byte) : homeBytes (setHomeBytes s pa bs) pa bs.length = bs := by
  refine List.ext_getElem (by simp [homeBytes]) fun i h1 h2 => ?_
  simp [homeBytes, homeByte_setHomeBytes, h2]

theorem homeBytes_congr {s u : State} {pa n : Nat} (h : ∀ k < n, homeByte u (pa + k) = homeByte s (pa + k)) : homeBytes u pa n = homeBytes s pa n :=
  List.map_congr_left fun k hk => h k (List.mem_range.mp hk)

theorem leAt_homeByte (s : State) (pa n : Nat) : leAt (homeByte s) pa n = leNat (homeBytes s pa n) := rfl

/-- No line of a range is poisoned. -/
def Clean (s : State) (a n : Nat) : Prop := ∀ pa, a ≤ pa → pa < a + n → isPoison s pa = false

theorem Clean.anyPoison {s : State} {a n : Nat} (h : Clean s a n) {pa k : Nat} (h1 : a ≤ pa) (h2 : pa + k ≤ a + n) : anyPoison s pa k = false := by
  rw [Machine.anyPoison, List.any_eq_false]
  intro i hi
  have := List.mem_range.mp hi
  rw [h (pa + i) (by omega) (by omega)]
  exact Bool.false_ne_true

/-- A write poisons nothing. -/
theorem Clean.setHomeBytes {s : State} {a n : Nat} (h : Clean s a n) (pa : Nat) (bs : List Byte) : Clean (setHomeBytes s pa bs) a n := fun x h1 h2 => by
  by_contra hne
  obtain ⟨y, hy, hp⟩ := (isPoison_iff _ _).mp (Bool.eq_true_of_not_eq_false hne)
  rw [poison_setHomeBytes] at hp
  split at hp
  · exact Bool.false_ne_true hp
  · exact Bool.false_ne_true ((h x h1 h2).symm.trans ((isPoison_iff s x).mpr ⟨y, hy, hp⟩))

theorem setHomeBytes_dies (s : State) (pa : Nat) (bs : List Byte) : (setHomeBytes s pa bs).dies = s.dies := by
  obtain ⟨m, p, l, e⟩ := setHomeBytes_frame bs s pa
  rw [e]

/-! ### Sections written and read -/

/-- A die without codec tables stores a section as it is. -/
theorem storedForm_raw {s : State} {d : Nat} (h : (s.die d).saveTabs = []) (t : Nat) (raw : List Byte) : storedForm s d t raw = (false, t, raw) := by
  simp [storedForm, saveFreqs, h]

/-- A field of a number, with what stands above and below it. -/
theorem bitsAt_of_eq {e v : Nat} (off n hi lo : Nat) (he : e = hi * 2 ^ (off + n) + v * 2 ^ off + lo) (hlo : lo < 2 ^ off) (hv : v < 2 ^ n) :
    bitsAt e off n = v := by
  have hdiv : e = lo + 2 ^ off * (v + 2 ^ n * hi) := by rw [he, pow_add]; ring
  rw [bitsAt, hdiv, Nat.add_mul_div_left _ _ (Nat.two_pow_pos off), Nat.div_eq_of_lt hlo, Nat.zero_add, Nat.add_mul_mod_self_left, Nat.mod_eq_of_lt hv]

/-- What a directory entry of a section that is stored as it is tells (R195). -/
theorem directoryEntry_fields {x : Section} {t off : Nat} (hs : x.sid < 2 ^ 8) (ht : x.team < 2 ^ 8) (hl : x.bytes.length < 2 ^ 24) (ho : off < 2 ^ 32) :
    let e := leNat (directoryEntry x (false, t, x.bytes) off)
    bitsAt e 32 24 = x.bytes.length ∧ bitsAt e 0 32 = off ∧ bitsAt e 84 1 = 0 ∧ bitsAt e 56 24 = x.bytes.length ∧ bitsAt e 96 8 = x.sid ∧
      bitsAt e 88 8 = x.team := by
  intro e
  have ht16 : t % 16 < 16 := Nat.mod_lt _ (by decide)
  have he : e = x.sid * 2 ^ 96 + x.team * 2 ^ 88 + t % 16 * 2 ^ 80 + x.bytes.length * 2 ^ 56 + x.bytes.length * 2 ^ 32 + off := by
    refine (leNat_leBytes _ 16).trans ?_
    rw [Nat.mod_eq_of_lt]
    · simp
    · simp only [Bool.toNat_false]; omega
  clear_value e
  refine ⟨bitsAt_of_eq 32 24 (x.sid * 2 ^ 40 + x.team * 2 ^ 32 + t % 16 * 2 ^ 24 + x.bytes.length) off ?_ ho hl,
    bitsAt_of_eq 0 32 (x.sid * 2 ^ 64 + x.team * 2 ^ 56 + t % 16 * 2 ^ 48 + x.bytes.length * 2 ^ 24 + x.bytes.length) 0 ?_ (by omega) ho,
    bitsAt_of_eq 84 1 (x.sid * 2 ^ 11 + x.team * 2 ^ 3) (t % 16 * 2 ^ 80 + x.bytes.length * 2 ^ 56 + x.bytes.length * 2 ^ 32 + off) ?_ (by omega) (by omega),
    bitsAt_of_eq 56 24 (x.sid * 2 ^ 16 + x.team * 2 ^ 8 + t % 16) (x.bytes.length * 2 ^ 32 + off) ?_ (by omega) hl,
    bitsAt_of_eq 96 8 0 (x.team * 2 ^ 88 + t % 16 * 2 ^ 80 + x.bytes.length * 2 ^ 56 + x.bytes.length * 2 ^ 32 + off) ?_ (by omega) hs,
    bitsAt_of_eq 88 8 x.sid (t % 16 * 2 ^ 80 + x.bytes.length * 2 ^ 56 + x.bytes.length * 2 ^ 32 + off) ?_ (by omega) ht⟩
  all_goals rw [he]; ring

/-- A section whose directory entry and bytes stand in memory is read. -/
theorem readSection_eq {v : State} {d area k t off : Nat} {x : Section} (hc : Clean v area (2 ^ 22)) (hs : x.sid < 2 ^ 8) (ht : x.team < 2 ^ 8)
    (hk : 64 + 16 * k + 16 ≤ 2 ^ 22) (hoff : off + x.bytes.length ≤ 2 ^ 22)
    (hdir : homeBytes v (area + 64 + 16 * k) 16 = directoryEntry x (false, t, x.bytes) off)
    (hbytes : homeBytes v (area + off) x.bytes.length = x.bytes) : readSection v d area k = some x := by
  obtain ⟨h1, h2, h3, h4, h5, h6⟩ := directoryEntry_fields (t := t) (off := off) hs ht (by omega) (by omega)
  rw [← hdir, ← leAt_homeByte] at h1 h2 h3 h4 h5 h6
  unfold readSection
  simp only [h1, h2, h3, h4, h5, h6]
  rw [hc.anyPoison (by omega) (by omega), hc.anyPoison (by omega) (by omega), if_neg (by simp; omega)]
  simp only [decodeSection, decide_false, Bool.not_false, if_true, Option.map_some, Nat.zero_ne_one]
  rw [show (List.range x.bytes.length).map (fun j => homeByte v (area + off + j)) = x.bytes from hbytes]

/-- Rounding up reaches as far. -/
theorem le_upTo128 (n : Nat) : n ≤ upTo128 n := by unfold upTo128; omega

theorem le_imageEnd (l : List Section) (off : Nat) : off ≤ l.foldl (fun n x => upTo128 (n + x.bytes.length)) off := by
  induction l generalizing off with
  | nil => exact le_rfl
  | cons x r ih => exact (Nat.le_trans (Nat.le_add_right _ _) (le_upTo128 _)).trans (ih _)

/-- Sections that the save area has room for are written where the directory says, and read back from there. -/
theorem writeSections_spec (d area n : Nat) (l : List Section) (k off : Nat) (s : State) (ht : (s.die d).saveTabs = []) (hc : Clean s area (2 ^ 22))
    (hdir : 64 + 16 * (k + l.length) ≤ off) (hend : l.foldl (fun n x => upTo128 (n + x.bytes.length)) off ≤ 2 ^ 22)
    (hid : ∀ x ∈ l, x.sid < 2 ^ 8 ∧ x.team < 2 ^ 8) : let u := writeSections d area n k off l s
    Clean u area (2 ^ 22) ∧ readSections u d area l.length k = some l ∧
    ∀ pa, pa < area + 64 + 16 * k ∨ (area + 64 + 16 * (k + l.length) ≤ pa ∧ pa < area + off) ∨ area + 2 ^ 22 ≤ pa → homeByte u pa = homeByte s pa := by
  induction l generalizing k off s with
  | nil => exact ⟨hc, rfl, fun pa _ => rfl⟩
  | cons x r ih =>
    rw [List.length_cons] at hdir
    rw [List.foldl_cons] at hend
    have hnext := (le_imageEnd r (upTo128 (off + x.bytes.length))).trans hend
    have hup := le_upTo128 (off + x.bytes.length)
    obtain ⟨hsid, hteam⟩ := hid x List.mem_cons_self
    let t := Config.choice (n + k) % 4
    let e := directoryEntry x (false, t, x.bytes) off
    have he : e.length = 16 := length_leBytes _ _
    let s1 := setHomeBytes s (area + 64 + 16 * k) e
    let s2 := setHomeBytes s1 (area + off) x.bytes
    have hstep : writeSections d area n k off (x :: r) s = writeSections d area n (k + 1) (upTo128 (off + x.bytes.length)) r s2 := by
      rw [writeSections]
      simp only [List.take_of_length_le (show x.bytes.length ≤ 2 ^ 22 - off by omega), storedForm_raw ht]
      rfl
    have htabs : (s2.die d).saveTabs = [] := by rw [State.die, setHomeBytes_dies, setHomeBytes_dies]; exact ht
    obtain ⟨hcu, hread, hkeep⟩ := ih (k + 1) (upTo128 (off + x.bytes.length)) s2 htabs ((hc.setHomeBytes _ _).setHomeBytes _ _) (by omega) hend
      fun y hy => hid y (List.mem_cons_of_mem _ hy)
    rw [hstep]
    intro u
    have hs2 : ∀ pa, homeByte s2 pa = if area + off ≤ pa ∧ pa < area + off + x.bytes.length then x.bytes.getD (pa - (area + off)) 0 else homeByte s1 pa :=
      homeByte_setHomeBytes _ _ _
    have hs1 : ∀ pa, homeByte s1 pa = if area + 64 + 16 * k ≤ pa ∧ pa < area + 64 + 16 * k + 16 then e.getD (pa - (area + 64 + 16 * k)) 0 else homeByte s pa := by
      intro pa; rw [← he]; exact homeByte_setHomeBytes _ _ _ _
    refine ⟨hcu, ?_, fun pa hpa => ?_⟩
    · have hd : homeBytes u (area + 64 + 16 * k) 16 = e := by
        refine (homeBytes_congr (s := s1) fun j hj => ?_).trans (he ▸ homeBytes_setHomeBytes s (area + 64 + 16 * k) e)
        rw [hkeep _ (by omega), hs2, if_neg (by omega)]
      have hb : homeBytes u (area + off) x.bytes.length = x.bytes := by
        refine (homeBytes_congr (s := s2) fun j hj => ?_).trans (homeBytes_setHomeBytes s1 (area + off) x.bytes)
        exact hkeep _ (by omega)
      rw [List.length_cons, readSections, readSection_eq hcu hsid hteam (by omega) (by omega) hd hb, hread]
    · rw [List.length_cons] at hpa
      rw [hkeep _ (by omega), hs2, if_neg (by omega), hs1, if_neg (by omega)]

/-! ### Images -/

/-- A crew has sixteen teams at most. -/
theorem length_teamKeys_le (s : State) (c : Nat) : (teamKeys s c).length ≤ 16 := (List.length_filter_le _ _).trans (by simp)

/-- The sections of an image are counted in two bytes, their identifiers and teams are bytes (R195). -/
theorem crewSections_spec (s : State) (c : Nat) : (crewSections s c).length < 2 ^ 16 ∧ ∀ x ∈ crewSections s c, x.sid < 2 ^ 8 ∧ x.team < 2 ^ 8 := by
  constructor
  · have := length_teamKeys_le s c
    simp only [crewSections, imageSections, List.length_map, List.length_append, List.length_flatMap, List.length_cons, List.length_nil]
    simp only [List.map_const', List.sum_replicate, smul_eq_mul]
    omega
  · have hteam : ∀ k : Nat, k % 16 < 2 ^ 8 := fun k => by omega
    intro x hx
    obtain ⟨e, he, rfl⟩ := List.mem_map.mp hx
    simp only [imageSections, List.mem_append, List.mem_map, List.mem_flatMap] at he
    rcases he with ⟨i, hi, rfl⟩ | ⟨k, -, i, hi, rfl⟩
    · exact ⟨(by decide : ∀ i ∈ [0x07, 0x08, 0x04, 0x05], i < 2 ^ 8) i hi, (by decide : 0xFF < 2 ^ 8)⟩
    · exact ⟨(by decide : ∀ i ∈ [0x07, 0x08, 0x09, 0x01, 0x02, 0x03, 0x06, 0x0A], i < 2 ^ 8) i hi, hteam k⟩

/-- What is read of sections depends on the dies and on memory alone. -/
theorem readSections_fresh (v : State) (f d area n k : Nat) : readSections { v with fresh := f } d area n k = readSections v d area n k := by
  induction n generalizing k with
  | zero => rfl
  | succ n ih => rw [readSections, readSections, ih]; rfl

/-- The count of sections stands at byte 6 of the header. -/
theorem imageHeader_count (s : State) (c n : Nat) (h : n < 2 ^ 16) : leNat (((imageHeader s c n).drop 6).take 2) = n :=
  leNat_leBytes_of_lt (n := 2) h

/-- A part of a range of bytes. -/
theorem homeBytes_part (s : State) (pa : Nat) {n off k : Nat} (h : off + k ≤ n) : homeBytes s (pa + off) k = ((homeBytes s pa n).drop off).take k := by
  refine List.ext_getElem (by simp [homeBytes]; omega) fun i h1 h2 => ?_
  simp [homeBytes, Nat.add_assoc]

/-- A header and sections that the save area has room for, written without the codec, are read back. -/
theorem writeSections_under {s v : State} {d a n : Nat} {h : List Byte} {l : List Section} (hh : h.length = 64) (ht : (s.die d).saveTabs = [])
    (hsize : l.foldl (fun n x => upTo128 (n + x.bytes.length)) (upTo128 (64 + 16 * l.length)) ≤ 2 ^ 22) (hp : Clean s a (2 ^ 22))
    (hid : ∀ x ∈ l, x.sid < 2 ^ 8 ∧ x.team < 2 ^ 8) (hv : v = writeSections d a n 0 (upTo128 (64 + 16 * l.length)) l (setHomeBytes s a h)) :
    readSections v d a l.length 0 = some l ∧ homeBytes v a 64 = h ∧ ∀ pa, pa < a ∨ a + 2 ^ 22 ≤ pa → homeByte v pa = homeByte s pa := by
  subst hv
  have hoff := le_upTo128 (64 + 16 * l.length)
  have hsz := (le_imageEnd l _).trans hsize
  obtain ⟨-, hread, hkeep⟩ := writeSections_spec d a n l 0 (upTo128 (64 + 16 * l.length)) (setHomeBytes s a h)
    (by rw [State.die, setHomeBytes_dies]; exact ht) (hp.setHomeBytes a h) (by omega) hsize hid
  refine ⟨hread, ?_, fun pa hpa => ?_⟩
  · exact (homeBytes_congr fun j hj => hkeep _ (by omega)).trans (hh ▸ homeBytes_setHomeBytes s a h)
  · rw [hkeep pa (by omega), homeByte_setHomeBytes, if_neg (by omega)]

/-- What `writeImage` does: memory gets header, directory and sections, and the counter of table choices goes on. -/
theorem writeImage_eq (s : State) (c : Nat) : ∃ v n f, writeImage s c = { v with fresh := f } ∧ OnlyMemory s v ∧
    v = writeSections (s.crew c).die (s.crew c).area n 0 (upTo128 (64 + 16 * (crewSections s c).length)) (crewSections s c)
      (setHomeBytes s (s.crew c).area (imageHeader s c (crewSections s c).length)) :=
  ⟨_, _, _, rfl, (onlyMemory_setHomeBytes _ _ _).trans (onlyMemory_writeSections _ _ _ _ _ _ _), rfl⟩

/-- An image that its save area has room for, written without the codec, is read back under its header, and nothing else changes (R192, R194 to R197). -/
theorem writeImage_spec (s : State) (c : Nat) : let cr := s.crew c; let l := crewSections s c; let u := writeImage s c; let a := cr.area
    let size := l.foldl (fun n x => upTo128 (n + x.bytes.length)) (upTo128 (64 + 16 * l.length))
    (s.die cr.die).saveTabs = [] → size ≤ 2 ^ 22 → (∀ pa, a ≤ pa → pa < a + 2 ^ 22 → isPoison s pa = false) →
      readImage u c = some l ∧ u.crews = s.crews ∧ u.team = s.team ∧ u.others = s.others ∧ homeBytes u a 64 = imageHeader s c l.length ∧
      ∀ pa, pa < a ∨ a + 2 ^ 22 ≤ pa → homeByte u pa = homeByte s pa := by
  intro cr l u a size ht hsize hp
  obtain ⟨hlen, hid⟩ := crewSections_spec s c
  obtain ⟨v, n, f, hu, hmem, hv⟩ := writeImage_eq s c
  obtain ⟨hread, hhead, hkeep⟩ := writeSections_under (length_imageHeader s c l.length) ht hsize hp hid hv
  have hcount : leNat (homeBytes v (a + 6) 2) = l.length := by
    rw [homeBytes_part v a (n := 64) (by omega), hhead]
    exact imageHeader_count s c l.length hlen
  clear_value l
  clear hv
  change u = _ at hu
  clear_value u
  subst hu
  refine ⟨?_, hmem.crews, hmem.team, hmem.others, hhead, hkeep⟩
  have hcr : State.crew { v with fresh := f } c = cr := hmem.crew c
  rw [readImage, hcr]
  change readSections { v with fresh := f } cr.die a (leNat (homeBytes v (a + 6) 2)) 0 = some l
  rw [hcount, readSections_fresh, hread]

end Sys2Proof.Machine
end

section
/-! The slot rows, and what stays of crews and rows while engines stop and images are written and loaded (R163, R190, R197). -/

open Sys2Proof Sys2Proof.Machine

namespace Sys2Proof.Machine

/-! ### Rows -/

theorem State.row_setRow (s : State) (ck i : Nat) (r : SlotRow) (a b : Nat) :
    (s.setRow ck i r).row a b = if a = ck ∧ b = i then r else s.row a b := by
  show smGet {} (State.core (s.setCore ck _) a).slots b = _
  rw [State.core_setCore]
  by_cases ha : a = ck
  · subst ha
    simp only [if_true, smGet_smSet, true_and]
    rfl
  · rw [if_neg ha, if_neg fun h => ha h.1]; rfl

/-- A core that is replaced by one with the same rows. -/
theorem State.row_setCore (s : State) (ck : Nat) (v : Core) (h : v.slots = (s.core ck).slots) (a b : Nat) : (s.setCore ck v).row a b = s.row a b := by
  rw [State.row, State.core_setCore]
  split
  · rename_i e; rw [h, ← e]; rfl
  · rfl

theorem State.setRow_frame (s : State) (ck i : Nat) (r : SlotRow) : ∃ k p, s.setRow ck i r = { s with cores := k, progress := p } := ⟨_, _, rfl⟩

theorem OnlyMemory.row {s u : State} (h : OnlyMemory s u) (a b : Nat) : u.row a b = s.row a b := by
  obtain ⟨w, l, n, e⟩ := h.2.1 a
  rw [State.row, State.row, e]

/-- A command that waits in none of a crew's rows. -/
def Quiet (s : State) (c : Nat) : Prop := ∀ p ∈ (s.crew c).slotsOf, (s.row p.1 p.2).cmd = 0

/-- A fold whose steps change nothing. -/
theorem foldl_fixed {α β : Type} (f : α → β → α) (a : α) (l : List β) (h : ∀ b ∈ l, f a b = a) : l.foldl f a = a := by
  induction l with
  | nil => rfl
  | cons b r ih => rw [List.foldl_cons, h b List.mem_cons_self]; exact ih fun x hx => h x (List.mem_cons_of_mem _ hx)

/-- Without a command that waits none is taken. -/
theorem takeCommand_quiet {s : State} {c : Nat} (h : Quiet s c) : takeCommand s c = s :=
  foldl_fixed _ s _ fun p hp => if_neg (by simp [h p hp])

/-- Changing a crew's rows changes cores alone. -/
theorem mapRows_frame (s : State) (c : Nat) (f : SlotRow → SlotRow) : ∃ k p, mapRows s c f = { s with cores := k, progress := p } :=
  foldl_keeps (fun u : State => ∃ k p, u = { s with cores := k, progress := p }) _ (fun u x ⟨k, p, e⟩ => by
    split
    · obtain ⟨k', p', e'⟩ := u.setRow_frame x.1 x.2 (f (u.row x.1 x.2))
      exact ⟨k', p', by rw [e', e]⟩
    · exact ⟨k, p, e⟩) _ _ ⟨_, _, rfl⟩

/-- What a change of rows leaves of every row, `mapRows` leaves. -/
theorem mapRows_row {β : Type} (g : SlotRow → β) (s : State) (c : Nat) (f : SlotRow → SlotRow) (h : ∀ r, g (f r) = g r) (a b : Nat) :
    g ((mapRows s c f).row a b) = g (s.row a b) :=
  foldl_same (fun u : State => g (u.row a b)) _ (fun u x => by
    split
    · rw [State.row_setRow]
      split
      · rename_i e; rw [h, e.1, e.2]
      · rfl
    · rfl) _ s

@[simp] theorem mapRows_crew (s : State) (c : Nat) (f : SlotRow → SlotRow) (k : Nat) : (mapRows s c f).crew k = s.crew k := by
  obtain ⟨a, p, hm⟩ := mapRows_frame s c f
  rw [hm]; rfl

@[simp] theorem mapRows_teamAt (s : State) (c : Nat) (f : SlotRow → SlotRow) (k : Nat) : (mapRows s c f).teamAt k = s.teamAt k := by
  obtain ⟨a, p, hm⟩ := mapRows_frame s c f
  rw [hm]; rfl

theorem Quiet.mapRows {s : State} {c : Nat} (h : Quiet s c) (f : SlotRow → SlotRow) (hf : ∀ r, (f r).cmd = r.cmd) : Quiet (mapRows s c f) c := fun p hp => by
  rw [mapRows_row SlotRow.cmd s c f hf]
  exact h p (by rwa [mapRows_crew] at hp)

/-- The row of an EMPTY slot. -/
def SlotRow.emptied (r : SlotRow) : Prop := r.state = 0 ∧ r.valid = false

/-- A row of an EMPTY slot, the crew's bit kept. -/
def SlotRow.vacate (r : SlotRow) (idem : Bool) : SlotRow := { r with valid := false, state := 0, crew := 0, cmd := 0, idem := idem }

/-- One slot becomes EMPTY, where it tells crew `c`. -/
def emptyRow (c : Nat) (idem : Bool) (s : State) (p : Nat × Nat) : State :=
  if (s.row p.1 p.2).crew = c then (s.setRow p.1 p.2 ((s.row p.1 p.2).vacate idem)).emit (.slotEmpty (p.1 / 48) (p.1 % 48) p.2) else s

theorem emptySlots_eq (s : State) (c : Nat) : emptySlots s c = (s.crew c).slotsOf.foldl (emptyRow c (s.crew c).idem) s := rfl

theorem emptyRow_row (c : Nat) (idem : Bool) (s : State) (p q : Nat × Nat) : (emptyRow c idem s p).row q.1 q.2 =
    if q = p ∧ (s.row p.1 p.2).crew = c then (s.row p.1 p.2).vacate idem else s.row q.1 q.2 := by
  unfold emptyRow
  by_cases h : (s.row p.1 p.2).crew = c
  · rw [if_pos h]
    refine (State.row_setRow s p.1 p.2 _ q.1 q.2).trans (if_congr ?_ rfl rfl)
    exact ⟨fun e => ⟨Prod.ext e.1 e.2, h⟩, fun e => Prod.ext_iff.mp e.1⟩
  · rw [if_neg h, if_neg fun e => h e.2]

theorem emptySlots_frame (s : State) (c : Nat) : ∃ k p o, emptySlots s c = { s with cores := k, progress := p, out := o } :=
  foldl_keeps (fun u : State => ∃ k p o, u = { s with cores := k, progress := p, out := o }) (emptyRow c (s.crew c).idem) (fun u x ⟨k, p, o, e⟩ => by
    unfold emptyRow
    split
    · exact ⟨_, _, _, by rw [e]; rfl⟩
    · exact ⟨k, p, o, e⟩) _ _ ⟨_, _, _, rfl⟩

theorem emptySlots_crew (s : State) (c k : Nat) : (emptySlots s c).crew k = s.crew k := by
  obtain ⟨a, p, o, e⟩ := emptySlots_frame s c
  rw [e]; rfl

/-- Of some slots, each is EMPTY afterwards, if its row tells the crew or it is EMPTY before. -/
theorem emptyRow_foldl (c : Nat) (idem : Bool) (l : List (Nat × Nat)) (s : State) (h : ∀ p ∈ l, (s.row p.1 p.2).crew = c ∨ (s.row p.1 p.2).emptied)
    (q : Nat × Nat) (hq : q ∈ l ∨ (s.row q.1 q.2).emptied) : ((l.foldl (emptyRow c idem) s).row q.1 q.2).emptied := by
  induction l generalizing s with
  | nil => exact hq.resolve_left List.not_mem_nil
  | cons p r ih =>
    have keep : ∀ y : Nat × Nat, (s.row y.1 y.2).emptied → ((emptyRow c idem s p).row y.1 y.2).emptied := fun y hy => by
      rw [emptyRow_row]
      split
      · exact ⟨rfl, rfl⟩
      · exact hy
    have head : ((emptyRow c idem s p).row p.1 p.2).emptied := by
      rw [emptyRow_row]
      split
      · exact ⟨rfl, rfl⟩
      · rename_i hne
        exact (h p List.mem_cons_self).resolve_left fun e => hne ⟨rfl, e⟩
    refine ih (emptyRow c idem s p) (fun y hy => ?_) ?_
    · by_cases hy' : y = p
      · exact .inr (hy' ▸ head)
      · rw [emptyRow_row, if_neg fun e => hy' e.1]
        exact h y (List.mem_cons_of_mem _ hy)
    · rcases hq with hq | hq
      · rcases List.mem_cons.mp hq with rfl | hq
        · exact .inr head
        · exact .inl hq
      · exact .inr (keep q hq)

/-- The slots of a crew that its rows tell are EMPTY afterwards. -/
theorem emptySlots_row {s : State} {c : Nat} (h : ∀ p ∈ (s.crew c).slotsOf, (s.row p.1 p.2).crew = c) :
    ∀ p ∈ (s.crew c).slotsOf, ((emptySlots s c).row p.1 p.2).emptied :=
  fun p hp => emptyRow_foldl c _ _ s (fun q hq => .inl (h q hq)) p (.inl hp)

/-! ### What stays of crews and rows -/

/-- A crew but for what its image's sections hold of it as a whole, and its rays and batches. -/
def Crew.seat (c : Crew) : Crew :=
  { c with barriers := [], reform := [], scratch := [], spoison := [], regions := [], mat := {}, rays := [], batches := [] }

/-- Crews stay where they are and what they are, and the rows of the slot tables stay. -/
structure SameSeats (s u : State) : Prop where
  seat : ∀ c, (u.crew c).seat = (s.crew c).seat
  row : ∀ a b, u.row a b = s.row a b

theorem SameSeats.refl (s : State) : SameSeats s s := ⟨fun _ => rfl, fun _ _ => rfl⟩

theorem SameSeats.trans {s u v : State} (h : SameSeats s u) (h' : SameSeats u v) : SameSeats s v :=
  ⟨fun c => (h'.seat c).trans (h.seat c), fun a b => (h'.row a b).trans (h.row a b)⟩

section
variable {s u : State} (h : SameSeats s u)
include h

/-- What a seat tells stays. -/
theorem SameSeats.get {β : Type} (g : Crew → β) (c : Nat) (hg : ∀ x, g x.seat = g x := by intros; rfl) : g (u.crew c) = g (s.crew c) := by
  rw [← hg (u.crew c), h.seat, hg]

theorem SameSeats.slotsOf (c : Nat) : (u.crew c).slotsOf = (s.crew c).slotsOf := h.get Crew.slotsOf c
theorem SameSeats.state (c : Nat) : (u.crew c).state = (s.crew c).state := h.get Crew.state c

theorem SameSeats.quiet {c : Nat} (hq : Quiet s c) : Quiet u c := fun p hp => by
  rw [h.row]; exact hq p (h.slotsOf c ▸ hp)

end

theorem sameSeats_of_frame {s u : State} (hc : u.crews = s.crews) (hk : u.cores = s.cores) : SameSeats s u :=
  ⟨fun c => by rw [State.crew, hc]; rfl, fun a b => by rw [State.row, State.core, hk]; rfl⟩

theorem OnlyMemory.sameSeats {s u : State} (h : OnlyMemory s u) : SameSeats s u := ⟨fun c => by rw [h.crew], h.row⟩

theorem sameSeats_setCrew (s : State) (c : Nat) (x : Crew) (h : x.seat = (s.crew c).seat) : SameSeats s (s.setCrew c x) :=
  ⟨fun k => by
    rw [State.crew_setCrew]
    split
    · rename_i e; rw [e, h]
    · rfl, fun _ _ => rfl⟩

theorem sameSeats_setCore (s : State) (ck : Nat) (v : Core) (h : v.slots = (s.core ck).slots) : SameSeats s (s.setCore ck v) :=
  ⟨fun _ => rfl, s.row_setCore ck v h⟩

theorem sameSeats_setTeamAt (s : State) (k : Nat) (t : Team) : SameSeats s (s.setTeamAt k t) := by
  obtain ⟨a, o, e⟩ := s.setTeamAt_frame k t
  rw [e]; exact sameSeats_of_frame rfl rfl

theorem sameSeats_updTeam (s : State) (k : Nat) (f : Team → Team) : SameSeats s (s.updTeam k f) := sameSeats_setTeamAt s k _

theorem sameSeats_foldl {β : Type} (f : State → β → State) (hf : ∀ s b, SameSeats s (f s b)) (l : List β) (s : State) : SameSeats s (l.foldl f s) :=
  foldl_keeps (SameSeats s) f (fun u b h => h.trans (hf u b)) l s (.refl s)

theorem sameSeats_dropLeave (s : State) (d amps : Nat) (who : LeaveWho) (l : Leave) : SameSeats s (dropLeave s d amps who l) := by
  rcases dropLeave_frame s d amps who l with e | ⟨a, p, e⟩ <;> rw [e] <;> exact sameSeats_of_frame rfl rfl

end Sys2Proof.Machine
end

section
/-! What the engines' letting go of a crew leaves (R38, R190, R338). -/

open Sys2Proof Sys2Proof.Machine

namespace Sys2Proof.Machine

/-- Engines stop: crews and rows stay, a team changes in what its engines keep alone, operations may go. -/
structure Stops (s u : State) : Prop extends SameSeats s u where
  team : ∀ k, ∃ e, u.teamAt k = { s.teamAt k with eng := e }
  ops : ∀ o ∈ u.ops, o ∈ s.ops

theorem Stops.refl (s : State) : Stops s s := ⟨.refl s, fun _ => ⟨_, rfl⟩, fun _ h => h⟩

theorem Stops.trans {s u v : State} (h : Stops s u) (h' : Stops u v) : Stops s v :=
  ⟨h.toSameSeats.trans h'.toSameSeats, fun k => by
    obtain ⟨e, he⟩ := h.team k
    obtain ⟨e', he'⟩ := h'.team k
    exact ⟨e', by rw [he', he]⟩, fun o ho => h.ops o (h'.ops o ho)⟩

theorem stops_foldl {β : Type} (f : State → β → State) (hf : ∀ s b, Stops s (f s b)) (l : List β) (s : State) : Stops s (l.foldl f s) :=
  foldl_keeps (Stops s) f (fun u b h => h.trans (hf u b)) l s (.refl s)

/-- What a team tells apart from its engines stays. -/
theorem Stops.get {s u : State} {β : Type} (h : Stops s u) (g : Team → β) (k : Nat) (hg : ∀ (t : Team) e, g { t with eng := e } = g t := by intros; rfl) :
    g (u.teamAt k) = g (s.teamAt k) := by
  obtain ⟨e, he⟩ := h.team k
  rw [he, hg]

theorem Stops.teamKeys {s u : State} (h : Stops s u) (c : Nat) : teamKeys u c = teamKeys s c := by
  unfold Machine.teamKeys
  refine List.filter_congr fun k _ => ?_
  rw [h.get (fun t => t.id.crew) k]

/-! ### Steps -/

/-- A step that changes neither teams nor operations. -/
theorem SameSeats.stops {s u : State} (h : SameSeats s u) (ht : u.team = s.team) (ho : u.others = s.others) (hp : u.ops = s.ops) : Stops s u :=
  ⟨h, fun k => ⟨(s.teamAt k).eng, by unfold State.teamAt; rw [ht, ho]⟩, fun o h => hp ▸ h⟩

theorem stops_setCrew (s : State) (c : Nat) (x : Crew) (h : x.seat = (s.crew c).seat) : Stops s (s.setCrew c x) :=
  (sameSeats_setCrew s c x h).stops rfl rfl rfl

theorem stops_setCore (s : State) (ck : Nat) (v : Core) (h : v.slots = (s.core ck).slots) : Stops s (s.setCore ck v) :=
  (sameSeats_setCore s ck v h).stops rfl rfl rfl

theorem stops_dropLeave (s : State) (d amps : Nat) (who : LeaveWho) (l : Leave) : Stops s (dropLeave s d amps who l) := by
  rcases dropLeave_frame s d amps who l with e | ⟨a, p, e⟩
  · rw [e]; exact .refl s
  · rw [e]; exact SameSeats.stops (sameSeats_of_frame rfl rfl) rfl rfl rfl

theorem stops_filterOps (s : State) (p : Op → Bool) : Stops s { s with ops := s.ops.filter p } :=
  ⟨sameSeats_of_frame rfl rfl, fun _ => ⟨_, rfl⟩, fun _ ho => (List.mem_filter.mp ho).1⟩

theorem stops_updEng (s : State) (k : Nat) (g : Team → TeamEng) : Stops s (s.updTeam k fun t => { t with eng := g t }) :=
  ⟨sameSeats_updTeam s k _, fun j => by
    rw [s.teamAt_updTeam k j (fun t => { t with eng := g t }) fun _ => rfl]
    split
    · rename_i e; rw [e]; exact ⟨_, rfl⟩
    · exact ⟨_, rfl⟩, fun o ho => by
      obtain ⟨a, b, e⟩ := s.updTeam_frame k fun t => { t with eng := g t }
      rw [e] at ho; exact ho⟩

/-! ### The array, the leaves, the fills, the walks -/

theorem stops_mapMat (s : State) (c : Nat) (f : Matrix → Matrix) : Stops s (s.mapMat c f) := stops_setCrew s c _ rfl

theorem stops_stopArray (s : State) (ck : Nat) : Stops s (stopArray s ck) := by
  unfold stopArray
  split
  · exact .refl s
  · have h := stops_setCore s ck { s.core ck with array := none } rfl
    dsimp only
    split
    · exact h
    · exact (h.trans (stops_dropLeave _ _ _ _ _)).trans (stops_mapMat _ _ _)

theorem stops_freeArray (s : State) (c : Nat) : Stops s (freeArray s c) := by
  have rival : ∀ (u : State) ck, Stops u (if ((u.core ck).rival.map Prod.fst) = some c then u.setCore ck { u.core ck with rival := none } else u) :=
    fun u ck => by
      split
      · exact stops_setCore u ck _ rfl
      · exact .refl u
  refine stops_foldl _ (fun u ck => ?_) _ s
  dsimp only
  refine Stops.trans ?_ (rival _ ck)
  split
  · exact stops_stopArray u ck
  · exact .refl u

theorem stops_leavesBack (s : State) (c : Nat) : Stops s (leavesBack s c) := by
  have h1 : ∀ (l : List RayBatch) (u : State), Stops u (l.foldl (fun s b => dropLeave s (s.teamAt (teamKey c b.team)).id.die 3 (.rays c b.id) b.leave) u) :=
    fun l u => stops_foldl _ (fun _ _ => stops_dropLeave _ _ _ _ _) l u
  have h2 : ∀ (l : List MatOp) (u : State), Stops u (l.foldl (fun s o => dropLeave s (opSpot s c o).1 (matAmps o.ta) (.array c o.id) o.leave) u) :=
    fun l u => stops_foldl _ (fun _ _ => stops_dropLeave _ _ _ _ _) l u
  have h3 : ∀ (l : List Nat) (u : State), Stops u (l.foldl (fun s k =>
      let t := s.teamAt k
      (dropLeave s t.id.die 2 (.word k) t.eng.leave).updTeam k fun t => { t with eng := { t.eng with leave := .free } }) u) :=
    fun l u => stops_foldl _ (fun _ _ => (stops_dropLeave _ _ _ _ _).trans (stops_updEng _ _ _)) l u
  exact (((h1 _ s).trans (h2 _ _)).trans (h3 _ _)).trans (stops_setCrew _ c _ (by rfl))

theorem stops_abandonFill (s : State) (c e : Nat) : Stops s (abandonFill s c e) :=
  (stops_foldl (fun (s : State) (o : Op) => match o.kind with | .fill f => dropLeave s (s.teamAt o.team).id.die 2 (.op o.id) f.leave | _ => s) (fun u o => by
    split
    · exact stops_dropLeave _ _ _ _ _
    · exact .refl u) _ s).trans (stops_filterOps _ _)

/-- A lookup in a map whose values all changed. -/
theorem smGet_mapValues {β γ : Type} (d : β) (f : β → γ) (m : SMap β) (k : Nat) : smGet (f d) (m.map fun x => (x.1, f x.2)) k = f (smGet d m k) := by
  induction m with
  | nil => rfl
  | cons e r ih =>
    simp only [List.map_cons, smGet]
    split
    · rfl
    · exact ih

/-- What a team no longer waits for, once a window has left FILLING and DRAINING. -/
theorem stops_leftWindow (s : State) (c e : Nat) : Stops s (leftWindow s c e) := by
  let f : Team → Team := fun t => if t.id.crew = c && t.eng.parked ≠ [] then { t with eng := { t.eng with parked := t.eng.parked.filter (· ≠ e) } } else t
  have hf : ∀ t, ∃ x, f t = { t with eng := x } := fun t => by
    unfold f
    split
    · exact ⟨_, rfl⟩
    · exact ⟨t.eng, rfl⟩
  have h0 : f {} = {} := by unfold f; simp
  have hkey : (f s.team).key = s.team.key := by
    obtain ⟨x, hx⟩ := hf s.team
    rw [hx]; rfl
  refine ⟨sameSeats_of_frame rfl rfl, fun k => ?_, fun o h => h⟩
  have : (leftWindow s c e).teamAt k = f (s.teamAt k) := by
    show (if k = (f s.team).key then f s.team else smGet {} (s.others.map fun x => (x.1, f x.2)) k) = f (if k = s.team.key then s.team else smGet {} s.others k)
    rw [hkey]
    split
    · rfl
    · exact (congrArg (smGet · _ k) h0.symm).trans (smGet_mapValues {} f s.others k)
  rw [this]
  exact hf _

theorem stops_dropFills (s : State) (c : Nat) : Stops s (dropFills s c) := by
  refine stops_foldl _ (fun u e => ?_) _ s
  dsimp only
  split
  · exact .refl u
  · exact ((stops_abandonFill u c e).trans (stops_setCrew _ c _ (by rfl))).trans (stops_leftWindow _ c e)

theorem stops_dropWalks (s : State) (c : Nat) : Stops s ((teamKeys s c).foldl (fun s k => dropWalks s (s.teamAt k).coreK k) s) :=
  stops_foldl _ (fun _ _ => stops_setCore _ _ _ (by rfl)) _ s

/-- Array, leaves and fills let go of a crew. -/
theorem stops_engines (s : State) (c : Nat) : Stops s (dropFills (leavesBack (freeArray s c) c) c) :=
  ((stops_freeArray s c).trans (stops_leavesBack _ c)).trans (stops_dropFills _ c)

theorem stops_stopEngines (s : State) (c : Nat) : Stops s (stopEngines s c) := by
  have h := stops_engines s c
  unfold stopEngines
  generalize dropFills (leavesBack (freeArray s c) c) c = u at h
  have hw := stops_dropWalks u c
  exact (h.trans hw).trans (stops_setCrew _ c _ (hw.seat c).symm)

theorem stops_dropRest (s : State) (c : Nat) : Stops s (dropRest s c) := (stops_engines s c).trans (stops_filterOps _ _)

end Sys2Proof.Machine
end

section
/-! Slots are bound, crews start and are told to save (R164 to R166, R192). -/

open Sys2Proof Sys2Proof.Machine

namespace Sys2Proof.Machine

/-! ### SLOT_BIND (R164, R165) -/

/-- A change of fusion empties L1s and tells the die. -/
theorem setFusion_frame (s : State) (d k : Nat) (on : Bool) : (∃ a b, setFusion s d k on = { s with cores := a, dies := b }) ∧ SameSeats s (setFusion s d k on) := by
  unfold setFusion
  dsimp only
  split
  · exact ⟨⟨_, _, rfl⟩, .refl s⟩
  · have hc : ∀ l : List Nat, ∃ a, l.foldl (fun s j => dropL1 s (coreKey d (k * 8 + j))) s = { s with cores := a } := fun l =>
      foldl_keeps (fun u : State => ∃ a, u = { s with cores := a }) _ (by rintro _ j ⟨a, rfl⟩; exact ⟨_, rfl⟩) l s ⟨_, rfl⟩
    have hs := sameSeats_foldl (fun s j => dropL1 s (coreKey d (k * 8 + j))) (fun u j => (onlyMemory_dropL1 u _).sameSeats) (List.range 8) s
    obtain ⟨a, e⟩ := hc (List.range 8)
    rw [e] at hs ⊢
    exact ⟨⟨a, _, rfl⟩, hs.trans (sameSeats_of_frame rfl rfl)⟩

theorem settleFusion_frame (s : State) (c : Crew) (on : Bool) :
    (∃ a b, settleFusion s c on = { s with cores := a, dies := b }) ∧ SameSeats s (settleFusion s c on) :=
  foldl_keeps (fun u => (∃ a b, u = { s with cores := a, dies := b }) ∧ SameSeats s u) _ (fun u k ⟨⟨a, b, e⟩, h⟩ => by
    split
    · exact ⟨⟨a, b, e⟩, h⟩
    · obtain ⟨⟨a', b', e'⟩, h'⟩ := setFusion_frame u k.1 k.2 on
      exact ⟨⟨a', b', by rw [e', e]⟩, h.trans h'⟩) _ _ ⟨⟨_, _, rfl⟩, .refl s⟩

/-- A bind that is refused. -/
theorem bindSlot_bad {s : State} {d k sl : Nat} (hr : (s.row (coreKey d k) sl).state = 0) (hs : slotThere k sl = true)
    (hb : bindBad s d k sl (s.row (coreKey d k) sl) = true) :
    bindSlot s d k sl = s.setRow (coreKey d k) sl { s.row (coreKey d k) sl with err := true, valid := false } := by
  simp [bindSlot, hr, hs, hb]

/-- The launch of a row that passes its checks. -/
theorem launchOf_of_bind {s : State} {d k sl : Nat} {r : SlotRow} (hb : bindBad s d k sl r = false) : ∃ e, launchOf s r.lhandle.toNat = some e := by
  cases h : launchOf s r.lhandle.toNat with
  | none => simp [bindBad, h] at hb
  | some e => exact ⟨e, rfl⟩

/-- A bind that starts a crew. -/
theorem bindSlot_new {s : State} {d k sl : Nat} {e : LaunchEntry} (hr : (s.row (coreKey d k) sl).state = 0) (hs : slotThere k sl = true)
    (hb : bindBad s d k sl (s.row (coreKey d k) sl) = false) (hn : bindsTo s (s.row (coreKey d k) sl) = none) (ha : (s.row (coreKey d k) sl).area = 0)
    (he : launchOf s (s.row (coreKey d k) sl).lhandle.toNat = some e) :
    let r := s.row (coreKey d k) sl
    let cr := newCrew (e.bound r.crewno.toNat s.tick) d k sl r
    ∃ a b p, bindSlot s d k sl = ({ s.setCrew (s.nextOp + 1) cr with cores := a, dies := b, nextOp := s.nextOp + 1, progress := p }).setRow (coreKey d k) sl
      { r with valid := true, err := false, state := 1, crew := s.nextOp + 1, cmd := 0 } := by
  intro r cr
  obtain ⟨⟨a, b, hf⟩, -⟩ := settleFusion_frame s cr cr.fuse
  have h : bindSlot s d k sl = (({ (settleFusion s cr cr.fuse).setCrew (s.nextOp + 1) cr with nextOp := s.nextOp + 1 }).setLaunch
      (handleDie r.lhandle.toNat) (handleEntry r.lhandle.toNat) (e.bound r.crewno.toNat s.tick)).setRow (coreKey d k) sl
        { r with valid := true, err := false, state := 1, crew := s.nextOp + 1, cmd := 0 } := by
    simp [bindSlot, hr, hs, hb, hn, ha, he, cr, r]
  rw [h, hf]
  exact ⟨_, _, _, rfl⟩

/-- SLOT_BIND of an EMPTY slot: ERR, or a new crew that is STARTING (R164, R165). -/
theorem slotBind_spec (s : State) : let d := s.site.die; let ck := coreKey d s.site.core; let sl := s.site.slot; let r := s.row ck sl
    r.state = 0 → slotThere s.site.core sl = true →
      (bindBad s d s.site.core sl r = true → ∃ u, exec .slotBind s = .next u ∧ u.row ck sl = { r with err := true, valid := false } ∧ u.crews = s.crews ∧ u.mem = s.mem) ∧
      (bindBad s d s.site.core sl r = false → bindsTo s r = none → r.area = 0 → ∃ u, exec .slotBind s = .next u ∧
        u.row ck sl = { r with valid := true, err := false, state := 1, crew := s.nextOp + 1, cmd := 0 } ∧
        (u.crew (s.nextOp + 1)).state = .starting ∧ (u.crew (s.nextOp + 1)).crewno = r.crewno.toNat ∧ u.team = s.team ∧ u.mem = s.mem ∧
        ∀ e, launchOf s r.lhandle.toNat = some e → let y := u.crew (s.nextOp + 1)
          y.words = e.words ∧ y.ctx = e.ctx ∧ y.splen = if lSpread e.words then 0 else r.splen) := by
  intro d ck sl r hr hs
  refine ⟨fun hb => ⟨bindSlot s d s.site.core sl, rfl, ?_⟩, fun hb hn ha => ⟨bindSlot s d s.site.core sl, rfl, ?_⟩⟩
  · rw [bindSlot_bad hr hs hb]
    exact ⟨by rw [State.row_setRow, if_pos ⟨rfl, rfl⟩], rfl, rfl⟩
  · obtain ⟨e, he⟩ := launchOf_of_bind hb
    obtain ⟨a, b, p, h⟩ := bindSlot_new hr hs hb hn ha he
    have hcr : (bindSlot s d s.site.core sl).crew (s.nextOp + 1) = newCrew (e.bound r.crewno.toNat s.tick) d s.site.core sl r := by
      rw [h]
      exact (State.crew_setCrew s _ _ _).trans (if_pos rfl)
    rw [hcr]
    refine ⟨by rw [h, State.row_setRow, if_pos ⟨rfl, rfl⟩], if_pos ha, rfl, by rw [h]; rfl, by rw [h]; rfl, fun e' he' => ?_⟩
    obtain rfl : e = e' := Option.some.inj (he.symm.trans he')
    exact ⟨rfl, rfl, rfl⟩

/-! ### SLOT_SAVE (R192) -/

/-- SLOT_SAVE of a slot that is RUN: its crew is SAVING. -/
theorem slotSave_spec (s : State) : let r := s.row (coreKey s.site.die s.site.core) s.site.slot
    r.state = 2 → ∃ u, exec .slotSave s = .next u ∧ (u.crew r.crew).state = .saving := by
  intro r hr
  have he : exec .slotSave s = .next (saveCrew s r.crew) := by
    show Host.Outcome.next (slotCommand s s.site.die s.site.core s.site.slot 1) = _
    have hr' : (s.row (coreKey s.site.die s.site.core) s.site.slot).state = 2 := hr
    simp [slotCommand, hr', r]
  refine ⟨_, he, ?_⟩
  rw [saveCrew, (stops_stopEngines _ _).state, beginSave, mapRows_crew, State.crew_setCrew, if_pos rfl]

end Sys2Proof.Machine
end

section
/-! CREW_START (R166, R170). -/

open Sys2Proof Sys2Proof.Machine

namespace Sys2Proof.Machine

/-- A pair read after it was written, where no word of a group still reads what stood before. -/
theorem Team.getS64_setS64 {t : Team} (h : t.group = none) (i : Nat) (v : W64) : (t.setS64 i v).getS64 i = v := by
  have hs : ∀ k, (t.setS64 i v).getS k = smGet 0 (t.setS64 i v).r.s k := fun k => by
    rw [Team.getS, Team.sSrc, Team.rSrc, Team.setS64_group, h]
  have hl : (t.setS64 i v).getS i = v.extractLsb' 0 32 := by rw [hs]; simp [Team.setS64, Team.setS]
  have hh : (t.setS64 i v).getS (i + 1) = v.extractLsb' 32 32 := by rw [hs]; simp [Team.setS64, Team.setS]
  have hv : v.extractLsb' 32 32 ++ v.extractLsb' 0 32 = v.extractLsb' 0 64 := BitVec.extractLsb'_append_extractLsb'_eq_extractLsb' rfl
  rw [Team.getS64, hl, hh]
  exact hv.trans BitVec.extractLsb'_eq_self

/-- What a team of a crew that no record feeds is at its start (R166). -/
structure Starts (c : Nat) (cr : Crew) (n : Nat) (t : Team) : Prop where
  id : t.id.alive = true ∧ t.id.crew = c ∧ t.id.tno = n ∧ t.coreK = (cr.spots.getD n (coreKey cr.die cr.core, cr.slot)).1
  pc : t.pc = cr.words.getD 0 0
  lanes : t.live = fullMask (lWidth cr.words) ∧ t.m = t.live
  cls : t.cls = cr.ceil ∧ t.sup = false
  arg : t.getS64 60 = cr.words.getD 1 0
  clear : t.busy = 0 ∧ t.join = []

theorem freshTeam_starts (s : State) (c : Nat) (cr : Crew) (n : Nat) (hf : cr.fed = []) : Starts c cr n (freshTeam s c cr n) := by
  have hzip : ∀ l : List Nat, (([] : List (List W32)).headD []).zip l = [] := fun _ => rfl
  have hk : ∀ k : Nat, coreKey (k / 48) (k % 48) = k := fun k => by unfold coreKey; omega
  unfold freshTeam
  simp only [hf, hzip, List.foldl_nil, ite_self, ne_eq, not_true_eq_false, decide_false, Bool.and_false, Bool.false_eq_true, if_false]
  exact ⟨⟨rfl, rfl, rfl, hk _⟩, rfl, ⟨rfl, rfl⟩, ⟨rfl, rfl⟩, Team.getS64_setS64 rfl 60 _, rfl, rfl⟩

/-- A team that starts stands at its own key. -/
theorem Starts.key {c : Nat} {cr : Crew} {n : Nat} {t : Team} (h : Starts c cr n t) : t.key = teamKey c n := by
  obtain ⟨-, hc, ht, -⟩ := h.id
  rw [Team.key, hc, ht]

/-- Each of some teams of a crew starts. -/
theorem startTeams_starts (c : Nat) (cr : Crew) (hf : cr.fed = []) (l : List Nat) (s : State) (n : Nat)
    (hn : n ∈ l ∨ Starts c cr n (s.teamAt (teamKey c n))) :
    Starts c cr n ((l.foldl (fun s n => s.setTeamAt (teamKey c n) (freshTeam s c cr n)) s).teamAt (teamKey c n)) := by
  induction l generalizing s with
  | nil => exact hn.resolve_left List.not_mem_nil
  | cons m r ih =>
    have hm := freshTeam_starts s c cr m hf
    refine ih _ ?_
    rw [State.teamAt_setTeamAt s _ _ _ fun _ => hm.key]
    by_cases h : n = m
    · rw [h, if_pos rfl]; exact .inr hm
    · rw [if_neg fun e => h (teamKey_inj e)]
      exact hn.imp_left fun e => (List.mem_cons.mp e).resolve_left h

/-- CREW_START without a queue: what it does, when no command waits (R166). -/
theorem crewStart_eq {s : State} (hs : (s.crew s.site.crew).state = .starting) (hb : allBound (s.crew s.site.crew) = true)
    (hq : lInq (s.crew s.site.crew).words = none) : let c := s.site.crew; let cr : Crew := { s.crew c with state := .run, fed := [] }
    exec .crewStart s = .next (takeCommand (mapRows ((List.range (lTeams cr.words)).foldl (fun s n => s.setTeamAt (teamKey c n) (freshTeam s c cr n))
      (acquireCrew (s.setCrew c cr) cr (lScope cr.words))) c fun r => { r with state := 2 }) c) := by
  intro c cr
  show execCrewStart s = _
  simp [execCrewStart, hs, hb, takeFed, hq, c, cr]

/-- CREW_START of a crew bound in all its slots (R166, R170). -/
theorem crewStart_spec (s : State) : let c := s.site.crew; let cr := s.crew c
    cr.state = .starting → allBound cr = true → lInq cr.words = none → Quiet s c → ∃ u, exec .crewStart s = .next u ∧ (u.crew c).state = .run ∧
      ∀ n < lTeams cr.words, let t := u.teamAt (teamKey c n)
        t.id.alive = true ∧ t.id.crew = c ∧ t.id.tno = n ∧ t.coreK = (cr.spots.getD n (coreKey cr.die cr.core, cr.slot)).1 ∧ t.pc = cr.words.getD 0 0 ∧
        t.live = fullMask (lWidth cr.words) ∧ t.m = t.live ∧ t.cls = cr.ceil ∧ t.sup = false ∧ t.getS64 60 = cr.words.getD 1 0 ∧ t.busy = 0 ∧ t.join = [] := by
  intro c cr hs hb hq hquiet
  let cr' : Crew := { cr with state := .run, fed := [] }
  let s1 := acquireCrew (s.setCrew c cr') cr' (lScope cr.words)
  let s2 := (List.range (lTeams cr.words)).foldl (fun s n => s.setTeamAt (teamKey c n) (freshTeam s c cr' n)) s1
  have hseats : SameSeats (s.setCrew c cr') s2 := (onlyMemory_acquireCrew _ cr' _).sameSeats.trans (sameSeats_foldl _ (fun u n => sameSeats_setTeamAt u _ _) _ _)
  have hcr : (s.setCrew c cr').crew c = cr' := by rw [State.crew_setCrew, if_pos rfl]
  have hq2 : Quiet s2 c := hseats.quiet fun p hp => hquiet p (by rw [hcr] at hp; exact hp)
  have hq3 := hq2.mapRows (fun r => { r with state := 2 }) fun _ => rfl
  refine ⟨mapRows s2 c fun r => { r with state := 2 }, (crewStart_eq hs hb hq).trans (congrArg _ (takeCommand_quiet hq3)), ?_, fun n hn => ?_⟩
  · rw [mapRows_crew, hseats.state, hcr]
  · obtain ⟨⟨h1, h2, h3, h4⟩, h5, ⟨h6, h7⟩, ⟨h8, h9⟩, h10, h11, h12⟩ :=
      startTeams_starts c cr' rfl (List.range (lTeams cr.words)) s1 n (.inl (List.mem_range.mpr hn))
    rw [mapRows_teamAt]
    exact ⟨h1, h2, h3, h4, h5, h6, h7, h8, h9, h10, h11, h12⟩

end Sys2Proof.Machine
end

section
/-! An image is loaded (R195 to R197, R281): crews stay where and what they are, and so do the rows. -/

open Sys2Proof Sys2Proof.Machine

namespace Sys2Proof.Machine

/-! ### Sections of a crew -/

theorem Crew.seat_setRegion (c : Crew) (e : Nat) (r : Region) : (c.setRegion e r).seat = c.seat := rfl

theorem Crew.seat_mat (c : Crew) (m : Matrix) : { c with mat := m }.seat = c.seat := rfl
theorem Crew.seat_rays (c : Crew) (l : List Ray) : { c with rays := l }.seat = c.seat := rfl

theorem loadCopy_seat (c : Crew) (get : Nat → Byte) : (loadCopy c get).seat = c.seat := by
  unfold loadCopy
  generalize List.range 32 = l
  exact foldl_same Crew.seat _ (fun c e => c.seat_setRegion e _) l c

/-- What holds of all that the last part of a read can give holds of what the read gives. -/
theorem rd_bind {α β : Type} {P : β → Prop} {f : Rd α} {g : α → Rd β} (h : ∀ x bs, P (g x bs).1) (bs : List Byte) : P ((f >>= g) bs).1 := h _ _

theorem rdWindow_seat (c : Crew) (bs : List Byte) : (rdWindow c bs).1.seat = c.seat := by
  unfold rdWindow
  exact rd_bind (P := fun x : Crew => x.seat = c.seat) (fun _ => rd_bind (P := fun x : Crew => x.seat = c.seat) fun _ _ => rfl) bs

theorem rdBarriers_seat (c : Crew) (bs : List Byte) : (rdBarriers c bs).1.seat = c.seat := by
  unfold rdBarriers
  exact rd_bind (P := fun x : Crew => x.seat = c.seat) (fun _ => rd_bind (P := fun x : Crew => x.seat = c.seat) fun _ _ => rfl) bs

theorem sameSeats_loadCrewSection (c : Nat) (s : State) (x : Section) : SameSeats s (loadCrewSection c s x) := by
  unfold loadCrewSection
  dsimp only
  split
  · exact sameSeats_setCrew s c _ (loadCopy_seat _ _)
  · exact (sameSeats_setCrew s c _ (Crew.seat_mat _ _)).trans (sameSeats_of_frame rfl rfl)
  · exact sameSeats_setCrew s c _ (rdWindow_seat _ _)
  · exact sameSeats_setCrew s c _ (rdBarriers_seat _ _)
  · exact .refl s

/-! ### Sections of a team -/

theorem sameSeats_loadRayBlock (s : State) (key : Nat) (get : Nat → Byte) : SameSeats s (loadRayBlock s key get) := by
  unfold loadRayBlock
  exact (sameSeats_updTeam s key _).trans (sameSeats_setCrew _ _ _ (Crew.seat_rays _ _))

theorem sameSeats_loadRays (key len : Nat) (get : Nat → Byte) (n off : Nat) (s : State) : SameSeats s (loadRays key len get n off s) := by
  induction n generalizing off s with
  | zero => exact .refl s
  | succ n ih =>
    rw [loadRays]
    split
    · exact .refl s
    · exact (sameSeats_loadRayBlock s key _).trans (ih _ _)

theorem sameSeats_putHeld (s : State) (key : Nat) (x : Nat × Option Nat × OpKind) : SameSeats s (putHeld s key x) := by
  unfold putHeld
  dsimp only
  split <;> exact sameSeats_of_frame rfl rfl

theorem sameSeats_rdBuffer (s : State) (key : Nat) (bs : List Byte) : SameSeats s (rdBuffer s key bs).1 := by
  have put : ∀ l, SameSeats s (List.foldl (fun s x => putHeld s key x) s l) := fun l => sameSeats_foldl _ (fun u x => sameSeats_putHeld u key x) l s
  unfold rdBuffer
  exact rd_bind (fun _ => rd_bind fun _ => rd_bind fun _ => rd_bind fun _ => rd_bind fun l _ => (put _).trans (sameSeats_updTeam _ key fun t => _)) bs

theorem sameSeats_loadTeamSection (key : Nat) (s : State) (x : Section) : SameSeats s (loadTeamSection key s x) := by
  unfold loadTeamSection
  split
  case h_3 => exact sameSeats_loadRays key _ _ _ _ s
  case h_8 => exact sameSeats_rdBuffer s key _
  case h_9 => exact .refl s
  all_goals exact sameSeats_updTeam s key _

theorem sameSeats_loadSections (c : Nat) (l : List Section) (s : State) : SameSeats s (loadSections c l s) :=
  sameSeats_foldl _ (fun u x => by
    unfold loadSection
    split
    · exact sameSeats_loadCrewSection c u x
    · split
      · exact sameSeats_loadTeamSection _ u x
      · exact .refl u) l s

theorem sameSeats_withTeams (s : State) (c : Nat) : SameSeats s (withTeams s c) :=
  sameSeats_foldl _ (fun u n => by
    split
    · exact .refl u
    · exact sameSeats_setTeamAt u _ _) _ s

/-! ### What a restored buffer accesses -/

theorem sameSeats_translateAgain (s : State) (d ctx : Nat) (a : Access) (va : W64) : SameSeats s (translateAgain s d ctx a va).1 := by
  have h := (onlyMemory_walkAccess s ctx va.toNat a true).sameSeats
  unfold translateAgain
  split <;> rename_i e <;> rw [e] at h <;> exact h

theorem sameSeats_eachAgain {α : Type} (d ctx : Nat) (a : Access) (va : α → W64) (put : α → Nat → W64 → α) (l : List α) (s : State) :
    SameSeats s (eachAgain d ctx a va put l s).1 := by
  induction l generalizing s with
  | nil => exact .refl s
  | cons x r ih =>
    have h := sameSeats_translateAgain s d ctx a (va x)
    rw [eachAgain]
    split
    · rename_i e; rw [e] at h; exact h
    · rename_i u p e
      rw [e] at h
      have h' := ih u
      split
      · rename_i e'; rw [e'] at h'; exact h.trans h'
      · rename_i e'; rw [e'] at h'; exact h.trans h'

theorem sameSeats_opAgain (d ctx : Nat) (k : OpKind) (s : State) : SameSeats s (opAgain d ctx k s).1 := by
  unfold opAgain
  split
  · split
    · exact .refl s
    · exact sameSeats_eachAgain _ _ _ _ _ _ s
  · split
    · exact .refl s
    · exact sameSeats_eachAgain _ _ _ _ _ _ s
  · exact .refl s

/-- What the operation of an entry `x` of a buffer accesses, translated again. -/
def opItemAgain (d ctx id : Nat) (x : DqItem) (s : State) : State × Option DqItem :=
  match s.op id with
  | none => (s, some x)
  | some o =>
    let z := opAgain d ctx o.kind s
    match z.2 with
    | none => (z.1, none)
    | some k => (z.1.updOp id fun o => { o with kind := k }, some x)

/-- One entry of a buffer translated again. -/
def itemAgain (d ctx : Nat) (x : DqItem) (s : State) : State × Option DqItem :=
  match x with
  | .store va _ false bs =>
    let p := translateAgain s d ctx .write va
    (p.1, p.2.map fun p => .store va p.1 false bs)
  | .store _ _ true _ => (s, some x)
  | .atomic id | .load id => opItemAgain d ctx id x s

theorem itemsAgain_cons (d ctx : Nat) (x : DqItem) (r : List DqItem) (s : State) : itemsAgain d ctx (x :: r) s =
    match itemAgain d ctx x s with
    | (s, none) => (s, none)
    | (s, some i) =>
      match itemsAgain d ctx r s with
      | (s, none) => (s, none)
      | (s, some l) => (s, some (i :: l)) := by
  cases x with
  | store va pa sc bs => cases sc <;> rfl
  | atomic id => rfl
  | load id => rfl

theorem sameSeats_itemAgain (d ctx : Nat) (x : DqItem) (s : State) : SameSeats s (itemAgain d ctx x s).1 := by
  have op : ∀ id, SameSeats s (opItemAgain d ctx id x s).1 := fun id => by
    unfold opItemAgain
    split
    · exact .refl s
    · rename_i o _
      have h := sameSeats_opAgain d ctx o.kind s
      dsimp only
      split
      · exact h
      · exact h.trans (sameSeats_of_frame rfl rfl)
  cases x with
  | store va pa sc bs =>
    cases sc
    · exact sameSeats_translateAgain s d ctx .write va
    · exact .refl s
  | atomic id => exact op id
  | load id => exact op id

theorem sameSeats_itemsAgain (d ctx : Nat) (l : List DqItem) (s : State) : SameSeats s (itemsAgain d ctx l s).1 := by
  induction l generalizing s with
  | nil => exact .refl s
  | cons x r ih =>
    have h := sameSeats_itemAgain d ctx x s
    rw [itemsAgain_cons]
    split
    · rename_i e; rw [e] at h; exact h
    · rename_i u i e
      rw [e] at h
      have h' := ih u
      split
      · rename_i e'; rw [e'] at h'; exact h.trans h'
      · rename_i e'; rw [e'] at h'; exact h.trans h'

end Sys2Proof.Machine
end

section
/-! CREW_RESTORE (R197). -/

open Sys2Proof Sys2Proof.Machine

namespace Sys2Proof.Machine

/-- What a restored crew's buffers access is translated anew; crews and rows stay. -/
theorem sameSeats_buffersAgain {c : Nat} {l : List Nat} {s w : State} (h : buffersAgain c l s = some w) : SameSeats s w := by
  induction l generalizing s with
  | nil => rw [buffersAgain] at h; cases h; exact .refl _
  | cons k r ih =>
    rw [buffersAgain] at h
    have hi := sameSeats_itemsAgain (((s.crew c).spots.getD (k % 16) (coreKey (s.crew c).die (s.crew c).core, (s.crew c).slot)).1 / 48) (s.crew c).ctx
      (s.teamAt k).dq.items s
    split at h
    · exact nomatch h
    · rename_i e
      rw [e] at hi
      exact (hi.trans (sameSeats_updTeam _ k _)).trans (ih h)

/-! ### An image that cannot be loaded -/

theorem badImage_cause (s : State) (c : Nat) : ((badImage s c).crew c).cause = some ((s.crew c).cause.getD causeMce) := by
  rw [badImage, mapRows_crew]
  refine ((killCrew_crew (s.setCrew c { s.crew c with state := .run }) c causeMce).1).trans ?_
  rw [State.crew_setCrew, if_pos rfl]

/-! ### A crew goes on -/

/-- What a restored team keeps of what its sections gave it. -/
structure Kept (b a : Team) : Prop where
  regs : a.r = b.r ∧ a.x = b.x ∧ a.q = b.q
  place : a.pc = b.pc ∧ a.join = b.join ∧ a.sup = b.sup
  lanes : a.live = b.live ∧ a.m = b.m

theorem Kept.refl (t : Team) : Kept t t := ⟨⟨rfl, rfl, rfl⟩, ⟨rfl, rfl, rfl⟩, rfl, rfl⟩

/-- A team of a restored crew takes its new slot and its flags. -/
def resumeTeam (cr : Crew) (s : State) (k : Nat) : State := s.updTeam k fun t => { t.moved cr s.tick with busy := restoredFlags s k }

theorem teamAt_resumeTeam (cr : Crew) (s : State) (k j : Nat) :
    (resumeTeam cr s k).teamAt j = if j = k then { (s.teamAt k).moved cr s.tick with busy := restoredFlags s k } else s.teamAt j :=
  s.teamAt_updTeam k j (fun t => { t.moved cr s.tick with busy := restoredFlags s k }) fun _ => rfl

theorem restoredFlags_resumeTeam (cr : Crew) (s : State) (k j : Nat) : restoredFlags (resumeTeam cr s k) j = restoredFlags s j := by
  obtain ⟨a, o, e⟩ := s.updTeam_frame k fun t => { t.moved cr s.tick with busy := restoredFlags s k }
  rw [resumeTeam, e]; rfl

theorem kept_resumeTeam (cr : Crew) {s : State} {b : Team} {j : Nat} (h : Kept b (s.teamAt j)) (k : Nat) : Kept b ((resumeTeam cr s k).teamAt j) := by
  rw [teamAt_resumeTeam]
  split
  · rename_i e; subst e; exact ⟨h.regs, h.place, h.lanes⟩
  · exact h

/-- Each of some teams has its flags, and every team keeps what its sections gave it. -/
theorem resumeTeams_spec (cr : Crew) (l : List Nat) (s : State) (b : Team) (k : Nat) (hk : Kept b (s.teamAt k))
    (hl : k ∈ l ∨ (s.teamAt k).busy = restoredFlags s k) : let u := l.foldl (resumeTeam cr) s
    Kept b (u.teamAt k) ∧ (u.teamAt k).busy = restoredFlags s k := by
  induction l generalizing s with
  | nil => exact ⟨hk, hl.resolve_left List.not_mem_nil⟩
  | cons j r ih =>
    obtain ⟨h1, h2⟩ := ih (resumeTeam cr s j) (kept_resumeTeam cr hk j) (by
      rw [teamAt_resumeTeam, restoredFlags_resumeTeam]
      split
      · rename_i e; exact .inr (by rw [e])
      · rename_i e; exact hl.imp_left fun h => (List.mem_cons.mp h).resolve_left e)
    exact ⟨h1, h2.trans (restoredFlags_resumeTeam cr s j k)⟩

/-- The flags that go on with a crew are those of its operations, whatever their generation, and of its matrix operations. -/
theorem restoredFlags_congr {s u : State} (f : Op → Op) (hf : ∀ o, (f o).team = o.team ∧ (f o).flag = o.flag) (ho : u.ops = s.ops.map f)
    (hm : ∀ c, (u.crew c).mat = (s.crew c).mat) (k : Nat) : restoredFlags u k = restoredFlags s k := by
  have hops : (u.ops.filter fun o => o.team = k).filterMap Op.flag = (s.ops.filter fun o => o.team = k).filterMap Op.flag := by
    rw [ho]
    induction s.ops with
    | nil => rfl
    | cons o r ih =>
      obtain ⟨ht, hfl⟩ := hf o
      rw [List.map_cons, List.filter_cons, List.filter_cons, ht]
      split
      · rw [List.filterMap_cons, List.filterMap_cons, hfl, ih]
      · exact ih
  unfold restoredFlags
  rw [hops, hm]

theorem teamKeys_congr {s u : State} (h : ∀ k, (u.teamAt k).id.crew = (s.teamAt k).id.crew) (c : Nat) : teamKeys u c = teamKeys s c := by
  unfold teamKeys
  refine List.filter_congr fun k _ => ?_
  rw [h k]

theorem stops_askLeave (s : State) (d : Nat) (r : LeaveReq) : Stops s (askLeave s d r) := SameSeats.stops (sameSeats_of_frame rfl rfl) rfl rfl rfl

theorem Crew.seat_batches (c : Crew) (b : List RayBatch) (l : List Ray) : { c with batches := b, rays := l }.seat = c.seat := rfl

theorem stops_settleBatches (s : State) (c : Nat) : Stops s (settleBatches s c) := by
  have gone : ∀ l : List RayBatch, Stops s (l.foldl (fun s b => dropLeave s (s.teamAt (teamKey c b.team)).id.die 3 (.rays c b.id) b.leave) s) :=
    fun l => stops_foldl _ (fun u b => stops_dropLeave u _ _ _ _) l s
  unfold settleBatches
  dsimp only
  generalize hl : (s.crew c).batches.filter _ = l
  have h := gone l
  generalize l.foldl _ s = u at h
  split
  · exact h
  · exact h.trans (stops_setCrew u c _ (Crew.seat_batches _ _ _))

theorem stops_askBatches (s : State) (c : Nat) : Stops s (askBatches s c) := by
  have ask : ∀ (l : List RayBatch) (u : State), Stops u (l.foldl (fun s b =>
      askLeave s (s.teamAt (teamKey c b.team)).id.die { who := .rays c b.id, amps := 3, cls := effClass s c b.team }) u) :=
    fun l u => stops_foldl _ (fun u b => stops_askLeave u _ _) l u
  exact ((stops_setCrew s c _ (Crew.seat_batches (s.crew c) _ (s.crew c).rays)).trans (ask _ _)).trans (stops_settleBatches _ c)

/-- The crew that goes on. -/
def Crew.resumed (cr : Crew) : Crew := { cr with state := .run, gen := if cr.gen = 2 ^ 32 - 1 then 1 else cr.gen + 1, promoted := none }

theorem Crew.resumed_gen (cr : Crew) : cr.resumed.gen = if cr.gen = 2 ^ 32 - 1 then 1 else cr.gen + 1 := rfl

/-- A crew's operations are of its new generation. -/
def Op.regen (c gen : Nat) (o : Op) : Op := if o.crew = c then { o with gen := gen } else o

/-- The crew has its new generation, and has acquired. -/
def resumeStart (s : State) (c : Nat) : State :=
  acquireCrew { s.setCrew c (s.crew c).resumed with ops := s.ops.map (Op.regen c (s.crew c).resumed.gen) } (s.crew c) 4

theorem resumeCrew_eq (s : State) (c : Nat) : resumeCrew s c =
    takeCommand (mapRows (askBatches ((teamKeys (resumeStart s c) c).foldl (resumeTeam (s.crew c)) (resumeStart s c)) c) c fun r => { r with state := 2 }) c := rfl

theorem resumeStart_spec (s : State) (c : Nat) : let u := resumeStart s c
    (∀ k, u.teamAt k = s.teamAt k) ∧ (∀ k, restoredFlags u k = restoredFlags s k) ∧ SameSeats (s.setCrew c (s.crew c).resumed) u := by
  intro u
  let v : State := { s.setCrew c (s.crew c).resumed with ops := s.ops.map (Op.regen c (s.crew c).resumed.gen) }
  have h : OnlyMemory v u := onlyMemory_acquireCrew v (s.crew c) 4
  have hcrew : ∀ k, u.crew k = if k = c then (s.crew c).resumed else s.crew k := fun k => (h.crew k).trans (State.crew_setCrew s c k (s.crew c).resumed)
  refine ⟨fun k => h.teamAt k, fun k => ?_, (show SameSeats (s.setCrew c (s.crew c).resumed) v from sameSeats_of_frame rfl rfl).trans h.sameSeats⟩
  refine restoredFlags_congr (Op.regen c (s.crew c).resumed.gen) (fun o => ?_) h.ops (fun j => ?_) k
  · unfold Op.regen
    split <;> exact ⟨rfl, rfl⟩
  · rw [hcrew]
    split
    · rename_i e; rw [e]; rfl
    · rfl

/-- A crew whose image has been loaded goes on with the next generation, its teams as the sections have them (R31, R197). -/
theorem resumeCrew_spec {s : State} {c : Nat} (hq : Quiet s c) : let cr := s.crew c; let u := resumeCrew s c
    (u.crew c).state = .run ∧ (u.crew c).gen = (if cr.gen = 2 ^ 32 - 1 then 1 else cr.gen + 1) ∧ (u.crew c).promoted = none ∧
      ∀ k ∈ teamKeys s c, let a := u.teamAt k; let b := s.teamAt k
        a.r = b.r ∧ a.pc = b.pc ∧ a.live = b.live ∧ a.m = b.m ∧ a.join = b.join ∧ a.x = b.x ∧ a.sup = b.sup ∧ a.q = b.q ∧ a.busy = restoredFlags s k := by
  obtain ⟨hteam, hflags, hstart⟩ := resumeStart_spec s c
  have hkeys : teamKeys (resumeStart s c) c = teamKeys s c := teamKeys_congr (fun k => by rw [hteam]) c
  let v := (teamKeys s c).foldl (resumeTeam (s.crew c)) (resumeStart s c)
  have hb := stops_askBatches v c
  have hseats : SameSeats (s.setCrew c (s.crew c).resumed) (askBatches v c) :=
    (hstart.trans (sameSeats_foldl _ (fun u k => sameSeats_updTeam u k _) _ _)).trans hb.toSameSeats
  have hcr : (s.setCrew c (s.crew c).resumed).crew c = (s.crew c).resumed := by rw [State.crew_setCrew, if_pos rfl]
  have hq' : Quiet (askBatches v c) c := hseats.quiet fun p hp => hq p (by rw [hcr] at hp; exact hp)
  have he : resumeCrew s c = mapRows (askBatches v c) c fun r => { r with state := 2 } := by
    rw [resumeCrew_eq, hkeys]
    exact takeCommand_quiet (hq'.mapRows _ fun _ => rfl)
  have hcrew : ∀ {β : Type} (g : Crew → β), (∀ x, g x.seat = g x) → g ((resumeCrew s c).crew c) = g (s.crew c).resumed := fun g hg => by
    rw [he, mapRows_crew]
    exact (hseats.get g c hg).trans (congrArg g hcr)
  refine ⟨hcrew Crew.state fun _ => rfl, (hcrew Crew.gen fun _ => rfl).trans (Crew.resumed_gen _), hcrew Crew.promoted fun _ => rfl, fun k hk => ?_⟩
  obtain ⟨⟨⟨h1, h2, h3⟩, ⟨h4, h5, h6⟩, h7, h8⟩, hbusy⟩ :=
    resumeTeams_spec (s.crew c) (teamKeys s c) (resumeStart s c) (s.teamAt k) k (hteam k ▸ .refl _) (.inl hk)
  obtain ⟨e, ht⟩ := hb.team k
  rw [he, mapRows_teamAt, ht]
  exact ⟨h1, h4, h7, h8, h5, h2, h6, h3, hbusy.trans (hflags k)⟩

/-! ### The event -/

section
variable {s : State} (hs : (s.crew s.site.crew).state = .restoring) (hb : allBound (s.crew s.site.crew) = true)
include hs hb

/-- CREW_RESTORE of an image that is not the crew's own or cannot be decoded. -/
theorem crewRestore_bad (h : ((s.crew s.site.crew).area = 0 ∨ headerFits s (s.crew s.site.crew) = false) ∨
    (pendingOf s s.site.crew = 0 ∧ (s.crew s.site.crew).missing = 0 ∧ readImage s s.site.crew = none)) :
    exec .crewRestore s = .next (badImage s s.site.crew) := by
  show execCrewRestore s = _
  rcases h with h | ⟨hp, hm, hr⟩
  · simp [execCrewRestore, hs, hb, h]
  · simp [execCrewRestore, hs, hb, hp, hm, hr]

/-- CREW_RESTORE of an image that is loaded. -/
theorem crewRestore_good {l : List Section} {w : State} (ha : (s.crew s.site.crew).area ≠ 0) (hh : headerFits s (s.crew s.site.crew) = true)
    (hp : pendingOf s s.site.crew = 0) (hm : (s.crew s.site.crew).missing = 0) (hr : readImage s s.site.crew = some l)
    (he : engineRoom (loadSections s.site.crew l (withTeams s s.site.crew)) s.site.crew = true)
    (hw : buffersAgain s.site.crew (teamKeys (loadSections s.site.crew l (withTeams s s.site.crew)) s.site.crew)
      (loadSections s.site.crew l (withTeams s s.site.crew)) = some w) :
    exec .crewRestore s = .next (resumeCrew w s.site.crew) := by
  show execCrewRestore s = _
  simp [execCrewRestore, hs, hb, ha, hh, hp, hm, hr, he, hw]

end

/-- CREW_RESTORE of a crew bound in all its slots (R197). -/
theorem crewRestore_spec (s : State) : let c := s.site.crew; let cr := s.crew c
    cr.state = .restoring → allBound cr = true →
      let ends := ∃ u, exec .crewRestore s = .next u ∧ (u.crew c).cause = some (cr.cause.getD causeMce)
      (cr.area = 0 ∨ headerFits s cr = false → ends) ∧
      (cr.area ≠ 0 → headerFits s cr = true → pendingOf s c = 0 → cr.missing = 0 → (readImage s c = none → ends) ∧
        ∀ l w, readImage s c = some l → let v := loadSections c l (withTeams s c)
          Quiet s c → engineRoom v c = true → buffersAgain c (teamKeys v c) v = some w → ∃ u, exec .crewRestore s = .next u ∧
            (u.crew c).state = .run ∧ (u.crew c).gen = (if cr.gen = 2 ^ 32 - 1 then 1 else cr.gen + 1) ∧ (u.crew c).promoted = none ∧
            ∀ k ∈ teamKeys w c, let a := u.teamAt k; let b := w.teamAt k
              a.r = b.r ∧ a.pc = b.pc ∧ a.live = b.live ∧ a.m = b.m ∧ a.join = b.join ∧ a.x = b.x ∧ a.sup = b.sup ∧ a.q = b.q ∧ a.busy = restoredFlags w k) := by
  intro c cr hs hb ends
  have bad : exec .crewRestore s = .next (badImage s c) → ends := fun h => ⟨_, h, badImage_cause s c⟩
  refine ⟨fun h => bad ?_, fun ha hh hp hm => ⟨fun hr => bad ?_, fun l w hr => ?_⟩⟩
  · exact crewRestore_bad hs hb (h.elim (fun e => .inl (.inl e)) fun e => .inl (.inr e))
  · exact crewRestore_bad hs hb (.inr ⟨hp, hm, hr⟩)
  · intro v hq he hw
    have hseats : SameSeats s w := ((sameSeats_withTeams s c).trans (sameSeats_loadSections c l _)).trans (sameSeats_buffersAgain hw)
    have hgen : (w.crew c).gen = cr.gen := hseats.get Crew.gen c
    obtain ⟨h1, h2, h3, h4⟩ := resumeCrew_spec (hseats.quiet hq)
    exact ⟨_, crewRestore_good hs hb ha hh hp hm hr he hw, h1, h2.trans (by rw [hgen]), h3, h4⟩

end Sys2Proof.Machine
end

section
/-! SLOT_DROP, and wait promotion (R198 to R201). -/

open Sys2Proof Sys2Proof.Machine

namespace Sys2Proof.Machine

/-- Changing teams one after another changes teams alone. -/
theorem updTeams_frame (f : Nat → Team → Team) (l : List Nat) (s : State) : ∃ a o, l.foldl (fun s k => s.updTeam k (f k)) s = { s with team := a, others := o } :=
  foldl_keeps (fun u : State => ∃ a o, u = { s with team := a, others := o }) _ (by
    rintro _ k ⟨a, o, rfl⟩
    obtain ⟨a', o', e⟩ := State.updTeam_frame { s with team := a, others := o } k (f k)
    exact ⟨a', o', e⟩) l s ⟨_, _, rfl⟩

/-! ### SLOT_DROP (R198) -/

theorem Crew.slotsOf_state (c : Crew) (x : CrewState) : { c with state := x }.slotsOf = c.slotsOf := rfl

/-- A drop begins: engines stop, teams end where they stand, and then the crew's rows are DROPPING. -/
theorem beginDrop_eq (s : State) (c : Nat) : ∃ v f, beginDrop s c = mapRows v c f ∧ (∀ r, (f r).crew = r.crew) ∧
    (v.crew c).slotsOf = (s.crew c).slotsOf ∧ (∀ a b, v.row a b = s.row a b) ∧ ∀ o ∈ v.ops, o ∈ s.ops := by
  have he := stops_engines s c
  unfold beginDrop
  generalize dropFills (leavesBack (freeArray s c) c) c = v at he ⊢
  have hw := he.trans (stops_dropWalks v c)
  dsimp only
  generalize (teamKeys v c).foldl (fun s k => dropWalks s (s.teamAt k).coreK k) v = w at hw ⊢
  have hf := hw.trans (stops_filterOps w fun o => o.crew ≠ c || o.kind.stands || (match o.kind with | .tile _ => true | _ => false))
  generalize ({ w with ops := _ } : State) = x at hf ⊢
  obtain ⟨a, o, e⟩ := updTeams_frame (fun _ t => { t with id := { t.id with alive := false }, clause := none, pfx := {}, group := none }) (teamKeys x c) x
  rw [e]
  refine ⟨_, _, rfl, fun _ => rfl, ?_, hf.row, hf.ops⟩
  rw [State.crew_setCrew, if_pos rfl]
  exact (Crew.slotsOf_state _ _).trans (hf.slotsOf c)

/-- When a drop begins, the crew keeps its slots and its rows, and no operation comes. -/
theorem beginDrop_spec (s : State) (c : Nat) : let u := beginDrop s c
    (u.crew c).slotsOf = (s.crew c).slotsOf ∧ (∀ a b, (u.row a b).crew = (s.row a b).crew) ∧ ∀ o ∈ u.ops, o ∈ s.ops := by
  obtain ⟨v, f, e, hf, hslots, hrow, hops⟩ := beginDrop_eq s c
  rw [e]
  refine ⟨by rw [mapRows_crew, hslots], fun a b => ?_, fun o ho => hops o ?_⟩
  · rw [mapRows_row SlotRow.crew v c f hf, hrow]
  · obtain ⟨k, q, hm⟩ := mapRows_frame v c f
    rwa [hm] at ho

/-- The cores that a crew drops out of drain their write buffers and forget its context. -/
theorem sameSeats_dropContexts (s : State) (ctx : Nat) (l : List (Nat × Nat)) :
    SameSeats s (l.foldl (fun s p => dropContext (drainWb s (p.1 / 48) (p.1 % 48)) p.1 ctx) s) :=
  sameSeats_foldl _ (fun u p => (onlyMemory_drainWb u _ _).sameSeats.trans (sameSeats_setCore _ _ _ (by rfl))) l s

/-- A crew is no more; the rows stay. -/
theorem unfuse_cleared (s : State) (c : Nat) (cr : Crew) : let u := unfuse (s.setCrew c {}) cr
    (u.crew c).state = .none ∧ ∀ a b, u.row a b = s.row a b := by
  have h := (settleFusion_frame (s.setCrew c {}) cr false).2
  refine ⟨(h.state c).trans ?_, h.row⟩
  rw [State.crew_setCrew, if_pos rfl]

/-- A drop ends: the crew is no more, and its slots are EMPTY. -/
theorem endDrop_spec {s : State} {c : Nat} (h : ∀ p ∈ (s.crew c).slotsOf, (s.row p.1 p.2).crew = c) :
    ((endDrop s c).crew c).state = .none ∧ ∀ p ∈ (s.crew c).slotsOf, ((endDrop s c).row p.1 p.2).emptied := by
  have hv := sameSeats_dropContexts s (s.crew c).ctx (s.crew c).slotsOf
  unfold endDrop
  dsimp only
  generalize (s.crew c).slotsOf.foldl _ s = v at hv ⊢
  have hrow := emptySlots_row (s := v) (c := c) fun p hp => by rw [hv.row]; exact h p (hv.slotsOf c ▸ hp)
  rw [hv.slotsOf] at hrow
  generalize emptySlots v c = w at hrow ⊢
  split <;> exact ⟨(unfuse_cleared _ c _).1, fun q hq => by rw [(unfuse_cleared _ c _).2]; exact hrow q hq⟩

/-- SLOT_DROP of an idempotent crew with nothing in flight (R164, R198). -/
theorem slotDrop_spec (s : State) : let r := s.row (coreKey s.site.die s.site.core) s.site.slot
    r.state = 2 → (s.crew r.crew).idem = true → (s.crew r.crew).state = .run → (∀ p ∈ (s.crew r.crew).slotsOf, (s.row p.1 p.2).crew = r.crew) →
      (∀ o ∈ s.ops, o.crew ≠ r.crew) → ∃ u, exec .slotDrop s = .next u ∧ (u.crew r.crew).state = .none ∧
        ∀ p ∈ (s.crew r.crew).slotsOf, (u.row p.1 p.2).emptied := by
  intro r hr hi hs hh ho
  obtain ⟨hslots, hrows, hops⟩ := beginDrop_spec s r.crew
  have hnone : (beginDrop s r.crew).ops.any (fun o => o.crew = r.crew) = false := by
    rw [List.any_eq_false]
    exact fun o h => by simpa using ho o (hops o h)
  have he : exec .slotDrop s = .next (endDrop (beginDrop s r.crew) r.crew) := by
    show Host.Outcome.next (if (s.crew r.crew).state = .dropping then _ else slotCommand s s.site.die s.site.core s.site.slot 2) = _
    have hr' : (s.row (coreKey s.site.die s.site.core) s.site.slot).state = 2 := hr
    have hi' : (s.crew (s.row (coreKey s.site.die s.site.core) s.site.slot).crew).idem = true := hi
    rw [hs]
    simp [slotCommand, hr', hi', stepDrop, hnone, r]
  obtain ⟨h1, h2⟩ := endDrop_spec (s := beginDrop s r.crew) (c := r.crew) fun p hp => (hrows p.1 p.2).trans (hh p (hslots ▸ hp))
  exact ⟨endDrop (beginDrop s r.crew) r.crew, he, h1, fun p hp => h2 p (by rw [hslots]; exact hp)⟩

/-! ### Wait promotion (R200, R201) -/

/-- Crews get promoted classes; rows and teams stay. -/
structure Promotes (s u : State) : Prop where
  crew : ∀ k, ∃ p, u.crew k = { s.crew k with promoted := p }
  row : ∀ a b, u.row a b = s.row a b
  team : u.team = s.team

theorem Promotes.refl (s : State) : Promotes s s := ⟨fun _ => ⟨_, rfl⟩, fun _ _ => rfl, rfl⟩

theorem Promotes.trans {s u v : State} (h : Promotes s u) (h' : Promotes u v) : Promotes s v :=
  ⟨fun k => by
    obtain ⟨p, e⟩ := h.crew k
    obtain ⟨q, e'⟩ := h'.crew k
    exact ⟨q, by rw [e', e]⟩, fun a b => (h'.row a b).trans (h.row a b), h'.team.trans h.team⟩

/-- What a crew tells apart from its promoted class stays. -/
theorem Promotes.get {s u : State} {β : Type} (h : Promotes s u) (g : Crew → β) (k : Nat)
    (hg : ∀ (x : Crew) p, g { x with promoted := p } = g x := by intros; rfl) : g (u.crew k) = g (s.crew k) := by
  obtain ⟨p, e⟩ := h.crew k
  rw [e, hg]

/-- The header of a saved crew follows in memory. -/
theorem onlyMemory_syncImage (s : State) (c : Nat) : OnlyMemory s (syncImage s c) := by
  unfold syncImage
  dsimp only
  split
  · exact .refl s
  · exact onlyMemory_setHomeBytes _ s _

/-- A crew is saved, of a context, and has no promoted class as high. -/
def Crew.promotable (c : Crew) (ctx cls : Nat) : Bool :=
  c.state = .saved && c.ctx = ctx && (match c.promoted with | none => true | some p => decide (p.toNat < cls))

/-- One crew is promoted, if it may be. -/
def promoteOne (ctx cls : Nat) (s : State) (e : Nat × Crew) : State :=
  if (s.crew e.1).promotable ctx cls then syncImage (s.setCrew e.1 { s.crew e.1 with promoted := some (BitVec.ofNat 2 cls) }) e.1 else s

theorem promoteSaved_eq (s : State) (ctx cls : Nat) : promoteSaved s ctx cls = s.crews.foldl (promoteOne ctx cls) s := rfl

theorem promoteOne_frame (ctx cls : Nat) (s : State) (e : Nat × Crew) : let u := promoteOne ctx cls s e
    (∀ a b, u.row a b = s.row a b) ∧ u.team = s.team ∧
    ∀ k, u.crew k = if k = e.1 ∧ (s.crew e.1).promotable ctx cls = true then { s.crew e.1 with promoted := some (BitVec.ofNat 2 cls) } else s.crew k := by
  unfold promoteOne
  by_cases h : (s.crew e.1).promotable ctx cls = true
  · have hm := onlyMemory_syncImage (s.setCrew e.1 { s.crew e.1 with promoted := some (BitVec.ofNat 2 cls) }) e.1
    rw [if_pos h]
    exact ⟨hm.row, hm.team, fun k => ((hm.crew k).trans (State.crew_setCrew s e.1 k _)).trans (by simp [h])⟩
  · rw [if_neg h]
    exact ⟨fun _ _ => rfl, rfl, fun k => (if_neg fun x => h x.2).symm⟩

theorem promotes_promoteOne (ctx cls : Nat) (s : State) (e : Nat × Crew) : Promotes s (promoteOne ctx cls s e) := by
  obtain ⟨hrow, hteam, hcrew⟩ := promoteOne_frame ctx cls s e
  refine ⟨fun k => ?_, hrow, hteam⟩
  rw [hcrew]
  split
  · rename_i h; rw [h.1]; exact ⟨_, rfl⟩
  · exact ⟨_, rfl⟩

theorem promotes_promoteSaved (s : State) (ctx cls : Nat) : Promotes s (promoteSaved s ctx cls) :=
  foldl_keeps (Promotes s) (promoteOne ctx cls) (fun u e h => h.trans (promotes_promoteOne ctx cls u e)) s.crews s (.refl s)

theorem promotes_promoteAll (s : State) (ctx : Nat) : Promotes s (promoteAll s ctx) :=
  foldl_keeps (Promotes s) _ (fun u e h => by
    split
    · split
      · exact h.trans (promotes_promoteSaved u ctx _)
      · exact h
    · exact h) s.crews s (.refl s)

/-- A crew has a promoted class, no lower than one of the four. -/
def Crew.promotedTo (c : Crew) (cls : Nat) : Prop := ∃ p, c.promoted = some p ∧ (cls < 4 → cls ≤ p.toNat)

/-- The class that a promotion gives. -/
theorem promotedTo_ofNat (c : Crew) (cls : Nat) : { c with promoted := some (BitVec.ofNat 2 cls) }.promotedTo cls :=
  ⟨_, rfl, fun h => by rw [BitVec.toNat_ofNat, Nat.mod_eq_of_lt h]⟩

theorem promoteOne_keeps {ctx cls k : Nat} {s : State} (h : (s.crew k).promotedTo cls) (e : Nat × Crew) :
    ((promoteOne ctx cls s e).crew k).promotedTo cls := by
  rw [(promoteOne_frame ctx cls s e).2.2]
  split
  · exact promotedTo_ofNat _ _
  · exact h

theorem promoteOne_self {ctx cls k : Nat} {s : State} {x : Crew} (hs : (s.crew k).state = .saved) (hc : (s.crew k).ctx = ctx) :
    ((promoteOne ctx cls s (k, x)).crew k).promotedTo cls := by
  rw [(promoteOne_frame ctx cls s (k, x)).2.2]
  by_cases h : (s.crew k).promotable ctx cls = true
  · rw [if_pos ⟨rfl, h⟩]; exact promotedTo_ofNat _ _
  · rw [if_neg fun e => h e.2]
    cases hp : (s.crew k).promoted with
    | none => simp [Crew.promotable, hs, hc, hp] at h
    | some p => exact ⟨p, hp, fun _ => by simpa [Crew.promotable, hs, hc, hp] using h⟩

/-- Of the saved crews of a context that a list names, each has the class. -/
theorem promoteOnes_spec {ctx cls k : Nat} (l : List (Nat × Crew)) (s : State) (hs : (s.crew k).state = .saved) (hc : (s.crew k).ctx = ctx)
    (h : (∃ x, (k, x) ∈ l) ∨ (s.crew k).promotedTo cls) : ((l.foldl (promoteOne ctx cls) s).crew k).promotedTo cls := by
  induction l generalizing s with
  | nil => exact h.resolve_left fun ⟨_, hx⟩ => List.not_mem_nil hx
  | cons e r ih =>
    have hp := promotes_promoteOne ctx cls s e
    refine ih _ ((hp.get Crew.state k).trans hs) ((hp.get Crew.ctx k).trans hc) ?_
    rcases h with ⟨x, hx⟩ | h
    · rcases List.mem_cons.mp hx with rfl | hx
      · exact .inr (promoteOne_self hs hc)
      · exact .inl ⟨x, hx⟩
    · exact .inr (promoteOne_keeps h e)

/-- Every saved crew of the context has the class. -/
theorem promoteSaved_spec {s : State} {ctx cls k : Nat} (hs : (s.crew k).state = .saved) (hc : (s.crew k).ctx = ctx) :
    ((promoteSaved s ctx cls).crew k).promotedTo cls := by
  rcases smGet_mem_or ({} : Crew) s.crews k with h | h
  · exact promoteOnes_spec s.crews s hs hc (.inl ⟨_, h⟩)
  · rw [State.crew, h] at hs
    exact nomatch hs

/-- The unbound crews of the launches that feed the queues which some teams wait for have a class too. -/
def promoteFed (k : Nat) (s : State) (key : Nat) : State :=
  match (s.teamAt key).sched.wait with
  | some (.queue n) =>
    match launchOf s (s.rq n).fed with
    | none => s
    | some e =>
      if (match e.promoted with | none => true | some p => decide (p.toNat < k)) then
        s.setLaunch (handleDie (s.rq n).fed) (handleEntry (s.rq n).fed) { e with promoted := some (BitVec.ofNat 2 k) }
      else s
  | _ => s

theorem promoteFed_frame (k : Nat) (s : State) (key : Nat) : ∃ d p, promoteFed k s key = { s with dies := d, progress := p } := by
  unfold promoteFed
  split
  · split
    · exact ⟨_, _, rfl⟩
    · rename_i n _ _ e _
      by_cases h : (match e.promoted with | none => true | some p => decide (p.toNat < k)) = true
      · rw [if_pos h]; exact ⟨_, _, rfl⟩
      · rw [if_neg h]; exact ⟨_, _, rfl⟩
  · exact ⟨_, _, rfl⟩

theorem promoteFeds_frame (k : Nat) (l : List Nat) (s : State) : ∃ d p, l.foldl (promoteFed k) s = { s with dies := d, progress := p } :=
  foldl_keeps (fun u : State => ∃ d p, u = { s with dies := d, progress := p }) (promoteFed k) (by
    rintro _ key ⟨d, p, rfl⟩
    obtain ⟨d', p', e⟩ := promoteFed_frame k { s with dies := d, progress := p } key
    exact ⟨d', p', e⟩) l s ⟨_, _, rfl⟩

theorem waitLimit_eq {s : State} {k : Nat} (h : topClass (waiterClasses s s.site.crew) = some k) : let c := s.site.crew; let cr := s.crew c
    let k' := max k (cr.waiter.getD 0); let v := promoteSaved (s.setCrew c { cr with waiter := some k' }) cr.ctx k'
    exec .waitLimitExpiry s = .next ((teamKeys v c).foldl (promoteFed k') { v with progress := v.progress + 1 }) := by
  show execWaitLimitExpiry s = _
  simp only [execWaitLimitExpiry, h]
  rfl

/-- A crew with a team that has waited for the limit is RUN. -/
theorem run_of_waiter {s : State} {c k : Nat} (h : topClass (waiterClasses s c) = some k) : (s.crew c).state = .run := by
  cases hl : waiterClasses s c with
  | nil => rw [hl] at h; exact nomatch h
  | cons x r =>
    have hx : x ∈ waiterClasses s c := hl ▸ List.mem_cons_self
    obtain ⟨j, hj, -⟩ := List.mem_map.mp hx
    have hw := (List.mem_filter.mp hj).2
    simp only [Bool.and_eq_true, beq_iff_eq] at hw
    obtain ⟨⟨-, hrun⟩, -⟩ := hw
    exact hrun

/-- WAIT_LIMIT_EXPIRY makes a waiter and promotes the saved crews of its context (R200, R201). -/
theorem waitLimit_spec (s : State) : let c := s.site.crew; let cr := s.crew c
    ∀ k, topClass (waiterClasses s c) = some k → let k' := max k (cr.waiter.getD 0); ∃ u, exec .waitLimitExpiry s = .next u ∧ u.team = s.team ∧ (u.crew c).waiter = some k' ∧
      ∀ c', (s.crew c').state = .saved → (s.crew c').ctx = cr.ctx → ∃ p, (u.crew c').promoted = some p ∧ (k' < 4 → k' ≤ p.toNat) := by
  intro c cr k hk k'
  let s1 := s.setCrew c { cr with waiter := some k' }
  let v := promoteSaved s1 cr.ctx k'
  have hv : Promotes s1 v := promotes_promoteSaved s1 cr.ctx k'
  obtain ⟨d, p, hf⟩ := promoteFeds_frame k' (teamKeys v c) { v with progress := v.progress + 1 }
  have hs1 : ∀ j, s1.crew j = if j = c then { cr with waiter := some k' } else s.crew j := fun j => State.crew_setCrew s c j _
  refine ⟨{ v with dies := d, progress := p }, (waitLimit_eq hk).trans (congrArg _ hf), hv.team, ?_, fun c' hs hc => ?_⟩
  · refine (hv.get Crew.waiter c).trans ?_
    rw [hs1, if_pos rfl]
  · have hne : c' ≠ c := fun e => by
      rw [e, run_of_waiter hk] at hs
      exact nomatch hs
    exact promoteSaved_spec (by rw [hs1, if_neg hne]; exact hs) (by rw [hs1, if_neg hne]; exact hc)

end Sys2Proof.Machine
end

section
/-! SAVE_COMPLETE: a crew is captured (R192). -/

open Sys2Proof Sys2Proof.Machine

namespace Sys2Proof.Machine

/-- Before a crew is captured: its stores are at the home, its elements depart, what has not issued goes. -/
def beforeCapture (s : State) (c : Nat) : State :=
  let s := (s.crew c).slotsOf.foldl (fun s p => releaseAt s (p.1 / 48) (p.1 % 48) 4) s
  let s := (teamKeys s c).foldl (fun s k => flushTeam s (s.teamAt k).id.die k fun _ => true) s
  { s with ops := (s.ops.filter fun o => !(o.crew = c && (match o.kind with | .ramo r => !r.issued | _ => false))).map (flagless c) }

/-- The row of the first of some slots. -/
def firstRow (s : State) : List (Nat × Nat) → SlotRow
  | p :: _ => s.row p.1 p.2
  | [] => {}

/-- A crew as it is captured. -/
def Crew.captured (c : Crew) (r : SlotRow) : Crew := { c with state := .saved, area := r.area.toNat, ceil := r.ceil, qos := r.qos, waiter := none }

/-- A crew without spots of its own. -/
def Crew.unplaced (c : Crew) : Crew := { c with spots := [] }

/-- The crew and its teams are captured. -/
def withCaptured (s : State) (c : Nat) (r : SlotRow) : State :=
  let s := (teamKeys s c).foldl (fun s k => s.updTeam k Team.captured) s
  s.setCrew c ((s.crew c).captured r)

theorem captureCrew_eq (s : State) (c : Nat) : let v := beforeCapture s c
    let w := unfuse (emptySlots (withCaptured v c (firstRow v (s.crew c).slotsOf)) c) (s.crew c)
    captureCrew s c = promoteAll (writeImage (w.setCrew c (w.crew c).unplaced) c) (s.crew c).ctx := by
  unfold captureCrew beforeCapture withCaptured firstRow
  rfl

theorem sameSeats_flushTeam (s : State) (d k : Nat) (f : Nat → Bool) : SameSeats s (flushTeam s d k f) := sameSeats_of_frame rfl rfl

theorem sameSeats_beforeCapture (s : State) (c : Nat) : SameSeats s (beforeCapture s c) := by
  have release : ∀ l : List (Nat × Nat), SameSeats s (l.foldl (fun s p => releaseAt s (p.1 / 48) (p.1 % 48) 4) s) :=
    fun l => sameSeats_foldl _ (fun u p => (onlyMemory_releaseAt u _ _ _).sameSeats) l s
  have flush : ∀ (l : List Nat) (u : State), SameSeats u (l.foldl (fun s k => flushTeam s (s.teamAt k).id.die k fun _ => true) u) :=
    fun l u => sameSeats_foldl _ (fun u k => sameSeats_flushTeam u _ _ _) l u
  have ops : ∀ (u : State) l, SameSeats u { u with ops := l } := fun _ _ => sameSeats_of_frame rfl rfl
  exact ((release _).trans (flush _ _)).trans (ops _ _)

theorem withCaptured_spec (s : State) (c : Nat) (r : SlotRow) :
    ((withCaptured s c r).crew c) = (s.crew c).captured r ∧ ∀ a b, (withCaptured s c r).row a b = s.row a b := by
  unfold withCaptured
  obtain ⟨a, o, e⟩ := updTeams_frame (fun _ => Team.captured) (teamKeys s c) s
  dsimp only
  rw [e]
  exact ⟨(State.crew_setCrew _ c c _).trans (if_pos rfl), fun _ _ => rfl⟩

theorem writeImage_sameSeats (s : State) (c : Nat) : SameSeats s (writeImage s c) := by
  obtain ⟨v, n, f, e, hm, -⟩ := writeImage_eq s c
  rw [e]
  exact hm.sameSeats.trans (sameSeats_of_frame rfl rfl)

/-- A crew that is captured is saved in the area of its first row, without a place, and its slots are EMPTY (R192). -/
theorem captureCrew_spec {s : State} {c : Nat} {p : Nat × Nat} (hp : (s.crew c).slotsOf.head? = some p)
    (h : ∀ q ∈ (s.crew c).slotsOf, (s.row q.1 q.2).crew = c) : let u := captureCrew s c
    (u.crew c).state = .saved ∧ (u.crew c).area = (s.row p.1 p.2).area.toNat ∧ (u.crew c).spots = [] ∧ ∀ q ∈ (s.crew c).slotsOf, (u.row q.1 q.2).emptied := by
  have hv := sameSeats_beforeCapture s c
  have hfirst : firstRow (beforeCapture s c) (s.crew c).slotsOf = s.row p.1 p.2 := by
    obtain ⟨l, hl⟩ := List.head?_eq_some_iff.mp hp
    rw [hl]; exact hv.row _ _
  rw [captureCrew_eq, hfirst]
  generalize beforeCapture s c = v at hv
  obtain ⟨hcrew, hrow⟩ := withCaptured_spec v c (s.row p.1 p.2)
  have hslots : ((withCaptured v c (s.row p.1 p.2)).crew c).slotsOf = (s.crew c).slotsOf := by rw [hcrew]; exact hv.slotsOf c
  have hempty := emptySlots_row (s := withCaptured v c (s.row p.1 p.2)) (c := c) fun q hq => by
    rw [hrow, hv.row]; exact h q (hslots ▸ hq)
  rw [hslots] at hempty
  generalize withCaptured v c (s.row p.1 p.2) = w at hcrew hempty
  have hw := (settleFusion_frame (emptySlots w c) (s.crew c) false).2
  generalize hx : unfuse (emptySlots w c) (s.crew c) = x
  have hxc : (x.crew c).seat = ((v.crew c).captured (s.row p.1 p.2)).seat := by
    rw [← hx, ← hcrew, ← emptySlots_crew w c c]; exact hw.seat c
  have hxr : ∀ a b, x.row a b = (emptySlots w c).row a b := fun a b => by rw [← hx]; exact hw.row a b
  have hi := writeImage_sameSeats (x.setCrew c (x.crew c).unplaced) c
  have hpro := promotes_promoteAll (writeImage (x.setCrew c (x.crew c).unplaced) c) (s.crew c).ctx
  have hcr : ((x.setCrew c (x.crew c).unplaced).crew c) = (x.crew c).unplaced := (State.crew_setCrew _ c c _).trans (if_pos rfl)
  have get : ∀ {β : Type} (g : Crew → β), (∀ y, g y.seat = g y) → (∀ (y : Crew) q, g { y with promoted := q } = g y) →
      g ((promoteAll (writeImage (x.setCrew c (x.crew c).unplaced) c) (s.crew c).ctx).crew c) = g (x.crew c).unplaced := fun g h1 h2 => by
    rw [hpro.get g c h2, hi.get g c h1, hcr]
  refine ⟨(get Crew.state (fun _ => rfl) fun _ _ => rfl).trans (congrArg Crew.state hxc), (get Crew.area (fun _ => rfl) fun _ _ => rfl).trans (congrArg Crew.area hxc),
    get Crew.spots (fun _ => rfl) fun _ _ => rfl, fun q hq => ?_⟩
  rw [hpro.row, hi.row]
  show (x.row q.1 q.2).emptied
  rw [hxr]
  exact hempty q hq

/-- SAVE_COMPLETE of a crew that may be captured (R192). -/
theorem saveComplete_spec (s : State) : let c := s.site.crew; let cr := s.crew c
    cr.state = .saving → (∀ p ∈ cr.slotsOf, (s.row p.1 p.2).crew = c) → mayCapture (stopEngines s c) c = true → ∀ p, cr.slotsOf.head? = some p →
      let area := (s.row p.1 p.2).area.toNat; isMapped area = true → isMapped (area + 0x3FFFFF) = true →
      ∃ u, exec .saveComplete s = .next u ∧ (u.crew c).state = .saved ∧ (u.crew c).area = area ∧ (u.crew c).spots = [] ∧
        ∀ p ∈ cr.slotsOf, (u.row p.1 p.2).emptied := by
  intro c cr hs hh hm p hp area ha ha'
  have hv := (stops_stopEngines s c).toSameSeats
  have he : exec .saveComplete s = .next (captureCrew (stopEngines s c) c) := by
    obtain ⟨l, hl⟩ := List.head?_eq_some_iff.mp hp
    have hs' : (s.crew s.site.crew).state = .saving := hs
    have hl' : (s.crew s.site.crew).slotsOf = p :: l := hl
    have hm' : mayCapture (stopEngines s s.site.crew) s.site.crew = true := hm
    have h1 : isMapped (s.row p.1 p.2).area.toNat = true := ha
    have h2 : isMapped ((s.row p.1 p.2).area.toNat + 0x3FFFFF) = true := ha'
    show execSaveComplete s = _
    simp [execSaveComplete, hs', hl', hm', h1, h2, c]
  generalize stopEngines s c = v at hv he
  obtain ⟨h1, h2, h3, h4⟩ := captureCrew_spec (s := v) (c := c) (p := p) (by rw [hv.slotsOf]; exact hp) fun q hq => by
    rw [hv.row]; exact hh q (hv.slotsOf c ▸ hq)
  exact ⟨_, he, h1, h2.trans (by rw [hv.row]), h3, fun q hq => h4 q (by rw [hv.slotsOf]; exact hq)⟩

end Sys2Proof.Machine
end

section
/-! Launches that complete leave crews and cores as they are (R174, R177, R206). -/

open Sys2Proof Sys2Proof.Machine

namespace Sys2Proof.Machine

/-- The crews, and the cores with their slot tables. -/
def State.holders (s : State) : SMap Crew × SMap Core := (s.crews, s.cores)

theorem sameSeats_of_holders {s u : State} (h : u.holders = s.holders) : SameSeats s u := sameSeats_of_frame (congrArg Prod.fst h) (congrArg Prod.snd h)

theorem formCrews_holders (s : State) (n : Nat) (all : Bool) : (formCrews s n all).holders = s.holders := by
  obtain ⟨d, p, e⟩ := formCrews_frame s n all
  rw [e]; rfl

theorem pendLaunch_holders (s : State) (d k : Nat) : (pendLaunch s d k).holders = s.holders := by
  unfold pendLaunch
  dsimp only
  split <;> rfl

theorem wakeHeld_holders (s : State) (e : Nat) : (wakeHeld s e).holders = s.holders := by
  have each : ∀ (u : State) d (x : Nat × LaunchEntry), (if x.2.state == .held && lAfter x.2.words == some e && lAftCount x.2.words ≤ (u.event e).count.toNat
      then pendLaunch u d x.1 else u).holders = u.holders := fun u d x => by
    split
    · exact pendLaunch_holders u d x.1
    · rfl
  unfold wakeHeld
  exact foldl_same State.holders _ (fun v d => foldl_same State.holders _ (fun w x => each w d x) (v.die d).launches v) _ s

theorem reachWaiters_holders (s : State) (e : Nat) : (reachWaiters s e).holders = s.holders := rfl

theorem evAdd_holders (s : State) (e : Nat) (amount : Int) : (evAdd s e amount).1.holders = s.holders := by
  unfold evAdd
  dsimp only
  rw [wakeHeld_holders, reachWaiters_holders]
  rfl

theorem sealQueue_holders (s : State) (n : Nat) : (sealQueue s n).holders = s.holders := by
  unfold sealQueue
  split
  · rfl
  · exact formCrews_holders _ _ _

theorem detachQueue_holders (s : State) (n : Nat) : (detachQueue s n).holders = s.holders := by
  have h : ∀ q : RecordQueue, (if q.attached = 0 then sealQueue (s.setRq n q) n else s.setRq n q).holders = s.holders := fun q => by
    split
    · exact sealQueue_holders _ _
    · rfl
  exact h _

theorem setHomeBytes_holders (s : State) (pa : Nat) (bs : List Byte) : (setHomeBytes s pa bs).holders = s.holders := by
  obtain ⟨m, p, l, e⟩ := setHomeBytes_frame bs s pa
  rw [e]; rfl

theorem hostPut_holders (s : State) (f : Nat) (bs : List Byte) : (hostPut s f bs).holders = s.holders := by
  unfold hostPut
  dsimp only
  split
  · rfl
  · split
    · exact setHomeBytes_holders _ _ _
    · rfl

theorem completeLaunch_holders (s : State) (d k : Nat) : (completeLaunch s d k).holders = s.holders := by
  have inq : ∀ (o : Option Nat) (u : State), (match o with | none => u | some n => u.setRq n { u.rq n with fed := 0 }).holders = u.holders := fun o u => by
    cases o <;> rfl
  have ev : ∀ (o : Option Nat) (u : State), (match o with | none => u | some v => (evAdd u v 1).1).holders = u.holders := fun o u => by
    cases o
    · rfl
    · exact evAdd_holders u _ 1
  have out : ∀ (o : Option Nat) (b : Bool) (u : State), (match o with | some n => if b then detachQueue u n else u | none => u).holders = u.holders :=
    fun o b u => by
      cases o
      · rfl
      · cases b
        · rfl
        · exact detachQueue_holders u _
  have ring : ∀ (o : Option Nat) (bs : List Byte) (u : State), (match o with | none => u | some f => hostPut u f bs).holders = u.holders := fun o bs u => by
    cases o
    · rfl
    · exact hostPut_holders u _ bs
  unfold completeLaunch
  exact (ring _ _ _).trans ((out _ _ _).trans ((ev _ _).trans (inq _ _)))

theorem settleLaunches_holders (n : Nat) (s : State) : (settleLaunches n s).holders = s.holders := by
  induction n generalizing s with
  | zero => rfl
  | succ n ih =>
    rw [settleLaunches]
    split
    · rfl
    · rw [ih, completeLaunch_holders]

theorem countEnd_holders (s : State) (cr : Crew) : (countEnd s cr).holders = s.holders := by
  unfold countEnd
  split
  · rfl
  · exact settleLaunches_holders _ _

end Sys2Proof.Machine
end

section
/-! CREW_END (R174, R175, R467). -/

open Sys2Proof Sys2Proof.Machine

namespace Sys2Proof.Machine

/-- Crews, rows and the identities of teams stay. -/
structure SameIds (s u : State) : Prop extends SameSeats s u where
  id : ∀ k, (u.teamAt k).id = (s.teamAt k).id

theorem SameIds.refl (s : State) : SameIds s s := ⟨.refl s, fun _ => rfl⟩

theorem SameIds.trans {s u v : State} (h : SameIds s u) (h' : SameIds u v) : SameIds s v :=
  ⟨h.toSameSeats.trans h'.toSameSeats, fun k => (h'.id k).trans (h.id k)⟩

theorem sameIds_foldl {β : Type} (f : State → β → State) (hf : ∀ s b, SameIds s (f s b)) (l : List β) (s : State) : SameIds s (l.foldl f s) :=
  foldl_keeps (SameIds s) f (fun u b h => h.trans (hf u b)) l s (.refl s)

theorem Stops.sameIds {s u : State} (h : Stops s u) : SameIds s u := ⟨h.toSameSeats, fun k => h.get Team.id k⟩

/-- A reservation that goes back changes the team's queue register and the fabric. -/
theorem sameIds_returnResv (s : State) (key q : Nat) : SameIds s (returnResv s key q) := by
  have upd : ∀ (u : State) (r : QReg), SameIds u (u.updTeam key fun t => { t with q := smSet {} t.q q r }) := fun u r =>
    ⟨sameSeats_updTeam u key _, fun j => by
      rw [u.teamAt_updTeam key j (fun t => { t with q := smSet {} t.q q r }) fun _ => rfl]
      split
      · rename_i e; rw [e]
      · rfl⟩
  have send : ∀ (u : State) d dest job m, SameIds u (u.sendOn d dest job m) := fun u d dest job m => by
    unfold State.sendOn State.send
    split <;> exact ⟨sameSeats_of_frame rfl rfl, fun _ => rfl⟩
  unfold returnResv
  dsimp only
  split
  · split
    · exact .refl s
    · exact (send _ _ _ _ _).trans (upd _ _)
  · exact upd _ _

theorem sameIds_returnAll (s : State) (key : Nat) : SameIds s (returnAll s key) :=
  sameIds_foldl (fun u (e : Nat × QReg) => returnResv u key e.1) (fun u e => sameIds_returnResv u key e.1) _ s

section
variable {s u : State} (h : SameIds s u)
include h

theorem SameIds.teamKeys (c : Nat) : teamKeys u c = teamKeys s c := teamKeys_congr (fun k => by rw [h.id]) c

theorem SameIds.meant (k n : Nat) : u.meant k n = s.meant k n := by
  unfold State.meant
  rw [h.id]
  exact h.get (fun c => c.means n) _

end

/-- The release of teams whose scope is within the device's die waits for nothing. -/
theorem endRelease_near {s : State} {c scope : Nat} (h : ∀ k ∈ teamKeys s c, s.meant k scope < 5) : endRelease s c scope = (s, true) :=
  foldl_fixed _ (s, true) _ fun k hk => by
    have hr : relReady s k scope = (s, true) := if_pos (h k hk)
    rw [hr]; rfl

/-- Engines that stop leave the records that wait for one. -/
theorem Stops.portsBusy {s u : State} (h : Stops s u) (c : Nat) : portsBusy u c = portsBusy s c := by
  unfold Machine.portsBusy
  rw [h.teamKeys]
  congr 1
  funext k
  rw [h.get Team.q k]

/-- What is left of a crew that has ended. -/
def Crew.gone (c : Crew) : Crew := { state := .ended, handle := c.handle, crewno := c.crewno, ctx := c.ctx, gen := c.gen, cause := c.cause }

/-- What a crew leaves goes, its matrix claims with it, and its reservations go back. -/
def withReturns (s : State) (c : Nat) : State :=
  let u := dropRest s c
  let v := u.setCrew c { u.crew c with mat := {} }
  (teamKeys u c).foldl returnAll v

theorem sameIds_withReturns (s : State) (c : Nat) : SameIds s (withReturns s c) := by
  have h := (stops_dropRest s c).sameIds
  unfold withReturns
  dsimp only
  generalize dropRest s c = u at h
  have hm : SameIds u (u.setCrew c { u.crew c with mat := {} }) := ⟨sameSeats_setCrew u c _ (Crew.seat_mat _ _), fun _ => rfl⟩
  exact (h.trans hm).trans (sameIds_foldl _ sameIds_returnAll _ _)

/-- The cores of some slots take the release actions of a scope. -/
def releaseSlots (scope : Nat) (l : List (Nat × Nat)) (s : State) : State := l.foldl (fun s p => releaseAt s (p.1 / 48) (p.1 % 48) scope) s

theorem sameSeats_releaseSlots (scope : Nat) (l : List (Nat × Nat)) (s : State) : SameSeats s (releaseSlots scope l s) :=
  sameSeats_foldl _ (fun u _ => (onlyMemory_releaseAt u _ _ _).sameSeats) l s

/-- A crew whose words have completed and that was not terminated. -/
structure MayEnd (s : State) (c : Nat) : Prop where
  run : (s.crew c).state = .run
  teams : s.liveTeams c = []
  commit : (s.crew c).commit = false
  matrix : matrixBusy (s.crew c) = false
  ops : ∀ o ∈ s.ops, o.crew ≠ c
  ports : portsBusy s c = false
  near : ∀ k ∈ teamKeys s c, s.meant k (lScope (s.crew c).words) < 5 ∧ (s.teamAt k).dq.items = []
  cause : (s.crew c).cause = none

theorem crewEnd_eq {s : State} (h : MayEnd s s.site.crew) : let c := s.site.crew; let cr := s.crew c
    exec .crewEnd s = .next (countEnd (unfuse ((emptySlots (releaseSlots (lScope cr.words) cr.slotsOf (withReturns s c)) c).setCrew c cr.gone) cr) cr) := by
  intro c cr
  have hops : (dropRest s c).ops.any (fun o => o.crew = c) = false := by
    rw [List.any_eq_false]
    exact fun o ho => by simpa using h.ops o ((stops_dropRest s c).ops o ho)
  have hports : portsBusy (dropRest s c) c = false := ((stops_dropRest s c).portsBusy c).trans h.ports
  have hids := sameIds_withReturns s c
  have hrel : endRelease (withReturns s c) c (lScope cr.words) = (withReturns s c, true) :=
    endRelease_near fun k hk => by rw [hids.meant]; exact (h.near k (hids.teamKeys c ▸ hk)).1
  show execCrewEnd s = _
  unfold execCrewEnd
  dsimp only
  have hnone : (s.crew s.site.crew).cause.isNone = true := by rw [h.cause]; rfl
  rw [if_neg (by simpa [h.run, h.teams, h.commit, h.matrix] using fun _ k hk => (h.near k hk).2), if_neg (by rw [hops, hports]; simp)]
  change (match (if cr.cause.isNone then endRelease (withReturns s c) c (lScope cr.words) else (withReturns s c, true)) with
    | (s, false) => _ | (s, true) => _) = _
  rw [if_pos hnone, hrel]
  dsimp only
  rw [if_pos hnone]
  rfl

/-- CREW_END of a crew that may end: it is ENDED, and its slots are EMPTY. -/
theorem crewEnd_spec {s : State} (h : MayEnd s s.site.crew) (hh : ∀ p ∈ (s.crew s.site.crew).slotsOf, (s.row p.1 p.2).crew = s.site.crew) : let c := s.site.crew
    ∃ u, exec .crewEnd s = .next u ∧ (u.crew c).state = .ended ∧ (u.crew c).cause = none ∧ ∀ p ∈ (s.crew c).slotsOf, (u.row p.1 p.2).emptied := by
  intro c
  refine ⟨_, crewEnd_eq h, ?_⟩
  have hv : SameSeats s (releaseSlots (lScope (s.crew c).words) (s.crew c).slotsOf (withReturns s c)) :=
    (sameIds_withReturns s c).toSameSeats.trans (sameSeats_releaseSlots _ _ _)
  generalize releaseSlots (lScope (s.crew c).words) (s.crew c).slotsOf (withReturns s c) = v at hv
  have hrow := emptySlots_row (s := v) (c := c) fun p hp => by rw [hv.row]; exact hh p (hv.slotsOf c ▸ hp)
  rw [hv.slotsOf] at hrow
  generalize emptySlots v c = w at hrow
  have hw := (settleFusion_frame (w.setCrew c (s.crew c).gone) (s.crew c) false).2.trans
    (sameSeats_of_holders (countEnd_holders (settleFusion (w.setCrew c (s.crew c).gone) (s.crew c) false) (s.crew c)))
  have hcr : (w.setCrew c (s.crew c).gone).crew c = (s.crew c).gone := (State.crew_setCrew _ c c _).trans (if_pos rfl)
  refine ⟨?_, ?_, fun p hp => ?_⟩
  · exact (hw.state c).trans (congrArg Crew.state hcr)
  · exact ((hw.get Crew.cause c).trans (congrArg Crew.cause hcr)).trans h.cause
  · exact (congrArg SlotRow.emptied (hw.row p.1 p.2)).mpr (hrow p hp)

end Sys2Proof.Machine
end

section
/-! Crews and save images (O53). -/

open Sys2Proof Sys2Proof.Machine

/-- Settles O53: each event by what it does to its crew, an image by reading back each part of what was written. -/
theorem crewsComeAndGo : Obligations.CrewsComeAndGo := by
  refine ⟨fun s => ?_, writeImage_spec, fun s c n => ⟨length_imageHeader s c n, imageHeader_fields s c n⟩,
    fun t b => ⟨rdScalars_scalarBytes t b, rdVectors_vectorBytes t b, rdSeq_seqBytes t b⟩, fun r => ⟨r.length_bytes, regionOf_bytes r⟩⟩
  exact ⟨slotBind_spec s, fun hs hb hq hquiet _ => crewStart_spec s hs hb hq hquiet, slotSave_spec s, saveComplete_spec s, crewRestore_spec s, slotDrop_spec s,
    fun hrun hrows hteams hcommit hmatrix hops hports hnear hcause => crewEnd_spec ⟨hrun, hteams, hcommit, hmatrix, hops, hports, hnear, hcause⟩ hrows,
    waitLimit_spec s⟩

end

section
/-! The integer words of the vector engine (R228, R229). -/

open Sys2Proof Sys2Proof.Machine

namespace Sys2Proof.Machine

/-! ### Lane words -/

/-- A lane word's results may be written in another way, for the lanes in which it may issue. -/
theorem LaneWord.congr {i : Instr} {d n : Nat} {f f' : Team → Nat → Nat} {g g' : Team → Nat → Flags} (h : LaneWord i d n f g)
    (hf : ∀ s : State, s.ready i → ∀ l, f s.team l = f' s.team l) (hg : ∀ t l, g t l = g' t l) : LaneWord i d n f' g' := by
  intro s hr
  obtain ⟨s1, hrun, ho, hv⟩ := h s hr
  refine ⟨s1, ?_, ho, fun l hl k hk => ?_⟩
  · rw [show g' s.team = g s.team from funext fun l => (hg s.team l).symm]
    exact hrun
  · rw [← hf s hr l]
    exact hv l hl k hk

/-- A word that may issue has an operation whose codes are all assigned. -/
theorem op_of_ready {i : Instr} {s : State} (hr : s.ready i) : (usage i).op = true := by
  by_contra h
  have hno : (usage i).noOp s.team := .inl (Bool.not_eq_true _ ▸ h)
  exact Option.some_ne_none _ ((issueCheck_illegal ((illegal_order _ _).1 hno)).symm.trans hr)

/-- Consecutive registers of a lane hold 32 bits each. -/
theorem Team.getVn_lt (t : Team) (r l n : Nat) : t.getVn r l n < 2 ^ (32 * n) := by
  induction n generalizing r with
  | zero => exact Nat.one_pos
  | succ n ih =>
    have h1 := ih (r + 1)
    have h2 := (t.getV r l).isLt
    rw [Team.getVn, Nat.mul_succ, Nat.add_comm, Nat.pow_add]
    calc 2 ^ 32 * t.getVn (r + 1) l n + (t.getV r l).toNat
        < 2 ^ 32 * (t.getVn (r + 1) l n + 1) := by omega
      _ ≤ 2 ^ 32 * 2 ^ (32 * n) := Nat.mul_le_mul_left _ h1
      _ = 2 ^ (32 * n) * 2 ^ 32 := Nat.mul_comm _ _

/-- The number that consecutive registers hold has their words as its digits. -/
theorem Team.getVn_digit (t : Team) (r l n k : Nat) (hk : k < n) : BitVec.ofNat 32 (t.getVn r l n / 2 ^ (32 * k)) = t.getV (r + k) l := by
  induction n generalizing r k with
  | zero => omega
  | succ n ih =>
    have hlt := (t.getV r l).isLt
    cases k with
    | zero =>
      rw [Team.getVn, Nat.mul_zero, Nat.pow_zero, Nat.div_one, Nat.add_zero r]
      apply BitVec.eq_of_toNat_eq
      rw [BitVec.toNat_ofNat, Nat.add_mul_mod_self_left, Nat.mod_eq_of_lt hlt]
    | succ k =>
      have hdiv : t.getVn r l (n + 1) / 2 ^ 32 = t.getVn (r + 1) l n := by
        rw [Team.getVn, Nat.add_mul_div_left _ _ (by omega), Nat.div_eq_of_lt hlt, Nat.zero_add]
      rw [Nat.mul_succ, Nat.add_comm (32 * k), Nat.pow_add, ← Nat.div_div_eq_div_mul, hdiv, ih (r + 1) k (by omega), Nat.add_assoc, Nat.add_comm 1]

/-! ### Integer operands -/

/-- An operand of 32 or 64 bits fills its registers. -/
theorem iBits_of_word {t : BitVec 3} (h : iT4 t = true) : iBits t = 32 * iWide t := by
  revert t; decide

/-- A shift to the right is a division: one by the width or more gives 0. -/
theorem shiftRight_or_zero {x k : Nat} (hx : x < 2 ^ k) (y : Nat) : (if y < k then x >>> y else 0) = x / 2 ^ y := by
  by_cases h : y < k
  · rw [if_pos h, Nat.shiftRight_eq_div_pow]
  · rw [if_neg h, Nat.div_eq_of_lt (hx.trans_le (Nat.pow_le_pow_right (by omega) (Nat.le_of_not_lt h)))]

theorem popCount_eq (x n : Nat) : popCount x n = ((List.range n).filter fun j => x.testBit j).length := by
  induction n with
  | zero => rfl
  | succ n ih =>
    rw [popCount, ih, List.range_succ, List.filter_append, List.length_append, List.filter_singleton]
    cases x.testBit n <;> rfl

section
variable {i : Instr} {t : BitVec 3} {d a b : BitVec 7}

theorem laneWord_iWord {g : Nat → Nat → Nat} (he : ∀ s, exec i s = iWord i t d a b g s) :
    LaneWord i d.toNat (iWide t) (fun m l => g (m.getVn a.toNat l (iWide t)) (m.getVn b.toNat l (iWide t)) % 2 ^ iBits t) fun _ _ => 0 :=
  vecWord_lane _ _ _ (fun m l => (g (m.getVn a.toNat l (iWide t)) (m.getVn b.toNat l (iWide t)) % 2 ^ iBits t, 0)) he

theorem laneWord_shiftWord {g : Nat → Nat → Nat} (he : ∀ s, exec i s = shiftWord i t d a b g s) :
    LaneWord i d.toNat (iWide t) (fun m l => g (m.getVn a.toNat l (iWide t)) (m.getV b.toNat l).toNat % 2 ^ iBits t) fun _ _ => 0 :=
  vecWord_lane _ _ _ (fun m l => (g (m.getVn a.toNat l (iWide t)) (m.getV b.toNat l).toNat % 2 ^ iBits t, 0)) he

theorem laneWord_iWord1 {n : Nat} {g : Nat → Nat × Flags} (he : ∀ s, exec i s = iWord1 i t d a n g s) :
    LaneWord i d.toNat n (fun m l => (g (m.getVn a.toNat l (iWide t))).1) fun m l => (g (m.getVn a.toNat l (iWide t))).2 :=
  vecWord_lane _ _ _ (fun m l => g (m.getVn a.toNat l (iWide t))) he

end

end Sys2Proof.Machine

/-- Settles O23: each word by the function that its definition applies in a lane; the shifts, IABS and IPOP by what that function is. -/
theorem integerLaneWords : Obligations.IntegerLaneWords := by
  unfold Obligations.IntegerLaneWords
  intro t d a b w k two shift one
  refine ⟨laneWord_iWord (g := (· + ·)) fun _ => rfl, laneWord_iWord (g := fun x y => x + (2 ^ k - y)) fun _ => rfl, laneWord_iWord (g := (· * ·)) fun _ => rfl,
    laneWord_iWord (g := mulHigh t) fun _ => rfl, laneWord_iWord (g := fun x y => if asInt t x ≤ asInt t y then x else y) fun _ => rfl,
    laneWord_iWord (g := fun x y => if asInt t x ≤ asInt t y then y else x) fun _ => rfl, laneWord_iWord (g := (· &&& ·)) fun _ => rfl,
    laneWord_iWord (g := (· ||| ·)) fun _ => rfl, laneWord_iWord (g := (· ^^^ ·)) fun _ => rfl,
    vecWord_lane _ _ _ (fun m l => ((m.getVn a.toNat l w * m.getVn b.toNat l w + m.getVn d.toNat l w) % 2 ^ k, 0)) fun _ => rfl, ?ishl, ?ishr,
    laneWord_shiftWord (g := shiftSign k) fun _ => rfl, ?iabs, laneWord_iWord1 (g := fun x => (2 ^ k - 1 - x, 0)) fun _ => rfl, ?ipop,
    laneWord_iWord1 (g := fun x => (if x = 0 then k else k - 1 - Nat.log2 x, 0)) fun _ => rfl⟩
  case ishl =>
    exact (laneWord_shiftWord (g := fun x y => if y < k then x <<< y else 0) fun _ => rfl).congr
      (fun _ _ _ => congrArg (fun z => (if _ < k then z else 0) % 2 ^ k) (Nat.shiftLeft_eq _ _)) fun _ _ => rfl
  case ishr =>
    refine (laneWord_shiftWord (g := fun x y => if y < k then x >>> y else 0) fun _ => rfl).congr (fun s hr l => ?_) fun _ _ => rfl
    have hlt : s.team.getVn a.toNat l w < 2 ^ k := by
      rw [show k = 32 * w from iBits_of_word (op_of_ready hr)]
      exact s.team.getVn_lt a.toNat l w
    exact congrArg (· % 2 ^ k) (shiftRight_or_zero hlt _)
  case iabs =>
    exact (laneWord_iWord1 (g := fun x => (if 2 ^ (k - 1) ≤ x then 2 ^ k - x else x, flagIf (x == 2 ^ (k - 1)) flagOF)) fun _ => rfl).congr
      (fun _ _ _ => rfl) fun _ _ => if_congr beq_iff_eq rfl rfl
  case ipop => exact (laneWord_iWord1 (g := fun x => (popCount x k, 0)) fun _ => rfl).congr (fun _ _ _ => popCount_eq _ k) fun _ _ => rfl
end

section
/-! The comparisons of the vector engine (R230). -/

open Sys2Proof Sys2Proof.Machine

namespace Sys2Proof.Machine

/-! ### Flags of a word's lanes -/

theorem Team.raise_raise (t : Team) (f g : Flags) : (t.raise f).raise g = t.raise (f ||| g) :=
  congrArg (fun x => { t with asticky := x }) (BitVec.or_assoc _ _ _)

theorem Team.raise_zero (t : Team) : t.raise 0 = t := congrArg (fun x => { t with asticky := x }) BitVec.or_zero

/-- The flags that lanes raise one after the other may be raised together at the end, when nothing that the lanes do asks for them. -/
theorem foldl_raise (w : Team → Nat → Team) (f : Nat → Flags) (hw : ∀ t g l, w (t.raise g) l = (w t l).raise g) (ls : List Nat) (t : Team) :
    ls.foldl (fun a l => (w a l).raise (f l)) t = (ls.foldl w t).raise (flagsOf ls f) := by
  suffices H : ∀ (t : Team) (g : Flags), ls.foldl (fun a l => (w a l).raise (f l)) (t.raise g) = (ls.foldl w t).raise (ls.foldl (fun x l => x ||| f l) g) by
    have h := H t 0
    rw [Team.raise_zero] at h
    exact h
  induction ls with
  | nil => exact fun _ _ => rfl
  | cons l ls ih =>
    intro t g
    rw [List.foldl_cons, List.foldl_cons, List.foldl_cons, hw, Team.raise_raise, ih]

/-! ### Writing a predicate -/

/-- A write of a predicate changes predicates alone. -/
theorem Team.setP_eq (t : Team) (p : Nat) (m v : Mask) : t.setP p m v = { t with r := { t.r with p := (t.setP p m v).r.p } } := by
  rw [Team.setP]
  split <;> rfl

/-- A write of p0 is discarded, and one of another predicate leaves all but that (R78). -/
theorem Team.setP_other (t : Team) {p j : Nat} (m v : Mask) (h : p = 0 ∨ j ≠ p) : smGet 0 (t.setP p m v).r.p j = smGet 0 t.r.p j := by
  rw [Team.setP]
  split
  · rfl
  · rename_i hp
    exact (smGet_smSet _ _ _ _ _).trans (if_neg (h.resolve_left hp))

/-- A write of a predicate gives it the new lanes of its mask and leaves the others. -/
theorem Team.setP_lane (t : Team) {p l : Nat} (m v : Mask) (hp : p ≠ 0) (hl : l < 1024) :
    (smGet 0 (t.setP p m v).r.p p).getLsbD l = if m.getLsbD l then v.getLsbD l else (smGet 0 t.r.p p).getLsbD l := by
  rw [Team.setP, if_neg hp, smGet_smSet, if_pos rfl, BitVec.getLsbD_or, BitVec.getLsbD_and, BitVec.getLsbD_and, BitVec.getLsbD_not, decide_eq_true hl]
  cases m.getLsbD l <;> simp

theorem getLsbD_fullMask (w l : Nat) (hl : l < 1024) : (fullMask w).getLsbD l = decide (l < w) := by
  rw [fullMask, BitVec.getLsbD_ofNat, decide_eq_true hl, Bool.true_and, Nat.testBit_two_pow_sub_one]

/-- A team whose effective mask lies within its width acts on the lanes of that mask. -/
theorem Team.mem_lanes_iff {t : Team} (h : t.eff &&& ~~~(fullMask t.id.width) = 0) (l : Nat) (hl : l < 1024) : l ∈ t.lanes ↔ t.eff.getLsbD l = true := by
  refine mem_lanesOf.trans (and_iff_right_of_imp fun he => ?_)
  have h0 : (t.eff &&& ~~~(fullMask t.id.width)).getLsbD l = false := by rw [h]; exact BitVec.getLsbD_zero
  rw [BitVec.getLsbD_and, BitVec.getLsbD_not, he, getLsbD_fullMask _ _ hl, decide_eq_true hl] at h0
  simpa using h0

/-! ### A comparison -/

/-- What a comparison leaves: the lanes of the effective mask in its predicate, and the flags. -/
theorem cmpWord_spec {i : Instr} {s : State} {p : BitVec 3} {g : Team → Nat → Bool × Flags} (he : ∀ s, exec i s = cmpWord i p g s) (hr : s.ready i)
    (hm : s.team.eff &&& ~~~(fullMask s.team.id.width) = 0) :
    ∃ q, Runs i s (({ s with team := { s.team with r := { s.team.r with p := q } } } : State).flagged (flagsOf s.team.lanes fun l => (g s.team l).2)) .next ∧
      (∀ j, (p = 0 ∨ j ≠ p.toNat) → smGet 0 q j = smGet 0 s.team.r.p j) ∧
      (p ≠ 0 → ∀ l < 1024, (smGet 0 q p.toNat).getLsbD l = if l ∈ s.team.lanes then (g s.team l).1 else (smGet 0 s.team.r.p p.toNat).getLsbD l) := by
  let v := maskOf (s.team.lanes.filter fun l => (g s.team l).1)
  refine ⟨(s.team.setP p.toNat s.team.eff v).r.p, ?_, fun j hj => ?_, fun hp l hl => ?_⟩
  · refine runs_of_ok (he s) hr (congrArg (fun t => ok { s with team := t }) ?_)
    refine (foldl_raise (fun t _ => t) (fun l => (g s.team l).2) (fun _ _ _ => rfl) s.team.lanes _).trans ?_
    rw [List.foldl_fixed, ← Team.setP_eq]
  · exact s.team.setP_other _ _ (hj.imp_left fun h => by rw [h]; rfl)
  · have hp0 : p.toNat ≠ 0 := fun h => hp (BitVec.eq_of_toNat_eq h)
    rw [s.team.setP_lane _ _ hp0 hl]
    refine if_ctx_congr (Team.mem_lanes_iff hm l hl).symm (fun h => ?_) fun _ => rfl
    simp [v, getLsbD_maskOf _ _ hl, h]

/-- What FCMP gives a lane: an ordered condition raises NV for any NaN, the others for a signalling one (R230). -/
def fcmpLane (t : BitVec 3) (k : BitVec 4) (a b : BitVec 7) (m : Team) (l : Nat) : Bool × Flags :=
  let x := fVal m t a.toNat l
  let y := fVal m t b.toNat l
  (condHolds k.toNat (fCmpV x y), if x.snan ∨ y.snan ∨ (2 ≤ k.toNat ∧ k.toNat ≤ 5 ∧ (x.isNan ∨ y.isNan)) then flagNV else 0)

/-- What ICMP gives a lane (R230). -/
def icmpLane (t : BitVec 3) (k : BitVec 4) (a b : BitVec 7) (m : Team) (l : Nat) : Bool × Flags :=
  (condHolds k.toNat (some (compare (asInt t (m.getVn a.toNat l (iWide t))) (asInt t (m.getVn b.toNat l (iWide t))))), 0)

theorem exec_fcmp (t : BitVec 3) (k : BitVec 4) (p : BitVec 3) (a b : BitVec 7) (s : State) :
    exec (.fcmp t k p a b) s = cmpWord (.fcmp t k p a b) p (fcmpLane t k a b) s := by
  refine congrArg (cmpWord (.fcmp t k p a b) p · s) (funext fun m => funext fun l => Prod.ext rfl (if_congr ?_ rfl rfl))
  simp only [Bool.or_eq_true, Bool.and_eq_true, decide_eq_true_eq, or_assoc, and_assoc]

theorem exec_icmp (t : BitVec 3) (k : BitVec 4) (p : BitVec 3) (a b : BitVec 7) (s : State) :
    exec (.icmp t k p a b) s = cmpWord (.icmp t k p a b) p (icmpLane t k a b) s := rfl

end Sys2Proof.Machine

/-- Settles O24: both comparisons are one word, each with its own condition and flags in a lane. -/
theorem compareWordsWriteAPredicate : Obligations.CompareWordsWriteAPredicate := by
  unfold Obligations.CompareWordsWriteAPredicate
  intro s t k p a b _ hm done
  exact ⟨fun hr => (cmpWord_spec (exec_fcmp t k p a b) hr hm :), fun hr => (cmpWord_spec (exec_icmp t k p a b) hr hm :)⟩
end

section
/-! Reductions and scans over lanes (R233, R234). -/

open Sys2Proof Sys2Proof.Machine

namespace Sys2Proof.Machine

/-! ### LRED and LSCAN -/

/-- Lanes that raise nothing raise nothing together. -/
theorem flagsOf_zero (ls : List Nat) : flagsOf ls (fun _ => 0) = 0 :=
  foldl_fixed _ _ _ fun _ _ => BitVec.or_zero

/-- A word that gives every active lane one number, with flags of its own. -/
theorem sameInLanes_spec {i : Instr} {s : State} {f : State → Res} {d n x : Nat} {g : Flags} (he : exec i s = runWord i s f) (hr : s.ready i)
    (hf : f s = ok { s with team := (s.team.vWrite d n fun _ => (x, 0)).raise g }) :
    ∃ s1, Runs i s (s1.flagged g) .next ∧ OnlyLanes d n s.team.lanes s s1 ∧
      ∀ l ∈ s.team.lanes, ∀ j < n, s1.team.vNow (d + j) l = BitVec.ofNat 32 (x / 2 ^ (32 * j)) := by
  obtain ⟨v, m, e, hv, ho⟩ := s.team.vWrite_spec d n fun _ => (x, 0)
  rw [flagsOf_zero, Team.raise_zero] at e
  exact ⟨{ s with team := s.team.withV v m }, runs_of_ok he hr (hf.trans (congrArg (fun u => ok { s with team := u.raise g }) e)), ⟨v, m, rfl, ho⟩, hv⟩

section
variable {s : State} {d a : BitVec 7} {k : BitVec 1} {t o : BitVec 3}

/-- LRED gives every active lane the root of its tree. -/
theorem lred_spec (hr : s.ready (.lred d a k t o)) :
    let r := treeRoot (redOp k t o) 10
      ((List.range s.team.id.width).map fun l => if s.team.eff.getLsbD l then some (redVal s.team k t a.toNat l) else none)
    ∃ s1, Runs (.lred d a k t o) s (s1.flagged r.2) .next ∧ OnlyLanes d.toNat (redWide k t) s.team.lanes s s1 ∧
      ∀ l ∈ s.team.lanes, ∀ j < redWide k t, s1.team.vNow (d.toNat + j) l = BitVec.ofNat 32 (r.1.getD 0 / 2 ^ (32 * j)) :=
  sameInLanes_spec (f := _) (show execLred d a k t o s = _ from rfl) hr rfl

/-- A scan gives each lane of its list one result, in order. -/
theorem map_fst_scanLanes (op : Nat → Nat → Nat × Flags) (id : Nat) (inc : Bool) (acc : Option Nat) (l : List (Nat × Nat)) :
    (scanLanes op id inc acc l).1.map Prod.fst = l.map Prod.fst := by
  induction l generalizing acc with
  | nil => rfl
  | cons e l ih => exact congrArg (e.1 :: ·) (ih _)

/-- Different lanes are given their own numbers, each in consecutive registers. -/
theorem foldl_setVn_spec (d n : Nat) (es : List (Nat × Nat)) (t : Team) (hn : (es.map Prod.fst).Nodup) (hl : ∀ e ∈ es, e.1 < 1024) :
    ∃ v m, es.foldl (fun u e => u.setVn d e.1 e.2 n) t = t.withV v m ∧
      (∀ e ∈ es, ∀ k < n, smGet 0 v (vKey (d + k) e.1) = BitVec.ofNat 32 (e.2 / 2 ^ (32 * k))) ∧
      ∀ r l, l < 1024 → (r < d ∨ d + n ≤ r ∨ l ∉ es.map Prod.fst) →
        smGet 0 v (vKey r l) = smGet 0 t.r.v (vKey r l) ∧ smGet none m (vKey r l) = smGet none t.r.vmarks (vKey r l) := by
  induction es generalizing t with
  | nil => exact ⟨t.r.v, t.r.vmarks, rfl, by simp, fun _ _ _ _ => ⟨rfl, rfl⟩⟩
  | cons e es ih =>
    obtain ⟨hne, hnd⟩ := List.nodup_cons.mp hn
    have hle := hl e List.mem_cons_self
    obtain ⟨v0, m0, e0, hv0, ho0⟩ := Team.setVn_spec n t d e.1 e.2 hle
    obtain ⟨v, m, e1, hv, ho⟩ := ih (t.setVn d e.1 e.2 n) hnd fun x hx => hl x (List.mem_cons_of_mem _ hx)
    rw [e0, Team.withV_v, Team.withV_vmarks] at ho
    refine ⟨v, m, ?_, fun x hx k hk => ?_, fun r l hl' h => ?_⟩
    · rw [List.foldl_cons, e1, e0, Team.withV_withV]
    · rcases List.mem_cons.mp hx with rfl | hx
      · exact (ho (d + k) x.1 hle (.inr (.inr hne))).1.trans (hv0 k hk)
      · exact hv x hx k hk
    · rw [List.map_cons, List.mem_cons, not_or] at h
      have h1 := ho r l hl' (h.imp_right (Or.imp_right And.right))
      have h2 := ho0 r l hl' (h.imp_right (Or.imp_right And.left))
      exact ⟨h1.1.trans h2.1, h1.2.trans h2.2⟩

/-- LSCAN gives each active lane its own result. -/
theorem lscan_spec {n : BitVec 1} (hr : s.ready (.lscan d a k t o n)) :
    let r := scanLanes (redOp k t o) (scanId k t o) (n = 1) none (s.team.lanes.map fun l => (l, redVal s.team k t a.toNat l))
    ∃ s1, Runs (.lscan d a k t o n) s (s1.flagged r.2) .next ∧ OnlyLanes d.toNat (redWide k t) s.team.lanes s s1 ∧
      ∀ e ∈ r.1, ∀ j < redWide k t, s1.team.vNow (d.toNat + j) e.1 = BitVec.ofNat 32 (e.2 / 2 ^ (32 * j)) := by
  intro r
  have hk : r.1.map Prod.fst = s.team.lanes := by
    refine (map_fst_scanLanes _ _ _ _ _).trans ?_
    rw [List.map_map]
    exact List.map_id _
  obtain ⟨v, m, e, hv, ho⟩ := foldl_setVn_spec d.toNat (redWide k t) r.1 s.team (hk ▸ s.team.lanes_nodup)
    fun e he => Team.lanes_lt (hk ▸ List.mem_map_of_mem he)
  rw [hk] at ho
  exact ⟨{ s with team := s.team.withV v m }, runs_of_ok (f := _) (show execLscan d a k t o n s = _ from rfl) hr
    (congrArg (fun u => ok { s with team := u.raise r.2 }) e), ⟨v, m, rfl, ho⟩, hv⟩

end

/-! ### The tree of an associative operation (R234) -/

/-- Neighbours of a list combined: one level of the tree when every leaf is present. -/
def combinePairs (f : Nat → Nat → Nat) : List Nat → List Nat
  | x :: y :: r => f x y :: combinePairs f r
  | [x] => [x]
  | [] => []

theorem treeLevel_some (op : Nat → Nat → Nat × Flags) (l : List Nat) :
    (treeLevel op (l.map some)).1 = (combinePairs (fun x y => (op x y).1) l).map some := by
  induction l using combinePairs.induct with
  | case1 x y r ih => exact congrArg (some (op x y).1 :: ·) ih
  | case2 x => rfl
  | case3 => rfl

theorem length_combinePairs (f : Nat → Nat → Nat) (l : List Nat) : (combinePairs f l).length = (l.length + 1) / 2 := by
  induction l using combinePairs.induct with
  | case1 x y r ih => rw [combinePairs, List.length_cons, ih, List.length_cons, List.length_cons]; omega
  | case2 x => simp [combinePairs]
  | case3 => rfl

/-- Combining neighbours first does not change what an associative operation makes of a list. -/
theorem foldl_combinePairs {f : Nat → Nat → Nat} (hf : ∀ x y z, f (f x y) z = f x (f y z)) (l : List Nat) (a : Nat) :
    (combinePairs f l).foldl f a = l.foldl f a := by
  induction l using combinePairs.induct generalizing a with
  | case1 x y r ih => rw [combinePairs, List.foldl_cons, ih, ← hf]; rfl
  | case2 x => rfl
  | case3 => rfl

/-- A tree that is high enough for its leaves gives what taking them one after the other gives. -/
theorem treeRoot_some {op : Nat → Nat → Nat × Flags} (hop : ∀ x y z, (op (op x y).1 z).1 = (op x (op y z).1).1) (n x : Nat) (l : List Nat)
    (hl : (x :: l).length ≤ 2 ^ n) : (treeRoot op n ((x :: l).map some)).1 = some (l.foldl (fun a y => (op a y).1) x) := by
  induction n generalizing x l with
  | zero =>
    obtain rfl : l = [] := List.length_eq_zero_iff.mp (by simpa using hl)
    rfl
  | succ n ih =>
    rw [treeRoot, treeLevel_some]
    cases l with
    | nil => exact ih x [] Nat.one_le_two_pow
    | cons y r =>
      refine (ih (op x y).1 (combinePairs (fun x y => (op x y).1) r) ?_).trans (congrArg some (foldl_combinePairs hop r _))
      rw [List.length_cons, length_combinePairs]
      rw [List.length_cons, List.length_cons, Nat.pow_succ] at hl
      omega

/-! ### The integer operations are associative -/

/-- Choosing by a relation is associative when it and its complement are transitive. -/
theorem choose_assoc (r : Nat → Nat → Prop) [DecidableRel r] (ht : ∀ x y z, r x y → r y z → r x z) (hn : ∀ x y z, ¬r x y → ¬r y z → ¬r x z) (x y z : Nat) :
    (if r (if r x y then x else y) z then (if r x y then x else y) else z) = if r x (if r y z then y else z) then x else (if r y z then y else z) := by
  by_cases hxy : r x y
  · by_cases hyz : r y z
    · simp only [if_pos hxy, if_pos hyz, if_pos (ht x y z hxy hyz)]
    · simp only [if_pos hxy, if_neg hyz]
  · by_cases hyz : r y z
    · simp only [if_neg hxy, if_pos hyz]
    · simp only [if_neg hxy, if_neg hyz, if_neg (hn x y z hxy hyz)]

/-- The operation of an integer reduction by its code. -/
def intRed (t : BitVec 3) (n x y : Nat) : Nat :=
  match n with
  | 0 => (x + y) % 2 ^ iBits t
  | 1 => if asInt t x ≤ asInt t y then x else y
  | 2 => if asInt t x ≤ asInt t y then y else x
  | 3 => x &&& y
  | 4 => x ||| y
  | _ => x ^^^ y

theorem redOp_int (t o : BitVec 3) (x y : Nat) : (redOp 0 t o x y).1 = intRed t o.toNat x y := by
  have h0 : ¬(0 : BitVec 1) = 1 := by decide
  rw [redOp, if_neg h0]
  rfl

theorem intRed_assoc (t : BitVec 3) (n x y z : Nat) : intRed t n (intRed t n x y) z = intRed t n x (intRed t n y z) := by
  match n with
  | 0 => simp only [intRed, Nat.mod_add_mod, Nat.add_mod_mod, Nat.add_assoc]
  | 1 => exact choose_assoc (fun x y => asInt t x ≤ asInt t y) (fun _ _ _ => le_trans) (fun _ _ _ h h' => by omega) x y z
  | 2 =>
    have h := choose_assoc (fun x y => ¬asInt t x ≤ asInt t y) (fun _ _ _ h h' => by omega) (fun _ _ _ h h' => by omega) x y z
    simpa only [intRed, ite_not] using h
  | 3 => exact Nat.and_assoc x y z
  | 4 => exact Nat.or_assoc x y z
  | _ + 5 => exact Nat.xor_assoc x y z

/-- An integer sum, minimum, maximum, conjunction, disjunction or exclusive or is associative. -/
theorem redOp_assoc (t o : BitVec 3) (x y z : Nat) : (redOp 0 t o (redOp 0 t o x y).1 z).1 = (redOp 0 t o x (redOp 0 t o y z).1).1 := by
  simp only [redOp_int, intRed_assoc]

end Sys2Proof.Machine

/-- Settles O26: the tree of one word, the results of a scan, and a tree of an associative operation as a fold. -/
theorem reduceAndScanWords : Obligations.ReduceAndScanWords := by
  unfold Obligations.ReduceAndScanWords
  exact ⟨fun s d a k t o => ⟨lred_spec, fun n => lscan_spec⟩, fun t o x l _ hl _ => treeRoot_some (redOp_assoc t o) 10 x l hl⟩
end

section
/-! Words that select, move and permute, and words that pack fields (R231, R232, R236 to R238). -/

open Sys2Proof Sys2Proof.Machine

namespace Sys2Proof.Machine

/-! ### VSEL and LPERM -/

theorem laneWord_vsel (p : BitVec 3) (d a b : BitVec 7) : LaneWord (.vsel p d a b) d.toNat 1
    (fun m l => if (m.getP p.toNat).getLsbD l then (m.getV a.toNat l).toNat else (m.getV b.toNat l).toNat) fun _ _ => 0 :=
  (vecWord_lane _ _ _ (fun m l => ((if (m.getP p.toNat).getLsbD l then m.getV a.toNat l else m.getV b.toNat l).toNat, 0)) fun _ => rfl).congr
    (fun _ _ _ => apply_ite BitVec.toNat _ _ _) fun _ _ => rfl

/-- What LPERM gives a lane: vA of the lane that vB names, or 0 beyond the width. -/
def permuted (t : BitVec 3) (a b : BitVec 7) (m : Team) (l : Nat) : Nat :=
  if (m.getV b.toNat l).toNat < m.id.width then m.getVn a.toNat (m.getV b.toNat l).toNat (iWide t) else 0

/-- A lane without a marker in some registers gives no exception for them. -/
theorem laneMark_none {t : Team} {rs : List Nat} {l : Nat} (h : ∀ r ∈ rs, smGet none t.rSrc.vmarks (vKey r l) = none) : laneMark t rs l = none :=
  List.findSome?_eq_none_iff.mpr fun r hr => by rw [h r hr]; rfl

/-- LPERM that reads no marked element of vA. -/
theorem lperm_spec {t : BitVec 3} {d a b : BitVec 7} {s : State} (hr : s.ready (.lperm t d a b))
    (hm : ∀ l ∈ s.team.lanes, ∀ k < iWide t, (s.team.getV b.toNat l).toNat < s.team.id.width →
      smGet none s.team.rSrc.vmarks (vKey (a.toNat + k) (s.team.getV b.toNat l).toNat) = none) :
    ∃ s1, Runs (.lperm t d a b) s s1 .next ∧ OnlyLanes d.toNat (iWide t) s.team.lanes s s1 ∧
      ∀ l ∈ s.team.lanes, ∀ k < iWide t, s1.team.vNow (d.toNat + k) l = BitVec.ofNat 32 (permuted t a b s.team l / 2 ^ (32 * k)) := by
  obtain ⟨v, m, e, hv, ho⟩ := s.team.vWrite_spec d.toNat (iWide t) fun l => (permuted t a b s.team l, 0)
  rw [flagsOf_zero, Team.raise_zero] at e
  have hnone : ((s.team.lanes.map fun l => (s.team.getV b.toNat l).toNat).filter fun k => k < s.team.id.width).findSome?
      (laneMark s.team (spanRegs (grp (iWide t) a))) = none := by
    refine List.findSome?_eq_none_iff.mpr fun j hj => laneMark_none fun r hr => ?_
    obtain ⟨hj, hlt⟩ := List.mem_filter.mp hj
    obtain ⟨l, hl, rfl⟩ := List.mem_map.mp hj
    obtain ⟨k, hk, rfl⟩ := List.mem_map.mp hr
    exact hm l hl k (List.mem_range.mp hk) (of_decide_eq_true hlt)
  refine ⟨{ s with team := s.team.withV v m }, runs_of_ok (f := _) (show execLperm t d a b s = _ from rfl) hr ?_, ⟨v, m, rfl, ho⟩, hv⟩
  dsimp only
  rw [hnone]
  exact congrArg (fun u => ok { s with team := u }) e

/-- The registers of what LPERM gives a lane. -/
theorem permuted_digit (t : BitVec 3) (a b : BitVec 7) (m : Team) (l : Nat) {k : Nat} (hk : k < iWide t) :
    BitVec.ofNat 32 (permuted t a b m l / 2 ^ (32 * k)) =
      if (m.getV b.toNat l).toNat < m.id.width then m.getV (a.toNat + k) (m.getV b.toNat l).toNat else 0 := by
  rw [permuted]
  split
  · exact m.getVn_digit _ _ _ _ hk
  · rw [Nat.zero_div]; rfl

/-! ### PACK and UNPK -/

/-- Fields joined one after the other, with whether one was clamped. -/
theorem foldl_fields (v : Nat → Nat) (c : Nat → Bool) (ks : List Nat) (x : Nat) (f : Flags) :
    ks.foldl (fun (acc : Nat × Flags) k => (acc.1 + v k, acc.2 ||| flagIf (c k) flagOF)) (x, f) =
      ((ks.map v).foldl (· + ·) x, f ||| if ks.any c then flagOF else 0) := by
  induction ks generalizing x f with
  | nil => exact Prod.ext rfl BitVec.or_zero.symm
  | cons k ks ih =>
    rw [List.foldl_cons, ih, List.map_cons, List.foldl_cons, BitVec.or_assoc, List.any_cons]
    refine Prod.ext rfl (congrArg (f ||| ·) ?_)
    cases c k <;> cases ks.any c <;> decide

/-- PACK by its fields. -/
theorem exec_pack (d a : BitVec 7) (z : BitVec 2) (sa g : BitVec 1) (s : State) :
    exec (.pack d a z sa g) s = vecWord (.pack d a z sa g) s d.toNat 1 fun m l =>
      (((List.range (packN z)).map fun k => (packField (32 / packN z) (sa = 1) (g = 1) (m.getV (a.toNat + k) l)).1 * 2 ^ (32 / packN z * k)).foldl (· + ·) 0,
        if (List.range (packN z)).any fun k => (packField (32 / packN z) (sa = 1) (g = 1) (m.getV (a.toNat + k) l)).2 then flagOF else 0) := by
  refine congrArg (vecWord (.pack d a z sa g) s d.toNat 1) (funext fun m => funext fun l => (foldl_fields _ _ _ 0 0).trans ?_)
  exact Prod.ext rfl BitVec.zero_or

/-- UNPK by its fields. -/
theorem exec_unpk (d a : BitVec 7) (z : BitVec 2) (g : BitVec 1) (s : State) :
    exec (.unpk d a z g) s = vecWord (.unpk d a z g) s d.toNat (packN z) fun m l =>
      (((List.range (packN z)).map fun k =>
        let fw := 32 / packN z
        let f := (m.getV a.toNat l).toNat / 2 ^ (fw * k) % 2 ^ fw
        (if g = 1 && 2 ^ (fw - 1) ≤ f then f + (2 ^ 32 - 2 ^ fw) else f) * 2 ^ (32 * k)).foldl (· + ·) 0, 0) := by
  refine congrArg (vecWord (.unpk d a z g) s d.toNat (packN z)) (funext fun m => funext fun l => Prod.ext ?_ rfl)
  exact List.foldl_map.symm

end Sys2Proof.Machine
end

section
/-! The scale of a block of SGNQ (R235). -/

open Sys2Proof Sys2Proof.Machine

namespace Sys2Proof.Machine

/-! ### Exact sums -/

/-- The number that a signed dyadic stands for. -/
def dyadic (a : Int × Int) : ℚ := a.1 * (2 : ℚ) ^ a.2

/-- The magnitude of a finite value. -/
def FVal.mag : FVal → ℚ
  | .fin _ m e => (m : ℚ) * (2 : ℚ) ^ e
  | _ => 0

/-- A dyadic with the magnitude of a finite value added. -/
def addMag (a : Int × Int) (v : FVal) : Int × Int :=
  match v with
  | .fin _ m e => dyAdd a.1 a.2 m e
  | _ => a

/-- A factor moves from a power of two into the number before it. -/
theorem two_pow_toNat_mul {x y : Int} (h : x ≤ y) : (2 : ℚ) ^ (y - x).toNat * (2 : ℚ) ^ x = (2 : ℚ) ^ y := by
  rw [← zpow_natCast, Int.toNat_of_nonneg (by omega), ← zpow_add₀ (by norm_num)]
  congr 1; omega

theorem dyadic_dyAdd (m1 e1 m2 e2 : Int) : dyadic (dyAdd m1 e1 m2 e2) = dyadic (m1, e1) + dyadic (m2, e2) := by
  unfold dyadic dyAdd
  split
  · rename_i h
    push_cast
    rw [add_mul, mul_assoc, two_pow_toNat_mul h]
  · rename_i h
    push_cast
    rw [add_mul, mul_assoc, two_pow_toNat_mul (by omega)]

theorem dyAdd_nonneg {m1 m2 : Int} (h1 : 0 ≤ m1) (h2 : 0 ≤ m2) (e1 e2 : Int) : 0 ≤ (dyAdd m1 e1 m2 e2).1 := by
  unfold dyAdd
  split <;> positivity

/-- The sum of magnitudes is exact, and no magnitude makes it negative. -/
theorem foldl_addMag (vs : List FVal) (a : Int × Int) (ha : 0 ≤ a.1) :
    dyadic (vs.foldl addMag a) = dyadic a + (vs.map FVal.mag).sum ∧ 0 ≤ (vs.foldl addMag a).1 := by
  induction vs generalizing a with
  | nil => exact ⟨(add_zero _).symm, ha⟩
  | cons v vs ih =>
    have hstep : dyadic (addMag a v) = dyadic a + v.mag ∧ 0 ≤ (addMag a v).1 := by
      cases v with
      | nan _ => exact ⟨(add_zero _).symm, ha⟩
      | inf _ => exact ⟨(add_zero _).symm, ha⟩
      | fin n m e => exact ⟨dyadic_dyAdd _ _ _ _, dyAdd_nonneg ha (Int.natCast_nonneg m) _ _⟩
    obtain ⟨hv, hn⟩ := ih _ hstep.2
    exact ⟨by rw [List.foldl_cons, hv, hstep.1, List.map_cons, List.sum_cons, add_assoc], hn⟩

/-! ### A quotient with its remainder -/

/-- A quotient without a remainder is the fraction. -/
theorem div_exact {q n : Nat} (hn : 0 < n) (h : q % n = 0) : (q : ℚ) / n = ((q / n : Nat) : ℚ) := by
  rw [Nat.cast_div (Nat.dvd_of_mod_eq_zero h) (by positivity)]

/-- A quotient with a remainder lies below the fraction, and the next number above. -/
theorem div_between {q n : Nat} (hn : 0 < n) (h : q % n ≠ 0) : ((q / n : Nat) : ℚ) < (q : ℚ) / n ∧ (q : ℚ) / n < ((q / n : Nat) : ℚ) + 1 := by
  have hq := Nat.div_add_mod q n
  have hlt := Nat.mod_lt q hn
  have hn' : (0 : ℚ) < n := by exact_mod_cast hn
  constructor
  · rw [lt_div_iff₀ hn']
    exact_mod_cast (by rw [Nat.mul_comm]; omega : q / n * n < q)
  · rw [div_lt_iff₀ hn']
    exact_mod_cast (by rw [Nat.add_mul, Nat.one_mul, Nat.mul_comm]; omega : q < (q / n + 1) * n)

/-- The fraction, at a scale, as its quotient with a flag for what was cut off. -/
theorem div_or_between {q n b : Nat} (e : Int) (hn : 0 < n) (hb : q ≠ 0 → b * n ≤ q) : let x : ℚ := (q : ℚ) / n * (2 : ℚ) ^ e
    if (q % n != 0) = true then b ≤ q / n ∧ ((q / n : Nat) : ℚ) * (2 : ℚ) ^ e < x ∧ x < (((q / n : Nat) : ℚ) + 1) * (2 : ℚ) ^ e
    else x = ((q / n : Nat) : ℚ) * (2 : ℚ) ^ e := by
  intro x
  have he : (0 : ℚ) < (2 : ℚ) ^ e := by positivity
  split
  · rename_i h
    have hr : q % n ≠ 0 := bne_iff_ne.mp h
    obtain ⟨hlo, hhi⟩ := div_between hn hr
    refine ⟨(Nat.le_div_iff_mul_le hn).mpr (hb fun h => hr (by rw [h, Nat.zero_mod])), mul_lt_mul_of_pos_right hlo he, mul_lt_mul_of_pos_right hhi he⟩
  · rename_i h
    exact congrArg (· * (2 : ℚ) ^ e) (div_exact hn (by simpa using h))

/-! ### The three cases of the scale -/

theorem sgnScale_nan {ts : List Nat} (h : ∃ v ∈ ts.map (unpackF .f32), v.isNan = true) : sgnScale ts = (Fmt.nanCode .f32, flagNV) :=
  if_pos (List.any_eq_true.mpr h)

theorem sgnScale_inf {ts : List Nat} (hn : ∀ v ∈ ts.map (unpackF .f32), v.isNan = false) (hi : ∃ n, FVal.inf n ∈ ts.map (unpackF .f32)) :
    sgnScale ts = (Fmt.infCode .f32, 0) := by
  obtain ⟨n, hi⟩ := hi
  refine (if_neg ?_).trans (if_pos (List.any_eq_true.mpr ⟨_, hi, rfl⟩))
  simpa [List.any_eq_true] using hn

/-- The sum of the magnitudes of some sums, to be divided by their number. -/
def magSum (ts : List Nat) : Int × Int := (ts.map (unpackF .f32)).foldl addMag (0, 0)

/-- The scale of finite sums: their mean magnitude, cut off 80 bits below the last place of its dividend. -/
theorem sgnScale_fin {ts : List Nat} (hf : ∀ v ∈ ts.map (unpackF .f32), ∃ n m e, v = .fin n m e) :
    sgnScale ts = roundMag .f32 .rne 0 false ((magSum ts).1.natAbs <<< 80 / ts.length) ((magSum ts).2 - 80)
      ((magSum ts).1.natAbs <<< 80 % ts.length != 0) := by
  refine (if_neg fun h => ?_).trans ((if_neg fun h => ?_).trans rfl)
  · obtain ⟨v, hv, h⟩ := List.any_eq_true.mp h
    obtain ⟨n, m, e, rfl⟩ := hf v hv
    exact Bool.false_ne_true h
  · obtain ⟨v, hv, h⟩ := List.any_eq_true.mp h
    obtain ⟨n, m, e, rfl⟩ := hf v hv
    exact Bool.false_ne_true h

/-- The dividend over the number of sums, at its scale, is their mean magnitude. -/
theorem mean_eq (ts : List Nat) : (((ts.map (unpackF .f32)).map FVal.mag).sum / ts.length : ℚ) =
    (((magSum ts).1.natAbs <<< 80 : Nat) : ℚ) / ts.length * (2 : ℚ) ^ ((magSum ts).2 - 80) := by
  obtain ⟨hs, hn⟩ : dyadic (magSum ts) = dyadic (0, 0) + _ ∧ 0 ≤ (magSum ts).1 := foldl_addMag (ts.map (unpackF .f32)) (0, 0) le_rfl
  have h0 : dyadic (0, 0) = 0 := by simp [dyadic]
  have habs : (((magSum ts).1.natAbs : Nat) : ℚ) = ((magSum ts).1 : ℚ) := by
    rw [← Int.cast_natCast, Int.natAbs_of_nonneg hn]
  rw [h0, zero_add] at hs
  rw [← hs, dyadic, Nat.shiftLeft_eq, Nat.cast_mul, habs, zpow_sub₀ (by norm_num)]
  push_cast
  field_simp

/-- R235: the scale of finite sums is their exact mean magnitude, rounded once. -/
theorem sgnScale_mean {ts : List Nat} (hf : ∀ v ∈ ts.map (unpackF .f32), ∃ n m e, v = .fin n m e) (h0 : ts ≠ []) (hl : ts.length ≤ 1024) :
    ∃ m e st, sgnScale ts = roundMag .f32 .rne 0 false m e st ∧
      let mean : ℚ := ((ts.map (unpackF .f32)).map FVal.mag).sum / ts.length
      if st then 2 ^ 30 ≤ m ∧ (m : ℚ) * (2 : ℚ) ^ e < mean ∧ mean < ((m : ℚ) + 1) * (2 : ℚ) ^ e else mean = (m : ℚ) * (2 : ℚ) ^ e := by
  refine ⟨(magSum ts).1.natAbs <<< 80 / ts.length, (magSum ts).2 - 80, (magSum ts).1.natAbs <<< 80 % ts.length != 0, sgnScale_fin hf, ?_⟩
  rw [mean_eq]
  generalize hq : (magSum ts).1.natAbs <<< 80 = q
  refine div_or_between _ (List.length_pos_iff.mpr h0) fun hne => ?_
  rw [Nat.shiftLeft_eq] at hq
  omega

end Sys2Proof.Machine
end

section
/-! SGNQ (R235), and the words that select, move, permute and pack (O25). -/

open Sys2Proof Sys2Proof.Machine

namespace Sys2Proof.Machine

/-! ### SGNQ -/

section
variable (t : Team) (d a b : BitVec 7)

/-- The sum of a lane. -/
def sgnqSum (l : Nat) : Nat × Flags := fAddV .f32 .rne (unpackF .f32 (t.getV a.toNat l).toNat) (unpackF .f32 (t.getV b.toNat l).toNat)

/-- The scale of a lane's block: all lanes of a team narrower than 256, else 256 lanes. -/
def sgnqScale (l : Nat) : Nat × Flags :=
  sgnScale ((t.lanes.filter fun j => t.id.width < 256 ∨ j / 256 = l / 256).map fun j => (sgnqSum t a b j).1)

/-- What the scale with the sum's sign leaves of a lane's sum. -/
def sgnqErr (l : Nat) : Nat × Flags :=
  fAddV .f32 .rne (unpackF .f32 (sgnqSum t a b l).1)
    (unpackF .f32 ((sgnqScale t a b l).1 % 2 ^ 31 + if 2 ^ 31 ≤ (sgnqSum t a b l).1 then 2 ^ 31 else 0)).flip

/-- The word of signs of a lane. -/
def sgnqSigns (l : Nat) : W32 := maskWord (maskOf (t.lanes.filter fun j => 2 ^ 31 ≤ (sgnqSum t a b j).1)) (l / 32)

/-- A team with the three results of a lane written. -/
def sgnqWrite (u : Team) (l : Nat) : Team :=
  ((u.setV b.toNat l (BitVec.ofNat 32 (sgnqErr t a b l).1)).setV a.toNat l (BitVec.ofNat 32 (sgnqScale t a b l).1)).setV d.toNat l (sgnqSigns t a b l)

/-- The flags of a lane. -/
def sgnqFlags (l : Nat) : Flags := (sgnqSum t a b l).2 ||| (sgnqScale t a b l).2 ||| (sgnqErr t a b l).2

end

/-- Two lanes are of one block. -/
theorem sameBlock_iff (w j l : Nat) : (if w < 256 then 0 else j / 256) = (if w < 256 then 0 else l / 256) ↔ w < 256 ∨ j / 256 = l / 256 := by
  by_cases h : w < 256 <;> simp [h]

theorem exec_sgnq (d a b : BitVec 7) (s : State) : exec (.sgnq d a b) s = runWord (.sgnq d a b) s fun s => ok (s.mapTeam fun t =>
    t.lanes.foldl (fun u l => (sgnqWrite t d a b u l).raise (sgnqFlags t a b l)) t) := by
  show execSgnq d a b s = _
  unfold execSgnq
  simp only [sameBlock_iff]
  rfl

/-- A lane of a vector register is in `w` as it is in `u`, with its marker. -/
def SameAt (u w : Team) (r l : Nat) : Prop := w.vNow r l = u.vNow r l ∧ smGet none w.r.vmarks (vKey r l) = smGet none u.r.vmarks (vKey r l)

theorem SameAt.trans {u v w : Team} {r l : Nat} (h : SameAt u v r l) (h' : SameAt v w r l) : SameAt u w r l := ⟨h'.1.trans h.1, h'.2.trans h.2⟩

theorem sameAt_setV (t : Team) {r l r' l' : Nat} (x : W32) (hl : l < 1024) (hl' : l' < 1024) (h : l' ≠ l ∨ r' ≠ r) : SameAt t (t.setV r l x) r' l' := by
  have hne : ¬(r' = r ∧ l' = l) := fun e => h.elim (· e.2) (· e.1)
  exact ⟨(t.vNow_setV r l r' l' x hl hl').trans (if_neg hne), (smGet_smSet none t.r.vmarks _ none _).trans (if_neg (mt (vKey_inj hl' hl).mp hne))⟩

section
variable (t : Team) {d a b : BitVec 7}

/-- A lane holds its three results. -/
def SgnqDone (d a b : BitVec 7) (w : Team) (l : Nat) : Prop :=
  w.vNow d.toNat l = sgnqSigns t a b l ∧ w.vNow a.toNat l = BitVec.ofNat 32 (sgnqScale t a b l).1 ∧
    w.vNow b.toNat l = BitVec.ofNat 32 (sgnqErr t a b l).1

/-- The writes of a lane leave other lanes, and other registers than their three. -/
theorem sgnqWrite_leaves (u : Team) {l r j : Nat} (hl : l < 1024) (hj : j < 1024) (h : j ≠ l ∨ (r ≠ d.toNat ∧ r ≠ a.toNat ∧ r ≠ b.toNat)) :
    SameAt u (sgnqWrite t d a b u l) r j :=
  ((sameAt_setV u _ hl hj (h.imp_right fun h => h.2.2)).trans (sameAt_setV _ _ hl hj (h.imp_right fun h => h.2.1))).trans
    (sameAt_setV _ _ hl hj (h.imp_right fun h => h.1))

variable (hda : d ≠ a) (hdb : d ≠ b) (hab : a ≠ b)
include hda hdb hab

/-- The writes of a lane go to three different registers. -/
theorem sgnqWrite_done (u : Team) {l : Nat} (hl : l < 1024) : SgnqDone t d a b (sgnqWrite t d a b u l) l := by
  have hne {x y : BitVec 7} (h : x ≠ y) : l ≠ l ∨ y.toNat ≠ x.toNat := .inr fun e => h (BitVec.eq_of_toNat_eq e.symm)
  refine ⟨?_, ?_, ?_⟩
  · exact (Team.vNow_setV _ _ _ _ _ _ hl hl).trans (if_pos ⟨rfl, rfl⟩)
  · exact (sameAt_setV _ _ hl hl (hne hda)).1.trans ((Team.vNow_setV _ _ _ _ _ _ hl hl).trans (if_pos ⟨rfl, rfl⟩))
  · exact (sameAt_setV _ _ hl hl (hne hdb)).1.trans ((sameAt_setV _ _ hl hl (hne hab)).1.trans
      ((Team.vNow_setV _ _ _ _ _ _ hl hl).trans (if_pos ⟨rfl, rfl⟩)))

/-- The lanes of a list are written one after the other. -/
theorem foldl_sgnqWrite (ls : List Nat) (hn : ls.Nodup) (hl : ∀ l ∈ ls, l < 1024) (u : Team) : let w := ls.foldl (sgnqWrite t d a b) u
    OnlyV u w ∧ (∀ l ∈ ls, SgnqDone t d a b w l) ∧
      ∀ r j, j < 1024 → (j ∉ ls ∨ (r ≠ d.toNat ∧ r ≠ a.toNat ∧ r ≠ b.toNat)) → SameAt u w r j := by
  induction ls generalizing u with
  | nil => exact ⟨⟨_, _, rfl⟩, by simp, fun _ _ _ _ => ⟨rfl, rfl⟩⟩
  | cons k ls ih =>
    obtain ⟨hk, hn⟩ := List.nodup_cons.mp hn
    have hlk := hl k List.mem_cons_self
    obtain ⟨hv, hdone, hsame⟩ := ih hn (fun l h => hl l (List.mem_cons_of_mem _ h)) (sgnqWrite t d a b u k)
    refine ⟨OnlyV.trans ⟨_, _, rfl⟩ hv, fun l h => ?_, fun r j hj h => ?_⟩
    · rcases List.mem_cons.mp h with rfl | h
      · obtain ⟨h1, h2, h3⟩ := sgnqWrite_done t hda hdb hab u hlk
        have hs := fun r => (hsame r l hlk (.inl hk)).1
        exact ⟨(hs _).trans h1, (hs _).trans h2, (hs _).trans h3⟩
      · exact hdone l h
    · rw [List.mem_cons, not_or] at h
      exact (sgnqWrite_leaves t u hlk hj (h.imp_left And.left)).trans (hsame r j hj (h.imp_left And.right))

end

/-- SGNQ writes its three registers in the active lanes alone. -/
theorem sgnq_spec {s : State} {d a b : BitVec 7} (hr : s.ready (.sgnq d a b)) (hda : d ≠ a) (hdb : d ≠ b) (hab : a ≠ b) :
    ∃ v m, Runs (.sgnq d a b) s (({ s with team := s.team.withV v m } : State).flagged (flagsOf s.team.lanes (sgnqFlags s.team a b))) .next ∧
      (∀ l ∈ s.team.lanes, SgnqDone s.team d a b (s.team.withV v m) l) ∧
      ∀ r l, l < 1024 → (l ∉ s.team.lanes ∨ (r ≠ d.toNat ∧ r ≠ a.toNat ∧ r ≠ b.toNat)) → SameAt s.team (s.team.withV v m) r l := by
  obtain ⟨⟨v, m, e⟩, hdone, hsame⟩ := foldl_sgnqWrite s.team hda hdb hab s.team.lanes s.team.lanes_nodup (fun _ => Team.lanes_lt) s.team
  rw [e] at hdone hsame
  refine ⟨v, m, runs_of_ok (exec_sgnq d a b s) hr (congrArg (fun t => ok { s with team := t }) ?_), hdone, hsame⟩
  refine (foldl_raise (sgnqWrite s.team d a b) (sgnqFlags s.team a b) (fun _ _ _ => rfl) s.team.lanes s.team).trans ?_
  rw [e]

end Sys2Proof.Machine

/-- Settles O25: a lane word by its function; LPERM, the scale and SGNQ by their own lemmas. -/
theorem selectMovePermuteAndPack : Obligations.SelectMovePermuteAndPack := by
  unfold Obligations.SelectMovePermuteAndPack
  refine ⟨⟨laneWord_vsel, fun t d a => ?vmov, fun d i => ?vli, fun t d a b s hr hm => ?lperm⟩, fun d a b => ?sgnx, fun d a z => ?pack, fun d a z g => ?clamp,
    fun d a z => ?unpkZero, fun d a z => ?unpkSign, fun ts => ⟨sgnScale_nan, sgnScale_inf, sgnScale_mean⟩, fun d a b s hr hda hdb hab => ?sgnq⟩
  case vmov => exact vecWord_lane _ _ _ (fun m l => (m.getVn a.toNat l (iWide t), 0)) fun _ => rfl
  case vli => exact vecWord_lane _ _ _ (fun m _ => ((m.imm32 i).toNat, 0)) fun _ => rfl
  case lperm =>
    obtain ⟨s1, hrun, ho, hv⟩ := lperm_spec hr hm
    exact ⟨s1, hrun, ho, fun l hl k hk => (hv l hl k hk).trans (permuted_digit t a b s.team l hk)⟩
  case sgnx =>
    exact vecWord_lane _ _ _ (fun m l => ((m.getV b.toNat l ^^^ (if (m.getV a.toNat l).getLsbD (l % 32) then 0x80000000#32 else 0)).toNat, 0)) fun _ => rfl
  case pack => exact (vecWord_lane _ _ _ _ (exec_pack d a z 0 0)).congr (fun _ _ _ => rfl) fun _ _ => if_neg (by simp [packField])
  case clamp => exact (vecWord_lane _ _ _ _ (exec_pack d a z 1 g)).congr (fun _ _ _ => rfl) fun _ _ => rfl
  case unpkZero => exact (vecWord_lane _ _ _ _ (exec_unpk d a z 0)).congr (fun _ _ _ => rfl) fun _ _ => rfl
  case unpkSign => exact (vecWord_lane _ _ _ _ (exec_unpk d a z 1)).congr (fun _ _ _ => by simp) fun _ _ => rfl
  case sgnq =>
    obtain ⟨v, m, hrun, hdone, hsame⟩ := sgnq_spec hr hda hdb hab
    exact ⟨_, v, m, hrun, rfl, hsame, hdone⟩
end

section
/-! Memory after reset (R242). -/

open Sys2Proof Sys2Proof.Machine
/-- Settles O8: memory after reset lists nothing, and no cache holds a line. -/
theorem resetMemoryCanonical : Obligations.ResetMemoryCanonical := by
  refine ⟨reset_memWf, fun d k pa => ?_⟩
  simp [plainByte, wbByte, homeByte, State.core, State.die, State.reset, smGet]
end

section
/-! Stores that issue or fault (R252, R253, R256, R272, R273). -/

open Sys2Proof Sys2Proof.Machine

namespace Sys2Proof.Machine

/-! ### The address checks of a word's lanes (R252, R253) -/

/-- An address that is not local raises ADDR for the lanes that have one. -/
theorem addrCheck_addr {as : List (Nat × W64)} {a : Nat × W64} {r : List (Nat × W64)} (n : Nat)
    (h : as.filter (fun e => vaClass e.2 ≠ .localVa) = a :: r) : addrCheck as n false =
      some { code := codeAddr, detail := if vaClass a.2 = .fabric then 1 else 0, val := a.2, mask := some (maskOf ((a :: r).map Prod.fst)) } := by
  have e : (fun e : Nat × W64 => !(vaClass e.2 == .localVa || (false && vaClass e.2 == .fabric))) = fun e => decide (vaClass e.2 ≠ .localVa) := by
    funext e; by_cases hv : vaClass e.2 = .localVa <;> simp [hv]
  simp only [addrCheck, failing, e, h, addrDetail]

/-- With every address local, one that is not a multiple of the size raises ALIGN. -/
theorem addrCheck_align {as : List (Nat × W64)} {a : Nat × W64} {r : List (Nat × W64)} {n : Nat} (hl : ∀ e ∈ as, vaClass e.2 = .localVa)
    (h : as.filter (fun e => e.2.toNat % n ≠ 0) = a :: r) : addrCheck as n false =
      some { code := codeAlign, detail := n, val := a.2, mask := some (maskOf ((a :: r).map Prod.fst)) } := by
  have e : as.filter (fun e => !(vaClass e.2 == .localVa || (false && vaClass e.2 == .fabric))) = [] :=
    List.filter_eq_nil_iff.mpr fun e he => by simp [hl e he]
  simp only [addrCheck, failing, e, h]

/-- A word whose addresses do not pass their checks takes the exception of these. -/
theorem withAccess_trap {s : State} {as : List (Nat × W64)} {n : Nat} {x : TrapInfo} (a : Access) (f : State → List LaneAcc → Res)
    (hc : addrCheck as n false = some x) : withAccess s as n a f = .trap s x := by
  rw [withAccess, hc]

/-! ### Issue of a store -/

/-- What a quantum buffer takes for some stores. -/
def bufferItems (sp : Space) (vals : List (LaneAcc × List Byte)) : List DqItem :=
  vals.map fun a => DqItem.store a.1.va a.1.pa (sp == .scratch) a.2

section
variable (s : State) (sp : Space) (vals : List (LaneAcc × List Byte))

theorem issueStore_nil : issueStore s sp [] = ok s := rfl

/-- Outside deterministic quantum mode a store waits for slots. -/
theorem issueStore_slots (hv : vals ≠ []) (hq : s.team.id.quantum = none) (hm : mayEnter s (.store sp vals) = false) :
    issueStore s sp vals = .block s .slots := by
  simp [issueStore, hv, hq, hm]

/-- Outside deterministic quantum mode a store is in flight once its requests find slots. -/
theorem issueStore_started (hv : vals ≠ []) (hq : s.team.id.quantum = none) (hm : mayEnter s (.store sp vals) = true) :
    issueStore s sp vals = ok (s.started (.store sp vals) s.team.r.vpend s.team.r.spend) := by
  simp [issueStore, hv, hq, hm, startOp_eq]

/-- In deterministic quantum mode a store that exceeds the buffer on its own is held, and ends the quantum after it. -/
theorem issueStore_over (hv : vals ≠ []) (hq : s.team.id.quantum.isSome = true) (ho : 256 < (dqLines (bufferItems sp vals)).length) :
    issueStore s sp vals =
      ok (s.mapTeam fun t => { t with dq := { t.dq with items := t.dq.items ++ bufferItems sp vals, full := true } }) := by
  rw [issueStore, if_neg hv, if_pos hq]
  exact if_pos ho

/-- In deterministic quantum mode a store that does not fit beside what the buffer holds ends the quantum before it. -/
theorem issueStore_ends (hv : vals ≠ []) (hq : s.team.id.quantum.isSome = true) (ho : (dqLines (bufferItems sp vals)).length ≤ 256)
    (hf : 256 < (dqLines (s.team.dq.items ++ bufferItems sp vals)).length) :
    issueStore s sp vals = .block (s.mapTeam Team.endQuantum) .quantum := by
  rw [issueStore, if_neg hv, if_pos hq]
  exact (if_neg (Nat.not_lt.mpr ho)).trans (if_pos hf)

/-- In deterministic quantum mode a store that fits is held. -/
theorem issueStore_held (hv : vals ≠ []) (hq : s.team.id.quantum.isSome = true) (ho : (dqLines (bufferItems sp vals)).length ≤ 256)
    (hf : (dqLines (s.team.dq.items ++ bufferItems sp vals)).length ≤ 256) :
    issueStore s sp vals = ok (s.mapTeam fun t => { t with dq := { t.dq with items := t.dq.items ++ bufferItems sp vals } }) := by
  rw [issueStore, if_neg hv, if_pos hq]
  exact (if_neg (Nat.not_lt.mpr ho)).trans (if_neg (Nat.not_lt.mpr hf))

end

/-- Settles O28: ST does what `issueStore` does with the accesses that its checks give, or takes their exception. -/
theorem storesIssueOrFault : Obligations.StoresIssueOrFault := by
  unfold Obligations.StoresIssueOrFault
  intro s z d o sp l hr t as
  have he : exec (.st z d o sp l) s = runWord (.st z d o sp l) s _ := show execSt z d o sp l s = _ from rfl
  refine ⟨fun accs hc ht => ?_, fun a r h => ?_, fun a r hl h => ?_⟩
  · intro where' vals k s1 items
    have hs : (where' == Space.scratch) = false := by simp only [where']; split <;> rfl
    have hb : bufferItems where' vals = vals.map fun a => DqItem.store a.1.va a.1.pa false a.2 := by simp only [bufferItems, hs]
    have hf := withAccess_ok (fun s accs => issueStore s where' (accs.map fun a => (a, storeData s.team z d a.lane))) hc ht
    have hv : accs ≠ [] → vals ≠ [] := fun ha => by simpa [vals] using ha
    refine ⟨fun ha => runs_of_ok he hr (hf.trans (by subst ha; rfl)), fun ha hq => ⟨fun hm => ?_, fun hm => ?_⟩, fun ha hq => ?_⟩
    · exact waits_of_block he hr (hf.trans (issueStore_slots s _ _ (hv ha) hq hm))
    · exact runs_of_ok he hr (hf.trans (issueStore_started s _ _ (hv ha) hq hm))
    · simp only [items, List.drop_left, ← hb]
      refine ⟨fun ho hi => ?_, fun ho hi => ?_, fun ho => ?_⟩
      · exact runs_of_ok he hr (hf.trans (issueStore_held s _ _ (hv ha) hq ho hi))
      · exact waits_of_block he hr (hf.trans (issueStore_ends s _ _ (hv ha) hq ho hi))
      · exact runs_of_ok he hr (hf.trans (issueStore_over s _ _ (hv ha) hq ho))
  · exact traps_of_trap he hr (withAccess_trap _ _ (addrCheck_addr _ h))
  · exact traps_of_trap he hr (withAccess_trap _ _ (addrCheck_align hl h))

end Sys2Proof.Machine
end

section
/-! The scratchpad's words, and RDRAIN (R247, R272, R273, R329, R332). -/

open Sys2Proof Sys2Proof.Machine

namespace Sys2Proof.Machine

/-! ### The scratchpad fault register (R247) -/

/-- A record of a lane out of range changes the scratchpad fault register alone. -/
theorem spRecord_frame (t : Team) (wr : Bool) (bad : List (Nat × W64)) : ∃ x, spRecord t wr bad = { t with sp := x } := by
  unfold spRecord
  split
  · exact ⟨t.sp, rfl⟩
  · split
    · exact ⟨t.sp, rfl⟩
    · exact ⟨_, rfl⟩

/-- A register that holds a record, or a word without a lane out of range, records nothing. -/
theorem spRecord_same (t : Team) (wr : Bool) (bad : List (Nat × W64)) (h : t.sp.valid = true ∨ bad = []) : spRecord t wr bad = t := by
  unfold spRecord
  split
  · rfl
  · rcases h with h | h
    · exact if_pos h
    · exact absurd h (by simp)

/-! ### The checks of a scratchpad word (R247, R323) -/

/-- A word that touches no window in motion goes on at once. -/
theorem touched_quiet {s : State} (rs : List (Nat × Nat)) (go : State → Res)
    (h : ∀ x ∈ (s.crew s.team.id.crew).regions, x.2.state = .free ∨ x.2.state = .full) : touched s rs go = go s := by
  have hit : ((s.crew s.team.id.crew).regions.filter fun x =>
      (x.2.state == .absent || x.2.state == .filling || x.2.state == .draining) &&
      rs.any (spansMeet (tileOf x.2.desc).window)) = [] :=
    List.filter_eq_nil_iff.mpr fun x hx => by rcases h x hx with e | e <;> simp [e]
  unfold touched
  dsimp only
  rw [hit]
  exact if_pos rfl

section
variable {s : State} {as : List (Nat × W64)} {n : Nat} (wr : Bool) (f : State → List LaneAcc → Res)

/-- Aligned lanes that touch no window in motion: the first lane out of range is recorded, and the word does what it does. -/
theorem spAccess_ok (hq : ∀ x ∈ (s.crew s.team.id.crew).regions, x.2.state = .free ∨ x.2.state = .full) (ha : ∀ a ∈ as, a.2.toNat % n = 0) :
    spAccess s as n wr f = f (s.mapTeam fun t => spRecord t wr (as.filter fun a => !spInRange (s.crew s.team.id.crew) a.2 n))
      (as.map fun a => { lane := a.1, va := a.2, pa := a.2.toNat }) := by
  have e : as.filter (fun a => decide (a.2.toNat % n ≠ 0)) = [] := List.filter_eq_nil_iff.mpr fun a h => by simp [ha a h]
  simp only [spAccess, failing, e, touched_quiet _ _ hq]

/-- A misaligned lane raises ALIGN. -/
theorem spAccess_align {a : Nat × W64} {r : List (Nat × W64)} (h : as.filter (fun e => e.2.toNat % n ≠ 0) = a :: r) :
    spAccess s as n wr f = .trap s { code := codeAlign, detail := n, val := a.2, mask := some (maskOf ((a :: r).map Prod.fst)) } := by
  simp only [spAccess, failing, h]

end

/-! ### Issue -/

/-- A lane of consecutive registers is told by the registers that the team's words read. -/
theorem Team.getVn_congr {t u : Team} (h : t.vSrc = u.vSrc) (r l n : Nat) : t.getVn r l n = u.getVn r l n := by
  induction n generalizing r with
  | zero => rfl
  | succ n ih => rw [Team.getVn, Team.getVn, ih, Team.getV, Team.getV, h]

/-- An access of the scratchpad takes no request slot. -/
theorem mayEnter_scratchLoad (s : State) (z : BitVec 3) (sg sc : Bool) (d : Nat) (ws : List Nat) (accs : List LaneAcc) (h : List (Nat × Byte)) (al : Bool) :
    mayEnter s (.load .scratch z sg sc d ws accs h al) = true := rfl

theorem mayEnter_scratchStore (s : State) (vals : List (LaneAcc × List Byte)) : mayEnter s (.store .scratch vals) = true := rfl

/-- A load of the scratchpad issues with its destination pending in the mask words of its lanes. -/
theorem issueLoad_scratch (s : State) (z : BitVec 3) (sg : Bool) (d : BitVec 7) (accs : List LaneAcc) (al : Bool) (ha : accs ≠ []) :
    let w := maskWords s.team.id.width (maskOf (accs.map fun a => a.lane))
    issueLoad s .scratch z sg d accs al = ok (s.loadStarted (fun h => .load .scratch z sg false d.toNat w accs h al)
      (accs.flatMap fun a => heldBytes s.team true a.pa (szBytes z)) (s.team.vPend d.toNat (szRegs z) w (s.nextOp + 1)).r.vpend s.team.r.spend) := by
  intro w
  have hf : (accs.filter fun a => !farLane .scratch a) = accs := List.filter_eq_self.mpr fun a _ => rfl
  rw [issueLoad, if_neg ha]
  simp only [hf, mayEnter_scratchLoad, Bool.not_true, Bool.false_eq_true, if_false]
  exact congrArg ok (startLoadOp_vPend s .scratch z sg false d.toNat w accs _ al d.toNat (szRegs z) w _)

/-! ### RDRAIN (R329, R331, R332) -/

/-- What RDRAIN leaves once all its checks have passed: its operation is in flight, the entry drains, and COUNTER is as given. -/
def State.drainStarted (s : State) (d : Drain) (counter : W64) : State :=
  ((startOp s (.drain d)).setCrew s.team.id.crew
    ((s.crew s.team.id.crew).setRegion d.entry { (s.crew s.team.id.crew).region d.entry with state := .draining })).mapTeam
    fun t => { t with eng := { t.eng with leave := .free, counter := counter } }

theorem drainStarted_spec (s : State) (d : Drain) (counter : W64) : let u := s.drainStarted d counter
    (u.crew s.team.id.crew).region d.entry = { (s.crew s.team.id.crew).region d.entry with state := .draining } ∧
    u.ops = s.ops ++ [s.newOp (.drain d)] ∧ u.team.busy = s.team.busyNow ∧ u.team.r = s.team.r ∧ u.mem = s.mem ∧
    u.team.eng.counter = counter := by
  rw [State.drainStarted, startOp_eq]
  refine ⟨?_, rfl, rfl, rfl, rfl, rfl⟩
  rw [State.crew, State.mapTeam_crews, ← State.crew, State.crew_setCrew, if_pos rfl, Crew.region_setRegion]

/-- The operation of an RDRAIN over some pages that asks for no leave. -/
def Team.drainOf (t : Team) (e : BitVec 5) (a : BitVec 1) (dt : BitVec 2) (r f q l : BitVec 1) (sc : BitVec 3) (pages : List (Nat × Nat)) : Drain := {
  entry := e.toNat, acc := if a = 1 then some dt else none, sr := r = 1, seed := t.eng.seed, counter := t.eng.counter,
  free := f = 1, acq := q = 1, rel := l = 1, scope := sc, pages := pages, leave := .free }

/-- RDRAIN of a FULL entry whose pages translate and whose tile suits it issues; COUNTER moves on for stochastic rounding (R329, R331). -/
theorem rdrain_runs {s : State} {e : BitVec 5} {a : BitVec 1} {dt : BitVec 2} {r f q l : BitVec 1} {sc : BitVec 3} {pages : List (Nat × Nat)}
    (hr : s.ready (.rdrain e a dt r f q l sc)) : let rg := (s.crew s.team.id.crew).region e.toNat; let tile := tileOf rg.desc
    rg.state = .full → transPages s .write tile.pages = (s, .ok pages) → (if a = 1 then 4 * tile.count else tile.size) ≤ 65536 →
    s.team.eng.leave = .free →
    (a = 1 → tile.e = (if dt = 0 then 2 else 1) ∧ 4 * tile.count ≤ tile.wlen * 128 ∧ ∀ p ∈ pages, isHost p.2 = false) →
    Runs (.rdrain e a dt r f q l sc) s (s.drainStarted (s.team.drainOf e a dt r f q l sc pages)
      (s.team.eng.counter + if a = 1 ∧ r = 1 then BitVec.ofNat 64 ((tile.count + 2 ^ 20 - 1) / 2 ^ 20) else 0)) .next := by
  intro rg tile hfull htr hsize hleave hacc
  have hbad : (if (!decide (a = 1)) = true then none else if tile.e ≠ (if dt = 0 then 2 else 1) then some 1
      else if tile.wlen * 128 < 4 * tile.count then some 2 else if (pages.any fun p => isHost p.2) = true then some 0 else none : Option Nat) = none := by
    by_cases ha : a = 1
    · obtain ⟨h1, h2, h3⟩ := hacc ha
      have hp : (pages.any fun p => isHost p.2) = false := List.any_eq_false.mpr fun p hp => by simp [h3 p hp]
      simp [ha, h1, hp, Nat.not_lt.mpr h2]
    · rw [decide_eq_false ha]; rfl
  have hbig : decide (65536 < if a = 1 then 4 * tile.count else tile.size) = false := decide_eq_false (Nat.not_lt.mpr hsize)
  have hcnt : ∀ c x : W64, (if a = 1 ∧ r = 1 then c + x else c) = c + if a = 1 ∧ r = 1 then x else 0 := fun c x => by
    split
    · rfl
    · exact (BitVec.add_zero c).symm
  refine runs_of_ok (show execRdrain e a dt r f q l sc s = _ from rfl) hr ?_
  dsimp only
  rw [hfull]
  dsimp only
  rw [htr]
  dsimp only
  rw [hbad]
  dsimp only
  rw [hbig, hleave]
  simp only [Bool.false_and, Bool.false_eq_true, if_false, decide_eq_true_eq, Bool.and_eq_true, hcnt, State.drainStarted, startOp_eq]
  rfl

/-- Settles O37: LDS and STS issue from the accesses that `spAccess` gives, RDRAIN where each of its checks passes. -/
theorem scratchpadWordsIssue : Obligations.ScratchpadWordsIssue := by
  unfold Obligations.ScratchpadWordsIssue
  intro s t cr
  refine ⟨?_, fun wr bad => ⟨spRecord_same t wr bad, fun a l h hv => ?_⟩, ?_⟩
  · intro z d o sp as n quiet accs noted
    refine ⟨fun hq has hal => ⟨fun g hr => ?_, fun hr => ?_⟩, fun a r h => ?_⟩
    · have he : exec (.lds z d o sp g) s = runWord (.lds z d o sp g) s _ := show execLds z d o sp g s = _ from rfl
      have hne : accs ≠ [] := by simpa [accs] using has
      have hw : accs.map (fun a => a.lane) = as.map Prod.fst := by simp [accs, Function.comp_def]
      obtain ⟨x, ex⟩ := spRecord_frame t false (as.filter fun a => !spInRange cr a.2 n)
      have en : noted false = { s with team := { t with sp := x } } := congrArg (fun u => { s with team := u }) ex
      refine ⟨(t.vPend d.toNat (szRegs z) (maskWords t.id.width (maskOf (as.map Prod.fst))) (s.nextOp + 1)).r.vpend,
        runs_of_ok he hr ((spAccess_ok false _ hq hal).trans ((issueLoad_scratch (noted false) z (g = 1) d accs false hne).trans ?_)),
        fun r k hk => Team.vPend_at t _ _ _ _ r k (fun _ => maskWords_lt) hk⟩
      rw [hw, en]; rfl
    · have he : exec (.sts z d o sp) s = runWord (.sts z d o sp) s _ := show execSts z d o sp s = _ from rfl
      intro vals new items held
      let issue : State → List LaneAcc → Res := fun s accs =>
        issueStore s .scratch ((accs.filter fun a => spInRange (s.crew s.team.id.crew) a.va n).map fun a => (a, storeData s.team z d a.lane))
      obtain ⟨x, ex⟩ := spRecord_frame t true (as.filter fun a => !spInRange cr a.2 n)
      have en : noted true = { s with team := { t with sp := x } } := congrArg (fun u => { s with team := u }) ex
      have hg : ∀ l, (noted true).team.getVn d.toNat l (szRegs z) = t.getVn d.toNat l (szRegs z) := fun l => Team.getVn_congr (by rw [en]; rfl) _ _ _
      have hs : spAccess s as n true issue = issueStore (noted true) .scratch vals := by
        refine (spAccess_ok true issue hq hal).trans ?_
        show issueStore (noted true) .scratch ((accs.filter fun a => spInRange ((noted true).crew (noted true).team.id.crew) a.va n).map
          fun a => (a, leBytes ((noted true).team.getVn d.toNat a.lane (szRegs z)) n)) = _
        simp only [hg]; rw [en]; rfl
      refine ⟨fun hv => ?_, fun hv hn => ?_, fun hv hn => ⟨fun ho hi => ?_, fun ho hi => ?_, fun ho => ?_⟩⟩
      · exact runs_of_ok he hr (hs.trans (by rw [hv]; rfl))
      · refine runs_of_ok he hr (hs.trans ((issueStore_started (noted true) _ _ hv (by rw [en]; exact hn) rfl).trans ?_))
        rw [en]
      · refine runs_of_ok he hr (hs.trans ((issueStore_held (noted true) .scratch vals hv (by rw [en]; exact hn) ho (by rw [en]; exact hi)).trans ?_))
        simp only [held, en]; rfl
      · exact waits_of_block he hr (hs.trans (issueStore_ends (noted true) .scratch vals hv (by rw [en]; exact hn) ho (by rw [en]; exact hi)))
      · refine runs_of_ok he hr (hs.trans ((issueStore_over (noted true) .scratch vals hv (by rw [en]; exact hn) ho).trans ?_))
        simp only [held, en]; rfl
    · exact ⟨fun g hr => traps_of_trap (show execLds z d o sp g s = _ from rfl) hr (spAccess_align false _ h),
        fun hr => traps_of_trap (show execSts z d o sp s = _ from rfl) hr (spAccess_align true _ h)⟩
  · subst h
    exact if_neg (by simp [hv])
  · intro e a dt r f q l sc pages hr rg tile hfull htr hsize hleave hacc
    obtain ⟨hrg, hops, hbusy, hreg, hmem, hcnt⟩ := drainStarted_spec s (t.drainOf e a dt r f q l sc pages)
      (t.eng.counter + if a = 1 ∧ r = 1 then BitVec.ofNat 64 ((tile.count + 2 ^ 20 - 1) / 2 ^ 20) else 0)
    exact ⟨_, rdrain_runs hr hfull htr hsize hleave hacc, hrg, hops, hbusy, hreg, hmem, hcnt⟩

end Sys2Proof.Machine
end

section
/-! Dirty bytes on their way to the home: write buffers drain into L2, L2 writes back (R244, R262), and what one core releases another reads. -/

open Sys2Proof Sys2Proof.Machine

namespace Sys2Proof.Machine

/-! ### A dirty byte of L2 -/

/-- The byte that die `d`'s L2 holds dirty at a place, if any. -/
def l2Dirty (s : State) (d pa : Nat) : Option Byte :=
  let c := smGet {} (s.die d).l2 (pa / 128)
  if c.dirty.getLsbD (pa % 128) then some (c.byte (pa % 128)) else none

theorem l2Dirty_congr {s u : State} (d pa : Nat) (h : (u.die d).l2 = (s.die d).l2) : l2Dirty u d pa = l2Dirty s d pa := by
  rw [l2Dirty, l2Dirty, h]

/-- A byte put into a line dirty is dirty, and every other byte of it as before. -/
theorem LineCopy.put_dirty (l : LineCopy) (k j : Nat) (b : Byte) (bad : Bool) (h : j < 128) :
    (l.put k b true bad).dirty.getLsbD j = (l.dirty.getLsbD j || decide (j = k)) := by
  simp only [LineCopy.put, if_true, BitVec.getLsbD_or, BitVec.getLsbD_shiftLeft, BitVec.getLsbD_one, h, decide_true, Bool.true_and]
  by_cases e : j = k
  · subst e; simp
  · by_cases q : j < k
    · simp [e, q]
    · have : ¬j - k = 0 := by omega
      simp [e, this]

theorem l2Dirty_l2Byte (d : Nat) (s : State) (q : Nat) (b : Byte) (bad : Bool) (pa : Nat) :
    l2Dirty (l2Byte d s q b bad) d pa = if pa = q then some b else l2Dirty s d pa := by
  have hq : pa = q ↔ pa / 128 = q / 128 ∧ pa % 128 = q % 128 := by omega
  have m : ∀ x, x % 128 < 128 := fun x => Nat.mod_lt x (by omega)
  simp only [l2Dirty, l2Byte, State.die_setDie, if_true, smGet_smSet, hq]
  by_cases h : pa / 128 = q / 128
  · simp only [h, if_true, true_and, LineCopy.put_dirty _ _ _ _ _ (m pa), LineCopy.put_byte _ _ _ _ _ _ (m q) (m pa)]
    by_cases h2 : pa % 128 = q % 128
    · simp [h2]
    · simp only [h2, decide_false, Bool.or_false, if_false]
  · simp only [h, if_false, false_and]

/-- The bytes of a copy that are dirty reach a state byte by byte: what a place holds afterwards, where every step tells it so. -/
theorem eachDirty_at {β : Type} (l : LineCopy) (line pa : Nat) (f : State → Nat → Byte → Bool → State) (g : State → β) (v : Byte → β)
    (hf : ∀ s q b bad, g (f s q b bad) = if pa = q then v b else g s) (s : State) :
    g (eachDirty l line f s) = if pa / 128 = line ∧ l.dirty.getLsbD (pa % 128) = true then v (l.byte (pa % 128)) else g s := by
  have fold : ∀ ks : List Nat, (∀ k ∈ ks, k < 128) → ∀ s,
      g (ks.foldl (fun s k => if l.dirty.getLsbD k then f s (line * 128 + k) (l.byte k) (l.bad.getLsbD k) else s) s) =
        if (pa / 128 = line ∧ pa % 128 ∈ ks) ∧ l.dirty.getLsbD (pa % 128) = true then v (l.byte (pa % 128)) else g s := by
    intro ks
    induction ks with
    | nil => intro _ s; simp
    | cons k r ih =>
      intro hk s
      have hk0 := hk k List.mem_cons_self
      have hq : pa = line * 128 + k ↔ pa / 128 = line ∧ pa % 128 = k := by omega
      rw [List.foldl_cons, ih fun x hx => hk x (List.mem_cons_of_mem _ hx)]
      by_cases hd : l.dirty.getLsbD k = true
      · rw [if_pos hd, hf, if_congr hq rfl rfl]
        by_cases h1 : pa / 128 = line ∧ pa % 128 = k
        · obtain ⟨h1, h2⟩ := h1
          simp [h1, h2, hd]
        · rw [if_neg h1]
          by_cases h2 : pa / 128 = line
          · have h3 : pa % 128 ≠ k := fun e => h1 ⟨h2, e⟩
            simp [h2, h3]
          · simp [h2]
      · rw [if_neg hd]
        by_cases h1 : pa % 128 = k
        · subst h1; simp [hd]
        · simp [h1]
  rw [eachDirty, fold _ (fun k hk => List.mem_range.mp hk)]
  have : pa % 128 ∈ List.range 128 := List.mem_range.mpr (Nat.mod_lt _ (by omega))
  simp only [this, and_true]

/-! ### Write buffers drain into L2 -/

/-- Every byte that a write buffer holds is dirty. -/
def WbDirty (wb : List (Nat × LineCopy)) : Prop := ∀ e ∈ wb, e.2.dirty = e.2.valid

theorem drainHead_l2 (s : State) (d k : Nat) (e : Nat × LineCopy) (r : List (Nat × LineCopy)) (h : (s.core (coreKey d k)).wb = e :: r) (pa : Nat) :
    l2Dirty (drainHead s d k) d pa =
      if pa / 128 = e.1 ∧ e.2.dirty.getLsbD (pa % 128) = true then some (e.2.byte (pa % 128)) else l2Dirty s d pa := by
  unfold drainHead
  dsimp only
  rw [h]
  exact eachDirty_at e.2 e.1 pa (l2Byte d) (l2Dirty · d pa) some (fun s q b bad => l2Dirty_l2Byte d s q b bad pa) _

/-- A write buffer that drains leaves the byte stored last at each place dirty in L2. -/
theorem drainWb_l2 (s : State) (d k pa : Nat) (hd : WbDirty (s.core (coreKey d k)).wb) :
    l2Dirty (drainWb s d k) d pa = (wbByte (s.core (coreKey d k)).wb (pa / 128) (pa % 128)).or (l2Dirty s d pa) := by
  unfold drainWb
  generalize hw : (s.core (coreKey d k)).wb = wb at hd
  induction wb generalizing s with
  | nil => rfl
  | cons e r ih =>
    have hr : ((drainHead s d k).core (coreKey d k)).wb = r := by rw [(drainHead_core s d k 0).2.2, hw]; rfl
    rw [List.length_cons, drainFirst, ih _ hr fun x hx => hd x (List.mem_cons_of_mem _ hx), drainHead_l2 s d k e r hw, wbByte_cons, hd e List.mem_cons_self]
    have hc : (decide (e.1 = pa / 128) && e.2.valid.getLsbD (pa % 128)) = true ↔ pa / 128 = e.1 ∧ e.2.valid.getLsbD (pa % 128) = true := by
      rw [Bool.and_eq_true, decide_eq_true_eq, eq_comm]
    by_cases h : pa / 128 = e.1 ∧ e.2.valid.getLsbD (pa % 128) = true
    · rw [if_pos h, if_pos (hc.mpr h)]; cases wbByte r (pa / 128) (pa % 128) <;> rfl
    · rw [if_neg h, if_neg (fun x => h (hc.mp x))]; cases wbByte r (pa / 128) (pa % 128) <;> rfl

/-- A drained write buffer is empty; that of another core is as it was. -/
theorem drainWb_wb (s : State) (d k x : Nat) : ((drainWb s d k).core x).wb = if x = coreKey d k then [] else (s.core x).wb := by
  unfold drainWb
  generalize hn : (s.core (coreKey d k)).wb.length = n
  induction n generalizing s with
  | zero =>
    have := List.length_eq_zero_iff.mp hn
    rw [drainFirst]
    split
    · rename_i e; rw [e, this]
    · rfl
  | succ n ih =>
    have hl : ((drainHead s d k).core (coreKey d k)).wb.length = n := by rw [(drainHead_core s d k 0).2.2, List.length_tail, hn]; rfl
    rw [drainFirst, ih _ hl]
    split
    · rfl
    · rename_i h; exact (drainHead_core s d k x).2.1 h

/-- Drains of one die leave the others. -/
theorem drainFirst_die (d k n : Nat) (s : State) {d' : Nat} (h : d' ≠ d) : (drainFirst d k n s).die d' = s.die d' := by
  have hl : ∀ s pa b bad, (l2Byte d s pa b bad).die d' = s.die d' := fun s pa b bad => by
    rw [l2Byte, State.die_setDie, if_neg h]
  have hh : ∀ s, (drainHead s d k).die d' = s.die d' := fun s => by
    unfold drainHead
    dsimp only
    split
    · rfl
    · exact eachDirty_keeps (fun x => x.die d' = s.die d') _ (fun a pa b bad e => (hl a pa b bad).trans e) _ _ _ rfl
  induction n generalizing s with
  | zero => rfl
  | succ n ih => exact (ih _).trans (hh s)

/-- The write buffers of several cores drain in turn: where one of them holds a place and the others do not, its byte is dirty in L2. -/
theorem drainAll_l2 (d pa j : Nat) (b : Byte) (js : List Nat) (hn : js.Nodup) (s : State)
    (hb : j ∈ js → wbByte (s.core (coreKey d j)).wb (pa / 128) (pa % 128) = some b)
    (ho : ∀ i ∈ js, WbDirty (s.core (coreKey d i)).wb ∧ (i ≠ j → wbByte (s.core (coreKey d i)).wb (pa / 128) (pa % 128) = none)) :
    l2Dirty (js.foldl (fun s j => drainWb s d j) s) d pa = if j ∈ js then some b else l2Dirty s d pa := by
  induction js generalizing s with
  | nil => rfl
  | cons i r ih =>
    obtain ⟨hir, hn⟩ := List.nodup_cons.mp hn
    obtain ⟨hd, hi⟩ := ho i List.mem_cons_self
    have hw : ∀ x ∈ r, ((drainWb s d i).core (coreKey d x)).wb = (s.core (coreKey d x)).wb := fun x hx => by
      rw [drainWb_wb, if_neg fun e : coreKey d x = coreKey d i => hir ((Nat.add_left_cancel e : x = i) ▸ hx)]
    rw [List.foldl_cons, ih hn _ (fun hj => by rw [hw j hj]; exact hb (List.mem_cons_of_mem _ hj))
      (fun x hx => by rw [hw x hx]; exact ho x (List.mem_cons_of_mem _ hx)), drainWb_l2 s d i pa hd]
    by_cases hij : i = j
    · subst hij
      rw [if_neg hir, if_pos List.mem_cons_self, hb List.mem_cons_self]; rfl
    · have : j ∈ i :: r ↔ j ∈ r := ⟨fun h => (List.mem_cons.mp h).resolve_left fun e => hij e.symm, List.mem_cons_of_mem _⟩
      rw [hi hij, Option.none_or]
      simp only [this]

/-! ### L2 writes back -/

theorem homeByte_backByte (s : State) (q : Nat) (b : Byte) (bad : Bool) (pa : Nat) : homeByte (backByte s q b bad) pa = if pa = q then b else homeByte s pa :=
  smGet_smSet _ _ _ _ _

theorem backByte_dies (s : State) (q : Nat) (b : Byte) (bad : Bool) : (backByte s q b bad).dies = s.dies := rfl

theorem backByte_cores (s : State) (q : Nat) (b : Byte) (bad : Bool) : (backByte s q b bad).cores = s.cores := rfl

/-- Writing bytes of a copy back leaves every die. -/
theorem eachDirty_back_dies (l : LineCopy) (line : Nat) (s : State) : (eachDirty l line backByte s).dies = s.dies :=
  eachDirty_keeps (fun x => x.dies = s.dies) backByte (fun a pa b bad h => (backByte_dies a pa b bad).trans h) l line s rfl

theorem eachDirty_back_cores (l : LineCopy) (line : Nat) (s : State) : (eachDirty l line backByte s).cores = s.cores :=
  eachDirty_keeps (fun x => x.cores = s.cores) backByte (fun a pa b bad h => (backByte_cores a pa b bad).trans h) l line s rfl

/-- A line of L2 written back: its dirty bytes are at the home. -/
theorem homeByte_writeBackLine (s : State) (d line pa : Nat) :
    homeByte (writeBackLine s d line) pa = if pa / 128 = line then (l2Dirty s d pa).getD (homeByte s pa) else homeByte s pa := by
  unfold writeBackLine
  dsimp only
  rw [eachDirty_at (smGet {} (s.die d).l2 line) line pa backByte (homeByte · pa) id (fun s q b bad => homeByte_backByte s q b bad pa)]
  by_cases h : pa / 128 = line
  · subst h
    simp only [true_and, if_true, l2Dirty]
    split
    · rfl
    · rfl
  · rw [if_neg (fun x => h x.1), if_neg h]; rfl

/-- What a write-back of a line leaves of the copies in L2. -/
theorem writeBackLine_l2 (s : State) (d line d' l : Nat) : smGet {} ((writeBackLine s d line).die d').l2 l =
    if d' = d ∧ l = line then { smGet {} (s.die d).l2 line with dirty := 0 } else smGet {} (s.die d').l2 l := by
  unfold writeBackLine
  dsimp only
  rw [State.die, eachDirty_back_dies, ← State.die, State.die_setDie]
  by_cases h : d' = d
  · subst h
    simp only [if_true, true_and, smGet_smSet]
  · simp only [h, if_false, false_and]

theorem writeBackLine_cores (s : State) (d line : Nat) : (writeBackLine s d line).cores = s.cores := eachDirty_back_cores _ _ _

/-- Nothing of a line that is written back stays dirty. -/
theorem l2Dirty_writeBackLine (s : State) (d line pa : Nat) :
    l2Dirty (writeBackLine s d line) d pa = if pa / 128 = line then none else l2Dirty s d pa := by
  simp only [l2Dirty, writeBackLine_l2, true_and]
  by_cases h : pa / 128 = line
  · simp [h]
  · simp only [h, if_false]

/-- Some lines of L2 written back in turn. -/
theorem writeBackLines_at (d pa : Nat) (ls : List Nat) (s : State) :
    homeByte (ls.foldl (fun s l => writeBackLine s d l) s) pa = (if pa / 128 ∈ ls then (l2Dirty s d pa).getD (homeByte s pa) else homeByte s pa) ∧
    l2Dirty (ls.foldl (fun s l => writeBackLine s d l) s) d pa = if pa / 128 ∈ ls then none else l2Dirty s d pa := by
  induction ls generalizing s with
  | nil => exact ⟨rfl, rfl⟩
  | cons l r ih =>
    obtain ⟨h1, h2⟩ := ih (writeBackLine s d l)
    rw [List.foldl_cons, h1, h2, homeByte_writeBackLine, l2Dirty_writeBackLine]
    by_cases h : pa / 128 = l
    · subst h; simp
    · simp [h]

/-- A dirty byte lies in a line that L2 lists. -/
theorem l2Dirty_listed {s : State} {d pa : Nat} (h : pa / 128 ∉ (s.die d).l2.map Prod.fst) : l2Dirty s d pa = none := by
  have : smGet {} (s.die d).l2 (pa / 128) = {} :=
    (smGet_mem_or {} (s.die d).l2 (pa / 128)).resolve_left fun hm => h (List.mem_map.mpr ⟨_, hm, rfl⟩)
  rw [l2Dirty, this]
  simp

theorem writeBackL2_eq (s : State) (d : Nat) : writeBackL2 s d = ((s.die d).l2.map Prod.fst).foldl (fun s l => writeBackLine s d l) s := by
  rw [List.foldl_map]; rfl

/-- An L2 written back whole: every dirty byte is at the home, and none is left dirty. -/
theorem writeBackL2_at (s : State) (d pa : Nat) :
    homeByte (writeBackL2 s d) pa = (l2Dirty s d pa).getD (homeByte s pa) ∧ l2Dirty (writeBackL2 s d) d pa = none := by
  rw [writeBackL2_eq]
  obtain ⟨h1, h2⟩ := writeBackLines_at d pa ((s.die d).l2.map Prod.fst) s
  rw [h1, h2]
  by_cases h : pa / 128 ∈ (s.die d).l2.map Prod.fst
  · rw [if_pos h, if_pos h]; exact ⟨rfl, rfl⟩
  · rw [if_neg h, if_neg h, l2Dirty_listed h]; exact ⟨rfl, rfl⟩

theorem writeBackL2_cores (s : State) (d : Nat) : (writeBackL2 s d).cores = s.cores := by
  rw [writeBackL2_eq]
  exact foldl_same State.cores _ (fun a l => writeBackLine_cores a d l) _ _

theorem writeBackL2_other (s : State) (d d' l : Nat) (h : d' ≠ d) : smGet {} ((writeBackL2 s d).die d').l2 l = smGet {} (s.die d').l2 l := by
  rw [writeBackL2_eq]
  exact foldl_same (fun u => smGet {} (State.die u d').l2 l) _ (fun a x => by rw [writeBackLine_l2, if_neg fun e => h e.1]) _ _

/-! ### A release at PKG, and an acquire (R262) -/

theorem l1Sharers_nodup (s : State) (d k : Nat) : (l1Sharers s d k).Nodup := by
  unfold l1Sharers
  split
  · exact List.nodup_range.map fun _ _ h => Nat.add_left_cancel h
  · exact List.nodup_singleton k

/-- A core shares its own L1. -/
theorem mem_l1Sharers_self (s : State) (d k : Nat) : k ∈ l1Sharers s d k := by
  unfold l1Sharers
  split
  · exact List.mem_map.mpr ⟨k % 8, List.mem_range.mpr (Nat.mod_lt _ (by omega)), by omega⟩
  · exact List.mem_singleton_self k

theorem releaseAt_pkg (s : State) (d k sc : Nat) (h : 4 ≤ sc) : releaseAt s d k sc = writeBackL2 (drainShared s d k) d := by
  have h1 : ¬sc < 2 := by omega
  have h2 : ¬sc < 4 := by omega
  simp only [releaseAt, h1, h2, if_false]

theorem acquireAt_pkg (s : State) (d k sc : Nat) (h : 4 ≤ sc) :
    acquireAt s d k sc = invalL2 (invalL1 (dropNode s (coreKey d k)) d k) d := by
  have h1 : ¬sc < 2 := by omega
  have h2 : ¬sc = 2 := by omega
  have h3 : ¬sc < 4 := by omega
  simp only [acquireAt, h1, h2, h3, if_false]

/-- What is left in a write buffer by a release: nothing, or what it held. -/
theorem drainShared_wb (s : State) (d k x : Nat) : ((drainShared s d k).core x).wb = [] ∨ ((drainShared s d k).core x).wb = (s.core x).wb := by
  refine foldl_keeps (fun u : State => (u.core x).wb = [] ∨ (u.core x).wb = (s.core x).wb) _ (fun u j h => ?_) _ s (.inr rfl)
  rw [drainWb_wb]
  split
  · exact .inl rfl
  · exact h

theorem drainShared_die (s : State) (d k : Nat) {d' : Nat} (h : d' ≠ d) : (drainShared s d k).die d' = s.die d' :=
  foldl_same (fun u : State => u.die d') _ (fun u j => drainFirst_die d j _ u h) _ _

/-- Some L1s are dropped in turn. -/
theorem dropL1s_core (cks : List Nat) (s : State) (x : Nat) :
    ((cks.foldl dropL1 s).core x).l1 = (if x ∈ cks then [] else (s.core x).l1) ∧ ((cks.foldl dropL1 s).core x).wb = (s.core x).wb := by
  induction cks generalizing s with
  | nil => exact ⟨rfl, rfl⟩
  | cons ck r ih =>
    obtain ⟨h1, h2⟩ := ih (dropL1 s ck)
    rw [List.foldl_cons, h1, h2, dropL1, State.core_setCore]
    by_cases h : x = ck
    · subst h; simp
    · simp [h]

/-- The L1s that an invalidation empties (R262). -/
def invalidL1s (s : State) (d k : Nat) : List Nat :=
  if fusedCluster s d k then (List.range 8).map fun j => coreKey d (k / 8 * 8 + j) else [coreKey d k]

theorem invalL1_eq (s : State) (d k : Nat) : invalL1 s d k = (invalidL1s s d k).foldl dropL1 s := by
  unfold invalL1 invalidL1s
  split
  · rw [List.foldl_map]
  · rfl

/-- The L1 that serves a line for a core is one that an invalidation by it empties. -/
theorem l1Home_mem_invalidL1s (s : State) (d k line : Nat) : l1Home s d k line ∈ invalidL1s s d k := by
  unfold l1Home invalidL1s
  split
  · exact List.mem_map.mpr ⟨line % 8, List.mem_range.mpr (Nat.mod_lt _ (by omega)), rfl⟩
  · exact List.mem_singleton_self _

/-- After an acquire at PKG a core reads what its write buffer holds, else the home with what was dirty in its die's L2. -/
theorem plainByte_acquire_pkg (s : State) (d k sc pa : Nat) (h : 4 ≤ sc) (hw : wbByte (s.core (coreKey d k)).wb (pa / 128) (pa % 128) = none) :
    plainByte (acquireAt s d k sc) d k pa = (l2Dirty s d pa).getD (homeByte s pa) := by
  let u := dropNode s (coreKey d k)
  let v := invalL1 u d k
  have hv : ∀ x, (v.core x).l1 = (if x ∈ invalidL1s u d k then [] else (u.core x).l1) ∧ (v.core x).wb = (u.core x).wb := fun x => by
    simp only [v, invalL1_eq]; exact dropL1s_core _ u x
  have hcores : (acquireAt s d k sc).cores = v.cores := by
    rw [acquireAt_pkg _ _ _ _ h]; exact writeBackL2_cores v d
  have hl2 : ((acquireAt s d k sc).die d).l2 = [] := by
    rw [acquireAt_pkg _ _ _ _ h, invalL2, State.die_setDie, if_pos rfl]
  have hhome : homeByte (acquireAt s d k sc) pa = (l2Dirty s d pa).getD (homeByte s pa) := by
    have hd : v.dies = s.dies := by simp only [v, invalL1_eq]; exact foldl_same State.dies dropL1 (fun _ _ => rfl) _ u
    have e : homeByte (acquireAt s d k sc) pa = homeByte (writeBackL2 v d) pa := by rw [acquireAt_pkg _ _ _ _ h]; rfl
    rw [e, (writeBackL2_at v d pa).1, l2Dirty_congr d pa (congrArg (fun x => (smGet ({} : Die) x d).l2) hd), homeByte_congr (invalL1_mem u d k) pa]
    rfl
  have hserve : ((acquireAt s d k sc).core (l1Home (acquireAt s d k sc) d k (pa / 128))).l1 = [] := by
    rw [(onlyMemory_acquireAt s d k sc).l1Home, ← (onlyMemory_dropNode s (coreKey d k)).l1Home, State.core, hcores, ← State.core,
      (hv _).1, if_pos (l1Home_mem_invalidL1s u d k _)]
  have hbuf : ((acquireAt s d k sc).core (coreKey d k)).wb = (s.core (coreKey d k)).wb := by
    rw [State.core, hcores, ← State.core, (hv _).2]
    simp only [u, dropNode, State.core_setCore, if_true]
  unfold plainByte
  dsimp only
  rw [hbuf, hw, hserve, hl2, hhome]
  simp [smGet]

end Sys2Proof.Machine

/-- Settles O40: the byte is dirty in L2 once the buffers have drained, at the home once L2 has written back, and read there after the acquire. -/
theorem releaseThenAcquireSeesTheStore : Obligations.ReleaseThenAcquireSeesTheStore := by
  unfold Obligations.ReleaseThenAcquireSeesTheStore
  intro s d k sc pa j b hsc hj hb hall
  have hdirty : l2Dirty (drainShared s d k) d pa = some b := by
    refine (drainAll_l2 d pa j b _ (l1Sharers_nodup s d k) s (fun _ => hb) hall).trans (if_pos hj)
  have hhome : homeByte (releaseAt s d k sc) pa = b := by
    rw [releaseAt_pkg _ _ _ _ hsc, (writeBackL2_at _ d pa).1, hdirty]; rfl
  refine ⟨mem_l1Sharers_self s d k, hhome, fun d' k' _ hw hl => ?_⟩
  have hbuf : wbByte ((releaseAt s d k sc).core (coreKey d' k')).wb (pa / 128) (pa % 128) = none := by
    rw [releaseAt_pkg _ _ _ _ hsc, State.core, writeBackL2_cores, ← State.core]
    rcases drainShared_wb s d k (coreKey d' k') with e | e
    · rw [e]; rfl
    · rw [e]; exact hw
  have hclean : l2Dirty (releaseAt s d k sc) d' pa = none := by
    rw [releaseAt_pkg _ _ _ _ hsc]
    by_cases h : d' = d
    · rw [h]; exact (writeBackL2_at _ d pa).2
    · simp only [l2Dirty, writeBackL2_other _ _ _ _ h, drainShared_die s d k h, hl h, Bool.false_eq_true, if_false]
  rw [plainByte_acquire_pkg _ _ _ _ _ hsc hbuf, hclean, hhome]; rfl
end

section
/-! Page walks (R253, R278 to R280, R285). -/

open Sys2Proof Sys2Proof.Machine

namespace Sys2Proof.Machine

/-! ### Cores changed by key -/

/-- Some entries of a table changed: what a key reads, when the change leaves the value of an unlisted one. -/
theorem smGet_mapSome {β : Type} (d : β) (p : Nat → Prop) [DecidablePred p] (f : β → β) (hf : f d = d) (m : SMap β) (k : Nat) :
    smGet d (m.map fun e => if p e.1 then (e.1, f e.2) else e) k = if p k then f (smGet d m k) else smGet d m k := by
  induction m with
  | nil => by_cases h : p k <;> simp [smGet, h, hf]
  | cons e r ih =>
    obtain ⟨a, v⟩ := e
    by_cases hk : k = a
    · subst hk; by_cases h : p k <;> simp [smGet, h]
    · by_cases h : p a <;> simp only [List.map_cons, h, if_true, if_false, smGet, hk, ih]

/-! ### A walk starts (R279) -/

/-- A request once a walker takes a waiting one for its page. -/
def shareWalk (w x : Walk) : Walk :=
  if x.stands == .waiting && x.fault.isNone && x.samePage w then { x with stands := if x = w then .running else .shared } else x

/-- A request that a walker takes keeps its page and its fault; one that has a fault is left. -/
theorem shareWalk_spec (w x : Walk) : (shareWalk w x).ctx = x.ctx ∧ (shareWalk w x).vpn = x.vpn ∧ (shareWalk w x).fault = x.fault ∧
    (x.fault.isSome = true → shareWalk w x = x) := by
  unfold shareWalk
  split
  · rename_i h
    refine ⟨rfl, rfl, rfl, fun hs => ?_⟩
    simp only [Bool.and_eq_true, Option.isNone_iff_eq_none] at h
    rw [h.1.2] at hs
    exact absurd hs (by simp)
  · exact ⟨rfl, rfl, rfl, fun _ => rfl⟩

/-- Starting a walk changes requests of the die and its turn, or nothing. -/
theorem startWalk_cases (s : State) (d : Nat) : startWalk s d = s ∨ ∃ w k, startWalk s d =
    ({ s with cores := s.cores.map fun e => if e.1 / 48 = d then (e.1, { e.2 with walks := e.2.walks.map (shareWalk w) }) else e } : State).setDie d
      { s.die d with walkTurn := k } := by
  unfold startWalk
  split
  · exact .inl rfl
  · split
    · exact .inl rfl
    · dsimp only
      split
      · exact .inl rfl
      · exact .inr ⟨_, _, rfl⟩

/-- What starting a walk leaves: the team, memory, every TLB, the pages and faults of the requests. -/
theorem startWalk_spec (s : State) (d : Nat) : (startWalk s d).team = s.team ∧ (startWalk s d).mem = s.mem ∧
    ∀ ck, ((startWalk s d).core ck).tlb = (s.core ck).tlb ∧
      (∀ y ∈ ((startWalk s d).core ck).walks, ∃ x ∈ (s.core ck).walks, y.fault = x.fault ∧ ∀ w, y.samePage w = x.samePage w) ∧
      ∀ x ∈ (s.core ck).walks, x.fault.isSome = true → x ∈ ((startWalk s d).core ck).walks := by
  rcases startWalk_cases s d with e | ⟨w, k, e⟩
  · rw [e]
    exact ⟨rfl, rfl, fun ck => ⟨rfl, fun y hy => ⟨y, hy, rfl, fun _ => rfl⟩, fun x hx _ => hx⟩⟩
  · have hc : ∀ ck, (startWalk s d).core ck =
        if ck / 48 = d then { s.core ck with walks := (s.core ck).walks.map (shareWalk w) } else s.core ck := fun ck => by
      rw [e]
      exact smGet_mapSome {} (fun k => k / 48 = d) (fun c : Core => { c with walks := c.walks.map (shareWalk w) }) rfl s.cores ck
    refine ⟨by rw [e]; rfl, by rw [e]; rfl, fun ck => ?_⟩
    rw [hc]
    split
    · refine ⟨rfl, fun y hy => ?_, fun x hx hs => List.mem_map.mpr ⟨x, hx, (shareWalk_spec w x).2.2.2 hs⟩⟩
      obtain ⟨x, hx, rfl⟩ := List.mem_map.mp hy
      obtain ⟨h1, h2, h3, -⟩ := shareWalk_spec w x
      exact ⟨x, hx, h3, fun v => by rw [Walk.samePage, h1, h2]; rfl⟩
    · exact ⟨rfl, fun y hy => ⟨y, hy, rfl, fun _ => rfl⟩, fun x hx _ => hx⟩

/-! ### What a walk gives (R278, R279) -/

theorem walkGives_leaf (e : W64) (pa : Nat) (big : Bool) (a : Access) (sup : Bool) : walkGives (.leaf e pa big) a sup =
    match permFault e a sup with
    | some d => .error { code := codeProt, detail := d }
    | none => .ok { e := e, large := big } := rfl

/-- What a walk of a valid leaf grants maps as the leaf does. -/
theorem walkGives_leaf_ok {e : W64} {pa : Nat} {big : Bool} {a : Access} {sup : Bool} {l : Leaf} (h : (walkGives (.leaf e pa big) a sup).toOption = some l) :
    l.large = big := by
  rw [walkGives_leaf] at h
  split at h
  · exact absurd h (by simp [Except.toOption])
  · obtain rfl := Option.some.inj h; rfl

/-- A request that no walk has answered and that is for the page. -/
def Walk.asks (x w : Walk) : Bool := x.fault.isNone && x.samePage w

theorem Walk.asks_iff (x w : Walk) : x.asks w = true ↔ x.fault = none ∧ x.samePage w = true := by
  rw [Walk.asks, Bool.and_eq_true, Option.isNone_iff_eq_none]

/-- The requests of a core after a walk has ended: none for the page is unanswered. -/
theorem walked_answered (c : Core) (w : Walk) (found : WalkEnd) (e : W64) : ∀ y ∈ (c.walked w found e).walks, y.fault = none → y.samePage w = false := by
  intro y hy hf
  obtain ⟨x, hx, he⟩ := List.mem_filterMap.mp hy
  split at he
  · split at he
    · exact absurd he (by simp)
    · split at he
      · exact absurd he (by simp)
      · obtain rfl := Option.some.inj he
        exact absurd hf (by simp)
  · rename_i h
    obtain rfl := Option.some.inj he
    simpa [hf] using h

/-- A request that the walk does not grant stands with its fault. -/
theorem walked_refused {c : Core} {w x : Walk} {found : WalkEnd} {f : XFault} (e : W64) (hx : x ∈ c.walks) (ha : x.asks w = true)
    (hf : walkGives found x.access x.sup = .error f) (ht : x.team ≠ noTeam) :
    { x with stands := .shared, fault := some (f.code, f.detail) } ∈ (c.walked w found e).walks := by
  refine List.mem_filterMap.mpr ⟨x, hx, ?_⟩
  rw [Walk.asks] at ha
  rw [if_pos ha, hf]
  exact if_neg ht

/-- A granted request puts the leaf, as the walker left it, in front of the TLB. -/
theorem walked_granted {c : Core} {w x : Walk} {e : W64} {pa : Nat} {big : Bool} (l : W64) (hx : x ∈ c.walks) (ha : x.asks w = true)
    (hf : permFault e x.access x.sup = none) :
    (c.walked w (.leaf e pa big) l).tlb.head? = some { ctx := w.ctx, vpn := w.vpn, leaf := l, large := big } := by
  have hs : (walkGives (.leaf e pa big) x.access x.sup).toOption = some { e := e, large := big } := by rw [walkGives_leaf, hf]; rfl
  have hm : ∃ v, ((c.walks.filter fun x => x.fault.isNone && x.samePage w).findSome? fun x =>
      (walkGives (.leaf e pa big) x.access x.sup).toOption) = some v := by
    rw [← Option.isSome_iff_exists, List.findSome?_isSome_iff]
    exact ⟨x, List.mem_filter.mpr ⟨hx, ha⟩, by rw [hs]; rfl⟩
  obtain ⟨v, hv⟩ := hm
  obtain ⟨y, -, hy⟩ := List.exists_of_findSome?_eq_some hv
  unfold Core.walked
  dsimp only
  rw [hv]
  dsimp only
  rw [walkGives_leaf_ok hy]; rfl

/-! ### The end of a walk (R278 to R280) -/

/-- The requests of a die that a walk grants. -/
def walkGrants (s : State) (d : Nat) (w : Walk) : List (Nat × Walk) :=
  (walkRequests s d w).filter fun x => (walkGives (walk s w.ctx (w.vpn * 65536)) x.2.access x.2.sup).toOption.isSome

/-- A request of a core of the die, that the leaf allows, is granted. -/
theorem mem_walkGrants {s : State} {d ck : Nat} {w x : Walk} {e : W64} {pa : Nat} {big : Bool} (hk : ck / 48 = d)
    (hw : walk s w.ctx (w.vpn * 65536) = .leaf e pa big) (hx : x ∈ (s.core ck).walks) (ha : x.asks w = true) (hp : permFault e x.access x.sup = none) :
    (ck, x) ∈ walkGrants s d w := by
  have hm : (ck, s.core ck) ∈ s.cores := by
    refine (smGet_mem_or {} s.cores ck).resolve_right fun e => ?_
    rw [State.core, e] at hx
    exact absurd hx (by simp)
  refine List.mem_filter.mpr ⟨List.mem_flatMap.mpr ⟨(ck, s.core ck), List.mem_filter.mpr ⟨hm, by simpa using hk⟩,
    List.mem_map.mpr ⟨x, List.mem_filter.mpr ⟨hx, ha⟩, rfl⟩⟩, ?_⟩
  rw [hw, walkGives_leaf, hp]; rfl

/-- The leaf as a walk leaves it, with memory where it marks the leaf (R280). -/
def walkLeaves (s : State) (d : Nat) (w : Walk) : State × W64 :=
  match walk s w.ctx (w.vpn * 65536) with
  | .leaf e pa _ => if walkGrants s d w = [] then (s, e)
      else (markLeaf s e pa ((walkGrants s d w).any fun x => x.2.access == .write), leafMarked e ((walkGrants s d w).any fun x => x.2.access == .write))
  | _ => (s, 0)

/-- A walk's end: the leaf may be marked, the requests of the die's cores are answered, and the next walk starts. -/
theorem endWalk_eq (s : State) (d : Nat) (w : Walk) : endWalk s d w = startWalk { (walkLeaves s d w).1 with
    cores := (walkLeaves s d w).1.cores.map fun c =>
      if c.1 / 48 = d then (c.1, c.2.walked w (walk s w.ctx (w.vpn * 65536)) (walkLeaves s d w).2) else c,
    progress := (walkLeaves s d w).1.progress + 1 } d := rfl

/-- Marking a leaf changes memory alone. -/
theorem markLeaf_frame (s : State) (e : W64) (pa : Nat) (wr : Bool) : ∃ m p l, markLeaf s e pa wr = { s with mem := m, poison := p, llc := l } := by
  unfold markLeaf
  split
  · exact ⟨s.mem, s.poison, s.llc, rfl⟩
  · exact setHomeBytes_frame _ s pa

/-- Marking a leaf changes no byte but the leaf's. -/
theorem homeByte_markLeaf (s : State) (e : W64) (pa : Nat) (wr : Bool) {a : Nat} (ha : a < pa ∨ pa + 8 ≤ a) :
    homeByte (markLeaf s e pa wr) a = homeByte s a := by
  unfold markLeaf
  split
  · rfl
  · rw [setHome64, homeByte_setHomeBytes, if_neg (by rw [length_leBytes]; omega)]

/-- What a walk makes of memory and of the leaf: nothing of memory changes outside the leaf, and a granted leaf has A, and D for a write. -/
theorem walkLeaves_spec (s : State) (d : Nat) (w : Walk) : (∃ m p l, (walkLeaves s d w).1 = { s with mem := m, poison := p, llc := l }) ∧
    (walk s w.ctx (w.vpn * 65536) = .absent → (walkLeaves s d w).1 = s) ∧
    ∀ e pa big, walk s w.ctx (w.vpn * 65536) = .leaf e pa big →
      (∀ a, (a < pa ∨ pa + 8 ≤ a) → homeByte (walkLeaves s d w).1 a = homeByte s a) ∧
      (walkGrants s d w ≠ [] → (walkLeaves s d w).2 = leafMarked e ((walkGrants s d w).any fun x => x.2.access == .write)) := by
  unfold walkLeaves
  cases walk s w.ctx (w.vpn * 65536) with
  | bad lvl mce => exact ⟨⟨_, _, _, rfl⟩, fun _ => rfl, fun _ _ _ h => absurd h (by simp)⟩
  | absent => exact ⟨⟨_, _, _, rfl⟩, fun _ => rfl, fun _ _ _ h => absurd h (by simp)⟩
  | lazyLeaf _ _ => exact ⟨⟨_, _, _, rfl⟩, fun _ => rfl, fun _ _ _ h => absurd h (by simp)⟩
  | leaf e pa big =>
    dsimp only
    by_cases hg : walkGrants s d w = []
    · rw [if_pos hg]
      refine ⟨⟨_, _, _, rfl⟩, fun _ => rfl, fun e' pa' big' h => ⟨fun _ _ => rfl, fun hn => absurd hg hn⟩⟩
    · rw [if_neg hg]
      refine ⟨markLeaf_frame s e pa _, fun h => absurd h (by simp), fun e' pa' big' h => ?_⟩
      obtain ⟨rfl, rfl, rfl⟩ := WalkEnd.leaf.inj h
      exact ⟨fun a ha => homeByte_markLeaf s e pa _ ha, fun _ => rfl⟩

/-- A marked leaf has A, has D after a write, and is the leaf in every other bit. -/
theorem leafMarked_spec (e : W64) (wr : Bool) : (leafMarked e wr).getLsbD 7 = true ∧ (wr = true → (leafMarked e wr).getLsbD 8 = true) ∧
    leafMarked e wr &&& ~~~0x180#64 = e &&& ~~~0x180#64 := by
  have h1 : (0x80#64 &&& ~~~0x180#64) = 0 := by decide
  have h2 : (0x100#64 &&& ~~~0x180#64) = 0 := by decide
  unfold leafMarked
  cases wr
  · exact ⟨by simp, by simp, by simp only [BitVec.and_or_distrib_right, h1, Bool.false_eq_true, if_false]; simp⟩
  · exact ⟨by simp, by simp, by simp only [BitVec.and_or_distrib_right, h1, h2, if_true]; simp⟩

/-- A core of the die after a walk's end, as far as the start of the next walk does not change it; the team, and memory. -/
theorem endWalk_spec (s : State) (d : Nat) (w : Walk) : (endWalk s d w).team = s.team ∧ (endWalk s d w).mem = (walkLeaves s d w).1.mem ∧
    ∀ ck, ck / 48 = d → let c := (s.core ck).walked w (walk s w.ctx (w.vpn * 65536)) (walkLeaves s d w).2
      ((endWalk s d w).core ck).tlb = c.tlb ∧ (∀ y ∈ ((endWalk s d w).core ck).walks, y.fault = none → y.samePage w = false) ∧
      ∀ x ∈ c.walks, x.fault.isSome = true → x ∈ ((endWalk s d w).core ck).walks := by
  obtain ⟨⟨m, p, l, hm⟩, -⟩ := walkLeaves_spec s d w
  rw [endWalk_eq]
  obtain ⟨hteam, hmem, hcore⟩ := startWalk_spec { (walkLeaves s d w).1 with
    cores := (walkLeaves s d w).1.cores.map fun c =>
      if c.1 / 48 = d then (c.1, c.2.walked w (walk s w.ctx (w.vpn * 65536)) (walkLeaves s d w).2) else c,
    progress := (walkLeaves s d w).1.progress + 1 } d
  refine ⟨hteam.trans (by rw [hm]), hmem, fun ck hk => ?_⟩
  obtain ⟨ht, hy, hx⟩ := hcore ck
  have hc : (State.core { (walkLeaves s d w).1 with
      cores := (walkLeaves s d w).1.cores.map fun c =>
        if c.1 / 48 = d then (c.1, c.2.walked w (walk s w.ctx (w.vpn * 65536)) (walkLeaves s d w).2) else c,
      progress := (walkLeaves s d w).1.progress + 1 } ck) = (s.core ck).walked w (walk s w.ctx (w.vpn * 65536)) (walkLeaves s d w).2 := by
    refine (smGet_mapSome {} (fun k => k / 48 = d) (fun c : Core => c.walked w (walk s w.ctx (w.vpn * 65536)) (walkLeaves s d w).2) rfl _ ck).trans ?_
    rw [if_pos hk, show (walkLeaves s d w).1.cores = s.cores by rw [hm]]; rfl
  rw [hc] at ht hy hx
  refine ⟨ht, fun y h hf => ?_, hx⟩
  obtain ⟨x, hxm, hxf, hp⟩ := hy y h
  rw [hp]
  exact walked_answered _ _ _ _ x hxm (hxf.symm.trans hf)

/-- What a leaf allows (R253, R278, R285). -/
theorem permFault_none (e : W64) (a : Access) (sup : Bool) : permFault e a sup = none ↔ (sup = true ∨ e.getLsbD 3 = true) ∧
    (match a with | .read => e.getLsbD 4 = true | .write => e.getLsbD 5 = true ∧ leafAttr e ≠ 2 | .fetch => e.getLsbD 6 = true) := by
  have hu : (!sup && !leafU e) = true ↔ ¬(sup = true ∨ e.getLsbD 3 = true) := by simp [leafU]
  unfold permFault
  by_cases h : sup = true ∨ e.getLsbD 3 = true
  · rw [if_neg (fun x => hu.mp x h), and_iff_right h]
    cases a with
    | read => simp [leafR]
    | write => by_cases ha : leafAttr e = 2 <;> simp [leafW, ha]
    | fetch => simp [leafX]
  · rw [if_pos (hu.mpr h)]
    exact ⟨fun e => absurd e (by simp), fun x => absurd x.1 h⟩

end Sys2Proof.Machine

/-- Settles O32: the walk's end answers each request through `Core.walked`, and the start of the next walk changes no answer. -/
theorem pageWalks : Obligations.PageWalks := by
  unfold Obligations.PageWalks
  refine ⟨?_, fun e a sup => ⟨permFault_none e a sup, fun hs hu => by rw [permFault.eq_def, leafU, hs, hu]; rfl⟩⟩
  intro s w ck hsite hw hroot
  have hk : ck / 48 = s.site.die := by simp only [ck, coreKey]; omega
  have he : exec .pageWalkComplete s = .next (endWalk s s.site.die w) := by
    show execPageWalkComplete s = _
    unfold execPageWalkComplete
    rw [hw]
    exact if_neg (by rw [hroot]; exact Bool.false_ne_true)
  obtain ⟨hteam, hmem, hcore⟩ := endWalk_spec s s.site.die w
  obtain ⟨htlb, hans, hfault⟩ := hcore ck hk
  obtain ⟨-, habs, hleaf⟩ := walkLeaves_spec s s.site.die w
  refine ⟨_, he, hteam, hans, fun e pa big hwalk => ⟨fun a ha => ?_, fun x hx hf hp => ⟨fun hg => ?_, fun p hg ht => ?_⟩⟩, fun hwalk => ⟨?_, fun x hx hf hp ht => ?_⟩⟩
  · rw [homeByte_congr hmem]; exact (hleaf e pa big hwalk).1 a ha
  · have hm := mem_walkGrants hk hwalk hx ((x.asks_iff w).mpr ⟨hf, hp⟩) hg
    have hl := (hleaf e pa big hwalk).2 (List.ne_nil_of_mem hm)
    obtain ⟨h7, h8, hrest⟩ := leafMarked_spec e ((walkGrants s s.site.die w).any fun x => x.2.access == .write)
    refine ⟨(walkLeaves s s.site.die w).2, ?_, by rw [hl]; exact h7, fun ha => ?_, by rw [hl]; exact hrest⟩
    · rw [htlb, hwalk]
      exact walked_granted _ hx ((x.asks_iff w).mpr ⟨hf, hp⟩) hg
    · rw [hl]
      exact h8 (List.any_eq_true.mpr ⟨_, hm, by simp [ha]⟩)
  · refine hfault _ (walked_refused _ hx ((x.asks_iff w).mpr ⟨hf, hp⟩) (f := { code := codeProt, detail := p }) ?_ ht) rfl
    rw [hwalk, walkGives_leaf, hg]
  · rw [hmem, habs hwalk]
  · refine hfault _ (walked_refused _ hx ((x.asks_iff w).mpr ⟨hf, hp⟩) (f := { code := codePage, detail := pageDetail x.access true }) ?_ ht) rfl
    rw [hwalk]; rfl
end

section
/-! System software's registers over translation, and the caches' own steps (R244, R246, R281, R284, R288). -/

open Sys2Proof Sys2Proof.Machine

namespace Sys2Proof.Machine

/-! ### An invalidation takes translations away (R281) -/

/-- A TLB without the entries that an invalidation names. -/
def Core.withoutTlb (c : Core) (v : W64) : Core := { c with tlb := c.tlb.filter fun t => !invalNames v t }

theorem Core.withoutTlb_twice (c : Core) (v : W64) : (c.withoutTlb v).withoutTlb v = c.withoutTlb v := by
  simp [Core.withoutTlb]

/-- A core of a die loses the entries that an invalidation names. -/
def dropCoreTlb (d : Nat) (v : W64) (s : State) (k : Nat) : State := s.setCore (coreKey d k) ((s.core (coreKey d k)).withoutTlb v)

theorem dropTlb_eq (s : State) (d : Nat) (v : W64) : dropTlb s d v = (List.range 48).foldl (dropCoreTlb d v) s := rfl

/-- Invalidating the TLBs of a die leaves its cores so, and nothing but cores changes. -/
theorem dropTlb_spec (s : State) (d : Nat) (v : W64) : (dropTlb s d v).mem = s.mem ∧ (dropTlb s d v).dies = s.dies ∧
    ∀ k < 48, (dropTlb s d v).core (coreKey d k) = (s.core (coreKey d k)).withoutTlb v := by
  have fold : ∀ (ks : List Nat) (s : State),
      (∀ x, (ks.foldl (dropCoreTlb d v) s).core x =
        if x ∈ ks.map (coreKey d) then (s.core x).withoutTlb v else s.core x) := by
    intro ks
    induction ks with
    | nil => exact fun s x => rfl
    | cons k r ih =>
      intro s x
      rw [List.foldl_cons, ih, dropCoreTlb, State.core_setCore, List.map_cons]
      by_cases h : x = coreKey d k
      · subst h; simp [Core.withoutTlb_twice]
      · simp [h]
  rw [dropTlb_eq]
  refine ⟨foldl_same State.mem (dropCoreTlb d v) (fun _ _ => rfl) _ s, foldl_same State.dies (dropCoreTlb d v) (fun _ _ => rfl) _ s, fun k hk => ?_⟩
  rw [fold, if_pos (List.mem_map.mpr ⟨k, List.mem_range.mpr hk, rfl⟩)]

/-! ### The image of a saved crew follows (R288) -/

/-- The image of a crew that is not saved is left. -/
theorem syncImage_unsaved (s : State) (c : Nat) (h : (s.crew c).state ≠ .saved) : syncImage s c = s := if_pos h

/-- The nine bytes of a saved crew's image that follow it. -/
theorem syncImage_saved (s : State) (c : Nat) (h : (s.crew c).state = .saved) :
    homeBytes (syncImage s c) ((s.crew c).area + 24) 4 = leBytes (s.crew c).missing 4 ∧
    ∀ a, (a < (s.crew c).area + 20 ∨ (s.crew c).area + 29 ≤ a) → homeByte (syncImage s c) a = homeByte s a := by
  let bs := leBytes (pendingOf s c) 4 ++ leBytes (s.crew c).missing 4 ++ [(s.crew c).classByte]
  have hl : bs.length = 9 := by simp [bs]
  have he : syncImage s c = setHomeBytes s ((s.crew c).area + 20) bs := if_neg fun e => e h
  rw [he]
  refine ⟨?_, fun a ha => ?_⟩
  · have := homeBytes_setHomeBytes s ((s.crew c).area + 20) bs
    rw [hl] at this
    rw [show (s.crew c).area + 24 = (s.crew c).area + 20 + 4 from rfl, homeBytes_part _ _ (show 4 + 4 ≤ 9 by decide), this]
    simp [bs]
  · rw [homeByte_setHomeBytes, if_neg (by rw [hl]; omega)]

/-- The state once a die has done an invalidation: GO is clear. -/
def State.invalDone (u : State) (d : Nat) (v : W64) : State :=
  { u.setDie d { u.die d with regs := { (u.die d).regs with inval := v &&& ~~~1#64 } } with progress := u.progress + 1 }

theorem State.invalDone_spec (u : State) (d : Nat) (v : W64) : ((u.invalDone d v).die d).regs.inval.getLsbD 0 = false ∧
    (∀ ck, (u.invalDone d v).core ck = u.core ck) ∧ (u.invalDone d v).mem = u.mem := by
  refine ⟨?_, fun _ => rfl, rfl⟩
  show (State.die (u.setDie d _) d).regs.inval.getLsbD 0 = false
  rw [State.die_setDie, if_pos rfl]
  simp

/-- An invalidation that nothing uses any more is done: the die's TLBs lose the entries, and GO clears. -/
theorem tlbInvalidateDone_eq (s : State) (hgo : (s.die s.site.die).regs.inval.getLsbD 0 = true)
    (hops : ∀ o ∈ s.ops, usesInval s s.site.die (s.die s.site.die).regs.inval o = false)
    (hteam : heldInval s s.site.die (s.die s.site.die).regs.inval s.team = false)
    (hothers : ∀ e ∈ s.others, heldInval s s.site.die (s.die s.site.die).regs.inval e.2 = false) :
    exec .tlbInvalidateDone s = .next ((dropTlb s s.site.die (s.die s.site.die).regs.inval).invalDone s.site.die (s.die s.site.die).regs.inval) := by
  have ho : s.ops.any (usesInval s s.site.die (s.die s.site.die).regs.inval) = false := List.any_eq_false.mpr fun o h => by rw [hops o h]; simp
  have ht : (s.others.any fun e => heldInval s s.site.die (s.die s.site.die).regs.inval e.2) = false :=
    List.any_eq_false.mpr fun e h => by rw [hothers e h]; simp
  show execTlbInvalidateDone s = _
  unfold execTlbInvalidateDone
  dsimp only
  rw [hgo, ho, hteam, ht]
  rfl

/-! ### Missing pages are counted down (R288) -/

/-- The saved crew that a write of register 0x308 names. -/
def missingNamed (v : W64) (e : Nat × Crew) : Bool :=
  e.2.handle = (v.extractLsb' 32 32).toNat && e.2.crewno = (v.extractLsb' 0 32).toNat && e.2.missing ≠ 0 && (e.2.state == .saved || e.2.state == .saving)

/-- The state once register 0x308 is written. -/
def missingWritten (s : State) (v : W64) : State :=
  { s.setDie s.site.die { s.die s.site.die with regs := { (s.die s.site.die).regs with missReg := v } } with progress := s.progress + 1 }

/-- A write of register 0x308, with the crew that it names, if any. -/
def missingCounted (s : State) (v : W64) : Option (Nat × Crew) → State
  | none => missingWritten s v
  | some e => syncImage ((missingWritten s v).setCrew e.1 { e.2 with missing := e.2.missing - 1 }) e.1

theorem missingDecrement_eq (s : State) (v : W64) : exec (.missingDecrement v) s = .next (missingCounted s v (s.crews.find? (missingNamed v))) := by
  show execMissingDecrement v s = _
  unfold execMissingDecrement
  dsimp only
  change (match s.crews.find? (missingNamed v) with | none => _ | some e => _) = _
  cases s.crews.find? (missingNamed v) <;> rfl

theorem missingWritten_reg (s : State) (v : W64) : ((missingWritten s v).die s.site.die).regs.missReg = v := by
  show (State.die (s.setDie _ _) _).regs.missReg = v
  rw [State.die_setDie, if_pos rfl]

/-- A write of the register that names a crew: its missing pages count down, its image follows, and no other crew changes. -/
theorem missingCounted_some (s : State) (v : W64) (e : Nat × Crew) : let u := missingCounted s v (some e)
    (u.die s.site.die).regs.missReg = v ∧ u.team = s.team ∧ u.others = s.others ∧
    u.crew e.1 = { e.2 with missing := e.2.missing - 1 } ∧ (∀ c, c ≠ e.1 → u.crew c = s.crew c) ∧ (e.2.state ≠ .saved → u.mem = s.mem) ∧
    (e.2.state = .saved → homeBytes u (e.2.area + 24) 4 = leBytes (e.2.missing - 1) 4 ∧
      ∀ a, (a < e.2.area + 20 ∨ e.2.area + 29 ≤ a) → homeByte u a = homeByte s a) := by
  intro u
  let w := (missingWritten s v).setCrew e.1 { e.2 with missing := e.2.missing - 1 }
  have hw : w.crew e.1 = { e.2 with missing := e.2.missing - 1 } := by simp only [w, State.crew_setCrew, if_true]
  have hu : OnlyMemory w u := onlyMemory_syncImage w e.1
  refine ⟨?_, hu.team, hu.others, (hu.crew e.1).trans hw, fun c hc => ?_, fun hs => ?_, fun hs => ?_⟩
  · obtain ⟨l, hl⟩ := hu.2.2 s.site.die
    rw [hl]
    exact missingWritten_reg s v
  · rw [hu.crew]
    simp only [w, State.crew_setCrew, if_neg hc]; rfl
  · show (syncImage w e.1).mem = _
    rw [syncImage_unsaved w e.1 (by rw [hw]; exact hs)]; rfl
  · have := syncImage_saved w e.1 (by rw [hw]; exact hs)
    rw [hw] at this
    exact this

/-! ### A clean line leaves L2 (R244) -/

/-- Writing a line without a dirty byte back changes no byte of memory. -/
theorem writeBackLine_mem_clean (s : State) (d l : Nat) (h : (smGet {} (s.die d).l2 l).dirty = 0) : (writeBackLine s d l).mem = s.mem := by
  rw [writeBackLine, eachDirty_clean h]; rfl

/-! ### Single events -/

theorem tlbInvalidate_spec (s : State) (v : W64) : ∃ s', exec (.tlbInvalidate v) s = .next s' ∧
    (s'.die s.site.die).regs.inval = v &&& ~~~0xFFF8#64 ∧ s'.cores = s.cores ∧ s'.mem = s.mem ∧ s'.team = s.team := by
  refine ⟨_, show execTlbInvalidate v s = _ from rfl, ?_, rfl, rfl, rfl⟩
  show (State.die (s.setDie _ _) _).regs.inval = _
  rw [State.die_setDie, if_pos rfl]

theorem rrcstepsWrite_spec (s : State) (v : W32) : ∃ s', exec (.rrcstepsWrite v) s = .next s' ∧
    (s'.die 0).regs.rrcsteps = BitVec.ofNat 32 (min 8 (v.toNat % 16)) ∧ s'.rrc = [] ∧ s'.mem = s.mem := by
  refine ⟨_, show execRrcstepsWrite v s = _ from rfl, ?_, rfl, rfl⟩
  have hmin : (if 8 < v.toNat % 16 then 8 else v.toNat % 16) = min 8 (v.toNat % 16) := by split <;> omega
  show (State.die (s.setDie _ _) _).regs.rrcsteps = _
  rw [State.die_setDie, if_pos rfl, ← hmin]

theorem l1Replacement_spec (s : State) (ck l : Nat) : ∃ s', exec (.lineReplacement (.l1 ck l)) s = .next s' ∧
    smGet {} (s'.core ck).l1 l = {} ∧ s'.mem = s.mem ∧ s'.dies = s.dies := by
  refine ⟨_, show execLineReplacement (.l1 ck l) s = _ from rfl, ?_, rfl, rfl⟩
  show smGet {} (State.core (s.setCore _ _) _).l1 l = {}
  rw [State.core_setCore, if_pos rfl, smGet_smSet, if_pos rfl]

/-- A clean line that L2 gives up is gone, and the home keeps what it held. -/
theorem l2Replacement_spec (s : State) (d l : Nat) (hd : (smGet {} (s.die d).l2 l).dirty = 0) :
    ∃ s', exec (.lineReplacement (.l2 d l)) s = .next s' ∧ smGet {} (s'.die d).l2 l = {} ∧ s'.mem = s.mem := by
  refine ⟨_, show execLineReplacement (.l2 d l) s = _ from rfl, ?_, ?_⟩
  · rw [State.die_setDie, if_pos rfl, smGet_smSet, if_pos rfl]
  · rw [State.setDie_mem]
    exact writeBackLine_mem_clean { s with progress := s.progress + 1 } d l hd

end Sys2Proof.Machine

/-- Settles O33: each event is its definition; the invalidation goes through `dropTlb_spec`, the count of missing pages through `missingCounted_some`. -/
theorem translationAndCacheEvents : Obligations.TranslationAndCacheEvents := by
  unfold Obligations.TranslationAndCacheEvents
  intro s
  refine ⟨tlbInvalidate_spec s, fun hgo hops hteam hothers => ?_, rrcstepsWrite_spec s, fun v => ?_,
    ⟨_, show execFrameZeroed s = _ from rfl, rfl, rfl⟩, l1Replacement_spec s, l2Replacement_spec s⟩
  · obtain ⟨hm, -, hcore⟩ := dropTlb_spec s s.site.die (s.die s.site.die).regs.inval
    obtain ⟨hgo', hsame, hm'⟩ := State.invalDone_spec (dropTlb s s.site.die (s.die s.site.die).regs.inval) s.site.die (s.die s.site.die).regs.inval
    exact ⟨_, tlbInvalidateDone_eq s hgo hops hteam hothers, hgo', fun k hk => by rw [hsame, hcore k hk]; rfl, hm'.trans hm⟩
  · intro named
    refine ⟨_, missingDecrement_eq s v, ?_⟩
    change _ ∧ _ ∧ _ ∧ (s.crews.find? (missingNamed v) = none → _) ∧ ∀ e, s.crews.find? (missingNamed v) = some e → _
    cases s.crews.find? (missingNamed v) with
    | none => exact ⟨missingWritten_reg s v, rfl, rfl, fun _ => ⟨rfl, rfl⟩, fun e h => absurd h (by simp)⟩
    | some e =>
      obtain ⟨hreg, hteam, hothers, hrest⟩ := missingCounted_some s v e
      refine ⟨hreg, hteam, hothers, fun h => absurd h (by simp), fun e' h => ?_⟩
      obtain rfl := Option.some.inj h
      exact hrest
end

section
/-! What caches fill, drain and drop of single lines and of ranges (R244, R260, R263). -/

open Sys2Proof Sys2Proof.Machine

namespace Sys2Proof.Machine

/-! ### Steps that change caches alone -/

/-- A step that changes caches and memory, but neither memory nor its poison, changes caches alone. -/
theorem onlyCaches_of {s u : State} (h : OnlyMemory s u) (hm : u.mem = s.mem) (hp : u.poison = s.poison) : OnlyCaches s u := by
  obtain ⟨⟨c, d, m, p, l, rfl⟩, hc, hd⟩ := h
  obtain rfl : m = s.mem := hm
  obtain rfl : p = s.poison := hp
  exact ⟨⟨c, d, s.progress, l, rfl⟩, hc, hd⟩

theorem eachDirty_l2_poison (d : Nat) (l : LineCopy) (line : Nat) (s : State) : (eachDirty l line (l2Byte d) s).poison = s.poison :=
  eachDirty_keeps (fun x => x.poison = s.poison) (l2Byte d) (fun _ _ _ _ h => h) l line s rfl

theorem drainHead_poison (s : State) (d k : Nat) : (drainHead s d k).poison = s.poison := by
  unfold drainHead
  dsimp only
  split
  · rfl
  · exact eachDirty_l2_poison d _ _ _

theorem drainFirst_poison (d k n : Nat) (s : State) : (drainFirst d k n s).poison = s.poison := by
  induction n generalizing s with
  | zero => rfl
  | succ n ih => rw [drainFirst, ih, drainHead_poison]

theorem drainLine_poison (s : State) (d k line : Nat) : (drainLine s d k line).poison = s.poison := drainFirst_poison _ _ _ _

theorem fillL2_poison (s : State) (d line : Nat) : (fillL2 s d line).poison = s.poison := by
  unfold fillL2
  dsimp only
  split
  · rfl
  · rfl

theorem fillL1_poison (s : State) (d k line : Nat) : (fillL1 s d k line).poison = s.poison := by
  unfold fillL1
  dsimp only
  split
  · rfl
  · exact (fillL2_poison _ d line).trans (foldl_same State.poison (fun s j => drainLine s d j line) (fun a j => drainLine_poison a d j line) _ s)

/-! ### Fills (R244, R260) -/

/-- A copy over another: its own valid bytes, else the other's. -/
theorem LineCopy.over_byte (a b : LineCopy) (j : Nat) (hj : j < 128) : (a.over b).byte j = if a.valid.getLsbD j then a.byte j else b.byte j := by
  have fold : ∀ (ks : List Nat) (d : BitVec 1024), (∀ k ∈ ks, k < 128) →
      ({ data := ks.foldl (fun d k => if a.valid.getLsbD k then (({ data := d } : LineCopy).put k (a.byte k) false).data else d) d } : LineCopy).byte j =
        if j ∈ ks ∧ a.valid.getLsbD j = true then a.byte j else ({ data := d } : LineCopy).byte j := by
    intro ks
    induction ks with
    | nil => intro d _; simp
    | cons k r ih =>
      intro d hk
      have hk0 := hk k List.mem_cons_self
      rw [List.foldl_cons, ih _ fun x hx => hk x (List.mem_cons_of_mem _ hx)]
      have hp : (LineCopy.byte { data := (({ data := d } : LineCopy).put k (a.byte k) false).data } j) = if j = k then a.byte k else ({ data := d } : LineCopy).byte j :=
        LineCopy.put_byte { data := d } k j (a.byte k) false false hk0 hj
      by_cases hv : a.valid.getLsbD k = true
      · rw [if_pos hv, hp]
        by_cases h : j = k
        · subst h; simp [hv]
        · simp [h]
      · rw [if_neg hv]
        by_cases h : j = k
        · subst h; simp [hv]
        · simp [h]
  have := fold (List.range 128) b.data fun k hk => List.mem_range.mp hk
  have hm : j ∈ List.range 128 := List.mem_range.mpr hj
  simp only [hm, true_and] at this
  exact this

theorem LineCopy.byte_withDirty (c : LineCopy) (x : BitVec 128) (j : Nat) : ({ c with dirty := x } : LineCopy).byte j = c.byte j := rfl

/-- A byte of the number that a byte string is. -/
theorem leNat_byte (bs : List Byte) (j : Nat) : leNat bs / 2 ^ (8 * j) % 256 = (bs.getD j 0).toNat := by
  induction bs generalizing j with
  | nil => simp [leNat]
  | cons b r ih =>
    have hb := b.isLt
    cases j with
    | zero => simp [leNat]; omega
    | succ j =>
      rw [leNat, show 8 * (j + 1) = 8 + 8 * j by omega, pow_add, ← Nat.div_div_eq_div_mul]
      have : (b.toNat + 256 * leNat r) / 2 ^ 8 = leNat r := by omega
      rw [this, ih]; rfl

/-- The home's line as a copy has the home's bytes. -/
theorem homeLineCopy_byte (s : State) (line j : Nat) (hj : j < 128) : (homeLineCopy s line).byte j = homeByte s (line * 128 + j) := by
  have hl : (homeBytes s (line * 128) 128).getD j 0 = homeByte s (line * 128 + j) := by
    simp [homeBytes, hj, List.getD_eq_getElem?_getD]
  have hlt : leNat (homeBytes s (line * 128) 128) < 2 ^ 1024 := by
    have hlen : 8 * (homeBytes s (line * 128) 128).length = 1024 := by simp [homeBytes]
    have hb := leNat_lt (homeBytes s (line * 128) 128)
    rw [hlen] at hb
    exact hb
  apply BitVec.eq_of_toNat_eq
  rw [← hl, ← leNat_byte, LineCopy.byte, homeLineCopy]
  simp only [BitVec.toNat_setWidth, BitVec.toNat_ushiftRight, BitVec.toNat_ofNat, Nat.shiftRight_eq_div_pow, Nat.mod_eq_of_lt hlt]

/-- A line brought into L2 is there whole, each byte as the die read it before. -/
theorem fillL2_line (s : State) (d line : Nat) : (smGet {} ((fillL2 s d line).die d).l2 line).valid = BitVec.allOnes 128 ∧
    ∀ j < 128, (smGet {} ((fillL2 s d line).die d).l2 line).byte j = dieByte s d (line * 128 + j) := by
  have hd : ∀ j < 128, dieByte s d (line * 128 + j) =
      if (smGet {} (s.die d).l2 line).valid.getLsbD j then (smGet {} (s.die d).l2 line).byte j else homeByte s (line * 128 + j) := fun j hj => by
    rw [dieByte, show (line * 128 + j) / 128 = line by omega, show (line * 128 + j) % 128 = j by omega]
  unfold fillL2
  dsimp only
  by_cases h : (smGet {} (s.die d).l2 line).valid = BitVec.allOnes 128
  · rw [if_pos h]
    refine ⟨h, fun j hj => ?_⟩
    rw [hd j hj, h, if_pos (by simp only [BitVec.getLsbD_allOnes, hj, decide_true])]
  · rw [if_neg h]
    have e : smGet {} (State.die { s.setDie d { s.die d with
        l2 := smSet {} (s.die d).l2 line { ((smGet {} (s.die d).l2 line).over (homeLineCopy s line)) with dirty := (smGet {} (s.die d).l2 line).dirty } } with
        llc := llcTouch s.llc line } d).l2 line =
        { ((smGet {} (s.die d).l2 line).over (homeLineCopy s line)) with dirty := (smGet {} (s.die d).l2 line).dirty } := by
      show smGet {} (State.die (s.setDie d _) d).l2 line = _
      rw [State.die_setDie, if_pos rfl, smGet_smSet, if_pos rfl]
    rw [e]
    refine ⟨?_, fun j hj => ?_⟩
    · show _ ||| BitVec.allOnes 128 = _
      exact BitVec.or_allOnes
    · rw [hd j hj, ← homeLineCopy_byte s line j hj]
      rw [LineCopy.byte_withDirty]
      exact LineCopy.over_byte _ _ j hj

/-- A line brought into the L1 that serves it is there whole. -/
theorem fillL1_line (s : State) (d k line : Nat) : (smGet {} ((fillL1 s d k line).core (l1Home s d k line)).l1 line).valid = BitVec.allOnes 128 := by
  unfold fillL1
  dsimp only
  split
  · rename_i h; exact h
  · rw [State.core_setCore, if_pos rfl, smGet_smSet, if_pos rfl]
    exact (fillL2_line _ d line).1

/-! ### Drains of single lines (R244, R263) -/

theorem drainFirst_wb (d k n : Nat) (s : State) : ((drainFirst d k n s).core (coreKey d k)).wb = (s.core (coreKey d k)).wb.drop n := by
  induction n generalizing s with
  | zero => rfl
  | succ n ih => rw [drainFirst, ih, (drainHead_core s d k 0).2.2, List.drop_tail]

/-- Up to its last copy of a line, no write buffer has any after. -/
theorem not_mem_drop_wbUpTo (line : Nat) (wb : List (Nat × LineCopy)) : ∀ e ∈ wb.drop (wbUpTo line wb), e.1 ≠ line := by
  have zero : ∀ wb : List (Nat × LineCopy), wbUpTo line wb = 0 → ∀ e ∈ wb, e.1 ≠ line := by
    intro wb
    induction wb with
    | nil => simp
    | cons a r ih =>
      intro h e he
      by_cases hr : wbUpTo line r = 0
      · by_cases ha : a.1 = line
        · simp [wbUpTo, hr, ha] at h
        · rcases List.mem_cons.mp he with rfl | he
          · exact ha
          · exact ih hr e he
      · simp [wbUpTo, hr] at h
  induction wb with
  | nil => simp
  | cons a r ih =>
    by_cases hr : wbUpTo line r = 0
    · by_cases ha : a.1 = line
      · simp only [wbUpTo, hr, if_true, ha, List.drop_succ_cons, List.drop_zero]
        exact zero r hr
      · simp only [wbUpTo, hr, if_true, ha, if_false, List.drop_zero]
        exact List.forall_mem_cons.mpr ⟨ha, zero r hr⟩
    · simp only [wbUpTo, hr, if_false, List.drop_succ_cons]
      exact ih

/-- Some lines of a write buffer drained in turn: none of them is left in it, and nothing comes into it. -/
theorem drainLines_wb (d k : Nat) (ls : List Nat) (s : State) : let u := ls.foldl (fun s l => drainLine s d k l) s
    (∀ e ∈ (u.core (coreKey d k)).wb, e ∈ (s.core (coreKey d k)).wb) ∧ ∀ l ∈ ls, ∀ e ∈ (u.core (coreKey d k)).wb, e.1 ≠ l := by
  induction ls generalizing s with
  | nil => exact ⟨fun _ h => h, by simp⟩
  | cons l r ih =>
    obtain ⟨h1, h2⟩ := ih (drainLine s d k l)
    have hw : ((drainLine s d k l).core (coreKey d k)).wb = (s.core (coreKey d k)).wb.drop (wbUpTo l (s.core (coreKey d k)).wb) := drainFirst_wb _ _ _ _
    rw [List.foldl_cons]
    refine ⟨fun e he => ?_, fun x hx e he => ?_⟩
    · have := h1 e he
      rw [hw] at this
      exact List.mem_of_mem_drop this
    · rcases List.mem_cons.mp hx with rfl | hx
      · have := h1 e he
        rw [hw] at this
        exact not_mem_drop_wbUpTo _ _ e this
      · exact h2 x hx e he

/-- Some lines of L2 written back in turn: none of them is dirty afterwards, and no line becomes so. -/
theorem writeBackLines_clean (d : Nat) (ls : List Nat) (s : State) (l : Nat) (h : l ∈ ls ∨ (smGet {} (s.die d).l2 l).dirty = 0) :
    (smGet {} ((ls.foldl (fun s l => writeBackLine s d l) s).die d).l2 l).dirty = 0 := by
  induction ls generalizing s with
  | nil => exact h.resolve_left (by simp)
  | cons a r ih =>
    rw [List.foldl_cons]
    refine ih _ ?_
    rw [writeBackLine_l2]
    by_cases ha : l = a
    · subst ha; exact .inr (by rw [if_pos ⟨rfl, rfl⟩])
    · rw [if_neg fun x => ha x.2]
      exact h.imp_left fun x => (List.mem_cons.mp x).resolve_left ha

end Sys2Proof.Machine
end

section
/-! Ranges of lines, and the words over caches; MWAIT (R259, R260, R263 to R266). -/

open Sys2Proof Sys2Proof.Machine

namespace Sys2Proof.Machine

/-! ### The lines of a range (R263) -/

/-- A walk is told by memory, its poison, and the contexts. -/
theorem walk_congr {s u : State} (hm : u.mem = s.mem) (hp : u.poison = s.poison) (hc : u.contexts = s.contexts) (ctx va : Nat) :
    walk u ctx va = walk s ctx va := by
  have hb : ∀ a n, homeBytes u a n = homeBytes s a n := fun a n => by simp only [homeBytes, homeByte, hm]
  have hw : ∀ a, home64 u a = home64 s a := fun a => by rw [home64, hb]; rfl
  have hpo : ∀ a n, anyPoison u a n = anyPoison s a n := fun a n => by simp only [anyPoison, isPoison, hp]
  have hrec : ∀ o, recWord u ctx o = recWord s ctx o := fun o => by simp only [recWord, State.context, hc, hw]
  have hf : ∀ ls tbl, walkFrom u va ls tbl = walkFrom s va ls tbl := by
    intro ls
    induction ls with
    | nil => exact fun tbl => rfl
    | cons l r ih => intro tbl; simp only [walkFrom, hpo, hw, ih]
  rw [walk, hf, hrec]; rfl

theorem inRange_congr {s u : State} (hm : u.mem = s.mem) (hp : u.poison = s.poison) (hc : u.contexts = s.contexts) (ctx d va n l : Nat) :
    u.inRange ctx d va n l ↔ s.inRange ctx d va n l := by
  simp only [State.inRange, walk_congr hm hp hc]

theorem mem_distinct (x : Nat) (l : List Nat) : x ∈ distinct l ↔ x ∈ l := by
  induction l with
  | nil => rfl
  | cons a r ih =>
    rw [distinct]
    by_cases h : r.contains a = true
    · rw [if_pos h, ih, List.mem_cons]
      exact ⟨.inr, fun hx => hx.elim (fun e => e ▸ List.contains_iff_mem.mp h) id⟩
    · rw [if_neg h, List.mem_cons, List.mem_cons, ih]

/-- The pages of a range that is not empty. -/
theorem mem_rangePages (va n p : Nat) (hn : n ≠ 0) :
    p ∈ distinct ((List.range (if n = 0 then 0 else (va + n - 1) / 65536 - va / 65536 + 1)).map fun k => va / 65536 + k) ↔
      va / 65536 ≤ p ∧ p ≤ (va + n - 1) / 65536 := by
  have hle : va / 65536 ≤ (va + n - 1) / 65536 := Nat.div_le_div_right (by omega)
  rw [mem_distinct, if_neg hn, List.mem_map]
  constructor
  · rintro ⟨k, hk, rfl⟩
    have := List.mem_range.mp hk
    omega
  · rintro ⟨h1, h2⟩
    exact ⟨p - va / 65536, List.mem_range.mpr (by omega), by omega⟩

/-- The lines of a range among those listed are those that hold bytes of it. -/
theorem mem_rangeLines (s : State) (ctx d va n : Nat) (held : List Nat) (l : Nat) (hn : n ≠ 0) :
    l ∈ rangeLines s ctx d va n held ↔ l ∈ held ∧ s.inRange ctx d va n l := by
  unfold rangeLines State.inRange
  dsimp only
  rw [List.mem_filter, List.any_eq_true]
  refine and_congr_right fun _ => ⟨?_, ?_⟩
  · rintro ⟨⟨p, f⟩, hm, hc⟩
    obtain ⟨q, -, hq⟩ := List.mem_filterMap.mp hm
    split at hq
    · rename_i e pa big hw
      obtain ⟨rfl, rfl⟩ := Prod.mk.inj (Option.some.inj hq)
      simp only [Bool.and_eq_true, decide_eq_true_eq] at hc
      obtain ⟨h1, h2, h3⟩ := hc
      exact ⟨q, e, pa, big, hw, h1, h2, h3⟩
    · exact absurd hq (by simp)
  · rintro ⟨p, e, pa, big, hw, h1, h2, h3⟩
    refine ⟨(p, leafPa d { e := e, large := big } (p * 65536)), List.mem_filterMap.mpr ⟨p, (mem_rangePages va n p hn).mpr ⟨?_, ?_⟩, by rw [hw]⟩, ?_⟩
    · omega
    · omega
    · simp only [Bool.and_eq_true, decide_eq_true_eq]
      exact ⟨h1, h2, h3⟩

/-! ### CWB's work on a range (R262, R263) -/

theorem drainLines_same (d k : Nat) (ls : List Nat) (s : State) : let u := ls.foldl (fun s l => drainLine s d k l) s
    OnlyMemory s u ∧ u.mem = s.mem ∧ u.poison = s.poison :=
  ⟨onlyMemory_foldl (fun s l => drainLine s d k l) (fun u l => onlyMemory_drainLine u d k l) ls s,
    foldl_same State.mem (fun s l => drainLine s d k l) (fun u l => drainLine_mem u d k l) ls s,
    foldl_same State.poison (fun s l => drainLine s d k l) (fun u l => drainLine_poison u d k l) ls s⟩

theorem OnlyMemory.contexts {s u : State} (h : OnlyMemory s u) : u.contexts = s.contexts := by obtain ⟨⟨_, _, _, _, _, rfl⟩, -, -⟩ := h; rfl

theorem cleanRange_narrow (s : State) (d k scope ctx va n : Nat) (h : scope < 2) : cleanRange s d k scope ctx va n = s := if_pos h

theorem onlyMemory_cleanRange (s : State) (d k scope ctx va n : Nat) : OnlyMemory s (cleanRange s d k scope ctx va n) := by
  unfold cleanRange
  dsimp only
  split
  · exact .refl s
  · have h1 := (drainLines_same d k (rangeLines s ctx d va n ((s.core (coreKey d k)).wb.map Prod.fst)) s).1
    split
    · exact h1
    · exact h1.trans (onlyMemory_foldl (fun s l => writeBackLine s d l) (fun u l => onlyMemory_writeBackLine u d l) _ _)

/-- After CWB no line of the range is in the write buffer, and from PKG on none is dirty in L2. -/
theorem cleanRange_line (s : State) (d k scope ctx va n l : Nat) (hn : n ≠ 0) (hs : 2 ≤ scope) (hl : s.inRange ctx d va n l) :
    let c := cleanRange s d k scope ctx va n
    (∀ e ∈ (c.core (coreKey d k)).wb, e.1 ≠ l) ∧ (4 ≤ scope → (smGet {} (c.die d).l2 l).dirty = 0) := by
  let ls := rangeLines s ctx d va n ((s.core (coreKey d k)).wb.map Prod.fst)
  let s1 := ls.foldl (fun s l => drainLine s d k l) s
  obtain ⟨honly, hm, hp⟩ := drainLines_same d k ls s
  obtain ⟨hsub, hgone⟩ := drainLines_wb d k ls s
  have hbuf : ∀ e ∈ (s1.core (coreKey d k)).wb, e.1 ≠ l := fun e he hel =>
    hgone l ((mem_rangeLines s ctx d va n _ l hn).mpr ⟨List.mem_map.mpr ⟨e, hsub e he, hel⟩, hl⟩) e he hel
  have hs2 : ¬scope < 2 := by omega
  by_cases h4 : scope < 4
  · have e : cleanRange s d k scope ctx va n = s1 := by rw [cleanRange, if_neg hs2]; exact if_pos h4
    rw [e]
    exact ⟨hbuf, fun h => absurd h4 (by omega)⟩
  · let ls2 := rangeLines s1 ctx d va n ((s1.die d).l2.map Prod.fst)
    have e : cleanRange s d k scope ctx va n = ls2.foldl (fun s l => writeBackLine s d l) s1 := by
      rw [cleanRange, if_neg hs2]; exact if_neg h4
    have hcores : (ls2.foldl (fun s l => writeBackLine s d l) s1).cores = s1.cores :=
      foldl_same State.cores (fun s l => writeBackLine s d l) (fun u l => writeBackLine_cores u d l) ls2 s1
    rw [e]
    refine ⟨by rw [State.core, hcores]; exact hbuf, fun _ => writeBackLines_clean d ls2 s1 l ?_⟩
    rcases smGet_mem_or {} (s1.die d).l2 l with hmem | hnone
    · exact .inl ((mem_rangeLines s1 ctx d va n _ l hn).mpr ⟨List.mem_map.mpr ⟨_, hmem, rfl⟩, (inRange_congr hm hp honly.contexts ..).mpr hl⟩)
    · exact .inr (by rw [hnone])

/-! ### CINV's work on a range (R263) -/

theorem Either.of_iff {α : Type} {x a b : α} {p q : Prop} (h : p ↔ q) (hx : Either x p a b) : Either x q a b :=
  ⟨fun hq => hx.1 (h.mpr hq), fun hq => hx.2 fun hp => hq (h.mp hp)⟩

/-- Nothing of the range is left in a table that gives up its lines of the range. -/
theorem either_dropListed {β : Type} (z : β) (m : SMap β) (s : State) (ctx d va n l : Nat) (hn : n ≠ 0) :
    Either (smGet z (smDrop (fun x => (rangeLines s ctx d va n (m.map Prod.fst)).contains x) m) l) (s.inRange ctx d va n l) z (smGet z m l) := by
  have hc : (rangeLines s ctx d va n (m.map Prod.fst)).contains l = true ↔ l ∈ m.map Prod.fst ∧ s.inRange ctx d va n l :=
    List.contains_iff_mem.trans (mem_rangeLines s ctx d va n _ l hn)
  rw [smGet_smDrop]
  refine ⟨fun h => ?_, fun h => if_neg fun x => h (hc.mp x).2⟩
  split
  · rfl
  · rename_i hne
    exact (smGet_mem_or z m l).resolve_left fun hm => hne (hc.mpr ⟨List.mem_map.mpr ⟨_, hm, rfl⟩, h⟩)

/-- One L1 gives up its lines of a range. -/
def dropL1Range (ctx d va n : Nat) (s : State) (ck : Nat) : State :=
  s.setCore ck { s.core ck with l1 := smDrop ((rangeLines s ctx d va n ((s.core ck).l1.map Prod.fst)).contains ·) (s.core ck).l1 }

/-- Some L1s give up their lines of a range, and nothing else changes. -/
theorem dropL1Ranges_spec (ctx d va n : Nat) (hn : n ≠ 0) (cks : List Nat) (s : State) : let u := cks.foldl (dropL1Range ctx d va n) s
    (∃ c, u = { s with cores := c }) ∧ ∀ x, (∃ a, u.core x = { s.core x with l1 := a }) ∧
      ∀ l, Either (smGet {} (u.core x).l1 l) (x ∈ cks ∧ s.inRange ctx d va n l) {} (smGet {} (s.core x).l1 l) := by
  induction cks generalizing s with
  | nil => exact ⟨⟨s.cores, rfl⟩, fun x => ⟨⟨_, rfl⟩, fun l => ⟨fun h => absurd h.1 (by simp), fun _ => rfl⟩⟩⟩
  | cons ck r ih =>
    obtain ⟨⟨c, hc⟩, hx⟩ := ih (dropL1Range ctx d va n s ck)
    refine ⟨⟨c, hc⟩, fun x => ?_⟩
    obtain ⟨⟨a, ha⟩, hl⟩ := hx x
    have hr : ∀ l, (dropL1Range ctx d va n s ck).inRange ctx d va n l ↔ s.inRange ctx d va n l := fun l => inRange_congr (by rfl) rfl rfl ..
    have h1 : (dropL1Range ctx d va n s ck).core x = if x = ck then { s.core ck with
        l1 := smDrop ((rangeLines s ctx d va n ((s.core ck).l1.map Prod.fst)).contains ·) (s.core ck).l1 } else s.core x := State.core_setCore ..
    refine ⟨⟨a, ?_⟩, fun l => ?_⟩
    · rw [List.foldl_cons, ha, h1]
      by_cases h : x = ck
      · subst h; rw [if_pos rfl]
      · rw [if_neg h]
    · have he := (hl l).of_iff (and_congr_right fun _ => hr l)
      rw [h1] at he
      by_cases h : x = ck
      · subst h
        rw [if_pos rfl] at he
        have hd := either_dropListed ({} : LineCopy) (s.core x).l1 s ctx d va n l hn
        refine ⟨fun hp => ?_, fun hp => ?_⟩
        · by_cases hxr : x ∈ r
          · exact he.1 ⟨hxr, hp.2⟩
          · exact (he.2 fun y => hxr y.1).trans (hd.1 hp.2)
        · have hni : ¬s.inRange ctx d va n l := fun y => hp ⟨List.mem_cons_self, y⟩
          exact (he.2 fun y => hni y.2).trans (hd.2 hni)
      · rw [if_neg h] at he
        exact he.of_iff (and_congr_left fun _ => ⟨List.mem_cons_of_mem _, fun y => (List.mem_cons.mp y).resolve_left h⟩)

/-- The L1s that CINV at a scope takes lines of its range out of (R263). -/
def cinvL1s (s : State) (d k scope : Nat) : List Nat :=
  if scope = 2 && fusedCluster s d k then [] else if fusedCluster s d k then (List.range 8).map fun j => coreKey d (k / 8 * 8 + j) else [coreKey d k]

theorem mem_cinvL1s (s : State) (d k scope x : Nat) : x ∈ cinvL1s s d k scope ↔
    if fusedCluster s d k then scope ≠ 2 ∧ ∃ j < 8, x = coreKey d (k / 8 * 8 + j) else x = coreKey d k := by
  unfold cinvL1s
  by_cases hf : fusedCluster s d k = true
  · by_cases h2 : scope = 2
    · simp [hf, h2]
    · simp only [hf, h2, decide_false, Bool.false_and, Bool.false_eq_true, if_false, if_true, List.mem_map, List.mem_range, ne_eq, not_false_eq_true, true_and]
      exact ⟨fun ⟨j, h, e⟩ => ⟨j, h, e.symm⟩, fun ⟨j, h, e⟩ => ⟨j, h, e.symm⟩⟩
  · simp [hf]

/-- A core's node cache gives up its local lines of a range. -/
def dropNodeRange (ctx d va n ck : Nat) (s : State) : State :=
  s.setCore ck { s.core ck with node := smDrop (fun l => decide (l < 2 ^ 45) && (rangeLines s ctx d va n [l]).contains l) (s.core ck).node }

/-- A die's L2 gives up its lines of a range. -/
def dropL2Range (ctx d va n : Nat) (s : State) : State :=
  s.setDie d { s.die d with l2 := smDrop ((rangeLines s ctx d va n ((s.die d).l2.map Prod.fst)).contains ·) (s.die d).l2 }

/-- CINV's work on a range, level by level. -/
theorem dropRange_eq (s : State) (d k scope ctx va n : Nat) (hs : 2 ≤ scope) : dropRange s d k scope ctx va n =
    let u := dropNodeRange ctx d va n (coreKey d k) ((cinvL1s s d k scope).foldl (dropL1Range ctx d va n) s)
    if scope < 4 then u else dropL2Range ctx d va n u := by
  have h2 : ¬scope < 2 := by omega
  unfold dropRange cinvL1s
  rw [if_neg h2]
  dsimp only
  by_cases h : (decide (scope = 2) && fusedCluster s d k) = true
  · simp only [h, if_true]; rfl
  · simp only [h]; rfl

theorem dropRange_narrow (s : State) (d k scope ctx va n : Nat) (h : scope < 2) : dropRange s d k scope ctx va n = s := if_pos h

theorem dropNodeRange_node (s : State) (ctx d va n ck x l : Nat) (hn : n ≠ 0) :
    Either (smGet none ((dropNodeRange ctx d va n ck s).core x).node l) (x = ck ∧ l < 2 ^ 45 ∧ s.inRange ctx d va n l) none (smGet none (s.core x).node l) := by
  have hc : (decide (l < 2 ^ 45) && (rangeLines s ctx d va n [l]).contains l) = true ↔ l < 2 ^ 45 ∧ s.inRange ctx d va n l := by
    rw [Bool.and_eq_true, decide_eq_true_eq, List.contains_iff_mem, mem_rangeLines s ctx d va n _ l hn]
    exact and_congr_right fun _ => and_iff_right (List.mem_singleton_self l)
  rw [dropNodeRange, State.core_setCore]
  by_cases h : x = ck
  · subst h
    rw [if_pos rfl, smGet_smDrop]
    exact ⟨fun hp => if_pos (hc.mpr hp.2), fun hp => if_neg fun y => hp ⟨rfl, hc.mp y⟩⟩
  · rw [if_neg h]
    exact ⟨fun hp => absurd hp.1 h, fun _ => rfl⟩

theorem dropL2Range_l2 (s : State) (ctx d va n y l : Nat) (hn : n ≠ 0) :
    Either (smGet {} ((dropL2Range ctx d va n s).die y).l2 l) (y = d ∧ s.inRange ctx d va n l) {} (smGet {} (s.die y).l2 l) := by
  rw [dropL2Range, State.die_setDie]
  by_cases h : y = d
  · subst h
    rw [if_pos rfl]
    exact (either_dropListed _ _ s ctx y va n l hn).of_iff (and_iff_right rfl).symm
  · rw [if_neg h]
    exact ⟨fun hp => absurd hp.1 h, fun _ => rfl⟩

/-- What CINV takes of a range out of the caches, and what it leaves. -/
theorem dropRange_spec (s : State) (d k scope ctx va n : Nat) (hn : n ≠ 0) : let u := dropRange s d k scope ctx va n
    OnlyCaches s u ∧ (∀ x, (u.core x).wb = (s.core x).wb) ∧ ∀ x l,
      Either (smGet {} (u.core x).l1 l) (2 ≤ scope ∧ x ∈ cinvL1s s d k scope ∧ s.inRange ctx d va n l) {} (smGet {} (s.core x).l1 l) ∧
      Either (smGet none (u.core x).node l) (2 ≤ scope ∧ x = coreKey d k ∧ l < 2 ^ 45 ∧ s.inRange ctx d va n l) none (smGet none (s.core x).node l) ∧
      ∀ y, Either (smGet {} (u.die y).l2 l) (4 ≤ scope ∧ y = d ∧ s.inRange ctx d va n l) {} (smGet {} (s.die y).l2 l) := by
  by_cases hs : 2 ≤ scope
  · let v := (cinvL1s s d k scope).foldl (dropL1Range ctx d va n) s
    let w := dropNodeRange ctx d va n (coreKey d k) v
    obtain ⟨⟨c, hv⟩, hx⟩ := dropL1Ranges_spec ctx d va n hn (cinvL1s s d k scope) s
    have hv : v = { s with cores := c } := hv
    have hvr : ∀ l, v.inRange ctx d va n l ↔ s.inRange ctx d va n l := fun l => inRange_congr (by rw [hv]) (by rw [hv]) (by rw [hv]) ..
    have hwr : ∀ l, w.inRange ctx d va n l ↔ s.inRange ctx d va n l := fun l => (inRange_congr (by rfl) (by rfl) (by rfl) ..).trans (hvr l)
    have hwc : ∀ x, w.core x = { v.core x with node := (w.core x).node } := fun x => by
      simp only [w, dropNodeRange, State.core_setCore]
      split
      · rename_i e; subst e; rfl
      · rfl
    have hvo : OnlyMemory s v := by
      refine ⟨⟨c, s.dies, s.mem, s.poison, s.llc, hv⟩, fun x => ?_, fun y => ⟨(s.die y).l2, by rw [show v.die y = s.die y by rw [State.die, hv]; rfl]⟩⟩
      obtain ⟨a, ha⟩ := (hx x).1
      exact ⟨(s.core x).wb, a, (s.core x).node, ha⟩
    have hwo : OnlyCaches s w := onlyCaches_of (hvo.trans (onlyMemory_setCore v _ _ _ _)) (by show v.mem = s.mem; rw [hv]) (by show v.poison = s.poison; rw [hv])
    have hl1 : ∀ x l, Either (smGet {} (w.core x).l1 l) (2 ≤ scope ∧ x ∈ cinvL1s s d k scope ∧ s.inRange ctx d va n l) {} (smGet {} (s.core x).l1 l) := fun x l => by
      rw [hwc]
      exact ((hx x).2 l).of_iff (and_iff_right hs).symm
    have hnode : ∀ x l, Either (smGet none (w.core x).node l) (2 ≤ scope ∧ x = coreKey d k ∧ l < 2 ^ 45 ∧ s.inRange ctx d va n l) none (smGet none (s.core x).node l) := fun x l => by
      obtain ⟨a, ha⟩ := (hx x).1
      have := dropNodeRange_node v ctx d va n (coreKey d k) x l hn
      rw [show (v.core x).node = (s.core x).node by rw [ha]] at this
      exact this.of_iff (by rw [and_iff_right hs]; exact and_congr_right fun _ => and_congr_right fun _ => hvr l)
    have hwb : ∀ x, (w.core x).wb = (s.core x).wb := fun x => by
      obtain ⟨a, ha⟩ := (hx x).1
      rw [hwc, ha]
    have hdies : ∀ y, w.die y = s.die y := fun y => by show v.die y = _; rw [State.die, hv]; rfl
    have he := dropRange_eq s d k scope ctx va n hs
    by_cases h4 : scope < 4
    · rw [he, if_pos h4]
      refine ⟨hwo, hwb, fun x l => ⟨hl1 x l, hnode x l, fun y => ?_⟩⟩
      rw [hdies]
      exact ⟨fun h => absurd h.1 (by omega), fun _ => rfl⟩
    · rw [he, if_neg h4]
      refine ⟨?_, hwb, fun x l => ⟨hl1 x l, hnode x l, fun y => ?_⟩⟩
      · exact onlyCaches_of ((hvo.trans (onlyMemory_setCore v _ _ _ _)).trans (onlyMemory_setDie w d _)) (by show v.mem = s.mem; rw [hv]) (by show v.poison = s.poison; rw [hv])
      · have := dropL2Range_l2 w ctx d va n y l hn
        rw [hdies] at this
        exact this.of_iff (by rw [and_iff_right (by omega : 4 ≤ scope)]; exact and_congr_right fun _ => hwr l)
  · have e : dropRange s d k scope ctx va n = s := dropRange_narrow _ _ _ _ _ _ _ (by omega)
    rw [e]
    exact ⟨onlyCaches_of (.refl s) rfl rfl, fun _ => rfl, fun x l => ⟨⟨fun h => absurd h.1 hs, fun _ => rfl⟩, ⟨fun h => absurd h.1 hs, fun _ => rfl⟩,
      fun y => ⟨fun h => absurd h.1 (by omega), fun _ => rfl⟩⟩⟩

end Sys2Proof.Machine
end

section
/-! PREF, CINV, CWB, RRINV, SPCHK and MWAIT (R259, R260, R263 to R266). -/

open Sys2Proof Sys2Proof.Machine

namespace Sys2Proof.Machine

/-! ### PREF (R260) -/

/-- What a lookup gives does not depend on memory or what caches hold. -/
theorem OnlyMemory.lookup {s u : State} (h : OnlyMemory s u) (ck key ctx : Nat) (va : W64) (a : Access) (sup : Bool) :
    lookup u ck key ctx va a sup = lookup s ck key ctx va a sup := by
  obtain ⟨w, b, n, e⟩ := h.2.1 ck
  simp only [Machine.lookup, e]

/-- The line that a lane of PREF asks for, where its address is local and the TLB answers. -/
def prefLine (s : State) (a : Nat × W64) : Option Nat :=
  if vaClass a.2 ≠ .localVa then none else
    match lookup s s.team.coreK s.team.key s.team.id.ctx a.2 .read s.team.supSrc with
    | .hit lf => some (leafPa s.team.id.die lf a.2.toNat / 128)
    | _ => none

/-- A line brought to the level that PREF names. -/
def prefFill (d k : Nat) (l : BitVec 2) (s : State) (line : Nat) : State :=
  if l = 0 then fillL1 s d k line else if l = 1 then fillL2 s d line else s

theorem prefFill_spec (d k : Nat) (l : BitVec 2) (s : State) (line : Nat) :
    OnlyMemory s (prefFill d k l s line) ∧ (prefFill d k l s line).mem = s.mem ∧ (prefFill d k l s line).poison = s.poison := by
  unfold prefFill
  split
  · exact ⟨onlyMemory_fillL1 s d k line, fillL1_mem s d k line, fillL1_poison s d k line⟩
  · split
    · exact ⟨onlyMemory_fillL2 s d line, fillL2_mem s d line, fillL2_poison s d line⟩
    · exact ⟨.refl s, rfl, rfl⟩

theorem onlyCaches_prefFills (d k : Nat) (l : BitVec 2) (lines : List Nat) (s : State) : OnlyCaches s (lines.foldl (prefFill d k l) s) :=
  onlyCaches_of (onlyMemory_foldl (prefFill d k l) (fun u x => (prefFill_spec d k l u x).1) lines s)
    (foldl_same State.mem (prefFill d k l) (fun u x => (prefFill_spec d k l u x).2.1) lines s)
    (foldl_same State.poison (prefFill d k l) (fun u x => (prefFill_spec d k l u x).2.2) lines s)

/-- PREF's work on the lanes, each told by the state as it was, is its work on the lines that they ask for. -/
theorem prefLanes (s : State) (l : BitVec 2) (as : List (Nat × W64)) (u : State) (h : OnlyMemory s u) :
    as.foldl (fun u a => if vaClass a.2 ≠ .localVa then u else
      match lookup u s.team.coreK s.team.key s.team.id.ctx a.2 .read s.team.supSrc with
      | .hit lf =>
        let line := leafPa s.team.id.die lf a.2.toNat / 128
        if l = 0 then fillL1 u s.team.id.die s.team.id.core line else if l = 1 then fillL2 u s.team.id.die line else u
      | _ => u) u = (as.filterMap (prefLine s)).foldl (prefFill s.team.id.die s.team.id.core l) u := by
  induction as generalizing u with
  | nil => rfl
  | cons a r ih =>
    rw [List.foldl_cons, List.filterMap_cons]
    by_cases hv : vaClass a.2 ≠ .localVa
    · rw [if_pos hv, show prefLine s a = none from if_pos hv]
      exact ih u h
    · rw [if_neg hv, h.lookup]
      cases hl : lookup s s.team.coreK s.team.key s.team.id.ctx a.2 .read s.team.supSrc with
      | hit lf =>
        rw [show prefLine s a = some (leafPa s.team.id.die lf a.2.toNat / 128) by rw [prefLine, if_neg hv, hl]]
        exact ih _ (h.trans (prefFill_spec s.team.id.die s.team.id.core l u (leafPa s.team.id.die lf a.2.toNat / 128)).1)
      | fault f =>
        rw [show prefLine s a = none by rw [prefLine, if_neg hv, hl]]
        exact ih u h
      | miss =>
        rw [show prefLine s a = none by rw [prefLine, if_neg hv, hl]]
        exact ih u h

theorem pref_runs (s : State) (o : BitVec 7) (sp : BitVec 5) (l : BitVec 2) (hr : s.ready (.pref o sp l)) :
    Runs (.pref o sp l) s (((memLanes s.team sp o).filterMap (prefLine s)).foldl (prefFill s.team.id.die s.team.id.core l) s) .next := by
  have he : exec (.pref o sp l) s = runWord (.pref o sp l) s _ := show execPref o sp l s = _ from rfl
  exact runs_of_ok he hr (congrArg ok (prefLanes s l _ s (.refl s)))

/-! ### CINV and CWB (R263) -/

/-- What CINV and CWB do before the range, when its address or its length is bad, and for a count of 0. -/
theorem cacheWord_checks (i : Instr) (sc : BitVec 3) (a b : BitVec 6) (inval : Bool) (s : State) (he : exec i s = cacheWord i sc a b inval s)
    (hr : s.ready i) : let t := s.team; let va := t.getS64 a.toNat; let n := (t.getS b.toNat).toNat
    (vaClass va ≠ .localVa → Traps i s s { code := codeAddr, detail := if vaClass va = .fabric then 1 else 0, val := va, mask := some t.m }) ∧
    (vaClass va = .localVa → 2 ^ 48 < va.toNat + n → Traps i s s { code := codeAddr, detail := 3, val := va, mask := some t.m }) ∧
    (vaClass va = .localVa → va.toNat + n ≤ 2 ^ 48 → n = 0 → Runs i s s .next) ∧
    (vaClass va = .localVa → va.toNat + n ≤ 2 ^ 48 → n ≠ 0 → let scope := s.meant t.key sc.toNat
      let c := cleanRange s t.id.die t.id.core scope t.id.ctx va.toNat n
      Runs i s (if inval then dropRange c t.id.die t.id.core scope t.id.ctx va.toNat n else c) .next) := by
  intro t va n
  refine ⟨fun hv => traps_of_trap he hr (if_pos hv), fun hv h => ?_, fun hv h hn => ?_, fun hv h hn => ?_⟩
  · exact traps_of_trap he hr ((if_neg (not_not.mpr hv)).trans (if_pos h))
  · exact runs_of_ok he hr ((if_neg (not_not.mpr hv)).trans ((if_neg (Nat.not_lt.mpr h)).trans (if_pos hn)))
  · exact runs_of_ok he hr ((if_neg (not_not.mpr hv)).trans ((if_neg (Nat.not_lt.mpr h)).trans (if_neg hn)))

/-! ### RRINV and SPCHK (R259, R264) -/

theorem rrinv_runs (s : State) (a b : BitVec 6) (hr : s.ready (.rrinv a b)) : let t := s.team; let va := t.getS64 a.toNat; let n := (t.getS b.toNat).toNat
    (vaClass va ≠ .fabric → Traps (.rrinv a b) s s { code := codeAddr, detail := 2, val := va, mask := some t.m }) ∧
    (vaClass va = .fabric → 2 ^ 45 < fabOff va + n → Traps (.rrinv a b) s s { code := codeAddr, detail := 3, val := va, mask := some t.m }) ∧
    (vaClass va = .fabric → fabOff va + n ≤ 2 ^ 45 → ∃ c, Runs (.rrinv a b) s { s with rrc := c } .next ∧
      ∀ l, smGet {} c l = if n ≠ 0 ∧ l * 128 < va.toNat + n ∧ va.toNat < l * 128 + 128 then {} else smGet {} s.rrc l) := by
  intro t va n
  have he : exec (.rrinv a b) s = runWord (.rrinv a b) s _ := show execRrinv a b s = _ from rfl
  refine ⟨fun hv => traps_of_trap he hr (if_pos hv), fun hv h => ?_, fun hv h =>
    ⟨smDrop (fun l => n ≠ 0 && l * 128 < va.toNat + n && va.toNat < l * 128 + 128) s.rrc, runs_of_ok he hr ?_, fun l => ?_⟩⟩
  · exact traps_of_trap he hr ((if_neg (not_not.mpr hv)).trans (if_pos h))
  · exact (if_neg (not_not.mpr hv)).trans (if_neg (Nat.not_lt.mpr h))
  · rw [smGet_smDrop]
    exact if_congr (by simp only [Bool.and_eq_true, decide_eq_true_eq, and_assoc]) rfl rfl

/-- The scratchpad fault register as SPCHK reads it. -/
theorem sysRead_spchk (s : State) : (sysRead s 0x009).setWidth 32 =
    BitVec.ofBool s.team.sp.valid ++ BitVec.ofBool s.team.sp.wr ++ 0#12 ++ s.team.sp.off :=
  (BitVec.setWidth_setWidth_of_le (BitVec.ofBool s.team.sp.valid ++ BitVec.ofBool s.team.sp.wr ++ 0#12 ++ s.team.sp.off) (by decide : 32 ≤ 64)).trans
    (BitVec.setWidth_eq _)

theorem spchk_runs (s : State) (d : BitVec 6) (hr : s.ready (.spchk d)) :
    ∃ s1, Runs (.spchk d) s { s1 with team := { s1.team with sp := {} } } .next ∧ OnlyScalars [d.toNat] s s1 ∧
      s1.team.sNow d.toNat = BitVec.ofBool s.team.sp.valid ++ BitVec.ofBool s.team.sp.wr ++ 0#12 ++ s.team.sp.off := by
  have he : exec (.spchk d) s = runWord (.spchk d) s _ := show execSpchk d s = _ from rfl
  obtain ⟨ho, hv⟩ := onlyScalars_setS s d.toNat ((sysRead s 0x009).setWidth 32)
  exact ⟨_, runs_of_ok he hr rfl, ho, hv.trans (sysRead_spchk s)⟩

/-! ### MWAIT (R265 to R267) -/

theorem onlyMemory_settleAt (s : State) (d k scope line : Nat) : OnlyMemory s (settleAt s d k scope line) := by
  unfold settleAt
  split
  · exact .refl s
  · split
    · exact onlyMemory_drainLine s d k line
    · exact onlyMemory_settleLine s d k line

/-- The host lines, the scope, and the words that MWAIT compares. -/
theorem mwait_runs (s : State) (tc : BitVec 3) (d a b : BitVec 6) (sc : BitVec 3) (x : LaneAcc) (accs : List LaneAcc) (hr : s.ready (.mwait tc d a b sc)) :
    let t := s.team; let va := t.getS64 a.toNat; let n := 4 * iWide tc
    let as := t.lanes.map fun k => (k, va)
    addrCheck as n false = none → translateLanes s as .read = .ok (x :: accs) → isHost x.pa = false →
    let scope := s.meant t.key sc.toNat; let c := settleAt s t.id.die t.id.core scope (x.pa / 128)
    let v := leNat (overHeld (heldBytes t false x.pa n) x.pa (readAtScope c t.id.die t.id.core scope x.pa n))
    let w := if tc = 3 then (t.getS64 b.toNat).toNat else (t.getS b.toNat).toNat
    (readBusy s t x.pa n = true → Waits (.mwait tc d a b sc) s s .fence) ∧
    (readBusy s t x.pa n = false → v = w → Waits (.mwait tc d a b sc) s c .memory) ∧
    (readBusy s t x.pa n = false → v ≠ w → loadsBusy c t.key = true → Waits (.mwait tc d a b sc) s c .fence) ∧
    (readBusy s t x.pa n = false → v ≠ w → loadsBusy c t.key = false → ∃ s1, Runs (.mwait tc d a b sc) s s1 .next ∧
      OnlyScalars ((List.range (iWide tc)).map fun k => d.toNat + k) (c.acquireTeam scope) s1 ∧
      ∀ k < iWide tc, s1.team.sNow (d.toNat + k) = BitVec.ofNat 32 (v / 2 ^ (32 * k))) := by
  intro t va n as hc ht hh scope c v w
  obtain ⟨f, he, hf⟩ : ∃ f, exec (.mwait tc d a b sc) s = runWord (.mwait tc d a b sc) s f ∧
      f s = if readBusy s t x.pa n = true then .block s .fence else if v = w then .block c .memory else
        if loadsBusy c c.team.key = true then .block c .fence else ok ((c.acquireTeam scope).mapTeam fun t => t.setSn d.toNat v (iWide tc)) := by
    refine ⟨_, show execMwait tc d a b sc s = _ from rfl, ?_⟩
    dsimp only
    rw [withAccess_ok _ hc ht]
    dsimp only
    rw [if_neg (by simp [hh])]
    by_cases hb : readBusy s t x.pa n = true
    · rw [if_pos hb, if_pos hb]
    · rw [if_neg hb, if_neg hb]
      by_cases hw : v = w
      · rw [if_pos hw, if_pos hw]
      · rw [if_neg hw, if_neg hw, withAcquire]
        by_cases hl : loadsBusy c c.team.key = true
        · rw [if_pos hl]
        · rw [if_neg hl]; rfl
  obtain ⟨sv, sm, e, hv, ho⟩ := Team.setSn_spec (iWide tc) (c.acquireTeam scope).team d.toNat v
  rw [(onlyMemory_settleAt s _ _ _ _).team] at hf
  refine ⟨fun hb => waits_of_block he hr (hf.trans (if_pos hb)), fun hb hw => waits_of_block he hr ?_, fun hb hw hl => waits_of_block he hr ?_,
    fun hb hw hl => ⟨(c.acquireTeam scope).mapTeam fun t => t.setSn d.toNat v (iWide tc), runs_of_ok he hr ?_, ⟨sv, sm, ?_, fun k hk => ho k ?_⟩, fun k hk => ?_⟩⟩
  · rw [hf, if_neg (by simp [hb]), if_pos hw]
  · rw [hf, if_neg (by simp [hb]), if_neg hw, if_pos hl]
  · rw [hf, if_neg (by simp [hb]), if_neg hw, if_neg (by simp [t, hl])]
  · simp only [State.mapTeam, e, Team.withS]
  · by_contra h
    exact hk (List.mem_map.mpr ⟨k - d.toNat, List.mem_range.mpr (by omega), by omega⟩)
  · simp only [Team.sNow, State.mapTeam, e, Team.withS]
    exact (hv k hk).1

/-- Settles O31: each word over caches by what it drains, fills and drops; MWAIT by what it reads at its scope's point. -/
theorem cacheWordsAndMemoryWait : Obligations.CacheWordsAndMemoryWait := by
  unfold Obligations.CacheWordsAndMemoryWait
  refine ⟨?_, fun s => ⟨fun tc d a b sc x accs hr => mwait_runs s tc d a b sc x accs hr, rfl⟩⟩
  intro s t d k ck
  refine ⟨?_, fun line => ⟨fillL1_line s d k line, fillL2_line s d line⟩, ?_, fun a b hr => rrinv_runs s a b hr, fun e hr => spchk_runs s e hr⟩
  · intro o sp l hr
    exact ⟨pref_runs s o sp l hr, onlyCaches_prefFills d k l _ s⟩
  · intro sc a b va n scope bad
    have hi := cacheWord_checks (.cinv sc a b) sc a b true s rfl
    have hw := cacheWord_checks (.cwb sc a b) sc a b false s rfl
    refine ⟨fun hv => ⟨fun hr => (hi hr).1 hv, fun hr => (hw hr).1 hv⟩, fun hv h => ⟨fun hr => (hi hr).2.1 hv h, fun hr => (hw hr).2.1 hv h⟩,
      fun hv h hn => ⟨fun hr => (hi hr).2.2.1 hv h hn, fun hr => (hw hr).2.2.1 hv h hn⟩, ?_⟩
    intro hv h hn ctx c u fused
    have hc : OnlyMemory s c := onlyMemory_cleanRange s d k scope ctx va.toNat n
    obtain ⟨ho, hwb, hl⟩ := dropRange_spec c d k scope ctx va.toNat n hn
    refine ⟨fun hr => (hw hr).2.2.2 hv h hn, hc.team, cleanRange_narrow s d k scope ctx va.toNat n, fun hs l hr => cleanRange_line s d k scope ctx va.toNat n l hn hs hr,
      fun hr => (hi hr).2.2.2 hv h hn, ho, hwb, fun x l => ?_⟩
    intro mine hit
    obtain ⟨h1, h2, h3⟩ := hl x l
    refine ⟨h1.of_iff (and_congr_right fun _ => and_congr_left fun _ => ?_), h2, h3⟩
    rw [mem_cinvL1s, hc.fusedCluster]

end Sys2Proof.Machine
end

section
/-! Atomics as they are performed (R291, R293, R299 to R302, R306, R308, R310, R311). -/

open Sys2Proof Sys2Proof.Machine

namespace Sys2Proof.Machine

/-! ### What an atomic writes over the old value (R299 to R302) -/

/-- A location's bits as a signed number are those of its word. -/
theorem atSigned_eq (wide : Bool) (v : Nat) (h : v < 2 ^ atBits wide) : atSigned wide v = (BitVec.ofNat (atBits wide) v).toInt := by
  have hp : 2 ^ atBits wide = 2 * 2 ^ (atBits wide - 1) := by cases wide <;> rfl
  rw [BitVec.toInt_eq_toNat_cond, BitVec.toNat_ofNat, Nat.mod_eq_of_lt h, atSigned]
  by_cases hv : 2 ^ (atBits wide - 1) ≤ v
  · rw [if_pos hv, if_neg (by omega)]; push_cast; rfl
  · rw [if_neg hv, if_pos (by omega)]

theorem atNew_words (a : AtomicOp) (l : AtLane) (old : Nat) (ho : old < 2 ^ atBits a.wide) (hx : l.x < 2 ^ atBits a.wide) : let n := atBits a.wide
    let u : BitVec n := BitVec.ofNat n old; let x : BitVec n := BitVec.ofNat n l.x
    (a.what = .amo 0 → atNew a l old = (some (u + x).toNat, 0)) ∧ (a.what = .amo 2 → atNew a l old = (some (u &&& x).toNat, 0)) ∧
    (a.what = .amo 3 → atNew a l old = (some (u ||| x).toNat, 0)) ∧ (a.what = .amo 4 → atNew a l old = (some (u ^^^ x).toNat, 0)) ∧
    (a.what = .amo 5 → atNew a l old = (some l.x, 0)) ∧
    (a.what = .amo 6 → atNew a l old = (some (if x.toInt < u.toInt then x else u).toNat, 0)) ∧
    (a.what = .amo 7 → atNew a l old = (some (if u.toInt < x.toInt then x else u).toNat, 0)) ∧
    (a.what = .amo 8 → atNew a l old = (some (min old l.x), 0)) ∧ (a.what = .amo 9 → atNew a l old = (some (max old l.x), 0)) ∧
    (a.what = .acas ∨ a.what = .acas2 → atNew a l old = (if old = l.cmp then some l.x else none, 0)) ∧
    (a.what = .ald → (atNew a l old).1 = none) ∧ (a.what = .ast → atNew a l old = (some l.x, 0)) := by
  intro n u x
  have hu : u.toNat = old := by rw [BitVec.toNat_ofNat, Nat.mod_eq_of_lt ho]
  have hv : x.toNat = l.x := by rw [BitVec.toNat_ofNat, Nat.mod_eq_of_lt hx]
  have su : atSigned a.wide old = u.toInt := atSigned_eq _ _ ho
  have sx : atSigned a.wide l.x = x.toInt := atSigned_eq _ _ hx
  have amo : ∀ {k}, a.what = .amo k → atNew a l old = (some (rmwNew k a.wide old l.x).1, (rmwNew k a.wide old l.x).2) := fun h => by rw [atNew, h]
  refine ⟨fun h => ?_, fun h => ?_, fun h => ?_, fun h => ?_, fun h => amo h, fun h => ?_, fun h => ?_, fun h => ?_, fun h => ?_, fun h => ?_, fun h => ?_, fun h => ?_⟩
  · rw [amo h, BitVec.toNat_add, hu, hv]; rfl
  · rw [amo h, BitVec.toNat_and, hu, hv]; rfl
  · rw [amo h, BitVec.toNat_or, hu, hv]; rfl
  · rw [amo h, BitVec.toNat_xor, hu, hv]; rfl
  · rw [amo h, apply_ite BitVec.toNat, hu, hv, ← su, ← sx]; rfl
  · rw [amo h, apply_ite BitVec.toNat, hu, hv, ← su, ← sx]; rfl
  · rw [amo h, Nat.min_comm]; exact congrArg (fun v => (some v, 0)) (by show (if l.x < old then l.x else old) = _; split <;> omega)
  · rw [amo h]; exact congrArg (fun v => (some v, 0)) (by show (if old < l.x then l.x else old) = _; split <;> omega)
  · rcases h with h | h <;> rw [atNew, h]
  · rw [atNew, h]
  · rw [atNew, h]

/-! ### A lane's result, and the end of an atomic (R306) -/

theorem Team.setVn_key (t : Team) (r l x n : Nat) : (t.setVn r l x n).key = t.key := by
  induction n generalizing t r x with
  | zero => rfl
  | succ n ih => rw [Team.setVn, ih]; rfl

/-- The last lane of an atomic: its operation leaves and its flags become sticky; of its team only markers of pending registers, completion
flags and these change. -/
theorem atSettle_last (s : State) (o : Op) (a : AtomicOp) (fl : Flags) : let u := atSettle s o a [] fl
    (∃ x y, u = { s with ops := s.ops.filter (fun x => x.id ≠ o.id), progress := s.progress + 1, team := x, others := y }) ∧
    ∃ b p, u.teamAt o.team = { s.teamAt o.team with
      asticky := (s.teamAt o.team).asticky ||| (a.flags ||| fl), busy := b, r := { (s.teamAt o.team).r with vpend := p } } := by
  let f : Team → Team := fun t => t.vPend a.d a.regs ((distinct (a.lanes.map fun l => l.lane / 32)).filter fun k => !(([] : List AtLane).any fun l => l.lane / 32 = k)) 0
  let v := (s.updTeam o.team f).updTeam o.team fun t => t.raise (a.flags ||| fl)
  let o' : Op := { o with kind := .atomic { a with lanes := [], flags := a.flags ||| fl, deferred := false } }
  have e : atSettle s o a [] fl = finishOp v o' := by rw [atSettle]; exact if_pos rfl
  obtain ⟨x1, y1, e1⟩ := s.updTeam_frame o.team f
  obtain ⟨x2, y2, e2⟩ := (s.updTeam o.team f).updTeam_frame o.team fun t => t.raise (a.flags ||| fl)
  obtain ⟨x3, y3, e3⟩ := finishOp_spec v o'
  have hv : v.teamAt o.team = (f (s.teamAt o.team)).raise (a.flags ||| fl) := by
    have h1 : (s.updTeam o.team f).teamAt o.team = f (s.teamAt o.team) := (s.teamAt_updTeam o.team o.team f fun _ => rfl).trans (if_pos rfl)
    exact ((State.teamAt_updTeam _ o.team o.team (fun t => t.raise (a.flags ||| fl)) fun _ => rfl).trans (if_pos rfl)).trans (congrArg (fun t => t.raise (a.flags ||| fl)) h1)
  rw [e]
  refine ⟨⟨x3, y3, ?_⟩, v.busyAfter o', (f (s.teamAt o.team)).r.vpend, ?_⟩
  · rw [e3, show v = _ from e2, e1]
  · rw [show (finishOp v o').teamAt o.team = { v.teamAt o.team with busy := v.busyAfter o' } from finishOp_own v o', hv]; rfl

theorem giveOld_spec (s : State) (o : Op) (a : AtomicOp) (l : AtLane) (old : Nat) (hl : l.lane < 1024) : 
    ∃ v m, (giveOld s o a l old).teamAt o.team = (s.teamAt o.team).withV v m ∧
      ∀ k < a.regs, smGet 0 v (vKey (a.d + k) l.lane) = BitVec.ofNat 32 (old / 2 ^ (32 * k)) := by
  obtain ⟨v, m, e, hv, -⟩ := Team.setVn_spec a.regs (s.teamAt o.team) a.d l.lane old hl
  refine ⟨v, m, ?_, hv⟩
  rw [giveOld, State.teamAt_updTeam _ _ _ _ fun t => Team.setVn_key t _ _ _ _, if_pos rfl, e]

/-! ### At the home (R291, R293) -/

theorem siteOp_atomic {s : State} {o : Op} (ho : s.op s.site.op = some o) (hc : opCurrent s o = true) (f : State → Op → State) :
    siteOp s f = .next (f s o) := siteOp_eq f ho (of_decide_eq_true ((Bool.and_eq_true _ _).mp hc).1)

theorem atAll_one (s : State) (o : Op) (a : AtomicOp) (l : AtLane) (hs : a.spad = false) : atAll o a [l] s = atHome s o a l := by
  have e : atAll o a [l] s = ((if a.spad then atScratch s o a l else atHome s o a l).1, (if a.spad then atScratch s o a l else atHome s o a l).2 ||| 0) := rfl
  have hz : ∀ x : Flags, x ||| 0 = x := fun x => BitVec.or_zero
  rw [e, hs, hz]
  rfl

/-- ATOMIC_RETURN of an atomic with one lane, which needs no answer from the host, performs it. -/
theorem atomicReturn_one {s : State} {o : Op} {a : AtomicOp} {l : AtLane} (ho : s.op s.site.op = some o) (hk : o.kind = .atomic a)
    (hd : a.deferred = false) (hl : a.lanes = [l]) (hs : a.spad = false) (hh : isHost l.pa = false) (hc : opCurrent s o = true)
    (hm : mayPerform s o = true) : exec .atomicReturn s = .next (atSettle (atHome s o a l).1 o a [] (atHome s o a l).2) := by
  have hw : atAtHost a l = false := by simp [atAtHost, hh]
  have hn : atNow a l = true := by simp [atNow, hw, hl]
  show execAtomicReturn s = _
  rw [execAtomicReturn, siteOp_atomic ho hc, hk]
  dsimp only
  rw [hd, hc, hm, atWaits, hl]
  simp only [hw, Bool.not_true, Bool.or_self, Bool.false_eq_true, if_false, atPerform, hl, List.filter_cons, hn, List.filter_nil, if_true, atAll_one s o a l hs]

/-- A location at the home as an atomic leaves it: what it writes, or as it was. -/
def putLocation (s : State) (pa n : Nat) : Option Nat → State
  | some v => setHomeBytes s pa (leBytes v n)
  | none => s

theorem onlyMemory_putLocation (s : State) (pa n : Nat) (v : Option Nat) : OnlyMemory s (putLocation s pa n v) := by
  cases v with
  | some v => exact onlyMemory_setHomeBytes _ _ _
  | none => exact .refl s

theorem homeByte_putLocation (s : State) (pa n x : Nat) (r : Option Nat) : homeByte (putLocation s pa n r) x = match r with
    | some v => if pa ≤ x ∧ x < pa + n then (leBytes v n).getD (x - pa) 0 else homeByte s x
    | none => homeByte s x := by
  cases r with
  | some v => exact (homeByte_setHomeBytes _ _ _ _).trans (by rw [length_leBytes])
  | none => rfl

/-- The state that performing a lane at the home leaves, but for its team. -/
def homePerformed (s : State) (o : Op) (a : AtomicOp) (l : AtLane) : State :=
  let t := s.teamAt o.team
  let s0 := settleLine s t.id.die t.id.core (l.pa / 128)
  forgetLine (putLocation s0 l.pa a.size (atNew a l (leNat (homeBytes s0 l.pa a.size))).1) t.id.die t.id.core (l.pa / 128)

theorem onlyMemory_homePerformed (s : State) (o : Op) (a : AtomicOp) (l : AtLane) : OnlyMemory s (homePerformed s o a l) :=
  ((onlyMemory_settleLine s _ _ _).trans (onlyMemory_putLocation _ _ _ _)).trans (onlyMemory_forgetLine _ _ _ _)

/-- The location holds what the operation writes, and no other byte of the home changes beyond the line's dirty bytes. -/
theorem homeByte_homePerformed (s : State) (o : Op) (a : AtomicOp) (l : AtLane) (x : Nat) : let t := s.teamAt o.team
    let s0 := settleLine s t.id.die t.id.core (l.pa / 128)
    homeByte (homePerformed s o a l) x = match (atNew a l (leNat (homeBytes s0 l.pa a.size))).1 with
      | some v => if l.pa ≤ x ∧ x < l.pa + a.size then (leBytes v a.size).getD (x - l.pa) 0 else homeByte s0 x
      | none => homeByte s0 x :=
  (homeByte_congr (forgetLine_mem _ _ _ _) x).trans (homeByte_putLocation _ _ _ _ _)

/-- A lane whose line is not poisoned, or of AST, is performed at the home. -/
theorem atHome_eq (s : State) (o : Op) (a : AtomicOp) (l : AtLane) : let t := s.teamAt o.team
    let s0 := settleLine s t.id.die t.id.core (l.pa / 128); let old := leNat (homeBytes s0 l.pa a.size)
    (a.what = .ast ∨ anyPoison s0 l.pa a.size = false) → atHome s o a l = (giveOld (homePerformed s o a l) o a l old, (atNew a l old).2) := by
  intro t s0 old h
  have hp : ¬(a.what != .ast && anyPoison s0 l.pa a.size) = true := by
    rcases h with h | h <;> simp [h]
  have he : homePerformed s o a l = forgetLine (putLocation s0 l.pa a.size (atNew a l old).1) t.id.die t.id.core (l.pa / 128) := rfl
  rw [atHome, he]
  exact if_neg hp

theorem atomicReturn_spec {s : State} {o : Op} {a : AtomicOp} {l : AtLane} (ho : s.op s.site.op = some o) (hk : o.kind = .atomic a)
    (hd : a.deferred = false) (hl : a.lanes = [l]) (hs : a.spad = false) (hh : isHost l.pa = false) (hn : l.lane < 1024) (hc : opCurrent s o = true)
    (hm : mayPerform s o = true) : let t := s.teamAt o.team
    let s0 := settleLine s t.id.die t.id.core (l.pa / 128); (a.what = .ast ∨ anyPoison s0 l.pa a.size = false) →
    let old := leNat (homeBytes s0 l.pa a.size); let r := atNew a l old
    ∃ u, exec .atomicReturn s = .next u ∧
      (∀ x, homeByte u x = match r.1 with
        | some v => if l.pa ≤ x ∧ x < l.pa + a.size then (leBytes v a.size).getD (x - l.pa) 0 else homeByte s0 x
        | none => homeByte s0 x) ∧
      (∀ k < a.regs, (u.teamAt o.team).vNow (a.d + k) l.lane = BitVec.ofNat 32 (old / 2 ^ (32 * k))) ∧
      (u.teamAt o.team).r.s = t.r.s ∧ (u.teamAt o.team).asticky = t.asticky ||| (a.flags ||| r.2) ∧ u.ops = s.ops.filter fun x => x.id ≠ o.id := by
  intro t s0 hp old r
  let w := homePerformed s o a l
  have hw : OnlyMemory s w := onlyMemory_homePerformed s o a l
  have he := atomicReturn_one ho hk hd hl hs hh hc hm
  rw [atHome_eq s o a l hp] at he
  obtain ⟨v, m, hg, hv⟩ := giveOld_spec w o a l old hn
  obtain ⟨x1, y1, e1⟩ := w.updTeam_frame o.team fun t => t.setVn a.d l.lane old a.regs
  obtain ⟨⟨x2, y2, e2⟩, b, p, ht⟩ := atSettle_last (giveOld w o a l old) o a r.2
  rw [hg, hw.teamAt] at ht
  have hmem : (giveOld w o a l old).mem = w.mem := State.updTeam_mem _ _ _
  refine ⟨_, he, fun x => ?_, fun k hk => ?_, by rw [ht]; rfl, by rw [ht]; rfl, ?_⟩
  · rw [homeByte_congr (v := w) (by rw [e2]; exact hmem) x]
    exact homeByte_homePerformed s o a l x
  · rw [ht]; exact hv k hk
  · rw [e2]
    show (giveOld w o a l old).ops.filter _ = _
    rw [show (giveOld w o a l old).ops = w.ops from State.updTeam_ops _ _ _, hw.ops]

/-! ### The host's answers (R266, R308, R310, R311) -/

/-- With no crew saved there is no image to follow. -/
theorem followImages_unsaved {old new : State} (h : ∀ e ∈ new.crews, e.2.state ≠ .saved) : followImages old new = new := by
  have fold : ∀ (l : List (Nat × Crew)) (u : State), (∀ e ∈ l, e.2.state ≠ .saved) → l.foldl (fun s e =>
      if e.2.state != .saved then s
      else if old.crew e.1 = new.crew e.1 && (teamKeys new e.1).all fun k => old.teamAt k = new.teamAt k then syncImage s e.1
      else writeImage s e.1) u = u := by
    intro l
    induction l with
    | nil => exact fun u _ => rfl
    | cons e r ih =>
      intro u h
      have he : (e.2.state != .saved) = true := by simpa using h e List.mem_cons_self
      rw [List.foldl_cons, if_pos he]
      exact ih u fun x hx => h x (List.mem_cons_of_mem _ hx)
  exact fold new.crews new h

/-- The host's answer to the one lane of an atomic: the lane receives it, and the operation leaves. -/
theorem hostAnswer_one {s : State} {o : Op} {a : AtomicOp} {l : AtLane} (f : State → Op → AtomicOp → AtLane → State)
    (ho : s.op s.site.op = some o) (hk : o.kind = .atomic a) (hd : a.deferred = false) (hl : a.lanes = [l]) (hn : l.lane = s.site.n)
    (hh : atAtHost a l = true) (hg : (s.crew o.crew).gen = o.gen) (hm : mayPerform s o = true) (hf : ∀ e ∈ (f s o a l).crews, e.2.state ≠ .saved) :
    hostAnswer s f = .next (atSettle (f s o a l) o a [] 0) := by
  have hlane : hostLane s o a = some l := by simp [hostLane, hd, hm, atWaits, hl, hh]
  have hrest : (a.lanes.filter fun x => decide (x.lane ≠ l.lane)) = [] := by rw [hl]; simp
  obtain ⟨⟨x, y, e⟩, -⟩ := atSettle_last (f s o a l) o a 0
  rw [hostAnswer, siteOp_eq _ ho hg, hk]
  dsimp only
  rw [hlane]
  dsimp only
  rw [if_neg (not_not_intro hn), hrest, followImages_unsaved (by rw [e]; exact hf)]

/-- A line that a core forgets is in neither the L1 that serves it nor its die's L2. -/
theorem forgetLine_gone (s : State) (d k line : Nat) : smGet {} ((forgetLine s d k line).core (l1Home s d k line)).l1 line = {} ∧
    smGet {} ((forgetLine s d k line).die d).l2 line = {} := by
  let v := s.setCore (coreKey d k) { s.core (coreKey d k) with node := smSet none (s.core (coreKey d k)).node line none }
  have hv : l1Home v d k line = l1Home s d k line := (onlyMemory_setCore s (coreKey d k) _ _ _).l1Home d k line
  let h := l1Home v d k line
  let w := v.setCore h { v.core h with l1 := smSet {} (v.core h).l1 line {} }
  have e : forgetLine s d k line = w.setDie d { w.die d with l2 := smSet {} (w.die d).l2 line {} } := rfl
  rw [e, ← hv]
  constructor
  · show smGet {} (w.core h).l1 line = {}
    rw [State.core_setCore, if_pos rfl, smGet_smSet, if_pos rfl]
  · rw [State.die_setDie, if_pos rfl, smGet_smSet, if_pos rfl]

/-- A place at the home as an access there leaves it, and the caches of the core that made it (R266, R308). -/
theorem storeHome_spec (s : State) (d k pa : Nat) (bs : List Byte) : OnlyMemory s (storeHome s d k pa bs) ∧
    (∀ x, homeByte (storeHome s d k pa bs) x = if pa ≤ x ∧ x < pa + bs.length then bs.getD (x - pa) 0 else homeByte (settleLine s d k (pa / 128)) x) ∧
    smGet {} ((storeHome s d k pa bs).core (l1Home s d k (pa / 128))).l1 (pa / 128) = {} ∧ smGet {} ((storeHome s d k pa bs).die d).l2 (pa / 128) = {} := by
  have hw := (onlyMemory_settleLine s d k (pa / 128)).trans (onlyMemory_setHomeBytes bs (settleLine s d k (pa / 128)) pa)
  have hg := forgetLine_gone (setHomeBytes (settleLine s d k (pa / 128)) pa bs) d k (pa / 128)
  rw [hw.l1Home] at hg
  exact ⟨onlyMemory_storeHome s d k pa bs, fun x => (homeByte_congr (forgetLine_mem _ _ _ _) x).trans (homeByte_setHomeBytes _ _ _ _), hg⟩

/-- A marker in `n` registers of a lane. -/
theorem Team.markV_at (t : Team) (d l k n : Nat) (m : Mark) (hk : k < n) : smGet none (t.markV d l m n).r.vmarks (vKey (d + k) l) = some m :=
  (smGet_foldl_const none (some m) (fun r => vKey (d + r) l) (List.range n) t.r.vmarks _).trans
    (if_pos (List.mem_map.mpr ⟨k, List.mem_range.mpr hk, rfl⟩))

/-- A team that receives a result, and the end of its atomic's operation. -/
theorem atSettle_updTeam (s : State) (o : Op) (a : AtomicOp) (f : Team → Team) (hf : ∀ t, (f t).key = t.key) :
    let u := atSettle (s.updTeam o.team f) o a [] 0
    u.mem = s.mem ∧ u.cores = s.cores ∧ u.dies = s.dies ∧ (∀ x ∈ u.ops, x.id ≠ o.id) ∧
    (u.teamAt o.team).r.v = (f (s.teamAt o.team)).r.v ∧ (u.teamAt o.team).r.vmarks = (f (s.teamAt o.team)).r.vmarks := by
  obtain ⟨⟨x, y, e⟩, b, p, ht⟩ := atSettle_last (s.updTeam o.team f) o a 0
  have h : (s.updTeam o.team f).teamAt o.team = f (s.teamAt o.team) := (s.teamAt_updTeam o.team o.team f hf).trans (if_pos rfl)
  rw [h] at ht
  dsimp only
  rw [ht, e]
  exact ⟨s.updTeam_mem _ _, s.updTeam_cores _ _, s.updTeam_dies _ _, fun x hx => of_decide_eq_true (List.mem_filter.mp hx).2, rfl, rfl⟩

section
variable {s : State} {o : Op} {a : AtomicOp} {l : AtLane} (ho : s.op s.site.op = some o) (hk : o.kind = .atomic a) (hd : a.deferred = false)
  (hl : a.lanes = [l]) (hn : l.lane = s.site.n) (hh : atAtHost a l = true) (hg : (s.crew o.crew).gen = o.gen) (hm : mayPerform s o = true)
  (hf : ∀ e ∈ s.crews, e.2.state ≠ .saved)
include ho hk hd hl hn hh hg hm hf

theorem hostCompletion_spec (old : BitVec 128) (hb : l.lane < 1024) : let v := old.toNat % 2 ^ (8 * a.size); let t := (s.teamAt o.team).id
    ∃ u, exec (.hostAtomicCompletion .value old) s = .next u ∧ (∀ x ∈ u.ops, x.id ≠ o.id) ∧
      (∀ k < a.regs, (u.teamAt o.team).vNow (a.d + k) l.lane = BitVec.ofNat 32 (v / 2 ^ (32 * k))) ∧
      (∀ x, homeByte u x = if l.pa ≤ x ∧ x < l.pa + a.size then (leBytes ((atNew a l v).1.getD v) a.size).getD (x - l.pa) 0
        else homeByte (settleLine s t.die t.core (l.pa / 128)) x) ∧
      smGet {} (u.core (l1Home s t.die t.core (l.pa / 128))).l1 (l.pa / 128) = {} ∧ smGet {} (u.die t.die).l2 (l.pa / 128) = {} := by
  intro v t
  obtain ⟨hw, hbyte, hgone⟩ := storeHome_spec s t.die t.core l.pa (leBytes ((atNew a l v).1.getD v) a.size)
  let w := storeHome s t.die t.core l.pa (leBytes ((atNew a l v).1.getD v) a.size)
  have hkey : ∀ t : Team, (t.setVn a.d l.lane v a.regs).key = t.key := fun t => Team.setVn_key t _ _ _ _
  have he : exec (.hostAtomicCompletion .value old) s = hostAnswer s fun s o a l =>
      giveOld (hostApplied s o a l (old.toNat % 2 ^ (8 * a.size))) o a l (old.toNat % 2 ^ (8 * a.size)) := rfl
  obtain ⟨tv, tm, hteam, hv, -⟩ := Team.setVn_spec a.regs (w.teamAt o.team) a.d l.lane v hb
  obtain ⟨hmem, hcores, hdies, hops, hregs, -⟩ := atSettle_updTeam w o a (fun t => t.setVn a.d l.lane v a.regs) hkey
  refine ⟨_, he.trans (hostAnswer_one _ ho hk hd hl hn hh hg hm ?_), hops, fun k hk => ?_, fun x => ?_, ?_⟩
  · rw [giveOld, State.updTeam_crews]
    exact hw.crews ▸ hf
  · rw [hteam] at hregs
    exact (congrArg (fun v => smGet 0 v (vKey (a.d + k) l.lane)) hregs).trans (hv k hk)
  · rw [length_leBytes] at hbyte
    exact (homeByte_congr hmem x).trans (hbyte x)
  · exact ⟨(congrArg (fun c => smGet {} (smGet {} c (l1Home s t.die t.core (l.pa / 128)) : Core).l1 (l.pa / 128)) hcores).trans hgone.1,
      (congrArg (fun c => smGet {} (smGet {} c t.die : Die).l2 (l.pa / 128)) hdies).trans hgone.2⟩

theorem hostTimeout_spec (old : BitVec 128) : ∃ u, exec (.hostAtomicTimeout false old) s = .next u ∧ (∀ x ∈ u.ops, x.id ≠ o.id) ∧ u.mem = s.mem ∧
    ∀ k < a.regs, smGet none (u.teamAt o.team).r.vmarks (vKey (a.d + k) l.lane) = some (.hostAtomic 3 l.va) := by
  have he : exec (.hostAtomicTimeout false old) s = hostAnswer s fun s o a l => giveMark s o a l (.hostAtomic 3 l.va) := rfl
  obtain ⟨hmem, -, -, hops, -, hmarks⟩ := atSettle_updTeam s o a (fun t => t.markV a.d l.lane (.hostAtomic 3 l.va) a.regs) fun _ => rfl
  refine ⟨_, he.trans (hostAnswer_one _ ho hk hd hl hn hh hg hm ?_), hops, hmem, fun k hk => ?_⟩
  · rw [giveMark, State.updTeam_crews]
    exact hf
  · exact (congrArg (fun m => smGet none m (vKey (a.d + k) l.lane)) hmarks).trans (Team.markV_at _ _ _ _ _ _ hk)

end

/-- Settles O42: one lane performed at the home or answered by the host, then the end of its operation; the words by arithmetic. -/
theorem atomicsArePerformed : Obligations.AtomicsArePerformed := by
  unfold Obligations.AtomicsArePerformed
  refine ⟨?_, fun a l old ho hx => atNew_words a l old ho hx, ?_⟩
  · intro s o a l ho hk hd hl hs hh hn hc hm
    exact atomicReturn_spec ho hk hd hl hs hh hn hc hm
  · intro s o a l old ho hk hd hl hn hb hh hg hm hf
    exact ⟨hostCompletion_spec ho hk hd hl hn hh hg hm hf old hb, hostTimeout_spec ho hk hd hl hn hh hg hm hf old⟩

end Sys2Proof.Machine
end

section
/-! PMAP's work on one page (R283, R284, R286). -/

open Sys2Proof Sys2Proof.Machine

namespace Sys2Proof.Machine

/-! ### Words at the home -/

/-- `n` bytes from one place on and `m` from another lie apart. -/
abbrev Apart (a n b m : Nat) : Prop := a + n ≤ b ∨ b + m ≤ a

theorem home64_setHome64 (s : State) (pa : Nat) (v : W64) : home64 (setHome64 s pa v) pa = v := by
  have h := homeBytes_setHomeBytes s pa (leBytes v.toNat 8)
  rw [length_leBytes] at h
  rw [home64, setHome64, h, leNat_leBytes_of_lt v.isLt, BitVec.ofNat_toNat, BitVec.setWidth_eq]

theorem home32_setHome32 (s : State) (pa : Nat) (v : W32) : home32 (setHome32 s pa v) pa = v := by
  have h := homeBytes_setHomeBytes s pa (leBytes v.toNat 4)
  rw [length_leBytes] at h
  rw [home32, setHome32, h, leNat_leBytes_of_lt v.isLt, BitVec.ofNat_toNat, BitVec.setWidth_eq]

/-- A store beyond a place leaves what is read there. -/
theorem homeBytes_apart (s : State) {pa a n : Nat} (bs : List Byte) (h : Apart a n pa bs.length) : homeBytes (setHomeBytes s pa bs) a n = homeBytes s a n :=
  homeBytes_congr fun k hk => by
    rw [homeByte_setHomeBytes, if_neg (by rcases h with h | h <;> omega)]

theorem home64_congr {s u : State} {pa : Nat} (h : ∀ k < 8, homeByte u (pa + k) = homeByte s (pa + k)) : home64 u pa = home64 s pa := by
  rw [home64, homeBytes_congr h]; rfl

theorem home32_congr {s u : State} {pa : Nat} (h : ∀ k < 4, homeByte u (pa + k) = homeByte s (pa + k)) : home32 u pa = home32 s pa := by
  rw [home32, homeBytes_congr h]; rfl

theorem homeByte_setHome64 (s : State) (pa x : Nat) (v : W64) (h : x < pa ∨ pa + 8 ≤ x) : homeByte (setHome64 s pa v) x = homeByte s x := by
  rw [setHome64, homeByte_setHomeBytes, if_neg (by rw [length_leBytes]; omega)]

theorem homeByte_setHome32 (s : State) (pa x : Nat) (v : W32) (h : x < pa ∨ pa + 4 ≤ x) : homeByte (setHome32 s pa v) x = homeByte s x := by
  rw [setHome32, homeByte_setHomeBytes, if_neg (by rw [length_leBytes]; omega)]

/-! ### Frames leave the caches, and read as zero (R284) -/

/-- A table whose entries are all changed alike. -/
theorem smGet_map {β : Type} (d : β) (f : β → β) (hf : f d = d) (m : SMap β) (k : Nat) : smGet d (m.map fun e => (e.1, f e.2)) k = f (smGet d m k) := by
  simpa using smGet_mapSome d (fun _ => True) f hf m k

/-- A line lies in one of `n` frames from one on. -/
def inFrames (frame n l : Nat) : Bool := frame ≤ l / 512 && l / 512 < frame + n

theorem dropFrames_core (s : State) (frame n ck : Nat) : (dropFrames s frame n).core ck = { s.core ck with
    wb := smDrop (inFrames frame n) (s.core ck).wb, l1 := smDrop (inFrames frame n) (s.core ck).l1, node := smDrop (inFrames frame n) (s.core ck).node } :=
  smGet_map ({} : Core) (fun c => { c with wb := smDrop (inFrames frame n) c.wb, l1 := smDrop (inFrames frame n) c.l1, node := smDrop (inFrames frame n) c.node })
    rfl s.cores ck

theorem dropFrames_die (s : State) (frame n d : Nat) : (dropFrames s frame n).die d = { s.die d with l2 := smDrop (inFrames frame n) (s.die d).l2 } :=
  smGet_map ({} : Die) (fun v => { v with l2 := smDrop (inFrames frame n) v.l2 }) rfl s.dies d

theorem dropFrames_frame (s : State) (frame n : Nat) : ∃ c d, dropFrames s frame n = { s with cores := c, dies := d } := ⟨_, _, rfl⟩

/-- A write buffer without some lines has no byte of them. -/
theorem wbByte_smDrop (p : Nat → Bool) (w : List (Nat × LineCopy)) (line j : Nat) (h : p line = true) : wbByte (smDrop p w) line j = none := by
  have : ∀ (l : List (Nat × LineCopy)), (∀ e ∈ l, e.1 ≠ line) → wbByte l line j = none := by
    intro l
    induction l with
    | nil => exact fun _ => rfl
    | cons e r ih =>
      intro hl
      rw [wbByte_cons, ih fun x hx => hl x (List.mem_cons_of_mem _ hx)]
      simp [hl e List.mem_cons_self]
  refine this _ fun e he hel => ?_
  have := (List.mem_filter.mp he).2
  rw [hel, h] at this
  exact Bool.false_ne_true this

/-- Every byte of a frame that is taken reads as zero, at the home and by every core. -/
theorem zeroFrame_reads (s : State) (frame x : Nat) (h : x / 65536 = frame) : homeByte (zeroFrame s frame) x = 0 ∧ ∀ d k, plainByte (zeroFrame s frame) d k x = 0 := by
  have hl : inFrames frame 1 (x / 128) = true := by
    have : x / 128 / 512 = x / 65536 := Nat.div_div_eq_div_mul ..
    simp only [inFrames, Bool.and_eq_true, decide_eq_true_eq]
    omega
  have hb : homeByte (zeroFrame s frame) x = 0 := by
    show smGet memDefault (smDrop (fun a => decide (a / 65536 = frame)) s.mem) x = 0
    rw [smGet_smDrop, if_pos (by simpa using h)]; rfl
  refine ⟨hb, fun d k => ?_⟩
  have hcore : ∀ ck, (zeroFrame s frame).core ck = (dropFrames s frame 1).core ck := fun ck => rfl
  have hdie : (zeroFrame s frame).die d = (dropFrames s frame 1).die d := rfl
  simp only [plainByte, hcore, hdie, dropFrames_core, dropFrames_die, smGet_smDrop, if_pos hl, wbByte_smDrop _ _ _ _ hl]
  simp [hb]

theorem homeByte_zeroFrame (s : State) (frame x : Nat) (h : x / 65536 ≠ frame) : homeByte (zeroFrame s frame) x = homeByte s x := by
  show smGet memDefault (smDrop (fun a => decide (a / 65536 = frame)) s.mem) x = _
  rw [smGet_smDrop, if_neg (by simpa using h)]; rfl

theorem mem_zeroed_zeroFrame (s : State) (frame : Nat) : frame ∈ (zeroFrame s frame).zeroed := List.mem_cons_self

theorem zeroFrame_team (s : State) (frame : Nat) : (zeroFrame s frame).team = s.team := rfl

theorem home64_zeroFrame (s : State) (frame pa : Nat) (h : Apart pa 8 (frame * 65536) 65536) : home64 (zeroFrame s frame) pa = home64 s pa :=
  home64_congr fun k hk => homeByte_zeroFrame s frame (pa + k) (by rcases h with h | h <;> omega)

theorem home32_zeroFrame (s : State) (frame pa : Nat) (h : Apart pa 4 (frame * 65536) 65536) : home32 (zeroFrame s frame) pa = home32 s pa :=
  home32_congr fun k hk => homeByte_zeroFrame s frame (pa + k) (by rcases h with h | h <;> omega)

theorem home64_setHome32 (s : State) (pa a : Nat) (v : W32) (h : Apart a 8 pa 4) : home64 (setHome32 s pa v) a = home64 s a :=
  home64_congr fun k hk => homeByte_setHome32 s pa (a + k) v (by rcases h with h | h <;> omega)

/-! ### A miss record (R287) -/

/-- A state with its memory and caches replaced in part, which the page tables are read from. -/
theorem recWord_congr {s u : State} (hm : u.mem = s.mem) (hc : u.contexts = s.contexts) (ctx o : Nat) : recWord u ctx o = recWord s ctx o := by
  simp only [recWord, State.context, home64, homeBytes, homeByte, hm, hc]

/-- Where the next miss record of a context goes. -/
def missSlot (s : State) (ctx : Nat) : Nat :=
  ((recWord s ctx 0x18).extractLsb' 5 47).toNat * 32 + (home32 s ((s.context ctx).root + 0x24)).toNat % 2 ^ ((recWord s ctx 0x18).extractLsb' 59 5).toNat * 32

theorem postMiss_eq (s : State) (ctx : Nat) (bs : List Byte) : postMiss s ctx bs = setHome32 (setHomeBytes s (missSlot s ctx) bs)
    ((s.context ctx).root + 0x24) (BitVec.ofNat 32 ((home32 s ((s.context ctx).root + 0x24)).toNat + 1)) := rfl

theorem postMiss_frame (s : State) (ctx : Nat) (bs : List Byte) : ∃ m p l, postMiss s ctx bs = { s with mem := m, poison := p, llc := l } := by
  obtain ⟨m, p, l, e⟩ := setHomeBytes_frame bs s (missSlot s ctx)
  obtain ⟨m', p', l', e'⟩ := setHomeBytes_frame (leBytes (BitVec.ofNat 32 ((home32 s ((s.context ctx).root + 0x24)).toNat + 1)).toNat 4)
    (setHomeBytes s (missSlot s ctx) bs) ((s.context ctx).root + 0x24)
  exact ⟨m', p', l', by rw [postMiss_eq, setHome32, e', e]⟩

theorem length_missRecord (va : W64) (h c k : Nat) (w x : Bool) (f : Nat) : (missRecord va h c k w x f).length = 32 := by simp [missRecord]

/-- A posted record stands in its slot and the tail moves on; every byte beyond these two places stays. -/
theorem postMiss_spec (s : State) (ctx : Nat) (bs : List Byte) (hl : bs.length = 32) : let root := (s.context ctx).root
    (∀ x, (x < missSlot s ctx ∨ missSlot s ctx + 32 ≤ x) → (x < root + 0x24 ∨ root + 0x24 + 4 ≤ x) → homeByte (postMiss s ctx bs) x = homeByte s x) ∧
    (Apart (missSlot s ctx) 32 (root + 0x24) 4 → homeBytes (postMiss s ctx bs) (missSlot s ctx) 32 = bs) ∧
    home32 (postMiss s ctx bs) (root + 0x24) = home32 s (root + 0x24) + 1 := by
  intro root
  rw [postMiss_eq]
  refine ⟨fun x h1 h2 => ?_, fun ha => ?_, ?_⟩
  · rw [homeByte_setHome32 _ _ _ _ h2, homeByte_setHomeBytes, if_neg (by omega)]
  · rw [setHome32, homeBytes_apart _ _ (by rw [length_leBytes]; exact ha)]
    have := homeBytes_setHomeBytes s (missSlot s ctx) bs
    rwa [hl] at this
  · rw [home32_setHome32]
    apply BitVec.eq_of_toNat_eq
    simp [root]

/-! ### PMAP's work on one page (R283) -/

theorem pmapPage_refused (s : State) (ctx d page code detail : Nat) (h : (code = codeProt ∧ detail ≠ 4) ∨ code = codeWalk) :
    pmapPage s ctx d page code detail = (s, 3, none) :=
  if_pos (by simpa using h)

/-- The frame at the head of a context's pool (R284). -/
def poolFrame (s : State) (ctx : Nat) : Nat :=
  let w := recWord s ctx 0x08
  (home64 s ((w.extractLsb' 3 49).toNat * 8 + (home32 s ((s.context ctx).root + 0x10)).toNat % 2 ^ (w.extractLsb' 59 5).toNat * 8)).toNat % 2 ^ 36

/-- A lazy leaf that has taken a frame: valid, not accessed, not dirty, its other fields kept (R284). -/
def takenLeaf (e : W64) (f : Nat) : W64 := (e &&& ~~~(0x000FFFFFFFFF0180#64)) ||| (BitVec.ofNat 64 f <<< 16) ||| 1#64

/-- A lazy leaf takes the frame at the head of the pool (R284). -/
def lazyMapped (s : State) (ctx : Nat) (e : W64) (pa : Nat) : State :=
  zeroFrame (setHome32 (setHome64 s pa (takenLeaf e (poolFrame s ctx))) ((s.context ctx).root + 0x10) (home32 s ((s.context ctx).root + 0x10) + 1))
    (poolFrame s ctx)

section
variable {s : State} {ctx d page code detail : Nat} (hc : code ≠ codeWalk) (hd : code ≠ codeProt ∨ detail = 4)
include hc hd

/-- A page whose fault PMAP may mend is told by what its walk finds. -/
theorem pmapPage_eq : pmapPage s ctx d page code detail = match walk s ctx (page * 65536) with
    | .leaf e pa large =>
      if code = codeProt && leafAttr e = 2 then
        (collapse s ctx d page e pa large, 0, some ((leafPages page large).1, (leafPages page large).2, otherFrames d e))
      else (s, 0, none)
    | .lazyLeaf e pa =>
      if home32 s ((s.context ctx).root + 0x10) = home32 s ((s.context ctx).root + 0x14) then (s, 1, none)
      else (lazyMapped s ctx e pa, 0, none)
    | _ => (s, 2, none) := by
  have h : ¬((code = codeProt && detail ≠ 4) || code = codeWalk) = true := by
    rcases hd with h | h <;> simp [h, hc]
  rw [pmapPage]
  refine (if_neg h).trans ?_
  rfl

end

/-- What a page that takes a frame leaves: the frame reads as zero, the leaf and the pool's head follow, and no other byte changes. -/
theorem lazyMapped_spec (s : State) (ctx : Nat) (e : W64) (pa : Nat) : let root := (s.context ctx).root; let f := poolFrame s ctx; let u := lazyMapped s ctx e pa
    (∀ x, x / 65536 = f → homeByte u x = 0 ∧ ∀ d k, plainByte u d k x = 0) ∧ f ∈ u.zeroed ∧ u.team = s.team ∧
    (∀ x, x / 65536 ≠ f → (x < pa ∨ pa + 8 ≤ x) → (x < root + 0x10 ∨ root + 0x14 ≤ x) → homeByte u x = homeByte s x) ∧
    (Apart pa 8 (root + 0x10) 4 → Apart pa 8 (f * 65536) 65536 → Apart (root + 0x10) 4 (f * 65536) 65536 →
      home64 u pa = takenLeaf e f ∧ home32 u (root + 0x10) = home32 s (root + 0x10) + 1) := by
  intro root f u
  let s1 := setHome64 s pa (takenLeaf e f)
  let s2 := setHome32 s1 (root + 0x10) (home32 s (root + 0x10) + 1)
  have hu : u = zeroFrame s2 f := rfl
  have hteam : s2.team = s.team := ((onlyMemory_setHomeBytes _ s pa).trans (onlyMemory_setHomeBytes _ s1 (root + 0x10))).team
  rw [hu]
  refine ⟨fun x h => zeroFrame_reads s2 f x h, mem_zeroed_zeroFrame s2 f, (zeroFrame_team s2 f).trans hteam, fun x hf h1 h2 => ?_, fun h1 h2 h3 => ⟨?_, ?_⟩⟩
  · rw [homeByte_zeroFrame _ _ _ hf, homeByte_setHome32 _ _ _ _ (by omega), homeByte_setHome64 _ _ _ _ h1]
  · rw [home64_zeroFrame _ _ _ h2, home64_setHome32 _ _ _ _ h1, home64_setHome64]
  · rw [home32_zeroFrame _ _ _ h3, home32_setHome32]

/-! ### A collapse (R286) -/

/-- The cores without a page's translation. -/
def dropPage (s : State) (ctx page : Nat) : State :=
  { s with cores := s.cores.map fun c => (c.1, { c.2 with tlb := c.2.tlb.filter fun t => !tlbHits ctx page t }) }

theorem dropPage_core (s : State) (ctx page ck : Nat) :
    (dropPage s ctx page).core ck = { s.core ck with tlb := (s.core ck).tlb.filter fun t => !tlbHits ctx page t } :=
  smGet_map ({} : Core) (fun c => { c with tlb := c.tlb.filter fun t => !tlbHits ctx page t }) rfl s.cores ck

/-- Some frames leave the caches: translations stay, and nothing but caches changes. -/
theorem dropFrames_list (n : Nat) (fs : List Nat) (s : State) : let u := fs.foldl (fun s f => dropFrames s f n) s
    (∃ c d, u = { s with cores := c, dies := d }) ∧ ∀ ck, (u.core ck).tlb = (s.core ck).tlb := by
  induction fs generalizing s with
  | nil => exact ⟨⟨_, _, rfl⟩, fun _ => rfl⟩
  | cons f r ih =>
    obtain ⟨⟨c, d, e⟩, ht⟩ := ih (dropFrames s f n)
    exact ⟨⟨c, d, e⟩, fun ck => (ht ck).trans (by rw [dropFrames_core])⟩

/-- A collapse's record (R286). -/
def collapseRecord (s : State) (d : Nat) (e : W64) : List Byte :=
  missRecord (BitVec.ofNat 64 ((otherFrames d e).headD 0)) (s.crew s.team.id.crew).handle 0 3 false false 3

/-- The state that a collapse posts its record in: the leaf replaced, the translation and the lines of the other copies gone. -/
def collapsing (s : State) (ctx d page : Nat) (e : W64) (pa : Nat) (large : Bool) : State :=
  (otherFrames d e).foldl (fun s f => dropFrames s f (leafPages page large).2) (dropPage (setHome64 s pa (collapsedLeaf d e)) ctx page)

theorem collapsing_spec (s : State) (ctx d page : Nat) (e : W64) (pa : Nat) (large : Bool) : let u := collapsing s ctx d page e pa large
    let v := setHome64 s pa (collapsedLeaf d e)
    (∃ c d, u = { v with cores := c, dies := d }) ∧ ∀ ck, ∀ t ∈ (u.core ck).tlb, tlbHits ctx page t = false := by
  intro u v
  obtain ⟨⟨c, d', h⟩, ht⟩ := dropFrames_list (leafPages page large).2 (otherFrames d e) (dropPage v ctx page)
  refine ⟨⟨c, d', h⟩, fun ck t hm => ?_⟩
  rw [show (u.core ck).tlb = _ from ht ck, dropPage_core] at hm
  simpa using (List.mem_filter.mp hm).2

theorem collapse_eq (s : State) (ctx d page : Nat) (e : W64) (pa : Nat) (large : Bool) :
    collapse s ctx d page e pa large = postMiss (collapsing s ctx d page e pa large) ctx (collapseRecord s d e) := by
  obtain ⟨⟨c, x, h⟩, -⟩ := collapsing_spec s ctx d page e pa large
  obtain ⟨m, p, l, hv⟩ := setHomeBytes_frame (leBytes (collapsedLeaf d e).toNat 8) s pa
  have hr : collapseRecord (collapsing s ctx d page e pa large) d e = collapseRecord s d e := by
    rw [h, setHome64, hv]; rfl
  rw [← hr]
  rfl

/-- What a collapse leaves: the writer's copy in the leaf, no translation of the page, and the record that gives the other frames back. -/
theorem collapse_spec (s : State) (ctx d page : Nat) (e : W64) (pa : Nat) (large : Bool) : let root := (s.context ctx).root
    let u := collapse s ctx d page e pa large; let s1 := setHome64 s pa (collapsedLeaf d e); let slot := missSlot s1 ctx
    u.team = s.team ∧ (∀ ck, ∀ t ∈ (u.core ck).tlb, tlbHits ctx page t = false) ∧
    (Apart pa 8 slot 32 → Apart pa 8 (root + 0x24) 4 → Apart slot 32 (root + 0x24) 4 →
      home64 u pa = collapsedLeaf d e ∧ home32 u (root + 0x24) = home32 s1 (root + 0x24) + 1 ∧ homeBytes u slot 32 = collapseRecord s d e) := by
  intro root u s1 slot
  obtain ⟨⟨c, x, h⟩, ht⟩ := collapsing_spec s ctx d page e pa large
  let v := collapsing s ctx d page e pa large
  have hv1 : OnlyMemory s s1 := onlyMemory_setHomeBytes _ s pa
  have hmem : v.mem = s1.mem := by rw [show v = _ from h]
  have hctx : v.contexts = s1.contexts := by rw [show v = _ from h]
  have hroot : (v.context ctx).root = root := by rw [State.context, hctx, hv1.contexts]; rfl
  have htail : home32 v (root + 0x24) = home32 s1 (root + 0x24) := home32_congr fun _ _ => homeByte_congr hmem _
  have hslot : missSlot v ctx = slot := by
    show missSlot v ctx = missSlot s1 ctx
    rw [missSlot, missSlot, recWord_congr hmem hctx, hroot, htail, State.context, hv1.contexts]; rfl
  obtain ⟨m, p, l, hp⟩ := postMiss_frame v ctx (collapseRecord s d e)
  obtain ⟨hother, hrec, hnew⟩ := postMiss_spec v ctx (collapseRecord s d e) (length_missRecord _ _ _ _ _ _ _)
  rw [hroot, hslot] at hother hrec
  rw [hroot, htail] at hnew
  have hu : u = postMiss v ctx (collapseRecord s d e) := collapse_eq s ctx d page e pa large
  rw [hu]
  refine ⟨?_, fun ck => ?_, fun h1 h2 h3 => ⟨?_, hnew, hrec h3⟩⟩
  · rw [hp]
    show v.team = s.team
    rw [show v = _ from h]
    exact hv1.team
  · rw [hp]
    exact ht ck
  · rw [home64_congr (s := v) fun k hk => hother (pa + k) (by rcases h1 with h | h <;> omega) (by rcases h2 with h | h <;> omega),
      home64_congr (s := s1) fun k hk => homeByte_congr hmem _, home64_setHome64]

end Sys2Proof.Machine
end

section
/-! PMAP over the pages of its lanes, and its statuses (R282, R283, R286). -/

open Sys2Proof Sys2Proof.Machine

namespace Sys2Proof.Machine

/-! ### The pages of fault words (R283) -/

/-- Each page of some fault words comes with a fault word of it. -/
theorem mem_faddrPages {t : Team} {lanes : List Nat} {e : Nat × W64} (h : e ∈ faddrPages t lanes) :
    ∃ l ∈ lanes, e.2 = t.faddr l ∧ e.1 = (t.faddr l).toNat / 65536 := by
  obtain ⟨p, hp, rfl⟩ := List.mem_map.mp h
  obtain ⟨l, hl, hlp⟩ := List.mem_map.mp ((mem_distinct p _).mp ((sortAsc_perm _).mem_iff.mp hp))
  have hs : ((lanes.map t.faddr).find? fun f => decide (f.toNat / 65536 = p)).isSome = true :=
    List.find?_isSome.mpr ⟨t.faddr l, List.mem_map.mpr ⟨l, hl, rfl⟩, by simpa using hlp⟩
  obtain ⟨f, hf⟩ := Option.isSome_iff_exists.mp hs
  obtain ⟨j, hj, rfl⟩ := List.mem_map.mp (List.mem_of_find?_eq_some hf)
  refine ⟨j, hj, ?_, ?_⟩
  · dsimp only; rw [hf]; rfl
  · have := List.find?_some hf
    exact (of_decide_eq_true this).symm

/-- PMAP's work on a page leaves the teams and the number of the next operation. -/
theorem pmapPage_kept (s : State) (ctx d page code detail : Nat) : let u := (pmapPage s ctx d page code detail).1
    u.team = s.team ∧ u.nextOp = s.nextOp := by
  have hset : ∀ (u : State) pa bs, (setHomeBytes u pa bs).nextOp = u.nextOp := fun u pa bs => by
    obtain ⟨m, p, l, e⟩ := setHomeBytes_frame bs u pa
    rw [e]
  by_cases h : (code = codeProt ∧ detail ≠ 4) ∨ code = codeWalk
  · rw [pmapPage_refused _ _ _ _ _ _ h]; exact ⟨rfl, rfl⟩
  · push Not at h
    rw [pmapPage_eq h.2 (by tauto)]
    split
    · rename_i e pa large _
      split
      · refine ⟨(collapse_spec s ctx d page e pa large).1, ?_⟩
        obtain ⟨⟨c, x, hc⟩, -⟩ := collapsing_spec s ctx d page e pa large
        rw [collapse_eq, postMiss_eq, setHome32, hset, hset, hc]
        exact hset _ _ _
      · exact ⟨rfl, rfl⟩
    · rename_i e pa _
      split
      · exact ⟨rfl, rfl⟩
      · refine ⟨(lazyMapped_spec s ctx e pa).2.2.1, ?_⟩
        have hz : ∀ (u : State) f, (zeroFrame u f).nextOp = u.nextOp := fun _ _ => rfl
        rw [lazyMapped, hz, setHome32, hset, setHome64, hset]
    · exact ⟨rfl, rfl⟩

theorem pmapPages_kept (ctx d : Nat) (ps : List (Nat × W64)) (s : State) : let u := (pmapPages ctx d ps s).1
    u.team = s.team ∧ u.nextOp = s.nextOp := by
  induction ps generalizing s with
  | nil => exact ⟨rfl, rfl⟩
  | cons p r ih =>
    obtain ⟨h1, h2⟩ := pmapPage_kept s ctx d p.1 (faddrCode p.2) (faddrDetail p.2)
    obtain ⟨h3, h4⟩ := ih (pmapPage s ctx d p.1 (faddrCode p.2) (faddrDetail p.2)).1
    exact ⟨h3.trans h1, h4.trans h2⟩

/-- Pages that are there get status 0, and nothing is done. -/
theorem pmapPages_valid {ctx : Nat} (d : Nat) {s : State} {ps : List (Nat × W64)}
    (h : ∀ p ∈ ps, faddrCode p.2 = codePage ∧ ∃ e pa b, walk s ctx (p.1 * 65536) = .leaf e pa b) :
    pmapPages ctx d ps s = (s, ps.map fun p => (p.1, 0, none)) := by
  induction ps with
  | nil => rfl
  | cons p r ih =>
    obtain ⟨hc, e, pa, b, hw⟩ := h p List.mem_cons_self
    have hp : pmapPage s ctx d p.1 (faddrCode p.2) (faddrDetail p.2) = (s, 0, none) := by
      rw [hc, pmapPage_eq (by decide) (.inl (by decide)), hw]
      exact if_neg (by simp [codePage, codeProt])
    rw [pmapPages, hp]
    dsimp only
    rw [ih fun q hq => h q (List.mem_cons_of_mem _ hq)]
    rfl

/-! ### PMAP (R283) -/

theorem pmap_runs (s : State) (d : BitVec 7) (hr : s.ready (.pmap d)) : let t := s.team; let ctx := t.id.ctx
    isMapped (((recWord s ctx 0).extractLsb' 9 43).toNat * 512) = true →
      (t.lanes = [] → Runs (.pmap d) s s .next) ∧
      (t.lanes ≠ [] → let w := maskWords t.id.width t.eff; let r := pmapPages ctx t.id.die (faddrPages t t.lanes) s
        let status := fun l => ((r.2.find? fun e => e.1 = (t.faddr l).toNat / 65536).map fun e => e.2.1).getD 0
        (∃ vp, Runs (.pmap d) s (r.1.started (.word (.pmap d.toNat w (t.lanes.map fun l => (l, status l)) (r.2.filterMap fun e => e.2.2))) vp t.r.spend) .next ∧
          ∀ q k, k < 32 → smGet 0 vp (q * 32 + k) = if q = d.toNat ∧ k ∈ w then s.nextOp + 1 else smGet 0 t.r.vpend (q * 32 + k)) ∧
        ((∀ l ∈ t.lanes, faddrCode (t.faddr l) = codePage ∧ ∃ e pa b, walk s ctx ((t.faddr l).toNat / 65536 * 65536) = .leaf e pa b) →
          r.1 = s ∧ ∀ l ∈ t.lanes, status l = 0)) := by
  intro t ctx hm
  have he : exec (.pmap d) s = runWord (.pmap d) s _ := show execPmap d s = _ from rfl
  have hroot : ¬(!isMapped (((recWord s ctx 0).extractLsb' 9 43).toNat * 512)) = true := by rw [hm]; exact Bool.false_ne_true
  refine ⟨fun hl => runs_of_ok he hr ((if_neg hroot).trans (if_pos hl)), fun hl => ?_⟩
  intro w r status
  obtain ⟨hteam, hnext⟩ := pmapPages_kept ctx t.id.die (faddrPages t t.lanes) s
  refine ⟨⟨(t.vPend d.toNat 1 w (s.nextOp + 1)).r.vpend, runs_of_ok he hr (((if_neg hroot).trans (if_neg hl)).trans (congrArg ok ?_)), fun q k hk => ?_⟩, fun h => ?_⟩
  · refine (startOp_vPend r.1 _ _ _ _ _).trans ?_
    rw [State.opId, show r.1.nextOp = s.nextOp from hnext, show r.1.team = t from hteam]
  · rw [Team.vPend_at _ _ _ _ _ _ _ (fun _ => maskWords_lt) hk]
    exact if_congr ⟨fun h => ⟨by omega, h.2.2⟩, fun h => ⟨by omega, by omega, h.2⟩⟩ rfl rfl
  · have hv : r = (s, (faddrPages t t.lanes).map fun p => (p.1, 0, none)) := pmapPages_valid _ fun p hp => by
      obtain ⟨l, hl, h1, h2⟩ := mem_faddrPages hp
      rw [h1, h2]
      exact h l hl
    refine ⟨by rw [hv], fun l hl => ?_⟩
    show ((r.2.find? _).map _).getD 0 = 0
    rw [hv, List.find?_map]
    cases (faddrPages t t.lanes).find? _ with
    | none => rfl
    | some p => rfl

/-! ### The statuses arrive (R283, R286) -/

theorem dropClean_list (g : List (Nat × Nat × List Nat)) (s : State) :
    ∃ c d, g.foldl (fun s g => g.2.2.foldl (fun s f => dropClean s f g.2.1) s) s = { s with cores := c, dies := d } :=
  foldl_keeps (fun u : State => ∃ c d, u = { s with cores := c, dies := d }) (fun (s : State) (g : Nat × Nat × List Nat) => g.2.2.foldl (fun s f => dropClean s f g.2.1) s)
    (fun u x ⟨c, d, e⟩ => foldl_keeps (fun u : State => ∃ c d, u = { s with cores := c, dies := d }) (fun s f => dropClean s f x.2.1)
      (fun v f ⟨_, _, e⟩ => by subst e; exact ⟨_, _, rfl⟩) _ _ ⟨c, d, e⟩) _ _ ⟨_, _, rfl⟩

/-- PMAP's statuses of a mask word arrive when nothing uses a collapsed leaf. -/
theorem pmapReturns {s : State} {o : Op} {d : Nat} {left : List Nat} {sts : List (Nat × Nat)} {gone : List (Nat × Nat × List Nat)}
    (ho : s.op s.site.op = some o) (hk : o.kind = .word (.pmap d left sts gone)) (hc : opCurrent s o = true) (ht : loadTurn s o = true)
    (hn : s.site.n ∈ left) :
    (collapseBusy s o gone = true → exec (.loadReturn []) s = .next s) ∧
    (collapseBusy s o gone = false → s.site.n < 32 → ∃ s', exec (.loadReturn []) s = .next s' ∧ s'.mem = s.mem ∧
      smGet 0 (s'.teamAt o.team).r.vpend (d * 32 + s.site.n) = 0 ∧
      ∀ l v, sts.filter (fun e => e.1 / 32 = s.site.n) = [(l, v)] → (s'.teamAt o.team).vNow d l = BitVec.ofNat 32 v) := by
  have he : exec (.loadReturn []) s = .next (returnPmap s o d left sts gone s.site.n) := by
    show execLoadReturn [] s = _
    rw [execLoadReturn, ho]
    dsimp only
    rw [if_neg (not_not_intro (of_decide_eq_true ((Bool.and_eq_true _ _).mp hc).1)), if_neg (by simp [hc, ht]), hk]
    dsimp only
    rw [wordReturn, hk]
  have hl : left.contains s.site.n = true := List.contains_iff_mem.mpr hn
  refine ⟨fun hb => he.trans (congrArg Host.Outcome.next (if_pos (by simp [hb]))), fun hb h32 => ⟨_, he, ?_⟩⟩
  let f : Team → Team := fun t => ((sts.filter fun e => e.1 / 32 = s.site.n).foldl (fun t e => t.setV d e.1 (BitVec.ofNat 32 e.2)) t).vPend d 1 [s.site.n] 0
  let u := gone.foldl (fun s g => g.2.2.foldl (fun s f => dropClean s f g.2.1) s) s
  obtain ⟨c, x, hu⟩ := dropClean_list gone s
  have hr : returnPmap s o d left sts gone s.site.n = settleWords (u.updTeam o.team f) o (left.filter (· ≠ s.site.n)) (.word (.pmap d (left.filter (· ≠ s.site.n)) sts [])) :=
    if_neg (by simp [hb, hn])
  obtain ⟨-, -, ⟨b, hteam⟩, hmem⟩ := settleWords_spec (u.updTeam o.team f) o (left.filter (· ≠ s.site.n)) (.word (.pmap d (left.filter (· ≠ s.site.n)) sts []))
  have hkey : ∀ t, (f t).key = t.key := fun t => by
    show ((sts.filter _).foldl _ t).key = t.key
    exact foldl_same Team.key (fun (t : Team) (e : Nat × Nat) => t.setV d e.1 (BitVec.ofNat 32 e.2)) (fun _ _ => rfl) _ t
  have hown : (u.updTeam o.team f).teamAt o.team = f (u.teamAt o.team) := (u.teamAt_updTeam o.team o.team f hkey).trans (if_pos rfl)
  rw [hr]
  refine ⟨?_, ?_, fun l v hs => ?_⟩
  · rw [hmem, State.updTeam_mem, show u = _ from hu]
  · rw [hteam, hown]
    show smGet 0 (Team.vPend _ d 1 [s.site.n] 0).r.vpend _ = 0
    rw [Team.vPend_at _ _ _ _ _ _ _ (fun j hj => by rw [List.mem_singleton.mp hj]; exact h32) h32]
    exact if_pos ⟨Nat.le_refl d, by omega, List.mem_singleton_self _⟩
  · rw [hteam, hown]
    show smGet 0 (f (u.teamAt o.team)).r.v _ = _
    simp only [f, hs]
    show smGet 0 ((u.teamAt o.team).setV d l (BitVec.ofNat 32 v)).r.v _ = _
    rw [Team.setV_v, smGet_smSet, if_pos rfl]

end Sys2Proof.Machine
end

section
/-! PMISS (R282, R287). -/

open Sys2Proof Sys2Proof.Machine

namespace Sys2Proof.Machine

/-! ### A release is told by memory and the caches -/

/-- Two states hold the same memory and caches, those of the cores among them, with the same fused clusters. -/
def SameCaches (s u : State) : Prop :=
  u.mem = s.mem ∧ u.cores = s.cores ∧ ∀ d, (u.die d).l2 = (s.die d).l2 ∧ (u.die d).fused = (s.die d).fused

theorem SameCaches.core {s u : State} (h : SameCaches s u) (k : Nat) : u.core k = s.core k := by rw [State.core, h.2.1]; rfl

theorem SameCaches.foldl {α : Type} {f : State → α → State} (hf : ∀ s u a, SameCaches s u → SameCaches (f s a) (f u a)) (l : List α) :
    ∀ {s u : State}, SameCaches s u → SameCaches (l.foldl f s) (l.foldl f u) := by
  induction l with
  | nil => exact fun h => h
  | cons a r ih => exact fun h => ih (hf _ _ a h)

theorem SameCaches.setL2 {s u : State} (h : SameCaches s u) (d : Nat) (l : SMap LineCopy) :
    SameCaches (s.setDie d { s.die d with l2 := l }) (u.setDie d { u.die d with l2 := l }) := by
  obtain ⟨hm, hc, hd⟩ := h
  refine ⟨hm, hc, fun x => ?_⟩
  simp only [State.die_setDie]
  split
  · exact ⟨rfl, (hd d).2⟩
  · exact hd x

theorem SameCaches.l2Byte {s u : State} (h : SameCaches s u) (d pa : Nat) (b : Byte) (bad : Bool) : SameCaches (l2Byte d s pa b bad) (l2Byte d u pa b bad) := by
  unfold Machine.l2Byte
  dsimp only
  rw [(h.2.2 d).1]
  exact h.setL2 d _

theorem SameCaches.eachDirty {s u : State} (h : SameCaches s u) (l : LineCopy) (line : Nat) {f : State → Nat → Byte → Bool → State}
    (hf : ∀ {s u : State} pa b bad, SameCaches s u → SameCaches (f s pa b bad) (f u pa b bad)) : SameCaches (eachDirty l line f s) (eachDirty l line f u) :=
  SameCaches.foldl (fun s u k h => by
    split
    · exact hf _ _ _ h
    · exact h) _ h

theorem SameCaches.drainHead {s u : State} (h : SameCaches s u) (d k : Nat) : SameCaches (drainHead s d k) (drainHead u d k) := by
  unfold Machine.drainHead
  dsimp only
  rw [h.core]
  split
  · exact h
  · refine SameCaches.eachDirty ?_ _ _ fun pa b bad h => h.l2Byte d pa b bad
    exact ⟨h.1, by simp only [State.setCore, h.2.1], h.2.2⟩

theorem SameCaches.drainFirst (d k n : Nat) {s u : State} (h : SameCaches s u) : SameCaches (drainFirst d k n s) (drainFirst d k n u) := by
  induction n generalizing s u with
  | zero => exact h
  | succ n ih => exact ih (h.drainHead d k)

theorem SameCaches.drainShared {s u : State} (h : SameCaches s u) (d k : Nat) : SameCaches (drainShared s d k) (drainShared u d k) := by
  have hf : l1Sharers u d k = l1Sharers s d k := by
    simp only [l1Sharers, fusedCluster, (h.2.2 d).2]
    rfl
  unfold Machine.drainShared
  rw [hf]
  refine SameCaches.foldl (fun s u j h => ?_) _ h
  unfold drainWb
  rw [h.core]
  exact h.drainFirst d j _

theorem SameCaches.writeBackLine {s u : State} (h : SameCaches s u) (d line : Nat) : SameCaches (writeBackLine s d line) (writeBackLine u d line) := by
  unfold Machine.writeBackLine
  dsimp only
  rw [(h.2.2 d).1]
  exact (h.setL2 d _).eachDirty _ _ fun pa b bad h => ⟨by simp only [backByte, h.1], h.2⟩

theorem SameCaches.writeBackL2 {s u : State} (h : SameCaches s u) (d : Nat) : SameCaches (writeBackL2 s d) (writeBackL2 u d) := by
  unfold Machine.writeBackL2
  rw [(h.2.2 d).1]
  exact SameCaches.foldl (fun s u e h => h.writeBackLine d e.1) _ h

theorem sameCaches_flushTeam (s : State) (d key : Nat) (p : Nat → Bool) : SameCaches s (flushTeam s d key p) := by
  obtain ⟨x, e⟩ := flushTeam_frame s d key p
  rw [e]
  refine ⟨rfl, rfl, fun y => ?_⟩
  rw [State.setSpin, State.die_setDie]
  split
  · rename_i h; rw [h]; exact ⟨rfl, rfl⟩
  · exact ⟨rfl, rfl⟩

/-- A release at PKG or beyond leaves memory and caches alike in two states that have them alike. -/
theorem SameCaches.releaseAt {s u : State} (h : SameCaches s u) (d k : Nat) {sc : Nat} (hs : 4 ≤ sc) : SameCaches (releaseAt s d k sc) (releaseAt u d k sc) := by
  rw [releaseAt_pkg _ _ _ _ hs, releaseAt_pkg _ _ _ _ hs]
  exact (h.drainShared d k).writeBackL2 d

/-! ### The release of each record (R287, R447) -/

/-- Buffers that depart keep their items. -/
theorem spindleCount_flushTeam (s : State) (d key : Nat) (p q : Nat → Bool) : spindleCount (flushTeam s d key p) d key q = spindleCount s d key q := by
  have hs : (flushTeam s d key p).spin d = { s.spin d with bufs := (s.spin d).bufs.map fun b => if b.of key && p b.dest then { b with departing := true } else b } := by
    show (State.die (s.setDie d _) d).spindle = _
    rw [State.die_setDie, if_pos rfl]
  simp only [spindleCount, hs, List.map_map]
  congr 2
  refine List.map_congr_left fun b _ => ?_
  simp only [Function.comp]
  split <;> rfl

/-- A release at SYS by a team with no access and no element in flight goes on at once. -/
theorem withRelease_sys {s : State} (k : State → Res) (hb : memBusy s s.team.key = false)
    (hc : spindleCount s s.team.id.die s.team.key (fun _ => true) = 0) : withRelease s 6 k =
      k (releaseAt (flushTeam s s.team.id.die s.team.key fun _ => true) s.team.id.die s.team.id.core 6) := by
  have hm : s.meant s.team.key 6 = 6 := rfl
  rw [withRelease_eq, hm, if_neg (by rw [hb]; exact Bool.false_ne_true), if_pos (show 5 ≤ 6 by decide), spindleCount_flushTeam, hc, if_neg fun h => h.2 rfl]

theorem SchedOnly.memBusy {u s : State} (h : SchedOnly u s) (ho : u.ops = s.ops) (key : Nat) : memBusy u key = memBusy s key := by
  unfold Machine.memBusy
  rw [ho]
  congr 1
  funext o
  obtain ⟨w, e⟩ := h o.team
  obtain ⟨w', e'⟩ := h key
  rw [waitsCommit, waitsCommit, e, e']
  rfl

/-! ### The pages of PMISS (R287) -/

/-- The state with how far the words that wait have come replaced, that of PMISS's records kept. -/
def OnlyArrived (s u : State) : Prop :=
  ∃ a, u = s.mapTeam (fun t => { t with sched := { t.sched with arrived := a } }) ∧ smGet none a 3 = s.team.arr 3

theorem missKind_mapTeam (s : State) (f : Team → Team) (ctx p : Nat) : missKind (s.mapTeam f) ctx p = missKind s ctx p := by
  rw [missKind, walk_congr (u := s.mapTeam f) (s := s) rfl rfl rfl, missKind]

theorem missKind_leaf {s : State} {ctx p : Nat} (h : ∃ e pa b, walk s ctx (p * 65536) = .leaf e pa b) : missKind s ctx p = none := by
  obtain ⟨e, pa, b, h⟩ := h
  rw [missKind, h]

/-- Pages that are there are passed over. -/
theorem pmissPages_valid (words : List W64) (fin : State → Res) (ps : List Nat) (k : Nat) (s : State) (h : ∀ p ∈ ps, missKind s s.team.id.ctx p = none) :
    ∃ u, OnlyArrived s u ∧ pmissPages words fin k ps s = fin u := by
  induction ps generalizing k s with
  | nil => exact ⟨s, ⟨s.team.sched.arrived, rfl, rfl⟩, rfl⟩
  | cons p r ih =>
    let s1 := s.mapTeam fun t => t.setArr 1 (some k)
    obtain ⟨u, ⟨a, hu, ha⟩, he⟩ := ih (k + 1) s1 fun q hq => (missKind_mapTeam s _ _ q).trans (h q (List.mem_cons_of_mem _ hq))
    refine ⟨u, ⟨a, hu, ha.trans ?_⟩, ?_⟩
    · exact (smGet_smSet none s.team.sched.arrived 1 (some k) 3).trans (if_neg (by decide))
    · rw [pmissPages, show missKind (s.mapTeam fun t => t.setArr 1 (some k)) (s.mapTeam fun t => t.setArr 1 (some k)).team.id.ctx p = none from (missKind_mapTeam s _ _ p).trans (h p List.mem_cons_self)]
      exact he

/-- The pages of words that are all of one page. -/
theorem onePage {words : List W64} {p : Nat} (hne : words ≠ []) (h : ∀ f ∈ words, f.toNat / 65536 = p) :
    sortAsc (distinct (words.map fun f => f.toNat / 65536)) = [p] := by
  have hd : ∀ l : List Nat, l ≠ [] → (∀ x ∈ l, x = p) → distinct l = [p] := by
    intro l
    induction l with
    | nil => exact fun h => absurd rfl h
    | cons x r ih =>
      intro _ hx
      obtain rfl := hx x List.mem_cons_self
      cases r with
      | nil => rfl
      | cons y q =>
        have hy := hx y (by simp)
        have hr := ih (by simp) fun z hz => hx z (List.mem_cons_of_mem _ hz)
        rw [distinct, if_pos (by simp [hy]), hr]
  rw [hd _ (by simpa using hne) fun x hx => by
    obtain ⟨f, hf, rfl⟩ := List.mem_map.mp hx
    exact h f hf]
  rfl

/-! ### The end of PMISS (R287) -/

/-- With no record posted PMISS has no further effect. -/
theorem endPmiss_none {s : State} (h : s.team.posted = 0) : endPmiss s = ok (s.mapTeam fun t => (t.setArr 1 none).setArr 3 none) := by
  simp [endPmiss, h]

/-- With records posted the crew is saved, and waits for as many pages. -/
theorem endPmiss_saves {s : State} (h : s.team.posted ≠ 0) (hc : crewPosted s s.team.id.crew ≠ 0) : ∃ u, endPmiss s = ok u ∧ u.mem = s.mem ∧
    u.team.r = s.team.r ∧ (u.crew s.team.id.crew).state = .saving ∧ (u.crew s.team.id.crew).missing = crewPosted s s.team.id.crew := by
  let c := s.team.id.crew
  let v := s.mapTeam fun t => (t.setArr 1 none).setArr 3 none
  let w := (v.setCrew c { v.crew c with missing := crewPosted s c })
  have he : endPmiss s = ok (beginSave w c) := by simp [endPmiss, h, hc, w, v, c]
  obtain ⟨k, p, hm⟩ := mapRows_frame (w.setCrew c { w.crew c with state := .saving }) c fun r => { r with state := 3 }
  have hcrew : (beginSave w c).crew c = { w.crew c with state := .saving } := by rw [beginSave, mapRows_crew, State.crew_setCrew, if_pos rfl]
  refine ⟨_, he, ?_, ?_, by rw [hcrew], by rw [hcrew]; show (w.crew c).missing = _; rw [State.crew_setCrew, if_pos rfl]⟩
  · rw [beginSave, hm]; rfl
  · rw [beginSave, hm]; rfl

/-- Live teams are told by the teams' identities. -/
theorem liveTeams_congr {s u : State} (hid : u.team.id = s.team.id) (ho : u.others = s.others) (c : Nat) : u.liveTeams c = s.liveTeams c := by
  simp only [State.liveTeams, State.aliveKeys, Team.key, hid, ho]
  rfl

/-- A live team is among its crew's. -/
theorem own_mem_liveTeams {s : State} (ha : s.team.id.alive = true) (ht : s.team.id.tno < 16) : s.team.id.tno ∈ s.liveTeams s.team.id.crew := by
  refine List.mem_map.mpr ⟨s.team.key, List.mem_filter.mpr ⟨?_, ?_⟩, ?_⟩
  · exact List.mem_append_left _ (by rw [if_pos ha]; exact List.mem_singleton_self _)
  · exact decide_eq_true (by simp only [Team.key, teamKey]; omega)
  · simp only [Team.key, teamKey]; omega

/-- A list of numbers that are 0 but for the one of a place in it. -/
theorem sum_single {l : List Nat} (hn : l.Nodup) {a : Nat} (ha : a ∈ l) (g : Nat → Nat) (hg : ∀ n ∈ l, n ≠ a → g n = 0) :
    (l.map g).foldl (· + ·) 0 = g a := by
  rw [← List.sum_eq_foldl, ← List.sum_toFinset g hn]
  exact Finset.sum_eq_single a (fun b hb => hg b (List.mem_toFinset.mp hb)) fun h => absurd (List.mem_toFinset.mpr ha) h

/-- The records of a crew whose other teams have posted none are those of the team that issues. -/
theorem crewPosted_own {s : State} (ha : s.team.id.alive = true) (ht : s.team.id.tno < 16) (hn : (s.liveTeams s.team.id.crew).Nodup)
    (ho : ∀ n ∈ s.liveTeams s.team.id.crew, n ≠ s.team.id.tno → (s.teamAt (teamKey s.team.id.crew n)).posted = 0) :
    crewPosted s s.team.id.crew = s.team.posted := by
  rw [crewPosted, sum_single hn (own_mem_liveTeams ha ht) _ ho]
  exact congrArg Team.posted (teamAt_own s)

/-! ### PMISS (R287) -/

/-- A miss record's memory is told by the memory it is posted in and the contexts. -/
theorem setHomeBytes_mem_congr {s u : State} (h : u.mem = s.mem) (pa : Nat) (bs : List Byte) : (setHomeBytes u pa bs).mem = (setHomeBytes s pa bs).mem := by
  induction bs generalizing s u pa with
  | nil => exact h
  | cons b r ih => exact ih (by simp only [setHomeByte, h]) _

theorem postMiss_mem_congr {s u : State} (hm : u.mem = s.mem) (hc : u.contexts = s.contexts) (ctx : Nat) (bs : List Byte) :
    (postMiss u ctx bs).mem = (postMiss s ctx bs).mem := by
  have hroot : (u.context ctx).root = (s.context ctx).root := by rw [State.context, hc]; rfl
  have ht : ∀ a, home32 u a = home32 s a := fun a => home32_congr fun _ _ => homeByte_congr hm _
  rw [postMiss_eq, postMiss_eq, missSlot, missSlot, recWord_congr hm hc, hroot, ht]
  exact setHomeBytes_mem_congr (setHomeBytes_mem_congr hm _ _) _ _

/-- PMISS that has not waited yet goes over the pages of its fault words. -/
theorem pmiss_starts (s : State) (ha : s.team.arr 1 = none) : let t := s.team; let words := (lanesOf t.id.width t.mSrc).map t.faddr
    ∃ f, exec .pmiss s = runWord .pmiss s f ∧ f s = pmissPages words endPmiss 0 (sortAsc (distinct (words.map fun f => f.toNat / 65536))) s := by
  intro t words
  refine ⟨_, show execPmiss s = _ from rfl, ?_⟩
  dsimp only
  rw [ha]
  rfl

/-- PMISS with no page unresolved does nothing. -/
theorem pmiss_nothing (s : State) (hr : s.ready .pmiss) (h1 : s.team.arr 1 = none) (h3 : s.team.arr 3 = none) : let t := s.team
    (∀ l ∈ lanesOf t.id.width t.mSrc, ∃ e pa b, walk s t.id.ctx ((t.faddr l).toNat / 65536 * 65536) = .leaf e pa b) →
      ∃ s1, Runs .pmiss s s1 .next ∧ s1.mem = s.mem ∧ s1.team.r = t.r ∧ (s1.crew t.id.crew).state = (s.crew t.id.crew).state := by
  intro t h
  obtain ⟨f, he, hf⟩ := pmiss_starts s h1
  obtain ⟨u, ⟨a, hu, ha⟩, hp⟩ := pmissPages_valid ((lanesOf t.id.width t.mSrc).map t.faddr) endPmiss
    (sortAsc (distinct (((lanesOf t.id.width t.mSrc).map t.faddr).map fun f => f.toNat / 65536))) 0 s fun p hp => by
      obtain ⟨w, hw, rfl⟩ := List.mem_map.mp ((mem_distinct p _).mp ((sortAsc_perm _).mem_iff.mp hp))
      obtain ⟨l, hl, rfl⟩ := List.mem_map.mp hw
      exact missKind_leaf (h l hl)
  have hposted : u.team.posted = 0 := by
    rw [Team.posted, Team.arr, hu]
    show (smGet none a 3).getD 0 = 0
    rw [ha, h3]; rfl
  refine ⟨_, runs_of_ok he hr ((hf.trans hp).trans (endPmiss_none hposted)), ?_, ?_, ?_⟩ <;> rw [hu] <;> rfl

/-- The record that PMISS posts of a page that all of its fault words name. -/
theorem pageRecord_all {s u : State} (hu : u.crew u.team.id.crew = s.crew s.team.id.crew) {words : List W64} {p : Nat} (kind : Nat) (hne : words ≠ [])
    (h : ∀ f ∈ words, f.toNat / 65536 = p) : let cr := s.crew s.team.id.crew
    let flags := (if words.any (·.getLsbD 4) then 1 else 0) + if words.any (·.getLsbD 5) then 2 else 0
    pageRecord u words p kind = leBytes (p * 65536) 8 ++ leBytes cr.handle 4 ++ leBytes cr.crewno 4 ++
      [BitVec.ofNat 8 kind, BitVec.ofNat 8 flags] ++ List.replicate 14 0 := by
  intro cr flags
  have hall : (words.filter fun f => decide (f.toNat / 65536 = p)) = words := List.filter_eq_self.mpr fun f hf => decide_eq_true (h f hf)
  obtain ⟨f, hf⟩ := List.exists_mem_of_ne_nil words hne
  have hp : p * 65536 < 2 ^ 64 := by
    have := f.isLt
    have := h f hf
    omega
  rw [pageRecord, hall, hu]
  show leBytes (BitVec.ofNat 64 (p * 65536)).toNat 8 ++ _ ++ _ ++ _ ++ _ = _
  rw [BitVec.toNat_ofNat, Nat.mod_eq_of_lt hp]
  rfl

theorem postMiss_kept (s : State) (ctx : Nat) (bs : List Byte) : (postMiss s ctx bs).team = s.team ∧ (postMiss s ctx bs).others = s.others := by
  obtain ⟨m, p, l, e⟩ := postMiss_frame s ctx bs
  rw [e]
  exact ⟨rfl, rfl⟩

/-- The end of PMISS, after a release that went on and the one record that it posted: the crew is saved. -/
theorem endPmiss_posted {s v : State} (hteam : v.team = s.team.setArr 1 (some 0)) (hothers : v.others = s.others) (h3 : s.team.arr 3 = none)
    (ha : s.team.id.alive = true) (ht : s.team.id.tno < 16) (hn : (s.liveTeams s.team.id.crew).Nodup)
    (ho : ∀ n ∈ s.liveTeams s.team.id.crew, n ≠ s.team.id.tno → (s.teamAt (teamKey s.team.id.crew n)).posted = 0) (ctx : Nat) (bs : List Byte) :
    ∃ u, endPmiss ((postMiss v ctx bs).mapTeam fun t => t.setArr 3 (some (t.posted + 1))) = ok u ∧ u.mem = (postMiss v ctx bs).mem ∧
      u.team.r = s.team.r ∧ (u.crew s.team.id.crew).state = .saving ∧ (u.crew s.team.id.crew).missing = 1 := by
  obtain ⟨hpt, hpo⟩ := postMiss_kept v ctx bs
  have h0 : (s.team.setArr 1 (some 0)).posted = 0 := by
    have : (s.team.setArr 1 (some 0)).arr 3 = s.team.arr 3 := (smGet_smSet none s.team.sched.arrived 1 (some 0) 3).trans (if_neg (by decide))
    rw [Team.posted, this, h3]; rfl
  generalize hx : postMiss v ctx bs = x at hpt hpo
  let w := x.mapTeam fun t => t.setArr 3 (some (t.posted + 1))
  have hwt : w.team = (s.team.setArr 1 (some 0)).setArr 3 (some 1) := by
    show x.team.setArr 3 (some (x.team.posted + 1)) = _
    rw [hpt, hteam, h0]
  have hid : w.team.id = s.team.id := by rw [hwt]; rfl
  have hwo : w.others = s.others := hpo.trans hothers
  have hposted : w.team.posted = 1 := by rw [hwt, Team.posted, Team.arr_setArr]; rfl
  have hlive := liveTeams_congr hid hwo s.team.id.crew
  have hown : crewPosted w w.team.id.crew = 1 := by
    rw [crewPosted_own (by rw [hid]; exact ha) (by rw [hid]; exact ht) (by rw [hid, hlive]; exact hn), hposted]
    rw [hid, hlive]
    intro n hn hne
    have e : w.teamAt (teamKey s.team.id.crew n) = s.teamAt (teamKey s.team.id.crew n) := by
      have hkey : teamKey s.team.id.crew n ≠ s.team.key := by simp only [Team.key, teamKey]; omega
      have hwk : w.team.key = s.team.key := by rw [Team.key, hid]; rfl
      rw [State.teamAt, State.teamAt, hwk, if_neg hkey, if_neg hkey, hwo]
    rw [e]
    exact ho n hn hne
  obtain ⟨u, hu, hmem, hreg, hstate, hmissing⟩ := endPmiss_saves (by rw [hposted]; decide) (by rw [hown]; decide)
  rw [hown] at hmissing
  rw [hid] at hstate hmissing
  exact ⟨u, hu, hmem, by rw [hreg, hwt]; rfl, hstate, hmissing⟩

section
variable {s : State} (h1 : s.team.arr 1 = none) {p kind : Nat}
  (hne : lanesOf s.team.id.width s.team.mSrc ≠ []) (hp : ∀ l ∈ lanesOf s.team.id.width s.team.mSrc, (s.team.faddr l).toNat / 65536 = p)
  (hk : missKind s s.team.id.ctx p = some kind)
include h1 hne hp hk

/-- PMISS with one page unresolved, as it comes to the record. -/
theorem pmiss_one : let t := s.team; let words := (lanesOf t.id.width t.mSrc).map t.faddr; let s' := s.mapTeam fun t => t.setArr 1 (some 0)
    ∃ f, exec .pmiss s = runWord .pmiss s f ∧ f s = if !missRoom s t.id.ctx then .block s' .missRing else
      withRelease s' 6 fun s => endPmiss ((postMiss s s.team.id.ctx (pageRecord s words p kind)).mapTeam fun t => t.setArr 3 (some (t.posted + 1))) := by
  intro t words s'
  obtain ⟨f, he, hf⟩ := pmiss_starts s h1
  refine ⟨f, he, hf.trans ?_⟩
  rw [onePage (by simpa using hne) fun w hw => by obtain ⟨l, hl, rfl⟩ := List.mem_map.mp hw; exact hp l hl, pmissPages,
    show missKind (s.mapTeam fun t => t.setArr 1 (some 0)) (s.mapTeam fun t => t.setArr 1 (some 0)).team.id.ctx p = some kind from
      (missKind_mapTeam s _ _ p).trans hk]
  rfl

theorem pmiss_full (hr : s.ready .pmiss) (hm : missRoom s s.team.id.ctx = false) : ∃ s1, Waits .pmiss s s1 .missRing ∧ s1.mem = s.mem ∧ s1.team.r = s.team.r := by
  obtain ⟨f, he, hf⟩ := pmiss_one h1 hne hp hk
  exact ⟨_, waits_of_block he hr (hf.trans (if_pos (by rw [hm]; rfl))), rfl, rfl⟩

theorem pmiss_posts (hr : s.ready .pmiss) (h3 : s.team.arr 3 = none) (hm : missRoom s s.team.id.ctx = true) (hb : memBusy s s.team.key = false)
    (hc : spindleCount s s.team.id.die s.team.key (fun _ => true) = 0) (ha : s.team.id.alive = true) (ht : s.team.id.tno < 16)
    (hn : (s.liveTeams s.team.id.crew).Nodup)
    (ho : ∀ n ∈ s.liveTeams s.team.id.crew, n ≠ s.team.id.tno → (s.teamAt (teamKey s.team.id.crew n)).posted = 0) : let t := s.team
    let cr := s.crew t.id.crew; let words := (lanesOf t.id.width t.mSrc).map t.faddr
    let flags := (if words.any (·.getLsbD 4) then 1 else 0) + if words.any (·.getLsbD 5) then 2 else 0
    ∃ s1, Runs .pmiss s s1 .next ∧ s1.team.r = t.r ∧ (s1.crew t.id.crew).state = .saving ∧ (s1.crew t.id.crew).missing = 1 ∧
      s1.mem = (postMiss (s.releaseTeam 6) t.id.ctx (leBytes (p * 65536) 8 ++ leBytes cr.handle 4 ++ leBytes cr.crewno 4 ++
        [BitVec.ofNat 8 kind, BitVec.ofNat 8 flags] ++ List.replicate 14 0)).mem := by
  intro t cr words flags
  obtain ⟨f, he, hf⟩ := pmiss_one h1 hne hp hk
  let s' := s.mapTeam fun t => t.setArr 1 (some 0)
  let b := flushTeam s' t.id.die t.key fun _ => true
  let v := releaseAt b t.id.die t.id.core 6
  have hbusy : memBusy s' s'.team.key = false := ((schedOnly_mapTeam s 1 (some 0)).memBusy rfl _).trans hb
  rw [if_neg (by rw [hm]; exact Bool.false_ne_true), withRelease_sys _ hbusy hc] at hf
  have hv : OnlyMemory b v := onlyMemory_releaseAt b _ _ _
  have hteam : v.team = s.team.setArr 1 (some 0) := hv.team
  have hrec := pageRecord_all (s := s) (u := v) (words := words) (p := p) (by rw [hteam]; exact hv.crew _) kind (by simpa [words] using hne)
    fun w hw => by obtain ⟨l, hl, rfl⟩ := List.mem_map.mp hw; exact hp l hl
  rw [show (releaseAt (flushTeam s' s'.team.id.die s'.team.key fun _ => true) s'.team.id.die s'.team.id.core 6) = v from rfl, hteam, hrec] at hf
  obtain ⟨u, hu, hmem, hreg, hstate, hmissing⟩ := endPmiss_posted hteam hv.others h3 ha ht hn ho t.id.ctx (leBytes (p * 65536) 8 ++ leBytes cr.handle 4 ++
    leBytes cr.crewno 4 ++ [BitVec.ofNat 8 kind, BitVec.ofNat 8 flags] ++ List.replicate 14 0)
  have hvm : v.mem = (s.releaseTeam 6).mem := by
    rw [releaseTeam_eq, show s.meant s.team.key 6 = 6 from rfl]
    have hb : SameCaches s b := sameCaches_flushTeam s' t.id.die t.key fun _ => true
    exact (hb.releaseAt t.id.die t.id.core (show 4 ≤ 6 by decide)).1
  exact ⟨u, runs_of_ok he hr (hf.trans hu), hreg, hstate, hmissing,
    hmem.trans (postMiss_mem_congr hvm (hv.contexts.trans (onlyMemory_releaseTeam s 6).contexts.symm) _ _)⟩

end

/-- The low bytes of a number are those of its remainder. -/
theorem leBytes_mod (v n : Nat) : leBytes (v % 2 ^ (8 * n)) n = leBytes v n := by
  induction n generalizing v with
  | zero => rfl
  | succ n ih =>
    have h2 : 2 ^ (8 * (n + 1)) = 256 * 2 ^ (8 * n) := by
      rw [Nat.mul_add, pow_add, Nat.mul_comm]
      rfl
    have hd : v % (256 * 2 ^ (8 * n)) / 256 = v / 256 % 2 ^ (8 * n) := Nat.mod_mul_right_div_self v 256 _
    have hb : BitVec.ofNat 8 (v % (256 * 2 ^ (8 * n))) = BitVec.ofNat 8 v := BitVec.eq_of_toNat_eq (by simp)
    rw [leBytes, leBytes, h2, hd, hb, ih]

theorem collapseRecord_eq (s : State) (d : Nat) (e : W64) : collapseRecord s d e =
    leBytes ((otherFrames d e).headD 0) 8 ++ leBytes (s.crew s.team.id.crew).handle 4 ++ leBytes 0 4 ++ [3, 0x30] ++ List.replicate 14 0 := by
  have h : leBytes (BitVec.ofNat 64 ((otherFrames d e).headD 0)).toNat 8 = leBytes ((otherFrames d e).headD 0) 8 := by
    rw [BitVec.toNat_ofNat]
    exact leBytes_mod _ 8
  rw [collapseRecord, missRecord, h]
  rfl

/-- A leaf replaced leaves where a context's record is. -/
theorem missSlot_setHome64 (s : State) (pa ctx : Nat) (v : W64) : let s1 := setHome64 s pa v; let w := recWord s1 ctx 0x18
    missSlot s1 ctx = (w.extractLsb' 5 47).toNat * 32 + (home32 s1 ((s.context ctx).root + 0x24)).toNat % 2 ^ (w.extractLsb' 59 5).toNat * 32 := by
  intro s1 w
  have hc : s1.contexts = s.contexts := (onlyMemory_setHomeBytes _ s pa).contexts
  have h : (s1.context ctx).root = (s.context ctx).root := by rw [State.context, hc]; rfl
  rw [missSlot, h]

theorem pmapRd_lanes (d : BitVec 7) : LaneWord (.pmapRd d) d.toNat 2 (fun m l => (m.faddr l).toNat) fun _ _ => 0 :=
  vecWord_lane _ _ _ (fun m l => ((m.faddr l).toNat, 0)) fun _ => rfl

/-- Settles O34: each word by its work on the pages; a page by what its walk finds. -/
theorem translationHandlerWords : Obligations.TranslationHandlerWords := by
  unfold Obligations.TranslationHandlerWords
  refine ⟨⟨pmapRd_lanes, ?_⟩, ?_⟩
  · intro s t ctx cr
    refine ⟨fun d hr hm => pmap_runs s d hr hm, fun o d left sts gone ho hk hc ht hn => pmapReturns ho hk hc ht hn, fun hr h1 h3 => ⟨pmiss_nothing s hr h1 h3, ?_⟩⟩
    intro p kind hne hp hk
    exact ⟨pmiss_full h1 hne hp hk hr, pmiss_posts h1 hne hp hk hr h3⟩
  · intro s ctx d page code detail root r apart
    refine ⟨pmapPage_refused s ctx d page code detail, fun hc hd => ?_⟩
    have he : r = _ := pmapPage_eq hc hd
    refine ⟨fun e pa b hw h => ?_, fun hl hz => ?_, fun e pa hw => ?_, fun e pa b hw hcode h2 => ?_⟩
    · rw [he, hw]
      exact if_neg (by simpa using fun x => h.resolve_left (not_not_intro x))
    · rw [he]
      cases hw : walk s ctx (page * 65536) with
      | leaf e pa b => exact absurd hw (hl e pa b)
      | lazyLeaf e pa => exact absurd hw (hz e pa)
      | _ => rfl
    · rw [hw] at he
      intro head
      refine ⟨fun h => he.trans (if_pos h), fun h => ?_⟩
      have hr : r = (lazyMapped s ctx e pa, 0, none) := he.trans (if_neg h)
      rw [hr]
      exact ⟨rfl, lazyMapped_spec s ctx e pa⟩
    · rw [hw] at he
      have hr : r = (collapse s ctx d page e pa b, 0, some ((leafPages page b).1, (leafPages page b).2, otherFrames d e)) :=
        he.trans (if_pos (by simp [hcode, h2]))
      intro own others leaf s1 w tail slot
      obtain ⟨hteam, htlb, hplaces⟩ := collapse_spec s ctx d page e pa b
      have hs : missSlot s1 ctx = slot := missSlot_setHome64 s pa ctx leaf
      rw [show missSlot (setHome64 s pa (collapsedLeaf d e)) ctx = slot from hs] at hplaces
      rw [hr]
      refine ⟨?_, hteam, htlb, ?_⟩
      · cases b <;> rfl
      · intro h1 h2 h3
        obtain ⟨hleaf, htail, hslot⟩ := hplaces h1 h2 h3
        rw [collapseRecord_eq] at hslot
        exact ⟨hleaf, htail, hslot⟩

end Sys2Proof.Machine
end

section
/-! SUPPORT. Which outcomes keep memory canonical: the rules for results of every kind (R242). Memory is written by few operations, byte by byte
through `smSet`; every other function of the model is built of these and of changes elsewhere, so that its own lemma, `<function>_memWf` or for
an outcome `<function>_nextWf`, follows its branches and cites the lemmas of the functions it calls. -/

open Sys2Proof Sys2Proof.Machine

namespace Sys2Proof.Machine

/-- An outcome's next state, where it has one, has its memory in canonical form. -/
def NextWf (o : Host.Outcome State Fault Refusal) : Prop := ∀ u, o = .next u → u.memWf

theorem nextWf_next {s : State} (h : s.memWf) : NextWf (.next s) := fun _ e => Host.Outcome.next.inj e ▸ h

theorem nextWf_fault (f : Fault) : NextWf (.fault f) := fun _ e => by cases e

theorem nextWf_refused (r : Refusal) : NextWf (.refused r) := fun _ e => by cases e

/-- What an option holds has a property. -/
def OptAll {α : Type} (P : α → Prop) (o : Option α) : Prop := ∀ u, o = some u → P u

theorem optAll_none {α : Type} (P : α → Prop) : OptAll P none := fun _ e => by cases e

theorem optAll_some {α : Type} {P : α → Prop} {x : α} (h : P x) : OptAll P (some x) := fun _ e => Option.some.inj e ▸ h

/-- A word answers a state with canonical memory when its own effect does. -/
theorem runWord_nextWf {i : Instr} {s : State} {f : State → Res} (h : s.memWf) (hf : (f s).all State.memWf) : NextWf (runWord i s f) :=
  fun _ e => runWord_memWf h hf e

theorem memWf_of_mem {s u : State} (e : u.mem = s.mem) (h : s.memWf) : u.memWf := by rw [State.memWf, e]; exact h

theorem memWf_of_fst {α : Type} {p : State × α} {u : State} {x : α} (h : p.1.memWf) (e : p = (u, x)) : u.memWf := by rw [e] at h; exact h

theorem optAll_map {α β : Type} {P : β → Prop} {f : α → β} {o : Option α} (h : ∀ x, P (f x)) : OptAll P (o.map f) := fun u e => by
  obtain ⟨x, -, rfl⟩ := Option.map_eq_some_iff.mp e
  exact h x

theorem optAll_map_of {α β : Type} {P : α → Prop} {Q : β → Prop} {f : α → β} {o : Option α} (ho : OptAll P o) (h : ∀ x, P x → Q (f x)) :
    OptAll Q (o.map f) := fun u e => by
  obtain ⟨x, hx, rfl⟩ := Option.map_eq_some_iff.mp e
  exact h x (ho x hx)

theorem optAll_bind {α β : Type} {P : β → Prop} {f : α → Option β} {o : Option α} (h : ∀ x, OptAll P (f x)) : OptAll P (o.bind f) := fun u e => by
  obtain ⟨x, -, hx⟩ := Option.bind_eq_some_iff.mp e
  exact h x u hx

theorem optAll_orElse {α : Type} {P : α → Prop} {o : Option α} {f : Unit → Option α} (ho : OptAll P o) (hf : OptAll P (f ())) : OptAll P (o.orElse f) := by
  cases o with
  | none => exact hf
  | some x => exact ho

theorem optAll_getD {α : Type} {P : α → Prop} {o : Option α} {d : α} (ho : OptAll P o) (hd : P d) : P (o.getD d) := by
  cases o with
  | none => exact hd
  | some x => exact ho x rfl

theorem memWf_of_next {o : Host.Outcome State Fault Refusal} {u : State} (h : NextWf o) (e : o = .next u) : u.memWf := h u e

theorem memWf_of_some {o : Option State} {u : State} (h : OptAll State.memWf o) (e : o = some u) : u.memWf := h u e

theorem memWf_of_some_fst {α : Type} {o : Option (State × α)} {u : State} {x : α} (h : OptAll (fun p => State.memWf p.1) o) (e : o = some (u, x)) : u.memWf :=
  h _ e

theorem memWf_of_trap {r : Res} {u : State} {i : TrapInfo} (h : r.all State.memWf) (e : r = .trap u i) : u.memWf := by rw [e] at h; exact h

/-! Changes of fields other than memory, for a state that is not spelt out. -/

theorem progress_memWf {s : State} {n : Nat} (h : s.memWf) : State.memWf { s with progress := n } := h

theorem nextOp_memWf {s : State} {n : Nat} (h : s.memWf) : State.memWf { s with nextOp := n } := h

theorem fresh_memWf {s : State} {n : Nat} (h : s.memWf) : State.memWf { s with fresh := n } := h

theorem rrc_memWf {s : State} {m : SMap LineCopy} {n : Nat} (h : s.memWf) : State.memWf { s with rrc := m, fresh := n } := h

theorem ops_memWf {s : State} {l : List Op} (h : s.memWf) : State.memWf { s with ops := l } := h

theorem teams_memWf {s : State} {l : SMap Team} {t : Team} (h : s.memWf) : State.memWf { s with others := l, team := t } := h

theorem events_memWf {s : State} {m : SMap Event} {n : Nat} (h : s.memWf) : State.memWf { s with events := m, progress := n } := h

theorem ite_memWf {c : Prop} [Decidable c] {s u : State} (hs : s.memWf) (hu : u.memWf) : (if c then s else u).memWf := by
  split
  · exact hs
  · exact hu

/-- A state on which one more operation is done under a condition. -/
theorem then_memWf {c : Prop} [Decidable c] {s u : State} (hf : s.memWf → u.memWf) (h : s.memWf) : (if c then u else s).memWf := ite_memWf (hf h) h

theorem else_memWf {c : Prop} [Decidable c] {s u : State} (hf : s.memWf → u.memWf) (h : s.memWf) : (if c then s else u).memWf := ite_memWf h (hf h)

theorem ite_fst_memWf {α : Type} {c : Prop} [Decidable c] {p q : State × α} (hp : p.1.memWf) (hq : q.1.memWf) : (if c then p else q).1.memWf := by
  split
  · exact hp
  · exact hq

theorem ite_all {c : Prop} [Decidable c] {P : State → Prop} {r q : Res} (hr : r.all P) (hq : q.all P) : (if c then r else q).all P := by
  split
  · exact hr
  · exact hq

/-- A fold whose steps keep memory canonical. -/
theorem foldl_memWf {α : Type} {f : State → α → State} {l : List α} {s : State} (hf : ∀ u a, u.memWf → (f u a).memWf) (h : s.memWf) : (l.foldl f s).memWf :=
  foldl_keeps State.memWf f hf l s h

/-- A fold over states with a value whose steps keep memory canonical. -/
theorem foldl_fst_memWf {α β : Type} {f : State × β → α → State × β} {l : List α} {p : State × β} (hf : ∀ u a, u.1.memWf → (f u a).1.memWf)
    (h : p.1.memWf) : (l.foldl f p).1.memWf :=
  foldl_keeps (fun p : State × β => p.1.memWf) f hf l p h

end Sys2Proof.Machine
end

section
/-! SUPPORT. What the memory hierarchy's operations do to memory: they keep it canonical (R242 to R248, R262, R263). -/

open Sys2Proof Sys2Proof.Machine

namespace Sys2Proof.Machine

theorem State.setDie_memWf {s : State} {d : Nat} {v : Die} (h : s.memWf) : (State.setDie s d v).memWf := h

theorem State.setCore_memWf {s : State} {k : Nat} {v : Core} (h : s.memWf) : (State.setCore s k v).memWf := h

theorem State.setCrew_memWf {s : State} {c : Nat} {v : Crew} (h : s.memWf) : (State.setCrew s c v).memWf := h

theorem fillL2_memWf {s : State} {d line : Nat} (h : s.memWf) : (fillL2 s d line).memWf := ite_memWf h h

theorem eachDirty_memWf {l : LineCopy} {line : Nat} {f : State → Nat → Byte → Bool → State} {s : State} (hf : ∀ u y z w, u.memWf → (f u y z w).memWf) (h : s.memWf) :
    (eachDirty l line f s).memWf :=
  foldl_memWf (fun _ _ hu => ite_memWf (hf _ _ _ _ hu) hu) h

theorem l2Byte_memWf {d : Nat} {s : State} {pa : Nat} {b : Byte} {bad : Bool} (h : s.memWf) : (l2Byte d s pa b bad).memWf := h

theorem drainHead_memWf {s : State} {d k : Nat} (h : s.memWf) : (drainHead s d k).memWf := by
  unfold drainHead
  dsimp only
  split
  · exact h
  · exact eachDirty_memWf (fun _ _ _ _ hu => l2Byte_memWf hu) h

theorem drainFirst_memWf {d k n : Nat} {s : State} (h : s.memWf) : (drainFirst d k n s).memWf := memWf_of_mem (drainFirst_mem _ _ _ _) h

theorem drainWb_memWf {s : State} {d k : Nat} (h : s.memWf) : (drainWb s d k).memWf := drainFirst_memWf h

theorem drainLine_memWf {s : State} {d k line : Nat} (h : s.memWf) : (drainLine s d k line).memWf := drainFirst_memWf h

theorem fillL1_memWf {s : State} {d k line : Nat} (h : s.memWf) : (fillL1 s d k line).memWf :=
  ite_memWf h (fillL2_memWf (foldl_memWf (fun _ _ hu => drainLine_memWf hu) h))

theorem drainOthers_memWf {s : State} {d k line : Nat} (h : s.memWf) : (drainOthers s d k line).memWf :=
  foldl_memWf (fun _ _ hu => ite_memWf hu (drainLine_memWf hu)) h

theorem storeOwn_memWf {s : State} {d k pa : Nat} {b : Byte} (h : s.memWf) : (storeOwn s d k pa b).memWf := ite_memWf h h

theorem storeByte_memWf {s : State} {d k pa : Nat} {b : Byte} (h : s.memWf) : (storeByte s d k pa b).memWf := storeOwn_memWf (drainOthers_memWf h)

theorem storeBytes_memWf {s : State} {d k pa : Nat} {l : List Byte} (h : s.memWf) : (storeBytes s d k pa l).memWf :=
  memWf_of_mem (storeBytes_mem _ _ _ _ _) h

theorem setFusion_memWf {s : State} {d cluster : Nat} {on : Bool} (h : s.memWf) : (setFusion s d cluster on).memWf :=
  ite_memWf h (foldl_memWf (fun _ _ hu => hu) h)

theorem settleFusion_memWf {s : State} {c : Crew} {on : Bool} (h : s.memWf) : (settleFusion s c on).memWf :=
  foldl_memWf (fun _ _ hu => ite_memWf hu (setFusion_memWf hu)) h

theorem dropCopies_memWf {d k : Nat} {s : State} {line : Nat} (h : s.memWf) : (dropCopies d k s line).memWf := h

theorem forgetLine_memWf {s : State} {d k line : Nat} (h : s.memWf) : (forgetLine s d k line).memWf := h

theorem spoilCopy_memWf {s : State} {place : CachePlace} {line : Nat} (h : s.memWf) : (spoilCopy s place line).memWf := by
  unfold spoilCopy
  dsimp only
  split <;> exact h

theorem poisonLine_memWf {s : State} {pa : Nat} (h : s.memWf) : (poisonLine s pa).memWf := by
  unfold poisonLine
  exact h

theorem poisonStore_memWf {s : State} {d k pa : Nat} (h : s.memWf) : (poisonStore s d k pa).memWf :=
  spoilCopy_memWf (spoilCopy_memWf (spoilCopy_memWf h))

end Sys2Proof.Machine
end

section
/-! SUPPORT. Page walks keep memory canonical: they change it in leaves alone (R278 to R280). -/

open Sys2Proof Sys2Proof.Machine

namespace Sys2Proof.Machine

theorem startWalk_memWf {s : State} {d : Nat} (h : s.memWf) : (startWalk s d).memWf := by
  unfold startWalk
  refine ite_memWf h ?_
  dsimp only
  split
  · exact h
  · split <;> exact h

theorem askWalk_memWf {s : State} {ck : Nat} {w : Walk} (h : s.memWf) : (askWalk s ck w).memWf := ite_memWf h (startWalk_memWf h)

theorem dropWalks_memWf {s : State} {ck key : Nat} (h : s.memWf) : (dropWalks s ck key).memWf := h

theorem endWalk_memWf {s : State} {d : Nat} {w : Walk} (h : s.memWf) : (endWalk s d w).memWf := by
  unfold endWalk
  refine startWalk_memWf ?_
  refine memWf_of_mem rfl ?_
  split
  · exact ite_fst_memWf h (markLeaf_memWf _ _ _ _ h)
  · exact h

end Sys2Proof.Machine
end

section
/-! SUPPORT. The operations that words share keep memory canonical: most leave it alone. -/

open Sys2Proof Sys2Proof.Machine

namespace Sys2Proof.Machine

theorem State.setTeamAt_memWf {s : State} {k : Nat} {t : Team} (h : s.memWf) : (State.setTeamAt s k t).memWf := ite_memWf h h

theorem State.updTeam_memWf {s : State} {k : Nat} {f : Team → Team} (h : s.memWf) : (State.updTeam s k f).memWf := State.setTeamAt_memWf h

theorem State.mapTeam_memWf {s : State} {f : Team → Team} (h : s.memWf) : (State.mapTeam s f).memWf := h

theorem State.checkOut_memWf {s : State} {k : Nat} (h : s.memWf) : (State.checkOut s k).memWf := ite_memWf h h

theorem State.killCrew_memWf {s : State} {c cause : Nat} (h : s.memWf) : (State.killCrew s c cause).memWf := h

theorem State.enterHandler_memWf {s : State} {pc : W64} {i : TrapInfo} (h : s.memWf) : (State.enterHandler s pc i).memWf := ite_memWf h h

theorem State.blockOn_memWf {s : State} {w : Wait} (h : s.memWf) : (State.blockOn s w).memWf := h

end Sys2Proof.Machine
end

section
/-! SUPPORT. Spindle buffers, releases and acquires keep memory canonical (R262, R441 to R443). -/

open Sys2Proof Sys2Proof.Machine

namespace Sys2Proof.Machine

theorem exportLine_memWf {s : State} {job line : Nat} (h : s.memWf) : (exportLine s job line).1.memWf := by
  unfold exportLine
  dsimp only
  split
  · exact h
  · split
    · exact h
    · split
      · rename_i e'
        exact (memWf_of_fst (walkAccess_memWf _ _ _ _ _ h) e')
      · rename_i e'
        exact (memWf_of_fst (walkAccess_memWf _ _ _ _ _ h) e')

theorem State.acquireFor_memWf {s : State} {key scope : Nat} (h : s.memWf) : (State.acquireFor s key scope).memWf := acquireAt_memWf _ _ _ _ h

theorem State.releaseFor_memWf {s : State} {key scope : Nat} (h : s.memWf) : (State.releaseFor s key scope).memWf := releaseAt_memWf _ _ _ _ h

theorem State.acquireTeam_memWf {s : State} {scope : Nat} (h : s.memWf) : (State.acquireTeam s scope).memWf := State.acquireFor_memWf h

theorem State.releaseTeam_memWf {s : State} {scope : Nat} (h : s.memWf) : (State.releaseTeam s scope).memWf := State.releaseFor_memWf h

theorem State.setSpin_memWf {s : State} {d : Nat} {x : Spindle} (h : s.memWf) : (State.setSpin s d x).memWf := h

theorem departBufs_memWf {s : State} {d : Nat} {p : SpBuf → Bool} (h : s.memWf) : (departBufs s d p).memWf := h

theorem flushTeam_memWf {s : State} {d key : Nat} {dest : Nat → Bool} (h : s.memWf) : (flushTeam s d key dest).memWf := departBufs_memWf h

theorem evictBuf_memWf {s : State} {d key dest : Nat} (h : s.memWf) : (evictBuf s d key dest).memWf := by
  unfold evictBuf
  refine ite_memWf h ?_
  split
  · exact h
  · exact departBufs_memWf h

theorem clearEvicted_memWf {s : State} {d key : Nat} (h : s.memWf) : (clearEvicted s d key).memWf := ite_memWf h h

theorem departOther_memWf {s : State} {d dest job : Nat} {q : Option Nat} (h : s.memWf) : (departOther s d dest job q).memWf := departBufs_memWf h

theorem spInsert_memWf {s : State} {d dest job : Nat} {i : SpItem} (h : s.memWf) : (spInsert s d dest job i).1.memWf :=
  ite_fst_memWf (State.setSpin_memWf (departOther_memWf h)) (ite_fst_memWf (evictBuf_memWf (departOther_memWf h)) (ite_fst_memWf (departOther_memWf h)
    (State.setSpin_memWf (departOther_memWf h))))

theorem spInsertAll_memWf {d job n : Nat} {l : List (Nat × SpItem)} {s : State} (h : s.memWf) : (spInsertAll d job n l s).1.memWf := by
  induction l generalizing n s with
  | nil =>
    unfold spInsertAll
    exact h
  | cons a l ih =>
    unfold spInsertAll
    split
    · rename_i e
      exact ih (memWf_of_fst (spInsert_memWf h) e)
    · rename_i e
      exact (memWf_of_fst (spInsert_memWf h) e)

theorem relReady_memWf {s : State} {key scope : Nat} (h : s.memWf) : (relReady s key scope).1.memWf := ite_fst_memWf h (flushTeam_memWf h)

theorem State.send_memWf {s : State} {dev : Nat} {m : NetMsg} (h : s.memWf) : (State.send s dev m).memWf := ite_memWf h h

theorem State.sendOn_memWf {s : State} {d dest job : Nat} {m : Nat → NetMsg} (h : s.memWf) : (State.sendOn s d dest job m).memWf := State.send_memWf h

theorem returnResv_memWf {s : State} {key q : Nat} (h : s.memWf) : (returnResv s key q).memWf := by
  unfold returnResv
  dsimp only
  split
  · exact ite_memWf h (State.updTeam_memWf (State.sendOn_memWf h))
  · exact State.updTeam_memWf h

theorem returnAll_memWf {s : State} {key : Nat} (h : s.memWf) : (returnAll s key).memWf := foldl_memWf (fun _ _ hu => returnResv_memWf hu) h

theorem withRelease_memWf {s : State} {scope : Nat} {k : State → Res} (h : s.memWf) (hk : ∀ u, u.memWf → (k u).all State.memWf) :
    (withRelease s scope k).all State.memWf := by
  unfold withRelease
  dsimp only
  split
  · exact h
  · split
    · split
      · exact flushTeam_memWf h
      · exact hk _ (State.releaseTeam_memWf (flushTeam_memWf h))
    · exact hk _ (State.releaseTeam_memWf h)

theorem withAcquire_memWf {s : State} {scope : Nat} {k : State → Res} (h : s.memWf) (hk : ∀ u, u.memWf → (k u).all State.memWf) :
    (withAcquire s scope k).all State.memWf := by
  unfold withAcquire
  split
  · exact h
  · exact hk _ (State.acquireTeam_memWf h)

end Sys2Proof.Machine
end

section
/-! SUPPORT. Slot rows and the header of a save image keep memory canonical (R194). -/

open Sys2Proof Sys2Proof.Machine

namespace Sys2Proof.Machine

theorem mapRows_memWf {s : State} {c : Nat} {f : SlotRow → SlotRow} (h : s.memWf) : (mapRows s c f).memWf :=
  foldl_memWf (fun _ _ hu => ite_memWf hu hu) h

theorem beginSave_memWf {s : State} {c : Nat} (h : s.memWf) : (beginSave s c).memWf := mapRows_memWf h

theorem syncImage_memWf {s : State} {c : Nat} (h : s.memWf) : (syncImage s c).memWf := ite_memWf h (setHomeBytes_memWf _ _ _ h)

end Sys2Proof.Machine
end

section
/-! SUPPORT. Leave changes no memory (R35 to R40). -/

open Sys2Proof Sys2Proof.Machine

namespace Sys2Proof.Machine

theorem askLeave_memWf {s : State} {d : Nat} {r : LeaveReq} (h : s.memWf) : (askLeave s d r).memWf := h

theorem withdrawLeave_memWf {s : State} {d : Nat} {who : LeaveWho} (h : s.memWf) : (withdrawLeave s d who).memWf := h

theorem returnLeave_memWf {s : State} {d amps : Nat} (h : s.memWf) : (returnLeave s d amps).memWf := h

theorem dropLeave_memWf {s : State} {d amps : Nat} {who : LeaveWho} {x : Leave} (h : s.memWf) : (dropLeave s d amps who x).memWf := by
  unfold dropLeave
  split
  · exact h
  · exact withdrawLeave_memWf h
  · exact returnLeave_memWf h

end Sys2Proof.Machine
end

section
/-! SUPPORT. The vector words' shared forms keep memory canonical, so each word does (R210 to R239). -/

open Sys2Proof Sys2Proof.Machine

namespace Sys2Proof.Machine

theorem vecWord_nextWf {i : Instr} {s : State} {d n : Nat} {g : Team → Nat → Nat × Flags} (h : s.memWf) : NextWf (vecWord i s d n g) :=
  runWord_nextWf h h

theorem fWord2_nextWf {i : Instr} {t : BitVec 3} {d a b : BitVec 7} {op : Fmt → FVal → FVal → Nat × Flags} {s : State} (h : s.memWf) :
    NextWf (fWord2 i t d a b op s) :=
  vecWord_nextWf h

theorem execFadd_nextWf {t : BitVec 3} {d a b : BitVec 7} {s : State} (h : s.memWf) : NextWf (execFadd t d a b s) := fWord2_nextWf h

theorem execFsub_nextWf {t : BitVec 3} {d a b : BitVec 7} {s : State} (h : s.memWf) : NextWf (execFsub t d a b s) := fWord2_nextWf h

theorem execFmul_nextWf {t : BitVec 3} {d a b : BitVec 7} {s : State} (h : s.memWf) : NextWf (execFmul t d a b s) := fWord2_nextWf h

theorem execFdiv_nextWf {t : BitVec 3} {d a b : BitVec 7} {s : State} (h : s.memWf) : NextWf (execFdiv t d a b s) := fWord2_nextWf h

theorem signWord_nextWf {i : Instr} {t : BitVec 3} {d a b : BitVec 7} {g : Bool → Bool → Bool} {s : State} (h : s.memWf) : NextWf (signWord i t d a b g s) :=
  vecWord_nextWf h

theorem execFsgn_nextWf {t : BitVec 3} {d a b : BitVec 7} {s : State} (h : s.memWf) : NextWf (execFsgn t d a b s) := signWord_nextWf h

theorem execFsgnNeg_nextWf {t : BitVec 3} {d a b : BitVec 7} {s : State} (h : s.memWf) : NextWf (execFsgnNeg t d a b s) := signWord_nextWf h

theorem execFsgnXor_nextWf {t : BitVec 3} {d a b : BitVec 7} {s : State} (h : s.memWf) : NextWf (execFsgnXor t d a b s) := signWord_nextWf h

theorem cmpWord_nextWf {i : Instr} {p : BitVec 3} {g : Team → Nat → Bool × Flags} {s : State} (h : s.memWf) : NextWf (cmpWord i p g s) :=
  runWord_nextWf h h

theorem execFcmp_nextWf {t : BitVec 3} {k : BitVec 4} {p : BitVec 3} {a b : BitVec 7} {s : State} (h : s.memWf) : NextWf (execFcmp t k p a b s) :=
  cmpWord_nextWf h

theorem fWord1_nextWf {i : Instr} {t : BitVec 3} {d a : BitVec 7} {g : Fmt → Nat → Nat × Flags} {s : State} (h : s.memWf) : NextWf (fWord1 i t d a g s) :=
  vecWord_nextWf h

theorem execFrcp_nextWf {d a : BitVec 7} {t : BitVec 3} {s : State} (h : s.memWf) : NextWf (execFrcp d a t s) := fWord1_nextWf h

theorem execFrsq_nextWf {d a : BitVec 7} {t : BitVec 3} {s : State} (h : s.memWf) : NextWf (execFrsq d a t s) := fWord1_nextWf h

theorem execFsqrt_nextWf {d a : BitVec 7} {t : BitVec 3} {s : State} (h : s.memWf) : NextWf (execFsqrt d a t s) := fWord1_nextWf h

theorem execFex2_nextWf {d a : BitVec 7} {t : BitVec 3} {s : State} (h : s.memWf) : NextWf (execFex2 d a t s) := fWord1_nextWf h

theorem execFlg2_nextWf {d a : BitVec 7} {t : BitVec 3} {s : State} (h : s.memWf) : NextWf (execFlg2 d a t s) := fWord1_nextWf h

theorem execFsin_nextWf {d a : BitVec 7} {t : BitVec 3} {s : State} (h : s.memWf) : NextWf (execFsin d a t s) := fWord1_nextWf h

theorem execFcos_nextWf {d a : BitVec 7} {t : BitVec 3} {s : State} (h : s.memWf) : NextWf (execFcos d a t s) := fWord1_nextWf h

theorem execFrnd_nextWf {d a : BitVec 7} {t m : BitVec 3} {s : State} (h : s.memWf) : NextWf (execFrnd d a t m s) := fWord1_nextWf h

theorem execIcvt_nextWf {d a : BitVec 7} {r : BitVec 1} {f i m : BitVec 3} {s : State} (h : s.memWf) : NextWf (execIcvt d a r f i m s) := by
  unfold execIcvt
  dsimp only
  split <;> exact vecWord_nextWf h

theorem iWord_nextWf {i : Instr} {t : BitVec 3} {d a b : BitVec 7} {g : Nat → Nat → Nat} {s : State} (h : s.memWf) : NextWf (iWord i t d a b g s) :=
  vecWord_nextWf h

theorem execIadd_nextWf {t : BitVec 3} {d a b : BitVec 7} {s : State} (h : s.memWf) : NextWf (execIadd t d a b s) := iWord_nextWf h

theorem execIsub_nextWf {t : BitVec 3} {d a b : BitVec 7} {s : State} (h : s.memWf) : NextWf (execIsub t d a b s) := iWord_nextWf h

theorem execImul_nextWf {t : BitVec 3} {d a b : BitVec 7} {s : State} (h : s.memWf) : NextWf (execImul t d a b s) := iWord_nextWf h

theorem execImulh_nextWf {t : BitVec 3} {d a b : BitVec 7} {s : State} (h : s.memWf) : NextWf (execImulh t d a b s) := iWord_nextWf h

theorem execImin_nextWf {t : BitVec 3} {d a b : BitVec 7} {s : State} (h : s.memWf) : NextWf (execImin t d a b s) := iWord_nextWf h

theorem execImax_nextWf {t : BitVec 3} {d a b : BitVec 7} {s : State} (h : s.memWf) : NextWf (execImax t d a b s) := iWord_nextWf h

theorem shiftWord_nextWf {i : Instr} {t : BitVec 3} {d a b : BitVec 7} {g : Nat → Nat → Nat} {s : State} (h : s.memWf) : NextWf (shiftWord i t d a b g s) :=
  vecWord_nextWf h

theorem execIshl_nextWf {t : BitVec 3} {d a b : BitVec 7} {s : State} (h : s.memWf) : NextWf (execIshl t d a b s) := shiftWord_nextWf h

theorem execIshr_nextWf {t : BitVec 3} {d a b : BitVec 7} {s : State} (h : s.memWf) : NextWf (execIshr t d a b s) := shiftWord_nextWf h

theorem execIsra_nextWf {t : BitVec 3} {d a b : BitVec 7} {s : State} (h : s.memWf) : NextWf (execIsra t d a b s) := shiftWord_nextWf h

theorem execIand_nextWf {t : BitVec 3} {d a b : BitVec 7} {s : State} (h : s.memWf) : NextWf (execIand t d a b s) := iWord_nextWf h

theorem execIor_nextWf {t : BitVec 3} {d a b : BitVec 7} {s : State} (h : s.memWf) : NextWf (execIor t d a b s) := iWord_nextWf h

theorem execIxor_nextWf {t : BitVec 3} {d a b : BitVec 7} {s : State} (h : s.memWf) : NextWf (execIxor t d a b s) := iWord_nextWf h

theorem execIcmp_nextWf {t : BitVec 3} {k : BitVec 4} {p : BitVec 3} {a b : BitVec 7} {s : State} (h : s.memWf) : NextWf (execIcmp t k p a b s) :=
  cmpWord_nextWf h

theorem iWord1_nextWf {i : Instr} {t : BitVec 3} {d a : BitVec 7} {n : Nat} {g : Nat → Nat × Flags} {s : State} (h : s.memWf) :
    NextWf (iWord1 i t d a n g s) :=
  vecWord_nextWf h

theorem execIabs_nextWf {d a : BitVec 7} {t : BitVec 3} {s : State} (h : s.memWf) : NextWf (execIabs d a t s) := iWord1_nextWf h

theorem execInot_nextWf {d a : BitVec 7} {t : BitVec 3} {s : State} (h : s.memWf) : NextWf (execInot d a t s) := iWord1_nextWf h

theorem execIpop_nextWf {d a : BitVec 7} {t : BitVec 3} {s : State} (h : s.memWf) : NextWf (execIpop d a t s) := iWord1_nextWf h

theorem execIclz_nextWf {d a : BitVec 7} {t : BitVec 3} {s : State} (h : s.memWf) : NextWf (execIclz d a t s) := iWord1_nextWf h

theorem execLperm_nextWf {t : BitVec 3} {d a b : BitVec 7} {s : State} (h : s.memWf) : NextWf (execLperm t d a b s) := by
  unfold execLperm
  refine runWord_nextWf h ?_
  dsimp only
  split <;> exact h

end Sys2Proof.Machine
end

section
/-! SUPPORT. The sequencer's words keep memory canonical (R131 to R142, R153). -/

open Sys2Proof Sys2Proof.Machine

namespace Sys2Proof.Machine

theorem completeBarriers_memWf {s : State} {c : Nat} (h : s.memWf) : (completeBarriers s c).memWf := h

theorem arriveAt_memWf {s : State} {c b tno : Nat} (h : s.memWf) : (arriveAt s c b tno).memWf := completeBarriers_memWf h

theorem execBar_nextWf {b : BitVec 4} {s : State} (h : s.memWf) : NextWf (execBar b s) := by
  unfold execBar
  refine runWord_nextWf h ?_
  dsimp only
  split
  · split
    · exact h
    · exact State.acquireTeam_memWf (State.mapTeam_memWf h)
  · split
    · exact h
    · refine withRelease_memWf h (fun _ hu => ?_)
      split
      · exact arriveAt_memWf (State.mapTeam_memWf hu)
      · exact State.acquireTeam_memWf (State.mapTeam_memWf (arriveAt_memWf (State.mapTeam_memWf hu)))

theorem execArrive_nextWf {d : BitVec 6} {b : BitVec 4} {s : State} (h : s.memWf) : NextWf (execArrive d b s) := by
  unfold execArrive
  refine runWord_nextWf h ?_
  dsimp only
  split
  · exact h
  · exact withRelease_memWf h (fun _ hu => arriveAt_memWf hu)

theorem execAwait_nextWf {a : BitVec 6} {b : BitVec 4} {s : State} (h : s.memWf) : NextWf (execAwait a b s) := by
  unfold execAwait
  refine runWord_nextWf h ?_
  dsimp only
  split
  · exact h
  · exact withAcquire_memWf h (fun _ hu => hu)

theorem settleBatches_memWf {s : State} {c : Nat} (h : s.memWf) : (settleBatches s c).memWf :=
  ite_memWf (foldl_memWf (fun _ _ hu => dropLeave_memWf hu) h) (foldl_memWf (fun _ _ hu => dropLeave_memWf hu) h)

theorem dropRays_memWf {s : State} {c tno : Nat} (h : s.memWf) : (dropRays s c tno).memWf := settleBatches_memWf h

theorem State.endTeam_memWf {s : State} (h : s.memWf) : (State.endTeam s).memWf := completeBarriers_memWf (dropRays_memWf (returnAll_memWf h))

theorem execBrv_nextWf {n : BitVec 1} {p : BitVec 3} {o : BitVec 20} {s : State} (h : s.memWf) : NextWf (execBrv n p o s) := by
  unfold execBrv
  refine runWord_nextWf h ?_
  dsimp only
  split
  · split
    · exact h
    · split
      · exact h
      · split
        · exact h
        · split <;> exact h
  · split
    · exact h
    · split
      · exact h
      · split
        · exact h
        · split <;> exact h

theorem execRet_nextWf {a : BitVec 6} {s : State} (h : s.memWf) : NextWf (execRet a s) := by
  unfold execRet
  refine runWord_nextWf h ?_
  dsimp only
  split <;> exact h

theorem execMark_nextWf {o : BitVec 20} {s : State} (h : s.memWf) : NextWf (execMark o s) := by
  unfold execMark
  refine runWord_nextWf h ?_
  dsimp only
  split <;> exact h

theorem execElseW_nextWf {s : State} (h : s.memWf) : NextWf (execElseW s) := by
  unfold execElseW
  refine runWord_nextWf h ?_
  dsimp only
  split
  · exact h
  · split <;> exact h

theorem execJoin_nextWf {s : State} (h : s.memWf) : NextWf (execJoin s) := by
  unfold execJoin
  refine runWord_nextWf h ?_
  dsimp only
  split
  · exact h
  · split <;> exact h

theorem execExit_nextWf {s : State} (h : s.memWf) : NextWf (execExit s) := by
  unfold execExit
  refine runWord_nextWf h ?_
  dsimp only
  split
  · exact State.endTeam_memWf h
  · exact h

theorem sWord_nextWf {i : Instr} {d a b : BitVec 6} {f : W32 → W32 → W32} {s : State} (h : s.memWf) : NextWf (sWord i d a b f s) := runWord_nextWf h h

theorem execSlane_nextWf {d b : BitVec 6} {a : BitVec 7} {s : State} (h : s.memWf) : NextWf (execSlane d b a s) := by
  unfold execSlane
  refine runWord_nextWf h ?_
  dsimp only
  split
  · exact h
  · split <;> split <;> exact h

theorem reformMove_memWf {s : State} {c : Nat} {kr : List (Nat × Nat)} (h : s.memWf) : (reformMove s c kr).memWf :=
  foldl_memWf (fun _ _ hu => State.updTeam_memWf hu) h

theorem execReform_nextWf {k : BitVec 7} {s : State} (h : s.memWf) : NextWf (execReform k s) := by
  unfold execReform
  refine runWord_nextWf h ?_
  dsimp only
  split
  · exact h
  · split
    · exact State.acquireTeam_memWf h
    · split
      · exact State.acquireTeam_memWf (foldl_memWf (fun _ _ hu => State.updTeam_memWf hu) (reformMove_memWf h))
      · exact h
    · refine withRelease_memWf h (fun _ hu => ?_)
      split
      · exact State.acquireTeam_memWf (foldl_memWf (fun _ _ hv => State.updTeam_memWf hv) (reformMove_memWf hu))
      · exact hu

theorem execTfence_nextWf {s : State} (h : s.memWf) : NextWf (execTfence s) := by
  unfold execTfence
  refine runWord_nextWf h ?_
  dsimp only
  split
  · exact h
  · split
    · exact h
    · split
      · exact h
      · split <;> exact h

theorem State.trapReturn_memWf {s : State} (h : s.memWf) : (State.trapReturn s).all State.memWf := by
  unfold State.trapReturn
  dsimp only
  split <;> exact h

end Sys2Proof.Machine
end

section
/-! SUPPORT. Loads, stores, cache words, MWAIT and the handler's words keep memory canonical (R252 to R288). -/

open Sys2Proof Sys2Proof.Machine

namespace Sys2Proof.Machine

/-- What a lookup that cannot answer yet leaves behind: its walks are asked for (R279). -/
theorem translateLanes_wait_memWf {s u : State} {as : List (Nat × W64)} {a : Access} (h : s.memWf) (e : translateLanes s as a = .wait u) : u.memWf := by
  unfold translateLanes at e
  dsimp only at e
  split at e
  · cases e
    exact foldl_memWf (fun _ _ h => askWalk_memWf h) h
  · split at e <;> cases e

theorem translateLanes_trap_memWf {s u : State} {as : List (Nat × W64)} {a : Access} {i : TrapInfo} (h : s.memWf) (e : translateLanes s as a = .trap u i) :
    u.memWf := by
  unfold translateLanes at e
  dsimp only at e
  split at e
  · cases e
  · split at e <;> cases e
    exact h

theorem withAccess_memWf {s : State} {as : List (Nat × W64)} {size : Nat} {a : Access} {f : State → List LaneAcc → Res} (h : s.memWf)
    (hf : ∀ u l, u.memWf → (f u l).all State.memWf) : (withAccess s as size a f).all State.memWf := by
  unfold withAccess
  split
  · exact h
  · split
    case _ e => exact translateLanes_trap_memWf h e
    case _ e => exact translateLanes_wait_memWf h e
    case _ => exact hf _ _ h

theorem startOp_memWf {s : State} {k : OpKind} (h : s.memWf) : (startOp s k).memWf := h

theorem State.updOp_memWf {s : State} {id : Nat} {f : Op → Op} (h : s.memWf) : (State.updOp s id f).memWf := h

theorem finishOp_memWf {s : State} {o : Op} (h : s.memWf) : (finishOp s o).memWf := by
  unfold finishOp
  dsimp only
  split
  · exact h
  · exact ite_memWf h (State.updTeam_memWf h)

theorem remoteLine_memWf {s : State} {d ctx : Nat} {remote : List RemoteLine} {line : Nat} (h : s.memWf) : (remoteLine s d ctx remote line).1.memWf := by
  unfold remoteLine
  dsimp only
  split
  · exact h
  · split
    · split
      · exact exportLine_memWf h
      · exact h
    · exact h

theorem cacheRemote_memWf {s : State} {r : RemoteLine} {alloc : Bool} (h : s.memWf) : (cacheRemote s r alloc).memWf := ite_memWf h h

theorem readLane_memWf {s : State} {d k ctx : Nat} {sp : Space} {n : Nat} {a : LaneAcc} {remote : List RemoteLine} {alloc : Bool} (h : s.memWf) :
    (readLane s d k ctx sp n a remote alloc).1.memWf := by
  unfold readLane
  dsimp only
  split
  · split
    · rename_i e'
      exact (memWf_of_fst (remoteLine_memWf h) e')
    · rename_i e'
      exact cacheRemote_memWf (memWf_of_fst (remoteLine_memWf h) e')
  · exact ite_fst_memWf h (ite_fst_memWf (forgetLine_memWf (settleLine_memWf _ _ _ _ h)) (fillL1_memWf h))

/-- A lane that is delivered, or a word that is not complete. -/
theorem loadWord_memWf {s : State} {o : Op} {sp : Space} {z : BitVec 3} {signed scalar : Bool} {d : Nat} {accs : List LaneAcc} {held : List (Nat × Byte)}
    {alloc : Bool} {remote : List RemoteLine} (h : s.memWf) : OptAll State.memWf (loadWord s o sp z signed scalar d accs held alloc remote) := by
  unfold loadWord
  refine foldl_keeps (OptAll State.memWf) _ (fun x a hx => ?_) _ _ (optAll_some h)
  cases x with
  | none => exact optAll_none _
  | some u =>
    have hu : u.memWf := hx u rfl
    dsimp only
    split
    · exact optAll_none _
    · refine optAll_some (State.updTeam_memWf ?_)
      split
      · exact hu
      · exact readLane_memWf hu

theorem returnLoad_memWf {s : State} {o : Op} {k : Nat} {remote : List RemoteLine} (h : s.memWf) : (returnLoad s o k remote).memWf := by
  unfold returnLoad
  dsimp only
  split
  · refine ite_memWf h ?_
    split
    · exact h
    · rename_i e'
      have hu := memWf_of_some (loadWord_memWf h) e'
      exact ite_memWf (finishOp_memWf (State.updTeam_memWf hu)) (State.updTeam_memWf hu)
  · exact h

theorem storeLane_memWf {s : State} {o : Op} {sp : Space} {a : LaneAcc} {bs : List Byte} (h : s.memWf) : (storeLane s o sp a bs).memWf := by
  unfold storeLane
  dsimp only
  split
  · exact ite_memWf h h
  · exact storeHome_memWf _ _ _ _ _ h
  · exact storeBytes_memWf h

theorem startLoadOp_memWf {s : State} {sp : Space} {z : BitVec 3} {signed scalar : Bool} {d : Nat} {words : List Nat} {accs : List LaneAcc}
    {held' : List (Nat × Byte)} {alloc : Bool} (h : s.memWf) :
    (startLoadOp s sp z signed scalar d words accs held' alloc).memWf :=
  ite_memWf h h

theorem issueLoad_memWf {s : State} {sp : Space} {z : BitVec 3} {signed : Bool} {d : BitVec 7} {accs : List LaneAcc} {alloc : Bool} (h : s.memWf) :
    (issueLoad s sp z signed d accs alloc).all State.memWf := by
  unfold issueLoad
  dsimp only
  split
  · exact h
  · split
    · exact h
    · exact startLoadOp_memWf h

theorem issueStore_memWf {s : State} {sp : Space} {accs : List (LaneAcc × List Byte)} (h : s.memWf) : (issueStore s sp accs).all State.memWf := by
  unfold issueStore
  dsimp only
  split
  · exact h
  · split
    · split
      · exact h
      · split <;> exact h
    · split <;> exact h

theorem execLdk_nextWf {z : BitVec 3} {d : BitVec 6} {sp : BitVec 5} {g l : BitVec 1} {s : State} (h : s.memWf) : NextWf (execLdk z d sp g l s) := by
  refine runWord_nextWf h ?_
  dsimp only
  split
  case' _ e => refine memWf_of_trap ?_ e
  all_goals
    refine withAccess_memWf h fun _ _ hu => ?_
    split
    · exact hu
    · split <;> split
      · exact hu
      · exact State.mapTeam_memWf (startLoadOp_memWf hu)
      · exact hu
      · exact State.mapTeam_memWf (startLoadOp_memWf hu)

theorem execLdb_nextWf {z : BitVec 3} {d o : BitVec 7} {sp : BitVec 5} {g n : BitVec 1} {s : State} (h : s.memWf) : NextWf (execLdb z d o sp g n s) := by
  refine runWord_nextWf h ?_
  dsimp only
  split
  · exact h
  · split
    case _ e => exact translateLanes_trap_memWf h e
    case _ e => exact translateLanes_wait_memWf h e
    case _ => exact issueLoad_memWf h

theorem execStoreComplete_nextWf {s : State} (h : s.memWf) : NextWf (execStoreComplete s) := by
  unfold execStoreComplete
  dsimp only
  split
  · exact nextWf_next h
  · split
    · split
      · exact nextWf_next (finishOp_memWf (foldl_memWf (fun _ _ hu => storeLane_memWf hu) h))
      · exact nextWf_next h
    · exact nextWf_next h

theorem execPageWalkComplete_nextWf {s : State} (h : s.memWf) : NextWf (execPageWalkComplete s) := by
  unfold execPageWalkComplete
  dsimp only
  split
  · exact nextWf_next h
  · split
    · exact nextWf_fault _
    · exact nextWf_next (endWalk_memWf h)

theorem dropTlb_memWf {s : State} {die : Nat} {v : W64} (h : s.memWf) : (dropTlb s die v).memWf := foldl_memWf (fun _ _ hu => hu) h

theorem execTlbInvalidateDone_nextWf {s : State} (h : s.memWf) : NextWf (execTlbInvalidateDone s) := by
  unfold execTlbInvalidateDone
  dsimp only
  split
  · exact nextWf_next h
  · exact nextWf_next (progress_memWf (State.setDie_memWf (dropTlb_memWf h)))

theorem execPref_nextWf {o : BitVec 7} {sp : BitVec 5} {l : BitVec 2} {s : State} (h : s.memWf) : NextWf (execPref o sp l s) := by
  unfold execPref
  refine runWord_nextWf h ?_
  refine foldl_memWf (fun _ _ hu => ?_) h
  refine ite_memWf hu ?_
  dsimp only
  split
  · exact ite_memWf (fillL1_memWf hu) (ite_memWf (fillL2_memWf hu) hu)
  · exact hu

theorem cleanRange_memWf {s : State} {d k scope ctx va count : Nat} (h : s.memWf) : (cleanRange s d k scope ctx va count).memWf :=
  ite_memWf h (else_memWf (fun hv => foldl_memWf (fun _ _ hu => writeBackLine_memWf _ _ _ hu) hv) (foldl_memWf (fun _ _ hu => drainLine_memWf hu) h))

theorem dropRange_memWf {s : State} {d k scope ctx va count : Nat} (h : s.memWf) : (dropRange s d k scope ctx va count).memWf :=
  ite_memWf h (ite_memWf (ite_memWf h (foldl_memWf (fun _ _ hu => hu) h)) (ite_memWf h (foldl_memWf (fun _ _ hu => hu) h)))

theorem cacheWord_nextWf {i : Instr} {sc : BitVec 3} {a b : BitVec 6} {inval : Bool} {s : State} (h : s.memWf) : NextWf (cacheWord i sc a b inval s) := by
  unfold cacheWord
  refine runWord_nextWf h ?_
  dsimp only
  split
  · exact h
  · split
    · exact h
    · split
      · exact h
      · exact ite_memWf (dropRange_memWf (cleanRange_memWf h)) (cleanRange_memWf h)

theorem execRrinv_nextWf {a b : BitVec 6} {s : State} (h : s.memWf) : NextWf (execRrinv a b s) := by
  unfold execRrinv
  refine runWord_nextWf h ?_
  dsimp only
  split
  · exact h
  · split <;> exact h

theorem settleAt_memWf {s : State} {d k scope line : Nat} (h : s.memWf) : (settleAt s d k scope line).memWf :=
  ite_memWf h (ite_memWf (drainLine_memWf h) (settleLine_memWf _ _ _ _ h))

theorem execMwait_nextWf {tc : BitVec 3} {d a b : BitVec 6} {sc : BitVec 3} {s : State} (h : s.memWf) : NextWf (execMwait tc d a b sc s) := by
  refine runWord_nextWf h ?_
  dsimp only
  split
  case' _ e => refine memWf_of_trap ?_ e
  all_goals
    refine withAccess_memWf h fun _ l hu => ?_
    cases l with
    | nil => exact hu
    | cons x _ =>
      dsimp only
      refine ite_all hu (ite_all hu ?_)
      exact ite_all (settleAt_memWf hu) (withAcquire_memWf (settleAt_memWf hu) fun _ hv => hv)

theorem dropFrames_memWf {s : State} {frame n : Nat} (h : s.memWf) : (dropFrames s frame n).memWf := h

theorem postMiss_memWf {s : State} {ctx : Nat} {bs : List Byte} (h : s.memWf) : (postMiss s ctx bs).memWf :=
  setHome32_memWf _ _ _ (setHomeBytes_memWf _ _ _ h)

theorem collapse_memWf {s : State} {ctx d page : Nat} {e : W64} {pa : Nat} {large : Bool} (h : s.memWf) : (collapse s ctx d page e pa large).memWf := by
  unfold collapse
  have hu := setHome64_memWf s pa (collapsedLeaf d e) h
  generalize setHome64 s pa (collapsedLeaf d e) = u at hu ⊢
  exact postMiss_memWf (foldl_memWf (fun _ _ h => dropFrames_memWf h) hu)

theorem pmapPage_memWf {s : State} {ctx d page code detail : Nat} (h : s.memWf) : (pmapPage s ctx d page code detail).1.memWf := by
  unfold pmapPage
  dsimp only
  split
  · exact h
  · split
    · exact ite_fst_memWf (collapse_memWf h) h
    · exact ite_fst_memWf h (zeroFrame_memWf _ _ (setHome32_memWf _ _ _ (setHome64_memWf _ _ _ h)))
    · exact h

theorem pmapPages_memWf {ctx d : Nat} {l : List (Nat × W64)} {s : State} (h : s.memWf) : (pmapPages ctx d l s).1.memWf := by
  induction l generalizing s with
  | nil =>
    unfold pmapPages
    exact h
  | cons a l ih =>
    unfold pmapPages
    exact ih (pmapPage_memWf h)

theorem execPmap_nextWf {d : BitVec 7} {s : State} (h : s.memWf) : NextWf (execPmap d s) := by
  unfold execPmap
  refine runWord_nextWf h ?_
  dsimp only
  split
  · exact trivial
  · split
    · exact h
    · exact pmapPages_memWf h

theorem dropClean_memWf {s : State} {frame n : Nat} (h : s.memWf) : (dropClean s frame n).memWf := h

theorem returnPmap_memWf {s : State} {o : Op} {d : Nat} {left : List Nat} {sts : List (Nat × Nat)} {gone : List (Nat × Nat × List Nat)} {k : Nat} (h : s.memWf) :
    (returnPmap s o d left sts gone k).memWf :=
  ite_memWf h (then_memWf (fun hw => finishOp_memWf hw) (State.updTeam_memWf (foldl_memWf (fun _ _ hu => foldl_memWf (fun _ _ hv => dropClean_memWf hv) hu) h)))

theorem pmissPages_memWf {words : List W64} {fin : State → Res} {n : Nat} {l : List Nat} {s : State} (hfin : ∀ u, u.memWf → (fin u).all State.memWf) (h : s.memWf) :
    (pmissPages words fin n l s).all State.memWf := by
  induction l generalizing n s with
  | nil =>
    unfold pmissPages
    exact hfin _ h
  | cons a l ih =>
    unfold pmissPages
    dsimp only
    split
    · exact ih (State.mapTeam_memWf h)
    · split
      · exact State.mapTeam_memWf h
      · exact withRelease_memWf (State.mapTeam_memWf h) (fun _ hu => ih (State.mapTeam_memWf (postMiss_memWf hu)))

theorem endPmiss_memWf {s : State} (h : s.memWf) : (endPmiss s).all State.memWf := ite_memWf h (beginSave_memWf h)

theorem execPret_nextWf {s : State} (h : s.memWf) : NextWf (execPret s) := by
  unfold execPret
  refine runWord_nextWf h ?_
  split
  · exact h
  · exact State.trapReturn_memWf h

theorem execMissingDecrement_nextWf {value : W64} {s : State} (h : s.memWf) : NextWf (execMissingDecrement value s) := by
  unfold execMissingDecrement
  dsimp only
  split
  · exact nextWf_next h
  · exact nextWf_next (syncImage_memWf h)

theorem execLineReplacement_nextWf {r : Replace} {s : State} (h : s.memWf) : NextWf (execLineReplacement r s) := by
  unfold execLineReplacement
  dsimp only
  split
  · exact nextWf_next (drainHead_memWf h)
  · exact nextWf_next h
  · exact nextWf_next (writeBackLine_memWf _ _ _ h)
  · exact nextWf_next h
  · exact nextWf_next h

end Sys2Proof.Machine
end

section
/-! SUPPORT. The tile copy engine and the scratchpad's words keep memory canonical (R323 to R332). -/

open Sys2Proof Sys2Proof.Machine

namespace Sys2Proof.Machine

theorem teamAccess_memWf {s : State} {va : W64} {size : Nat} {a : Access} {f : State → Nat → Res} (h : s.memWf) (hf : ∀ u y, u.memWf → (f u y).all State.memWf) :
    (teamAccess s va size a f).all State.memWf := by
  unfold teamAccess
  dsimp only
  split
  · rename_i e
    split <;> exact memWf_of_trap (withAccess_memWf h (fun _ _ hu => hf _ _ hu)) e
  · exact withAccess_memWf h (fun _ _ hu => hf _ _ hu)

theorem wholeFault_memWf {s : State} {va : Nat} {f : XFault} (h : s.memWf) : (wholeFault s va f).1.memWf := h

theorem walkPages_memWf {s : State} {a : Access} {l : List Nat} (h : s.memWf) : (walkPages s a l).1.memWf := by
  induction l generalizing s with
  | nil =>
    unfold walkPages
    exact h
  | cons a l ih =>
    unfold walkPages
    exact ih (transNow_memWf _ _ _ _ _ _ h)

theorem transPages_memWf {s : State} {a : Access} {pages : List Nat} (h : s.memWf) : (transPages s a pages).1.memWf := walkPages_memWf h

theorem leftWindow_memWf {s : State} {c e : Nat} (h : s.memWf) : (leftWindow s c e).memWf := h

theorem startFill_memWf {s : State} {e : Nat} (h : s.memWf) : (startFill s e).1.memWf := by
  unfold startFill
  dsimp only
  split
  case _ e => exact wholeFault_memWf (memWf_of_fst (transPages_memWf h) e)
  case _ u pages e =>
    have hu : u.memWf := memWf_of_fst (transPages_memWf h) e
    exact ite_memWf (askLeave_memWf hu) hu

theorem startFills_memWf {s : State} {l : List Nat} (h : s.memWf) : (startFills s l).1.memWf := by
  induction l generalizing s with
  | nil =>
    unfold startFills
    exact h
  | cons a l ih =>
    unfold startFills
    split
    · rename_i e
      exact (memWf_of_fst (startFill_memWf h) e)
    · rename_i e
      exact ih (memWf_of_fst (startFill_memWf h) e)

theorem touched_memWf {s : State} {rs : List (Nat × Nat)} {go : State → Res} (h : s.memWf) (hgo : ∀ u, u.memWf → (go u).all State.memWf) :
    (touched s rs go).all State.memWf := by
  unfold touched
  dsimp only
  split
  · exact hgo _ h
  · split
    · exact State.mapTeam_memWf h
    · split
      · rename_i e
        exact (memWf_of_fst (startFills_memWf h) e)
      · rename_i e
        have hu := memWf_of_fst (startFills_memWf h) e
        split
        · exact State.mapTeam_memWf hu
        · exact hu

theorem siteOp_nextWf {s : State} {f : State → Op → State} (h : s.memWf) (hf : ∀ u y, u.memWf → (f u y).memWf) : NextWf (siteOp s f) := by
  unfold siteOp
  split
  · exact nextWf_next h
  · split
    · exact nextWf_next h
    · exact nextWf_next (hf _ _ h)

theorem execFillBeat_nextWf {s : State} (h : s.memWf) : NextWf (execFillBeat s) := by
  unfold execFillBeat
  refine siteOp_nextWf h (fun _ _ hu => ?_)
  dsimp only
  split
  · exact ite_memWf hu (ite_memWf hu (ite_memWf (State.acquireFor_memWf hu) hu))
  · exact hu

theorem execFillComplete_nextWf {s : State} (h : s.memWf) : NextWf (execFillComplete s) := by
  unfold execFillComplete
  refine siteOp_nextWf h (fun _ _ hu => ?_)
  dsimp only
  split
  · exact ite_memWf (leftWindow_memWf (finishOp_memWf (dropLeave_memWf hu))) hu
  · exact hu

theorem execRbind_nextWf {e : BitVec 5} {a : BitVec 6} {m : BitVec 2} {q : BitVec 1} {sc : BitVec 3} {s : State} (h : s.memWf) :
    NextWf (execRbind e a m q sc s) := by
  unfold execRbind
  refine runWord_nextWf h ?_
  dsimp only
  split
  · exact h
  · split
    · exact h
    · refine teamAccess_memWf h (fun _ _ hu => ?_)
      split
      · split
        · exact State.acquireTeam_memWf hu
        · split
          · exact State.acquireTeam_memWf hu
          · split
            · split
              · rename_i e₂
                have hv := memWf_of_fst (startFill_memWf (State.setCrew_memWf (State.acquireTeam_memWf hu))) e₂
                exact State.setCrew_memWf hv
              · rename_i e₂
                have hv := memWf_of_fst (startFill_memWf (State.setCrew_memWf (State.acquireTeam_memWf hu))) e₂
                exact hv
            · exact State.setCrew_memWf (State.acquireTeam_memWf hu)
      · split
        · exact hu
        · split
          · exact hu
          · split
            · split
              · rename_i e₁
                exact State.setCrew_memWf (memWf_of_fst (startFill_memWf (State.setCrew_memWf hu)) e₁)
              · rename_i e₁
                exact (memWf_of_fst (startFill_memWf (State.setCrew_memWf hu)) e₁)
            · exact State.setCrew_memWf hu

theorem execRwait_nextWf {e : BitVec 5} {s : State} (h : s.memWf) : NextWf (execRwait e s) := by
  unfold execRwait
  refine runWord_nextWf h ?_
  split
  · exact h
  · exact h
  · exact h
  · exact h
  · split
    · rename_i e''
      exact (memWf_of_fst (startFill_memWf h) e'')
    · rename_i e''
      exact (memWf_of_fst (startFill_memWf h) e'')

theorem abandonFill_memWf {s : State} {c e : Nat} (h : s.memWf) : (abandonFill s c e).memWf := by
  unfold abandonFill
  refine foldl_memWf (fun _ _ hu => ?_) h
  split
  · exact dropLeave_memWf hu
  · exact hu

theorem freeAtEnd_memWf {s : State} {c e : Nat} (h : s.memWf) : (freeAtEnd s c e).1.memWf := h

theorem execRfree_nextWf {e : BitVec 5} {s : State} (h : s.memWf) : NextWf (execRfree e s) := by
  unfold execRfree
  refine runWord_nextWf h ?_
  dsimp only
  split
  · split
    · exact h
    · exact State.mapTeam_memWf h
  · split
    · exact State.mapTeam_memWf (freeAtEnd_memWf h)
    · exact leftWindow_memWf (State.setCrew_memWf (ite_memWf (abandonFill_memWf h) h))

theorem giveBack_memWf {s : State} {amps : Nat} (h : s.memWf) : (giveBack s amps).memWf := dropLeave_memWf h

theorem execRdrain_nextWf {e : BitVec 5} {a : BitVec 1} {dt : BitVec 2} {r f q l : BitVec 1} {sc : BitVec 3} {s : State} (h : s.memWf) :
    NextWf (execRdrain e a dt r f q l sc s) := by
  unfold execRdrain
  refine runWord_nextWf h ?_
  dsimp only
  split
  · exact giveBack_memWf h
  · exact giveBack_memWf h
  · exact h
  · exact h
  · split
    · rename_i e''
      exact giveBack_memWf (wholeFault_memWf (memWf_of_fst (transPages_memWf h) e''))
    · rename_i e''
      have hu := memWf_of_fst (transPages_memWf h) e''
      split
      · exact giveBack_memWf hu
      · split
        · split
          · exact hu
          · split
            · exact State.mapTeam_memWf (askLeave_memWf hu)
            · exact State.mapTeam_memWf (State.setCrew_memWf (startOp_memWf hu))
        · split
          · exact hu
          · split
            · exact State.mapTeam_memWf (askLeave_memWf hu)
            · exact State.mapTeam_memWf (State.setCrew_memWf (startOp_memWf hu))

theorem drainPlain_memWf {s : State} {t : Team} {cr : Crew} {tile : Tile} {pages : List (Nat × Nat)} (h : s.memWf) : (drainPlain s t cr tile pages).memWf :=
  foldl_memWf (fun _ _ hu => ite_memWf (poisonStore_memWf hu) hu) (foldl_memWf (fun _ _ hu => storeByte_memWf hu) h)

theorem drainElem_memWf {key : Nat} {cr : Crew} {tile : Tile} {d : Drain} {fm : Fmt} {s : State × Flags} {i : Nat} (h : s.1.memWf) :
    (drainElem key cr tile d fm s i).1.memWf :=
  ite_fst_memWf (forgetLine_memWf (poisonLine_memWf (settleLine_memWf _ _ _ _ h))) (ite_fst_memWf (State.updTeam_memWf (settleLine_memWf _ _ _ _ h))
    (forgetLine_memWf (setHomeBytes_memWf _ _ _ (settleLine_memWf _ _ _ _ h))))

theorem execDrainComplete_nextWf {s : State} (h : s.memWf) : NextWf (execDrainComplete s) := by
  unfold execDrainComplete
  refine siteOp_nextWf h (fun _ _ hu => ?_)
  dsimp only
  split
  · refine ite_memWf (ite_fst_memWf (relReady_memWf hu) hu) ?_
    refine leftWindow_memWf ?_
    refine finishOp_memWf ?_
    refine dropLeave_memWf ?_
    refine ite_memWf ?_ ?_
    · refine State.releaseFor_memWf ?_
      split
      · exact drainPlain_memWf (then_memWf State.acquireFor_memWf (ite_fst_memWf (relReady_memWf hu) hu))
      · exact State.updTeam_memWf (foldl_fst_memWf (fun _ _ hv => drainElem_memWf hv) (then_memWf State.acquireFor_memWf (ite_fst_memWf (relReady_memWf hu) hu)))
    · split
      · exact drainPlain_memWf (then_memWf State.acquireFor_memWf (ite_fst_memWf (relReady_memWf hu) hu))
      · exact State.updTeam_memWf (foldl_fst_memWf (fun _ _ hv => drainElem_memWf hv) (then_memWf State.acquireFor_memWf (ite_fst_memWf (relReady_memWf hu) hu)))
  · exact hu

theorem spAccess_memWf {s : State} {as : List (Nat × W64)} {size : Nat} {wr : Bool} {f : State → List LaneAcc → Res} (h : s.memWf)
    (hf : ∀ u y, u.memWf → (f u y).all State.memWf) :
    (spAccess s as size wr f).all State.memWf := by
  unfold spAccess
  dsimp only
  split
  · exact h
  · exact touched_memWf h (fun _ hu => hf _ _ hu)

end Sys2Proof.Machine
end

section
/-! SUPPORT. Atomics and the commit of deterministic quantum mode keep memory canonical (R274, R291 to R311). -/

open Sys2Proof Sys2Proof.Machine

namespace Sys2Proof.Machine

theorem giveOld_memWf {s : State} {o : Op} {a : AtomicOp} {l : AtLane} {old : Nat} (h : s.memWf) : (giveOld s o a l old).memWf :=
  State.updTeam_memWf h

theorem giveMark_memWf {s : State} {o : Op} {a : AtomicOp} {l : AtLane} {m : Mark} (h : s.memWf) : (giveMark s o a l m).memWf := State.updTeam_memWf h

theorem atPoisoned_memWf {s : State} {o : Op} {a : AtomicOp} {l : AtLane} (h : s.memWf) : (atPoisoned s o a l).memWf :=
  ite_memWf (State.updTeam_memWf h) (giveMark_memWf h)

theorem atScratch_memWf {s : State} {o : Op} {a : AtomicOp} {l : AtLane} (h : s.memWf) : (atScratch s o a l).1.memWf := by
  unfold atScratch
  dsimp only
  split
  · exact atPoisoned_memWf h
  · refine giveOld_memWf ?_
    split
    · exact ite_memWf h h
    · exact h

theorem atHome_memWf {s : State} {o : Op} {a : AtomicOp} {l : AtLane} (h : s.memWf) : (atHome s o a l).1.memWf := by
  unfold atHome
  dsimp only
  split
  · exact atPoisoned_memWf (settleLine_memWf _ _ _ _ h)
  · refine giveOld_memWf ?_
    refine forgetLine_memWf ?_
    split
    · exact setHomeBytes_memWf _ _ _ (settleLine_memWf _ _ _ _ h)
    · exact settleLine_memWf _ _ _ _ h

theorem atAll_memWf {o : Op} {a : AtomicOp} {l : List AtLane} {s : State} (h : s.memWf) : (atAll o a l s).1.memWf := by
  induction l generalizing s with
  | nil =>
    unfold atAll
    exact h
  | cons a l ih =>
    unfold atAll
    exact ih (ite_fst_memWf (atScratch_memWf h) (atHome_memWf h))

theorem atSettle_memWf {s : State} {o : Op} {a : AtomicOp} {left : List AtLane} {fl : Flags} (h : s.memWf) : (atSettle s o a left fl).memWf :=
  ite_memWf (finishOp_memWf (State.updTeam_memWf (State.updTeam_memWf h))) (State.updTeam_memWf h)

theorem atPerform_memWf {s : State} {o : Op} {a : AtomicOp} (h : s.memWf) : (atPerform s o a).memWf := atSettle_memWf (atAll_memWf h)

theorem State.clearIdem_memWf {s : State} (h : s.memWf) : (State.clearIdem s).memWf := h

theorem atAccess_memWf {s : State} {what : AtWhat} {size : Nat} {spad : Bool} {as : List (Nat × W64)} {f : State → List LaneAcc → Res} (h : s.memWf)
    (hf : ∀ u y, u.memWf → (f u y).all State.memWf) :
    (atAccess s what size spad as f).all State.memWf := by
  unfold atAccess
  dsimp only
  split
  · exact spAccess_memWf h (fun _ _ hu => hf _ _ hu)
  · refine withAccess_memWf h (fun _ _ hu => ?_)
    split
    · exact hu
    · split
      · exact hu
      · exact hf _ _ hu

theorem issueAtomic_memWf {s : State} {a : AtomicOp} {o : AtOrd} (h : s.memWf) : (issueAtomic s a o).memWf := ite_memWf h h

theorem atomicWord_nextWf {i : Instr} {what : AtWhat} {w : BitVec 1} {d v : BitVec 7} {sp : BitVec 5} {s : State} (h : s.memWf) :
    NextWf (atomicWord i what w d v sp s) := by
  unfold atomicWord
  refine runWord_nextWf h ?_
  dsimp only
  split
  · split
    · refine withRelease_memWf h (fun _ hu => ?_)
      split
      · exact withAcquire_memWf hu (fun _ hv => hv)
      · exact hu
    · split
      · exact withAcquire_memWf h (fun _ hu => hu)
      · exact h
  · refine atAccess_memWf h (fun _ _ hu => ?_)
    split
    · refine withRelease_memWf hu (fun _ hv => ?_)
      split
      · exact issueAtomic_memWf hv
      · exact hv
    · split
      · exact issueAtomic_memWf hu
      · exact hu

theorem execApin_nextWf {o : BitVec 4} {v : BitVec 7} {sp : BitVec 5} {s : State} (h : s.memWf) : NextWf (execApin o v sp s) := by
  unfold execApin
  refine runWord_nextWf h ?_
  refine foldl_memWf (fun _ _ hu => ?_) h
  refine ite_memWf hu ?_
  dsimp only
  split
  · exact ite_memWf hu hu
  · exact hu

theorem execAtomicReturn_nextWf {s : State} (h : s.memWf) : NextWf (execAtomicReturn s) := by
  unfold execAtomicReturn
  refine siteOp_nextWf h (fun _ _ hu => ?_)
  split
  · exact ite_memWf hu (atPerform_memWf hu)
  · exact hu

theorem hostApplied_memWf {s : State} {o : Op} {a : AtomicOp} {l : AtLane} {old : Nat} (h : s.memWf) : (hostApplied s o a l old).memWf :=
  storeHome_memWf _ _ _ _ _ h

theorem commitStore_memWf {s : State} {key pa : Nat} {scratch : Bool} {bs : List Byte} (h : s.memWf) : (commitStore s key pa scratch bs).memWf :=
  ite_memWf h (ite_memWf (storeBytes_memWf h) (storeHome_memWf _ _ _ _ _ h))

theorem releaseCrew_memWf {s : State} {c scope : Nat} (h : s.memWf) : (releaseCrew s c scope).memWf :=
  foldl_memWf (fun _ _ hu => releaseAt_memWf _ _ _ _ hu) h

theorem acquireCrew_memWf {s : State} {cr : Crew} {scope : Nat} (h : s.memWf) : (acquireCrew s cr scope).memWf :=
  foldl_memWf (fun _ _ hu => acquireAt_memWf _ _ _ _ hu) h

theorem commitRelease_memWf {s : State} {key : Nat} {rel : Option Nat} (h : s.memWf) : (commitRelease s key rel).1.memWf := by
  unfold commitRelease
  dsimp only
  split
  · exact h
  · exact ite_fst_memWf (ite_fst_memWf (flushTeam_memWf h) (releaseCrew_memWf (flushTeam_memWf h))) (releaseCrew_memWf h)

theorem commitAtomic_memWf {s : State} {key : Nat} {o : Op} {a : AtomicOp} (h : s.memWf) : (commitAtomic s key o a).memWf := by
  unfold commitAtomic
  refine ite_memWf (ite_memWf h (atPerform_memWf h)) ?_
  split
  · rename_i e
    exact (memWf_of_fst (commitRelease_memWf h) e)
  · rename_i e
    exact atPerform_memWf (memWf_of_fst (commitRelease_memWf h) e)

theorem commitLoad_memWf {s : State} {o : Op} (h : s.memWf) : (commitLoad s o).memWf := by
  unfold commitLoad
  refine foldl_memWf (fun _ _ hu => ?_) h
  split
  · exact returnLoad_memWf hu
  · exact hu

theorem commitItems_memWf {key : Nat} {l : List DqItem} {s : State} (h : s.memWf) : (commitItems key l s).1.memWf := by
  induction l generalizing s with
  | nil =>
    unfold commitItems
    exact h
  | cons a l ih =>
    cases a with
    | store va pa sc bs =>
      unfold commitItems
      exact ih (commitStore_memWf h)
    | atomic id =>
      have hu : ∀ u : State, u.memWf → (if (u.op id).isSome then (u, .atomic id :: l) else commitItems key l u).1.memWf := fun u hu => by
        split
        · exact hu
        · exact ih hu
      unfold commitItems
      refine hu _ ?_
      split
      · split
        · exact commitAtomic_memWf h
        · exact h
      · exact h
    | load id =>
      have hu : ∀ u : State, u.memWf → (if (u.op id).isSome then (u, .load id :: l) else commitItems key l u).1.memWf := fun u hu => by
        split
        · exact hu
        · exact ih hu
      unfold commitItems
      refine hu _ ?_
      split
      · exact commitLoad_memWf h
      · exact h

theorem commitTeams_memWf {c : Nat} {l : List Nat} {s : State} (h : s.memWf) : (commitTeams c l s).1.memWf := by
  induction l generalizing s with
  | nil =>
    unfold commitTeams
    exact h
  | cons a l ih =>
    unfold commitTeams
    exact ite_fst_memWf (ih (State.updTeam_memWf (commitItems_memWf h))) (State.updTeam_memWf (commitItems_memWf h))

theorem crewReady_memWf {s : State} {c : Nat} (h : s.memWf) : (crewReady s c).1.memWf := foldl_fst_memWf (fun _ _ hu => relReady_memWf hu) h

theorem execDqCommit_nextWf {s : State} (h : s.memWf) : NextWf (execDqCommit s) := by
  have hc : ∀ {u : State} {l : List Nat} {n c : Nat} {v : Crew}, u.memWf →
      (commitTeams n l ((if (u.crew c).commit then u else releaseCrew u c 1).setCrew c v)).1.memWf := fun hu =>
    commitTeams_memWf (State.setCrew_memWf (ite_memWf hu (releaseCrew_memWf hu)))
  unfold execDqCommit
  dsimp only
  split
  · exact nextWf_next h
  · split
    case _ e => exact nextWf_next (memWf_of_fst (ite_fst_memWf h (crewReady_memWf h)) e)
    case _ e =>
      have hr := memWf_of_fst (ite_fst_memWf h (crewReady_memWf h)) e
      split
      case _ e => exact nextWf_next (memWf_of_fst (hc hr) e)
      case _ e =>
        have hu := memWf_of_fst (hc hr) e
        exact nextWf_next (foldl_memWf (fun _ _ hv => State.updTeam_memWf hv) (progress_memWf (State.setCrew_memWf (acquireCrew_memWf hu))))

end Sys2Proof.Machine
end

section
/-! SUPPORT. The report rings keep memory canonical (R463, R485). -/

open Sys2Proof Sys2Proof.Machine

namespace Sys2Proof.Machine

theorem State.emit_memWf {s : State} {m : NetMsg} (h : s.memWf) : (State.emit s m).memWf := h

theorem State.setRas_memWf {s : State} {d : Nat} {r : RingRegs} (h : s.memWf) : (State.setRas s d r).memWf := h

theorem State.setIfl_memWf {s : State} {d : Nat} {r : RingRegs} (h : s.memWf) : (State.setIfl s d r).memWf := h

theorem ringPut_memWf {s u : State} {r x : RingRegs} {bs : List Byte} (h : s.memWf) (e : ringPut s r bs = .put u x) : u.memWf := by
  unfold ringPut at e
  dsimp only at e
  split at e
  · cases e
  · split at e <;> cases e
    exact setHomeBytes_memWf _ _ _ h

theorem rasLog_memWf {s : State} {die kind unit addr func : Nat} (h : s.memWf) : (rasLog s die kind unit addr func).memWf := by
  unfold rasLog
  dsimp only
  split
  case _ => exact h
  case _ e => exact State.setRas_memWf (ringPut_memWf h e)
  case _ => exact ite_memWf h h

theorem reportFixed_memWf {s : State} {die kind unit addr : Nat} (h : s.memWf) : (reportFixed s die kind unit addr).memWf := rasLog_memWf h

theorem reportConfined_memWf {s : State} {die unit addr func : Nat} (h : s.memWf) : (reportConfined s die unit addr func).memWf := rasLog_memWf h

theorem inboundFault_memWf {s : State} {bs : List Byte} (h : s.memWf) : (inboundFault s bs).memWf := by
  unfold inboundFault
  refine State.emit_memWf ?_
  split
  case _ => exact h
  case _ e => exact State.setIfl_memWf (ringPut_memWf h e)
  case _ => exact ite_memWf h (State.emit_memWf (rasLog_memWf h))

end Sys2Proof.Machine
end

section
/-! SUPPORT. What a save image's sections put back keeps memory canonical. -/

open Sys2Proof Sys2Proof.Machine

namespace Sys2Proof.Machine

theorem putHeld_memWf {s : State} {key : Nat} {x : Nat × Option Nat × OpKind} (h : s.memWf) : (putHeld s key x).memWf := by
  unfold putHeld
  dsimp only
  split <;> exact h

theorem rdBuffer_memWf {s : State} {key : Nat} {bs : List Byte} (h : s.memWf) : (rdBuffer s key bs).1.memWf :=
  State.updTeam_memWf (foldl_memWf (fun _ _ h => putHeld_memWf h) h)

theorem translateAgain_memWf {s : State} {d ctx : Nat} {a : Access} {va : W64} (h : s.memWf) : (translateAgain s d ctx a va).1.memWf := by
  unfold translateAgain
  split
  · rename_i e
    exact (memWf_of_fst (walkAccess_memWf _ _ _ _ _ h) e)
  · rename_i e
    exact (memWf_of_fst (walkAccess_memWf _ _ _ _ _ h) e)

theorem eachAgain_memWf {α : Type} {d ctx : Nat} {a : Access} {va : α → W64} {put : α → Nat → W64 → α} {l : List α} {s : State} (h : s.memWf) :
    (eachAgain d ctx a va put l s).1.memWf := by
  induction l generalizing s with
  | nil =>
    unfold eachAgain
    exact h
  | cons a l ih =>
    unfold eachAgain
    split
    · rename_i e
      exact (memWf_of_fst (translateAgain_memWf h) e)
    · rename_i e
      have hu := memWf_of_fst (translateAgain_memWf h) e
      split
      · rename_i e'
        exact (memWf_of_fst (ih hu) e')
      · rename_i e'
        exact (memWf_of_fst (ih hu) e')

theorem opAgain_memWf {d ctx : Nat} {k : OpKind} {s : State} (h : s.memWf) : (opAgain d ctx k s).1.memWf := by
  unfold opAgain
  dsimp only
  split
  · exact ite_fst_memWf h (eachAgain_memWf h)
  · exact ite_fst_memWf h (eachAgain_memWf h)
  · exact h

theorem itemsAgain_memWf {d ctx : Nat} {l : List DqItem} {s : State} (h : s.memWf) : (itemsAgain d ctx l s).1.memWf := by
  induction l generalizing s with
  | nil =>
    unfold itemsAgain
    exact h
  | cons a l ih =>
    have rest : ∀ y : State × Option DqItem, y.1.memWf → (match y with
        | (u, none) => (u, none)
        | (u, some i) => match itemsAgain d ctx l u with | (u, none) => (u, none) | (u, some r) => (u, some (i :: r))).1.memWf := by
      rintro ⟨u, _ | i⟩ hu
      · exact hu
      · dsimp only
        split
        case _ e => exact memWf_of_fst (ih hu) e
        case _ e => exact memWf_of_fst (ih hu) e
    unfold itemsAgain
    refine rest _ ?_
    split
    · exact translateAgain_memWf h
    · exact h
    all_goals
      split
      · exact h
      · dsimp only
        split
        · exact opAgain_memWf h
        · exact State.updOp_memWf (opAgain_memWf h)

end Sys2Proof.Machine
end

section
/-! SUPPORT. The matrix engine keeps memory canonical: its stores write bytes through the hierarchy (R380). -/

open Sys2Proof Sys2Proof.Machine

namespace Sys2Proof.Machine

theorem State.mapMat_memWf {s : State} {c : Nat} {f : Matrix → Matrix} (h : s.memWf) : (State.mapMat s c f).memWf := h

theorem execMclaim_nextWf {k : BitVec 2} {d a : BitVec 6} {s : State} (h : s.memWf) : NextWf (execMclaim k d a s) := by
  unfold execMclaim
  refine runWord_nextWf h ?_
  dsimp only
  split
  · exact h
  · split
    · exact h
    · split <;> exact h

theorem matGateAt_memWf {s : State} {r : BitVec 64 × BitVec 64} {go : Nat → State → Res} (h : s.memWf) (hgo : ∀ x u1, u1.memWf → (go x u1).all State.memWf) :
    (matGateAt s r go).all State.memWf := by
  unfold matGateAt
  dsimp only
  split
  · split <;> exact h
  · exact hgo _ _ h

theorem matGate_memWf {s : State} {r : BitVec 64 × BitVec 64} {go : State → Res} (h : s.memWf) (hgo : ∀ u, u.memWf → (go u).all State.memWf) :
    (matGate s r go).all State.memWf :=
  matGateAt_memWf h (fun _ _ hu => hgo _ hu)

theorem startMat_memWf {s : State} {stamp : Nat} {k : OpKind} (h : s.memWf) : (startMat s stamp k).memWf := h

theorem matTrap_memWf {s : State} {code detail : Nat} {val : W64} (h : s.memWf) : (matTrap s code detail val).all State.memWf := h

theorem execMrelease_nextWf {k : BitVec 2} {a : BitVec 6} {s : State} (h : s.memWf) : NextWf (execMrelease k a s) := by
  unfold execMrelease
  refine runWord_nextWf h ?_
  dsimp only
  split
  · exact matTrap_memWf h
  · split
    · exact matTrap_memWf h
    · split
      · split <;> exact h
      · split <;> split <;> exact h

theorem execMgang_nextWf {a : BitVec 6} {s : State} (h : s.memWf) : NextWf (execMgang a s) := by
  unfold execMgang
  refine runWord_nextWf h ?_
  dsimp only
  split <;> exact h

theorem issueMembers_memWf {s : State} {c id : Nat} (h : s.memWf) : (issueMembers s c id).memWf := h

theorem memberIssues_memWf {s : State} {id : Nat} (h : s.memWf) : (memberIssues s id).all State.memWf := by
  unfold memberIssues
  dsimp only
  split
  · split <;> exact h
  · exact h

theorem memberWaits_memWf {s : State} {id : Nat} (h : s.memWf) : (memberWaits s id).all State.memWf := by
  unfold memberWaits
  dsimp only
  split
  · exact memberIssues_memWf h
  · split
    · exact memberIssues_memWf (issueMembers_memWf h)
    · exact h

theorem memberTraps_memWf {s : State} {code detail : Nat} {val : W64} (h : s.memWf) : (memberTraps s code detail val).all State.memWf := h

theorem gangStart_memWf {s : State} {a : Arrival} (h : s.memWf) : (gangStart s a).all State.memWf := by
  unfold gangStart
  dsimp only
  split
  · exact memberWaits_memWf h
  · split
    · exact memberTraps_memWf h
    · exact memberWaits_memWf h

theorem gangWord_nextWf {i : Instr} {a : BitVec 6} {s : State} (h : s.memWf) : NextWf (gangWord i a s) := by
  unfold gangWord
  refine runWord_nextWf h ?_
  dsimp only
  split
  · split
    · exact memberTraps_memWf h
    · exact memberIssues_memWf h
    · exact memberWaits_memWf h
    · split
      · exact memberTraps_memWf h
      · exact h
  · split
    · exact h
    · split
      · exact gangStart_memWf h
      · exact h

theorem askArray_memWf {s : State} {die : Nat} {x : Nat × MatOp} (h : s.memWf) : (askArray s die x).memWf := askLeave_memWf h

theorem askChosen_memWf {s : State} {die ck : Nat} {x : Nat × MatOp} (h : s.memWf) : (askChosen s die ck x).memWf := by
  unfold askChosen
  dsimp only
  split
  · exact askArray_memWf h
  · exact ite_memWf (State.setCore_memWf h) (askArray_memWf (State.mapMat_memWf (withdrawLeave_memWf (State.setCore_memWf h))))

theorem execArraySchedule_nextWf {s : State} (h : s.memWf) : NextWf (execArraySchedule s) := by
  unfold execArraySchedule
  dsimp only
  split
  · split
    · exact nextWf_next h
    · refine nextWf_next (progress_memWf (State.setCore_memWf (askChosen_memWf ?_)))
      refine (fun hu => ite_memWf hu (issueMembers_memWf hu)) (State.mapMat_memWf ?_)
      exact foldl_memWf (fun _ _ hu => ite_memWf hu (State.mapMat_memWf hu)) h
  · split
    · exact nextWf_next h
    · split
      · exact nextWf_next h
      · split
        · exact nextWf_next h
        · split
          · exact nextWf_next h
          · exact nextWf_next (progress_memWf (State.setCore_memWf (askArray_memWf (ite_memWf h (issueMembers_memWf h)))))

theorem stopArray_memWf {s : State} {ck : Nat} (h : s.memWf) : (stopArray s ck).memWf := by
  unfold stopArray
  dsimp only
  split
  · exact h
  · split
    · exact h
    · exact dropLeave_memWf h

theorem arrayGranted_memWf {s : State} {c id : Nat} (h : s.memWf) : (arrayGranted s c id).memWf := ite_memWf h (stopArray_memWf h)

theorem execMatrixStep_nextWf {s : State} (h : s.memWf) : NextWf (execMatrixStep s) := by
  unfold execMatrixStep
  dsimp only
  split
  · exact nextWf_next h
  · split
    · split
      · exact nextWf_next h
      · split
        · exact nextWf_next (stopArray_memWf h)
        · exact nextWf_next h
    · split
      · exact nextWf_next h
      · split
        · exact nextWf_next (stopArray_memWf h)
        · exact nextWf_next h

theorem matEnds_memWf {s : State} {c : Nat} {o : MatOp} (h : s.memWf) : (matEnds s c o).memWf :=
  foldl_memWf (fun _ _ hu => State.updTeam_memWf hu) (foldl_memWf (fun _ _ hu => State.updTeam_memWf hu) h)

theorem execMatrixComplete_nextWf {s : State} (h : s.memWf) : NextWf (execMatrixComplete s) := by
  unfold execMatrixComplete
  dsimp only
  split
  · exact nextWf_next h
  · split
    · exact nextWf_next h
    · exact nextWf_next (matEnds_memWf (issueMembers_memWf (stopArray_memWf h)))

theorem holdOp_memWf {s : State} {ck c : Nat} {o : MatOp} {tile : Nat} {f : RansFault} (h : s.memWf) : (holdOp s ck c o tile f).memWf :=
  foldl_memWf (fun _ _ hu => State.updTeam_memWf hu) (matEnds_memWf (stopArray_memWf h))

theorem execMmacBlockDecode_nextWf {s : State} (h : s.memWf) : NextWf (execMmacBlockDecode s) := by
  unfold execMmacBlockDecode
  dsimp only
  split
  · exact nextWf_next h
  · split
    · exact nextWf_next h
    · split
      · split
        · exact nextWf_next h
        · split
          · exact nextWf_next (stopArray_memWf h)
          · split
            · exact nextWf_next (holdOp_memWf h)
            · exact nextWf_next h
      · split
        · exact nextWf_next h
        · split
          · exact nextWf_next (stopArray_memWf h)
          · split
            · exact nextWf_next (holdOp_memWf h)
            · exact nextWf_next h

theorem execMmacVerify_nextWf {s : State} (h : s.memWf) : NextWf (execMmacVerify s) := by
  unfold execMmacVerify
  split
  · exact nextWf_next h
  · split
    · split
      · exact nextWf_next h
      · split
        · exact nextWf_next (holdOp_memWf h)
        · exact nextWf_next (issueMembers_memWf h)
    · exact nextWf_next h

theorem engineRange_memWf {s : State} {va : W64} {n align : Nat} {a : Access} {f : State → List (Nat × Nat) → Res} (h : s.memWf)
    (hf : ∀ u y, u.memWf → (f u y).all State.memWf) :
    (engineRange s va n align a f).all State.memWf := by
  unfold engineRange
  dsimp only
  split
  · exact matTrap_memWf h
  · split
    · exact matTrap_memWf h
    · split
      · exact matTrap_memWf h
      · split
        · rename_i e
          exact matTrap_memWf (wholeFault_memWf (memWf_of_fst (transPages_memWf h) e))
        · rename_i e
          exact hf _ _ (memWf_of_fst (transPages_memWf h) e)

theorem startLoad_memWf {s : State} {stamp : Nat} {l : MatLoad} (h : s.memWf) : (startLoad s stamp l).memWf := State.mapMat_memWf (startMat_memWf h)

theorem execMload_nextWf {a b : BitVec 6} {q : BitVec 1} {sc : BitVec 3} {s : State} (h : s.memWf) : NextWf (execMload a b q sc s) := by
  unfold execMload
  refine runWord_nextWf h ?_
  dsimp only
  split
  · exact matTrap_memWf h
  · split
    · exact matTrap_memWf h
    · exact engineRange_memWf h (fun _ _ hu => matGateAt_memWf hu (fun _ _ hv => startLoad_memWf hv))

theorem execMloadc_nextWf {a b : BitVec 6} {q : BitVec 1} {sc : BitVec 3} {s : State} (h : s.memWf) : NextWf (execMloadc a b q sc s) := by
  unfold execMloadc
  refine runWord_nextWf h ?_
  dsimp only
  split
  · exact matTrap_memWf h
  · split
    · exact h
    · refine engineRange_memWf (ite_memWf (State.acquireTeam_memWf h) h) (fun _ _ hu => ?_)
      split
      · exact matTrap_memWf hu
      · split
        · exact matTrap_memWf hu
        · refine engineRange_memWf hu (fun _ _ hv => ?_)
          split
          · exact matTrap_memWf hv
          · split
            · exact matTrap_memWf hv
            · split
              · exact matTrap_memWf hv
              · split
                · exact matTrap_memWf hv
                · exact engineRange_memWf hv (fun _ _ hw => matGateAt_memWf hw (fun _ _ hx => startLoad_memWf hx))

theorem execMtable_nextWf {a : BitVec 6} {i : BitVec 3} {q : BitVec 1} {sc : BitVec 3} {s : State} (h : s.memWf) : NextWf (execMtable a i q sc s) := by
  unfold execMtable
  refine runWord_nextWf h ?_
  dsimp only
  split
  · exact h
  · refine engineRange_memWf h (fun _ _ hu => ?_)
    refine matGate_memWf hu (fun _ hv => ?_)
    split
    · split
      · exact matTrap_memWf (State.acquireTeam_memWf hv)
      · exact State.acquireTeam_memWf hv
    · split
      · exact matTrap_memWf hv
      · exact hv

theorem execMcbook_nextWf {a : BitVec 6} {i : BitVec 3} {ct : BitVec 2} {q : BitVec 1} {sc : BitVec 3} {s : State} (h : s.memWf) :
    NextWf (execMcbook a i ct q sc s) := by
  unfold execMcbook
  refine runWord_nextWf h ?_
  dsimp only
  split
  · exact matTrap_memWf h
  · exact engineRange_memWf h (fun _ _ hu => matGateAt_memWf hu (fun _ _ hv => startLoad_memWf hv))

theorem execMloadComplete_nextWf {s : State} (h : s.memWf) : NextWf (execMloadComplete s) := by
  unfold execMloadComplete
  refine siteOp_nextWf h (fun _ _ hu => ?_)
  dsimp only
  split
  · exact ite_memWf hu (finishOp_memWf (ite_memWf (State.acquireFor_memWf hu) hu))
  · exact hu

theorem withBank_memWf {s : State} {k : BitVec 2} {f : State → Res} (h : s.memWf) (hf : ∀ u, u.memWf → (f u).all State.memWf) :
    (withBank s k f).all State.memWf := by
  unfold withBank
  split
  · exact hf _ h
  · exact matTrap_memWf h

theorem execMst_nextWf {a b : BitVec 6} {k : BitVec 2} {tc m : BitVec 3} {l : BitVec 1} {sc : BitVec 3} {s : State} (h : s.memWf) :
    NextWf (execMst a b k tc m l sc s) := by
  refine runWord_nextWf h (withBank_memWf h fun u hu => ?_)
  split
  · exact matTrap_memWf hu
  · split
    · exact matTrap_memWf hu
    · split
      case _ e => exact matTrap_memWf (wholeFault_memWf (memWf_of_fst (transPages_memWf hu) e))
      case _ e => exact matGateAt_memWf (memWf_of_fst (transPages_memWf hu) e) fun _ _ hv => startMat_memWf hv

theorem execMstComplete_nextWf {s : State} (h : s.memWf) : NextWf (execMstComplete s) := by
  unfold execMstComplete
  refine siteOp_nextWf h (fun _ _ hu => ?_)
  dsimp only
  split
  · exact else_memWf (fun hx => finishOp_memWf (State.updTeam_memWf (then_memWf State.releaseFor_memWf (foldl_fst_memWf
      (fun _ _ hv => storeBytes_memWf hv) hx)))) (ite_fst_memWf (relReady_memWf hu) hu)
  · exact hu

theorem execMtrq_nextWf {a : BitVec 6} {m : BitVec 3} {s : State} (h : s.memWf) : NextWf (execMtrq a m s) := by
  unfold execMtrq
  refine runWord_nextWf h ?_
  dsimp only
  split
  · exact matTrap_memWf h
  · split
    · exact matTrap_memWf h
    · split
      · exact matTrap_memWf h
      · split
        · exact matTrap_memWf h
        · split
          · exact matTrap_memWf h
          · split
            · exact matTrap_memWf h
            · exact matGateAt_memWf h (fun _ _ hu => State.mapMat_memWf (startMat_memWf hu))

theorem execMtrqComplete_nextWf {s : State} (h : s.memWf) : NextWf (execMtrqComplete s) := by
  unfold execMtrqComplete
  refine siteOp_nextWf h (fun _ _ hu => ?_)
  dsimp only
  split
  · exact ite_memWf (finishOp_memWf hu) (finishOp_memWf (State.updTeam_memWf hu))
  · exact hu

theorem execMfence_nextWf {s : State} (h : s.memWf) : NextWf (execMfence s) := by
  unfold execMfence
  refine runWord_nextWf h ?_
  dsimp only
  split <;> exact h

end Sys2Proof.Machine
end

section
/-! SUPPORT. The ray engine keeps memory canonical: it stores its logs alone (R427). -/

open Sys2Proof Sys2Proof.Machine

namespace Sys2Proof.Machine

theorem putRay_memWf {s : State} {c : Nat} {r : Ray} (h : s.memWf) : (putRay s c r).memWf := h

theorem State.updQ_memWf {s : State} {key q : Nat} {f : QReg → QReg} (h : s.memWf) : (State.updQ s key q f).memWf := State.updTeam_memWf h

theorem giveResult_memWf {s : State} {key q : Nat} {x : QRes} (h : s.memWf) : (giveResult s key q x).memWf := ite_memWf (State.updQ_memWf h) h

theorem restRay_memWf {s : State} {c : Nat} {r : Ray} (h : s.memWf) : (restRay s c r).memWf := settleBatches_memWf h

theorem holdRay_memWf {s : State} {c : Nat} {r : Ray} {va : Nat} {f : XFault} (h : s.memWf) : (holdRay s c r va f).memWf :=
  giveResult_memWf (restRay_memWf h)

theorem writeLog_memWf {s : State} {t : Team} {base : Nat} {l : List (Nat × List Byte)} (h : s.memWf) : (writeLog s t base l).1.memWf := by
  induction l generalizing s with
  | nil =>
    unfold writeLog
    exact h
  | cons a l ih =>
    unfold writeLog
    split
    · rename_i e
      exact (memWf_of_fst (transNow_memWf _ _ _ _ _ _ h) e)
    · rename_i e
      exact ih (storeBytes_memWf (memWf_of_fst (transNow_memWf _ _ _ _ _ _ h) e))

theorem endRay_memWf {s : State} {c : Nat} {r : Ray} {kind : Nat} {words : List W32} (h : s.memWf) : (endRay s c r kind words).memWf := by
  unfold endRay
  dsimp only
  split
  · rename_i e
    exact putRay_memWf (memWf_of_fst (ite_fst_memWf (relReady_memWf h) h) e)
  · rename_i e
    have hu := memWf_of_fst (ite_fst_memWf (relReady_memWf h) h) e
    split
    · rename_i e'
      exact holdRay_memWf (memWf_of_fst (ite_fst_memWf (writeLog_memWf hu) hu) e')
    · rename_i e'
      have hv := memWf_of_fst (ite_fst_memWf (writeLog_memWf hu) hu) e'
      exact giveResult_memWf (restRay_memWf (then_memWf State.updQ_memWf (ite_memWf (State.releaseFor_memWf hv) hv)))

theorem nodePut_memWf {s : State} {ck line : Nat} {l : NodeLine} (h : s.memWf) : (nodePut s ck line l).memWf := h

theorem rayRead_memWf {s : State} {t : Team} {va : Nat} {remote : List RemoteLine} (h : s.memWf) : (rayRead s t va remote).1.memWf := by
  unfold rayRead
  dsimp only
  split
  · split
    · rename_i e
      exact (memWf_of_fst (transNow_memWf _ _ _ _ _ _ h) e)
    · rename_i e
      have hu := memWf_of_fst (transNow_memWf _ _ _ _ _ _ h) e
      split
      · exact hu
      · exact nodePut_memWf (fillL2_memWf hu)
  · split
    · exact h
    · split
      · rename_i e'
        exact (memWf_of_fst (remoteLine_memWf h) e')
      · rename_i e'
        have hu := memWf_of_fst (remoteLine_memWf h) e'
        exact ite_fst_memWf hu (nodePut_memWf (cacheRemote_memWf hu))

theorem runRay_memWf {n : Nat} {b : Bool} {s : State} {n' : Nat} {x : Ray} {l : List RemoteLine} (h : s.memWf) : (runRay n b s n' x l).memWf := by
  induction n generalizing b s x with
  | zero =>
    unfold runRay
    exact putRay_memWf h
  | succ n ih =>
    unfold runRay
    dsimp only
    split
    · refine ite_memWf (putRay_memWf h) ?_
      split
      · rename_i e'
        exact putRay_memWf (memWf_of_fst (rayRead_memWf h) e')
      · rename_i e'
        exact holdRay_memWf (memWf_of_fst (rayRead_memWf h) e')
      · rename_i e'
        exact endRay_memWf (memWf_of_fst (rayRead_memWf h) e')
      · rename_i e'
        exact ih (memWf_of_fst (rayRead_memWf h) e')
    · split
      · rename_i e'
        exact holdRay_memWf (memWf_of_fst (writeLog_memWf h) e')
      · rename_i e'
        exact ih (memWf_of_fst (writeLog_memWf h) e')
    · split
      · rename_i e'
        exact holdRay_memWf (memWf_of_fst (writeLog_memWf h) e')
      · rename_i e'
        exact giveResult_memWf (restRay_memWf (memWf_of_fst (writeLog_memWf h) e'))
    · exact endRay_memWf h
    · exact endRay_memWf h
    · exact endRay_memWf h
    · exact endRay_memWf h

theorem execRayFetchReturn_nextWf {remote : List RemoteLine} {s : State} (h : s.memWf) : NextWf (execRayFetchReturn remote s) := by
  unfold execRayFetchReturn
  dsimp only
  split
  · exact nextWf_next h
  · split
    · exact nextWf_next (runRay_memWf h)
    · exact nextWf_next h

theorem newRay_memWf {s : State} {c : Nat} {r : Ray} (h : s.memWf) : (newRay s c r).1.memWf := State.updQ_memWf h

theorem recAcquire_memWf {s : State} {key : Nat} {w : List W32} (h : s.memWf) : (recAcquire s key w).memWf := ite_memWf (State.acquireFor_memWf h) h

theorem takeRecord_nextWf {s : State} {mine : Nat → Bool} {f : State → QReg → Pushed → State} (h : s.memWf) (hf : ∀ u y z, u.memWf → (f u y z).memWf) :
    NextWf (takeRecord s mine f) := by
  unfold takeRecord
  dsimp only
  split
  · exact nextWf_next h
  · split
    · exact nextWf_next h
    · exact nextWf_next (hf _ _ _ (State.updQ_memWf h))

theorem execTrace_nextWf {s : State} (h : s.memWf) : NextWf (execTrace s) := by
  unfold execTrace
  refine takeRecord_nextWf h (fun _ _ _ hu => ?_)
  refine ite_memWf (giveResult_memWf hu) ?_
  dsimp only
  split
  · exact endRay_memWf (newRay_memWf hu)
  · exact recAcquire_memWf (newRay_memWf hu)

theorem recordFault_memWf {s : State} {p : Pushed} {reason d : Nat} (h : s.memWf) : (recordFault s p reason d).memWf :=
  settleBatches_memWf (giveResult_memWf h)

theorem execResume_nextWf {s : State} (h : s.memWf) : NextWf (execResume s) := by
  unfold execResume
  refine takeRecord_nextWf h (fun _ _ _ hu => ?_)
  dsimp only
  split
  · exact recordFault_memWf hu
  · split
    · exact recordFault_memWf hu
    · exact recAcquire_memWf hu

theorem execAbort_nextWf {s : State} (h : s.memWf) : NextWf (execAbort s) := by
  unfold execAbort
  refine takeRecord_nextWf h (fun _ _ _ hu => ?_)
  dsimp only
  split
  · exact recordFault_memWf hu
  · split
    · exact recordFault_memWf hu
    · exact hu

theorem newBatch_memWf {s : State} {n : Nat} (h : s.memWf) : (newBatch s n).1.memWf := ite_fst_memWf h (askLeave_memWf h)

theorem pushBatches_memWf {s : State} {qn : Nat} {q : QReg} {recs : List (Nat × List W32)} (h : s.memWf) : (pushBatches s qn q recs).1.memWf :=
  newBatch_memWf (newBatch_memWf h)

theorem bindBatches_memWf {s : State} {qn : Nat} (h : s.memWf) : (bindBatches s qn).memWf :=
  foldl_memWf (fun _ _ hu => State.updQ_memWf (newBatch_memWf hu)) h

theorem rayWord_nextWf {i : Instr} {q : BitVec 4} {s : State} {f : State → QReg → Res} (h : s.memWf) (hf : ∀ u y, u.memWf → (f u y).all State.memWf) :
    NextWf (rayWord i q s f) := by
  unfold rayWord
  refine runWord_nextWf h ?_
  dsimp only
  split
  · exact h
  · exact hf _ _ h

theorem execHbind_nextWf {q : BitVec 4} {a : BitVec 6} {k : BitVec 1} {sc : BitVec 3} {s : State} (h : s.memWf) : NextWf (execHbind q a k sc s) := by
  unfold execHbind
  refine rayWord_nextWf h (fun _ _ hu => ?_)
  dsimp only
  split
  · exact hu
  · split
    · exact hu
    · refine teamAccess_memWf hu (fun _ _ hv => ?_)
      split
      · split
        · exact State.acquireTeam_memWf hv
        · split
          · exact State.acquireTeam_memWf hv
          · exact bindBatches_memWf (State.updQ_memWf (State.acquireTeam_memWf hv))
      · split
        · exact hv
        · split
          · exact hv
          · exact bindBatches_memWf (State.updQ_memWf hv)

theorem execHlog_nextWf {q : BitVec 4} {a : BitVec 6} {s : State} (h : s.memWf) : NextWf (execHlog q a s) := by
  unfold execHlog
  refine rayWord_nextWf h (fun _ _ hu => ?_)
  dsimp only
  split
  · exact hu
  · split
    · exact State.updQ_memWf hu
    · split
      · exact hu
      · exact State.updQ_memWf hu

theorem replayRay_memWf {s : State} {qn : Nat} {p : Pushed} (h : s.memWf) : (replayRay s qn p).memWf := newRay_memWf h

theorem replayWords_memWf {qn n : Nat} {s : State} (h : s.memWf) : (replayWords qn n s).all State.memWf := by
  induction n generalizing s with
  | zero =>
    unfold replayWords
    exact h
  | succ n ih =>
    unfold replayWords
    dsimp only
    split
    · exact h
    · split
      · exact h
      · exact ih (foldl_memWf (fun _ _ hu => replayRay_memWf hu) (State.updQ_memWf h))

theorem execHreplay_nextWf {q : BitVec 4} {v : BitVec 7} {k : BitVec 1} {sc : BitVec 3} {s : State} (h : s.memWf) : NextWf (execHreplay q v k sc s) := by
  unfold execHreplay
  refine rayWord_nextWf h (fun _ _ hu => ?_)
  dsimp only
  split
  · exact replayWords_memWf hu
  · split
    · exact hu
    · split
      · exact hu
      · exact replayWords_memWf (State.updQ_memWf (newBatch_memWf (ite_memWf (State.acquireTeam_memWf hu) hu)))

theorem execHstat_nextWf {d : BitVec 6} {q sel : BitVec 4} {s : State} (h : s.memWf) : NextWf (execHstat d q sel s) :=
  rayWord_nextWf h (fun _ _ hu => hu)

theorem execHinv_nextWf {a b : BitVec 6} {s : State} (h : s.memWf) : NextWf (execHinv a b s) := by
  unfold execHinv
  refine runWord_nextWf h ?_
  dsimp only
  split
  · exact h
  · split <;> split <;> exact h

theorem popReported_memWf {s : State} {qn k n : Nat} (h : s.memWf) : (popReported s qn k n).memWf := by
  induction n generalizing s with
  | zero =>
    unfold popReported
    exact h
  | succ n ih =>
    unfold popReported
    dsimp only
    split
    · exact h
    · exact ih (State.updQ_memWf h)

theorem popFault_memWf {s : State} {qn : Nat} {xs : List (QRes × List Nat)} (h : s.memWf) : OptAll (fun p => State.memWf p.1) (popFault s qn xs) := by
  unfold popFault
  dsimp only
  split
  · exact optAll_none _
  · refine optAll_some ?_
    refine foldl_memWf (fun _ _ hu => ?_) h
    split <;> exact hu

theorem popRays_memWf {s : State} {qn : Nat} {xs : List QRes} (h : s.memWf) : (popRays s qn xs).memWf := h

end Sys2Proof.Machine
end

section
/-! SUPPORT. Writing and loading a save image keeps memory canonical (R194). -/

open Sys2Proof Sys2Proof.Machine

namespace Sys2Proof.Machine

theorem loadRayBlock_memWf {s : State} {key : Nat} {get : Nat → Byte} (h : s.memWf) : (loadRayBlock s key get).memWf := State.updQ_memWf h

theorem loadRays_memWf {key len : Nat} {get : Nat → Byte} {n n' : Nat} {s : State} (h : s.memWf) : (loadRays key len get n n' s).memWf := by
  induction n generalizing n' s with
  | zero =>
    unfold loadRays
    exact h
  | succ n ih =>
    unfold loadRays
    exact ite_memWf h (ih (loadRayBlock_memWf h))

theorem writeSections_memWf {d area n n' n'' : Nat} {l : List Section} {s : State} (h : s.memWf) : (writeSections d area n n' n'' l s).memWf := by
  induction l generalizing n' n'' s with
  | nil =>
    unfold writeSections
    exact h
  | cons a l ih =>
    unfold writeSections
    exact ih (setHomeBytes_memWf _ _ _ (setHomeBytes_memWf _ _ _ h))

theorem writeImage_memWf {s : State} {c : Nat} (h : s.memWf) : (writeImage s c).memWf := writeSections_memWf (setHomeBytes_memWf _ _ _ h)

theorem loadCrewSection_memWf {c : Nat} {s : State} {x : Section} (h : s.memWf) : (loadCrewSection c s x).memWf := by
  unfold loadCrewSection
  dsimp only
  split
  · exact State.setCrew_memWf h
  · exact nextOp_memWf (State.setCrew_memWf h)
  · exact State.setCrew_memWf h
  · exact State.setCrew_memWf h
  · exact h

theorem loadTeamSection_memWf {key : Nat} {s : State} {x : Section} (h : s.memWf) : (loadTeamSection key s x).memWf := by
  unfold loadTeamSection
  split
  · exact State.updTeam_memWf h
  · exact State.updTeam_memWf h
  · exact loadRays_memWf h
  · exact State.updTeam_memWf h
  · exact State.updTeam_memWf h
  · exact State.updTeam_memWf h
  · exact State.updTeam_memWf h
  · exact rdBuffer_memWf h
  · exact h

theorem loadSection_memWf {c : Nat} {s : State} {x : Section} (h : s.memWf) : (loadSection c s x).memWf :=
  ite_memWf (loadCrewSection_memWf h) (ite_memWf (loadTeamSection_memWf h) h)

theorem loadSections_memWf {c : Nat} {l : List Section} {s : State} (h : s.memWf) : (loadSections c l s).memWf :=
  foldl_memWf (fun _ _ hu => loadSection_memWf hu) h

theorem followImages_memWf {old new : State} (h : new.memWf) : (followImages old new).memWf :=
  foldl_memWf (fun _ _ h => ite_memWf h (ite_memWf (syncImage_memWf h) (writeImage_memWf h))) h

end Sys2Proof.Machine
end

section
/-! SUPPORT. Remote words and packets keep memory canonical (R441 to R476). -/

open Sys2Proof Sys2Proof.Machine

namespace Sys2Proof.Machine

theorem laneHazard_memWf {s : State} {t : Team} {vr vw : List Span} (h : s.memWf) : OptAll (Res.all State.memWf) (laneHazard s t vr vw) := by
  unfold laneHazard
  dsimp only
  split
  · exact optAll_some (by split <;> exact h)
  · exact optAll_map fun _ => h

theorem insertItems_memWf {s : State} {job : Nat} {items : List (Nat × SpItem)} {first : State → State} {go : State → Res} (h : s.memWf)
    (hfirst : ∀ u, u.memWf → (first u).memWf) (hgo : ∀ u, u.memWf → (go u).all State.memWf) :
    (insertItems s job items first go).all State.memWf := by
  unfold insertItems
  dsimp only
  split
  · rename_i e
    have hu := memWf_of_fst (spInsertAll_memWf (ite_memWf (clearEvicted_memWf h) h)) e
    exact ite_memWf (hfirst _ hu) hu
  · rename_i e
    have hu := memWf_of_fst (spInsertAll_memWf (ite_memWf (clearEvicted_memWf h) h)) e
    exact hgo _ (ite_memWf (hfirst _ hu) hu)

theorem ensureRamo_memWf {s : State} {r : RamoOp} (h : s.memWf) : (ensureRamo s r).1.memWf := by
  unfold ensureRamo
  split <;> exact h

theorem ramoLane_memWf {s : State} {o : Op} {r : RamoOp} {l reason : Nat} {old va : W64} (h : s.memWf) : (ramoLane s o r l reason old va).memWf :=
  State.updTeam_memWf h

theorem ramoDone_memWf {s : State} {o : Op} {r : RamoOp} {l : Nat} (h : s.memWf) : (ramoDone s o r l).memWf :=
  then_memWf (fun hu => finishOp_memWf hu) (ite_memWf h (State.updTeam_memWf h))

theorem ramoResult_memWf {s : State} {id l reason : Nat} {old va : W64} (h : s.memWf) : (ramoResult s id l reason old va).memWf := by
  unfold ramoResult
  split
  · exact h
  · split
    · exact ite_memWf (ramoDone_memWf (ramoLane_memWf h)) h
    · exact h

theorem issueRamo_memWf {s : State} {id : Nat} (h : s.memWf) : (issueRamo s id).memWf := by
  unfold issueRamo
  dsimp only
  split
  · exact h
  · split
    · exact foldl_memWf (fun _ _ hu => ramoResult_memWf hu) h
    · exact h

theorem remoteWord_nextWf {i : Instr} {kind : BitVec 2} {w : BitVec 1} {a d : BitVec 7} {opn : BitVec 4} {p : BitVec 3} {s : State} (h : s.memWf) :
    NextWf (remoteWord i kind w a d opn p s) := by
  unfold remoteWord
  refine runWord_nextWf h ?_
  dsimp only
  split
  · rename_i e
    exact (laneHazard_memWf h) _ e
  · split
    · exact h
    · split
      · refine withRelease_memWf h (fun _ hu => ?_)
        refine insertItems_memWf (ite_fst_memWf (ensureRamo_memWf hu) hu) (fun _ hv => hv) (fun _ hv => ?_)
        split
        · exact issueRamo_memWf (ite_memWf hv hv)
        · split
          · exact withAcquire_memWf hv (fun _ hw => hw)
          · exact hv
      · refine insertItems_memWf (ite_fst_memWf (ensureRamo_memWf h) h) (fun _ hu => hu) (fun _ hu => ?_)
        split
        · exact issueRamo_memWf (ite_memWf hu hu)
        · split
          · exact withAcquire_memWf hu (fun _ hv => hv)
          · exact hu

theorem takeUnrep_memWf {s : State} {d : BitVec 6} (h : s.memWf) : (takeUnrep s d).memWf := h

theorem flushWord_nextWf {i : Instr} {d : BitVec 6} {dest : Team → Nat → Bool} {s : State} (h : s.memWf) : NextWf (flushWord i d dest s) := by
  unfold flushWord
  refine runWord_nextWf h ?_
  dsimp only
  split
  · exact flushTeam_memWf h
  · exact takeUnrep_memWf (flushTeam_memWf h)

theorem execAflush_nextWf {d a : BitVec 6} {s : State} (h : s.memWf) : NextWf (execAflush d a s) := flushWord_nextWf h

theorem execAflushAll_nextWf {d : BitVec 6} {s : State} (h : s.memWf) : NextWf (execAflushAll d s) := flushWord_nextWf h

theorem storeRf_memWf {s : State} {t : Team} {bs : List Byte} (h : s.memWf) : (storeRf s t bs).memWf := by
  unfold storeRf
  refine ite_memWf h ?_
  split
  · rename_i e
    exact (memWf_of_fst (transNow_memWf _ _ _ _ _ _ h) e)
  · rename_i e
    have hu := memWf_of_fst (transNow_memWf _ _ _ _ _ _ h) e
    exact ite_memWf (setHomeBytes_memWf _ _ _ hu) (storeBytes_memWf hu)

theorem failItem_memWf {s : State} {dest : Nat} {i : SpItem} {reason : Nat} (h : s.memWf) : (failItem s dest i reason).memWf := by
  unfold failItem
  refine ite_memWf h ?_
  refine memWf_of_mem rfl ?_
  dsimp only
  split
  · exact ramoResult_memWf (State.updTeam_memWf (storeRf_memWf h))
  · exact State.updTeam_memWf (storeRf_memWf h)

theorem failItems_memWf {s : State} {dest reason : Nat} {l : List SpItem} (h : s.memWf) : (failItems s dest reason l).memWf :=
  foldl_memWf (fun _ _ hu => failItem_memWf hu) h

theorem execSpindleAgeDepart_nextWf {s : State} (h : s.memWf) : NextWf (execSpindleAgeDepart s) := by
  unfold execSpindleAgeDepart
  dsimp only
  split
  · exact nextWf_next h
  · split
    · exact nextWf_next h
    · exact nextWf_next (progress_memWf (departBufs_memWf h))

theorem sendPacket_memWf {s : State} {d : Nat} {b : SpBuf} {items : List SpItem} (h : s.memWf) : (sendPacket s d b items).memWf := State.send_memWf h

theorem execPacketHandoff_nextWf {s₀ : State} (h : s₀.memWf) : NextWf (execPacketHandoff s₀) := by
  unfold execPacketHandoff
  dsimp only
  split
  · exact nextWf_next h
  · split
    · exact nextWf_next h
    · exact nextWf_next (followImages_memWf (else_memWf sendPacket_memWf (foldl_memWf (fun _ _ hu => failItem_memWf hu) h)))

theorem dropFlight_memWf {s : State} {d : Nat} {f : Flight} (h : s.memWf) : (dropFlight s d f).memWf := h

theorem sendCancel_memWf {s : State} {d dev job n queue count : Nat} (h : s.memWf) : (sendCancel s d dev job n queue count).memWf :=
  State.sendOn_memWf h

theorem execPacketTimeout_nextWf {s : State} (h : s.memWf) : NextWf (execPacketTimeout s) := by
  unfold execPacketTimeout
  dsimp only
  split
  · exact nextWf_next h
  · split
    · exact nextWf_next h
    · split
      · exact nextWf_next (followImages_memWf (failItems_memWf (dropFlight_memWf h)))
      · split
        · exact nextWf_next h
        · exact nextWf_next (sendCancel_memWf (dropFlight_memWf h))

theorem arrive_memWf {s : State} {own : Bool} {m : NetMsg} (h : s.memWf) : OptAll State.memWf (arrive s own m) := by
  unfold arrive
  split
  · exact optAll_some h
  · split
    · split
      · exact optAll_some h
      · exact optAll_none _
    · split
      · exact optAll_some h
      · exact optAll_none _

theorem applyAt_memWf {s : State} {x : ElemFields} {pa : Nat} {e : W64} (h : s.memWf) : (applyAt s x pa e).1.memWf :=
  ite_fst_memWf (setHomeBytes_memWf _ _ _ h) (ite_fst_memWf h (ite_fst_memWf h (setHomeBytes_memWf _ _ _ h)))

theorem applyElem_memWf {s : State} {job : Nat} {x : ElemFields} (h : s.memWf) : (applyElem s job x).1.memWf := by
  unfold applyElem
  dsimp only
  split
  · exact h
  · split
    · exact h
    · split
      · rename_i e'
        exact (memWf_of_fst (walkAccess_memWf _ _ _ _ _ h) e')
      · rename_i e'
        have hu := memWf_of_fst (walkAccess_memWf _ _ _ _ _ h) e'
        exact ite_fst_memWf hu (applyAt_memWf hu)

theorem applyElems_memWf {p : StorePacket} {n : Nat} {l : List Element} {s : State} (h : s.memWf) : (applyElems p n l s).1.memWf := by
  induction l generalizing n s with
  | nil =>
    unfold applyElems
    exact h
  | cons a l ih =>
    unfold applyElems
    dsimp only
    split
    · rename_i e
      exact ih (memWf_of_fst (applyElem_memWf h) e)
    · rename_i e
      exact ih (inboundFault_memWf (memWf_of_fst (applyElem_memWf h) e))

theorem execAggregatedStore_nextWf {p : StorePacket} {s : State} (h : s.memWf) : NextWf (execAggregatedStore p s) := by
  unfold execAggregatedStore
  dsimp only
  split
  · exact nextWf_next h
  · split
    · exact nextWf_next h
    · rename_i e
      exact nextWf_next (State.send_memWf (applyElems_memWf (memWf_of_some (arrive_memWf h) e)))

theorem State.setRq_memWf {s : State} {n : Nat} {q : RecordQueue} (h : s.memWf) : (State.setRq s n q).memWf := h

theorem rqAppend_memWf {s : State} {n : Nat} {words : List W32} (h : s.memWf) : (rqAppend s n words).memWf := h

theorem applyRecord_memWf {s : State} {p : RecordPacket} {r : Nat × List W32} (h : s.memWf) : (applyRecord s p r).1.memWf :=
  ite_fst_memWf h (ite_fst_memWf h (rqAppend_memWf h))

theorem applyRecords_memWf {p : RecordPacket} {n : Nat} {l : List (Nat × List W32)} {s : State} (h : s.memWf) : (applyRecords p n l s).1.memWf := by
  induction l generalizing n s with
  | nil =>
    unfold applyRecords
    exact h
  | cons a l ih =>
    unfold applyRecords
    dsimp only
    split
    · rename_i e
      exact ih (memWf_of_fst (applyRecord_memWf h) e)
    · rename_i e
      exact ih (inboundFault_memWf (memWf_of_fst (applyRecord_memWf h) e))

theorem settleItems_memWf {s : State} {dest : Nat} {l : List (SpItem × ElemAck)} (h : s.memWf) : (settleItems s dest l).memWf := by
  induction l generalizing s with
  | nil =>
    unfold settleItems
    exact h
  | cons a l ih =>
    unfold settleItems
    refine ih ?_
    refine ite_memWf (failItem_memWf h) ?_
    split
    · exact ramoResult_memWf h
    · exact h

theorem execStoreAcknowledgement_nextWf {a : StoreAck} {s₀ : State} (h : s₀.memWf) : NextWf (execStoreAcknowledgement a s₀) := by
  unfold execStoreAcknowledgement
  dsimp only
  split
  · exact nextWf_next h
  · split
    · exact nextWf_next h
    · split
      · exact nextWf_next h
      · rename_i e'
        have hu := memWf_of_some (arrive_memWf h) e'
        split
        · exact nextWf_next hu
        · exact nextWf_next (followImages_memWf (foldl_memWf (fun _ _ hv => State.updTeam_memWf hv) (settleItems_memWf (dropFlight_memWf hu))))

theorem dropRequest_memWf {s : State} {d id : Nat} (h : s.memWf) : (dropRequest s d id).memWf := h

theorem endRsvs_memWf {s : State} {o : Op} {r : RsvsOp} {v : W32} (h : s.memWf) : (endRsvs s o r v).memWf :=
  finishOp_memWf (State.updQ_memWf (State.updTeam_memWf (dropRequest_memWf h)))

theorem execRsvs_nextWf {d : BitVec 6} {q : BitVec 4} {a : BitVec 6} {s : State} (h : s.memWf) : NextWf (execRsvs d q a s) := by
  unfold execRsvs
  refine runWord_nextWf h ?_
  dsimp only
  split
  · exact h
  · split
    · exact h
    · split
      · exact h
      · split
        · exact h
        · split
          · exact h
          · split
            · exact State.updQ_memWf h
            · split
              · exact h
              · exact State.send_memWf h

theorem execReservationRequest_nextWf {p : ResvRequest} {s : State} (h : s.memWf) : NextWf (execReservationRequest p s) := by
  unfold execReservationRequest
  dsimp only
  split
  · exact nextWf_next h
  · split
    · exact nextWf_next h
    · rename_i e
      have hu := memWf_of_some (arrive_memWf h) e
      exact nextWf_next (State.send_memWf (ite_memWf (inboundFault_memWf hu) hu))

theorem takeGrant_memWf {s : State} {o : Op} {r : RsvsOp} {g : ResvGrant} (h : s.memWf) : (takeGrant s o r g).memWf :=
  ite_memWf (State.updQ_memWf h) (returnResv_memWf (State.updQ_memWf h))

theorem strayGrant_memWf {s : State} {g : ResvGrant} (h : s.memWf) : (strayGrant s g).memWf := by
  unfold strayGrant
  dsimp only
  split
  · split
    · exact ite_memWf (dropFlight_memWf h) (State.sendOn_memWf (dropFlight_memWf h))
    · exact h
  · exact h

theorem execReservationGrant_nextWf {g : ResvGrant} {s : State} (h : s.memWf) : NextWf (execReservationGrant g s) := by
  unfold execReservationGrant
  split
  · exact nextWf_next h
  · split
    · exact nextWf_next (strayGrant_memWf h)
    · split
      · exact nextWf_next h
      · rename_i e'
        exact nextWf_next (followImages_memWf (endRsvs_memWf (takeGrant_memWf (memWf_of_some (arrive_memWf h) e'))))

theorem execRsvsTimeout_nextWf {s : State} (h : s.memWf) : NextWf (execRsvsTimeout s) := by
  unfold execRsvsTimeout
  dsimp only
  split
  · exact nextWf_next h
  · split
    · split
      · exact nextWf_next h
      · exact nextWf_next (sendCancel_memWf (followImages_memWf (endRsvs_memWf h)))
    · exact nextWf_next h

theorem execReservationCancel_nextWf {p : ResvRequest} {s : State} (h : s.memWf) : NextWf (execReservationCancel p s) := by
  unfold execReservationCancel
  dsimp only
  split
  · exact nextWf_next h
  · split
    · exact nextWf_next h
    · rename_i e
      exact nextWf_next (State.setRq_memWf (memWf_of_some (arrive_memWf h) e))

theorem execReservationReturn_nextWf {p : ResvReturn} {s : State} (h : s.memWf) : NextWf (execReservationReturn p s) := by
  unfold execReservationReturn
  dsimp only
  split
  · exact nextWf_next h
  · split
    · exact nextWf_next h
    · rename_i e
      have hu := memWf_of_some (arrive_memWf h) e
      exact nextWf_next (ite_memWf hu hu)

theorem pushRemote_memWf {s : State} {q v : Nat} {lanes : List Nat} (h : s.memWf) : (pushRemote s q v lanes).all State.memWf := by
  unfold pushRemote
  dsimp only
  split
  · exact insertItems_memWf h (fun _ hu => State.updQ_memWf hu) (fun _ hu => hu)
  · split <;> exact h

theorem execRrpush_nextWf {q : BitVec 4} {v : BitVec 7} {p : BitVec 3} {s : State} (h : s.memWf) : NextWf (execRrpush q v p s) := by
  unfold execRrpush
  refine runWord_nextWf h ?_
  dsimp only
  split
  · exact h
  · split
    · exact h
    · split
      · rename_i e
        exact (laneHazard_memWf h) _ e
      · split
        · exact h
        · split
          · exact withRelease_memWf h (fun _ hu => pushRemote_memWf hu)
          · exact pushRemote_memWf h

theorem failDie_memWf {s : State} {dev d : Nat} (h : s.memWf) : (failDie s dev d).memWf := by
  unfold failDie
  refine foldl_memWf (fun _ _ hu => ?_) h
  split
  · exact failItems_memWf (dropFlight_memWf hu)
  · split
    · split
      · exact endRsvs_memWf hu
      · exact hu
    · exact dropFlight_memWf hu

theorem loseDevice_memWf {s : State} {dev : Nat} (h : s.memWf) : (loseDevice s dev).memWf := foldl_memWf (fun _ _ hu => failDie_memWf hu) h

end Sys2Proof.Machine
end

section
/-! SUPPORT. The launch engine keeps memory canonical (R161 to R206). -/

open Sys2Proof Sys2Proof.Machine

namespace Sys2Proof.Machine

theorem pendLaunch_memWf {s : State} {d k : Nat} (h : s.memWf) : (pendLaunch s d k).memWf := by
  unfold pendLaunch
  dsimp only
  split <;> exact h

theorem formCrews_memWf {s : State} {n : Nat} {all : Bool} (h : s.memWf) : (formCrews s n all).memWf := by
  unfold formCrews
  dsimp only
  split
  · exact h
  · exact ite_memWf h h

theorem acceptLaunch_memWf {s : State} {d ctx : Nat} {w : List W64} {ring : Option Nat} (h : s.memWf) : (acceptLaunch s d ctx w ring).1.memWf := by
  unfold acceptLaunch
  refine ite_memWf ?_ ?_
  · dsimp only
    split
    · exact h
    · exact formCrews_memWf h
  · refine pendLaunch_memWf ?_
    dsimp only
    split
    · exact h
    · exact formCrews_memWf h

theorem submitLaunch_memWf {s : State} {d ctx ceil : Nat} {w : List W64} {ring : Option Nat} (h : s.memWf) : (submitLaunch s d ctx ceil w ring).1.memWf :=
  ite_fst_memWf h (acceptLaunch_memWf h)

theorem wakeHeld_memWf {s : State} {e : Nat} (h : s.memWf) : (wakeHeld s e).memWf :=
  foldl_memWf (fun _ _ hu => foldl_memWf (fun _ _ hv => ite_memWf (pendLaunch_memWf hv) hv) hu) h

theorem reachWaiters_memWf {s : State} {e : Nat} (h : s.memWf) : (reachWaiters s e).memWf := h

theorem evAdd_memWf {s : State} {e : Nat} {amount : Int} (h : s.memWf) : (evAdd s e amount).1.memWf := by
  unfold evAdd
  dsimp only
  refine wakeHeld_memWf (reachWaiters_memWf ?_)
  exact events_memWf h

theorem hostPut_memWf {s : State} {f : Nat} {bs : List Byte} (h : s.memWf) : (hostPut s f bs).memWf :=
  ite_memWf h (ite_memWf (setHomeBytes_memWf _ _ _ h) h)

theorem hostDrain_memWf {s : State} {f : Nat} (h : s.memWf) : (hostDrain s f).memWf := foldl_memWf (fun _ _ hu => hostPut_memWf hu) h

theorem sealQueue_memWf {s : State} {n : Nat} (h : s.memWf) : (sealQueue s n).memWf := ite_memWf h (formCrews_memWf h)

theorem detachQueue_memWf {s : State} {n : Nat} (h : s.memWf) : (detachQueue s n).memWf := ite_memWf (sealQueue_memWf h) h

theorem completeLaunch_memWf {s : State} {d k : Nat} (h : s.memWf) : (completeLaunch s d k).memWf := by
  have hin : ∀ {u : State} (o : Option Nat), u.memWf → (match o with | none => u | some n => u.setRq n { u.rq n with fed := 0 }).memWf := by
    rintro u (_ | n) hu <;> exact hu
  have hev : ∀ {u : State} (o : Option Nat), u.memWf → (match o with | none => u | some v => (evAdd u v 1).1).memWf := by
    rintro u (_ | v) hu
    · exact hu
    · exact evAdd_memWf hu
  have hout : ∀ {u : State} (o : Option Nat) (c : Bool), u.memWf → (match o with | some n => if c then detachQueue u n else u | none => u).memWf := by
    rintro u (_ | n) c hu
    · exact hu
    · exact ite_memWf (detachQueue_memWf hu) hu
  unfold completeLaunch
  dsimp only
  split
  · exact hout _ _ (hev _ (hin _ h))
  · exact hostPut_memWf (hout _ _ (hev _ (hin _ h)))

theorem settleLaunches_memWf {n : Nat} {s : State} (h : s.memWf) : (settleLaunches n s).memWf := by
  induction n generalizing s with
  | zero =>
    unfold settleLaunches
    exact h
  | succ n ih =>
    unfold settleLaunches
    split
    · exact h
    · exact ih (completeLaunch_memWf h)

theorem readObject_memWf {s : State} {d ctx : Nat} {va : W64} {n : Nat} {sup : Bool} (h : s.memWf) : (readObject s d ctx va n sup).1.memWf := by
  unfold readObject
  split
  · exact h
  · split
    · rename_i e
      exact (memWf_of_fst (transNow_memWf _ _ _ _ _ _ h) e)
    · rename_i e
      exact (memWf_of_fst (transNow_memWf _ _ _ _ _ _ h) e)

theorem launchFrom_memWf {s : State} {d ctx ceil : Nat} {va : W64} {sup : Bool} {ring : Option Nat} (h : s.memWf) :
    (launchFrom s d ctx ceil va sup ring).1.memWf := by
  unfold launchFrom
  split
  · exact h
  · split
    · rename_i e
      exact (memWf_of_fst (readObject_memWf h) e)
    · rename_i e
      exact submitLaunch_memWf (memWf_of_fst (readObject_memWf h) e)

theorem issueWord_memWf {s : State} {clears : Bool} {w : EngWord} {d n : Nat} (h : s.memWf) : (issueWord s clears w d n).memWf := ite_memWf h h

theorem withEvent_memWf {s : State} {a : BitVec 6} {f : Nat → Res} (h : s.memWf) (hf : ∀ x, (f x).all State.memWf) : (withEvent s a f).all State.memWf := by
  unfold withEvent
  dsimp only
  split
  · exact hf _
  · exact h

theorem addWord_nextWf {i : Instr} {a : BitVec 6} {amount : Team → ℤ} {sc : BitVec 3} {s : State} (h : s.memWf) : NextWf (addWord i a amount sc s) :=
  runWord_nextWf h (withEvent_memWf h (fun _ => issueWord_memWf h))

theorem execEvsig_nextWf {a : BitVec 6} {sc : BitVec 3} {s : State} (h : s.memWf) : NextWf (execEvsig a sc s) := addWord_nextWf h

theorem execEvadd_nextWf {a b : BitVec 6} {sc : BitVec 3} {s : State} (h : s.memWf) : NextWf (execEvadd a b sc s) := addWord_nextWf h

theorem execEvwait_nextWf {a b : BitVec 6} {sc : BitVec 3} {s : State} (h : s.memWf) : NextWf (execEvwait a b sc s) := by
  unfold execEvwait
  refine runWord_nextWf h ?_
  refine withEvent_memWf h (fun _ => ?_)
  dsimp only
  split
  · exact h
  · exact withAcquire_memWf h (fun _ hu => hu)

theorem withQueue_memWf {s : State} {a : BitVec 6} {f : Nat → Res} (h : s.memWf) (hf : ∀ x, (f x).all State.memWf) : (withQueue s a f).all State.memWf := by
  unfold withQueue
  dsimp only
  split
  · exact hf _
  · exact h

theorem execRqbindAttach_nextWf {a : BitVec 6} {s : State} (h : s.memWf) : NextWf (execRqbindAttach a s) := by
  unfold execRqbindAttach
  refine runWord_nextWf h ?_
  refine withQueue_memWf h (fun _ => ?_)
  dsimp only
  split <;> exact h

theorem execRqbindDetach_nextWf {a : BitVec 6} {s : State} (h : s.memWf) : NextWf (execRqbindDetach a s) := by
  unfold execRqbindDetach
  refine runWord_nextWf h ?_
  refine withQueue_memWf h (fun _ => ?_)
  split
  · exact h
  · exact settleLaunches_memWf (detachQueue_memWf h)

theorem giveScalars_memWf {s : State} {o : Op} {d : Nat} {vs : List W32} (h : s.memWf) : (giveScalars s o d vs).memWf :=
  finishOp_memWf (State.updTeam_memWf h)

theorem execLaunchPortRecord_nextWf {s : State} (h : s.memWf) : NextWf (execLaunchPortRecord s) := by
  unfold execLaunchPortRecord
  dsimp only
  split
  · exact nextWf_next h
  · split
    · exact nextWf_next h
    · exact nextWf_next (settleLaunches_memWf (giveResult_memWf (State.updQ_memWf (submitLaunch_memWf h))))

theorem execFedCrewTimeout_nextWf {s : State} (h : s.memWf) : NextWf (execFedCrewTimeout s) := by
  unfold execFedCrewTimeout
  dsimp only
  split
  · exact nextWf_next h
  · exact nextWf_next (formCrews_memWf h)

theorem execRecordPacket_nextWf {p : RecordPacket} {s : State} (h : s.memWf) : NextWf (execRecordPacket p s) := by
  unfold execRecordPacket
  dsimp only
  split
  · exact nextWf_next h
  · split
    · exact nextWf_next h
    · rename_i e
      exact nextWf_next (State.send_memWf (formCrews_memWf (applyRecords_memWf (memWf_of_some (arrive_memWf h) e))))

end Sys2Proof.Machine
end

section
/-! SUPPORT. The compositing engine keeps memory canonical (R486 to R511). -/

open Sys2Proof Sys2Proof.Machine

namespace Sys2Proof.Machine

theorem State.setPlan_memWf {s : State} {d k : Nat} {p : Plan} (h : s.memWf) : (State.setPlan s d k p).memWf := h

theorem mapRun_memWf {s : State} {d k : Nat} {f : Run → Run} (h : s.memWf) : (mapRun s d k f).memWf := h

theorem engPages_memWf {s : State} {d ctx : Nat} {sup : Bool} {a : Access} {l : List Nat} (h : s.memWf) : (engPages s d ctx sup a l).1.memWf := by
  induction l generalizing s with
  | nil =>
    unfold engPages
    exact h
  | cons a l ih =>
    unfold engPages
    split
    · rename_i e
      exact (memWf_of_fst (transNow_memWf _ _ _ _ _ _ h) e)
    · rename_i e
      have hu := memWf_of_fst (transNow_memWf _ _ _ _ _ _ h) e
      split
      · rename_i e'
        exact (memWf_of_fst (ih hu) e')
      · rename_i e'
        exact (memWf_of_fst (ih hu) e')

theorem engRead_memWf {s : State} {d ctx : Nat} {sup : Bool} {va n : Nat} (h : s.memWf) : (engRead s d ctx sup va n).1.memWf := by
  unfold engRead
  dsimp only
  split
  · rename_i e
    exact (memWf_of_fst (engPages_memWf h) e)
  · rename_i e
    exact (memWf_of_fst (engPages_memWf h) e)

theorem engByte_memWf {d : Nat} {s : State} {e : Nat × Byte} (h : s.memWf) : (engByte d s e).memWf := l2Byte_memWf h

theorem engWrite_memWf {s : State} {d : Nat} {pages : List (Nat × Nat)} {va : Nat} {bs : List Byte} {bad : Bool} (h : s.memWf) :
    (engWrite s d pages va bs bad).memWf :=
  then_memWf (fun hv => foldl_memWf (fun _ _ hu => spoilCopy_memWf hu) hv) (foldl_memWf (fun _ _ hu => engByte_memWf hu) h)

theorem readRanks_memWf {s : State} {d ctx : Nat} {sup : Bool} {w : List W64} (h : s.memWf) : (readRanks s d ctx sup w).1.memWf := by
  unfold readRanks
  dsimp only
  split
  · exact h
  · split
    · exact h
    · split
      · rename_i e
        exact (memWf_of_fst (engRead_memWf h) e)
      · rename_i e
        exact (memWf_of_fst (engRead_memWf h) e)
      · rename_i e
        have hu := memWf_of_fst (engRead_memWf h) e
        split
        · exact hu
        · split
          · exact ite_fst_memWf hu hu
          · exact hu

theorem planStatus_memWf {s : State} {t : TeamId} {sup : Bool} {va : W64} (h : s.memWf) : (planStatus s t sup va).1.memWf := by
  unfold planStatus
  dsimp only
  split
  · exact h
  · split
    · rename_i e
      exact (memWf_of_fst (readObject_memWf h) e)
    · rename_i e
      have hu := memWf_of_fst (readObject_memWf h) e
      split
      · exact hu
      · split
        · rename_i e'
          exact (memWf_of_fst (readRanks_memWf hu) e')
        · rename_i e'
          split <;> exact (memWf_of_fst (readRanks_memWf hu) e')

theorem registerPlan_memWf {s : State} {d ctx : Nat} {w : List W64} {r : Nat} {tab : List (Nat × Nat × Nat)} (h : s.memWf) :
    (registerPlan s d ctx w r tab).1.memWf :=
  h

theorem planReturn_memWf {s : State} {o : Op} {d : Nat} {va : W64} {acq : Option Nat} {sup : Bool} (h : s.memWf) : (planReturn s o d va acq sup).memWf := by
  unfold planReturn
  refine ite_memWf h ?_
  dsimp only
  split
  · rename_i e
    refine giveScalars_memWf ?_
    refine memWf_of_fst ?_ e
    refine planStatus_memWf ?_
    split
    · exact State.acquireFor_memWf (drainWb_memWf h)
    · exact drainWb_memWf h
  · rename_i e
    refine giveScalars_memWf ?_
    refine registerPlan_memWf ?_
    refine memWf_of_fst ?_ e
    refine planStatus_memWf ?_
    split
    · exact State.acquireFor_memWf (drainWb_memWf h)
    · exact drainWb_memWf h

theorem finishRun_memWf {s : State} {d k : Nat} (h : s.memWf) : (finishRun s d k).memWf := by
  have hev : ∀ {u : State} (o : Option Nat), u.memWf → (match o with | none => u | some e => (evAdd u e 1).1).memWf := by
    rintro u (_ | e) hu
    · exact hu
    · exact evAdd_memWf hu
  unfold finishRun
  dsimp only
  split
  · exact h
  · split
    case _ e => exact memWf_of_fst (relReady_memWf h) e
    case _ e =>
      have hu := hev (pEvent (s.plan d k).words) (writeBackL2_memWf _ d (memWf_of_fst (relReady_memWf h) e))
      refine settleLaunches_memWf ((fun hv => ite_memWf (State.setPlan_memWf hv) hv) ?_)
      split
      · exact State.setPlan_memWf hu
      · exact ite_memWf (State.setPlan_memWf hu) (giveResult_memWf (State.updQ_memWf (State.setPlan_memWf hu)))

theorem endRun_memWf {s : State} {d k state reason : Nat} (h : s.memWf) : (endRun s d k state reason).memWf :=
  ite_memWf h (finishRun_memWf (dropLeave_memWf h))

theorem settleRuns_memWf {s : State} (h : s.memWf) : (settleRuns s).memWf :=
  foldl_memWf (fun _ _ hu => foldl_memWf (fun _ _ hv => ite_memWf (finishRun_memWf hv) hv) hu) h

theorem putFinal_memWf {s : State} {d k u : Nat} {x : PlanUnit} (h : s.memWf) : (putFinal s d k u x).1.memWf := by
  unfold putFinal
  dsimp only
  split
  · rename_i e
    exact (memWf_of_fst (engPages_memWf h) e)
  · rename_i e
    have hu := memWf_of_fst (engPages_memWf h) e
    exact ite_memWf (engWrite_memWf hu) (writeBackL2_memWf _ _ (engWrite_memWf hu))

theorem settleUnit_memWf {s : State} {d k u : Nat} {x : PlanUnit} (h : s.memWf) : (settleUnit s d k u x).1.memWf :=
  ite_fst_memWf (mapRun_memWf h) (putFinal_memWf h)

theorem sendChunk_memWf {d k c : Nat} {s : State} {e : Nat × Nat} (h : s.memWf) : (sendChunk d k c s e).memWf :=
  ite_memWf h (State.send_memWf (mapRun_memWf h))

theorem advance_memWf {s : State} {d k : Nat} (h : s.memWf) : (advance s d k).memWf :=
  ite_memWf h (then_memWf endRun_memWf (foldl_memWf (fun _ _ hu => foldl_memWf (fun _ _ hv => sendChunk_memWf hv) hu) h))

theorem loadUnit_memWf {s : State} {d k u : Nat} (h : s.memWf) : (loadUnit s d k u).1.memWf := by
  unfold loadUnit
  dsimp only
  split
  · rename_i e
    exact (memWf_of_fst (engRead_memWf h) e)
  · rename_i e
    have hu := memWf_of_fst (engRead_memWf h) e
    split
    · exact ite_fst_memWf (settleUnit_memWf hu) hu
    · exact settleUnit_memWf hu

theorem loadUnits_memWf {d k : Nat} {l : List Nat} {s : State} (h : s.memWf) : (loadUnits d k l s).1.memWf := by
  induction l generalizing s with
  | nil =>
    unfold loadUnits
    exact h
  | cons a l ih =>
    unfold loadUnits
    split
    · rename_i e
      exact (memWf_of_fst (loadUnit_memWf h) e)
    · rename_i e
      exact ih (memWf_of_fst (loadUnit_memWf h) e)

theorem startRun_memWf {s : State} {d k : Nat} {r : Run} (h : s.memWf) : (startRun s d k r).memWf := by
  unfold startRun
  refine ite_memWf (endRun_memWf (State.setPlan_memWf h)) ?_
  split
  · rename_i e
    exact endRun_memWf (memWf_of_fst (loadUnits_memWf (State.setPlan_memWf h)) e)
  · rename_i e
    exact advance_memWf (memWf_of_fst (loadUnits_memWf (State.setPlan_memWf h)) e)

theorem withPlan_memWf {s : State} {a : BitVec 6} {f : W32 → Nat → Nat → Plan → Res} (h : s.memWf) (hf : ∀ x y z w, (f x y z w).all State.memWf) :
    (withPlan s a f).all State.memWf := by
  unfold withPlan
  dsimp only
  split
  · exact h
  · exact hf _ _ _ _

theorem execCplanFree_nextWf {a : BitVec 6} {s : State} (h : s.memWf) : NextWf (execCplanFree a s) := by
  unfold execCplanFree
  refine runWord_nextWf h ?_
  refine withPlan_memWf h (fun _ _ _ _ => ?_)
  split <;> exact h

theorem reachDie_memWf {s : State} {key d : Nat} (h : s.memWf) : (reachDie s key d).memWf :=
  ite_memWf (drainWb_memWf h) (invalL2_memWf _ _ (releaseAt_memWf _ _ _ _ h))

theorem engineAcquire_memWf {s : State} {key d scope : Nat} (h : s.memWf) : (engineAcquire s key d scope).memWf :=
  ite_memWf (State.acquireFor_memWf h) (invalL2_memWf _ _ (State.acquireFor_memWf h))

theorem execCstart_nextWf {a : BitVec 6} {s : State} (h : s.memWf) : NextWf (execCstart a s) := by
  unfold execCstart
  refine runWord_nextWf h ?_
  refine withPlan_memWf h (fun _ _ _ _ => ?_)
  dsimp only
  split
  · exact h
  · split
    · exact h
    · split
      · rename_i e
        have hu := memWf_of_fst (readRanks_memWf (ite_memWf (engineAcquire_memWf (reachDie_memWf h)) (reachDie_memWf h))) e
        exact hu
      · rename_i e
        have hu := memWf_of_fst (readRanks_memWf (ite_memWf (engineAcquire_memWf (reachDie_memWf h)) (reachDie_memWf h))) e
        split
        · rename_i e'
          exact wholeFault_memWf (memWf_of_fst (transPages_memWf hu) e')
        · rename_i e'
          have hv := memWf_of_fst (transPages_memWf hu) e'
          split
          · rename_i e''
            exact wholeFault_memWf (memWf_of_fst (transPages_memWf hv) e'')
          · rename_i e''
            exact startRun_memWf (State.clearIdem_memWf (memWf_of_fst (transPages_memWf hv) e''))

theorem execCwait_nextWf {d a : BitVec 6} {s : State} (h : s.memWf) : NextWf (execCwait d a s) := by
  unfold execCwait
  refine runWord_nextWf h ?_
  refine withPlan_memWf h (fun _ _ _ _ => ?_)
  dsimp only
  split
  · exact h
  · split
    · exact withAcquire_memWf h (fun _ hu => hu)
    · exact h

theorem tileWord_nextWf {i : Instr} {d a b : BitVec 6} {table : Option Nat} {s : State} (h : s.memWf) : NextWf (tileWord i d a b table s) := by
  unfold tileWord
  refine runWord_nextWf h ?_
  dsimp only
  split
  · exact h
  · split
    · rename_i e'
      exact wholeFault_memWf (memWf_of_fst (transPages_memWf h) e')
    · rename_i e'
      have hu := memWf_of_fst (transPages_memWf h) e'
      split
      · rename_i e''
        exact wholeFault_memWf (memWf_of_fst (transPages_memWf hu) e'')
      · rename_i e''
        exact State.mapTeam_memWf (startOp_memWf (memWf_of_fst (transPages_memWf hu) e''))

theorem execTileCodingComplete_nextWf {s : State} (h : s.memWf) : NextWf (execTileCodingComplete s) := by
  unfold execTileCodingComplete
  refine siteOp_nextWf h (fun _ _ hu => ?_)
  dsimp only
  split
  · exact else_memWf (fun hx => followImages_memWf (finishOp_memWf (State.updTeam_memWf (then_memWf State.releaseFor_memWf (foldl_memWf
      (fun _ _ hv => dropCopies_memWf hv) (engWrite_memWf (then_memWf engineAcquire_memWf (reachDie_memWf hx)))))))) (ite_fst_memWf (relReady_memWf hu) hu)
  · exact hu

theorem ackChunk_memWf {s : State} {p : Plan} {c : Chunk} (h : s.memWf) : (ackChunk s p c).memWf := State.send_memWf h

theorem storeFinals_memWf {d k : Nat} {l : List (Nat × List W64 × Bool × Flags)} {s : State} (h : s.memWf) : (storeFinals d k l s).1.memWf := by
  induction l generalizing s with
  | nil =>
    unfold storeFinals
    exact h
  | cons a l ih =>
    obtain ⟨u, v, bad, f⟩ := a
    unfold storeFinals
    split
    case _ e => exact memWf_of_fst (putFinal_memWf h) e
    case _ e => exact ih (memWf_of_fst (putFinal_memWf h) e)

theorem keepStatus_memWf {d k : Nat} {p : Plan} {s : State} (h : s.memWf) : (keepStatus d k p s).memWf := ite_memWf h h

theorem takeChunk_memWf {s : State} {d k : Nat} {c : Chunk} (h : s.memWf) : (takeChunk s d k c).memWf := by
  unfold takeChunk
  refine ite_memWf (endRun_memWf (mapRun_memWf h)) ?_
  refine ite_memWf ?_ (ackChunk_memWf (mapRun_memWf (mapRun_memWf h)))
  split
  · rename_i e
    exact endRun_memWf (memWf_of_fst (storeFinals_memWf (mapRun_memWf h)) e)
  · rename_i e
    exact advance_memWf (ackChunk_memWf (keepStatus_memWf (memWf_of_fst (storeFinals_memWf (mapRun_memWf h)) e)))

theorem execChunkArrival_nextWf {c : Chunk} {s : State} (h : s.memWf) : NextWf (execChunkArrival c s) := by
  unfold execChunkArrival
  dsimp only
  split
  · exact nextWf_next h
  · split
    · exact nextWf_next h
    · split
      · exact nextWf_next h
      · split
        · exact nextWf_next h
        · rename_i e'
          have hu := memWf_of_some (arrive_memWf h) e'
          split
          · exact nextWf_next (ackChunk_memWf hu)
          · split
            · exact nextWf_next (endRun_memWf hu)
            · exact nextWf_next (takeChunk_memWf hu)

theorem burstUnits_memWf {d k : Nat} {isL : Bool} {l : List (Nat × List W64 × Bool × Flags)} {s : State} (h : s.memWf) :
    (burstUnits d k isL l s).1.memWf := by
  induction l generalizing s with
  | nil =>
    unfold burstUnits
    exact h
  | cons a l ih =>
    obtain ⟨u, v, bad, f⟩ := a
    unfold burstUnits
    dsimp only
    split
    case _ e => exact memWf_of_fst (settleUnit_memWf h) e
    case _ e => exact ih (memWf_of_fst (settleUnit_memWf h) e)

theorem execReductionBurst_nextWf {s : State} (h : s.memWf) : NextWf (execReductionBurst s) := by
  unfold execReductionBurst
  dsimp only
  split
  · exact nextWf_next h
  · split
    · exact nextWf_next h
    · split
      · exact nextWf_next h
      · exact nextWf_next (askLeave_memWf (mapRun_memWf h))
      · split
        · rename_i e''
          exact nextWf_next (returnLeave_memWf (endRun_memWf (memWf_of_fst (burstUnits_memWf (mapRun_memWf h)) e'')))
        · rename_i e''
          exact nextWf_next (returnLeave_memWf (advance_memWf (memWf_of_fst (burstUnits_memWf (mapRun_memWf h)) e'')))

theorem execChunkAcknowledgement_nextWf {s : State} (h : s.memWf) : NextWf (execChunkAcknowledgement s) := by
  unfold execChunkAcknowledgement
  dsimp only
  split
  · exact nextWf_next h
  · split
    · exact nextWf_next h
    · split
      · exact nextWf_next h
      · rename_i e'
        exact nextWf_next (advance_memWf (mapRun_memWf (memWf_of_some (arrive_memWf h) e')))

theorem execRunTimeout_nextWf {s : State} (h : s.memWf) : NextWf (execRunTimeout s) := by
  unfold execRunTimeout
  dsimp only
  split
  · exact nextWf_next h
  · exact nextWf_next (endRun_memWf h)

theorem execDeviceUnreachable_nextWf {dev : BitVec 17} {s₀ : State} (h : s₀.memWf) : NextWf (execDeviceUnreachable dev s₀) :=
  nextWf_next (followImages_memWf (foldl_memWf (fun _ _ hu => endRun_memWf hu) (loseDevice_memWf h)))

theorem execFreqWrite_nextWf {off : BitVec 9} {value : W64} {s : State} (h : s.memWf) : NextWf (execFreqWrite off value s) := by
  unfold execFreqWrite
  dsimp only
  split <;> exact nextWf_next h

theorem portStart_memWf {s : State} {key q d k : Nat} {w : List W32} (h : s.memWf) : (portStart s key q d k w).memWf := by
  unfold portStart
  dsimp only
  split
  · rename_i e
    have hu := memWf_of_fst (readRanks_memWf (State.updQ_memWf (ite_memWf (engineAcquire_memWf (reachDie_memWf h)) (reachDie_memWf h)))) e
    exact endRun_memWf (State.setPlan_memWf hu)
  · rename_i e
    have hu := memWf_of_fst (readRanks_memWf (State.updQ_memWf (ite_memWf (engineAcquire_memWf (reachDie_memWf h)) (reachDie_memWf h)))) e
    split
    · rename_i e'
      exact endRun_memWf (State.setPlan_memWf (memWf_of_fst (engPages_memWf hu) e'))
    · rename_i e'
      have hv := memWf_of_fst (engPages_memWf hu) e'
      split
      · rename_i e''
        exact endRun_memWf (State.setPlan_memWf (memWf_of_fst (engPages_memWf hv) e''))
      · rename_i e''
        exact startRun_memWf (memWf_of_fst (engPages_memWf hv) e'')

theorem execCompositingPortRecord_nextWf {s : State} (h : s.memWf) : NextWf (execCompositingPortRecord s) := by
  unfold execCompositingPortRecord
  dsimp only
  split
  · exact nextWf_next h
  · split
    · exact nextWf_next h
    · split
      · exact nextWf_next (giveResult_memWf (State.updQ_memWf h))
      · split
        · exact nextWf_next (giveResult_memWf (State.updQ_memWf h))
        · split
          · split
            · exact nextWf_next (giveResult_memWf (State.updQ_memWf h))
            · exact nextWf_next (portStart_memWf (State.updQ_memWf h))
          · exact nextWf_next (giveResult_memWf (ite_memWf (endRun_memWf (State.updQ_memWf h)) (State.updQ_memWf h)))

end Sys2Proof.Machine
end

section
/-! SUPPORT. The queue words keep memory canonical (R143 to R145). -/

open Sys2Proof Sys2Proof.Machine

namespace Sys2Proof.Machine

theorem execQbind_nextWf {q : BitVec 4} {a : BitVec 6} {s : State} (h : s.memWf) : NextWf (execQbind q a s) := by
  unfold execQbind
  refine runWord_nextWf h ?_
  dsimp only
  split
  · exact h
  · split
    · exact h
    · split
      · exact h
      · split
        · split
          · exact h
          · exact State.updQ_memWf (returnResv_memWf h)
        · split
          · exact h
          · exact State.updQ_memWf (returnResv_memWf h)

theorem pushGive_memWf {s : State} {q : Nat} {x : QReg} {l : List Pushed} (h : s.memWf) : (pushGive s q x l).memWf :=
  ite_memWf (formCrews_memWf (foldl_memWf (fun _ _ hu => rqAppend_memWf hu) (State.updQ_memWf (ite_memWf h h)))) (State.updQ_memWf (State.updQ_memWf
    (ite_memWf h h)))

theorem pushDeliver_memWf {q n : Nat} {s : State} (h : s.memWf) : (pushDeliver q n s).all State.memWf := by
  induction n generalizing s with
  | zero =>
    unfold pushDeliver
    exact h
  | succ n ih =>
    unfold pushDeliver
    dsimp only
    split
    · exact h
    · split
      · exact State.updQ_memWf h
      · split
        · exact ih (pushGive_memWf h)
        · exact h

theorem pushWord_memWf {q : BitVec 4} {v : BitVec 7} {n : BitVec 5} {team : Bool} {lanes : List Nat} {s : State} (h : s.memWf) :
    (pushWord q v n team lanes s).all State.memWf := by
  unfold pushWord
  dsimp only
  split
  · exact pushDeliver_memWf h
  · split
    · exact h
    · split
      · exact h
      · split
        · exact pushRemote_memWf h
        · exact pushDeliver_memWf (State.updQ_memWf (ite_fst_memWf (pushBatches_memWf h) h))

theorem execQpushTeam_nextWf {q : BitVec 4} {v : BitVec 7} {n : BitVec 5} {s : State} (h : s.memWf) : NextWf (execQpushTeam q v n s) := by
  unfold execQpushTeam
  refine runWord_nextWf h ?_
  dsimp only
  split
  · rename_i e
    exact (laneHazard_memWf h) _ e
  · exact pushWord_memWf h

theorem popTake_memWf {s : State} {q : Nat} {x : QReg} {k : Nat} (h : s.memWf) : (popTake s q x k).memWf :=
  ite_memWf h (State.updQ_memWf (ite_memWf (popRays_memWf h) h))

theorem popWord_memWf {q : BitVec 4} {v : BitVec 7} {n : BitVec 5} {p : BitVec 3} {wait team : Bool} {s : State} (h : s.memWf) :
    (popWord q v n p wait team s).all State.memWf := by
  unfold popWord
  dsimp only
  split
  · exact h
  · have hu : ∀ want, (if (s.team.qreg q.toNat).port = 1 then popReported s q.toNat want 257 else s).memWf := fun _ => ite_memWf (popReported_memWf h) h
    replace hu := hu (if team = true then 1 else (lanesOf s.team.id.width s.team.mSrc).length)
    generalize (if (s.team.qreg q.toNat).port = 1 then _ else s : State) = u at hu ⊢
    refine ite_all hu ?_
    split
    case _ e =>
      refine memWf_of_some_fst ?_ e
      split
      · exact popFault_memWf hu
      · exact optAll_none _
    case _ => exact State.mapTeam_memWf (popTake_memWf hu)

end Sys2Proof.Machine
end

section
/-! SUPPORT. What comes back to a word keeps memory canonical (R29, R30, R252, R255). -/

open Sys2Proof Sys2Proof.Machine

namespace Sys2Proof.Machine

theorem wordReturn_memWf {s : State} {o : Op} {k : Nat} (h : s.memWf) : (wordReturn s o k).memWf := by
  unfold wordReturn
  dsimp only
  split
  · exact returnPmap_memWf h
  · exact planReturn_memWf h
  · exact giveScalars_memWf h
  · refine ite_memWf h ?_
    refine giveScalars_memWf ?_
    refine settleLaunches_memWf ?_
    refine launchFrom_memWf ?_
    split
    · exact State.acquireFor_memWf (drainWb_memWf h)
    · exact drainWb_memWf h
  · refine ite_memWf h ?_
    split
    · rename_i e'
      exact (memWf_of_fst (relReady_memWf h) e')
    · rename_i e'
      exact finishOp_memWf (State.updTeam_memWf (settleLaunches_memWf (evAdd_memWf (State.releaseFor_memWf (memWf_of_fst (relReady_memWf h) e')))))
  · exact h

theorem execLoadReturn_nextWf {remote : List RemoteLine} {s : State} (h : s.memWf) : NextWf (execLoadReturn remote s) := by
  unfold execLoadReturn
  split
  · exact nextWf_next h
  · split
    · exact nextWf_next h
    · split
      · exact nextWf_next h
      · refine nextWf_next ?_
        split
        · exact wordReturn_memWf h
        · exact returnLoad_memWf h

theorem hostAnswer_nextWf {s : State} {f : State → Op → AtomicOp → AtLane → State} (h : s.memWf) (hf : ∀ u y z w, u.memWf → (f u y z w).memWf) :
    NextWf (hostAnswer s f) := by
  unfold hostAnswer
  refine siteOp_nextWf h (fun _ _ hu => ?_)
  split
  · split
    · exact ite_memWf hu (followImages_memWf (atSettle_memWf (hf _ _ _ _ hu)))
    · exact hu
  · exact hu

theorem execHostAtomicCompletion_nextWf {reply : HostReply} {old : BitVec 128} {s : State} (h : s.memWf) : NextWf (execHostAtomicCompletion reply old s) := by
  unfold execHostAtomicCompletion
  refine hostAnswer_nextWf h (fun _ _ _ _ hu => ?_)
  dsimp only
  split
  · exact giveOld_memWf (hostApplied_memWf hu)
  · exact giveMark_memWf hu
  · exact giveMark_memWf hu
  · exact giveMark_memWf hu

theorem execHostAtomicTimeout_nextWf {applied : Bool} {old : BitVec 128} {s : State} (h : s.memWf) : NextWf (execHostAtomicTimeout applied old s) :=
  hostAnswer_nextWf h (fun _ _ _ _ hu => giveMark_memWf (ite_memWf (hostApplied_memWf hu) hu))

end Sys2Proof.Machine
end

section
/-! SUPPORT. Binding, starting, saving, restoring and ending crews keep memory canonical (R163 to R201). -/

open Sys2Proof Sys2Proof.Machine

namespace Sys2Proof.Machine

theorem bindSlot_memWf {s : State} {die core slot : Nat} (h : s.memWf) : (bindSlot s die core slot).memWf := by
  unfold bindSlot
  refine ite_memWf h ?_
  refine ite_memWf h ?_
  dsimp only
  split
  · exact h
  · exact settleFusion_memWf h

theorem leavesBack_memWf {s : State} {c : Nat} (h : s.memWf) : (leavesBack s c).memWf :=
  foldl_memWf (fun _ _ hu => State.updTeam_memWf (dropLeave_memWf hu)) (foldl_memWf (fun _ _ hu => dropLeave_memWf hu) (foldl_memWf
    (fun _ _ hu => dropLeave_memWf hu) h))

theorem freeArray_memWf {s : State} {c : Nat} (h : s.memWf) : (freeArray s c).memWf :=
  foldl_memWf (fun _ _ hu => ite_memWf (ite_memWf (stopArray_memWf hu) hu) (ite_memWf (stopArray_memWf hu) hu)) h

theorem dropFills_memWf {s : State} {c : Nat} (h : s.memWf) : (dropFills s c).memWf :=
  foldl_memWf (fun _ _ hu => ite_memWf hu (leftWindow_memWf (abandonFill_memWf hu))) h

theorem stopEngines_memWf {s : State} {c : Nat} (h : s.memWf) : (stopEngines s c).memWf :=
  State.setCrew_memWf (foldl_memWf (fun _ _ hu => dropWalks_memWf hu) (dropFills_memWf (leavesBack_memWf (freeArray_memWf h))))

theorem saveCrew_memWf {s : State} {c : Nat} (h : s.memWf) : (saveCrew s c).memWf := stopEngines_memWf (beginSave_memWf h)

theorem emptySlots_memWf {s : State} {c : Nat} (h : s.memWf) : (emptySlots s c).memWf := foldl_memWf (fun _ _ hu => ite_memWf hu hu) h

theorem unfuse_memWf {s : State} {cr : Crew} (h : s.memWf) : (unfuse s cr).memWf := settleFusion_memWf h

theorem settleWaiters_memWf {s : State} (h : s.memWf) : (settleWaiters s).memWf := foldl_memWf (fun _ _ hu => ite_memWf hu hu) h

theorem promoteSaved_memWf {s : State} {ctx cls : Nat} (h : s.memWf) : (promoteSaved s ctx cls).memWf :=
  foldl_memWf (fun _ _ hu => ite_memWf (syncImage_memWf hu) hu) h

theorem promoteAll_memWf {s : State} {ctx : Nat} (h : s.memWf) : (promoteAll s ctx).memWf := by
  unfold promoteAll
  refine foldl_memWf (fun _ _ hu => ?_) h
  refine ite_memWf ?_ hu
  split
  · exact promoteSaved_memWf hu
  · exact hu

theorem captureCrew_memWf {s : State} {c : Nat} (h : s.memWf) : (captureCrew s c).memWf :=
  promoteAll_memWf (writeImage_memWf (unfuse_memWf (emptySlots_memWf (foldl_memWf (fun _ _ hu => State.updTeam_memWf hu) (foldl_memWf
    (fun _ _ hu => flushTeam_memWf hu) (foldl_memWf (fun _ _ hu => releaseAt_memWf _ _ _ _ hu) h))))))

theorem execSaveComplete_nextWf {s : State} (h : s.memWf) : NextWf (execSaveComplete s) := by
  unfold execSaveComplete
  dsimp only
  split
  · split
    · exact nextWf_next (stopEngines_memWf h)
    · split
      · split
        · exact nextWf_next (captureCrew_memWf (stopEngines_memWf h))
        · exact nextWf_fault _
      · split
        · exact nextWf_next (captureCrew_memWf (stopEngines_memWf h))
        · exact nextWf_fault _
  · split
    · exact nextWf_next h
    · split
      · split
        · exact nextWf_next (captureCrew_memWf h)
        · exact nextWf_fault _
      · split
        · exact nextWf_next (captureCrew_memWf h)
        · exact nextWf_fault _

theorem execLateReturn_nextWf {remote : List RemoteLine} {s : State} (h : s.memWf) : NextWf (execLateReturn remote s) := by
  unfold execLateReturn
  dsimp only
  split
  · exact nextWf_next h
  · split
    · exact nextWf_next h
    · split
      · exact nextWf_next h
      · split
        · split
          · exact nextWf_next (followImages_memWf (returnLoad_memWf h))
          · exact nextWf_next h
        · exact nextWf_next (followImages_memWf (wordReturn_memWf h))
        · split
          · exact nextWf_next h
          · exact nextWf_next (followImages_memWf (atPerform_memWf h))
        · exact nextWf_next h

theorem beginDrop_memWf {s : State} {c : Nat} (h : s.memWf) : (beginDrop s c).memWf :=
  mapRows_memWf (foldl_memWf (fun _ _ hu => State.updTeam_memWf hu) (foldl_memWf (fun _ _ hu => dropWalks_memWf hu) (dropFills_memWf (leavesBack_memWf
    (freeArray_memWf h)))))

theorem dropContext_memWf {s : State} {ck ctx : Nat} (h : s.memWf) : (dropContext s ck ctx).memWf := h

theorem endDrop_memWf {s : State} {c : Nat} (h : s.memWf) : (endDrop s c).memWf := by
  unfold endDrop
  refine unfuse_memWf ?_
  refine memWf_of_mem rfl ?_
  split <;> exact emptySlots_memWf (foldl_memWf (fun _ _ hu => dropContext_memWf (drainWb_memWf hu)) h)

theorem stepDrop_memWf {s : State} {c : Nat} (h : s.memWf) : (stepDrop s c).memWf := ite_memWf h (endDrop_memWf h)

theorem slotCommand_memWf {s : State} {die core slot cmd : Nat} (h : s.memWf) : (slotCommand s die core slot cmd).memWf :=
  ite_memWf h (ite_memWf h (ite_memWf h (ite_memWf (saveCrew_memWf h) (stepDrop_memWf (beginDrop_memWf h)))))

theorem writeSlotCmd_memWf {s : State} {die core : Nat} {v : W32} (h : s.memWf) : (writeSlotCmd s die core v).memWf := slotCommand_memWf h

theorem takeCommand_memWf {s : State} {c : Nat} (h : s.memWf) : (takeCommand s c).memWf :=
  foldl_memWf (fun _ _ hu => ite_memWf (slotCommand_memWf (ite_memWf hu hu)) hu) h

theorem takeFed_memWf {s : State} {cr : Crew} (h : s.memWf) : OptAll (fun p => State.memWf p.1) (takeFed s cr) := by
  unfold takeFed
  dsimp only
  split
  · exact optAll_some h
  · split
    · exact optAll_some h
    · split
      · exact optAll_none _
      · split
        · split
          · exact optAll_none _
          · exact optAll_some h
        · split
          · split
            · exact optAll_none _
            · exact optAll_some h
          · split
            · exact optAll_none _
            · exact optAll_some h

theorem execCrewStart_nextWf {s : State} (h : s.memWf) : NextWf (execCrewStart s) := by
  unfold execCrewStart
  dsimp only
  split
  · exact nextWf_next h
  · split
    · exact nextWf_next h
    · rename_i e
      exact nextWf_next (takeCommand_memWf (mapRows_memWf (foldl_memWf (fun _ _ hv => State.setTeamAt_memWf hv) (acquireCrew_memWf (State.setCrew_memWf
        (memWf_of_some_fst (takeFed_memWf h) e))))))

theorem askBatches_memWf {s : State} {c : Nat} (h : s.memWf) : (askBatches s c).memWf :=
  settleBatches_memWf (foldl_memWf (fun _ _ hu => askLeave_memWf hu) h)

theorem resumeCrew_memWf {s : State} {c : Nat} (h : s.memWf) : (resumeCrew s c).memWf :=
  takeCommand_memWf (mapRows_memWf (askBatches_memWf (foldl_memWf (fun _ _ hu => State.updTeam_memWf hu) (acquireCrew_memWf h))))

theorem badImage_memWf {s : State} {c : Nat} (h : s.memWf) : (badImage s c).memWf := mapRows_memWf h

theorem withTeams_memWf {s : State} {c : Nat} (h : s.memWf) : (withTeams s c).memWf :=
  foldl_memWf (fun _ _ hu => ite_memWf hu (State.setTeamAt_memWf hu)) h

theorem buffersAgain_memWf {c : Nat} {l : List Nat} {s : State} (h : s.memWf) : OptAll State.memWf (buffersAgain c l s) := by
  induction l generalizing s with
  | nil =>
    unfold buffersAgain
    exact optAll_some h
  | cons a l ih =>
    unfold buffersAgain
    dsimp only
    split
    · exact optAll_none _
    · rename_i e
      exact ih (State.updTeam_memWf (memWf_of_fst (itemsAgain_memWf h) e))

theorem execCrewRestore_nextWf {s : State} (h : s.memWf) : NextWf (execCrewRestore s) := by
  unfold execCrewRestore
  dsimp only
  split
  · exact nextWf_next h
  · split
    · exact nextWf_next (badImage_memWf h)
    · split
      · exact nextWf_next h
      · split
        · exact nextWf_next (badImage_memWf h)
        · split
          · exact nextWf_next h
          · split
            · exact nextWf_next h
            · rename_i e'
              have hu := memWf_of_some (buffersAgain_memWf (loadSections_memWf (withTeams_memWf h))) e'
              exact nextWf_next (resumeCrew_memWf hu)

theorem dropRest_memWf {s : State} {c : Nat} (h : s.memWf) : (dropRest s c).memWf := by
  unfold dropRest
  exact ops_memWf (dropFills_memWf (leavesBack_memWf (freeArray_memWf h)))

theorem countEnd_memWf {s : State} {cr : Crew} (h : s.memWf) : (countEnd s cr).memWf := by
  unfold countEnd
  dsimp only
  split
  · exact h
  · exact settleLaunches_memWf h

theorem endRelease_memWf {s : State} {c scope : Nat} (h : s.memWf) : (endRelease s c scope).1.memWf :=
  foldl_fst_memWf (fun _ _ hu => relReady_memWf hu) h

theorem execCrewEnd_nextWf {s : State} (h : s.memWf) : NextWf (execCrewEnd s) := by
  unfold execCrewEnd
  dsimp only
  split
  · exact nextWf_next h
  · split
    · exact nextWf_next (dropRest_memWf h)
    · split
      · rename_i e
        have hu := memWf_of_fst (ite_fst_memWf (endRelease_memWf (foldl_memWf (fun _ _ hu => returnAll_memWf hu) (State.setCrew_memWf (dropRest_memWf h))))
          (foldl_memWf (fun _ _ hu => returnAll_memWf hu) (State.setCrew_memWf (dropRest_memWf h)))) e
        exact nextWf_next hu
      · rename_i e
        have hu := memWf_of_fst (ite_fst_memWf (endRelease_memWf (foldl_memWf (fun _ _ hu => returnAll_memWf hu) (State.setCrew_memWf (dropRest_memWf h))))
          (foldl_memWf (fun _ _ hu => returnAll_memWf hu) (State.setCrew_memWf (dropRest_memWf h)))) e
        exact nextWf_next (countEnd_memWf (unfuse_memWf (State.setCrew_memWf (emptySlots_memWf (ite_memWf (foldl_memWf
          (fun _ _ hv => releaseAt_memWf _ _ _ _ hv) hu) hu)))))

theorem execWaitLimitExpiry_nextWf {s : State} (h : s.memWf) : NextWf (execWaitLimitExpiry s) := by
  unfold execWaitLimitExpiry
  dsimp only
  split
  · exact nextWf_next h
  · refine nextWf_next ?_
    refine foldl_memWf (fun _ _ hu => ?_) (promoteSaved_memWf h)
    split
    · split
      · exact hu
      · exact ite_memWf hu hu
    · exact hu

end Sys2Proof.Machine
end

section
/-! SUPPORT. Prefixes and the start of clauses keep memory canonical. -/

open Sys2Proof Sys2Proof.Machine

namespace Sys2Proof.Machine

theorem prefWord_memWf {may : Usage → Bool} {f : Pfx → Pfx} {s : State} (h : s.memWf) : (prefWord may f s).memWf := by
  unfold prefWord
  split
  · exact State.enterHandler_memWf h
  · exact h

theorem beginClause_memWf {s : State} {c : Clause} (h : s.memWf) : (beginClause s c).memWf := by
  unfold beginClause
  dsimp only
  split
  · exact State.enterHandler_memWf h
  · exact ite_memWf (ite_memWf h h) h

theorem fetchClause_memWf {s : State} (h : s.memWf) : (fetchClause s).memWf := by
  unfold fetchClause
  refine ite_memWf (State.enterHandler_memWf h) ?_
  dsimp only
  split
  · exact State.blockOn_memWf (askWalk_memWf h)
  · exact State.enterHandler_memWf (State.mapTeam_memWf (dropWalks_memWf h))
  · exact ite_memWf (State.killCrew_memWf h) (beginClause_memWf h)

theorem settleAcq_memWf {s : State} (h : s.memWf) : (settleAcq s).memWf := by
  unfold settleAcq
  dsimp only
  split
  · exact h
  · exact ite_memWf h (State.acquireTeam_memWf h)

theorem passOver_memWf {s : State} {key : Nat} (h : s.memWf) : (passOver s key).memWf :=
  foldl_memWf (fun _ _ hu => ite_memWf hu (State.updTeam_memWf hu)) h

theorem startClause_memWf {s : State} {key : Nat} (h : s.memWf) : (startClause s key).memWf :=
  fetchClause_memWf (settleAcq_memWf (State.checkOut_memWf h))

theorem execClauseStart_nextWf {s : State} (h : s.memWf) : NextWf (execClauseStart s) := by
  unfold execClauseStart
  dsimp only
  split
  · exact nextWf_next h
  · split
    · exact nextWf_next (State.checkOut_memWf h)
    · split
      · exact nextWf_next (startClause_memWf (passOver_memWf h))
      · exact nextWf_next (startClause_memWf h)

end Sys2Proof.Machine
end

section
/-! SUPPORT. What system software and the host do keeps memory canonical: a reset leaves a part of it out. -/

open Sys2Proof Sys2Proof.Machine

namespace Sys2Proof.Machine

theorem giveLeave_memWf {s : State} {d : Nat} {x : LeaveWho} (h : s.memWf) : (giveLeave s d x).memWf := by
  unfold giveLeave
  dsimp only
  split
  · exact State.updTeam_memWf h
  · exact h
  · exact arrayGranted_memWf h
  · exact h
  · exact mapRun_memWf h

theorem execLeaveGrant_nextWf {s : State} (h : s.memWf) : NextWf (execLeaveGrant s) := by
  unfold execLeaveGrant
  dsimp only
  split
  · exact nextWf_next h
  · exact nextWf_next (giveLeave_memWf h)

theorem writeSlots_memWf {s : State} {d core off : Nat} {v : W64} (h : s.memWf) : (writeSlots s d core off v).memWf :=
  ite_memWf (writeSlotCmd_memWf h) (ite_memWf h (ite_memWf (bindSlot_memWf (ite_memWf h h)) (ite_memWf h h)))

theorem writeDie_memWf {s : State} {d off : Nat} {v : W64} (h : s.memWf) : (writeDie s d off v).memWf :=
  ite_memWf h (ite_memWf h (ite_memWf (ite_memWf h h) (ite_memWf h (ite_memWf (State.setIfl_memWf h) (ite_memWf (State.setRas_memWf h) (ite_memWf
    (writeSlots_memWf h) h))))))

theorem writeBar_memWf {s : State} {f off : Nat} {v : W64} (h : s.memWf) : (writeBar s f off v).memWf :=
  ite_memWf h (ite_memWf h (ite_memWf h (ite_memWf h h)))

theorem writeDevCtl2_memWf {s : State} {f : Nat} {v : W64} (h : s.memWf) : (writeDevCtl2 s f v).memWf := h

theorem execRegisterWrite_nextWf {off : BitVec 32} {value : W64} {s : State} (h : s.memWf) : NextWf (execRegisterWrite off value s) :=
  nextWf_next (ite_memWf (writeDie_memWf h) (ite_memWf h (ite_memWf (ite_memWf (writeDevCtl2_memWf h) h) (ite_memWf h (writeBar_memWf h)))))

theorem submitNext_memWf {s : State} {f : Nat} (h : s.memWf) : (submitNext s f).memWf := by
  unfold submitNext
  dsimp only
  split
  · exact hostPut_memWf h
  · exact hostPut_memWf (launchFrom_memWf h)

theorem readRing_memWf {f n : Nat} {s : State} (h : s.memWf) : (readRing f n s).memWf := by
  induction n generalizing s with
  | zero =>
    unfold readRing
    exact h
  | succ n ih =>
    unfold readRing
    exact ite_memWf h (ih (submitNext_memWf h))

theorem takeRing_memWf {s : State} {f : Nat} (h : s.memWf) : (takeRing s f).memWf := ite_memWf h (settleLaunches_memWf (readRing_memWf h))

theorem withFirmware_memWf {s : State} (h : s.memWf) : (withFirmware s).memWf := ite_memWf h (foldl_memWf (fun _ _ hu => hu) h)

theorem State.reboot_memWf {s : State} (h : s.memWf) : (State.reboot s).memWf := withFirmware_memWf (cleared_memWf _ h)

theorem discardCrew_memWf {s : State} {c : Nat} (h : s.memWf) : (discardCrew s c).memWf := by
  unfold discardCrew
  refine unfuse_memWf (State.setCrew_memWf (teams_memWf (emptySlots_memWf (ops_memWf ?_))))
  refine foldl_memWf (fun _ _ hu => State.setSpin_memWf hu) ?_
  exact foldl_memWf (fun _ _ hu => returnAll_memWf (dropWalks_memWf hu)) (dropFills_memWf (leavesBack_memWf (freeArray_memWf h)))

theorem execFlrVirtualFunction_nextWf {s : State} (h : s.memWf) : NextWf (execFlrVirtualFunction s) := by
  unfold execFlrVirtualFunction
  dsimp only
  split
  · exact nextWf_next h
  · exact nextWf_next (rasLog_memWf (foldl_memWf (fun _ _ hu => ite_memWf (discardCrew_memWf hu) hu) h))

theorem execContextTeardown_nextWf {s : State} (h : s.memWf) : NextWf (execContextTeardown s) :=
  nextWf_next (foldl_memWf (fun _ _ hu => foldl_memWf (fun _ _ hv => ite_memWf (endRun_memWf hv) hv) hu) h)

theorem execCoreRetire_nextWf {s : State} (h : s.memWf) : NextWf (execCoreRetire s) := by
  unfold execCoreRetire
  dsimp only
  split
  · exact nextWf_next h
  · split
    · exact nextWf_next (foldl_memWf (fun _ _ hu => slotCommand_memWf hu) h)
    · split
      · exact nextWf_next h
      · exact nextWf_next (reportFixed_memWf h)

theorem execChannelRetire_nextWf {s : State} (h : s.memWf) : NextWf (execChannelRetire s) := by
  unfold execChannelRetire
  dsimp only
  split
  · exact nextWf_next h
  · exact nextWf_next (reportFixed_memWf h)

theorem execLaneRetire_nextWf {s : State} (h : s.memWf) : NextWf (execLaneRetire s) := by
  unfold execLaneRetire
  dsimp only
  split
  · exact nextWf_next h
  · exact nextWf_next (reportFixed_memWf h)

theorem loseCrew_memWf {s : State} {c : Nat} (h : s.memWf) : (loseCrew s c).memWf := by
  unfold loseCrew
  split
  · exact h
  · exact h
  · exact reportConfined_memWf h

theorem execSoftError_nextWf {e : ErrorSite} {s : State} (h : s.memWf) : NextWf (execSoftError e s) := by
  unfold execSoftError
  refine nextWf_next ?_
  dsimp only
  split
  · exact reportFixed_memWf h
  · exact ite_memWf h (reportConfined_memWf (State.updTeam_memWf h))
  · exact ite_memWf h (reportConfined_memWf (State.setCrew_memWf h))
  · exact reportConfined_memWf (poisonLine_memWf h)
  · exact reportConfined_memWf (spoilCopy_memWf h)
  · split
    · exact h
    · exact reportConfined_memWf (State.setSpin_memWf h)
  · exact loseCrew_memWf h
  · exact loseCrew_memWf h
  · exact State.emit_memWf (rasLog_memWf h)

end Sys2Proof.Machine
end

section
/-! SUPPORT. Every instruction keeps memory canonical. -/

open Sys2Proof Sys2Proof.Machine

namespace Sys2Proof.Machine

/-- Every arm of the dispatch keeps memory canonical; arms with one argument stand together. -/
theorem exec_nextWf {i : Instr} {s : State} (h : s.memWf) : NextWf (exec i s) := by
  cases i
  case imx | grd => exact nextWf_next (prefWord_memWf h)
  case bra | brs | call | sdiv | ssel | smov | scmp | sadd64 | sli | saddImmediate | sshlImmediate | sshrImmediate | ssraImmediate | sbcast |
      voteAny | voteAll | voteBallot | popm | prio | sysr | sysw | trap | lred | lscan | sgnq | spchk | pmapRd | rstat | cyield | rseed | mstat |
      idemRd | afstatPend | nop | yield | cyieldOff | hinvAll | idemClr =>
    apply runWord_nextWf h; exact h
  case brv => exact execBrv_nextWf h
  case ret => exact execRet_nextWf h
  case mark => exact execMark_nextWf h
  case sadd | ssub | smul | smulh | smin | smax | sand | sor | sxor | sshl | sshr | ssra => exact sWord_nextWf h
  case slane => exact execSlane_nextWf h
  case bar => exact execBar_nextWf h
  case arrive => exact execArrive_nextWf h
  case await => exact execAwait_nextWf h
  case reform => exact execReform_nextWf h
  case qbind => exact execQbind_nextWf h
  case qpush => apply runWord_nextWf h; exact pushWord_memWf h
  case qpushTeam => exact execQpushTeam_nextWf h
  case qpop | qpopTeam | qtry | qtryTeam => apply runWord_nextWf h; exact popWord_memWf h
  case fadd => exact execFadd_nextWf h
  case fsub => exact execFsub_nextWf h
  case fmul => exact execFmul_nextWf h
  case ffma | fmin | fmax | fdot2 | fclass | fcvt | imad | vsel | vmov | vli | sgnx | pack | unpk => exact vecWord_nextWf h
  case fdiv => exact execFdiv_nextWf h
  case fsgn => exact execFsgn_nextWf h
  case fsgnNeg => exact execFsgnNeg_nextWf h
  case fsgnXor => exact execFsgnXor_nextWf h
  case fcmp => exact execFcmp_nextWf h
  case frcp => exact execFrcp_nextWf h
  case frsq => exact execFrsq_nextWf h
  case fsqrt => exact execFsqrt_nextWf h
  case fex2 => exact execFex2_nextWf h
  case flg2 => exact execFlg2_nextWf h
  case fsin => exact execFsin_nextWf h
  case fcos => exact execFcos_nextWf h
  case frnd => exact execFrnd_nextWf h
  case icvt => exact execIcvt_nextWf h
  case iadd => exact execIadd_nextWf h
  case isub => exact execIsub_nextWf h
  case imul => exact execImul_nextWf h
  case imulh => exact execImulh_nextWf h
  case imin => exact execImin_nextWf h
  case imax => exact execImax_nextWf h
  case ishl => exact execIshl_nextWf h
  case ishr => exact execIshr_nextWf h
  case isra => exact execIsra_nextWf h
  case iand => exact execIand_nextWf h
  case ior => exact execIor_nextWf h
  case ixor => exact execIxor_nextWf h
  case icmp => exact execIcmp_nextWf h
  case iabs => exact execIabs_nextWf h
  case inot => exact execInot_nextWf h
  case ipop => exact execIpop_nextWf h
  case iclz => exact execIclz_nextWf h
  case lperm => exact execLperm_nextWf h
  case ld => apply runWord_nextWf h; exact withAccess_memWf h (fun _ _ hu => issueLoad_memWf hu)
  case st => apply runWord_nextWf h; exact withAccess_memWf h (fun _ _ hu => issueStore_memWf hu)
  case lds => apply runWord_nextWf h; exact spAccess_memWf h (fun _ _ hu => issueLoad_memWf hu)
  case sts => apply runWord_nextWf h; exact spAccess_memWf h (fun _ _ hu => issueStore_memWf hu)
  case ldk => exact execLdk_nextWf h
  case ldb => exact execLdb_nextWf h
  case pref => exact execPref_nextWf h
  case fenceAcq => apply runWord_nextWf h; exact withAcquire_memWf h (fun _ hu => hu)
  case fenceRel => apply runWord_nextWf h; exact withRelease_memWf h (fun _ hu => hu)
  case fenceAr => apply runWord_nextWf h; exact withRelease_memWf h (fun _ hu => withAcquire_memWf hu (fun _ hv => hv))
  case cinv | cwb => exact cacheWord_nextWf h
  case rrinv => exact execRrinv_nextWf h
  case mwait => exact execMwait_nextWf h
  case pmap => exact execPmap_nextWf h
  case loadReturn => exact execLoadReturn_nextWf h
  case amo | acas | acas2 | red | redx | ald | ast => exact atomicWord_nextWf h
  case apin => exact execApin_nextWf h
  case hostAtomicCompletion => exact execHostAtomicCompletion_nextWf h
  case hostAtomicTimeout => exact execHostAtomicTimeout_nextWf h
  case rbind => exact execRbind_nextWf h
  case rdrain => exact execRdrain_nextWf h
  case rwait => exact execRwait_nextWf h
  case rfree => exact execRfree_nextWf h
  case mclaim => exact execMclaim_nextWf h
  case mrelease => exact execMrelease_nextWf h
  case mgang => exact execMgang_nextWf h
  case mload => exact execMload_nextWf h
  case mloadc => exact execMloadc_nextWf h
  case mtable => exact execMtable_nextWf h
  case mcbook => exact execMcbook_nextWf h
  case mma | mmac => exact gangWord_nextWf h
  case mzero | mrd | mwr => apply runWord_nextWf h; exact withBank_memWf h (fun _ hu => matGate_memWf hu (fun _ hv => hv))
  case mst => exact execMst_nextWf h
  case mtrq => exact execMtrq_nextWf h
  case hbind => exact execHbind_nextWf h
  case hlog => exact execHlog_nextWf h
  case hreplay => exact execHreplay_nextWf h
  case hstat => exact execHstat_nextWf h
  case hinv => exact execHinv_nextWf h
  case rayFetchReturn => exact execRayFetchReturn_nextWf h
  case launch | cplan => apply runWord_nextWf h; exact issueWord_memWf h
  case evsig => exact execEvsig_nextWf h
  case evadd => exact execEvadd_nextWf h
  case evwait => exact execEvwait_nextWf h
  case rqbindAttach => exact execRqbindAttach_nextWf h
  case rqbindDetach => exact execRqbindDetach_nextWf h
  case rqbindStat => apply runWord_nextWf h; exact withQueue_memWf h (fun _ => issueWord_memWf h)
  case lateReturn => exact execLateReturn_nextWf h
  case tlbInvalidate | rrcstepsWrite | tvalidWrite | clockChange | mwaitWake | frameZeroed | inboundAtomicop | channelCopyComplete =>
    exact nextWf_next h
  case missingDecrement => exact execMissingDecrement_nextWf h
  case registerWrite => exact execRegisterWrite_nextWf h
  case rstw | rred | ramo => exact remoteWord_nextWf h
  case aflush => exact execAflush_nextWf h
  case aflushAll => exact execAflushAll_nextWf h
  case afstatFail => apply runWord_nextWf h; exact takeUnrep_memWf h
  case rsvs => exact execRsvs_nextWf h
  case rsvsRet => apply runWord_nextWf h; exact returnResv_memWf h
  case rrpush => exact execRrpush_nextWf h
  case aggregatedStore => exact execAggregatedStore_nextWf h
  case storeAcknowledgement => exact execStoreAcknowledgement_nextWf h
  case recordPacket => exact execRecordPacket_nextWf h
  case reservationRequest => exact execReservationRequest_nextWf h
  case reservationGrant => exact execReservationGrant_nextWf h
  case reservationCancel => exact execReservationCancel_nextWf h
  case reservationReturn => exact execReservationReturn_nextWf h
  case inbWrite => exact nextWf_next (ite_memWf (settleLaunches_memWf (sealQueue_memWf h)) h)
  case deviceUnreachable => exact execDeviceUnreachable_nextWf h
  case cplanFree => exact execCplanFree_nextWf h
  case cstart => exact execCstart_nextWf h
  case cwait => exact execCwait_nextWf h
  case cstat => apply runWord_nextWf h; exact withPlan_memWf h (fun _ _ _ _ => h)
  case ccancel => apply runWord_nextWf h; exact withPlan_memWf h (fun _ _ _ _ => endRun_memWf h)
  case tenc | tdec => exact tileWord_nextWf h
  case chunkArrival => exact execChunkArrival_nextWf h
  case freqWrite => exact execFreqWrite_nextWf h
  case hostSubmit => exact nextWf_next (ite_memWf h (takeRing_memWf h))
  case cqheadWrite => exact nextWf_next (ite_memWf h (takeRing_memWf (hostDrain_memWf h)))
  case attestationRequest => exact nextWf_next (ite_memWf h (ite_memWf h h))
  case softError => exact execSoftError_nextWf h
  case lineReplacement => exact execLineReplacement_nextWf h
  case flashUpdate => exact nextWf_next (ite_memWf (withFirmware_memWf h) h)
  case clauseStart => exact execClauseStart_nextWf h
  case join => exact execJoin_nextWf h
  case elseW => exact execElseW_nextWf h
  case exit => exact execExit_nextWf h
  case tfence => exact execTfence_nextWf h
  case tret => apply runWord_nextWf h; exact State.trapReturn_memWf h
  case pmiss => apply runWord_nextWf h; exact pmissPages_memWf (fun _ hu => endPmiss_memWf hu) h
  case pret => exact execPret_nextWf h
  case pageWalkComplete => exact execPageWalkComplete_nextWf h
  case storeComplete => exact execStoreComplete_nextWf h
  case dqCommit => exact execDqCommit_nextWf h
  case atomicReturn => exact execAtomicReturn_nextWf h
  case fillBeat => exact execFillBeat_nextWf h
  case fillComplete => exact execFillComplete_nextWf h
  case drainComplete => exact execDrainComplete_nextWf h
  case mfence => exact execMfence_nextWf h
  case arraySchedule => exact execArraySchedule_nextWf h
  case matrixStep => exact execMatrixStep_nextWf h
  case mmacBlockDecode => exact execMmacBlockDecode_nextWf h
  case mmacVerify => exact execMmacVerify_nextWf h
  case matrixComplete => exact execMatrixComplete_nextWf h
  case trace => exact execTrace_nextWf h
  case resume => exact execResume_nextWf h
  case abort => exact execAbort_nextWf h
  case launchPortRecord => exact execLaunchPortRecord_nextWf h
  case fedCrewTimeout => exact execFedCrewTimeout_nextWf h
  case slotBind => exact nextWf_next (bindSlot_memWf h)
  case crewStart => exact execCrewStart_nextWf h
  case crewRestore => exact execCrewRestore_nextWf h
  case slotSave => exact nextWf_next (slotCommand_memWf h)
  case saveComplete => exact execSaveComplete_nextWf h
  case slotDrop => exact nextWf_next (ite_memWf (stepDrop_memWf h) (slotCommand_memWf h))
  case crewEnd => exact execCrewEnd_nextWf h
  case waitLimitExpiry => exact execWaitLimitExpiry_nextWf h
  case leaveGrant => exact execLeaveGrant_nextWf h
  case tlbInvalidateDone => exact execTlbInvalidateDone_nextWf h
  case spindleAgeDepart => exact execSpindleAgeDepart_nextWf h
  case packetHandoff => exact execPacketHandoff_nextWf h
  case packetTimeout => exact execPacketTimeout_nextWf h
  case rsvsTimeout => exact execRsvsTimeout_nextWf h
  case compositingPortRecord => exact execCompositingPortRecord_nextWf h
  case reductionBurst => exact execReductionBurst_nextWf h
  case chunkAcknowledgement => exact execChunkAcknowledgement_nextWf h
  case runTimeout => exact execRunTimeout_nextWf h
  case powerOnReset | hotReset | flrPhysicalFunction => exact nextWf_next (State.reboot_memWf h)
  case flrVirtualFunction => exact execFlrVirtualFunction_nextWf h
  case d3hotEntry | fabricPortFailure | fabricPortReturn | d3hotExit => exact nextWf_next (ite_memWf h h)
  case d3coldEntry => exact nextWf_next (cleared_memWf _ h)
  case coreRetire => exact execCoreRetire_nextWf h
  case channelRetire => exact execChannelRetire_nextWf h
  case laneRetire => exact execLaneRetire_nextWf h
  case wayRetire => exact nextWf_next (reportFixed_memWf h)
  case mloadComplete => exact execMloadComplete_nextWf h
  case mstComplete => exact execMstComplete_nextWf h
  case mtrqComplete => exact execMtrqComplete_nextWf h
  case tileCodingComplete => exact execTileCodingComplete_nextWf h
  case contextTeardown => exact execContextTeardown_nextWf h
  case systemSoftwareSeal => exact nextWf_next (settleLaunches_memWf (sealQueue_memWf h))

end Sys2Proof.Machine
end

section
/-! SUPPORT. Words and chained groups keep memory canonical (R57, R63 to R66). -/

open Sys2Proof Sys2Proof.Machine

namespace Sys2Proof.Machine

theorem badWord_nextWf {w : W32} {s : State} (h : s.memWf) : NextWf (badWord w s) := by
  unfold badWord
  dsimp only
  split
  · exact nextWf_next (ite_memWf (prefWord_memWf h) (prefWord_memWf h))
  · exact nextWf_next (State.enterHandler_memWf h)

theorem wordStep_nextWf {s : State} (h : s.memWf) : NextWf (wordStep s) := by
  unfold wordStep
  split
  · exact exec_nextWf h
  · exact badWord_nextWf h

theorem Member.run_nextWf {s : State} {m : Member} (h : s.memWf) : NextWf (Member.run s m) := exec_nextWf h

theorem firstStop_memWf {s : State} {l : List Member} (h : s.memWf) : OptAll NextWf (firstStop s l) := by
  induction l with
  | nil =>
    unfold firstStop
    exact optAll_none _
  | cons a l ih =>
    unfold firstStop
    split
    · rename_i e
      split
      · exact ih
      · exact optAll_some (nextWf_next (memWf_of_next (Member.run_nextWf h) e))
    · exact optAll_some (Member.run_nextWf h)

theorem faultBefore_memWf {s0 : State} {first : W64} {x : TrapRegs} (h : s0.memWf) : (faultBefore s0 first x).memWf := State.enterHandler_memWf h

theorem runMembers_nextWf {s0 s : State} {first : W64} {l : List Member} (h : s0.memWf) (h1 : s.memWf) : NextWf (runMembers s0 s first l) := by
  induction l generalizing s with
  | nil =>
    unfold runMembers
    exact nextWf_next h1
  | cons a l ih =>
    unfold runMembers
    split
    · rename_i e
      split
      · exact ih (memWf_of_next (Member.run_nextWf h1) e)
      · exact nextWf_next (ite_memWf (faultBefore_memWf h) h)
    · exact Member.run_nextWf h1

theorem issueGroup_nextWf {s0 : State} {first : W64} {l : List Member} (h : s0.memWf) : NextWf (issueGroup s0 first l) := by
  unfold issueGroup
  dsimp only
  split
  · rename_i e
    exact (firstStop_memWf (State.mapTeam_memWf h)) _ e
  · split
    · rename_i e'
      have hu := memWf_of_next (runMembers_nextWf h (State.mapTeam_memWf h)) e'
      split
      · exact nextWf_next hu
      · exact nextWf_next (commit_memWf _ _ _ _ _ _ _ hu)
    · exact runMembers_nextWf h (State.mapTeam_memWf h)

theorem groupStep_nextWf {s : State} (h : s.memWf) : NextWf (groupStep s) := by
  unfold groupStep
  dsimp only
  split
  · exact nextWf_next h
  · split
    · exact nextWf_next (State.enterHandler_memWf h)
    · split
      · exact nextWf_next (State.enterHandler_memWf h)
      · exact issueGroup_nextWf h

theorem clauseStep_nextWf {s : State} (h : s.memWf) : NextWf (clauseStep s) := by
  unfold clauseStep
  split
  · exact groupStep_nextWf h
  · exact wordStep_nextWf h

end Sys2Proof.Machine
end

section
/-! SUPPORT. A turn, and what ends a step, keep memory canonical. -/

open Sys2Proof Sys2Proof.Machine

namespace Sys2Proof.Machine

theorem atSite_nextWf {s : State} {e : Site × Instr} (h : s.memWf) : NextWf (atSite s e) := exec_nextWf h

theorem stallOf_memWf {n : Nat} {s : State} (h : s.memWf) : OptAll State.memWf (stallOf n s) := by
  induction n generalizing s with
  | zero =>
    unfold stallOf
    exact optAll_none _
  | succ n ih =>
    unfold stallOf
    split
    · rename_i e
      have hu := memWf_of_next (clauseStep_nextWf h) e
      split
      · exact optAll_some hu
      · split
        · exact ih hu
        · exact optAll_none _
    · exact optAll_none _

theorem tryTeam_memWf {s : State} {key : Nat} (h : s.memWf) : OptAll State.memWf (tryTeam s key) := by
  have hu : (if (s.teamAt key).clause.isSome then settleAcq (s.checkOut key) else startClause s key).memWf :=
    ite_memWf (settleAcq_memWf (State.checkOut_memWf h)) (startClause_memWf h)
  unfold tryTeam
  dsimp only
  generalize (if (s.teamAt key).clause.isSome then settleAcq (s.checkOut key) else startClause s key) = u at hu ⊢
  split
  · exact optAll_some hu
  · split
    · exact optAll_none _
    · split
      case _ => exact optAll_none _
      case _ e =>
        have hb := memWf_of_some (stallOf_memWf hu) e
        split
        · exact optAll_none _
        · split
          · exact optAll_some hb
          · exact optAll_some (State.mapTeam_memWf hb)

theorem sweepTeam_memWf {s : State} {key : Nat} (h : s.memWf) : (sweepTeam s key).memWf := by
  unfold sweepTeam
  refine ite_memWf (State.updTeam_memWf h) ?_
  refine ite_memWf h ?_
  dsimp only
  split
  · rename_i e
    exact (memWf_of_some (tryTeam_memWf h) e)
  · exact ite_memWf h (State.updTeam_memWf h)

theorem sweep_memWf {s : State} (h : s.memWf) : (sweep s).memWf := foldl_memWf (fun _ _ hu => sweepTeam_memWf hu) h

theorem State.moved_memWf {s : State} (h : s.memWf) : (State.moved s).memWf := h

theorem firstEvent_memWf {s : State} {l : List (Site × Instr)} (h : s.memWf) : OptAll NextWf (firstEvent s l) := by
  induction l with
  | nil =>
    unfold firstEvent
    exact optAll_none _
  | cons a l ih =>
    unfold firstEvent
    split
    · rename_i e
      split
      · exact ih
      · exact optAll_some (nextWf_next (State.moved_memWf (memWf_of_next (atSite_nextWf h) e)))
    · exact optAll_some (atSite_nextWf h)

theorem eventTurn_memWf {s : State} (h : s.memWf) : OptAll NextWf (eventTurn s) := firstEvent_memWf h

theorem clauseTurn_memWf {s : State} (h : s.memWf) : OptAll NextWf (clauseTurn s) :=
  optAll_bind fun _ => optAll_map fun _ => atSite_nextWf h

theorem mapNext_nextWf {f : State → State} {o : Host.Outcome State Fault Refusal} (hf : ∀ u, u.memWf → (f u).memWf) (ho : NextWf o) : NextWf (mapNext f o) := by
  cases o with
  | next u => exact nextWf_next (hf u (ho u rfl))
  | fault r => exact nextWf_fault r
  | refused r => exact nextWf_refused r

theorem boundary_nextWf {s : State} (h : s.memWf) : NextWf (boundary s) := by
  have hs : (sweep s).memWf := sweep_memWf h
  have he : OptAll NextWf ((eventTurn (sweep s)).map (mapNext fun s => { s with turn := false })) :=
    optAll_map_of (eventTurn_memWf hs) fun _ ho => mapNext_nextWf (fun _ hu => hu) ho
  have hc : OptAll NextWf ((clauseTurn (sweep s)).map (mapNext fun s => { s with turn := true })) :=
    optAll_map_of (clauseTurn_memWf hs) fun _ ho => mapNext_nextWf (fun _ hu => hu) ho
  unfold boundary
  dsimp only
  split
  · exact optAll_getD (optAll_orElse he hc) (nextWf_next hs)
  · exact optAll_getD (optAll_orElse hc he) (nextWf_next hs)

theorem turnOf_nextWf {s : State} (h : s.memWf) : NextWf (turnOf s) := by
  unfold turnOf
  dsimp only
  split
  · exact clauseStep_nextWf h
  · split
    · split
      · exact nextWf_next h
      · exact mapNext_nextWf (fun _ hu => hu) (atSite_nextWf h)
    · split
      · exact clauseStep_nextWf (settleAcq_memWf h)
      · exact boundary_nextWf h

theorem keepCode_memWf {s t : State} (h : t.memWf) : (keepCode s t).memWf := ite_memWf h (ite_memWf h h)

theorem trimLlc_memWf {s : State} (h : s.memWf) : (trimLlc s).memWf := ite_memWf h h

theorem trimCaches_memWf {s : State} (h : s.memWf) : (trimCaches s).memWf := by
  unfold trimCaches
  refine (fun hu => ite_memWf hu (rrc_memWf hu)) ?_
  refine foldl_memWf (fun _ _ hu => ite_memWf hu (State.setDie_memWf (foldl_memWf (fun _ _ hv => writeBackLine_memWf _ _ _ hv) (fresh_memWf hu)))) ?_
  exact foldl_memWf (fun _ _ hu => ite_memWf hu (fresh_memWf (State.setCore_memWf hu))) h

theorem State.pass_memWf {s : State} (h : s.memWf) : (State.pass s).memWf := foldl_memWf (fun _ _ hu => hu) h

theorem serveReads_memWf {s : State} (h : s.memWf) : (serveReads s).memWf := foldl_memWf (fun _ _ hu => exportLine_memWf hu) (ite_memWf h h)

theorem settle_memWf {s : State} (h : s.memWf) : (settle s).memWf := settleRuns_memWf (settleWaiters_memWf (serveReads_memWf h))

theorem State.endStep_memWf {s t : State} (h : t.memWf) : (State.endStep s t).memWf :=
  State.pass_memWf (trimLlc_memWf (trimCaches_memWf (keepCode_memWf (settle_memWf h))))

theorem State.sent_memWf {s : State} (h : s.memWf) : (State.sent s).memWf := h

end Sys2Proof.Machine
end

section
/-! SUPPORT. A step keeps memory canonical (R242). -/

open Sys2Proof Sys2Proof.Machine

namespace Sys2Proof.Machine

theorem step_nextWf {s : State} (h : s.memWf) : NextWf (step s) :=
  mapNext_nextWf (fun _ hu => State.endStep_memWf hu) (turnOf_nextWf (State.sent_memWf h))

/-- Settles O7: a step is a turn and what ends it; each is built of operations that write memory byte by byte through `smSet`, drop a part of it,
or leave it alone. -/
theorem stepKeepsMemoryCanonical : Obligations.StepKeepsMemoryCanonical := by
  unfold Obligations.StepKeepsMemoryCanonical
  exact fun _ _ h e => step_nextWf h _ e

end Sys2Proof.Machine
end
